-- ==== Sys2Proof/Word.lean ====
section
/-!
DEFINITION. The word types of the block. Byte order and bit fields are in Machine/Bytes.lean.
-/

namespace Sys2Proof

/-- A byte. -/
abbrev Byte := BitVec 8

/-- A string of bytes, lowest address or first transmitted byte first. -/
abbrev Bytes := List (BitVec 8)

/-- A register word of the block (R666). -/
abbrev Word := BitVec 32

end Sys2Proof
end

