-- ==== Sys2Proof/Syntax.lean ====
section
/-!
DEFINITION. The commands of the block: one constructor for each row of spec/opcode_table.json, in the table's order.
A row that a register write causes carries the path that wrote (R673) and the word written. A row that a message of a
session causes carries the session, the message's TAG and its body after the header of R439. A row whose outcome depends on
something outside the block, or on a physical failure inside it, carries that as an operand (log 7).
-/

namespace Sys2Proof

/-- R673: the path a register access takes: a management core of the active security core, or the control target port
of a die with the initiator class of the access (R624). -/
inductive Path where
  /-- a management core -/
  | core (c : Fin 4)
  /-- the control target port of a die, with the class ctl_req_class gives -/
  | port (die : Fin 4) (cls : BitVec 2)
deriving DecidableEq, Repr

/-- The commands. -/
inductive Instr where
  /-- R661. Assertion of rst_cold_n puts every output of the die at its reset value and makes the die ignore its inputs. -/
  | coldReset
  /-- R662. Release of rst_cold_n brings the die up through the always-on cycle sequence: clocks start, sensing runs, then the lane clock starts and the units leave reset. -/
  | coldResetRelease
  /-- R518. Sensing of the whole array at both references ends, shadows become valid and the defect records are applied. -/
  | fuseSensingDone (read : List (Nat × BitVec 72 × BitVec 72))
  /-- R465. After the lockstep self-test and valid fuse shadows, hardware sets BOOT_CORE to the lowest passing, unmarked core and sets BOOT_VALID. -/
  | bootValid (passing : BitVec 4)
  /-- R486. The boot core runs the ROM flow: it derives keys, reads the flash, loads and checks candidate images, writes the counter record and prepares handover. -/
  | romBoot (octal : Bool)
  /-- R501. A write to BOOT_HANDOVER locks the ROM, wipes slots 0 and 1 and the UDS shadow, and starts firmware at ENTRY. -/
  | bootHandover (p : Path) (value : BitVec 32)
  /-- R466. A write to BOOT_RELEASE releases halted cores 1 to 3 to BOOT_SEC_ENTRY. -/
  | bootRelease (p : Path) (value : BitVec 32)
  /-- R490. Writing 1 to FINALISED in BOOT_CTL marks the running image final until the next reset of the security core. -/
  | finalised (p : Path) (value : BitVec 32)
  /-- R510. Writing 1 to CORE_RESET in BOOT_CTL resets the security core. -/
  | bootCtlCoreReset (p : Path) (value : BitVec 32)
  /-- R493. The reset of the security core that firmware or the loader scheduled 10 ms after a response takes place. -/
  | delayedCoreReset
  /-- R575. A reset of the security core restarts its cores and engines in the seed configuration and leaves guards, die sections, release lines and link keys as they stand. -/
  | securityCoreReset
  /-- R497. A write of BOOT_CAIRN_CMD with GO set requests a raise of the cairn to TARGET, refused under the state and range checks. -/
  | cairnRaise (p : Path) (value : BitVec 32)
  /-- R499. The fuse controller finishes burning the cairn bits below T, and the raise ends OK or E_BURN. -/
  | cairnRaiseEnd (failed : List Nat)
  /-- R491. The BRINGUP_ACTION IMAGE_UPDATE requests the adoption of a new image from node memory, refused under the checks listed. -/
  | imageUpdate (sess : Nat) (tag : BitVec 32) (body : Bytes)
  /-- R493. Adoption into the other slot completes, firmware appends a trial record, answers OK and schedules the security core reset. -/
  | imageAdopted (flashOk : Bool)
  /-- R507. A recovery HELLO frame clears the image buffer, sets the expected SEQ and is answered with INFO. -/
  | recoveryHello (seq : BitVec 8) (payload : Bytes)
  /-- R508. A recovery WRITE frame places image bytes in the buffer at OFFSET and marks the units it covers. -/
  | recoveryWrite (seq : BitVec 8) (payload : Bytes)
  /-- R508. A recovery COMMIT frame checks the buffered image, adopts it into slot A, writes a trial record, answers RESULT and schedules a reset. -/
  | recoveryCommit (seq : BitVec 8) (payload : Bytes) (flashOk : Bool)
  /-- R506. A recovery ABORT frame is answered with ACK. -/
  | recoveryAbort (seq : BitVec 8) (payload : Bytes)
  /-- R506. A recovery frame of reserved type is answered with ACK carrying E_RESERVED. -/
  | recoveryReservedFrame (type : BitVec 8) (seq : BitVec 8) (payload : Bytes)
  /-- R532. FUSE_CMD PROGRAM starts the programming of one data word, refused under the checks of R533. -/
  | fuseProgram (p : Path) (value : BitVec 32)
  /-- R529. FUSE_CMD SEAL computes a region's seal, programs the seal word and senses the region again. -/
  | fuseSeal (p : Path) (value : BitVec 32)
  /-- R527. FUSE_CMD LOCK_WRITE programs the write lock of a sealed region. -/
  | lockWrite (p : Path) (value : BitVec 32)
  /-- R527. FUSE_CMD LOCK_READ programs the read lock of a sealed region. -/
  | lockRead (p : Path) (value : BitVec 32)
  /-- R532. FUSE_CMD REVOKE programs the revocation word of an operator credential slot. -/
  | revoke (p : Path) (value : BitVec 32)
  /-- R534. A fuse programming operation ends after burning and verifying its bits, updating the shadow and ending OK or E_BURN. -/
  | fuseOperationEnd (failed : List (Nat × Nat))
  /-- R521. The periodic re-sensing of the array at both references restricts any shadow that reads more restrictively and queues a fault. -/
  | fuseResense (read : List (Nat × BitVec 72 × BitVec 72))
  /-- R539. LC_CMD with target provision checks regions 2 and 3 and programs cairn bit 0 and word 32. -/
  | lcToProvision (p : Path) (value : BitVec 32)
  /-- R539. LC_CMD with target mission checks regions 1, 2, 3, 4 and 6 and programs word 33. -/
  | lcToMission (p : Path) (value : BitVec 32)
  /-- R539. LC_CMD with target decommissioned programs word 34. -/
  | lcToDecommissioned (p : Path) (value : BitVec 32)
  /-- R541. A transition takes effect when its word verifies: LC_STATE changes, gating and reseeding follow, and a reset or the tamper sequence is started. -/
  | lcTransitionEffect
  /-- R545. A write of ARM arms a debug unlock for the next boot, accepted only in mission with DEBUG_PERMIT set. -/
  | lcDebugArm (p : Path) (value : BitVec 32)
  /-- R544. The BRINGUP_ACTION DEBUG_UNLOCK checks a signed token, arms the unlock and schedules a security core reset. -/
  | debugUnlock (sess : Nat) (tag : BitVec 32) (body : Bytes)
  /-- R542. The BRINGUP_ACTION DECOMMISSION checks the DIE_ID argument and requests the transition to decommissioned. -/
  | decommission (sess : Nat) (tag : BitVec 32) (body : Bytes)
  /-- R547. A write to TMX_CTL selects an observation group and holds the pins at 0 for four slow cycles. -/
  | tmxCtl (p : Path) (value : BitVec 32)
  /-- R549. When every line of a phase has acknowledged or timed out, the block releases the lines of the next phase. -/
  | phaseAdvance
  /-- R555. The node package of a FIRMWARE line has been streamed to node memory and checked, and the line is released with NODE_LOG extended. -/
  | packageVerified
  /-- R551. A released unit raises rel_up, taken after four agreeing samples, and its line counts as acknowledged. -/
  | relUp (line : Fin 64)
  /-- R554. A released unit lowers rel_up; the line is held again, a fault is queued and MEMORY or LINK consequences follow. -/
  | relUpFall (line : Fin 64)
  /-- R554. A line that has not raised rel_up within TIMEOUT is held again, a fault is queued, and its guards are fenced or its link stays unqualified. -/
  | releaseTimeout (line : Fin 64)
  /-- R560. A guard's initial seal sweep ends and the guard becomes SERVING, possibly entering or leaving reduced service. -/
  | sealSweepEnd (g : Fin 40)
  /-- R564. A guard's start-time test of a bank passes and the bank joins service. -/
  | bankTestPass (g : Fin 40) (bank : Nat)
  /-- R563. A security core unit passes its start-time self-test and joins the configuration. -/
  | unitSelfTestPass (unit : Nat)
  /-- R569. Writing POP to BRUP_NEW_CTL removes the oldest queued finding as recorded. -/
  | pop (p : Path) (value : BitVec 32)
  /-- R569. Writing UNRECORDED to BRUP_NEW_CTL removes the oldest finding as unrecorded, keeping the unit excluded and queuing a fault. -/
  | unrecorded (p : Path) (value : BitVec 32)
  /-- R573. The action GUARD_RESET fences and resets one guard, runs its start-time test, restores its rotation list and returns it to service. -/
  | guardReset (sess : Nat) (tag : BitVec 32) (body : Bytes)
  /-- R574. The action SECTION_RESET resets the die's ten guards and clears its tables, which it takes again over the ring. -/
  | sectionReset (sess : Nat) (tag : BitVec 32) (body : Bytes)
  /-- R572. The action GUARD_FENCE fences one guard under R107. -/
  | guardFence (sess : Nat) (tag : BitVec 32) (body : Bytes)
  /-- R572. The action UNIT_HOLD holds a release line, first fencing every guard of a MEMORY line. -/
  | unitHold (sess : Nat) (tag : BitVec 32) (body : Bytes)
  /-- R572. The action UNIT_RELEASE releases a held line, verifying its firmware again. -/
  | unitRelease (sess : Nat) (tag : BitVec 32) (body : Bytes)
  /-- R572. The action CORE_RESET resets the security core 10 ms after the response. -/
  | coreReset (sess : Nat) (tag : BitVec 32) (body : Bytes)
  /-- R578. A write of FP_SAMPLE requests a fingerprint sample to be latched at the next PULSE. -/
  | fpSample (p : Path) (value : BitVec 32)
  /-- R579. Once every stop has latched, the key service compares each snapshot with its reference and fences mismatching guards. -/
  | fingerprintCompare
  /-- R579. A sample in which a stop has not latched within 20 µs queues a ring fault and counts as a mismatch for its guards. -/
  | fpNoLatch
  /-- R578. The key service's 10 ms fingerprint sampling interval expires and a new sample is requested. -/
  | fingerprintSampleInterval
  /-- R72. A guard accepts a request header, applies the checks in order, looks up the key cache and starts the read or write or completes the request with an error. -/
  | upstreamRequest (g : Fin 40) (slice : Nat) (op : BitVec 3) (stream : BitVec 16) (domain : BitVec 13) (addr : BitVec 42) (txn : BitVec 12)
  /-- R81. A guard accepts a write data beat and encrypts and tags the line, or starts the read of a read-modify-write. -/
  | writeDataBeat (g : Fin 40) (slice : Nat) (txn : BitVec 12) (data : BitVec 512) (be : BitVec 64) (side : BitVec 64)
  /-- R639. A guard hands a full-line read or write to the downstream crossing and it passes on its slice. -/
  | downstreamRequestIssue (g : Fin 40) (uid : Nat)
  /-- R78. Read ciphertext and sidecar leave the crossing; the guard decrypts, checks the tag and queues the response. -/
  | downstreamReadResponse (g : Fin 40) (tag : BitVec 12) (err : Bool) (data : BitVec 512) (side : BitVec 64)
  /-- R83. The memory controller acknowledges a write and the guard queues the write's response with OK, E_MEM or E_FENCED. -/
  | downstreamWriteAck (g : Fin 40) (tag : BitVec 12) (err : Bool)
  /-- R83. A ready response is presented on its slice, one per lane cycle in order of readiness, and passes when gu_rsp_ready is 1. -/
  | upstreamResponse (g : Fin 40) (slice : Nat)
  /-- R104. A stage parity error takes its lane out of service within one lane cycle and ends the lines in its pipeline with E_LANE. -/
  | laneParity (g : Fin 40) (bank : Nat) (lane : Nat) (stage : BitVec 4) (lines : List Nat)
  /-- R19. A known-answer block is injected into a lane, claiming a slot if the 32,768-cycle bound is due, and its answer is checked. -/
  | knownAnswerInjection (g : Fin 40) (bank : Nat) (lane : Nat) (good : Bool) (lines : List Nat)
  /-- R114. Writing 1 to GUARD_KAT_INJECT injects one known-answer block into every lane position at once. -/
  | guardKatInject (g : Fin 40) (p : Path) (value : BitVec 32) (bad : List (Nat × Nat)) (lines : List Nat)
  /-- R105. The spare lane of the bank takes the failed lane's place within 64 lane cycles. -/
  | spareSubstitution (g : Fin 40) (bank : Nat)
  /-- R107. Writing FENCE in GUARD_CTL fences the guard, failing in-flight requests, discarding unsent writes and clearing the key cache. -/
  | fence (g : Fin 40) (p : Path) (value : BitVec 32)
  /-- R264. A write to GUARD_THROTTLE sets a tenant line limit that applies from the next interval. -/
  | guardThrottle (g : Fin 40) (p : Path) (value : BitVec 32)
  /-- R264. A 1,024-lane-cycle throttle interval ends and the tenant line count starts again under the current LIMIT. -/
  | throttleInterval (g : Fin 40)
  /-- R112. A write to GUARD_LANE_SHARE sets the source shares, storing values above 100 as 100. -/
  | guardLaneShare (g : Fin 40) (p : Path) (value : BitVec 32)
  /-- R111. Writing GUARD_ERR_CLEAR clears the error counts of the selected status codes. -/
  | guardErrClear (g : Fin 40) (p : Path) (value : BitVec 32)
  /-- R113. Writing GUARD_TAGFAIL_CLEAR clears one domain's tag failure count, or every count and the total. -/
  | guardTagfailClear (g : Fin 40) (p : Path) (value : BitVec 32)
  /-- R642. After 256 lane cycles without an edge the guard counts its memory port clock as stopped and stops accepting headers. -/
  | memoryPortClockStopped (g : Fin 40)
  /-- R642. After 64 consecutive edges the guard counts its memory port clock as running and accepts headers again. -/
  | memoryPortClockRunning (g : Fin 40)
  /-- R137. A miss tracker slot unanswered for 50 µs sends its KEY_REQ again, which its stop drops if one is still queued. -/
  | keyReqResend (g : Fin 40) (slot : Nat)
  /-- R268. A stop inserts a queued message into the ring, no later than after eight passing messages. -/
  | stopInsert (die : Fin 4)
  /-- R265. The key-ring head admits a KEY_REQ to the key service when it can take it. -/
  | keyReq
  /-- R154. The key service answers an admitted KEY_REQ with KEY_FILL or KEY_NONE from the domain key store. -/
  | keyServiceAnswer (ecc : BitVec 2)
  /-- R139. A KEY_FILL arriving whole at a guard is checked, installed and answers its slots, releasing parked requests one per lane cycle. -/
  | keyFill (die : Fin 4)
  /-- R141. A KEY_NONE completes the domain's parked requests with E_NOKEY, or fails the held responses of a return-path slot. -/
  | keyNone (die : Fin 4)
  /-- R130. A fill waiting for a victim is installed once an entry becomes evictable. -/
  | deferredFillInstall (g : Fin 40)
  /-- R131. GUARD_KC_PIN with PIN 1 pins a domain, reserving two entries and loading its live generations. -/
  | kcPin (g : Fin 40) (p : Path) (value : BitVec 32)
  /-- R132. GUARD_KC_PIN with PIN 0 unpins a domain. -/
  | kcUnpin (g : Fin 40) (p : Path) (value : BitVec 32)
  /-- R131. An entry that ceases to be referenced is taken for a pending pin reservation ahead of any waiting fill. -/
  | pinReservationTake (g : Fin 40)
  /-- R190. A write to GUARD_KC_QUERY selects a domain whose cached entries, pin and rotation state appear four register cycles later. -/
  | kcQuery (g : Fin 40) (p : Path) (value : BitVec 32)
  /-- R127. The periodic scrub rechecks the BIND of every valid entry and invalidates failing ones with a safety-class fault. -/
  | bindScrub (g : Fin 40)
  /-- R191. Writing GUARD_MISS_CLEAR clears GUARD_MISS_LAT_MAX or GUARD_MISS_HOLD. -/
  | guardMissClear (g : Fin 40) (p : Path) (value : BitVec 32)
  /-- R161. A ROTATE applied at a stop or guard adds the domain to the rotation list, switching writes to the new generation. -/
  | rotate (die : Fin 4)
  /-- R155. A RETIRE applied at a guard marks entries retiring, fails parked and new requests when every generation is retired, and updates the rotation list. -/
  | retire (die : Fin 4)
  /-- R157. A retiring entry that is no longer referenced is dropped, and the guard acknowledges when the last one is gone. -/
  | retiringEntryDrop (g : Fin 40)
  /-- R160. A retire waiting in the key service is sent when fewer than 16 are outstanding. -/
  | retireDequeue
  /-- R693. An ACK from a guard or stop reaches the head and is counted; a complete set ends the broadcast operation. -/
  | ack
  /-- R693. A broadcast still missing acknowledgements 50 µs after first sending is sent again with the same OP_ID. -/
  | broadcastResend (opId : BitVec 32) (sync : Bool)
  /-- R693. A broadcast still missing acknowledgements at 100 µs fences the missing guards or die sections and counts them as acknowledged. -/
  | ackTimeout (opId : BitVec 32) (sync : Bool)
  /-- R149. A STREAM_SET applied at a stop updates its stream table copy, applying any withdrawal from that lane cycle. -/
  | streamSet (die : Fin 4)
  /-- R148. A READER_SET applied at a stop adds, removes or clears reader-set bits. -/
  | readerSet (die : Fin 4)
  /-- R151. A stop acknowledges a withdrawal once no guard holds an accepted request that it refuses. -/
  | withdrawalDrained (die : Fin 4)
  /-- R188. A TABLE_SYNC message applied at a stop fills its table copies, and the message with LAST set is acknowledged. -/
  | tableSync (die : Fin 4)
  /-- R183. The head sends a PULSE at least every 5 µs. -/
  | pulseInterval
  /-- R578. A PULSE applied at a stop checks continuity and latches fingerprints when a sample is pending. -/
  | pulse (die : Fin 4)
  /-- R184. A RING_ERR reaching the head makes it replay every message from the expected SEQ. -/
  | ringErr
  /-- R181. The head removes one of its messages on its return and checks that it returned unchanged. -/
  | headMessageReturn (wire : Bytes)
  /-- R175. The read of a region list through the DMA port completes and the list is checked and accepted or refused. -/
  | regionListRead
  /-- R176. The key service sends a held sweep descriptor to a guard that has room for one of that kind. -/
  | descriptorSend
  /-- R176. A SWEEP_CMD queues a rekey or domain-sweep descriptor at the guard, or is answered aborted by a fenced guard. -/
  | sweepCmd (die : Fin 4)
  /-- R164. A rekey descriptor, having its lane budget, reads a line and re-seals it or counts a failure. -/
  | sweepLine (g : Fin 40) (rdErr : Bool) (data : BitVec 512) (side : BitVec 64) (wrErr : Bool)
  /-- R169. A domain-sweep descriptor writes a line with zeros sealed under the one-time key. -/
  | domainSweepLine (g : Fin 40) (wrErr : Bool)
  /-- R166. A SWEEP_DONE reaches the head; when every descriptor has ended, the rotation or teardown moves to its retire. -/
  | sweepDone
  /-- R187. A SWEEP_ABORT ends the domain's rekey descriptors at the guard, each with its SWEEP_DONE. -/
  | sweepAbort (die : Fin 4)
  /-- R168. Once every withdrawal of a tearing-down domain has drained, the key service sends one-time keys and runs the domain sweep. -/
  | teardownDrainEnd (domain : BitVec 13)
  /-- R118. The operator message DOMAIN_CREATE creates a domain in the named mode. -/
  | domainCreate (sess : Nat) (tag : BitVec 32) (body : Bytes)
  /-- R168. The operator message DOMAIN_TEARDOWN starts a domain's teardown with its region list. -/
  | operatorDomainTeardown (sess : Nat) (tag : BitVec 32) (body : Bytes)
  /-- R145. The operator message STREAM_PROPOSE sets a stream to proposed in every die section. -/
  | streamPropose (sess : Nat) (tag : BitVec 32) (body : Bytes)
  /-- R147. The operator message STREAM_WITHDRAW withdraws an unconfirmed proposal. -/
  | streamWithdraw (sess : Nat) (tag : BitVec 32) (body : Bytes)
  /-- R147. The operator message STREAM_UNBIND drains and unbinds a confirmed stream. -/
  | operatorStreamUnbind (sess : Nat) (tag : BitVec 32) (body : Bytes)
  /-- R163. The operator message REGION_LIST supplies the region list that starts a rekey sweep. -/
  | regionList (sess : Nat) (tag : BitVec 32) (body : Bytes)
  /-- R212. The operator message INGEST_START queues an ingest job with staging and placement lists. -/
  | ingestStart (sess : Nat) (tag : BitVec 32) (body : Bytes)
  /-- R461. The operator message LINK_ASSIGN assigns or unassigns a link to a tenant domain. -/
  | linkAssign (sess : Nat) (tag : BitVec 32) (body : Bytes)
  /-- R462. The operator message TELEMETRY_READ returns register words from permitted pages only. -/
  | telemetryRead (sess : Nat) (tag : BitVec 32) (body : Bytes)
  /-- R461. The operator message SET_SHARES sets a guard's lane shares. -/
  | setShares (sess : Nat) (tag : BitVec 32) (body : Bytes)
  /-- R131. The operator message PIN pins a domain in a guard. -/
  | pinMsg (sess : Nat) (tag : BitVec 32) (body : Bytes)
  /-- R132. The operator message PIN with its PIN field clear unpins a domain in a guard. -/
  | unpinMsg (sess : Nat) (tag : BitVec 32) (body : Bytes)
  /-- R453. The operator message QUOTE_BLOCK requests a block-only quote. -/
  | quoteBlock (sess : Nat) (tag : BitVec 32) (body : Bytes)
  /-- R424. An SPDM GET_VERSION is answered with version 1.3 only. -/
  | getVersion (operator : Bool) (sess : Option Nat) (req : Bytes)
  /-- R425. An SPDM GET_CAPABILITIES is answered with the block's capabilities. -/
  | getCapabilities (operator : Bool) (sess : Option Nat) (req : Bytes)
  /-- R425. An SPDM NEGOTIATE_ALGORITHMS is answered with the supported algorithms or InvalidRequest. -/
  | negotiateAlgorithms (operator : Bool) (sess : Option Nat) (req : Bytes)
  /-- R424. An SPDM GET_DIGESTS returns the digest of certificate slot 0. -/
  | getDigests (operator : Bool) (sess : Option Nat) (req : Bytes)
  /-- R419. An SPDM GET_CERTIFICATE returns the certificate chain. -/
  | getCertificate (operator : Bool) (sess : Option Nat) (req : Bytes)
  /-- R424. An SPDM CHALLENGE is answered signed with the ECDSA alias key. -/
  | challenge (operator : Bool) (sess : Option Nat) (req : Bytes)
  /-- R426. An SPDM GET_MEASUREMENTS returns the requested measurement indices, signed. -/
  | getMeasurements (operator : Bool) (sess : Option Nat) (req : Bytes)
  /-- R424. An SPDM CHUNK_SEND carries part of a large request. -/
  | chunkSend (operator : Bool) (sess : Option Nat) (req : Bytes)
  /-- R424. An SPDM CHUNK_GET returns part of a large response. -/
  | chunkGet (operator : Bool) (sess : Option Nat) (req : Bytes)
  /-- R424. An SPDM HEARTBEAT in a session keeps the session alive. -/
  | spdmHeartbeat (sess : Nat) (req : Bytes)
  /-- R424. An SPDM KEY_UPDATE updates the session's data keys. -/
  | keyUpdate (sess : Nat) (req : Bytes)
  /-- R435. An SPDM END_SESSION ends the session. -/
  | endSession (sess : Nat) (req : Bytes)
  /-- R424. An SPDM request with any other code is answered with ERROR UnsupportedRequest. -/
  | unsupportedRequest (operator : Bool) (sess : Option Nat) (req : Bytes)
  /-- R428. KEX_KEYS returns the boot KEM and ECDH public keys and their statements. -/
  | kexKeys (operator : Bool) (tag : BitVec 32) (body : Bytes)
  /-- R429. HYB_KEX allots a session, derives the hybrid session secret and answers signed under the alias pair, or is refused as busy. -/
  | hybKex (operator : Bool) (tag : BitVec 32) (body : Bytes)
  /-- R432. HYB_FINISH checks the requester's verify data and answers with the block's own. -/
  | hybFinish (sess : Nat) (tag : BitVec 32) (body : Bytes)
  /-- R432. A session whose HYB_FINISH does not arrive within 1 s ends and frees its place. -/
  | hybFinishTimeout (sess : Nat)
  /-- R435. A session with no message for 120 s ends. -/
  | sessionIdleTimeout (sess : Nat)
  /-- R433. CRED_PROVE verifies a hybrid signature and sets the session's credential digest. -/
  | credProve (sess : Nat) (tag : BitVec 32) (body : Bytes)
  /-- R455. A QUOTE request is checked and placed in the open batch, closing it at its 256th request. -/
  | quote (sess : Nat) (tag : BitVec 32) (body : Bytes)
  /-- R456. A quote batch closes 2 ms after it opened, its bodies are filled and its header is submitted for signature. -/
  | quoteBatchClose
  /-- R442. DOMAIN_SEED delivers a wrapped seed, keying a domain or starting its rotation with derivation and a ROTATE broadcast. -/
  | domainSeed (sess : Nat) (tag : BitVec 32) (body : Bytes)
  /-- R146. STREAM_CONFIRM completes a proposed binding in every die section. -/
  | streamConfirm (sess : Nat) (tag : BitVec 32) (body : Bytes)
  /-- R443. The tenant message STREAM_UNBIND drains and unbinds one of its streams. -/
  | tenantStreamUnbind (sess : Nat) (tag : BitVec 32) (body : Bytes)
  /-- R444. The tenant message DOMAIN_TEARDOWN starts the teardown of its domain. -/
  | tenantDomainTeardown (sess : Nat) (tag : BitVec 32) (body : Bytes)
  /-- R448. LINK_KEY derives link keys from a wrapped seed and pushes each named direction to the link controller. -/
  | linkKey (sess : Nat) (tag : BitVec 32) (body : Bytes)
  /-- R653. A link controller acknowledges a push, and the block answers LINK_KEY when every push is acknowledged, wiping the keys. -/
  | lkAck (err : Bool)
  /-- R653. A push unanswered within 1 ms refuses the LINK_KEY with E_BUSY and wipes its keys. -/
  | lkAckTimeout
  /-- R557. A link controller's error report is taken and the link is qualified or made unqualified. -/
  | linkReport (w0 w1 w2 w3 : BitVec 32)
  /-- R249. MEASURE with KIND full queues a job that reads the whole payload and computes its root. -/
  | measureFull (sess : Nat) (tag : BitVec 32) (body : Bytes)
  /-- R249. MEASURE with KIND partial queues a job computing one node's hash. -/
  | measurePartial (sess : Nat) (tag : BitVec 32) (body : Bytes)
  /-- R250. MEASURE with KIND incremental queues a job combining a kept record with newly read leaves. -/
  | measureIncremental (sess : Nat) (tag : BitVec 32) (body : Bytes)
  /-- R445. KEPT_RELEASE discards the domain's kept record. -/
  | keptRelease (sess : Nat) (tag : BitVec 32) (body : Bytes)
  /-- R446. EVENT_POLL returns and removes up to eight events from the session's queue. -/
  | eventPoll (sess : Nat) (tag : BitVec 32) (body : Bytes)
  /-- R207. BUNDLE_KEY releases a wrapped bundle key to the vault for a model domain awaiting it. -/
  | bundleKey (sess : Nat) (tag : BitVec 32) (body : Bytes)
  /-- R227. A verified READER_GRANT with OPER add sets the reader-set bits of existing named tenant domains. -/
  | readerGrantAdd (sess : Nat) (tag : BitVec 32) (body : Bytes)
  /-- R228. A verified READER_GRANT with OPER remove clears reader-set bits as a withdrawal. -/
  | readerGrantRemove (sess : Nat) (tag : BitVec 32) (body : Bytes)
  /-- R230. A verified READER_GRANT with OPER revoke takes the model domain to REVOKING and tears it down. -/
  | readerGrantRevoke (sess : Nat) (tag : BitVec 32) (body : Bytes)
  /-- R211. A bundle key with no ingest job started within 60 s is wiped and the domain returns to AWAITING_KEY. -/
  | bundleKeyLapse (model : BitVec 13)
  /-- R214. The ingest unit starts the next queued job, keying the model domain with generation 1. -/
  | ingestJobStart
  /-- R214. The bundle header has been read from staging and is checked in order. -/
  | ingestHeaderRead (lines : List (Bool × BitVec 512 × BitVec 64))
  /-- R217. A chunk record has been read; its trailer is checked, its plaintext written sealed and fed to the mower, and its tag checked. -/
  | ingestChunk (lines : List (Bool × BitVec 512 × BitVec 64)) (writes : List Bool)
  /-- R217. The manifest has been read and checked, and the root finished and compared. -/
  | ingestManifest (lines : List (Bool × BitVec 512 × BitVec 64))
  /-- R233. Writing INGEST_ABORT ends the running job with IG_ABORT. -/
  | ingestAbort (p : Path) (value : BitVec 32)
  /-- R252. The mower starts the next queued measurement job when fewer than four run. -/
  | measurementJobStart
  /-- R694. The mower issues the next payload line read of a job while its read-ahead window has room. -/
  | mowerReadIssue (job : BitVec 32)
  /-- R240. A Keccak lane finishes hashing a leaf or interior node and takes the next node, ending the job at its top node. -/
  | mowerNodeHashed
  /-- R242. A Keccak lane's periodic known-answer permutation runs; a failing lane leaves service and its node is rehashed. -/
  | mowerLaneKat (lane : Fin 32) (good : Bool)
  /-- R261. Writing a JOB_SEQ to MOWER_ABORT ends that job with MW_ABORT. -/
  | mowerAbort (p : Path) (value : BitVec 32)
  /-- R284. Vault command GENERATE fills an empty slot with a key drawn from the DRBG. -/
  | vaultGenerate (p : Path) (value : BitVec 32)
  /-- R284. Vault command GENERATE_PAIR fills an even slot and the next with a hybrid pair. -/
  | vaultGeneratePair (p : Path) (value : BitVec 32)
  /-- R285. Vault command DERIVE fills a slot by KMAC256 from a derive-only source. -/
  | vaultDerive (p : Path) (value : BitVec 32)
  /-- R285. Vault command IMPORT decapsulates and unwraps an import record into a slot. -/
  | vaultImport (p : Path) (value : BitVec 32)
  /-- R286. Vault command EXPORT returns the wrapped value of an exportable slot. -/
  | vaultExport (p : Path) (value : BitVec 32)
  /-- R291. Vault command SAVE returns a blob of a persistent slot. -/
  | save (p : Path) (value : BitVec 32)
  /-- R291. Vault command RESTORE checks a blob and fills its slot. -/
  | restore (p : Path) (value : BitVec 32)
  /-- R284. Vault command CLEAR empties a slot, ending contexts keyed by it with E_KEYLOST. -/
  | clear (p : Path) (value : BitVec 32)
  /-- R292. Vault command STATEMENT returns a signed key statement for a slot. -/
  | statement (p : Path) (value : BitVec 32)
  /-- R302. A tamper assertion sampled in two consecutive always-on cycles starts the tamper sequence; a single-cycle one is counted. -/
  | tamperAssertion (die : Fin 4) (held : Bool)
  /-- R305. Every store has been overwritten and read back as zero; the block enters tamper-cleared and raises tmp_zeroize_done. -/
  | tamperZeroizeDone (failed : Bool)
  /-- R324. A job with OP SIGN is queued to produce a signature. -/
  | pkSign (slot : Fin 8) (p : Path) (value : BitVec 32)
  /-- R336. A job with OP VERIFY is queued to verify a signature in fixed time. -/
  | pkVerify (slot : Fin 8) (p : Path) (value : BitVec 32)
  /-- R328. A job with OP KEYGEN is queued to generate a key pair. -/
  | pkKeygen (slot : Fin 8) (p : Path) (value : BitVec 32)
  /-- R324. A job with OP PUBLIC is queued to compute a public key. -/
  | pkPublic (slot : Fin 8) (p : Path) (value : BitVec 32)
  /-- R333. A job with OP DERIVE is queued to compute an ECDH shared secret. -/
  | pkDerive (slot : Fin 8) (p : Path) (value : BitVec 32)
  /-- R324. A job with OP ENCAPS is queued for ML-KEM encapsulation. -/
  | pkEncaps (slot : Fin 8) (p : Path) (value : BitVec 32)
  /-- R350. A job with OP DECAPS is queued for ML-KEM decapsulation with implicit rejection. -/
  | pkDecaps (slot : Fin 8) (p : Path) (value : BitVec 32)
  /-- R331. A job with OP CHECK_CURVE is queued to check and load a curve entry. -/
  | pkCheckCurve (slot : Fin 8) (p : Path) (value : BitVec 32)
  /-- R354. The engine takes the oldest waiting job from its queue into its area, wiping the area first if another owner used it. -/
  | pkJobStart (long : Bool)
  /-- R335. 2,048 lane cycles after start, a job refused by validation ends with its code. -/
  | pkValidationBoundary (long : Bool) (runsDiffer : Bool)
  /-- R355. A long job reaches a checkpoint and yields to the short jobs waiting there. -/
  | pkCheckpoint
  /-- R359. A job's runs complete and are compared, and outputs and status are written together. -/
  | pkJobEnd (long : Bool) (runsDiffer : Bool)
  /-- R357. Writing ABORT to PK_JOB_CTL removes a queued job or stops a running one. -/
  | pkAbort (slot : Fin 8) (p : Path) (value : BitVec 32)
  /-- R357. An aborted running job's areas are wiped and it ends E_ABORTED with WIPED set. -/
  | pkAbortComplete (long : Bool)
  /-- R361. Writing SCRUB to PK_JOB_CTL wipes the areas still holding the slot's last job. -/
  | pkScrub (slot : Fin 8) (p : Path) (value : BitVec 32)
  /-- R343. A write of FC_MODE in PK_CTL sets the fault-countering mode for later jobs. -/
  | fcMode (p : Path) (value : BitVec 32)
  /-- R345. Writing SELFTEST in PK_CTL requests a full self-test of the engine. -/
  | pkSelftest (p : Path) (value : BitVec 32)
  /-- R345. A full self-test of the engine ends and failing datapaths leave service. -/
  | pkSelftestEnd (goodA : Bool) (goodB : Bool)
  /-- R345. The 1 s known-answer check of a datapath's multiplier, NTT unit and Keccak core runs. -/
  | pkPeriodicKat (datapathB : Bool) (good : Bool)
  /-- R348. An uncorrectable ECC error or residue mismatch takes a datapath out of service and restarts its job on the other. -/
  | pkDatapath (datapathB : Bool) (residue : Bool)
  /-- R372. DIG_CTX_CMD CLAIM makes the writing core owner of a free context. -/
  | claim (ctx : Fin 8) (p : Path) (value : BitVec 32)
  /-- R380. DIG_CTX_CMD OPEN configures a context, absorbs its key and customisation, and declares its length. -/
  | ctxOpen (ctx : Fin 8) (p : Path) (value : BitVec 32)
  /-- R382. DIG_CTX_CMD FINISH computes the result or enters FINISHING. -/
  | ctxFinish (ctx : Fin 8) (p : Path) (value : BitVec 32)
  /-- R373. DIG_CTX_CMD CLOSE wipes the context and returns it to FREE. -/
  | ctxClose (ctx : Fin 8) (p : Path) (value : BitVec 32)
  /-- R373. DIG_CTX_CMD ABORT wipes the context and returns it to FREE. -/
  | ctxAbort (ctx : Fin 8) (p : Path) (value : BitVec 32)
  /-- R388. DIG_CTX_CMD EXPORT writes a wrapped context blob and frees the context. -/
  | ctxExport (ctx : Fin 8) (p : Path) (value : BitVec 32)
  /-- R393. DIG_CTX_CMD IMPORT checks a blob and restores the context to OPEN. -/
  | ctxImport (ctx : Fin 8) (p : Path) (value : BitVec 32)
  /-- R381. A write to DIG_CTX_DATA offers one word of message data to a context. -/
  | digCtxData (ctx : Fin 8) (p : Path) (value : BitVec 32)
  /-- R386. A write of GO to DIG_CTX_FEED_CTL starts a DMA feed of node memory into the context. -/
  | dmaFeed (ctx : Fin 8) (p : Path) (value : BitVec 32)
  /-- R369. A digest core absorbs one block of a context, which enters DONE after its last declared byte. -/
  | digestBlock (ctx : Fin 8)
  /-- R384. A context short of its declared length with no activity for the inactivity limit ends E_SHORT. -/
  | eShort (ctx : Fin 8)
  /-- R392. Writing a SEQ to DIG_DISCARD removes it from the writer's outstanding exports. -/
  | digDiscard (region : Fin 4) (p : Path) (value : BitVec 32)
  /-- R409. Writing SELFTEST in DIG_CTL runs the digest known-answer tests between blocks. -/
  | digSelftest (p : Path) (value : BitVec 32)
  /-- R394. A write of GO to DIG_CMP_CTL starts a constant-time compare. -/
  | compare (region : Fin 4) (p : Path) (value : BitVec 32)
  /-- R396. 40 management cycles after GO the compare writes MATCH, MATCH_N and the verdict word. -/
  | compareResult (c : Fin 4) (split : Bool)
  /-- R400. A raw noise sample is latched every eighth slow cycle and health-tested, feeding the reservoir. -/
  | noiseSample (bit : Bool)
  /-- R403. Once enough tested samples exist, the DRBG is tested and instantiated or reseeded. -/
  | drbgInstantiate (katGood : Bool)
  /-- R405. Writing RESEED in ENT_CTL requests a reseed of the DRBG. -/
  | reseed (p : Path) (value : BitVec 32)
  /-- R406. The DRBG serves the request at the head of its queue, reseeding first when due, or refuses it while unseeded. -/
  | drbgRequest
  /-- R411. A write of GO to ENT_DRAW_REQ requests random bytes for the writing core. -/
  | entDraw (region : Fin 4) (p : Path) (value : BitVec 32)
  /-- R408. A read of an ENT_DRAW_OUT word returns it once and wipes it. -/
  | drawOutRead (p : Path) (addr : BitVec 24)
  /-- R672. A read of the LO word of a 64-bit register latches its HI word for that access path. -/
  | loWordRead (p : Path) (addr : BitVec 24)
  /-- R589. A lockstep mismatch halts a management core and continues the key service, takes over or resets the security core. -/
  | lockstep (standby : Bool) (c : Fin 4)
  /-- R592. A core's 10 ms watchdog expires, with the reaction of a lockstep mismatch, or on the standby a self-reset. -/
  | watchdog (standby : Bool) (c : Fin 4)
  /-- R620. A write to FO_WDOG restarts the writing core's watchdog. -/
  | foWdog (p : Path) (value : BitVec 32)
  /-- R597. Writing POP to FQ_CTL removes the entry with the lowest SEQ and empties pending latches into the queue. -/
  | fqPop (p : Path) (value : BitVec 32)
  /-- R596. Writing CLEAR_OVF to FQ_CTL clears OVERFLOW and the overflow counters. -/
  | clearOvf (p : Path) (value : BitVec 32)
  /-- R614. Every 1 ms the active core sends a HEARTBEAT frame. -/
  | heartbeatInterval
  /-- R606. A mirror HELLO delivers the wrapped session key, and the standby discards its copy to rebuild it. -/
  | mirrorHello
  /-- R614. A mirror HEARTBEAT frame reaches the standby and restarts its loss timer. -/
  | mirrorHeartbeat (wire : Bytes)
  /-- R609. A STORE frame updates the standby's copy of one domain and is acknowledged. -/
  | store (wire : Bytes)
  /-- R609. A MODEL frame updates the standby's copy of a model domain record and is acknowledged. -/
  | modelFrame (wire : Bytes)
  /-- R609. A READERS frame updates the standby's copy of a reader set and is acknowledged. -/
  | readers (wire : Bytes)
  /-- R609. A COUNTERS frame updates the standby's BOOT_COUNT and QUOTE_SEQ and is acknowledged. -/
  | counters (wire : Bytes)
  /-- R468. An IMAGE frame delivers part of the running image to the standby and is acknowledged. -/
  | image (wire : Bytes)
  /-- R613. A HOLD frame stops the standby from taking over for DURATION. -/
  | hold (wire : Bytes)
  /-- R613. A HOLD's duration ends and the standby resumes watching the heartbeat. -/
  | holdExpiry
  /-- R601. A STATUS frame from the standby reports readiness and faults, which the active core queues with SITE 1. -/
  | status (wire : Bytes)
  /-- R610. A mirror ACK lets the change carried by the acknowledged frame take effect. -/
  | mirrorAck (wire : Bytes)
  /-- R611. A mirror frame unacknowledged after 20 µs is resent, and after a further 20 µs the standby counts as not ready. -/
  | mirrorAckTimeout
  /-- R611. No valid STATUS for 2 ms makes the standby not ready and raises STANDBY_LOST. -/
  | standbyLost
  /-- R611. 1 s after losing the standby, the active core starts a new mirror session with a full copy. -/
  | mirrorResync
  /-- R614. 2 ms without a valid HEARTBEAT outside a HOLD makes a ready standby take over. -/
  | activeCoreLost
  /-- R614. Assertion of mir_fail makes a ready standby declare the active core lost at once and take over. -/
  | mirFail
  /-- R615. Assertion of mir_takeover holds the die-0 security core in reset and wipes its stores. -/
  | mirTakeover
  /-- R671. A write to a register with no behaviour of its own takes effect by its access type and privilege. -/
  | registerWrite (p : Path) (addr : BitVec 24) (value : BitVec 32)
  /-- R679. An access to an unclocked target ends after 10 µs with an error, queuing CTL_TIMEOUT. -/
  | ctlTimeout (p : Path) (addr : BitVec 24) (write : Bool)
  /-- R631. A DMA response is taken and delivered to its work, or ends that work on an error. -/
  | dmaResponse (id : BitVec 6) (err : Bool) (data : BitVec 512)
  /-- R684. Writing POST to MBX_IN_CTL hands an inbound packet to the block, which copies or discards it. -/
  | mailboxPost (operator : Bool) (p : Path) (value : BitVec 32)
  /-- R684. Writing TAKEN to MBX_OUT_CTL clears READY so the next outbound packet can be written. -/
  | taken (operator : Bool) (p : Path) (value : BitVec 32)
  /-- R664. pwr_guard_good falling while pwr_guard_safe is 0 fences every guard of the die within 2 µs. -/
  | guardPowerFall (die : Fin 4)
  /-- R664. pwr_guard_good returning leaves the die's guards fenced until a guard or section reset. -/
  | guardPowerGood (die : Fin 4)
  /-- R665. pwr_core_good of any die falling fences every guard on every powered die until cold reset. -/
  | corePowerFall (die : Fin 4)
  /-- R566. A start-time test of a lane, bank, key cache row or security core unit ends with the unit found bad; the unit is excluded and the finding enters the new-finding queue. -/
  | startTimeFinding (kind : BitVec 4) (unit : BitVec 16) (sub : BitVec 16)
  /-- R184. A ring message whose CRC fails or whose TYPE is reserved arrives at the head or a stop and is discarded, counted, and raised as a ring fault. -/
  | damagedMessage (die : Option (Fin 4)) (wire : Bytes)
  /-- R645. A ring receiver that has been discarding words after a damaged message meets the next idle word and expects a header again. -/
  | idleWord (die : Option (Fin 4))
  /-- R505. A recovery frame with LEN above 4,100 or a mismatching CRC is discarded up to the next SYNC and left unanswered. -/
  | damagedFrame
  /-- R602. An LS cause worded as an event in the last T lapses T after its latest event, clearing its PAGE_FAULT or PAGE_STATUS bit and possibly lowering evt_line[4] or evt_line[7]. -/
  | recentWindowExpiry (page : BitVec 12) (bit : BitVec 4)
  /-- R47. When the block must reduce power to stay within its grade envelope, it lowers the mower, sweep and ingest shares shown in GUARD_SHARE_EFF before throttling tenant traffic, and restores them when the need passes. -/
  | powerLimit (stage : BitVec 2)
deriving DecidableEq, Repr

end Sys2Proof
end

