-- ==== Sys2Proof/Decode.lean ====
section
/-!
DEFINITION. The words of commands. Every row of spec/opcode_table.json gives its command no bits ("bits" is empty): the commands are events at the
block's ports, and no word spells one.
-/

namespace Sys2Proof

/-- The command that a word of the table's bits spells: no row of the table gives bits, so none. -/
def decodeTableWord (_nbits _w : Nat) : Option Instr := none

end Sys2Proof
end

