-- ==== Sys2Proof/Config.lean ====
section
/-!
DEFINITION. What an implementation or another standard fixes and the spec does not: constants without a body, so that
nothing can be proved of their values. The free values are applied to State.freeCtr, which every use advances (log 8).
-/

namespace Sys2Proof.Config

/-- A free number: a value the spec leaves open (log 8). -/
opaque freeNat : Nat → Nat

/-- A free bit (log 8). -/
opaque freeBit : Nat → Bool

/-- Free bytes: the counter and the index (log 8). -/
opaque freeByte : Nat → Nat → BitVec 8

/-- R403, R405: the bytes that noise samples make as input of the DRBG; the spec gives no packing (log 8). -/
opaque packSamples : List Bool → Bytes

/-- The content of the boot ROM (log 11). -/
opaque romImage : Bytes

/-- The part of a running image's body that holds its release plan (log 11). -/
opaque planOf : Bytes → Bytes

end Sys2Proof.Config
end

