-- ==== Sys2Proof/Machine/Codes.lean ====
section
/-!
DEFINITION. The numbers the spec gives to status codes, result codes, fault codes and events.
-/

namespace Sys2Proof.Machine
open Sys2Proof

/-! R73: status codes on gu_rsp_status. -/

def stOk : Nat := 0x0
def stPoisonTag : Nat := 0x1
def stFenced : Nat := 0x2
def stOp : Nat := 0x3
def stDomain : Nat := 0x4
def stUnbound : Nat := 0x5
def stRights : Nat := 0x6
def stNoKey : Nat := 0x7
def stMode : Nat := 0x8
def stMem : Nat := 0x9
def stLane : Nat := 0xA

/-! R119, R439: result codes of the key service and of messages. -/

def eOk : BitVec 8 := 0x00
def eRange : BitVec 8 := 0x03
def eState : BitVec 8 := 0x10
def eOwner : BitVec 8 := 0x11
def eMismatch : BitVec 8 := 0x12
def eGen : BitVec 8 := 0x13
def eKind : BitVec 8 := 0x14
def eBusy : BitVec 8 := 0x15
def eRegion : BitVec 8 := 0x16
def eReserved : BitVec 8 := 0x17
def eAuth : BitVec 8 := 0x21

/-! R600: fault codes. -/

def fTagFail : Nat := 0x0001
def fTxnReuse : Nat := 0x0002
def fLaneParity : Nat := 0x0003
def fLaneKat : Nat := 0x0004
def fBindFail : Nat := 0x0005
def fRingDamage : Nat := 0x0006
def fRingLost : Nat := 0x0007
def fDrainTimeout : Nat := 0x0008
def fRetireTimeout : Nat := 0x0009
def fFpMismatch : Nat := 0x000A
def fFpNoLatch : Nat := 0x000B
def fAckTimeout : Nat := 0x000C
def fKeyLost : Nat := 0x0010
def fLockstep : Nat := 0x0011
def fWatchdog : Nat := 0x0012
def fPkDatapath : Nat := 0x0013
def fPkCompare : Nat := 0x0014
def fDigCore : Nat := 0x0015
def fCmpSplit : Nat := 0x0016
def fEntHealth : Nat := 0x0017
def fDrbgKat : Nat := 0x0018
def fMowerLane : Nat := 0x0019
def fMowerMismatch : Nat := 0x001A
def fFuseRecheck : Nat := 0x0020
def fCairnSkip : Nat := 0x0021
def fDefectWord : Nat := 0x0022
def fDefectUnrecorded : Nat := 0x0023
def fBrupHalt : Nat := 0x0024
def fReleaseFail : Nat := 0x0025
def fStandbyLost : Nat := 0x0030
def fTakeover : Nat := 0x0031
def fMirrorAuth : Nat := 0x0032
def fCtlTimeout : Nat := 0x0033

/-! R598: the KIND of a fault's source. -/

def kGuard : Nat := 0x1
def kDie : Nat := 0x2
def kKeyService : Nat := 0x3
def kCore : Nat := 0x4
def kPk : Nat := 0x5
def kDigest : Nat := 0x6
def kEntropy : Nat := 0x7
def kMower : Nat := 0x8
def kIngest : Nat := 0x9
def kVault : Nat := 0xA
def kFuse : Nat := 0xB
def kBringUp : Nat := 0xC
def kMirror : Nat := 0xD
def kControl : Nat := 0xE

/-! R446: the KIND of an event. -/

def evMeasured : BitVec 8 := 0x01
def evRotated : BitVec 8 := 0x02
def evTornDown : BitVec 8 := 0x03
def evIngested : BitVec 8 := 0x04
def evKeyLost : BitVec 8 := 0x05
def evMismatch : BitVec 8 := 0x06

/-! R220: outcomes of an ingest job. R254: outcomes of a measurement job. -/

def mwDone : BitVec 8 := 0x50
def mwRead : BitVec 8 := 0x51
def mwAbort : BitVec 8 := 0x52
def mwLane : BitVec 8 := 0x53
def mwMismatch : BitVec 8 := 0x54

end Sys2Proof.Machine
end

