-- ==== Sys2Proof/Machine/Bytes.lean ====
section
/-!
DEFINITION. Bytes, words and bit fields: little-endian and big-endian conversions, saturating and wrapping counters,
sparse byte buffers in one canonical form, and updates of vectors of units.
-/

namespace Sys2Proof.Machine
open Sys2Proof

/-- The `n` bytes of `x`, least significant first. -/
def leBytes : Nat → Nat → Bytes
  | 0, _ => []
  | n + 1, x => BitVec.ofNat 8 x :: leBytes n (x / 256)

/-- The number whose bytes, least significant first, are `bs`. -/
def leNat : Bytes → Nat
  | [] => 0
  | b :: bs => b.toNat + 256 * leNat bs

/-- The `n` bytes of `x`, most significant first. -/
def beBytes (n x : Nat) : Bytes := (leBytes n x).reverse

/-- The number whose bytes, most significant first, are `bs`. -/
def beNat (bs : Bytes) : Nat := leNat bs.reverse

/-- The little-endian bytes of a vector of `8 * n` bits. -/
def vecBytes (n : Nat) {w : Nat} (v : BitVec w) : Bytes := leBytes n v.toNat

/-- The vector whose little-endian bytes are `bs`. -/
def bytesVec (w : Nat) (bs : Bytes) : BitVec w := BitVec.ofNat w (leNat bs)

/-- `n` zero bytes. -/
def zeros (n : Nat) : Bytes := List.replicate n 0

/-- `bs` cut or filled with zeros to `n` bytes. -/
def padTo (n : Nat) (bs : Bytes) : Bytes := bs.take n ++ zeros (n - bs.length)

/-- The `n` bytes of `bs` from offset `o`; bytes past its end read zero. -/
def slice (bs : Bytes) (o n : Nat) : Bytes := padTo n (bs.drop o)

/-- The little-endian field of `n` bytes at offset `o`. -/
def fieldLe (bs : Bytes) (o n : Nat) : Nat := leNat (slice bs o n)

/-- The big-endian field of `n` bytes at offset `o`. -/
def fieldBe (bs : Bytes) (o n : Nat) : Nat := beNat (slice bs o n)

/-- Byte-wise exclusive or of two strings, as long as the shorter. -/
def xorBytes (a b : Bytes) : Bytes := List.zipWith (· ^^^ ·) a b

/-- Bits `hi` to `lo` of a register word, as a number. -/
def bitsOf {w : Nat} (v : BitVec w) (hi lo : Nat) : Nat := (v.toNat / 2 ^ lo) % 2 ^ (hi + 1 - lo)

/-- Bit `i` of a word. -/
def bitAt {w : Nat} (v : BitVec w) (i : Nat) : Bool := v.getLsbD i

/-- A word with bit `i` set to `b`. -/
def setBit {w : Nat} (v : BitVec w) (i : Nat) (b : Bool) : BitVec w :=
  if b then v ||| BitVec.ofNat w (2 ^ i) else v &&& ~~~ (BitVec.ofNat w (2 ^ i))

/-- One if the flag is set, as a number in bit `i`. -/
def bitNat (i : Nat) (b : Bool) : Nat := if b then 2 ^ i else 0

/-- A counter that stops at its largest value. -/
def satAdd {w : Nat} (c : BitVec w) (n : Nat) : BitVec w :=
  if c.toNat + n < 2 ^ w then BitVec.ofNat w (c.toNat + n) else BitVec.allOnes w

/-- One more on a counter that stops at its largest value. -/
def satInc {w : Nat} (c : BitVec w) : BitVec w := satAdd c 1

/-- `bs` cut into chunks of `n` bytes; the last may be shorter. `fuel` bounds their number. -/
def chunksOf (n : Nat) : Nat → Bytes → List Bytes
  | 0, _ => []
  | _ + 1, [] => []
  | fuel + 1, bs => bs.take n :: chunksOf n fuel (bs.drop n)

/-- `bs` cut into chunks of `n` bytes. -/
def chunks (n : Nat) (bs : Bytes) : List Bytes := chunksOf n bs.length bs

/-- The value a sparse buffer holds at an address: `d` where nothing is listed. -/
def bufRead (d : Byte) : List Host.Cell → Nat → Byte
  | [], _ => d
  | (a, b) :: m, x => if a = x then b else bufRead d m x

/-- A sparse buffer with one byte written, keeping addresses rising and listing no byte equal to `d`. -/
def bufWrite (d : Byte) : List Host.Cell → Nat → Byte → List Host.Cell
  | [], x, v => if v = d then [] else [(x, v)]
  | (a, b) :: m, x, v =>
    if x < a then (if v = d then (a, b) :: m else (x, v) :: (a, b) :: m)
    else if x = a then (if v = d then m else (x, v) :: m)
    else (a, b) :: bufWrite d m x v

/-- A sparse buffer with a string of bytes written from address `x` on. -/
def bufStore (d : Byte) (m : List Host.Cell) (x : Nat) : Bytes → List Host.Cell
  | [] => m
  | b :: bs => bufStore d (bufWrite d m x b) (x + 1) bs

/-- `n` bytes of a sparse buffer from address `x` on. -/
def bufLoad (d : Byte) (m : List Host.Cell) (x : Nat) : Nat → Bytes
  | 0 => []
  | n + 1 => bufRead d m x :: bufLoad d m (x + 1) n

/-- A sparse buffer is canonical: its addresses rise and no listed byte equals `d`. -/
def bufWf (d : Byte) : List Host.Cell → Bool
  | [] => true
  | [(_, b)] => b != d
  | (a, b) :: (a', b') :: m => (b != d) && decide (a < a') && bufWf d ((a', b') :: m)

/-- A vector with one entry changed by `f`; unchanged where the index is out of range. -/
def vmod {α : Type} {n : Nat} (v : Vector α n) (i : Nat) (f : α → α) : Vector α n :=
  if h : i < n then v.set i (f (v.get ⟨i, h⟩)) else v

/-- A vector with every entry changed by `f`, which is given the index. -/
def vmapIdx {α : Type} {n : Nat} (v : Vector α n) (f : Nat → α → α) : Vector α n :=
  ⟨⟨v.toArray.toList.mapIdx f⟩, by simp⟩

/-- The number of bits set among the lowest `n`. -/
def popCount {w : Nat} (n : Nat) (v : BitVec w) : Nat := ((List.range n).filter (fun i => v.getLsbD i)).length

/-- The list with its first element that satisfies `p` removed. -/
def dropFirst {α : Type} (p : α → Bool) : List α → List α
  | [] => []
  | x :: xs => if p x then xs else x :: dropFirst p xs

/-- The list with `f` applied to every element that satisfies `p`. -/
def mapIf {α : Type} (p : α → Bool) (f : α → α) (l : List α) : List α := l.map (fun x => if p x then f x else x)

/-- The association list's value at a key, `d` where the key is absent. -/
def alGet {β : Type} (d : β) : List (Nat × β) → Nat → β
  | [], _ => d
  | (k, v) :: l, x => if k = x then v else alGet d l x

/-- The association list with a key set, keys rising. -/
def alSet {β : Type} : List (Nat × β) → Nat → β → List (Nat × β)
  | [], x, v => [(x, v)]
  | (k, w) :: l, x, v =>
    if x < k then (x, v) :: (k, w) :: l else if x = k then (x, v) :: l else (k, w) :: alSet l x v

/-- The association list without a key. -/
def alDel {β : Type} (l : List (Nat × β)) (x : Nat) : List (Nat × β) := l.filter (fun p => p.1 != x)

/-- The association list with a key set, or removed where the value is the one an absent key reads as. -/
def alPut {β : Type} [DecidableEq β] (d : β) (l : List (Nat × β)) (x : Nat) (v : β) : List (Nat × β) :=
  if v = d then alDel l x else alSet l x v

end Sys2Proof.Machine
end

