-- ==== Sys2Proof/Machine/Hash.lean ====
section
/-!
DEFINITION. Hash functions the spec names (R10, R368): SHA-256, SHA-384 and SHA-512 (FIPS 180-4), HMAC (FIPS 198-1),
Keccak with SHA3, SHAKE128, SHAKE256, cSHAKE256 and KMAC256 (FIPS 202, SP 800-185), HKDF (RFC 5869), and CRC-32C.
The bodies of these functions are the referenced standards' own, not the spec's (PRESUMED, log 6).
-/

namespace Sys2Proof.Machine
open Sys2Proof

/-- The largest `r` below 2 ^ `b` above `r` whose `k`-th power is at most `n`, found bit by bit. -/
def rootBits (k n : Nat) : Nat → Nat → Nat
  | 0, r => r
  | b + 1, r => rootBits k n b (if (r + 2 ^ b) ^ k ≤ n then r + 2 ^ b else r)

/-- FIPS 180-4: the first 64 bits of the fractional part of the `k`-th root of a small number. -/
def rootFraction (k p : Nat) : BitVec 64 := BitVec.ofNat 64 (rootBits k (p * 2 ^ (64 * k)) 70 0)

/-- The primes below a bound, in rising order. -/
def primesBelow (n : Nat) : List Nat := (List.range n).filter (fun p => 2 ≤ p && (List.range p).all (fun d => d < 2 || p % d != 0))

/-- FIPS 180-4: the round constants of SHA-512, out of the cube roots of the first 80 primes; the high halves of the first 64 are those of SHA-256. -/
def shaK : List (BitVec 64) := (primesBelow 410).map (rootFraction 3)

/-- FIPS 180-4: the initial value of SHA-512, out of the square roots of the first 8 primes; its high halves are that of SHA-256. -/
def iv512 : List (BitVec 64) := (primesBelow 20).map (rootFraction 2)

/-- FIPS 180-4: the initial value of SHA-384, out of the square roots of the next 8. -/
def iv384 : List (BitVec 64) := ((primesBelow 54).drop 8).map (rootFraction 2)

/-- FIPS 180-4: the functions of a SHA-2 member with words of `w` bits. -/
structure Sha2 (w : Nat) where
  /-- rotations of the upper-case sigma functions, first of `a`, then of `e` -/
  big : List Nat × List Nat
  /-- rotations and shift of the lower-case sigma functions -/
  small : (Nat × Nat × Nat) × (Nat × Nat × Nat)
  /-- round constants -/
  k : List (BitVec w)

/-- SHA-512 and SHA-384. -/
def sha512P : Sha2 64 := { big := ([28, 34, 39], [14, 18, 41]), small := ((1, 8, 7), (19, 61, 6)), k := shaK }

/-- SHA-256. -/
def sha256P : Sha2 32 :=
  { big := ([2, 13, 22], [6, 11, 25]), small := ((7, 18, 3), (17, 19, 10)),
    k := (shaK.take 64).map (fun x => x.extractLsb' 32 32) }

/-- The exclusive or of the rotations of `x` to the right. -/
def rotXor {w : Nat} (x : BitVec w) (rs : List Nat) : BitVec w := rs.foldl (fun a r => a ^^^ x.rotateRight r) 0

/-- A lower-case sigma function. -/
def smallSigma {w : Nat} (p : Nat × Nat × Nat) (x : BitVec w) : BitVec w :=
  x.rotateRight p.1 ^^^ x.rotateRight p.2.1 ^^^ (x >>> p.2.2)

/-- The message schedule, newest word first, extended by `n` words. -/
def shaSchedule {w : Nat} (P : Sha2 w) : Nat → List (BitVec w) → List (BitVec w)
  | 0, ws => ws
  | n + 1, ws =>
    let t := smallSigma P.small.2 (ws.getD 1 0) + ws.getD 6 0 + smallSigma P.small.1 (ws.getD 14 0) + ws.getD 15 0
    shaSchedule P n (t :: ws)

/-- One round on the eight working variables. -/
def shaRound {w : Nat} (P : Sha2 w) (s : List (BitVec w)) (kw : BitVec w × BitVec w) : List (BitVec w) :=
  match s with
  | [a, b, c, d, e, f, g, h] =>
    let t1 := h + rotXor e P.big.2 + ((e &&& f) ^^^ (~~~ e &&& g)) + kw.1 + kw.2
    let t2 := rotXor a P.big.1 + ((a &&& b) ^^^ (a &&& c) ^^^ (b &&& c))
    [t1 + t2, a, b, c, d + t1, e, f, g]
  | s => s

/-- The compression function on one block of sixteen big-endian words. -/
def shaBlock {w : Nat} (P : Sha2 w) (h : List (BitVec w)) (blk : Bytes) : List (BitVec w) :=
  let ws := (chunks (w / 8) blk).map (fun c => BitVec.ofNat w (beNat c))
  let sched := (shaSchedule P (P.k.length - 16) ws.reverse).reverse
  List.zipWith (· + ·) h ((List.zip P.k sched).foldl (shaRound P) h)

/-- The padding of a message of `len` bytes for blocks of `b` bytes with a length field of `l` bytes. -/
def shaPad (b l len : Nat) : Bytes :=
  [0x80#8] ++ zeros ((2 * b - 1 - l - len % b) % b) ++ beBytes l (8 * len)

/-- The chaining value after whole blocks. -/
def shaAbsorb {w : Nat} (P : Sha2 w) (h : List (BitVec w)) (msg : Bytes) : List (BitVec w) :=
  (chunks (2 * w) msg).foldl (shaBlock P) h

/-- The bytes of a chaining value. -/
def shaOut {w : Nat} (h : List (BitVec w)) : Bytes := (h.map (fun x => beBytes (w / 8) x.toNat)).flatten

/-- A SHA-2 hash from a chaining value reached after `pre` bytes in whole blocks. -/
def shaFrom {w : Nat} (P : Sha2 w) (h : List (BitVec w)) (pre : Nat) (msg : Bytes) : Bytes :=
  shaOut (shaAbsorb P h (msg ++ shaPad (2 * w) (w / 4) (pre + msg.length)))

/-- SHA-512. -/
def sha512 (msg : Bytes) : Bytes := shaFrom sha512P iv512 0 msg

/-- SHA-384. -/
def sha384 (msg : Bytes) : Bytes := (shaFrom sha512P iv384 0 msg).take 48

/-- SHA-256. -/
def sha256 (msg : Bytes) : Bytes := shaFrom sha256P (iv512.map (fun x => x.extractLsb' 32 32)) 0 msg

/-- FIPS 198-1: HMAC over a hash with blocks of `b` bytes. -/
def hmac (hash : Bytes → Bytes) (b : Nat) (key msg : Bytes) : Bytes :=
  let k := padTo b (if key.length > b then hash key else key)
  hash (k.map (· ^^^ 0x5C#8) ++ hash (k.map (· ^^^ 0x36#8) ++ msg))

/-- HMAC-SHA-384. -/
def hmac384 (key msg : Bytes) : Bytes := hmac sha384 128 key msg

/-- RFC 5869: HKDF-Expand with HMAC-SHA-384, `n` output blocks. -/
def hkdfBlocks (prk info prev : Bytes) (i : Nat) : Nat → Bytes
  | 0 => []
  | n + 1 =>
    let t := hmac384 prk (prev ++ info ++ [BitVec.ofNat 8 i])
    t ++ hkdfBlocks prk info t (i + 1) n

/-- RFC 5869: HKDF-Expand with HMAC-SHA-384. -/
def hkdfExpand (prk info : Bytes) (len : Nat) : Bytes := (hkdfBlocks prk info [] 1 ((len + 47) / 48)).take len

/-- RFC 5869: HKDF-Extract with HMAC-SHA-384. -/
def hkdfExtract (salt ikm : Bytes) : Bytes := hmac384 salt ikm

/-- FIPS 202: the round constants of Keccak-f[1600]. -/
def keccakRc : List (BitVec 64) :=
  [0x0000000000000001, 0x0000000000008082, 0x800000000000808a, 0x8000000080008000,
   0x000000000000808b, 0x0000000080000001, 0x8000000080008081, 0x8000000000008009,
   0x000000000000008a, 0x0000000000000088, 0x0000000080008009, 0x000000008000000a] ++
  [0x000000008000808b, 0x800000000000008b, 0x8000000000008089, 0x8000000000008003,
   0x8000000000008002, 0x8000000000000080, 0x000000000000800a, 0x800000008000000a,
   0x8000000080008081, 0x8000000000008080, 0x0000000080000001, 0x8000000080008008]

/-- FIPS 202: the rotation of lane x + 5y. -/
def keccakRot : List Nat :=
  [0, 1, 62, 28, 27, 36, 44, 6, 55, 20, 3, 10, 43, 25, 39, 41, 45, 15, 21, 8, 18, 2, 61, 56, 14]

/-- One round of Keccak-f[1600] on its 25 lanes. -/
def keccakRound (a : List (BitVec 64)) (rc : BitVec 64) : List (BitVec 64) :=
  let at_ (l : List (BitVec 64)) (x y : Nat) : BitVec 64 := l.getD (x % 5 + 5 * (y % 5)) 0
  let c := (List.range 5).map (fun x => (List.range 5).foldl (fun v y => v ^^^ at_ a x y) 0)
  let d := (List.range 5).map (fun x => c.getD ((x + 4) % 5) 0 ^^^ (c.getD ((x + 1) % 5) 0).rotateLeft 1)
  let t := (List.range 25).map (fun i => (a.getD i 0 ^^^ d.getD (i % 5) 0).rotateLeft (keccakRot.getD i 0))
  let b := (List.range 25).map (fun i => at_ t (i % 5 + 3 * (i / 5)) (i % 5))
  let e := (List.range 25).map (fun i => at_ b (i % 5) (i / 5) ^^^
    (~~~ at_ b (i % 5 + 1) (i / 5) &&& at_ b (i % 5 + 2) (i / 5)))
  (e.headD 0 ^^^ rc) :: e.tail

/-- Keccak-f[1600]. -/
def keccakF (a : List (BitVec 64)) : List (BitVec 64) := keccakRc.foldl keccakRound a

/-- The state with a block of input exclusive-ored in. -/
def keccakXor (a : List (BitVec 64)) (blk : Bytes) : List (BitVec 64) :=
  List.zipWith (· ^^^ ·) a ((chunks 8 (padTo 200 blk)).map (fun c => bytesVec 64 c))

/-- The bytes of the state. -/
def keccakBytes (a : List (BitVec 64)) : Bytes := (a.map (fun l => vecBytes 8 l)).flatten

/-- The output of the sponge, `n` permutations at most. -/
def squeeze (rate : Nat) : Nat → List (BitVec 64) → Bytes
  | 0, _ => []
  | n + 1, a => (keccakBytes a).take rate ++ squeeze rate n (keccakF a)

/-- The sponge with the given rate in bytes and domain bits with the first padding bit. -/
def keccak (rate : Nat) (dom : Byte) (msg : Bytes) (len : Nat) : Bytes :=
  let k := rate - msg.length % rate
  let pad := if k = 1 then [dom ||| 0x80#8] else dom :: zeros (k - 2) ++ [0x80#8]
  let a := (chunks rate (msg ++ pad)).foldl (fun a c => keccakF (keccakXor a c)) (List.replicate 25 0)
  (squeeze rate ((len + rate - 1) / rate) a).take len

/-- SHA3-256. -/
def sha3_256 (msg : Bytes) : Bytes := keccak 136 0x06#8 msg 32
/-- SHA3-384. -/
def sha3_384 (msg : Bytes) : Bytes := keccak 104 0x06#8 msg 48
/-- SHA3-512. -/
def sha3_512 (msg : Bytes) : Bytes := keccak 72 0x06#8 msg 64
/-- SHAKE128. -/
def shake128 (msg : Bytes) (len : Nat) : Bytes := keccak 168 0x1F#8 msg len
/-- SHAKE256. -/
def shake256 (msg : Bytes) (len : Nat) : Bytes := keccak 136 0x1F#8 msg len

/-- The number of bytes that hold `x`, at least one. -/
def byteLen (x : Nat) : Nat := if x = 0 then 1 else (Nat.log2 x) / 8 + 1

/-- SP 800-185: left_encode. -/
def leftEncode (x : Nat) : Bytes := BitVec.ofNat 8 (byteLen x) :: beBytes (byteLen x) x

/-- SP 800-185: right_encode. -/
def rightEncode (x : Nat) : Bytes := beBytes (byteLen x) x ++ [BitVec.ofNat 8 (byteLen x)]

/-- SP 800-185: encode_string. -/
def encodeString (s : Bytes) : Bytes := leftEncode (8 * s.length) ++ s

/-- SP 800-185: bytepad. -/
def bytepad (s : Bytes) (w : Nat) : Bytes :=
  let z := leftEncode w ++ s
  z ++ zeros ((w - z.length % w) % w)

/-- SP 800-185: cSHAKE256 with function name `n` and customisation string `c`. -/
def cshake256 (msg : Bytes) (len : Nat) (n c : Bytes) : Bytes :=
  if n = [] && c = [] then shake256 msg len
  else keccak 136 0x04#8 (bytepad (encodeString n ++ encodeString c) 136 ++ msg) len

/-- SP 800-185: KMAC256. -/
def kmac256 (key msg : Bytes) (len : Nat) (c : Bytes) : Bytes :=
  cshake256 (bytepad (encodeString key) 136 ++ msg ++ rightEncode (8 * len)) len
    [0x4B#8, 0x4D#8, 0x41#8, 0x43#8] c

/-- SP 800-185: KMACXOF256. -/
def kmacXof256 (key msg : Bytes) (len : Nat) (c : Bytes) : Bytes :=
  cshake256 (bytepad (encodeString key) 136 ++ msg ++ rightEncode 0) len [0x4B#8, 0x4D#8, 0x41#8, 0x43#8] c

/-- The bytes of an ASCII string. -/
def ascii (s : String) : Bytes := s.toList.map (fun c => BitVec.ofNat 8 c.toNat)

/-- One bit step of the reflected CRC-32C (polynomial 0x1EDC6F41). -/
def crcBit (c : BitVec 32) : BitVec 32 := if c.getLsbD 0 then (c >>> 1) ^^^ 0x82F63B78#32 else c >>> 1

/-- One byte of CRC-32C. -/
def crcByte (c : BitVec 32) (b : Byte) : BitVec 32 :=
  (List.range 8).foldl (fun x _ => crcBit x) (c ^^^ b.zeroExtend 32)

/-- CRC-32C: reflected, initial value and final exclusive or of all ones. -/
def crc32c (msg : Bytes) : BitVec 32 := ~~~ (msg.foldl crcByte (0xFFFFFFFF#32))

end Sys2Proof.Machine
end

