-- ==== Sys2Proof/Machine/State.lean ====
section
/-!
DEFINITION. The state of the block as plain data, the state after reset, and the reasons a step can stop.
Each field names the rule of spec/ that gives it. Its default value is its value in `State.reset`: the reset value the
spec states; where the spec states none, zero or empty (DESIGN CHOICE, log 4); and the model's own bookkeeping.
`State.reset` is the block held in cold reset with nothing programmed into fuses or flash (log 2).
-/

namespace Sys2Proof.Machine
open Sys2Proof

/-- R50: the mode of a domain. -/
inductive DomMode where
  /-- XTS-AES-256 with a line tag (sidecar 0b001) -/
  | seal
  /-- XTS-AES-256, no tag (sidecar 0b010) -/
  | veil
  /-- no transform (sidecar 0b011) -/
  | open
deriving DecidableEq, Repr

/-- R118, R294: the state of a domain, in the order of its codes 0x00 to 0x09. -/
inductive DomState where
  /-- code 0x00 -/
  | free
  /-- code 0x01 -/
  | created
  /-- code 0x02 -/
  | keyed
  /-- code 0x03 -/
  | rotating
  /-- code 0x04 -/
  | sweepWait
  /-- code 0x05 -/
  | sweeping
  /-- code 0x06 -/
  | retiringOld
  /-- code 0x07 -/
  | tearDrain
  /-- code 0x08 -/
  | tearSweep
  /-- code 0x09 -/
  | tearRetire
deriving DecidableEq, Repr

/-- R198: the custody state of a model domain, in the order of its codes 0x00 to 0x05. -/
inductive Custody where
  /-- code 0x00 -/
  | none
  /-- code 0x01 -/
  | awaitingKey
  /-- code 0x02 -/
  | keyHeld
  /-- code 0x03 -/
  | ingesting
  /-- code 0x04 -/
  | resident
  /-- code 0x05 -/
  | revoking
deriving DecidableEq, Repr

/-- R560: the service state of a guard. -/
inductive Service where
  /-- memory controller not yet acknowledged -/
  | held
  /-- initial seal sweep running -/
  | sweeping
  /-- accepts requests -/
  | serving
  /-- fenced; memory behind it reported lost -/
  | lost
deriving DecidableEq, Repr

/-- R65: the operation of a request. -/
inductive ReqOp where
  /-- read line (0b000) -/
  | read
  /-- full write (0b001; a partial write with all enables set becomes one under R85) -/
  | write
  /-- partial write (0b010) -/
  | partialWrite
deriving DecidableEq, Repr

/-- the source of a full-line access through a guard (R65, R243). -/
inductive ReqSrc where
  /-- the upstream port -/
  | tenant
  /-- a mower read of payload line `line` of the job with that JOB_SEQ -/
  | mower (job : BitVec 32) (line : Nat)
deriving DecidableEq, Repr

/-- where a request accepted by a guard stands. -/
inductive Stage where
  /-- on its domain's wait list (R133) -/
  | parked
  /-- past its checks, waiting for its write data beat (R66) -/
  | needData
  /-- its full-line read waits to be handed to the crossing (R77, R85) -/
  | readQ
  /-- its read passed downstream with this tag (R639) -/
  | readOut (tag : BitVec 12)
  /-- its read response is held for an older generation (R142) -/
  | retHeld (data : BitVec 512) (side : BitVec 64)
  /-- its full-line write waits to be handed to the crossing (R81) -/
  | writeQ (data : BitVec 512) (side : BitVec 64)
  /-- its write passed downstream with this tag (R83) -/
  | writeOut (tag : BitVec 12)
  /-- a write handed downstream before a fence, reported E_FENCED at its acknowledgement (R108) -/
  | fencedOut (tag : BitVec 12)
  /-- a read handed downstream before a fence or lane failure; its response is already given, the answer of the controller is discarded (R107, R640) -/
  | discardOut (tag : BitVec 12)
deriving DecidableEq, Repr

/-- R124: a key entry of 128 bytes, in the layout a KEY_FILL carries. -/
structure Entry where
  /-- R124: data key. Reset: DESIGN CHOICE, log 4. -/
  k1 : Bytes := []
  /-- R124: tweak key. Reset: DESIGN CHOICE, log 4. -/
  k2 : Bytes := []
  /-- R124: tag key. Reset: DESIGN CHOICE, log 4. -/
  k3 : Bytes := []
  /-- R124, R57: E(K3, 0^128). Reset: DESIGN CHOICE, log 4. -/
  h : Bytes := []
  /-- R124: domain ID; 8191 marks a one-time sweep key. Reset: DESIGN CHOICE, log 4. -/
  domain : Nat := 0
  /-- R124: FLAGS [2:0], in the sidecar encoding of R63. Reset: DESIGN CHOICE, log 4. -/
  mode : DomMode := .seal
  /-- R124: FLAGS [3]. Reset: DESIGN CHOICE, log 4. -/
  scratch : Bool := false
  /-- R124: generation number; 0 in a one-time sweep key. Reset: DESIGN CHOICE, log 4. -/
  gen : BitVec 32 := 0
  /-- R124, R125: binding tag. Reset: DESIGN CHOICE, log 4. -/
  bind : BitVec 32 := 0
deriving DecidableEq, Repr

/-- R124, R157: one occupied row of a key cache. -/
structure KcLine where
  /-- R124, R588: row of the cache that holds the entry. Reset: DESIGN CHOICE, log 4. -/
  row : Nat := 0
  /-- R124: the entry. Reset: DESIGN CHOICE, log 4. -/
  entry : Entry := {}
  /-- R155: a RETIRE marked it. Reset: DESIGN CHOICE, log 4. -/
  retiring : Bool := false
deriving DecidableEq, Repr

/-- R65, R70: a request a guard has accepted and not yet answered. -/
structure Req where
  /-- R90: order of acceptance. The model's own field. -/
  uid : Nat := 0
  /-- R65, R243: source. The model's own field. -/
  src : ReqSrc := .tenant
  /-- R65: operation. Reset: DESIGN CHOICE, log 4. -/
  op : ReqOp := .read
  /-- R634, R635: slice of the header. Reset: DESIGN CHOICE, log 4. -/
  slice : Nat := 0
  /-- R65: stream tag. Reset: DESIGN CHOICE, log 4. -/
  stream : BitVec 16 := 0
  /-- R72: tenant domain the stream was bound to when the header was checked. The model's own field. -/
  bound : Nat := 0
  /-- R65: domain ID. Reset: DESIGN CHOICE, log 4. -/
  domain : Nat := 0
  /-- R65: line address. Reset: DESIGN CHOICE, log 4. -/
  addr : BitVec 42 := 0
  /-- R65: transaction tag. Reset: DESIGN CHOICE, log 4. -/
  txn : BitVec 12 := 0
  /-- R84, R86: generation the header stage took; the newest live one. The model's own field. -/
  gen : BitVec 32 := 0
  /-- R133: its key cache lookup missed. The model's own field. -/
  isMiss : Bool := false
  /-- R65: write data. Reset: DESIGN CHOICE, log 4. -/
  data : BitVec 512 := 0
  /-- R65: byte enables. Reset: DESIGN CHOICE, log 4. -/
  be : BitVec 64 := 0
  /-- R65: sidecar presented upstream; only [63:40] is used. Reset: DESIGN CHOICE, log 4. -/
  side : BitVec 64 := 0
  /-- R65: gu_wd_txn of its data beat. Reset: DESIGN CHOICE, log 4. -/
  wdTxn : BitVec 12 := 0
  /-- R142, R156: the domain was on the rotation list when the header stage took the generation. The model's own field. -/
  olderOk : Bool := false
  /-- R66: the data beat has been accepted. The model's own field. -/
  gotData : Bool := false
  /-- R77-R90: where it stands. The model's own field. -/
  stage : Stage := .parked
deriving DecidableEq, Repr

/-- R67: a response ready to be presented on its slice. -/
structure Rsp where
  /-- R635: slice. Reset: DESIGN CHOICE, log 4. -/
  slice : Nat := 0
  /-- R67: gu_rsp_txn. Reset: DESIGN CHOICE, log 4. -/
  txn : BitVec 12 := 0
  /-- R67, R75: it answers a read or a reserved operation, whose response carries poison unless it is OK. The model's own field. -/
  read : Bool := false
  /-- R67, R73: gu_rsp_status. Reset: DESIGN CHOICE, log 4. -/
  status : BitVec 4 := 0
  /-- R67: gu_rsp_poison. Reset: DESIGN CHOICE, log 4. -/
  poison : Bool := false
  /-- R67: gu_rsp_data. Reset: DESIGN CHOICE, log 4. -/
  data : BitVec 512 := 0
  /-- R67: gu_rsp_side. Reset: DESIGN CHOICE, log 4. -/
  side : BitVec 64 := 0
  /-- R90: order of acceptance of the request answered. The model's own field. -/
  uid : Nat := 0
deriving DecidableEq, Repr

/-- R639: a request beat on a downstream slice. -/
structure DownBeat where
  /-- R639: slice. Reset: DESIGN CHOICE, log 4. -/
  slice : Nat := 0
  /-- R68: gd_req_write, reset 0. -/
  write : Bool := false
  /-- R639: gd_req_addr, reset 0. -/
  addr : BitVec 42 := 0
  /-- R640: gd_req_tag, reset 0. -/
  tag : BitVec 12 := 0
  /-- R68: gd_req_data, reset 0. -/
  data : BitVec 512 := 0
  /-- R63: gd_req_side, reset 0. -/
  side : BitVec 64 := 0
deriving DecidableEq, Repr

/-- R133: a miss tracker slot. -/
structure Slot where
  /-- R137: block timer of its latest KEY_REQ. The model's own field. -/
  asked : Nat := 0
  /-- R133: domain sought. Reset: DESIGN CHOICE, log 4. -/
  domain : Nat := 0
  /-- R133, R186: WANT: false newest (0x00), true the generation GENBIT names (0x01). Reset: DESIGN CHOICE, log 4. -/
  want : Bool := false
  /-- R133, R186: GENBIT. Reset: DESIGN CHOICE, log 4. -/
  genbit : Bool := false
  /-- R191: block timer when the slot was allocated. The model's own field. -/
  since : Nat := 0
deriving DecidableEq, Repr

/-- R65: a header held in the header stage for want of a slot or a place (R134). -/
structure Hdr where
  /-- R634: slice. Reset: DESIGN CHOICE, log 4. -/
  slice : Nat := 0
  /-- R65: operation code. Reset: DESIGN CHOICE, log 4. -/
  op : BitVec 3 := 0
  /-- R65: stream tag. Reset: DESIGN CHOICE, log 4. -/
  stream : BitVec 16 := 0
  /-- R65: domain ID. Reset: DESIGN CHOICE, log 4. -/
  domain : BitVec 13 := 0
  /-- R65: line address. Reset: DESIGN CHOICE, log 4. -/
  addr : BitVec 42 := 0
  /-- R65: transaction tag. Reset: DESIGN CHOICE, log 4. -/
  txn : BitVec 12 := 0
  /-- R156: its domain was on the rotation list when it was accepted. The model's own field. -/
  olderOk : Bool := false
deriving DecidableEq, Repr

/-- R17-R21, R114: a bank of nine lanes. -/
structure Bank where
  /-- R114: IN_SERVICE: lane positions active; set by self-test. -/
  active : BitVec 9 := 0
  /-- R104, R566: lane positions out of service or excluded. Reset: DESIGN CHOICE, log 4. -/
  bad : BitVec 9 := 0
  /-- R114: SPARE_USED, reset 0. -/
  spareUsed : Bool := false
  /-- R564: the bank has passed its start-time test and joined. The model's own field. -/
  tested : Bool := false
  /-- R566: excluded by the defect record or the start-time test. Reset: DESIGN CHOICE, log 4. -/
  excluded : Bool := false
  /-- R105: a lane was removed and the spare has yet to take its place. The model's own field. -/
  spareDue : Bool := false
  /-- R587, R600: block timer of the last good known-answer block of each position. Reset: DESIGN CHOICE, log 4. -/
  lastKat : List Nat := []
deriving DecidableEq, Repr

/-- R131: a pinned domain of a guard. -/
structure Pin where
  /-- R131: domain. Reset: DESIGN CHOICE, log 4. -/
  domain : Nat := 0
  /-- R131: entries of its reservation taken so far. The model's own field. -/
  reserved : Nat := 0
deriving DecidableEq, Repr

/-- R174: an entry of a region list. -/
structure Region where
  /-- R174: first line address. Reset: DESIGN CHOICE, log 4. -/
  first : Nat := 0
  /-- R174: global guard number. Reset: DESIGN CHOICE, log 4. -/
  guard : Nat := 0
  /-- R174: number of lines. Reset: DESIGN CHOICE, log 4. -/
  count : Nat := 0
deriving DecidableEq, Repr

/-- R176, R186: a sweep descriptor held by a guard. -/
structure Desc where
  /-- R186: SWEEP_ID. Reset: DESIGN CHOICE, log 4. -/
  sweepId : BitVec 32 := 0
  /-- R186: domain swept. Reset: DESIGN CHOICE, log 4. -/
  domain : Nat := 0
  /-- R186: first line address. Reset: DESIGN CHOICE, log 4. -/
  first : Nat := 0
  /-- R186: number of lines. Reset: DESIGN CHOICE, log 4. -/
  count : Nat := 0
  /-- R186: lines visited so far. Reset: DESIGN CHOICE, log 4. -/
  visited : Nat := 0
  /-- R186: lines counted as failures, saturating. Reset: DESIGN CHOICE, log 4. -/
  failed : BitVec 32 := 0
deriving DecidableEq, Repr

/-- R155, R157: a RETIRE a guard has applied and not yet acknowledged. -/
structure PendRetire where
  /-- R186: OP_ID. Reset: DESIGN CHOICE, log 4. -/
  opId : BitVec 32 := 0
  /-- R186: first domain. Reset: DESIGN CHOICE, log 4. -/
  first : Nat := 0
  /-- R186: last domain. Reset: DESIGN CHOICE, log 4. -/
  last : Nat := 0
  /-- R186: WHICH: false every generation, true the older only. Reset: DESIGN CHOICE, log 4. -/
  older : Bool := false
deriving DecidableEq, Repr

/-- R666, R669, R670: the writable part of a page's common header. -/
structure PageHdr where
  /-- R669: PAGE_CTRL MASK_LOCK, reset 0. -/
  maskLock : Bool := false
  /-- R670: PAGE_FAULT_MASK MASK, reset 0. -/
  mask : BitVec 16 := 0
deriving DecidableEq, Repr

/-- R124-R132, R190: the key cache and its page. -/
structure Cache where
  /-- R124, R31: valid entries, least recently used first; empty at reset. -/
  lines : List KcLine := []
  /-- R566, R588: rows excluded. Reset: DESIGN CHOICE, log 4. -/
  rowsOut : List Nat := []
  /-- R588: BIND failures of each row since the guard's last reset. Reset: DESIGN CHOICE, log 4. -/
  rowFails : List (Nat × Nat) := []
  /-- R588: block timer of the latest BIND failures, newest first, at most 8. The model's own field. -/
  bindTimes : List Nat := []
  /-- R131: pinned domains. -/
  pins : List Pin := []
  /-- R190: GUARD_KC_PIN DOMAIN, reset 0. -/
  pinDom : BitVec 13 := 0
  /-- R190: domain of the pin request in progress. The model's own field. -/
  pinReq : Nat := 0
  /-- R190: GUARD_KC_PIN PIN, reset 0. -/
  pinBit : Bool := false
  /-- R190: GUARD_KC_PIN RESULT, reset 0b00. -/
  pinResult : BitVec 2 := 0
  /-- R190: GUARD_KC_PIN BUSY, reset 0. -/
  pinBusy : Bool := false
  /-- R190: GUARD_KC_QUERY DOMAIN, reset 0. -/
  query : BitVec 13 := 0
  /-- R190: GUARD_KC_QUERY has been written since reset; until then its [19:16] read 0. The model's own field. -/
  queried : Bool := false
  /-- R190: GUARD_KC_HITS, wrapping, reset 0. -/
  hits : BitVec 32 := 0
  /-- R190: GUARD_KC_MISSES, wrapping, reset 0. -/
  misses : BitVec 32 := 0
  /-- R190: GUARD_KC_BIND_FAIL, saturating, reset 0. -/
  bindFail : BitVec 32 := 0
  /-- R190: GUARD_KC_EVICTIONS, wrapping, reset 0. -/
  evictions : BitVec 32 := 0
  /-- R190: GUARD_KC_SCRUB_PASSES, wrapping, reset 0. -/
  scrubs : BitVec 32 := 0
  /-- R190: PAGE_STATUS NO_VICTIM, reset 0. -/
  noVictimRecent : Bool := false
  /-- R190: PAGE_FAULT BIND_RECENT, reset 0. -/
  bindRecent : Bool := false
  /-- R130: fills waiting for a victim, oldest first. Reset: DESIGN CHOICE, log 4. -/
  waitFills : List Entry := []
deriving DecidableEq, Repr

/-- R133-R143, R191: the miss tracker, the wait list and their page. -/
structure Miss where
  /-- R134: slots in use, oldest first. -/
  slots : List Slot := []
  /-- R191: GUARD_MISS_LAT_MAX, saturating, reset 0. -/
  latMax : BitVec 32 := 0
  /-- R191: GUARD_MISS_HOLD, saturating, reset 0. -/
  hold : BitVec 32 := 0
  /-- R191: GUARD_MISS_RESENDS, wrapping, reset 0. -/
  resends : BitVec 32 := 0
  /-- R191: R134 held the port in the present 1,024-cycle interval. The model's own field. -/
  heldInterval : Bool := false
  /-- R134: header held in the header stage while no slot or place is free. The model's own field. -/
  heldHdr : Option Hdr := none
deriving DecidableEq, Repr

/-- R164-R170, R176, R192: sweep descriptors and registers of a guard. -/
structure Sweeps where
  /-- R176: rekey descriptors, the running one first. -/
  rekey : List Desc := []
  /-- R176: domain-sweep descriptors, the running one first. -/
  dom : List Desc := []
  /-- R170: sweep key register; ONE_TIME_KEY reads whether it holds a key, reset 0. -/
  key : Option Entry := none
  /-- R559: next line of the initial seal sweep while it runs. The model's own field. -/
  sealNext : Option Nat := none
  /-- R192: GUARD_SWEEP_LINES, reset 0. -/
  lines : BitVec 64 := 0
  /-- R192: GUARD_SWEEP_FAILS, saturating, reset 0. -/
  fails : BitVec 32 := 0
  /-- R157, R192: RETIREs waiting for references to end (GUARD_DRAIN RETIRE_PENDING). -/
  retires : List PendRetire := []
  /-- R692: OP_IDs applied since reset, and whether acknowledged. Reset: DESIGN CHOICE, log 4. -/
  ops : List (BitVec 32 × Bool) := []
deriving DecidableEq, Repr

/-- R111, R113, R114: the counts and registers of the datapath, tag failure and lane pages. -/
structure DataPage where
  /-- R111: GUARD_THROTTLE LIMIT, reset 0. -/
  limit : BitVec 14 := 0
  /-- R47: percentage of the shares that a power limit leaves in force. The model's own field. -/
  powerPct : Option Nat := none
  /-- R47: tenant lines per interval that a power limit leaves. The model's own field. -/
  powerLines : Option Nat := none
  /-- R264: LIMIT in force in the present interval. The model's own field. -/
  limitNow : BitVec 14 := 0
  /-- R264: tenant lines counted in the present interval. The model's own field. -/
  lineCount : Nat := 0
  /-- R111: GUARD_LANE_SHARE, reset 0x1905_0A05. -/
  share : BitVec 32 := 0x19050A05#32
  /-- R111: GUARD_SHARE_EFF, reset 0x1905_0A05. -/
  shareEff : BitVec 32 := 0x19050A05#32
  /-- R111: GUARD_ERR_COUNT of codes E_FENCED to E_LANE, saturating, reset 0. -/
  errCount : List (BitVec 32) := List.replicate 9 0
  /-- R111: GUARD_LINES_READ, reset 0. -/
  linesRead : BitVec 64 := 0
  /-- R111: GUARD_LINES_WRITTEN, reset 0. -/
  linesWritten : BitVec 64 := 0
  /-- R111: GUARD_RMW_COUNT, wrapping, reset 0. -/
  rmwCount : BitVec 32 := 0
  /-- R111: PAGE_STATUS THROTTLED, reset 0. -/
  throttledRecent : Bool := false
  /-- R113: GUARD_TAGFAIL_SEL, reset 0. -/
  tfSel : BitVec 13 := 0
  /-- R113, R97: tag failure counts, saturating at 0xFF_FFFF, reset 0. -/
  tfCounts : List (Nat × BitVec 24) := []
  /-- R113: GUARD_TAGFAIL_TOTAL, saturating, reset 0. -/
  tfTotal : BitVec 32 := 0
  /-- R113: GUARD_TAGFAIL_LAST, reset 0. -/
  tfLast : BitVec 16 := 0
  /-- R113: GUARD_TAGFAIL_ADDR_LO and _HI, reset 0. -/
  tfAddr : BitVec 42 := 0
  /-- R114: GUARD_KAT_COUNT, wrapping, reset 0. -/
  katCount : BitVec 32 := 0
  /-- R114: GUARD_KAT_FAIL, saturating, reset 0. -/
  katFail : BitVec 32 := 0
  /-- R114: GUARD_PARITY_FAIL, saturating, reset 0. -/
  parityFail : BitVec 32 := 0
  /-- R103: the next known-answer block is a decryption block. Reset: DESIGN CHOICE, log 4. -/
  katDecrypt : Bool := false
deriving DecidableEq, Repr

/-- R23, R110, R189: a guard: its banks, cache, trackers, requests and pages. -/
structure Guard where
  /-- R560: service state. -/
  service : Service := .held
  /-- R661, R564: held in reset; every unit is while cold reset is asserted. -/
  inReset : Bool := true
  /-- R573: the present reset is a partial one that has yet to end. The model's own field. -/
  resetKeep : Bool := false
  /-- R107: FENCED of PAGE_STATUS and FENCE of GUARD_CTL, reset 0. -/
  fenced : Bool := false
  /-- R111: PAGE_FAULT SAFETY_FENCE, reset 0. -/
  safetyFence : Bool := false
  /-- R642, R111: PAGE_STATUS PORT_CLOCK_STOPPED, reset 0. -/
  clkStopped : Bool := false
  /-- R114: banks. Reset: DESIGN CHOICE, log 4. -/
  banks : List Bank := []
  /-- R70: requests accepted and not yet ready with a response, in order of acceptance. -/
  reqs : List Req := []
  /-- R83: ready responses in the order they became ready. -/
  rsps : List Rsp := []
  /-- R90: next order of acceptance. The model's own field. -/
  uid : Nat := 1
  /-- R89, R637: a partial write header is held on the port for want of a place. The model's own field. -/
  placeWait : Bool := false
  /-- R66: data beats owed: slice and order of acceptance of their headers. -/
  wdWait : List (Nat × Nat) := []
  /-- R111: datapath, tag failure and lane page registers. -/
  page : DataPage := {}
  /-- R124: key cache. -/
  cache : Cache := {}
  /-- R133: miss tracker. -/
  miss : Miss := {}
  /-- R176: sweeps. -/
  sweep : Sweeps := {}
  /-- R128, R161: rotation list: domain and older generation bit. -/
  rot : List (Nat × Bool) := []
  /-- R180: SEQ of the guard's next ring message, starting at 0 after reset. -/
  seq : BitVec 16 := 0
  /-- R666: common headers of its six pages. -/
  hdrs : List PageHdr := List.replicate 6 {}
  /-- R639: request signals of the downstream port as last driven. -/
  beat : DownBeat := {}
  /-- R67: response signals of the upstream port as last driven, reset 0. -/
  rspBeat : Rsp := {}
deriving DecidableEq, Repr


/-- R25, R26, R690: guard `g` of 0 to 39 as reset leaves it. The first six of a die's ten guards serve a memory pair and
have eight banks; the other four have one. -/
def Guard.reset (g : Nat) : Guard := { banks := List.replicate (if g % 10 < 6 then 8 else 1) ({} : Bank) }

/-- R185, R186: the payloads of ring messages. -/
inductive RingBody where
  /-- 0x01 -/
  | keyReq (domain : Nat) (want genbit : Bool)
  /-- 0x02 -/
  | keyFill (entry : Entry)
  /-- 0x03 -/
  | keyNone (domain : Nat) (want genbit : Bool)
  /-- 0x04 -/
  | rotate (domain : Nat) (newGen opId : BitVec 32)
  /-- 0x05 -/
  | retire (first last : Nat) (older : Bool) (opId : BitVec 32)
  /-- 0x06 -/
  | ack (opId : BitVec 32) (unit : Nat) (duplicate : Bool)
  /-- 0x07 -/
  | streamSet (stream : Nat) (entry opId : BitVec 32)
  /-- 0x08 -/
  | readerSet (model oper first last : Nat) (opId : BitVec 32)
  /-- 0x09 -/
  | tableSync (kind : Nat) (isLast : Bool) (start : Nat) (entries : List (BitVec 32))
  /-- 0x0A -/
  | sweepCmd (domainSweep : Bool) (domain first count : Nat) (sweepId : BitVec 32)
  /-- 0x0B -/
  | sweepDone (sweepId : BitVec 32) (visited : Nat) (failed : BitVec 32) (aborted : Bool)
  /-- 0x0C -/
  | sweepAbort (domain : Nat)
  /-- 0x0D -/
  | pulse
  /-- 0x0E -/
  | ringErr (expected : BitVec 16) (unit : Nat)
deriving DecidableEq, Repr

/-- R178: a ring message. -/
structure RingMsg where
  /-- R179: unit address of the destination. Reset: DESIGN CHOICE, log 4. -/
  dest : Nat := 0
  /-- R179: unit address of the source. Reset: DESIGN CHOICE, log 4. -/
  src : Nat := 0
  /-- R178: SEQ. Reset: DESIGN CHOICE, log 4. -/
  seq : BitVec 16 := 0
  /-- R186: payload. Reset: DESIGN CHOICE, log 4. -/
  body : RingBody := .pulse
deriving DecidableEq, Repr

/-- R149-R151: a withdrawal a stop has applied and not yet acknowledged. -/
structure Withdrawal where
  /-- R186: OP_ID. Reset: DESIGN CHOICE, log 4. -/
  opId : BitVec 32 := 0
  /-- R151: requests accepted before it that it now refuses: guard and order of acceptance. The model's own field. -/
  waits : List (Nat × Nat) := []
  /-- R192: a reader-set withdrawal (else a stream withdrawal). The model's own field. -/
  reader : Bool := false
deriving DecidableEq, Repr

/-- R32, R193-R196, R686: a die section: its tables, ring stop, power page. -/
structure Die where
  /-- R144: stream table copy: nonzero entries in rising stream order; reset 0. -/
  streams : List (Nat × BitVec 32) := []
  /-- R148, R186: reader-set copy: nonzero words by word index 128 x (MODEL - 4096) + word; reset empty. -/
  readers : List (Nat × BitVec 32) := []
  /-- R155, R161: the stop's copy of the rotation list. -/
  rot : List (Nat × Bool) := []
  /-- R194: SECTION_BYPASS: the section is in reset. -/
  inReset : Bool := true
  /-- R194, R188: kinds whose TABLE_SYNC with LAST has been acknowledged; SYNCED reads 1 when all three are, reset 0. -/
  synced : BitVec 3 := 0
  /-- R693: a TABLE_SYNC timed out: SYNCED stays 0 until SECTION_RESET. The model's own field. -/
  syncDead : Bool := false
  /-- R574: the section has ended its bypass. The model's own field. -/
  serveNow : Bool := false
  /-- R194: DS_RING_HEAD_SEQ, reset 0. -/
  headSeq : BitVec 16 := 0
  /-- R183: head SEQ the stop expects next. -/
  expSeq : BitVec 16 := 0
  /-- R194: DS_RING_CRC_ERR, saturating, reset 0. -/
  crcErr : BitVec 32 := 0
  /-- R194: DS_RING_SEQ_ERR, saturating, reset 0. -/
  seqErr : BitVec 32 := 0
  /-- R194: DS_RING_REPLAYS, wrapping, reset 0. -/
  replays : BitVec 32 := 0
  /-- R194: PAGE_FAULT RING_CRC, reset 0. -/
  crcRecent : Bool := false
  /-- R194: PAGE_FAULT RING_SEQ, reset 0. -/
  seqRecent : Bool := false
  /-- R645: discards words until the next idle word. Reset: DESIGN CHOICE, log 4. -/
  discarding : Bool := false
  /-- R28, R181: ring messages on their way to this stop, oldest first. The model's own field. -/
  inbox : List RingMsg := []
  /-- R267: send queue of KEY_REQs. -/
  keyReqQ : List RingMsg := []
  /-- R267: second send queue. -/
  sendQ : List RingMsg := []
  /-- R268: messages that have passed while the stop had one to insert. The model's own field. -/
  passing : Nat := 0
  /-- R267: local guard whose KEY_REQ the stop takes next. The model's own field. -/
  krTurn : Nat := 0
  /-- R180: SEQ of the stop's next message. -/
  seq : BitVec 16 := 0
  /-- R151: withdrawals not yet acknowledged. -/
  withdraws : List Withdrawal := []
  /-- R692: OP_IDs applied since reset, and whether acknowledged. Reset: DESIGN CHOICE, log 4. -/
  ops : List (BitVec 32 × Bool) := []
  /-- R578: a fingerprint sample is to be latched at the next PULSE applied. The model's own field. -/
  fpPend : Bool := false
  /-- R195: DS_STREAM_SEL, reset 0. -/
  selStream : BitVec 16 := 0
  /-- R196: DS_READER_SEL, reset 0. -/
  selReader : BitVec 15 := 0
  /-- R686: pwr_core_good pin (in range while cold reset is asserted, R661); DS_POWER CORE_GOOD. -/
  coreGood : Bool := true
  /-- R686: pwr_guard_good pin; DS_POWER GUARD_GOOD. -/
  guardGood : Bool := true
  /-- R686: DS_POWER PAIR_CLK_RUN, reset 0. -/
  pairRun : BitVec 3 := 0
  /-- R686: DS_POWER T2_CLK_RUN, reset 0. -/
  t2Run : Bool := false
  /-- R686: DS_POWER LANE_CLK_RUN, reset 0. -/
  laneRun : Bool := false
  /-- R666: common headers of its four pages. -/
  hdrs : List PageHdr := List.replicate 4 {}
deriving DecidableEq, Repr

/-- R28, R180-R184: the key-ring head. -/
structure Head where
  /-- R34, R615: the head is attached at the active core's die. -/
  attached : Bool := false
  /-- R180: SEQ of the head's next message. -/
  seq : BitVec 16 := 0
  /-- R184: replay buffer: the last 64 messages, newest first. -/
  replay : List RingMsg := []
  /-- R181: head messages that have been round the ring and await their removal, oldest first. The model's own field. -/
  returning : List RingMsg := []
  /-- R181: messages of stops and guards arriving at the head, in order. The model's own field. -/
  inQ : List RingMsg := []
  /-- R183: SEQ expected next from each source. -/
  srcSeq : List (Nat × BitVec 16) := []
  /-- R184: damaged messages the head has counted. Reset: DESIGN CHOICE, log 4. -/
  damaged : BitVec 32 := 0
  /-- R645: discards words until the next idle word. Reset: DESIGN CHOICE, log 4. -/
  discarding : Bool := false
  /-- R265, R266: KEY_REQs admitted to the key service, in order. -/
  admitted : List RingMsg := []
deriving DecidableEq, Repr

/-- R294: the record of a domain in the domain key store (a FREE domain has none). -/
structure DomRec where
  /-- R294: DOMAIN. Reset: DESIGN CHOICE, log 4. -/
  id : Nat := 0
  /-- R294: STATE. Reset: DESIGN CHOICE, log 4. -/
  state : DomState := .created
  /-- R294: MODE. Reset: DESIGN CHOICE, log 4. -/
  mode : DomMode := .seal
  /-- R294: FLAGS SCRATCH. Reset: DESIGN CHOICE, log 4. -/
  scratch : Bool := false
  /-- R294: FLAGS LOST. Reset: DESIGN CHOICE, log 4. -/
  lost : Bool := false
  /-- R298: generations found lost. The model's own field. -/
  lostGen : List (BitVec 32) := []
  /-- R294: FLAGS CLOSING. Reset: DESIGN CHOICE, log 4. -/
  closing : Bool := false
  /-- R294: OWNER_CRED; none reads as zeros. Reset: DESIGN CHOICE, log 4. -/
  owner : Option Bytes := none
  /-- R294: NEWEST_GEN. Reset: DESIGN CHOICE, log 4. -/
  newest : BitVec 32 := 0
  /-- R295: live generation entries; generation n is entry n mod 2. Reset: DESIGN CHOICE, log 4. -/
  gens : List Entry := []
  /-- R297, R298: generations whose stored entry has an uncorrectable error. Reset: DESIGN CHOICE, log 4. -/
  eccBad : List (BitVec 32) := []
  /-- R174, R441: a region list of this domain is being read; other requests of the domain wait. The model's own field. -/
  reading : Bool := false
  /-- R168: region list of the teardown or rekey in progress. The model's own field. -/
  regions : List Region := []
  /-- R608: SWEEP_ADDR of the region list in use. Reset: DESIGN CHOICE, log 4. -/
  swAddr : Nat := 0
  /-- R608: SWEEP_COUNT of the region list in use. Reset: DESIGN CHOICE, log 4. -/
  swCount : Nat := 0
  /-- R166: lines visited by the rekey sweep so far. The model's own field. -/
  visited : Nat := 0
  /-- R166: lines left unchanged by the rekey sweep so far. The model's own field. -/
  failed : Nat := 0
  /-- R175: entries skipped because they name a fenced guard. The model's own field. -/
  notSwept : Nat := 0
  /-- R118, R154: the older generation is being retired. The model's own field. -/
  oldRetiring : Bool := false
deriving DecidableEq, Repr

/-- the broadcast operations of the head that expect acknowledgements (R693). -/
inductive BKind where
  /-- ROTATE -/
  | rotate (domain : Nat)
  /-- RETIRE -/
  | retire (first last : Nat) (older : Bool)
  /-- STREAM_SET -/
  | stream (stream : Nat) (withdraw : Bool) (domain : Nat)
  /-- READER_SET -/
  | reader (model : Nat) (withdraw : Bool) (domain : Nat)
  /-- TABLE_SYNC of one kind to one stop -/
  | sync (die kind : Nat)
deriving DecidableEq, Repr

/-- a requester that is answered when an operation completes. -/
structure Waiter where
  /-- R436: session. The model's own field. -/
  sess : Nat := 0
  /-- R439: MSG. The model's own field. -/
  msg : BitVec 16 := 0
  /-- R439: TAG. The model's own field. -/
  tag : BitVec 32 := 0
  /-- R443, R452: body of the response. The model's own field. -/
  body : Bytes := []
deriving DecidableEq, Repr

/-- R158, R693: a broadcast operation awaiting acknowledgements. -/
structure Broadcast where
  /-- R186, R617: OP_ID (bit 31 is the SITE). Reset: DESIGN CHOICE, log 4. -/
  opId : BitVec 32 := 0
  /-- R693: what it does. Reset: DESIGN CHOICE, log 4. -/
  kind : BKind := .rotate 0
  /-- R158: guards not yet counted as having acknowledged. Reset: DESIGN CHOICE, log 4. -/
  missG : List Nat := []
  /-- R152: stops not yet counted as having acknowledged. Reset: DESIGN CHOICE, log 4. -/
  missS : List Nat := []
  /-- R693: block timer at first sending. Reset: DESIGN CHOICE, log 4. -/
  sentAt : Nat := 0
  /-- R693: sent again at 50 us. Reset: DESIGN CHOICE, log 4. -/
  resent : Bool := false
  /-- R693: the messages, for a resend. The model's own field. -/
  msgs : List RingBody := []
  /-- R437: requester answered at completion. The model's own field. -/
  waiter : Option Waiter := none
deriving DecidableEq, Repr

/-- R167, R176: a sweep descriptor known to the key service, sent or not. -/
structure HeldDesc where
  /-- R176: guard. Reset: DESIGN CHOICE, log 4. -/
  guard : Nat := 0
  /-- R176: domain sweep (else rekey). Reset: DESIGN CHOICE, log 4. -/
  dsweep : Bool := false
  /-- R176: domain. Reset: DESIGN CHOICE, log 4. -/
  domain : Nat := 0
  /-- R176: first line. Reset: DESIGN CHOICE, log 4. -/
  first : Nat := 0
  /-- R176: lines. Reset: DESIGN CHOICE, log 4. -/
  count : Nat := 0
  /-- R186: SWEEP_ID. Reset: DESIGN CHOICE, log 4. -/
  sweepId : BitVec 32 := 0
  /-- R176: sent to the guard. Reset: DESIGN CHOICE, log 4. -/
  sent : Bool := false
  /-- R168: its guard has been sent the one-time key of this sweep. The model's own field. -/
  keyed : Bool := false
deriving DecidableEq, Repr

/-- R232: the record of a model domain that is not NONE. -/
structure ModelRec where
  /-- R232: MODEL. Reset: DESIGN CHOICE, log 4. -/
  model : Nat := 0
  /-- R232: STATE. Reset: DESIGN CHOICE, log 4. -/
  custody : Custody := .awaitingKey
  /-- R232: GRANT_SEQ; 0 before the first. -/
  grantSeq : BitVec 32 := 0
  /-- R232: PAYLOAD_SIZE; 0 before RESIDENT. -/
  payload : Nat := 0
  /-- R232: OWNER_KEY_ID. Reset: DESIGN CHOICE, log 4. -/
  ownerKeyId : Bytes := []
  /-- R232: OWNER_CRED. Reset: DESIGN CHOICE, log 4. -/
  ownerCred : Bytes := []
  /-- R208, R232: public keys of the owner credential. Reset: DESIGN CHOICE, log 4. -/
  ownerPub : Bytes := []
  /-- R232: ROOT; zero before RESIDENT. -/
  root : Bytes := []
  /-- R232: PLACEMENT. -/
  placement : List Region := []
  /-- R199: its one ingest job has been accepted. The model's own field. -/
  jobUsed : Bool := false
deriving DecidableEq, Repr

/-- R160: a retire waiting in the key service. -/
structure Retire where
  /-- R153: first domain. Reset: DESIGN CHOICE, log 4. -/
  first : Nat := 0
  /-- R153: last domain. Reset: DESIGN CHOICE, log 4. -/
  last : Nat := 0
  /-- R153: older generation only. Reset: DESIGN CHOICE, log 4. -/
  older : Bool := false
deriving DecidableEq, Repr

/-- R174: the request for which a region list is read. -/
inductive RPurpose where
  /-- DOMAIN_TEARDOWN of either mailbox -/
  | teardown (w : Waiter) (domain addr count : Nat)
  /-- REGION_LIST -/
  | rekey (w : Waiter) (domain addr count : Nat)
  /-- a list read again after a takeover (R616) -/
  | resume (domain : Nat)
  /-- INGEST_START: the staging list, read first -/
  | ingestStage (w : Waiter) (model : Nat) (placeAddr : Nat) (placeCount : Nat)
  /-- INGEST_START: the placement list, read second -/
  | ingestPlace (w : Waiter) (model : Nat) (stage : List Region)
  /-- MEASURE with its job request -/
  | measure (w : Waiter) (job : Bytes)
deriving DecidableEq, Repr

/-- R174: a region list read under way. -/
structure RegionRead where
  /-- R633: DMA work that reads it. The model's own field. -/
  work : Nat := 0
  /-- R174: request. The model's own field. -/
  purpose : RPurpose := .resume 0
deriving DecidableEq, Repr

/-- R441: a request naming a domain that waits while a region list of that domain is read. -/
structure HeldMsg where
  /-- R440: MSG. The model's own field. -/
  msg : BitVec 16 := 0
  /-- R436: session. The model's own field. -/
  sess : Nat := 0
  /-- R439: TAG. The model's own field. -/
  tag : BitVec 32 := 0
  /-- R439: body. The model's own field. -/
  body : Bytes := []
deriving DecidableEq, Repr

/-- R115-R196: the key service's tables and operations. -/
structure KeySvc where
  /-- R294: domain key store; every domain FREE. -/
  doms : List DomRec := []
  /-- R232: model domain records; every one NONE. -/
  models : List ModelRec := []
  /-- R145: the key service's own stream table. Reset: DESIGN CHOICE, log 4. -/
  streams : List (Nat × BitVec 32) := []
  /-- R148: its own reader sets, by word index. Reset: DESIGN CHOICE, log 4. -/
  readers : List (Nat × BitVec 32) := []
  /-- R161: its own rotation list. Reset: DESIGN CHOICE, log 4. -/
  rot : List (Nat × Bool) := []
  /-- R160, R693: operations awaiting acknowledgements. Reset: DESIGN CHOICE, log 4. -/
  ops : List Broadcast := []
  /-- R160: retires waiting, oldest first. Reset: DESIGN CHOICE, log 4. -/
  retireQ : List Retire := []
  /-- R167, R176: descriptors not ended. Reset: DESIGN CHOICE, log 4. -/
  descs : List HeldDesc := []
  /-- R188: stops for which updates are held back until their TABLE_SYNC ends. The model's own field. -/
  held : List Nat := []
  /-- R188: updates held back until every stop being synchronised has its tables. The model's own field. -/
  heldOps : List Broadcast := []
  /-- R186, R617: next operation identifier. Reset: DESIGN CHOICE, log 4. -/
  nextOp : BitVec 31 := 0
  /-- R186, R617: next descriptor identifier. Reset: DESIGN CHOICE, log 4. -/
  nextSweep : BitVec 31 := 0
  /-- R174: region lists being read. Reset: DESIGN CHOICE, log 4. -/
  reads : List RegionRead := []
  /-- R188: die, kind and SEQ of each TABLE_SYNC with LAST sent. Reset: DESIGN CHOICE, log 4. -/
  syncSeqs : List (Nat × Nat × BitVec 16) := []
  /-- R578: SEQ of the sample's PULSE and the reference fingerprint as its tables stood then. The model's own field. -/
  fpRef : Option (BitVec 16 × BitVec 32) := none
  /-- R579: TIMER when that PULSE was sent. The model's own field. -/
  fpAt : Nat := 0
  /-- R441: requests that wait for a region list to be read, in order of arrival. Reset: DESIGN CHOICE, log 4. -/
  waiting : List HeldMsg := []
  /-- R461: link assignments: link and tenant domain. Reset: DESIGN CHOICE, log 4. -/
  links : List (Nat × Nat) := []
deriving DecidableEq, Repr

/-- R273, R274: an anchor slot. -/
structure AnchorSlot where
  /-- R274: attribute word (VAULT_SLOT_ATTR); 0 while empty, reset 0. -/
  attr : BitVec 32 := 0
  /-- R273: value. -/
  value : Bytes := []
  /-- R378: SLOT_EPOCH, the fill count. Reset: DESIGN CHOICE, log 4. -/
  epoch : BitVec 32 := 0
  /-- R377: cached SHA-384 inner state for TYPE 0x2. -/
  hmacInner : Bytes := []
  /-- R377: cached SHA-384 outer state for TYPE 0x2. -/
  hmacOuter : Bytes := []
deriving DecidableEq, Repr

/-- R208: a bundle key held for the ingest unit. -/
structure BundleKey where
  /-- R208: model domain. Reset: DESIGN CHOICE, log 4. -/
  model : Nat := 0
  /-- R208: OWNER_KEY_ID. Reset: DESIGN CHOICE, log 4. -/
  keyId : Bytes := []
  /-- R208: the key. Reset: DESIGN CHOICE, log 4. -/
  key : Bytes := []
  /-- R207: staging domain of the release. Reset: DESIGN CHOICE, log 4. -/
  staging : Nat := 0
  /-- R220: session of the release. The model's own field. -/
  sess : Nat := 0
  /-- R211: block timer at the release. The model's own field. -/
  released : Nat := 0
deriving DecidableEq, Repr

/-- R284, R288: a vault command that waits for the public-key engine. -/
structure VaultRun where
  /-- R284: CODE. Reset: DESIGN CHOICE, log 4. -/
  code : Nat := 0
  /-- R284: SLOT. Reset: DESIGN CHOICE, log 4. -/
  slot : Nat := 0
  /-- R284: SLOT2. Reset: DESIGN CHOICE, log 4. -/
  slot2 : Nat := 0
  /-- R281: requesting management core. The model's own field. -/
  core : Nat := 0
  /-- R284: attributes requested. Reset: DESIGN CHOICE, log 4. -/
  arg : BitVec 32 := 0
  /-- R284: operands as they stood at GO. The model's own field. -/
  input : Bytes := []
  /-- R284: VAULT_LEN as it stood at GO. The model's own field. -/
  ctxLen : Nat := 0
  /-- R292: statement body, once its KEY_ID is known. The model's own field. -/
  body : Bytes := []
deriving DecidableEq, Repr

/-- R273-R310: the key vault and its page. -/
structure Vault where
  /-- R273: anchor slots, empty at reset. -/
  slots : Vector AnchorSlot 64 := Vector.replicate 64 {}
  /-- R273: bundle key registers. -/
  bundles : List BundleKey := []
  /-- R310: VAULT_CMD, reset 0. -/
  cmd : BitVec 32 := 0
  /-- R310: VAULT_ARG, reset 0. -/
  arg : BitVec 32 := 0
  /-- R310: VAULT_LEN, reset 0. -/
  len : BitVec 9 := 0
  /-- R288, R310: command in progress; VAULT_STATUS BUSY, reset 0. -/
  run : Option VaultRun := none
  /-- R310: VAULT_STATUS VALID, reset 0. -/
  valid : Bool := false
  /-- R310: VAULT_STATUS RESULT, reset 0x00. -/
  result : BitVec 8 := 0
  /-- R310: VAULT_STATUS DROPPED, saturating, reset 0. -/
  dropped : BitVec 8 := 0
  /-- R310: VAULT_STATUS FOREIGN, saturating, reset 0. -/
  foreign : BitVec 8 := 0
  /-- R292: statements issued since the last reset or takeover. -/
  stmtSeq : BitVec 32 := 0
  /-- R310: vault operand pages as commands take their operands from them; unlisted bytes are zero. -/
  opnd : List Host.Cell := []
  /-- R310: the bytes of the operand pages that a command left there, which reads show; the pages read zero elsewhere. -/
  shown : List Host.Cell := []
  /-- R310: PAGE_FAULT ECC_RECENT, reset 0. -/
  eccRecent : Bool := false
  /-- R666: common header. -/
  hdr : PageHdr := {}
deriving DecidableEq, Repr

/-- R300-R310, R657: the tamper input and latch. -/
structure Tamper where
  /-- R310: the pair on die 0 reads asserted (tmp_a, tmp_b), reset 0. -/
  pairDie0 : Bool := false
  /-- R310: the pair on die 2 reads asserted, reset 0. -/
  pairDie2 : Bool := false
  /-- R304: tamper latch; the sequence runs or has ended. -/
  latch : Bool := false
  /-- R310: CLEARED: tamper-cleared, reset 0. -/
  cleared : Bool := false
  /-- R310: RETRY, reset 0. -/
  retry : Bool := false
  /-- R310: GLITCHES, saturating, reset 0. -/
  glitches : BitVec 16 := 0
  /-- R657: tmp_zeroize_done, reset 0. -/
  done : Bool := false
deriving DecidableEq, Repr

/-- R316-R361: where a public-key job stands. -/
inductive PkPhase where
  /-- in its queue -/
  | queued
  /-- started, before its validation boundary -/
  | running
  /-- started, past its validation boundary -/
  | validated
  /-- a long job switched out at a checkpoint -/
  | yielded
  /-- ABORT has been written and the areas are being wiped -/
  | aborting
deriving DecidableEq, Repr

/-- R311, R313, R360, R361: an operand area of one datapath, with its key register. -/
structure PkArea where
  /-- R360: owner of the area's last job: a job slot, or 8 for the key vault. Reset: DESIGN CHOICE, log 4. -/
  owner : Option Nat := none
  /-- R361: the area holds values of that job. Reset: DESIGN CHOICE, log 4. -/
  dirty : Bool := false
  /-- R311, R312: key register: the private key of the job in progress. Reset: DESIGN CHOICE, log 4. -/
  key : Bytes := []
deriving DecidableEq, Repr

/-- R324, R352: a public-key job queued or in progress. -/
structure PkJob where
  /-- R316, R318: job slot, 8 for the key vault. Reset: DESIGN CHOICE, log 4. -/
  slot : Nat := 0
  /-- R324: OP. Reset: DESIGN CHOICE, log 4. -/
  op : BitVec 8 := 0
  /-- R319: PARAM. Reset: DESIGN CHOICE, log 4. -/
  param : BitVec 8 := 0
  /-- R327: KEY_SRC. Reset: DESIGN CHOICE, log 4. -/
  keySrc : Bool := false
  /-- R327: SLOT. Reset: DESIGN CHOICE, log 4. -/
  anchor : Nat := 0
  /-- R334: a reserved field of the command was nonzero. Reset: DESIGN CHOICE, log 4. -/
  reservedBits : Bool := false
  /-- R324: LEN. Reset: DESIGN CHOICE, log 4. -/
  len : Nat := 0
  /-- R352: class. Reset: DESIGN CHOICE, log 4. -/
  long : Bool := false
  /-- R354: phase. Reset: DESIGN CHOICE, log 4. -/
  phase : PkPhase := .queued
  /-- R366: mode it runs in; 0b11 not started. -/
  mode : BitVec 2 := 3
  /-- R325, R367: operands copied out of the window at the start. Reset: DESIGN CHOICE, log 4. -/
  window : Bytes := []
  /-- R323, R340: random inputs drawn once for both runs. Reset: DESIGN CHOICE, log 4. -/
  draws : Bytes := []
  /-- R334: result of its validation, reported at the validation boundary. The model's own field. -/
  verdict : BitVec 8 := 0
  /-- R353: order in which GO was written. The model's own field. -/
  goAt : Nat := 0
  /-- R348: it restarts when it is switched in. The model's own field. -/
  again : Bool := false
  /-- R366: it yielded at least once. -/
  yieldedOnce : Bool := false
  /-- R366: it was restarted under R348. -/
  restarted : Bool := false
  /-- R460: it signs a quote batch. The model's own field. -/
  batch : Bool := false
  /-- R318: it serves a vault command. The model's own field. -/
  vaultCmd : Bool := false
deriving DecidableEq, Repr

/-- R316, R366: a job slot's page and window. -/
structure PkSlot where
  /-- R366: PK_JOB_CMD [30:0], reset 0. -/
  cmd : BitVec 31 := 0
  /-- R334, R366: PK_JOB_LEN as written, reset 0; its reserved bits read 0. -/
  len : BitVec 32 := 0
  /-- R366: STATUS VALID, reset 0. -/
  valid : Bool := false
  /-- R366: STATUS WIPED, reset 0. -/
  wiped : Bool := false
  /-- R366: STATUS RESTARTED, reset 0. -/
  restarted : Bool := false
  /-- R366: STATUS LONG, reset 0. -/
  long : Bool := false
  /-- R366: STATUS YIELDED, reset 0. -/
  yielded : Bool := false
  /-- R366: STATUS MODE, reset 0b00. -/
  mode : BitVec 2 := 0
  /-- R366: STATUS RESULT, reset 0x00. -/
  result : BitVec 8 := 0
  /-- R366: STATUS CURVE_FAIL, reset 0. -/
  curveFail : BitVec 6 := 0
  /-- R366: PK_JOB_TIME, saturating, reset 0. -/
  time : BitVec 32 := 0
  /-- R366: PK_JOB_WAIT, saturating, reset 0. -/
  wait : BitVec 32 := 0
  /-- R325, R366: PK_JOB_WINDOW; unlisted bytes read zero. -/
  window : List Host.Cell := []
  /-- R666: common header. -/
  hdr : PageHdr := {}
deriving DecidableEq, Repr

/-- R329, R330: a loaded curve entry. -/
structure Curve where
  /-- R330: field modulus. Reset: DESIGN CHOICE, log 4. -/
  p : Nat := 0
  /-- R330: coefficient a. Reset: DESIGN CHOICE, log 4. -/
  a : Nat := 0
  /-- R330: coefficient b. Reset: DESIGN CHOICE, log 4. -/
  b : Nat := 0
  /-- R330: X of G. Reset: DESIGN CHOICE, log 4. -/
  gx : Nat := 0
  /-- R330: Y of G. Reset: DESIGN CHOICE, log 4. -/
  gy : Nat := 0
  /-- R330: order. Reset: DESIGN CHOICE, log 4. -/
  n : Nat := 0
  /-- R330: cofactor. Reset: DESIGN CHOICE, log 4. -/
  h : Nat := 0
  /-- R324: LEN, the bit length of p. Reset: DESIGN CHOICE, log 4. -/
  bits : Nat := 0
deriving DecidableEq, Repr

/-- R311-R367: the public-key engine. -/
structure Pk where
  /-- R365: PK_CTL FC_MODE, reset 0b00. -/
  fcMode : BitVec 2 := 0
  /-- R365: PK_CTL SELFTEST, reset 0. -/
  selftest : Bool := false
  /-- R345: a full self-test is due or running (after reset, after E_COMPARE, or requested). Reset: DESIGN CHOICE, log 4. -/
  stDue : Bool := false
  /-- R365: PK_STATE DP_A, reset 0. -/
  dpA : Bool := false
  /-- R365: PK_STATE DP_B, reset 0. -/
  dpB : Bool := false
  /-- R365: PAGE_FAULT DP_A_OUT, reset 0. -/
  dpAOut : Bool := false
  /-- R365: PAGE_FAULT DP_B_OUT, reset 0. -/
  dpBOut : Bool := false
  /-- R353: short queue, oldest first. -/
  shortQ : List PkJob := []
  /-- R353: long queue, oldest first. -/
  longQ : List PkJob := []
  /-- R353: short job in progress. -/
  shortRun : Option PkJob := none
  /-- R353: long job in progress. -/
  longRun : Option PkJob := none
  /-- R353: order of the next GO. The model's own field. -/
  nextGo : Nat := 0
  /-- R354: short jobs of the present batch still to start while the long job is switched out. The model's own field. -/
  batchLeft : Nat := 0
  /-- R311, R313, R353: the short and the long area of datapath A, then those of datapath B. Reset: DESIGN CHOICE, log 4. -/
  areas : Vector PkArea 4 := Vector.replicate 4 {}
  /-- R329: curve entries, empty after a reset of the security core. -/
  curves : Vector (Option Curve) 8 := Vector.replicate 8 none
  /-- R366: job pages and windows. -/
  slots : Vector PkSlot 8 := Vector.replicate 8 {}
  /-- R365: PK_JOBS_DONE, wrapping, reset 0. -/
  jobsDone : BitVec 32 := 0
  /-- R365: PK_REFUSED, saturating, reset 0. -/
  refused : BitVec 32 := 0
  /-- R365: PK_COMPARE_FAIL, saturating, reset 0. -/
  compareFail : BitVec 32 := 0
  /-- R365: PK_ABORTS, saturating, reset 0. -/
  aborts : BitVec 32 := 0
  /-- R365: PK_RESTARTS, saturating, reset 0. -/
  restarts : BitVec 32 := 0
  /-- R365: PK_FOREIGN, saturating, reset 0. -/
  foreign : BitVec 32 := 0
  /-- R365: PK_DROPPED, saturating, reset 0. -/
  dropped : BitVec 32 := 0
  /-- R365: PAGE_FAULT COMPARE_RECENT, reset 0. -/
  compareRecent : Bool := false
  /-- R666: common header of the control page. -/
  hdr : PageHdr := {}
deriving DecidableEq, Repr

/-- R373: the states of a digest context, codes 0 to 5. -/
inductive CtxState where
  /-- code 0 -/
  | free
  /-- code 1 -/
  | claimed
  /-- code 2 -/
  | opened
  /-- code 3 -/
  | finishing
  /-- code 4 -/
  | done
  /-- code 5 -/
  | ended
deriving DecidableEq, Repr

/-- R371-R386, R410: a digest context. -/
structure Ctx where
  /-- R410: DIG_CTX_CMD OP, reset 0. -/
  cmd : BitVec 4 := 0
  /-- R410: STATE, reset 0. -/
  state : CtxState := .free
  /-- R410: OWNER, reset 0. -/
  owner : Nat := 0
  /-- R410: TRUNC, reset 0. -/
  trunc : Bool := false
  /-- R410: FEEDING, reset 0. -/
  feeding : Bool := false
  /-- R410: CODE, reset 0x00. -/
  code : BitVec 8 := 0
  /-- R387, R410: DIG_CTX_CFG as written (its reserved bit reads 0 and is kept for the check of R387), reset 0. -/
  cfg : BitVec 32 := 0
  /-- R387, R410: DIG_CTX_OUTLEN as written (its reserved bits read 0 and are kept for the check of R387), reset 0. -/
  outLen : BitVec 32 := 0
  /-- R387, R410: DIG_CTX_DECL_LO and _HI as written (their reserved bits read 0 and are kept for the check of R387), reset 0. -/
  decl : BitVec 64 := 0
  /-- R410: DIG_CTX_FEED_LO and _HI, reset 0. -/
  feedAddr : BitVec 64 := 0
  /-- R410: DIG_CTX_FEED_CTL [30:0], reset 0. -/
  feedLen : BitVec 31 := 0
  /-- R410: DIG_CTX_KEY; unlisted bytes are zero. -/
  key : List Host.Cell := []
  /-- R410: DIG_CTX_CUSTOM; unlisted bytes are zero. -/
  custom : List Host.Cell := []
  /-- R380: FED. -/
  fed : BitVec 64 := 0
  /-- R368, R389: ALG in force, taken at OPEN or IMPORT. Reset: DESIGN CHOICE, log 4. -/
  alg : Nat := 0
  /-- R376, R390: KEY_SRC in force. Reset: DESIGN CHOICE, log 4. -/
  keySrc : Nat := 0
  /-- R376, R390: SLOT in force. Reset: DESIGN CHOICE, log 4. -/
  slot : Nat := 0
  /-- R390: OUT_LEN in force. Reset: DESIGN CHOICE, log 4. -/
  olen : Nat := 0
  /-- R380, R389: DECL_LEN in force. Reset: DESIGN CHOICE, log 4. -/
  len : Nat := 0
  /-- R390: Keccak state, or SHA-2 chaining value. Reset: DESIGN CHOICE, log 4. -/
  st : Bytes := []
  /-- R390: HMAC outer chaining value of an inline key. Reset: DESIGN CHOICE, log 4. -/
  outer : Bytes := []
  /-- R390: declared bytes offered and not yet absorbed by a core: the partial block, and whole blocks that wait for a core. Reset: DESIGN CHOICE, log 4. -/
  buf : Bytes := []
  /-- R378: SLOT_EPOCH recorded at OPEN. Reset: DESIGN CHOICE, log 4. -/
  slotEpoch : BitVec 32 := 0
  /-- R410: DIG_CTX_RESULT; zero outside DONE. -/
  result : Bytes := []
  /-- R383: FINISH has been carried out. The model's own field. -/
  finished : Bool := false
  /-- R384: block timer at the last activity. The model's own field. -/
  lastAct : Nat := 0
  /-- R386: bytes of the running feed. The model's own field. -/
  feedAll : Nat := 0
  /-- R386: DMA work of the running feed. The model's own field. -/
  dmaWork : Option Nat := none
  /-- R380: next line of the feed to be offered, in address order. The model's own field. -/
  dmaNext : Nat := 0
  /-- R666: common header. -/
  hdr : PageHdr := {}
deriving DecidableEq, Repr

/-- R409: the region of a management core in the digest control page. -/
structure DigCore where
  /-- R409: DIG_XFER. -/
  xfer : List Host.Cell := []
  /-- R409: DIG_CMP_A. -/
  cmpA : List Host.Cell := []
  /-- R409: DIG_CMP_B. -/
  cmpB : List Host.Cell := []
  /-- R409: DIG_CMP_CTL [30:0], reset 0. -/
  cmpCtl : BitVec 31 := 0
  /-- R409: DIG_CMP_STATUS BUSY, reset 0. -/
  cmpBusy : Bool := false
  /-- R409: DIG_CMP_STATUS MATCH, reset 0. -/
  isMatch : Bool := false
  /-- R409: DIG_CMP_STATUS MATCH_N, reset 0. -/
  isMatchN : Bool := false
  /-- R409: DIG_CMP_STATUS RESULT, reset 0. -/
  cmpResult : BitVec 8 := 0
  /-- R409: DIG_CMP_VERDICT, reset 0. -/
  verdict : BitVec 32 := 0
  /-- R394: operand A of the compare in progress. The model's own field. -/
  cmpOpA : Bytes := []
  /-- R394: operand B of the compare in progress. The model's own field. -/
  cmpOpB : Bytes := []
  /-- R392: export counter; 1 after each reset of the security core. -/
  nextSeq : BitVec 32 := 1
  /-- R392: outstanding export SEQs. -/
  outstanding : List (BitVec 32) := []
deriving DecidableEq, Repr

/-- R368-R410: the digest engine. -/
structure Dig where
  /-- R409: DIG_CTL IDLE_LIMIT, reset 0x0A. -/
  idleLimit : BitVec 8 := 0x0A#8
  /-- R370, R409: cores whose test of a written self-test has not ended; DIG_CTL SELFTEST reads whether there is one, reset 0. -/
  testing : BitVec 4 := 0
  /-- R369: the contexts in the order in which they are next served. The model's own field. -/
  turn : List Nat := List.range 8
  /-- R409: bit k: SHA-2 core k in service; SHA2_CORES counts them, reset 0. -/
  sha2Cores : BitVec 2 := 0
  /-- R409: bit k: Keccak core k in service, reset 0. -/
  kecCores : BitVec 2 := 0
  /-- R370: cores found bad (PAGE_FAULT CORE_OUT), reset 0. -/
  coreOut : BitVec 4 := 0
  /-- R371: contexts. -/
  ctxs : Vector Ctx 8 := Vector.replicate 8 {}
  /-- R409: per-core regions. -/
  regions : Vector DigCore 4 := Vector.replicate 4 {}
  /-- R395: compare sets waiting, in the order of GO. -/
  cmpQ : List Nat := []
  /-- R409: DIG_FOREIGN, saturating, reset 0. -/
  foreign : BitVec 32 := 0
  /-- R409: DIG_DROPPED, saturating, reset 0. -/
  dropped : BitVec 32 := 0
  /-- R409: DIG_TRUNC, saturating, reset 0. -/
  truncs : BitVec 32 := 0
  /-- R409: DIG_SHORT, saturating, reset 0. -/
  shorts : BitVec 32 := 0
  /-- R409: PAGE_FAULT CMP_SPLIT, reset 0. -/
  splitRecent : Bool := false
  /-- R666: common header of the control page. -/
  hdr : PageHdr := {}
deriving DecidableEq, Repr

/-- R406: what a waiting request of the DRBG is for. -/
inductive DrawFor where
  /-- the draw registers of a management core -/
  | core (k : Nat)
  /-- the vault command in progress -/
  | vault
  /-- the export of a context by a management core -/
  | blob (c k : Nat)
deriving DecidableEq, Repr

/-- R411: a management core's draw region. -/
structure Draw where
  /-- R411: ENT_DRAW_REQ LEN, reset 0. -/
  len : BitVec 7 := 0
  /-- R411: ENT_DRAW_STATUS BUSY, reset 0. -/
  busy : Bool := false
  /-- R411: ENT_DRAW_STATUS VALID, reset 0. -/
  valid : Bool := false
  /-- R411: ENT_DRAW_STATUS RESULT, reset 0. -/
  result : BitVec 8 := 0
  /-- R411: ENT_DRAW_OUT, reset 0. -/
  out : List (BitVec 32) := List.replicate 16 0
deriving DecidableEq, Repr

/-- R411: ENT_STATE NOISE. -/
inductive Noise where
  /-- 0b00 -/
  | startup
  /-- 0b01 -/
  | healthy
  /-- 0b10 -/
  | recovering
  /-- 0b11 -/
  | outOfService
deriving DecidableEq, Repr

/-- R399-R411: the entropy unit. -/
structure Ent where
  /-- R411: NOISE, reset 0b00. -/
  noise : Noise := .startup
  /-- R401: samples still to be tested and discarded by the start-up test. -/
  startLeft : Nat := 1024
  /-- R400: last sample of the repetition count test. Reset: DESIGN CHOICE, log 4. -/
  rctLast : Option Bool := none
  /-- R400: identical samples in a row. Reset: DESIGN CHOICE, log 4. -/
  rctRun : Nat := 0
  /-- R400: first sample of the adaptive proportion window. Reset: DESIGN CHOICE, log 4. -/
  aptFirst : Bool := false
  /-- R400: samples seen in the window. Reset: DESIGN CHOICE, log 4. -/
  aptSeen : Nat := 0
  /-- R400: recurrences of the first sample in the window. Reset: DESIGN CHOICE, log 4. -/
  aptCount : Nat := 0
  /-- R401: reservoir of tested samples, oldest first. -/
  reservoir : List Bool := []
  /-- R402: block timer of recent test failures, newest first. The model's own field. -/
  failTimes : List Nat := []
  /-- R411: SEEDED, reset 0. -/
  seeded : Bool := false
  /-- R411: KAT_PASS, reset 0. -/
  katPass : Bool := false
  /-- R404: the DRBG known-answer tests failed since the reset. -/
  katFailed : Bool := false
  /-- R403: CTR_DRBG Key. -/
  drbgKey : Bytes := []
  /-- R403: CTR_DRBG V. -/
  drbgV : Bytes := []
  /-- R411: ENT_REQS, reset 0. -/
  reqs : BitVec 21 := 0
  /-- R405, R411: a reseed has been requested (RESEED of ENT_CTL, reset 0). -/
  reseedDue : Bool := false
  /-- R411: ENT_CTL RESEED, reset 0. -/
  reseedCtl : Bool := false
  /-- R405: life-cycle code to be used as additional input of the next reseed. -/
  lcAdd : Option (BitVec 8) := none
  /-- R406: requests waiting, oldest first: what for, and bytes. -/
  queue : List (DrawFor × Nat) := []
  /-- R411: draw regions. -/
  draws : Vector Draw 4 := Vector.replicate 4 {}
  /-- R411: ENT_RESEEDS, wrapping, reset 0. -/
  reseeds : BitVec 32 := 0
  /-- R411: ENT_RCT_FAIL, saturating, reset 0. -/
  rctFail : BitVec 32 := 0
  /-- R411: ENT_APT_FAIL, saturating, reset 0. -/
  aptFail : BitVec 32 := 0
  /-- R411: ENT_REFUSED, saturating, reset 0. -/
  refused : BitVec 32 := 0
  /-- R411: PAGE_FAULT HEALTH_RECENT, reset 0. -/
  healthRecent : Bool := false
  /-- R666: common header. -/
  hdr : PageHdr := {}
deriving DecidableEq, Repr

/-- R212-R222: an ingest job queued or running. -/
structure IngestJob where
  /-- R212: model domain. Reset: DESIGN CHOICE, log 4. -/
  model : Nat := 0
  /-- R207: staging domain. Reset: DESIGN CHOICE, log 4. -/
  staging : Nat := 0
  /-- R212: staging region list. Reset: DESIGN CHOICE, log 4. -/
  stage : List Region := []
  /-- R212: placement region list. Reset: DESIGN CHOICE, log 4. -/
  place : List Region := []
  /-- R220: session of the bundle key release (the model owner's). The model's own field. -/
  sess : Nat := 0
  /-- R201: bundle header, once read. Reset: DESIGN CHOICE, log 4. -/
  header : Bytes := []
  /-- R214: header checks 1 to 6 have passed. The model's own field. -/
  headerOk : Bool := false
  /-- R217: chunk in progress. Reset: DESIGN CHOICE, log 4. -/
  chunk : Nat := 0
  /-- R219: leaf hashes of the payload fed so far. Reset: DESIGN CHOICE, log 4. -/
  leaves : List Bytes := []
  /-- R142, R216: the key its next access waits for: guard, domain, WANT and GENBIT. The model's own field. -/
  seeks : Option (Nat × Nat × Bool × Bool) := none
  /-- R142, R216: that search has been answered: there is no such key. The model's own field. -/
  noKey : Bool := false
deriving DecidableEq, Repr

/-- R212-R233: the ingest unit and its page. -/
structure Ingest where
  /-- R213: jobs queued, oldest first. -/
  queue : List IngestJob := []
  /-- R213: running job. -/
  run : Option IngestJob := none
  /-- R562: GCM lanes in service. Reset: DESIGN CHOICE, log 4. -/
  gcmLanes : BitVec 8 := 0
  /-- R233: INGEST_LAST OUTCOME, reset 0x00. -/
  lastOutcome : BitVec 8 := 0
  /-- R233: INGEST_LAST MODEL, reset 0. -/
  lastModel : BitVec 8 := 0
  /-- R233: INGEST_LAST VALID, reset 0. -/
  lastValid : Bool := false
  /-- R233: INGEST_LAST_CHUNK, reset 0. -/
  lastChunk : BitVec 25 := 0
  /-- R233: INGEST_BYTES, reset 0. -/
  bytes : BitVec 64 := 0
  /-- R233: INGEST_AUTH_FAIL, saturating, reset 0. -/
  authFail : BitVec 32 := 0
  /-- R233: PAGE_STATUS SHARE_LIMITED, reset 0. -/
  shareLimited : Bool := false
  /-- R233: PAGE_FAULT AUTH_RECENT, reset 0. -/
  authRecent : Bool := false
  /-- R666: common header. -/
  hdr : PageHdr := {}
deriving DecidableEq, Repr

/-- R250: a kept record. -/
structure Kept where
  /-- R250: domain. Reset: DESIGN CHOICE, log 4. -/
  domain : Nat := 0
  /-- R250: T. Reset: DESIGN CHOICE, log 4. -/
  total : Nat := 0
  /-- R250: hashes along the right edge: level, index, hash. Reset: DESIGN CHOICE, log 4. -/
  nodes : List (Nat × Nat × Bytes) := []
  /-- R258: root of the kept payload (BASE_ROOT). Reset: DESIGN CHOICE, log 4. -/
  root : Bytes := []
deriving DecidableEq, Repr

/-- R246-R256: a measurement job. -/
structure MJob where
  /-- R253: JOB_SEQ. Reset: DESIGN CHOICE, log 4. -/
  seq : BitVec 32 := 0
  /-- R254: requesting session. The model's own field. -/
  sess : Nat := 0
  /-- R246: DOMAIN. Reset: DESIGN CHOICE, log 4. -/
  domain : Nat := 0
  /-- R246: KIND: 1 full, 2 partial, 3 incremental. Reset: DESIGN CHOICE, log 4. -/
  kind : Nat := 1
  /-- R246: FLAGS KEEP. Reset: DESIGN CHOICE, log 4. -/
  keep : Bool := false
  /-- R246: LEVEL. Reset: DESIGN CHOICE, log 4. -/
  level : Nat := 0
  /-- R246: TOTAL_LEN. Reset: DESIGN CHOICE, log 4. -/
  total : Nat := 0
  /-- R246: NODE_INDEX. Reset: DESIGN CHOICE, log 4. -/
  index : Nat := 0
  /-- R239: MODE byte. Reset: DESIGN CHOICE, log 4. -/
  mode : DomMode := .seal
  /-- R247: lines read, in order. Reset: DESIGN CHOICE, log 4. -/
  lines : List Region := []
  /-- R249: first payload byte read. The model's own field. -/
  lo : Nat := 0
  /-- R249: byte after the last payload byte read. The model's own field. -/
  hi : Nat := 0
  /-- R250: kept record of an incremental job. Reset: DESIGN CHOICE, log 4. -/
  base : Option Kept := none
  /-- R694: lines issued. Reset: DESIGN CHOICE, log 4. -/
  issued : Nat := 0
  /-- R694: lines read and not yet absorbed into their leaf. Reset: DESIGN CHOICE, log 4. -/
  got : List (Nat × BitVec 512) := []
  /-- R252: hashes of complete nodes: level, index, hash. Reset: DESIGN CHOICE, log 4. -/
  nodes : List (Nat × Nat × Bytes) := []
  /-- R255: ends with MW_ABORT when its reads in flight are complete. The model's own field. -/
  aborting : Bool := false
deriving DecidableEq, Repr

/-- R258: a result record. -/
structure ResultRec where
  /-- R258: DOMAIN. Reset: DESIGN CHOICE, log 4. -/
  domain : Nat := 0
  /-- R258: KIND, 0x00 none. -/
  kind : BitVec 8 := 0
  /-- R258: MODE. Reset: DESIGN CHOICE, log 4. -/
  mode : BitVec 8 := 0
  /-- R258: OUTCOME. Reset: DESIGN CHOICE, log 4. -/
  outcome : BitVec 8 := 0
  /-- R258: LEVEL. Reset: DESIGN CHOICE, log 4. -/
  level : BitVec 8 := 0
  /-- R258: JOB_SEQ. Reset: DESIGN CHOICE, log 4. -/
  jobSeq : BitVec 32 := 0
  /-- R258: GENERATION. Reset: DESIGN CHOICE, log 4. -/
  gen : BitVec 32 := 0
  /-- R258: TOTAL_LEN. Reset: DESIGN CHOICE, log 4. -/
  total : BitVec 64 := 0
  /-- R258: NODE_INDEX. Reset: DESIGN CHOICE, log 4. -/
  index : BitVec 64 := 0
  /-- R258: BASE_LEN. Reset: DESIGN CHOICE, log 4. -/
  baseLen : BitVec 64 := 0
  /-- R258: BASE_ROOT. Reset: DESIGN CHOICE, log 4. -/
  baseRoot : Bytes := []
  /-- R258: RESULT. Reset: DESIGN CHOICE, log 4. -/
  result : Bytes := []
deriving DecidableEq, Repr

/-- R240-R261: the mower and its page. -/
structure Mower where
  /-- R261: Keccak lanes in service; set by self-test. -/
  lanes : BitVec 32 := 0
  /-- R562: lanes that have passed their self-test. The model's own field. -/
  joined : BitVec 32 := 0
  /-- R252: jobs queued, in the order accepted. -/
  queue : List MJob := []
  /-- R252: running jobs, next in turn first. -/
  run : List MJob := []
  /-- R253: JOB_SEQ of the next accepted job; starts at 1. -/
  nextSeq : BitVec 32 := 1
  /-- R251: kept records. -/
  kept : List Kept := []
  /-- R258: result records with KIND other than 0x00. -/
  results : List ResultRec := []
  /-- R261: MOWER_LAST OUTCOME, reset 0x00. -/
  lastOutcome : BitVec 8 := 0
  /-- R261: MOWER_LAST DOMAIN, reset 0. -/
  lastDomain : BitVec 13 := 0
  /-- R261: MOWER_LAST VALID, reset 0. -/
  lastValid : Bool := false
  /-- R261: MOWER_LAST_JOB, reset 0. -/
  lastJob : BitVec 32 := 0
  /-- R261: MOWER_BYTES, reset 0. -/
  bytes : BitVec 64 := 0
  /-- R261: MOWER_READ_FAIL, saturating, reset 0. -/
  readFail : BitVec 32 := 0
  /-- R261: MOWER_LANE_KAT_FAIL, saturating, reset 0. -/
  laneKatFail : BitVec 32 := 0
  /-- R261: PAGE_STATUS SHARE_LIMITED, reset 0. -/
  shareLimited : Bool := false
  /-- R244: jobs with a read that completed with a status other than OK, not yet ended. The model's own field. -/
  badReads : List (BitVec 32) := []
  /-- R261: PAGE_FAULT MISMATCH_RECENT, reset 0. -/
  mismatchRecent : Bool := false
  /-- R666: common header. -/
  hdr : PageHdr := {}
deriving DecidableEq, Repr

/-- R446: an event of a session. -/
structure Event where
  /-- R446: KIND. Reset: DESIGN CHOICE, log 4. -/
  kind : BitVec 8 := 0
  /-- R446: RESULT. Reset: DESIGN CHOICE, log 4. -/
  result : BitVec 8 := 0
  /-- R446: DOMAIN. Reset: DESIGN CHOICE, log 4. -/
  domain : Nat := 0
  /-- R446: ID. Reset: DESIGN CHOICE, log 4. -/
  id : BitVec 32 := 0
  /-- R446: VALUE1. Reset: DESIGN CHOICE, log 4. -/
  value1 : BitVec 64 := 0
  /-- R446: VALUE2. Reset: DESIGN CHOICE, log 4. -/
  value2 : BitVec 64 := 0
deriving DecidableEq, Repr

/-- R424, R425: what the block holds of the SPDM requests of one mailbox outside a session, or of one session. -/
structure Conn where
  /-- R424: GET_VERSION to ALGORITHMS: the part of a transcript that CHALLENGE and GET_MEASUREMENTS sign over. Reset: DESIGN CHOICE, log 4. -/
  vca : Bytes := []
  /-- R424: GET_DIGESTS and GET_CERTIFICATE with their answers, which CHALLENGE signs over too. Reset: DESIGN CHOICE, log 4. -/
  certs : Bytes := []
  /-- R424: unsigned GET_MEASUREMENTS with their answers, which a signed one signs over too. Reset: DESIGN CHOICE, log 4. -/
  meas : Bytes := []
  /-- R425: data transfer size: the smaller of the block's and the requester's. The model's own field. -/
  xfer : Nat := 4096
  /-- R424: parts of a large request received so far. Reset: DESIGN CHOICE, log 4. -/
  chunkIn : Bytes := []
  /-- R424: handle of the large request. Reset: DESIGN CHOICE, log 4. -/
  inHandle : BitVec 8 := 0
  /-- R424: number of its next part. Reset: DESIGN CHOICE, log 4. -/
  inSeq : Nat := 0
  /-- R424: its length. Reset: DESIGN CHOICE, log 4. -/
  inSize : Nat := 0
  /-- R424: handle and number of the last part of a large request that is being answered: its answer travels in that part's acknowledgement. Reset: DESIGN CHOICE, log 4. -/
  ackDue : Option (BitVec 8 × Nat) := none
  /-- R424: parts of a large response still to be fetched. Reset: DESIGN CHOICE, log 4. -/
  chunkOut : Bytes := []
  /-- R424: handle of the large response. Reset: DESIGN CHOICE, log 4. -/
  outHandle : BitVec 8 := 0
  /-- R424: number of its next part. Reset: DESIGN CHOICE, log 4. -/
  outSeq : Nat := 0
  /-- R424: its length. Reset: DESIGN CHOICE, log 4. -/
  outSize : Nat := 0
  /-- R423: endpoint ID of the requester, from its last packet. Reset: DESIGN CHOICE, log 4. -/
  peer : Nat := 0
  /-- R423: message tag of its request. Reset: DESIGN CHOICE, log 4. -/
  peerTag : Nat := 0
deriving DecidableEq, Repr

/-- R423: the packets of a message received so far. -/
structure MctpPart where
  /-- R423: endpoint ID of the sender. Reset: DESIGN CHOICE, log 4. -/
  src : Nat := 0
  /-- R423: message tag. Reset: DESIGN CHOICE, log 4. -/
  tag : Nat := 0
  /-- R423: payload bytes of its first packet. Reset: DESIGN CHOICE, log 4. -/
  unit : Nat := 0
  /-- R423: sequence number of its last packet. Reset: DESIGN CHOICE, log 4. -/
  seq : Nat := 0
  /-- R423: payloads so far. Reset: DESIGN CHOICE, log 4. -/
  bytes : Bytes := []
deriving DecidableEq, Repr

/-- R423, R424: a request that has arrived whole and is not yet carried out. -/
structure Arrived where
  /-- R423: session; none outside a session. Reset: DESIGN CHOICE, log 4. -/
  sess : Option Nat := none
  /-- R424: its bytes. Reset: DESIGN CHOICE, log 4. -/
  req : Bytes := []
  /-- R424: it came in parts by CHUNK_SEND. Reset: DESIGN CHOICE, log 4. -/
  large : Bool := false
  /-- R423: the bytes are a record of a session, still to be opened. Reset: DESIGN CHOICE, log 4. -/
  record : Bool := false
  /-- R423: endpoint ID of the sender. Reset: DESIGN CHOICE, log 4. -/
  src : Nat := 0
  /-- R423: message tag. Reset: DESIGN CHOICE, log 4. -/
  tag : Nat := 0
deriving DecidableEq, Repr

/-- R427-R437: an SPDM session. -/
structure Session where
  /-- R427: session ID: the block's half in bits [31:16], the requester's in [15:0]. Reset: DESIGN CHOICE, log 4. -/
  id : Nat := 0
  /-- R427: on the operator mailbox (else the tenant mailbox). Reset: DESIGN CHOICE, log 4. -/
  operator : Bool := false
  /-- R432: HYB_FINISH has succeeded (else handshake). Reset: DESIGN CHOICE, log 4. -/
  finished : Bool := false
  /-- R429: TH1. Reset: DESIGN CHOICE, log 4. -/
  th1 : Bytes := []
  /-- R433: TH2, the transcript hash after HYB_FINISH. Reset: DESIGN CHOICE, log 4. -/
  th2 : Bytes := []
  /-- R438: export master secret. Reset: DESIGN CHOICE, log 4. -/
  ems : Bytes := []
  /-- R430: session secret S. Reset: DESIGN CHOICE, log 4. -/
  secret : Bytes := []
  /-- R433: credential digest proven. Reset: DESIGN CHOICE, log 4. -/
  cred : Option Bytes := none
  /-- R208, R433: public keys of the credential. Reset: DESIGN CHOICE, log 4. -/
  credPub : Bytes := []
  /-- R436: a request is being answered. Reset: DESIGN CHOICE, log 4. -/
  busy : Bool := false
  /-- R432: block timer of its HYB_KEX response. The model's own field. -/
  openedAt : Nat := 0
  /-- R435: block timer of its last message. The model's own field. -/
  heard : Nat := 0
  /-- R447: event queue, oldest first. Reset: DESIGN CHOICE, log 4. -/
  events : List Event := []
  /-- R447: OVERFLOW for the next poll. Reset: DESIGN CHOICE, log 4. -/
  overflow : Bool := false
  /-- R430: secret of the requester's direction: of the handshake, then of the data. Reset: DESIGN CHOICE, log 4. -/
  reqSecret : Bytes := []
  /-- R430: secret of the block's direction. Reset: DESIGN CHOICE, log 4. -/
  rspSecret : Bytes := []
  /-- R430: number of the next record from the requester. Reset: DESIGN CHOICE, log 4. -/
  reqSeq : Nat := 0
  /-- R430: number of the next record of the block. Reset: DESIGN CHOICE, log 4. -/
  rspSeq : Nat := 0
  /-- R424: SPDM requests of the session. Reset: DESIGN CHOICE, log 4. -/
  conn : Conn := {}
deriving DecidableEq, Repr

/-- R424-R426: responses to SPDM requests outside the vendor-defined messages. -/
inductive SpdmRsp where
  /-- VERSION, 1.3 only -/
  | version
  /-- CAPABILITIES -/
  | capabilities (caps : Bytes)
  /-- ALGORITHMS of R425 -/
  | algorithms
  /-- digest of certificate slot 0 -/
  | digests (digest : Bytes)
  /-- a portion of the chain and the bytes left -/
  | certificate (part : Bytes) (left : Nat)
  /-- CHALLENGE_AUTH: digest of the chain, nonce, summary of measurements, the requester's context and the signature -/
  | challengeAuth (chain nonce summary ctx sig : Bytes)
  /-- MEASUREMENTS: the number of indices where it was asked for, the index and contents of each block, nonce, the requester's context and the signature, empty where none was asked for -/
  | measurements (total : Nat) (blocks : List (Nat × Bytes)) (nonce ctx sig : Bytes)
  /-- CHUNK_SEND_ACK of a part that is not the last -/
  | chunkSendAck (handle : BitVec 8) (seq : Nat)
  /-- CHUNK_SEND_ACK that ends a large request early with an ERROR -/
  | chunkSendError (handle : BitVec 8) (seq : Nat) (code : BitVec 8)
  /-- CHUNK_RESPONSE: the length of the whole, a part and the bytes left -/
  | chunkResponse (handle : BitVec 8) (seq size : Nat) (part : Bytes) (left : Nat)
  /-- HEARTBEAT_ACK -/
  | heartbeatAck
  /-- KEY_UPDATE_ACK -/
  | keyUpdateAck (op tag : BitVec 8)
  /-- END_SESSION_ACK -/
  | endSessionAck
  /-- ERROR -/
  | error (code : BitVec 8)
deriving DecidableEq, Repr

/-- what a message to a requester carries. -/
inductive OutBody where
  /-- an SPDM response -/
  | spdm (r : SpdmRsp)
  /-- R439: a vendor-defined response -/
  | vendor (msg : BitVec 16) (result : BitVec 8) (tag : BitVec 32) (body : Bytes)
deriving DecidableEq, Repr

/-- R423, R439: a message the block sends through a mailbox. -/
structure OutMsg where
  /-- R423: operator mailbox. The model's own field. -/
  operator : Bool := false
  /-- R423: session; none outside a session. The model's own field. -/
  sess : Option Nat := none
  /-- R439: message. The model's own field. -/
  body : OutBody := .spdm .version
deriving DecidableEq, Repr

/-- R453, R455: a quote request in a batch. -/
structure QuoteReq where
  /-- R453: session. Reset: DESIGN CHOICE, log 4. -/
  sess : Nat := 0
  /-- R439: TAG. Reset: DESIGN CHOICE, log 4. -/
  tag : BitVec 32 := 0
  /-- R440: MSG. Reset: DESIGN CHOICE, log 4. -/
  msg : BitVec 16 := 0
  /-- R453: KIND. Reset: DESIGN CHOICE, log 4. -/
  kind : Nat := 0
  /-- R453: DOMAIN. Reset: DESIGN CHOICE, log 4. -/
  domain : Nat := 0
  /-- R453: NONCE. Reset: DESIGN CHOICE, log 4. -/
  nonce : Bytes := []
deriving DecidableEq, Repr

/-- R455-R460: a closed quote batch. -/
structure QuoteBatch where
  /-- R458: QUOTE_SEQ. Reset: DESIGN CHOICE, log 4. -/
  seq : BitVec 64 := 0
  /-- R455: requests in order of arrival. Reset: DESIGN CHOICE, log 4. -/
  reqs : List QuoteReq := []
  /-- R454: quote bodies. Reset: DESIGN CHOICE, log 4. -/
  bodies : List Bytes := []
  /-- R458: batch header. Reset: DESIGN CHOICE, log 4. -/
  header : Bytes := []
  /-- R464: its signature is in the public-key engine. Reset: DESIGN CHOICE, log 4. -/
  signing : Bool := false
  /-- R460: its signature has been submitted once more. Reset: DESIGN CHOICE, log 4. -/
  retried : Bool := false
  /-- R459: signature, once made and while the mirror of QUOTE_SEQ is awaited. The model's own field. -/
  sig : Option Bytes := none
  /-- R610: its QUOTE_SEQ has been acknowledged by a ready standby. The model's own field. -/
  mirrored : Bool := true
deriving DecidableEq, Repr

/-- R412-R464: identity, counters, sessions and quotes. -/
structure Attest where
  /-- R412: ROM_DIGEST, once computed. Reset: DESIGN CHOICE, log 4. -/
  romDigest : Bytes := []
  /-- R477: FW_DIGEST of the running image. Reset: DESIGN CHOICE, log 4. -/
  fwDigest : Bytes := []
  /-- R417: alias certificate left by the ROM. Reset: DESIGN CHOICE, log 4. -/
  aliasCert : Bytes := []
  /-- R464: ATT_BOOT_COUNT, reset 0. -/
  bootCount : BitVec 32 := 0
  /-- R464, R421: ATT_QUOTE_SEQ, reset 0; the next batch takes this value plus one, so that QUOTE_SEQ starts at 1. -/
  quoteSeq : BitVec 64 := 0
  /-- R422: NODE_LOG, zero at cold reset. -/
  nodeLog : Bytes := List.replicate 48 0
  /-- R422: entries of NODE_LOG: line and digest. -/
  logEntries : List (Nat × Bytes) := []
  /-- R464: NODE_LOG_LOST, reset 0. -/
  logLost : Bool := false
  /-- R464: DEVCERT_MISMATCH, reset 0. -/
  certMismatch : Bool := false
  /-- R427: open sessions. -/
  sessions : List Session := []
  /-- R429: RSP_SESSION_ID of the next session. Reset: DESIGN CHOICE, log 4. -/
  nextSess : Nat := 1
  /-- R428: anchor slot of the boot KEM pair. Reset: DESIGN CHOICE, log 4. -/
  kemSlot : Nat := 32
  /-- R428: anchor slot of the boot ECDH pair. Reset: DESIGN CHOICE, log 4. -/
  dhSlot : Nat := 33
  /-- R428: KEM encapsulation key. Reset: DESIGN CHOICE, log 4. -/
  kemPub : Bytes := []
  /-- R428: ECDH public key. Reset: DESIGN CHOICE, log 4. -/
  dhPub : Bytes := []
  /-- R428: key statements of the two pairs, with their signatures. Reset: DESIGN CHOICE, log 4. -/
  kexStmts : List Bytes := []
  /-- R455: open batch. -/
  batch : Option (List QuoteReq) := none
  /-- R455: block timer at which the open batch opened. The model's own field. -/
  batchAt : Nat := 0
  /-- R464: closed batches awaiting signature or their responses, oldest first. -/
  closed : List QuoteBatch := []
  /-- R464: ATT_REFUSED, saturating, reset 0. -/
  refused : BitVec 32 := 0
  /-- R464: ATT_AUTH_FAIL, saturating, reset 0. -/
  authFail : BitVec 32 := 0
  /-- R424: SPDM requests of the tenant mailbox outside a session. Reset: DESIGN CHOICE, log 4. -/
  tenantConn : Conn := {}
  /-- R424: SPDM requests of the operator mailbox outside a session. Reset: DESIGN CHOICE, log 4. -/
  operConn : Conn := {}
  /-- R666: common header. -/
  hdr : PageHdr := {}
deriving DecidableEq, Repr

/-- R683-R685: a mailbox. -/
structure Mbx where
  /-- R683: MBX_IN_CTL LEN, reset 0. -/
  inLen : BitVec 11 := 0
  /-- R683: MBX_IN_CTL POST, reset 0. -/
  inPost : Bool := false
  /-- R683: MBX_OUT_STATE LEN, reset 0. -/
  outLen : BitVec 11 := 0
  /-- R683: MBX_OUT_STATE READY, reset 0. -/
  outReady : Bool := false
  /-- R683: MBX_IN_DROPPED, saturating, reset 0. -/
  inDropped : BitVec 32 := 0
  /-- R682: inbound buffer; unlisted bytes read zero. -/
  inBuf : List Host.Cell := []
  /-- R682: outbound buffer; unlisted bytes read zero. -/
  outBuf : List Host.Cell := []
  /-- R684: packets the block has copied, newest first. The model's own field. -/
  taken : List Bytes := []
  /-- R423: endpoint ID that the bus owner has assigned; 0 where none is assigned. Reset: DESIGN CHOICE, log 4. -/
  eid : Nat := 0
  /-- R423: messages of which not every packet has arrived. Reset: DESIGN CHOICE, log 4. -/
  parts : List MctpPart := []
  /-- R423, R424: requests that have arrived whole and are not yet carried out, oldest first. Reset: DESIGN CHOICE, log 4. -/
  arrived : List Arrived := []
  /-- R439: messages handed to the mailbox, in the order sent. The model's own field. -/
  sent : List OutMsg := []
  /-- R684: packets waiting for the outbound buffer, in the order sent. -/
  outPkts : List Bytes := []
  /-- R666: common header. -/
  hdr : PageHdr := {}
deriving DecidableEq, Repr

/-- R36, R37, R465, R466: what a management core does. -/
inductive CoreMode where
  /-- held in reset -/
  | reset
  /-- in the ROM's wait on BOOT_VALID -/
  | romWait
  /-- boot core, running the ROM -/
  | rom
  /-- halted, awaiting release (READY) -/
  | halted
  /-- running firmware -/
  | running
  /-- halted by a lockstep mismatch or a watchdog expiry (R589) -/
  | failed
deriving DecidableEq, Repr

/-- R474: the fixed header of a firmware image. -/
structure Image where
  /-- R474: FLAGS. Reset: DESIGN CHOICE, log 4. -/
  flags : BitVec 16 := 0
  /-- R474: VERSION. Reset: DESIGN CHOICE, log 4. -/
  version : BitVec 32 := 0
  /-- R474: SVN. Reset: DESIGN CHOICE, log 4. -/
  svn : Nat := 0
  /-- R474: BODY_LEN. Reset: DESIGN CHOICE, log 4. -/
  bodyLen : Nat := 0
  /-- R474: LOAD_ADDR. Reset: DESIGN CHOICE, log 4. -/
  loadAddr : Nat := 0
  /-- R474: ENTRY. Reset: DESIGN CHOICE, log 4. -/
  entry : BitVec 32 := 0
  /-- R474: SEC_ENTRY. Reset: DESIGN CHOICE, log 4. -/
  secEntry : BitVec 32 := 0
  /-- R474: BLOCK_COUNT. Reset: DESIGN CHOICE, log 4. -/
  blockCount : Nat := 0
  /-- R474: IMAGE_DIGEST. Reset: DESIGN CHOICE, log 4. -/
  digest : Bytes := []
  /-- R474: VENDOR_KEY_ID. Reset: DESIGN CHOICE, log 4. -/
  vendorKeyId : Bytes := []
deriving DecidableEq, Repr

/-- R491-R493: an image update under way. -/
structure Update where
  /-- R491: session answered. The model's own field. -/
  waiter : Waiter := {}
  /-- R491: DMA work reading the image. The model's own field. -/
  work : Nat := 0
  /-- R473: header region, once read and checked. The model's own field. -/
  header : Bytes := []
  /-- R491: image bytes read so far. The model's own field. -/
  image : Bytes := []
  /-- R491: the fixed header has passed its checks. The model's own field. -/
  headerDone : Bool := false
deriving DecidableEq, Repr

/-- R502: the handover record. -/
structure Handover where
  /-- R502: SLOT. Reset: DESIGN CHOICE, log 4. -/
  slotB : Bool := false
  /-- R502: KIND. Reset: DESIGN CHOICE, log 4. -/
  kind : BitVec 8 := 0
  /-- R502: ATTEMPT. Reset: DESIGN CHOICE, log 4. -/
  attempt : BitVec 8 := 0
  /-- R502: REASON. Reset: DESIGN CHOICE, log 4. -/
  reason : BitVec 16 := 0
  /-- R502: COMMIT_SEQ. Reset: DESIGN CHOICE, log 4. -/
  commitSeq : BitVec 32 := 0
  /-- R502: CAIRN. Reset: DESIGN CHOICE, log 4. -/
  cairn : BitVec 32 := 0
  /-- R502: ROM_TIME. Reset: DESIGN CHOICE, log 4. -/
  romTime : BitVec 32 := 0
  /-- R502: ALIAS_CERT_LEN. Reset: DESIGN CHOICE, log 4. -/
  certLen : BitVec 32 := 0
deriving DecidableEq, Repr

/-- R504-R509: the recovery loader. -/
structure Recovery where
  /-- R510: BOOT_STATUS RECOVERY, reset 0. -/
  opened : Bool := false
  /-- R507: a HELLO has been received. The model's own field. -/
  hello : Bool := false
  /-- R507: SEQ expected next. Reset: DESIGN CHOICE, log 4. -/
  expSeq : BitVec 8 := 0
  /-- R507: answer to the last SEQ answered. Reset: DESIGN CHOICE, log 4. -/
  lastAnswer : Option Bytes := none
  /-- R508: image buffer in code RAM; unlisted bytes read zero. Reset: DESIGN CHOICE, log 4. -/
  buf : List Host.Cell := []
  /-- R508: 4,096-byte units covered. Reset: DESIGN CHOICE, log 4. -/
  marked : List Nat := []
  /-- R651: frames sent on ser_tx, oldest first. The model's own field. -/
  tx : List Bytes := []
  /-- R505: discards bytes up to the next SYNC. Reset: DESIGN CHOICE, log 4. -/
  discarding : Bool := false
deriving DecidableEq, Repr

/-- R465-R510: management cores, boot flow and boot page. -/
structure Boot where
  /-- R36: management cores. -/
  cores : Vector CoreMode 4 := Vector.replicate 4 .reset
  /-- R510: BOOT_CORE; set under R465. -/
  bootCore : Nat := 0
  /-- R510: EXCLUDED; set under R465. -/
  excluded : BitVec 4 := 0
  /-- R510: BOOT_VALID, reset 0. -/
  bootValid : Bool := false
  /-- R620: FO_WDOG_STATE armed cores, reset 0. -/
  wdogArmed : BitVec 4 := 0
  /-- R592: block timer at which each core's armed watchdog expires. The model's own field. -/
  wdogDue : Vector Nat 4 := Vector.replicate 4 0
  /-- R620: FO_WDOG_STATE expired cores, reset 0. -/
  wdogExpired : BitVec 4 := 0
  /-- R510: BOOT_STATUS SLOT, reset 0. -/
  slotB : Bool := false
  /-- R510: BOOT_STATUS KIND, reset 0b00. -/
  kind : BitVec 2 := 0
  /-- R510: BOOT_STATUS ATTEMPT, reset 0. -/
  attempt : BitVec 2 := 0
  /-- R510: BOOT_STATUS ROM_LOCKED, reset 0. -/
  romLocked : Bool := false
  /-- R510: FINALISED, reset 0. -/
  finalised : Bool := false
  /-- R510: BOOT_STATUS UPDATE_BUSY, reset 0. -/
  updateBusy : Bool := false
  /-- R510: BOOT_RUN_SVN, reset 0. -/
  runSvn : BitVec 32 := 0
  /-- R510: BOOT_SEC_ENTRY, reset 0. -/
  secEntry : BitVec 32 := 0
  /-- R510: BOOT_CAIRN_CMD TARGET, reset 0. -/
  cairnTarget : BitVec 8 := 0
  /-- R510: BOOT_CAIRN_CMD RESULT, reset 0x00. -/
  cairnResult : BitVec 8 := 0
  /-- R510: BOOT_CAIRN_CMD BUSY, reset 0. -/
  cairnBusy : Bool := false
  /-- R510: BOOT_CAIRN_CMD VALID, reset 0. -/
  cairnValid : Bool := false
  /-- R510: BOOT_CAIRN_CMD SKIPPED, reset 0. -/
  cairnSkipped : BitVec 7 := 0
  /-- R510: BOOT_FOREIGN, saturating, reset 0. -/
  foreign : BitVec 32 := 0
  /-- R474: fixed header of the image loaded. Reset: DESIGN CHOICE, log 4. -/
  image : Image := {}
  /-- R486, R609: header region and body of the image loaded into code RAM. Reset: DESIGN CHOICE, log 4. -/
  imageBytes : Bytes := []
  /-- R502: handover record. Reset: DESIGN CHOICE, log 4. -/
  handover : Handover := {}
  /-- R502: code RAM from 0x1100_0000 as the ROM leaves it: the handover record, then the alias certificate. Reset: DESIGN CHOICE, log 4. -/
  left : Bytes := []
  /-- R501: address at which the boot core continued. Reset: DESIGN CHOICE, log 4. -/
  entry : BitVec 32 := 0
  /-- R491: update under way. -/
  update : Option Update := none
  /-- R493: block timer at which a scheduled reset of the security core is due. The model's own field. -/
  resetDue : Option Nat := none
  /-- R504: recovery loader. -/
  recovery : Recovery := {}
  /-- R666: common header. -/
  hdr : PageHdr := {}
deriving DecidableEq, Repr

/-- R511: a word of the array as sensed at both references: 72 bits each, data in [63:0], check bits in [71:64]. -/
structure FuseWord where
  /-- R511: word number. Reset: DESIGN CHOICE, log 4. -/
  word : Nat := 0
  /-- R519: reading at the normal reference. Reset: DESIGN CHOICE, log 4. -/
  norm : BitVec 72 := 0
  /-- R519: reading at the tight margin reference. Reset: DESIGN CHOICE, log 4. -/
  tight : BitVec 72 := 0
deriving DecidableEq, Repr

/-- R519, R520: the shadow of a fuse word. -/
structure Shadow where
  /-- R519: word number. Reset: DESIGN CHOICE, log 4. -/
  word : Nat := 0
  /-- R519: corrected value. Reset: DESIGN CHOICE, log 4. -/
  value : BitVec 64 := 0
  /-- R548: PROGRAMMED. Reset: DESIGN CHOICE, log 4. -/
  programmed : Bool := false
  /-- R548: MARGINAL. Reset: DESIGN CHOICE, log 4. -/
  marginal : Bool := false
  /-- R548: CORRECTED. Reset: DESIGN CHOICE, log 4. -/
  corrected : Bool := false
  /-- R548: UNCORRECTABLE. Reset: DESIGN CHOICE, log 4. -/
  uncorr : Bool := false
deriving DecidableEq, Repr

/-- R535: the fuse operation under way. -/
inductive FuseOp where
  /-- PROGRAM -/
  | program (word : Nat) (value : BitVec 64)
  /-- SEAL -/
  | seal (region : Nat)
  /-- LOCK_WRITE -/
  | lockWrite (region : Nat)
  /-- LOCK_READ -/
  | lockRead (region : Nat)
  /-- REVOKE -/
  | revoke (slot : Nat)
  /-- LC_CMD -/
  | transition (target : BitVec 8) (words : List Nat)
  /-- cairn raise -/
  | cairn (target : Nat)
deriving DecidableEq, Repr

/-- R511-R548: the fuse controller, life cycle and debug registers. -/
structure Fuse where
  /-- R511: words not all zero, in rising order; the array survives every reset and is unprogrammed in this part's State.reset. Reset: DESIGN CHOICE, log 4. -/
  array : List FuseWord := []
  /-- R519: shadows of words that are not all zero, in rising order. -/
  shadows : List Shadow := []
  /-- R548: FUSE_STATUS SENSED, reset 0. -/
  sensed : Bool := false
  /-- R535: operation under way; BUSY of FUSE_STATUS, reset 0. -/
  op : Option FuseOp := none
  /-- R548: FUSE_STATUS VALID, reset 0. -/
  valid : Bool := false
  /-- R548: FUSE_STATUS RESULT, reset 0x00. -/
  result : BitVec 8 := 0
  /-- R548: FUSE_STATUS SKIPPED, reset 0. -/
  skipped : BitVec 7 := 0
  /-- R548: FUSE_CMD [30:0], reset 0. -/
  cmd : BitVec 31 := 0
  /-- R548: FUSE_DATA_LO and _HI, reset 0. -/
  data : BitVec 64 := 0
  /-- R548: FUSE_READ_SEL, reset 0. -/
  readSel : BitVec 9 := 0
  /-- R548: GRADE in force, from fuses; 0 until the shadows are valid. -/
  grade : BitVec 8 := 0
  /-- R548: LC_CMD TARGET, reset 0x00. -/
  lcTarget : BitVec 8 := 0
  /-- R548: LC_CMD RESULT, reset 0x00. -/
  lcResult : BitVec 8 := 0
  /-- R548: LC_CMD BUSY, reset 0. -/
  lcBusy : Bool := false
  /-- R548: LC_CMD VALID, reset 0. -/
  lcValid : Bool := false
  /-- R548: LC_STATE NO_IDENTITY. -/
  noIdentity : Bool := false
  /-- R548: LC_STATE FUSE_FATAL. -/
  fatal : Bool := false
  /-- R548: LC_DEBUG_BOOT, reset 0. -/
  dbgBoot : BitVec 32 := 0
  /-- R548: LC_DEBUG_SCOPE_LO and _HI, reset 0. -/
  dbgScope : BitVec 64 := 0
  /-- R548: ARM, reset 0. -/
  dbgArm : Bool := false
  /-- R548: IN_FORCE, reset 0. -/
  inForce : Bool := false
  /-- R548: TMX_CTL GROUP, reset 0. -/
  tmxGroup : BitVec 6 := 0
  /-- R548: TMX_CTL ENABLE, reset 0. -/
  tmxEnable : Bool := false
  /-- R657: tmx_data, reset 0. -/
  tmxData : BitVec 16 := 0
  /-- R417: the UDS shadow is held (wiped at handover). -/
  udsShadow : Bool := false
  /-- R548: PAGE_FAULT RECHECK, reset 0. -/
  recheckRecent : Bool := false
  /-- R548: FUSE_FOREIGN, saturating, reset 0. -/
  foreign : BitVec 32 := 0
  /-- R530: the fuse test path is enabled. -/
  testPath : Bool := false
  /-- R666: common header. -/
  hdr : PageHdr := {}
deriving DecidableEq, Repr

/-- R553: an entry of the release plan. -/
structure PlanEntry where
  /-- R553: LINE. Reset: DESIGN CHOICE, log 4. -/
  line : Nat := 0
  /-- R553: PHASE. Reset: DESIGN CHOICE, log 4. -/
  phase : Nat := 2
  /-- R553: FLAGS FIRMWARE. Reset: DESIGN CHOICE, log 4. -/
  firmware : Bool := false
  /-- R553: FLAGS BROADCAST. Reset: DESIGN CHOICE, log 4. -/
  broadcast : Bool := false
  /-- R553: FLAGS LINK. Reset: DESIGN CHOICE, log 4. -/
  link : Bool := false
  /-- R553: FLAGS MEMORY. Reset: DESIGN CHOICE, log 4. -/
  memory : Bool := false
  /-- R553: TARGET. Reset: DESIGN CHOICE, log 4. -/
  target : Nat := 255
  /-- R553: TIMEOUT, units of 10 ms. Reset: DESIGN CHOICE, log 4. -/
  timeout : Nat := 1
  /-- R553: MIN_SVN. Reset: DESIGN CHOICE, log 4. -/
  minSvn : Nat := 0
  /-- R553: FLASH_OFFSET. Reset: DESIGN CHOICE, log 4. -/
  flashOffset : Nat := 0
deriving DecidableEq, Repr

/-- R551-R555: a release line. -/
structure Line where
  /-- R551, R655: rel_run[n], reset 0. -/
  run : Bool := false
  /-- R551: rel_up[n] as sampled, reset 0. -/
  up : Bool := false
  /-- R549: acknowledged. Reset: DESIGN CHOICE, log 4. -/
  acked : Bool := false
  /-- R554: held again after a timeout or a failed package. Reset: DESIGN CHOICE, log 4. -/
  timedOut : Bool := false
  /-- R554: block timer at its release. The model's own field. -/
  releasedAt : Nat := 0
deriving DecidableEq, Repr

/-- R557: a link controller as seen by the block. -/
structure Link where
  /-- R581: BRUP_LINK_QUAL bit, reset 0. -/
  qualified : Bool := false
  /-- R654: bits tested since the last training. Reset: DESIGN CHOICE, log 4. -/
  bits : Nat := 0
  /-- R654: errors among them. Reset: DESIGN CHOICE, log 4. -/
  errors : Nat := 0
deriving DecidableEq, Repr

/-- R549-R581: bring-up, release lines, defects and fingerprints. -/
structure BringUp where
  /-- R581: PHASE, reset 0. -/
  phase : Nat := 0
  /-- R581: REDUCED, reset 0. -/
  reduced : Bool := false
  /-- R581: HALTED, reset 0. -/
  halted : Bool := false
  /-- R553: NODE_KEY_ID of the plan. Reset: DESIGN CHOICE, log 4. -/
  nodeKeyId : Bytes := []
  /-- R553: release plan of the running image. Reset: DESIGN CHOICE, log 4. -/
  plan : List PlanEntry := []
  /-- R551: release lines. -/
  lines : Vector Line 64 := Vector.replicate 64 {}
  /-- R557: links. -/
  links : Vector Link 64 := Vector.replicate 64 {}
  /-- R563: security core units that have yet to pass their self-test. The model's own field. -/
  unitsLeft : List Nat := []
  /-- R569: new-finding queue, oldest first. -/
  findings : List (BitVec 64) := []
  /-- R581: UNRECORDED, saturating, reset 0. -/
  unrecorded : BitVec 8 := 0
  /-- R581: BAD_WORDS, from fuses, saturating. -/
  badWords : BitVec 8 := 0
  /-- R581: FP_SAMPLE, reset 0: a requested sample that no PULSE has yet been sent for. -/
  fpSample : Bool := false
  /-- R581: BRUP_FP_SEQ, reset 0. -/
  fpSeq : BitVec 16 := 0
  /-- R581: MISMATCHED, reset 0. -/
  fpMismatched : Nat := 0
  /-- R581: FIRST, reset 0. -/
  fpFirst : Nat := 0
  /-- R581: NO_LATCH, reset 0. -/
  fpNoLatch : Bool := false
  /-- R581: VALID, reset 0. -/
  fpValid : Bool := false
  /-- R581: BRUP_FP_SNAP, reset 0. -/
  fpSnap : Vector (BitVec 32) 40 := Vector.replicate 40 0
  /-- R581: PAGE_FAULT FP_RECENT, reset 0. -/
  fpRecent : Bool := false
  /-- R555: package being streamed: line and DMA work. The model's own field. -/
  package : Option (Nat × Nat) := none
  /-- R666: common header. -/
  hdr : PageHdr := {}
deriving DecidableEq, Repr

/-- R599: a fault entry. -/
structure FaultEntry where
  /-- R599: SEQ. Reset: DESIGN CHOICE, log 4. -/
  seq : BitVec 32 := 0
  /-- R599: CLASS: 0x01 safety (true), 0x02 fault. Reset: DESIGN CHOICE, log 4. -/
  safety : Bool := false
  /-- R599: KIND. Reset: DESIGN CHOICE, log 4. -/
  kind : BitVec 4 := 0
  /-- R599: SITE. Reset: DESIGN CHOICE, log 4. -/
  site : Bool := false
  /-- R599: UNIT. Reset: DESIGN CHOICE, log 4. -/
  unit : BitVec 16 := 0
  /-- R599: CODE. Reset: DESIGN CHOICE, log 4. -/
  code : BitVec 16 := 0
  /-- R599: REPEAT. Reset: DESIGN CHOICE, log 4. -/
  rep : BitVec 16 := 0
  /-- R599: REACTION. Reset: DESIGN CHOICE, log 4. -/
  reaction : BitVec 8 := 0
  /-- R599: TIME. Reset: DESIGN CHOICE, log 4. -/
  time : BitVec 64 := 0
  /-- R599: DETAIL. Reset: DESIGN CHOICE, log 4. -/
  detail : BitVec 64 := 0
deriving DecidableEq, Repr

/-- R594-R597, R619: the fault queue. -/
structure FaultQ where
  /-- R594: entries in order of SEQ; true marks a reserved entry. -/
  entries : List (FaultEntry × Bool) := []
  /-- R595: pending latches, in order of SEQ. -/
  latches : List FaultEntry := []
  /-- R619: FQ_SEQ_NEXT, reset 0. -/
  seqNext : BitVec 32 := 0
  /-- R619: OVERFLOW, reset 0. -/
  overflow : Bool := false
  /-- R596: overflow counters by source (UNIT + KIND x 2^16 + SITE x 2^20), saturating, reset 0. -/
  ovf : List (Nat × BitVec 32) := []
  /-- R619: FQ_OVF_SEL, reset 0. -/
  ovfSel : BitVec 21 := 0
  /-- R666: common header. -/
  hdr : PageHdr := {}
deriving DecidableEq, Repr

/-- R608: the bodies of mirror frames on their way; STATUS is the command of that name, and a frame of a reserved type one that does not verify (log 7). -/
inductive FrameBody where
  /-- 0x01: wrap of K and N -/
  | hello (wrapped : Bytes)
  /-- 0x02 -/
  | heartbeat (timer quoteSeq : BitVec 64) (bootCount : BitVec 32) (headSeq : BitVec 16)
  /-- 0x03: one domain; none for a FREE one -/
  | store (rec : Option DomRec) (id : Nat)
  /-- 0x04 -/
  | model (rec : Option ModelRec) (id : Nat)
  /-- 0x05 -/
  | readers (model : Nat) (words : List (Nat × BitVec 32))
  /-- 0x06 -/
  | counters (bootCount : BitVec 32) (quoteSeq : BitVec 64)
  /-- 0x07 -/
  | image (offset : Nat) (part : Bytes)
  /-- 0x08 -/
  | hold (duration : Nat)
  /-- 0x82 -/
  | ack (seq : Nat)
deriving DecidableEq, Repr

/-- R607: a mirror frame. -/
structure Frame where
  /-- R607: SEQ. Reset: DESIGN CHOICE, log 4. -/
  seq : Nat := 0
  /-- R608: TYPE and BODY. Reset: DESIGN CHOICE, log 4. -/
  body : FrameBody := .ack 0
deriving DecidableEq, Repr

/-- R611: a frame of the active core awaiting acknowledgement. -/
structure Unacked where
  /-- R607: frame. The model's own field. -/
  frame : Frame := {}
  /-- R611: sent again after 20 us. The model's own field. -/
  resent : Bool := false
  /-- R611: block timer at which it was last sent. The model's own field. -/
  sentAt : Nat := 0
  /-- R610: broadcasts held back until the frame is acknowledged. The model's own field. -/
  effect : List Broadcast := []
  /-- R610: completions held back until then. The model's own field. -/
  replies : List (Waiter × BitVec 8) := []
  /-- R610: quote batch whose responses wait for it. The model's own field. -/
  batchSeq : Option (BitVec 64) := none
deriving DecidableEq, Repr

/-- R605-R618, R620: the active core's side of the mirror port. -/
structure Mirror where
  /-- R620: FO_STATE SITE, reset 0. -/
  site : Bool := false
  /-- R620: STANDBY_READY, reset 0. -/
  ready : Bool := false
  /-- R620: TAKEN_OVER, reset 0. -/
  takenOver : Bool := false
  /-- R620: HOLD, reset 0. -/
  hold : Bool := false
  /-- R620: SHADOW_STALE, reset 0. -/
  stale : Bool := false
  /-- R606: a mirror session is in being. -/
  session : Bool := false
  /-- R606: session key K. Reset: DESIGN CHOICE, log 4. -/
  key : Bytes := []
  /-- R607: SEQ of the next frame sent. -/
  txSeq : Nat := 1
  /-- R647, R611: frames without acknowledgement, oldest first; FO_MIRROR_WAIT counts them. -/
  unacked : List Unacked := []
  /-- R647: frames not yet sent because 16 are unacknowledged, oldest first. The model's own field. -/
  backlog : List Unacked := []
  /-- R647: frames on their way to the standby, oldest first. The model's own field. -/
  toStandby : List Frame := []
  /-- R647: frames on their way to the active core, oldest first. The model's own field. -/
  toActive : List Frame := []
  /-- R620: a STATUS has come in the present 1 ms period. The model's own field. -/
  statusSeen : Bool := false
  /-- R611: block timer of the last valid STATUS, or of the HELLO. The model's own field. -/
  lastStatus : Nat := 0
  /-- R614: block timer of the last HEARTBEAT, or of the HELLO. The model's own field. -/
  beatAt : Nat := 0
  /-- R620: FO_HB_MISSED, saturating, reset 0. -/
  missed : BitVec 32 := 0
  /-- R620: FO_MIRROR_ERR, saturating, reset 0. -/
  err : BitVec 32 := 0
  /-- R620: FO_RESYNCS, wrapping, reset 0. -/
  resyncs : BitVec 32 := 0
  /-- R620: FO_TAKEOVER_TIME, reset 0. -/
  takeoverTime : BitVec 32 := 0
  /-- R611: block timer at which the standby was counted as not ready. The model's own field. -/
  lostAt : Option Nat := none
  /-- R648: mir_fail, reset 0. -/
  mirFail : Bool := false
  /-- R648: mir_takeover, reset 0. -/
  mirTakeover : Bool := false
  /-- R620: PAGE_FAULT MIRROR_RECENT, reset 0. -/
  mirrorRecent : Bool := false
  /-- R620: PAGE_FAULT WDOG_RECENT, reset 0. -/
  wdogRecent : Bool := false
  /-- R666: common header. -/
  hdr : PageHdr := {}
deriving DecidableEq, Repr

/-- R468, R605-R616: the standby core on die 2. -/
structure Standby where
  /-- R593: its management cores run the mirror receiver. -/
  alive : Bool := false
  /-- R605: it has passed its start-time self-test. -/
  selftest : Bool := false
  /-- R606: current nonce N. Reset: DESIGN CHOICE, log 4. -/
  nonce : Bytes := []
  /-- R606: session key K accepted. Reset: DESIGN CHOICE, log 4. -/
  key : Bytes := []
  /-- R606: it has accepted a HELLO. -/
  session : Bool := false
  /-- R607: SEQ of its next frame. -/
  txSeq : Nat := 1
  /-- R609: mirrored domain key store. -/
  doms : List DomRec := []
  /-- R609: mirrored model domain records. -/
  models : List ModelRec := []
  /-- R609: mirrored reader sets. -/
  readers : List (Nat × BitVec 32) := []
  /-- R609: mirrored BOOT_COUNT. -/
  bootCount : BitVec 32 := 0
  /-- R609: mirrored QUOTE_SEQ. -/
  quoteSeq : BitVec 64 := 0
  /-- R468, R609: mirrored image. -/
  image : Bytes := []
  /-- R605: it has received its whole image. -/
  imageDone : Bool := false
  /-- R605: its copy is complete with every frame acknowledged. -/
  copyDone : Bool := false
  /-- R612: ring shadow: stream table. -/
  shadowStreams : List (Nat × BitVec 32) := []
  /-- R612: ring shadow: reader-set words. -/
  shadowReaders : List (Nat × BitVec 32) := []
  /-- R612: ring shadow: rotation list. -/
  shadowRot : List (Nat × Bool) := []
  /-- R612: last head SEQ its attachment point observed. -/
  shadowSeq : BitVec 16 := 0
  /-- R612: the shadow has a gap. -/
  shadowStale : Bool := false
  /-- R614: block timer of the last valid HEARTBEAT. Reset: DESIGN CHOICE, log 4. -/
  lastBeat : Nat := 0
  /-- R613: end of a HOLD. -/
  holdUntil : Option Nat := none
  /-- R601: its own faults, not yet sent. -/
  faults : List FaultEntry := []
deriving DecidableEq, Repr

/-- R633: the work a DMA read or write serves. -/
inductive DmaWork where
  /-- a region list -/
  | regionList
  /-- a digest DMA feed -/
  | digest (ctx : Nat)
  /-- an image for IMAGE_UPDATE -/
  | image
  /-- a debug unlock token -/
  | token (w : Waiter)
  /-- loading a node package and writing its release token -/
  | package (line : Nat)
deriving DecidableEq, Repr

/-- R630-R633: the DMA initiator port. -/
structure Dma where
  /-- R631: works under way: number, kind, byte address, byte length. -/
  works : List (Nat × DmaWork × Nat × Nat) := []
  /-- R631: lines of each work issued so far. -/
  issued : List (Nat × Nat) := []
  /-- R630: lines read so far: work, line of the work, data. -/
  lines : List (Nat × Nat × BitVec 512) := []
  /-- R631: requests in flight: identifier, work, line of the work, write. -/
  flight : List (BitVec 6 × Nat × Nat × Bool) := []
  /-- R630: bytes still to be written by each writing work. -/
  wdata : List (Nat × Bytes) := []
  /-- R633: number of the next work. The model's own field. -/
  nextWork : Nat := 0
  /-- R631: request beats as last driven: dma_req_id, write, addr, data, be. -/
  beat : List (BitVec 6 × Bool × Nat × BitVec 512 × BitVec 64) := []
deriving DecidableEq, Repr

/-- R448, R653: a LINK_KEY being answered. -/
structure LkMsg where
  /-- R448: session answered. The model's own field. -/
  waiter : Waiter := {}
  /-- R652: LINK. Reset: DESIGN CHOICE, log 4. -/
  link : Nat := 0
  /-- R652: KSLOT. Reset: DESIGN CHOICE, log 4. -/
  kslot : Nat := 0
  /-- R653: directions still to be pushed and acknowledged, the pushed one first. Reset: DESIGN CHOICE, log 4. -/
  dirs : List Nat := []
  /-- R450: link seed. Reset: DESIGN CHOICE, log 4. -/
  seed : Bytes := []
  /-- R448: EPOCH. Reset: DESIGN CHOICE, log 4. -/
  epoch : BitVec 32 := 0
deriving DecidableEq, Repr

/-- R621-R665: pins, ports and identity page counters. -/
structure Ports where
  /-- R661: rst_cold_n reads 0: cold reset is asserted. -/
  rstCold : Bool := true
  /-- R662: the always-on logic has left reset. -/
  aonUp : Bool := false
  /-- R43: root-derived clocks run (management, register, slow). -/
  pairDone : Bool := false
  /-- R665: pwr_core_good of a die fell; no request is served until cold reset. -/
  broken : Bool := false
  /-- R653: LINK_KEY messages waiting for their pushes, the one being pushed first. -/
  lk : List LkMsg := []
  /-- R653: block timer at which the push began. The model's own field. -/
  lkAt : Nat := 0
  /-- R652: words of the push being answered, wiped when it ends. -/
  lkWords : List (BitVec 32) := []
  /-- R604: evt_line[7]: an access ended with an error in the last 10 ms, reset 0. -/
  ctlErrRecent : Bool := false
  /-- R628: ctl_rsp_rdata as last driven, reset 0. -/
  ctlRdata : BitVec 32 := 0
  /-- R626: ctl_rsp_err as last driven, reset 0. -/
  ctlErr : Bool := false
  /-- R687: ID_PX_DROPPED, saturating, reset 0. -/
  pxDropped : BitVec 32 := 0
  /-- R687: ID_PX_LAST ADDRESS, reset 0. -/
  pxLastAddr : BitVec 24 := 0
  /-- R687: ID_PX_LAST CLASS, reset 0b00. -/
  pxLastClass : BitVec 2 := 0
  /-- R687: ID_DEVID_PUB, reset 0. -/
  devidPub : Bytes := []
  /-- R687: ID_DEVID_STATE VALID, reset 0. -/
  devidValid : Bool := false
  /-- R666: common header of the identity page. -/
  idHdr : PageHdr := {}
  /-- R672: latched HI words: access path, address of the LO register, value. -/
  latches : List (Nat × BitVec 24 × BitVec 32) := []
  /-- R650: xspi_rst_n, reset 0. -/
  xspiRst : Bool := false
  /-- R470, R650: the flash is in 8D-8D-8D mode, with xspi_sck at clk_xspi by 2; else in 1S-1S-1S mode, by 8. Reset: DESIGN CHOICE, log 4. -/
  flashOctal : Bool := false
  /-- R649: xspi_sel, reset 0. -/
  xspiSel : Bool := false
deriving DecidableEq, Repr

/-- the whole block, and the queue of commands that wait (its row's cut). -/
structure State where
  /-- commands waiting, first in, first out. The model's own field. -/
  pending : List Instr := []
  /-- R689: block timer, microseconds; reads zero at the start of cycle 1 of R662. -/
  timer : Nat := 0
  /-- counter that the free values of Config are applied to. The model's own field. -/
  freeCtr : Nat := 0
  /-- R5, R25: guards by global number. -/
  guards : Vector Guard 40 := ⟨⟨(List.range 40).map Guard.reset⟩, by simp⟩
  /-- R5: die sections. -/
  dies : Vector Die 4 := Vector.replicate 4 {}
  /-- R28: key-ring head. -/
  head : Head := {}
  /-- R115: key service and domain key store. -/
  ks : KeySvc := {}
  /-- R273: key vault. -/
  vault : Vault := {}
  /-- R300: tamper input. -/
  tamper : Tamper := {}
  /-- R311: public-key engine. -/
  pk : Pk := {}
  /-- R368: digest engine. -/
  dig : Dig := {}
  /-- R399: entropy unit. -/
  ent : Ent := {}
  /-- R212: ingest unit. -/
  ingest : Ingest := {}
  /-- R240: mower. -/
  mower : Mower := {}
  /-- R412: identity, sessions, quotes. -/
  att : Attest := {}
  /-- R683: tenant mailbox. -/
  tenantBox : Mbx := {}
  /-- R683: operator mailbox. -/
  operBox : Mbx := {}
  /-- R465: management cores and boot. -/
  boot : Boot := {}
  /-- R469: boot flash beside the block; an unlisted byte reads 0xFF, erased. Reset: DESIGN CHOICE, log 4. -/
  flash : List Host.Cell := []
  /-- R511: fuses and life cycle. -/
  fuse : Fuse := {}
  /-- R549: bring-up. -/
  brup : BringUp := {}
  /-- R594: fault queue. -/
  fq : FaultQ := {}
  /-- R605: mirror port and failover page. -/
  mir : Mirror := {}
  /-- R605: standby core. -/
  sby : Standby := {}
  /-- R630: DMA initiator port. -/
  dma : Dma := {}
  /-- R621: pins, ports and identity page. -/
  ports : Ports := {}
  /-- R98: last 10 ms window in which a TAG_FAIL of each domain was queued. The model's own field. -/
  tagWindow : List (Nat × Nat) := []
deriving DecidableEq, Repr

/-- R661: the block with cold reset asserted; every field has the value its declaration gives. -/
def State.reset : State := {}

/-- The reasons a step can stop with a fault. -/
inductive Fault where
  /-- Raised by no meaning of this model: kept so that the host's outcome type has an inhabited fault. Safe. -/
  | unreachable
deriving DecidableEq, Repr

/-- The reasons a command can be refused. -/
inductive Refusal where
  /-- The command has no meaning yet, rejected by its mnemonic in `exec`. Safe: nothing can be proved of its effect. -/
  | notModelled (mnemonic : String)
deriving DecidableEq, Repr

end Sys2Proof.Machine
end

