-- ==== Sys2Proof/Machine/Ops.lean ====
section
/-!
DEFINITION. Named operations that the meanings share: updates of the units, free values, the fault queue, register access
and privilege, messages of the key ring, answers and fencing of a guard.
-/

namespace Sys2Proof.Machine
open Sys2Proof

/-- The three outcomes of a command. -/
abbrev Out := Host.Outcome State Fault Refusal

/-- A command that completes. -/
def done (s : State) : Out := .next s

/-- The state with timer changed by `f`. -/
def State.modTimer (f : Nat → Nat) (s : State) : State := { s with timer := f s.timer }

/-- The state with freeCtr changed by `f`. -/
def State.modFreeCtr (f : Nat → Nat) (s : State) : State := { s with freeCtr := f s.freeCtr }

/-- The state with head changed by `f`. -/
def State.modHead (f : Head → Head) (s : State) : State := { s with head := f s.head }

/-- The state with ks changed by `f`. -/
def State.modKs (f : KeySvc → KeySvc) (s : State) : State := { s with ks := f s.ks }

/-- The state with vault changed by `f`. -/
def State.modVault (f : Vault → Vault) (s : State) : State := { s with vault := f s.vault }

/-- The state with tamper changed by `f`. -/
def State.modTamper (f : Tamper → Tamper) (s : State) : State := { s with tamper := f s.tamper }

/-- The state with pk changed by `f`. -/
def State.modPk (f : Pk → Pk) (s : State) : State := { s with pk := f s.pk }

/-- The state with dig changed by `f`. -/
def State.modDig (f : Dig → Dig) (s : State) : State := { s with dig := f s.dig }

/-- The state with ent changed by `f`. -/
def State.modEnt (f : Ent → Ent) (s : State) : State := { s with ent := f s.ent }

/-- The state with ingest changed by `f`. -/
def State.modIngest (f : Ingest → Ingest) (s : State) : State := { s with ingest := f s.ingest }

/-- The state with mower changed by `f`. -/
def State.modMower (f : Mower → Mower) (s : State) : State := { s with mower := f s.mower }

/-- The state with att changed by `f`. -/
def State.modAtt (f : Attest → Attest) (s : State) : State := { s with att := f s.att }

/-- The state with tenantBox changed by `f`. -/
def State.modTenantBox (f : Mbx → Mbx) (s : State) : State := { s with tenantBox := f s.tenantBox }

/-- The state with operBox changed by `f`. -/
def State.modOperBox (f : Mbx → Mbx) (s : State) : State := { s with operBox := f s.operBox }

/-- The state with boot changed by `f`. -/
def State.modBoot (f : Boot → Boot) (s : State) : State := { s with boot := f s.boot }

/-- The state with flash changed by `f`. -/
def State.modFlash (f : List Host.Cell → List Host.Cell) (s : State) : State := { s with flash := f s.flash }

/-- The state with fuse changed by `f`. -/
def State.modFuse (f : Fuse → Fuse) (s : State) : State := { s with fuse := f s.fuse }

/-- The state with brup changed by `f`. -/
def State.modBrup (f : BringUp → BringUp) (s : State) : State := { s with brup := f s.brup }

/-- The state with fq changed by `f`. -/
def State.modFq (f : FaultQ → FaultQ) (s : State) : State := { s with fq := f s.fq }

/-- The state with mir changed by `f`. -/
def State.modMir (f : Mirror → Mirror) (s : State) : State := { s with mir := f s.mir }

/-- The state with sby changed by `f`. -/
def State.modSby (f : Standby → Standby) (s : State) : State := { s with sby := f s.sby }

/-- The state with dma changed by `f`. -/
def State.modDma (f : Dma → Dma) (s : State) : State := { s with dma := f s.dma }

/-- The state with ports changed by `f`. -/
def State.modPorts (f : Ports → Ports) (s : State) : State := { s with ports := f s.ports }

/-- The state with tagWindow changed by `f`. -/
def State.modTagWindow (f : List (Nat × Nat) → List (Nat × Nat)) (s : State) : State := { s with tagWindow := f s.tagWindow }

/-- Guard `g`. -/
def State.guard (s : State) (g : Fin 40) : Guard := s.guards.get g

/-- The guard with a given number; the reset guard where there is none. -/
def State.guardN (s : State) (g : Nat) : Guard := if h : g < 40 then s.guards.get ⟨g, h⟩ else Guard.reset 0

/-- The state with one guard changed by `f`. -/
def State.modGuard (g : Nat) (f : Guard → Guard) (s : State) : State := { s with guards := vmod s.guards g f }

/-- The state with every guard changed by `f`, which is given its number. -/
def State.modGuards (f : Nat → Guard → Guard) (s : State) : State := { s with guards := vmapIdx s.guards f }

/-- The die section with a given number; the reset section where there is none. -/
def State.dieN (s : State) (d : Nat) : Die := if h : d < 4 then s.dies.get ⟨d, h⟩ else {}

/-- The state with one die section changed by `f`. -/
def State.modDie (d : Nat) (f : Die → Die) (s : State) : State := { s with dies := vmod s.dies d f }

/-- The state with every die section changed by `f`, which is given its number. -/
def State.modDies (f : Nat → Die → Die) (s : State) : State := { s with dies := vmapIdx s.dies f }

/-- `k` applied while cold reset is not asserted; otherwise the command is an input the die ignores (R622). -/
def whenUp (s : State) (k : State → State) : State := if s.ports.rstCold then s else k s

/-- `k` applied where the condition holds; otherwise the event has nothing to act on and changes nothing (log 3). -/
def onlyIf (c : Bool) (k : State → State) (s : State) : State := if c then k s else s

/-- `f` applied to the state for each element in turn. -/
def forEach {α : Type} (l : List α) (f : α → State → State) (s : State) : State := l.foldl (fun t a => f a t) s

/-! ### Free values (log 8) -/

/-- The next free number. -/
def State.free (s : State) : Nat := Config.freeNat s.freeCtr

/-- `n` free bytes. -/
def State.freeBytes (s : State) (n : Nat) : Bytes := (List.range n).map (Config.freeByte s.freeCtr)

/-- The state after a free value has been used. -/
def State.used (s : State) : State := s.modFreeCtr (· + 1)

/-! ### Time (log 1) -/

/-- The state at block timer `t` or later. -/
def reachTime (t : Nat) (s : State) : State := s.modTimer (Nat.max t)

/-! ### The fault queue (R594 to R600) -/

/-- R598: the source of a fault as FQ_OVF_SEL writes it. -/
def FaultEntry.source (f : FaultEntry) : Nat := f.unit.toNat + f.kind.toNat * 2 ^ 16 + bitNat 20 f.site

/-- R594: entries in the general area. -/
def FaultQ.general (q : FaultQ) : Nat := (q.entries.filter (fun e => !e.2)).length

/-- R594: entries in the reserved area. -/
def FaultQ.reserved (q : FaultQ) : Nat := (q.entries.filter (fun e => e.2)).length

/-- R595: a safety-class fault held in its source's latch, raising REPEAT where the latch is occupied. -/
def FaultQ.latch (f : FaultEntry) (q : FaultQ) : FaultQ :=
  if q.latches.any (fun g => g.source == f.source) then
    { q with latches := mapIf (fun g => g.source == f.source) (fun g => { g with rep := satInc g.rep }) q.latches }
  else { q with latches := q.latches ++ [f] }

/-- R595, R596: an entry placed in the area its class may take, held in a latch, or counted as overflow. -/
def FaultQ.place (f : FaultEntry) (q : FaultQ) : FaultQ :=
  if q.general < 960 then { q with entries := q.entries ++ [(f, false)] }
  else if f.safety then
    if q.reserved < 64 then { q with entries := q.entries ++ [(f, true)] } else q.latch f
  else { q with overflow := true, ovf := alPut 0 q.ovf f.source (satInc (alGet 0 q.ovf f.source)) }

/-- R597: a fault that arises takes the next SEQ, then is placed. -/
def FaultQ.push (f : FaultEntry) (q : FaultQ) : FaultQ :=
  ({ q with seqNext := q.seqNext + 1 } : FaultQ).place { f with seq := q.seqNext }

/-- R599: a fault of the active security core's block, with the time of its detection. In tamper-cleared the queue gains none (R307). -/
def raise (safety : Bool) (kind unit code reaction detail : Nat) (s : State) : State :=
  if s.tamper.cleared then s
  else s.modFq (FaultQ.push {
    safety := safety, kind := BitVec.ofNat 4 kind, site := s.mir.site, unit := BitVec.ofNat 16 unit, code := BitVec.ofNat 16 code,
    reaction := BitVec.ofNat 8 reaction, time := BitVec.ofNat 64 s.timer, detail := BitVec.ofNat 64 detail })

/-- R27: the unit address of a guard. -/
def unitGuard (g : Nat) : Nat := (g / 10) * 2 ^ 13 + (g % 10) * 2 ^ 9

/-- R27: the unit address of a bank. -/
def unitBank (g bank : Nat) : Nat := unitGuard g + bank * 2 ^ 6 + 1

/-- R27: the unit address of a lane. -/
def unitLane (g bank lane : Nat) : Nat := unitGuard g + bank * 2 ^ 6 + lane * 2 ^ 2 + 2

/-- R26: whether a guard is a stack guard. -/
def isStack (g : Nat) : Bool := g % 10 < 6

/-! ### Register access (R625 to R629, R671 to R674) -/

/-- The die whose end serves an address of the third kind: that of the active security core (R624, R625). -/
def State.activeDie (s : State) : Nat := if s.mir.site then 2 else 0

/-- R625: the die whose end serves an address. -/
def servedBy (s : State) (addr : Nat) : Option Nat :=
  if 0x400000 ≤ addr ∧ addr < 0x480000 then (if (addr - 0x400000) / 0x10000 < 4 then some ((addr - 0x400000) / 0x10000) else none)
  else if 0x800000 ≤ addr ∧ addr < 0xD00000 then
    (if (addr - 0x800000) / 0x10000 < 40 then some ((addr - 0x800000) / 0x10000 / 10) else none)
  else some s.activeDie

/-- R673: whether the class of an access is privileged. -/
def privileged : Path → Bool
  | .core _ => true
  | .port _ cls => cls == 1

/-- R627: whether an access comes from the management network's bridge. -/
def nodeManagement : Path → Bool
  | .core _ => false
  | .port _ cls => cls == 2

/-- R592: a management core runs while its mode says so. -/
def CoreMode.runs : CoreMode → Bool
  | .rom => true
  | .running => true
  | _ => false

/-- R626, R628: whether an access over this path reaches a target: the end serves the address, or the core runs. -/
def reaches (s : State) (p : Path) (addr : Nat) : Bool :=
  match p with
  | .core c => (s.boot.cores.get c).runs
  | .port d _ => addr % 4 == 0 && servedBy s addr == some d.toNat && addr < 2 ^ 24

/-- R626: an access that no target serves ends with an error at a control port end and has no effect. -/
def accessError (p : Path) (s : State) : State :=
  match p with
  | .core _ => s
  | .port _ _ => s.modPorts (fun q => { q with ctlErr := true, ctlRdata := 0, ctlErrRecent := true })

/-- R628: the normal response of an access at a control port end. -/
def accessOk (p : Path) (rdata : BitVec 32) (s : State) : State :=
  match p with
  | .core _ => s
  | .port _ _ => s.modPorts (fun q => { q with ctlErr := false, ctlRdata := rdata })

/-- R673: a dropped write to a privileged register, counted and recorded on the identity page. -/
def pxDrop (p : Path) (addr : Nat) (s : State) : State :=
  match p with
  | .core _ => s
  | .port _ cls => s.modPorts (fun q => { q with pxDropped := satInc q.pxDropped, pxLastAddr := BitVec.ofNat 24 addr,
                                                 pxLastClass := cls })

/-- R307: while the part is tamper-cleared, only the identity page and what R307 names answer. -/
def State.cleared (s : State) : Bool := s.tamper.cleared

/-- R679: whether the page at an address is clocked: its power domain is good, and a lane-clock page's lane clock runs. -/
def clocked (s : State) (addr : Nat) : Bool :=
  match servedBy s addr with
  | none => true
  | some d =>
    if 0x800000 ≤ addr then (s.dieN d).guardGood && (s.dieN d).laneRun && !s.ports.broken
    else if 0x400000 ≤ addr then (addr % 0x10000 / 0x1000 == 3) || (s.dieN d).coreGood
    else (s.dieN d).coreGood && s.ports.pairDone &&
      (!(0x30000 ≤ addr && addr < 0x50000 || 0x60000 ≤ addr && addr < 0x62000) || (s.dieN d).laneRun)

/-- R671, R673: a write over path `p` to the register at `addr`: refused without a target, dropped without privilege, and
otherwise applied by `k`. A write to an unclocked target has no effect here; its error is the CTL_TIMEOUT command. -/
def writeAt (px : Bool) (p : Path) (addr : Nat) (k : State → State) (s : State) : State :=
  if s.ports.rstCold then s
  else if !reaches s p addr then accessError p s
  else if !clocked s addr then s
  else if s.cleared then accessOk p 0 s
  else if px && !privileged p then accessOk p 0 (pxDrop p addr s)
  else accessOk p 0 (k s)

/-- R674: a write to a privileged register of a page with an owner rule: the class check first, then the owner rule, whose refusals
`count` counts; a write that both refuse is counted by both. -/
def writeOwned (p : Path) (addr : Nat) (own : Bool) (count k : State → State) (s : State) : State :=
  let c (t : State) : State := if own then t else count t
  if s.ports.rstCold then s
  else if !reaches s p addr then accessError p s
  else if !clocked s addr then s
  else if s.cleared then accessOk p 0 s
  else if !privileged p then accessOk p 0 (pxDrop p addr (c s))
  else accessOk p 0 (if own then k s else count s)

/-- R674: a write to a register of a page with an owner rule that is not itself privileged: `count` counts a write the owner rule refuses. -/
def writeGated (p : Path) (addr : Nat) (own : Bool) (count k : State → State) (s : State) : State :=
  if s.ports.rstCold then s
  else if !reaches s p addr then accessError p s
  else if !clocked s addr then s
  else if s.cleared then accessOk p 0 s
  else accessOk p 0 (if own then k s else count s)

/-- The address of a register of guard `g`'s group (R110). -/
def guardAddr (g : Fin 40) (off : Nat) : Nat := 0x800000 + g.toNat * 0x10000 + off

/-- The address of a register of die section `d`'s group (R193). -/
def dieAddr (d : Nat) (off : Nat) : Nat := 0x400000 + d * 0x10000 + off

/-! ### The key ring (R178 to R186, R267) -/

/-- R179: the unit address of a die's stop. -/
def stopUnit (d : Nat) : Nat := 0x80 + d

/-- R28, R34: the stop that the head's messages reach first: that of the die the head is attached to. For a head on die 2 the order
2, 3, 0, 1 is DEDUCED (log 61). -/
def firstStop (s : State) : Nat := if s.mir.site then 2 else 0

/-- R28: the stop after a die's on the ring; none where the ring comes back to the head. -/
def nextStop (s : State) (d : Nat) : Option Nat := if (d + 1) % 4 = firstStop s then none else some ((d + 1) % 4)

/-- R28: a message put on the ring on its way to a die's stop. -/
def ringTo (d : Nat) (m : RingMsg) (s : State) : State := s.modDie d (fun x => { x with inbox := x.inbox ++ [m] })

/-- R28, R181: a message leaves a die's stop: it goes on to the next stop, or reaches the head, where the head's own messages have
returned. -/
def ringOn (d : Nat) (m : RingMsg) (s : State) : State :=
  match nextStop s d with
  | some n => ringTo n m s
  | none => s.modHead (fun h => if m.src = 0xFE then { h with returning := h.returning ++ [m] } else { h with inQ := h.inQ ++ [m] })

/-- R28, R180, R184: the head sends a message: it enters the replay buffer and sets out for the first stop. -/
def headSend (dest : Nat) (body : RingBody) (s : State) : State :=
  let m : RingMsg := { dest := dest, src := 0xFE, seq := s.head.seq, body := body }
  ringTo (firstStop s) m (s.modHead (fun h => { h with seq := h.seq + 1, replay := (m :: h.replay).take 64 }))

/-- R179: the head sends a message to every stop and every guard. -/
def headAll (body : RingBody) (s : State) : State := headSend 0xFF body s

/-- R267: a stop queues a message of its own for the head. A message takes its SEQ as its stop inserts it (log 61). -/
def stopSend (d : Nat) (body : RingBody) (s : State) : State :=
  s.modDie d (fun x => { x with sendQ := x.sendQ ++ [{ dest := 0xFE, src := stopUnit d, body := body }] })

/-- R267: a guard's message joins its stop's second send queue. -/
def guardSend (g : Nat) (body : RingBody) (s : State) : State :=
  s.modDie (g / 10) (fun d => { d with sendQ := d.sendQ ++ [{ dest := 0xFE, src := g, body := body }] })

/-- R137, R267: a guard's KEY_REQ joins its stop's queue, and is dropped while one of the same guard and identity waits. -/
def guardKeyReq (g domain : Nat) (want genbit : Bool) (s : State) : State :=
  let b : RingBody := .keyReq domain want genbit
  if (s.dieN (g / 10)).keyReqQ.any (fun m => m.src == g && m.body == b) then s
  else s.modDie (g / 10) (fun d => { d with keyReqQ := d.keyReqQ ++ [{ dest := 0xFE, src := g, body := b }] })

/-- R157, R692: a guard's acknowledgement of an operation. -/
def guardAck (g : Nat) (opId : BitVec 32) (duplicate : Bool) (s : State) : State := guardSend g (.ack opId g duplicate) s

/-! ### Keys and the line transform (R54 to R64, R125) -/

/-- R125: BIND of an entry's first 120 bytes: CRC-32C, all ones in place of zero. -/
def bindOf (bs : Bytes) : BitVec 32 := if crc32c bs = 0 then 0xFFFFFFFF#32 else crc32c bs

/-- R63: the sidecar encoding of a mode. -/
def DomMode.code : DomMode → Nat
  | .seal => 1
  | .veil => 2
  | .open => 3

/-- R124: FLAGS of an entry. -/
def Entry.flags (e : Entry) : Nat := e.mode.code + bitNat 3 e.scratch

/-- R124: bytes 0 to 119 of an entry, with domain `d` in place of its own. -/
def Entry.bound (e : Entry) (d : Nat) : Bytes :=
  padTo 32 e.k1 ++ padTo 32 e.k2 ++ padTo 32 e.k3 ++ padTo 16 e.h ++ leBytes 2 d ++ leBytes 2 e.flags ++ vecBytes 4 e.gen

/-- R124: the 128 bytes of an entry. -/
def Entry.bytes (e : Entry) : Bytes := e.bound e.domain ++ vecBytes 4 e.bind ++ zeros 4

/-- R125: an entry with the BIND of its contents. -/
def Entry.seal (e : Entry) : Entry := { e with bind := bindOf (e.bound e.domain) }

/-- R126: whether an entry's BIND is right for a request that names domain `d`. -/
def Entry.bindOk (e : Entry) (d : Nat) : Bool := bindOf (e.bound d) == e.bind

/-- R61: the generation bit. -/
def Entry.genBit (e : Entry) : Bool := e.gen.getLsbD 0

/-! ### A guard's answers (R67, R73 to R76, R111) -/

/-- R67, R75: whether a response carries poison: every read, and every reserved operation, whose status is not OK. -/
def poisonOf (read : Bool) (status : Nat) : Bool := read && status != 0

/-- A ready response of a guard; its status is counted (R111). -/
def Guard.answer (slice : Nat) (txn : BitVec 12) (uid : Nat) (read : Bool) (status : Nat) (data : BitVec 512) (side : BitVec 64)
    (g : Guard) : Guard :=
  { g with
    rsps := g.rsps ++ [{ slice := slice, txn := txn, read := read, status := BitVec.ofNat 4 status, poison := poisonOf read status,
                         data := data, side := side, uid := uid }],
    page := { g.page with errCount := if 2 ≤ status ∧ status ≤ 10
                            then g.page.errCount.set (status - 2) (satInc (g.page.errCount.getD (status - 2) 0))
                            else g.page.errCount } }

/-- R64: a sidecar with only the node's own bits. -/
def nodeBits (side : BitVec 64) : BitVec 64 := side &&& 0xFFFFFF0000000000#64

/-- The request with a given order of acceptance leaves the guard's list of unanswered requests. -/
def Guard.drop (uid : Nat) (g : Guard) : Guard := { g with reqs := g.reqs.filter (fun r => r.uid != uid) }

/-- Whether a request reads for the node or for the mower. -/
def Req.isRead (r : Req) : Bool := r.op == .read

/-- R67: a request completed with a response; a mower read that fails is noted for its job (R244). GUARD_ERR_COUNT counts the codes on
gu_rsp_status alone, so that a mower or ingest access that ends with another status than OK raises no count (DESIGN CHOICE, log 50). -/
def respond (g : Nat) (r : Req) (status : Nat) (data : BitVec 512) (side : BitVec 64) (s : State) : State :=
  match r.src with
  | .tenant =>
    s.modGuard g (fun x => (x.drop r.uid).answer r.slice r.txn r.uid r.isRead status data (if r.isRead then nodeBits side else 0))
  | .mower job line =>
    let s := s.modGuard g (fun x => x.drop r.uid)
    if status = 0 then s.modMower (fun m => { m with run := mapIf (fun j => j.seq == job) (fun j => { j with got := alSet j.got line data }) m.run })
    else s.modMower (fun m => { m with badReads := m.badReads ++ [job] })

/-- R64: the sidecar that a downstream response has brought for a request, if one has. -/
def Req.gotSide (r : Req) : BitVec 64 :=
  match r.stage with
  | .retHeld _ side => side
  | _ => 0

/-- R64, R75, R76: a request that failed: zeros for data, and memory's own bits of the sidecar where its read had come back. -/
def fail (g : Nat) (r : Req) (status : Nat) (s : State) : State := respond g r status 0 r.gotSide s

/-! ### Fencing (R107, R108, R167, R170) -/

/-- R186: the SWEEP_DONE of a descriptor. -/
def sweepDoneMsg (d : Desc) (aborted : Bool) : RingBody := .sweepDone d.sweepId d.visited d.failed aborted

/-- R107, R108: what a fence does to one accepted request. -/
def fenceReq (g : Nat) (r : Req) (s : State) : State :=
  match r.stage with
  | .writeOut tag => s.modGuard g (fun x => { x with reqs := mapIf (fun q => q.uid == r.uid) (fun q => { q with stage := .fencedOut tag }) x.reqs })
  | .fencedOut _ => s
  | .discardOut _ => s
  | .readOut tag =>
    let s := fail g r stFenced s
    s.modGuard g (fun x => { x with reqs := x.reqs ++ [{ r with stage := .discardOut tag }] })
  | _ => fail g r stFenced s

/-- R157, R158: the acknowledgement a fenced or reset guard owes is counted as given. -/
def countAcked (g : Nat) (s : State) : State :=
  s.modKs (fun k => { k with ops := k.ops.map (fun o => { o with missG := o.missG.filter (· != g) }) })

/-- R167: every descriptor of a guard ends as aborted with its own SWEEP_DONE. -/
def abortDescs (g : Nat) (s : State) : State :=
  let w := (s.guardN g).sweep
  (forEach (w.rekey ++ w.dom) (fun d => guardSend g (sweepDoneMsg d true)) s).modGuard g
    (fun x => { x with sweep := { x.sweep with rekey := [], dom := [] } })

/-- R94: the share in percent of the lane operations that source `i` of the sources REKEY, DSWEEP, INGEST and MOWER is allotted: its share in
force, as far as the sources before it leave any of the whole. -/
def DataPage.allot (p : DataPage) (i : Nat) : Nat :=
  let eff (k : Nat) : Nat := bitsOf p.shareEff (8 * k + 7) (8 * k)
  Nat.min (eff i) (100 - ((List.range i).map eff).sum)

/-- R47: the word of four shares lowered to a percentage of each. -/
def scaleShares (pct : Option Nat) (x : BitVec 32) : BitVec 32 :=
  match pct with
  | none => x
  | some p => BitVec.ofNat 32 (((List.range 4).map (fun i => bitsOf x (8 * i + 7) (8 * i) * p / 100 * 2 ^ (8 * i))).sum)

/-- R47, R111: GUARD_SHARE_EFF follows GUARD_LANE_SHARE, lowered while a power limit is in force. -/
def DataPage.shareNow (p : DataPage) : DataPage := { p with shareEff := scaleShares p.powerPct p.share }

/-- R107: a response that is ready and not yet taken becomes E_FENCED: its request is accepted and not yet answered. -/
def Rsp.fenced (r : Rsp) : Rsp := { r with status := BitVec.ofNat 4 stFenced, poison := poisonOf r.read stFenced, data := 0 }

/-- R107, R585: the responses that wait on the port are fenced; each that had another status is counted under E_FENCED too (log 17). -/
def Guard.fenceRsps (g : Guard) : Guard :=
  let n := (g.rsps.filter (fun r => r.status != BitVec.ofNat 4 stFenced)).length
  { g with rsps := g.rsps.map Rsp.fenced,
           page := { g.page with errCount := g.page.errCount.set 0 ((List.range n).foldl (fun c _ => satInc c) (g.page.errCount.getD 0 0)) } }

/-- R23, R31, R132, R157, R170: the key cache, its pins and fills, the miss tracker's slots and the sweep key are cleared; with its entries gone
each RETIRE that waited is acknowledged. -/
def clearKeys (g : Nat) (s : State) : State :=
  let ret := (s.guardN g).sweep.retires
  let s := s.modGuard g (fun x =>
    { x with cache := { x.cache with lines := [], pins := [], waitFills := [], pinBusy := false },
             miss := { x.miss with slots := [], heldHdr := none },
             sweep := { x.sweep with key := none, retires := [],
                                     ops := mapIf (fun o => ret.any (fun p => p.opId == o.1)) (fun o => (o.1, true)) x.sweep.ops } })
  forEach ret (fun p => guardAck g p.opId false) s

/-- R107: the header held in the header stage is completed with E_FENCED. -/
def fenceHeld (g : Nat) (s : State) : State :=
  match (s.guardN g).miss.heldHdr with
  | none => s
  | some h => s.modGuard g (fun x =>
      { x.answer h.slice h.txn 0 (h.op == 0) stFenced 0 0 with wdWait := if h.op = 0 then x.wdWait else x.wdWait ++ [(h.slice, 0)] })

/-- R107, R23: guard `g` is fenced. `safety` marks a safety reaction; `ends` tells whether its descriptors end (R167: all
fences but the one that opens a guard reset). A guard already fenced stays fenced (R591); one in reset has passed no test yet, so that a reset which
starts again from its first step stands where it stood. -/
def fenceGuard (safety ends : Bool) (g : Nat) (s : State) : State :=
  if (s.guardN g).fenced then s.modGuard g (fun x => { x with safetyFence := x.safetyFence || safety })
  else
    let s := s.modGuard g Guard.fenceRsps
    let s := forEach (s.guardN g).reqs (fenceReq g) s
    let s := fenceHeld g s
    let s := if ends then abortDescs g s else s
    let s := clearKeys g s
    countAcked g (s.modGuard g (fun x => { x with fenced := true, placeWait := false, safetyFence := safety, sweep := { x.sweep with sealNext := none } }))

/-- The guards of a die (R25). -/
def guardsOf (d : Nat) : List Nat := (List.range 10).map (fun i => 10 * d + i)

/-- Every guard of the block. -/
def allGuards : List Nat := List.range 40

/-- R585: a safety reaction fences guards. -/
def fenceAll (safety : Bool) (gs : List Nat) (s : State) : State := forEach gs (fenceGuard safety true) s

end Sys2Proof.Machine
end

