-- ==== Sys2Proof/Machine/Operands.lean ====
section
/-!
DEFINITION. The operands of commands and the fields that many rules read: fuse shadows and the life cycle, stream and
reader-set entries, fields of messages, region entries.
-/

namespace Sys2Proof.Machine
open Sys2Proof

/-! ### Fuse shadows and life cycle (R519, R520, R538) -/

/-- The shadow of a word; an unlisted word reads unprogrammed and zero. -/
def State.shadow (s : State) (w : Nat) : Shadow := (s.fuse.shadows.find? (fun x => x.word == w)).getD { word := w }

/-- R512, R520: whether a word's shadow reads programmed. -/
def State.burned (s : State) (w : Nat) : Bool := (s.shadow w).programmed

/-- R538, R307: the life-cycle code of R537. -/
def lifeCycle (s : State) : Nat :=
  if s.tamper.cleared then 0x05
  else if s.burned 34 then 0x04
  else if s.burned 33 then 0x03
  else if s.burned 32 then 0x02
  else 0x01

/-- R52, R53: open domains carry traffic only in blank and provision. -/
def openOk (s : State) : Bool := lifeCycle s == 1 || lifeCycle s == 2

/-! ### Stream entries and reader sets (R144, R148) -/

/-- R144: DOMAIN of a stream table entry. -/
def entryDomain (e : BitVec 32) : Nat := bitsOf e 12 0
/-- R144: READ. -/
def entryRead (e : BitVec 32) : Bool := bitAt e 13
/-- R144: WRITE. -/
def entryWrite (e : BitVec 32) : Bool := bitAt e 14
/-- R144: STATE: 0 unbound, 1 proposed, 2 confirmed, 3 draining. -/
def entryState (e : BitVec 32) : Nat := bitsOf e 16 15
/-- R144: the entry with the given fields. -/
def mkEntry (domain : Nat) (read write : Bool) (st : Nat) : BitVec 32 :=
  BitVec.ofNat 32 (domain + bitNat 13 read + bitNat 14 write + st * 2 ^ 15)

/-- The entry of a stream in a table that lists its nonzero entries. -/
def streamEntry (t : List (Nat × BitVec 32)) (st : Nat) : BitVec 32 := alGet 0 t st

/-- R148: whether tenant domain `t` is in the reader set of model domain `m`. -/
def readerBit (r : List (Nat × BitVec 32)) (m t : Nat) : Bool := bitAt (alGet 0 r (128 * (m - 4096) + t / 32)) (t % 32)

/-- R148: a bit of a reader set changed. -/
def readerPut (m t : Nat) (b : Bool) (r : List (Nat × BitVec 32)) : List (Nat × BitVec 32) :=
  let i := 128 * (m - 4096) + t / 32
  alPut 0 r i (setBit (alGet 0 r i) (t % 32) b)

/-- R186: READER_SET's range of bits set or cleared; clear-all is the removal of every bit. -/
def readerRange (m first last : Nat) (b : Bool) (r : List (Nat × BitVec 32)) : List (Nat × BitVec 32) :=
  (List.range (last + 1 - first)).foldl (fun x i => readerPut m (first + i) b x) r

/-- R148: the words of a model domain's reader set. -/
def readerWords (r : List (Nat × BitVec 32)) (m : Nat) : List (Nat × BitVec 32) :=
  r.filter (fun p => 128 * (m - 4096) ≤ p.1 && p.1 < 128 * (m - 4096) + 128)

/-- R186: READER_SET with OPER 0x02: a model domain's set emptied. -/
def readerClear (m : Nat) (r : List (Nat × BitVec 32)) : List (Nat × BitVec 32) :=
  r.filter (fun p => !(128 * (m - 4096) ≤ p.1 && p.1 < 128 * (m - 4096) + 128))

/-- R72 checks 3 to 5: the status that a request's stream and domain give, if a check fails. -/
def rightsCheck (streams readers : List (Nat × BitVec 32)) (op stream domain : Nat) : Option Nat :=
  let e := streamEntry streams stream
  if 4352 ≤ domain then some stDomain
  else if entryState e ≠ 2 then some stUnbound
  else
    let write := op ≠ 0
    if domain ≠ entryDomain e ∧ ¬ (4096 ≤ domain ∧ readerBit readers domain (entryDomain e) = true) then some stRights
    else if (write ∧ entryWrite e = false) ∨ (¬ write ∧ entryRead e = false) then some stRights
    else if write ∧ 4096 ≤ domain then some stRights
    else none

/-! ### Regions (R174, R175) -/

/-- R174: an entry of a region list. -/
def regionOf (bs : Bytes) : Region :=
  { first := fieldLe bs 0 6 % 2 ^ 42, guard := fieldLe bs 6 1, count := fieldLe bs 8 8 }

/-- R174: whether an entry's reserved fields are zero. -/
def regionReservedOk (bs : Bytes) : Bool := fieldLe bs 0 6 / 2 ^ 42 == 0 && fieldLe bs 7 1 == 0

/-- R175: whether an entry names a guard, a count and a range that exist. -/
def regionRangeOk (r : Region) : Bool := r.guard ≤ 39 && r.count != 0 && r.first + r.count ≤ 2 ^ 42

/-- R215, R247: the guard and line address of line `k` of a list's lines. -/
def lineOf : List Region → Nat → Option (Nat × Nat)
  | [], _ => none
  | r :: rs, k => if k < r.count then some (r.guard, r.first + k) else lineOf rs (k - r.count)

/-- The number of lines of a list. -/
def linesIn (rs : List Region) : Nat := (rs.map (fun r => r.count)).sum

end Sys2Proof.Machine
end

