-- ==== Sys2Proof/Machine/FuseOps.lean ====
section
/-!
DEFINITION. The fuse array as the controller reads it (R495, R511 to R530, R538): check bits, sensing, shadows, regions, seals, locks
and the fields that other units take.
-/

namespace Sys2Proof.Machine
open Sys2Proof

/-! ### Check bits (R511; log 40 for the arrangement of the code) -/

/-- The position of each data bit in a Hamming code: the numbers from 3 that are no power of two. -/
def hamPositions : List Nat := (List.range 72).filter (fun p => p != 0 && 2 ^ Nat.log2 p != p)

/-- Parity of the lowest `n` bits. -/
def parity {w : Nat} (n : Nat) (v : BitVec w) : Bool := popCount n v % 2 == 1

/-- R511: the check bits of a data word: seven Hamming bits, then the parity of data and Hamming bits. -/
def checkBits (d : BitVec 64) : BitVec 8 :=
  let h := hamPositions.zipIdx.foldl (fun (a : Nat) p => if d.getLsbD p.2 then a ^^^ p.1 else a) 0
  BitVec.ofNat 8 (h + bitNat 7 (parity 64 d != parity 7 (BitVec.ofNat 7 h)))

/-- R511: the 72 bits of a data word. -/
def encodeWord (d : BitVec 64) : BitVec 72 := checkBits d ++ d

/-- R511, R519: a word of 72 bits corrected: its data, whether a single error was corrected, and whether it is uncorrectable. -/
def decodeWord (x : BitVec 72) : BitVec 64 × Bool × Bool :=
  let d := x.extractLsb' 0 64
  let syn := bitsOf (checkBits d ^^^ x.extractLsb' 64 8) 6 0
  if !parity 72 x then (d, false, syn != 0)
  else if syn = 0 ∨ 2 ^ Nat.log2 syn = syn then (d, true, false)
  else match hamPositions.findIdx? (· == syn) with
    | some i => (setBit d i (!bitAt d i), true, false)
    | none => (d, false, true)

/-! ### Sensing (R512, R518 to R521) -/

/-- R495, R511: a cairn word, which has no check bits. -/
def isCairnWord (w : Nat) : Bool := w == 40 || w == 41

/-- A word of an array; an unlisted word is all zero. -/
def wordIn (a : List FuseWord) (w : Nat) : FuseWord := (a.find? (fun x => x.word == w)).getD { word := w }

/-- A word of the fuse array. -/
def State.fuseWord (s : State) (w : Nat) : FuseWord := wordIn s.fuse.array w

/-- R495, R512, R519: the shadow that sensing a word at both references gives. -/
def readWord (f : FuseWord) : Shadow :=
  let base : Shadow := { word := f.word, programmed := f.norm != 0 || f.tight != 0, marginal := f.norm != f.tight }
  if isCairnWord f.word then { base with value := (f.norm ||| f.tight).extractLsb' 0 64 }
  else
    let r := decodeWord f.norm
    { base with value := r.1, corrected := r.2.1, uncorr := r.2.2 }

/-- R518: the shadows of every word that does not read all zero at both references. -/
def senseAll (a : List FuseWord) : List Shadow := (a.map readWord).filter (·.programmed)

/-- The list with the shadow of a word set, words rising. -/
def shadowPut (x : Shadow) : List Shadow → List Shadow
  | [] => [x]
  | y :: ys => if x.word < y.word then x :: y :: ys else if x.word = y.word then x :: ys else y :: shadowPut x ys

/-- The array with a word set, words rising; a word all zero at both references is not listed. -/
def wordPut (x : FuseWord) (a : List FuseWord) : List FuseWord :=
  let rec put : List FuseWord → List FuseWord
    | [] => [x]
    | y :: ys => if x.word < y.word then x :: y :: ys else if x.word = y.word then x :: ys else y :: put ys
  if x.norm = 0 ∧ x.tight = 0 then a.filter (fun y => y.word != x.word) else put a

/-! ### Regions, seals and locks (R514, R524 to R528) -/

/-- R514: the first word of a region. -/
def regionFirst (r : Nat) : Nat := if 7 ≤ r then 376 + 16 * (r - 7) else [0, 48, 56, 64, 80, 112, 368].getD r 0

/-- R514: the number of words of a region. -/
def regionLen (r : Nat) : Nat := if r = 15 then 8 else if 7 ≤ r then 16 else [48, 8, 8, 16, 32, 256, 8].getD r 0

/-- R514: whether a region can be sealed and locked. -/
def sealable (r : Nat) : Bool := (1 ≤ r && r ≤ 4) || (6 ≤ r && r ≤ 14)

/-- R514: the seal word of a region. -/
def sealWord (r : Nat) : Nat := regionFirst r + regionLen r - 1

/-- The words of a region. -/
def regionWords (r : Nat) : List Nat := (List.range (regionLen r)).map (regionFirst r + ·)

/-- R514: the region of a word. -/
def regionOfWord (w : Nat) : Nat := ((List.range 16).find? (fun r => regionFirst r ≤ w && w < regionFirst r + regionLen r)).getD 15

/-- R523: the reading that classifies a region: of region 1 the array is sensed again, since its shadows are wiped at handover. -/
def State.sensed (s : State) (w : Nat) : Shadow := if regionOfWord w = 1 then readWord (s.fuseWord w) else s.shadow w

/-- R524: the seal of a region over what its words read. -/
def sealValue (s : State) (r : Nat) : BitVec 64 :=
  bytesVec 64 ((sha3_256 (ascii "KFL-FSEAL" ++ leBytes 1 r ++ leBytes 2 (regionFirst r) ++ leBytes 2 (regionLen r) ++
    ((regionWords r).dropLast.map (fun w => vecBytes 8 (s.sensed w).value)).flatten)).take 8)

/-- R527: the write lock of a region. -/
def writeLocked (s : State) (r : Nat) : Bool := sealable r && s.burned (2 * r)

/-- R527: the read lock of a region. -/
def readLocked (s : State) (r : Nat) : Bool := sealable r && s.burned (2 * r + 1)

/-- R525: whether the seal word of a region is programmed. -/
def sealPresent (s : State) (r : Nat) : Bool := sealable r && (s.sensed (sealWord r)).programmed

/-- R525: whether a region is sealed. -/
def regionSealed (s : State) (r : Nat) : Bool :=
  sealPresent s r && (s.sensed (sealWord r)).value == sealValue s r && (regionWords r).all (fun w => !(s.sensed w).uncorr)

/-- R525: whether a region is absent. -/
def regionAbsent (s : State) (r : Nat) : Bool :=
  sealable r && (if sealPresent s r then !regionSealed s r else writeLocked s r || readLocked s r)

/-- Whether a word's reading takes the restrictive reading of R520. -/
def Shadow.doubtful (x : Shadow) : Bool := x.marginal || x.uncorr

/-! ### Fields (R415, R491, R495, R516, R517, R520, R526) -/

/-- R513: a value of several words. -/
def fuseBytes (s : State) (first n : Nat) : Bytes := ((List.range n).map (fun i => vecBytes 8 (s.sensed (first + i)).value)).flatten

/-- R520, R526: GRADE: 18, 15 or 12; anything else, or a doubtful or absent reading, is 12. -/
def gradeOf (s : State) : Nat :=
  let x := s.shadow 57
  let g := bitsOf x.value 7 0
  if regionAbsent s 2 ∨ x.doubtful ∨ x.value.toNat ≠ g then 12 else if g = 18 ∨ g = 15 then g else 12

/-- R516, R526: DIE_ID. -/
def dieId (s : State) : BitVec 64 := if regionAbsent s 2 then 0 else (s.shadow 56).value

/-- R520, R526: DEBUG_PERMIT. -/
def debugPermit (s : State) : Bool :=
  let x := s.shadow 368
  !regionAbsent s 6 && !x.doubtful && bitAt x.value 0

/-- R516, R526: VENDOR_KEY_DIGEST; none while region 3 is absent. -/
def vendorDigest (s : State) : Option Bytes := if regionAbsent s 3 then none else some (fuseBytes s 64 6)

/-- R516, R526: DEBUG_KEY_DIGEST; none while region 3 is absent. -/
def debugDigest (s : State) : Option Bytes := if regionAbsent s 3 then none else some (fuseBytes s 70 6)

/-- R517, R526: whether an operator credential slot is valid. -/
def operatorValid (s : State) (k : Nat) : Bool :=
  !regionAbsent s 4 && (List.range 6).all (fun i => s.burned (80 + 6 * k + i)) && !s.burned (36 + k)

/-- R434, R517: the digests of the valid operator credential slots. -/
def operatorDigests (s : State) : List Bytes := ((List.range 4).filter (operatorValid s)).map (fun k => fuseBytes s (80 + 6 * k) 6)

/-- R495: a cairn bit as its shadow reads. -/
def cairnBit (s : State) (i : Nat) : Bool := bitAt (s.shadow (40 + i / 64)).value (i % 64)

/-- R495: the cairn value. -/
def cairn (s : State) : Nat := (((List.range 128).reverse.find? (cairnBit s)).map (· + 1)).getD 0

/-- R526: the unique device secret the ROM takes: that of a sealed region 1, else zeros. -/
def deviceSecret (s : State) : Bytes := if regionSealed s 1 then fuseBytes s 48 4 else zeros 32

/-- R540: whether a part is fatal: region 1, 2 or 3 absent in mission or decommissioned. -/
def fuseFatal (s : State) : Bool :=
  (s.burned 33 || s.burned 34) && (regionAbsent s 1 || regionAbsent s 2 || regionAbsent s 3)

/-! ### Programming (R527, R534, R536) -/

/-- R534: all ones, as lock, transition and revocation words are programmed. -/
def allOnes64 : BitVec 64 := BitVec.allOnes 64

/-- R516, R529, R534, R539: the word that a fuse operation is burning, with the 72 bits it burns; none for a cairn raise, which burns bits
one at a time. -/
def FuseOp.target (s : State) : FuseOp → Option (Nat × BitVec 72)
  | .program w v => some (w, encodeWord v)
  | .seal r => some (sealWord r, encodeWord (sealValue s r))
  | .lockWrite r => some (2 * r, encodeWord allOnes64)
  | .lockRead r => some (2 * r + 1, encodeWord allOnes64)
  | .revoke k => some (36 + k, encodeWord allOnes64)
  | .transition _ ws => ws.head?.map (fun w => (w, if w = 40 then 1#72 else encodeWord allOnes64))
  | .cairn _ => none

/-- Bits of a word burned at the two references, beside those burned before. -/
def burn (w : Nat) (norm tight : BitVec 72) (s : State) : State :=
  let x := s.fuseWord w
  s.modFuse (fun f => { f with array := wordPut { x with norm := x.norm ||| norm, tight := x.tight ||| tight } f.array })

/-- R534: a word is sensed at both references and its shadow updated. Of region 1 no value is loaded once the UDS shadow is wiped (R523). -/
def senseOne (w : Nat) (s : State) : State :=
  let x := readWord (s.fuseWord w)
  let x := if regionOfWord w = 1 ∧ !s.fuse.udsShadow then { x with value := 0 } else x
  s.modFuse (fun f => { f with shadows := if x.programmed then shadowPut x f.shadows else f.shadows.filter (fun y => y.word != w) })

/-- R500, R536: an operation cut short leaves its word with a part of its bits burned, the bits in ascending order; how many, and whether
the last of them is weak, is open (log 8). -/
def interruptFuse (s : State) : State :=
  match s.fuse.op with
  | none => s
  | some op =>
    let s := s.modFuse (fun f => { f with op := none })
    let part (w : Nat) (v : BitVec 72) (t : State) : State :=
      let m : BitVec 72 := BitVec.ofNat 72 (2 ^ (t.free % 73) - 1)
      let weak : BitVec 72 := if Config.freeBit t.freeCtr then m &&& ~~~ (m >>> 1) else 0
      (burn w (v &&& m) (v &&& m &&& ~~~ weak) t).used
    match op with
    | .cairn t =>
      let bits : BitVec 128 := BitVec.ofNat 128 (2 ^ t - 1)
      part 40 ((bits.extractLsb' 0 64).zeroExtend 72) (part 41 ((bits.extractLsb' 64 64).zeroExtend 72) s)
    | _ =>
      match op.target s with
      | none => s
      | some (w, v) => part w v s

/-- R417, R501: the UDS shadow is wiped. -/
def wipeUds (s : State) : State :=
  s.modFuse (fun f => { f with
    udsShadow := false,
    shadows := mapIf (fun x => regionOfWord x.word == 1) (fun x => { x with value := 0 }) f.shadows })

end Sys2Proof.Machine
end

