-- ==== Sys2Proof/Machine/Defects.lean ====
section
/-!
DEFINITION. The defect record and the findings of start-time tests (R27, R565 to R569).
-/

namespace Sys2Proof.Machine
open Sys2Proof

/-! ### The defect record (R565 to R568) -/

/-- A unit that a defect record names. -/
structure Defect where
  /-- CLASS -/
  cls : Nat := 0
  /-- SITE -/
  site : Bool := false
  /-- UNIT -/
  unit : Nat := 0
  /-- INDEX -/
  index : Nat := 0
deriving DecidableEq, Repr

/-- R27: whether a unit address of a given level names a guard, bank or lane that exists. -/
def unitExists (u : Nat) : Bool :=
  let g := u / 512 % 16
  let banks := if g < 6 then 8 else 1
  u / 8192 < 4 && g < 10 && (match u % 4 with
    | 0 => true
    | 1 => u / 64 % 8 < banks
    | 2 => u / 64 % 8 < banks && u / 4 % 16 < 9
    | _ => false)

/-- R567: the number of indices of each class. -/
def classSize (c : Nat) : Nat := [0, 1, 512, 4, 2, 32, 4, 8].getD c 0

/-- R27: a unit address with the fields its level ignores at zero. -/
def canonUnit (u : Nat) : Nat := if u % 4 = 0 then u / 512 * 512 else if u % 4 = 1 then u / 64 * 64 + 1 else u

/-- R567, R568: the unit a defect word names, if it names one. -/
def defectOf (x : Shadow) : Option Defect :=
  let v := x.value
  let u := bitsOf v 31 16
  let d : Defect := { cls := bitsOf v 11 8, site := bitAt v 12, unit := if bitsOf v 11 8 ≤ 2 then canonUnit u else u, index := bitsOf v 41 32 }
  if x.uncorr ∨ bitsOf v 7 0 ≠ 0xD5 ∨ bitsOf v 15 13 ≠ 0 ∨ bitsOf v 47 42 ≠ 0 ∨ classSize d.cls ≤ d.index then none
  else if d.cls ≤ 2 then
    (if d.site ∨ !unitExists d.unit ∨ (d.cls = 2 ∧ d.unit % 4 ≠ 0) then none else some d)
  else if d.unit ≠ 0 then none
  else some d

/-- The programmed words of region 5. -/
def defectWords (s : State) : List Shadow := s.fuse.shadows.filter (fun x => 112 ≤ x.word && x.word < 368 && x.programmed)

/-- R567: the units the record names. -/
def defects (s : State) : List Defect := (defectWords s).filterMap defectOf

/-- R566: whether the record marks a unit of the active security core. -/
def marked (s : State) (c i : Nat) : Bool := (defects s).any (fun d => d.cls == c && d.index == i && d.site == s.mir.site)

/-- R567: a finding without the boot count, which its reading adds. -/
def findingOf (d : Defect) : BitVec 64 :=
  BitVec.ofNat 64 (0xD5 + d.cls * 2 ^ 8 + bitNat 12 d.site + d.unit * 2 ^ 16 + d.index * 2 ^ 32)

/-- R567: a finding as it is to be recorded. -/
def findingWord (s : State) (f : BitVec 64) : BitVec 64 := f ||| BitVec.ofNat 64 (s.att.bootCount.toNat % 2 ^ 16 * 2 ^ 48)

/-- R567: whether a unit exists in its class. -/
def defectExists (d : Defect) : Bool :=
  d.index < classSize d.cls &&
    (if d.cls = 1 then unitExists d.unit else if d.cls = 2 then unitExists d.unit && d.unit % 4 == 0 else 3 ≤ d.cls && d.cls ≤ 7 && d.unit == 0)

/-- R262, R569: a finding of a unit not already recorded enters the queue; one beyond the 64 that the queue shows waits behind it. -/
def queueFinding (d : Defect) (s : State) : State :=
  onlyIf (!(defects s).contains d && !s.brup.findings.contains (findingOf d))
    (State.modBrup (fun b => { b with findings := b.findings ++ [findingOf d] })) s

end Sys2Proof.Machine
end

