-- ==== Sys2Proof/Machine/Aes.lean ====
section
/-!
DEFINITION. AES-256 (FIPS 197), AES-256-GCM and GHASH (SP 800-38D), the AES key wrap (RFC 3394) and CTR_DRBG with AES-256
and the derivation function (SP 800-90A). The bodies are the referenced standards' own (PRESUMED, log 6).
-/

namespace Sys2Proof.Machine
open Sys2Proof

/-- Multiplication by x in GF(2^8) modulo x^8 + x^4 + x^3 + x + 1. -/
def xtime (b : Byte) : Byte := if b.getLsbD 7 then (b <<< 1) ^^^ 0x1B#8 else b <<< 1

/-- The product in GF(2^8) over the lowest `n` bits of the second factor. -/
def gmulN : Nat → Byte → Byte → Byte
  | 0, _, _ => 0
  | n + 1, a, b => (if b.getLsbD 0 then a else 0) ^^^ gmulN n (xtime a) (b >>> 1)

/-- The product in GF(2^8). -/
def gmul (a b : Byte) : Byte := gmulN 8 a b

/-- `a` to the power 254: the inverse in GF(2^8), 0 for 0. -/
def ginv (a : Byte) : Byte :=
  let a2 := gmul a a
  let a3 := gmul a2 a
  let a6 := gmul a3 a3
  let a12 := gmul a6 a6
  let a15 := gmul a12 a3
  let a30 := gmul a15 a15
  let a60 := gmul a30 a30
  let a120 := gmul a60 a60
  let a126 := gmul a120 a6
  let a127 := gmul a126 a
  gmul a127 a127

/-- The substitution box, computed from its definition. -/
def sboxOf (a : Byte) : Byte :=
  let b := ginv a
  b ^^^ b.rotateLeft 1 ^^^ b.rotateLeft 2 ^^^ b.rotateLeft 3 ^^^ b.rotateLeft 4 ^^^ 0x63#8

/-- The inverse of the affine part, then the inverse in the field. -/
def invSboxOf (a : Byte) : Byte := ginv (a.rotateLeft 1 ^^^ a.rotateLeft 3 ^^^ a.rotateLeft 6 ^^^ 0x05#8)

/-- The substitution box as a table. -/
def sboxTab : List Byte := (List.range 256).map (fun i => sboxOf (BitVec.ofNat 8 i))

/-- The inverse substitution box as a table. -/
def invSboxTab : List Byte := (List.range 256).map (fun i => invSboxOf (BitVec.ofNat 8 i))

/-- The substitution box. -/
def sbox (b : Byte) : Byte := sboxTab.getD b.toNat 0

/-- The inverse substitution box. -/
def invSbox (b : Byte) : Byte := invSboxTab.getD b.toNat 0

/-- The AES-256 key schedule, newest four-byte word first; `i` is the index of the next word. -/
def keyWords (rcon : Byte) (i : Nat) : Nat → List Bytes → List Bytes
  | 0, ws => ws
  | n + 1, ws =>
    let t := ws.headD []
    let u := if i % 8 = 0 then
        match t.map sbox with
        | [a, b, c, d] => [b ^^^ rcon, c, d, a]
        | x => x
      else if i % 8 = 4 then t.map sbox else t
    keyWords (if i % 8 = 0 then xtime rcon else rcon) (i + 1) n (xorBytes (ws.getD 7 []) u :: ws)

/-- The fifteen round keys of AES-256. -/
def aesKeys (key : Bytes) : List Bytes :=
  chunks 16 ((keyWords 1 8 52 (chunks 4 (padTo 32 key)).reverse).reverse.flatten)

/-- Byte `i` of the state after ShiftRows. -/
def shiftRows (s : Bytes) : Bytes := (List.range 16).map (fun i => s.getD ((i + 4 * (i % 4)) % 16) 0)

/-- The inverse of ShiftRows. -/
def invShiftRows (s : Bytes) : Bytes := (List.range 16).map (fun i => s.getD ((i + 16 - 4 * (i % 4)) % 16) 0)

/-- A column times the circulant matrix whose first row is given. -/
def mixColumn (m col : Bytes) : Bytes :=
  (List.range 4).map (fun r => (List.range 4).foldl (fun a c => a ^^^ gmul (m.getD ((c + 4 - r) % 4) 0) (col.getD c 0)) 0)

/-- Every column times the matrix. -/
def mixColumns (m s : Bytes) : Bytes := ((chunks 4 s).map (mixColumn m)).flatten

/-- AES-256 encryption of a block under expanded round keys. -/
def aesEncK (ks : List Bytes) (b : Bytes) : Bytes :=
  let s := (ks.drop 1).dropLast.foldl
    (fun s k => xorBytes (mixColumns [2, 3, 1, 1] (shiftRows (s.map sbox))) k) (xorBytes b (ks.headD []))
  xorBytes (shiftRows (s.map sbox)) (ks.getLastD [])

/-- AES-256 decryption of a block under expanded round keys. -/
def aesDecK (ks : List Bytes) (b : Bytes) : Bytes :=
  let s := (ks.drop 1).dropLast.reverse.foldl
    (fun s k => mixColumns [14, 11, 13, 9] (xorBytes ((invShiftRows s).map invSbox) k)) (xorBytes b (ks.getLastD []))
  xorBytes ((invShiftRows s).map invSbox) (ks.headD [])

/-- AES-256 encryption of a block. -/
def aesEnc (key b : Bytes) : Bytes := aesEncK (aesKeys key) b

/-- AES-256 decryption of a block. -/
def aesDec (key b : Bytes) : Bytes := aesDecK (aesKeys key) b

/-- GHASH multiplication (SP 800-38D 6.3): bit 0 of the standard is the most significant bit here. -/
def ghMulN : Nat → BitVec 128 → BitVec 128 → BitVec 128 → BitVec 128
  | 0, z, _, _ => z
  | n + 1, z, v, x =>
    ghMulN n (if x.getLsbD n then z ^^^ v else z)
      (if v.getLsbD 0 then (v >>> 1) ^^^ 0xE1000000000000000000000000000000#128 else v >>> 1) x

/-- The GHASH product. -/
def ghMul (x y : BitVec 128) : BitVec 128 := ghMulN 128 0 y x

/-- GHASH over whole blocks under the hash key `h`. -/
def ghash (h : Bytes) (msg : Bytes) : Bytes :=
  beBytes 16 ((chunks 16 msg).foldl (fun y b => ghMul (y ^^^ BitVec.ofNat 128 (beNat (padTo 16 b)))
    (BitVec.ofNat 128 (beNat h))) 0).toNat

/-- Zeros that fill a string to whole blocks of 16 bytes. -/
def padBlock (bs : Bytes) : Bytes := bs ++ zeros ((16 - bs.length % 16) % 16)

/-- Counter mode from the block `c`, whose last 32 bits count, under expanded keys. -/
def ctrMode (ks : List Bytes) (c : Bytes) (msg : Bytes) : Bytes :=
  ((chunks 16 msg).mapIdx (fun i b =>
    xorBytes b (aesEncK ks (c.take 12 ++ beBytes 4 (beNat (c.drop 12) + i))))).flatten

/-- AES-256-GCM with a 96-bit IV: the 16-byte tag over ciphertext `ct` and additional data `aad`. -/
def gcmTag (key iv aad ct : Bytes) : Bytes :=
  let ks := aesKeys key
  let s := ghash (aesEncK ks (zeros 16)) (padBlock aad ++ padBlock ct ++ beBytes 8 (8 * aad.length) ++ beBytes 8 (8 * ct.length))
  xorBytes s (aesEncK ks (iv ++ beBytes 4 1))

/-- AES-256-GCM encryption: ciphertext. Decryption is the same function. -/
def gcmCrypt (key iv msg : Bytes) : Bytes := ctrMode (aesKeys key) (iv ++ beBytes 4 2) msg

/-- RFC 3394: one step of the wrap with counter `t` on the integrity register and the register that comes round. -/
def wrapStep (ks : List Bytes) (ar : Bytes × List Bytes) (t : Nat) : Bytes × List Bytes :=
  match ar.2 with
  | [] => ar
  | r :: rs =>
    let b := aesEncK ks (ar.1 ++ r)
    (xorBytes (b.take 8) (beBytes 8 t), rs ++ [b.drop 8])

/-- RFC 3394: wrap of a whole number of 8-byte words. -/
def keyWrap (kek p : Bytes) : Bytes :=
  let rs := chunks 8 p
  let res := (List.range (6 * rs.length)).foldl (fun ar t => wrapStep (aesKeys kek) ar (t + 1)) (List.replicate 8 0xA6#8, rs)
  res.1 ++ res.2.flatten

/-- RFC 3394: one step of the unwrap. -/
def unwrapStep (ks : List Bytes) (ar : Bytes × List Bytes) (t : Nat) : Bytes × List Bytes :=
  match ar.2.getLast? with
  | none => ar
  | some r =>
    let b := aesDecK ks (xorBytes ar.1 (beBytes 8 t) ++ r)
    (b.take 8, b.drop 8 :: ar.2.dropLast)

/-- RFC 3394: unwrap; none where the integrity value differs or the length is no wrap's. -/
def keyUnwrap (kek c : Bytes) : Option Bytes :=
  let rs := chunks 8 (c.drop 8)
  if c.length < 24 ∨ c.length % 8 ≠ 0 then none else
  let n := 6 * rs.length
  let res := (List.range n).foldl (fun ar t => unwrapStep (aesKeys kek) ar (n - t)) (c.take 8, rs)
  if res.1 = List.replicate 8 0xA6#8 then some res.2.flatten else none

/-- SP 800-90A: the internal state of CTR_DRBG. -/
abbrev Drbg := Bytes × Bytes

/-- `n` blocks of counter output after `v`, and the last counter. -/
def drbgBlocks (ks : List Bytes) : Nat → Bytes → Bytes × Bytes
  | 0, v => ([], v)
  | n + 1, v =>
    let v1 := beBytes 16 (beNat v + 1)
    let r := drbgBlocks ks n v1
    (aesEncK ks v1 ++ r.1, r.2)

/-- SP 800-90A 10.2.1.2: CTR_DRBG_Update. -/
def drbgUpdate (d : Drbg) (data : Bytes) : Drbg :=
  let t := xorBytes ((drbgBlocks (aesKeys d.1) 3 d.2).1) data
  (t.take 32, t.drop 32)

/-- SP 800-90A 10.3.3: BCC. -/
def bcc (ks : List Bytes) (msg : Bytes) : Bytes :=
  (chunks 16 msg).foldl (fun v b => aesEncK ks (xorBytes v b)) (zeros 16)

/-- `n` chained blocks of the derivation function's output. -/
def dfOut (ks : List Bytes) : Nat → Bytes → Bytes
  | 0, _ => []
  | n + 1, x => let y := aesEncK ks x
    y ++ dfOut ks n y

/-- SP 800-90A 10.3.2: Block_Cipher_df with 48 bytes of output. -/
def blockDf (input : Bytes) : Bytes :=
  let s := padBlock (beBytes 4 input.length ++ beBytes 4 48 ++ input ++ [0x80#8])
  let ks := aesKeys ((List.range 32).map (fun i => BitVec.ofNat 8 i))
  let t := ((List.range 3).map (fun i => bcc ks (beBytes 4 i ++ zeros 12 ++ s))).flatten
  dfOut (aesKeys (t.take 32)) 3 (t.drop 32)

/-- SP 800-90A: CTR_DRBG instantiation from entropy and nonce input. -/
def drbgInit (seed : Bytes) : Drbg := drbgUpdate (zeros 32, zeros 16) (blockDf seed)

/-- SP 800-90A: CTR_DRBG reseed. -/
def drbgReseed (d : Drbg) (entropy add : Bytes) : Drbg := drbgUpdate d (blockDf (entropy ++ add))

/-- SP 800-90A: CTR_DRBG generate without additional input: the output and the next state. -/
def drbgGen (d : Drbg) (n : Nat) : Bytes × Drbg :=
  let r := drbgBlocks (aesKeys d.1) ((n + 15) / 16) d.2
  (r.1.take n, drbgUpdate (d.1, r.2) (zeros 48))

end Sys2Proof.Machine
end

