-- ==== Sys2Proof/Machine/Line.lean ====
section
/-!
DEFINITION. The line transform (R54 to R64): XTS-AES-256, the line tag, the sidecar, and the check of a line read (R95, R96).
-/

namespace Sys2Proof.Machine
open Sys2Proof

/-- R55: the tweak value of a line as its 16 bytes. -/
def tweakBytes (addr domain : Nat) (gen : Bool) : Bytes := leBytes 16 (addr + domain * 2 ^ 42 + bitNat 55 gen)

/-- R56: multiplication by alpha of IEEE Std 1619 on the little-endian tweak. -/
def mulAlpha (t : Bytes) : Bytes :=
  let n := leNat t
  leBytes 16 (if n < 2 ^ 127 then 2 * n else Nat.xor (2 * n % 2 ^ 128) 0x87)

/-- R56: the masks of the four blocks of a line. -/
def lineMasks (e : Entry) (addr : Nat) : List Bytes :=
  let t0 := aesEnc e.k2 (tweakBytes addr e.domain e.genBit)
  let t1 := mulAlpha t0
  let t2 := mulAlpha t1
  [t0, t1, t2, mulAlpha t2]

/-- R54, R56: a line encrypted or decrypted block by block with the function `f` under the data key. -/
def xtsLine (f : List Bytes → Bytes → Bytes) (e : Entry) (addr : Nat) (line : Bytes) : Bytes :=
  let ks := aesKeys e.k1
  (List.zipWith (fun t b => xorBytes (f ks (xorBytes b t)) t) (lineMasks e addr) (chunks 16 line)).flatten

/-- R58: the mask input block. -/
def maskInput (addr domain : Nat) (gen : Bool) : Bytes :=
  beBytes 6 addr ++ beBytes 2 domain ++ [if gen then 1 else 0] ++ [0x4B#8, 0x46#8, 0x4C#8, 0x54#8, 0x41#8, 0x47#8, 0x31#8]

/-- R58: the length block. -/
def lengthBlock : Bytes := zeros 8 ++ beBytes 8 0x200

/-- R57, R59: the line tag of ciphertext `ct`, as it stands in sidecar bits [31:0]. -/
def lineTag (e : Entry) (addr : Nat) (ct : Bytes) : Nat :=
  beNat ((xorBytes (ghash e.h (ct ++ lengthBlock)) (aesEnc e.k3 (maskInput addr e.domain e.genBit))).drop 12)

/-- R59, R60, R63: the sidecar the guard writes; `node` gives bits [63:40]. -/
def sidecar (e : Entry) (addr : Nat) (ct : Bytes) (node : BitVec 64) : BitVec 64 :=
  BitVec.ofNat 64 ((if e.mode = .seal then lineTag e addr ct else 0) + bitNat 32 e.genBit + e.mode.code * 2 ^ 33) ||| nodeBits node

/-- R54: the line as memory holds it. -/
def encryptLine (e : Entry) (addr : Nat) (data : BitVec 512) : BitVec 512 :=
  if e.mode = .open then data else bytesVec 512 (xtsLine aesEncK e addr (vecBytes 64 data))

/-- R54: the line as the node sees it. -/
def decryptLine (e : Entry) (addr : Nat) (ct : BitVec 512) : BitVec 512 :=
  if e.mode = .open then ct else bytesVec 512 (xtsLine aesDecK e addr (vecBytes 64 ct))

/-- R57, R63: a line and its sidecar sealed under an entry. -/
def sealLine (e : Entry) (addr : Nat) (data : BitVec 512) (node : BitVec 64) : BitVec 512 × BitVec 64 :=
  let ct := encryptLine e addr data
  (ct, sidecar e addr (vecBytes 64 ct) node)

/-- R63: the MODE field of a sidecar. -/
def sideMode (side : BitVec 64) : Nat := bitsOf side 35 33

/-- R63: the GEN field of a sidecar. -/
def sideGen (side : BitVec 64) : Bool := bitAt side 32

/-- R95, R96: the first condition on a sidecar that fails, as CAUSE of GUARD_TAGFAIL_LAST: 4 reserved mode, 2 other mode,
3 generation not live; the generation is not checked in open mode. -/
def sideCause (mode : DomMode) (live : Bool → Bool) (side : BitVec 64) : Option Nat :=
  if sideMode side = 0 ∨ 4 ≤ sideMode side then some 4
  else if sideMode side ≠ mode.code then some 2
  else if mode ≠ .open ∧ live (sideGen side) = false then some 3
  else none

/-- R57, R95: whether the tag of a line read is right; veil and open lines carry none (R60). -/
def tagOk (e : Entry) (addr : Nat) (ct : BitVec 512) (side : BitVec 64) : Bool :=
  e.mode != .seal || lineTag e addr (vecBytes 64 ct) == bitsOf side 31 0

end Sys2Proof.Machine
end

