-- ==== Sys2Proof/Machine/GuardCache.lean ====
section
/-!
DEFINITION. The key cache, pins and miss tracker of a guard (R124 to R143, R588, R691): lookup, use, eviction, installation,
slots, and the requests that wait for keys.
-/

namespace Sys2Proof.Machine
open Sys2Proof

/-- R128: the older generation bit of a domain on the rotation list. -/
def Guard.olderBit (g : Guard) (d : Nat) : Option Bool := (g.rot.find? (fun r => r.1 == d)).map Prod.snd

/-- R128: whether an entry is the older generation of its domain. -/
def Guard.isOlder (g : Guard) (e : Entry) : Bool := g.olderBit e.domain == some e.genBit

/-- R72: the cached newest generation of a domain. -/
def Guard.newest (g : Guard) (d : Nat) : Option KcLine :=
  g.cache.lines.find? (fun l => l.entry.domain == d && !g.isOlder l.entry && !l.retiring)

/-- The cached entry of a domain with a generation bit. -/
def Guard.lineBit (g : Guard) (d : Nat) (b : Bool) : Option KcLine :=
  g.cache.lines.find? (fun l => l.entry.domain == d && l.entry.genBit == b)

/-- The cached entry of a domain and generation. -/
def Guard.lineGen (g : Guard) (d : Nat) (gen : BitVec 32) : Option KcLine :=
  g.cache.lines.find? (fun l => l.entry.domain == d && l.entry.gen == gen)

/-- R130: the entry of a row becomes the most recently used. -/
def Guard.touch (row : Nat) (g : Guard) : Guard :=
  let t := g.cache.lines.filter (fun l => l.row == row)
  { g with cache := { g.cache with lines := g.cache.lines.filter (fun l => l.row != row) ++ t } }

/-- The entry of a row is invalidated. -/
def Guard.evict (row : Nat) (g : Guard) : Guard :=
  { g with cache := { g.cache with lines := g.cache.lines.filter (fun l => l.row != row) } }

/-- Whether a request still may need the other live generation of its domain (R80, R129, R156); a parked read accepted during a rotation may. -/
def Guard.needsOther (g : Guard) (r : Req) : Bool :=
  r.op != .write && (r.olderOk || (g.olderBit r.domain).isSome) &&
  match r.stage with
  | .parked => true
  | .needData => true
  | .readQ => true
  | .readOut _ => true
  | .retHeld _ _ => true
  | _ => false

/-- Whether a request is past its checks and its lanes or memory access may still use a key (R129). -/
def Req.usesKey (r : Req) : Bool :=
  match r.stage with
  | .parked => false
  | .fencedOut _ => false
  | .discardOut _ => false
  | _ => true

/-- R129: whether any request in flight uses an entry, or may need it under R80. -/
def Guard.referenced (g : Guard) (e : Entry) : Bool :=
  g.reqs.any (fun r => r.domain == e.domain && ((r.usesKey && r.gen == e.gen) || g.needsOther r))

/-- R131: whether a domain is pinned. -/
def Guard.pinned (g : Guard) (d : Nat) : Bool := g.cache.pins.any (fun p => p.domain == d)

/-- R131: the cached entries of a domain. -/
def Guard.own (g : Guard) (d : Nat) : Nat := (g.cache.lines.filter (fun l => l.entry.domain == d)).length

/-- R131: entries that are neither used nor reserved by a pin. -/
def Guard.freeRows (g : Guard) : Nat :=
  512 - g.cache.rowsOut.length - (g.cache.lines.filter (fun l => !g.pinned l.entry.domain)).length
    - (g.cache.pins.map (fun p => Nat.max p.reserved (g.own p.domain))).sum

/-- R130: the least recently used entry that is valid, unpinned, not retiring and unreferenced. -/
def Guard.victim (g : Guard) : Option KcLine :=
  g.cache.lines.find? (fun l => !g.pinned l.entry.domain && !l.retiring && !g.referenced l.entry)

/-- The first number from `start` on, counting modulo `n`, that is not in use. Which free row or tag the block takes is
left open (log 8). -/
def freeFrom (start n : Nat) (inUse : List Nat) : Nat :=
  ((List.range n).map (fun i => (start + i) % n)).find? (fun x => !inUse.contains x) |>.getD 0

/-- R131: one more entry taken for a pin whose reservation is not complete, evicting in the order of R130. -/
def Guard.takeOne (d : Nat) (g : Guard) : Guard :=
  match g.cache.pins.find? (fun p => p.domain == d) with
  | none => g
  | some p =>
    let bump (x : Guard) : Guard :=
      { x with cache := { x.cache with pins := mapIf (fun q => q.domain == d) (fun q => { q with reserved := q.reserved + 1 }) x.cache.pins } }
    if 2 ≤ p.reserved then g
    else if p.reserved < g.own d ∨ 0 < g.freeRows then bump g
    else match g.victim with
      | none => g
      | some l =>
        let h := g.evict l.row
        bump { h with cache := { h.cache with evictions := h.cache.evictions + 1 } }

/-- R131: every pin takes what its reservation lacks, as far as entries can be had. -/
def Guard.takePins (g : Guard) : Guard :=
  g.cache.pins.foldl (fun x p => (x.takeOne p.domain).takeOne p.domain) g

/-- R130: room made for an entry of a domain: a reserved entry of its own, a free one, or the victim's. -/
def Guard.makeRoom (g : Guard) (d : Nat) : Option Guard :=
  if g.cache.pins.any (fun p => p.domain == d && g.own d < p.reserved) then some g
  else if 0 < g.freeRows then some g
  else match g.victim with
    | none => none
    | some l =>
      let h := g.evict l.row
      some { h with cache := { h.cache with evictions := h.cache.evictions + 1 } }

/-- R130, R131: room made for an entry of a domain, after every pin has taken what its reservation lacks. -/
def Guard.room (g : Guard) (d : Nat) : Option Guard := g.takePins.makeRoom d

/-- R139: an entry written and valid, most recently used, in a free row. -/
def Guard.place (start : Nat) (e : Entry) (g : Guard) : Guard :=
  let row := freeFrom start 512 (g.cache.rowsOut ++ g.cache.lines.map (fun l => l.row))
  { g with cache := { g.cache with lines := g.cache.lines ++ [{ row := row, entry := e }] } }

/-- Requests parked in the guard (R134). -/
def Guard.parkedCount (g : Guard) : Nat := (g.reqs.filter (fun r => r.stage == .parked && r.isMiss)).length

/-- R133: whether a slot of an identity is in use. -/
def Guard.hasSlot (g : Guard) (d : Nat) (want bit : Bool) : Bool :=
  g.miss.slots.any (fun s => s.domain == d && s.want == want && s.genbit == bit)

/-- R133, R137: a slot of an identity is found, or allocated with its KEY_REQ where one of the 64 is free. -/
def slotFor (g d : Nat) (want bit : Bool) (s : State) : State :=
  let x := s.guardN g
  if x.hasSlot d want bit ∨ 64 ≤ x.miss.slots.length then s
  else guardKeyReq g d want bit (s.modGuard g (fun x =>
    { x with miss := { x.miss with slots := x.miss.slots ++ [{ domain := d, want := want, genbit := bit, since := s.timer, asked := s.timer }] } }))

/-- R190: a miss is counted. -/
def countMiss (g : Nat) (s : State) : State :=
  s.modGuard g (fun x => { x with cache := { x.cache with misses := x.cache.misses + 1 } })

/-- R126, R127, R140, R588: a BIND failure is counted and queued; `how` is 0 use, 1 scrub, 2 fill. At the eighth within
1 ms the guard is fenced. -/
def bindFault (g row how domain : Nat) (s : State) : State :=
  let s := s.modGuard g (fun x =>
    { x with cache := { x.cache with
        bindFail := satInc x.cache.bindFail, bindRecent := true,
        bindTimes := (s.timer :: x.cache.bindTimes.filter (fun t => s.timer < t + 1000)).take 8 } })
  let esc := 8 ≤ (s.guardN g).cache.bindTimes.length
  let s := raise true kGuard (unitGuard g) fBindFail (if esc then 1 else 0) (domain + row * 2 ^ 32 + how * 2 ^ 48) s
  onlyIf esc (fenceGuard true true g) s

/-- R126, R588: the entry of a row is invalidated after a BIND failure, and the row excluded at its second. -/
def bindFailed (g : Nat) (l : KcLine) (how domain : Nat) (s : State) : State :=
  let s := s.modGuard g (fun x =>
    let n := alGet 0 x.cache.rowFails l.row + 1
    let y := x.evict l.row
    { y with cache := { y.cache with rowFails := alSet y.cache.rowFails l.row n,
                                     rowsOut := if n = 2 then y.cache.rowsOut ++ [l.row] else y.cache.rowsOut } })
  bindFault g l.row how domain s

/-- The request with a given order of acceptance is changed by `f`. -/
def modReq (g uid : Nat) (f : Req → Req) (s : State) : State :=
  s.modGuard g (fun x => { x with reqs := mapIf (fun r => r.uid == uid) f x.reqs })

/-- R133: a request is parked on its domain's wait list, and its slot found or allocated. -/
def park (g : Nat) (r : Req) (s : State) : State :=
  slotFor g r.domain false false (countMiss g (modReq g r.uid (fun q => { q with stage := .parked, isMiss := true }) s))

/-- R85, R86: a write whose data beat has come and whose checks have passed: sealed under the generation its header took, or
made a read of its line. -/
def proceedData (g : Nat) (r : Req) (s : State) : State :=
  if r.op = .partialWrite ∧ r.be = 0 then fail g r stOk s
  else if r.op = .partialWrite ∧ r.be ≠ BitVec.allOnes 64 then modReq g r.uid (fun q => { q with stage := .readQ }) s
  else
    match (s.guardN g).lineGen r.domain r.gen with
    | none => park g r s
    | some l =>
      if l.entry.bindOk r.domain then
        let c := sealLine l.entry r.addr.toNat r.data r.side
        (modReq g r.uid (fun q => { q with op := .write, stage := .writeQ c.1 c.2 }) s).modGuard g (Guard.touch l.row)
      else park g r (bindFailed g l 0 r.domain s)

/-- R77: what follows the checks for a request whose newest entry is `l`. -/
def pastChecks (g : Nat) (r : Req) (l : KcLine) (s : State) : State :=
  let older := ((s.guardN g).olderBit r.domain).isSome
  let r' := { r with gen := l.entry.gen, olderOk := r.olderOk || older, isMiss := false,
                     stage := if r.isRead then Stage.readQ else Stage.needData }
  let s := (modReq g r.uid (fun _ => r') s).modGuard g (Guard.touch l.row)
  onlyIf (!r.isRead && r.gotData) (proceedData g r') s

/-- R155: whether a RETIRE of every generation of a domain is being applied by the guard. -/
def Guard.retiringAll (g : Guard) (d : Nat) : Bool :=
  g.sweep.retires.any (fun p => !p.older && p.first ≤ d && d ≤ p.last)

/-- R72 checks 6 and 7, R126: a request past checks 1 to 5 is decided on its domain's newest entry, or parked. `openOk` tells
whether the life cycle lets an open domain carry traffic. -/
def decideKey (openOk : Bool) (g : Nat) (r : Req) (s : State) : State :=
  if (s.guardN g).retiringAll r.domain then fail g r stNoKey s
  else
    match (s.guardN g).newest r.domain with
    | none => park g r s
    | some l =>
      if !l.entry.bindOk r.domain then park g r (bindFailed g l 0 r.domain s)
      else if l.entry.mode == .open && !openOk then fail g r stMode s
      else
        let s := onlyIf (!r.isMiss) (fun t => t.modGuard g (fun x => { x with cache := { x.cache with hits := x.cache.hits + 1 } })) s
        pastChecks g r l s

/-- R97, R98, R113: a tag failure is counted for its domain, recorded as the last, and queued where it is the domain's first in
the present window. `cause` is the first check of R96 that failed. -/
def tagFailed (g : Nat) (r : Req) (cause : Nat) (s : State) : State :=
  let partialRead := r.op == .partialWrite
  let s := s.modGuard g (fun x =>
    let p := x.page
    { x with page := { p with tfCounts := alPut 0 p.tfCounts r.domain (satInc (alGet 0 p.tfCounts r.domain)),
                              tfTotal := satInc p.tfTotal, tfAddr := r.addr,
                              tfLast := BitVec.ofNat 16 (r.domain + (if partialRead then 5 else cause) * 2 ^ 13) } })
  let window := s.timer / 10000
  let s := onlyIf (alGet (window + 1) s.tagWindow r.domain != window)
    (raise false kGuard (unitGuard g) fTagFail 0 (r.addr.toNat + r.domain * 2 ^ 42 + cause * 2 ^ 55 + bitNat 58 partialRead)) s
  s.modTagWindow (fun w => alSet w r.domain window)

/-- R75, R87, R97: a read, or the read part of a partial write, that fails its check. -/
def failTag (g : Nat) (r : Req) (cause : Nat) (side : BitVec 64) (s : State) : State :=
  respond g r stPoisonTag 0 side (tagFailed g r cause s)

/-- R85, R86: the enabled bytes of a line replaced. -/
def mergeBytes (be : BitVec 64) (new old : BitVec 512) : BitVec 512 :=
  bytesVec 512 ((List.range 64).map (fun i => if be.getLsbD i then (vecBytes 64 new).getD i 0 else (vecBytes 64 old).getD i 0))

/-- R86, R126, R142: a read response held while the entry of a generation of its domain is sought again. -/
def holdRead (g : Nat) (r : Req) (bit : Bool) (raw : BitVec 512) (side : BitVec 64) (s : State) : State :=
  slotFor g r.domain true bit (countMiss g (modReq g r.uid (fun q => { q with stage := .retHeld raw side }) s))

/-- R78, R86, R88, R126: a line read and checked: returned to the node or the mower, or merged and sealed for its write under the generation its
header took. `raw` is the line as memory gave it: where that generation's entry is gone or fails BIND, the response is held for it. -/
def lineGood (g : Nat) (r : Req) (raw data : BitVec 512) (side : BitVec 64) (s : State) : State :=
  match r.op with
  | .read =>
    let s := onlyIf (r.src == .tenant) (fun t => t.modGuard g (fun x => { x with page := { x.page with linesRead := x.page.linesRead + 1 } })) s
    respond g r stOk data side s
  | _ =>
    match (s.guardN g).lineGen r.domain r.gen with
    | none => holdRead g r (r.gen.getLsbD 0) raw side s
    | some l =>
      if !l.entry.bindOk r.domain then holdRead g r (r.gen.getLsbD 0) raw side (bindFailed g l 0 r.domain s)
      else
        let c := sealLine l.entry r.addr.toNat (mergeBytes r.be r.data data) r.side
        (modReq g r.uid (fun q => { q with stage := .writeQ c.1 c.2 }) s).modGuard g (Guard.touch l.row)

/-- R78, R80, R95, R96, R126, R142: a read response with its ciphertext and sidecar: checked under the generation its sidecar names,
held where that generation is live but not cached, or its entry fails BIND, or failed. -/
def finishRead (g : Nat) (r : Req) (data : BitVec 512) (side : BitVec 64) (s : State) : State :=
  let x := s.guardN g
  let onList := (x.olderBit r.domain).isSome
  let own := r.gen.getLsbD 0
  let bit := sideGen side
  match x.lineGen r.domain r.gen with
  | none => holdRead g r own data side s
  | some lo =>
    if !lo.entry.bindOk r.domain then holdRead g r own data side (bindFailed g lo 0 r.domain s)
    else
    match sideCause lo.entry.mode (fun b => b == own || onList || r.olderOk) side with
    | some c => failTag g r c side s
    | none =>
      if lo.entry.mode == .open then lineGood g r data data side s
      else
        match if bit == own then some lo else x.lineBit r.domain bit with
        | none =>
          if onList then holdRead g r bit data side s else failTag g r 3 side s
        | some l =>
          if !l.entry.bindOk r.domain then holdRead g r bit data side (bindFailed g l 0 r.domain s)
          else if tagOk l.entry r.addr.toNat data side then
            lineGood g r data (decryptLine l.entry r.addr.toNat data) side (s.modGuard g (Guard.touch l.row))
          else failTag g r 1 side s

/-- R72, R133, R134: the header held in the header stage is parked once its slot and place are free. -/
def retryHeld (g : Nat) (s : State) : State :=
  let x := s.guardN g
  match x.miss.heldHdr with
  | none => s
  | some h =>
    if (x.hasSlot h.domain.toNat false false ∨ x.miss.slots.length < 64) ∧ x.parkedCount < 1024 then
      let r : Req := { uid := x.uid, op := if h.op = 0 then .read else if h.op = 1 then .write else .partialWrite, slice := h.slice,
                       stream := h.stream, domain := h.domain.toNat, addr := h.addr, txn := h.txn, stage := .parked, isMiss := true,
                       olderOk := h.olderOk }
      let s := s.modGuard g (fun x => { x with miss := { x.miss with heldHdr := none }, uid := x.uid + 1, reqs := x.reqs ++ [r],
                                               wdWait := if h.op = 0 then x.wdWait else x.wdWait ++ [(h.slice, r.uid)] })
      slotFor g r.domain false false s
    else s

/-- R131: the generations of pinned domains that are not cached are sought through the miss path. -/
def loadPins (g : Nat) (s : State) : State :=
  forEach (s.guardN g).cache.pins (fun p t =>
    let x := t.guardN g
    let t := onlyIf ((x.newest p.domain).isNone) (slotFor g p.domain false false) t
    match x.olderBit p.domain with
    | none => t
    | some b => onlyIf ((x.lineBit p.domain b).isNone) (slotFor g p.domain true b) t) s

/-- R131, R190: the pin request in progress ends once both entries are reserved and every live generation is cached. -/
def pinProgress (g : Nat) (s : State) : State :=
  s.modGuard g (fun x =>
    let d := x.cache.pinReq
    let full := x.cache.pins.any (fun p => p.domain == d && p.reserved == 2)
    let cached := (x.newest d).isSome && (match x.olderBit d with
      | none => true
      | some b => (x.lineBit d b).isSome)
    if x.cache.pinBusy && full && cached then { x with cache := { x.cache with pinBusy := false, pinResult := 1 } } else x)

/-- R126, R142: the generation bit that a held read response waits for: its own request's where that entry is gone, else the one its sidecar names. -/
def Guard.seeks (g : Guard) (r : Req) (side : BitVec 64) : Bool :=
  if (g.lineGen r.domain r.gen).isNone then r.gen.getLsbD 0 else sideGen side

/-- R134, R142: whatever waits for a slot of the miss tracker seeks one: parked requests, held responses, pins, the held header. -/
def seekSlots (g : Nat) (s : State) : State :=
  let s := forEach (s.guardN g).reqs (fun r t =>
    match r.stage with
    | .parked => slotFor g r.domain false false t
    | .retHeld _ side => slotFor g r.domain true ((t.guardN g).seeks r side) t
    | _ => t) s
  retryHeld g (loadPins g s)

/-- R691: whether an entry answers a slot. -/
def Guard.answers (g : Guard) (e : Entry) (sl : Slot) : Bool :=
  sl.domain == e.domain &&
  (if sl.want then sl.genbit == e.genBit else g.olderBit e.domain != some e.genBit)

/-- R41: lane cycles in a microsecond at a grade. -/
def laneCycles (grade : Nat) : Nat := if grade = 18 then 1800 else if grade = 15 then 1500 else 1200

/-- R191: the length of a miss in lane cycles: whole microseconds by the block timer, and what the timer does not resolve free (log 8). -/
def missLat (s : State) (sl : Slot) : BitVec 32 :=
  let k := laneCycles s.fuse.grade.toNat
  BitVec.ofNat 32 (Nat.min ((s.timer - sl.since) * k + s.free % k) (2 ^ 32 - 1))

/-- R191: the longest miss that a fill just installed has ended is recorded. -/
def recordLat (g : Nat) (e : Entry) (s : State) : State :=
  let x := s.guardN g
  ((x.miss.slots.filter (x.answers e)).foldl (fun t sl => t.modGuard g (fun y => { y with miss := { y.miss with
    latMax := if y.miss.latMax < missLat s sl then missLat s sl else y.miss.latMax } })) s).used

/-- R139, R140, R691: the slots an entry answers are freed and what waits on them goes on, in order of arrival. -/
def answerSlots (openOk : Bool) (g : Nat) (e : Entry) (s : State) : State :=
  let x := s.guardN g
  let hit := x.miss.slots.filter (x.answers e)
  if hit.isEmpty then s
  else
    let s := s.modGuard g (fun y => { y with miss := { y.miss with slots := y.miss.slots.filter (fun sl => !x.answers e sl) } })
    forEach x.reqs (fun r t =>
      if r.domain != e.domain then t
      else match r.stage with
        | .parked => if hit.any (fun sl => !sl.want) then decideKey openOk g r t else t
        | .retHeld data side =>
          if ((t.guardN g).lineGen r.domain r.gen).isSome && (e.gen == r.gen || sideGen side == e.genBit) then finishRead g r data side t else t
        | _ => t) s

/-- R130, R139, R691: an entry is installed if room can be made; otherwise its fill waits. One that is cached already is discarded, and answers the
slots it matches all the same. -/
def installFill (openOk : Bool) (g : Nat) (e : Entry) (s : State) : State :=
  if ((s.guardN g).lineGen e.domain e.gen).isSome then answerSlots openOk g e s
  else
  match (s.guardN g).room e.domain with
  | none => s.modGuard g (fun x => { x with cache := { x.cache with waitFills := x.cache.waitFills ++ [e], noVictimRecent := true } })
  | some y => answerSlots openOk g e (recordLat g e ((s.modGuard g (fun _ => y.place s.free e)).used))

/-- R137, R140, R191: a slot sends its KEY_REQ again, which is counted. -/
def askAgain (g : Nat) (sl : Slot) (s : State) : State :=
  guardKeyReq g sl.domain sl.want sl.genbit (s.modGuard g (fun x => { x with miss := { x.miss with
    resends := x.miss.resends + 1, slots := mapIf (fun y => y == sl) (fun y => { y with asked := s.timer }) x.miss.slots } }))

/-- R126, R130, R139, R140, R170, R187, R691: a KEY_FILL that has arrived whole at a guard. -/
def fillArrived (openOk : Bool) (g : Nat) (e : Entry) (s : State) : State :=
  if e.domain = 8191 then s.modGuard g (fun x => { x with sweep := { x.sweep with key := some e } })
  else if !e.bindOk e.domain then
    let x := s.guardN g
    let s := bindFault g (s.free % 512) 2 e.domain s.used
    forEach (x.miss.slots.filter (x.answers e)) (askAgain g) s
  else pinProgress g (seekSlots g (installFill openOk g e s))

end Sys2Proof.Machine
end

