-- ==== Sys2Proof/Machine/Entropy.lean ====
section
/-!
DEFINITION. The entropy unit (R399 to R408, R411): noise samples and their health tests, the DRBG, draws.
-/

namespace Sys2Proof.Machine
open Sys2Proof

/-- R37, R575: whether a management core of the active security core runs. -/
def coreRuns (s : State) : Bool := s.boot.cores.toList.any CoreMode.runs

/-- R37, R562: whether the boot core runs the key service itself: it has not released another core. -/
def bootServes (s : State) : Bool :=
  ((List.finRange 4).filter (fun c => c.toNat != s.boot.bootCore)).all (fun c => s.boot.cores.get c != .running && s.boot.cores.get c != .failed)

/-- R405: whether a reseed falls before the next request. -/
def Ent.due (e : Ent) : Bool := e.reseedDue || 2 ^ 20 ≤ e.reqs.toNat

/-- R405, R406: whether the DRBG can answer a request now: it is unseeded and refuses, or no reseed waits for samples. -/
def Ent.canServe (e : Ent) : Bool := !e.seeded || !e.due || 1024 ≤ e.reservoir.length

/-- R405 to R407: whether a unit of the security core that asks now is answered now: the DRBG is unseeded and refuses, or no request waits before it and
no reseed that waits for samples can fall before or among its requests of at most 64 bytes each. -/
def drawNow (s : State) : Bool :=
  let e := s.ent
  !e.seeded || (e.queue.isEmpty && ((!e.due && e.reqs.toNat + 1024 < 2 ^ 20) || 1024 ≤ e.reservoir.length))

/-- R405: a reseed from 1,024 reservoir samples, with the new life-cycle code as additional input where one is due. -/
def Ent.reseed (e : Ent) : Ent :=
  let d := drbgReseed (e.drbgKey, e.drbgV) (Config.packSamples (e.reservoir.take 1024)) ((e.lcAdd.map (fun c => [c])).getD [])
  { e with drbgKey := d.1, drbgV := d.2, reservoir := e.reservoir.drop 1024, reqs := 0, reseedDue := false, reseedCtl := false,
           lcAdd := none, reseeds := e.reseeds + 1, seeded := true }

/-- R405: a reseed that firmware has asked for is made as soon as samples for it are there. -/
def Ent.settle (e : Ent) : Ent := if e.seeded && e.reseedCtl && 1024 ≤ e.reservoir.length then e.reseed else e

/-- R406, R407: one request of 1 to 64 bytes: refused while unseeded, after a reseed where one is due. Those who ask wait for its samples (drawNow,
canServe); only a job restarted under R348 cannot, and goes before the reseed (log 44). -/
def Ent.draw (n : Nat) (e : Ent) : Option Bytes × Ent :=
  if !e.seeded then (none, { e with refused := satInc e.refused })
  else
    let e := if e.due && 1024 ≤ e.reservoir.length then e.reseed else e
    let r := drbgGen (e.drbgKey, e.drbgV) n
    (some r.1, { e with drbgKey := r.2.1, drbgV := r.2.2, reqs := e.reqs + 1 })

/-- R406: `n` bytes in requests of at most 64, the last the shorter; none where the DRBG refuses. `fuel` bounds the requests. -/
def Ent.drawMany : Nat → Nat → Ent → Option Bytes × Ent
  | 0, _, e => (some [], e)
  | fuel + 1, n, e =>
    if n = 0 then (some [], e)
    else
      match e.draw (Nat.min n 64) with
      | (none, e) => (none, e)
      | (some b, e) =>
        match Ent.drawMany fuel (n - 64) e with
        | (none, e) => (none, e)
        | (some c, e) => (some (b ++ c), e)

/-- R406: bytes drawn by a unit of the security core. -/
def drawBytes (n : Nat) (s : State) : Option Bytes × State :=
  let r := Ent.drawMany ((n + 63) / 64) n s.ent
  (r.1, s.modEnt (fun _ => r.2))

/-- R401, R402: a health test has failed: the window and reservoir are discarded, the DRBG is unseeded, the start-up test runs
again; a third failure within 1 s takes the source out of service. -/
def noiseFail (rct apt : Bool) (s : State) : State :=
  let e := s.ent
  let times := s.timer :: e.failTimes.filter (fun t => s.timer < t + 1000000)
  let out := 3 ≤ times.length
  raise false kEntropy 0 fEntHealth (if out then 4 else 0) (bitNat 0 rct + bitNat 1 apt + bitNat 2 out)
    (s.modEnt (fun e => { e with
      noise := if out then .outOfService else .recovering, startLeft := 1024, rctLast := none, rctRun := 0, aptSeen := 0, aptCount := 0,
      reservoir := [], failTimes := times.take 3, seeded := false, healthRecent := true,
      rctFail := if rct then satInc e.rctFail else e.rctFail, aptFail := if apt then satInc e.aptFail else e.aptFail }))

/-- R278, R375: slot 6, the context key, is drawn as soon as the DRBG can serve after a reset (log 42). -/
def drawContextKey (s : State) : State :=
  if (s.vault.slots.toList.getD 6 {}).attr ≠ 0 || !s.ent.seeded || !drawNow s then s
  else match drawBytes 32 s with
    | (none, s) => s
    | (some k, s) => s.modVault (fun v => { v with slots := vmod v.slots 6 (fun a => { attr := 0x000020B1#32, value := k, epoch := a.epoch + 1 }) })

/-- NOISE_SAMPLE (R304, R375, R399 to R402, R405): a raw sample is latched and tested, then discarded by the start-up test or kept. A reseed or a draw
that waits for samples goes on. -/
def execNoiseSample (bit : Bool) (s : State) : Out :=
  done (whenUp s fun s =>
    onlyIf (s.ports.pairDone && !s.tamper.latch && s.ent.noise != .outOfService) (fun s =>
      let e := s.ent
      let run := if e.rctLast = some bit then e.rctRun + 1 else 1
      let fresh := e.aptSeen = 0
      let count := if fresh then 0 else if e.aptFirst = bit then e.aptCount + 1 else e.aptCount
      let rct := 26 ≤ run
      let apt := 666 ≤ count
      if rct || apt then noiseFail rct apt s
      else drawContextKey (s.modEnt (fun e => Ent.settle { e with
        rctLast := some bit, rctRun := run, aptFirst := if fresh then bit else e.aptFirst, aptSeen := (e.aptSeen + 1) % 1024, aptCount := count,
        startLeft := e.startLeft - 1, noise := if e.startLeft ≤ 1 then .healthy else e.noise,
        reservoir := if e.startLeft = 0 ∧ e.reservoir.length < 2048 then e.reservoir ++ [bit] else e.reservoir }))) s)

/-- DRBG_INSTANTIATE (R278, R304, R375, R402 to R405): the DRBG is tested and instantiated from 1,536 samples, or reseeded from a full reservoir
after a failure of the source. `katGood` is the outcome of the known-answer tests. -/
def execDrbgInstantiate (katGood : Bool) (s : State) : Out :=
  done (whenUp s fun s =>
    let e := s.ent
    if e.seeded || e.katFailed || e.noise != .healthy || s.tamper.latch then s
    else if e.drbgKey ≠ [] then onlyIf (2048 ≤ e.reservoir.length) (State.modEnt Ent.reseed) s
    else if e.reservoir.length < 1536 then s
    else if !katGood then
      raise false kEntropy 0 fDrbgKat 0 0 (s.modEnt (fun e => { e with katFailed := true, katPass := false }))
    else
      let d := drbgInit (Config.packSamples (e.reservoir.take 1024) ++ Config.packSamples ((e.reservoir.drop 1024).take 512) ++
        ascii "KFL-DRBG" ++ vecBytes 4 s.att.bootCount)
      drawContextKey (s.modEnt (fun e => { e with
        drbgKey := d.1, drbgV := d.2, reservoir := e.reservoir.drop 1536, seeded := true, katPass := true, reqs := 0,
        reseeds := e.reseeds + 1 })))

/-- The entropy page (R411). -/
def entPage : Nat := 0x59000

/-- RESEED (R405, R411): a write of RESEED requests a reseed, made at once or as soon as samples for it are there; requests wait for it. -/
def execReseed (p : Path) (value : BitVec 32) (s : State) : Out :=
  done (writeAt true p (entPage + 0x20) (onlyIf (bitAt value 0)
    (State.modEnt (fun e => Ent.settle { e with reseedDue := true, reseedCtl := true }))) s)

/-- R372: a write that an owner rule of the digest and entropy pages refuses is counted in DIG_FOREIGN. -/
def digForeign (s : State) : State := s.modDig (fun d => { d with foreign := satInc d.foreign })

/-- ENT_DRAW (R406, R407, R411): a core's write of GO to its draw region queues a request of LEN bytes; LEN outside 1 to 64
ends E_RANGE and an unseeded DRBG refuses at once. GO while BUSY is dropped; a write without it only sets LEN. -/
def execEntDraw (region : Fin 4) (p : Path) (value : BitVec 32) (s : State) : Out :=
  done (writeOwned p (entPage + 0x100 + 0x80 * region.toNat) (p == .core region) digForeign (fun s =>
      let d := s.ent.draws.get region
      let n := bitsOf value 6 0
      let upd (f : Draw → Draw) (e : Ent) : Ent := { e with draws := vmod e.draws region.toNat (fun x => f { x with len := BitVec.ofNat 7 n }) }
      if !bitAt value 31 then s.modEnt (upd id)
      else if d.busy then s
      else
        if n = 0 ∨ 64 < n then s.modEnt (upd (fun x => { x with valid := true, result := eRange }))
        else if !s.ent.seeded then
          s.modEnt (fun e => upd (fun x => { x with valid := true, result := 0x6A }) { e with refused := satInc e.refused })
        else s.modEnt (fun e => upd (fun x => { x with busy := true, valid := false, out := List.replicate 16 0 })
          { e with queue := e.queue ++ [(.core region.toNat, n)] })) s)

end Sys2Proof.Machine
end

