-- ==== Sys2Proof/Machine/Mctp.lean ====
section
/-!
DEFINITION. The transport of the mailboxes: MCTP packets (DSP0236), the messages they carry (DSP0275, DSP0276), the records and keys of sessions
(DSP0274, DSP0277) and the bytes of SPDM messages (DSP0274), which R423 to R426, R430 and R439 name without restating (log 10).
-/

namespace Sys2Proof.Machine
open Sys2Proof

/-! ### MCTP packets (R423, R683) -/

/-- DSP0236: a packet of header version 1 from tag owner `owner`: destination, source, then SOM, EOM, packet sequence, TO and message tag. -/
def mctpPacket (dst src tag : Nat) (owner som eom : Bool) (seq : Nat) (payload : Bytes) : Bytes :=
  [0x01, BitVec.ofNat 8 dst, BitVec.ofNat 8 src,
    BitVec.ofNat 8 (bitNat 7 som + bitNat 6 eom + 16 * (seq % 4) + bitNat 3 owner + tag % 8)] ++ payload

/-- R423: the packets of an outgoing message, in payloads of the 64-byte baseline; the block answers under the requester's tag (log 10). -/
def mctpPackets (dst src tag : Nat) (msg : Bytes) : List Bytes :=
  let parts := chunks 64 msg
  parts.mapIdx (fun i p => mctpPacket dst src tag false (i == 0) (i + 1 == parts.length) i p)

/-- R423: a posted packet that the block assembles: header version 1, addressed to its endpoint, to the null endpoint or to every endpoint, from a
requester that owns the tag. -/
def mctpTakes (eid : Nat) (pkt : Bytes) : Bool :=
  let dst := (pkt.getD 1 0).toNat
  (pkt.getD 0 0).toNat % 16 == 1 && (dst == eid || dst == 0 || dst == 0xFF) && bitAt (pkt.getD 3 0) 3

/-- DSP0236: a packet that begins a message, as the part received so far. -/
def partStart (pkt : Bytes) : MctpPart :=
  { src := (pkt.getD 2 0).toNat, tag := (pkt.getD 3 0).toNat % 8, unit := (pkt.drop 4).length, seq := bitsOf (pkt.getD 3 0) 5 4, bytes := pkt.drop 4 }

/-- DSP0236: a packet that goes on with a message: the next in sequence, of the first packet's length or, as the last, shorter. -/
def partNext (p : MctpPart) (pkt : Bytes) : Option MctpPart :=
  let n := (pkt.drop 4).length
  if bitsOf (pkt.getD 3 0) 5 4 ≠ (p.seq + 1) % 4 ∨ p.unit < n ∨ (n ≠ p.unit ∧ !bitAt (pkt.getD 3 0) 6) then none
  else some { p with seq := (p.seq + 1) % 4, bytes := p.bytes ++ pkt.drop 4 }

/-- R423, R684: a packet taken: the parts of messages that are still incomplete, and the message it completes. One out of sequence discards its message. -/
def mctpAssemble (parts : List MctpPart) (pkt : Bytes) : List MctpPart × Option MctpPart :=
  let head := partStart pkt
  let mine (p : MctpPart) : Bool := p.src == head.src && p.tag == head.tag
  let rest := parts.filter (fun p => !mine p)
  match if bitAt (pkt.getD 3 0) 7 then some head else (parts.find? mine).bind (partNext · pkt) with
  | none => (rest, none)
  | some p => if bitAt (pkt.getD 3 0) 6 then (rest, some p) else (rest ++ [p], none)

/-- DSP0236: the answer to an MCTP control message: Set Endpoint ID and Get Endpoint ID, the types of R423 for Get Message Type Support, and
ERROR_UNSUPPORTED_CMD for every other. -/
def mctpControl (eid : Nat) (msg : Bytes) : Option Nat × Bytes :=
  let id := bitsOf (msg.getD 1 0) 4 0
  let answer (bs : Bytes) : Bytes := [0, BitVec.ofNat 8 id, msg.getD 2 0] ++ bs
  match (msg.getD 2 0).toNat with
  | 1 =>
    let new := (msg.getD 4 0).toNat
    if new = 0 ∨ new = 0xFF then (none, answer [0x02]) else (some new, answer [0, 0, msg.getD 4 0, 0])
  | 2 => (none, answer [0, BitVec.ofNat 8 eid, 0, 0])
  | 5 => (none, answer [0, 2, 0x05, 0x06])
  | _ => (none, answer [0x05])

/-! ### The key schedule (R430, R432, R438) -/

/-- DSP0274: an input of HKDF-Expand: length, version, label and context. -/
def binConcat (n : Nat) (label : String) (ctx : Bytes) : Bytes := leBytes 2 n ++ ascii "spdm1.3 " ++ ascii label ++ ctx

/-- DSP0274: a value expanded from a secret under a label. -/
def spdmExpand (secret : Bytes) (n : Nat) (label : String) (ctx : Bytes) : Bytes := hkdfExpand secret (binConcat n label ctx) n

/-- R430: the handshake secret, out of S. -/
def handshakeSecret (s : Bytes) : Bytes := hkdfExtract (zeros 48) s

/-- R430: the secret of one direction of the handshake, out of S and TH1. -/
def handshakeDir (s th1 : Bytes) (rsp : Bool) : Bytes :=
  spdmExpand (handshakeSecret s) 48 (if rsp then "rsp hs data" else "req hs data") th1

/-- R430: the master secret. -/
def masterSecret (s : Bytes) : Bytes := hkdfExtract (spdmExpand (handshakeSecret s) 48 "derived" []) (zeros 48)

/-- R430: the secret of one direction of an open session, out of S and TH2. -/
def dataDir (s th2 : Bytes) (rsp : Bool) : Bytes := spdmExpand (masterSecret s) 48 (if rsp then "rsp app data" else "req app data") th2

/-- R438: the export master secret, out of S and TH2. -/
def exportSecret (s th2 : Bytes) : Bytes := spdmExpand (masterSecret s) 48 "exp master" th2

/-- R424: the secret that a KEY_UPDATE puts in place of one direction's. -/
def updatedSecret (secret : Bytes) : Bytes := spdmExpand secret 48 "traffic upd" []

/-- R432: the verify data of one direction over a transcript. -/
def verifyData (s th1 transcript : Bytes) (rsp : Bool) : Bytes :=
  hmac384 (spdmExpand (handshakeDir s th1 rsp) 48 "finished" []) (sha384 transcript)

/-! ### Records (R423, R430) -/

/-- DSP0277: the key of a direction. -/
def recordKey (secret : Bytes) : Bytes := spdmExpand secret 32 "key" []

/-- DSP0277: the IV of record `seq` of a direction. -/
def recordIv (secret : Bytes) (seq : Nat) : Bytes := xorBytes (spdmExpand secret 12 "iv" []) (leBytes 12 seq)

/-- DSP0276, DSP0277: the secured message that carries an SPDM message: session ID, sequence number and length, then the ciphertext and its tag, without
random data. -/
def sealRecord (id : Nat) (secret : Bytes) (seq : Nat) (msg : Bytes) : Bytes :=
  let plain := leBytes 2 (msg.length + 1) ++ [0x05] ++ msg
  let head := leBytes 4 id ++ leBytes 2 seq ++ leBytes 2 (plain.length + 16)
  let ct := gcmCrypt (recordKey secret) (recordIv secret seq) plain
  [0x06] ++ head ++ ct ++ gcmTag (recordKey secret) (recordIv secret seq) head ct

/-- DSP0276, DSP0277: the SPDM message of a record, where its sequence number, length and tag are right. -/
def openRecord (secret : Bytes) (seq : Nat) (record : Bytes) : Option Bytes :=
  let n := fieldLe record 6 2
  let head := record.take 8
  let ct := slice record 8 (n - 16)
  let plain := gcmCrypt (recordKey secret) (recordIv secret seq) ct
  if n < 19 ∨ record.length ≠ 8 + n ∨ fieldLe record 4 2 ≠ seq % 65536 ∨
      gcmTag (recordKey secret) (recordIv secret seq) head ct ≠ slice record (8 + (n - 16)) 16 ∨ fieldLe plain 0 2 + 2 > plain.length ∨
      plain.getD 2 0 ≠ 0x05 then none
  else some (slice plain 3 (fieldLe plain 0 2 - 1))

/-! ### SPDM messages (R424 to R426, R439) -/

/-- R439, R687: StandardID, length and value of VendorID, and the length of the payload. -/
def vendorHead (n : Nat) : Bytes := leBytes 2 4 ++ [4] ++ leBytes 4 0xF949 ++ leBytes 2 n

/-- R439: a vendor-defined message of a request code (0xFE) or response code (0x7E) around a payload. -/
def vendorMessage (code : BitVec 8) (payload : Bytes) : Bytes := [0x13, code, 0, 0] ++ vendorHead payload.length ++ payload

/-- R439: the header of the vendor payload. -/
def vendorHeader (msg : BitVec 16) (result : BitVec 8) (tag : BitVec 32) : Bytes := vecBytes 2 msg ++ [result, 0] ++ vecBytes 4 tag

/-- R426: the DMTF measurement value type of an index: immutable ROM, mutable firmware, security version number, hash-extended measurement, hardware
configuration and device mode; bit 7 marks a raw value, the others are digests. -/
def measurementType (i : Nat) : BitVec 8 :=
  match i with
  | 1 => 0x00
  | 2 => 0x01
  | 3 => 0x87
  | 4 => 0x08
  | 5 => 0x82
  | _ => 0x85

/-- DSP0274: a measurement block: index, DMTF specification, size, then value type, size and value. -/
def measurementBlock (b : Nat × Bytes) : Bytes :=
  leBytes 1 b.1 ++ [0x01] ++ leBytes 2 (b.2.length + 3) ++ [measurementType b.1] ++ leBytes 2 b.2.length ++ b.2

/-- R425: the algorithms selected: the DMTF measurement specification, SHA-384 for measurements, ECDSA P-384, SHA-384, AES-256-GCM and the SPDM key
schedule. -/
def algorithmBytes : Bytes :=
  leBytes 2 44 ++ [0x01, 0] ++ leBytes 4 (2 ^ 2) ++ leBytes 4 (2 ^ 7) ++ leBytes 4 (2 ^ 1) ++ zeros 16 ++
    [0x03, 0x20] ++ leBytes 2 (2 ^ 1) ++ [0x05, 0x20] ++ leBytes 2 (2 ^ 0)

/-- DSP0274: the fields of MEASUREMENTS up to its signature: the total of indices where only it was asked for, the blocks, the nonce, no opaque data and
the requester's context. -/
def measurementsBytes (total : Nat) (blocks : List (Nat × Bytes)) (nonce ctx : Bytes) : Bytes :=
  let record := (blocks.map measurementBlock).flatten
  [0x13, 0x60, BitVec.ofNat 8 total, 0] ++ leBytes 1 blocks.length ++ leBytes 3 record.length ++ record ++ nonce ++ leBytes 2 0 ++ ctx

/-- DSP0274: the fields of CHALLENGE_AUTH up to its signature: slot 0 of a chain, the chain's digest, the nonce, the summary of measurements, no opaque
data and the requester's context. -/
def challengeBytes (chain nonce summary ctx : Bytes) : Bytes := [0x13, 0x03, 0, 1] ++ chain ++ nonce ++ summary ++ leBytes 2 0 ++ ctx

/-- DSP0274: what a signature covers: the prefix for version 1.3 with its purpose, and the digest of the transcript. -/
def spdmSigned (purpose : String) (transcript : Bytes) : Bytes :=
  let ctx := ascii purpose
  (List.replicate 4 (ascii "dmtf-spdm-v1.3.*")).flatten ++ zeros (36 - ctx.length) ++ ctx ++ sha384 transcript

/-- R424 to R426: the bytes of an SPDM response. -/
def spdmBytes : SpdmRsp → Bytes
  | .version => [0x10, 0x04, 0, 0, 0, 1] ++ leBytes 2 0x1300
  | .capabilities caps => [0x13, 0x61, 0, 0] ++ caps
  | .algorithms => [0x13, 0x63, 2, 0] ++ algorithmBytes
  | .digests d => [0x13, 0x01, 1, 1] ++ d
  | .certificate part left => [0x13, 0x02, 0, 0] ++ leBytes 2 part.length ++ leBytes 2 left ++ part
  | .challengeAuth chain nonce summary ctx sig => challengeBytes chain nonce summary ctx ++ sig
  | .measurements total blocks nonce ctx sig => measurementsBytes total blocks nonce ctx ++ sig
  | .chunkSendAck handle seq => [0x13, 0x05, 0, handle] ++ leBytes 2 seq
  | .chunkSendError handle seq code => [0x13, 0x05, 1, handle] ++ leBytes 2 seq ++ [0x13, 0x7F, code, 0]
  | .chunkResponse handle seq size part left => [0x13, 0x06, if left = 0 then 1 else 0, handle] ++ leBytes 2 seq ++ zeros 2 ++ leBytes 4 part.length ++
      (if seq = 0 then leBytes 4 size else []) ++ part
  | .heartbeatAck => [0x13, 0x68, 0, 0]
  | .keyUpdateAck op tag => [0x13, 0x69, op, tag]
  | .endSessionAck => [0x13, 0x6C, 0, 0]
  | .error code => [0x13, 0x7F, code, 0]

/-- R424, R439: the bytes of a message to a requester. -/
def outBytes : OutBody → Bytes
  | .spdm r => spdmBytes r
  | .vendor msg result tag body => vendorMessage 0x7E (vendorHeader (msg ||| 0x8000#16) result tag ++ body)

/-- DSP0274: a response of `n` bytes that a requester's data transfer size cannot take whole: ERROR LargeResponse with the handle to fetch it by. -/
def largeResponse (handle : Nat) : Bytes := [0x13, 0x7F, 0x0F, 0, BitVec.ofNat 8 handle]

end Sys2Proof.Machine
end

