-- ==== Sys2Proof/Machine/SessionOps.lean ====
section
/-!
DEFINITION. Answers to requesters and events of sessions (R436, R437, R439, R440, R446, R447, R683, R684).
-/

namespace Sys2Proof.Machine
open Sys2Proof

/-- The open session with an ID. -/
def State.sess (s : State) (id : Nat) : Option Session := s.att.sessions.find? (fun x => x.id == id)

/-- The state with one session changed by `f`. -/
def modSess (id : Nat) (f : Session → Session) (s : State) : State :=
  s.modAtt (fun a => { a with sessions := mapIf (fun x => x.id == id) f a.sessions })

/-- The state with a mailbox changed by `f`. -/
def modBox (operator : Bool) (f : Mbx → Mbx) (s : State) : State :=
  if operator then s.modOperBox f else s.modTenantBox f

/-! ### Where requests and answers belong (R423, R424) -/

/-- The state of the SPDM requests that a request belongs to. -/
def connOf (s : State) (operator : Bool) (sess : Option Nat) : Conn :=
  match sess with
  | none => if operator then s.att.operConn else s.att.tenantConn
  | some id => ((s.sess id).map Session.conn).getD {}

/-- The state with it changed by `f`. -/
def modConn (operator : Bool) (sess : Option Nat) (f : Conn → Conn) (s : State) : State :=
  match sess with
  | none => s.modAtt (fun a => if operator then { a with operConn := f a.operConn } else { a with tenantConn := f a.tenantConn })
  | some id => modSess id (fun x => { x with conn := f x.conn }) s

/-- R684: where no packet waits in the outbound buffer, the next one is written there. -/
def pumpBox (m : Mbx) : Mbx :=
  match m.outReady, m.outPkts with
  | false, p :: ps => { m with outPkts := ps, outReady := true, outLen := BitVec.ofNat 11 p.length, outBuf := bufStore 0 m.outBuf 0 p }
  | _, _ => m

/-- R424, R425: what is sent for a message, and what is left of it to fetch: one that the requester's data transfer size cannot take whole is kept, and
ERROR LargeResponse names its handle; the answer to a request that came in parts travels in the acknowledgement of its last part. -/
def Conn.carry (c : Conn) (msg : Bytes) : Bytes × Conn :=
  let large := c.xfer < msg.length + (if c.ackDue.isSome then 6 else 0)
  let handle := c.outHandle + 1
  let c' := if large then { c with chunkOut := msg, outHandle := handle, outSeq := 0, outSize := msg.length } else c
  let sent := if large then largeResponse handle.toNat else msg
  match c.ackDue with
  | none => (sent, c')
  | some a => (spdmBytes (.chunkSendAck a.1 a.2) ++ sent, { c' with ackDue := none })

/-- R423, R430: the message of a mailbox that carries an SPDM message: as it is outside a session; in one, as a record of the block's direction. -/
def transportBytes (x : Option Session) (msg : Bytes) : Bytes :=
  match x with
  | none => [0x05] ++ msg
  | some x => sealRecord x.id x.rspSecret x.rspSeq msg

/-- R423, R424, R684: a message sent through a mailbox: its packets queue behind those before it. -/
def sendOut (operator : Bool) (sess : Option Nat) (body : OutBody) (s : State) : State :=
  let c := connOf s operator sess
  let m := c.carry (outBytes body)
  let wire := transportBytes (sess.bind s.sess) m.1
  let s := modConn operator sess (fun _ => m.2) s
  let s := match sess with
    | none => s
    | some id => modSess id (fun x => { x with rspSeq := x.rspSeq + 1 }) s
  modBox operator (fun b => pumpBox { b with
    sent := b.sent ++ [{ operator := operator, sess := sess, body := body }], outPkts := b.outPkts ++ mctpPackets c.peer b.eid c.peerTag wire }) s

/-- R435: a message of a session has come. -/
def hear (id : Nat) (s : State) : State := modSess id (fun x => { x with heard := s.timer }) s

/-- R436: ERROR Busy to a request of a session whose previous one is still being answered, whose own acknowledgement stays due. -/
def sayBusy (operator : Bool) (id : Nat) (s : State) : State :=
  let due := (connOf s operator (some id)).ackDue
  modConn operator (some id) (fun c => { c with ackDue := due })
    (sendOut operator (some id) (.spdm (.error 0x03)) (modConn operator (some id) (fun c => { c with ackDue := none }) s))

/-- R437: an answer to a request of a session; discarded where the session has ended. -/
def reply (w : Waiter) (result : BitVec 8) (s : State) : State :=
  match s.sess w.sess with
  | none => s
  | some x => sendOut x.operator (some w.sess) (.vendor w.msg result w.tag w.body) (modSess w.sess (fun y => { y with busy := false }) s)

/-- R440: an answer with the code of a refusal and no body. -/
def refuse (w : Waiter) (result : BitVec 8) (s : State) : State := reply { w with body := [] } result s

/-- R464: a failed HYB_FINISH or CRED_PROVE is counted in ATT_AUTH_FAIL. -/
def countAuthFail (s : State) : State := s.modAtt (fun a => { a with authFail := satInc a.authFail })

/-- R447: an event appended to a session's queue of 64, or dropped with OVERFLOW set. -/
def Session.push (e : Event) (x : Session) : Session :=
  if x.events.length < 64 then { x with events := x.events ++ [e] } else { x with overflow := true }

/-- R447: an event for every open session that satisfies `p`. -/
def pushEvent (p : Session → Bool) (e : Event) (s : State) : State :=
  s.modAtt (fun a => { a with sessions := mapIf p (Session.push e) a.sessions })

/-- R447: an event about a domain's keys, for every session that holds the owner's credential. -/
def ownerEvent (owner : Option Bytes) (e : Event) (s : State) : State :=
  pushEvent (fun x => owner.isSome && x.cred == owner) e s

/-- R447: an event for the session that requested. -/
def sessEvent (id : Nat) (e : Event) (s : State) : State := pushEvent (fun x => x.id == id) e s

/-- R440: how a message must arrive. -/
structure MsgRule where
  /-- MSG -/
  msg : BitVec 16
  /-- taken on the tenant mailbox -/
  tenant : Bool := true
  /-- taken on the operator mailbox -/
  operator : Bool := false
  /-- needs a proven credential -/
  cred : Bool := true
deriving DecidableEq, Repr

/-- R436, R440: a message of a session is decided by `k` once its mailbox and session kind, its credential and its body's
length have been checked, in this order. A request that arrives while the session's previous one is being answered receives
ERROR Busy. -/
def onMessage (r : MsgRule) (lengthOk : Bytes → Bool) (id : Nat) (tag : BitVec 32) (body : Bytes)
    (k : Session → Waiter → State → State) (s : State) : State :=
  match s.sess id with
  | none => s
  | some x =>
    let w : Waiter := { sess := id, msg := r.msg, tag := tag }
    let s := hear id s
    if x.busy then sayBusy x.operator id s
    else
      let s := modSess id (fun y => { y with busy := true }) s
      if !(if x.operator then r.operator else r.tenant) || !x.finished then refuse w eReserved s
      else if r.cred && x.cred.isNone then refuse w eOwner s
      else if !lengthOk body then refuse w eRange s
      else k x w s

/-- R440: a body exactly as long as its layout. -/
def exactly (n : Nat) (body : Bytes) : Bool := body.length == n

/-- R438: the session wrap key. -/
def wrapKey (x : Session) : Bytes := kmac256 x.ems (leBytes 4 x.id) 32 (ascii "KFL-SESS-WRAP")

end Sys2Proof.Machine
end

