-- ==== Sys2Proof/Machine/KeyOps.lean ====
section
/-!
DEFINITION. The key service's records and operations (R115 to R123, R145 to R160, R168, R610, R693): domain and model records,
what is mirrored to a ready standby, broadcasts that await acknowledgements, and what their completion brings about.
-/

namespace Sys2Proof.Machine
open Sys2Proof

/-! ### Records -/

/-- The record of a domain that is not FREE. -/
def State.dom (s : State) (d : Nat) : Option DomRec := s.ks.doms.find? (fun r => r.id == d)

/-- R118: the state of a domain. -/
def domState (s : State) (d : Nat) : DomState := ((s.dom d).map DomRec.state).getD .free

/-- A record put in its place, records in rising order of domain. -/
def domInsert (r : DomRec) : List DomRec → List DomRec
  | [] => [r]
  | x :: xs => if r.id < x.id then r :: x :: xs else if r.id = x.id then r :: xs else x :: domInsert r xs

/-- A domain's record set. -/
def setDom (r : DomRec) (s : State) : State := s.modKs (fun k => { k with doms := domInsert r k.doms })

/-- A domain's record changed by `f`. -/
def modDom (d : Nat) (f : DomRec → DomRec) (s : State) : State :=
  s.modKs (fun k => { k with doms := mapIf (fun r => r.id == d) f k.doms })

/-- The record of a model domain that is not NONE. -/
def State.model (s : State) (m : Nat) : Option ModelRec := s.ks.models.find? (fun r => r.model == m)

/-- R198: the custody state of a model domain. -/
def custody (s : State) (m : Nat) : Custody := ((s.model m).map ModelRec.custody).getD .none

/-- A model domain record put in its place. -/
def modelInsert (r : ModelRec) : List ModelRec → List ModelRec
  | [] => [r]
  | x :: xs => if r.model < x.model then r :: x :: xs else if r.model = x.model then r :: xs else x :: modelInsert r xs

/-- A model domain's record set. -/
def setModel (r : ModelRec) (s : State) : State := s.modKs (fun k => { k with models := modelInsert r k.models })

/-- A model domain's record changed by `f`. -/
def modModel (m : Nat) (f : ModelRec → ModelRec) (s : State) : State :=
  s.modKs (fun k => { k with models := mapIf (fun r => r.model == m) f k.models })

/-- R118: the states from which a teardown may begin, CREATED with CLOSING apart. -/
def DomState.alive : DomState → Bool
  | .created => true
  | .keyed => true
  | .rotating => true
  | .sweepWait => true
  | .sweeping => true
  | .retiringOld => true
  | _ => false

/-- R118, R441: whether a domain exists and is not being torn down. -/
def domAlive (s : State) (d : Nat) : Bool := (s.dom d).any (fun r => r.state.alive && !r.closing)

/-- R118: whether guards may be given keys of a domain (TEARDOWN_DRAIN serves the requests already accepted). -/
def DomState.keyed? : DomState → Bool
  | .keyed => true
  | .rotating => true
  | .sweepWait => true
  | .sweeping => true
  | .retiringOld => true
  | .tearDrain => true
  | _ => false

/-! ### Key derivation (R120, R122, R124) -/

/-- R120: the string X of a generation. -/
def deriveInput (d : Nat) (gen : BitVec 32) (mode : DomMode) : Bytes :=
  leBytes 2 d ++ vecBytes 4 gen ++ [BitVec.ofNat 8 mode.code, 0]

/-- R122, R125: an entry made of 96 bytes of keys, with H and BIND. -/
def entryOf (keys : Bytes) (d : Nat) (gen : BitVec 32) (mode : DomMode) (scratch : Bool) : Entry :=
  let k3 := slice keys 64 32
  Entry.seal { k1 := slice keys 0 32, k2 := slice keys 32 32, k3 := k3, h := aesEnc k3 (zeros 16), domain := d, mode := mode,
               scratch := scratch, gen := gen }

/-- R120: the entry of a generation derived from a seed. -/
def deriveEntry (seed : Bytes) (d : Nat) (gen : BitVec 32) (mode : DomMode) (scratch : Bool) : Entry :=
  entryOf (kmac256 seed (deriveInput d gen mode) 96 (ascii "KFL-GUARD-KEYS")) d gen mode scratch

/-! ### Broadcasts (R32, R152, R158, R160, R186, R188, R692, R693) -/

/-- R186: a message with its operation identifier filled in. -/
def withOp (op : BitVec 32) : RingBody → RingBody
  | .rotate d g _ => .rotate d g op
  | .retire f l o _ => .retire f l o op
  | .streamSet st e _ => .streamSet st e op
  | .readerSet m o f l _ => .readerSet m o f l op
  | b => b

/-- R158, R693: the guards that must acknowledge: neither fenced nor in reset. -/
def ackGuards (s : State) : List Nat :=
  allGuards.filter (fun g => !(s.guardN g).fenced && !(s.guardN g).inReset && !(s.dieN (g / 10)).inReset)

/-- R32, R693: the stops that must acknowledge: those whose die section is not in reset. -/
def ackStops (s : State) : List Nat := (List.range 4).filter (fun d => !(s.dieN d).inReset)

/-- R617: the next operation identifier; bit 31 is the SITE. -/
def nextOpId (s : State) : BitVec 32 := BitVec.ofNat 32 (s.ks.nextOp.toNat + bitNat 31 s.mir.site)

/-- R160: RETIRE operations outstanding. -/
def retiresOut (s : State) : Nat :=
  (s.ks.ops.filter (fun o => match o.kind with
    | .retire _ _ _ => true
    | _ => false)).length

/-- R145, R148, R155, R161: the key service's own tables after it has sent a message that changes them. -/
def applyBody (k : KeySvc) : RingBody → KeySvc
  | .streamSet st e _ => { k with streams := alPut 0 k.streams st e }
  | .readerSet m o f l _ => { k with readers := if o = 2 then readerClear m k.readers else readerRange m f l (o == 0) k.readers }
  | .rotate d g _ => { k with rot := k.rot.filter (fun r => r.1 != d) ++ [(d, !g.getLsbD 0)] }
  | .retire f l _ _ => { k with rot := k.rot.filter (fun r => r.1 < f || l < r.1) }
  | _ => k

/-- R160, R188, R610: the messages decided and not yet sent, in the order they will be. -/
def unsentMsgs (s : State) : List RingBody :=
  (s.ks.heldOps ++ (s.mir.unacked ++ s.mir.backlog).flatMap Unacked.effect).flatMap Broadcast.msgs

/-- R441: the key service's tables with everything it has decided: what the next request of a stream or domain meets. -/
def tables (s : State) : KeySvc := (unsentMsgs s).foldl applyBody s.ks

/-- R144: a stream's entry as decided so far. -/
def streamNow (s : State) (st : Nat) : BitVec 32 := streamEntry (tables s).streams st

/-- A broadcast is sent and its acknowledgements awaited. -/
def startOp (b : Broadcast) (s : State) : State :=
  let id := nextOpId s
  let byGuard := match b.kind with
    | .rotate _ => true
    | .retire _ _ _ => true
    | _ => false
  let op : Broadcast := { b with opId := id, missG := if byGuard then ackGuards s else [], missS := if byGuard then [] else ackStops s,
                                 sentAt := s.timer, msgs := b.msgs.map (withOp id) }
  forEach op.msgs headAll (s.modKs (fun k => op.msgs.foldl applyBody { k with nextOp := k.nextOp + 1, ops := k.ops ++ [op] }))

/-- R188: the messages of one kind of table for a stop; each message of the kind is sent in order, and the SEQ of the last is what
its acknowledgement will name. -/
def sendSync (die kind : Nat) (msgs : List RingBody) (s : State) : State :=
  let s := forEach msgs (headSend (stopUnit die)) s
  s.modKs (fun k => { k with syncSeqs := k.syncSeqs ++ [(die, kind, s.head.seq - 1)] })

/-- R186, R188: a run of entries cut into messages of at most 32. `fuel` bounds them. -/
def syncRuns (kind : Nat) : Nat → List (Nat × BitVec 32) → List (Nat × List (BitVec 32))
  | 0, _ => []
  | _, [] => []
  | fuel + 1, (i, e) :: t =>
    let run := ((List.range 32).map (fun k => t[k]?)).zipIdx.takeWhile (fun p => p.1.any (fun q => q.1 == i + p.2 + 1)) |>.take 31
    (i, e :: run.filterMap (fun p => p.1.map Prod.snd)) :: syncRuns kind fuel (t.drop run.length)

/-- R188: the messages of TABLE_SYNC for one kind of table; an empty table is closed by one message without entries. -/
def syncMsgs (kind : Nat) (t : List (Nat × BitVec 32)) : List RingBody :=
  let runs := syncRuns kind t.length t
  match runs with
  | [] => [.tableSync kind true 0 []]
  | _ => runs.zipIdx.map (fun p => .tableSync kind (p.2 + 1 == runs.length) p.1.1 p.1.2)

/-- R186: a rotation list as entries of TABLE_SYNC. -/
def rotWords (t : List (Nat × Bool)) : List (Nat × BitVec 32) := t.zipIdx.map (fun p => (p.2, BitVec.ofNat 32 (p.1.1 + bitNat 16 p.1.2)))

/-- R33, R188: a stop is given every kind of table; other updates are held back until it has acknowledged them. -/
def startSync (die : Nat) (s : State) : State :=
  let s := s.modKs (fun k => { k with held := k.held.filter (· != die) ++ [die] })
  forEach [(0, s.ks.streams), (1, s.ks.readers), (2, rotWords s.ks.rot)] (fun p t =>
    let msgs := syncMsgs p.1 p.2
    let t := sendSync die p.1 msgs t
    t.modKs (fun k => { k with ops := k.ops ++ [{ opId := BitVec.ofNat 32 ((t.head.seq - 1).toNat + p.1 * 2 ^ 16), kind := .sync die p.1,
                                                  missS := [die], sentAt := t.timer, msgs := msgs }] })) s

/-- R160, R188: a broadcast is sent at once, held back while a stop is being given its tables, or, for a RETIRE beyond 16 or behind one that waits
already, kept until one ends. -/
def launch (b : Broadcast) (s : State) : State :=
  if !s.ks.held.isEmpty then s.modKs (fun k => { k with heldOps := k.heldOps ++ [b] })
  else match b.kind with
    | .retire f l o =>
      if 16 ≤ retiresOut s || !s.ks.retireQ.isEmpty then s.modKs (fun k => { k with retireQ := k.retireQ ++ [{ first := f, last := l, older := o }] })
      else startOp b s
    | _ => startOp b s

/-- R149, R186: a STREAM_SET that gives a stream an entry. -/
def streamOp (st : Nat) (e : BitVec 32) (withdraw : Bool) (domain : Nat) (w : Option Waiter) : Broadcast :=
  { kind := .stream st withdraw domain, msgs := [.streamSet st e 0], waiter := w }

/-- R153: a RETIRE. -/
def retireOp (first last : Nat) (older : Bool) : Broadcast :=
  { kind := .retire first last older, msgs := [.retire first last older 0] }

/-- R148, R186: a READER_SET. -/
def readerOp (m oper first last domain : Nat) (w : Option Waiter) : Broadcast :=
  { kind := .reader m (oper != 0) domain, msgs := [.readerSet m oper first last 0], waiter := w }

/-! ### The mirror (R605 to R611) -/

/-- R607, R647: a frame leaves for the standby, or waits behind the sixteen unacknowledged ones. -/
def mirSend (u : Unacked) (s : State) : State :=
  let f := { u.frame with seq := s.mir.txSeq }
  let u := { u with frame := f, sentAt := s.timer }
  s.modMir (fun m =>
    if m.unacked.length < 16 then { m with txSeq := m.txSeq + 1, unacked := m.unacked ++ [u], toStandby := m.toStandby ++ [f] }
    else { m with txSeq := m.txSeq + 1, backlog := m.backlog ++ [u] })

/-- R610: changes to mirrored items. While the standby is ready, the broadcasts and answers that depend on them wait for its
acknowledgement of the last frame; otherwise they go at once. -/
def commit (frames : List FrameBody) (effects : List Broadcast) (replies : List (Waiter × BitVec 8)) (s : State) : State :=
  let now (t : State) : State := forEach replies (fun r u => reply r.1 r.2 u) (forEach effects launch t)
  if !s.mir.session || s.mir.site then now s
  else if !s.mir.ready then now (forEach frames (fun f t => mirSend { frame := { body := f } } t) s)
  else match frames.reverse with
    | [] => now s
    | last :: before =>
      mirSend { frame := { body := last }, effect := effects, replies := replies }
        (forEach before.reverse (fun f t => mirSend { frame := { body := f } } t) s)

/-- R297, R298: an entry of the store that is never sent: its ECC is uncorrectable, its BIND fails, or it was found lost before. -/
def DomRec.unreadable (r : DomRec) (e : Entry) : Bool := r.eccBad.contains e.gen || r.lostGen.contains e.gen || !e.bindOk r.id

/-- R447: the credential that is told about a domain's keys: its tenant's, or a model domain's owner's. -/
def keyOwner (s : State) (d : Nat) : Option Bytes :=
  if 4096 ≤ d then (s.model d).bind (fun m => if m.ownerCred = [] then none else some m.ownerCred) else (s.dom d).bind DomRec.owner

/-- R298: a generation found lost for the first time: LOST is set, the fault queued and the loss reported. -/
def loseGen (d : Nat) (gen : BitVec 32) (s : State) : State :=
  onlyIf (!(s.dom d).any (fun r => r.lostGen.contains gen)) (fun s =>
    let s := modDom d (fun r => { r with lost := true, lostGen := r.lostGen ++ [gen] }) s
    ownerEvent (keyOwner s d) { kind := evKeyLost, result := eOk, domain := d, id := gen }
      (raise true kKeyService 0 fKeyLost 0 (d + gen.toNat * 2 ^ 32) s)) s

/-- R297, R298: a domain's entries are read to form a mirror frame; those that fail are found lost. -/
def checkStore (d : Nat) (s : State) : State :=
  match s.dom d with
  | none => s
  | some r => onlyIf (s.mir.session && !s.mir.site) (forEach (r.gens.filter r.unreadable) (fun e => loseGen d e.gen)) s

/-- R298, R608: the STORE frame of a domain as its record stands, with the entries that may be sent. -/
def storeFrame (s : State) (d : Nat) : FrameBody :=
  .store ((s.dom d).map (fun r => { r with gens := r.gens.filter (fun e => !r.unreadable e) })) d

/-- R608: the MODEL frame of a model domain as its record stands. -/
def modelFrameOf (s : State) (m : Nat) : FrameBody := .model (s.model m) m

/-- R608: the READERS frame of a model domain as its reader set will stand once the broadcasts given are sent too. -/
def readersFrame (s : State) (m : Nat) (ops : List Broadcast) : FrameBody :=
  .readers m (readerWords ((ops.flatMap Broadcast.msgs).foldl applyBody (tables s)).readers m)

/-- R610: whether a change to a domain's record still awaits the standby. -/
def storePending (s : State) (d : Nat) : Bool :=
  s.mir.ready && (s.mir.unacked ++ s.mir.backlog).any (fun u => match u.frame.body with
    | .store _ id => id == d
    | _ => false)

/-- A change to one domain's record, mirrored, with what depends on it. -/
def commitDom (d : Nat) (effects : List Broadcast) (replies : List (Waiter × BitVec 8)) (s : State) : State :=
  let s := checkStore d s
  commit [storeFrame s d] effects replies s

/-! ### What ends with a domain (R118, R159, R210, R251, R260, R299) -/

/-- R251: a domain's kept record is discarded. -/
def dropKept (d : Nat) (s : State) : State := s.modMower (fun m => { m with kept := m.kept.filter (fun k => k.domain != d) })

/-- R210: a model domain's bundle key is wiped. -/
def wipeBundle (m : Nat) (s : State) : State := s.modVault (fun v => { v with bundles := v.bundles.filter (fun b => b.model != m) })

/-- R118, R198: a domain becomes FREE; a model domain NONE. Its owner is told of the teardown's end (R444, R447). With the domain its result record
goes, of a tenant domain by R260, and of a model domain as well (DESIGN CHOICE, log 62). -/
def freeDomain (d : Nat) (s : State) : State :=
  match s.dom d with
  | none => s
  | some r =>
    let owner := if 4096 ≤ d then ((s.model d).bind (fun m => if m.ownerCred = [] then none else some m.ownerCred)) else r.owner
    let s := s.modKs (fun k => { k with doms := k.doms.filter (fun x => x.id != d), models := k.models.filter (fun x => x.model != d) })
    let s := dropKept d (wipeBundle d s)
    let s := s.modMower (fun m => { m with results := m.results.filter (fun x => x.domain != d) })
    let s := commit (if 4096 ≤ d then [storeFrame s d, modelFrameOf s d] else [storeFrame s d]) [] [] s
    ownerEvent owner { kind := evTornDown, result := eOk, domain := d } s

/-- R118: whether an operation that concerns a domain's streams or readers awaits acknowledgements or is held back. -/
def domainOps (s : State) (d : Nat) : Bool :=
  (s.ks.ops ++ s.ks.heldOps ++ (s.mir.unacked ++ s.mir.backlog).flatMap Unacked.effect).any (fun o => match o.kind with
    | .stream _ _ x => x == d
    | .reader m _ _ => m == d || o.msgs.any (fun b => match b with
      | .readerSet _ op f l _ => op == 1 && f ≤ d && d ≤ l
      | _ => false)
    | _ => false)

/-- R118: a CREATED domain being closed passes to FREE once its proposals are withdrawn. -/
def closeCreated (d : Nat) (s : State) : State :=
  onlyIf ((s.dom d).any (fun r => r.state == .created && r.closing) && !domainOps s d) (freeDomain d) s

/-- R118: the CREATED domains being closed for which nothing is awaited any more pass to FREE. -/
def closeAll (s : State) : State := forEach (s.ks.doms.filter DomRec.closing) (fun r t => closeCreated r.id t) s

/-! ### Sweeps (R163, R166 to R168, R176) -/

/-- The unfinished descriptors of a domain of one kind. -/
def descsOf (s : State) (d : Nat) (dsweep : Bool) : List HeldDesc := s.ks.descs.filter (fun x => x.domain == d && x.dsweep == dsweep)

/-- R174, R176: the descriptors of a region list's entries, with fresh identifiers. Entries that name a fenced guard are
skipped, and their lines counted as not swept (R175); those of a guard that is fenced for the time of its reset are kept until it is out of reset
(DESIGN CHOICE, log 62). -/
def addDescs (dsweep : Bool) (d : Nat) (rs : List Region) (s : State) : State :=
  forEach rs (fun r t =>
    if (t.guardN r.guard).fenced && !(t.guardN r.guard).resetKeep then modDom d (fun x => { x with notSwept := x.notSwept + r.count }) t
    else t.modKs (fun k => { k with
      nextSweep := k.nextSweep + 1,
      descs := k.descs ++ [{ guard := r.guard, dsweep := dsweep, domain := d, first := r.first, count := r.count,
                             sweepId := BitVec.ofNat 32 (k.nextSweep.toNat + bitNat 31 t.mir.site) }] })) s

/-- R166: once every rekey descriptor has ended, the older generation is retired. -/
def rekeyEnded (d : Nat) (s : State) : State :=
  onlyIf (domState s d == .sweeping && (descsOf s d false).isEmpty) (fun s =>
    let s := modDom d (fun r => { r with state := .retiringOld, oldRetiring := true, swAddr := 0, swCount := 0 }) s
    commitDom d [retireOp d d true] [] s) s

/-- R168: once every domain-sweep descriptor has ended, every generation is retired. -/
def sweepEnded (d : Nat) (s : State) : State :=
  onlyIf (domState s d == .tearSweep && (descsOf s d true).isEmpty) (fun s =>
    let s := modDom d (fun r => { r with state := .tearRetire, swAddr := 0, swCount := 0 }) s
    commitDom d [retireOp d d false] [] s) s

/-! ### Completion of a broadcast -/

/-- R159: the older generation of a record is wiped. -/
def DomRec.wipeOld (r : DomRec) : DomRec :=
  { r with oldRetiring := false, gens := r.gens.filter (fun e => e.gen == r.newest), lostGen := r.lostGen.filter (fun g => g == r.newest),
           eccBad := r.eccBad.filter (fun g => g == r.newest) }

/-- R159, R166: the older generation of a domain is wiped once its RETIRE is acknowledged. A domain in RETIRING_OLD returns to KEYED and the rotation is
reported; one whose teardown has begun meanwhile goes on with that. -/
def retiredOld (d : Nat) (s : State) : State :=
  match s.dom d with
  | none => s
  | some r =>
    if !r.oldRetiring then s
    else if r.state != .retiringOld then commitDom d [] [] (modDom d DomRec.wipeOld s)
    else
      let s := modDom d (fun r => { r.wipeOld with state := .keyed, regions := [] }) s
      ownerEvent r.owner { kind := evRotated, result := eOk, domain := d, id := r.newest, value1 := BitVec.ofNat 64 r.visited,
                           value2 := BitVec.ofNat 64 r.failed } (commitDom d [] [] s)

/-- R159, R118: every generation of a domain in TEARDOWN_RETIRE is wiped and the domain is FREE. -/
def retiredAll (d : Nat) (s : State) : State :=
  onlyIf (domState s d == .tearRetire) (freeDomain d) s

/-- R188: once no kind of a stop's tables awaits its acknowledgement, the updates held back for it are sent. -/
def synced (die : Nat) (s : State) : State :=
  if s.ks.ops.any (fun o => match o.kind with
    | .sync d _ => d == die
    | _ => false) then s
  else
    let s := s.modKs (fun k => { k with held := k.held.filter (· != die) })
    if !s.ks.held.isEmpty then s
    else forEach s.ks.heldOps launch (s.modKs (fun k => { k with heldOps := [] }))

/-- R145 to R148, R152, R159, R163, R188: what the completion of a broadcast brings about. -/
def finishOp (b : Broadcast) (s : State) : State :=
  let ok (t : State) : List (Waiter × BitVec 8) := match b.waiter with
    | none => []
    | some w => if (t.sess w.sess).isNone || (t.ks.ops ++ t.ks.heldOps).any (fun o => o.waiter == some w) then [] else [(w, eOk)]
  match b.kind with
  | .rotate d =>
    if domState s d == .rotating then
      commitDom d [] (ok s) (modDom d (fun r => { r with state := .sweepWait }) s)
    else commit [] [] (ok s) s
  | .retire f l older => forEach ((List.range (l + 1 - f)).map (f + ·)) (if older then retiredOld else retiredAll) s
  | .stream st withdraw d =>
    if withdraw then
      commit [] [streamOp st 0 false d none] (ok s) s
    else closeAll (commit [] [] (ok s) s)
  | .reader _ _ _ => closeAll (commit [] [] (ok s) s)
  | .sync die _ => synced die s

/-- R693: every broadcast with no acknowledgement missing is completed. `fuel` bounds those that complete in turn. -/
def settleOps : Nat → State → State
  | 0, s => s
  | fuel + 1, s =>
    match s.ks.ops.find? (fun o => o.missG.isEmpty && o.missS.isEmpty) with
    | none => s
    | some o => settleOps fuel (finishOp o (s.modKs (fun k => { k with ops := dropFirst (fun x => x == o) k.ops })))

/-- The broadcasts that can complete at once: those outstanding and, for each, those its completion sends. -/
def settleKeys (s : State) : State := settleOps (4 * (s.ks.ops.length + s.ks.heldOps.length) + 16) s

end Sys2Proof.Machine
end

