-- ==== Sys2Proof/Machine/Mower.lean ====
section
/-!
DEFINITION. The Tyfixel tree and the mower (R234 to R261, R694): hashes of leaves and nodes, running jobs, their reads through
the guards, and the end of a job.
-/

namespace Sys2Proof.Machine
open Sys2Proof

/-! ### The tree (R234 to R238) -/

/-- R234: bytes of a leaf. -/
def leafSize : Nat := 65536

/-- R237: payload bytes a whole node of a level covers. -/
def nodeWidth (l : Nat) : Nat := leafSize * 32 ^ l

/-- R237: the nodes of a level in the tree of `t` bytes. -/
def levelNodes (t l : Nat) : Nat := (t + nodeWidth l - 1) / nodeWidth l

/-- R238: the top level: the smallest from 1 on with exactly one node. -/
def topLevel (t : Nat) : Nat := ((List.range 7).map (· + 1)).find? (fun l => levelNodes t l ≤ 1) |>.getD 7

/-- R236: the prefix of a leaf. -/
def leafPrefix (mode : DomMode) (i len : Nat) : Bytes :=
  ascii "TFX1" ++ [0x4C#8, BitVec.ofNat 8 mode.code, 0, 0] ++ leBytes 8 i ++ leBytes 4 len ++ zeros 12

/-- R236: the hash of a leaf. -/
def leafHash (mode : DomMode) (i : Nat) (data : Bytes) : Bytes := sha3_256 (leafPrefix mode i data.length ++ data)

/-- R237: the payload bytes a node covers. -/
def nodeSpan (t l j : Nat) : Nat := Nat.min (nodeWidth l * (j + 1)) t - nodeWidth l * j

/-- R237: the hash of an interior node over its children's hashes. -/
def nodeHash (mode : DomMode) (t l j : Nat) (kids : List Bytes) : Bytes :=
  sha3_256 (ascii "TFX1" ++ [0x4E#8, BitVec.ofNat 8 mode.code, BitVec.ofNat 8 l, BitVec.ofNat 8 kids.length] ++ leBytes 8 j ++
    leBytes 8 (nodeSpan t l j) ++ zeros 8 ++ kids.flatten)

/-- R237: the indices of a node's children that exist. -/
def childIdx (t l j : Nat) : List Nat := ((List.range 32).map (32 * j + ·)).filter (fun c => c < levelNodes t (l - 1))

/-- One level of hashes from the level below. -/
def levelUp (mode : DomMode) (t l : Nat) (hs : List Bytes) : List Bytes :=
  (List.range (levelNodes t l)).map (fun j => nodeHash mode t l j ((hs.drop (32 * j)).take 32))

/-- The root from the hashes of level `l - 1`, at most `fuel` levels up. -/
def rootFrom (mode : DomMode) (t : Nat) : Nat → Nat → List Bytes → Bytes
  | 0, _, hs => hs.headD []
  | fuel + 1, l, hs =>
    let up := levelUp mode t l hs
    if up.length ≤ 1 then up.headD [] else rootFrom mode t fuel (l + 1) up

/-- R238: the Tyfixel root over the hashes of all leaves. -/
def rootOfLeaves (mode : DomMode) (t : Nat) (leaves : List Bytes) : Bytes := rootFrom mode t 7 1 leaves

/-! ### Jobs -/

/-- The level and index of the node a job computes (R249). -/
def MJob.target (j : MJob) : Nat × Nat := if j.kind = 2 then (j.level, j.index) else (topLevel j.total, 0)

/-- The hash a job holds of a node. -/
def MJob.hash (j : MJob) (l i : Nat) : Option Bytes := (j.nodes.find? (fun n => n.1 == l && n.2.1 == i)).map (fun n => n.2.2)

/-- R249: the lines a job reads. -/
def MJob.lineCount (j : MJob) : Nat := (j.hi - j.lo) / 64

/-- The index of the first leaf a job reads. -/
def MJob.firstLeaf (j : MJob) : Nat := j.lo / leafSize

/-- The leaves a job has hashed. -/
def MJob.leavesDone (j : MJob) : Nat := (j.nodes.filter (fun n => n.1 == 0 && j.firstLeaf ≤ n.2.1)).length

/-- R694: the lines absorbed into hashed leaves. -/
def MJob.absorbed (j : MJob) : Nat := Nat.min j.lineCount (j.leavesDone * 1024)

/-- The next leaf of a job whose lines have all been read: its index and bytes. -/
def MJob.readyLeaf (j : MJob) : Option (Nat × Bytes) :=
  let first := j.leavesDone * 1024
  let n := Nat.min 1024 (j.lineCount - first)
  let lines := (List.range n).map (fun k => (j.got.find? (fun p => p.1 == first + k)).map Prod.snd)
  if n = 0 ∨ lines.any Option.isNone then none
  else some (j.firstLeaf + j.leavesDone, (lines.map (fun l => vecBytes 64 (l.getD 0))).flatten)

/-- R252: an interior node of a job, within the one it computes, whose children are all complete. -/
def MJob.readyNode (j : MJob) : Option (Nat × Nat × List Bytes) :=
  (j.nodes.filterMap (fun n =>
    let l := n.1 + 1
    let i := n.2.1 / 32
    if j.target.1 < l ∨ (j.hash l i).isSome then none
    else
      let kids := (childIdx j.total l i).map (fun c => j.hash n.1 c)
      if kids.any Option.isNone then none else some (l, i, kids.map (·.getD [])))).head?

/-- R250: the kept record of a job: the complete nodes along the right edge. -/
def MJob.edge (j : MJob) (root : Bytes) : Kept :=
  { domain := j.domain, total := j.total, root := root,
    nodes := j.nodes.filter (fun n => n.1 < topLevel j.total && nodeWidth n.1 * (n.2.1 + 1) ≤ j.total &&
      32 * (levelNodes j.total (n.1 + 1) - 1) ≤ n.2.1) }

/-- R258: a result record put in place of its domain's. -/
def setResult (r : ResultRec) (s : State) : State :=
  s.modMower (fun m => { m with results := m.results.filter (fun x => x.domain != r.domain) ++ [r] })

/-- R254, R256, R258, R261, R446, R447: a measurement job ends with its outcome. -/
def endJob (j : MJob) (outcome : BitVec 8) (hash : Bytes) (s : State) : State :=
  let s := setResult
    { domain := j.domain, kind := BitVec.ofNat 8 j.kind, mode := BitVec.ofNat 8 j.mode.code, outcome := outcome,
      level := BitVec.ofNat 8 j.target.1, jobSeq := j.seq, gen := ((s.dom j.domain).map DomRec.newest).getD 0, total := BitVec.ofNat 64 j.total,
      index := BitVec.ofNat 64 j.target.2, baseLen := BitVec.ofNat 64 ((j.base.map Kept.total).getD 0),
      baseRoot := (j.base.map Kept.root).getD (zeros 32), result := if outcome = mwDone ∨ outcome = mwMismatch then hash else zeros 32 } s
  let s := s.modMower (fun m => { m with
    queue := m.queue.filter (fun x => x.seq != j.seq), run := m.run.filter (fun x => x.seq != j.seq),
    badReads := m.badReads.filter (· != j.seq), lastOutcome := outcome, lastDomain := BitVec.ofNat 13 j.domain, lastValid := true,
    lastJob := j.seq, readFail := if outcome = mwRead then satInc m.readFail else m.readFail,
    mismatchRecent := m.mismatchRecent || outcome == mwMismatch })
  let s := onlyIf (outcome == mwMismatch) (raise false kMower 0 fMowerMismatch 0 (j.domain + j.seq.toNat * 2 ^ 32)) s
  sessEvent j.sess { kind := if outcome = mwMismatch then evMismatch else evMeasured, result := outcome, domain := j.domain, id := j.seq } s

/-- Whether reads of a job are in flight at a guard. -/
def readsInFlight (s : State) (seq : BitVec 32) : Bool :=
  s.guards.toList.any (fun g => g.reqs.any (fun r => match r.src, r.stage with
    | .mower _ _, .discardOut _ => false
    | .mower job _, _ => job == seq
    | .tenant, _ => false))

/-- R244, R255: jobs with a failed read end with MW_READ; jobs being aborted end with MW_ABORT once their reads in flight are
complete. -/
def settleMower (s : State) : State :=
  let s := forEach s.mower.run (fun j t => if t.mower.badReads.contains j.seq && !j.aborting then endJob j mwRead [] t else t) s
  let s := forEach s.mower.run (fun j t => if j.aborting && !readsInFlight t j.seq then endJob j mwAbort [] t else t) s
  s.modMower (fun m => { m with badReads := [] })

/-- What a fence, an acknowledgement or a failed read leads to at once: jobs that end, broadcasts that complete. -/
def settle (s : State) : State := settleKeys (settleMower s)

/-- R255: the jobs of a domain whose teardown begins: queued ones end, running ones end after their reads in flight. -/
def abortJobs (d : Nat) (s : State) : State :=
  let s := forEach s.mower.queue (fun j t => if j.domain == d then endJob j mwAbort [] t else t) s
  settleMower (s.modMower (fun m => { m with run := mapIf (fun j => j.domain == d) (fun j => { j with aborting := true }) m.run }))

/-! ### Commands -/

/-- MEASUREMENT_JOB_START (R241, R252): the oldest queued job starts when fewer than four run. With no lane in service it ends
at once (R242). -/
def execMeasurementJobStart (s : State) : Out :=
  done (whenUp s fun s =>
    match s.mower.queue with
    | [] => s
    | j :: q =>
      if 4 ≤ s.mower.run.length then s
      else
        let s := s.modMower (fun m => { m with queue := q, run := m.run ++ [j] })
        if s.mower.lanes = 0 then endJob j mwLane [] s else s)

/-- MOWER_READ_ISSUE (R93, R94, R243, R245, R694): the next payload line of a running job is read through its guard while fewer than 4,096
lines are read ahead of its hashing. The read skips checks 2 to 5; a fenced guard answers E_FENCED. It waits where the guard allots the mower no
share; whether it waited on a share it has is open (log 16). -/
def execMowerReadIssue (job : BitVec 32) (s : State) : Out :=
  done (whenUp s fun s =>
    match s.mower.run.find? (fun j => j.seq == job) with
    | none => s
    | some j =>
      match lineOf j.lines j.issued with
      | none => s
      | some (g, a) =>
        if j.aborting || j.lineCount ≤ j.issued || 4096 ≤ j.issued - j.absorbed || (s.guardN g).inReset || (s.guardN g).clkStopped then s
        else if !(s.guardN g).fenced && (s.guardN g).page.allot 3 == 0 then s.modMower (fun m => { m with shareLimited := true })
        else
          let x := s.guardN g
          let r : Req := { uid := x.uid, src := .mower job j.issued, op := .read, domain := j.domain, addr := BitVec.ofNat 42 a, stage := .parked }
          let s := (s.modMower (fun m => { m with
            shareLimited := m.shareLimited || Config.freeBit s.freeCtr,
            run := mapIf (fun y => y.seq == job) (fun y => { y with issued := y.issued + 1 }) m.run })).used
          let s := s.modGuard g (fun y => { y with uid := y.uid + 1, reqs := y.reqs ++ [r] })
          settle (if x.fenced then fail g r stFenced s else decideKey (openOk s) g r s))

/-- A hashed node joins its job. -/
def addNode (seq : BitVec 32) (n : Nat × Nat × Bytes) (s : State) : State :=
  s.modMower (fun m => { m with run := mapIf (fun j => j.seq == seq) (fun j => { j with nodes := j.nodes ++ [n] }) m.run })

/-- R249, R250, R256: a job whose target node has been hashed ends, keeping its right edge where it was asked to. A re-measure that ends MW_MISMATCH
leaves no kept record (DESIGN CHOICE, log 62). -/
def jobDone (j : MJob) (hash : Bytes) (s : State) : State :=
  let recorded := ((s.model j.domain).map ModelRec.root).getD []
  if 4096 ≤ j.domain ∧ hash ≠ recorded then endJob j mwMismatch hash s
  else
    endJob j mwDone hash (onlyIf j.keep (State.modMower (fun m =>
      { m with kept := m.kept.filter (fun k => k.domain != j.domain) ++ [j.edge hash] })) s)

/-- A job takes its turn: a ready interior node ahead of the next leaf (R252). None where it has nothing ready. -/
def jobTurn (j : MJob) (s : State) : Option State :=
  match j.readyNode with
  | some (l, i, kids) => some (addNode j.seq (l, i, nodeHash j.mode j.total l i kids) s)
  | none =>
    match j.readyLeaf with
    | none => none
    | some (i, data) =>
      let first := j.leavesDone * 1024
      let s := s.modMower (fun m => { m with
        bytes := m.bytes + BitVec.ofNat 64 data.length,
        run := mapIf (fun y => y.seq == j.seq) (fun y => { y with got := y.got.filter (fun p => p.1 < first || first + 1024 ≤ p.1) }) m.run })
      some (addNode j.seq (0, i, leafHash j.mode i data) s)

/-- MOWER_NODE_HASHED (R235 to R240, R252): a lane finishes a node of the next running job in turn that has one ready; the job
ends when it is its top node. -/
def execMowerNodeHashed (s : State) : Out :=
  done (whenUp s fun s =>
    if s.mower.lanes = 0 then s
    else
      match s.mower.run.findSome? (fun j => (jobTurn j s).map (fun t => (j, t))) with
      | none => s
      | some (j, t) =>
        let t := t.modMower (fun m => { m with run := m.run.filter (fun y => y.seq != j.seq) ++ m.run.filter (fun y => y.seq == j.seq) })
        match t.mower.run.find? (fun y => y.seq == j.seq) with
        | none => t
        | some j' =>
          match j'.hash j'.target.1 j'.target.2 with
          | none => t
          | some h => if j'.aborting then t else jobDone j' h t)

/-- MOWER_LANE_KAT (R242): a Keccak lane's known-answer permutation runs. A lane that fails leaves service, and the node it was
hashing is hashed again; with no lane left every running job ends MW_LANE. -/
def execMowerLaneKat (lane : Fin 32) (good : Bool) (s : State) : Out :=
  done (whenUp s fun s =>
    if good || !bitAt s.mower.lanes lane.toNat then s
    else
      let s := s.modMower (fun m => { m with lanes := setBit m.lanes lane.toNat false, laneKatFail := satInc m.laneKatFail })
      let s := raise false kMower lane.toNat fMowerLane 4 0 s
      if s.mower.lanes = 0 then forEach s.mower.run (fun j t => endJob j mwLane [] t) s else s)

/-- The mower page (R261). -/
def mowerPage : Nat := 0x61000

/-- MOWER_ABORT (R254, R261): a privileged write of a JOB_SEQ ends that job with MW_ABORT if it is queued or running. -/
def execMowerAbort (p : Path) (value : BitVec 32) (s : State) : Out :=
  done (writeAt true p (mowerPage + 0x3C) (fun s =>
    match (s.mower.queue ++ s.mower.run).find? (fun j => j.seq == value) with
    | none => s
    | some j => endJob j mwAbort [] s) s)

end Sys2Proof.Machine
end

