-- ==== Sys2Proof/Machine/GuardKeys.lean ====
section
/-!
DEFINITION. What a guard does with keys (R124 to R143, R153 to R162, R187, R190, R588, R691, R692): key requests and their
answers, pins, the scrub, ROTATE and RETIRE, and the ring messages a die section takes in (R30, R149, R181 to R185).
-/

namespace Sys2Proof.Machine
open Sys2Proof

/-! ### Receiving a head message (R30, R181 to R185) -/

/-- R179: whether a head message is addressed to a die's stop or to one of its guards. -/
def addressed (die : Nat) (m : RingMsg) : Bool :=
  m.dest == 0xFF || m.dest == stopUnit die || (m.dest < 0x50 && m.dest / 10 == die)

/-- R185: the TYPE of a message. -/
def RingBody.code : RingBody → Nat
  | .keyReq _ _ _ => 0x01
  | .keyFill _ => 0x02
  | .keyNone _ _ _ => 0x03
  | .rotate _ _ _ => 0x04
  | .retire _ _ _ _ => 0x05
  | .ack _ _ _ => 0x06
  | .streamSet _ _ _ => 0x07
  | .readerSet _ _ _ _ _ => 0x08
  | .tableSync _ _ _ _ => 0x09
  | .sweepCmd _ _ _ _ _ => 0x0A
  | .sweepDone _ _ _ _ => 0x0B
  | .sweepAbort _ => 0x0C
  | .pulse => 0x0D
  | .ringErr _ _ => 0x0E

/-- R183, R184: whether a SEQ has been applied already: it lies in the half of the number space behind the expected one. -/
def seqOld (exp seq : BitVec 16) : Bool := exp != seq && (exp - seq).toNat < 2 ^ 15

/-- R186, R188: the entries of a TABLE_SYNC written into a table from index `start` on. -/
def syncWords (start : Nat) : List (BitVec 32) → List (Nat × BitVec 32) → List (Nat × BitVec 32)
  | [], t => t
  | e :: es, t => syncWords (start + 1) es (alPut 0 t start e)

/-- R186, R188: the rotation entries of a TABLE_SYNC, each of domain and older generation bit, taken into a rotation list. -/
def syncRot (es : List (BitVec 32)) (t : List (Nat × Bool)) : List (Nat × Bool) :=
  es.foldl (fun l e => l.filter (fun r => r.1 != bitsOf e 15 0) ++ [(bitsOf e 15 0, bitAt e 16)]) t

/-- R612: the ring shadow at the attachment point of the core that is not active follows what passes die 2. -/
def shadowApply (m : RingMsg) (y : Standby) : Standby :=
  let y := { y with shadowSeq := m.seq }
  match m.body with
  | .streamSet st e _ => { y with shadowStreams := alPut 0 y.shadowStreams st e }
  | .readerSet mo op f l _ =>
    { y with shadowReaders := if op = 2 then readerClear mo y.shadowReaders else readerRange mo f l (op == 0) y.shadowReaders }
  | .rotate d g _ => { y with shadowRot := y.shadowRot.filter (fun r => r.1 != d) ++ [(d, !g.getLsbD 0)] }
  | .retire f l _ _ => { y with shadowRot := y.shadowRot.filter (fun r => r.1 < f || l < r.1) }
  | .tableSync k last start es =>
    let y := match k with
      | 0 => { y with shadowStreams := syncWords start es y.shadowStreams }
      | 1 => { y with shadowReaders := syncWords start es y.shadowReaders }
      | _ => { y with shadowRot := syncRot es y.shadowRot }
    if last && k == 2 then { y with shadowStale := false } else y
  | _ => y

/-- R37, R265, R562, R589: whether a management core runs the key service: one that runs and is not the boot core, or the boot core
itself until a released core has run it. -/
def ksUp (s : State) : Bool :=
  let others := (List.finRange 4).filter (fun c => c.toNat != s.boot.bootCore)
  others.any (fun c => s.boot.cores.get c == .running) ||
    (s.boot.cores.toList.getD s.boot.bootCore .reset == .running && !others.any (fun c => s.boot.cores.get c == .failed))

/-- R267: a stop has a message to insert: one in its second queue, or a KEY_REQ that the key service can take (R265). -/
def hasInsert (die : Nat) (s : State) : Bool :=
  !(s.dieN die).inReset && s.head.attached && (!(s.dieN die).sendQ.isEmpty || (!(s.dieN die).keyReqQ.isEmpty && ksUp s))

/-- R28, R181, R268: a message leaves a stop, applied or only passed. Where it `counts`, the SEQ the stop expects of the head moves on, and the
standby's ring shadow follows at die 2. -/
def passed (die : Nat) (m : RingMsg) (counts : Bool) (s : State) : State :=
  let n := if hasInsert die s then (s.dieN die).passing + 1 else 0
  let s := s.modDie die (fun d => { d with inbox := d.inbox.drop 1, passing := n })
  let s := onlyIf counts (State.modDie die (fun d => { d with headSeq := if d.inReset then d.headSeq else m.seq, expSeq := m.seq + 1 })) s
  let s := onlyIf (counts && die == 2 && !s.mir.site) (State.modSby (shadowApply m)) s
  ringOn die m s

/-- R184, R612: a head message is discarded, the fault queued, with the TYPE and SRC received, and RING_ERR sent with the SEQ expected; at die 2 the
standby's ring shadow is stale from then on. -/
def ringLoss (die type src : Nat) (s : State) : State :=
  let exp := (s.dieN die).expSeq
  let s := s.modDie die (fun d => { d with inbox := d.inbox.drop 1, replays := d.replays + 1 })
  let s := raise false kDie die fRingDamage 0 (exp.toNat + type * 2 ^ 16 + src * 2 ^ 24) s
  let s := onlyIf (die == 2 && !s.mir.site) (State.modSby (fun y =>
    { y with shadowStale := true, shadowStreams := [], shadowReaders := [], shadowRot := [] })) s
  stopSend die (.ringErr exp (stopUnit die)) s

/-- R184, R194: a gap in the head's SEQ. -/
def ringGap (die : Nat) (m : RingMsg) (s : State) : State :=
  ringLoss die m.body.code m.src (s.modDie die (fun d => { d with seqErr := satInc d.seqErr, seqRecent := true }))

/-- What the front of a die's inbox is: nothing, a message to pass over, a gap, or one for this die. -/
inductive Front where
  /-- no message waits -/
  | empty
  /-- the stop holds the passing traffic until it has inserted a message of its own (R268) -/
  | hold
  /-- not for this die, from another source than the head, applied before, or passed by the bypass (R30, R184) -/
  | pass (m : RingMsg) (counts : Bool)
  /-- the head's SEQ has a gap before it -/
  | gap (m : RingMsg)
  /-- the next message for this die -/
  | take (m : RingMsg)
deriving DecidableEq, Repr

/-- R185, R188: a message of TABLE_SYNC. -/
def RingBody.isSync : RingBody → Bool
  | .tableSync _ _ _ _ => true
  | _ => false

/-- R30, R183, R184, R268, R574: how a die's stop meets the first message of its inbox. Until a section that has left reset ends its bypass, its
stop takes nothing but the tables. -/
def ringFront (die : Nat) (s : State) : Front :=
  let d := s.dieN die
  match d.inbox with
  | [] => .empty
  | m :: _ =>
    if 8 ≤ d.passing && hasInsert die s then .hold
    else if m.src != 0xFE then .pass m false
    else if d.inReset then .pass m true
    else if seqOld d.expSeq m.seq then .pass m false
    else if m.seq != d.expSeq then .gap m
    else if addressed die m && (d.serveNow || m.body.isSync) then .take m
    else .pass m true

/-- R28, R30, R181, R184: messages that a stop only passes go on. `fuel` bounds them. A stop that discards words passes none (R645). -/
def skipPassed (die : Nat) : Nat → State → State
  | 0, s => s
  | fuel + 1, s =>
    if (s.dieN die).discarding then s
    else
      match ringFront die s with
      | .pass m counts => skipPassed die fuel (passed die m counts s)
      | _ => s

/-- R28: the stops in the order of the ring. -/
def ringOrder (s : State) : List Nat := (List.range 4).map (fun i => (firstStop s + i) % 4)

/-- R28, R181: the messages that the stops of a list only pass go on, stop after stop. -/
def ringFlow (ds : List Nat) (s : State) : State := forEach ds (fun d t => skipPassed d ((t.dieN d).inbox.length + 1) t) s

/-- R28: the stops between the head and a die's stop. -/
def upstream (die : Nat) (s : State) : List Nat := (ringOrder s).takeWhile (fun d => d != die)

/-- A message reaches a die section: those before it that only pass have gone on, at the stops before it and at its own; a gap is reported; and the
message is applied by `k` where it answers, which is for the command that names its type. Another type waits for its own command. A stop that is
discarding words loses the message (R645). -/
def receive (die : Fin 4) (k : RingMsg → Option (State → State)) (s : State) : State :=
  let s := ringFlow (upstream die.toNat s) s
  if (s.dieN die.toNat).discarding then s.modDie die.toNat (fun d => { d with inbox := d.inbox.drop 1 })
  else
  let s := ringFlow [die.toNat] s
  match ringFront die.toNat s with
  | .gap m => ringGap die.toNat m s
  | .take m =>
    match k m with
    | none => s
    | some f => f (passed die.toNat m true s)
  | _ => s

/-! ### Messages as bytes (R178 to R180, R186) -/

/-- R186: the payload of a message. -/
def RingBody.payload : RingBody → Bytes
  | .keyReq d w b => leBytes 2 d ++ [BitVec.ofNat 8 w.toNat, BitVec.ofNat 8 b.toNat]
  | .keyFill e => e.bytes
  | .keyNone d w b => leBytes 2 d ++ [BitVec.ofNat 8 w.toNat, BitVec.ofNat 8 b.toNat]
  | .rotate d n op => leBytes 2 d ++ zeros 2 ++ vecBytes 4 n ++ vecBytes 4 op
  | .retire f l o op => leBytes 2 f ++ leBytes 2 l ++ [BitVec.ofNat 8 o.toNat] ++ zeros 3 ++ vecBytes 4 op
  | .ack op u dup => vecBytes 4 op ++ [BitVec.ofNat 8 u, BitVec.ofNat 8 dup.toNat] ++ zeros 2
  | .streamSet st e op => leBytes 2 st ++ zeros 2 ++ vecBytes 4 e ++ vecBytes 4 op
  | .readerSet m o f l op => leBytes 2 m ++ [BitVec.ofNat 8 o, 0] ++ leBytes 2 f ++ leBytes 2 l ++ vecBytes 4 op
  | .tableSync k last start es =>
    [BitVec.ofNat 8 (k + bitNat 7 last), 0] ++ leBytes 2 start ++ leBytes 2 es.length ++ zeros 2 ++ es.flatMap (fun e => vecBytes 4 e)
  | .sweepCmd ds d f c id => [if ds then 2 else 1, 0] ++ leBytes 2 d ++ leBytes 6 f ++ zeros 2 ++ leBytes 8 c ++ vecBytes 4 id
  | .sweepDone id v f ab => vecBytes 4 id ++ leBytes 8 v ++ vecBytes 4 f ++ [BitVec.ofNat 8 ab.toNat] ++ zeros 3
  | .sweepAbort d => leBytes 2 d ++ zeros 2
  | .pulse => []
  | .ringErr e u => vecBytes 2 e ++ [BitVec.ofNat 8 u, 0]

/-- R178: the header of a message; LEN counts the words of its payload. -/
def RingMsg.header (m : RingMsg) : Bytes :=
  [BitVec.ofNat 8 m.body.code, BitVec.ofNat 8 m.dest, BitVec.ofNat 8 m.src, BitVec.ofNat 8 (m.body.payload.length / 4)] ++ vecBytes 2 m.seq ++ zeros 2

/-- R178, R180: a message as its bytes travel: header, payload and trailer. -/
def RingMsg.wire (m : RingMsg) : Bytes :=
  let hp := m.header ++ m.body.payload
  hp ++ vecBytes 4 (crc32c hp)

/-- R180, R184, R185: whether the bytes of a message as received fail their CRC, have another length than they say, or a reserved TYPE. -/
def wireDamaged (w : Bytes) : Bool :=
  let n := w.length - 4
  w.length < 12 || w.length != 12 + 4 * fieldLe w 3 1 || w.drop n != vecBytes 4 (crc32c (w.take n)) || fieldLe w 0 1 == 0 || 0x0F ≤ fieldLe w 0 1

/-- The guards of a die that take part in the ring: those not in reset (R30). -/
def liveGuards (die : Nat) (s : State) : List Nat := (guardsOf die).filter (fun g => !(s.guardN g).inReset)

/-! ### Key requests and answers -/

/-- KEY_REQ_RESEND (R137, R191): 50 µs have passed since the slot's latest request; it sends KEY_REQ again. -/
def execKeyReqResend (g : Fin 40) (slot : Nat) (s : State) : Out :=
  done (whenUp s fun s =>
    match (s.guard g).miss.slots[slot]? with
    | none => s
    | some sl =>
      if (s.guard g).inReset then s
      else askAgain g.toNat sl (reachTime (sl.asked + 50) s))

/-- KEY_FILL (R126, R130, R139, R140, R170, R187, R691): an entry arrives whole at the guard it is addressed to. -/
def execKeyFill (die : Fin 4) (s : State) : Out :=
  done (whenUp s (receive die (fun m => match m.body with
    | .keyFill e => some (fun t =>
        if (t.guardN m.dest).inReset || (t.guardN m.dest).fenced then t else settle (fillArrived (openOk t) m.dest e t))
    | _ => none)))

/-- R142, R155, R216: an access of the ingest unit that waits at a guard for a key in a range of domains, for which `p` holds of what it seeks, finds no
key. -/
def ingestNoKey (g first last : Nat) (p : Bool → Bool → Bool) (s : State) : State :=
  s.modIngest (fun u => { u with run := u.run.map (fun j =>
    if j.seeks.any (fun k => k.1 == g && first ≤ k.2.1 && k.2.1 ≤ last && p k.2.2.1 k.2.2.2) then { j with noKey := true } else j) })

/-- R141, R142, R216: a KEY_NONE at a guard: the parked requests of a domain without a live generation complete with E_NOKEY; a response
held for a generation that is not available completes as a tag failure. -/
def keyNoneAt (g domain : Nat) (want genbit : Bool) (s : State) : State :=
  let x := s.guardN g
  let s := s.modGuard g (fun x => { x with miss := { x.miss with
    slots := x.miss.slots.filter (fun sl => !(sl.domain == domain && sl.want == want && (!want || sl.genbit == genbit))) } })
  let s := forEach x.reqs (fun r t =>
    if r.domain != domain then t
    else match r.stage with
      | .parked => if want then t else fail g r stNoKey t
      | .retHeld _ side => if want && x.seeks r side == genbit then failTag g r 3 side t else t
      | _ => t) s
  let s := ingestNoKey g domain domain (fun w b => w == want && (!w || b == genbit)) s
  let s := onlyIf (!want) (State.modGuard g (fun x =>
    if x.cache.pinBusy && x.cache.pinReq == domain then
      { x with cache := { x.cache with pins := x.cache.pins.filter (fun p => p.domain != domain), pinBusy := false, pinResult := 3 } } else x)) s
  seekSlots g s

/-- KEY_NONE (R141, R142): a negative answer arrives at the guard it is addressed to. -/
def execKeyNone (die : Fin 4) (s : State) : Out :=
  done (whenUp s (receive die (fun m => match m.body with
    | .keyNone d w b => some (fun t => if (t.guardN m.dest).inReset then t else settle (keyNoneAt m.dest d w b t))
    | _ => none)))

/-- DEFERRED_FILL_INSTALL (R130, R139, R691): the oldest fill that waits for a victim is installed where one exists now, or discarded where its
entry has been cached since. -/
def execDeferredFillInstall (g : Fin 40) (s : State) : Out :=
  done (whenUp s fun s =>
    match (s.guard g).cache.waitFills with
    | [] => s
    | e :: es =>
      if ((s.guard g).room e.domain).isNone && ((s.guard g).lineGen e.domain e.gen).isNone then s
      else
        let s := s.modGuard g.toNat (fun x => { x with cache := { x.cache with waitFills := es } })
        settle (pinProgress g.toNat (seekSlots g.toNat (installFill (openOk s) g.toNat e s))))

/-! ### Pins (R131, R132, R190) -/

/-- R190: the offset of GUARD_KC_PIN. -/
def kcPinAddr (g : Fin 40) : Nat := guardAddr g 0x3024

/-- R131, R190: a pin of a domain that may be pinned begins: its reservation is taken as far as entries can be had and its missing
generations are sought. -/
def pinStart (g d : Nat) (s : State) : State :=
  let s := s.modGuard g (fun y =>
    let c := { y.cache with pinDom := BitVec.ofNat 13 d, pinReq := d, pinBit := true, pinBusy := true,
                            pins := if y.pinned d then y.cache.pins else y.cache.pins ++ [{ domain := d }] }
    Guard.takePins { y with cache := c })
  pinProgress g (loadPins g s)

/-- R132: a domain's pin ends. -/
def pinEnd (g d : Nat) (s : State) : State :=
  s.modGuard g (fun x => { x with cache := { x.cache with
    pinDom := BitVec.ofNat 13 d, pinBit := false, pinResult := 1, pins := x.cache.pins.filter (fun q => q.domain != d) } })

/-- KC_PIN (R131, R190): a privileged write of GUARD_KC_PIN with GO and PIN set. The domain's reservation is taken as far as
entries can be had and its missing generations are sought; BUSY reads 1 until the pin is complete. -/
def execKcPin (g : Fin 40) (p : Path) (value : BitVec 32) (s : State) : Out :=
  done (writeAt true p (kcPinAddr g) (fun s =>
    let x := s.guard g
    let d := bitsOf value 12 0
    let store (res : Option (BitVec 2)) (y : Guard) : Guard :=
      { y with cache := { y.cache with pinDom := BitVec.ofNat 13 d, pinBit := bitAt value 13, pinResult := res.getD y.cache.pinResult } }
    if !bitAt value 13 then s
    else if !bitAt value 14 then s.modGuard g.toNat (store none)
    else if x.cache.pinBusy then s
    else if 4352 ≤ d then s.modGuard g.toNat (store (some 3))
    else if !x.pinned d && 32 ≤ x.cache.pins.length then s.modGuard g.toNat (store (some 2))
    else pinStart g.toNat d s) s)

/-- KC_UNPIN (R132, R190): a privileged write of GUARD_KC_PIN with GO set and PIN clear ends the domain's pin. -/
def execKcUnpin (g : Fin 40) (p : Path) (value : BitVec 32) (s : State) : Out :=
  done (writeAt true p (kcPinAddr g) (fun s =>
    let d := bitsOf value 12 0
    let store (res : Option (BitVec 2)) (y : Guard) : Guard :=
      { y with cache := { y.cache with pinDom := BitVec.ofNat 13 d, pinBit := false, pinResult := res.getD y.cache.pinResult } }
    if bitAt value 13 then s
    else if !bitAt value 14 then s.modGuard g.toNat (store none)
    else if (s.guard g).cache.pinBusy then s
    else if 4352 ≤ d then s.modGuard g.toNat (store (some 3))
    else pinEnd g.toNat d s) s)

/-- PIN_RESERVATION_TAKE (R131): an entry has ceased to be referenced or been dropped: pins that lack entries take it, ahead of any
fill that waits. -/
def execPinReservationTake (g : Fin 40) (s : State) : Out :=
  done (whenUp s fun s => pinProgress g.toNat (s.modGuard g.toNat Guard.takePins))

/-- R190: what GUARD_KC_QUERY shows of a domain: NEWEST, OLDER, PINNED, ROTATING. -/
def Guard.queryOf (g : Guard) (d : Nat) : BitVec 4 :=
  let older := match g.olderBit d with
    | none => false
    | some b => (g.lineBit d b).isSome
  BitVec.ofNat 4 (bitNat 0 (g.newest d).isSome + bitNat 1 older + bitNat 2 (g.pinned d) + bitNat 3 (g.olderBit d).isSome)

/-- R190: GUARD_KC_QUERY [19:16]: zero until a domain has been written, and from then on what the cache holds of it. -/
def Guard.queryNow (g : Guard) : BitVec 4 := if g.cache.queried then g.queryOf g.cache.query.toNat else 0

/-- KC_QUERY (R190): a privileged write of GUARD_KC_QUERY: the result fields reflect the domain written. -/
def execKcQuery (g : Fin 40) (p : Path) (value : BitVec 32) (s : State) : Out :=
  done (writeAt true p (guardAddr g 0x3028) (State.modGuard g.toNat (fun x =>
    { x with cache := { x.cache with query := value.extractLsb' 0 13, queried := true } })) s)

/-- BIND_SCRUB (R127, R588): the guard rechecks the BIND of every valid entry; each that fails is invalidated with a fault. -/
def execBindScrub (g : Fin 40) (s : State) : Out :=
  done (whenUp s fun s =>
    let s := forEach (s.guard g).cache.lines (fun l t =>
      if l.entry.bindOk l.entry.domain || !(t.guard g).cache.lines.any (fun k => k.row == l.row) then t
      else bindFailed g.toNat l 1 l.entry.domain t) s
    settle (loadPins g.toNat (s.modGuard g.toNat (fun x => { x with cache := { x.cache with scrubs := x.cache.scrubs + 1 } }))))

/-- GUARD_MISS_CLEAR (R191): bit 0 clears GUARD_MISS_LAT_MAX, bit 1 GUARD_MISS_HOLD. -/
def execGuardMissClear (g : Fin 40) (p : Path) (value : BitVec 32) (s : State) : Out :=
  done (writeAt false p (guardAddr g 0x4034) (State.modGuard g.toNat (fun x =>
    { x with miss := { x.miss with latMax := if bitAt value 0 then 0 else x.miss.latMax, hold := if bitAt value 1 then 0 else x.miss.hold } })) s)

/-! ### ROTATE and RETIRE (R153 to R162, R692) -/

/-- R692: an operation applied before: it is not applied again; it is acknowledged as duplicate where the first copy has been
acknowledged, and otherwise one acknowledgement answers both. `none` where the operation is new. -/
def guardDuplicate (g : Nat) (op : BitVec 32) (s : State) : Option State :=
  match (s.guardN g).sweep.ops.find? (fun o => o.1 == op) with
  | none => none
  | some o => some (if o.2 then guardAck g op true s else s)

/-- R161, R162: a guard adds the domain to its rotation list and acknowledges. -/
def rotateAt (g domain : Nat) (newGen op : BitVec 32) (s : State) : State :=
  match guardDuplicate g op s with
  | some t => t
  | none =>
    let s := s.modGuard g (fun x => { x with rot := x.rot.filter (fun r => r.1 != domain) ++ [(domain, !newGen.getLsbD 0)],
                                             sweep := { x.sweep with ops := x.sweep.ops ++ [(op, true)] } })
    loadPins g (guardAck g op false s)

/-- ROTATE (R161, R162, R692): every guard and the stop of the die apply it. -/
def execRotate (die : Fin 4) (s : State) : Out :=
  done (whenUp s (receive die (fun m => match m.body with
    | .rotate d n op => some (fun t =>
        let t := t.modDie die.toNat (fun x => if x.ops.any (fun o => o.1 == op) then x else
          { x with rot := x.rot.filter (fun r => r.1 != d) ++ [(d, !n.getLsbD 0)], ops := x.ops ++ [(op, true)] })
        forEach (liveGuards die.toNat t) (fun g => rotateAt g d n op) t)
    | _ => none)))

/-- R155, R156: the entries of a domain that a RETIRE affects, seen before the domain leaves the rotation list. -/
def Guard.retires (g : Guard) (first last : Nat) (older : Bool) (e : Entry) : Bool :=
  first ≤ e.domain && e.domain ≤ last && (!older || g.isOlder e)

/-- R155 to R157, R142: a guard applies a RETIRE: affected entries are marked, the domains leave the rotation list, parked requests
of a domain that loses every generation complete with E_NOKEY, and held responses that sought an older generation fail. -/
def retireAt (g first last : Nat) (older : Bool) (op : BitVec 32) (s : State) : State :=
  match guardDuplicate g op s with
  | some t => t
  | none =>
    let inRange (d : Nat) : Bool := first ≤ d && d ≤ last
    let x := s.guardN g
    let s := s.modGuard g (fun y =>
      { y with cache := { y.cache with lines := mapIf (fun l => y.retires first last older l.entry) (fun l => { l with retiring := true }) y.cache.lines,
                                       waitFills := y.cache.waitFills.filter (fun e => !y.retires first last older e) },
               rot := y.rot.filter (fun r => !inRange r.1),
               sweep := { y.sweep with retires := y.sweep.retires ++ [{ opId := op, first := first, last := last, older := older }],
                                       ops := y.sweep.ops ++ [(op, false)] } })
    let s := forEach x.reqs (fun r t =>
      if !inRange r.domain then t
      else match r.stage with
        | .parked => if older then t else fail g r stNoKey t
        | .retHeld _ side =>
          if sideGen side != r.gen.getLsbD 0 && ((t.guardN g).lineBit r.domain (sideGen side)).isNone then failTag g r 3 side t else t
        | _ => t) s
    let s := ingestNoKey g first last (fun w _ => !older || w) s
    let s := onlyIf (!older) (State.modGuard g (fun y =>
      { y with miss := { y.miss with slots := y.miss.slots.filter (fun sl => !inRange sl.domain) },
               cache := { y.cache with pins := y.cache.pins.filter (fun p => !inRange p.domain),
                                       pinBusy := y.cache.pinBusy && !inRange y.cache.pinReq,
                                       pinResult := if y.cache.pinBusy && inRange y.cache.pinReq then 3 else y.cache.pinResult } })) s
    s.modGuard g (fun y => { y with miss := { y.miss with slots := y.miss.slots.filter (fun sl => !(inRange sl.domain && sl.want) ||
      y.reqs.any (fun r => r.domain == sl.domain && (match r.stage with
        | .retHeld _ _ => true
        | _ => false))) } })

/-- R157: retiring entries that are no longer referenced are dropped, and each RETIRE with none left is acknowledged. -/
def dropRetired (g : Nat) (s : State) : State :=
  let s := s.modGuard g (fun x => { x with cache := { x.cache with
    lines := x.cache.lines.filter (fun l => !(l.retiring && !x.referenced l.entry)) } })
  let x := s.guardN g
  let ended := x.sweep.retires.filter (fun p => !x.cache.lines.any (fun l => l.retiring && p.first ≤ l.entry.domain && l.entry.domain ≤ p.last))
  forEach ended (fun p t => guardAck g p.opId false (t.modGuard g (fun y => { y with sweep := { y.sweep with
    retires := y.sweep.retires.filter (fun q => q.opId != p.opId),
    ops := mapIf (fun o => o.1 == p.opId) (fun o => (o.1, true)) y.sweep.ops } }))) s

/-- RETIRE (R142, R153 to R157, R692): every guard and the stop of the die apply it. A guard with no affected entry referenced
acknowledges at once. -/
def execRetire (die : Fin 4) (s : State) : Out :=
  done (whenUp s (receive die (fun m => match m.body with
    | .retire f l o op => some (fun t =>
        let t := t.modDie die.toNat (fun x => if x.ops.any (fun q => q.1 == op) then x else
          { x with rot := x.rot.filter (fun r => r.1 < f || l < r.1), ops := x.ops ++ [(op, true)] })
        settle (forEach (liveGuards die.toNat t) (fun g u => dropRetired g (retireAt g f l o op u)) t))
    | _ => none)))

/-- RETIRING_ENTRY_DROP (R157): references have ended: retiring entries are dropped and RETIREs acknowledged. -/
def execRetiringEntryDrop (g : Fin 40) (s : State) : Out :=
  done (whenUp s fun s => onlyIf (!(s.guard g).inReset) (dropRetired g.toNat) s)

end Sys2Proof.Machine
end

