-- ==== Sys2Proof/Machine/GuardPort.lean ====
section
/-!
DEFINITION. The upstream and downstream ports of a guard (R65 to R90, R634 to R642): headers, data beats, requests handed
downstream, the controller's answers and the responses.
-/

namespace Sys2Proof.Machine
open Sys2Proof

/-- R70: the most requests a guard holds in flight. -/
def maxInFlight (g : Nat) : Nat := if isStack g then 3072 else 512

/-- R89: the read-modify-write places of a guard. -/
def rmwPlaces (g : Nat) : Nat := if isStack g then 32 else 8

/-- R65, R635: the slices of a guard's ports. -/
def slices (g : Nat) : Nat := if isStack g then 12 else 1

/-- R70, R638: the tenant's requests in flight: accepted and without a response taken. -/
def Guard.inFlight (g : Guard) : Nat :=
  (g.reqs.filter (fun r => r.src == .tenant && (match r.stage with
    | .discardOut _ => false
    | _ => true))).length + g.rsps.length + (if g.miss.heldHdr.isSome then 1 else 0)

/-- R71: whether a transaction tag is in flight. -/
def Guard.txnInFlight (g : Guard) (txn : BitVec 12) : Bool :=
  g.reqs.any (fun r => r.src == .tenant && r.txn == txn && (match r.stage with
    | .discardOut _ => false
    | _ => true)) || g.rsps.any (fun r => r.txn == txn) || g.miss.heldHdr.any (fun h => h.txn == txn)

/-- R89, R269: the read-modify-write places in use. A partial write whose data beat shows no enables has none, wherever it waits; one with all
enables is a full write by then. A partial write that ends in another way than the three of R269 (a check of R72, a fence, a lane) frees its place with its
response, and one refused at its header takes none (DESIGN CHOICE, log 61). -/
def Guard.placesUsed (g : Guard) : Nat :=
  (g.reqs.filter (fun r => r.op == .partialWrite && !(r.gotData && r.be == 0) && (match r.stage with
    | .writeOut _ => false
    | .fencedOut _ => false
    | .discardOut _ => false
    | _ => true))).length

/-- R114: the lanes in service in a guard. -/
def Guard.activeLanes (g : Guard) : Nat := (g.banks.map (fun b => popCount 9 b.active)).sum

/-- R92, R264: GUARD_THROTTLE has no line left in the present interval. -/
def Guard.atLimit (x : Guard) : Bool := x.page.limitNow != 0 && x.page.limitNow.toNat ≤ x.page.lineCount

/-- R47: a power limit has no tenant line left in the present interval. -/
def Guard.atPower (x : Guard) : Bool := x.page.powerLines.any (fun n => n ≤ x.page.lineCount)

/-- R89, R637: the port is held for a partial write header that finds no place. -/
def Guard.heldForPlace (g : Nat) (x : Guard) : Bool := x.placeWait && rmwPlaces g ≤ x.placesUsed

/-- R44, R47, R70, R89, R92, R134, R264, R560, R637: whether gu_req_ready reads 1. -/
def ready (g : Nat) (x : Guard) : Bool :=
  !x.inReset && (x.service == .serving || x.service == .lost || x.fenced) && !x.clkStopped && x.miss.heldHdr.isNone &&
  x.inFlight < maxInFlight g && !x.atLimit && (x.fenced || (0 < x.activeLanes && !x.atPower && !x.heldForPlace g))

/-- R47, R111, R263: gu_req_ready is held low by GUARD_THROTTLE, or for lack of lanes, of which a power limit leaves the tenants fewer (log 16). -/
def Guard.throttledNow (x : Guard) : Bool :=
  x.service == .serving && !x.fenced && !x.inReset && (x.atLimit || x.atPower || x.activeLanes == 0)

/-- R111: a port that is held low by throttling has been so in the last 1,024 lane cycles. -/
def Guard.noteThrottle (x : Guard) : Guard :=
  if x.throttledNow then { x with page := { x.page with throttledRecent := true } } else x

/-- R65: an operation code that is not reserved. -/
def opOf (op : BitVec 3) : Option ReqOp :=
  if op = 0 then some .read else if op = 1 then some .write else if op = 2 then some .partialWrite else none

/-- R72: a header refused with a status is answered; its data beat is still owed (R66). -/
def refuseHdr (g slice : Nat) (op : BitVec 3) (txn : BitVec 12) (status : Nat) (s : State) : State :=
  s.modGuard g (fun x =>
    let y := x.answer slice txn x.uid (op == 0 || 3 ≤ op.toNat) status 0 0
    { y with uid := y.uid + 1, wdWait := if op == 1 || op == 2 then y.wdWait ++ [(slice, 0)] else y.wdWait })

/-- R126: the entry that a header's lookup finds, where it fails BIND, is invalidated before the lookup counts as a miss. -/
def lookupBind (g d : Nat) (s : State) : State :=
  if (s.guardN g).retiringAll d then s
  else
    match (s.guardN g).newest d with
    | none => s
    | some l => if l.entry.bindOk d then s else bindFailed g l 0 d s

/-- R72, R126, R133, R134: a header past checks 1 to 5 is decided on its key, parked, or held in the header stage. -/
def acceptHdr (g slice : Nat) (op : ReqOp) (h : Hdr) (bound : Nat) (s : State) : State :=
  let s := lookupBind g h.domain.toNat s
  let x := s.guardN g
  let miss := (x.newest h.domain.toNat).isNone && !x.retiringAll h.domain.toNat
  if x.fenced then settle (refuseHdr g slice h.op h.txn stFenced s)
  else if miss && (!(x.hasSlot h.domain.toNat false false || x.miss.slots.length < 64) || 1024 ≤ x.parkedCount) then
    s.modGuard g (fun y => { y with miss := { y.miss with heldHdr := some { h with olderOk := (x.olderBit h.domain.toNat).isSome }, heldInterval := true },
                                    cache := { y.cache with misses := y.cache.misses + 1 } })
  else
    let r : Req := { uid := x.uid, op := op, slice := slice, stream := h.stream, bound := bound, domain := h.domain.toNat,
                     addr := h.addr, txn := h.txn, stage := .parked, olderOk := (x.olderBit h.domain.toNat).isSome }
    let s := s.modGuard g (fun y => { y with uid := y.uid + 1, reqs := y.reqs ++ [r],
                                             wdWait := if op = .read then y.wdWait else y.wdWait ++ [(slice, r.uid)] })
    settle (decideKey (openOk s) g r s)

/-- R72, R74: an accepted header is checked in the order of R72. -/
def checkHdr (g slice : Nat) (op : BitVec 3) (h : Hdr) (s : State) : State :=
  let x := s.guardN g
  let d := s.dieN (g / 10)
  if x.fenced then refuseHdr g slice op h.txn stFenced s
  else if x.txnInFlight h.txn then
    refuseHdr g slice op h.txn stOp (raise false kGuard (unitGuard g) fTxnReuse 0 h.txn.toNat s)
  else
    match opOf op with
    | none => refuseHdr g slice op h.txn stOp s
    | some o =>
      match rightsCheck d.streams d.readers op.toNat h.stream.toNat h.domain.toNat with
      | some st => refuseHdr g slice op h.txn st s
      | none => acceptHdr g slice o h (entryDomain (streamEntry d.streams h.stream.toNat)) s

/-- UPSTREAM_REQUEST (R65, R70 to R77, R89, R92, R133 to R136, R264, R636): a header presented on a slice; those that pass in one lane cycle come as
commands in ascending slice order. Where gu_req_ready reads
0 the header is not accepted and nothing changes but what PAGE_STATUS shows of a throttled port; a partial write header that finds no
place is held, and holds the whole port with it. -/
def execUpstreamRequest (g : Fin 40) (slice : Nat) (op : BitVec 3) (stream : BitVec 16) (domain : BitVec 13)
    (addr : BitVec 42) (txn : BitVec 12) (s : State) : Out :=
  done (whenUp s fun s =>
    let x := s.guard g
    if slice < slices g.toNat && ready g.toNat x && (x.fenced || (s.dieN (g.toNat / 10)).serveNow) then
      if op == 2 && rmwPlaces g.toNat ≤ x.placesUsed && !x.fenced then s.modGuard g.toNat (fun y => { y with placeWait := true })
      else
      let s := s.modGuard g.toNat (fun y => { y with placeWait := false, page := { y.page with lineCount := y.page.lineCount + 1 } })
      checkHdr g.toNat slice op { slice := slice, op := op, stream := stream, domain := domain, addr := addr, txn := txn } s
    else if slice < slices g.toNat && x.throttledNow then
      s.modGuard g.toNat (fun y => { y with page := { y.page with throttledRecent := true } })
    else s)

/-- WRITE_DATA_BEAT (R65, R66, R81, R85, R86): the data beat of the oldest header of the slice that owes one. It is accepted no
earlier than its header; the beat of a header already answered is taken and dropped. Its gu_wd_txn, which must equal the header's tag, is recorded and
decides nothing: R66 matches beats by their order (DEDUCED, log 61). -/
def execWriteDataBeat (g : Fin 40) (slice : Nat) (txn : BitVec 12) (data : BitVec 512) (be side : BitVec 64) (s : State) : Out :=
  done (whenUp s fun s =>
    let x := s.guard g
    match x.wdWait.find? (fun w => w.1 == slice) with
    | none => s
    | some w =>
      let s := s.modGuard g.toNat (fun y => { y with wdWait := dropFirst (fun v => v == w) y.wdWait })
      match x.reqs.find? (fun r => r.uid == w.2 && w.2 != 0) with
      | none => s
      | some r =>
        let r' := { r with data := data, be := if r.op = .write then BitVec.allOnes 64 else be, side := side, wdTxn := txn, gotData := true,
                           op := if r.op = .partialWrite ∧ be = BitVec.allOnes 64 then .write else r.op }
        let s := modReq g.toNat r.uid (fun _ => r') s
        match r.stage with
        | .needData => settle (proceedData g.toNat r' s)
        | _ => s)

/-- R90, R135: whether an earlier request of the same line keeps a request from the crossing: it has not been handed over, or
it is a read-modify-write whose write has not. -/
def Guard.blockedBy (r q : Req) : Bool :=
  q.uid < r.uid && q.addr == r.addr && (match q.stage with
    | .parked => true
    | .needData => true
    | .readQ => true
    | .writeQ _ _ => true
    | .readOut _ => q.op == .partialWrite
    | .retHeld _ _ => q.op == .partialWrite
    | _ => false)

/-- R640: the downstream tags in flight. -/
def Guard.tagsOut (g : Guard) : List Nat :=
  g.reqs.filterMap (fun r => match r.stage with
    | .readOut t => some t.toNat
    | .writeOut t => some t.toNat
    | .fencedOut t => some t.toNat
    | .discardOut t => some t.toNat
    | _ => none)

/-- R639: the downstream slice of a line. -/
def downSlice (g : Nat) (addr : BitVec 42) : Nat := if isStack g then addr.toNat % 12 else 0

/-- DOWNSTREAM_REQUEST_ISSUE (R68, R77, R81, R90, R639): the request with a given order of acceptance passes to the memory
controller, if nothing of R90 holds it back. The tag it carries is one not in flight; which one is left open (log 8). -/
def execDownstreamRequestIssue (g : Fin 40) (uid : Nat) (s : State) : Out :=
  done (whenUp s fun s =>
    let x := s.guard g
    match x.reqs.find? (fun r => r.uid == uid) with
    | none => s
    | some r =>
      if x.clkStopped || x.reqs.any (Guard.blockedBy r) || 4096 ≤ x.tagsOut.length then s
      else
        let tag := BitVec.ofNat 12 (freeFrom s.free 4096 x.tagsOut)
        let sl := downSlice g.toNat r.addr
        match r.stage with
        | .readQ =>
          (modReq g.toNat uid (fun q => { q with stage := .readOut tag }) s).used.modGuard g.toNat
            (fun y => { y with beat := { slice := sl, write := false, addr := r.addr, tag := tag } })
        | .writeQ data side =>
          (modReq g.toNat uid (fun q => { q with stage := .writeOut tag }) s).used.modGuard g.toNat
            (fun y => { y with beat := { slice := sl, write := true, addr := r.addr, tag := tag, data := data, side := side } })
        | _ => s)

/-- DOWNSTREAM_READ_RESPONSE (R76, R78 to R80, R86 to R88, R95 to R98, R142, R216, R244, R640): the controller's answer to a
read. An answer whose tag is not in flight, or whose request has already been completed, is discarded. -/
def execDownstreamReadResponse (g : Fin 40) (tag : BitVec 12) (err : Bool) (data : BitVec 512) (side : BitVec 64) (s : State) : Out :=
  done (whenUp s fun s =>
    let x := s.guard g
    match x.reqs.find? (fun r => r.stage == .readOut tag || r.stage == .discardOut tag) with
    | none => s
    | some r =>
      match r.stage with
      | .readOut _ =>
        settle (if err then respond g.toNat r stMem 0 side s else finishRead g.toNat r data side s)
      | _ => s.modGuard g.toNat (fun y => { y with reqs := y.reqs.filter (fun q => q.stage != .discardOut tag) }))

/-- DOWNSTREAM_WRITE_ACK (R76, R83, R108, R111): the controller's answer to a write. -/
def execDownstreamWriteAck (g : Fin 40) (tag : BitVec 12) (err : Bool) (s : State) : Out :=
  done (whenUp s fun s =>
    let x := s.guard g
    match x.reqs.find? (fun r => r.stage == .writeOut tag || r.stage == .fencedOut tag) with
    | none => s
    | some r =>
      match r.stage with
      | .fencedOut _ => fail g.toNat r stFenced s
      | _ =>
        if err then fail g.toNat r stMem s
        else
          let full := r.be == BitVec.allOnes 64
          let s := s.modGuard g.toNat (fun y => { y with page := { y.page with
            linesWritten := if full then y.page.linesWritten + 1 else y.page.linesWritten,
            rmwCount := if full then y.page.rmwCount else y.page.rmwCount + 1 } })
          fail g.toNat r stOk s)

/-- UPSTREAM_RESPONSE (R67, R83, R635, R638): the oldest ready response of a slice is presented and taken. -/
def execUpstreamResponse (g : Fin 40) (slice : Nat) (s : State) : Out :=
  done (whenUp s fun s =>
    match (s.guard g).rsps.find? (fun r => r.slice == slice) with
    | none => s
    | some r => s.modGuard g.toNat (fun y => { y with rsps := dropFirst (fun q => q == r) y.rsps, rspBeat := r }))

end Sys2Proof.Machine
end

