-- ==== Sys2Proof/Machine/Ring.lean ====
section
/-!
DEFINITION. The key ring (R28 to R34, R144 to R151, R178 to R188, R265 to R268, R577, R578, R645, R692): messages on their way,
the stops' tables, withdrawals, PULSE and the fingerprint.
-/

namespace Sys2Proof.Machine
open Sys2Proof

/-! ### The configuration fingerprint (R577) -/

/-- R577: the term of one table entry. -/
def fpTerm (kind : Byte) (index : Nat) (value : BitVec 32) : BitVec 32 := crc32c (kind :: leBytes 2 index ++ vecBytes 4 value)

/-- R577: the sum of a table of words. -/
def fpWords (kind : Byte) (t : List (Nat × BitVec 32)) : BitVec 32 := t.foldl (fun a p => a ^^^ fpTerm kind p.1 p.2) 0

/-- R577: the sum of a rotation list. -/
def fpRot (t : List (Nat × Bool)) : BitVec 32 :=
  t.foldl (fun a p => a ^^^ fpTerm 3 p.1 (BitVec.ofNat 32 (0x100 + bitNat 0 p.2))) 0

/-- R577: the fingerprint of the record that three tables, the life cycle and the grade make. -/
def fingerprint (streams readers : List (Nat × BitVec 32)) (rot : List (Nat × Bool)) (s : State) : BitVec 32 :=
  crc32c (vecBytes 4 (fpWords 1 streams) ++ vecBytes 4 (fpWords 2 readers) ++ vecBytes 4 (fpRot rot) ++
    [BitVec.ofNat 8 (lifeCycle s), s.fuse.grade, 3, 1])

/-- R577: a guard's fingerprint: its die section's tables and its own rotation list. -/
def guardFp (s : State) (g : Nat) : BitVec 32 :=
  fingerprint (s.dieN (g / 10)).streams (s.dieN (g / 10)).readers (s.guardN g).rot s

/-- R578: the reference fingerprint of the key service's own tables. -/
def referenceFp (s : State) : BitVec 32 := fingerprint s.ks.streams s.ks.readers s.ks.rot s

/-! ### The head and the stops (R180 to R184, R265 to R268, R645) -/

/-- R267: the local guard whose KEY_REQ a stop takes next: the first in turn that has one in the queue. -/
def Die.nextAsker (d : Die) (die : Nat) : Option Nat :=
  ((List.range 10).map (fun i => (d.krTurn + i) % 10)).find? (fun l => d.keyReqQ.any (fun m => m.src == 10 * die + l))

/-- R180: a message on its way from a stop takes the next SEQ of its source, the stop or one of its guards. -/
def numbered (die : Nat) (m : RingMsg) (s : State) : State :=
  if m.src < 0x50 then ringOn die { m with seq := (s.guardN m.src).seq } (s.modGuard m.src (fun g => { g with seq := g.seq + 1 }))
  else ringOn die { m with seq := (s.dieN die).seq } (s.modDie die (fun d => { d with seq := d.seq + 1 }))

/-- STOP_INSERT (R28, R180, R265, R267, R268): a stop puts its next message into the ring, which holds the passing traffic meanwhile: from the
second send queue first, and a KEY_REQ, of its guards in turn, only when the key service can take it. -/
def execStopInsert (die : Fin 4) (s : State) : Out :=
  done (whenUp s fun s =>
    let n := die.toNat
    let d := s.dies.get die
    if !hasInsert n s then s
    else
      let s := s.modDie n (fun x => { x with passing := 0 })
      match d.sendQ with
      | m :: q => numbered n m (s.modDie n (fun x => { x with sendQ := q }))
      | [] =>
        match d.nextAsker n with
        | none => s
        | some l =>
          match d.keyReqQ.find? (fun m => m.src == 10 * n + l) with
          | none => s
          | some m => numbered n m (s.modDie n (fun x =>
              { x with keyReqQ := dropFirst (fun q => q == m) x.keyReqQ, krTurn := (l + 1) % 10 })))

/-- R578: the PULSE about to be sent is the one a requested sample is latched at; the reference is that of the tables as they now stand. -/
def fpAtPulse (s : State) : State :=
  onlyIf (s.brup.fpSample && s.ks.fpRef.isNone) (fun s =>
    ((s.modKs (fun k => { k with fpRef := some (s.head.seq, referenceFp s), fpAt := s.timer })).modBrup (fun b => { b with fpSample := false })).modDies (fun _ d => { d with fpPend := !d.inReset })) s

/-- PULSE_INTERVAL (R183, R578): the head sends a PULSE. -/
def execPulseInterval (s : State) : Out :=
  done (whenUp s fun s => onlyIf s.head.attached (fun s => headAll .pulse (fpAtPulse s)) s)

/-- R560, R578: a guard serves. -/
def Guard.serves (g : Guard) : Bool := g.service == .serving && !g.fenced && !g.inReset

/-- R578: a stop latches the fingerprints of its serving guards, and zero for the others, at the PULSE of a sample. -/
def latchFp (die : Nat) (seq : BitVec 16) (s : State) : State :=
  let snaps := (guardsOf die).map (fun g => (g, if (s.guardN g).serves then guardFp s g else 0))
  (s.modBrup (fun b => { b with fpSeq := seq, fpSnap := snaps.foldl (fun v p => vmod v p.1 (fun _ => p.2)) b.fpSnap })).modDie die
    (fun d => { d with fpPend := false })

/-- R578, R581: the stops that a sample waits for: those in service that have not latched. -/
def fpLate (s : State) : List Nat := (List.range 4).filter (fun d => (s.dieN d).fpPend && !(s.dieN d).inReset)

/-- R578, R581: whether a requested sample has yet to be latched by every stop, which FP_SAMPLE shows. -/
def fpWaiting (s : State) : Bool := s.brup.fpSample || (s.ks.fpRef.isSome && !(fpLate s).isEmpty)

/-- PULSE (R183, R578): a PULSE is applied at a stop; the one sent for a sample latches its guards' fingerprints. -/
def execPulse (die : Fin 4) (s : State) : Out :=
  done (whenUp s (receive die (fun m => match m.body with
    | .pulse => some (fun t =>
        onlyIf ((t.dieN die.toNat).fpPend && t.ks.fpRef.any (fun r => r.1 == m.seq)) (latchFp die.toNat m.seq) t)
    | _ => none)))

/-- R184, R185: the head reports a ring fault of its own, with the SEQ it expected and the TYPE and SRC received. -/
def headDamage (exp : BitVec 16) (type src : Nat) (s : State) : State :=
  raise false kKeyService 0 fRingDamage 0 (exp.toNat + type * 2 ^ 16 + src * 2 ^ 24) s

/-- HEAD_MESSAGE_RETURN (R28, R180, R181): the oldest head message that has been round the ring is removed. `wire` is its bytes as they come
back; where they are not those it was sent with, the head reports a ring fault (log 61). -/
def execHeadMessageReturn (wire : Bytes) (s : State) : Out :=
  done (whenUp s fun s =>
    let s := ringFlow (ringOrder s) s
    match s.head.returning with
    | [] => s
    | m :: ms =>
      let s := s.modHead (fun h => { h with returning := ms })
      onlyIf (wire != m.wire) (headDamage m.seq (fieldLe wire 0 1) (fieldLe wire 2 1)) s)

/-- DAMAGED_MESSAGE (R180, R184, R185, R645): the message that arrives at a stop, or at the head, has reached it as the bytes `wire`, whose CRC
fails or whose type is reserved. It is discarded and counted, the fault queued, and words are discarded until the next idle word; for a message of
the head a stop also sends RING_ERR. A stop counts another source's message and passes it on, for the head to discard (log 61). -/
def execDamagedMessage (die : Option (Fin 4)) (wire : Bytes) (s : State) : Out :=
  done (whenUp s fun s =>
    if !wireDamaged wire then s
    else
      let type := fieldLe wire 0 1
      let src := fieldLe wire 2 1
      match die with
      | none =>
        let s := ringFlow (ringOrder s) s
        match s.head.inQ with
        | [] => s
        | m :: ms =>
          headDamage (alGet 0 s.head.srcSeq m.src) type src
            (s.modHead (fun h => { h with inQ := ms, damaged := satInc h.damaged, discarding := true }))
      | some d =>
        let n := d.toNat
        let s := ringFlow (upstream n s) s
        match (s.dieN n).inbox with
        | [] => s
        | m :: _ =>
          let seen (t : State) : State := t.modDie n (fun y => { y with crcErr := satInc y.crcErr, crcRecent := true })
          if (s.dieN n).inReset then s
          else if m.src != 0xFE then passed n m false (seen s)
          else ringLoss n type src ((seen s).modDie n (fun y => { y with discarding := true })))

/-- IDLE_WORD (R645): a receiver that was discarding words meets an idle word and expects a header again. -/
def execIdleWord (die : Option (Fin 4)) (s : State) : Out :=
  done (whenUp s fun s =>
    match die with
    | none => s.modHead (fun h => { h with discarding := false })
    | some d => s.modDie d.toNat (fun y => { y with discarding := false }))

/-! ### Tables and withdrawals (R144, R148 to R151, R188, R692) -/

/-- R65: the code of an operation. -/
def ReqOp.num : ReqOp → Nat
  | .read => 0
  | .write => 1
  | .partialWrite => 2

/-- R149 to R151: an accepted request that tables of streams and readers `d` refuse and those before the update, `old`, did not. -/
def nowRefused (old d : Die) (op : Nat) (stream domain : Nat) : Option Nat :=
  match rightsCheck d.streams d.readers op stream domain, rightsCheck old.streams old.readers op stream domain with
  | some st, none => some st
  | _, _ => none

/-- R134, R150: the header that a guard holds in its header stage is refused. -/
def refuseHeld (g : Nat) (h : Hdr) (st : Nat) (s : State) : State :=
  refuseHdr g h.slice h.op h.txn st (s.modGuard g (fun x => { x with miss := { x.miss with heldHdr := none } }))

/-- R149, R150: what a stop does when an update, made to tables `old`, may have withdrawn a right: parked requests, and a header held in a
header stage, that are now refused complete at once; the stop then waits for the other accepted requests that are now refused. The requests waited
for are the answer. -/
def withdrawIn (die : Nat) (old : Die) (s : State) : List (Nat × Nat) × State :=
  let d := s.dieN die
  (guardsOf die).foldl (fun acc g =>
    let held := match (acc.2.guardN g).miss.heldHdr with
      | none => acc
      | some h =>
        match nowRefused old d h.op.toNat h.stream.toNat h.domain.toNat with
        | none => acc
        | some st => (acc.1, refuseHeld g h st acc.2)
    (held.2.guardN g).reqs.foldl (fun a r =>
      if r.src != .tenant then a
      else
        match nowRefused old d r.op.num r.stream.toNat r.domain with
        | none => a
        | some st =>
          match r.stage with
          | .parked => (a.1, fail g r st a.2)
          | .discardOut _ => a
          | _ => (a.1 ++ [(g, r.uid)], a.2)) held) ([], s)

/-- R151: a guard still holds the accepted request with a given order of acceptance. -/
def Guard.holds (g : Guard) (uid : Nat) : Bool :=
  g.reqs.any (fun r => r.uid == uid && (match r.stage with
    | .discardOut _ => false
    | _ => true))

/-- R151, R192: the requests that a withdrawal still waits for. -/
def Withdrawal.live (w : Withdrawal) (s : State) : List (Nat × Nat) := w.waits.filter (fun p => (s.guardN p.1).holds p.2)

/-- R692: whether a stop has applied an operation before, and whether it has acknowledged it. -/
def Die.applied (d : Die) (op : BitVec 32) : Option Bool := (d.ops.find? (fun o => o.1 == op)).map Prod.snd

/-- R149, R151, R692: a stop applies a table update `f`: a repeated one is only acknowledged again; a new one is acknowledged once
no accepted request waits on it. -/
def applyUpdate (die : Nat) (op : BitVec 32) (reader : Bool) (f : Die → Die) (s : State) : State :=
  match (s.dieN die).applied op with
  | some true => stopSend die (.ack op (stopUnit die) true) s
  | some false => s
  | none =>
    let r := withdrawIn die (s.dieN die) (s.modDie die f)
    let s := r.2.modDie die (fun d => { d with ops := d.ops ++ [(op, r.1.isEmpty)] })
    if r.1.isEmpty then stopSend die (.ack op (stopUnit die) false) s
    else s.modDie die (fun d => { d with withdraws := d.withdraws ++ [{ opId := op, waits := r.1, reader := reader }] })

/-- STREAM_SET (R32, R144, R149 to R151, R692): a stop gives a stream its new entry. -/
def execStreamSet (die : Fin 4) (s : State) : Out :=
  done (whenUp s (receive die (fun m => match m.body with
    | .streamSet st e op => some (applyUpdate die.toNat op false (fun d => { d with streams := alPut 0 d.streams st e }))
    | _ => none)))

/-- READER_SET (R32, R148 to R151, R692): a stop adds to, removes from or clears a model domain's reader set. -/
def execReaderSet (die : Fin 4) (s : State) : Out :=
  done (whenUp s (receive die (fun m => match m.body with
    | .readerSet mo oper f l op => some (applyUpdate die.toNat op true (fun d =>
        { d with readers := if oper = 2 then readerClear mo d.readers else readerRange mo f l (oper == 0) d.readers }))
    | _ => none)))

/-- WITHDRAWAL_DRAINED (R151): withdrawals whose last accepted request has completed are acknowledged. -/
def execWithdrawalDrained (die : Fin 4) (s : State) : Out :=
  done (whenUp s fun s =>
    let drained (w : Withdrawal) : Bool := (w.live s).isEmpty
    let d := s.dies.get die
    if d.inReset then s
    else
      forEach (d.withdraws.filter drained) (fun w t => stopSend die.toNat (.ack w.opId (stopUnit die.toNat) false)
        (t.modDie die.toNat (fun x => { x with ops := mapIf (fun o => o.1 == w.opId) (fun o => (o.1, true)) x.ops })))
        (s.modDie die.toNat (fun x => { x with withdraws := x.withdraws.filter (fun w => !drained w) })))

/-- R33, R188, R573, R574: with all three kinds complete a section ends its bypass, and its guards out of reset copy the stop's rotation
list. -/
def tablesTaken (die : Nat) (s : State) : State :=
  let d := s.dieN die
  onlyIf (d.synced == 7) (fun s =>
    (s.modDie die (fun x => { x with serveNow := true })).modGuards (fun g x =>
      if g / 10 = die ∧ !d.serveNow ∧ !x.inReset then { x with rot := d.rot } else x)) s

/-- TABLE_SYNC (R33, R188, R692): a stop takes entries of one kind of table; the message with LAST is acknowledged with its SEQ and
KIND. With all three kinds complete SYNCED reads 1, unless one of them has timed out since SECTION_RESET (R693). -/
def execTableSync (die : Fin 4) (s : State) : Out :=
  done (whenUp s (receive die (fun m => match m.body with
    | .tableSync k last start es => some (fun t =>
        let t := t.modDie die.toNat (fun d => match k with
          | 0 => { d with streams := syncWords start es d.streams }
          | 1 => { d with readers := syncWords start es d.readers }
          | _ => { d with rot := syncRot es d.rot })
        if !last then t
        else stopSend die.toNat (.ack (BitVec.ofNat 32 (m.seq.toNat + k * 2 ^ 16)) (stopUnit die.toNat) false)
          (tablesTaken die.toNat (t.modDie die.toNat (fun d => { d with synced := if d.syncDead then 0 else setBit d.synced k true }))))
    | _ => none)))

end Sys2Proof.Machine
end

