-- ==== Sys2Proof/Machine/DmaOps.lean ====
section
/-!
DEFINITION. Work of the DMA initiator port (R630 to R633): its requests of one line each, at most 64 in flight, and the bytes read.
-/

namespace Sys2Proof.Machine
open Sys2Proof

/-- R633: whether a byte string reaches beyond node address 2^52 - 1. -/
def dmaBeyond (addr len : Nat) : Bool := 2 ^ 52 < addr + len

/-- R630: the lines that hold a byte string. -/
def dmaLineCount (addr len : Nat) : Nat := if len = 0 then 0 else (addr % 64 + len + 63) / 64

/-- The address and length of a work. -/
def Dma.work (d : Dma) (n : Nat) : Option (DmaWork × Nat × Nat) := (d.works.find? (fun w => w.1 == n)).map Prod.snd

/-- R630: the byte enables of line `k` of a string of bytes written. -/
def dmaEnables (addr len k : Nat) : BitVec 64 :=
  BitVec.ofNat 64 (((List.range 64).filter (fun i => addr ≤ addr / 64 * 64 + 64 * k + i && addr / 64 * 64 + 64 * k + i < addr + len)).map (2 ^ ·)).sum

/-- R630: the data of line `k` of a string of bytes written. -/
def dmaData (addr : Nat) (bs : Bytes) (k : Nat) : BitVec 512 := bytesVec 512 (slice (zeros (addr % 64) ++ bs) (64 * k) 64)

/-- R631: the next line of the first work with lines left is requested, under an identifier not in flight (log 8). -/
def dmaIssue (s : State) : State :=
  let d := s.dma
  if 64 ≤ d.flight.length then s
  else
    match d.works.find? (fun w => alGet 0 d.issued w.1 < dmaLineCount w.2.2.1 w.2.2.2) with
    | none => s
    | some (n, _, addr, len) =>
      let k := alGet 0 d.issued n
      let out := (d.wdata.find? (fun w => w.1 == n)).map Prod.snd
      let used := d.flight.map (fun f => f.1.toNat)
      let id := (((List.range 64).map (fun i => (s.free + i) % 64)).find? (fun x => !used.contains x)).getD 0
      (s.modDma (fun d => { d with
        issued := alSet d.issued n (k + 1), flight := d.flight ++ [(BitVec.ofNat 6 id, n, k, out.isSome)],
        beat := [(BitVec.ofNat 6 id, out.isSome, addr / 64 * 64 + 64 * k, dmaData addr (out.getD []) k,
                  if out.isSome then dmaEnables addr len k else BitVec.allOnes 64)] })).used

/-- R631: requests are issued while identifiers are free. -/
def dmaPump (s : State) : State := (List.range 64).foldl (fun t _ => dmaIssue t) s

/-- R630: work that reads a byte string starts; its number is the answer. -/
def dmaRead (k : DmaWork) (addr len : Nat) (s : State) : Nat × State :=
  let n := s.dma.nextWork
  (n, dmaPump (s.modDma (fun d => { d with works := d.works ++ [(n, k, addr, len)], nextWork := n + 1 })))

/-- R630: work that writes a byte string starts; its number is the answer. -/
def dmaWrite (k : DmaWork) (addr : Nat) (bs : Bytes) (s : State) : Nat × State :=
  let n := s.dma.nextWork
  (n, dmaPump (s.modDma (fun d => { d with works := d.works ++ [(n, k, addr, bs.length)], wdata := d.wdata ++ [(n, bs)], nextWork := n + 1 })))

/-- Whether every line of a work has been answered. -/
def dmaWhole (s : State) (n : Nat) : Bool :=
  match s.dma.work n with
  | none => false
  | some (_, addr, len) =>
    alGet 0 s.dma.issued n == dmaLineCount addr len && !s.dma.flight.any (fun f => f.2.1 == n)

/-- R630: the bytes a work has read, without those outside its string. -/
def dmaBytes (s : State) (n : Nat) : Bytes :=
  match s.dma.work n with
  | none => []
  | some (_, addr, len) =>
    let line (k : Nat) : Bytes := ((s.dma.lines.find? (fun l => l.1 == n && l.2.1 == k)).map (fun l => vecBytes 64 l.2.2)).getD (zeros 64)
    (((List.range (dmaLineCount addr len)).map line).flatten.drop (addr % 64)).take len

/-- A work ends; answers to its requests still in flight will be discarded. -/
def dmaEnd (n : Nat) (s : State) : State :=
  dmaPump (s.modDma (fun d => { d with works := d.works.filter (fun w => w.1 != n), issued := alDel d.issued n,
                                       lines := d.lines.filter (fun l => l.1 != n), wdata := d.wdata.filter (fun w => w.1 != n) }))

end Sys2Proof.Machine
end

