-- ==== Sys2Proof/Machine/Lattice.lean ====
section
/-!
DEFINITION. The lattice schemes that the spec names (R319, R320, R334, R350, R351): ML-DSA of FIPS 204 with sets 65 and 87, and ML-KEM of FIPS 203
with sets 768 and 1024. The standards are named by the spec, not restated in it (PRESUMED, log 9). A polynomial is the list of its 256 coefficients
modulo q, lowest degree first, or of its 256 values after the number-theoretic transform. A sampler that rejects reads a string long enough that it
never runs out in practice; where it would, the rest of the polynomial is zero.
-/

namespace Sys2Proof.Machine
open Sys2Proof

/-! ### Rings and their transforms -/

/-- The bits of a number, most significant first. -/
def bitsMsb (e : Nat) : List Bool := ((List.range (Nat.log2 e + 1)).map (fun i => e.testBit i)).reverse

/-- Modular exponentiation. -/
def modPow (b e m : Nat) : Nat := (bitsMsb e).foldl (fun a i => if i then a * a % m * b % m else a * a % m) (1 % m)

/-- Subtraction modulo `m`. -/
def modSub (a b m : Nat) : Nat := (a + m - b % m) % m

/-- A ring of polynomials modulo x^256 + 1 and q, with a root of unity and the number of times its transform splits. -/
structure Lat where
  /-- modulus -/
  q : Nat
  /-- root of unity of order 2 ^ (depth + 1) -/
  root : Nat
  /-- levels of the transform -/
  depth : Nat

/-- FIPS 204: the ring of ML-DSA. -/
def dsaRing : Lat := { q := 8380417, root := 1753, depth := 8 }

/-- FIPS 203: the ring of ML-KEM. -/
def kemRing : Lat := { q := 3329, root := 17, depth := 7 }

/-- A polynomial, or its transform. -/
abbrev Poly := List Nat

/-- The lowest `n` bits of a number in reverse order. -/
def bitRev : Nat → Nat → Nat
  | 0, _ => 0
  | n + 1, x => x % 2 * 2 ^ n + bitRev n (x / 2)

/-- A list cut or filled with zeros to 256 coefficients. -/
def poly256 (a : List Nat) : Poly := (a ++ List.replicate 256 0).take 256

/-- The sum of two polynomials. -/
def Lat.add (R : Lat) (a b : Poly) : Poly := List.zipWith (fun x y => (x + y) % R.q) a b

/-- The difference of two polynomials. -/
def Lat.sub (R : Lat) (a b : Poly) : Poly := List.zipWith (fun x y => modSub x y R.q) a b

/-- A multiple of a polynomial. -/
def Lat.scale (R : Lat) (c : Nat) (a : Poly) : Poly := a.map (fun x => c * x % R.q)

/-- The transform below one node of the tree of splittings: `n` levels are left, and node `k` has the children 2k and 2k + 1. -/
def Lat.split (R : Lat) : Nat → Nat → Poly → Poly
  | 0, _, a => a
  | n + 1, k, a =>
    let lo := a.take (a.length / 2)
    let hi := R.scale (modPow R.root (bitRev R.depth k) R.q) (a.drop (a.length / 2))
    R.split n (2 * k) (R.add lo hi) ++ R.split n (2 * k + 1) (R.sub lo hi)

/-- The inverse of the transform below one node, but for a factor 2 at each level. -/
def Lat.join (R : Lat) : Nat → Nat → Poly → Poly
  | 0, _, a => a
  | n + 1, k, a =>
    let l := R.join n (2 * k) (a.take (a.length / 2))
    let r := R.join n (2 * k + 1) (a.drop (a.length / 2))
    R.add l r ++ R.scale (modPow R.root (2 ^ (R.depth + 1) - bitRev R.depth k) R.q) (R.sub l r)

/-- The number-theoretic transform. -/
def Lat.ntt (R : Lat) (a : Poly) : Poly := R.split R.depth 1 a

/-- Its inverse. -/
def Lat.unntt (R : Lat) (a : Poly) : Poly := R.scale (modPow (2 ^ R.depth) (R.q - 2) R.q) (R.join R.depth 1 a)

/-- The product of two transforms of ML-KEM from pair `i` on: products modulo x^2 minus an odd power of the root. -/
def Lat.pairMul (R : Lat) : Nat → Poly → Poly → Poly
  | i, a :: b :: as, c :: d :: cs =>
    let g := modPow R.root (2 * bitRev R.depth i + 1) R.q
    (a * c + b * d % R.q * g) % R.q :: (a * d + b * c) % R.q :: R.pairMul (i + 1) as cs
  | _, _, _ => []

/-- The product of two transforms. -/
def Lat.mul (R : Lat) (a b : Poly) : Poly := if R.depth = 8 then List.zipWith (fun x y => x * y % R.q) a b else R.pairMul 0 a b

/-- The inner product of two vectors of transforms. -/
def Lat.dot (R : Lat) (a b : List Poly) : Poly := (List.zipWith R.mul a b).foldl R.add (List.replicate 256 0)

/-- The product of a matrix and a vector of transforms. -/
def Lat.apply (R : Lat) (m : List (List Poly)) (v : List Poly) : List Poly := m.map (fun row => R.dot row v)

/-- The distance of a residue from zero. -/
def Lat.size (R : Lat) (x : Nat) : Nat := Nat.min x (R.q - x)

/-- Whether every coefficient of a vector lies closer to zero than a bound. -/
def Lat.below (R : Lat) (b : Nat) (v : List Poly) : Bool := v.all (fun p => p.all (fun x => R.size x < b))

/-- Coefficients of `d` bits each as bytes, least significant first. -/
def packBits (d : Nat) (a : List Nat) : Bytes := leBytes (a.length * d / 8) (a.foldr (fun x n => x % 2 ^ d + 2 ^ d * n) 0)

/-- The lowest `n` digits of `d` bits. -/
def digits (d : Nat) : Nat → Nat → List Nat
  | 0, _ => []
  | n + 1, x => x % 2 ^ d :: digits d n (x / 2 ^ d)

/-- 256 coefficients of `d` bits each out of bytes. -/
def unpackBits (d : Nat) (bs : Bytes) : Poly := digits d 256 (leNat (bs.take (32 * d)))

/-- The polynomials of a string of `n`, `len` bytes each. -/
def eachOf (n len : Nat) (bs : Bytes) (f : Bytes → Poly) : List Poly := (List.range n).map (fun i => f (slice bs (len * i) len))

/-! ### ML-DSA (FIPS 204) -/

/-- FIPS 204: the parameters of a set. -/
structure DsaSet where
  /-- rows of the matrix -/
  k : Nat
  /-- columns of the matrix -/
  l : Nat
  /-- bound of a private coefficient -/
  eta : Nat
  /-- ones of a challenge -/
  tau : Nat
  /-- bytes of a challenge hash -/
  hash : Nat
  /-- ones of a hint at most -/
  omega : Nat

/-- FIPS 204: ML-DSA-65, or ML-DSA-87. -/
def dsaSet (set : Nat) : DsaSet :=
  if set = 65 then { k := 6, l := 5, eta := 4, tau := 49, hash := 48, omega := 55 }
  else { k := 8, l := 7, eta := 2, tau := 60, hash := 64, omega := 75 }

/-- FIPS 204: the bound β, by which a challenge times a private polynomial may shift a coefficient. -/
def DsaSet.beta (D : DsaSet) : Nat := D.tau * D.eta

/-- FIPS 204: γ1 of both sets. -/
def dsaGamma1 : Nat := 2 ^ 19

/-- FIPS 204: γ2 of both sets. -/
def dsaGamma2 : Nat := (dsaRing.q - 1) / 32

/-- FIPS 204: a polynomial of uniform residues (RejNTTPoly). -/
def dsaUniform (seed : Bytes) : Poly :=
  poly256 ((chunks 3 (shake128 seed 1008)).filterMap (fun c => if leNat c % 2 ^ 23 < dsaRing.q then some (leNat c % 2 ^ 23) else none))

/-- FIPS 204: a polynomial of small coefficients (RejBoundedPoly). -/
def dsaSmall (eta : Nat) (seed : Bytes) : Poly :=
  let nibbles := (shake256 seed 544).flatMap (fun b => [b.toNat % 16, b.toNat / 16])
  poly256 (nibbles.filterMap (fun x =>
    if eta = 2 then (if x < 15 then some (modSub 2 (x % 5) dsaRing.q) else none) else if x < 9 then some (modSub 4 x dsaRing.q) else none))

/-- FIPS 204: the matrix of a public seed, in transformed form (ExpandA). -/
def dsaMatrix (D : DsaSet) (rho : Bytes) : List (List Poly) :=
  (List.range D.k).map (fun r => (List.range D.l).map (fun c => dsaUniform (rho ++ leBytes 1 c ++ leBytes 1 r)))

/-- FIPS 204: the challenge of a hash: τ coefficients are one or minus one (SampleInBall). -/
def dsaBall (D : DsaSet) (hash : Bytes) : Poly :=
  let bs := shake256 hash 408
  let signs := leNat (bs.take 8)
  ((List.range D.tau).foldl (fun (a : Poly × Bytes) n =>
    let i := 256 - D.tau + n
    let rest := a.2.dropWhile (fun b => i < b.toNat)
    let j := (rest.headD 0).toNat
    ((a.1.set i (a.1.getD j 0)).set j (if signs.testBit n then dsaRing.q - 1 else 1), rest.tail)) (List.replicate 256 0, bs.drop 8)).1

/-- FIPS 204: the high part of a coefficient under Power2Round. -/
def dsaTop (x : Nat) : Nat := (x + 4095) / 8192

/-- FIPS 204: the high and low part of a coefficient (Decompose), the low one as a signed number. -/
def dsaParts (x : Nat) : Nat × Int :=
  let a := 2 * dsaGamma2
  let low : Int := if dsaGamma2 < x % a then ((x % a : Nat) : Int) - a else (x % a : Nat)
  if (x : Int) - low = dsaRing.q - 1 then (0, low - 1) else ((((x : Int) - low) / a).toNat, low)

/-- FIPS 204: the high part of a coefficient corrected by a hint bit (UseHint). -/
def dsaHinted (h : Bool) (x : Nat) : Nat :=
  let p := dsaParts x
  if !h then p.1 else if 0 < p.2 then (p.1 + 1) % 16 else (p.1 + 15) % 16

/-- FIPS 204: the hint of a vector as bytes (HintBitPack): the places of its ones, and where each polynomial's end. -/
def dsaHintPack (D : DsaSet) (h : List (List Bool)) : Bytes :=
  let places := h.map (fun p => (List.range 256).filter (fun i => p.getD i false))
  padTo D.omega (places.flatten.map (BitVec.ofNat 8)) ++
    (List.range D.k).map (fun i => BitVec.ofNat 8 ((places.take (i + 1)).map List.length).sum)

/-- FIPS 204: whether the hint encoding `y` of `k` polynomials and at most `w` ones is well formed, from polynomial `i` and position
`idx` on. -/
def hintFrom (w : Nat) (y : Bytes) (i idx : Nat) : Nat → Bool
  | 0 => ((y.take w).drop idx).all (· == 0)
  | n + 1 =>
    let stop := (y.getD (w + i) 0).toNat
    decide (idx ≤ stop ∧ stop ≤ w) &&
      (List.range (stop - idx - 1)).all (fun j => (y.getD (idx + j) 0).toNat < (y.getD (idx + j + 1) 0).toNat) && hintFrom w y (i + 1) stop n

/-- R334 order 10: whether the hint of an ML-DSA signature is well formed (set 65: 55 ones in 6 polynomials; set 87: 75 in 8). -/
def hintOk (set : Nat) (sig : Bytes) : Bool :=
  let D := dsaSet set
  hintFrom D.omega (sig.drop (sig.length - (D.omega + D.k))) 0 0 D.k

/-- FIPS 204: the hint bits of a well-formed encoding (HintBitUnpack). -/
def dsaHintUnpack (D : DsaSet) (y : Bytes) : List (List Bool) :=
  (List.range D.k).map (fun i =>
    let start := if i = 0 then 0 else (y.getD (D.omega + i - 1) 0).toNat
    let places := (y.take (y.getD (D.omega + i) 0).toNat).drop start
    (List.range 256).map (fun j => places.contains (BitVec.ofNat 8 j)))

/-- FIPS 204: a key pair's parts out of its 32-byte seed. -/
structure DsaKey where
  /-- public seed -/
  rho : Bytes
  /-- the secret K of hedged signing -/
  secret : Bytes
  /-- private vector s1 -/
  s1 : List Poly
  /-- private vector s2 -/
  s2 : List Poly
  /-- A s1 + s2 -/
  t : List Poly

/-- FIPS 204: ML-DSA.KeyGen_internal. -/
def dsaKey (D : DsaSet) (seed : Bytes) : DsaKey :=
  let h := shake256 (padTo 32 seed ++ leBytes 1 D.k ++ leBytes 1 D.l) 128
  let small (i : Nat) : Poly := dsaSmall D.eta (slice h 32 64 ++ leBytes 2 i)
  let s1 := (List.range D.l).map small
  let s2 := (List.range D.k).map (fun i => small (D.l + i))
  let a := dsaRing.apply (dsaMatrix D (h.take 32)) (s1.map dsaRing.ntt)
  { rho := h.take 32, secret := slice h 96 32, s1 := s1, s2 := s2, t := List.zipWith dsaRing.add (a.map dsaRing.unntt) s2 }

/-- FIPS 204: the public key of key pair parts (pkEncode). -/
def DsaKey.public (K : DsaKey) : Bytes := K.rho ++ K.t.flatMap (fun p => packBits 10 (p.map dsaTop))

/-- FIPS 204: the public key of a 32-byte seed, of 1,952 or 2,592 bytes (R320). -/
def mldsaPublic (set : Nat) (seed : Bytes) : Bytes := (dsaKey (dsaSet set) seed).public

/-- FIPS 204: the hash of a commitment's high parts with the representative μ. -/
def dsaChallenge (D : DsaSet) (mu : Bytes) (w1 : List Poly) : Bytes := shake256 (padTo 64 mu ++ w1.flatMap (packBits 4)) D.hash

/-- FIPS 204: one iteration of signing (ML-DSA.Sign_internal) with the counter κ: the signature, unless it is rejected. -/
def dsaTry (D : DsaSet) (K : DsaKey) (a : List (List Poly)) (mask mu : Bytes) (kappa : Nat) : Option Bytes :=
  let R := dsaRing
  let y := (List.range D.l).map (fun r =>
    (unpackBits 20 (shake256 (mask ++ leBytes 2 (kappa + r)) 640)).map (fun v => modSub dsaGamma1 v R.q))
  let w := (R.apply a (y.map R.ntt)).map R.unntt
  let hash := dsaChallenge D mu (w.map (fun p => p.map (fun x => (dsaParts x).1)))
  let c := R.ntt (dsaBall D hash)
  let times (v : List Poly) : List Poly := v.map (fun p => R.unntt (R.mul c (R.ntt p)))
  let z := List.zipWith R.add y (times K.s1)
  let low := List.zipWith R.sub w (times K.s2)
  let ct := times (K.t.map (fun p => p.map (fun x => modSub x (8192 * dsaTop x) R.q)))
  let hint := List.zipWith (fun p q => List.zipWith (fun x y => (dsaParts x).1 != (dsaParts ((x + y) % R.q)).1) p q) low ct
  if !R.below (dsaGamma1 - D.beta) z || low.any (fun p => p.any (fun x => dsaGamma2 - D.beta ≤ (dsaParts x).2.natAbs)) || !R.below dsaGamma2 ct ||
      D.omega < (hint.flatten.filter id).length then none
  else some (hash ++ z.flatMap (fun p => packBits 20 (p.map (fun x => modSub dsaGamma1 x R.q))) ++ dsaHintPack D hint)

/-- FIPS 204, R351: the rejection loop of signing from iteration `i` on: the signature, and the iterations it took. `fuel` bounds them, as FIPS 204
lets an implementation do. -/
def dsaLoop (D : DsaSet) (K : DsaKey) (a : List (List Poly)) (mask mu : Bytes) : Nat → Nat → Bytes × Nat
  | 0, i => ([], i)
  | fuel + 1, i =>
    match dsaTry D K a mask mu (D.l * i) with
    | some s => (s, i + 1)
    | none => dsaLoop D K a mask mu fuel (i + 1)

/-- FIPS 204: a signature's length, 3,309 or 4,627 bytes (R320). -/
def dsaSigLen (set : Nat) : Nat := if set = 65 then 3309 else 4627

/-- FIPS 204, R351: signing of a representative μ under a 32-byte seed with 32 random bytes: the signature and the iterations it took. -/
def dsaRun (set : Nat) (seed mu rnd : Bytes) : Bytes × Nat :=
  let D := dsaSet set
  let K := dsaKey D seed
  dsaLoop D K (dsaMatrix D K.rho) (shake256 (K.secret ++ padTo 32 rnd ++ padTo 64 mu) 64) mu 814 0

/-- FIPS 204, R351: the signature. -/
def mldsaSign (set : Nat) (seed mu rnd : Bytes) : Bytes := padTo (dsaSigLen set) (dsaRun set seed mu rnd).1

/-- R351, R364: the iterations that signing takes. -/
def mldsaTries (set : Nat) (seed mu rnd : Bytes) : Nat := (dsaRun set seed mu rnd).2

/-- FIPS 204: ML-DSA.Verify_internal of a representative μ. -/
def mldsaVerify (set : Nat) (pub mu sig : Bytes) : Bool :=
  let D := dsaSet set
  let R := dsaRing
  let hash := sig.take D.hash
  let z := eachOf D.l 640 (sig.drop D.hash) (fun bs => (unpackBits 20 bs).map (fun v => modSub dsaGamma1 v R.q))
  let hint := dsaHintUnpack D (sig.drop (D.hash + 640 * D.l))
  let c := R.ntt (dsaBall D hash)
  let t := eachOf D.k 320 (pub.drop 32) (fun bs => R.ntt (R.scale 8192 (unpackBits 10 bs)))
  let w := (List.zipWith R.sub (R.apply (dsaMatrix D (pub.take 32)) (z.map R.ntt)) (t.map (R.mul c))).map R.unntt
  let w1 := List.zipWith (fun h p => List.zipWith dsaHinted h p) hint w
  hintOk set sig && R.below (dsaGamma1 - D.beta) z && hash == dsaChallenge D mu w1

/-! ### ML-KEM (FIPS 203) -/

/-- FIPS 203: the parameters of a set. -/
structure KemSet where
  /-- rows of the matrix -/
  k : Nat
  /-- bits of a compressed coefficient of u -/
  du : Nat
  /-- bits of a compressed coefficient of v -/
  dv : Nat

/-- FIPS 203: ML-KEM-768, or ML-KEM-1024. -/
def kemSet (set : Nat) : KemSet := if set = 768 then { k := 3, du := 10, dv := 4 } else { k := 4, du := 11, dv := 5 }

/-- FIPS 203: a polynomial of uniform residues (SampleNTT). -/
def kemUniform (seed : Bytes) : Poly :=
  poly256 (((chunks 3 (shake128 seed 1008)).flatMap (fun c => [leNat c % 4096, leNat c / 4096])).filter (· < kemRing.q))

/-- FIPS 203: a polynomial of centred binomial coefficients of parameter 2, out of a seed and a counter. -/
def kemNoise (seed : Bytes) (n : Nat) : Poly :=
  (digits 4 256 (leNat (shake256 (seed ++ leBytes 1 n) 128))).map (fun x => modSub (x % 2 + x / 2 % 2) (x / 4 % 2 + x / 8) kemRing.q)

/-- FIPS 203: a coefficient compressed to `d` bits. -/
def kemShrink (d x : Nat) : Nat := (2 ^ (d + 1) * x + kemRing.q) / (2 * kemRing.q) % 2 ^ d

/-- FIPS 203: a coefficient of `d` bits decompressed. -/
def kemGrow (d y : Nat) : Nat := (2 * kemRing.q * y + 2 ^ d) / 2 ^ (d + 1)

/-- FIPS 203: the matrix of a public seed, in transformed form, or its transpose. -/
def kemMatrix (k : Nat) (rho : Bytes) (transposed : Bool) : List (List Poly) :=
  (List.range k).map (fun i => (List.range k).map (fun j =>
    kemUniform (rho ++ (if transposed then leBytes 1 i ++ leBytes 1 j else leBytes 1 j ++ leBytes 1 i))))

/-- FIPS 203: the private vector of a seed d, in transformed form, and the encapsulation key (K-PKE.KeyGen). -/
def kemKey (S : KemSet) (d : Bytes) : List Poly × Bytes :=
  let h := sha3_512 (padTo 32 d ++ leBytes 1 S.k)
  let noise (n : Nat) : Poly := kemRing.ntt (kemNoise (h.drop 32) n)
  let s := (List.range S.k).map noise
  let t := List.zipWith kemRing.add (kemRing.apply (kemMatrix S.k (h.take 32) false) s) ((List.range S.k).map (fun i => noise (S.k + i)))
  (s, t.flatMap (packBits 12) ++ h.take 32)

/-- FIPS 203: the encapsulation key of a 64-byte seed d, z, of 1,184 or 1,568 bytes (R320). -/
def mlkemPublic (set : Nat) (seed : Bytes) : Bytes := (kemKey (kemSet set) (seed.take 32)).2

/-- FIPS 203: the encryption of 32 bytes under an encapsulation key with 32 random bytes (K-PKE.Encrypt). -/
def kemEncrypt (S : KemSet) (ek m r : Bytes) : Bytes :=
  let R := kemRing
  let t := eachOf S.k 384 ek (fun bs => (unpackBits 12 bs).map (· % R.q))
  let y := (List.range S.k).map (fun n => R.ntt (kemNoise r n))
  let u := List.zipWith R.add ((R.apply (kemMatrix S.k (slice ek (384 * S.k) 32) true) y).map R.unntt)
    ((List.range S.k).map (fun n => kemNoise r (S.k + n)))
  let v := R.add (R.add (R.unntt (R.dot t y)) (kemNoise r (2 * S.k))) ((unpackBits 1 m).map (kemGrow 1))
  u.flatMap (fun p => packBits S.du (p.map (kemShrink S.du))) ++ packBits S.dv (v.map (kemShrink S.dv))

/-- FIPS 203: the decryption of a ciphertext under a private vector (K-PKE.Decrypt). -/
def kemDecrypt (S : KemSet) (s : List Poly) (c : Bytes) : Bytes :=
  let R := kemRing
  let u := eachOf S.k (32 * S.du) c (fun bs => R.ntt ((unpackBits S.du bs).map (kemGrow S.du)))
  let v := (unpackBits S.dv (c.drop (32 * S.du * S.k))).map (kemGrow S.dv)
  packBits 1 ((R.sub v (R.unntt (R.dot s u))).map (kemShrink 1))

/-- FIPS 203: the shared secret and the encryption's random bytes of a message under an encapsulation key. -/
def kemSecrets (ek m : Bytes) : Bytes := sha3_512 (padTo 32 m ++ sha3_256 ek)

/-- FIPS 203: the ciphertext of an encapsulation with 32 random bytes, of 1,088 or 1,568 bytes (R320). -/
def mlkemCipher (set : Nat) (ek m : Bytes) : Bytes := kemEncrypt (kemSet set) ek (padTo 32 m) ((kemSecrets ek m).drop 32)

/-- FIPS 203: the shared secret of an encapsulation with 32 random bytes. -/
def mlkemSecret (_set : Nat) (ek m : Bytes) : Bytes := (kemSecrets ek m).take 32

/-- FIPS 203, R334, R350: decapsulation of a ciphertext under a 64-byte seed d, z, with implicit rejection. -/
def mlkemDecaps (set : Nat) (seed c : Bytes) : Bytes :=
  let S := kemSet set
  let K := kemKey S (seed.take 32)
  let m := kemDecrypt S K.1 c
  if mlkemCipher set K.2 m = c then mlkemSecret set K.2 m else shake256 (slice seed 32 32 ++ c) 32

end Sys2Proof.Machine
end

