-- ==== Sys2Proof/Machine/Ec.lean ====
section
/-!
DEFINITION. Elliptic curve arithmetic (R319, R321 to R323, R333): short Weierstrass curves over a prime field, ECDSA of FIPS 186-5,
Ed25519 of RFC 8032, and hybrid signatures. The standards are named by the spec, not restated in it (PRESUMED, log 6).
-/

namespace Sys2Proof.Machine
open Sys2Proof

/-- The inverse modulo a prime. -/
def modInv (a p : Nat) : Nat := modPow (a % p) (p - 2) p

/-- A short Weierstrass curve: modulus, coefficients, generator, order. -/
structure EcCurve where
  /-- field modulus -/
  p : Nat
  /-- coefficient a -/
  a : Nat
  /-- coefficient b -/
  b : Nat
  /-- X of the generator -/
  gx : Nat
  /-- Y of the generator -/
  gy : Nat
  /-- order -/
  n : Nat
deriving DecidableEq, Repr

/-- A point of a curve; none is the point at infinity. -/
abbrev EcPoint := Option (Nat × Nat)

/-- Whether coordinates satisfy the curve equation. -/
def EcCurve.on (c : EcCurve) (x y : Nat) : Bool := y * y % c.p == (x * x % c.p * x + c.a * x + c.b) % c.p

/-- The sum of two points. -/
def EcCurve.add (c : EcCurve) (P Q : EcPoint) : EcPoint :=
  match P, Q with
  | none, q => q
  | q, none => q
  | some (x1, y1), some (x2, y2) =>
    if x1 % c.p = x2 % c.p ∧ (y1 + y2) % c.p = 0 then none
    else
      let l := if x1 % c.p = x2 % c.p then (3 * x1 * x1 + c.a) % c.p * modInv (2 * y1) c.p % c.p
               else modSub y2 y1 c.p * modInv (modSub x2 x1 c.p) c.p % c.p
      let x3 := modSub (l * l) (x1 + x2) c.p
      some (x3, modSub (l * modSub x1 x3 c.p) y1 c.p)

/-- A multiple of a point. -/
def EcCurve.mul (c : EcCurve) (k : Nat) (P : EcPoint) : EcPoint :=
  if k = 0 then none
  else (bitsMsb k).foldl (fun a i => let d := c.add a a; if i then c.add d P else d) none

/-- The generator. -/
def EcCurve.g (c : EcCurve) : EcPoint := some (c.gx, c.gy)

/-- FIPS 186-5: the integer of a hash: its leftmost bits, as many as the order has. -/
def EcCurve.hashInt (c : EcCurve) (h : Bytes) : Nat :=
  let bits := Nat.log2 c.n + 1
  if bits < 8 * h.length then beNat h / 2 ^ (8 * h.length - bits) else beNat h

/-- FIPS 186-5: an ECDSA signature with the secret number `k`. -/
def EcCurve.sign (c : EcCurve) (d k : Nat) (h : Bytes) : Nat × Nat :=
  match c.mul k c.g with
  | none => (0, 0)
  | some (x, _) => (x % c.n, modInv k c.n * ((c.hashInt h + x % c.n * d) % c.n) % c.n)

/-- FIPS 186-5: ECDSA verification. -/
def EcCurve.verify (c : EcCurve) (Q : Nat × Nat) (h : Bytes) (r s : Nat) : Bool :=
  if r = 0 ∨ s = 0 ∨ c.n ≤ r ∨ c.n ≤ s then false
  else
    let w := modInv s c.n
    match c.add (c.mul (c.hashInt h * w % c.n) c.g) (c.mul (r * w % c.n) (some Q)) with
    | none => false
    | some (x, _) => x % c.n == r

/-- NIST P-256. -/
def p256 : EcCurve :=
  { p := 0xffffffff00000001000000000000000000000000ffffffffffffffffffffffff
    a := 0xffffffff00000001000000000000000000000000fffffffffffffffffffffffc
    b := 0x5ac635d8aa3a93e7b3ebbd55769886bc651d06b0cc53b0f63bce3c3e27d2604b
    gx := 0x6b17d1f2e12c4247f8bce6e563a440f277037d812deb33a0f4a13945d898c296
    gy := 0x4fe342e2fe1a7f9b8ee7eb4a7c0f9e162bce33576b315ececbb6406837bf51f5
    n := 0xffffffff00000000ffffffffffffffffbce6faada7179e84f3b9cac2fc632551 }

/-- NIST P-384. -/
def p384 : EcCurve :=
  { p := 0xfffffffffffffffffffffffffffffffffffffffffffffffffffffffffffffffeffffffff0000000000000000ffffffff
    a := 0xfffffffffffffffffffffffffffffffffffffffffffffffffffffffffffffffeffffffff0000000000000000fffffffc
    b := 0xb3312fa7e23ee7e4988e056be3f82d19181d9c6efe8141120314088f5013875ac656398d8a2ed19d2a85c8edd3ec2aef
    gx := 0xaa87ca22be8b05378eb1c71ef320ad746e1d3b628ba79b9859f741e082542a385502f25dbf55296c3a545e3872760ab7
    gy := 0x3617de4a96262c6f5d9e98bf9292dc29f8f41dbd289a147ce9da3113b5f0b8c00a60b1ce1d7e819d7a431d7c90ea0e5f
    n := 0xffffffffffffffffffffffffffffffffffffffffffffffffc7634d81f4372ddf581a0db248b0a77aecec196accc52973 }

/-- NIST P-521. -/
def p521 : EcCurve :=
  { p := 2 ^ 521 - 1
    a := 2 ^ 521 - 4
    b := 0x0051953eb9618e1c9a1f929a21a0b68540eea2da725b99b315f3b8b489918ef109e156193951ec7e937b1652c0bd3bb1bf073573df883d2c34f1ef451fd46b503f00
    gx := 0x00c6858e06b70404e9cd9e3ecb662395b4429c648139053fb521f828af606b4d3dbaa14b5e77efe75928fe1dc127a2ffa8de3348b3c1856a429bf97e7e31c2e5bd66
    gy := 0x011839296a789a3bc0045c8a5fb42c7d1bd998f54449579b446817afbd17273e662c97ee72995ef42640c550b9013fad0761353c7086a272c24088be94769fd16650
    n := 0x01fffffffffffffffffffffffffffffffffffffffffffffffffffffffffffffffffa51868783bf2f966b7fcc0148f709a5d03bb5c9b8899c47aebb6fb71e91386409 }

/-- SEC 1: an uncompressed point of coordinates of `n` bytes. -/
def pointBytes (n : Nat) (P : EcPoint) : Bytes :=
  match P with
  | none => zeros (2 * n + 1)
  | some (x, y) => [0x04#8] ++ beBytes n x ++ beBytes n y

/-- The coordinates of an uncompressed point. -/
def pointOf (n : Nat) (bs : Bytes) : Nat × Nat := (fieldBe bs 1 n, fieldBe bs (1 + n) n)

/-! ### Ed25519 (RFC 8032) -/

/-- The field prime. -/
def edP : Nat := 2 ^ 255 - 19
/-- The group order L. -/
def edL : Nat := 2 ^ 252 + 27742317777372353535851937790883648493
/-- The curve constant d. -/
def edD : Nat := edP - 121665 * modInv 121666 edP % edP

/-- The sum of two points of the Edwards curve. -/
def edAdd (P Q : Nat × Nat) : Nat × Nat :=
  let t := edD * (P.1 * Q.1 % edP) % edP * (P.2 * Q.2 % edP) % edP
  ((P.1 * Q.2 + Q.1 * P.2) % edP * modInv (1 + t) edP % edP, (P.2 * Q.2 + P.1 * Q.1) % edP * modInv (modSub 1 t edP) edP % edP)

/-- A multiple of a point of the Edwards curve. -/
def edMul (k : Nat) (P : Nat × Nat) : Nat × Nat :=
  if k = 0 then (0, 1) else (bitsMsb k).foldl (fun a i => let d := edAdd a a; if i then edAdd d P else d) (0, 1)

/-- RFC 8032: the encoding of a point. -/
def edEncode (P : Nat × Nat) : Bytes := leBytes 32 (P.2 + P.1 % 2 * 2 ^ 255)

/-- RFC 8032: the point of an encoding whose y lies below p; none where it does not decode. -/
def edDecode (bs : Bytes) : Option (Nat × Nat) :=
  let v := leNat (bs.take 32)
  let y := v % 2 ^ 255
  let sign := v / 2 ^ 255 % 2
  if edP ≤ y then none
  else
    let u := modSub (y * y) 1 edP
    let w := (edD * (y * y % edP) + 1) % edP
    let w3 := w * w % edP * w % edP
    let x := u * w3 % edP * modPow (u * (w3 * w3 % edP * w % edP) % edP) ((edP - 5) / 8) edP % edP
    let x := if w * (x * x % edP) % edP = u then some x
             else if w * (x * x % edP) % edP = (edP - u) % edP then some (x * modPow 2 ((edP - 1) / 4) edP % edP) else none
    match x with
    | none => none
    | some x => if x = 0 ∧ sign = 1 then none else some (if x % 2 = sign then x else edP - x, y)

/-- The base point. -/
def edB : Nat × Nat := (edDecode (leBytes 32 (4 * modInv 5 edP % edP))).getD (0, 1)

/-- RFC 8032: the clamped scalar and prefix of a 32-byte private key. -/
def edSecret (key : Bytes) : Nat × Bytes :=
  let h := sha512 key
  let a := leNat (h.take 32)
  (a % 2 ^ 254 / 8 * 8 + 2 ^ 254, h.drop 32)

/-- RFC 8032: the public key. -/
def edPublic (key : Bytes) : Bytes := edEncode (edMul (edSecret key).1 edB)

/-- RFC 8032: an Ed25519 signature. -/
def edSign (key msg : Bytes) : Bytes :=
  let s := edSecret key
  let r := leNat (sha512 (s.2 ++ msg)) % edL
  let R := edEncode (edMul r edB)
  let k := leNat (sha512 (R ++ edPublic key ++ msg)) % edL
  R ++ leBytes 32 ((r + k * s.1) % edL)

/-- RFC 8032: Ed25519 verification of a decoded public key and R. -/
def edVerify (pub msg sig : Bytes) : Bool :=
  match edDecode pub, edDecode (sig.take 32) with
  | some A, some R =>
    let S := leNat (slice sig 32 32)
    let k := leNat (sha512 (sig.take 32 ++ pub ++ msg)) % edL
    edMul S edB == edAdd R (edMul k A)
  | _, _ => false

/-! ### Hybrid signatures (R322) -/

/-- R322: the constant C. -/
def hybC : Bytes := ascii "KFL-HYB1"

/-- R322: the hash E of a message. -/
def hybE (msg : Bytes) : Bytes := sha384 (hybC ++ msg)

/-- R322: the representative μ of a message under the ML-DSA-87 half of a public key. -/
def hybMu (pq msg : Bytes) : Bytes := shake256 (shake256 pq 64 ++ [0x00#8, 0x08#8] ++ hybC ++ msg) 64

/-- R322: a hybrid signature of a representative pair under a P-384 scalar, an ML-DSA-87 seed, an ECDSA secret number and 32 random
bytes. -/
def hybSignRep (d k : Nat) (seed rnd e mu : Bytes) : Bytes :=
  let rs := p384.sign d k e
  beBytes 48 rs.1 ++ beBytes 48 rs.2 ++ mldsaSign 87 seed mu rnd

/-- R334 orders 7 and 8: why an uncompressed point with coordinates of `n` bytes is refused on a curve, if it is. -/
def pointRefused (c : EcCurve) (n : Nat) (bs : Bytes) : Option (BitVec 8) :=
  let q := pointOf n bs
  if c.p ≤ q.1 ∨ c.p ≤ q.2 then some 0x62
  else if bs.getD 0 0 ≠ 0x04 ∨ !c.on q.1 q.2 then some 0x63
  else none

/-- R334 order 9: whether a scalar is 0, 1 or not below the order. -/
def badScalar (n x : Nat) : Bool := x ≤ 1 || n ≤ x

/-- R322, R334, R336: verification of a hybrid signature: it is refused, or fails, unless both halves are well formed and verify; the
public key has its halves at bytes 0 and 128. -/
def hybVerifyRep (pub e mu sig : Bytes) : Bool :=
  let r := fieldBe sig 0 48
  let t := fieldBe sig 48 48
  (slice pub 97 31 == zeros 31) && (pointRefused p384 48 pub).isNone && !badScalar p384.n r && !badScalar p384.n t && hintOk 87 sig &&
    p384.verify (pointOf 48 pub) e r t && mldsaVerify 87 (pub.drop 128) mu (sig.drop 96)

/-- R322: verification over a message. -/
def hybVerify (pub msg sig : Bytes) : Bool := hybVerifyRep pub (hybE msg) (hybMu (pub.drop 128) msg) sig

end Sys2Proof.Machine
end

