-- ==== Sys2Proof/Machine/PkOps.lean ====
section
/-!
DEFINITION. The public-key engine's operations (R311 to R367): anchor slot attributes, parameter sets, validation, draws, what a job
computes, its end, and the submission of jobs.
-/

namespace Sys2Proof.Machine
open Sys2Proof

/-! ### Anchor slot attributes (R274, R275, R280) -/

/-- R274: TYPE. -/
def attrType (a : BitVec 32) : Nat := bitsOf a 3 0
/-- R274: USAGE. -/
def attrUsage (a : BitVec 32) : Nat := bitsOf a 6 4
/-- R274: ORIGIN. -/
def attrOrigin (a : BitVec 32) : Nat := bitsOf a 8 7
/-- R274: EXPORT. -/
def attrExport (a : BitVec 32) : Bool := bitAt a 9
/-- R274: LIFETIME, true for persistent. -/
def attrPersistent (a : BitVec 32) : Bool := bitAt a 10
/-- R274: OWNER. -/
def attrOwner (a : BitVec 32) : Nat := bitsOf a 13 11
/-- R274: PAIR. -/
def attrPair (a : BitVec 32) : Bool := bitAt a 14

/-- R275: the stored length of a type; 0 for a reserved one. -/
def typeLen (t : Nat) : Nat := [0, 32, 48, 32, 48, 66, 32, 64, 48, 32, 32].getD t 0

/-- R275: the usages a type may carry. -/
def typeUsages (t : Nat) : List Nat := [[], [1, 2, 3], [5, 4], [5, 4], [5], [5], [5], [2], [4], [5], [5]].getD t []

/-- An anchor slot by number. -/
def State.anchor (s : State) (n : Nat) : AnchorSlot := if h : n < 64 then s.vault.slots.get ⟨n, h⟩ else {}

/-- R274: whether an anchor slot holds a value. -/
def AnchorSlot.occupied (a : AnchorSlot) : Bool := attrType a.attr != 0

/-- R37, R280, R282: the OWNER of slots that a management core creates: the boot core's, or the key service's. -/
def ownerOf (s : State) (core : Nat) : Nat := if core = s.boot.bootCore then 2 else 3

/-- R280, R562: whether a management core may use a slot of an attribute word. -/
def mayUse (s : State) (core : Nat) (a : BitVec 32) : Bool :=
  match attrOwner a with
  | 1 => core == s.boot.bootCore && !s.boot.romLocked
  | 2 => core == s.boot.bootCore
  | 3 => core != s.boot.bootCore || bootServes s
  | _ => false

/-! ### Parameter sets (R319, R320, R324, R329) -/

/-- R319: a parameter set. -/
inductive PkSet where
  /-- ECDSA and ECDH on a curve with a cofactor -/
  | ec (c : EcCurve) (h : Nat)
  /-- Ed25519 -/
  | ed
  /-- ML-DSA-65 or ML-DSA-87 -/
  | dsa (set : Nat)
  /-- ML-KEM-768 or ML-KEM-1024 -/
  | kem (set : Nat)
  /-- the hybrid set -/
  | hybrid
deriving DecidableEq, Repr

/-- R329: the curve of a loaded entry. -/
def Curve.toEc (c : Curve) : EcCurve := { p := c.p, a := c.a, b := c.b, gx := c.gx, gy := c.gy, n := c.n }

/-- R329: a curve entry by number. -/
def Pk.curve (k : Pk) (e : Nat) : Option Curve := if h : e < 8 then k.curves.get ⟨e, h⟩ else none

/-- R319: the parameter set PARAM names; none for a reserved value or an empty curve entry. -/
def pkSet (k : Pk) (param : Nat) : Option PkSet :=
  match param with
  | 1 => some (.ec p256 1)
  | 2 => some (.ec p384 1)
  | 3 => some (.ec p521 1)
  | 4 => some .ed
  | 5 => some (.dsa 65)
  | 6 => some (.dsa 87)
  | 7 => some (.kem 768)
  | 8 => some (.kem 1024)
  | 9 => some .hybrid
  | _ => if 0x20 ≤ param then (k.curve (param - 0x20)).map (fun c => .ec c.toEc c.h) else none

/-- R319: whether PARAM is not reserved. -/
def paramKnown (param : Nat) : Bool := (1 ≤ param && param ≤ 9) || (0x20 ≤ param && param ≤ 0x27)

/-- R319: whether PARAM names a loadable curve entry. -/
def paramLoaded (param : Nat) : Bool := 0x20 ≤ param && param ≤ 0x27

/-- R319: whether PARAM names a set of elliptic curves for ECDSA and ECDH. -/
def paramEc (param : Nat) : Bool := (1 ≤ param && param ≤ 3) || paramLoaded param

/-- R324: whether PARAM is permitted with OP. -/
def permitted (op param : Nat) : Bool :=
  match op with
  | 1 => (1 ≤ param && param ≤ 6) || param == 9 || paramLoaded param
  | 2 => (1 ≤ param && param ≤ 6) || param == 9 || paramLoaded param
  | 3 => paramKnown param
  | 4 => paramKnown param
  | 5 => paramEc param
  | 6 => param == 7 || param == 8
  | 7 => param == 7 || param == 8
  | 8 => paramLoaded param
  | _ => false

/-- R324: whether a command takes a private key. -/
def takesKey (op : Nat) : Bool := op == 1 || op == 4 || op == 5 || op == 7

/-- R327: the slot types and usages that a command may take its key from. -/
def slotKinds (op param : Nat) : List (Nat × Nat) :=
  (if op = 1 ∨ op = 4 then
    match param with
    | 1 => [(9, 5)]
    | 2 => [(4, 5)]
    | 3 => [(5, 5)]
    | 4 => [(0xA, 5)]
    | 6 => [(6, 5)]
    | 9 => [(4, 5)]
    | _ => []
  else []) ++ (if (op = 5 ∨ op = 4) ∧ param = 2 then [(8, 4)] else []) ++ (if (op = 7 ∨ op = 4) ∧ param = 8 then [(7, 2)] else [])

/-- R320: the byte length of the modulus. -/
def EcCurve.len (c : EcCurve) : Nat := byteLen c.p
/-- R320: the byte length of the order. -/
def EcCurve.nLen (c : EcCurve) : Nat := byteLen c.n

/-- R320: the bytes of a private key. -/
def PkSet.privLen : PkSet → Nat
  | .ec c _ => c.nLen
  | .ed => 32
  | .dsa _ => 32
  | .kem _ => 64
  | .hybrid => 80

/-- R320: the bytes of a public key. -/
def PkSet.pubLen : PkSet → Nat
  | .ec c _ => 1 + 2 * c.len
  | .ed => 32
  | .dsa n => if n = 65 then 1952 else 2592
  | .kem n => if n = 768 then 1184 else 1568
  | .hybrid => 2720

/-- R320: the bytes of a signature or ciphertext. -/
def PkSet.sigLen : PkSet → Nat
  | .ec c _ => 2 * c.nLen
  | .ed => 64
  | .dsa n => if n = 65 then 3309 else 4627
  | .kem n => if n = 768 then 1088 else 1568
  | .hybrid => 4723

/-- R325: the offset of REP. -/
def offRep : Nat := 0
/-- R325: the offset of PRIV. -/
def offPriv : Nat := 512
/-- R325: the offset of PUB. -/
def offPub : Nat := 640
/-- R325: the offset of SIG. -/
def offSig : Nat := 3360

/-- R352, R363, R364: whether the estimate of a job's command and set exceeds 90,000 lane cycles. -/
def isLong (k : Pk) (op param : Nat) : Bool :=
  let bits := ((k.curve (param - 0x20)).map Curve.bits).getD 0
  if !permitted op param then false
  else if op = 8 then true
  else if paramLoaded param then 384 < bits || (op == 2 && 256 < bits)
  else match op with
    | 1 => param == 3 || param == 6 || param == 9
    | 2 => param == 2 || param == 3 || param == 9
    | 5 => param == 3
    | 6 => false
    | 7 => false
    | _ => param == 3 || param == 9

/-! ### Validation (R331, R334) -/

/-- R330: the parameters of a curve in REP. -/
def curveIn (w : Bytes) : Curve :=
  { p := fieldBe w 0 66, a := fieldBe w 66 66, b := fieldBe w 132 66, gx := fieldBe w 198 66, gy := fieldBe w 264 66, n := fieldBe w 330 66,
    h := fieldBe w 396 1 }

/-- The bit length of a number. -/
def bitLen (x : Nat) : Nat := if x = 0 then 0 else Nat.log2 x + 1

/-- Every job in a queue or in progress. -/
def Pk.jobs (k : Pk) : List PkJob := k.shortQ ++ k.longQ ++ k.shortRun.toList ++ k.longRun.toList

/-- R332: whether a queued or running job names a curve entry. -/
def entryUsed (k : Pk) (param : Nat) : Bool := k.jobs.any (fun j => j.param.toNat == param)

/-- R327: the private key a job loads into its key register. -/
def pkKey (s : State) (j : PkJob) : Bytes :=
  if !takesKey j.op.toNat then []
  else if j.keySrc then
    (s.anchor j.anchor).value ++ (if j.param = 9 then (s.anchor (j.anchor + 1)).value else [])
  else slice j.window offPriv 96

/-- R327: whether the slot a job names has another type or usage than its command takes. -/
def slotWrong (s : State) (j : PkJob) : Bool :=
  let a := s.anchor j.anchor
  let b := s.anchor (j.anchor + 1)
  (a.occupied && !(slotKinds j.op.toNat j.param.toNat).contains (attrType a.attr, attrUsage a.attr)) ||
    (j.param == 9 && (j.anchor % 2 == 1 || (b.occupied && !(attrType b.attr == 6 && attrUsage b.attr == 5 && attrPair b.attr))))

/-- R280, R327: whether a slot a job names belongs to another requester; the key vault has checked its own. -/
def slotForeign (s : State) (j : PkJob) : Bool :=
  let bad (n : Nat) : Bool := (s.anchor n).occupied && !mayUse s (j.slot / 2) (s.anchor n).attr
  j.slot < 8 && (bad j.anchor || (j.param == 9 && bad (j.anchor + 1)))

/-- R324, R334 order 3: whether LEN is out of range. -/
def lenWrong (j : PkJob) : Bool :=
  let param := j.param.toNat
  if j.op = 1 ∨ j.op = 2 then
    if paramEc param then !(j.len == 32 || j.len == 48 || j.len == 64) else if param = 4 then 512 < j.len else j.len != 0
  else if j.op = 8 then
    let c := curveIn j.window
    j.len < 128 || 521 < j.len || bitLen c.p != j.len || j.len + 1 < bitLen c.n
  else j.len != 0

/-- RFC 8032, R334: why an Ed25519 point encoding is refused, if it is. -/
def edRefused (bs : Bytes) : Option (BitVec 8) :=
  if edP ≤ leNat (bs.take 32) % 2 ^ 255 then some 0x62 else if (edDecode (bs.take 32)).isNone then some 0x63 else none

/-- FIPS 203: the modulus check of an encapsulation key: every 12-bit coefficient is below 3,329. -/
def kemOk (set : Nat) (ek : Bytes) : Bool :=
  (chunks 3 (ek.take (if set = 768 then 1152 else 1536))).all (fun c => leNat c % 4096 < 3329 && leNat c / 4096 < 3329)

/-- R334 orders 7 to 10: why a job's values are refused, if they are. -/
def valuesRefused (j : PkJob) (key : Bytes) (set : PkSet) : Option (BitVec 8) :=
  let pub := slice j.window offPub set.pubLen
  let sig := slice j.window offSig set.sigLen
  let scalar (n x : Nat) : Option (BitVec 8) := if badScalar n x then some 0x61 else none
  let hint (n : Nat) (sg : Bytes) : Option (BitVec 8) := if hintOk n sg then none else some 0x64
  match set with
  | .ec c _ =>
    let n := c.nLen
    if j.op = 2 then
      (pointRefused c c.len pub).orElse (fun _ => (scalar c.n (fieldBe sig 0 n)).orElse (fun _ => scalar c.n (fieldBe sig n n)))
    else if j.op = 5 then (pointRefused c c.len pub).orElse (fun _ => scalar c.n (fieldBe key 0 n))
    else if takesKey j.op.toNat then scalar c.n (fieldBe key 0 n)
    else none
  | .ed =>
    if j.op = 2 then
      let a := edRefused pub
      let r := edRefused sig
      if a = some 0x62 ∨ r = some 0x62 then some 0x62
      else a.orElse (fun _ => r.orElse (fun _ => if edL ≤ fieldLe sig 32 32 then some 0x61 else none))
    else none
  | .dsa n => if j.op = 2 then hint n sig else none
  | .kem n => if j.op = 6 ∧ !kemOk n pub then some 0x64 else none
  | .hybrid =>
    if j.op = 2 then
      (pointRefused p384 48 pub).orElse (fun _ => (scalar p384.n (fieldBe sig 0 48)).orElse (fun _ =>
        (scalar p384.n (fieldBe sig 48 48)).orElse (fun _ => hint 87 sig)))
    else if takesKey j.op.toNat then scalar p384.n (fieldBe key 0 48)
    else none

/-- R334 orders 1 to 10: why a job is refused, if it is; the job itself is in no queue. -/
def pkRefused (s : State) (j : PkJob) (key : Bytes) : Option (BitVec 8) :=
  let op := j.op.toNat
  let param := j.param.toNat
  if op = 0 ∨ 8 < op ∨ !paramKnown param ∨ j.reservedBits ∨ (op = 8 ∧ slice j.window 397 115 ≠ zeros 115) ∨
      (op = 2 ∧ param = 9 ∧ slice j.window (offPub + 97) 31 ≠ zeros 31) then some eReserved
  else if !permitted op param ∨ (j.keySrc ∧ ((slotKinds op param).isEmpty ∨ slotWrong s j)) then some 0x20
  else if lenWrong j then some eRange
  else if j.keySrc ∧ slotForeign s j then some eOwner
  else if (j.keySrc ∧ (!(s.anchor j.anchor).occupied ∨ (param = 9 ∧ !(s.anchor (j.anchor + 1)).occupied))) ∨
      (op = 8 ∧ entryUsed s.pk param) then some eState
  else if op = 8 then
    let c := curveIn j.window
    if c.p ≤ c.a ∨ c.p ≤ c.b ∨ c.p ≤ c.gx ∨ c.p ≤ c.gy then some 0x62 else none
  else
    match pkSet s.pk param with
    | none => some 0x65
    | some set => valuesRefused j key set

/-! ### Random inputs (R323, R340, R349; log 23 for lengths and the conversion to scalars) -/

/-- A scalar from 2 to the order less 1 out of bytes drawn. -/
def toScalar (n : Nat) (bs : Bytes) : Nat := beNat bs % (n - 2) + 2

/-- R323: the nonce of an ECDSA signature over `h` with the scalar `d`, drawn again while r or s is zero. `fuel` bounds the draws; after the last
one the nonce is a free value (log 23). -/
def drawNonce (c : EcCurve) (d : Nat) (h : Bytes) : Nat → State → Option Nat × State
  | 0, s => (some (s.free % (c.n - 1) + 1), s.used)
  | fuel + 1, s =>
    match drawBytes (c.nLen + 8) s with
    | (none, s) => (none, s)
    | (some b, s) =>
      let k := beNat b % (c.n - 1) + 1
      let rs := c.sign d k h
      if rs.1 = 0 ∨ rs.2 = 0 then drawNonce c d h fuel s else (some k, s)

/-- A draw that ends the job's draws where the DRBG refuses it. -/
def thenDraw (r : Option Bytes × State) (k : Bytes → State → Option Bytes × State) : Option Bytes × State :=
  match r with
  | (none, s) => (none, s)
  | (some b, s) => k b s

/-- A nonce as bytes. -/
def nonceBytes (c : EcCurve) (d : Nat) (h : Bytes) (s : State) : Option Bytes × State :=
  let r := drawNonce c d h 64 s
  (r.1.map (beBytes c.nLen), r.2)

/-- R349: the bytes that the blinding values of both runs take. -/
def blindLen (op : Nat) : PkSet → Nat
  | .ec c _ => if op = 1 ∨ op = 3 ∨ op = 4 ∨ op = 5 then 2 * (8 + c.len + c.nLen + (if op = 1 then c.nLen else 0)) else 0
  | .ed => if op = 1 ∨ op = 3 ∨ op = 4 then 2 * (8 + 32 + 32) else 0
  | .hybrid => if op = 1 ∨ op = 3 ∨ op = 4 then 2 * (8 + 48 + 48 + (if op = 1 then 48 else 0)) else 0
  | _ => 0

/-- R323, R340: the random inputs of a job, drawn once for both runs, and then its blinding values; none where the DRBG refuses. -/
def pkDraw (j : PkJob) (key : Bytes) (set : Option PkSet) (s : State) : Option Bytes × State :=
  let rep := slice j.window offRep 64
  let main := match j.op.toNat, set with
    | 8, _ => drawBytes (80 * 66) s
    | 1, some (.ec c _) => nonceBytes c (fieldBe key 0 c.nLen) (slice j.window offRep j.len) s
    | 1, some (.dsa _) => drawBytes 32 s
    | 1, some .hybrid => thenDraw (nonceBytes p384 (fieldBe key 0 48) (rep.take 48) s) (fun k s => thenDraw (drawBytes 32 s) (fun r s => (some (k ++ r), s)))
    | 3, some (.ec c _) => thenDraw (drawBytes (c.nLen + 8) s) (fun b s => (some (beBytes c.nLen (toScalar c.n b)), s))
    | 3, some .hybrid => thenDraw (drawBytes 56 s) (fun b s => thenDraw (drawBytes 32 s) (fun r s => (some (beBytes 48 (toScalar p384.n b) ++ r), s)))
    | 3, some x => drawBytes x.privLen s
    | 6, _ => drawBytes 32 s
    | _, _ => (some [], s)
  thenDraw main (fun b s =>
    match (set.map (blindLen j.op.toNat)).getD 0 with
    | 0 => (some b, s)
    | n => thenDraw (drawBytes n s) (fun _ s => (some b, s)))

/-! ### What a job computes (R320 to R333, R336) -/

/-- FIPS 186-5: one round of the Miller–Rabin test of an odd number above 3 with a base. -/
def millerRound (n base : Nat) : Bool :=
  let r := ((List.range (bitLen n)).find? (fun i => (n - 1).testBit i)).getD 0
  let x := modPow base ((n - 1) / 2 ^ r) n
  x == 1 || ((List.range r).foldl (fun (a : Nat × Bool) _ => (a.1 * a.1 % n, a.2 || a.1 == n - 1)) (x, false)).2

/-- R331: 40 rounds of the Miller–Rabin test with the bases drawn. -/
def millerRabin (n : Nat) (bases : Bytes) : Bool :=
  if n < 4 then n == 2 || n == 3
  else n % 2 == 1 && (List.range 40).all (fun i => millerRound n (fieldBe bases (66 * i) 66 % (n - 3) + 2))

/-- R331: the failed checks of a curve. -/
def curveFails (c : Curve) (draws : Bytes) : BitVec 6 :=
  let e := c.toEc
  let inf := match e.mul c.n e.g with
    | none => true
    | some _ => false
  BitVec.ofNat 6 (bitNat 0 (!millerRabin c.p draws) + bitNat 1 ((4 * c.a ^ 3 + 27 * c.b ^ 2) % c.p == 0) +
    bitNat 2 (!millerRabin c.n (draws.drop 2640)) + bitNat 3 (!(1 ≤ c.h && c.h ≤ 4)) + bitNat 4 (!e.on c.gx c.gy) + bitNat 5 (!inf))

/-- R320: the public key of a private key. -/
def publicOf (set : PkSet) (key : Bytes) : Bytes :=
  match set with
  | .ec c _ => pointBytes c.len (c.mul (fieldBe key 0 c.nLen) c.g)
  | .ed => edPublic (key.take 32)
  | .dsa n => mldsaPublic n (key.take 32)
  | .kem n => mlkemPublic n (key.take 64)
  | .hybrid => pointBytes 48 (p384.mul (fieldBe key 0 48) p384.g) ++ zeros 31 ++ mldsaPublic 87 (slice key 48 32)

/-- R321, R322: a signature. -/
def signOf (set : PkSet) (key : Bytes) (j : PkJob) : Bytes :=
  match set with
  | .ec c _ =>
    let rs := c.sign (fieldBe key 0 c.nLen) (fieldBe j.draws 0 c.nLen) (slice j.window offRep j.len)
    beBytes c.nLen rs.1 ++ beBytes c.nLen rs.2
  | .ed => edSign (key.take 32) (slice j.window offRep j.len)
  | .dsa n => mldsaSign n (key.take 32) (slice j.window offRep 64) (j.draws.take 32)
  | .hybrid => hybSignRep (fieldBe key 0 48) (fieldBe j.draws 0 48) (slice key 48 32) (slice j.draws 48 32) (slice j.window offRep 48)
      (slice j.window (offRep + 64) 64)
  | .kem _ => []

/-- R321, R322, R336: whether a signature verifies. -/
def verifyOf (set : PkSet) (j : PkJob) : Bool :=
  let pub := slice j.window offPub set.pubLen
  let sig := slice j.window offSig set.sigLen
  match set with
  | .ec c _ => c.verify (pointOf c.len pub) (slice j.window offRep j.len) (fieldBe sig 0 c.nLen) (fieldBe sig c.nLen c.nLen)
  | .ed => edVerify pub (slice j.window offRep j.len) sig
  | .dsa n => mldsaVerify n pub (slice j.window offRep 64) sig
  | .hybrid => hybVerifyRep pub (slice j.window offRep 48) (slice j.window (offRep + 64) 64) sig
  | .kem _ => false

/-- R333: the shared secret of ECDH, or none for a shared point at infinity. -/
def ecdhOf (c : EcCurve) (h : Nat) (key peer : Bytes) : Option Bytes :=
  (c.mul (h * fieldBe key 0 c.nLen) (some (pointOf c.len peer))).map (fun q => beBytes c.len q.1)

/-- What a validated job ends with: its code, its outputs by window offset, its failed curve checks, and the entry it fills. -/
structure PkEnd where
  /-- code of R338 -/
  code : BitVec 8 := 0
  /-- values written, by offset -/
  outs : List (Nat × Bytes) := []
  /-- CURVE_FAIL -/
  fails : BitVec 6 := 0
  /-- the curve that fills the entry -/
  curve : Option Curve := none
deriving DecidableEq, Repr

/-- R324, R331 to R333, R336: the outcome of a job that validation has passed, with the private key of its key register. -/
def pkCompute (k : Pk) (key : Bytes) (j : PkJob) : PkEnd :=
  if j.op = 8 then
    let c := { curveIn j.window with bits := j.len }
    let f := curveFails c j.draws
    if f = 0 then { curve := some c } else { code := 0x65, fails := f }
  else
    match pkSet k j.param.toNat with
    | none => { code := 0x65 }
    | some set =>
      let pub := slice j.window offPub set.pubLen
      match j.op.toNat, set with
      | 1, _ => { outs := [(offSig, signOf set key j)] }
      | 2, _ => if verifyOf set j then {} else { code := 0x60 }
      | 3, _ => { outs := [(offPriv, j.draws.take set.privLen), (offPub, publicOf set j.draws)] }
      | 4, _ => { outs := [(offPub, publicOf set key)] }
      | 5, .ec c h =>
        match ecdhOf c h key pub with
        | none => { code := 0x66 }
        | some x => { outs := [(offRep, x)] }
      | 6, .kem n => { outs := [(offSig, mlkemCipher n pub (j.draws.take 32)), (offRep, mlkemSecret n pub (j.draws.take 32))] }
      | 7, .kem n => { outs := [(offRep, mlkemDecaps n (key.take 64) (slice j.window offSig set.sigLen))] }
      | _, _ => { code := eReserved }

/-- R324, R325, R359: the output regions of a command. -/
def outRegions (op : Nat) : List (Nat × Nat) :=
  match op with
  | 1 => [(offSig, 4723)]
  | 3 => [(offPriv, 96), (offPub, 2720)]
  | 4 => [(offPub, 2720)]
  | 5 => [(offRep, 512)]
  | 6 => [(offSig, 4723), (offRep, 512)]
  | 7 => [(offRep, 512)]
  | _ => []

/-! ### Modes, ends and submission (R338, R343, R344, R352, R353, R357, R359, R365 to R367) -/

/-- R343, R344: the effective mode: 0 compare, 1 repeat on A, 2 repeat on B, 3 no datapath. -/
def pkMode (k : Pk) : BitVec 2 :=
  if k.dpA && k.dpB then k.fcMode else if k.dpA then 1 else if k.dpB then 2 else if !k.dpAOut then 1 else if !k.dpBOut then 2 else 3

/-- R366: whether a slot has a job queued or in progress. -/
def Pk.busy (k : Pk) (slot : Nat) : Bool := k.jobs.any (fun j => j.slot == slot)

/-- R343: the datapaths of a mode, A as false and B as true. -/
def modeDps (mode : BitVec 2) : List Bool :=
  match mode.toNat with
  | 0 => [false, true]
  | 1 => [false]
  | 2 => [true]
  | _ => []

/-- R311: the number of an area among the four. -/
def areaNo (b long : Bool) : Nat := bitNat 1 b + bitNat 0 long

/-- R311: an area of a datapath. -/
def Pk.cell (k : Pk) (b long : Bool) : PkArea := k.areas.toList.getD (areaNo b long) {}

/-- The state with an area of a datapath changed by `f`. -/
def modCell (b long : Bool) (f : PkArea → PkArea) (s : State) : State := s.modPk (fun k => { k with areas := vmod k.areas (areaNo b long) f })

/-- R361: whether every area of the class that a job of a slot used in a mode is free of the slot's values. -/
def Pk.clean (k : Pk) (slot : Nat) (long : Bool) (mode : BitVec 2) : Bool :=
  (modeDps mode).all (fun b => !((k.cell b long).owner == some slot && (k.cell b long).dirty))

/-- R311, R340: the private key in the key registers of the job in progress in a class of areas. -/
def Pk.keyOf (k : Pk) (long : Bool) (j : PkJob) : Bytes := ((modeDps j.mode).head?.map (fun b => (k.cell b long).key)).getD []

/-! ### Run times (R341, R363, R364) -/

/-- R363: the figure of a command on one of the curves of 256, 384 and 521 bits, by the place of the curve. -/
def curveCycles (op i : Nat) : Nat :=
  (match op with
    | 1 => [30600, 68400, 255600]
    | 2 => [55800, 126000, 471600]
    | 5 => [32400, 72000, 266400]
    | _ => [28800, 64800, 244800]).getD i 0

/-- R364: the lane cycles of ML-DSA signing. -/
def dsaCycles (set tries : Nat) : Nat := if set = 65 then 9006 + 10940 * tries else 21384 + 20160 * tries

/-- R341, R363, R364: the lane cycles of a job that passes its validation boundary, without waits, yields and restarts. -/
def pkCycles (k : Pk) (key : Bytes) (j : PkJob) : Nat :=
  let op := j.op.toNat
  let rep := slice j.window offRep 64
  let byBits (bits : Nat) : Nat := if bits ≤ 256 then 0 else if bits ≤ 384 then 1 else 2
  let tries (set : Nat) (seed mu rnd : Bytes) : Nat := dsaCycles set (mldsaTries set seed mu rnd)
  let once := match j.param.toNat with
    | 1 => curveCycles op 0
    | 2 => curveCycles op 1
    | 3 => curveCycles op 2
    | 4 => if op = 1 then 37800 + 64 * ((j.len + 127) / 128) else if op = 2 then 72000 + 64 * ((j.len + 127) / 128) else 34200
    | 5 => if op = 1 then tries 65 (key.take 32) rep (j.draws.take 32) else if op = 2 then 28800 else 25200
    | 6 => if op = 1 then tries 87 (key.take 32) rep (j.draws.take 32) else if op = 2 then 45000 else 39600
    | 7 => if op = 6 then 10800 else if op = 7 then 12600 else 9000
    | 8 => if op = 6 then 14400 else if op = 7 then 16200 else 12600
    | 9 =>
      if op = 1 then curveCycles 1 1 + tries 87 (slice key 48 32) (slice j.window (offRep + 64) 64) (slice j.draws 48 32)
      else if op = 2 then 171000 else 104400
    | p =>
      if op = 8 then [198000, 504000, 2700000].getD (byBits j.len) 0
      else curveCycles op (byBits (((k.curve (p - 0x20)).map Curve.bits).getD 0)) * 5 / 4
  if j.mode = 0 then once else 2 * once

/-- The state with one job slot's page changed by `f`. -/
def modSlot (slot : Nat) (f : PkSlot → PkSlot) (s : State) : State := s.modPk (fun k => { k with slots := vmod k.slots slot f })

/-- R335, R363, R364, R366: TIME of a job's end, where the rules give it: at the validation boundary, or at its full run time where nothing made it
longer; else a free value (log 8). A job that never started has run for no time. -/
def pkTime (j : PkJob) (e : PkEnd) (boundary : Bool) (s : State) : BitVec 32 :=
  if j.mode = 3 then 0
  else if j.restarted || j.yieldedOnce || e.code == 0x68 || e.code == 0x69 then BitVec.ofNat 32 s.free
  else if boundary then 2048
  else BitVec.ofNat 32 (pkCycles s.pk (s.pk.keyOf j.long j) j)

/-- R338, R359, R361, R365, R366: the status a job leaves on its slot's page, with its outputs or zeros in their place. `boundary` tells
whether it ends at the validation boundary. WAIT counts lane cycles, which the model leaves free (log 8). -/
def slotEnd (j : PkJob) (e : PkEnd) (boundary : Bool) (s : State) : State :=
  let time := pkTime j e boundary s
  let s := (modSlot j.slot (fun x =>
    let zeroed := (outRegions j.op.toNat).foldl (fun m r => bufStore 0 m r.1 (zeros r.2)) x.window
    { x with valid := true, result := e.code, curveFail := e.fails, restarted := j.restarted, long := j.long, yielded := j.yieldedOnce,
             mode := j.mode, wiped := s.pk.clean j.slot j.long j.mode, time := time, wait := BitVec.ofNat 32 s.used.free,
             window := if e.code = 0 then e.outs.foldl (fun m o => bufStore 0 m o.1 o.2) x.window else zeroed }) s).used.used
  s.modPk (fun k => { k with
    jobsDone := if e.code = 0 ∨ e.code = 0x60 then k.jobsDone + 1 else k.jobsDone,
    refused := if boundary then satInc k.refused else k.refused,
    aborts := if e.code = 0x68 then satInc k.aborts else k.aborts })

/-- R347, R365: a mismatch of the two runs: a safety-class fault, and a full self-test is due. -/
def pkMismatch (j : PkJob) (s : State) : State :=
  raise true kPk 2 fPkCompare 0 (j.op.toNat + j.param.toNat * 2 ^ 8 + j.slot * 2 ^ 16)
    (s.modPk (fun k => { k with compareFail := satInc k.compareFail, compareRecent := true, stDue := true }))

/-- R353: a job joins the queue of its class. -/
def pkEnqueue (j : PkJob) (s : State) : State :=
  s.modPk (fun k =>
    let j := { j with goAt := k.nextGo }
    if j.long then { k with longQ := k.longQ ++ [j], nextGo := k.nextGo + 1 } else { k with shortQ := k.shortQ ++ [j], nextGo := k.nextGo + 1 })

/-- R338, R352, R366: a job slot's job is submitted: queued, or ended E_PKDOWN at once where no datapath is in service. -/
def pkSubmit (j : PkJob) (s : State) : State :=
  let s := modSlot j.slot (fun x => { x with wiped := false, restarted := false, yielded := false, long := j.long, mode := 3, curveFail := 0 }) s
  if pkMode s.pk = 3 then slotEnd j { code := 0x69 } false s else pkEnqueue j s

/-- R318, R352: a job of the key vault; it is short whatever its estimate. -/
def vaultJob (op param : Nat) (anchor : Option Nat) (window : Bytes) : PkJob :=
  { slot := 8, op := BitVec.ofNat 8 op, param := BitVec.ofNat 8 param, keySrc := anchor.isSome, anchor := anchor.getD 0, window := window,
    vaultCmd := true }

end Sys2Proof.Machine
end

