-- ==== Sys2Proof/Machine/DigOps.lean ====
section
/-!
DEFINITION. The digest engine's operations (R368 to R393): its algorithms from chaining values, the ends of contexts, the offering of
message bytes, and context blobs.
-/

namespace Sys2Proof.Machine
open Sys2Proof

/-! ### Algorithms from a chaining value (R368, R390) -/

/-- R368: whether ALG is not reserved. -/
def algKnown (alg : Nat) : Bool := 1 ≤ alg && alg ≤ 0xC

/-- R368: whether ALG runs on a Keccak core (else on a SHA-2 core). -/
def algKeccak (alg : Nat) : Bool := (4 ≤ alg && alg ≤ 8) || alg == 0xC

/-- R368: the block or rate of ALG in bytes. -/
def algBlock (alg : Nat) : Nat := [0, 64, 128, 128, 136, 104, 72, 168, 136, 64, 128, 128, 136].getD alg 136

/-- R368: the output bytes of ALG; 0 where OUT_LEN gives them. -/
def algOut (alg : Nat) : Nat := [0, 32, 48, 64, 32, 48, 64, 0, 0, 32, 48, 64, 0].getD alg 0

/-- R368: whether ALG is an HMAC. -/
def algHmac (alg : Nat) : Bool := 9 ≤ alg && alg ≤ 0xB

/-- Words of a SHA-2 chaining value. -/
def shaWords (w : Nat) (bs : Bytes) : List (BitVec w) := (chunks (w / 8) bs).map (fun c => BitVec.ofNat w (beNat c))

/-- Lanes of a Keccak state. -/
def keccakLanes (bs : Bytes) : List (BitVec 64) := (chunks 8 (padTo 200 bs)).map (fun c => bytesVec 64 c)

/-- R369: one block absorbed. -/
def absorbBlock (alg : Nat) (st blk : Bytes) : Bytes :=
  if algKeccak alg then keccakBytes (keccakF (keccakXor (keccakLanes st) blk))
  else if alg = 1 ∨ alg = 9 then shaOut (shaBlock sha256P (shaWords 32 st) blk)
  else shaOut (shaBlock sha512P (shaWords 64 st) blk)

/-- Whole blocks absorbed in turn. -/
def absorbBlocks (alg : Nat) (st msg : Bytes) : Bytes := (chunks (algBlock alg) msg).foldl (absorbBlock alg) st

/-- FIPS 180-4, FIPS 202: the state before any block. -/
def algInit (alg : Nat) : Bytes :=
  if algKeccak alg then zeros 200
  else if alg = 1 ∨ alg = 9 then shaOut (iv512.map (fun x => x.extractLsb' 32 32))
  else if alg = 2 ∨ alg = 0xA then shaOut iv384
  else shaOut iv512

/-- FIPS 198-1: a key as one block: hashed where it is longer, and filled with zeros. -/
def hmacKey (alg : Nat) (key : Bytes) : Bytes :=
  padTo (algBlock alg) (if algBlock alg < key.length then (if alg = 9 then sha256 key else if alg = 0xA then sha384 key else sha512 key) else key)

/-- R377: the inner chaining value of an HMAC key. -/
def hmacInnerOf (alg : Nat) (key : Bytes) : Bytes := absorbBlock alg (algInit alg) ((hmacKey alg key).map (· ^^^ 0x36#8))

/-- R377: the outer chaining value of an HMAC key. -/
def hmacOuterOf (alg : Nat) (key : Bytes) : Bytes := absorbBlock alg (algInit alg) ((hmacKey alg key).map (· ^^^ 0x5C#8))

/-- R376: the state after OPEN has absorbed the key and the customisation string. -/
def openState (alg : Nat) (key cust : Bytes) : Bytes :=
  if alg = 0xC then
    absorbBlocks alg (algInit alg) (bytepad (encodeString (ascii "KMAC") ++ encodeString cust) 136 ++ bytepad (encodeString key) 136)
  else if algHmac alg then hmacInnerOf alg key
  else algInit alg

/-- SHA-2's last blocks after `pre` bytes. -/
def shaLast (alg pre : Nat) (st msg : Bytes) : Bytes :=
  let b := algBlock alg
  absorbBlocks alg st (msg ++ shaPad b (b / 8) (pre + msg.length))

/-- The output of ALG from the state after whole blocks, the rest `tail` of the message, and the message's length. -/
def algFinish (alg : Nat) (st outer tail : Bytes) (len out : Nat) : Bytes :=
  if algKeccak alg then
    let rate := algBlock alg
    let dom : Byte := if alg ≤ 6 then 0x06 else if alg = 0xC then 0x04 else 0x1F
    let msg := if alg = 0xC then tail ++ rightEncode (8 * out) else tail
    let k := rate - msg.length % rate
    let pad := if k = 1 then [dom ||| 0x80#8] else dom :: zeros (k - 2) ++ [0x80#8]
    (squeeze rate ((out + rate - 1) / rate) (keccakLanes (absorbBlocks alg st (msg ++ pad)))).take out
  else
    let pre := len - tail.length + (if algHmac alg then algBlock alg else 0)
    let inner := (shaLast alg pre st tail).take out
    if algHmac alg then (shaLast alg (algBlock alg) outer inner).take out else inner

/-! ### Contexts (R371 to R386) -/

/-- The state with one context changed by `f`. -/
def modCtx (c : Nat) (f : Ctx → Ctx) (s : State) : State := s.modDig (fun d => { d with ctxs := vmod d.ctxs c f })

/-- R374: the state, key, customisation string and result of a context wiped. -/
def Ctx.wiped (x : Ctx) : Ctx :=
  { x with key := [], custom := [], st := [], outer := [], buf := [], result := [], feeding := false, dmaWork := none, dmaNext := 0,
           alg := 0, keySrc := 0, slot := 0, olen := 0, len := 0, slotEpoch := 0, feedAll := 0 }

/-- A running feed of a context stops. -/
def stopFeed (c : Nat) (s : State) : State :=
  match (s.dig.ctxs.toList.getD c {}).dmaWork with
  | none => s
  | some w => dmaEnd w s

/-- R373, R374: a context returns to FREE. -/
def ctxFree (c : Nat) (s : State) : State :=
  modCtx c (fun x => { x.wiped with state := .free, owner := 0, trunc := false, fed := 0, finished := false }) (stopFeed c s)

/-- R373, R374: a context is ended with a code. -/
def ctxEnd (c : Nat) (code : BitVec 8) (s : State) : State :=
  modCtx c (fun x => { x.wiped with state := .ended, code := code }) (stopFeed c s)

/-- R379: every open context keyed by a slot ends. -/
def keyLost (slot : Nat) (s : State) : State :=
  forEach (List.range 8) (fun c t =>
    let x := t.dig.ctxs.toList.getD c {}
    onlyIf ((x.state == .opened || x.state == .finishing) && x.keySrc == 2 && x.slot == slot) (ctxEnd c 0x71) t) s

/-- R375: a reset of a management core aborts its contexts and discards its exports and region. -/
def digCoreReset (core : Nat) (s : State) : State :=
  (forEach (List.range 8) (fun c t =>
    let x := t.dig.ctxs.toList.getD c {}
    onlyIf (x.state != .free && x.owner == core) (ctxFree c) t) s).modDig
    (fun d => { d with cmpQ := d.cmpQ.filter (· != core),
                       regions := vmod d.regions core (fun r => { nextSeq := r.nextSeq }) })

/-- R381, R382: the result over the declared bytes; DONE counts a surplus. -/
def ctxResult (c : Nat) (s : State) : State :=
  let x := s.dig.ctxs.toList.getD c {}
  let out := if algOut x.alg = 0 then x.olen else algOut x.alg
  let outer := if x.keySrc = 2 then (s.anchor x.slot).hmacOuter else x.outer
  let b := algBlock x.alg
  let whole := x.buf.length / b * b
  let r := algFinish x.alg (absorbBlocks x.alg x.st (x.buf.take whole)) outer (x.buf.drop whole) x.len out
  (modCtx c (fun x => { x.wiped with state := .done, result := r, alg := x.alg, olen := out }) (stopFeed c s)).modDig
    (fun d => { d with truncs := if x.trunc then satInc d.truncs else d.truncs })

/-- R373, R382: whether a context has been fed every declared byte. -/
def Ctx.complete (x : Ctx) : Bool := x.len ≤ x.fed.toNat

/-- R380, R381: bytes offered to a context: those up to DECL_LEN are kept. -/
def Ctx.offer (bs : Bytes) (x : Ctx) : Ctx :=
  { x with fed := x.fed + BitVec.ofNat 64 bs.length, buf := x.buf ++ bs.take (x.len - x.fed.toNat) }

/-- R384, R386: a context whose feed has offered its last byte. -/
def feedOver (c : Nat) (s : State) : State :=
  modCtx c (fun x => { x with feeding := false, dmaWork := none, dmaNext := 0, feedAll := 0, lastAct := s.timer }) (stopFeed c s)

/-- R369: whether a kind of core is in service. -/
def Dig.kindUp (d : Dig) (keccak : Bool) : Bool := if keccak then d.kecCores != 0 else d.sha2Cores != 0

/-- R369: the open contexts that the cores of a kind serve now: those with a whole block to absorb, in turn, one to a core. The internal paths come
first; they are served within the commands that use them (log 14). -/
def Dig.served (d : Dig) (keccak : Bool) : List Nat :=
  (d.turn.filter (fun c =>
    let x := d.ctxs.toList.getD c {}
    (x.state == .opened || x.state == .finishing) && algKeccak x.alg == keccak && algBlock x.alg ≤ x.buf.length)).take
    (popCount 2 (if keccak then d.kecCores else d.sha2Cores))

end Sys2Proof.Machine
end

