-- ==== Sys2Proof/Machine/Vault.lean ====
section
/-!
DEFINITION. The key vault's commands (R274 to R293, R310, R318, R339, R377, R378): generation, derivation, import and export,
blobs, and key statements. A command that needs the public-key engine waits for its job of the internal slot.
-/

namespace Sys2Proof.Machine
open Sys2Proof

/-- The vault page (R310). -/
def vaultPage : Nat := 0x20000

/-- The state with one anchor slot changed by `f`. -/
def modAnchor (n : Nat) (f : AnchorSlot → AnchorSlot) (s : State) : State := s.modVault (fun v => { v with slots := vmod v.slots n f })

/-- R377, R378: a slot filled: its fill count rises and the HMAC states of a TYPE 0x2 key are cached. -/
def fillSlot (n : Nat) (attr : BitVec 32) (value : Bytes) (s : State) : State :=
  let mac := attrType attr == 2
  modAnchor n (fun a =>
    { attr := attr, value := value, epoch := a.epoch + 1, hmacInner := if mac then hmacInnerOf 0xA value else [],
      hmacOuter := if mac then hmacOuterOf 0xA value else [] }) s

/-- R273, R379: a slot cleared: contexts keyed by it end and its cached states are wiped. -/
def clearSlot (n : Nat) (s : State) : State := modAnchor n (fun a => { epoch := a.epoch }) (keyLost n s)

/-- R274: an attribute word. -/
def mkAttr (type usage origin : Nat) (exp persistent : Bool) (owner : Nat) : BitVec 32 :=
  BitVec.ofNat 32 (type + usage * 2 ^ 4 + origin * 2 ^ 7 + bitNat 9 exp + bitNat 10 persistent + owner * 2 ^ 11)

/-- R284, R310: whether a word of requested attributes has a field other than TYPE, USAGE, EXPORT and LIFETIME. -/
def argReserved (a : BitVec 32) : Bool := a &&& ~~~ (0x67F#32) != 0

/-- R274, R275: whether TYPE or USAGE holds a reserved value. -/
def kindReserved (a : BitVec 32) : Bool := typeLen (attrType a) == 0 || attrUsage a == 0 || 5 < attrUsage a

/-- R16, R274: whether an attribute word as a blob holds it has a reserved field or value. -/
def attrReserved (a : BitVec 32) : Bool :=
  a &&& 0xFF808000#32 != 0 || kindReserved a || attrOrigin a == 0 || attrOwner a == 0 || 4 < attrOwner a

/-- R275: whether a type may carry a usage. -/
def kindOk (a : BitVec 32) : Bool := (typeUsages (attrType a)).contains (attrUsage a)

/-- R284: PARAM of the public-key engine for an asymmetric type; none for a symmetric one. -/
def typeParam (t : Nat) : Option Nat :=
  match t with
  | 4 => some 2
  | 5 => some 3
  | 6 => some 6
  | 7 => some 8
  | 8 => some 2
  | 9 => some 1
  | 0xA => some 4
  | _ => none

/-- The bytes of the operand pages. -/
def vaultIn (s : State) (o n : Nat) : Bytes := bufLoad 0 s.vault.opnd o n

/-- Bytes written to the operand pages. -/
def vaultOut (o : Nat) (bs : Bytes) (s : State) : State :=
  s.modVault (fun v => { v with opnd := bufStore 0 v.opnd o bs, shown := bufStore 0 v.shown o bs })

/-- R288, R289, R310: a command ends with a code of R289. That table has none for a DRBG or an engine that cannot serve; such a command ends E_AUTH
(DESIGN CHOICE, log 36). -/
def vaultEnd (code : BitVec 8) (s : State) : State := s.modVault (fun v => { v with run := none, valid := true, result := code })

/-- R290: the magic of a blob. -/
def blobMagic : Bytes := ascii "KFL-KBLB" ++ leBytes 2 1

/-- R284: the commands that fill an empty slot. -/
def fillsTarget (code : Nat) : Bool := code == 1 || code == 2 || code == 3 || code == 4 || code == 7

/-- R284: the commands that name a second slot. -/
def usesSlot2 (code : Nat) : Bool := code == 3 || code == 4 || code == 5

/-- R289 order 2. -/
def vaultReserved (s : State) (code : Nat) (cmd : BitVec 32) : Bool :=
  let imp := vaultIn s 1568 4
  code == 0 || 9 < code || cmd &&& 0x7FC0C000#32 != 0 || argReserved s.vault.arg ||
    ((code == 1 || code == 3) && kindReserved s.vault.arg) ||
    (code == 4 && (argReserved (bytesVec 32 imp) || kindReserved (bytesVec 32 imp) || vaultIn s 1572 4 != zeros 4)) ||
    (code == 7 && (vaultIn s 0 10 != blobMagic || vaultIn s 11 1 != zeros 1 || vaultIn s 20 12 != zeros 12 || vaultIn s 44 4 != zeros 4 ||
      attrReserved (bytesVec 32 (vaultIn s 12 4))))

/-- R278, R289 order 3. -/
def vaultRange (s : State) (code slot slot2 : Nat) : Bool :=
  (code != 9 && slot < 32) || (!usesSlot2 code && slot2 != 0) || (code == 2 && slot % 2 == 1) ||
    (code == 3 && (s.vault.len == 0 || 256 < s.vault.len.toNat)) || (code == 7 && slot != fieldLe (vaultIn s 10 1) 0 1)

/-- R280, R281, R289 order 4: whether the requester may not use a slot it names. -/
def vaultForeign (s : State) (core : Option Nat) (code slot slot2 : Nat) : Bool :=
  match core with
  | none => true
  | some c =>
    ((s.anchor slot).occupied && !mayUse s c (s.anchor slot).attr) ||
      (usesSlot2 code && (s.anchor slot2).occupied && !mayUse s c (s.anchor slot2).attr) ||
      (code == 7 && attrOwner (bytesVec 32 (vaultIn s 12 4)) != ownerOf s c)

/-- R289 order 5. -/
def vaultState (s : State) (code slot slot2 : Nat) : Bool :=
  (fillsTarget code && (s.anchor slot).occupied) || (code == 2 && (s.anchor (slot + 1)).occupied) ||
    ((code == 5 || code == 6 || code == 9) && !(s.anchor slot).occupied) || (usesSlot2 code && !(s.anchor slot2).occupied) ||
    ((code == 6 || code == 7) && !(s.anchor 5).occupied)

/-- R275, R276, R286, R289 order 6. -/
def vaultUsage (s : State) (code slot slot2 : Nat) : Bool :=
  let a := (s.anchor slot).attr
  let b := (s.anchor slot2).attr
  ((code == 1 || code == 3) && !kindOk s.vault.arg) ||
    (code == 3 && !(attrUsage b == 4 && (attrType b == 2 || attrType b == 3 || attrType b == 8))) ||
    (code == 4 && (!kindOk (bytesVec 32 (vaultIn s 1568 4)) || !(attrType b == 7 && attrUsage b == 2))) ||
    (code == 5 && (!attrExport a || !(attrType b == 1 && attrUsage b == 3 && attrOrigin b == 3))) || (code == 6 && !attrPersistent a)

/-- R289: the first check that a command fails decides its code; the check for tamper-cleared is made before these (vaultGo). -/
def vaultRefused (s : State) (core : Option Nat) (cmd : BitVec 32) : Option (BitVec 8) :=
  let code := bitsOf cmd 7 0
  let slot := bitsOf cmd 13 8
  let slot2 := bitsOf cmd 21 16
  if vaultReserved s code cmd then some eReserved
  else if vaultRange s code slot slot2 then some eRange
  else if vaultForeign s core code slot slot2 then some eOwner
  else if vaultState s code slot slot2 then some eState
  else if vaultUsage s code slot slot2 then some 0x20
  else none

/-- R288, R318: a command waits for a job of the public-key engine; without a datapath it ends at once (R338, R339). -/
def vaultWait (r : VaultRun) (j : PkJob) (s : State) : State :=
  if pkMode s.pk = 3 then vaultEnd eAuth s else pkEnqueue j (s.modVault (fun v => { v with run := some r }))

/-- A window with values placed by offset. -/
def windowOf (vs : List (Nat × Bytes)) : Bytes := bufLoad 0 (vs.foldl (fun m p => bufStore 0 m p.1 p.2) []) 0 8192

/-- R285: the attribute word a DERIVE gives its target. -/
def derivedAttr (s : State) (r : VaultRun) : BitVec 32 :=
  mkAttr (attrType r.arg) (attrUsage r.arg) 2 false (attrPersistent r.arg) (ownerOf s r.core) + BitVec.ofNat 32 (r.slot2 * 2 ^ 16 + 2 ^ 22)

/-- R285: DERIVE's target value out of K. -/
def deriveSlot (r : VaultRun) (k : Bytes) (s : State) : State :=
  let attr := derivedAttr s r
  let x := r.input.take r.ctxLen ++ vecBytes 4 attr
  vaultEnd eOk (fillSlot r.slot attr (kmac256 k x (typeLen (attrType attr)) (ascii "KFL-VAULT-DERIVE")) s)

/-- R293: KEY_ID of a symmetric key. -/
def symKeyId (value : Bytes) : Bytes := kmac256 value [] 48 (ascii "KFL-VAULT-KCV")

/-- R284, R293: the even slot of the hybrid pair that a slot is a half of. -/
def pairOf (s : State) (n : Nat) : Option Nat :=
  let isPair (e : Nat) : Bool := attrType (s.anchor e).attr == 4 && attrType (s.anchor (e + 1)).attr == 6 && attrPair (s.anchor (e + 1)).attr
  let e := n / 2 * 2
  if isPair e then some e else none

/-- R292: the body of a key statement. -/
def stmtBody (s : State) (slot : Nat) (nonce keyId : Bytes) : Bytes :=
  ascii "KFL-KSTM" ++ leBytes 2 1 ++ [BitVec.ofNat 8 slot, 0] ++ vecBytes 4 (s.anchor slot).attr ++ vecBytes 4 s.att.bootCount ++
    vecBytes 4 (s.vault.stmtSeq + 1) ++ vecBytes 4 s.boot.runSvn ++ zeros 4 ++ nonce ++ keyId ++ zeros 16

/-- R322: the window of a hybrid signature under the alias pair over a message. -/
def aliasWindow (s : State) (msg : Bytes) : Bytes :=
  windowOf [(offRep, hybE msg), (offRep + 64, hybMu (mldsaPublic 87 (s.anchor 3).value) msg)]

/-- R292: a statement whose KEY_ID is known is signed under the alias pair. -/
def stmtSign (r : VaultRun) (keyId : Bytes) (s : State) : State :=
  let body := stmtBody s r.slot (r.input.take 32) keyId
  vaultWait { r with body := body } (vaultJob 1 9 (some 2) (aliasWindow s body)) s

/-- R284, R291: GENERATE of a symmetric key, or SAVE, with the bytes it has drawn, or refused. -/
def vaultDrawn (r : VaultRun) (b : Option Bytes) (s : State) : State :=
  let a := s.anchor r.slot
  match b with
  | none => vaultEnd eAuth s
  | some b =>
    if r.code = 1 then
      vaultEnd eOk (fillSlot r.slot
        (mkAttr (attrType r.arg) (attrUsage r.arg) 1 (attrExport r.arg) (attrPersistent r.arg) (ownerOf s r.core)) b s)
    else
      let key := (s.anchor 5).value
      let head := blobMagic ++ [BitVec.ofNat 8 r.slot, 0] ++ vecBytes 4 a.attr ++ vecBytes 4 s.boot.runSvn ++ zeros 12 ++ b ++ zeros 4
      let ct := gcmCrypt key b (padTo 96 a.value)
      vaultEnd eOk (vaultOut 0 (head ++ ct ++ gcmTag key b head ct) s)

/-- R406: a command draws `n` bytes now, or waits for its turn. -/
def vaultDraw (r : VaultRun) (n : Nat) (s : State) : State :=
  if drawNow s then
    let d := drawBytes n s
    vaultDrawn r d.1 d.2
  else (s.modVault (fun v => { v with run := some r })).modEnt (fun e => { e with queue := e.queue ++ [(.vault, n)] })

/-- R369, R370, R377: whether a command needs a kind of digest core of which none is in service: Keccak cores for DERIVE, IMPORT and STATEMENT, SHA-2
cores for the cached states of a TYPE 0x2 key and for a statement's E. -/
def vaultDown (s : State) (r : VaultRun) : Bool :=
  let mac := (match r.code with
    | 1 => attrType r.arg
    | 3 => attrType r.arg
    | 4 => attrType (bytesVec 32 (slice r.input 1568 4))
    | 7 => attrType (bytesVec 32 (slice r.input 12 4))
    | _ => 0) == 2
  ((r.code == 3 || r.code == 4 || r.code == 9) && s.dig.kecCores == 0) || ((mac || r.code == 9) && s.dig.sha2Cores == 0)

/-- R284 to R293: a command that passes the checks of R289 up to its usage is carried out. -/
def vaultRun (r : VaultRun) (s : State) : State :=
  let a := s.anchor r.slot
  let b := s.anchor r.slot2
  match r.code with
  | 1 =>
    match typeParam (attrType r.arg) with
    | some p => vaultWait r (vaultJob 3 p none []) s
    | none => vaultDraw r (typeLen (attrType r.arg)) s
  | 2 => vaultWait r (vaultJob 3 9 none []) s
  | 3 =>
    if attrType b.attr = 8 then vaultWait r (vaultJob 5 2 (some r.slot2) (windowOf [(offPub, slice r.input 256 97)])) s
    else deriveSlot r b.value s
  | 4 => vaultWait r (vaultJob 7 8 (some r.slot2) (windowOf [(offSig, r.input.take 1568)])) s
  | 5 => vaultEnd eOk (vaultOut 8 (keyWrap (padTo 32 b.value) (padTo 96 a.value)) (vaultOut 0 (vecBytes 4 a.attr) s))
  | 6 => vaultDraw r 12 s
  | 7 =>
    let key := (s.anchor 5).value
    let head := r.input.take 48
    let iv := slice head 32 12
    let ct := slice r.input 48 96
    let attr := bytesVec 32 (slice head 12 4)
    if gcmTag key iv head ct ≠ slice r.input 144 16 then vaultEnd eAuth s
    else if s.boot.runSvn.toNat < fieldLe head 16 4 then vaultEnd 0x22 s
    else vaultEnd eOk (fillSlot r.slot attr ((gcmCrypt key iv ct).take (typeLen (attrType attr))) s)
  | 8 => vaultEnd eOk (clearSlot r.slot s)
  | _ =>
    match typeParam (attrType a.attr) with
    | none => stmtSign r (symKeyId a.value) s
    | some p =>
      match pairOf s r.slot with
      | some e => vaultWait r (vaultJob 4 9 (some e) []) s
      | none => vaultWait r (vaultJob 4 p (some r.slot) []) s

/-- R281, R288, R289, R310, R370: a write of VAULT_CMD. A command that needs a kind of digest core with none in service ends E_DIGDOWN, after the checks
of R289 (log 36). -/
def vaultCmdWrite (p : Path) (value : BitVec 32) (s : State) : State :=
  let s' := s.modVault (fun v => { v with cmd := value &&& 0x003F3FFF#32 })
  let core : Option Nat := match p with
    | .core c => some c.toNat
    | .port _ _ => none
  if !bitAt value 31 then s'
  else if s.vault.run.isSome then s.modVault (fun v => { v with dropped := satInc v.dropped })
  else
    match vaultRefused s core value with
    | some code => vaultEnd code (s'.modVault (fun v => { v with foreign := if core.isNone && code == eOwner then satInc v.foreign else v.foreign }))
    | none =>
      let r : VaultRun := { code := bitsOf value 7 0, slot := bitsOf value 13 8, slot2 := bitsOf value 21 16, core := core.getD 0,
                            arg := s.vault.arg, input := vaultIn s 0 8192, ctxLen := s.vault.len.toNat }
      if vaultDown s r then vaultEnd 0x72 s' else vaultRun r s'

/-- R339: a job of the vault's internal slot has ended. Its command ends with it, or goes on to its next job. -/
def vaultJobEnd (j : PkJob) (e : PkEnd) (s : State) : State :=
  match s.vault.run with
  | none => s
  | some r =>
    let out (o n : Nat) : Bytes := slice (((e.outs.find? (fun p => p.1 == o)).map Prod.snd).getD []) 0 n
    let priv := ((e.outs.find? (fun p => p.1 == offPriv)).map Prod.snd).getD []
    let pub := ((e.outs.find? (fun p => p.1 == offPub)).map Prod.snd).getD []
    let owner := ownerOf s r.core
    if e.code ≠ 0 then vaultEnd eAuth s
    else
      match r.code with
      | 1 => vaultEnd eOk (vaultOut 0 pub (fillSlot r.slot
          (mkAttr (attrType r.arg) (attrUsage r.arg) 1 (attrExport r.arg) (attrPersistent r.arg) owner) priv s))
      | 2 =>
        let at4 := mkAttr 4 5 1 (attrExport r.arg) (attrPersistent r.arg) owner
        let at6 := setBit (mkAttr 6 5 1 (attrExport r.arg) (attrPersistent r.arg) owner) 14 true
        vaultEnd eOk (vaultOut 128 (pub.drop 128) (vaultOut 0 (pub.take 97)
          (fillSlot (r.slot + 1) at6 (slice priv 48 32) (fillSlot r.slot at4 (priv.take 48) s))))
      | 3 => deriveSlot r (out offRep 48) s
      | 4 =>
        let req := bytesVec 32 (slice r.input 1568 4)
        match keyUnwrap (kmac256 (out offRep 32) (slice r.input 1568 4) 32 (ascii "KFL-VAULT-IMPORT")) (slice r.input 1576 104) with
        | none => vaultEnd eAuth s
        | some v => vaultEnd eOk (fillSlot r.slot (mkAttr (attrType req) (attrUsage req) 3 (attrExport req) (attrPersistent req) owner)
            (v.take (typeLen (attrType req))) s)
      | _ =>
        if j.op = 4 then stmtSign r (sha3_384 (if j.param = 9 then pub.take 97 ++ pub.drop 128 else pub)) s
        else (vaultEnd eOk (vaultOut 128 (out offSig 4723) (vaultOut 0 r.body s))).modVault (fun v => { v with stmtSeq := v.stmtSeq + 1 })

/-- R289, R307, R310: a write of VAULT_CMD with GO. In tamper-cleared the write is dropped and its command ends E_TAMPER, 0x24, which the vault page
shows. -/
def vaultGo (p : Path) (value : BitVec 32) (s : State) : State :=
  if !s.ports.rstCold && s.cleared && privileged p && reaches s p (vaultPage + 0x20) && clocked s (vaultPage + 0x20) then accessOk p 0 (vaultEnd 0x24 s)
  else writeOwned p (vaultPage + 0x20) (privileged p) (State.modVault (fun v => { v with foreign := satInc v.foreign })) (vaultCmdWrite p value) s

/-- A write of VAULT_CMD that starts the command with a given code; any other write is another row's. -/
def vaultRow (code : Nat) (p : Path) (value : BitVec 32) (s : State) : State :=
  onlyIf (bitAt value 31 && bitsOf value 7 0 == code) (vaultGo p value) s

/-- VAULT_GENERATE (R275, R278, R280 to R282, R284, R288, R289, R318, R328, R377, R378). -/
def execVaultGenerate (p : Path) (value : BitVec 32) (s : State) : Out := done (vaultRow 1 p value s)

/-- VAULT_GENERATE_PAIR (R280 to R282, R284, R288, R289, R318, R328). -/
def execVaultGeneratePair (p : Path) (value : BitVec 32) (s : State) : Out := done (vaultRow 2 p value s)

/-- VAULT_DERIVE (R278, R280 to R282, R284, R285, R288, R289, R318). -/
def execVaultDerive (p : Path) (value : BitVec 32) (s : State) : Out := done (vaultRow 3 p value s)

/-- VAULT_IMPORT (R275, R280 to R282, R284, R285, R288, R289, R318). -/
def execVaultImport (p : Path) (value : BitVec 32) (s : State) : Out := done (vaultRow 4 p value s)

/-- VAULT_EXPORT (R280, R281, R284, R286, R288, R289). -/
def execVaultExport (p : Path) (value : BitVec 32) (s : State) : Out := done (vaultRow 5 p value s)

/-- SAVE (R278, R280, R281, R284, R288 to R291). -/
def execSave (p : Path) (value : BitVec 32) (s : State) : Out := done (vaultRow 6 p value s)

/-- RESTORE (R278, R280 to R282, R284, R288 to R291, R377, R378). -/
def execRestore (p : Path) (value : BitVec 32) (s : State) : Out := done (vaultRow 7 p value s)

/-- CLEAR (R278, R280, R281, R284, R288, R289, R379). -/
def execClear (p : Path) (value : BitVec 32) (s : State) : Out := done (vaultRow 8 p value s)

/-- STATEMENT (R280, R281, R284, R288, R289, R292, R293, R318, R322). -/
def execStatement (p : Path) (value : BitVec 32) (s : State) : Out := done (vaultRow 9 p value s)

end Sys2Proof.Machine
end

