-- ==== Sys2Proof/Machine/Quotes.lean ====
section
/-!
DEFINITION. Quotes (R259, R421, R453 to R460, R563, R609, R610): who may have one, batches, bodies, the batch tree, the signature of a
batch and the responses.
-/

namespace Sys2Proof.Machine
open Sys2Proof

/-! ### What a quote states (R258, R259, R294, R454) -/

/-- R294: the code of a domain's state. -/
def DomState.code : DomState → Nat
  | .free => 0
  | .created => 1
  | .keyed => 2
  | .rotating => 3
  | .sweepWait => 4
  | .sweeping => 5
  | .retiringOld => 6
  | .tearDrain => 7
  | .tearSweep => 8
  | .tearRetire => 9

/-- R198: the code of a custody state. -/
def Custody.code : Custody → Nat
  | .none => 0
  | .awaitingKey => 1
  | .keyHeld => 2
  | .ingesting => 3
  | .resident => 4
  | .revoking => 5

/-- R258: the 128 bytes of a result record. -/
def ResultRec.bytes (r : ResultRec) : Bytes :=
  leBytes 2 r.domain ++ [r.kind, r.mode, r.outcome, r.level, 0, 0] ++ vecBytes 4 r.jobSeq ++ vecBytes 4 r.gen ++ vecBytes 8 r.total ++
    vecBytes 8 r.index ++ vecBytes 8 r.baseLen ++ zeros 8 ++ padTo 32 r.baseRoot ++ padTo 32 r.result ++ zeros 16

/-- R563: the block has a unit, not excluded, that has yet to pass its self-test. -/
def seedConfig (s : State) : Bool :=
  !s.brup.unitsLeft.isEmpty || !s.boot.bootValid || (!s.pk.dpA && !s.pk.dpAOut) || (!s.pk.dpB && !s.pk.dpBOut) || allGuards.any (fun g => (s.guardN g).banks.any (fun b => !b.tested && !b.excluded))

/-- R454: FLAGS. -/
def quoteFlags (s : State) : Nat :=
  bitNat 0 s.att.logLost + bitNat 1 s.att.certMismatch + bitNat 2 (seedConfig s) + bitNat 3 s.fuse.inForce + bitNat 4 s.mir.site

/-- R454, R579: the fingerprint of each guard, zero for a fenced one. -/
def quoteFingerprints (s : State) : Bytes :=
  (allGuards.map (fun g => vecBytes 4 (if (s.guardN g).fenced then 0 else guardFp s g))).flatten

/-- R454: the bitmap of fenced guards. -/
def fencedMap (s : State) : Nat := (allGuards.map (fun g => bitNat g (s.guardN g).fenced)).sum

/-- R454, R259: whether a session is the tenant or the model owner of a domain. -/
def isOwner (s : State) (sess d : Nat) : Bool :=
  match (s.sess sess).bind Session.cred with
  | none => false
  | some c => if 4096 ≤ d then (s.model d).any (fun m => m.ownerCred == c) else (s.dom d).any (fun r => r.owner == some c)

/-- R259, R454: RESULT: the result record, for the owner alone; that of a model domain once a re-measure has ended. -/
def quoteResult (s : State) (q : QuoteReq) : Bytes :=
  match s.mower.results.find? (fun r => r.domain == q.domain) with
  | none => zeros 128
  | some r => if q.kind = 1 ∧ isOwner s q.sess q.domain ∧ (q.domain < 4096 ∨ r.kind = 1) then r.bytes else zeros 128

/-- R454: the body of a quote. -/
def quoteBody (s : State) (q : QuoteReq) : Bytes :=
  let named := q.kind == 1
  let d := if named then s.dom q.domain else none
  let m := if named then s.model q.domain else none
  ascii "KFL-QUOT" ++ leBytes 2 1 ++ leBytes 2 q.domain ++
    leBytes 1 (if !named then 0 else if q.domain < 4096 then 1 else 2) ++ leBytes 1 (lifeCycle s) ++
    leBytes 1 ((d.map (fun r => r.state.code)).getD 0) ++ leBytes 1 ((m.map (fun r => r.custody.code)).getD 0) ++
    leBytes 1 ((d.map (fun r => r.mode.code)).getD 0) ++ leBytes 1 (quoteFlags s) ++ zeros 2 ++
    vecBytes 4 ((d.map DomRec.newest).getD 0) ++ vecBytes 4 s.att.bootCount ++ vecBytes 4 s.boot.runSvn ++ leBytes 4 (cairn s) ++
    [3, 1, 0, 0] ++ padTo 32 q.nonce ++ padTo 48 s.att.romDigest ++ padTo 48 s.att.fwDigest ++ padTo 48 s.att.nodeLog ++
    quoteFingerprints s ++ leBytes 8 (fencedMap s) ++ quoteResult s q ++ padTo 32 ((m.map ModelRec.root).getD []) ++
    leBytes 8 ((m.map ModelRec.payload).getD 0) ++ vecBytes 4 ((m.map ModelRec.grantSeq).getD 0) ++ zeros 4 ++
    padTo 32 ((m.map ModelRec.ownerKeyId).getD []) ++ zeros 16

/-! ### The batch tree and its header (R457 to R459) -/

/-- R457: the hashes of the 256 leaf positions. -/
def batchLeaves (bodies : List Bytes) : List Bytes :=
  bodies.map (fun b => sha3_384 (0x00 :: b)) ++ List.replicate (256 - bodies.length) (sha3_384 [0x02])

/-- R457: the nodes one height above. -/
def batchUp : List Bytes → List Bytes
  | a :: b :: l => sha3_384 (0x01 :: a ++ b) :: batchUp l
  | _ => []

/-- R457: the nodes at each height from 0, as many heights as asked for. -/
def batchLevels : Nat → List Bytes → List (List Bytes)
  | 0, l => [l]
  | n + 1, l => l :: batchLevels n (batchUp l)

/-- R457: the root of the batch tree. -/
def batchRoot (bodies : List Bytes) : Bytes := ((batchLevels 8 (batchLeaves bodies)).getD 8 []).headD []

/-- R459: PATH of a position: the sibling at each height from 0 to 7. -/
def batchPath (bodies : List Bytes) (i : Nat) : Bytes :=
  ((batchLevels 8 (batchLeaves bodies)).take 8).zipIdx.flatMap (fun p => p.1.getD ((i / 2 ^ p.2) ^^^ 1) [])

/-- R458: the batch header. -/
def batchHeader (s : State) (seq : BitVec 64) (bodies : List Bytes) : Bytes :=
  ascii "KFL-QBAT" ++ leBytes 2 1 ++ leBytes 2 bodies.length ++ vecBytes 4 s.att.bootCount ++ vecBytes 8 seq ++
    vecBytes 4 s.boot.runSvn ++ zeros 4 ++ batchRoot bodies

/-- R459: the body of a QUOTE response. -/
def quoteResponse (b : QuoteBatch) (sig : Bytes) (i : Nat) : Bytes :=
  b.header ++ padTo 4723 sig ++ leBytes 1 i ++ zeros 7 ++ batchPath b.bodies i ++ b.bodies.getD i []

/-! ### Signatures and responses (R459, R460, R610) -/

/-- The request of a quote as a requester to answer. -/
def QuoteReq.waiter (q : QuoteReq) : Waiter := { sess := q.sess, msg := q.msg, tag := q.tag }

/-- The state with a closed batch changed by `f`. -/
def modBatch (seq : BitVec 64) (f : QuoteBatch → QuoteBatch) (s : State) : State :=
  s.modAtt (fun a => { a with closed := mapIf (fun b => b.seq == seq) f a.closed })

/-- A closed batch leaves the list. -/
def dropBatch (seq : BitVec 64) (s : State) : State := s.modAtt (fun a => { a with closed := a.closed.filter (fun b => b.seq != seq) })

/-- R460, R610: the responses of every batch whose signature is made and whose QUOTE_SEQ no longer waits for the standby are sent. -/
def releaseQuotes (s : State) : State :=
  forEach s.att.closed (fun b t =>
    match b.sig, b.mirrored with
    | some sig, true =>
      forEach b.reqs.zipIdx (fun p u => reply { p.1.waiter with body := quoteResponse b sig p.2 } eOk u) (dropBatch b.seq t)
    | _, _ => t) s

/-- R460: the signature of a batch has ended: OK, submitted once more, or failed twice and every request answered E_BUSY. -/
def quoteEnd (e : PkEnd) (s : State) : State :=
  match s.att.closed.find? (fun b => b.signing) with
  | none => s
  | some b =>
    if e.code = 0 then
      releaseQuotes (modBatch b.seq (fun x => { x with
        signing := false, sig := some ((((e.outs.find? (fun p => p.1 == offSig)).map Prod.snd).getD []).take 4723) }) s)
    else if !b.retried then modBatch b.seq (fun x => { x with signing := false, retried := true }) s
    else forEach b.reqs (fun q t => refuse q.waiter 0x15 t) (dropBatch b.seq s)

/-- R37, R316: a job slot of the boot core that has no job. -/
def bootPkSlot (s : State) : Option Nat := [2 * s.boot.bootCore, 2 * s.boot.bootCore + 1].find? (fun k => !s.pk.busy k)

/-- R322, R327, R460: the signature of a batch header is submitted from a job slot of the boot core. -/
def quoteSubmit (k : Nat) (b : QuoteBatch) (s : State) : State :=
  let mu := hybMu (mldsaPublic 87 (s.anchor 3).value) b.header
  let s := modBatch b.seq (fun x => { x with signing := true }) s
  let s := modSlot k (fun x => { x with
    cmd := 0x00050901#31, len := 0, window := bufStore 0 (bufStore 0 x.window offRep (hybE b.header)) (offRep + 64) mu }) s
  pkSubmit { slot := k, op := 1, param := 9, keySrc := true, anchor := 2, long := true, batch := true } s

/-- R460: batches are submitted in order of QUOTE_SEQ, one at a time; without a datapath a submission ends at once. `fuel` bounds those. -/
def quotePump : Nat → State → State
  | 0, s => s
  | fuel + 1, s =>
    if s.att.closed.any (·.signing) then s
    else match s.att.closed.find? (fun b => b.sig.isNone), bootPkSlot s with
      | some b, some k =>
        let t := quoteSubmit k b s
        if pkMode s.pk = 3 then quotePump fuel (quoteEnd { code := 0x69 } t) else t
      | _, _ => s

/-- R460: batches that wait are submitted while they can be. -/
def pumpQuotes (s : State) : State := quotePump (2 * s.att.closed.length + 2) s

/-- R460: a job that signs a batch has ended. -/
def quoteSigned (e : PkEnd) (s : State) : State := pumpQuotes (quoteEnd e s)

/-! ### Requests and batches (R453, R455, R456) -/

/-- R421, R455 to R458, R609, R610: the open batch closes: its bodies are filled at this instant, and its header waits for a signature. -/
def closeBatch (s : State) : State :=
  match s.att.batch with
  | none => s
  | some reqs =>
    let seq := s.att.quoteSeq + 1
    let bodies := reqs.map (quoteBody s)
    let wait := s.mir.session && !s.mir.site && s.mir.ready
    let b : QuoteBatch := { seq := seq, reqs := reqs, bodies := bodies, header := batchHeader s seq bodies, mirrored := !wait }
    let s := s.modAtt (fun a => { a with batch := none, quoteSeq := seq, closed := a.closed ++ [b] })
    let s := onlyIf (s.mir.session && !s.mir.site)
      (mirSend { frame := { body := .counters s.att.bootCount seq }, batchSeq := if wait then some seq else none }) s
    pumpQuotes s

/-- R455: a permitted request joins the open batch, which it opens if none is, and closes as the 256th. -/
def joinBatch (q : QuoteReq) (s : State) : State :=
  let s := s.modAtt (fun a => { a with batch := some (a.batch.getD [] ++ [q]), batchAt := if a.batch.isSome then a.batchAt else s.timer })
  onlyIf (s.att.batch.any (fun b => 256 ≤ b.length)) closeBatch s

/-- R453: whether a session may have the quote it asks for. -/
def quotePermitted (s : State) (x : Session) (kind d : Nat) : Bool :=
  if kind = 0 then true
  else if x.operator then false
  else if d < 4096 then
    (match s.dom d with
      | none => true
      | some r => r.state == .created || isOwner s x.id d)
  else custody s d == .none || custody s d == .awaitingKey || isOwner s x.id d ||
    (x.cred.isSome && s.ks.doms.any (fun r => r.id < 4096 && r.owner == x.cred && readerBit (tables s).readers d r.id))

/-- R16, R453: a quote request is decided: a reserved KIND or field, a DOMAIN that does not exist, then permission. -/
def decideQuote (w : Waiter) (body : Bytes) (s : State) : State :=
  let kind := fieldLe body 0 1
  let d := fieldLe body 2 2
  match s.sess w.sess with
  | none => s
  | some x =>
    if 1 < kind ∨ fieldLe body 1 1 ≠ 0 ∨ fieldLe body 4 4 ≠ 0 ∨ (kind = 0 ∧ d ≠ 0) then refuse w eReserved s
    else if 4351 < d then refuse w eRange s
    else if !quotePermitted s x kind d then refuse w eOwner s
    else joinBatch { sess := w.sess, tag := w.tag, msg := w.msg, kind := kind, domain := d, nonce := slice body 8 32 } s

end Sys2Proof.Machine
end

