-- ==== Sys2Proof/Machine/PkJobs.lean ====
section
/-!
DEFINITION. Public-key jobs from submission to their ends (R311 to R318, R334 to R362, R365 to R367): queues, starts, the validation
boundary, checkpoints, ends, aborts, scrubs, self-tests and the loss of a datapath.
-/

namespace Sys2Proof.Machine
open Sys2Proof

/-- The control page of the public-key engine (R365). -/
def pkPage : Nat := 0x30000

/-- The job page of a slot (R366, R682). -/
def pkSlotPage (slot : Nat) : Nat := 0x31000 + 0x3000 * slot

/-- R317: a write that the owner rule refuses is counted in PK_FOREIGN. -/
def pkForeign (s : State) : State := s.modPk (fun k => { k with foreign := satInc k.foreign })

/-- R317: whether a path is that of the management core that owns a slot. -/
def ownsSlot (slot : Nat) : Path → Bool
  | .core c => c.toNat == slot / 2
  | .port _ _ => false

/-! ### Areas (R360, R361) -/

/-- R361: WIPED of a slot without a job rises once every area that its last job used is free of its values. -/
def noteWiped (slot : Nat) (s : State) : State :=
  if s.pk.busy slot then s
  else modSlot slot (fun x => { x with wiped := x.wiped || (x.valid && s.pk.clean slot x.long x.mode) }) s

/-- R360, R361: an area of a datapath and its key register are wiped; WIPED of the slot whose last job it held rises with the last of them. -/
def wipeArea (long b : Bool) (s : State) : State :=
  let s' := modCell b long (fun a => { a with dirty := false, key := [] }) s
  match (s.pk.cell b long).owner with
  | none => s'
  | some o => noteWiped o s'

/-- R348, R357, R361: the areas and key registers that a job uses are wiped. -/
def wipeJob (long : Bool) (j : PkJob) (s : State) : State := forEach (modeDps j.mode) (wipeArea long) s

/-- R360: the key registers that a job used are wiped at its end. -/
def dropKeys (long : Bool) (j : PkJob) (s : State) : State :=
  forEach (modeDps j.mode) (fun b => modCell b long (fun a => { a with key := [] })) s

/-- The job in progress in an area. -/
def Pk.area (k : Pk) (long : Bool) : Option PkJob := if long then k.longRun else k.shortRun

/-- The state with the job in progress in an area set. -/
def setArea (long : Bool) (j : Option PkJob) (s : State) : State :=
  s.modPk (fun k => if long then { k with longRun := j } else { k with shortRun := j })

/-! ### Starts (R335, R340, R353, R354, R360) -/

/-- R327, R334, R340: the verdict of a job's validation, and its random inputs, drawn only where it passes. The job stands in no queue and no area,
and its key is the one for its key registers. -/
def loadJob (key : Bytes) (j : PkJob) (s : State) : PkJob × State :=
  let j := { j with mode := pkMode s.pk, phase := .running, draws := [], verdict := 0, again := false }
  match pkRefused s j key with
  | some c => ({ j with verdict := c }, s)
  | none =>
    match pkDraw j key (pkSet s.pk j.param.toNat) s with
    | (none, s) => ({ j with verdict := 0x6A }, s)
    | (some d, s) => ({ j with draws := d }, s)

/-- R353, R354: the class of the job that may start now, if one may: while a long job is switched out, one of its batch; otherwise the
oldest waiting job, once a full self-test that is due has run (R345). -/
def pkNext (k : Pk) : Option Bool :=
  if pkMode k == 3 || k.shortRun.isSome then none
  else
    match k.longRun with
    | some l => if l.phase == .yielded && k.batchLeft != 0 && !k.shortQ.isEmpty then some false else none
    | none =>
      if k.stDue then none
      else match k.shortQ, k.longQ with
      | [], [] => none
      | _ :: _, [] => some false
      | [], _ :: _ => some true
      | a :: _, b :: _ => some (b.goAt < a.goAt)

/-- R331, R332: CHECK_CURVE empties the entry it names when it starts, unless another job names it. -/
def emptyEntry (j : PkJob) (s : State) : State :=
  onlyIf (j.op == 8 && paramLoaded j.param.toNat && !entryUsed s.pk j.param.toNat)
    (State.modPk (fun k => { k with curves := vmod k.curves (j.param.toNat - 0x20) (fun _ => none) })) s

/-- R311, R326, R331, R348, R353, R360: a job of no queue and no area starts in the areas of its class of the datapaths of the effective mode, each
wiped first where its last job had another owner. -/
def placeJob (long : Bool) (j : PkJob) (s : State) : State :=
  let mode := pkMode s.pk
  let s := forEach (modeDps mode) (fun b t => onlyIf ((t.pk.cell b long).owner != some j.slot) (wipeArea long b) t) s
  let s := emptyEntry j s
  let key := pkKey s j
  let r := loadJob key j s
  let s := forEach (modeDps mode) (fun b =>
    modCell b long (fun _ => { owner := some j.slot, dirty := true, key := if r.1.verdict = 0 then key else [] })) r.2
  modSlot j.slot (fun x => { x with mode := mode, restarted := j.restarted, yielded := j.yieldedOnce }) (setArea long (some r.1) s)

/-- PK_JOB_START (R326, R327, R331, R334, R335, R340, R341, R343, R344, R353, R354, R356, R360, R367): the oldest waiting job is taken
from its queue into the area of its class. One that draws random inputs starts when the DRBG answers it at once (R405, R406). -/
def execPkJobStart (long : Bool) (s : State) : Out :=
  done (whenUp s fun s =>
    if pkNext s.pk ≠ some long then s
    else
      match if long then s.pk.longQ else s.pk.shortQ with
      | [] => s
      | j :: q =>
        if !drawNow s && j.op != 2 && j.op != 7 then s
        else
        let s := s.modPk (fun k => if long then { k with longQ := q } else { k with shortQ := q, batchLeft := k.batchLeft - 1 })
        let win := if j.slot < 8 then bufLoad 0 (s.pk.slots.toList.getD j.slot {}).window 0 8192 else j.window
        placeJob long { j with window := win } s)

/-! ### Ends (R338, R339, R347, R348, R354, R359, R360) -/

/-- R354: a switched-out long job is switched in once its batch has run; one that lost its datapath starts again (R348). -/
def switchIn (s : State) : State :=
  match s.pk.longRun with
  | none => s
  | some l =>
    if l.phase == .yielded && s.pk.shortRun.isNone && (s.pk.batchLeft == 0 || s.pk.shortQ.isEmpty) then
      if l.again then placeJob true l (setArea true none s)
      else setArea true (some { l with phase := .validated }) s
    else s

/-- What a job that has left the engine leaves: its status, and what waits for it. -/
def pkLeave (j : PkJob) (e : PkEnd) (boundary : Bool) (s : State) : State :=
  let s := slotEnd j e boundary s
  if j.vaultCmd then vaultJobEnd j e s else if j.batch then quoteSigned e s else pumpQuotes s

/-- R338: the job in progress in an area ends. -/
def pkEnd (long : Bool) (e : PkEnd) (boundary : Bool) (s : State) : State :=
  match s.pk.area long with
  | none => s
  | some j => switchIn (dropKeys long j (pkLeave j e boundary (setArea long none s)))

/-- R338: with no datapath in service every queued job ends at once. -/
def pkDownAll (s : State) : State :=
  if pkMode s.pk ≠ 3 then s
  else
    let q := s.pk.shortQ ++ s.pk.longQ
    forEach q (fun j t => pkLeave { j with mode := 3 } { code := 0x69 } false t)
      (s.modPk (fun k => { k with shortQ := [], longQ := [], batchLeft := 0 }))

/-- PK_VALIDATION_BOUNDARY (R334, R335, R338, R342, R347): 2,048 lane cycles after its start a refused job ends with its code; two
validations that differ (`runsDiffer`) end it E_COMPARE. -/
def execPkValidationBoundary (long runsDiffer : Bool) (s : State) : Out :=
  done (whenUp s fun s =>
    match s.pk.area long with
    | none => s
    | some j =>
      if j.phase ≠ .running then s
      else if runsDiffer then pkEnd long { code := 0x67 } true (pkMismatch j s)
      else if j.verdict ≠ 0 then pkEnd long { code := j.verdict } true s
      else setArea long (some { j with phase := .validated }) s)

/-- PK_CHECKPOINT (R313, R354 to R356, R366): a long job yields to the short jobs that wait there. -/
def execPkCheckpoint (s : State) : Out :=
  done (whenUp s fun s =>
    match s.pk.longRun with
    | none => s
    | some j =>
      onlyIf (j.phase == .validated && s.pk.shortRun.isNone && !s.pk.shortQ.isEmpty) (fun s =>
        (setArea true (some { j with phase := .yielded, yieldedOnce := true }) (modSlot j.slot (fun x => { x with yielded := true }) s)).modPk (fun k => { k with batchLeft := k.shortQ.length })) s)

/-- PK_JOB_END (R326, R332, R333, R336, R338 to R341, R347, R359, R360): the runs of a validated job are complete. Where they differ
(`runsDiffer`) it ends E_COMPARE; otherwise its outputs and its status are written together. -/
def execPkJobEnd (long runsDiffer : Bool) (s : State) : Out :=
  done (whenUp s fun s =>
    match s.pk.area long with
    | none => s
    | some j =>
      if j.phase ≠ .validated then s
      else if runsDiffer then pkEnd long { code := 0x67 } false (pkMismatch j s)
      else
        let e := pkCompute s.pk (s.pk.keyOf long j) j
        let s := match e.curve with
          | none => s
          | some c => s.modPk (fun k => { k with curves := vmod k.curves (j.param.toNat - 0x20) (fun _ => some c) })
        pkEnd long e false s)

/-! ### Aborts and scrubs (R357, R358, R361) -/

/-- R357: the job of a slot is aborted: a queued one ends at once, one in progress stops and its areas are to be wiped. -/
def pkAbortSlot (slot : Nat) (s : State) : State :=
  let isIt (j : PkJob) : Bool := j.slot == slot
  let stop (o : Option PkJob) : Option PkJob := o.map (fun j => if isIt j then { j with phase := .aborting } else j)
  match (s.pk.shortQ ++ s.pk.longQ).find? isIt with
  | some j =>
    switchIn (pkLeave { j with mode := 3 } { code := 0x68 } false (s.modPk (fun k =>
      { k with shortQ := k.shortQ.filter (fun x => !isIt x), longQ := k.longQ.filter (fun x => !isIt x),
               batchLeft := if (k.shortQ.take k.batchLeft).any isIt then k.batchLeft - 1 else k.batchLeft })))
  | none => s.modPk (fun k => { k with shortRun := stop k.shortRun, longRun := stop k.longRun })

/-- R361: each area that holds values of a slot's last job is wiped, unless a job of the slot is in progress there. -/
def pkScrubSlot (slot : Nat) (s : State) : State :=
  noteWiped slot (forEach [(false, false), (false, true), (true, false), (true, true)] (fun p t =>
    onlyIf ((t.pk.cell p.2 p.1).owner == some slot && !(t.pk.area p.1).any (fun j => j.slot == slot && (modeDps j.mode).contains p.2))
      (wipeArea p.1 p.2) t) s)

/-- R357, R361: a write of PK_JOB_CTL. -/
def pkCtlWrite (slot : Nat) (value : BitVec 32) (s : State) : State :=
  onlyIf (bitAt value 1) (pkScrubSlot slot) (onlyIf (bitAt value 0) (pkAbortSlot slot) s)

/-- PK_ABORT (R317, R357): ABORT is written. -/
def execPkAbort (slot : Fin 8) (p : Path) (value : BitVec 32) (s : State) : Out :=
  done (onlyIf (bitAt value 0)
    (writeGated p (pkSlotPage slot.toNat + 0x2C) (ownsSlot slot.toNat p) pkForeign (pkCtlWrite slot.toNat value)) s)

/-- SCRUB (R317, R361): SCRUB is written without ABORT. -/
def execPkScrub (slot : Fin 8) (p : Path) (value : BitVec 32) (s : State) : Out :=
  done (onlyIf (bitAt value 1 && !bitAt value 0)
    (writeGated p (pkSlotPage slot.toNat + 0x2C) (ownsSlot slot.toNat p) pkForeign (pkCtlWrite slot.toNat value)) s)

/-- PK_ABORT_COMPLETE (R338, R357, R359 to R361): the areas of an aborted job are wiped and it ends E_ABORTED with WIPED set. -/
def execPkAbortComplete (long : Bool) (s : State) : Out :=
  done (whenUp s fun s =>
    match s.pk.area long with
    | none => s
    | some j =>
      if j.phase ≠ .aborting then s
      else
        let s := if long then s.modPk (fun k => { k with batchLeft := 0 }) else s
        pkEnd long { code := 0x68 } false (wipeJob long j s))

/-- R358: a reset of a management core aborts the jobs of its two slots and clears their windows. -/
def pkCoreReset (core : Nat) (s : State) : State :=
  forEach [2 * core, 2 * core + 1] (fun i t => modSlot i (fun x => { x with window := [] }) (pkAbortSlot i t)) s

/-! ### Datapaths and self-tests (R314, R343 to R346, R348) -/

/-- R348: what the loss of a datapath does to the job in an area: it starts again on the other one, or ends E_PKDOWN. `b` is the
datapath lost. -/
def pkLost (b long : Bool) (s : State) : State :=
  match s.pk.area long with
  | none => s
  | some j =>
    if j.phase == .aborting || !(modeDps j.mode).contains b then s
    else
      let s := wipeJob long j s
      if pkMode s.pk = 3 then pkEnd long { code := 0x69 } false s
      else
        let j := { j with restarted := true }
        let s := s.modPk (fun k => { k with restarts := satInc k.restarts })
        if j.phase == .yielded then
          modSlot j.slot (fun x => { x with restarted := true }) (setArea long (some { j with again := true, mode := pkMode s.pk, draws := [] }) s)
        else placeJob long j (setArea long none s)

/-- R314, R346, R348: a datapath leaves service until the next reset of the security core. `why` is DETAIL. -/
def pkOut (b : Bool) (why : Nat) (s : State) : State :=
  let s := raise false kPk (if b then 1 else 0) fPkDatapath 4 why
    (s.modPk (fun k => if b then { k with dpB := false, dpBOut := true } else { k with dpA := false, dpAOut := true }))
  pkDownAll (pkLost b true (pkLost b false s))

/-- Whether a datapath is in service. -/
def Pk.dp (k : Pk) (b : Bool) : Bool := if b then k.dpB else k.dpA

/-- R346: whether a datapath has left service until the next reset of the security core. -/
def Pk.dpOut (k : Pk) (b : Bool) : Bool := if b then k.dpBOut else k.dpAOut

/-- PK_DATAPATH (R314, R344, R346, R348): an uncorrectable ECC error, or a residue mismatch (`residue`), takes a datapath out of service, also one
that has not passed its self-test yet. -/
def execPkDatapath (datapathB residue : Bool) (s : State) : Out :=
  done (whenUp s (onlyIf (!s.pk.dpOut datapathB && !s.tamper.latch) (pkOut datapathB (if residue then 2 else 1))))

/-- PK_PERIODIC_KAT (R345, R346): the known-answer check of a datapath's units, with its outcome. -/
def execPkPeriodicKat (datapathB good : Bool) (s : State) : Out :=
  done (whenUp s (onlyIf (s.pk.dp datapathB && !good) (pkOut datapathB 4)))

/-- R345, R365: a write of PK_CTL: FC_MODE, whose reserved value leaves the field, and a request of a full self-test. -/
def pkCtlRegWrite (value : BitVec 32) (s : State) : State :=
  s.modPk (fun k => { k with fcMode := if bitsOf value 1 0 = 3 then k.fcMode else BitVec.ofNat 2 (bitsOf value 1 0),
                             selftest := k.selftest || bitAt value 2, stDue := k.stDue || bitAt value 2 })

/-- FC_MODE (R343, R365): PK_CTL is written without SELFTEST. -/
def execFcMode (p : Path) (value : BitVec 32) (s : State) : Out :=
  done (onlyIf (!bitAt value 2) (writeAt true p (pkPage + 0x20) (pkCtlRegWrite value)) s)

/-- PK_SELFTEST (R345, R365): PK_CTL is written with SELFTEST. -/
def execPkSelftest (p : Path) (value : BitVec 32) (s : State) : Out :=
  done (onlyIf (bitAt value 2) (writeAt true p (pkPage + 0x20) (pkCtlRegWrite value)) s)

/-- R346, R567, R569: the start-time test of a datapath has found it bad. -/
def pkFinding (b : Bool) (s : State) : State := queueFinding { cls := 4, site := s.mir.site, index := bitNat 0 b } s

/-- PK_SELFTEST_END (R343 to R346, R569): the full self-test, run between jobs on each datapath that is not out of service, ends with the
outcome of each. The one after a reset is a datapath's start-time test. -/
def execPkSelftestEnd (goodA goodB : Bool) (s : State) : Out :=
  done (whenUp s fun s =>
    onlyIf (s.pk.stDue && s.pk.shortRun.isNone && s.pk.longRun.isNone && s.ports.pairDone) (fun s =>
      let a := !s.pk.dpAOut
      let b := !s.pk.dpBOut
      let first (d : Bool) (t : State) : State := onlyIf (!s.pk.dp d) (pkFinding d) t
      let t := s.modPk (fun k => { k with stDue := false, selftest := false, dpA := a && goodA, dpB := b && goodB })
      onlyIf (b && !goodB) (fun t => first true (pkOut true 4 t)) (onlyIf (a && !goodA) (fun t => first false (pkOut false 4 t)) t)) s)

end Sys2Proof.Machine
end

