-- ==== Sys2Proof/Machine/BootKeys.lean ====
section
/-!
DEFINITION. The key pairs that the key service generates at every boot and takeover (R288, R292, R428), and public-key jobs that firmware carries out
in one step.
-/

namespace Sys2Proof.Machine
open Sys2Proof

/-- A public-key job that firmware carries out for a session, in one step (log 41). -/
def pkNow (op param : Nat) (anchor : Option Nat) (window : Bytes) (s : State) : PkEnd × State :=
  if pkMode s.pk = 3 then ({ code := 0x69 }, s)
  else
    let j := vaultJob op param anchor window
    let key := pkKey s j
    let r := loadJob key j s
    if r.1.verdict ≠ 0 then ({ code := r.1.verdict }, r.2)
    else (pkCompute r.2.pk key r.1, r.2.modPk (fun k => { k with jobsDone := k.jobsDone + 1 }))

/-- An output of a job, where the job ended OK. -/
def PkEnd.out (e : PkEnd) (offset n : Nat) : Option Bytes :=
  if e.code ≠ 0 then none else (e.outs.find? (fun p => p.1 == offset)).map (fun p => p.2.take n)

/-- R292: a key statement signed under the alias pair at once: the statement and its signature. -/
def stmtNow (slot : Nat) (keyId : Bytes) (s : State) : Option Bytes × State :=
  let body := stmtBody s slot (zeros 32) keyId
  let r := pkNow 1 9 (some 2) (aliasWindow s body) s
  ((r.1.out offSig 4723).map (body ++ ·), r.2.modVault (fun v => { v with stmtSeq := if r.1.code = 0 then v.stmtSeq + 1 else v.stmtSeq }))

/-- R428: one boot pair generated in an empty anchor slot of the key service: its public key and statement. -/
def kexPair (slot param : Nat) (attr : BitVec 32) (s : State) : Option (Bytes × Bytes) × State :=
  let r := pkNow 3 param none [] s
  match r.1.out offPriv 96, r.1.out offPub 2720 with
  | some priv, some pub =>
    let t := stmtNow slot (sha3_384 pub) (fillSlot slot attr priv r.2)
    (t.1.map (fun x => (pub, x)), t.2)
  | _, _ => (none, r.2)

/-- R288, R428: the two boot pairs, generated in the first two empty slots from 32 on where they do not exist yet. Their generation is put off
while a vault command is in progress, and where the DRBG or the engine cannot serve (log 41). -/
def kexSetup (s : State) : State :=
  if !s.att.kexStmts.isEmpty || s.vault.run.isSome || !drawNow s then s
  else
    match ((List.range 32).map (· + 32)).filter (fun n => !(s.anchor n).occupied) with
    | a :: b :: _ =>
      match kexPair a 8 (mkAttr 7 2 1 false false 3) s with
      | (some kem, t) =>
        match kexPair b 2 (mkAttr 8 4 1 false false 3) t with
        | (some dh, u) => u.modAtt (fun x => { x with kemSlot := a, dhSlot := b, kemPub := kem.1, dhPub := dh.1, kexStmts := [kem.2, dh.2] })
        | (none, u) => clearSlot b (clearSlot a u)
      | (none, t) => clearSlot a t
    | _ => s

end Sys2Proof.Machine
end

