-- ==== Sys2Proof/Machine/Digest.lean ====
section
/-!
DEFINITION. Digest contexts, exports, the compare unit and the self-test (R369 to R398, R409, R410).
-/

namespace Sys2Proof.Machine
open Sys2Proof

/-- The digest control page (R409). -/
def digPage : Nat := 0x50000

/-- The page of a context (R410). -/
def ctxPage (c : Nat) : Nat := 0x51000 + 0x1000 * c

/-- A context by number. -/
def State.ctx (s : State) (c : Nat) : Ctx := s.dig.ctxs.toList.getD c {}

/-- A core's region of the control page by number. -/
def State.digRegion (s : State) (k : Nat) : DigCore := s.dig.regions.toList.getD k {}

/-- The state with a core's region changed by `f`. -/
def modRegion (k : Nat) (f : DigCore → DigCore) (s : State) : State := s.modDig (fun d => { d with regions := vmod d.regions k f })

/-- The management core of a path. -/
def coreOf : Path → Option Nat
  | .core c => some c.toNat
  | .port _ _ => none

/-- R372: whether a path may write a context's page; `claim` marks a write of CLAIM. -/
def ctxOwned (s : State) (c : Nat) (p : Path) (claim : Bool) : Bool :=
  match coreOf p with
  | none => false
  | some k => if (s.ctx c).state = .free then claim else (s.ctx c).owner == k

/-- R372, R674: a write to a context's page under the owner rule. -/
def ctxWrite (c off : Nat) (claim : Bool) (p : Path) (k : State → State) (s : State) : State :=
  writeOwned p (ctxPage c + off) (ctxOwned s c p claim) digForeign k s

/-! ### Fields of DIG_CTX_CFG (R410) -/

/-- ALG. -/
def cfgAlg (v : BitVec 32) : Nat := bitsOf v 7 0
/-- KEY_SRC. -/
def cfgKeySrc (v : BitVec 32) : Nat := bitsOf v 9 8
/-- SLOT. -/
def cfgSlot (v : BitVec 32) : Nat := bitsOf v 15 10
/-- KEY_LEN. -/
def cfgKeyLen (v : BitVec 32) : Nat := bitsOf v 23 16
/-- CUST_LEN. -/
def cfgCustLen (v : BitVec 32) : Nat := bitsOf v 30 24

/-! ### Commands (R387) -/

/-- R389: the blob in a core's transfer region. -/
def blobIn (s : State) (k : Nat) : Bytes := bufLoad 0 (s.digRegion k).xfer 0 512

/-- R391, R393: the state record of a blob whose tag is right. -/
def blobRecord (s : State) (blob : Bytes) : Option Bytes :=
  let key := (s.anchor 6).value
  let iv := slice blob 32 12
  if (s.anchor 6).occupied ∧ gcmTag key iv (blob.take 48) (slice blob 48 448) = slice blob 496 16 then some (gcmCrypt key iv (slice blob 48 448)) else none

/-- R387 order 1: whether the command needs a core kind with no core in service. -/
def ctxDown (s : State) (x : Ctx) (op : Nat) : Bool :=
  (op == 2 && algKnown (cfgAlg x.cfg) && !s.dig.kindUp (algKeccak (cfgAlg x.cfg))) || (op == 3 && x.state == .opened && !s.dig.kindUp (algKeccak x.alg)) ||
    (op == 6 && x.state == .opened && algBlock x.alg ≤ x.buf.length && !s.dig.kindUp (algKeccak x.alg))

/-- R387 order 2, R393. -/
def ctxReserved (x : Ctx) (op : Nat) (value : BitVec 32) (blob : Bytes) : Bool :=
  op == 0 || 7 < op || bitsOf value 30 4 != 0 ||
    (op == 2 && (!algKnown (cfgAlg x.cfg) || cfgKeySrc x.cfg == 3 || (cfgAlg x.cfg != 0xC && cfgCustLen x.cfg != 0) ||
      (algOut (cfgAlg x.cfg) != 0 && x.outLen != 0) || bitAt x.cfg 31 || bitsOf x.outLen 31 8 != 0 || bitsOf x.decl 63 40 != 0)) ||
    (op == 7 && (blob.take 8 != ascii "KFL-DCTX" || fieldLe blob 8 2 != 1 || fieldLe blob 44 4 != 0 || !algKnown (fieldLe blob 11 1)))

/-- R373, R387 order 3, R388: whether the context's state permits the command. -/
def ctxPermitted (x : Ctx) (op : Nat) : Bool :=
  match op with
  | 1 => x.state == .free
  | 2 => x.state == .claimed
  | 3 => x.state == .opened
  | 4 => x.state == .done || x.state == .ended
  | 5 => x.state != .free
  | 6 => x.state == .opened && !x.feeding
  | _ => x.state == .claimed

/-- R376, R387 order 4. -/
def ctxUsage (s : State) (x : Ctx) : Bool :=
  let alg := cfgAlg x.cfg
  let src := cfgKeySrc x.cfg
  let a := s.anchor (cfgSlot x.cfg)
  let slotOk (type : Nat) : Bool := !a.occupied || (attrType a.attr == type && (attrUsage a.attr == 5 || attrUsage a.attr == 4))
  !(if alg ≤ 8 then src == 0 else if alg = 0xA then src == 1 || (src == 2 && slotOk 2) else if alg = 0xC then src == 1 || (src == 2 && slotOk 3)
    else src == 1)

/-- R387 order 5. -/
def ctxRange (x : Ctx) : Bool :=
  (cfgKeySrc x.cfg == 1 && (cfgKeyLen x.cfg == 0 || 128 < cfgKeyLen x.cfg)) || 64 < cfgCustLen x.cfg ||
    (algOut (cfgAlg x.cfg) == 0 && (x.outLen == 0 || 128 < bitsOf x.outLen 7 0))

/-- R406: the exports of a core that wait for their IV. -/
def exportsWaiting (s : State) (k : Nat) : Nat :=
  (s.ent.queue.filter (fun q => match q.1 with
    | .blob _ x => x == k
    | _ => false)).length

/-- R387: the first check that a command of core `k` fails decides its code. -/
def ctxRefused (s : State) (c k op : Nat) (value : BitVec 32) : Option (BitVec 8) :=
  let x := s.ctx c
  let blob := blobIn s k
  let a := s.anchor (cfgSlot x.cfg)
  let keyed := op == 2 && cfgKeySrc x.cfg == 2
  if ctxDown s x op then some 0x72
  else if ctxReserved x op value blob then some eReserved
  else if !ctxPermitted x op then some eState
  else if op = 2 ∧ ctxUsage s x then some 0x20
  else if op = 2 ∧ ctxRange x then some eRange
  else if (keyed ∧ a.occupied ∧ !mayUse s k a.attr) ∨ (op = 7 ∧ fieldLe blob 10 1 ≠ k) then some eOwner
  else if keyed ∧ !a.occupied then some eState
  else if op = 6 ∧ 16 ≤ (s.digRegion k).outstanding.length + exportsWaiting s k then some eBusy
  else if op = 7 then
    match blobRecord s blob with
    | none => some eAuth
    | some r =>
      if !(s.digRegion k).outstanding.contains (bytesVec 32 (slice blob 12 4)) then some eAuth
      else if fieldLe r 433 1 = 2 ∧
          (!(s.anchor (fieldLe r 434 1)).occupied ∨ (s.anchor (fieldLe r 434 1)).epoch ≠ bytesVec 32 (slice r 438 4)) then some 0x71
      else none
  else none

/-- R374, R376 to R378, R380: OPEN takes the configuration, absorbs the key and the customisation string, and wipes both. -/
def ctxStart (s : State) (x : Ctx) : Ctx :=
  let alg := cfgAlg x.cfg
  let src := cfgKeySrc x.cfg
  let a := s.anchor (cfgSlot x.cfg)
  let key := if src = 2 then a.value else bufLoad 0 x.key 0 (cfgKeyLen x.cfg)
  let cust := bufLoad 0 x.custom 0 (cfgCustLen x.cfg)
  { x with state := .opened, trunc := false, fed := 0, key := [], custom := [], alg := alg, keySrc := src, slot := cfgSlot x.cfg,
           olen := bitsOf x.outLen 7 0, len := bitsOf x.decl 39 0, buf := [], result := [], slotEpoch := if src = 2 then a.epoch else 0,
           st := if src = 2 ∧ alg = 0xA then a.hmacInner else openState alg key cust,
           outer := if algHmac alg ∧ src = 1 then hmacOuterOf alg key else [] }

/-- R390: the state record of a context. -/
def ctxRecord (x : Ctx) : Bytes :=
  let whole := x.buf.length / algBlock x.alg * algBlock x.alg
  let tail := x.buf.drop whole
  padTo 200 (absorbBlocks x.alg x.st (x.buf.take whole)) ++ padTo 64 x.outer ++ padTo 168 tail ++ leBytes 1 tail.length ++ leBytes 1 x.keySrc ++
    leBytes 1 x.slot ++ leBytes 1 (bitNat 0 x.trunc) ++ leBytes 2 x.olen ++ vecBytes 4 x.slotEpoch ++ zeros 6

/-- R388 to R392: EXPORT with its IV writes the blob, counts its SEQ as outstanding and frees the context; refused an IV (R407) it only ends with
that code (log 43). -/
def ctxExported (c k : Nat) (iv : Option Bytes) (s : State) : State :=
  match iv with
  | none => modCtx c (fun x => { x with code := 0x6A }) s
  | some iv =>
    let x := s.ctx c
    let seq := (s.digRegion k).nextSeq
    let head := ascii "KFL-DCTX" ++ leBytes 2 1 ++ leBytes 1 k ++ leBytes 1 x.alg ++ vecBytes 4 seq ++ leBytes 8 x.len ++ vecBytes 8 x.fed ++ iv ++
      zeros 4
    let key := (s.anchor 6).value
    let ct := gcmCrypt key iv (ctxRecord x)
    let s := modRegion k (fun r => { r with
      xfer := bufStore 0 r.xfer 0 (head ++ ct ++ gcmTag key iv head ct), nextSeq := r.nextSeq + 1, outstanding := r.outstanding ++ [seq] }) s
    modCtx c (fun x => { x with code := 0 }) (ctxFree c s)

/-- R388, R406: EXPORT draws its IV now, or waits for its turn. -/
def ctxExport (c k : Nat) (s : State) : State :=
  if drawNow s then
    let d := drawBytes 12 s
    ctxExported c k d.1 d.2
  else s.modEnt (fun e => { e with queue := e.queue ++ [(.blob c k, 12)] })

/-- R391 to R393: IMPORT restores a context from a blob that has passed its checks. -/
def ctxImport (c k : Nat) (s : State) : State :=
  let blob := blobIn s k
  match blobRecord s blob with
  | none => s
  | some r =>
    let alg := fieldLe blob 11 1
    let s := modRegion k (fun g => { g with outstanding := dropFirst (fun q => q == bytesVec 32 (slice blob 12 4)) g.outstanding }) s
    modCtx c (fun x => { x with
      state := .opened, code := 0, trunc := bitAt (bytesVec 8 (slice r 435 1)) 0, fed := bytesVec 64 (slice blob 24 8), key := [], custom := [],
      alg := alg, keySrc := fieldLe r 433 1, slot := fieldLe r 434 1, olen := fieldLe r 436 2, len := fieldLe blob 16 8,
      st := r.take (algInit alg).length, outer := (slice r 200 64).take (algInit alg).length, buf := slice r 264 (fieldLe r 432 1),
      slotEpoch := bytesVec 32 (slice r 438 4), result := [] }) s

/-- R373, R382, R387: a command of core `k` that has passed its checks. -/
def ctxRun (c k op : Nat) (s : State) : State :=
  let ok (t : State) : State := modCtx c (fun x => { x with code := 0 }) t
  match op with
  | 1 => ok (modCtx c (fun x => { x with state := .claimed, owner := k }) s)
  | 2 => ok (modCtx c (ctxStart s) s)
  | 3 =>
    let s := modCtx c (fun x => { x with finished := true }) s
    ok (if (s.ctx c).complete then ctxResult c s else modCtx c (fun x => { x with state := .finishing }) s)
  | 6 => ctxExport c k s
  | 7 => ctxImport c k s
  | _ => ok (ctxFree c s)

/-- R370: the known-answer tests after a reset of the security core have not ended. -/
def digStarting (s : State) : Bool := s.brup.unitsLeft.any (fun u => u / 1024 == 6)

/-- R370, R387, R410: a write of DIG_CTX_CMD by the core that the owner rule admits; no command is accepted before the tests of R370 have ended. -/
def ctxCmdWrite (c : Nat) (p : Path) (value : BitVec 32) (s : State) : State :=
  match coreOf p with
  | none => s
  | some k =>
    let op := bitsOf value 3 0
    let s := modCtx c (fun x => { x with cmd := value.extractLsb' 0 4 }) s
    if !bitAt value 31 || digStarting s then s
    else
      let s := modCtx c (fun x => { x with lastAct := s.timer }) s
      match ctxRefused s c k op value with
      | some e => modCtx c (fun x => { x with code := e }) s
      | none => ctxRun c k op s

/-- R372: whether a write of DIG_CTX_CMD is a CLAIM. -/
def isClaim (value : BitVec 32) : Bool := bitAt value 31 && bitsOf value 3 0 == 1

/-- A write of DIG_CTX_CMD that starts the command of a given OP; any other write is another row's. -/
def ctxRow (op c : Nat) (p : Path) (value : BitVec 32) (s : State) : State :=
  onlyIf (bitAt value 31 && bitsOf value 3 0 == op) (ctxWrite c 0x20 (isClaim value) p (ctxCmdWrite c p value)) s

/-- CLAIM (R371 to R373, R387). -/
def execClaim (c : Fin 8) (p : Path) (value : BitVec 32) (s : State) : Out := done (ctxRow 1 c.toNat p value s)

/-- OPEN (R368, R372, R373, R376 to R380, R387). -/
def execCtxOpen (c : Fin 8) (p : Path) (value : BitVec 32) (s : State) : Out := done (ctxRow 2 c.toNat p value s)

/-- FINISH (R372, R373, R381, R382, R387). -/
def execCtxFinish (c : Fin 8) (p : Path) (value : BitVec 32) (s : State) : Out := done (ctxRow 3 c.toNat p value s)

/-- CLOSE (R372 to R374, R387). -/
def execCtxClose (c : Fin 8) (p : Path) (value : BitVec 32) (s : State) : Out := done (ctxRow 4 c.toNat p value s)

/-- CTX_ABORT (R372 to R374, R387). -/
def execCtxAbort (c : Fin 8) (p : Path) (value : BitVec 32) (s : State) : Out := done (ctxRow 5 c.toNat p value s)

/-- CTX_EXPORT (R372, R373, R387 to R392). -/
def execCtxExport (c : Fin 8) (p : Path) (value : BitVec 32) (s : State) : Out := done (ctxRow 6 c.toNat p value s)

/-- CTX_IMPORT (R372, R373, R378, R387, R389 to R393). -/
def execCtxImport (c : Fin 8) (p : Path) (value : BitVec 32) (s : State) : Out := done (ctxRow 7 c.toNat p value s)

/-! ### Feeding (R380 to R386) -/

/-- A feed that is dropped and counted. -/
def feedDropped (s : State) : State := s.modDig (fun d => { d with dropped := satInc d.dropped })

/-- R380, R381, R383, R386: a word of register feed. Bytes beyond DECL_LEN in the word of the message's last byte are fill. -/
def dataWord (c : Nat) (value : BitVec 32) (s : State) : State :=
  let x := s.ctx c
  match x.state with
  | .opened =>
    if x.feeding then feedDropped s
    else modCtx c (fun x => { x.offer (vecBytes 4 value) with trunc := x.trunc || decide (x.len ≤ x.fed.toNat), lastAct := s.timer }) s
  | .free => s
  | .claimed => s
  | _ => onlyIf x.finished feedDropped s

/-- DIG_CTX_DATA (R372, R380, R381, R383, R386). -/
def execDigCtxData (c : Fin 8) (p : Path) (value : BitVec 32) (s : State) : Out :=
  done (writeGated p (ctxPage c.toNat + 0x34) (ctxOwned s c.toNat p false) digForeign (dataWord c.toNat value) s)

/-- R386: a feed has offered its last byte: the surplus that was not read is counted in FED, and sets TRUNC before FINISH. -/
def feedEnd (c surplus : Nat) (s : State) : State :=
  modCtx c (fun x => { x with fed := x.fed + BitVec.ofNat 64 surplus, trunc := x.trunc || (x.state == .opened && surplus != 0) }) (feedOver c s)

/-- R380, R383, R386, R633: a write of DIG_CTX_FEED_CTL; with GO it starts a feed of the bytes up to DECL_LEN. -/
def feedCtlWrite (c : Nat) (value : BitVec 32) (s : State) : State :=
  let x := s.ctx c
  let n := bitsOf value 30 0
  if !bitAt value 31 then modCtx c (fun x => { x with feedLen := value.extractLsb' 0 31 }) s
  else match x.state with
    | .opened =>
      if x.feeding then feedDropped s
      else
        let take := Nat.min n (x.len - x.fed.toNat)
        let s := modCtx c (fun x => { x with feedLen := value.extractLsb' 0 31 }) s
        if dmaBeyond x.feedAddr.toNat take then ctxEnd c 0x73 s
        else if take = 0 then feedEnd c n s
        else
          let r := dmaRead (.digest c) x.feedAddr.toNat take s
          modCtx c (fun x => { x with feeding := true, dmaWork := some r.1, dmaNext := 0, feedAll := n }) r.2
    | .free => s
    | .claimed => s
    | _ => onlyIf x.finished feedDropped s

/-- DMA_FEED (R372, R380, R381, R383, R386, R630, R633): a write of DIG_CTX_FEED_CTL with GO. -/
def execDmaFeed (c : Fin 8) (p : Path) (value : BitVec 32) (s : State) : Out :=
  done (onlyIf (bitAt value 31) (ctxWrite c.toNat 0x40 false p (feedCtlWrite c.toNat value)) s)

/-- R370, R382: a context in FINISHING that has its last declared byte enters DONE, while a core of its kind is in service. -/
def ctxSettle (c : Nat) (s : State) : State :=
  onlyIf ((s.ctx c).state == .finishing && (s.ctx c).complete && s.dig.kindUp (algKeccak (s.ctx c).alg)) (ctxResult c) s

/-- DIGEST_BLOCK (R369, R381, R382): a core absorbs the next whole block of an open context whose turn it is. -/
def execDigestBlock (c : Fin 8) (s : State) : Out :=
  done (whenUp s fun s =>
    let x := s.dig.ctxs.get c
    let b := algBlock x.alg
    if !(s.dig.served (algKeccak x.alg)).contains c.toNat then s
    else
      ctxSettle c.toNat ((modCtx c.toNat (fun x => { x with st := absorbBlock x.alg x.st (x.buf.take b), buf := x.buf.drop b }) s).modDig
        (fun d => { d with turn := d.turn.filter (· != c.toNat) ++ [c.toNat] })))

/-- E_SHORT (R373, R374, R384): the inactivity limit passes, counted from its last activity, for a context that is short of its declared length. -/
def execEShort (c : Fin 8) (s : State) : Out :=
  done (whenUp s fun s =>
    let x := s.dig.ctxs.get c
    onlyIf ((x.state == .opened || x.state == .finishing) && decide (x.fed.toNat < x.len) && !x.feeding) (fun s =>
      (ctxEnd c.toNat 0x70 (reachTime (x.lastAct + 100 * s.dig.idleLimit.toNat) s)).modDig (fun d => { d with shorts := satInc d.shorts })) s)

/-! ### Discards, the self-test and the compare unit (R370, R392, R394 to R397, R409) -/

/-- R392, R409: a write of DIG_DISCARD by a core removes a SEQ from its own outstanding exports. -/
def discardWrite (p : Path) (value : BitVec 32) (s : State) : State :=
  match coreOf p with
  | none => s
  | some k => modRegion k (fun r => { r with outstanding := dropFirst (fun q => q == value) r.outstanding }) s

/-- DIG_DISCARD (R392, R409): written by the core of the region. -/
def execDigDiscard (region : Fin 4) (p : Path) (value : BitVec 32) (s : State) : Out :=
  done (onlyIf (coreOf p == some region.toNat) (writeAt false p (digPage + 0x3C) (discardWrite p value)) s)

/-- R409: a write of DIG_CTL without its self-test: a limit of 0 is stored as 1. -/
def digCtlWrite (value : BitVec 32) (s : State) : State :=
  s.modDig (fun d => { d with idleLimit := if bitsOf value 7 0 = 0 then 1 else value.extractLsb' 0 8 })

/-- DIG_SELFTEST (R370, R409): a write of DIG_CTL with SELFTEST starts the tests of every core in service; UNIT_SELF_TEST_PASS or START_TIME_FINDING
ends each. -/
def execDigSelftest (p : Path) (value : BitVec 32) (s : State) : Out :=
  done (onlyIf (bitAt value 8) (writeAt true p (digPage + 0x20) (fun s =>
    (digCtlWrite value s).modDig (fun d => { d with testing := d.testing ||| (d.kecCores ++ d.sha2Cores) }))) s)

/-- R394, R395, R671: a write of DIG_CMP_CTL by its core; with GO a compare starts, or is refused. GO while BUSY is dropped (log 43). -/
def cmpCtlWrite (k : Nat) (value : BitVec 32) (s : State) : State :=
  let r := s.digRegion k
  let n := bitsOf value 6 0
  let x := s.ctx (bitsOf value 10 8)
  let src := bitAt value 7
  let refused : Option (BitVec 8) :=
    if n = 0 ∨ 64 < n then some eRange
    else if src ∧ (x.state ≠ .done ∨ x.owner ≠ k) then some eState
    else if src ∧ x.result.length < n then some eRange
    else none
  let set (t : State) : State := modRegion k (fun r => { r with cmpCtl := BitVec.ofNat 31 (bitsOf value 10 0) }) t
  if !bitAt value 31 then set s
  else if r.cmpBusy then s
  else
    let s := set s
    match refused with
      | some e => modRegion k (fun r => { r with verdict := 0, cmpResult := e }) s
      | none =>
        (modRegion k (fun r => { r with
          verdict := 0, cmpBusy := true, cmpOpA := if src then x.result.take n else bufLoad 0 r.cmpA 0 n, cmpOpB := bufLoad 0 r.cmpB 0 n }) s).modDig
          (fun d => { d with cmpQ := d.cmpQ ++ [k] })

/-- R372, R409: a write to a core's region of the control page. -/
def regionWrite (k off : Nat) (p : Path) (f : State → State) (s : State) : State :=
  writeOwned p (digPage + 0x200 + 0x380 * k + off) (coreOf p == some k) digForeign f s

/-- COMPARE (R372, R394, R395, R409): a write of DIG_CMP_CTL with GO. -/
def execCompare (region : Fin 4) (p : Path) (value : BitVec 32) (s : State) : Out :=
  done (onlyIf (bitAt value 31) (regionWrite region.toNat 0x280 p (cmpCtlWrite region.toNat value)) s)

/-- COMPARE_RESULT (R395 to R397): the compare in front of the unit gives its result; `split` tells that its two trees disagree. -/
def execCompareResult (c : Fin 4) (split : Bool) (s : State) : Out :=
  done (whenUp s fun s =>
    onlyIf (s.dig.cmpQ.head? == some c.toNat) (fun s =>
      let r := s.digRegion c.toNat
      let m := r.cmpOpA == r.cmpOpB
      let s := (modRegion c.toNat (fun r => { r with
        cmpBusy := false, cmpOpA := [], cmpOpB := [], isMatch := m, isMatchN := if split then m else !m, cmpResult := 0,
        verdict := if m && !split then 0x6C3A95E3#32 else 0x93C56A1C#32 }) s).modDig (fun d => { d with cmpQ := d.cmpQ.drop 1 })
      onlyIf split (fun s => raise true kDigest 0 fCmpSplit 0 c.toNat (s.modDig (fun d => { d with splitRecent := true }))) s) s)

/-! ### Requests of the DRBG (R405 to R408) -/

/-- DRBG_REQUEST (R405 to R407): the request at the head of the queue is served, after a reseed where one is due, or refused; what waited for it goes
on. -/
def execDrbgRequest (s : State) : Out :=
  done (whenUp s fun s =>
    match s.ent.queue with
    | [] => s
    | (w, n) :: q =>
      onlyIf s.ent.canServe (fun s =>
        let r := s.ent.draw n
        let s := s.modEnt (fun _ => { r.2 with queue := q })
        match w with
        | .core c => s.modEnt (fun e => { e with draws := vmod e.draws c (fun x => match r.1 with
            | none => { x with busy := false, valid := true, result := 0x6A }
            | some b => { x with busy := false, valid := true, result := 0x00, out := (List.range 16).map (fun i => bytesVec 32 (slice b (4 * i) 4)) }) })
        | .vault => match s.vault.run with
          | none => s
          | some v => vaultDrawn v r.1 s
        | .blob c k => onlyIf ((s.ctx c).state == .opened && (s.ctx c).owner == k) (ctxExported c k r.1) s) s)

end Sys2Proof.Machine
end

