-- ==== Sys2Proof/Machine/Lanes.lean ====
section
/-!
DEFINITION. Lanes, banks and the port controls of a guard (R17 to R23, R44, R93, R103 to R114, R264, R587, R642): lane failures,
known-answer blocks, the spare, the fence, throttle and share registers, and the clearing of counts.
-/

namespace Sys2Proof.Machine
open Sys2Proof

/-- A bank of a guard changed by `f`; a bank the guard does not have is left out. -/
def modBank (g bank : Nat) (f : Bank → Bank) (s : State) : State :=
  s.modGuard g (fun x => { x with banks := x.banks.modify bank f })

/-- The bank with a given index; one that is not there holds no lane. -/
def Guard.bankN (g : Guard) (bank : Nat) : Bank := g.banks.getD bank {}

/-- R549: a guard serves, or its memory is lost. -/
def guardSettled (s : State) (g : Nat) : Bool := (s.guardN g).service == .serving || (s.guardN g).service == .lost

/-- R561: reduced service is entered and left. -/
def reserve (s : State) : State :=
  let waiting := allGuards.any (fun g => !guardSettled s g)
  s.modBrup (fun b => { b with
    reduced := waiting && (b.reduced || (b.phase == 6 && (allGuards.filter isStack).all (guardSettled s))) })

/-- R167: the descriptors held for a guard that does not return to service end as aborted. -/
def dropHeld (g : Nat) (s : State) : State :=
  let ds := ((s.ks.descs.filter (fun d => d.guard == g)).map HeldDesc.domain).eraseDups
  let s := s.modKs (fun k => { k with descs := k.descs.filter (fun d => d.guard != g) })
  settle (forEach ds (fun d t => sweepEnded d (rekeyEnded d t)) s)

/-- R554, R560: the memory behind a guard is lost, and the guard fenced. -/
def loseMemory (g : Nat) (s : State) : State :=
  dropHeld g ((fenceGuard false true g s).modGuard g (fun x => { x with service := .lost }))

/-- R22, R571: no bank of a guard has a lane left, or a spare that is to take a lane's place. -/
def Guard.allDown (x : Guard) : Bool := x.banks.all (fun b => b.excluded || (b.tested && b.active == 0 && !b.spareDue))

/-- R22, R560, R571: a guard in service whose last bank has gone is lost, and its memory with it. -/
def lostIfDown (g : Nat) (s : State) : State :=
  let x := s.guardN g
  onlyIf ((x.service == .serving || x.service == .sweeping) && x.allDown) (fun s => reserve (loseMemory g s)) s

/-- R103: whether a lane position takes known-answer blocks: its bank has joined and it is not out of service. -/
def Guard.lanePresent (g : Guard) (bank lane : Nat) : Bool :=
  bank < g.banks.length && lane < 9 && (g.bankN bank).tested && !bitAt (g.bankN bank).bad lane

/-- R106: whether a bank's spare may still take a lane's place. -/
def Bank.spareGood (b : Bank) : Bool := b.tested && !b.spareUsed && !bitAt b.bad 8

/-- R104: a line with a block in a failed lane's pipeline completes with E_LANE; its memory line is unchanged. A write that has
been handed downstream has left the lanes, and a parked request has not entered them. -/
def laneLine (g uid : Nat) (s : State) : State :=
  match (s.guardN g).reqs.find? (fun r => r.uid == uid) with
  | none => s
  | some r =>
    match r.stage with
    | .parked => s
    | .writeOut _ => s
    | .fencedOut _ => s
    | .discardOut _ => s
    | .readOut tag => (fail g r stLane s).modGuard g (fun x => { x with reqs := x.reqs ++ [{ r with stage := .discardOut tag }] })
    | _ => fail g r stLane s

/-- R20 to R22, R104, R105, R571: a lane leaves service, and the lines of its pipeline, at most 16, end with E_LANE. With the last lane of a guard the
guard is lost. -/
def laneOut (g bank lane : Nat) (lines : List Nat) (s : State) : State :=
  let s := modBank g bank (fun b =>
    { b with active := setBit b.active lane false, bad := setBit b.bad lane true,
             spareDue := (b.spareDue || bitAt b.active lane) && b.spareGood && lane != 8 }) s
  lostIfDown g (forEach (lines.take 16) (laneLine g) s)

/-- LANE_PARITY (R17, R104, R584): a stage parity error takes its lane out of service; the guard goes on. -/
def execLaneParity (g : Fin 40) (bank lane : Nat) (stage : BitVec 4) (lines : List Nat) (s : State) : Out :=
  done (whenUp s fun s =>
    onlyIf ((s.guard g).lanePresent bank lane) (fun s =>
      let s := s.modGuard g.toNat (fun x => { x with page := { x.page with parityFail := satInc x.page.parityFail } })
      let s := raise false kGuard (unitLane g.toNat bank lane) fLaneParity 4 stage.toNat s
      settle (laneOut g.toNat bank lane lines s)) s)

/-- R19, R103, R587: a known-answer block in one lane position. A wrong answer takes the lane out of service, ends its lines with
E_LANE and fences the guard in the same reaction; the fault gives the block timer value of the lane's last good block. -/
def katBlock (g bank lane : Nat) (good : Bool) (lines : List Nat) (s : State) : State :=
  onlyIf ((s.guardN g).lanePresent bank lane) (fun s =>
    let s := s.modGuard g (fun x => { x with page := { x.page with katCount := x.page.katCount + 1, katDecrypt := !x.page.katDecrypt } })
    if good then modBank g bank (fun b => { b with lastKat := (padKat b.lastKat).set lane s.timer }) s
    else
      let last := ((s.guardN g).bankN bank).lastKat.getD lane 0
      let s := s.modGuard g (fun x => { x with page := { x.page with katFail := satInc x.page.katFail } })
      let s := raise true kGuard (unitLane g bank lane) fLaneKat 5 (last % 2 ^ 48) s
      fenceGuard true true g (laneOut g bank lane lines s)) s
where
  /-- The times of nine positions; one not yet recorded is zero. -/
  padKat (l : List Nat) : List Nat := (List.range 9).map (fun i => l.getD i 0)

/-- KNOWN_ANSWER_INJECTION (R19, R103, R587): the guard injects a known-answer block into one lane position. -/
def execKnownAnswerInjection (g : Fin 40) (bank lane : Nat) (good : Bool) (lines : List Nat) (s : State) : Out :=
  done (whenUp s fun s => settle (katBlock g.toNat bank lane good lines s))

/-- GUARD_KAT_INJECT (R114, R587): a privileged write of bit 0 injects one block into every lane position at once. `bad` names the
positions that answer wrongly. -/
def execGuardKatInject (g : Fin 40) (p : Path) (value : BitVec 32) (bad : List (Nat × Nat)) (lines : List Nat) (s : State) : Out :=
  done (writeAt true p (guardAddr g 0x204C) (onlyIf (bitAt value 0) (fun s =>
    settle (forEach ((List.range 8).flatMap (fun b => (List.range 9).map (fun l => (b, l))))
      (fun bl t => katBlock g.toNat bl.1 bl.2 (!bad.contains bl) lines t) s))) s)

/-- SPARE_SUBSTITUTION (R20, R105, R106): the spare of the bank takes the place of the lane that failed. -/
def execSpareSubstitution (g : Fin 40) (bank : Nat) (s : State) : Out :=
  done (whenUp s fun s => modBank g.toNat bank (fun b =>
    if b.spareDue && b.spareGood then { b with active := setBit b.active 8 true, spareUsed := true, spareDue := false } else b)
      (s.modGuard g.toNat Guard.noteThrottle))

/-- FENCE (R23, R107 to R109, R111): a privileged write of 1 to FENCE of GUARD_CTL fences the guard; 0 does nothing. -/
def execFence (g : Fin 40) (p : Path) (value : BitVec 32) (s : State) : Out :=
  done (writeAt true p (guardAddr g 0x20) (onlyIf (bitAt value 0) (fun s => settle (fenceGuard false true g.toNat s))) s)

/-- GUARD_THROTTLE (R111, R264): LIMIT is stored; it applies from the next interval. -/
def execGuardThrottle (g : Fin 40) (p : Path) (value : BitVec 32) (s : State) : Out :=
  done (writeAt true p (guardAddr g 0x24)
    (State.modGuard g.toNat (fun x => { x with page := { x.page with limit := value.extractLsb' 0 14 } })) s)

/-- THROTTLE_INTERVAL (R191, R264): a 1,024-lane-cycle interval ends: the count starts again under the present LIMIT, and an
interval in which R134 held the port is counted. -/
def execThrottleInterval (g : Fin 40) (s : State) : Out :=
  done (whenUp s fun s => s.modGuard g.toNat (fun y =>
    let x := y.noteThrottle
    { x with page := { x.page with limitNow := x.page.limit, lineCount := 0 },
             miss := { x.miss with hold := if x.miss.heldInterval then satInc x.miss.hold else x.miss.hold,
                                   heldInterval := x.miss.heldHdr.isSome } }))

/-- R112: a share above 100 is stored as 100. -/
def capShare (b : Nat) : Nat := Nat.min b 100

/-- R111, R112: the word of the four shares, each at most 100. -/
def capShares (value : BitVec 32) : BitVec 32 :=
  BitVec.ofNat 32 (capShare (bitsOf value 7 0) + capShare (bitsOf value 15 8) * 2 ^ 8 + capShare (bitsOf value 23 16) * 2 ^ 16 +
    capShare (bitsOf value 31 24) * 2 ^ 24)

/-- GUARD_LANE_SHARE (R47, R93, R111, R112): the shares are stored, and are in force at once, lowered by a power limit that holds (log 16). -/
def execGuardLaneShare (g : Fin 40) (p : Path) (value : BitVec 32) (s : State) : Out :=
  done (writeAt true p (guardAddr g 0x28)
    (State.modGuard g.toNat (fun x => { x with page := { x.page with share := capShares value }.shareNow })) s)

/-- GUARD_ERR_CLEAR (R111): bit n clears the count of status code n. -/
def execGuardErrClear (g : Fin 40) (p : Path) (value : BitVec 32) (s : State) : Out :=
  done (writeAt false p (guardAddr g 0x70) (State.modGuard g.toNat (fun x =>
    { x with page := { x.page with errCount := x.page.errCount.mapIdx (fun i c => if bitAt value (i + 2) then 0 else c) } })) s)

/-- GUARD_TAGFAIL_CLEAR (R113): one domain's count is cleared, or with bit 31 every count and the total. -/
def execGuardTagfailClear (g : Fin 40) (p : Path) (value : BitVec 32) (s : State) : Out :=
  done (writeAt false p (guardAddr g 0x102C) (State.modGuard g.toNat (fun x =>
    { x with page := if bitAt value 31 then { x.page with tfCounts := [], tfTotal := 0 }
                     else { x.page with tfCounts := alDel x.page.tfCounts (bitsOf value 12 0) } })) s)

/-- R43, R642, R686: a guard counts its memory port clock as running or stopped, which DS_POWER of its die shows. -/
def portClock (g : Nat) (run : Bool) (s : State) : State :=
  (s.modGuard g (fun x => { x with clkStopped := !run })).modDie (g / 10) (fun d =>
    if g % 10 < 6 then { d with pairRun := setBit d.pairRun (g % 10 / 2) run } else { d with t2Run := run })

/-- MEMORY_PORT_CLOCK_STOPPED (R44, R642): the guard counts its memory port clock as stopped and accepts no header. -/
def execMemoryPortClockStopped (g : Fin 40) (s : State) : Out :=
  done (whenUp s (portClock g.toNat false))

/-- MEMORY_PORT_CLOCK_RUNNING (R44, R642): the guard counts its memory port clock as running again. -/
def execMemoryPortClockRunning (g : Fin 40) (s : State) : Out :=
  done (whenUp s (portClock g.toNat true))

end Sys2Proof.Machine
end

