-- ==== Sys2Proof/Machine/Sweeps.lean ====
section
/-!
DEFINITION. Sweeps in a guard (R164 to R170, R176, R177, R187, R192): descriptors, the lines of a rekey sweep and of a domain
sweep, and their end.
-/

namespace Sys2Proof.Machine
open Sys2Proof

/-- SWEEP_CMD (R167, R176): a descriptor joins the guard's queue of its kind; a fenced guard answers at once as aborted. -/
def execSweepCmd (die : Fin 4) (s : State) : Out :=
  done (whenUp s (receive die (fun m => match m.body with
    | .sweepCmd ds d f c id => some (fun t =>
        let desc : Desc := { sweepId := id, domain := d, first := f, count := c, visited := 0, failed := 0 }
        if (t.guardN m.dest).inReset then t
        else if (t.guardN m.dest).fenced then guardSend m.dest (sweepDoneMsg desc true) t
        else t.modGuard m.dest (fun x =>
          { x with sweep := if ds then { x.sweep with dom := x.sweep.dom ++ [desc] } else { x.sweep with rekey := x.sweep.rekey ++ [desc] } }))
    | _ => none)))

/-- SWEEP_ABORT (R168, R187): every rekey descriptor of the domain ends, each with its own SWEEP_DONE. A line is one command, so no
line is in progress here. -/
def execSweepAbort (die : Fin 4) (s : State) : Out :=
  done (whenUp s (receive die (fun m => match m.body with
    | .sweepAbort d => some (fun t => forEach (liveGuards die.toNat t) (fun g u =>
        let mine := (u.guardN g).sweep.rekey.filter (fun x => x.domain == d)
        forEach mine (fun x v => guardSend g (sweepDoneMsg x true) v)
          (u.modGuard g (fun x => { x with sweep := { x.sweep with rekey := x.sweep.rekey.filter (fun y => y.domain != d) } }))) t)
    | _ => none)))

/-- R165, R90: whether an accepted request of the same line must go before a sweep's access to it. -/
def Guard.lineHeld (g : Guard) (a : Nat) : Bool := g.reqs.any (fun q => lineFirst a q)
where
  /-- R90: a request of line `a` that has not been handed downstream, or a read-modify-write whose write has not. -/
  lineFirst (a : Nat) (q : Req) : Bool := q.addr.toNat == a && (match q.stage with
    | .parked => true
    | .needData => true
    | .readQ => true
    | .writeQ _ _ => true
    | .readOut _ => q.op == .partialWrite
    | .retHeld _ _ => q.op == .partialWrite
    | _ => false)

/-- Whether a guard's sweeps can run a line now: it is out of reset, not fenced, its memory port is clocked and it has lanes. -/
def Guard.canSweep (g : Guard) : Bool :=
  !g.inReset && !g.fenced && !g.clkStopped && g.banks.any (fun b => popCount 9 b.active != 0)

/-- R93, R94, R177: a source of lane operations, 0 the rekey sweep and 1 the domain sweep, has a share to draw a line's operations from. How the shares
divide time is left out (log 14). -/
def Guard.mayDraw (g : Guard) (i : Nat) : Bool := g.page.allot i != 0

/-- A guard's downstream request signals as a sweep last drove them (R68, R639); its tag is one not in flight (log 8). -/
def driveBeat (g : Nat) (write : Bool) (a : Nat) (data : BitVec 512) (side : BitVec 64) (s : State) : State :=
  (s.modGuard g (fun x => { x with beat :=
    { slice := downSlice g (BitVec.ofNat 42 a), write := write, addr := BitVec.ofNat 42 a, tag := BitVec.ofNat 12 (freeFrom s.free 4096 x.tagsOut),
      data := if write then data else 0, side := if write then side else 0 } })).used

/-- R164: what the rekey sweep does to a line: nothing, a failure, or a line and sidecar to be written and whether an error of that
write is counted. -/
inductive SweepAct where
  /-- the line is already current -/
  | keep
  /-- a failure; the line is left unchanged -/
  | bad
  /-- the line is written -/
  | write (data : BitVec 512) (side : BitVec 64) (counts : Bool)
deriving DecidableEq, Repr

/-- R164: the rekey sweep's decision on a line read without error, from the entries of the newest and, where its line names it, the
older generation. -/
def sweepAct (new : Entry) (older : Option Bool) (old : Option Entry) (a : Nat) (data : BitVec 512) (side : BitVec 64) : SweepAct :=
  if sideMode side ≠ new.mode.code then .bad
  else if sideGen side = new.genBit then .keep
  else if older ≠ some (sideGen side) then .bad
  else if new.mode = .open then .write data (sidecar new a (vecBytes 64 data) side) false
  else
    match old with
    | none => .bad
    | some o =>
      if tagOk o a data side then
        let c := sealLine new a (decryptLine o a data) side
        .write c.1 c.2 true
      else .bad

/-- R164, R192: the running rekey descriptor has visited a line; with its last line it ends. -/
def rekeyVisited (g : Nat) (failed : Bool) (s : State) : State :=
  match (s.guardN g).sweep.rekey with
  | [] => s
  | d :: ds =>
    let d' := { d with visited := d.visited + 1, failed := if failed then satInc d.failed else d.failed }
    let ended := d.count ≤ d'.visited
    let s := s.modGuard g (fun x => { x with sweep := { x.sweep with
      rekey := if ended then ds else d' :: ds, lines := x.sweep.lines + 1, fails := if failed then satInc x.sweep.fails else x.sweep.fails } })
    onlyIf ended (guardSend g (sweepDoneMsg d' false)) s

/-- SWEEP_LINE (R93, R126, R164 to R166, R177): the running rekey descriptor of a guard visits its next line: read with its sidecar, and
re-sealed under the newest generation where it is in the older one. A key that is not cached is sought through the miss tracker and
the line waits. -/
def execSweepLine (g : Fin 40) (rdErr : Bool) (data : BitVec 512) (side : BitVec 64) (wrErr : Bool) (s : State) : Out :=
  done (whenUp s fun s =>
    let n := g.toNat
    let x := s.guard g
    match x.sweep.rekey with
    | [] => s
    | d :: _ =>
      let a := d.first + d.visited
      if !x.canSweep || !x.mayDraw 0 || x.lineHeld a then s
      else
        match x.newest d.domain with
        | none => slotFor n d.domain false false s
        | some l =>
          if !l.entry.bindOk d.domain then
            settle (slotFor n d.domain false false (bindFailed n l 0 d.domain s))
          else
            let older := x.olderBit d.domain
            let wantsOld := !rdErr && l.entry.mode != .open && sideMode side == l.entry.mode.code && older == some (sideGen side)
            let old := if wantsOld then x.lineBit d.domain (sideGen side) else none
            if wantsOld && old.isNone then slotFor n d.domain true (sideGen side) s
            else if old.any (fun o => !o.entry.bindOk d.domain) then
              settle (slotFor n d.domain true (sideGen side) (bindFailed n (old.getD {}) 0 d.domain s))
            else
              let s := driveBeat n false a 0 0 s
              if rdErr then rekeyVisited n true s
              else
                match sweepAct l.entry older (old.map KcLine.entry) a data side with
                | .keep => rekeyVisited n false s
                | .bad => rekeyVisited n true s
                | .write dt sd counts => rekeyVisited n (wrErr && counts) (driveBeat n true a dt sd s))

/-- DOMAIN_SWEEP_LINE (R93, R169, R170, R177, R192): the running domain-sweep descriptor writes its next line with zeros sealed under the
guard's one-time key, without reading it. With its last descriptor the guard wipes the key. -/
def execDomainSweepLine (g : Fin 40) (wrErr : Bool) (s : State) : Out :=
  done (whenUp s fun s =>
    let n := g.toNat
    let x := s.guard g
    match x.sweep.dom, x.sweep.key with
    | d :: ds, some k =>
      let a := d.first + d.visited
      if !x.canSweep || !x.mayDraw 1 || x.lineHeld a then s
      else
        let c := sealLine k a 0 0
        let d' := { d with visited := d.visited + 1, failed := if wrErr then satInc d.failed else d.failed }
        let ended := d.count ≤ d'.visited
        let s := (driveBeat n true a c.1 c.2 s).modGuard n (fun y => { y with sweep := { y.sweep with
          dom := if ended then ds else d' :: ds, lines := y.sweep.lines + 1, fails := if wrErr then satInc y.sweep.fails else y.sweep.fails,
          key := if ended && ds.isEmpty then none else y.sweep.key } })
        onlyIf ended (guardSend n (sweepDoneMsg d' false)) s
    | _, _ => s)

end Sys2Proof.Machine
end

