-- ==== Sys2Proof/Machine/KeyService.lean ====
section
/-!
DEFINITION. The key service at the head of the ring (R137, R138, R152 to R160, R166 to R168, R176, R183, R184, R265, R297, R298,
R590, R617, R692, R693): key requests and their answers, acknowledgements, resends and timeouts, descriptors, and the end of drains.
-/

namespace Sys2Proof.Machine
open Sys2Proof

/-- R183: a message arrives whose SEQ does not follow the last one of its source, nor starts anew at 0 as a source does after its reset (R180): the
head reports the gap as a ring fault and takes the message (log 61). -/
def headGap (m : RingMsg) (s : State) : State :=
  match s.head.srcSeq.find? (fun p => p.1 == m.src) with
  | none => s
  | some p => onlyIf (m.seq != p.2 && m.seq != 0) (headDamage p.2 m.body.code m.src) s

/-- R28, R181, R183, R645: what the stops only pass has gone on; the message at the front of the head's queue is taken by the command that names its
type, its SEQ checked against the one expected of its source; a head that is discarding words loses it. -/
def headReceive (k : RingMsg → Option (State → State)) (s : State) : State :=
  let s := ringFlow (ringOrder s) s
  match s.head.inQ with
  | [] => s
  | m :: ms =>
    if s.head.discarding then s.modHead (fun h => { h with inQ := ms })
    else
      match k m with
      | none => s
      | some f => f ((headGap m s).modHead (fun h => { h with inQ := ms, srcSeq := alSet h.srcSeq m.src (m.seq + 1) }))

/-- KEY_REQ (R265): a key request reaches the head and is admitted to the key service. -/
def execKeyReq (s : State) : Out :=
  done (whenUp s (headReceive (fun m => match m.body with
    | .keyReq _ _ _ => some (State.modHead (fun h => { h with admitted := h.admitted ++ [m] }))
    | _ => none)))

/-- R118, R154: the live entry a KEY_REQ asks for, if the key service may send it; an older generation that is being retired it may not, whether the
domain is in RETIRING_OLD or a teardown has begun since. -/
def answerEntry (r : DomRec) (want genbit : Bool) : Option Entry :=
  if !r.state.keyed? then none
  else if want then r.gens.find? (fun e => e.genBit == genbit && !(r.oldRetiring && e.gen != r.newest))
  else r.gens.find? (fun e => e.gen == r.newest)

/-- R297, R298: a generation that its ECC or BIND shows lost, the change of its record mirrored. `ecc` tells that the ECC is uncorrectable. -/
def markLost (d : Nat) (gen : BitVec 32) (ecc : Bool) (s : State) : State :=
  onlyIf (!(s.dom d).any (fun r => r.lostGen.contains gen)) (fun s =>
    commitDom d [] [] (loseGen d gen (modDom d (fun r => { r with eccBad := if ecc then r.eccBad ++ [gen] else r.eccBad }) s))) s

/-- R161, R188: a ROTATE of a domain has been decided and not yet sent. -/
def rotateUnsent (s : State) (d : Nat) : Bool := (unsentMsgs s).any (fun b => match b with
  | .rotate x _ _ => x == d
  | _ => false)

/-- KEY_SERVICE_ANSWER (R118, R137, R138, R154, R161, R297, R298): the key service answers the oldest admitted KEY_REQ with the
generation it asks for, or with KEY_NONE. It waits while a change to that domain is on its way to the standby (R610), and with a fill of a new
generation until its ROTATE has been sent. `ecc` is what the SEC-DED code of the entry it reads shows: 0 no error, 1 an error corrected, else an
uncorrectable one. -/
def execKeyServiceAnswer (ecc : BitVec 2) (s : State) : Out :=
  done (whenUp s fun s =>
    match s.head.admitted with
    | [] => s
    | m :: ms =>
      match m.body with
      | .keyReq d want genbit =>
        if !ksUp s || storePending s d then s
        else
          let t := s.modHead (fun h => { h with admitted := ms })
          let none' (t : State) : State := headSend m.src (.keyNone d want genbit) t
          match (s.dom d).bind (fun r => (answerEntry r want genbit).map (fun e => (r, e))) with
          | none => none' t
          | some (r, e) =>
            if e.gen == r.newest && rotateUnsent s d then s
            else
            if 1 < ecc.toNat || r.unreadable e then none' (markLost d e.gen (1 < ecc.toNat) t)
            else headSend m.src (.keyFill e) (t.modVault (fun v => { v with eccRecent := v.eccRecent || ecc == 1 }))
      | _ => s.modHead (fun h => { h with admitted := ms }))

/-- RETIRE_DEQUEUE (R153, R160): the oldest waiting retire is sent when fewer than 16 are outstanding. -/
def execRetireDequeue (s : State) : Out :=
  done (whenUp s fun s =>
    match s.ks.retireQ with
    | [] => s
    | r :: q =>
      if 16 ≤ retiresOut s || !s.ks.held.isEmpty then s
      else settle (startOp (retireOp r.first r.last r.older) (s.modKs (fun k => { k with retireQ := q }))))

/-- R158, R188, R617, R693: an acknowledgement counted for the operation it names. -/
def countAck (op : BitVec 32) (unit : Nat) (k : KeySvc) (site : Bool) : KeySvc :=
  { k with ops := k.ops.map (fun o => match o.kind with
      | .sync die kind =>
        if unit = stopUnit die ∧ op.toNat / 2 ^ 16 = kind ∧ k.syncSeqs.any (fun x => x == (die, kind, op.extractLsb' 0 16))
        then { o with missS := [] } else o
      | _ =>
        if o.opId ≠ op ∨ op.getLsbD 31 ≠ site then o
        else { o with missG := o.missG.filter (· != unit), missS := o.missS.filter (fun d => stopUnit d != unit) }) }

/-- ACK (R32, R152, R158, R159, R161, R163, R188, R617, R693): an acknowledgement reaches the head and is counted; a complete set ends
the operation. -/
def execAck (s : State) : Out :=
  done (whenUp s (headReceive (fun m => match m.body with
    | .ack op unit _ => some (fun t => settle (t.modKs (fun k => countAck op unit k t.mir.site)))
    | _ => none)))

/-- R188: an operation is a TABLE_SYNC, whose identifier is made of a SEQ and a kind and not numbered with those of the others. -/
def BKind.isSync : BKind → Bool
  | .sync _ _ => true
  | _ => false

/-- R188, R693: an outstanding operation with acknowledgements missing, a TABLE_SYNC or another one. -/
def State.op (s : State) (id : BitVec 32) (sync : Bool) : Option Broadcast :=
  s.ks.ops.find? (fun o => o.opId == id && o.kind.isSync == sync && !(o.missG.isEmpty && o.missS.isEmpty))

/-- An outstanding operation changed by `f`. -/
def modOp (id : BitVec 32) (sync : Bool) (f : Broadcast → Broadcast) (s : State) : State :=
  s.modKs (fun k => { k with ops := mapIf (fun o => o.opId == id && o.kind.isSync == sync) f k.ops })

/-- BROADCAST_RESEND (R158, R693): at 50 µs an operation with acknowledgements missing is sent again, every message of it. `sync` tells a TABLE_SYNC
from the operations that OP_IDs number (R188). -/
def execBroadcastResend (opId : BitVec 32) (sync : Bool) (s : State) : Out :=
  done (whenUp s fun s =>
    match s.op opId sync with
    | none => s
    | some o =>
      if o.resent || !s.head.attached then s
      else
        let s := modOp opId sync (fun x => { x with resent := true }) (reachTime (o.sentAt + 50) s)
        match o.kind with
        | .sync die kind => sendSync die kind o.msgs s
        | _ => forEach o.msgs headAll s)

/-- R152, R192: the guards of a die whose GUARD_DRAIN shows a withdrawal pending. -/
def drainPending (s : State) (die : Nat) (op : BitVec 32) : List Nat :=
  (guardsOf die).filter (fun g => (s.dieN die).withdraws.any (fun w => w.opId == op && (w.live s).any (fun p => p.1 == g)))

/-- R693: what a missing acknowledgement of a stop brings at 100 µs. -/
def stopTimeout (withdraw : Bool) (op : BitVec 32) (type die : Nat) (s : State) : State :=
  if withdraw then
    let gs := drainPending s die op
    raise true kDie die fDrainTimeout (if gs.isEmpty then 0 else 1) op.toNat (fenceAll true gs s)
  else raise true kDie die fAckTimeout 0x21 (op.toNat + type * 2 ^ 32) (fenceAll true (guardsOf die) s)

/-- ACK_TIMEOUT (R152, R158, R693): at 100 µs the units whose acknowledgement is missing are fenced as the table of R693 states,
the faults queued, and the acknowledgements counted as given. SYNCED of a die section whose TABLE_SYNC is not acknowledged stays 0. -/
def execAckTimeout (opId : BitVec 32) (sync : Bool) (s : State) : Out :=
  done (whenUp s fun s =>
    match s.op opId sync with
    | none => s
    | some o =>
      if !o.resent then s
      else
        let s := reachTime (o.sentAt + 100) s
        let type := ((o.msgs.head?).map RingBody.code).getD 0
        let byGuard (code : Nat) (detail : Nat) (t : State) : State :=
          forEach o.missG (fun g u => raise true kGuard (unitGuard g) code 1 detail (fenceGuard true true g u)) t
        let s := match o.kind with
          | .retire _ _ _ => byGuard fRetireTimeout opId.toNat s
          | .rotate _ => byGuard fAckTimeout (opId.toNat + type * 2 ^ 32) s
          | .stream _ w _ => forEach o.missS (stopTimeout w opId type) s
          | .reader _ w _ => forEach o.missS (stopTimeout w opId type) s
          | .sync _ _ => forEach o.missS (fun d t => (stopTimeout false opId type d t).modDie d (fun x => { x with synced := 0, syncDead := true })) s
        settle (modOp opId sync (fun x => { x with missG := [], missS := [] }) s))

/-- RING_ERR (R184, R590): a stop has reported a gap: every message from the SEQ it expected on is sent again; where that SEQ is no
longer in the replay buffer every guard of the die section is fenced. -/
def execRingErr (s : State) : Out :=
  done (whenUp s (headReceive (fun m => match m.body with
    | .ringErr exp unit => some (fun t =>
        let die := unit - 0x80
        if t.head.replay.any (fun x => x.seq == exp) then
          let again := (t.head.replay.filter (fun x => (x.seq - exp).toNat < 2 ^ 15)).reverse
          forEach again (ringTo (firstStop t)) t
        else if exp == t.head.seq then t
        else settle (raise true kDie die fRingLost 0x21 exp.toNat (fenceAll true (guardsOf die) t)))
    | _ => none)))

/-- R176: descriptors of one kind a guard holds. -/
def heldBy (s : State) (g : Nat) (dsweep : Bool) : Nat :=
  (s.ks.descs.filter (fun x => x.guard == g && x.dsweep == dsweep && x.sent)).length

/-- DESCRIPTOR_SEND (R168, R169, R176): the key service sends the next descriptor whose guard can take it. Before a guard's first
domain-sweep descriptor of a teardown it sends it a fresh one-time key. It waits for the standby as R610 states, and for a guard in
reset. -/
def execDescriptorSend (s : State) : Out :=
  done (whenUp s fun s =>
    if !ksUp s then s
    else
      match s.ks.descs.find? (fun x => !x.sent && heldBy s x.guard x.dsweep < 16 && !(s.guardN x.guard).inReset && !storePending s x.domain) with
      | none => s
      | some x =>
        let cmd (t : State) : State :=
          headSend x.guard (.sweepCmd x.dsweep x.domain x.first x.count x.sweepId)
            (t.modKs (fun k => { k with descs := mapIf (fun y => y.sweepId == x.sweepId) (fun y => { y with sent := true }) k.descs }))
        if !x.dsweep || x.keyed then cmd s
        else if !drawNow s then s
        else
          match drawBytes 96 s with
          | (none, t) => t
          | (some keys, t) =>
            let t := t.modKs (fun k => { k with
              descs := mapIf (fun y => y.guard == x.guard && y.domain == x.domain && y.dsweep) (fun y => { y with keyed := true }) k.descs })
            cmd (headSend x.guard (.keyFill (entryOf keys 8191 0 .seal false)) t))

/-- SWEEP_DONE (R166 to R168, R617): a descriptor has ended; with the last of its kind the older generation, or every generation, is
retired. -/
def execSweepDone (s : State) : Out :=
  done (whenUp s (headReceive (fun m => match m.body with
    | .sweepDone id visited failed _ => some (fun t =>
        match t.ks.descs.find? (fun x => x.sweepId == id && x.sent && x.guard == m.src) with
        | none => t
        | some x =>
          let t := t.modKs (fun k => { k with descs := k.descs.filter (fun y => y.sweepId != id) })
          let t := onlyIf (!x.dsweep) (modDom x.domain (fun r => { r with visited := r.visited + visited, failed := r.failed + failed.toNat })) t
          settle (sweepEnded x.domain (rekeyEnded x.domain t)))
    | _ => none)))

/-- TEARDOWN_DRAIN_END (R118, R168): every withdrawal of the domain has drained; the domain sweep of its region list begins. -/
def execTeardownDrainEnd (domain : BitVec 13) (s : State) : Out :=
  done (whenUp s fun s =>
    let d := domain.toNat
    if domState s d != .tearDrain || domainOps s d || (s.dom d).any DomRec.reading || s.mower.run.any (fun j => j.domain == d) then s
    else
      let rs := ((s.dom d).map DomRec.regions).getD []
      let s := modDom d (fun r => { r with state := .tearSweep }) s
      settle (sweepEnded d (addDescs true d rs (commitDom d [] [] s))))

end Sys2Proof.Machine
end

