-- ==== Sys2Proof/Machine/Custody.lean ====
section
/-!
DEFINITION. What requests about domains share (R118, R168, R174, R175, R197 to R233, R441): the order of requests, the reading of
region lists, the start of a teardown, and the end of an ingest job.
-/

namespace Sys2Proof.Machine
open Sys2Proof

/-! ### Requests of one domain, in order (R441) -/

/-- R441: the domains a waiting request names. -/
def HeldMsg.domains (h : HeldMsg) : List Nat :=
  let f (o : Nat) : Nat := fieldLe h.body o 2
  if h.msg = 0x0010 then (if fieldLe h.body 0 1 = 1 then [f 2] else [])
  else if h.msg = 0x0021 then [f 2]
  else if h.msg = 0x0022 then [f 2]
  else if h.msg = 0x0024 then [f 4]
  else if h.msg = 0x0050 then [f 0, f 2]
  else if h.msg = 0x0051 then [f 10]
  else if h.msg = 0x0103 then [f 2]
  else if h.msg = 0x0108 then [f 2]
  else if h.msg = 0x010C then [f 2]
  else [f 0]

/-- R174, R441: whether a region list of a domain is being read. -/
def domReading (s : State) (d : Nat) : Bool :=
  (s.dom d).any DomRec.reading

/-- R441: a request that names domains is decided at once, or waits while a region list of one of them is being read. -/
def inOrder (w : Waiter) (body : Bytes) (k : State → State) (s : State) : State :=
  let h : HeldMsg := { msg := w.msg, sess := w.sess, tag := w.tag, body := body }
  if h.domains.any (fun d => domReading s d || s.ks.waiting.any (fun x => x.domains.contains d)) then
    s.modKs (fun q => { q with waiting := q.waiting ++ [h] })
  else k s

/-- The credential a session has proven. -/
def credOf (s : State) (w : Waiter) : Option Bytes := (s.sess w.sess).bind Session.cred

/-- R116, R296: whether a session's credential is that of a tenant domain's tenant. -/
def isTenant (s : State) (w : Waiter) (d : Nat) : Bool := (s.dom d).any (fun r => r.owner.isSome && r.owner == credOf s w)

/-! ### Region lists (R174, R175) -/

/-- R174: a region list is read through the DMA port for a request. -/
def readRegions (p : RPurpose) (domain addr count : Nat) (s : State) : State :=
  let s := modDom domain (fun r => { r with reading := true }) s
  let r := dmaRead .regionList addr (16 * count) s
  r.2.modKs (fun k => { k with reads := k.reads ++ [{ work := r.1, purpose := p }] })

/-- R175 step 1, R633: why a region list cannot be read, if it cannot. -/
def listRefused (addr count : Nat) : Option (BitVec 8) :=
  if count = 0 ∨ 65536 < count then some eRegion else if dmaBeyond addr (16 * count) then some eRegion else none

/-- R175 steps 2 and 3: the entries of a list read, or the code of its refusal. -/
def checkRegions (bs : Bytes) : Except (BitVec 8) (List Region) :=
  let es := chunks 16 bs
  if es.any (fun e => !regionReservedOk e) then .error eReserved
  else if es.any (fun e => !regionRangeOk (regionOf e)) then .error eRegion
  else .ok (es.map regionOf)

/-! ### Ingest jobs that end (R210, R220 to R222, R233, R258) -/

/-- R220: the outcomes of an ingest job. -/
def igDone : BitVec 8 := 0x00
/-- IG_HEADER -/
def igHeader : BitVec 8 := 0x40
/-- IG_MODEL -/
def igModel : BitVec 8 := 0x41
/-- IG_KEY_ID -/
def igKeyId : BitVec 8 := 0x42
/-- IG_AUTH -/
def igAuth : BitVec 8 := 0x43
/-- IG_SHORT -/
def igShort : BitVec 8 := 0x44
/-- IG_PLACE -/
def igPlace : BitVec 8 := 0x45
/-- IG_CHUNK -/
def igChunk : BitVec 8 := 0x46
/-- IG_MANIFEST -/
def igManifest : BitVec 8 := 0x47
/-- IG_ROOT -/
def igRoot : BitVec 8 := 0x48
/-- IG_STAGE -/
def igStage : BitVec 8 := 0x49
/-- IG_WRITE -/
def igWrite : BitVec 8 := 0x4A
/-- IG_ABORT -/
def igAbort : BitVec 8 := 0x4B

/-- The payload size of a job's header. -/
def IngestJob.payload (j : IngestJob) : Nat := fieldLe j.header 48 8

/-- R210, R220, R233, R258, R447: what every end of a running ingest job leaves, whatever becomes of the domain. -/
def ingestOver (j : IngestJob) (outcome : BitVec 8) (root : Bytes) (s : State) : State :=
  let s := wipeBundle j.model s
  let s := s.modIngest (fun u => { u with run := none, lastOutcome := outcome, lastModel := BitVec.ofNat 8 (j.model - 4096), lastValid := true,
                                          lastChunk := BitVec.ofNat 25 j.chunk })
  let s := setResult
    { domain := j.model, kind := 4, mode := 1, outcome := outcome, level := BitVec.ofNat 8 (if j.headerOk then topLevel j.payload else 0),
      jobSeq := 0, gen := ((s.dom j.model).map DomRec.newest).getD 0, total := BitVec.ofNat 64 (if j.headerOk then j.payload else 0),
      baseRoot := zeros 32, result := if outcome = igDone then root else zeros 32 } s
  pushEvent (fun x => x.id == j.sess || x.operator)
    { kind := evIngested, result := outcome, domain := j.model, value1 := BitVec.ofNat 64 j.chunk } s

/-! ### Teardown (R118, R168, R221, R222, R229 to R231, R251, R255) -/

/-- R168 step 2: the broadcasts that withdraw a domain's proposals, drain its bound streams, and clear or leave reader sets. -/
def withdrawOps (s : State) (d : Nat) : List Broadcast :=
  let t := tables s
  let streams := t.streams.filterMap (fun p =>
    if entryDomain p.2 ≠ d then none
    else if entryState p.2 = 1 then some (streamOp p.1 0 false d none)
    else if entryState p.2 = 2 then some (streamOp p.1 (mkEntry d (entryRead p.2) (entryWrite p.2) 3) true d none)
    else none)
  let readers := if 4096 ≤ d then (if (readerWords t.readers d).isEmpty then [] else [readerOp d 2 0 0 d none])
    else ((List.range 256).filter (fun i => readerBit t.readers (4096 + i) d)).map (fun i => readerOp (4096 + i) 1 d d d none)
  streams ++ readers

/-- R222: a running ingest job of a model domain, or one that reads from a staging domain, has to end before a teardown. -/
def ingestTouches (j : IngestJob) (d : Nat) : Bool := j.model == d || j.staging == d

/-- R168: a teardown begins for a domain whose request has been accepted, with its region list; `frames` and `replies` go with the
change of its record (R610). -/
def beginTeardown (d : Nat) (rs : List Region) (addr count : Nat) (replies : List (Waiter × BitVec 8)) (s : State) : State :=
  match s.dom d with
  | none => s
  | some r =>
    let ops := withdrawOps s d
    let created := r.state == .created
    let s := wipeBundle d (s.modIngest (fun u => { u with queue := u.queue.filter (fun j => j.model != d) }))
    let sweeping := r.state == .sweeping
    let s := modDom d (fun r => if created then { r with closing := true }
      else { r with state := .tearDrain, regions := rs, swAddr := addr, swCount := count, reading := false }) s
    let s := modModel d (fun m => if created then m else { m with custody := .revoking }) s
    let s := s.modKs (fun k => { k with descs := k.descs.filter (fun x => !(x.domain == d && !x.dsweep && !x.sent)) })
    let s := onlyIf sweeping (headAll (.sweepAbort d)) s
    let s := if created then s else dropKept d (abortJobs d s)
    let s := checkStore d s
    let fs := if 4096 ≤ d then [storeFrame s d, modelFrameOf s d, readersFrame s d ops]
      else storeFrame s d :: (ops.filterMap (fun o => match o.kind with
        | .reader m _ _ => some (readersFrame s m ops)
        | _ => none))
    closeCreated d (commit fs ops replies s)

/-- R221: a job that does not end IG_DONE takes its domain to REVOKING, and the domain is torn down with its placement list. -/
def endIngest (j : IngestJob) (outcome : BitVec 8) (s : State) : State :=
  let s := ingestOver j outcome [] s
  beginTeardown j.model (((s.model j.model).map ModelRec.placement).getD []) 0 0 [] s

/-- R222, R168: a teardown with what it does to the running ingest job: the job ends IG_ABORT, and the teardown of a model domain is
then the one that this end brings. -/
def tearDown (d : Nat) (rs : List Region) (addr count : Nat) (replies : List (Waiter × BitVec 8)) (s : State) : State :=
  match s.ingest.run with
  | none => beginTeardown d rs addr count replies s
  | some j =>
    if j.model = d then beginTeardown d rs addr count replies (ingestOver j igAbort [] s)
    else if j.staging = d then beginTeardown d rs addr count replies (endIngest j igAbort s)
    else beginTeardown d rs addr count replies s

/-- R168, R230, R231: the placement list of a model domain's record, which is its region list. -/
def placementOf (s : State) (m : Nat) : List Region := ((s.model m).map ModelRec.placement).getD []

/-- R118: whether a teardown of a domain may begin now. -/
def mayTearDown (s : State) (d : Nat) : Bool := domAlive s d

end Sys2Proof.Machine
end

