-- ==== Sys2Proof/Machine/Domains.lean ====
section
/-!
DEFINITION. Requests about domains and streams (R115 to R123, R145 to R147, R168, R173, R296, R441 to R444, R461): creation, seeds,
proposals, confirmations, unbinding, teardown, region lists, ingest starts, link assignment, shares and pins. Where a rule names
codes without an order, the checks run in the order E_RESERVED, E_RANGE, E_OWNER, E_STATE (log 21).
-/

namespace Sys2Proof.Machine
open Sys2Proof

/-- R461: how an operator message must arrive. -/
def operMsg (msg : BitVec 16) : MsgRule := { msg := msg, tenant := false, operator := true }

/-- R440: how a tenant message must arrive. -/
def tenantMsg (msg : BitVec 16) : MsgRule := { msg := msg }

/-- R50, R51, R52, R461: the mode a creation names, or none where it is refused with E_KIND. -/
def createMode (s : State) (d mode : Nat) (scratch : Bool) : Option DomMode :=
  if mode ≤ 1 then some .seal
  else if 4096 ≤ d then none
  else if mode = 2 then some .veil
  else if openOk s && scratch then some .open else none

/-- R118, R173, R461: a creation is decided. -/
def decideCreate (w : Waiter) (body : Bytes) (s : State) : State :=
  let d := fieldLe body 0 2
  let mode := fieldLe body 2 1
  let flags := fieldLe body 3 1
  if 3 < mode ∨ 1 < flags then refuse w eReserved s
  else if 4352 ≤ d then refuse w eRange s
  else if domState s d ≠ .free then refuse w eState s
  else
    match createMode s d mode (flags == 1) with
    | none => refuse w eKind s
    | some m =>
      let s := setDom { id := d, mode := m, scratch := flags == 1 } s
      if 4096 ≤ d then
        let s := setModel { model := d } s
        commit [storeFrame s d, modelFrameOf s d] [] [(w, eOk)] s
      else commitDom d [] [(w, eOk)] s

/-- DOMAIN_CREATE (R50 to R52, R118, R173, R198, R461). -/
def execDomainCreate (sess : Nat) (tag : BitVec 32) (body : Bytes) (s : State) : Out :=
  done (whenUp s (onMessage (operMsg 0x0101) (exactly 4) sess tag body (fun _ w => inOrder w body (decideCreate w body))))

/-- R168, R174, R175, R444: a teardown request whose owner has been checked: a model domain's goes by its placement list at once; a
tenant domain's list is read first. -/
def requestTeardown (w : Waiter) (d addr count : Nat) (s : State) : State :=
  if !mayTearDown s d then refuse w eState s
  else if 4096 ≤ d then tearDown d (placementOf s d) 0 0 [(w, eOk)] s
  else
    match listRefused addr count with
    | some c => refuse w c s
    | none => readRegions (.teardown w d addr count) d addr count s

/-- R168, R461: an operator's teardown is decided. -/
def decideOperTeardown (w : Waiter) (body : Bytes) (s : State) : State :=
  let d := fieldLe body 0 2
  if fieldLe body 2 2 ≠ 0 then refuse w eReserved s
  else if 4352 ≤ d then refuse w eRange s
  else requestTeardown w d (fieldLe body 8 8) (fieldLe body 4 4) s

/-- OPERATOR_DOMAIN_TEARDOWN (R118, R168, R174, R175, R222, R229, R231, R461). -/
def execOperatorDomainTeardown (sess : Nat) (tag : BitVec 32) (body : Bytes) (s : State) : Out :=
  done (whenUp s (onMessage (operMsg 0x0102) (exactly 16) sess tag body (fun _ w s =>
    settle (inOrder w body (decideOperTeardown w body) s))))

/-- R168, R444: a tenant's teardown is decided. -/
def decideTenantTeardown (w : Waiter) (body : Bytes) (s : State) : State :=
  let d := fieldLe body 0 2
  if fieldLe body 2 2 ≠ 0 then refuse w eReserved s
  else if 4352 ≤ d then refuse w eRange s
  else if !isTenant s w d then refuse w eOwner s
  else requestTeardown w d (fieldLe body 8 8) (fieldLe body 4 4) s

/-- TENANT_DOMAIN_TEARDOWN (R118, R168, R174, R175, R222, R229, R444). -/
def execTenantDomainTeardown (sess : Nat) (tag : BitVec 32) (body : Bytes) (s : State) : Out :=
  done (whenUp s (onMessage (tenantMsg 0x0023) (exactly 16) sess tag body (fun _ w s =>
    settle (inOrder w body (decideTenantTeardown w body) s))))

/-- R145, R461: a proposal is decided. -/
def decidePropose (w : Waiter) (body : Bytes) (s : State) : State :=
  let st := fieldLe body 0 2
  let d := fieldLe body 2 2
  let rights := fieldLe body 4 1
  if 3 < rights ∨ rights = 0 ∨ fieldLe body 5 3 ≠ 0 then refuse w eReserved s
  else if 4096 ≤ d then refuse w eRange s
  else if entryState (streamNow s st) ≠ 0 ∨ !domAlive s d then refuse w eState s
  else commit [] [streamOp st (mkEntry d (rights % 2 == 1) (2 ≤ rights) 1) false d none] [(w, eOk)] s

/-- STREAM_PROPOSE (R145, R461): the stream is set to proposed in every die section. -/
def execStreamPropose (sess : Nat) (tag : BitVec 32) (body : Bytes) (s : State) : Out :=
  done (whenUp s (onMessage (operMsg 0x0103) (exactly 8) sess tag body (fun _ w => inOrder w body (decidePropose w body))))

/-- STREAM_WITHDRAW (R147, R461): a proposal that is not yet confirmed is withdrawn. -/
def execStreamWithdraw (sess : Nat) (tag : BitVec 32) (body : Bytes) (s : State) : Out :=
  done (whenUp s (onMessage (operMsg 0x0104) (exactly 4) sess tag body (fun _ w s =>
    let st := fieldLe body 0 2
    let e := streamNow s st
    if fieldLe body 2 2 ≠ 0 then refuse w eReserved s
    else if entryState e ≠ 1 then refuse w eState s
    else commit [] [streamOp st 0 false (entryDomain e) none] [(w, eOk)] s)))

/-- R147, R149: a confirmed stream is set to draining in every die section; the requester is answered when the drain completes. -/
def unbind (w : Waiter) (st : Nat) (s : State) : State :=
  let e := streamNow s st
  commit [] [streamOp st (mkEntry (entryDomain e) (entryRead e) (entryWrite e) 3) true (entryDomain e) (some w)] [] s

/-- OPERATOR_STREAM_UNBIND (R147, R149 to R152, R461). -/
def execOperatorStreamUnbind (sess : Nat) (tag : BitVec 32) (body : Bytes) (s : State) : Out :=
  done (whenUp s (onMessage (operMsg 0x0105) (exactly 4) sess tag body (fun _ w s =>
    let st := fieldLe body 0 2
    if fieldLe body 2 2 ≠ 0 then refuse w eReserved s
    else if entryState (streamNow s st) ≠ 2 then refuse w eState s
    else settle (unbind w st s))))

/-- R147, R443: a tenant's unbinding is decided. -/
def decideTenantUnbind (w : Waiter) (body : Bytes) (s : State) : State :=
  let st := fieldLe body 0 2
  let d := fieldLe body 2 2
  if fieldLe body 4 4 ≠ 0 then refuse w eReserved s
  else if 4352 ≤ d then refuse w eRange s
  else if !isTenant s w d then refuse w eOwner s
  else if entryState (streamNow s st) ≠ 2 ∨ entryDomain (streamNow s st) ≠ d then refuse w eState s
  else unbind w st s

/-- TENANT_STREAM_UNBIND (R147, R149 to R152, R443). -/
def execTenantStreamUnbind (sess : Nat) (tag : BitVec 32) (body : Bytes) (s : State) : Out :=
  done (whenUp s (onMessage (tenantMsg 0x0022) (exactly 8) sess tag body (fun _ w s =>
    settle (inOrder w body (decideTenantUnbind w body) s))))

/-- R146, R443: a confirmation is decided. -/
def decideConfirm (w : Waiter) (body : Bytes) (s : State) : State :=
  let st := fieldLe body 0 2
  let d := fieldLe body 2 2
  let rights := fieldLe body 4 1
  let e := streamNow s st
  if 3 < rights ∨ fieldLe body 5 3 ≠ 0 then refuse w eReserved s
  else if 4352 ≤ d then refuse w eRange s
  else if !isTenant s w d then refuse w eOwner s
  else if entryState e ≠ 1 ∨ ((s.dom d).map DomRec.gens).getD [] = [] then refuse w eState s
  else if entryDomain e ≠ d ∨ entryRead e ≠ (rights % 2 == 1) ∨ entryWrite e ≠ (2 ≤ rights : Bool) then refuse w eMismatch s
  else commit [] [streamOp st (mkEntry d (entryRead e) (entryWrite e) 2) false d (some w)] [] s

/-- STREAM_CONFIRM (R32, R116, R146, R443): the stream is set to confirmed; OK is reported when every stop has acknowledged. -/
def execStreamConfirm (sess : Nat) (tag : BitVec 32) (body : Bytes) (s : State) : Out :=
  done (whenUp s (onMessage (tenantMsg 0x0021) (exactly 8) sess tag body (fun _ w s =>
    settle (inOrder w body (decideConfirm w body) s))))

/-- R163, R461: a region list for a rekey sweep is requested. -/
def decideRegionList (w : Waiter) (body : Bytes) (s : State) : State :=
  let d := fieldLe body 0 2
  let addr := fieldLe body 8 8
  let count := fieldLe body 4 4
  if fieldLe body 2 2 ≠ 0 then refuse w eReserved s
  else if 4352 ≤ d then refuse w eRange s
  else if domState s d ≠ .sweepWait then refuse w eState s
  else
    match listRefused addr count with
    | some c => refuse w c s
    | none => readRegions (.rekey w d addr count) d addr count s

/-- REGION_LIST (R163, R174, R175, R461). -/
def execRegionList (sess : Nat) (tag : BitVec 32) (body : Bytes) (s : State) : Out :=
  done (whenUp s (onMessage (operMsg 0x0106) (exactly 16) sess tag body (fun _ w => inOrder w body (decideRegionList w body))))

/-- R199, R212, R271, R461: an ingest start is requested; its two lists are read, staging first, unless a count is above its largest. A second start
while the first is still queued is E_STATE (DESIGN CHOICE, log 62). -/
def decideIngestStart (w : Waiter) (body : Bytes) (s : State) : State :=
  let m := fieldLe body 0 2
  let sc := fieldLe body 4 4
  let pc := fieldLe body 16 4
  if fieldLe body 2 2 ≠ 0 ∨ fieldLe body 20 4 ≠ 0 then refuse w eReserved s
  else if m < 4096 ∨ 4352 ≤ m then refuse w eRange s
  else if custody s m ≠ .keyHeld ∨ (s.model m).any ModelRec.jobUsed then refuse w eState s
  else
    match listRefused (fieldLe body 8 8) sc, listRefused (fieldLe body 24 8) pc with
    | some c, _ => refuse w c s
    | none, some c => refuse w c s
    | none, none => if 256 < pc then refuse w eRegion s else readRegions (.ingestStage w m (fieldLe body 24 8) pc) m (fieldLe body 8 8) sc s

/-- INGEST_START (R199, R212, R461). -/
def execIngestStart (sess : Nat) (tag : BitVec 32) (body : Bytes) (s : State) : Out :=
  done (whenUp s (onMessage (operMsg 0x0107) (exactly 32) sess tag body (fun _ w => inOrder w body (decideIngestStart w body))))

/-- R115, R461: a link assignment is decided. -/
def decideLinkAssign (w : Waiter) (body : Bytes) (s : State) : State :=
  let l := fieldLe body 0 1
  let d := fieldLe body 2 2
  if fieldLe body 1 1 ≠ 0 then refuse w eReserved s
  else if 63 < l ∨ (4095 < d ∧ d ≠ 0xFFFF) then refuse w eRange s
  else reply w eOk (s.modKs (fun k => { k with links := if d = 0xFFFF then alDel k.links l else alSet k.links l d }))

/-- LINK_ASSIGN (R441, R461): a link serves a tenant domain, or with 0xFFFF none. -/
def execLinkAssign (sess : Nat) (tag : BitVec 32) (body : Bytes) (s : State) : Out :=
  done (whenUp s (onMessage (operMsg 0x0108) (exactly 4) sess tag body (fun _ w => inOrder w body (decideLinkAssign w body))))

/-- SET_SHARES (R47, R93, R94, R112, R461): the source shares of a guard are set as a write of GUARD_LANE_SHARE sets them. -/
def execSetShares (sess : Nat) (tag : BitVec 32) (body : Bytes) (s : State) : Out :=
  done (whenUp s (onMessage (operMsg 0x010B) (exactly 8) sess tag body (fun _ w s =>
    let g := fieldLe body 0 1
    let v := capShares (bytesVec 32 (slice body 4 4))
    if fieldLe body 1 3 ≠ 0 then refuse w eReserved s
    else if 39 < g then refuse w eRange s
    else reply w eOk (s.modGuard g (fun x => { x with page := { x.page with share := v }.shareNow })))))

/-- R131, R132, R461: a PIN message is decided. Which code tells that 32 domains are pinned already, or a request is in progress, is the model's choice:
E_BUSY (log 22). -/
def decidePin (w : Waiter) (body : Bytes) (s : State) : State :=
  let g := fieldLe body 0 1
  let d := fieldLe body 2 2
  let x := s.guardN g
  let pin := fieldLe body 1 1
  if 1 < pin then refuse w eReserved s
  else if 39 < g ∨ 4352 ≤ d then refuse w eRange s
  else if x.cache.pinBusy || (pin == 1 && !x.pinned d && 32 ≤ x.cache.pins.length) then refuse w eBusy s
  else reply w eOk (if pin = 1 then pinStart g d s else pinEnd g d s)

/-- PIN (R131, R441, R461): a message of PIN 1, or of a reserved value: a domain is pinned in a guard. -/
def execPinMsg (sess : Nat) (tag : BitVec 32) (body : Bytes) (s : State) : Out :=
  done (whenUp s (onlyIf (fieldLe body 1 1 != 0) (onMessage (operMsg 0x010C) (exactly 4) sess tag body
    (fun _ w => inOrder w body (decidePin w body)))))

/-- UNPIN (R132, R441, R461): a message of PIN 0: a domain's pin in a guard ends. -/
def execUnpinMsg (sess : Nat) (tag : BitVec 32) (body : Bytes) (s : State) : Out :=
  done (whenUp s (onlyIf (fieldLe body 1 1 == 0) (onMessage (operMsg 0x010C) (exactly 4) sess tag body
    (fun _ w => inOrder w body (decidePin w body)))))

/-- R123: the domains in rotation. -/
def rotating (s : State) : Nat :=
  (s.ks.doms.filter (fun r => r.state == .rotating || r.state == .sweepWait || r.state == .sweeping || r.state == .retiringOld)).length

/-- R121, R123: why a seed is refused, if it is. -/
def seedRefused (s : State) (d : Nat) : Option (BitVec 8) :=
  match s.dom d with
  | none => some eState
  | some r =>
    if 2 ≤ r.gens.length ∨ r.newest = BitVec.allOnes 32 then some eGen
    else if !((r.state == .created && !r.closing) || r.state == .keyed) then some eState
    else if r.state == .keyed && 256 ≤ rotating s then some eBusy
    else none

/-- R116, R120 to R122, R161, R296: an accepted seed makes the next generation; the first keys the domain and names its tenant, a
later one starts a rotation. -/
def acceptSeed (w : Waiter) (d : Nat) (seed : Bytes) (s : State) : State :=
  match s.dom d with
  | none => s
  | some r =>
    let gen := r.newest + 1
    let e := deriveEntry seed d gen r.mode r.scratch
    let w' := { w with body := vecBytes 4 gen }
    if r.state == .created then
      commitDom d [] [(w', eOk)] (setDom { r with state := .keyed, owner := credOf s w, newest := gen, gens := [e] } s)
    else
      commitDom d [{ kind := .rotate d, msgs := [.rotate d gen 0], waiter := some w' }] []
        (setDom { r with state := .rotating, newest := gen, gens := r.gens ++ [e], visited := 0, failed := 0 } s)

/-- R442: a seed is decided. -/
def decideSeed (w : Waiter) (body : Bytes) (s : State) : State :=
  let d := fieldLe body 0 2
  let r := (s.dom d).getD { id := d }
  match s.sess w.sess with
  | none => s
  | some x =>
    if fieldLe body 2 2 ≠ 0 then refuse w eReserved s
    else if 4095 < d then refuse w eRange s
    else if r.owner.isSome && r.owner != x.cred then refuse w eOwner s
    else
      match keyUnwrap (wrapKey x) (slice body 8 40) with
      | none => refuse w eAuth s
      | some seed =>
        if bytesVec 32 (slice body 4 4) ≠ r.newest + 1 then refuse w eState s
        else
          match seedRefused s d with
          | some c => refuse w c s
          | none => acceptSeed w d seed s

/-- DOMAIN_SEED (R116, R118, R120 to R123, R161, R296, R442). -/
def execDomainSeed (sess : Nat) (tag : BitVec 32) (body : Bytes) (s : State) : Out :=
  done (whenUp s (onMessage (tenantMsg 0x0020) (exactly 48) sess tag body (fun _ w s =>
    settle (inOrder w body (decideSeed w body) s))))

end Sys2Proof.Machine
end

