-- ==== Sys2Proof/Machine/Links.lean ====
section
/-!
DEFINITION. Link keys (R437, R448 to R450, R461, R652, R653): the request, the derivation, the pushes and their acknowledgements.
-/

namespace Sys2Proof.Machine
open Sys2Proof

/-- R449: the 44 bytes of key and initial IV of one direction. -/
def linkKeys (m : LkMsg) (dir : Nat) : Bytes :=
  kmac256 m.seed (leBytes 1 m.link ++ leBytes 1 dir ++ leBytes 1 m.kslot ++ [0] ++ vecBytes 4 m.epoch) 44 (ascii "KFL-LINK-KEYS")

/-- R652: the 12 words of a push. -/
def pushWords (m : LkMsg) (dir : Nat) : List (BitVec 32) :=
  BitVec.ofNat 32 (m.link + dir * 2 ^ 6 + m.kslot * 2 ^ 7) :: (chunks 4 (linkKeys m dir)).map (bytesVec 32)

/-- R653: one push at a time: while none is out, the next direction of the first message is pushed. -/
def pumpLinks (s : State) : State :=
  match s.ports.lkWords, s.ports.lk with
  | [], m :: _ => s.modPorts (fun p => { p with lkWords := (m.dirs.head?.map (pushWords m)).getD [], lkAt := s.timer })
  | _, _ => s

/-- R450, R653: the first message is over: its seed and keys are wiped and the next one's push follows. -/
def endLink (s : State) : State := pumpLinks (s.modPorts (fun p => { p with lk := p.lk.drop 1, lkWords := [] }))

/-- R653: the push that is out is not acknowledged well: the LINK_KEY is refused with E_BUSY and pushes nothing further. -/
def failLink (s : State) : State :=
  match s.ports.lkWords, s.ports.lk with
  | _ :: _, m :: _ => refuse m.waiter eBusy (endLink s)
  | _, _ => s

/-- R15, R115, R448: a LINK_KEY is decided. -/
def decideLinkKey (w : Waiter) (body : Bytes) (s : State) : State :=
  let link := fieldLe body 0 1
  let kslot := fieldLe body 1 1
  let mask := fieldLe body 2 1
  let d := fieldLe body 4 2
  match s.sess w.sess with
  | none => s
  | some x =>
    if 3 < mask ∨ fieldLe body 3 1 ≠ 0 ∨ fieldLe body 6 2 ≠ 0 then refuse w eReserved s
    else if 63 < link ∨ 3 < kslot ∨ mask = 0 ∨ 4352 ≤ d then refuse w eRange s
    else if !isTenant s w d ∨ !s.ks.links.contains (link, d) then refuse w eOwner s
    else if !(s.brup.links.toList.getD link {}).qualified then refuse w eState s
    else match keyUnwrap (wrapKey x) (slice body 12 40) with
      | none => refuse w eAuth s
      | some seed =>
        pumpLinks (s.modPorts (fun p => { p with lk := p.lk ++ [{
          waiter := w, link := link, kslot := kslot, dirs := (if mask % 2 = 1 then [0] else []) ++ (if 2 ≤ mask then [1] else []),
          seed := seed, epoch := bytesVec 32 (slice body 8 4) }] }))

/-- LINK_KEY (R436, R440, R441, R448 to R450, R652). -/
def execLinkKey (sess : Nat) (tag : BitVec 32) (body : Bytes) (s : State) : Out :=
  done (whenUp s (onMessage (tenantMsg 0x0024) (exactly 52) sess tag body (fun _ w => inOrder w body (decideLinkKey w body))))

/-- LK_ACK (R450, R653): the controller answers the push that is out, with an error or without. -/
def execLkAck (err : Bool) (s : State) : Out :=
  done (whenUp s fun s =>
    if err then failLink s
    else match s.ports.lkWords, s.ports.lk with
      | _ :: _, m :: ms =>
        if m.dirs.length ≤ 1 then reply m.waiter eOk (endLink s)
        else pumpLinks (s.modPorts (fun p => { p with lk := { m with dirs := m.dirs.drop 1 } :: ms, lkWords := [] }))
      | _, _ => s)

/-- LK_ACK_TIMEOUT (R653): 1 ms passes without an answer. -/
def execLkAckTimeout (s : State) : Out :=
  done (whenUp s (onlyIf (!s.ports.lkWords.isEmpty) (fun s => failLink (reachTime (s.ports.lkAt + 1000) s))))

end Sys2Proof.Machine
end

