-- ==== Sys2Proof/Machine/Models.lean ====
section
/-!
DEFINITION. Model owners' requests (R197 to R199, R207 to R211, R224 to R230, R440, R451, R452): release of a bundle key, its lapse,
reader grants and revocation.
-/

namespace Sys2Proof.Machine
open Sys2Proof

/-- R207: whether a staging domain is one of the releasing session's own that carries traffic. -/
def stagingOk (s : State) (w : Waiter) (d : Nat) : Bool :=
  d < 4096 && isTenant s w d && (s.dom d).any (fun r => r.state.keyed? && r.state != .tearDrain)

/-- R115, R207, R208, R451: a release is decided, in the order in which R207 lists the codes (log 21). A staging ID beyond the model domains is E_RANGE
under R115, where R207 could also be read to give E_OWNER (log 62). -/
def decideBundle (w : Waiter) (body : Bytes) (s : State) : State :=
  let m := fieldLe body 0 2
  let st := fieldLe body 2 2
  match s.sess w.sess with
  | none => s
  | some x =>
    if fieldLe body 4 4 ≠ 0 then refuse w eReserved s
    else if m < 4096 ∨ 4352 ≤ m ∨ 4352 ≤ st then refuse w eRange s
    else if custody s m ≠ .awaitingKey ∨ !domAlive s m then refuse w eState s
    else if !stagingOk s w st then refuse w eOwner s
    else if 16 ≤ s.vault.bundles.length then refuse w eBusy s
    else
      match keyUnwrap (wrapKey x) (slice body 40 40) with
      | none => refuse w eAuth s
      | some key =>
        let id := slice body 8 32
        let s := s.modVault (fun v => { v with bundles := v.bundles ++ [{ model := m, keyId := id, key := key, staging := st, sess := w.sess, released := s.timer }] })
        let s := modModel m (fun r => { r with custody := .keyHeld, ownerKeyId := id, ownerCred := x.cred.getD [], ownerPub := x.credPub }) s
        commit [modelFrameOf s m] [] [(w, eOk)] s

/-- BUNDLE_KEY (R197, R198, R207, R208, R438, R451). -/
def execBundleKey (sess : Nat) (tag : BitVec 32) (body : Bytes) (s : State) : Out :=
  done (whenUp s (onMessage (tenantMsg 0x0050) (exactly 80) sess tag body (fun _ w => inOrder w body (decideBundle w body))))

/-- BUNDLE_KEY_LAPSE (R198, R199, R211, R213): 60 s have passed since the release with no ingest job started: the key is wiped and the domain awaits a
key. A job still queued for the domain is dropped without an outcome and does not count as the one job of R199 (DESIGN CHOICE, log 62). -/
def execBundleKeyLapse (model : BitVec 13) (s : State) : Out :=
  done (whenUp s fun s =>
    let m := model.toNat
    if custody s m ≠ .keyHeld then s
    else
      let due := (((s.vault.bundles.find? (fun b => b.model == m)).map BundleKey.released).getD 0) + 60000000
      let s := wipeBundle m ((reachTime due s).modIngest (fun u => { u with queue := u.queue.filter (fun j => j.model != m) }))
      let s := modModel m (fun r => { r with custody := .awaitingKey, jobUsed := false }) s
      commit [modelFrameOf s m] [] [] s)

/-! ### Reader grants (R224 to R230) -/

/-- R224: COUNT of a grant. -/
def grantCount (g : Bytes) : Nat := fieldLe g 50 2
/-- R224: OPER of a grant. -/
def grantOper (g : Bytes) : Nat := fieldLe g 48 1
/-- R224: the ranges of a grant. -/
def grantRanges (g : Bytes) : List (Nat × Nat) := (List.range (grantCount g)).map (fun i => (fieldLe g (56 + 4 * i) 2, fieldLe g (58 + 4 * i) 2))

/-- R440, R452: the length of a grant with its signature. -/
def grantLength (g : Bytes) : Bool := g.length == 56 + 4 * grantCount g + 4723

/-- R225: why a grant is refused, if it is, in the order in which the rule lists the codes (log 21). -/
def grantRefused (s : State) (g : Bytes) : Option (BitVec 8) :=
  let m := fieldLe g 10 2
  let r := (s.model m).getD { model := m, custody := .none }
  let signed := g.take (56 + 4 * grantCount g)
  if slice g 0 8 ≠ ascii "KFL-GRNT" ∨ fieldLe g 8 2 ≠ 1 ∨ 2 < grantOper g ∨ fieldLe g 49 1 ≠ 0 ∨ fieldLe g 52 4 ≠ 0 then some eReserved
  else if m < 4096 ∨ 4352 ≤ m ∨ (if grantOper g = 2 then grantCount g ≠ 0 else (grantCount g = 0 ∨ 64 < grantCount g)) ∨
      (grantRanges g).any (fun p => 4095 < p.2 || p.2 < p.1) then some eRange
  else if r.custody ≠ .resident ∨ fieldLe g 12 4 ≤ r.grantSeq.toNat then some eState
  else if slice g 16 32 ≠ r.root then some eMismatch
  else if !hybVerify r.ownerPub signed (g.drop (56 + 4 * grantCount g)) then some eOwner
  else none

/-- R227: the tenant domains a grant names, each once. -/
def grantNamed (g : Bytes) : List Nat := (List.range 4096).filter (fun d => (grantRanges g).any (fun p => p.1 ≤ d && d ≤ p.2))

/-- The runs of consecutive numbers of a rising list. -/
def runsOf : List Nat → List (Nat × Nat)
  | [] => []
  | d :: ds =>
    match runsOf ds with
    | [] => [(d, d)]
    | (a, b) :: r => if a = d + 1 then (d, b) :: r else (d, d) :: (a, b) :: r

/-- R226: GRANT_SEQ of an accepted grant is recorded. -/
def recordGrant (g : Bytes) (s : State) : State := modModel (fieldLe g 10 2) (fun r => { r with grantSeq := bytesVec 32 (slice g 12 4) }) s

/-- R226, R452: a grant's change to the reader set: mirrored, broadcast, and answered when every stop has acknowledged. -/
def grantOps (w : Waiter) (m oper skipped : Nat) (rs : List (Nat × Nat)) (s : State) : State :=
  let w' := { w with body := leBytes 2 skipped }
  let ops := rs.map (fun p => readerOp m oper p.1 p.2 m (some w'))
  commit [modelFrameOf s m, readersFrame s m ops] ops (if rs.isEmpty then [(w', eOk)] else []) s

/-- R225, R227: an add is decided: the named domains that exist are added, the others skipped and counted. -/
def decideGrantAdd (w : Waiter) (g : Bytes) (s : State) : State :=
  match grantRefused s g with
  | some c => refuse w c s
  | none =>
    let live := (grantNamed g).filter (domAlive s)
    grantOps w (fieldLe g 10 2) 0 ((grantNamed g).length - live.length) (runsOf live) (recordGrant g s)

/-- READER_GRANT_ADD (R148, R197, R224 to R227, R452): a grant with OPER 0x00, or with a reserved OPER. -/
def execReaderGrantAdd (sess : Nat) (tag : BitVec 32) (body : Bytes) (s : State) : Out :=
  done (whenUp s (onlyIf (grantOper body == 0 || 2 < grantOper body) (onMessage (tenantMsg 0x0051) grantLength sess tag body
    (fun _ w s => settle (inOrder w body (decideGrantAdd w body) s)))))

/-- R225, R228: a removal is decided. -/
def decideGrantRemove (w : Waiter) (g : Bytes) (s : State) : State :=
  match grantRefused s g with
  | some c => refuse w c s
  | none => grantOps w (fieldLe g 10 2) 1 0 (runsOf (grantNamed g)) (recordGrant g s)

/-- READER_GRANT_REMOVE (R149 to R152, R224 to R226, R228, R452): a grant with OPER 0x01. -/
def execReaderGrantRemove (sess : Nat) (tag : BitVec 32) (body : Bytes) (s : State) : Out :=
  done (whenUp s (onlyIf (grantOper body == 1) (onMessage (tenantMsg 0x0051) grantLength sess tag body
    (fun _ w s => settle (inOrder w body (decideGrantRemove w body) s)))))

/-- R225, R230: a revocation is decided: the model domain is torn down with its placement list. -/
def decideGrantRevoke (w : Waiter) (g : Bytes) (s : State) : State :=
  match grantRefused s g with
  | some c => refuse w c s
  | none =>
    let m := fieldLe g 10 2
    tearDown m (placementOf s m) 0 0 [({ w with body := zeros 2 }, eOk)] (recordGrant g s)

/-- READER_GRANT_REVOKE (R198, R224 to R226, R230, R452): a grant with OPER 0x02. -/
def execReaderGrantRevoke (sess : Nat) (tag : BitVec 32) (body : Bytes) (s : State) : Out :=
  done (whenUp s (onlyIf (grantOper body == 2) (onMessage (tenantMsg 0x0051) grantLength sess tag body
    (fun _ w s => settle (inOrder w body (decideGrantRevoke w body) s)))))

end Sys2Proof.Machine
end

