-- ==== Sys2Proof/Machine/Measure.lean ====
section
/-!
DEFINITION. Requests for measurements (R246 to R253, R445): the refusals in their order, acceptance, and the release of a kept record.
-/

namespace Sys2Proof.Machine
open Sys2Proof

/-- R246: KIND of a job request. -/
def jobKind (b : Bytes) : Nat := fieldLe b 2 1
/-- R246: whether KEEP is set. -/
def jobKeep (b : Bytes) : Bool := fieldLe b 3 1 % 2 == 1
/-- R246: TOTAL_LEN. -/
def jobTotal (b : Bytes) : Nat := fieldLe b 8 8

/-- R250: the kept record of a domain. -/
def keptOf (s : State) (d : Nat) : Option Kept := s.mower.kept.find? (fun k => k.domain == d)

/-- R251: the domains that have a kept record, or will when a job accepted with KEEP ends. -/
def keptDomains (s : State) : List Nat :=
  (s.mower.kept.map Kept.domain ++ ((s.mower.queue ++ s.mower.run).filter MJob.keep).map MJob.domain).eraseDups

/-- R248 order 1: whether a reserved field or encoding of a request is nonzero. -/
def jobReserved (b : Bytes) : Bool :=
  let k := jobKind b
  k == 0 || 3 < k || 1 < fieldLe b 3 1 || fieldLe b 5 3 != 0 || fieldLe b 36 4 != 0 ||
  (k != 2 && (fieldLe b 4 1 != 0 || fieldLe b 16 8 != 0)) || (k == 2 && jobKeep b)

/-- R248 order 3: whether the requester is the domain's tenant or its model owner. -/
def jobOwner (s : State) (w : Waiter) (d : Nat) : Bool :=
  if 4096 ≤ d then (s.model d).any (fun m => m.ownerCred != [] && some m.ownerCred == credOf s w) else isTenant s w d

/-- R248 order 4: whether the domain is in a state that can be measured. -/
def jobStateOk (s : State) (b : Bytes) (d : Nat) : Bool :=
  (if 4096 ≤ d then custody s d == .resident else (s.dom d).any (fun r => r.state.keyed? && r.state != .tearDrain)) &&
  (jobKind b != 3 || (keptOf s d).isSome)

/-- R248 order 6: whether the length, and a partial job's node, are in range. -/
def jobRangeOk (s : State) (b : Bytes) (d : Nat) : Bool :=
  let t := jobTotal b
  t != 0 && t % 64 == 0 && t ≤ 2 ^ 48 &&
  (jobKind b != 2 || (fieldLe b 4 1 ≤ topLevel t && fieldLe b 16 8 < levelNodes t (fieldLe b 4 1))) &&
  (jobKind b != 3 || (keptOf s d).all (fun k => k.total < t))

/-- R249: the first payload byte a job reads and the byte after the last. -/
def jobSpan (s : State) (b : Bytes) (d : Nat) : Nat × Nat :=
  let t := jobTotal b
  if jobKind b = 2 then (nodeWidth (fieldLe b 4 1) * fieldLe b 16 8, Nat.min t (nodeWidth (fieldLe b 4 1) * (fieldLe b 16 8 + 1)))
  else if jobKind b = 3 then (leafSize * (((keptOf s d).map Kept.total).getD 0 / leafSize), t)
  else (0, t)

/-- R248 orders 1 to 6: the first code that refuses a request before its region list is read. -/
def jobRefused (s : State) (w : Waiter) (b : Bytes) : Option (BitVec 8) :=
  let d := fieldLe b 0 2
  if jobReserved b then some eReserved
  else if 4352 ≤ d then some eRange
  else if !jobOwner s w d then some eOwner
  else if !jobStateOk s b d then some eState
  else if 4096 ≤ d ∧ (jobKind b ≠ 1 ∨ jobTotal b ≠ ((s.model d).map ModelRec.payload).getD 0 ∨ fieldLe b 24 12 ≠ 0) then some eRange
  else if !jobRangeOk s b d then some eRange
  else none

/-- R248 orders 7 and 8, R251, R253: a job whose lines are known is accepted, or refused for their number or for want of room. -/
def acceptJob (w : Waiter) (b : Bytes) (lines : List Region) (s : State) : State :=
  let d := fieldLe b 0 2
  let sp := jobSpan s b d
  let m := s.mower
  let exact := if 4096 ≤ d then (sp.2 - sp.1) / 64 ≤ linesIn lines else linesIn lines == (sp.2 - sp.1) / 64
  if !exact then refuse w eRegion s
  else if 32 ≤ m.queue.length then refuse w eBusy s
  else if jobKeep b && !(keptDomains s).contains d && 256 ≤ (keptDomains s).length then refuse w eBusy s
  else
    let base := if jobKind b = 3 then keptOf s d else none
    let j : MJob :=
      { seq := m.nextSeq, sess := w.sess, domain := d, kind := jobKind b, keep := jobKeep b, level := fieldLe b 4 1, total := jobTotal b,
        index := fieldLe b 16 8, mode := ((s.dom d).map DomRec.mode).getD .seal, lines := lines, lo := sp.1, hi := sp.2, base := base,
        nodes := ((base.map Kept.nodes).getD []) }
    reply { w with body := vecBytes 4 m.nextSeq } eOk (s.modMower (fun m => { m with nextSeq := m.nextSeq + 1, queue := m.queue ++ [j] }))

/-- R247, R248: a job request is decided; a tenant domain's region list is read before the rest of the checks. -/
def decideMeasure (w : Waiter) (b : Bytes) (s : State) : State :=
  match jobRefused s w b with
  | some c => refuse w c s
  | none =>
    let d := fieldLe b 0 2
    if 4096 ≤ d then acceptJob w b (placementOf s d) s
    else
      match listRefused (fieldLe b 24 8) (fieldLe b 32 4) with
      | some c => refuse w c s
      | none => readRegions (.measure w b) d (fieldLe b 24 8) (fieldLe b 32 4) s

/-- MEASURE_FULL (R246 to R249, R251, R253, R445): a request of KIND 0x01, or of a reserved KIND. -/
def execMeasureFull (sess : Nat) (tag : BitVec 32) (body : Bytes) (s : State) : Out :=
  done (whenUp s (onlyIf (jobKind body != 2 && jobKind body != 3) (onMessage (tenantMsg 0x0030) (exactly 40) sess tag body
    (fun _ w => inOrder w body (decideMeasure w body)))))

/-- MEASURE_PARTIAL (R246 to R249, R253, R445): a request of KIND 0x02. -/
def execMeasurePartial (sess : Nat) (tag : BitVec 32) (body : Bytes) (s : State) : Out :=
  done (whenUp s (onlyIf (jobKind body == 2) (onMessage (tenantMsg 0x0030) (exactly 40) sess tag body
    (fun _ w => inOrder w body (decideMeasure w body)))))

/-- MEASURE_INCREMENTAL (R246 to R251, R253, R445): a request of KIND 0x03. -/
def execMeasureIncremental (sess : Nat) (tag : BitVec 32) (body : Bytes) (s : State) : Out :=
  done (whenUp s (onlyIf (jobKind body == 3) (onMessage (tenantMsg 0x0030) (exactly 40) sess tag body
    (fun _ w => inOrder w body (decideMeasure w body)))))

/-- R251, R445: the release of a kept record is decided. -/
def decideKeptRelease (w : Waiter) (body : Bytes) (s : State) : State :=
  let d := fieldLe body 0 2
  if fieldLe body 2 2 ≠ 0 then refuse w eReserved s
  else if 4352 ≤ d then refuse w eRange s
  else if !jobOwner s w d then refuse w eOwner s
  else if (keptOf s d).isNone then refuse w eState s
  else reply w eOk (dropKept d s)

/-- KEPT_RELEASE (R251, R445). -/
def execKeptRelease (sess : Nat) (tag : BitVec 32) (body : Bytes) (s : State) : Out :=
  done (whenUp s (onMessage (tenantMsg 0x0031) (exactly 4) sess tag body (fun _ w => inOrder w body (decideKeptRelease w body))))

end Sys2Proof.Machine
end

