-- ==== Sys2Proof/Machine/Regions.lean ====
section
/-!
DEFINITION. The end of a region list's reading (R163, R168, R174, R175, R212, R247, R248, R441, R616): what each request then does, and
the requests of the same domain that have waited.
-/

namespace Sys2Proof.Machine
open Sys2Proof

/-- R441: a request that has waited is decided. One whose session has ended changes nothing (R437). -/
def decideHeld (h : HeldMsg) (s : State) : State :=
  let w : Waiter := { sess := h.sess, msg := h.msg, tag := h.tag }
  let f : Waiter → Bytes → State → State :=
    if h.msg = 0x0010 then decideQuote
    else if h.msg = 0x0020 then decideSeed
    else if h.msg = 0x0021 then decideConfirm
    else if h.msg = 0x0022 then decideTenantUnbind
    else if h.msg = 0x0023 then decideTenantTeardown
    else if h.msg = 0x0024 then decideLinkKey
    else if h.msg = 0x0030 then decideMeasure
    else if h.msg = 0x0031 then decideKeptRelease
    else if h.msg = 0x0050 then decideBundle
    else if h.msg = 0x0051 then
      (if grantOper h.body = 1 then decideGrantRemove else if grantOper h.body = 2 then decideGrantRevoke else decideGrantAdd)
    else if h.msg = 0x0101 then decideCreate
    else if h.msg = 0x0102 then decideOperTeardown
    else if h.msg = 0x0103 then decidePropose
    else if h.msg = 0x0106 then decideRegionList
    else if h.msg = 0x0107 then decideIngestStart
    else if h.msg = 0x0108 then decideLinkAssign
    else if h.msg = 0x010C then decidePin
    else fun _ _ t => t
  if (s.sess h.sess).isNone then s else f w h.body s

/-- The first waiting request none of whose domains is being read or named by one before it. -/
def firstFree (s : State) : List Nat → List HeldMsg → Option HeldMsg
  | _, [] => none
  | seen, h :: hs =>
    if h.domains.any (fun d => domReading s d || seen.contains d) then firstFree s (seen ++ h.domains) hs else some h

/-- R441: waiting requests are decided in order of arrival while they can be. `fuel` bounds them. -/
def flushWaiting : Nat → State → State
  | 0, s => s
  | fuel + 1, s =>
    match firstFree s [] s.ks.waiting with
    | none => s
    | some h => flushWaiting fuel (decideHeld h (s.modKs (fun k => { k with waiting := dropFirst (fun x => x == h) k.waiting })))

/-- R174: the domain a region list is read for. -/
def RPurpose.domain : RPurpose → Nat
  | .teardown _ d _ _ => d
  | .rekey _ d _ _ => d
  | .resume d => d
  | .ingestStage _ m _ _ => m
  | .ingestPlace _ m _ => m
  | .measure _ b => fieldLe b 0 2

/-- The requester a region list is read for. -/
def RPurpose.waiter : RPurpose → Option Waiter
  | .teardown w _ _ _ => some w
  | .rekey w _ _ _ => some w
  | .resume _ => none
  | .ingestStage w _ _ _ => some w
  | .ingestPlace w _ _ => some w
  | .measure w _ => some w

/-- R212: whether two ranges of two lists overlap on the same guard, or two of one list do. -/
def rangesOverlap (rs : List Region) : Bool :=
  rs.zipIdx.any (fun p => rs.zipIdx.any (fun q => p.2 < q.2 && p.1.guard == q.1.guard &&
    p.1.first < q.1.first + q.1.count && q.1.first < p.1.first + p.1.count))

/-- R212: an ingest start whose lists have both been read and checked. -/
def finishIngestStart (w : Waiter) (m : Nat) (stage place : List Region) (s : State) : State :=
  if custody s m ≠ .keyHeld ∨ (s.model m).any ModelRec.jobUsed then refuse w eState s
  else if 256 < place.length ∨ rangesOverlap (stage ++ place) then refuse w eRegion s
  else if 8 ≤ s.ingest.queue.length then refuse w eBusy s
  else
    let b := (s.vault.bundles.find? (fun b => b.model == m)).getD {}
    reply w eOk (modModel m (fun r => { r with jobUsed := true }) (s.modIngest (fun u =>
      { u with queue := u.queue ++ [{ model := m, staging := b.staging, stage := stage, place := place, sess := b.sess }] })))

/-- R163, R164, R175, R176: an accepted region list starts the rekey sweep. -/
def startRekey (w : Waiter) (d addr count : Nat) (rs : List Region) (s : State) : State :=
  if domState s d ≠ .sweepWait then refuse w eState s
  else
    let s := modDom d (fun r => { r with state := .sweeping, regions := rs, swAddr := addr, swCount := count, visited := 0, failed := 0 }) s
    rekeyEnded d (addDescs false d rs (commitDom d [] [(w, eOk)] s))

/-- R616: a region list read again after a takeover gives its descriptors again. -/
def resumeSweep (d : Nat) (rs : List Region) (s : State) : State :=
  let s := modDom d (fun r => { r with regions := rs }) s
  if domState s d = .sweeping then rekeyEnded d (addDescs false d rs s)
  else if domState s d = .tearSweep then sweepEnded d (addDescs true d rs s)
  else s

/-- What a request does once its region list has been read and checked. -/
def listRead (p : RPurpose) (rs : List Region) (s : State) : State :=
  match p with
  | .teardown w d addr count => if !mayTearDown s d then refuse w eState s else tearDown d rs addr count [(w, eOk)] s
  | .rekey w d addr count => startRekey w d addr count rs s
  | .resume d => resumeSweep d rs s
  | .ingestStage w m pa pc => readRegions (.ingestPlace w m rs) m pa pc s
  | .ingestPlace w m stage => finishIngestStart w m stage rs s
  | .measure w b =>
    match jobRefused s w b with
    | some c => refuse w c s
    | none => acceptJob w b rs s

/-- R174, R441: a region list's reading is over: the work ends, the domain may be asked about again, `k` is done, and what waited for
the domain follows. -/
def endRegionRead (r : RegionRead) (k : State → State) (s : State) : State :=
  let s := dmaEnd r.work (s.modKs (fun q => { q with reads := q.reads.filter (fun x => x.work != r.work) }))
  let s := k (modDom r.purpose.domain (fun x => { x with reading := false }) s)
  settle (flushWaiting (s.ks.waiting.length + 1) s)

/-- R174, R175, R633: a region list's reading ends with a refusal. -/
def refuseRegionRead (r : RegionRead) (code : BitVec 8) (s : State) : State :=
  endRegionRead r (match r.purpose.waiter with
    | none => id
    | some w => refuse w code) s

/-- R561: whether a list names a tier-2 guard that is still held or sweeping. -/
def namesWaiting (s : State) (rs : List Region) : Bool :=
  rs.any (fun r => !isStack r.guard && ((s.guardN r.guard).service == .held || (s.guardN r.guard).service == .sweeping))

/-- REGION_LIST_READ (R118, R163, R168, R174, R175, R212, R247, R248, R441, R561, R616): the oldest region list that has been read whole is
checked, and the request that named it decided. -/
def execRegionListRead (s : State) : Out :=
  done (whenUp s fun s =>
    match s.ks.reads.find? (fun r => dmaWhole s r.work) with
    | none => s
    | some r =>
      match checkRegions (dmaBytes s r.work) with
      | .error c => refuseRegionRead r c s
      | .ok rs =>
        if namesWaiting s rs && r.purpose.waiter.isSome then refuseRegionRead r eState s
        else endRegionRead r (listRead r.purpose rs) s)

end Sys2Proof.Machine
end

