-- ==== Sys2Proof/Machine/Spdm.lean ====
section
/-!
DEFINITION. SPDM requests other than vendor-defined messages (R423 to R426, R434 to R436, R439, R440, R471): where each is accepted and what
it is answered. The bytes of requests follow DSP0274 (log 10).
-/

namespace Sys2Proof.Machine
open Sys2Proof

/-! ### What the answers need -/

/-- R37, R304, R307, R423: the boot core serves the mailboxes. -/
def attUp (s : State) : Bool := s.boot.cores.toList.getD s.boot.bootCore .reset == .running && !s.cleared && !s.tamper.latch

/-- R424: a signature under slot 2, ECDSA P-384 with SHA-384. -/
def aliasEcSign (msg : Bytes) (s : State) : Option Bytes × State :=
  let r := pkNow 1 2 (some 2) (windowOf [(offRep, sha384 msg)]) s
  (r.1.out offSig 96, r.2)

/-- R469: bytes of the boot flash. -/
def flashBytes (s : State) (o n : Nat) : Bytes := bufLoad 0xFF s.flash o n

/-- R471: `n` certificates of the certificate sector from an offset on. -/
def certsFrom (s : State) : Nat → Nat → List Bytes
  | 0, _ => []
  | n + 1, o =>
    let len := Nat.min (leNat (flashBytes s o 4)) 0x10000
    flashBytes s (o + 4) len :: certsFrom s n (o + 4 + len)

/-- R471: the certificates of the boot flash in chain order; none where the sector's header is not right. -/
def flashCerts (s : State) : List Bytes :=
  if flashBytes s 0x1040000 16 = ascii "KFL-CERT" ++ leBytes 2 1 ++ leBytes 2 3 ++ zeros 4 then certsFrom s 3 0x1040010 else []

/-- R419, R424: certificate chain slot 0 in the form of DSP0274: its length, the hash of the root, and the certificates. -/
def certChain (s : State) : Bytes :=
  let cs := flashCerts s ++ [s.att.aliasCert]
  let body := sha384 (cs.headD []) ++ cs.flatten
  leBytes 2 (body.length + 4) ++ zeros 2 ++ body

/-- R426: the contents of a measurement index. -/
def measurement (s : State) (i : Nat) : Option Bytes :=
  match i with
  | 1 => some (padTo 48 s.att.romDigest)
  | 2 => some (padTo 48 s.att.fwDigest)
  | 3 => some (vecBytes 4 s.boot.runSvn ++ leBytes 4 (cairn s))
  | 4 => some (padTo 48 s.att.nodeLog)
  | 5 => some (quoteFingerprints s ++ leBytes 8 (fencedMap s))
  | 6 => some (leBytes 1 (lifeCycle s) ++ leBytes 1 (bitNat 0 s.fuse.inForce) ++ leBytes 1 (quoteFlags s) ++ [0])
  | _ => none

/-! ### The frame of a request (R423, R424, R434, R436) -/

/-- A byte of an SPDM request. -/
def reqByte (req : Bytes) (i : Nat) : Nat := (req.getD i 0).toNat

/-- R423: an SPDM answer. -/
def spdmReply (operator : Bool) (sess : Option Nat) (r : SpdmRsp) (s : State) : State := sendOut operator sess (.spdm r) s

/-- R424: an answer that a transcript keeps behind its request, as `f` says. -/
def spdmKept (f : Bytes → Conn → Conn) (operator : Bool) (sess : Option Nat) (req : Bytes) (r : SpdmRsp) (s : State) : State :=
  spdmReply operator sess r (modConn operator sess (f (req ++ spdmBytes r)) s)

/-- DSP0274: an exchange kept in the first part of a transcript. -/
def Conn.keepVca (b : Bytes) (c : Conn) : Conn := { c with vca := c.vca ++ b }

/-- DSP0274: an exchange that CHALLENGE signs over. -/
def Conn.keepCerts (b : Bytes) (c : Conn) : Conn := { c with certs := c.certs ++ b }

/-- DSP0274: an exchange that a signed GET_MEASUREMENTS signs over. -/
def Conn.keepMeas (b : Bytes) (c : Conn) : Conn := { c with meas := c.meas ++ b }

/-- DSP0274: what a request of a code ends of the transcripts: GET_MEASUREMENTS the one for CHALLENGE, every other but the transfer of a large message
the one for measurements. -/
def Conn.onCode (code : Nat) (c : Conn) : Conn :=
  if code = 0xE0 then { c with certs := [] } else if code = 0x85 ∨ code = 0x86 then c else { c with meas := [] }

/-- Where a request is accepted. -/
inductive Place where
  /-- outside a session only -/
  | outside
  /-- in a session only -/
  | inside
  /-- in both -/
  | both
deriving DecidableEq, Repr

/-- R424, R434, R436, R440: a request of a given code is answered by `k` where it is accepted; with ERROR VersionMismatch outside version 1.3
(GET_VERSION apart), UnexpectedRequest in the wrong place, and Busy while the session's request before it is answered. An operator
session without its credential accepts only HEARTBEAT and END_SESSION; a vendor-defined request is decided by its MSG first. -/
def onSpdm (code : Nat) (place : Place) (operator : Bool) (sess : Option Nat) (req : Bytes) (k : State → State) (s : State) : State :=
  let error (c : BitVec 8) (s : State) : State := spdmReply operator sess (.error c) s
  let run (s : State) : State := k (modConn operator sess (Conn.onCode code) s)
  if !attUp s || reqByte req 1 != code then s
  else match sess with
    | none => if code != 0x84 && reqByte req 0 != 0x13 then error 0x41 s else if place = .inside then error 0x04 s else run s
    | some id =>
      match s.sess id with
      | none => s
      | some x =>
        if x.operator != operator then s
        else if x.busy then sayBusy operator id (hear id s)
        else if reqByte req 0 ≠ 0x13 then error 0x41 (hear id s)
        else if place = .outside || (code != 0xFE && (!x.finished || (operator && x.cred.isNone && code != 0xE8 && code != 0xEC))) then error 0x04 (hear id s)
        else run (hear id s)

/-! ### The requests (R424 to R426) -/

/-- GET_VERSION (R424): version 1.3 only; a new transcript begins. -/
def execGetVersion (operator : Bool) (sess : Option Nat) (req : Bytes) (s : State) : Out :=
  done (whenUp s (onSpdm 0x84 .outside operator sess req (fun s =>
    spdmKept Conn.keepVca operator sess req .version
      (modConn operator sess (fun c => { peer := c.peer, peerTag := c.peerTag, ackDue := c.ackDue, outHandle := c.outHandle }) s))))

/-- R425: CTExponent, the capability flags of DSP0274 (CERT, CHAL, MEAS signed, MEAS_FRESH, ENCRYPT, MAC, HBEAT, KEY_UPD and CHUNK), and
the two sizes. -/
def capBytes : Bytes :=
  [0, 14, 0, 0] ++ leBytes 4 (2 ^ 1 + 2 ^ 2 + 2 * 2 ^ 3 + 2 ^ 5 + 2 ^ 6 + 2 ^ 7 + 2 ^ 13 + 2 ^ 14 + 2 ^ 17) ++ leBytes 4 4096 ++ leBytes 4 16384

/-- R425, DSP0274: the data transfer size that GET_CAPABILITIES leaves: the smaller of the two, and at least the 42 bytes that DSP0274 asks for. -/
def transferSize (req : Bytes) : Nat := if req.length < 20 then 4096 else Nat.max 42 (Nat.min 4096 (fieldLe req 12 4))

/-- GET_CAPABILITIES (R424, R425). -/
def execGetCapabilities (operator : Bool) (sess : Option Nat) (req : Bytes) (s : State) : Out :=
  done (whenUp s (onSpdm 0xE1 .outside operator sess req (fun s =>
    spdmKept Conn.keepVca operator sess req (.capabilities capBytes) (modConn operator sess (fun c => { c with xfer := transferSize req }) s))))

/-- DSP0274: the algorithm structure of a type in NEGOTIATE_ALGORITHMS, of four bytes each behind the extended algorithms: its offered
values. -/
def algStruct (req : Bytes) (type : Nat) : Nat :=
  let o := 32 + 4 * (reqByte req 28 + reqByte req 29)
  (((List.range (reqByte req 2)).find? (fun i => reqByte req (o + 4 * i) == type)).map (fun i => fieldLe req (o + 2 + 4 * i) 2)).getD 0

/-- R425: whether NEGOTIATE_ALGORITHMS offers a supported value for each parameter: the DMTF measurement specification, ECDSA P-384,
SHA-384, AES-256-GCM and the SPDM key schedule. -/
def offersAll (req : Bytes) : Bool :=
  (fieldLe req 6 1).testBit 0 && (fieldLe req 8 4).testBit 7 && (fieldLe req 12 4).testBit 1 && (algStruct req 3).testBit 1 &&
    (algStruct req 5).testBit 0

/-- NEGOTIATE_ALGORITHMS (R424, R425). -/
def execNegotiateAlgorithms (operator : Bool) (sess : Option Nat) (req : Bytes) (s : State) : Out :=
  done (whenUp s (onSpdm 0xE3 .outside operator sess req (fun s =>
    if offersAll req then spdmKept Conn.keepVca operator sess req .algorithms s else spdmReply operator sess (.error 0x01) s)))

/-- GET_DIGESTS (R424): the digest of certificate slot 0. -/
def execGetDigests (operator : Bool) (sess : Option Nat) (req : Bytes) (s : State) : Out :=
  done (whenUp s (onSpdm 0x81 .both operator sess req (fun s =>
    spdmKept Conn.keepCerts operator sess req (.digests (sha384 (certChain s))) s)))

/-- GET_CERTIFICATE (R419, R424): a portion of the chain of slot 0. -/
def execGetCertificate (operator : Bool) (sess : Option Nat) (req : Bytes) (s : State) : Out :=
  done (whenUp s (onSpdm 0x82 .both operator sess req (fun s =>
    let c := certChain s
    let o := fieldLe req 4 2
    let part := (c.drop o).take (Nat.min (fieldLe req 6 2) ((connOf s operator sess).xfer - 8))
    if reqByte req 2 % 16 ≠ 0 ∨ c.length ≤ o then spdmReply operator sess (.error 0x01) s
    else spdmKept Conn.keepCerts operator sess req (.certificate part (c.length - o - part.length)) s)))

/-- R426: blocks of measurements of given indices. -/
def measurementsOf (s : State) (is : List Nat) : List (Nat × Bytes) := is.filterMap (fun i => (measurement s i).map (fun b => (i, b)))

/-- R424, DSP0274: the summary of measurements that CHALLENGE asks for: none, that of the trusted base (ROM, firmware and security version, log 10), or
all. -/
def measurementSummary (s : State) (kind : Nat) : Bytes :=
  if kind = 0 then []
  else sha384 ((measurementsOf s (if kind = 1 then [1, 2, 3] else [1, 2, 3, 4, 5, 6])).map measurementBlock).flatten

/-- CHALLENGE (R424, R426): signed with slot 2 over the transcript, with a fresh nonce. -/
def execChallenge (operator : Bool) (sess : Option Nat) (req : Bytes) (s : State) : Out :=
  done (whenUp s (onSpdm 0x83 .outside operator sess req (fun s =>
    let kind := reqByte req 3
    if reqByte req 2 ≠ 0 ∨ !(kind = 0 ∨ kind = 1 ∨ kind = 0xFF) then spdmReply operator sess (.error 0x01) s
    else if !drawNow s then spdmReply operator sess (.error 0x03) s
    else match drawBytes 32 s with
      | (none, s) => spdmReply operator sess (.error 0x05) s
      | (some nonce, s) =>
        let c := connOf s operator sess
        let chain := sha384 (certChain s)
        let sum := measurementSummary s kind
        let ctx := slice req 36 8
        match aliasEcSign (spdmSigned "responder-challenge_auth signing" (c.vca ++ c.certs ++ req ++ challengeBytes chain nonce sum ctx)) s with
        | (none, s) => spdmReply operator sess (.error 0x05) s
        | (some sig, s) =>
          spdmReply operator sess (.challengeAuth chain nonce sum ctx sig) (modConn operator sess (fun c => { c with certs := [] }) s))))

/-- R426: the indices that GET_MEASUREMENTS asks for: 0 asks only for their number, 0xFF for all. -/
def measurementIndices (i : Nat) : List Nat := if i = 0 then [] else if i = 0xFF then [1, 2, 3, 4, 5, 6] else [i]

/-- GET_MEASUREMENTS (R424, R426): signed with slot 2 where the request asks for it. -/
def execGetMeasurements (operator : Bool) (sess : Option Nat) (req : Bytes) (s : State) : Out :=
  done (whenUp s (onSpdm 0xE0 .both operator sess req (fun s =>
    let i := reqByte req 3
    let signed := bitAt (req.getD 2 0) 0
    let total := if i = 0 then 6 else 0
    let blocks := measurementsOf s (measurementIndices i)
    let ctx := slice req (if signed then 37 else 4) 8
    if blocks.length ≠ (measurementIndices i).length ∨ (signed ∧ reqByte req 36 % 16 ≠ 0) then spdmReply operator sess (.error 0x01) s
    else if !drawNow s then spdmReply operator sess (.error 0x03) s
    else match drawBytes 32 s with
      | (none, s) => spdmReply operator sess (.error 0x05) s
      | (some nonce, s) =>
        if !signed then spdmKept Conn.keepMeas operator sess req (.measurements total blocks nonce ctx []) s
        else
          let transcript := (connOf s operator none).vca ++ (connOf s operator sess).meas ++ req ++ measurementsBytes total blocks nonce ctx
          match aliasEcSign (spdmSigned "responder-measurements signing" transcript) s with
          | (none, s) => spdmReply operator sess (.error 0x05) s
          | (some sig, s) =>
            spdmReply operator sess (.measurements total blocks nonce ctx sig) (modConn operator sess (fun c => { c with meas := [] }) s))))

/-- R424, R425: why a part of a large request ends it early, if it does: more than 16,384 bytes in all, or a part out of turn or of the wrong length.
`whole` is the length announced, `all` what has come. -/
def chunkRefused (c : Conn) (req : Bytes) (whole : Nat) (all : Bytes) : Option (BitVec 8) :=
  let n := fieldLe req 4 2
  let head := if n = 0 then 16 else 12
  if 16384 < whole then some 0x0E
  else if (n ≠ 0 ∧ (req.getD 3 0 ≠ c.inHandle ∨ n ≠ c.inSeq)) ∨ req.length ≠ head + fieldLe req 8 4 ∨ whole < all.length ∨
      (bitAt (req.getD 2 0) 0 ∧ all.length ≠ whole) then some 0x01
  else none

/-- CHUNK_SEND (R424, R425): a part of a large request, of at most 16,384 bytes in all. The whole request is carried out once its last part has come, and
its answer travels in the acknowledgement of that part. -/
def execChunkSend (operator : Bool) (sess : Option Nat) (req : Bytes) (s : State) : Out :=
  done (whenUp s (onSpdm 0x85 .both operator sess req (fun s =>
    let c := connOf s operator sess
    let n := fieldLe req 4 2
    let handle := req.getD 3 0
    let whole := if n = 0 then fieldLe req 12 4 else c.inSize
    let all := (if n = 0 then [] else c.chunkIn) ++ req.drop (if n = 0 then 16 else 12)
    match chunkRefused c req whole all with
    | some code => spdmReply operator sess (.chunkSendError handle n code) (modConn operator sess (fun c => { c with chunkIn := [], inSeq := 0 }) s)
    | none =>
      if bitAt (req.getD 2 0) 0 then
        modBox operator (fun m => { m with arrived := m.arrived ++ [{ sess := sess, req := all, large := true }] })
          (modConn operator sess (fun c => { c with chunkIn := [], inHandle := handle, inSeq := n }) s)
      else spdmReply operator sess (.chunkSendAck handle n)
        (modConn operator sess (fun c => { c with chunkIn := all, inHandle := handle, inSeq := n + 1, inSize := whole }) s))))

/-- CHUNK_GET (R424, R425): the next part of a large response, as large as the data transfer size takes. -/
def execChunkGet (operator : Bool) (sess : Option Nat) (req : Bytes) (s : State) : Out :=
  done (whenUp s (onSpdm 0x86 .both operator sess req (fun s =>
    let c := connOf s operator sess
    if c.chunkOut = [] ∨ req.getD 3 0 ≠ c.outHandle ∨ fieldLe req 4 2 ≠ c.outSeq then spdmReply operator sess (.error 0x01) s
    else
      let n := c.xfer - (if c.outSeq = 0 then 16 else 12)
      let rest := c.chunkOut.drop n
      spdmReply operator sess (.chunkResponse c.outHandle c.outSeq c.outSize (c.chunkOut.take n) rest.length)
        (modConn operator sess (fun c => { c with chunkOut := rest, outSeq := c.outSeq + 1 }) s))))

/-- SPDM_HEARTBEAT (R424, R434, R435): the session stays alive. -/
def execSpdmHeartbeat (sess : Nat) (req : Bytes) (s : State) : Out :=
  let op := ((s.sess sess).map Session.operator).getD false
  done (whenUp s (onSpdm 0xE8 .inside op (some sess) req (spdmReply op (some sess) .heartbeatAck)))

/-- R424, DSP0274: the data keys of a session after KEY_UPDATE: operation 1 updates the requester's direction, 2 both, 3 only verifies. -/
def Session.updateKeys (op : Nat) (x : Session) : Session :=
  if op = 1 then { x with reqSecret := updatedSecret x.reqSecret, reqSeq := 0 }
  else if op = 2 then
    { x with reqSecret := updatedSecret x.reqSecret, reqSeq := 0, rspSecret := updatedSecret x.rspSecret, rspSeq := 0 }
  else x

/-- KEY_UPDATE (R424). -/
def execKeyUpdate (sess : Nat) (req : Bytes) (s : State) : Out :=
  let op := ((s.sess sess).map Session.operator).getD false
  done (whenUp s (onSpdm 0xE9 .inside op (some sess) req (fun s =>
    let o := reqByte req 2
    if o = 0 ∨ 3 < o then spdmReply op (some sess) (.error 0x01) s
    else spdmReply op (some sess) (.keyUpdateAck (req.getD 2 0) (req.getD 3 0)) (modSess sess (Session.updateKeys o) s))))

/-- R427, R435, R437: a session ends and frees its place. -/
def endSess (id : Nat) (s : State) : State := s.modAtt (fun a => { a with sessions := a.sessions.filter (fun x => x.id != id) })

/-- END_SESSION (R424, R434, R435, R437). -/
def execEndSession (sess : Nat) (req : Bytes) (s : State) : Out :=
  let op := ((s.sess sess).map Session.operator).getD false
  done (whenUp s (onSpdm 0xEC .inside op (some sess) req (fun s => endSess sess (spdmReply op (some sess) .endSessionAck s))))

/-- R440, R461: the message codes. -/
def knownMsg (m : Nat) : Bool :=
  [0x0001, 0x0002, 0x0003, 0x0004, 0x0010, 0x0020, 0x0021, 0x0022, 0x0023, 0x0024, 0x0030, 0x0031, 0x0040, 0x0050, 0x0051].contains m ||
    (0x0101 ≤ m && m ≤ 0x010D)

/-- R424: the request codes the block answers otherwise. -/
def knownCode (c : Nat) : Bool := [0x84, 0xE1, 0xE3, 0x81, 0x82, 0x83, 0xE0, 0x85, 0x86, 0xE8, 0xE9, 0xEC].contains c

/-- R439: whether a vendor-defined request carries the block's StandardID and VendorID. -/
def vendorMine (req : Bytes) : Bool := slice req 4 7 == (vendorHead 0).take 7

/-- R439: the payload of a vendor-defined request, where its length is right and it has a whole header. -/
def vendorPayload (req : Bytes) : Option Bytes :=
  if req.length = 13 + fieldLe req 11 2 ∧ 21 ≤ req.length then some (req.drop 13) else none

/-- R424, R439, R440: a request of any other code, or of another vendor, is answered UnsupportedRequest; a vendor-defined one whose MSG is reserved, or that no
session carries and only a session may, or the reverse, or whose header has a reserved field set, E_RESERVED. -/
def unsupported (operator : Bool) (sess : Option Nat) (req : Bytes) (s : State) : State :=
  if reqByte req 1 ≠ 0xFE then onlyIf (!knownCode (reqByte req 1)) (spdmReply operator sess (.error 0x07)) s
  else if !vendorMine req then spdmReply operator sess (.error 0x07) s
  else match vendorPayload req with
    | none => spdmReply operator sess (.error 0x01) s
    | some p =>
      let m := fieldLe p 0 2
      let only := m == 1 || m == 2
      onlyIf (!knownMsg m || only == sess.isSome || fieldLe p 2 2 != 0)
        (sendOut operator sess (.vendor (BitVec.ofNat 16 m) eReserved (bytesVec 32 (slice p 4 4)) [])) s

/-- UNSUPPORTED_REQUEST (R424, R436, R439, R440). -/
def execUnsupportedRequest (operator : Bool) (sess : Option Nat) (req : Bytes) (s : State) : Out :=
  done (whenUp s (onSpdm (reqByte req 1) .both operator sess req (unsupported operator sess req)))

end Sys2Proof.Machine
end

