-- ==== Sys2Proof/Machine/Sessions.lean ====
section
/-!
DEFINITION. Sessions (R427 to R437, R446, R447) and the messages that open them, prove a credential, poll events and ask for quotes.
-/

namespace Sys2Proof.Machine
open Sys2Proof

/-- R439: a vendor-defined answer outside a session. -/
def outVendor (operator : Bool) (msg : BitVec 16) (result : BitVec 8) (tag : BitVec 32) (body : Bytes) (s : State) : State :=
  sendOut operator none (.vendor msg result tag body) s

/-! ### The boot key pairs (R428) -/

/-- KEX_KEYS (R428, R440). -/
def execKexKeys (operator : Bool) (tag : BitVec 32) (body : Bytes) (s : State) : Out :=
  done (whenUp s (onlyIf (attUp s) (fun s =>
    if body ≠ [] then outVendor operator 0x0001 eRange tag [] s
    else
      let s := kexSetup s
      if s.att.kexStmts.isEmpty then outVendor operator 0x0001 eBusy tag [] s
      else outVendor operator 0x0001 eOk tag (s.att.kemPub ++ s.att.dhPub ++ s.att.kexStmts.flatten) s)))

/-! ### Opening a session (R427 to R432) -/

/-- R427: whether a mailbox has as many sessions as it may. -/
def sessionsFull (s : State) (operator : Bool) : Bool :=
  (if operator then 4 else 512) ≤ (s.att.sessions.filter (fun x => x.operator == operator)).length

/-- R439: the vendor-defined request a message arrives as. -/
def requestBytes (msg : BitVec 16) (tag : BitVec 32) (body : Bytes) : Bytes := vendorMessage 0xFE (vendorHeader msg 0 tag ++ body)

/-- R429, R430: the exchange with a valid point: the session's number, secret and response, or nothing where a draw or a job fails. -/
def kexExchange (operator : Bool) (tag : BitVec 32) (body : Bytes) (s : State) : Option (Session × Bytes) × State :=
  let dh := pkNow 5 2 (some s.att.dhSlot) (windowOf [(offPub, slice body 36 97)]) s
  let kem := pkNow 7 8 (some s.att.kemSlot) (windowOf [(offSig, slice body 133 1568)]) dh.2
  match dh.1.out offRep 48, kem.1.out offRep 32, drawBytes 32 kem.2 with
  | some ssDh, some ssKem, (some random, s) =>
    let half := freeFrom s.att.nextSess 65536 (s.att.sessions.map (fun x => x.id / 2 ^ 16))
    let head := leBytes 2 half ++ leBytes 2 60 ++ random ++ sha3_384 (s.att.kemPub ++ s.att.dhPub)
    let th1 := sha384 (sha384 (certChain s) ++ requestBytes 2 tag body ++ head)
    let r := pkNow 1 9 (some 2) (aliasWindow s th1) s
    match r.1.out offSig 4723 with
    | none => (none, r.2)
    | some sig =>
      let secret := kmac256 (ssDh ++ ssKem) th1 48 (ascii "KFL-HYB-KEX")
      let c := connOf r.2 operator none
      (some ({ id := half * 2 ^ 16 + fieldLe body 0 2, operator := operator, th1 := th1, secret := secret, reqSecret := handshakeDir secret th1 false,
               rspSecret := handshakeDir secret th1 true, openedAt := r.2.timer, heard := r.2.timer, conn := { xfer := c.xfer, peer := c.peer, peerTag := c.peerTag } }, head ++ sig), r.2)
  | _, _, (_, s) => (none, s)

/-- HYB_KEX (R427, R429 to R431, R440). -/
def execHybKex (operator : Bool) (tag : BitVec 32) (body : Bytes) (s : State) : Out :=
  done (whenUp s (onlyIf (attUp s) (fun s =>
    if body.length ≠ 1704 then outVendor operator 0x0002 eRange tag [] s
    else if fieldLe body 2 2 ≠ 0 ∨ fieldLe body 1701 3 ≠ 0 then outVendor operator 0x0002 eReserved tag [] s
    else if sessionsFull s operator then
      spdmReply operator none (.error 0x0A) (s.modAtt (fun a => { a with refused := satInc a.refused }))
    else if (pointRefused p384 48 (slice body 36 97)).isSome then spdmReply operator none (.error 0x01) s
    else if !drawNow s then spdmReply operator none (.error 0x03) s
    else
      match kexExchange operator tag body (kexSetup s) with
      | (none, s) => spdmReply operator none (.error 0x05) s
      | (some r, s) =>
        outVendor operator 0x0002 eOk tag r.2 (s.modAtt (fun a => { a with
          sessions := a.sessions ++ [r.1], nextSess := (r.1.id / 2 ^ 16 + 1) % 65536 })))))

/-- R432, R439: the header of a HYB_FINISH request: the one of R439 (log 10). -/
def finishHeader (tag : BitVec 32) : Bytes := vendorHeader 3 0 tag

/-- R432, DSP0274: the transcript of HYB_FINISH up to the block's verify data: TH1, the request and the header of the response. -/
def finishTranscript (th1 : Bytes) (tag : BitVec 32) (body : Bytes) : Bytes := th1 ++ finishHeader tag ++ body ++ vendorHeader 0x8003 0 tag

/-- R432, R433, R438: a session whose HYB_FINISH has been checked: TH2, the export master secret and the data keys. -/
def Session.opened (th2 : Bytes) (x : Session) : Session :=
  { x with finished := true, th2 := th2, ems := exportSecret x.secret th2, reqSecret := dataDir x.secret th2 false,
           rspSecret := dataDir x.secret th2 true, reqSeq := 0, rspSeq := 0 }

/-- HYB_FINISH (R432, R433, R438, R440, R464): the requester's verify data is checked; the session is open, or has failed and ends. -/
def execHybFinish (sess : Nat) (tag : BitVec 32) (body : Bytes) (s : State) : Out :=
  done (whenUp s fun s =>
    match s.sess sess with
    | none => s
    | some x =>
      let w : Waiter := { sess := sess, msg := 0x0003, tag := tag }
      let s := hear sess s
      let bad (c : BitVec 8) : State := endSess sess (refuse w c (countAuthFail s))
      if x.busy then sayBusy x.operator sess s
      else if x.finished then refuse w eReserved s
      else if body.length ≠ 48 then bad eRange
      else
        if body ≠ verifyData x.secret x.th1 (x.th1 ++ finishHeader tag) false then bad eAuth
        else
          let own := verifyData x.secret x.th1 (finishTranscript x.th1 tag body) true
          modSess sess (Session.opened (sha384 (finishTranscript x.th1 tag body ++ own))) (reply { w with body := own } eOk s))

/-- HYB_FINISH_TIMEOUT (R432): 1 s passes after the HYB_KEX response without the HYB_FINISH of a session. -/
def execHybFinishTimeout (sess : Nat) (s : State) : Out :=
  done (whenUp s fun s =>
    match s.sess sess with
    | none => s
    | some x => if x.finished then s else endSess sess (reachTime (x.openedAt + 1000000) s))

/-- SESSION_IDLE_TIMEOUT (R435, R437): 120 s pass without a message of a session. -/
def execSessionIdleTimeout (sess : Nat) (s : State) : Out :=
  done (whenUp s fun s =>
    match s.sess sess with
    | none => s
    | some x => endSess sess (reachTime (x.heard + 120000000) s))

/-! ### Messages of sessions (R433, R434, R446, R447, R453 to R456) -/

/-- R294, R433: the credential digest of a hybrid public key. -/
def credDigest (pub : Bytes) : Bytes := sha3_384 (pub.take 97 ++ pub.drop 128)

/-- CRED_PROVE (R433, R434, R440, R464, R517). -/
def execCredProve (sess : Nat) (tag : BitVec 32) (body : Bytes) (s : State) : Out :=
  done (whenUp s (onMessage { msg := 0x0004, operator := true, cred := false } (exactly 7443) sess tag body (fun x w s =>
    let pub := body.take 2720
    if x.cred.isSome then refuse w eState s
    else if !hybVerify pub (ascii "KFL-CRED" ++ leBytes 4 x.id ++ x.th2) (body.drop 2720) then refuse w eAuth (countAuthFail s)
    else if x.operator && !(operatorDigests s).contains (credDigest pub) then endSess sess (countAuthFail s)
    else reply w eOk (modSess sess (fun y => { y with cred := some (credDigest pub), credPub := pub }) s))))

/-- R446: the 32 bytes of an event. -/
def Event.bytes (e : Event) : Bytes :=
  [e.kind, e.result] ++ leBytes 2 e.domain ++ vecBytes 4 e.id ++ vecBytes 8 e.value1 ++ vecBytes 8 e.value2 ++ zeros 8

/-- R446, R447: the body of an EVENT_POLL response. -/
def pollBody (x : Session) : Bytes :=
  let es := x.events.take 8
  leBytes 1 es.length ++ leBytes 1 (bitNat 0 (8 < x.events.length) + bitNat 1 x.overflow) ++ zeros 6 ++ (es.map Event.bytes).flatten

/-- EVENT_POLL (R440, R446, R447). -/
def execEventPoll (sess : Nat) (tag : BitVec 32) (body : Bytes) (s : State) : Out :=
  done (whenUp s (onMessage { msg := 0x0040, operator := true } (exactly 0) sess tag body (fun x w s =>
    reply { w with body := pollBody x } eOk (modSess sess (fun y => { y with events := y.events.drop 8, overflow := false }) s))))

/-- QUOTE (R434, R440, R441, R453, R455, R463): on the operator mailbox only in a session that has proven its credential. -/
def execQuote (sess : Nat) (tag : BitVec 32) (body : Bytes) (s : State) : Out :=
  done (whenUp s (onMessage { msg := 0x0010, operator := true, cred := (s.sess sess).any (·.operator) } (exactly 40) sess tag body
    (fun _ w => inOrder w body (decideQuote w body))))

/-- QUOTE_BLOCK (R440, R453, R455, R461): a QUOTE with KIND 0x00. -/
def execQuoteBlock (sess : Nat) (tag : BitVec 32) (body : Bytes) (s : State) : Out :=
  done (whenUp s (onMessage (operMsg 0x010D) (exactly 40) sess tag body
    (fun _ w s => if fieldLe body 0 1 ≠ 0 then refuse w eReserved s else decideQuote w body s)))

/-- QUOTE_BATCH_CLOSE (R421, R455 to R458, R460): 2 ms after it opened. -/
def execQuoteBatchClose (s : State) : Out :=
  done (whenUp s (onlyIf s.att.batch.isSome (fun s => closeBatch (reachTime (s.att.batchAt + 2000) s))))

end Sys2Proof.Machine
end

