-- ==== Sys2Proof/Machine/Reset.lean ====
section
/-!
DEFINITION. Resets and power (R22, R31, R44, R49, R222, R273, R283, R300 to R309, R358, R375, R435, R552, R564 to R576, R611 to R613,
R655, R661 to R665, R689): of one guard, of a die section, of the security core, cold reset, the tamper sequence and the power domains.
-/

namespace Sys2Proof.Machine
open Sys2Proof

/-! ### Units and their marks (R563, R565, R566) -/

/-- R563, R565: the units of a security core, as class times 1,024 plus index, that pass their self-test by UNIT_SELF_TEST_PASS or
DIG_SELFTEST and that the record does not mark. -/
def coreUnits (s : State) : List Nat :=
  ([5, 6, 7].flatMap (fun c => (List.range (classSize c)).map (fun i => (c, i)))).filterMap
    (fun p => if marked s p.1 p.2 then none else some (p.1 * 1024 + p.2))

/-- R566: a bank without the lanes and the bank itself that the record marks; a marked guard covers every bank. -/
def markBank (ds : List Defect) (g b : Nat) : Bank :=
  let mine := ds.filter (fun d => d.cls == 1 && d.unit / 512 == unitGuard g / 512)
  let out := mine.any (fun d => d.unit % 4 == 0 || (d.unit % 4 == 1 && d.unit / 64 % 8 == b))
  let lanes := mine.foldl (fun (m : BitVec 9) d =>
    if d.unit % 4 = 2 ∧ d.unit / 64 % 8 = b then setBit m (d.unit / 4 % 16) true else m) 0
  { bad := if out then BitVec.allOnes 9 else lanes, excluded := out || lanes == BitVec.allOnes 9 }

/-- R31, R564 to R566: a guard as it stands at its release from reset, but for the units the record excludes. -/
def freshGuard (s : State) (g : Nat) : Guard :=
  let x := Guard.reset g
  let ds := defects s
  { x with banks := (List.range x.banks.length).map (markBank ds g),
           cache := { x.cache with rowsOut := (ds.filter (fun d => d.cls == 2 && d.unit == unitGuard g)).map Defect.index } }

/-! ### Reset of a guard and of a die section (R30, R31, R158, R167, R573, R574, R576) -/

/-- R108: the writes that a guard handed downstream before a fence, which are still reported at their acknowledgement. -/
def Guard.writesOut (x : Guard) : List Req := x.reqs.filter (fun r => match r.stage with
  | .fencedOut _ => true
  | _ => false)

/-- R166 to R168: the SWEEP_DONE of a descriptor is on its way to the key service. -/
def doneOnWay (s : State) (id : BitVec 32) : Bool :=
  (s.head.inQ ++ s.dies.toList.flatMap (fun d => d.sendQ ++ d.inbox)).any (fun m => match m.body with
    | .sweepDone i _ _ _ => i == id
    | _ => false)

/-- R151, R576: no withdrawal waits for a guard in reset. -/
def dropWaits (g : Nat) (s : State) : State :=
  s.modDie (g / 10) (fun d => { d with withdraws := d.withdraws.map (fun w => { w with waits := w.waits.filter (fun p => p.1 != g) }) })

/-- R672: what access paths have latched from a range of addresses is gone with the unit that holds the page. -/
def dropLatches (lo hi : Nat) (s : State) : State :=
  s.modPorts (fun p => { p with latches := p.latches.filter (fun l => l.2.1.toNat < lo || hi ≤ l.2.1.toNat) })

/-- R108, R573, R690: a guard enters reset; its share and throttle registers keep their values, and a power limit stays in force. Its answers wait on the
port, and the writes it has handed downstream are reported E_FENCED at their acknowledgement (log 32). The fence that opens the reset ends no
descriptor; the key service issues again those of which no SWEEP_DONE is on its way (R167). -/
def enterReset (g : Nat) (s : State) : State :=
  let s := dropLatches (0x800000 + g * 0x10000) (0x810000 + g * 0x10000) (dropWaits g (fenceGuard false false g s))
  let fresh := freshGuard s g
  let s := s.modKs (fun k => { k with descs := mapIf (fun d => d.guard == g && d.sent && !doneOnWay s d.sweepId) (fun d => { d with sent := false, keyed := false }) k.descs })
  s.modGuard g (fun x => { fresh with
    service := x.service, fenced := true, inReset := true, resetKeep := true, clkStopped := x.clkStopped, reqs := x.writesOut,
    rsps := x.rsps, page := { fresh.page with share := x.page.share, limit := x.page.limit, powerPct := x.page.powerPct, powerLines := x.page.powerLines }, uid := x.uid, wdWait := x.wdWait, beat := x.beat, rspBeat := x.rspBeat })

/-- R559, R571: the initial seal sweep of a guard starts from its first line; its one-time key is drawn and sent over the ring. The memory of
a guard none of whose banks is left is lost. -/
def startSeal (g : Nat) (s : State) : State :=
  let dead := (s.guardN g).banks.all Bank.excluded
  let s := s.modGuard g (fun x => { x with service := if dead then .lost else .sweeping, fenced := x.fenced || dead })
  if dead || (s.guardN g).inReset || (s.guardN g).fenced then s
  else
    let s := s.modGuard g (fun x => { x with sweep := { x.sweep with sealNext := some 0 } })
    if !drawNow s then s
    else match drawBytes 96 s with
      | (none, t) => t
      | (some keys, t) => headSend g (.keyFill (entryOf keys 8191 0 .seal false)) t

/-- R264, R564, R573, R690: a guard whose first bank has passed leaves reset: it takes the rotation list of its stop, leaves its fence unless its memory is
lost, starts its first throttle interval under LIMIT, and repeats an unfinished seal sweep. -/
def leaveReset (g : Nat) (s : State) : State :=
  let x := s.guardN g
  if s.ports.broken ∨ s.tamper.latch then s
  else
    let s := s.modGuard g (fun x => { x with
      inReset := false, resetKeep := false, fenced := x.service == .lost, safetyFence := false,
      page := { (if x.service == .serving then x.page.shareNow else x.page) with limitNow := x.page.limit, lineCount := 0 },
      rot := if (s.dieN (g / 10)).serveNow then (s.dieN (g / 10)).rot else [] })
    onlyIf (x.service == .sweeping) (startSeal g) s

/-- R693: a stop in reset counts as having acknowledged. -/
def countStop (d : Nat) (s : State) : State :=
  s.modKs (fun k => { k with
    syncSeqs := k.syncSeqs.filter (fun q => q.1 != d),
    ops := k.ops.filterMap (fun o => match o.kind with
      | .sync e _ => if e = d then none else some o
      | _ => some { o with missS := o.missS.filter (· != d) }) })

/-- R180, R574, R669: the tables and registers of a die section after its reset; its stop goes on passing messages and numbers its own from 0. The SEQ it
has of the head stays, since the stop keeps power and clock, with DS_RING_HEAD_SEQ; the counts of the ring stop page start again from zero
(DESIGN CHOICE, log 61). -/
def freshDie (x : Die) : Die :=
  { inReset := false, headSeq := x.headSeq, expSeq := x.expSeq, discarding := x.discarding, inbox := x.inbox, sendQ := x.sendQ, passing := x.passing,
    coreGood := x.coreGood, guardGood := x.guardGood, pairRun := x.pairRun, t2Run := x.t2Run, laneRun := x.laneRun }

/-- R33, R574: a die section is reset: its ten guards, its tables; on release its stop is given the tables over the ring. -/
def sectionReset (d : Nat) (s : State) : State :=
  let s := forEach (guardsOf d) enterReset s
  let s := (countStop d s).modDie d freshDie
  settle (onlyIf s.head.attached (startSync d) s)

/-! ### What ends with the security core (R222, R299, R358, R375, R435, R437, R536, R610, R611) -/

/-- R610, R611: the active core stops waiting for the standby: what frames held back goes on. -/
def stopWaiting (s : State) : State :=
  let us := s.mir.unacked ++ s.mir.backlog
  let s := s.modMir (fun m => { m with ready := false, session := false, key := [], unacked := [], backlog := [] })
  let s := forEach us (fun u t => forEach u.replies (fun r v => reply r.1 r.2 v) (forEach u.effect launch t)) s
  settle (releaseQuotes (s.modAtt (fun a => { a with closed := a.closed.map (fun b => { b with mirrored := true }) })))

/-- R435, R436, R450, R653: every session ends, with the requests being answered and the pushes being made. -/
def endSessions (s : State) : State :=
  (s.modAtt (fun a => { a with sessions := [], batch := none, closed := [], tenantConn := {}, operConn := {} })).modPorts
    (fun p => { p with lk := [], lkWords := [] })

/-- R437, R441: requests that wait for a region list, and those that wait behind them, change nothing. -/
def dropReads (s : State) : State :=
  (s.modKs (fun k => { k with reads := [], waiting := [], fpRef := none, doms := k.doms.map (fun r => { r with reading := false }) })).modDma
    (fun d => { nextWork := d.nextWork, flight := d.flight })

/-- R210, R211: with its bundle key wiped a model domain awaits a key again. -/
def dropBundles (s : State) : State :=
  let ms := (s.ks.models.filter (fun m => m.custody == .keyHeld)).map ModelRec.model
  forEach ms (fun m t => modModel m (fun r => { r with custody := .awaitingKey, jobUsed := false }) t) (s.modVault (fun v => { v with bundles := [] }))

/-- R222, R299: what the loss of a security core's engines ends: sessions, jobs, frames without acknowledgement. -/
def endWork (s : State) : State :=
  let s := stopWaiting (endSessions s)
  let s := match s.ingest.run with
    | none => s
    | some j => endIngest j igAbort s
  dropBundles (dropReads (interruptFuse s))

/-- R265, R267, R575: a KEY_REQ that the key service has not admitted is in its stop's send queue as before. -/
def returnKeyReqs (s : State) : State :=
  forEach s.head.inQ (fun m t => match m.body with
    | .keyReq d want genbit => guardKeyReq m.src d want genbit t
    | _ => t) s

/-- R255, R640: the mower's reads that have not left a guard are dropped; the answers to the others will be discarded. -/
def Guard.dropMower (x : Guard) : Guard :=
  { x with reqs := x.reqs.filterMap (fun r => match r.src, r.stage with
      | .tenant, _ => some r
      | .mower _ _, .readOut tag => some { r with stage := .discardOut tag }
      | .mower _ _, .discardOut _ => some r
      | .mower _ _, _ => none) }

/-- R255, R265, R283, R344, R358, R370, R375, R401, R454, R575, R581, R669: the units of the security core as their reset leaves them. -/
def freshCore (s' : State) : State :=
  let s := (returnKeyReqs s').modGuards (fun _ => Guard.dropMower)
  { s with
    head := { s.head with admitted := [], inQ := [], srcSeq := [], discarding := false, attached := true },
    vault := { slots := s.vault.slots.map (fun a => { epoch := a.epoch }) },
    pk := { stDue := true }, dig := {}, ent := {}, ingest := {}, mower := {},
    att := { nodeLog := s.att.nodeLog, logEntries := s.att.logEntries, logLost := s.att.logLost, nextSess := s.att.nextSess },
    tenantBox := { eid := s.tenantBox.eid }, operBox := { eid := s.operBox.eid },
    boot := { cores := Vector.replicate 4 .romWait },
    fuse := { array := s.fuse.array, shadows := s.fuse.shadows, grade := s.fuse.grade, noIdentity := s.fuse.noIdentity, fatal := s.fuse.fatal,
              dbgBoot := s.fuse.dbgBoot, dbgScope := if s.fuse.inForce then 0 else s.fuse.dbgScope, dbgArm := s.fuse.dbgArm,
              testPath := s.fuse.testPath },
    brup := { phase := s.brup.phase, reduced := s.brup.reduced, lines := s.brup.lines, plan := s.brup.plan, nodeKeyId := s.brup.nodeKeyId,
              unitsLeft := s.brup.unitsLeft, badWords := s.brup.badWords },
    fq := { s.fq with ovfSel := 0, hdr := {} },
    mir := { site := s.mir.site, takenOver := s.mir.takenOver, takeoverTime := s.mir.takeoverTime, hold := s.mir.hold, mirFail := s.mir.mirFail,
             mirTakeover := s.mir.mirTakeover, toStandby := s.mir.toStandby, toActive := s.mir.toActive },
    ports := { s.ports with latches := s.ports.latches.filter (fun l => 0x400000 ≤ l.2.1.toNat), xspiRst := false, flashOctal := false } }

/-- R575: the security core is reset. Guards, die sections, release lines, pushed link keys, the fault queue and NODE_LOG stay as they stand;
an initial seal sweep starts again once the key service runs. The tamper sequence overrides it (R309). -/
def coreReset (s : State) : State :=
  if s.tamper.latch then s
  else (freshCore (endWork s)).modGuards (fun _ x =>
    if x.sweep.sealNext.isSome then { x with sweep := { x.sweep with sealNext := none, key := none } } else x)

/-- SECURITY_CORE_RESET (R575). -/
def execSecurityCoreReset (s : State) : Out := done (whenUp s coreReset)

/-- R613: a reset that the active core requests: HOLD goes to the standby, for a time within the bound (log 8), and the reset follows 10 ms
after the response. -/
def scheduleReset (s : State) : State :=
  let s := onlyIf (s.mir.session && !s.mir.site) (fun s =>
    (mirSend { frame := { body := .hold (s.free % 200001) } } (s.modMir (fun m => { m with hold := true }))).used) s
  s.modBoot (fun b => { b with resetDue := some (s.timer + 10000) })

/-- DELAYED_CORE_RESET (R493, R508, R541, R544, R572): 10 ms have passed since the response. -/
def execDelayedCoreReset (s : State) : Out :=
  done (whenUp s fun s =>
    match s.boot.resetDue with
    | none => s
    | some t => coreReset (reachTime t s))

/-! ### Tamper (R300 to R309, R657) -/

/-- R303, R304: the stores of R303 overwritten: the engines, buffers and tables of the security core and of the standby. -/
def overwriteStores (s : State) : State :=
  let running := s.vault.run.isSome
  { s with
    tamper := { s.tamper with latch := true },
    head := { seq := s.head.seq }, ks := {},
    vault := { cmd := s.vault.cmd, arg := s.vault.arg, len := s.vault.len, valid := s.vault.valid || running,
               result := if running then 0x24 else s.vault.result, dropped := s.vault.dropped, foreign := s.vault.foreign, hdr := s.vault.hdr },
    pk := {}, dig := {}, ent := {}, ingest := {}, mower := {},
    att := { nodeLog := s.att.nodeLog, logEntries := s.att.logEntries, logLost := s.att.logLost }, tenantBox := {}, operBox := {},
    boot := { bootCore := s.boot.bootCore, excluded := s.boot.excluded }, dma := {},
    mir := { s.mir with key := [], session := false, ready := false, unacked := [], backlog := [], toStandby := [], toActive := [] }, sby := {} }

/-- R303, R304: the tamper sequence up to its read-back: every guard is fenced, the cores and engines are held in reset, the mailboxes closed,
any fuse pulse stopped, and every store of R303 overwritten. A vault command in progress ends E_TAMPER. -/
def tamperSequence (s : State) : State :=
  let s := interruptFuse s
  let s := forEach allGuards (fenceGuard false false) s
  let s := s.modGuards (fun _ x => { x with inReset := false, resetKeep := false, sweep := { x.sweep with rekey := [], dom := [], sealNext := none } })
  wipeUds (overwriteStores (endSessions s))

/-- TAMPER_ASSERTION (R300 to R304, R307, R309, R310): the pair of die 0 or die 2 is sampled asserted, for one cycle or held for two; the vault page
shows a pair held asserted from then on (log 34). Single cycles are counted but in tamper-cleared, where an assertion has no further effect. -/
def execTamperAssertion (die : Fin 4) (held : Bool) (s : State) : Out :=
  done (whenUp s fun s =>
    if die ≠ 0 ∧ die ≠ 2 then s
    else if !held then onlyIf (!s.tamper.cleared) (State.modTamper (fun t => { t with glitches := satInc t.glitches })) s
    else
      onlyIf (!s.tamper.latch) tamperSequence
        (s.modTamper (fun t => if die = 0 then { t with pairDie0 := true } else { t with pairDie2 := true })))

/-- TAMPER_ZEROIZE_DONE (R304, R305, R307, R552, R655, R657): the read-back ends. A store that fails it is overwritten and read again; otherwise
tamper-cleared is entered, tmp_zeroize_done rises and every release line holds its unit. -/
def execTamperZeroizeDone (failed : Bool) (s : State) : Out :=
  done (whenUp s fun s =>
    if !s.tamper.latch ∨ s.tamper.cleared then s
    else if failed then s.modTamper (fun t => { t with retry := true })
    else
      (s.modTamper (fun t => { t with cleared := true, done := true })).modBrup (fun b =>
        { b with lines := b.lines.map (fun l => { up := l.up }), package := none }))

/-! ### Cold reset (R622, R661, R662, R689) -/

/-- COLD_RESET (R308, R511, R536, R622, R661): rst_cold_n is asserted: everything returns to its reset value but the fuse array and the boot flash. The
power inputs stay as they are. -/
def execColdReset (s : State) : Out :=
  let s := interruptFuse s
  done { State.reset with
    pending := s.pending, freeCtr := s.freeCtr, flash := s.flash, fuse := { array := s.fuse.array },
    dies := s.dies.map (fun d => { coreGood := d.coreGood, guardGood := d.guardGood }) }

/-- COLD_RESET_RELEASE (R36, R465, R605, R661 to R663, R689): rst_cold_n is released: the always-on logic, the clocks but the lane clock, the die
sections and both security cores leave reset, sensing begins, and the block timer reads zero. -/
def execColdResetRelease (s : State) : Out :=
  done (if !s.ports.rstCold ∨ s.dies.toList.any (fun d => !d.coreGood || !d.guardGood) then s
  else { s with
    timer := 0, ports := { s.ports with rstCold := false, aonUp := true, pairDone := true },
    dies := s.dies.map (fun d => { d with inReset := false, pairRun := 7, t2Run := true }),
    head := { s.head with attached := true }, pk := { s.pk with stDue := true },
    boot := { s.boot with cores := Vector.replicate 4 .romWait }, sby := { s.sby with alive := true, selftest := true } })

/-! ### Power domains (R49, R663 to R665, R679) -/

/-- R664: pwr_guard_safe of a die: every guard of it is fenced, or it is held in reset. -/
def guardSafe (s : State) (d : Nat) : Bool := s.ports.rstCold || (guardsOf d).all (fun g => (s.guardN g).fenced)

/-- GUARD_POWER_FALL (R49, R664): pwr_guard_good of a die falls; unless its guards were fenced, every one is fenced at once. A guard without power holds
nothing and drives its reset values. -/
def execGuardPowerFall (die : Fin 4) (s : State) : Out :=
  done (whenUp s fun s =>
    let d := die.toNat
    onlyIf (s.dieN d).guardGood (fun s =>
      let safe := guardSafe s d
      let s := onlyIf (!safe) (fenceAll true (guardsOf d)) s
      let s := dropLatches (0x800000 + d * 0xA0000) (0x8A0000 + d * 0xA0000) (forEach (guardsOf d) dropWaits s)
      let s := s.modDie d (fun x => { x with guardGood := false, keyReqQ := [] })
      settle (s.modGuards (fun g x => if g / 10 = d then
        { freshGuard s g with service := x.service, fenced := true, safetyFence := x.safetyFence, inReset := true,
                              page := { (freshGuard s g).page with powerPct := x.page.powerPct, powerLines := x.page.powerLines } } else x))) s)

/-- GUARD_POWER_GOOD (R664): pwr_guard_good of a die returns; its guards stay fenced until they are reset. -/
def execGuardPowerGood (die : Fin 4) (s : State) : Out :=
  done (whenUp s fun s =>
    let d := die.toNat
    onlyIf (!(s.dieN d).guardGood) (fun s =>
      (s.modDie d (fun x => { x with guardGood := true })).modGuards (fun g x => if g / 10 = d then { x with inReset := false } else x)) s)

/-- CORE_POWER_FALL (R665): pwr_core_good of a die falls: every guard on every powered die is fenced, and no request is served until cold reset. A
security core on that die stops with it. -/
def execCorePowerFall (die : Fin 4) (s : State) : Out :=
  done (whenUp s fun s =>
    let d := die.toNat
    let s := s.modDie d (fun x => { x with coreGood := false })
    let s := settle (fenceAll true (allGuards.filter (fun g => (s.dieN (g / 10)).guardGood)) (s.modPorts (fun p => { p with broken := true })))
    if d = s.activeDie then (freshCore (endWork s)).modBoot (fun b => { b with cores := Vector.replicate 4 .reset })
    else onlyIf (d == 2) (State.modSby (fun _ => {})) s)

/-! ### A power limit (R45, R47, R112) -/

/-- POWER_LIMIT (R47, R111, R112): the shares in force of the sweeps, the mower and ingest become lower than the shares set, stage after stage, and only
at the last stage the tenants' lines of each interval are limited too; by how much the spec leaves open. Stage 0 ends the limit (log 16). -/
def execPowerLimit (stage : BitVec 2) (s : State) : Out :=
  done (whenUp s fun s =>
    (s.modGuards (fun _ y =>
      let x := y.noteThrottle
      { x with page := { x.page with powerPct := if stage = 0 then none else some (s.free % 100),
                                     powerLines := if stage = 3 then some s.used.free else none }.shareNow })).used.used)

end Sys2Proof.Machine
end

