-- ==== Sys2Proof/Machine/Fuses.lean ====
section
/-!
DEFINITION. The fuse controller's commands and the life cycle (R405, R497, R511 to R547, R572): sensing and re-sensing, programming, seals and
locks, transitions, debug unlock and the test multiplexer.
-/

namespace Sys2Proof.Machine
open Sys2Proof

/-- The fuse and life-cycle page (R682). -/
def fusePage : Nat := 0x11000

/-- R531: a management core of the active security core. -/
def isCore : Path → Bool
  | .core _ => true
  | .port _ _ => false

/-- R531: a dropped write is counted. -/
def fuseForeign (s : State) : State := s.modFuse (fun f => { f with foreign := satInc f.foreign })

/-- R531, R674: a write to FUSE_CMD, LC_CMD or a debug register. -/
def fuseWrite (off : Nat) (p : Path) (k : State → State) (s : State) : State := writeOwned p (fusePage + off) (isCore p) fuseForeign k s

/-! ### Sensing (R518, R520, R530, R540, R566 to R568, R662) -/

/-- R567, R568: the defect record is applied: words that name no unit are counted and queue a fault, and units it marks are excluded. -/
def applyRecord (s : State) : State :=
  let bad := (defectWords s).filter (fun x => (defectOf x).isNone)
  let s := s.modBrup (fun b => { b with badWords := satAdd 0 bad.length, unitsLeft := coreUnits s })
  let s := s.modPk (fun k => { k with dpAOut := marked s 4 0, dpBOut := marked s 4 1 })
  let s := s.modDig (fun d => { d with coreOut := BitVec.ofNat 4 ((List.range 4).map (fun i => bitNat i (marked s 6 i))).sum })
  forEach bad (fun x => raise false kBringUp x.word fDefectWord 0 x.word) s

/-- R662: at a cold start the lane clock starts once the grade is known, and every guard leaves reset with the record's units excluded. -/
def laneStart (s : State) : State :=
  onlyIf (s.dies.toList.all (fun d => !d.laneRun))
    (fun s => (s.modDies (fun _ d => { d with laneRun := true })).modGuards (fun g _ => freshGuard s g)) s

/-- R519, R520: what a sensing finds in the array: fuses weaken with age and temperature, so that it may read words otherwise than they were
programmed. Each of those is given with its reading at the normal and at the tight reference. -/
def senseArray (read : List (Nat × BitVec 72 × BitVec 72)) (a : List FuseWord) : List FuseWord :=
  read.foldl (fun a r => if r.1 < 512 then wordPut { word := r.1, norm := r.2.1, tight := r.2.2 } a else a) a

/-- FUSE_SENSING_DONE (R518 to R520, R525, R526, R530, R540, R567, R568, R662): the whole array has been sensed; the shadows are valid, the test path
is disabled outside blank and provision, and the defect record is applied. `read` lists words that read otherwise than the array holds (log 40). -/
def execFuseSensingDone (read : List (Nat × BitVec 72 × BitVec 72)) (s : State) : Out :=
  done (whenUp s fun s =>
    onlyIf (s.ports.aonUp && !s.fuse.sensed && !s.tamper.latch && s.boot.cores.toList.any (fun c => c != .reset)) (fun s =>
      let s := s.modFuse (fun f => { f with shadows := senseAll (senseArray read f.array), sensed := true, udsShadow := true })
      let s := s.modFuse (fun f => { f with grade := BitVec.ofNat 8 (gradeOf s), fatal := fuseFatal s, testPath := lifeCycle s == 1 || lifeCycle s == 2 })
      applyRecord (laneStart s)) s)

/-- R520: words whose restrictive reading is that they are programmed. -/
def growOnly (w : Nat) : Bool := w ≤ 34 || (36 ≤ w && w ≤ 39) || (112 ≤ w && w < 368)

/-- R520, R521: the shadow of a word after a re-sensing: it takes what is more restrictive and never relaxes. -/
def restrict (old new : Shadow) : Shadow :=
  { old with
    programmed := old.programmed || (new.programmed && (growOnly old.word || isCairnWord old.word)),
    marginal := old.marginal || new.marginal, corrected := old.corrected || new.corrected, uncorr := old.uncorr || new.uncorr,
    value := if isCairnWord old.word then old.value ||| new.value
             else if old.word = 368 then old.value &&& new.value
             else if growOnly old.word && !old.programmed then new.value else old.value }

/-- R521: whether a reading differs from the shadow. -/
def Shadow.differs (old new : Shadow) : Bool :=
  old.programmed != new.programmed || old.marginal != new.marginal || old.uncorr != new.uncorr || old.value != new.value

/-- R521, R523: one word is sensed again. Of region 1 no value is compared once the UDS shadow is wiped. -/
def resenseWord (found : List FuseWord) (w : Nat) (s : State) : State :=
  let old := s.shadow w
  let new := readWord (wordIn found w)
  let new := if regionOfWord w = 1 ∧ !s.fuse.udsShadow then { new with value := old.value } else new
  let x := restrict old new
  let s := s.modFuse (fun f => { f with shadows := if x.programmed then shadowPut x f.shadows else f.shadows })
  onlyIf (old.differs new) (fun s => raise true kFuse w fFuseRecheck 0 w (s.modFuse (fun f => { f with recheckRecent := true }))) s

/-- R522: the grade as a re-sensing of its word leaves it: it never rises. -/
def regrade (found : List FuseWord) (s : State) : State :=
  let g := gradeOf (s.modFuse (fun f => { f with shadows := shadowPut (readWord (wordIn found 57)) f.shadows }))
  s.modFuse (fun f => { f with grade := if g < f.grade.toNat then BitVec.ofNat 8 g else f.grade })

/-- FUSE_RESENSE (R521 to R523, R535): every word is sensed again at both references, unless a fuse operation runs; `read` lists words that read
otherwise than the array holds (log 40). -/
def execFuseResense (read : List (Nat × BitVec 72 × BitVec 72)) (s : State) : Out :=
  done (whenUp s (onlyIf (s.fuse.sensed && s.fuse.op.isNone && !s.tamper.latch) (fun s =>
    let found := senseArray read s.fuse.array
    let ws := ((s.fuse.array ++ found).map FuseWord.word ++ s.fuse.shadows.map Shadow.word).eraseDups
    regrade found (forEach ws (resenseWord found) s))))

/-! ### FUSE_CMD (R512, R527 to R535) -/

/-- R532: whether the table of R532 refuses an operation in the present state. -/
def fuseForbidden (s : State) (op region : Nat) : Bool :=
  let lc := lifeCycle s
  if 4 ≤ lc then true
  else if op = 5 then lc == 1
  else ((1 ≤ region && region ≤ 4) || region == 6) && lc == 3

/-- R533 order 4. -/
def fuseRange (op word region : Nat) (data : BitVec 64) : Bool :=
  if op = 1 then !(1 ≤ region && region ≤ 14) || regionOfWord word != region || (sealable region && word == sealWord region) || data == 0
  else if op = 5 then 3 < word
  else !sealable region

/-- R533 order 5: the word an operation names, or the lock or revocation word it programs, reads programmed. -/
def fuseProgrammed (s : State) (op word region : Nat) : Bool :=
  match op with
  | 1 => (s.sensed word).programmed
  | 3 => s.burned (2 * region)
  | 4 => s.burned (2 * region + 1)
  | 5 => s.burned (36 + word)
  | _ => false

/-- R533: the first check that a FUSE_CMD fails decides its code. -/
def fuseRefused (s : State) (cmd : BitVec 32) : Option (BitVec 8) :=
  let op := bitsOf cmd 3 0
  let word := bitsOf cmd 12 4
  let region := bitsOf cmd 16 13
  if s.cleared then some 0x24
  else if op = 0 ∨ 5 < op ∨ bitsOf cmd 30 17 ≠ 0 ∨ ((op = 2 ∨ op = 3 ∨ op = 4) ∧ word ≠ 0) then some eReserved
  else if !s.fuse.sensed ∨ s.fuse.op.isSome ∨ fuseForbidden s op region then some eState
  else if fuseRange op word region s.fuse.data then some eRange
  else if fuseProgrammed s op word region then some 0x34
  else if (op = 1 ∨ op = 2) ∧ writeLocked s region then some 0x35
  else if (op = 1 ∨ op = 2) ∧ sealPresent s region then some 0x36
  else if (op = 3 ∨ op = 4) ∧ !regionSealed s region then some 0x37
  else if op = 2 ∧ (regionWords region).any (fun w => (s.sensed w).doubtful) then some 0x38
  else none

/-- The operation that a FUSE_CMD names. -/
def fuseOpOf (s : State) (cmd : BitVec 32) : FuseOp :=
  match bitsOf cmd 3 0 with
  | 1 => .program (bitsOf cmd 12 4) s.fuse.data
  | 2 => .seal (bitsOf cmd 16 13)
  | 3 => .lockWrite (bitsOf cmd 16 13)
  | 4 => .lockRead (bitsOf cmd 16 13)
  | _ => .revoke (bitsOf cmd 12 4)

/-- R533, R535, R548: a write of FUSE_CMD by its owner. -/
def fuseCmdWrite (value : BitVec 32) (s : State) : State :=
  let s := s.modFuse (fun f => { f with cmd := (value &&& 0x1FFFF#32).extractLsb' 0 31 })
  if !bitAt value 31 then s
  else match fuseRefused s value with
    | some c => s.modFuse (fun f => { f with valid := true, result := c })
    | none => s.modFuse (fun f => { f with op := some (fuseOpOf s value) })

/-- A write of FUSE_CMD that starts the operation with a given OP; a reserved OP is taken by the first row. -/
def fuseRow (op : Nat) (p : Path) (value : BitVec 32) (s : State) : State :=
  let o := bitsOf value 3 0
  onlyIf (bitAt value 31 && (o == op || (op == 1 && (o == 0 || 5 < o)))) (fuseWrite 0x20 p (fuseCmdWrite value)) s

/-- FUSE_PROGRAM (R512, R513, R527, R528, R531 to R535). -/
def execFuseProgram (p : Path) (value : BitVec 32) (s : State) : Out := done (fuseRow 1 p value s)

/-- FUSE_SEAL (R524, R525, R529, R531 to R533). -/
def execFuseSeal (p : Path) (value : BitVec 32) (s : State) : Out := done (fuseRow 2 p value s)

/-- LOCK_WRITE (R527, R528, R531 to R534). -/
def execLockWrite (p : Path) (value : BitVec 32) (s : State) : Out := done (fuseRow 3 p value s)

/-- LOCK_READ (R527, R528, R531 to R534). -/
def execLockRead (p : Path) (value : BitVec 32) (s : State) : Out := done (fuseRow 4 p value s)

/-- REVOKE (R517, R531 to R534). -/
def execRevoke (p : Path) (value : BitVec 32) (s : State) : Out := done (fuseRow 5 p value s)

/-- R534: the bits of `v` in word `w` that fail to verify. -/
def failedMask (w : Nat) (v : BitVec 72) (failed : List (Nat × Nat)) : BitVec 72 :=
  failed.foldl (fun m f => if f.1 = w ∧ bitAt v f.2 then setBit m f.2 true else m) 0

/-- R499, R534: a word is burned and sensed. A bit that failed reads 0 at the tight reference; whether it reads 1 at the normal one is open
(log 8). -/
def burnWord (w : Nat) (v : BitVec 72) (failed : List (Nat × Nat)) (s : State) : State :=
  let m := failedMask w v failed
  let s := if m = 0 then burn w v v s else (burn w ((v &&& ~~~ m) ||| (m &&& BitVec.ofNat 72 s.free)) (v &&& ~~~ m) s).used
  senseOne w s

/-- FUSE_OPERATION_END (R512, R519, R529, R534, R536, R539): the operation under way has burned its bits; `failed` lists the bits, by word, that
failed to verify. A transition whose words all verify is ended by LC_TRANSITION_EFFECT, and a cairn raise by CAIRN_RAISE_END. -/
def execFuseOperationEnd (failed : List (Nat × Nat)) (s : State) : Out :=
  done (whenUp s fun s =>
    match s.fuse.op with
    | none => s
    | some (.cairn _) => s
    | some op =>
      match op.target s with
      | none => s
      | some (w, v) =>
        let m := failedMask w v failed
        match op with
        | .transition t ws =>
          if m ≠ 0 then (burnWord w v failed s).modFuse (fun f => { f with op := none, lcBusy := false, lcValid := true, lcResult := 0x30 })
          else if 1 < ws.length then (burnWord w v failed s).modFuse (fun f => { f with op := some (.transition t (ws.drop 1)) })
          else s
        | _ => (burnWord w v failed s).modFuse (fun f => { f with
            op := none, valid := true, result := if m = 0 then 0 else 0x30, skipped := BitVec.ofNat 7 (popCount 72 m) }))

/-! ### Life-cycle transitions (R405, R537 to R541) -/

/-- R539: whether a region is sealed and write-locked. -/
def regionFinal (s : State) (r : Nat) : Bool := regionSealed s r && writeLocked s r

/-- R539: the refusal of a transition, or the words it programs in order. -/
def lcWords (s : State) (target : Nat) : Except (BitVec 8) (List Nat) :=
  let lc := lifeCycle s
  let all (a n : Nat) : Bool := (List.range n).all (fun i => (s.sensed (a + i)).programmed)
  if s.cleared then .error 0x24
  else if !s.fuse.sensed ∨ s.fuse.op.isSome then .error eState
  else if lc = 1 ∧ target = 2 then
    if regionFinal s 2 && regionFinal s 3 && all 64 12 && all 56 1 then .ok (if cairnBit s 0 then [32] else [40, 32]) else .error 0x37
  else if lc = 2 ∧ target = 3 then
    if regionFinal s 1 && readLocked s 1 && all 48 4 && regionFinal s 2 && regionFinal s 3 && regionFinal s 6 && regionFinal s 4 &&
        (List.range 4).any (operatorValid s) then .ok [33] else .error 0x37
  else if lc ≤ 3 ∧ target = 4 then .ok [34]
  else .error eState

/-- R535, R539, R548: a write of LC_CMD by its owner. -/
def lcCmdWrite (value : BitVec 32) (s : State) : State :=
  let target := bitsOf value 7 0
  let s := s.modFuse (fun f => { f with lcTarget := BitVec.ofNat 8 target })
  if !bitAt value 31 then s
  else match lcWords s target with
    | .error c => s.modFuse (fun f => { f with lcValid := true, lcResult := c })
    | .ok ws => s.modFuse (fun f => { f with op := some (.transition (BitVec.ofNat 8 target) ws), lcBusy := true })

/-- A write of LC_CMD that requests a given target; every other target is taken by the first row. -/
def lcRow (target : Nat) (p : Path) (value : BitVec 32) (s : State) : State :=
  let t := bitsOf value 7 0
  onlyIf (bitAt value 31 && (t == target || (target == 2 && t != 3 && t != 4))) (fuseWrite 0x48 p (lcCmdWrite value)) s

/-- LC_TO_PROVISION (R496, R531, R535, R539). -/
def execLcToProvision (p : Path) (value : BitVec 32) (s : State) : Out := done (lcRow 2 p value s)

/-- LC_TO_MISSION (R531, R535, R539). -/
def execLcToMission (p : Path) (value : BitVec 32) (s : State) : Out := done (lcRow 3 p value s)

/-- LC_TO_DECOMMISSIONED (R531, R535, R539). -/
def execLcToDecommissioned (p : Path) (value : BitVec 32) (s : State) : Out := done (lcRow 4 p value s)

/-- LC_TRANSITION_EFFECT (R53, R405, R534, R541, R546, R613): the words of a transition verify and it takes effect: the state changes, the DRBG
reseeds before its next request, and a reset or the tamper sequence follows. -/
def execLcTransitionEffect (s : State) : Out :=
  done (whenUp s fun s =>
    match s.fuse.op with
    | some (.transition t ws) =>
      let s := forEach ws (fun w => burnWord w (if w = 40 then 1 else encodeWord allOnes64) []) s
      let s := s.modFuse (fun f => { f with op := none, lcBusy := false, lcValid := true, lcResult := 0 })
      let s := s.modEnt (fun e => { e with lcAdd := some t, reseedDue := true })
      if t = 3 then scheduleReset s else if t = 4 then tamperSequence s else s
    | _ => s)

/-! ### Bring-up actions (R461, R491, R542, R544, R572) -/

/-- R461: ACTION of a BRINGUP_ACTION. -/
def actionOf (body : Bytes) : Nat := fieldLe body 0 2

/-- R461: UNIT of a BRINGUP_ACTION. -/
def actionUnit (body : Bytes) : Nat := fieldLe body 2 2

/-- R461: ARG of a BRINGUP_ACTION. -/
def actionArg (body : Bytes) : Nat := fieldLe body 4 4

/-- R461: a BRINGUP_ACTION whose ACTION is one of `mine` is decided by `k`. -/
def actionRow (mine : Bool) (sess : Nat) (tag : BitVec 32) (body : Bytes) (k : Waiter → State → State) (s : State) : Out :=
  done (whenUp s (onlyIf mine (onMessage (operMsg 0x010A) (exactly 8) sess tag body (fun _ w => k w))))

/-- DECOMMISSION (R461, R542): the operator requests the transition to decommissioned. -/
def execDecommission (sess : Nat) (tag : BitVec 32) (body : Bytes) (s : State) : Out :=
  actionRow (actionOf body == 0x51) sess tag body (fun w s =>
    if actionUnit body ≠ 0 then refuse w eReserved s
    else if actionArg body ≠ (dieId s).toNat % 2 ^ 32 then refuse w eMismatch s
    else
      let t := lcCmdWrite 0x80000004#32 s
      if s.fuse.op.isNone && t.fuse.op.isSome then reply w eOk t else refuse w t.fuse.lcResult t) s

/-! ### Debug unlock (R543 to R545) -/

/-- R545: the debug registers as a write of ARM leaves them. -/
def armWrite (value : BitVec 32) (s : State) : State :=
  if bitAt value 0 && lifeCycle s == 3 && debugPermit s then s.modFuse (fun f => { f with dbgArm := true }) else s

/-- LC_DEBUG_ARM (R531, R545). -/
def execLcDebugArm (p : Path) (value : BitVec 32) (s : State) : Out :=
  done (onlyIf (bitAt value 0) (fuseWrite 0x58 p (armWrite value)) s)

/-- R543: whether a field that a token's layout fixes differs. -/
def tokenReserved (t : Bytes) : Bool :=
  slice t 0 8 != ascii "KFL-DBGU" || fieldLe t 8 2 != 1 || fieldLe t 10 2 != 0 || slice t 32 32 != zeros 32

/-- R544: the token of a debug unlock has been read: it is refused with the first code that applies, or armed. -/
def decideToken (w : Waiter) (t : Bytes) (s : State) : State :=
  let key := slice t 64 2720
  if tokenReserved t then refuse w eReserved s
  else if lifeCycle s ≠ 3 ∨ !debugPermit s then refuse w eState s
  else if fieldLe t 16 8 ≠ (dieId s).toNat ∨ fieldLe t 12 4 ≠ s.att.bootCount.toNat + 1 then refuse w eMismatch s
  else if debugDigest s ≠ some (sha3_384 key) ∨ !hybVerify key (t.take 64) (slice t 2784 4723) then refuse w eAuth s
  else
    let s := s.modFuse (fun f => { f with dbgBoot := bytesVec 32 (slice t 12 4), dbgScope := bytesVec 64 (slice t 24 8), dbgArm := true })
    scheduleReset (reply w eOk s)

/-- DEBUG_UNLOCK (R461, R543, R544, R613): the operator presents a token, which is read from node memory. The reserved codes of the life-cycle range are
refused here. -/
def execDebugUnlock (sess : Nat) (tag : BitVec 32) (body : Bytes) (s : State) : Out :=
  actionRow (0x50 ≤ actionOf body && actionOf body ≤ 0x5F && actionOf body != 0x51) sess tag body (fun w s =>
    if actionOf body ≠ 0x50 ∨ actionUnit body ≠ 0 then refuse w eReserved s
    else (dmaRead (.token w) (actionArg body * 65536) 7507 s).2) s

/-! ### The test multiplexer (R546, R547, R658) -/

/-- R546, R658: whether the test multiplexer drives the selected group. -/
def tmxOpen (s : State) : Bool :=
  s.fuse.tmxEnable && !s.tamper.cleared && !s.mir.site &&
    (lifeCycle s == 1 || lifeCycle s == 2 || (s.fuse.inForce && bitAt s.fuse.dbgScope s.fuse.tmxGroup.toNat))

/-- R546: the signals on tmx_data. -/
def tmxPins (s : State) : BitVec 16 := if tmxOpen s then s.fuse.tmxData else 0

/-- R548: a write of TMX_CTL. -/
def tmxWrite (value : BitVec 32) (s : State) : State :=
  s.modFuse (fun f => { f with tmxGroup := value.extractLsb' 0 6, tmxEnable := bitAt value 6, tmxData := 0 })

/-- R547: the selected group appears after four slow cycles; what its signals read is open (log 8). -/
def tmxShow (s : State) : State := (s.modFuse (fun f => { f with tmxData := BitVec.ofNat 16 s.free })).used

/-- TMX_CTL (R546, R547): a group is selected and the pins hold 0. -/
def execTmxCtl (p : Path) (value : BitVec 32) (s : State) : Out := done (writeAt true p (fusePage + 0x5C) (tmxWrite value) s)

end Sys2Proof.Machine
end

