-- ==== Sys2Proof/Machine/Flash.lean ====
section
/-!
DEFINITION. The boot flash (R469, R473 to R485, R487, R491, R492): images and their tags, commit records, counter records, candidates, adoption.
-/

namespace Sys2Proof.Machine
open Sys2Proof

/-! ### Erase and program -/

/-- An erase: every byte of a range reads 0xFF. -/
def flashErase (o n : Nat) (s : State) : State := s.modFlash (fun m => m.filter (fun c => c.1 < o || o + n ≤ c.1))

/-- A program operation: it clears bits. -/
def flashProgram (o : Nat) (bs : Bytes) (s : State) : State :=
  s.modFlash (fun m => bufStore 0xFF m o (List.zipWith (· &&& ·) (bufLoad 0xFF m o bs.length) bs))

/-- Whether a range is erased. -/
def flashBlank (s : State) (o n : Nat) : Bool := s.flash.all (fun c => c.1 < o || o + n ≤ c.1)

/-! ### Images (R473 to R478) -/

/-- R469: the offset of an image slot. -/
def slotOffset (slotB : Bool) : Nat := if slotB then 0x800000 else 0

/-- R473: the header region of a slot. -/
def slotHeader (s : State) (slotB : Bool) : Bytes := flashBytes s (slotOffset slotB) 16384

/-- R474: the fixed header. -/
def imageOf (h : Bytes) : Image :=
  { flags := bytesVec 16 (slice h 10 2), version := bytesVec 32 (slice h 12 4), svn := fieldLe h 16 4, bodyLen := fieldLe h 20 4,
    loadAddr := fieldLe h 24 4, entry := bytesVec 32 (slice h 28 4), secEntry := bytesVec 32 (slice h 32 4), blockCount := fieldLe h 36 4,
    digest := slice h 40 48, vendorKeyId := slice h 88 48 }

/-- R474: whether a reserved field of the fixed header is not zero. -/
def headerReserved (h : Bytes) : Bool := 2 ≤ fieldLe h 10 2 || slice h 136 120 != zeros 120

/-- R474: whether an address is a multiple of 4 inside the body. -/
def insideBody (i : Image) (a : Nat) : Bool := a % 4 == 0 && i.loadAddr ≤ a && a < i.loadAddr + i.bodyLen

/-- R474: whether the fields of the fixed header other than the reserved ones are right. -/
def headerFields (h : Bytes) : Bool :=
  let i := imageOf h
  slice h 0 8 == ascii "KFL-FWIM" && fieldLe h 8 2 == 1 && 1 ≤ i.svn && i.svn ≤ 128 && 1 ≤ i.bodyLen && i.bodyLen ≤ 8372224 &&
    i.loadAddr % 65536 == 0 && 0x10000000 ≤ i.loadAddr && i.loadAddr + i.bodyLen ≤ 0x10800000 && insideBody i i.entry.toNat &&
    insideBody i i.secEntry.toNat && i.blockCount == (i.bodyLen + 65535) / 65536

/-- R477: FW_DIGEST of a header. -/
def fwDigestOf (h : Bytes) : Bytes := sha3_384 (h.take 256)

/-- R472: the image key. -/
def imageKey (s : State) : Bytes := (s.anchor 4).value

/-- R476: the tag of a block. -/
def blockTag (key digest : Bytes) (k : Nat) (block : Bytes) : Bytes := hmac384 key (ascii "KFL-IMGB" ++ leBytes 4 k ++ digest ++ block)

/-- R476: HEADER_TAG over the first 6,400 bytes. -/
def headerTag (key h : Bytes) : Bytes := hmac384 key (ascii "KFL-IMGH" ++ h.take 6400)

/-- R475, R492: BLOCK_TAGS of a body, zero beyond its blocks. -/
def blockTags (key digest body : Bytes) : Bytes :=
  padTo 6144 (((chunks 65536 body).zipIdx.map (fun p => blockTag key digest p.2 p.1)).flatten)

/-- R478: whether a slot's header is usable: its fields, its reserved fields and its tag; the cairn apart. -/
def headerOk (s : State) (h : Bytes) : Bool :=
  headerFields h && !headerReserved h && slice h 13891 2493 == zeros 2493 && slice h 6400 48 == headerTag (imageKey s) h

/-- R473: the body of a slot's image. -/
def slotBody (s : State) (slotB : Bool) : Bytes := flashBytes s (slotOffset slotB + 16384) (imageOf (slotHeader s slotB)).bodyLen

/-- R478, R486: whether every block of a slot's body has its tag. -/
def blocksOk (s : State) (slotB : Bool) : Bool :=
  let h := slotHeader s slotB
  (chunks 65536 (slotBody s slotB)).zipIdx.all (fun p => slice h (256 + 48 * p.2) 48 == blockTag (imageKey s) (imageOf h).digest p.2 p.1)

/-- R478, R488: whether the image of a slot is below the cairn. -/
def belowCairn (s : State) (slotB : Bool) : Bool := (imageOf (slotHeader s slotB)).svn < cairn s

/-- R478: whether a slot is usable. -/
def slotUsable (s : State) (slotB : Bool) : Bool := headerOk s (slotHeader s slotB) && !belowCairn s slotB && blocksOk s slotB

/-! ### Commit records (R479 to R482) -/

/-- R479: a commit record. -/
structure CommitRec where
  /-- flash offset of the record -/
  place : Nat := 0
  /-- SEQ -/
  seq : Nat := 0
  /-- SLOT -/
  slotB : Bool := false
  /-- STATE is final -/
  isFinal : Bool := false
  /-- attempts used (R480) -/
  used : Nat := 0
deriving DecidableEq, Repr

/-- R479: bytes 0 to 23 of a record. -/
def commitHead (seq : Nat) (slotB isFinal : Bool) (svn : Nat) : Bytes :=
  ascii "KFLC" ++ leBytes 4 seq ++ [if slotB then 1 else 0, if isFinal then 2 else 1] ++ zeros 2 ++ leBytes 4 svn ++ zeros 8

/-- R479: TAG of a record over its first 24 bytes and the digest of the image in its slot. -/
def commitTag (s : State) (head : Bytes) (slotB : Bool) : Bytes :=
  (hmac384 (imageKey s) (ascii "KFL-CMIT" ++ head ++ fwDigestOf (slotHeader s slotB))).take 32

/-- R480: the record at an offset, where it is valid. -/
def commitAt (s : State) (o : Nat) : Option CommitRec :=
  let b := flashBytes s o 64
  let seq := fieldLe b 4 4
  let slot := fieldLe b 8 1
  let st := fieldLe b 9 1
  if slice b 0 4 ≠ ascii "KFLC" ∨ seq = 0 ∨ 0xFFFFFFFE < seq ∨ 1 < slot ∨ st = 0 ∨ 2 < st ∨ slice b 10 2 ≠ zeros 2 ∨
      slice b 16 8 ≠ zeros 8 ∨ slice b 24 32 ≠ commitTag s (b.take 24) (slot == 1) then none
  else
    let a : BitVec 8 := (slice b 56 1).headD 0
    some { place := o, seq := seq, slotB := slot == 1, isFinal := st == 2, used := 3 - popCount 3 a }

/-- R481: the offsets of the positions of a commit sector. -/
def commitPlaces (sector : Nat) : List Nat := (List.range 1024).map (fun i => 0x1000000 + 0x10000 * sector + 64 * i)

/-- R487: a record put before those it precedes: higher SEQ first, and slot A first where they are equal. -/
def commitInsert (r : CommitRec) : List CommitRec → List CommitRec
  | [] => [r]
  | x :: xs => if x.seq < r.seq || (x.seq == r.seq && !r.slotB && x.slotB) then r :: x :: xs else x :: commitInsert r xs

/-- R480, R487: the valid records in order. -/
def commits (s : State) : List CommitRec :=
  ((commitPlaces 0 ++ commitPlaces 1).filterMap (commitAt s)).foldl (fun l r => commitInsert r l) []

/-- R508: the SEQ of the next record. -/
def nextCommitSeq (s : State) : Nat := ((commits s).head?.map (fun r => r.seq + 1)).getD 1

/-- R481: a record is appended at the first erased position of the sector with the highest valid SEQ, or of the other sector where that one is
full; the other is erased first where it is full too and R481 allows it. -/
def commitAppend (slotB isFinal : Bool) (svn : Nat) (s : State) : State :=
  let seq := nextCommitSeq s
  let head := commitHead seq slotB isFinal svn
  let bs := head ++ commitTag s head slotB ++ List.replicate 8 0xFF
  let top := (commits s).head?
  let sec := (top.map (fun r => (r.place - 0x1000000) / 0x10000)).getD 0
  let free (t : State) (k : Nat) : Option Nat := (commitPlaces k).find? (fun o => flashBlank t o 64)
  match free s sec with
  | some o => flashProgram o bs s
  | none =>
    match free s (1 - sec) with
    | some o => flashProgram o bs s
    | none =>
      if top.any (fun r => r.isFinal) then flashProgram (0x1000000 + 0x10000 * (1 - sec)) bs (flashErase (0x1000000 + 0x10000 * (1 - sec)) 0x10000 s)
      else s

/-! ### Counter records (R483 to R485) -/

/-- R483: the bytes of a counter record. -/
def countRecord (s : State) (count : Nat) : Bytes :=
  let head := ascii "KFLN" ++ leBytes 4 count
  head ++ (hmac384 (imageKey s) (ascii "KFL-BCNT" ++ head)).take 8

/-- R483: the offsets of the positions of a counter sector. -/
def countPlaces (sector : Nat) : List Nat := (List.range 4096).map (fun i => 0x1020000 + 0x10000 * sector + 16 * i)

/-- R483, R484: the highest valid COUNT and the sector that holds it. -/
def countTop (s : State) : Option (Nat × Nat) :=
  [0, 1].foldl (fun a k => (countPlaces k).foldl (fun a o =>
    let b := flashBytes s o 16
    let c := fieldLe b 4 4
    if b = countRecord s c ∧ a.all (fun x => x.1 < c) then some (c, k) else a) a) none

/-- R484: the counter record of a boot is written; the answer tells whether the other sector had to be erased first. -/
def countWrite (count : Nat) (s : State) : Bool × State :=
  let sec := ((countTop s).map Prod.snd).getD 0
  let other := 0x1020000 + 0x10000 * (1 - sec)
  match (countPlaces sec).find? (fun o => flashBlank s o 16) with
  | some o => (false, flashProgram o (countRecord s count) s)
  | none =>
    if flashBlank s other 0x10000 then (false, flashProgram other (countRecord s count) s)
    else (true, flashProgram other (countRecord s count) (flashErase other 0x10000 s))

/-- R485: firmware erases the counter sector without the highest record where it holds any record and fewer than 64 positions are free in
the other. -/
def countKeep (s : State) : State :=
  match countTop s with
  | none => s
  | some (_, sec) =>
    let other := 0x1020000 + 0x10000 * (1 - sec)
    onlyIf (!flashBlank s other 0x10000 && ((countPlaces sec).filter (fun o => flashBlank s o 16)).length < 64) (flashErase other 0x10000) s

/-! ### Candidates (R487, R488) -/

/-- R487: a candidate: its slot, its kind (1 final, 2 trial, 3 fallback) and its record. -/
structure Candidate where
  /-- slot -/
  slotB : Bool := false
  /-- KIND of R502 -/
  kind : Nat := 3
  /-- record of a final or trial candidate -/
  record : Option CommitRec := none
deriving DecidableEq, Repr

/-- R487 steps 1 to 4: the candidates that records give, and whether an exhausted trial was skipped. -/
def recorded (rs : List CommitRec) : List Candidate × Bool :=
  rs.foldl (fun a r =>
    if a.1.any (fun c => c.slotB == r.slotB) then a
    else if !r.isFinal && 3 ≤ r.used then (a.1, true)
    else (a.1 ++ [{ slotB := r.slotB, kind := if r.isFinal then 1 else 2, record := some r }], a.2)) ([], false)

/-- R487 step 5: the fallback candidates in descending VERSION, slot A first where they are equal. -/
def fallbacks (s : State) (cs : List Candidate) : List Candidate :=
  let v (b : Bool) : Nat := (imageOf (slotHeader s b)).version.toNat
  let order := if v false < v true then [true, false] else [false, true]
  (order.filter (fun b => !cs.any (fun c => c.slotB == b))).map (fun b => { slotB := b })

/-- R487: the candidates in order. -/
def candidates (s : State) : List Candidate := (recorded (commits s)).1 ++ fallbacks s (recorded (commits s)).1

/-! ### Adoption (R491, R492) -/

/-- R491: whether vendor key, signature and body digest are right. -/
def vendorOk (s : State) (h body : Bytes) : Bool :=
  let key := slice h 6448 2720
  let i := imageOf h
  vendorDigest s == some i.vendorKeyId && sha3_384 key == i.vendorKeyId && hybVerify key (h.take 256) (slice h 9168 4723) && sha384 body == i.digest

/-- R492: an image as it is programmed before its tags. -/
def programImage (slotB : Bool) (h body : Bytes) (s : State) : State :=
  let o := slotOffset slotB
  flashProgram (o + 16384) body (flashProgram (o + 6448) (h.drop 6448) (flashProgram o (h.take 256) (flashErase o 0x800000 s)))

/-- R492: the tags of an image are programmed. -/
def programTags (slotB : Bool) (body : Bytes) (s : State) : State :=
  let o := slotOffset slotB
  let s := flashProgram (o + 256) (blockTags (imageKey s) (imageOf (slotHeader s slotB)).digest body) s
  flashProgram (o + 6400) (headerTag (imageKey s) (slotHeader s slotB)) s

/-- R492: an image is adopted into a slot. -/
def adopt (slotB : Bool) (h body : Bytes) (s : State) : State := programTags slotB body (programImage slotB h body s)

end Sys2Proof.Machine
end

