-- ==== Sys2Proof/Machine/BringUp.lean ====
section
/-!
DEFINITION. Node bring-up (R422, R549 to R579, R654 to R656): phases, release lines and node packages, seal sweeps and service states, units
that pass their self-tests, findings, the bring-up actions and the fingerprint samples.
-/

namespace Sys2Proof.Machine
open Sys2Proof

/-- The bring-up page (R682). -/
def brupPage : Nat := 0x12000

/-! ### The release plan (R553) -/

/-- R553: an entry of the plan. -/
def planEntry (b : Bytes) : PlanEntry :=
  let f := fieldLe b 2 1
  { line := fieldLe b 0 1, phase := fieldLe b 1 1, firmware := f.testBit 0, broadcast := f.testBit 1, link := f.testBit 2, memory := f.testBit 3,
    target := fieldLe b 3 1, timeout := fieldLe b 4 2, minSvn := fieldLe b 6 2, flashOffset := fieldLe b 8 4 }

/-- R553: the plan of a running image's body: up to 64 entries behind NODE_KEY_ID. -/
def takePlan (body : Bytes) (s : State) : State :=
  let p := Config.planOf body
  s.modBrup (fun b => { b with
    nodeKeyId := slice p 0 48,
    plan := (((chunks 16 (p.drop 48)).take 64).map planEntry).filter (fun e => e.line < 64 && 2 ≤ e.phase && e.phase ≤ 5) })

/-- The entries of a line. -/
def lineEntries (s : State) (n : Nat) : List PlanEntry := s.brup.plan.filter (fun e => e.line == n)

/-- The first entry of a line. -/
def lineEntry (s : State) (n : Nat) : PlanEntry := (lineEntries s n).headD {}

/-- R553: the guards a line's MEMORY entries name. -/
def lineGuards (s : State) (n : Nat) : List Nat := ((lineEntries s n).filter (fun e => e.memory && e.target < 40)).map PlanEntry.target

/-- R553: the links a line's LINK entries name. -/
def lineLinks (s : State) (n : Nat) : List Nat := ((lineEntries s n).filter (fun e => e.link)).map PlanEntry.target

/-- The lines of a phase, each once. -/
def phaseLines (s : State) (ph : Nat) : List Nat := ((s.brup.plan.filter (fun e => e.phase == ph)).map PlanEntry.line).eraseDups

/-- A release line. -/
def State.line (s : State) (n : Nat) : Line := s.brup.lines.toList.getD n {}

/-- A release line changed by `f`. -/
def modLine (n : Nat) (f : Line → Line) (s : State) : State := s.modBrup (fun b => { b with lines := vmod b.lines n f })

/-- R557, R558: a link is no longer qualified. -/
def unqualify (l : Nat) (s : State) : State := s.modBrup (fun b => { b with links := vmod b.links l (fun k => { k with qualified := false }) })

/-! ### Holding a line (R554, R656) -/

/-- R554: what follows for the guards and links of a line that is held again. -/
def lineLost (n : Nat) (s : State) : State :=
  reserve (forEach (lineLinks s n) unqualify (forEach (lineGuards s n) loseMemory s))

/-- R554, R555, R656: a line is held again and queues a fault; after a takeover no line changes. -/
def failLine (n detail : Nat) (s : State) : State :=
  let s := raise false kBringUp n fReleaseFail (if (lineGuards s n).isEmpty then 0 else 1) detail s
  lineLost n (modLine n (fun l => { l with run := l.run && s.mir.site, acked := false, timedOut := true }) s)

/-- R550, R554, R555: a line of the plan times out, or its package fails, which counts as that; one of phase 2 halts a bring-up that stands there. A
line that had acknowledged and falls halts nothing (log 63). -/
def timeOutLine (n detail : Nat) (s : State) : State :=
  let s := failLine n detail s
  onlyIf ((lineEntry s n).phase == 2 && s.brup.phase == 2) (fun t =>
    raise false kBringUp n fBrupHalt 0 n (t.modBrup (fun b => { b with halted := true }))) s

/-! ### Node packages (R555, R556) -/

/-- R555: the header region of a package. -/
def packageHeader (s : State) (n : Nat) : Bytes := flashBytes s (lineEntry s n).flashOffset 8192

/-- R555: whether a package's layout can be loaded: its fixed fields, its length and its address. -/
def packageForm (h : Bytes) : Bool :=
  slice h 0 8 == ascii "KFL-NPKG" && fieldLe h 8 2 == 1 && fieldLe h 11 1 == 0 && 1 ≤ fieldLe h 16 4 && fieldLe h 16 4 ≤ 2 ^ 31 &&
    fieldLe h 20 4 == 0 && fieldLe h 24 8 % 64 == 0 && 64 ≤ fieldLe h 24 8 && slice h 80 48 == zeros 48 && slice h 7571 621 == zeros 621

/-- R555: the body of a package. -/
def packageBody (s : State) (n : Nat) : Bytes := flashBytes s ((lineEntry s n).flashOffset + 8192) (fieldLe (packageHeader s n) 16 4)

/-- R555: the checks of a package that has been streamed. -/
def packageOk (s : State) (n : Nat) : Bool :=
  let h := packageHeader s n
  sha3_384 (slice h 128 2720) == s.brup.nodeKeyId && hybVerify (slice h 128 2720) (h.take 128) (slice h 2848 4723) &&
    sha3_384 (packageBody s n) == slice h 32 48 && fieldLe h 10 1 == n && (lineEntry s n).minSvn ≤ fieldLe h 12 4

/-- R556: the release token of a broadcast line. -/
def releaseToken (s : State) (n : Nat) : Bytes :=
  let h := packageHeader s n
  ascii "KFL-RTOK" ++ leBytes 1 n ++ zeros 7 ++ vecBytes 4 s.att.bootCount ++ slice h 16 4 ++ slice h 32 40

/-- R422: NODE_LOG extended by a released unit. -/
def extendLog (n : Nat) (digest : Bytes) (s : State) : State :=
  s.modAtt (fun a => { a with nodeLog := sha3_384 (a.nodeLog ++ leBytes 2 n ++ digest), logEntries := (a.logEntries ++ [(n, digest)]).take 64 })

/-- R551: a line is released. -/
def releaseLine (n : Nat) (s : State) : State :=
  modLine n (fun l => { l with run := true, acked := false, timedOut := false, releasedAt := s.timer }) s

/-- R549, R553: whether a line of the plan waits to be released: its phase has come, it is held, and nothing has failed. -/
def linePending (s : State) (n : Nat) : Bool :=
  let l := s.line n
  let e := lineEntry s n
  !(lineEntries s n).isEmpty && e.phase ≤ s.brup.phase && !l.run && !l.timedOut &&
    (e.firmware || e.phase != 5 || (s.brup.plan.filter (fun x => x.phase == 5 && x.broadcast)).all (fun x => (s.line x.line).acked))

/-- R555, R556: the next package is streamed into node memory, behind its token where its line is a broadcast line. A package that cannot be
loaded fails at once. -/
def loadPackage (n : Nat) (s : State) : State :=
  let h := packageHeader s n
  let b := (lineEntry s n).broadcast
  let a := fieldLe h 24 8 - (if b then 64 else 0)
  let bs := (if b then releaseToken s n else []) ++ packageBody s n
  if !packageForm h ∨ dmaBeyond a bs.length then timeOutLine n 2 s
  else
    let r := dmaWrite (.package n) a bs s
    r.2.modBrup (fun x => { x with package := some (n, r.1) })

/-- R549, R553, R555: lines that wait are released, those with firmware after their package, one package at a time. `fuel` bounds the
packages that fail at once. A halt holds the lines of later phases, whose phase does not come (R550). -/
def pumpLines : Nat → State → State
  | 0, s => s
  | fuel + 1, s =>
    if s.mir.site || s.tamper.latch then s
    else
      let ns := (List.range 64).filter (linePending s)
      let s := forEach (ns.filter (fun n => !(lineEntry s n).firmware)) releaseLine s
      match s.brup.package, ns.find? (fun n => (lineEntry s n).firmware) with
      | none, some n => pumpLines fuel (loadPackage n s)
      | _, _ => s

/-- R549: whatever the present phase allows is released. -/
def bringOn (s : State) : State := pumpLines 65 s

/-- R555, R633: the package being streamed has failed. -/
def packageFailed (n work : Nat) (s : State) : State :=
  bringOn (timeOutLine n 2 (dmaEnd work (s.modBrup (fun b => { b with package := none }))))

/-- PACKAGE_VERIFIED (R422, R549, R553 to R556): a package has been streamed whole: it is checked, and its line released with NODE_LOG extended, or
held. -/
def execPackageVerified (s : State) : Out :=
  done (whenUp s fun s =>
    match s.brup.package with
    | none => s
    | some (n, work) =>
      if !dmaWhole s work then s
      else if !packageOk s n then packageFailed n work s
      else
        let d := sha3_384 ((packageHeader s n).take 128)
        bringOn (extendLog n d (releaseLine n (dmaEnd work (s.modBrup (fun b => { b with package := none }))))))

/-! ### Phases (R549, R550) -/

/-- R549: a line has raised its acknowledgement or timed out. -/
def lineOver (s : State) (n : Nat) : Bool := (s.line n).acked || (s.line n).timedOut

/-- R549, R553: a phase 5 line that a broadcast line which timed out holds for good. -/
def lineBarred (s : State) (n : Nat) : Bool :=
  !(lineEntry s n).firmware && s.brup.plan.any (fun e => e.phase == 5 && e.broadcast && (s.line e.line).timedOut)

/-- R549: whether a line serves only tier-2 guards, which continue in the background. -/
def lineTier2 (s : State) (n : Nat) : Bool := !(lineGuards s n).isEmpty && (lineGuards s n).all (fun g => !isStack g)

/-- R549: whether the present phase has ended. -/
def phaseEnded (s : State) : Bool :=
  match s.brup.phase with
  | 1 => s.brup.findings.isEmpty
  | 2 => (phaseLines s 2).all (fun n => (s.line n).acked)
  | 3 => (phaseLines s 3).all (fun n => lineOver s n || lineTier2 s n) && (allGuards.filter isStack).all (guardSettled s)
  | 4 => (phaseLines s 4).all (lineOver s)
  | 5 => (phaseLines s 5).all (fun n => lineOver s n || lineBarred s n)
  | _ => false

/-- PHASE_ADVANCE (R549, R550, R553, R561): the present phase has ended and the lines of the next are released. -/
def execPhaseAdvance (s : State) : Out :=
  done (whenUp s (onlyIf (ksUp s && !s.brup.halted && !s.mir.site && phaseEnded s) (fun s =>
    bringOn (reserve (s.modBrup (fun b => { b with phase := b.phase + 1 }))))))

/-- R549, R550, R575: bring-up goes on at the first phase that had not ended; the lines of a halted phase are released again. -/
def resumeBringUp (s : State) : State :=
  let again := (phaseLines s 2).filter (fun n => s.brup.phase == 2 && (s.line n).timedOut)
  let s := forEach again (fun n => modLine n (fun l => { l with timedOut := false })) s
  bringOn (s.modBrup (fun b => { b with phase := if b.phase = 0 then 1 else b.phase, halted := s.mir.site && b.phase < 6 }))

/-! ### Acknowledgements and timeouts (R551, R554, R559, R656) -/

/-- REL_UP (R551, R553, R559, R655, R656): four samples agree that a unit is up. A released line counts as acknowledged; for a memory line the seal
sweep of every guard it names starts. -/
def execRelUp (line : Fin 64) (s : State) : Out :=
  done (whenUp s fun s =>
    let n := line.toNat
    let l := s.line n
    let s := modLine n (fun x => { x with up := true }) s
    if !l.run ∨ l.acked ∨ s.tamper.latch ∨ s.mir.site then s
    else
      let s := modLine n (fun x => { x with acked := true, timedOut := false }) s
      bringOn (reserve (forEach (lineGuards s n) startSeal s)))

/-- REL_UP_FALL (R554, R558, R655, R656): four samples agree that a unit that was up is no longer. In phase 2 this halts nothing (log 63). -/
def execRelUpFall (line : Fin 64) (s : State) : Out :=
  done (whenUp s fun s =>
    let n := line.toNat
    let l := s.line n
    let s := modLine n (fun x => { x with up := false }) s
    if !l.run ∨ !l.up ∨ s.tamper.latch then s else bringOn (failLine n 1 s))

/-- RELEASE_TIMEOUT (R550, R554): a released line has not raised rel_up within its TIMEOUT. A phase 2 line halts bring-up. -/
def execReleaseTimeout (line : Fin 64) (s : State) : Out :=
  done (whenUp s fun s =>
    let n := line.toNat
    let l := s.line n
    if !l.run ∨ l.acked ∨ l.timedOut ∨ s.tamper.latch then s
    else bringOn (timeOutLine n 1 (reachTime (l.releasedAt + (lineEntry s n).timeout * 10000) s)))

/-! ### Seal sweeps (R559 to R561) -/

/-- R26: the lines behind a guard. -/
def guardLines (g : Nat) : Nat := if isStack g then 72 * 10 ^ 9 / 64 else 768 * 10 ^ 9 / 64

/-- SEAL_SWEEP_END (R169, R170, R559 to R561): the initial seal sweep of a guard ends and the guard serves. Which line it wrote last is open (log 8).
Where the guard has no one-time key, one is drawn and sent again. -/
def execSealSweepEnd (g : Fin 40) (s : State) : Out :=
  done (whenUp s fun s =>
    let n := g.toNat
    let x := s.guard g
    if x.sweep.sealNext.isNone ∨ !x.canSweep then s
    else match x.sweep.key with
      | none => startSeal n s
      | some k =>
        let a := s.free % 2 ^ 42
        let c := sealLine k a 0 0
        let s := driveBeat n true a c.1 c.2 s
        reserve (s.modGuard n (fun y => { y with
          service := .serving, page := y.page.shareNow,
          sweep := { y.sweep with sealNext := none, key := none, lines := y.sweep.lines + BitVec.ofNat 64 (guardLines n) } })))

/-! ### Self-tests and findings (R562 to R570) -/

/-- R566: the first eight good positions of a bank. -/
def goodLanes (bad : BitVec 9) : BitVec 9 :=
  BitVec.ofNat 9 ((((List.range 9).filter (fun i => !bitAt bad i)).take 8).map (2 ^ ·)).sum

/-- BANK_TEST_PASS (R562, R564 to R566, R573, R690): the guard's test of its next bank passes and the bank joins; with the first the guard leaves reset, which
it does with no request left in flight (log 32). -/
def execBankTestPass (g : Fin 40) (bank : Nat) (s : State) : Out :=
  done (whenUp s fun s =>
    let n := g.toNat
    let x := s.guard g
    let next := (List.range x.banks.length).find? (fun b => !(x.bankN b).tested && !(x.bankN b).excluded)
    let d := s.dieN (n / 10)
    if next ≠ some bank ∨ !d.laneRun ∨ !d.guardGood ∨ s.ports.broken ∨ s.tamper.latch ∨ (!x.inReset ∧ x.banks.all (fun b => !b.tested)) ∨
        (x.inReset ∧ !(x.reqs.isEmpty && x.rsps.isEmpty)) then s
    else
      let s := s.modGuard n Guard.noteThrottle
      let s := modBank n bank (fun b =>
        let act := goodLanes b.bad
        { b with tested := true, active := act, spareUsed := bitAt act 8, lastKat := List.replicate 9 s.timer }) s
      onlyIf x.inReset (leaveReset n) s)

/-- UNIT_SELF_TEST_PASS (R370, R562, R563, R565): a unit of the security core, named by its class of R567 times 1,024 plus its index, passes its
self-test and joins; a digest core also passes one that firmware has asked for. -/
def execUnitSelfTestPass (unit : Nat) (s : State) : Out :=
  done (whenUp s fun s =>
    let i := unit % 1024
    onlyIf ((s.brup.unitsLeft.contains unit || (unit / 1024 == 6 && bitAt s.dig.testing i)) && coreRuns s) (fun s =>
      let s := s.modBrup (fun b => { b with unitsLeft := b.unitsLeft.filter (· != unit) })
      match unit / 1024 with
      | 5 => s.modMower (fun m => { m with lanes := setBit m.lanes i true, joined := setBit m.joined i true })
      | 6 => s.modDig (fun d =>
        let d := { d with testing := setBit d.testing i false }
        if i < 2 then { d with sha2Cores := setBit d.sha2Cores i true } else { d with kecCores := setBit d.kecCores (i - 2) true })
      | 7 => s.modIngest (fun u => { u with gcmLanes := setBit u.gcmLanes i true })
      | _ => s) s)

/-- R27: the guard of a unit address. -/
def guardOfUnit (u : Nat) : Nat := u / 8192 * 10 + u / 512 % 16

/-- R566, R570: a unit found bad by its start-time test is excluded. -/
def exclude (d : Defect) (s : State) : State :=
  let g := guardOfUnit d.unit
  match d.cls with
  | 1 =>
    let b := d.unit / 64 % 8
    let out (k : Bank) : Bank := { k with bad := BitVec.allOnes 9, active := 0, excluded := true }
    if d.unit % 4 = 0 then s.modGuard g (fun x => { x with banks := x.banks.map out })
    else if d.unit % 4 = 1 then modBank g b out s
    else modBank g b (fun k =>
      let bad := setBit k.bad (d.unit / 4 % 16) true
      { k with bad := bad, active := setBit k.active (d.unit / 4 % 16) false, excluded := k.excluded || bad == BitVec.allOnes 9 }) s
  | 2 => s.modGuard g (fun x => { x with cache := { x.cache with rowsOut := (x.cache.rowsOut.filter (· != d.index)) ++ [d.index] } })
  | 3 => s.modBoot (fun b => { b with excluded := setBit b.excluded d.index true })
  | 4 => pkOut (d.index == 1) 4 s
  | 5 => s.modMower (fun m => { m with lanes := setBit m.lanes d.index false })
  | 6 => onlyIf (!bitAt s.dig.coreOut d.index) (raise false kDigest d.index fDigCore 4 0) (s.modDig (fun x => { x with
      testing := setBit x.testing d.index false, coreOut := setBit x.coreOut d.index true, sha2Cores := if d.index < 2 then setBit x.sha2Cores d.index false else x.sha2Cores,
      kecCores := if d.index < 2 then x.kecCores else setBit x.kecCores (d.index - 2) false }))
  | _ => s.modIngest (fun u => { u with gcmLanes := setBit u.gcmLanes d.index false })

/-- START_TIME_FINDING (R370, R563, R565, R566, R569, R570): a start-time test ends with a unit found bad, named as a defect record names it: it is excluded,
and the finding, of a unit not already recorded, is queued; one beyond the 64 that the queue shows waits behind it (R262). A guard in service
with no bank left is lost (R22, R571). A digest core that fails a test which firmware has asked for is excluded without a finding. -/
def execStartTimeFinding (kind : BitVec 4) (unit sub : BitVec 16) (s : State) : Out :=
  done (whenUp s fun s =>
    let d : Defect := { cls := kind.toNat, unit := if kind.toNat ≤ 2 then canonUnit unit.toNat else unit.toNat, index := sub.toNat, site := 3 ≤ kind.toNat && s.mir.site }
    if !defectExists d ∨ (defects s).contains d ∨ s.tamper.latch then s
    else
      let asked := d.cls == 6 && bitAt s.dig.testing d.index && !s.brup.unitsLeft.contains (d.cls * 1024 + d.index)
      let s := (exclude d s).modBrup (fun b => { b with unitsLeft := b.unitsLeft.filter (· != d.cls * 1024 + d.index) })
      let s := onlyIf (d.cls == 1) (lostIfDown (guardOfUnit d.unit)) s
      onlyIf (!asked) (queueFinding d) s)

/-- R569: the oldest finding leaves the queue; as unrecorded it is counted and queues a fault. -/
def popFinding (unrec : Bool) (s : State) : State :=
  match s.brup.findings with
  | [] => s
  | f :: fs =>
    let s := s.modBrup (fun b => { b with findings := fs })
    onlyIf unrec (fun s => raise false kBringUp 0 fDefectUnrecorded 4 (findingWord s f).toNat
      (s.modBrup (fun b => { b with unrecorded := satInc b.unrecorded }))) s

/-- R581: a write of BRUP_NEW_CTL; with both bits set POP comes first (log 63). -/
def newCtlWrite (value : BitVec 32) (s : State) : State :=
  onlyIf (bitAt value 1) (popFinding true) (onlyIf (bitAt value 0) (popFinding false) s)

/-- POP (R569, R581): the oldest finding is removed as recorded. -/
def execPop (p : Path) (value : BitVec 32) (s : State) : Out :=
  done (onlyIf (bitAt value 0) (writeAt true p (brupPage + 0x58) (newCtlWrite value)) s)

/-- UNRECORDED (R569, R581): the oldest finding is removed as unrecorded. -/
def execUnrecorded (p : Path) (value : BitVec 32) (s : State) : Out :=
  done (onlyIf (bitAt value 1 && !bitAt value 0) (writeAt true p (brupPage + 0x58) (newCtlWrite value)) s)

/-! ### Bring-up actions (R461, R572 to R576) -/

/-- R27, R461, R572: why an action on a guard is refused: a nonzero ARG or a reserved level or guard index, then a unit that is no guard. BANK and LANE of an
address at guard level are ignored. -/
def guardActionRefused (body : Bytes) : Option (BitVec 8) :=
  let u := actionUnit body
  if actionArg body ≠ 0 ∨ u % 4 = 3 ∨ 9 < u / 512 % 16 then some eReserved
  else if u % 4 ≠ 0 ∨ !unitExists u then some eRange
  else none

/-- R572: the ACTION codes of bring-up, and those that no chapter defines, which the first action's row refuses. -/
def firstAction (a : Nat) : Bool := a == 1 || !((2 ≤ a && a ≤ 6) || (0x40 ≤ a && a ≤ 0x5F))

/-- GUARD_RESET (R461, R572, R573): one guard is reset. A reserved ACTION is refused here. -/
def execGuardReset (sess : Nat) (tag : BitVec 32) (body : Bytes) (s : State) : Out :=
  actionRow (firstAction (actionOf body)) sess tag body (fun w s =>
    if actionOf body ≠ 1 then refuse w eReserved s
    else match guardActionRefused body with
      | some c => refuse w c s
      | none => settle (reply w eOk (enterReset (guardOfUnit (actionUnit body)) s))) s

/-- SECTION_RESET (R461, R572, R574): a die section is reset. -/
def execSectionReset (sess : Nat) (tag : BitVec 32) (body : Bytes) (s : State) : Out :=
  actionRow (actionOf body == 2) sess tag body (fun w s =>
    let u := actionUnit body
    if actionArg body ≠ 0 ∨ u % 8192 ≠ 0 then refuse w eReserved s
    else if 4 ≤ u / 8192 then refuse w eRange s
    else reply w eOk (sectionReset (u / 8192) s)) s

/-- GUARD_FENCE (R107, R461, R572): one guard is fenced. -/
def execGuardFence (sess : Nat) (tag : BitVec 32) (body : Bytes) (s : State) : Out :=
  actionRow (actionOf body == 3) sess tag body (fun w s =>
    match guardActionRefused body with
    | some c => refuse w c s
    | none => settle (reply w eOk (fenceGuard false true (guardOfUnit (actionUnit body)) s))) s

/-- R543, R572: the package being sent to a line that is held is dropped. -/
def dropPackage (n : Nat) (s : State) : State :=
  match s.brup.package with
  | some (k, work) => if k = n then dmaEnd work (s.modBrup (fun b => { b with package := none })) else s
  | none => s

/-- R554, R572: the guards that a held memory line names are fenced. -/
def holdGuards (n : Nat) (s : State) : State :=
  forEach (lineGuards s n) (fun g t => (fenceGuard false true g t).modGuard g (fun x => { x with service := .held })) s

/-- UNIT_HOLD (R461, R554, R572, R656): a release line is held; every guard a memory line names is fenced first. -/
def execUnitHold (sess : Nat) (tag : BitVec 32) (body : Bytes) (s : State) : Out :=
  actionRow (actionOf body == 4) sess tag body (fun w s =>
    let n := actionArg body
    if actionUnit body ≠ 0 then refuse w eReserved s
    else if 63 < n then refuse w eRange s
    else if s.mir.site then refuse w eState s
    else
      let s := holdGuards n (dropPackage n s)
      let s := forEach (lineLinks s n) unqualify (modLine n (fun l => { l with run := false, acked := false, timedOut := true }) s)
      settle (bringOn (reply w eOk (reserve s)))) s

/-- UNIT_RELEASE (R461, R553 to R555, R572, R656): a held line of the plan is released, its firmware verified again. A line that runs, that the plan does
not have, or whose phase has not come is refused (log 63). -/
def execUnitRelease (sess : Nat) (tag : BitVec 32) (body : Bytes) (s : State) : Out :=
  actionRow (actionOf body == 5) sess tag body (fun w s =>
    let n := actionArg body
    if actionUnit body ≠ 0 then refuse w eReserved s
    else if 63 < n then refuse w eRange s
    else if s.mir.site ∨ (lineEntries s n).isEmpty ∨ (s.line n).run ∨ s.brup.phase < (lineEntry s n).phase then refuse w eState s
    else bringOn (reply w eOk (modLine n (fun l => { l with timedOut := false }) s))) s

/-- CORE_RESET (R461, R572, R575, R613): the security core is reset 10 ms after the response. -/
def execCoreReset (sess : Nat) (tag : BitVec 32) (body : Bytes) (s : State) : Out :=
  actionRow (actionOf body == 6) sess tag body (fun w s =>
    if actionUnit body ≠ 0 ∨ actionArg body ≠ 0 then refuse w eReserved s
    else scheduleReset (reply w eOk s)) s

/-! ### The fingerprint samples (R577 to R579) -/

/-- R183, R578: a sample is requested; the head sends a PULSE at once, at which it is latched. -/
def requestSample (s : State) : State :=
  if fpWaiting s then s
  else onlyIf s.head.attached (fun t => headAll .pulse (fpAtPulse t)) (s.modBrup (fun b => { b with fpSample := true }))

/-- FP_SAMPLE (R578, R581). -/
def execFpSample (p : Path) (value : BitVec 32) (s : State) : Out :=
  done (writeAt true p (brupPage + 0x5C) (onlyIf (bitAt value 0) requestSample) s)

/-- FINGERPRINT_SAMPLE_INTERVAL (R578): the key service requests a sample. -/
def execFingerprintSampleInterval (s : State) : Out := done (whenUp s (onlyIf (ksUp s) requestSample))

/-- R579: a guard whose snapshot differs from the reference is fenced and named. -/
def fpMismatch (ref : BitVec 32) (g : Nat) (s : State) : State :=
  let snap := s.brup.fpSnap.toList.getD g 0
  raise true kGuard (unitGuard g) fFpMismatch 1 (snap.toNat + ref.toNat * 2 ^ 32) (fenceGuard true true g s)

/-- R578, R579: the comparison of a sample: the stops that have not latched queue a ring fault and their guards count as mismatched. -/
def compareFp (seq : BitVec 16) (ref : BitVec 32) (s : State) : State :=
  let late := fpLate s
  let bad := allGuards.filter (fun g => !late.contains (g / 10) && s.brup.fpSnap.toList.getD g 0 != 0 && s.brup.fpSnap.toList.getD g 0 != ref)
  let all := allGuards.filter (fun g => bad.contains g || late.contains (g / 10))
  let s := forEach late (fun d t => raise true kDie d fFpNoLatch 0x21 seq.toNat (fenceAll true (guardsOf d) t)) s
  let s := forEach bad (fpMismatch ref) s
  settle (((s.modDies (fun _ d => { d with fpPend := false })).modKs (fun k => { k with fpRef := none })).modBrup (fun b => { b with
    fpMismatched := all.length, fpFirst := all.headD 0, fpNoLatch := !late.isEmpty, fpValid := true,
    fpRecent := b.fpRecent || !all.isEmpty }))

/-- FINGERPRINT_COMPARE (R578, R579): every stop has latched and the snapshots are compared. -/
def execFingerprintCompare (s : State) : Out :=
  done (whenUp s fun s =>
    match s.ks.fpRef with
    | none => s
    | some (seq, ref) => if !(fpLate s).isEmpty then s else compareFp seq ref s)

/-- FP_NO_LATCH (R579): 20 µs have passed since the PULSE of the sample and a stop has not latched. -/
def execFpNoLatch (s : State) : Out :=
  done (whenUp s fun s =>
    match s.ks.fpRef with
    | none => s
    | some (seq, ref) => if (fpLate s).isEmpty then s else compareFp seq ref (reachTime (s.ks.fpAt + 20) s))

/-! ### Link reports (R557, R558, R654) -/

/-- R654: the LINK of the four words of a report. -/
def reportLink (w0 : BitVec 32) : Nat := w0.toNat % 64

/-- R654: the bits tested. -/
def reportBits (w1 w2 : BitVec 32) : Nat := w1.toNat + w2.toNat % 2 ^ 16 * 2 ^ 32

/-- R557: the counts of a link qualify it. -/
def qualifies (bits errors : Nat) : Bool := 3 * 10 ^ 12 ≤ bits && errors * 10 ^ 12 ≤ bits

/-- LINK_REPORT (R557, R558, R654): the four words of a link controller's report are taken. A new training makes the link unqualified at once; the counts
since it, which the report carries, decide whether the link is qualified (log 63). -/
def execLinkReport (w0 w1 w2 w3 : BitVec 32) (s : State) : Out :=
  done (whenUp s (onlyIf (!s.tamper.latch) (fun s =>
    let n := reportLink w0
    let s := onlyIf (bitAt w0 8) (unqualify n) s
    s.modBrup (fun b => { b with links := vmod b.links n (fun _ => {
      qualified := qualifies (reportBits w1 w2) w3.toNat, bits := reportBits w1 w2, errors := w3.toNat }) }))))

end Sys2Proof.Machine
end

