-- ==== Sys2Proof/Machine/Der.lean ====
section
/-!
DEFINITION. The DER encoding and the certificates of R419, as X.690, RFC 5280, ITU-T X.509 and the TCG DICE attestation architecture lay them out, which
the rule names without restating (log 10).
-/

namespace Sys2Proof.Machine
open Sys2Proof

/-! ### Encoding -/

/-- X.690: the bytes of a number, most significant first, without leading zeros. `fuel` bounds their number. -/
def minBytes : Nat → Nat → Bytes
  | 0, _ => []
  | fuel + 1, n => if n = 0 then [] else minBytes fuel (n / 256) ++ [BitVec.ofNat 8 n]

/-- X.690: the length octets of a value. -/
def derLen (n : Nat) : Bytes :=
  if n < 128 then [BitVec.ofNat 8 n]
  else
    let b := minBytes 8 n
    BitVec.ofNat 8 (128 + b.length) :: b

/-- X.690: a value under a tag. -/
def der (tag : BitVec 8) (content : Bytes) : Bytes := tag :: derLen content.length ++ content

/-- SEQUENCE of encoded members. -/
def derSeq (parts : List Bytes) : Bytes := der 0x30 parts.flatten

/-- A non-negative INTEGER given by its bytes, most significant first. -/
def derIntBytes (bs : Bytes) : Bytes :=
  let t := bs.dropWhile (· == 0)
  der 0x02 (if t = [] ∨ bitAt (t.getD 0 0) 7 then 0 :: t else t)

/-- A non-negative INTEGER. -/
def derInt (n : Nat) : Bytes := derIntBytes (beBytes 48 n)

/-- BIT STRING of whole bytes. -/
def derBits (bs : Bytes) : Bytes := der 0x03 (0 :: bs)

/-- OCTET STRING. -/
def derOctets (bs : Bytes) : Bytes := der 0x04 bs

/-- X.690: an arc of an object identifier in groups of seven bits, all but the last marked. `fuel` bounds their number. -/
def arcBytes : Nat → Nat → Bytes
  | 0, _ => []
  | fuel + 1, n => if n < 128 then [BitVec.ofNat 8 n] else (arcBytes fuel (n / 128)).map (· ||| 0x80#8) ++ [BitVec.ofNat 8 (n % 128)]

/-- OBJECT IDENTIFIER of arcs. -/
def derOid (arcs : List Nat) : Bytes :=
  der 0x06 (((40 * arcs.getD 0 0 + arcs.getD 1 0) :: arcs.drop 2).flatMap (arcBytes 5))

/-! ### Reading -/

/-- X.690: the value at the front of a string: its tag, its content, and what follows it. -/
def derTake (bs : Bytes) : Option (BitVec 8 × Bytes × Bytes) :=
  match bs with
  | tag :: l :: rest =>
    let k := l.toNat - 128
    let n := if l.toNat < 128 then l.toNat else beNat (rest.take k)
    let body := if l.toNat < 128 then rest else rest.drop k
    if (128 ≤ l.toNat ∧ (k = 0 ∨ 4 < k)) ∨ body.length < n then none else some (tag, body.take n, body.drop n)
  | _ => none

/-- The values that a content holds, each with its tag. `fuel` bounds their number. -/
def derItems : Nat → Bytes → List (BitVec 8 × Bytes)
  | 0, _ => []
  | fuel + 1, bs =>
    match derTake bs with
    | none => []
    | some (t, c, rest) => (t, c) :: derItems fuel rest

/-- The members of a constructed value's content. -/
def derMembers (content : Bytes) : List (BitVec 8 × Bytes) := derItems 64 content

/-! ### Certificates (R418, R419) -/

/-- What the block reads of a certificate: its serial number, issuer, validity, subject and subject public key, each with its tag, and its extensions. -/
def certFields (cert : Bytes) : List (BitVec 8 × Bytes) :=
  match derTake cert with
  | some (_, c, _) => (derMembers ((derMembers c).head?.elim [] Prod.snd)).filter (fun f => f.1 != 0xA0)
  | none => []

/-- The notBefore of a certificate as it stands there, where it has one. -/
def certNotBefore (cert : Bytes) : Option Bytes :=
  ((certFields cert)[3]?).bind (fun v => ((derMembers v.2).head?).map (fun t => der t.1 t.2))

/-- The subject of a certificate as it stands there, where it has one. -/
def certSubject (cert : Bytes) : Option Bytes := ((certFields cert)[4]?).map (fun t => der t.1 t.2)

/-- The bits of a SubjectPublicKeyInfo's content. -/
def keyBits (info : Bytes) : Bytes := (((derMembers info)[1]?).map (fun k => k.2.drop 1)).getD []

/-- The extension of a certificate with an object identifier: the bytes of its value. -/
def certExtension (cert : Bytes) (oid : List Nat) : Option Bytes :=
  let exts := (((certFields cert).find? (fun f => f.1 == 0xA3)).bind (fun f => derTake f.2)).elim [] (fun s => derMembers s.2.1)
  (exts.find? (fun e => (derMembers e.2).head?.any (fun o => der o.1 o.2 == derOid oid))).bind (fun e => (derMembers e.2).getLast?.map Prod.snd)

/-- id-ce-subjectAltPublicKeyInfo, id-ce-altSignatureAlgorithm and id-ce-altSignatureValue of ITU-T X.509. -/
def oidAlt (k : Nat) : List Nat := [2, 5, 29, 72 + k]

/-- ML-DSA-87 (R419). -/
def oidMldsa : List Nat := [2, 16, 840, 1, 101, 3, 4, 3, 19]

/-- R418: the two subject public keys of a certificate, in the encoding of a hybrid public key (R320). -/
def certKeys (cert : Bytes) : Bytes :=
  let ec := (((certFields cert)[5]?).map (fun k => keyBits k.2)).getD []
  let alt := (((certExtension cert (oidAlt 0)).bind derTake).map (fun k => keyBits k.2.1)).getD []
  padTo 128 ec ++ alt

/-- An algorithm identifier without parameters. -/
def derAlg (oid : List Nat) : Bytes := derSeq [derOid oid]

/-- ecdsa-with-SHA384. -/
def oidEcdsa : List Nat := [1, 2, 840, 10045, 4, 3, 3]

/-- An extension. -/
def derExt (oid : List Nat) (critical : Bool) (value : Bytes) : Bytes :=
  derSeq [derOid oid, if critical then der 0x01 [0xFF] else [], derOctets value]

/-- A name of a common name and a serial number. -/
def derName (cn serial : Bytes) : Bytes :=
  derSeq [der 0x31 (derSeq [derOid [2, 5, 4, 3], der 0x0C cn]), der 0x31 (derSeq [derOid [2, 5, 4, 5], der 0x13 serial])]

/-- The SubjectPublicKeyInfo of an ECDSA P-384 point. -/
def ecKeyInfo (point : Bytes) : Bytes := derSeq [derSeq [derOid [1, 2, 840, 10045, 2, 1], derOid [1, 3, 132, 0, 34]], derBits point]

/-- R419: a key identifier: the first 20 bytes of the digest over a hybrid public key. -/
def keyIdentifier (pub : Bytes) : Bytes := (sha3_384 pub).take 20

/-- The 16 hexadecimal digits of a number of 64 bits, as characters. -/
def hexDigits (n : Nat) : Bytes :=
  (List.range 16).map (fun i =>
    let d := n / 16 ^ (15 - i) % 16
    BitVec.ofNat 8 (if d < 10 then 0x30 + d else 0x37 + d))

/-- R419: what the alias certificate states. -/
structure AliasFacts where
  /-- subject of the device certificate -/
  issuer : Bytes
  /-- notBefore of the device certificate -/
  notBefore : Bytes
  /-- die identifier of the part -/
  dieId : Nat
  /-- hybrid public key of the device -/
  devPub : Bytes
  /-- hybrid public key of the alias -/
  pub : Bytes
  /-- FW_DIGEST -/
  fw : Bytes
  /-- SVN -/
  svn : Nat
  /-- DEBUG -/
  debug : Bool
deriving DecidableEq, Repr

/-- R419: the tcg-dice-TcbInfo of the alias: layer 1, FW_DIGEST under SHA-384, the security version, and the flag debug where DEBUG is 0x01. -/
def tcbInfo (f : AliasFacts) : Bytes :=
  derSeq [der 0x83 ((derTake (derInt f.svn)).elim [] (fun t => t.2.1)), der 0x84 [1],
    der 0xA6 (derSeq [derOid [2, 16, 840, 1, 101, 3, 4, 2, 2], derOctets f.fw]),
    if f.debug then der 0x87 [4, 0x10] else []]

/-- R419: the extensions of the alias certificate but for its alternative signature: basicConstraints, keyUsage, tcg-dice-TcbInfo, the two key identifiers
and the alternative key and signature algorithm. -/
def aliasExtensions (f : AliasFacts) : List Bytes :=
  [derExt [2, 5, 29, 19] true (derSeq []), derExt [2, 5, 29, 15] true (der 0x03 [7, 0x80]), derExt [2, 23, 133, 5, 4, 1] false (tcbInfo f),
    derExt [2, 5, 29, 14] false (derOctets (keyIdentifier f.pub)), derExt [2, 5, 29, 35] false (derSeq [der 0x80 (keyIdentifier f.devPub)]),
    derExt (oidAlt 0) false (derSeq [derAlg oidMldsa, derBits (f.pub.drop 128)]), derExt (oidAlt 1) false (derAlg oidMldsa)]

/-- R293, R419: the serial number: the first 20 bytes of the alias KEY_ID, its top bit cleared. -/
def aliasSerial (f : AliasFacts) : Bytes :=
  match (sha3_384 (f.pub.take 97 ++ f.pub.drop 128)).take 20 with
  | [] => []
  | b :: bs => (b &&& 0x7F#8) :: bs

/-- R419: the TBSCertificate of the alias with the signature algorithm and extensions given; without the algorithm it is the preTbsCertificate. -/
def aliasTbs (f : AliasFacts) (alg : Bytes) (exts : List Bytes) : Bytes :=
  derSeq [der 0xA0 (derInt 2), derIntBytes (aliasSerial f), alg, f.issuer, derSeq [f.notBefore, der 0x18 (ascii "99991231235959Z")],
    derName (ascii "Kufeli Brordor Alias") (hexDigits f.dieId), ecKeyInfo (f.pub.take 97), der 0xA3 (derSeq exts)]

/-- FIPS 204: the representative of a message under a public key with an empty context string (R419). -/
def plainMu (pq msg : Bytes) : Bytes := shake256 (shake256 pq 64 ++ [0, 0] ++ msg) 64

/-- R419: the alias certificate, signed with the device's P-384 scalar `d`, ECDSA secret number `k`, ML-DSA-87 seed and 32 random bytes: the alternative
signature over the preTbsCertificate, then the ECDSA signature with SHA-384 over the whole. -/
def aliasCertificate (f : AliasFacts) (d k : Nat) (seed rnd : Bytes) : Bytes :=
  let exts := aliasExtensions f
  let pre := aliasTbs f [] exts
  let alt := mldsaSign 87 seed (plainMu (mldsaPublic 87 seed) pre) rnd
  let tbs := aliasTbs f (derAlg oidEcdsa) (exts ++ [derExt (oidAlt 2) false (derBits alt)])
  let rs := p384.sign d k (sha384 tbs)
  derSeq [tbs, derAlg oidEcdsa, derBits (derSeq [derInt rs.1, derInt rs.2])]

end Sys2Proof.Machine
end

