-- ==== Sys2Proof/Machine/Boot.lean ====
section
/-!
DEFINITION. Boot (R36, R37, R412 to R421, R465 to R503, R510, R540 to R545, R592, R688): the start of the management cores, the ROM flow,
handover and release, FINALISED, the cairn, updates.
-/

namespace Sys2Proof.Machine
open Sys2Proof

/-- The boot page (R682). -/
def bootPage : Nat := 0x10000

/-- R510: a write of another initiator than a management core is dropped and counted. -/
def bootWrite (off : Nat) (p : Path) (k : State → State) (s : State) : State :=
  writeOwned p (bootPage + off) (isCore p) (State.modBoot (fun b => { b with foreign := satInc b.foreign })) k s

/-! ### Start of the cores (R465 to R467) -/

/-- BOOT_VALID (R465 to R467, R566): the lockstep self-tests have ended, with the cores of `passing` good, and the shadows are valid. The lowest core
that passed and is not marked runs the ROM; the others that passed halt, a marked one for good. Where none passes, no core runs. -/
def execBootValid (passing : BitVec 4) (s : State) : Out :=
  done (whenUp s (onlyIf (s.fuse.sensed && !s.boot.bootValid && s.boot.cores.toList.all (· == .romWait)) (fun s =>
    let passed := (List.range 4).filter (bitAt passing)
    let good := passed.filter (fun c => !marked s 3 c && !bitAt s.boot.excluded c)
    match good with
    | [] => s.modBoot (fun b => { b with cores := Vector.replicate 4 .reset })
    | c :: _ => s.modBoot (fun b => { b with
        bootCore := c, bootValid := true,
        excluded := BitVec.ofNat 4 (((List.range 4).filter (fun k => !good.contains k)).map (2 ^ ·)).sum,
        cores := vmapIdx b.cores (fun k _ => if k = c then .rom else if passed.contains k then .halted else .reset) }))))

/-! ### Keys the ROM derives (R412 to R416, R472, R526, R540) -/

/-- R413, R414: the values of a hybrid pair out of 96 derived bytes. -/
def pairBytes (k : Bytes) : Bytes × Bytes := (beBytes 48 (toScalar p384.n (k.take 64)), slice k 64 32)

/-- R413, R416: a hybrid pair filled into two slots; `parent` is the word that names a source slot. -/
def fillPair (n owner : Nat) (parent : BitVec 32) (k : Bytes) (s : State) : State :=
  fillSlot (n + 1) (setBit (mkAttr 6 5 2 false false owner) 14 true + parent) (pairBytes k).2
    (fillSlot n (mkAttr 4 5 2 false false owner + parent) (pairBytes k).1 s)

/-- R412, R413, R472, R526: ROM_DIGEST and slots 0, 1, 4, 5 and 7. -/
def romKeys (s : State) : State :=
  let rom := sha3_384 Config.romImage
  let uds := deviceSecret s
  let s := s.modAtt (fun a => { a with romDigest := rom })
  let s := s.modFuse (fun f => { f with noIdentity := lifeCycle s ≤ 2 && !regionSealed s 1 })
  let s := fillPair 0 1 0 (kmac256 uds rom 96 (ascii "KFL-DICE-DEVID")) s
  let s := fillSlot 4 (mkAttr 2 5 2 false false 2) (kmac256 uds [] 48 (ascii "KFL-IMAGE-KEY")) s
  let s := fillSlot 5 (mkAttr 1 3 2 false false 4) (kmac256 uds [] 32 (ascii "KFL-BLOB-KEY")) s
  fillSlot 7 (mkAttr 1 3 2 false false 4) (kmac256 uds [] 32 (ascii "KFL-MIRROR-KEY")) s

/-- R415, R416: slot 8, then slots 2 and 3. -/
def aliasKeys (svn : Nat) (s : State) : State :=
  let x := padTo 48 s.att.romDigest ++ padTo 48 s.att.fwDigest ++ leBytes 4 svn ++ leBytes 1 (lifeCycle s) ++ leBytes 1 (bitNat 0 s.fuse.inForce)
  let cdi := kmac256 (deviceSecret s) x 32 (ascii "KFL-DICE-CDI1")
  fillPair 2 2 (BitVec.ofNat 32 (8 * 2 ^ 16 + 2 ^ 22)) (kmac256 cdi [] 96 (ascii "KFL-DICE-ALIAS")) (fillSlot 8 (mkAttr 3 4 2 false false 2) cdi s)

/-- R545: a debug unlock armed for this boot comes into force; it is armed no longer. -/
def debugPass (s : State) : State :=
  let on := s.fuse.dbgArm && s.fuse.dbgBoot == s.att.bootCount
  s.modFuse (fun f => { f with inForce := on, dbgArm := false, dbgBoot := 0, dbgScope := if on then f.dbgScope else 0 })

/-- R320: the hybrid public key of a pair of slots. -/
def pairPublic (s : State) (n : Nat) : Bytes := publicOf .hybrid (padTo 48 (s.anchor n).value ++ padTo 32 (s.anchor (n + 1)).value)

/-- R418, R471: the device certificate of the boot flash. -/
def deviceCert (s : State) : Bytes := (flashCerts s).getD 2 []

/-- R415, R419: what the alias certificate states of the running image; where the flash holds no device certificate, its issuer and notBefore are
open (log 8). -/
def aliasFacts (svn : Nat) (s : State) : AliasFacts :=
  { issuer := (certSubject (deviceCert s)).getD (s.freeBytes 16), notBefore := (certNotBefore (deviceCert s)).getD (s.freeBytes 15),
    dieId := (dieId s).toNat, devPub := pairPublic s 0, pub := pairPublic s 2, fw := padTo 48 s.att.fwDigest, svn := svn, debug := s.fuse.inForce }

/-- R417, R419, R688: the device identity is shown, and the alias certificate signed with slots 0 and 1; the random parts of the two signatures are
open (log 8). -/
def certify (svn : Nat) (s : State) : State :=
  let cert := aliasCertificate (aliasFacts svn s) (beNat (padTo 48 (s.anchor 0).value)) (beNat (s.freeBytes 48) % (p384.n - 1) + 1)
    (padTo 32 (s.anchor 1).value) (s.used.freeBytes 32)
  ((s.modPorts (fun p => { p with devidPub := pairPublic s 0, devidValid := true })).modAtt (fun a => { a with aliasCert := cert })).used.used

/-! ### The ROM flow (R486 to R488, R502, R504, R540, R542) -/

/-- R486, R502: what the candidates tried before the first usable one leave in REASON: a slot that failed to load, or one below the cairn. -/
def triedReason (s : State) (cs : List Candidate) : Nat :=
  let has (b : Bool) : Bool := cs.any (fun c => c.slotB == b)
  let below (b : Bool) : Bool := has b && headerOk s (slotHeader s b) && belowCairn s b
  bitNat 0 (has false && !below false) + bitNat 1 (has true && !below true) + bitNat 5 (below false) + bitNat 6 (below true)

/-- R480, R486: the attempt bit of a trial candidate is cleared in its record. -/
def markAttempt (c : Candidate) (s : State) : State :=
  match c.record with
  | some r => if c.kind = 2 then flashProgram (r.place + 56) [~~~ BitVec.ofNat 8 (2 ^ r.used)] s else s
  | none => s

/-- R502: the 256 bytes of the handover record. -/
def handoverBytes (s : State) : Bytes :=
  let h := s.boot.handover
  ascii "KFL-HOVR" ++ leBytes 2 1 ++ [if h.slotB then 1 else 0, h.kind, h.attempt] ++ leBytes 1 s.boot.bootCore ++ vecBytes 2 h.reason ++
    vecBytes 4 s.att.bootCount ++ leBytes 4 s.boot.image.svn ++ vecBytes 4 h.cairn ++ vecBytes 4 h.commitSeq ++ padTo 48 s.att.romDigest ++
    padTo 48 s.att.fwDigest ++ vecBytes 4 h.certLen ++ vecBytes 4 h.romTime ++ zeros 120

/-- R486, R501, R502: a usable candidate: its attempt bit and the counter record are written, the later keys derived, the alias certificate signed and
the handover record left. -/
def romLoad (c : Candidate) (reason : Nat) (s : State) : State :=
  let h := slotHeader s c.slotB
  let img := imageOf h
  let used := (c.record.map CommitRec.used).getD 0
  let s := markAttempt c s
  let body := slotBody s c.slotB
  let w := countWrite s.att.bootCount.toNat s
  let s := w.2.modAtt (fun a => { a with fwDigest := fwDigestOf h })
  let s := certify img.svn (aliasKeys img.svn s)
  let s := s.modBoot (fun b => { b with
    image := img, imageBytes := h ++ body,
    handover := {
      slotB := c.slotB, kind := BitVec.ofNat 8 c.kind, attempt := if c.kind = 2 then BitVec.ofNat 8 (used + 1) else 0,
      reason := BitVec.ofNat 16 (reason + bitNat 7 w.1), commitSeq := BitVec.ofNat 32 ((c.record.map CommitRec.seq).getD 0),
      cairn := BitVec.ofNat 32 (cairn s), romTime := BitVec.ofNat 32 s.free, certLen := BitVec.ofNat 32 s.att.aliasCert.length } })
  (s.modBoot (fun b => { b with left := handoverBytes s ++ s.att.aliasCert })).used

/-- R502, R504: no candidate loads: the recovery loader opens. -/
def openRecovery (reason : Nat) (s : State) : State :=
  s.modBoot (fun b => { b with recovery := { opened := true }, handover := { reason := BitVec.ofNat 16 reason } })

/-- R470, R650: the ROM raises xspi_rst_n, and after 50 µs brings the flash to 8D-8D-8D mode where its SFDP tables are there and the switch succeeds. -/
def flashUp (octal : Bool) (s : State) : State :=
  (reachTime (s.timer + 50) (s.modPorts (fun p => { p with xspiRst := true }))).modPorts (fun p => { p with flashOctal := octal })

/-- R486: the ROM flow from its keys on. -/
def romFlow (octal : Bool) (s : State) : State :=
  let s := flashUp octal (romKeys s)
  let s := debugPass (s.modAtt (fun a => { a with bootCount := BitVec.ofNat 32 (((countTop s).map Prod.fst).getD 0 + 1) }))
  let rs := commits s
  let cs := candidates s
  let base := bitNat 2 (recorded rs).2 + bitNat 3 rs.isEmpty + bitNat 4 (!octal)
  let tried := cs.takeWhile (fun c => !slotUsable s c.slotB)
  match cs.find? (fun c => slotUsable s c.slotB) with
  | some c => romLoad c (base + triedReason s tried) s
  | none => openRecovery (base + triedReason s tried) s

/-- ROM_BOOT (R412 to R420, R465, R470, R472, R484, R486 to R488, R502, R504, R540, R542, R545, R650, R688): the boot core runs the ROM. `octal` tells whether
the flash has its SFDP tables and the switch of its mode succeeds. A fatal part runs no image and opens no loader; a decommissioned one derives no key and
only answers on the recovery port. -/
def execRomBoot (octal : Bool) (s : State) : Out :=
  done (whenUp s (onlyIf (s.boot.bootValid && s.boot.cores.toList.getD s.boot.bootCore .reset == .rom && s.boot.handover.kind == 0 &&
      !s.boot.recovery.opened && !s.tamper.latch) (fun s =>
    if lifeCycle s = 4 then openRecovery 0 (s.modAtt (fun a => { a with romDigest := sha3_384 Config.romImage }))
    else if s.fuse.fatal then s.modAtt (fun a => { a with romDigest := sha3_384 Config.romImage })
    else romFlow octal s)))

/-! ### Handover and release (R418, R466, R485, R501, R592) -/

/-- R418: whether the device certificate's keys differ from the device identity. -/
def certDiffers (s : State) : Bool := certKeys (deviceCert s) != s.ports.devidPub

/-- R188, R559, R575, R616: what the key service takes up again once it runs: stops without their tables, seal sweeps that were running, and region
lists still to be read. -/
def startService (s : State) : State :=
  let s := forEach (List.range 4) (fun d t => onlyIf (!(t.dieN d).inReset && (t.dieN d).synced != 7 && !t.ks.held.contains d) (startSync d) t) s
  let s := forEach allGuards (fun g t =>
    onlyIf ((t.guardN g).service == .sweeping && (t.guardN g).sweep.sealNext.isNone) (startSeal g) t) s
  forEach s.ks.doms (fun r t =>
    onlyIf ((r.state == .sweeping || r.state == .tearSweep) && r.swCount != 0 && r.regions.isEmpty && !r.reading)
      (readRegions (.resume r.id) r.id r.swAddr r.swCount) t) s

/-- BOOT_HANDOVER (R279, R417, R418, R428, R485, R501, R549, R553, R592): the boot core writes the image's ENTRY while the ROM is readable: the ROM is locked,
slots 0 and 1 and the UDS shadow are wiped, and firmware runs. A later write is dropped. -/
def execBootHandover (p : Path) (value : BitVec 32) (s : State) : Out :=
  done (bootWrite 0x38 p (fun s =>
    let c := s.boot.bootCore
    if s.boot.romLocked ∨ s.boot.handover.kind = 0 ∨ !(match p with
        | .core k => k.toNat == c
        | .port _ _ => false) ∨ value ≠ s.boot.image.entry then s
    else
      let h := s.boot.handover
      let s := wipeUds (clearSlot 1 (clearSlot 0 s))
      let s := s.modBoot (fun b => { b with
        romLocked := true, entry := value, slotB := h.slotB, kind := h.kind.extractLsb' 0 2, attempt := h.attempt.extractLsb' 0 2,
        runSvn := BitVec.ofNat 32 b.image.svn, cores := vmod b.cores c (fun _ => .running), wdogArmed := setBit b.wdogArmed c true,
        wdogDue := vmod b.wdogDue c (fun _ => s.timer + 10000) })
      let s := s.modAtt (fun a => { a with certMismatch := certDiffers s })
      settle (kexSetup (resumeBringUp (startService (countKeep (takePlan (s.boot.imageBytes.drop 16384) s)))))) s)

/-- BOOT_RELEASE (R466, R592): halted cores whose bits are written start at BOOT_SEC_ENTRY. An excluded core never leaves halt. -/
def execBootRelease (p : Path) (value : BitVec 32) (s : State) : Out :=
  done (bootWrite 0x30 p (fun s =>
    let cs := [1, 2, 3].filter (fun c => bitAt value c && s.boot.cores.toList.getD c .reset == .halted && !bitAt s.boot.excluded c)
    s.modBoot (fun b => { b with
      cores := vmapIdx b.cores (fun c m => if cs.contains c then .running else m),
      wdogArmed := cs.foldl (fun a c => setBit a c true) b.wdogArmed,
      wdogDue := vmapIdx b.wdogDue (fun c t => if cs.contains c then s.timer + 10000 else t) })) s)

/-! ### FINALISED and BOOT_CTL (R489, R490, R493) -/

/-- R489, R490: before FINALISED is set a trial image's final record is appended. -/
def finalise (s : State) : State :=
  let s := onlyIf (s.boot.kind == 2 && !s.boot.finalised &&
      !((commits s).find? (fun r => r.slotB == s.boot.slotB)).any (fun r => r.isFinal)) (commitAppend s.boot.slotB true s.boot.runSvn.toNat) s
  s.modBoot (fun b => { b with finalised := true })

/-- R510: a write of BOOT_CTL. -/
def bootCtlWrite (value : BitVec 32) (s : State) : State :=
  onlyIf (bitAt value 1) coreReset (onlyIf (bitAt value 0 && coreRuns s) finalise s)

/-- FINALISED (R489, R490, R510). -/
def execFinalised (p : Path) (value : BitVec 32) (s : State) : Out := done (onlyIf (bitAt value 0) (bootWrite 0x3C p (bootCtlWrite value)) s)

/-- BOOT_CTL_CORE_RESET (R493, R510, R575). -/
def execBootCtlCoreReset (p : Path) (value : BitVec 32) (s : State) : Out :=
  done (onlyIf (bitAt value 1 && !bitAt value 0) (bootWrite 0x3C p (bootCtlWrite value)) s)

/-! ### The cairn (R495 to R500) -/

/-- R498 step 1: where the other slot holds no image adopted at SVN `t` or more, the running image is adopted there. -/
def copyOwn (t : Nat) (s : State) : State :=
  let other := !s.boot.slotB
  if slotUsable s other && t ≤ (imageOf (slotHeader s other)).svn then s
  else adopt other (s.boot.imageBytes.take 16384) (s.boot.imageBytes.drop 16384) s

/-- R497: the refusal of a cairn raise. -/
def raiseRefused (s : State) (t : Nat) : Option (BitVec 8) :=
  if !s.boot.finalised ∨ lifeCycle s = 1 ∨ 4 ≤ lifeCycle s ∨ s.fuse.op.isSome ∨ s.boot.updateBusy then some eState
  else if t ≤ cairn s ∨ s.boot.runSvn.toNat < t ∨ 128 < t then some eRange
  else none

/-- R497, R510: a write of BOOT_CAIRN_CMD by its owner. -/
def cairnCmdWrite (value : BitVec 32) (s : State) : State :=
  let t := bitsOf value 7 0
  let s' := s.modBoot (fun b => { b with cairnTarget := BitVec.ofNat 8 t })
  if !bitAt value 31 then s'
  else if s.boot.cairnBusy then s
  else match raiseRefused s t with
    | some c => s'.modBoot (fun b => { b with cairnValid := true, cairnResult := c })
    | none => (copyOwn t (s'.modBoot (fun b => { b with cairnBusy := true }))).modFuse (fun f => { f with op := some (.cairn t) })

/-- CAIRN_RAISE (R495 to R498, R510, R535): a raise to TARGET is requested; firmware first keeps a usable image in the other slot. -/
def execCairnRaise (p : Path) (value : BitVec 32) (s : State) : Out := done (onlyIf (bitAt value 31) (bootWrite 0x40 p (cairnCmdWrite value)) s)

/-- R499: a bit of the cairn that does not read burned at both references. -/
def cairnWeak (s : State) (i : Nat) : Bool :=
  let x := s.fuseWord (40 + i / 64)
  !(bitAt x.norm (i % 64) && bitAt x.tight (i % 64))

/-- R499: a bit is burned, or fails: it reads 0 at the tight reference, and at the normal one it is open (log 8). -/
def burnBit (i : Nat) (ok : Bool) (s : State) : State :=
  let m : BitVec 72 := BitVec.ofNat 72 (2 ^ (i % 64))
  if ok then burn (40 + i / 64) m m s else (burn (40 + i / 64) (if Config.freeBit s.freeCtr then m else 0) 0 s).used

/-- CAIRN_RAISE_END (R495, R499, R520): every bit below T has had its pulses; `failed` lists the bits that do not verify. Those below T - 1 are
counted and queue a fault; where bit T - 1 fails the raise ends E_BURN. -/
def execCairnRaiseEnd (failed : List Nat) (s : State) : Out :=
  done (whenUp s fun s =>
    match s.fuse.op with
    | some (.cairn t) =>
      let bits := (List.range t).filter (cairnWeak s)
      let bad := bits.filter (fun i => failed.contains i)
      let s := senseOne 41 (senseOne 40 (forEach bits (fun i => burnBit i (!bad.contains i)) s))
      let skip := bad.filter (· + 1 < t)
      let s := forEach skip (fun i => raise false kFuse (40 + i / 64) fCairnSkip 0 i) s
      (s.modFuse (fun f => { f with op := none })).modBoot (fun b => { b with
        cairnBusy := false, cairnValid := true, cairnResult := if bad.any (· + 1 == t) then 0x30 else 0,
        cairnSkipped := BitVec.ofNat 7 skip.length })
    | _ => s)

/-! ### Updates (R491 to R493, R633) -/

/-- R491: an update ends without adoption. -/
def updateRefused (code : BitVec 8) (s : State) : State :=
  match s.boot.update with
  | none => s
  | some u => refuse u.waiter code (dmaEnd u.work (s.modBoot (fun b => { b with update := none, updateBusy := false })))

/-- R491: the header region of an image has been read: its reserved fields, the state and its other fields are checked, and the body is read. -/
def updateHeader (u : Update) (h : Bytes) (s : State) : State :=
  let img := imageOf h
  if headerReserved h then updateRefused eReserved s
  else if !s.boot.finalised ∨ s.boot.cairnBusy ∨ 0xFFFFFFFE < nextCommitSeq s then updateRefused eState s
  else if !headerFields h ∨ img.svn < cairn s then updateRefused eRange s
  else
    let a := ((s.dma.work u.work).map (fun w => w.2.1)).getD 0
    let r := dmaRead .image (a + 16384) img.bodyLen (dmaEnd u.work s)
    r.2.modBoot (fun b => { b with update := some { u with work := r.1, header := h, headerDone := true } })

/-- R491, R492: the body of an image has been read: it is programmed into the other slot without its tags, and checked against the vendor's key and
signature. -/
def updateBody (u : Update) (body : Bytes) (s : State) : State :=
  let s := programImage (!s.boot.slotB) u.header body s
  if !vendorOk s u.header body then updateRefused eAuth s
  else (dmaEnd u.work s).modBoot (fun b => { b with update := some { u with image := body } })

/-- R491, R633: the DMA work of an update has been answered whole. -/
def updateRead (s : State) : State :=
  match s.boot.update with
  | none => s
  | some u =>
    if !dmaWhole s u.work then s
    else if u.headerDone then updateBody u (dmaBytes s u.work) s
    else updateHeader u (dmaBytes s u.work) s

/-- IMAGE_UPDATE (R461, R491): the operator asks for the adoption of an image in node memory. The reserved codes of the image range are refused
here. -/
def execImageUpdate (sess : Nat) (tag : BitVec 32) (body : Bytes) (s : State) : Out :=
  actionRow (0x40 ≤ actionOf body && actionOf body ≤ 0x4F) sess tag body (fun w s =>
    if actionOf body ≠ 0x40 ∨ actionUnit body ≠ 0 then refuse w eReserved s
    else if s.boot.updateBusy then refuse w eState s
    else
      let r := dmaRead .image (actionArg body * 65536) 16384 s
      r.2.modBoot (fun b => { b with updateBusy := true, update := some { waiter := w, work := r.1 } })) s

/-- IMAGE_ADOPTED (R491 to R493, R613): an image that has passed its checks is given its tags and a trial record, the operator is answered and the reset
follows. `flashOk` tells whether every flash operation succeeded; one that finds clk_xspi stopped does not (R659). -/
def execImageAdopted (flashOk : Bool) (s : State) : Out :=
  done (whenUp s fun s =>
    match s.boot.update with
    | none => s
    | some u =>
      if u.image = [] then s
      else if !flashOk then updateRefused eBusy s
      else
        let other := !s.boot.slotB
        let s := commitAppend other false (imageOf u.header).svn (programTags other u.image s)
        scheduleReset (reply u.waiter eOk (s.modBoot (fun b => { b with update := none, updateBusy := false }))))

end Sys2Proof.Machine
end

