-- ==== Sys2Proof/Machine/Mirror.lean ====
section
/-!
DEFINITION. The mirror port while the security core of die 0 is active (R421, R468, R601, R605 to R614, R647): the session, its frames, the
acknowledgements that let a change take effect, and the standby core's copy.
-/

namespace Sys2Proof.Machine
open Sys2Proof

/-- R608: what a STORE frame carries of a domain: its record and entries, and the sweep reference in SWEEPING or TEARDOWN_SWEEP. -/
def mirrored (r : DomRec) : DomRec :=
  let sweeps := r.state == .sweeping || r.state == .tearSweep
  { r with regions := [], reading := false, visited := 0, failed := 0, notSwept := 0, oldRetiring := r.state == .retiringOld,
           swAddr := if sweeps then r.swAddr else 0, swCount := if sweeps then r.swCount else 0 }

/-! ### The bytes of a frame (R607, R608) -/

/-- R174, R232: a placement entry in the format of a region list. -/
def Region.bytes (r : Region) : Bytes := leBytes 6 r.first ++ leBytes 1 r.guard ++ zeros 1 ++ leBytes 8 r.count

/-- R294: the 64 bytes of a domain's record; that of a FREE one holds only its ID. -/
def recordBytes (id : Nat) : Option DomRec → Bytes
  | none => leBytes 2 id ++ zeros 62
  | some r =>
    leBytes 2 id ++ leBytes 1 r.state.code ++ leBytes 1 r.mode.code ++ leBytes 1 (bitNat 0 r.scratch + bitNat 1 r.lost + bitNat 2 r.closing) ++ zeros 3 ++
      padTo 48 (r.owner.getD []) ++ vecBytes 4 r.newest ++ zeros 4

/-- R295: the generation entry at a place, zeros where it is not live. -/
def placeBytes (p : Nat) (r : DomRec) : Bytes :=
  match r.gens.find? (fun e => e.gen.toNat % 2 == p) with
  | some e => e.bytes
  | none => zeros 128

/-- R608: the body of a STORE frame. -/
def storeBytes (id : Nat) (r : Option DomRec) : Bytes :=
  recordBytes id r ++ (match r with
    | none => zeros 272
    | some x => placeBytes 0 x ++ placeBytes 1 x ++ leBytes 8 (mirrored x).swAddr ++ leBytes 4 (mirrored x).swCount ++ zeros 4)

/-- R232: the record of a model domain. -/
def modelBytes (id : Nat) : Option ModelRec → Bytes
  | none => leBytes 2 id ++ zeros 134
  | some m =>
    leBytes 2 id ++ leBytes 1 m.custody.code ++ zeros 1 ++ vecBytes 4 m.grantSeq ++ leBytes 8 m.payload ++ padTo 32 m.ownerKeyId ++ padTo 48 m.ownerCred ++
      padTo 32 m.root ++ leBytes 2 m.placement.length ++ zeros 6 ++ m.placement.flatMap Region.bytes

/-- R599: the 32 bytes of a fault entry. -/
def FaultEntry.bytes (f : FaultEntry) : Bytes :=
  vecBytes 4 f.seq ++ leBytes 1 (if f.safety then 1 else 2) ++ leBytes 1 (f.kind.toNat + bitNat 4 f.site) ++ vecBytes 2 f.unit ++ vecBytes 2 f.code ++
  vecBytes 2 f.rep ++ vecBytes 1 f.reaction ++ zeros 3 ++ vecBytes 8 f.time ++ vecBytes 8 f.detail

/-- R608: the TYPE of a frame. -/
def FrameBody.code : FrameBody → Nat
  | .hello _ => 0x01
  | .heartbeat _ _ _ _ => 0x02
  | .store _ _ => 0x03
  | .model _ _ => 0x04
  | .readers _ _ => 0x05
  | .counters _ _ => 0x06
  | .image _ _ => 0x07
  | .hold _ => 0x08
  | .ack _ => 0x82

/-- R608: the body of a frame. -/
def FrameBody.bytes : FrameBody → Bytes
  | .hello w => w
  | .heartbeat t q b h => vecBytes 8 t ++ vecBytes 8 q ++ vecBytes 4 b ++ vecBytes 2 h ++ zeros 2
  | .store r id => storeBytes id r
  | .model r id => modelBytes id r ++ padTo 2720 ((r.map ModelRec.ownerPub).getD [])
  | .readers m ws => leBytes 2 m ++ zeros 2 ++ (List.range 128).flatMap (fun k => vecBytes 4 (alGet 0 ws ((m - 4096) * 128 + k)))
  | .counters b q => vecBytes 4 b ++ zeros 4 ++ vecBytes 8 q
  | .image o part => leBytes 4 o ++ part
  | .hold d => leBytes 4 d
  | .ack n => leBytes 8 n

/-- R607: the header of a frame. -/
def frameHeader (type len seq : Nat) : Bytes := leBytes 1 type ++ zeros 1 ++ leBytes 2 len ++ zeros 4 ++ leBytes 8 seq

/-- R606: the IV of a frame: direction, zeros, and SEQ. -/
def frameIv (dir : Byte) (seq : Nat) : Bytes := [dir, 0, 0, 0] ++ beBytes 8 seq

/-- R606, R607: a frame as it travels: with SEQ 0 in the clear and with a zero TAG, otherwise under the session key. -/
def frameWire (dir : Byte) (key : Bytes) (type seq : Nat) (body : Bytes) : Bytes :=
  let h := frameHeader type body.length seq
  if seq = 0 then h ++ body ++ zeros 16
  else
    let c := gcmCrypt key (frameIv dir seq) body
    h ++ c ++ gcmTag key (frameIv dir seq) h c

/-- R606, R607: the bytes of a frame in a direction. -/
def Frame.wire (dir : Byte) (key : Bytes) (f : Frame) : Bytes := frameWire dir key f.body.code f.seq f.body.bytes

/-! ### MIRROR_AUTH (R601, R606, R608) -/

/-- R593, R601: a fault of the standby core, kept until a STATUS frame carries it. -/
def standbyFault (safety : Bool) (kind unit code reaction detail : Nat) (s : State) : State :=
  s.modSby (fun y => { y with faults := y.faults ++ [{
    safety := safety, kind := BitVec.ofNat 4 kind, site := true, unit := BitVec.ofNat 16 unit, code := BitVec.ofNat 16 code,
    reaction := BitVec.ofNat 8 reaction, time := BitVec.ofNat 64 s.timer, detail := BitVec.ofNat 64 detail }] })

/-- R606, R620: the active core discards a frame that does not verify. -/
def mirrorAuth (seq : Nat) (s : State) : State :=
  raise false kMirror 0 fMirrorAuth 0 seq (s.modMir (fun m => { m with err := satInc m.err, mirrorRecent := true }))

/-! ### Sessions (R606, R609, R611) -/

/-- R609, R611: the frames of a full copy. -/
def fullCopy (s : State) : List FrameBody :=
  s.ks.doms.map (fun r => storeFrame s r.id) ++ s.ks.models.map (fun r => modelFrameOf s r.model) ++
    s.ks.models.map (fun r => readersFrame s r.model []) ++ [.counters s.att.bootCount s.att.quoteSeq] ++
    (chunks 8188 s.boot.imageBytes).zipIdx.map (fun p => .image (8188 * p.2) p.1)

/-- R297, R606, R611, R613: a session begins for the standby's fresh nonce: a session key is drawn, HELLO is sent, and the full copy follows. Nothing
waits for the standby until it is ready again. A DRBG that cannot serve, or not yet, begins no session. -/
def beginSession (s : State) : State :=
  if !drawNow s then s
  else match drawBytes 32 s with
  | (none, t) => t
  | (some k, t) =>
    let t := stopWaiting t
    let n := t.freeBytes 32
    let hello : Frame := { seq := 0, body := .hello (keyWrap (t.anchor 7).value (k ++ n)) }
    let t := (t.used.modSby (fun y => { y with nonce := n, session := false })).modMir (fun m => { m with
      session := true, key := k, txSeq := 1, lostAt := none, hold := false, resyncs := m.resyncs + 1, toStandby := [hello], toActive := [],
      lastStatus := t.timer, beatAt := t.timer })
    let t := forEach t.ks.doms (fun r => checkStore r.id) t
    forEach (fullCopy t) (fun f u => mirSend { frame := { body := f } } u) t

/-! ### Frames at the standby (R605 to R614) -/

/-- R606, R608, R611: the next frame on its way to the standby is taken by the command that names its type. One that does not verify, or that comes
without a session, is discarded and raises MIRROR_AUTH; one of an acknowledged type is acknowledged. A standby that has stopped takes no frame.
`wire` is the frame as it reaches the port: its TAG fails unless it is what was sent, sealed under the key that the standby holds (log 64). -/
def standbyFrame (mine : FrameBody → Bool) (acked : Bool) (wire : Bytes) (k : FrameBody → State → State) (s : State) : State :=
  match s.mir.toStandby with
  | [] => s
  | f :: fs =>
    if s.mir.site || !mine f.body then s
    else
      let s := s.modMir (fun m => { m with toStandby := fs })
      if !s.sby.alive then s
      else if wire != f.wire 0 s.sby.key || !s.sby.session then standbyFault false kMirror 0 fMirrorAuth 0 f.seq s
      else
        let s := k f.body s
        onlyIf acked (fun s =>
          (s.modMir (fun m => { m with toActive := m.toActive ++ [{ seq := s.sby.txSeq, body := .ack f.seq }] })).modSby
            (fun y => { y with txSeq := y.txSeq + 1 })) s

/-- MIRROR_HELLO (R468, R605, R606, R611, R613): HELLO reaches the standby. It accepts the key when the unwrap under its own slot 7 succeeds and the
nonce is its current one; it then discards its copy, and a HOLD ends. -/
def execMirrorHello (s : State) : Out :=
  done (whenUp s fun s =>
    match s.mir.toStandby with
    | ⟨_, .hello w⟩ :: fs =>
      if s.mir.site then s
      else
        let s := s.modMir (fun m => { m with toStandby := fs })
        let own := kmac256 (deviceSecret s) [] 32 (ascii "KFL-MIRROR-KEY")
        match keyUnwrap own w with
        | none => s
        | some b =>
          if !s.sby.alive || b.drop 32 != s.sby.nonce then s
          else s.modSby (fun y => { y with
            session := true, key := b.take 32, txSeq := 1, doms := [], models := [], readers := [], bootCount := 0, quoteSeq := 0, image := [],
            imageDone := false, copyDone := false, holdUntil := none, lastBeat := s.timer })
    | _ => s)

/-- MIRROR_HEARTBEAT (R614): a HEARTBEAT reaches the standby and its loss timer starts again. -/
def execMirrorHeartbeat (wire : Bytes) (s : State) : Out :=
  done (whenUp s (standbyFrame (fun b => match b with
    | .heartbeat _ _ _ _ => true
    | _ => false) false wire (fun _ s => s.modSby (fun y => { y with lastBeat := s.timer }))))

/-- STORE (R608 to R610): one domain's record and entries reach the standby. -/
def execStore (wire : Bytes) (s : State) : Out :=
  done (whenUp s (standbyFrame (fun b => match b with
    | .store _ _ => true
    | _ => false) true wire (fun b => State.modSby (fun y => match b with
      | .store (some r) _ => { y with doms := domInsert (mirrored r) y.doms }
      | .store none d => { y with doms := y.doms.filter (fun r => r.id != d) }
      | _ => y))))

/-- MODEL_FRAME (R608 to R610): a model domain's record reaches the standby. -/
def execModelFrame (wire : Bytes) (s : State) : Out :=
  done (whenUp s (standbyFrame (fun b => match b with
    | .model _ _ => true
    | _ => false) true wire (fun b => State.modSby (fun y => match b with
      | .model (some r) _ => { y with models := modelInsert r y.models }
      | .model none m => { y with models := y.models.filter (fun r => r.model != m) }
      | _ => y))))

/-- READERS (R608 to R610): a model domain's reader set reaches the standby. -/
def execReaders (wire : Bytes) (s : State) : Out :=
  done (whenUp s (standbyFrame (fun b => match b with
    | .readers _ _ => true
    | _ => false) true wire (fun b => State.modSby (fun y => match b with
      | .readers m ws => { y with readers := ws.foldl (fun t w => alPut 0 t w.1 w.2) (readerClear m y.readers) }
      | _ => y))))

/-- COUNTERS (R421, R608 to R610): BOOT_COUNT and QUOTE_SEQ reach the standby. -/
def execCounters (wire : Bytes) (s : State) : Out :=
  done (whenUp s (standbyFrame (fun b => match b with
    | .counters _ _ => true
    | _ => false) true wire (fun b => State.modSby (fun y => match b with
      | .counters c q => { y with bootCount := c, quoteSeq := q }
      | _ => y))))

/-- R468, R473: whether an image has come whole: its header region and the body its header gives. -/
def imageWhole (img : Bytes) : Bool := 16384 ≤ img.length && img.length == 16384 + (imageOf (img.take 16384)).bodyLen

/-- IMAGE (R468, R605, R608): a part of the running image reaches the standby. -/
def execImage (wire : Bytes) (s : State) : Out :=
  done (whenUp s (standbyFrame (fun b => match b with
    | .image _ _ => true
    | _ => false) true wire (fun b => State.modSby (fun y => match b with
      | .image o part =>
        let img := padTo o y.image ++ part ++ y.image.drop (o + part.length)
        { y with image := img, imageDone := imageWhole img }
      | _ => y))))

/-- HOLD (R613): a HOLD reaches the standby, which does not take over for its duration. -/
def execHold (wire : Bytes) (s : State) : Out :=
  done (whenUp s (standbyFrame (fun b => match b with
    | .hold _ => true
    | _ => false) true wire (fun b s => s.modSby (fun y => match b with
      | .hold d => { y with holdUntil := some (s.timer + d) }
      | _ => y))))

/-- HOLD_EXPIRY (R613, R614): a HOLD ends; the time without a HEARTBEAT is counted from here. -/
def execHoldExpiry (s : State) : Out :=
  done (whenUp s fun s =>
    match s.sby.holdUntil with
    | none => s
    | some t =>
      let s := reachTime t s
      (s.modSby (fun y => { y with holdUntil := none, lastBeat := s.timer })).modMir (fun m => { m with hold := false }))

/-! ### Frames at the active core (R601, R605, R606, R610, R611, R614) -/

/-- R614, R620: the active core sends a HEARTBEAT every 1 ms, and counts a millisecond without STATUS.
HEARTBEAT_INTERVAL (R614). -/
def execHeartbeatInterval (s : State) : Out :=
  done (whenUp s (onlyIf (s.mir.session && !s.mir.site && ksUp s) (fun s =>
    let s := reachTime (s.mir.beatAt + 1000) s
    s.modMir (fun m => { m with
      txSeq := m.txSeq + 1, beatAt := s.timer, missed := if m.statusSeen then m.missed else satInc m.missed, statusSeen := false,
      toStandby := m.toStandby ++
        [⟨m.txSeq, .heartbeat (BitVec.ofNat 64 s.timer) s.att.quoteSeq s.att.bootCount (s.head.seq - 1)⟩] }))))

/-- R605: the standby's READY. -/
def Standby.isReady (y : Standby) : Bool := y.selftest && y.imageDone && y.copyDone && !y.shadowStale

/-- R608: the body of a STATUS frame within a session: the flags and up to eight faults. -/
def statusBytes (y : Standby) : Bytes :=
  leBytes 1 (bitNat 0 y.isReady + bitNat 1 y.shadowStale + bitNat 2 y.selftest) ++ zeros 3 ++ (y.faults.take 8).flatMap FaultEntry.bytes

/-- STATUS (R601, R605, R606, R611, R612): a STATUS frame of the standby. Outside a session it has SEQ 0 and begins one; in a session it tells readiness,
and brings the standby's faults, up to eight, which are queued with SITE 1. A stale ring shadow is given the tables again. While the standby counts
as lost no session begins before its second is over. `wire` is the frame as it reaches the port; nothing protects one of SEQ 0, which is taken as it
was sent (log 64). -/
def execStatus (wire : Bytes) (s : State) : Out :=
  done (whenUp s (onlyIf (s.sby.alive && !s.mir.site && ksUp s) (fun s =>
    if !s.mir.session || !s.sby.session then (if s.mir.lostAt.isSome then s else beginSession s)
    else
      let seq := s.sby.txSeq
      let s := s.modSby (fun y => { y with txSeq := y.txSeq + 1 })
      if wire != frameWire 1 s.mir.key 0x81 seq (statusBytes s.sby) then mirrorAuth seq s
      else
        let fs := s.sby.faults.take 8
        let s := onlyIf (!s.tamper.cleared) (forEach fs (fun f => State.modFq (FaultQ.push f))) (s.modSby (fun y => { y with faults := y.faults.drop 8 }))
        let s := s.modMir (fun m => { m with ready := s.sby.isReady, stale := s.sby.shadowStale, statusSeen := true, lastStatus := s.timer })
        onlyIf (s.sby.shadowStale && !s.ks.held.contains 2 && !(s.dieN 2).inReset) (startSync 2) s)))

/-- R647: frames that waited behind sixteen unacknowledged ones are sent as places come free. -/
def mirPump (s : State) : State :=
  s.modMir (fun m =>
    let go := m.backlog.take (16 - m.unacked.length)
    { m with unacked := m.unacked ++ go.map (fun u => { u with sentAt := s.timer }), backlog := m.backlog.drop go.length, toStandby := m.toStandby ++ go.map Unacked.frame })

/-- R610: what an acknowledged frame held back goes on: broadcasts, completions, quote responses. -/
def releaseFrame (u : Unacked) (s : State) : State :=
  let s := forEach u.replies (fun r t => reply r.1 r.2 t) (forEach u.effect launch s)
  match u.batchSeq with
  | none => s
  | some q => releaseQuotes (modBatch q (fun b => { b with mirrored := true }) s)

/-- MIRROR_ACK (R605, R606, R610): an ACK frame reaches the active core, and the change carried by the frame it names takes effect. With the last of a
full copy the standby's copy is complete. -/
def execMirrorAck (wire : Bytes) (s : State) : Out :=
  done (whenUp s fun s =>
    match s.mir.toActive with
    | ⟨seq, .ack n⟩ :: fs =>
      let s := s.modMir (fun m => { m with toActive := fs })
      if s.mir.site || !s.mir.session then s
      else if wire != Frame.wire 1 s.mir.key ⟨seq, .ack n⟩ then mirrorAuth seq s
      else
        let us := s.mir.unacked.filter (fun u => u.frame.seq == n)
        let s := mirPump (s.modMir (fun m => { m with unacked := m.unacked.filter (fun u => u.frame.seq != n) }))
        let s := forEach us releaseFrame s
        settle (onlyIf (s.mir.unacked.isEmpty && s.mir.backlog.isEmpty && s.sby.session) (State.modSby (fun y => { y with copyDone := true })) s)
    | _ => s)

/-- R611: the standby counts as not ready; the active core stops waiting for it. -/
def loseStandby (detail : Nat) (s : State) : State :=
  stopWaiting (raise false kMirror 0 fStandbyLost 0 detail (s.modMir (fun m => { m with lostAt := some s.timer, stale := false })))

/-- R611: the frame whose 20 µs end first. -/
def firstDue (u : Unacked) (us : List Unacked) : Unacked := us.foldl (fun a b => if b.sentAt < a.sentAt then b else a) u

/-- MIRROR_ACK_TIMEOUT (R611): 20 µs have passed without the acknowledgement of a frame: it is sent once more, and after a further 20 µs the standby
counts as not ready. -/
def execMirrorAckTimeout (s : State) : Out :=
  done (whenUp s fun s =>
    match s.mir.unacked with
    | [] => s
    | u :: us =>
      if s.mir.site then s
      else
        let w := firstDue u us
        let s := reachTime (w.sentAt + 20) s
        if w.resent then loseStandby 2 s
        else s.modMir (fun m => { m with
          unacked := m.unacked.map (fun x => if x.frame.seq = w.frame.seq then { x with resent := true, sentAt := s.timer } else x),
          toStandby := m.toStandby ++ [w.frame] }))

/-- STANDBY_LOST (R611, R659): 2 ms have passed without a valid STATUS, as while clk_mir stops. -/
def execStandbyLost (s : State) : Out :=
  done (whenUp s (onlyIf (s.mir.session && !s.mir.site) (fun s => loseStandby 1 (reachTime (s.mir.lastStatus + 2000) s))))

/-- MIRROR_RESYNC (R611): a second after the standby was lost a new session with a full copy begins. -/
def execMirrorResync (s : State) : Out :=
  done (whenUp s fun s =>
    match s.mir.lostAt with
    | none => s
    | some t =>
      if s.mir.site then s
      else
        let s := raise false kMirror 0 fStandbyLost 0 4 ((reachTime (t + 1000000) s).modMir (fun m => { m with lostAt := none }))
        onlyIf (s.sby.alive && ksUp s) beginSession s)

end Sys2Proof.Machine
end

