-- ==== Sys2Proof/Machine/Failover.lean ====
section
/-!
DEFINITION. Failures of management cores, the fault queue's control, and the takeover (R37, R222, R281, R405, R421, R422, R428, R484, R589, R592, R593,
R595 to R597, R601, R614 to R618, R620, R648, R656).
-/

namespace Sys2Proof.Machine
open Sys2Proof

/-! ### The fault queue's control (R595 to R597, R619) -/

/-- The fault queue page (R682). -/
def fqPage : Nat := 0x13000

/-- R597: POP removes the entry with the lowest SEQ; the oldest held fault takes the place that came free. -/
def FaultQ.pop (q : FaultQ) : FaultQ :=
  match q.entries with
  | [] => q
  | _ :: es =>
    match q.latches with
    | [] => { q with entries := es }
    | l :: ls => ({ q with entries := es, latches := ls } : FaultQ).place l

/-- R596, R597, R619: a write of FQ_CTL. -/
def fqCtlWrite (value : BitVec 32) (s : State) : State :=
  s.modFq (fun q =>
    let q := if bitAt value 0 then q.pop else q
    if bitAt value 1 then { q with overflow := false, ovf := [] } else q)

/-- FQ_POP (R597, R619). -/
def execFqPop (p : Path) (value : BitVec 32) (s : State) : Out :=
  done (onlyIf (bitAt value 0) (writeAt true p (fqPage + 0x24) (fqCtlWrite value)) s)

/-- CLEAR_OVF (R596, R619). -/
def execClearOvf (p : Path) (value : BitVec 32) (s : State) : Out :=
  done (onlyIf (bitAt value 1 && !bitAt value 0) (writeAt true p (fqPage + 0x24) (fqCtlWrite value)) s)

/-! ### Watchdogs and core failures (R37, R358, R375, R589, R592, R593, R620) -/

/-- The failover page (R682). -/
def foPage : Nat := 0x14000

/-- R592, R620: a core restarts its own watchdog. -/
def restartWatchdog (p : Path) (s : State) : State :=
  match p with
  | .core c => onlyIf (bitAt s.boot.wdogArmed c) (State.modBoot (fun b => { b with wdogDue := vmod b.wdogDue c (fun _ => s.timer + 10000) })) s
  | .port _ _ => s

/-- FO_WDOG (R592, R620): a write of FO_WDOG, whatever its bits; of another initiator than a management core it is dropped. -/
def execFoWdog (p : Path) (_value : BitVec 32) (s : State) : Out :=
  done (writeOwned p (foPage + 0x24) (isCore p) id (restartWatchdog p) s)

/-- R465, R566: the standby's boot core: the lowest one that the defect record does not mark. -/
def standbyBootCore (s : State) : Nat :=
  ((List.range 4).find? (fun c => !(defects s).any (fun d => d.cls == 3 && d.index == c && d.site))).getD 0

/-- R593, R601, R611, R612: the standby resets its own security core; its ring shadow has to be built again, and what it has queued is still to be
sent. -/
def standbyReset (s : State) : State :=
  s.modSby (fun y => { alive := true, selftest := true, shadowStale := true, shadowSeq := y.shadowSeq, faults := y.faults, lastBeat := y.lastBeat })

/-- R589, R593: a core of the standby stops: its fault is kept for STATUS, and the standby resets itself. -/
def standbyCoreFails (code c : Nat) (s : State) : State :=
  onlyIf (s.sby.alive && !s.mir.site) (fun s =>
    standbyReset (standbyFault true kCore c code 8 (bitNat 0 (c == standbyBootCore s)) s)) s

/-- R37, R589: a core of the active security core halts. The key service goes on where it can; otherwise a ready standby is asked to take over, or the
security core is reset. -/
def coreFails (code c : Nat) (s : State) : State :=
  let boot := c == s.boot.bootCore
  let s := s.modBoot (fun b => { b with cores := vmod b.cores c (fun _ => .failed), wdogArmed := setBit b.wdogArmed c false })
  let s := digCoreReset c (pkCoreReset c s)
  let goOn := !boot && ksUp s
  let ask := !goOn && s.mir.ready && !s.mir.site
  let s := raise true kCore c code (if ask then 0x18 else 8) (bitNat 0 boot) s
  if goOn then s else if ask then s.modMir (fun m => { m with mirFail := true }) else coreReset s

/-- LOCKSTEP (R589): the two halves of a running management core differ, of the active or of the standby core. -/
def execLockstep (standby : Bool) (c : Fin 4) (s : State) : Out :=
  done (whenUp s (fun s =>
    if standby then standbyCoreFails fLockstep c s
    else onlyIf (s.boot.cores.get c).runs (coreFails fLockstep c) s))

/-- WATCHDOG (R592, R593): 10 ms have passed without a restart of a core's watchdog. -/
def execWatchdog (standby : Bool) (c : Fin 4) (s : State) : Out :=
  done (whenUp s (fun s =>
    if standby then standbyCoreFails fWatchdog c s
    else onlyIf ((s.boot.cores.get c).runs && bitAt s.boot.wdogArmed c) (fun s =>
      let s := (reachTime (s.boot.wdogDue.get c) s).modMir (fun m => { m with wdogRecent := true })
      coreFails fWatchdog c (s.modBoot (fun b => { b with wdogExpired := setBit b.wdogExpired c true }))) s))

/-! ### Loss of the active core (R613, R614, R648) -/

/-- R605, R613, R614: a ready standby, outside a HOLD, asserts mir_takeover. -/
def declareLost (s : State) : State :=
  onlyIf (s.sby.isReady && s.sby.holdUntil.isNone) (State.modMir (fun m => { m with mirTakeover := true })) s

/-- ACTIVE_CORE_LOST (R613, R614): 2 ms have passed without a valid HEARTBEAT outside a HOLD. -/
def execActiveCoreLost (s : State) : Out :=
  done (whenUp s (onlyIf (s.sby.alive && s.sby.session && s.sby.holdUntil.isNone && !s.mir.site) (fun s =>
    declareLost (reachTime (s.sby.lastBeat + 2000) s))))

/-- MIR_FAIL (R589, R614, R648): mir_fail reaches die 2. -/
def execMirFail (s : State) : Out :=
  done (whenUp s (onlyIf (s.mir.mirFail && s.sby.alive && !s.mir.site) declareLost))

/-! ### Takeover (R615, R616) -/

/-- R609, R612, R615 step 3: the units of the active core as the standby holds them: the shadow's tables, the mirrored records, and the ring from
the last message seen. -/
def takeTables (y : Standby) (s : State) : State :=
  { s with
    head := { attached := true, seq := y.shadowSeq + 1 },
    ks := { doms := y.doms, models := y.models.map (fun m => if m.custody == .keyHeld then { m with custody := .awaitingKey, jobUsed := false } else m),
            streams := y.shadowStreams, readers := y.shadowReaders, rot := y.shadowRot },
    mir := { site := true, takenOver := true, mirFail := s.mir.mirFail, mirTakeover := true, takeoverTime := satAdd 0 (s.timer - y.lastBeat) },
    sby := {}, fq := {}, dma := { nextWork := s.dma.nextWork }, ports := { s.ports with xspiSel := true } }

/-- R612, R615 step 3: the old head's messages that are still on their way to die 2, which all pass it before the new head attaches. -/
def oldOnWay (s : State) : List RingMsg := [2, 1, 0].flatMap (fun d => (s.dieN d).inbox.filter (fun m => m.src == 0xFE))

/-- R612: the ring shadow once those messages have passed. -/
def shadowCatchUp (s : State) (y : Standby) : Standby :=
  (oldOnWay s).foldl (fun y m => if m.seq = y.shadowSeq + 1 then shadowApply m y else y) y

/-- R28, R615 step 1 and step 3: the old messages on their way pass the stops ahead of the new head's first, and are removed on their return. -/
def rejoinRing (s : State) : State :=
  let old := oldOnWay s
  s.modDies (fun d x => if d = 3 then x else
    { x with inbox := x.inbox.filter (fun m => m.src != 0xFE) ++ (if d = 2 then old else []) })

/-- R588, R612, R615 step 1 and step 3: what the die-0 core leaves, with die 2's attachment point as the head and what it mirrored as the key
service's state. Frames without acknowledgement change nothing (R610). -/
def takePlace (y : Standby) (s : State) : State :=
  let y := shadowCatchUp s y
  let s := rejoinRing s
  let s := s.modMir (fun m => { m with unacked := [], backlog := [], session := false, ready := false })
  let s := freshCore (dropReads (interruptFuse (endSessions s)))
  takeTables y s

/-- R601, R615 step 7: the queue begins with TAKEOVER; faults the standby had not sent follow. -/
def takeFaults (y : Standby) (s : State) : State :=
  let s := raise true kMirror 0 fTakeover 0x10 (if s.mir.mirFail then 1 else 2) s
  forEach y.faults (fun f => State.modFq (FaultQ.push f)) s

/-- R405, R563, R565, R615 step 2: the entropy unit and the engines of die 2 are in service, but for units that the record marks; what die 2's DRBG
and reservoir hold is open (log 8), and the DRBG is reseeded from the reservoir before anything is served. -/
def takeUnits (s : State) : State :=
  let key := s.freeBytes 32
  let s := s.used
  let v := s.freeBytes 16
  let s := s.used
  let n := BitVec.ofNat 32 s.free
  let s := s.used
  let ok (c n : Nat) : Nat := ((List.range n).map (fun i => bitNat i (!marked s c i))).sum
  let out := BitVec.ofNat 4 ((List.range 4).map (fun i => bitNat i (marked s 6 i))).sum
  let pool := (s.freeBytes 256).flatMap (fun b => (List.range 8).map (fun i => bitAt b i))
  let s := s.used
  let s := s.modEnt (fun e => Ent.reseed { e with
    noise := .healthy, startLeft := 0, seeded := true, katPass := true, drbgKey := key, drbgV := v, reseeds := n, reservoir := pool })
  let s := s.modPk (fun k => { k with
    stDue := false, dpA := !marked s 4 0, dpB := !marked s 4 1, dpAOut := marked s 4 0, dpBOut := marked s 4 1 })
  let s := s.modDig (fun d => { d with coreOut := out, sha2Cores := ~~~ (out.extractLsb' 0 2), kecCores := ~~~ (out.extractLsb' 2 2) })
  let s := s.modMower (fun m => { m with lanes := BitVec.ofNat 32 (ok 5 32), joined := BitVec.ofNat 32 (ok 5 32) })
  let s := s.modIngest (fun u => { u with gcmLanes := BitVec.ofNat 8 (ok 7 8) })
  drawContextKey (s.modBrup (fun b => { b with unitsLeft := [] }))

/-- R37, R465, R592: the management cores of die 2 run, but for those that the record marks, each under its watchdog. -/
def takeCores (s : State) : State :=
  let good := (List.range 4).filter (fun c => !marked s 3 c)
  let bits := BitVec.ofNat 4 (good.map (2 ^ ·)).sum
  s.modBoot (fun b => { b with
    bootCore := good.headD 0, bootValid := true, romLocked := true, excluded := ~~~ bits, wdogArmed := bits,
    wdogDue := Vector.replicate 4 (s.timer + 10000), cores := vmapIdx b.cores (fun c _ => if good.contains c then .running else .reset) })

/-- R468, R510: the mirrored image is the running one, in the slot of the boot flash that holds its header, of the kind its record there gives. -/
def takeImage (img : Bytes) (s : State) : State :=
  let h := img.take 16384
  let slotB := slotHeader s true == h && slotHeader s false != h
  let rec' := (commits s).find? (fun r => r.slotB == slotB)
  let s := s.modBoot (fun b => { b with
    image := imageOf h, imageBytes := img, entry := (imageOf h).entry, runSvn := BitVec.ofNat 32 (imageOf h).svn, slotB := slotB,
    kind := match rec' with
      | some r => if r.isFinal then 1 else 2
      | none => 3,
    attempt := match rec' with
      | some r => if r.isFinal then 0 else BitVec.ofNat 2 r.used
      | none => 0 })
  takePlan (img.drop 16384) (s.modAtt (fun a => { a with fwDigest := fwDigestOf h }))

/-- R412 to R420, R422, R468, R470, R484, R485, R615 steps 5 and 6: identity, counters and log of the new active core. Its debug registers are clear. Whether
die 2 has found the flash's SFDP tables is open (log 8). -/
def takeIdentity (y : Standby) (s : State) : State :=
  let s := s.modFuse (fun f => { f with sensed := true, dbgBoot := 0, dbgScope := 0, dbgArm := false, inForce := false })
  let s := s.modAtt (fun a => { a with
    bootCount := y.bootCount + 1, quoteSeq := y.quoteSeq, nodeLog := List.replicate 48 0xFF, logEntries := [], logLost := true })
  let svn := (imageOf (y.image.take 16384)).svn
  let s := certify svn (aliasKeys svn (takeImage y.image (romKeys s)))
  let s := wipeUds (clearSlot 1 (clearSlot 0 s))
  let s := s.modAtt (fun a => { a with certMismatch := certDiffers s })
  let s := (s.modPorts (fun p => { p with xspiRst := true, flashOctal := Config.freeBit s.freeCtr })).used
  countKeep (countWrite s.att.bootCount.toNat s).2

/-- R437, R610: a reader set whose mirrored copy differs from the ring shadow was changed by a request that counts as accepted: READER_SETs bring the
stops to it. -/
def fixReaders (y : Standby) (s : State) : State :=
  let words := (y.readers ++ y.shadowReaders).map Prod.fst |>.eraseDups
  forEach words (fun i s =>
    let want := alGet 0 y.readers i
    let have' := alGet 0 y.shadowReaders i
    forEach ((List.range 32).filter (fun b => bitAt want b != bitAt have' b)) (fun b s =>
      let t := i % 128 * 32 + b
      launch (readerOp (4096 + i / 128) (if bitAt want b then 0 else 1) t t (4096 + i / 128) none) s) s) s

/-- R616: what the new key service does about one domain. -/
def resumeDomain (r : DomRec) (s : State) : State :=
  let d := r.id
  let again (s : State) : State :=
    if r.swCount = 0 then resumeSweep d (placementOf s d) s else readRegions (.resume d) d r.swAddr r.swCount s
  match r.state with
  | .created => onlyIf r.closing (fun s => closeCreated d (forEach (withdrawOps s d) launch s)) s
  | .rotating => launch { kind := .rotate d, msgs := [.rotate d r.newest 0] } s
  | .sweeping => again (headAll (.sweepAbort d) s)
  | .retiringOld => launch (retireOp d d true) s
  | .tearDrain =>
    let s := modDom d (fun x => { x with regions := placementOf s d }) s
    forEach (s.ks.streams.filter (fun p => entryDomain p.2 == d && entryState p.2 == 3)) (fun p => launch (streamOp p.1 p.2 true d none)) s
  | .tearSweep => again s
  | .tearRetire => launch (retireOp d d false) s
  | _ => s

/-- R222, R616: a model domain INGESTING is torn down. -/
def resumeModel (m : ModelRec) (s : State) : State :=
  onlyIf (m.custody == .ingesting) (fun s => beginTeardown m.model m.placement 0 0 [] s) s

/-- R615 steps 1 to 7. -/
def takeover (s0 : State) : State :=
  let y := s0.sby
  let s := takeFaults y (takePlace y s0)
  let s := takeIdentity y (takeCores (takeUnits s))
  let s := s.modBrup (fun b => { b with halted := b.phase < 6 })
  let s := fixReaders (shadowCatchUp s0 y) (headAll .pulse s)
  let s := forEach s.ks.models resumeModel (forEach s.ks.doms resumeDomain s)
  let s := forEach (List.range 4) (fun d t => onlyIf (!(t.dieN d).inReset && (t.dieN d).synced != 7) (startSync d) t) s
  settle (kexSetup s)

/-- MIR_TAKEOVER (R615, R616, R648): mir_takeover holds and wipes the die-0 core, and the standby becomes the active core. -/
def execMirTakeover (s : State) : Out :=
  done (whenUp s (onlyIf (s.mir.mirTakeover && !s.mir.site && s.sby.alive) takeover))

end Sys2Proof.Machine
end

