-- ==== Sys2Proof/Machine/Flags.lean ====
section
/-!
DEFINITION. The pages of the control window, their level indications PAGE_STATUS and PAGE_FAULT, and the event lines (R111, R190, R194, R233, R261,
R310, R365, R409, R411, R464, R510, R548, R581, R602 to R604, R619, R620, R666 to R670, R682).
-/

namespace Sys2Proof.Machine
open Sys2Proof

/-- R682: the register pages. -/
inductive Page where
  /-- identity page -/
  | identity
  /-- boot page -/
  | boot
  /-- fuse and life-cycle page -/
  | fuse
  /-- bring-up page -/
  | bringUp
  /-- fault queue page -/
  | faultQ
  /-- failover page -/
  | failover
  /-- vault page -/
  | vault
  /-- public-key control page -/
  | pkControl
  /-- public-key job page of a slot -/
  | pkJob (slot : Nat)
  /-- digest control page -/
  | digControl
  /-- digest context page -/
  | digCtx (ctx : Nat)
  /-- entropy page -/
  | entropy
  /-- ingest page -/
  | ingest
  /-- mower page -/
  | mower
  /-- attestation page -/
  | attestation
  /-- mailbox control page -/
  | mailbox (operator : Bool)
  /-- page of a die-section group: 0 ring stop, 1 stream view, 2 reader-set view, 3 power -/
  | die (d k : Nat)
  /-- page of a guard group: 0 datapath, 1 tag failure, 2 lanes, 3 key cache, 4 miss tracker, 5 stream and sweep -/
  | guard (g k : Nat)
deriving DecidableEq, Repr

/-- R681, R682: the register page at an address. -/
def pageAt (addr : Nat) : Option Page :=
  let n := addr / 0x1000
  if 0x800 ≤ n then (if (n - 0x800) / 16 < 40 ∧ n % 16 < 6 then some (.guard ((n - 0x800) / 16) (n % 16)) else none)
  else if 0x400 ≤ n then (if (n - 0x400) / 16 < 4 ∧ n % 16 < 4 then some (.die ((n - 0x400) / 16) (n % 16)) else none)
  else if 0x31 ≤ n ∧ n < 0x49 then (if (n - 0x31) % 3 = 0 then some (.pkJob ((n - 0x31) / 3)) else none)
  else if 0x51 ≤ n ∧ n < 0x59 then some (.digCtx (n - 0x51))
  else match n with
    | 0 => some .identity
    | 0x10 => some .boot
    | 0x11 => some .fuse
    | 0x12 => some .bringUp
    | 0x13 => some .faultQ
    | 0x14 => some .failover
    | 0x20 => some .vault
    | 0x30 => some .pkControl
    | 0x50 => some .digControl
    | 0x59 => some .entropy
    | 0x60 => some .ingest
    | 0x61 => some .mower
    | 0x70 => some .attestation
    | 0x80 => some (.mailbox false)
    | 0x88 => some (.mailbox true)
    | _ => none

/-- R666, R682: every register page. -/
def allPages : List Page :=
  [.identity, .boot, .fuse, .bringUp, .faultQ, .failover, .vault, .pkControl, .digControl, .entropy, .ingest, .mower, .attestation,
   .mailbox false, .mailbox true] ++ (List.range 8).map .pkJob ++ (List.range 8).map .digCtx ++
  (List.range 4).flatMap (fun d => (List.range 4).map (.die d)) ++ (List.range 40).flatMap (fun g => (List.range 6).map (.guard g))

/-- R682: TYPE of a page. -/
def Page.type : Page → Nat
  | .identity => 0x001
  | .boot => 0x010
  | .fuse => 0x011
  | .bringUp => 0x012
  | .faultQ => 0x013
  | .failover => 0x014
  | .vault => 0x020
  | .pkControl => 0x030
  | .pkJob _ => 0x031
  | .digControl => 0x040
  | .digCtx _ => 0x041
  | .entropy => 0x042
  | .ingest => 0x050
  | .mower => 0x051
  | .attestation => 0x060
  | .mailbox _ => 0x070
  | .die _ k => 0x100 + k
  | .guard _ k => 0x200 + k

/-- R667, R682: INSTANCE of a page. -/
def Page.instNo : Page → Nat
  | .pkJob n => n
  | .digCtx n => n
  | .mailbox op => if op then 1 else 0
  | .die d _ => d
  | .guard g _ => g
  | _ => 0

/-- R668, R682: OWNER_GATED of a page. -/
def Page.ownerGated : Page → Bool
  | .boot => true
  | .fuse => true
  | .failover => true
  | .vault => true
  | .pkJob _ => true
  | .digControl => true
  | .digCtx _ => true
  | .entropy => true
  | .mailbox op => op
  | _ => false

/-- R668, R682: the target clock domain of a page. -/
def Page.clockDomain : Page → Nat
  | .identity => 0
  | .pkControl => 1
  | .pkJob _ => 1
  | .ingest => 1
  | .mower => 1
  | .guard _ _ => 1
  | .die _ k => if k = 3 then 4 else 2
  | _ => 2

/-- R669, R670: the writable part of a page's common header. -/
def pageHdr (s : State) : Page → PageHdr
  | .identity => s.ports.idHdr
  | .boot => s.boot.hdr
  | .fuse => s.fuse.hdr
  | .bringUp => s.brup.hdr
  | .faultQ => s.fq.hdr
  | .failover => s.mir.hdr
  | .vault => s.vault.hdr
  | .pkControl => s.pk.hdr
  | .pkJob n => (s.pk.slots.toList.getD n {}).hdr
  | .digControl => s.dig.hdr
  | .digCtx n => (s.dig.ctxs.toList.getD n {}).hdr
  | .entropy => s.ent.hdr
  | .ingest => s.ingest.hdr
  | .mower => s.mower.hdr
  | .attestation => s.att.hdr
  | .mailbox op => if op then s.operBox.hdr else s.tenantBox.hdr
  | .die d k => (s.dieN d).hdrs.getD k {}
  | .guard g k => (s.guardN g).hdrs.getD k {}

/-- A page's common header changed by `f`. -/
def modHdr (f : PageHdr → PageHdr) (s : State) : Page → State
  | .identity => s.modPorts (fun p => { p with idHdr := f p.idHdr })
  | .boot => s.modBoot (fun b => { b with hdr := f b.hdr })
  | .fuse => s.modFuse (fun b => { b with hdr := f b.hdr })
  | .bringUp => s.modBrup (fun b => { b with hdr := f b.hdr })
  | .faultQ => s.modFq (fun b => { b with hdr := f b.hdr })
  | .failover => s.modMir (fun b => { b with hdr := f b.hdr })
  | .vault => s.modVault (fun b => { b with hdr := f b.hdr })
  | .pkControl => s.modPk (fun b => { b with hdr := f b.hdr })
  | .pkJob n => modSlot n (fun x => { x with hdr := f x.hdr }) s
  | .digControl => s.modDig (fun b => { b with hdr := f b.hdr })
  | .digCtx n => modCtx n (fun x => { x with hdr := f x.hdr }) s
  | .entropy => s.modEnt (fun b => { b with hdr := f b.hdr })
  | .ingest => s.modIngest (fun b => { b with hdr := f b.hdr })
  | .mower => s.modMower (fun b => { b with hdr := f b.hdr })
  | .attestation => s.modAtt (fun b => { b with hdr := f b.hdr })
  | .mailbox op => modBox op (fun b => { b with hdr := f b.hdr }) s
  | .die d k => s.modDie d (fun x => { x with hdrs := x.hdrs.modify k f })
  | .guard g k => s.modGuard g (fun x => { x with hdrs := x.hdrs.modify k f })

/-- A word made of bits: the first at bit 0. -/
def bitsNat (bs : List Bool) : Nat := (bs.zipIdx.map (fun p => bitNat p.2 p.1)).sum

/-- R14, R111: a guard's full number of lanes. -/
def fullLanes (g : Nat) : Nat := if isStack g then 64 else 8

/-- R111, R114: a bank that has joined, or was excluded, and has no serviceable lane. -/
def Bank.down (b : Bank) : Bool := b.excluded || (b.tested && b.active == 0)

/-- R366: a public-key engine with a job queued or in progress. -/
def Pk.anyJob (k : Pk) : Bool := !k.jobs.isEmpty

/-- R510: a cairn bit reads differently at the two references. -/
def cairnMarginal (s : State) : Bool := (s.shadow 40).marginal || (s.shadow 41).marginal

/-- R548: a fuse operation or sensing is under way. -/
def fuseBusy (s : State) : Bool := s.fuse.op.isSome || (s.ports.aonUp && !s.fuse.sensed && s.boot.cores.toList.any (· != .reset))

/-- R219, R241, R261: while an ingest job runs its feed holds twelve lanes. -/
def ingestFeed (s : State) : Bool := s.ingest.run.isSome

/-- R602: PAGE_STATUS of a page, as its table states. -/
def pageStatus (s : State) : Page → Nat
  | .boot => bitsNat [s.boot.kind == 2, s.boot.kind == 3]
  | .fuse => bitsNat [fuseBusy s, s.fuse.inForce]
  | .bringUp => bitsNat [s.brup.reduced, seedConfig s]
  | .faultQ => bitsNat [!s.fq.entries.isEmpty, 960 ≤ s.fq.general]
  | .failover => bitsNat [s.mir.ready, s.mir.takenOver]
  | .vault => bitsNat [s.vault.run.isSome, s.tamper.cleared]
  | .pkControl => bitsNat [s.pk.anyJob, pkMode s.pk == 1 || pkMode s.pk == 2, pkMode s.pk == 3,
                             s.pk.stDue && s.ports.pairDone && s.pk.shortRun.isNone && s.pk.longRun.isNone]
  | .digControl => bitsNat [s.dig.sha2Cores == 0 || s.dig.kecCores == 0, s.dig.testing != 0 || (digStarting s && coreRuns s)]
  | .entropy => bitsNat [s.ent.seeded]
  | .ingest => bitsNat [s.ingest.run.isSome || !s.ingest.queue.isEmpty, s.ingest.shareLimited]
  | .mower => bitsNat [!s.mower.run.isEmpty || !s.mower.queue.isEmpty || ingestFeed s, s.mower.shareLimited]
  | .attestation => bitsNat [512 ≤ (s.att.sessions.filter (fun x => !x.operator)).length]
  | .guard g 0 =>
    let x := s.guardN g
    bitsNat [x.fenced, x.page.throttledRecent || x.throttledNow, x.activeLanes < fullLanes g, x.clkStopped, x.miss.heldHdr.isSome]
  | .guard g 3 => bitsNat [(s.guardN g).cache.pins.length == 32, (s.guardN g).cache.noVictimRecent]
  | _ => 0

/-- R602: PAGE_FAULT of a page, as its table states. -/
def pageFault (s : State) : Page → Nat
  | .boot => bitsNat [cairnMarginal s, s.fuse.sensed && 128 - cairn s < 8]
  | .fuse => bitsNat [s.fuse.shadows.any Shadow.marginal, s.fuse.sensed && (List.range 16).any (regionAbsent s), s.fuse.recheckRecent]
  | .bringUp =>
    bitsNat [s.brup.halted, allGuards.any (fun g => (s.guardN g).service == .lost), (defectWords s).length == 256, s.brup.fpRecent]
  | .faultQ => bitsNat [s.fq.overflow, !s.fq.latches.isEmpty]
  | .failover => bitsNat [!s.mir.ready, s.mir.mirrorRecent, s.mir.wdogRecent]
  | .vault => bitsNat [s.ks.doms.any DomRec.lost, s.vault.eccRecent]
  | .pkControl => bitsNat [s.pk.dpAOut, s.pk.dpBOut, s.pk.compareRecent]
  | .digControl => bitsNat [s.dig.splitRecent, s.dig.coreOut != 0]
  | .entropy => bitsNat [s.ent.healthRecent, s.ent.noise == .outOfService]
  | .ingest => bitsNat [s.ingest.authRecent]
  | .mower => bitsNat [popCount 32 s.mower.lanes < 32, s.mower.mismatchRecent]
  | .attestation => bitsNat [s.att.certMismatch, s.att.logLost]
  | .die d 0 => bitsNat [(s.dieN d).crcRecent, (s.dieN d).seqRecent]
  | .guard g 0 =>
    let x := s.guardN g
    bitsNat [x.banks.any (fun b => b.tested && b.active != 0 && popCount 9 b.active < 8), x.banks.any Bank.down, x.safetyFence]
  | .guard g 3 => bitsNat [(s.guardN g).cache.bindRecent]
  | _ => 0

/-- R603: whether a page drives PAGE_FAULT_ANY. -/
def pageDrives (s : State) (pg : Page) : Bool := BitVec.ofNat 16 (pageFault s pg) &&& ~~~ (pageHdr s pg).mask != 0

/-- R604, R622: evt_line. While cold reset is asserted every line holds its reset value. -/
def evtLine (s : State) : BitVec 8 :=
  if s.ports.rstCold then 0
  else BitVec.ofNat 8 (bitsNat [
    s.fq.entries.any (fun e => e.1.safety) || !s.fq.latches.isEmpty, !s.fq.entries.isEmpty, s.fq.overflow || !s.fq.latches.isEmpty,
    allGuards.any (fun g => (s.guardN g).fenced), allPages.any (pageDrives s), !s.mir.ready, s.mir.site, s.ports.ctlErrRecent])

end Sys2Proof.Machine
end

