-- ==== Sys2Proof/Machine/Ingest.lean ====
section
/-!
DEFINITION. The ingest unit (R197 to R206, R210, R212 to R223, R233, R258): its jobs, the staging reads and placement writes through
the guards, chunks and manifest. A line that waits for a key leaves the whole command to be tried again.
-/

namespace Sys2Proof.Machine
open Sys2Proof

/-- The answer of a memory controller to a read: error, data, sidecar. -/
abbrev LineAnswer := Bool × BitVec 512 × BitVec 64

/-- What a line access of the ingest unit comes to. -/
inductive IngestRes where
  /-- it completed with status OK; a read with this plaintext -/
  | good (data : BitVec 512) (s : State)
  /-- it completed with another status -/
  | bad (s : State)
  /-- it waits -/
  | wait (s : State)

/-- The state an access leaves. -/
def IngestRes.state : IngestRes → State
  | .good _ s => s
  | .bad s => s
  | .wait s => s

/-- R90, R216: whether an access of the ingest unit waits at a guard: for its port, for a lane, or for an earlier request of the
line. -/
def ingestHeld (x : Guard) (a : Nat) : Bool := x.clkStopped || x.activeLanes == 0 || x.lineHeld a

/-- R93, R216, R233: an access that costs lane operations finds no share allotted to ingest at its guard; the wait is shown. -/
def shareWaits (s : State) : IngestRes := .wait (s.modIngest (fun u => { u with shareLimited := true }))

/-- R133, R142, R216: an access of the running job has no key at a guard: it is sought through a slot of the miss tracker and the access waits, until
a negative answer comes; `bad` is what the access then comes to. -/
def keyWaits (g d : Nat) (want bit : Bool) (bad : State → IngestRes) (s : State) : IngestRes :=
  let k := (g, d, want, bit)
  let asked := s.ingest.run.any (fun j => j.seeks == some k)
  if asked && s.ingest.run.any IngestJob.noKey then bad s
  else
    let s := onlyIf (!asked) (fun t => (countMiss g t).modIngest (fun u => { u with run := u.run.map (fun j => { j with seeks := some k, noKey := false }) })) s
    .wait (slotFor g d want bit s)

/-- R215, R216: a staging line is read through its guard and decrypted under the staging domain's keys; a failure of its check is
counted as a tag failure of that domain, and so is a line whose older generation is not to be had (R142). -/
def stageRead (d g a : Nat) (ans : LineAnswer) (s : State) : IngestRes :=
  let x := s.guardN g
  let r : Req := { domain := d, addr := BitVec.ofNat 42 a }
  if x.fenced || x.inReset then .bad s
  else if ingestHeld x a then .wait s
  else if x.retiringAll d then .bad s
  else
    match x.newest d with
    | none => keyWaits g d false false .bad s
    | some l =>
      if !l.entry.bindOk d then keyWaits g d false false .bad (bindFailed g l 0 d s)
      else if l.entry.mode == .open && !openOk s then .bad s
      else if l.entry.mode != .open && x.page.allot 2 == 0 then shareWaits s
      else if ans.1 then .bad (driveBeat g false a 0 0 s)
      else
        let bit := sideGen ans.2.2
        let live (b : Bool) : Bool := b == l.entry.genBit || x.olderBit d == some b
        match sideCause l.entry.mode live ans.2.2 with
        | some c => .bad (tagFailed g r c (driveBeat g false a 0 0 s))
        | none =>
          if l.entry.mode == .open then .good ans.2.1 (driveBeat g false a 0 0 s)
          else
            match if bit == l.entry.genBit then some l else x.lineBit d bit with
            | none => keyWaits g d true bit (fun t => .bad (tagFailed g r 3 t)) s
            | some k =>
              if !k.entry.bindOk d then keyWaits g d true bit (fun t => .bad (tagFailed g r 3 t)) (bindFailed g k 0 d s)
              else if tagOk k.entry a ans.2.1 ans.2.2 then .good (decryptLine k.entry a ans.2.1) (driveBeat g false a 0 0 s)
              else .bad (tagFailed g r 1 (driveBeat g false a 0 0 s))

/-- R215, R216: a payload line is sealed under generation 1 of the model domain and written through its guard. -/
def placeWrite (m g a : Nat) (data : BitVec 512) (err : Bool) (s : State) : IngestRes :=
  let x := s.guardN g
  if x.fenced || x.inReset then .bad s
  else if ingestHeld x a then .wait s
  else
    match x.newest m with
    | none => keyWaits g m false false .bad s
    | some l =>
      if !l.entry.bindOk m then keyWaits g m false false .bad (bindFailed g l 0 m s)
      else if l.entry.mode != .open && x.page.allot 2 == 0 then shareWaits s
      else
        let c := sealLine l.entry a data 0
        let s := driveBeat g true a c.1 c.2 s
        if err then .bad s else .good data s

/-- Lines `first` on of the staging list are read in order: the plaintext so far, and whether all completed (some true), one failed
(some false) or one waits (none). -/
def readLines (j : IngestJob) : Nat → List LineAnswer → Bytes → State → Option Bool × Bytes × State
  | _, [], acc, s => (some true, acc, s)
  | k, ans :: rest, acc, s =>
    match lineOf j.stage k with
    | none => (some false, acc, s)
    | some (g, a) =>
      match stageRead j.staging g a ans s with
      | .good data t => readLines j (k + 1) rest (acc ++ vecBytes 64 data) t
      | .bad t => (some false, acc, t)
      | .wait t => (none, acc, t)

/-- Payload lines `k` on of the placement list are written in order: as `readLines`, with the number written. -/
def writeLines (j : IngestJob) : Nat → List (Bytes × Bool) → Nat → State → Option Bool × Nat × State
  | _, [], n, s => (some true, n, s)
  | k, (bs, err) :: rest, n, s =>
    match lineOf j.place k with
    | none => (some false, n, s)
    | some (g, a) =>
      match placeWrite j.model g a (bytesVec 512 bs) err s with
      | .good _ t => writeLines j (k + 1) rest (n + 1) t
      | .bad t => (some false, n, t)
      | .wait t => (none, n, t)

/-- A wait: only the searches for keys that it began remain. -/
def ingestWaits (s : State) : State := settle s

/-- R233: a tag failure of a header, chunk or manifest is counted. -/
def countAuth (s : State) : State := s.modIngest (fun u => { u with authFail := satInc u.authFail, authRecent := true })

/-- INGEST_JOB_START (R117, R118, R198, R200, R213, R214, R241): with no job running the oldest queued one starts: the seed of the
model domain is drawn, generation 1 derived, and the domain is KEYED and INGESTING. -/
def execIngestJobStart (s : State) : Out :=
  done (whenUp s fun s =>
    match s.ingest.run, s.ingest.queue with
    | none, j :: q =>
      match s.dom j.model with
      | none => s.modIngest (fun u => { u with queue := q })
      | some r =>
        if !drawNow s then s
        else
          match drawBytes 32 s with
          | (none, t) => t
          | (some seed, t) =>
            let e := deriveEntry seed j.model 1 .seal false
            let t := t.modIngest (fun u => { u with queue := q, run := some j })
            let t := setDom { r with state := .keyed, newest := 1, gens := [e] } t
            let t := modModel j.model (fun m => { m with custody := .ingesting, placement := j.place }) t
            commit [storeFrame t j.model, modelFrameOf t j.model] [] [] t
    | _, _ => s)

/-- R201: CHUNK_COUNT of a payload size. -/
def chunkCountOf (p : Nat) : Nat := (p + 1048575) / 1048576

/-- R201, R214 check 1: the fixed form of a header. -/
def headerForm (h : Bytes) : Bool :=
  let p := fieldLe h 48 8
  slice h 0 8 == ascii "KFL-BNDL" && fieldLe h 8 2 == 1 && fieldLe h 12 4 == 0 && fieldLe h 60 4 == 0 && slice h 72 40 == zeros 40 &&
  p != 0 && p % 64 == 0 && p ≤ 2 ^ 44 && fieldLe h 56 4 == chunkCountOf p

/-- R202, R203: the GCM IV of a part: IV_PREFIX and four more bytes. -/
def bundleIv (h : Bytes) (n : Nat) : Bytes := slice h 64 8 ++ beBytes 4 n

/-- R214: the first check of a header that fails, as the job's outcome. -/
def headerCheck (j : IngestJob) (b : BundleKey) (h : Bytes) : Option (BitVec 8) :=
  let p := fieldLe h 48 8
  if !headerForm h then some igHeader
  else if fieldLe h 10 2 ≠ j.model then some igModel
  else if slice h 16 32 ≠ b.keyId then some igKeyId
  else if gcmTag b.key (bundleIv h 0xFFFFFFFE) (h.take 112) [] ≠ slice h 112 16 then some igAuth
  else if linesIn j.stage * 64 < 256 + p + 64 * chunkCountOf p then some igShort
  else if linesIn j.place < p / 64 then some igPlace
  else none

/-- The bundle key of a model domain. -/
def bundleOf (s : State) (m : Nat) : BundleKey := (s.vault.bundles.find? (fun b => b.model == m)).getD {}

/-- INGEST_HEADER_READ (R201, R203, R210, R214, R221): the header is read from the first two staging lines and checked. `lines` are the
memory controllers' answers. A staging list of one line ends the job IG_SHORT. -/
def execIngestHeaderRead (lines : List (Bool × BitVec 512 × BitVec 64)) (s : State) : Out :=
  done (whenUp s fun s =>
    match s.ingest.run with
    | none => s
    | some j =>
      if j.headerOk || lines.length ≠ 2 then s
      else if linesIn j.stage < 2 then settle (endIngest j igShort s)
      else
        match readLines j 0 lines [] s with
        | (none, _, t) => ingestWaits t
        | (some false, _, t) => settle (endIngest j igStage t)
        | (some true, h, t) =>
          match headerCheck j (bundleOf t j.model) h with
          | some o => settle (endIngest j o (onlyIf (o == igAuth) countAuth t))
          | none => settle (t.modIngest (fun u => { u with run := some { j with header := h, headerOk := true, seeks := none, noKey := false } })))

/-- R202: the ciphertext bytes of chunk `k`. -/
def chunkLen (j : IngestJob) (k : Nat) : Nat := Nat.min 1048576 (j.payload - 1048576 * k)

/-- R204, R217: whether a chunk's trailer is as the job expects. -/
def trailerOk (j : IngestJob) (t : Bytes) : Bool :=
  fieldLe t 16 4 == j.chunk && fieldLe t 20 4 == chunkLen j j.chunk && slice t 24 40 == zeros 40

/-- R219: the leaf hashes of a chunk's plaintext, leaves counted from payload byte 0. -/
def chunkLeaves (j : IngestJob) (pt : Bytes) : List Bytes :=
  (chunks leafSize pt).zipIdx.map (fun p => leafHash .seal (16 * j.chunk + p.2) p.1)

/-- INGEST_CHUNK (R202, R204, R210, R215 to R219, R221): the next chunk record is read, decrypted, written line by line under the model
domain's keys and fed to the mower, and its tag checked. `lines` and `writes` are the memory controllers' answers to the reads and
the writes (true: an error). Whether the job waited on a guard's ingest share is open (log 16). -/
def execIngestChunk (lines : List (Bool × BitVec 512 × BitVec 64)) (writes : List Bool) (s : State) : Out :=
  done (whenUp s fun s =>
    match s.ingest.run with
    | none => s
    | some j =>
      let len := chunkLen j j.chunk
      if !j.headerOk || chunkCountOf j.payload ≤ j.chunk || lines.length ≠ len / 64 + 1 || writes.length ≠ len / 64 ||
          s.mower.lanes == 0 || s.ingest.gcmLanes == 0 then s
      else
        match readLines j (2 + 16385 * j.chunk) lines [] s with
        | (none, _, t) => ingestWaits t
        | (some false, _, t) => settle (endIngest j igStage t)
        | (some true, rec, t) =>
          let tr := slice rec len 64
          let ct := rec.take len
          if !trailerOk j tr then settle (endIngest j igChunk t)
          else
            let b := bundleOf t j.model
            let iv := bundleIv j.header j.chunk
            let pt := gcmCrypt b.key iv ct
            match writeLines j (16384 * j.chunk) ((chunks 64 pt).zip writes) 0 t with
            | (none, _, u) => ingestWaits u
            | (some ok, n, u) =>
              let u := ((u.modMower (fun m => { m with bytes := m.bytes + BitVec.ofNat 64 (64 * n) })).modIngest (fun i => { i with
                bytes := i.bytes + BitVec.ofNat 64 (64 * n), shareLimited := i.shareLimited || Config.freeBit u.freeCtr })).used
              if !ok then settle (endIngest j igWrite u)
              else if gcmTag b.key iv (j.header.take 112 ++ slice tr 16 8) ct ≠ slice tr 0 16 then settle (endIngest j igAuth (countAuth u))
              else settle (u.modIngest (fun i => { i with run := some { j with chunk := j.chunk + 1, seeks := none, noKey := false, leaves := j.leaves ++ chunkLeaves j pt } })))

/-- R203, R205: whether a manifest agrees with the header and its tag. -/
def manifestForm (j : IngestJob) (m : Bytes) : Bool :=
  slice m 0 8 == ascii "KFL-MNFT" && fieldLe m 8 4 == fieldLe j.header 56 4 && fieldLe m 12 4 == 0 &&
  fieldLe m 16 8 == j.payload && slice m 56 56 == zeros 56

/-- R198, R217, R221, R232: a job that ends IG_DONE records the root and size and takes the domain to RESIDENT. -/
def ingestDone (j : IngestJob) (root : Bytes) (s : State) : State :=
  let s := ingestOver j igDone root s
  let s := modModel j.model (fun m => { m with custody := .resident, root := root, payload := j.payload }) s
  commit [modelFrameOf s j.model] [] [] s

/-- INGEST_MANIFEST (R203, R205, R210, R217, R219, R221): the manifest has been read; it is checked, the root finished and compared. -/
def execIngestManifest (lines : List (Bool × BitVec 512 × BitVec 64)) (s : State) : Out :=
  done (whenUp s fun s =>
    match s.ingest.run with
    | none => s
    | some j =>
      if !j.headerOk || j.chunk < chunkCountOf j.payload || lines.length ≠ 2 then s
      else
        match readLines j ((128 + j.payload + 64 * chunkCountOf j.payload) / 64) lines [] s with
        | (none, _, t) => ingestWaits t
        | (some false, _, t) => settle (endIngest j igStage t)
        | (some true, m, t) =>
          let b := bundleOf t j.model
          let root := rootOfLeaves .seal j.payload j.leaves
          if !manifestForm j m then settle (endIngest j igManifest t)
          else if gcmTag b.key (bundleIv j.header 0xFFFFFFFF) (j.header.take 112 ++ m.take 112) [] ≠ slice m 112 16 then
            settle (endIngest j igManifest (countAuth t))
          else if slice m 24 32 ≠ zeros 32 ∧ slice m 24 32 ≠ root then settle (endIngest j igRoot t)
          else settle (ingestDone j root t))

/-- The ingest page (R233). -/
def ingestPage : Nat := 0x60000

/-- INGEST_ABORT (R220, R222, R233): a privileged write of bit 0 ends the running job with IG_ABORT. -/
def execIngestAbort (p : Path) (value : BitVec 32) (s : State) : Out :=
  done (writeAt true p (ingestPage + 0x3C) (onlyIf (bitAt value 0) (fun s =>
    match s.ingest.run with
    | none => s
    | some j => settle (endIngest j igAbort s))) s)

end Sys2Proof.Machine
end

