-- ==== Sys2Proof/Machine/PkQueue.lean ====
section
/-!
DEFINITION. The submission of public-key jobs from job slots (R316, R317, R324, R352, R353, R366, R367): one command for each OP.
-/

namespace Sys2Proof.Machine
open Sys2Proof

/-- R317, R366, R367: a write of PK_JOB_CMD by the owner of a slot: dropped while BUSY, and with GO the submission of a job. -/
def pkCmdWrite (slot : Nat) (value : BitVec 32) (s : State) : State :=
  if s.pk.busy slot then s.modPk (fun k => { k with dropped := satInc k.dropped })
  else
    let s := modSlot slot (fun x => { x with cmd := BitVec.ofNat 31 (value &&& 0x007FFFFF#32).toNat }) s
    onlyIf (bitAt value 31) (fun s =>
      let op := bitsOf value 7 0
      let param := bitsOf value 15 8
      pkSubmit { slot := slot, op := BitVec.ofNat 8 op, param := BitVec.ofNat 8 param, keySrc := bitAt value 16, anchor := bitsOf value 22 17,
                 reservedBits := bitsOf value 30 23 != 0 || bitsOf (s.pk.slots.toList.getD slot {}).len 31 10 != 0,
                 len := bitsOf (s.pk.slots.toList.getD slot {}).len 9 0, long := isLong s.pk op param } s) s

/-- A write of PK_JOB_CMD that submits the command of a given OP; any other write is another row's. -/
def pkRow (op : Nat) (slot : Fin 8) (p : Path) (value : BitVec 32) (s : State) : State :=
  onlyIf (bitAt value 31 && bitsOf value 7 0 == op)
    (writeOwned p (pkSlotPage slot.toNat + 0x20) (ownsSlot slot.toNat p) pkForeign (pkCmdWrite slot.toNat value)) s

/-- SIGN (R316, R317, R321 to R324, R327, R352, R353, R366, R367). -/
def execPkSign (slot : Fin 8) (p : Path) (value : BitVec 32) (s : State) : Out := done (pkRow 1 slot p value s)

/-- VERIFY (R316, R317, R321, R322, R324, R336, R352, R353, R366, R367). -/
def execPkVerify (slot : Fin 8) (p : Path) (value : BitVec 32) (s : State) : Out := done (pkRow 2 slot p value s)

/-- KEYGEN (R316, R317, R324, R328, R352, R353, R366, R367). -/
def execPkKeygen (slot : Fin 8) (p : Path) (value : BitVec 32) (s : State) : Out := done (pkRow 3 slot p value s)

/-- PUBLIC (R316, R317, R324, R327, R352, R353, R366, R367). -/
def execPkPublic (slot : Fin 8) (p : Path) (value : BitVec 32) (s : State) : Out := done (pkRow 4 slot p value s)

/-- PK_DERIVE (R316, R317, R324, R327, R333, R352, R353, R366, R367). -/
def execPkDerive (slot : Fin 8) (p : Path) (value : BitVec 32) (s : State) : Out := done (pkRow 5 slot p value s)

/-- ENCAPS (R316, R317, R324, R352, R353, R366, R367). -/
def execPkEncaps (slot : Fin 8) (p : Path) (value : BitVec 32) (s : State) : Out := done (pkRow 6 slot p value s)

/-- DECAPS (R316, R317, R324, R327, R352, R353, R366, R367). -/
def execPkDecaps (slot : Fin 8) (p : Path) (value : BitVec 32) (s : State) : Out := done (pkRow 7 slot p value s)

/-- CHECK_CURVE (R316, R317, R324, R329 to R332, R352, R353, R366, R367). -/
def execPkCheckCurve (slot : Fin 8) (p : Path) (value : BitVec 32) (s : State) : Out := done (pkRow 8 slot p value s)

end Sys2Proof.Machine
end

