-- ==== Sys2Proof/Machine/Registers.lean ====
section
/-!
DEFINITION. The registers of the control window as accesses read and write them, with the classes and owner rules that admit the access; mailbox
posts; the 64-bit latches; telemetry; register timeouts (R111 to R114, R190 to R196, R233, R261, R310, R364 to R367, R408 to R411, R462, R464, R510,
R548, R581, R599, R619, R620, R625 to R629, R666 to R687).
-/

namespace Sys2Proof.Machine
open Sys2Proof

/-! ### What the registers hold -/

/-- A word made of fields, each a value at a bit position. -/
def fields (l : List (Nat × Nat)) : Nat := (l.map (fun p => p.1 * 2 ^ p.2)).sum

/-- A flag as a field. -/
def flag (b : Bool) : Nat := if b then 1 else 0

/-- R666: word of a memory page, byte 4k + j in bits [8j + 7:8j]. -/
def pageWord32 (m : List Host.Cell) (o : Nat) : Nat := leNat (bufLoad 0 m o 4)

/-- R667, R668, R669, R670: the words of a page's common header, for a privileged reader. -/
def headerWord (s : State) (pg : Page) (off : Nat) : Nat :=
  let fp := match pg with
    | .guard g 0 => some g
    | _ => none
  match off with
  | 0x00 => fields [(pg.type, 0), (pg.instNo, 12), (1, 24)]
  | 0x04 => fields [(flag fp.isSome, 0), (flag pg.ownerGated, 1), (pg.clockDomain, 2)]
  | 0x08 => flag (pageHdr s pg).maskLock
  | 0x0C => pageStatus s pg
  | 0x10 => pageFault s pg
  | 0x14 => (pageHdr s pg).mask.toNat
  | 0x18 => (fp.map (fun g => (guardFp s g).toNat)).getD 0
  | _ => 0

/-- R672: the 64-bit registers whose tables state that reading LO latches HI. -/
def wide (s : State) : Page → Nat → Option (BitVec 64)
  | .guard g 0, 0x80 => some (s.guardN g).page.linesRead
  | .guard g 0, 0x88 => some (s.guardN g).page.linesWritten
  | .guard g 5, 0x30 => some (s.guardN g).sweep.lines
  | .ingest, 0x30 => some s.ingest.bytes
  | .mower, 0x30 => some s.mower.bytes
  | .digCtx c, 0x48 => some (s.ctx c).fed
  | .attestation, 0x28 => some s.att.quoteSeq
  | .bringUp, 0x50 => some ((s.brup.findings.head?.map (findingWord s)).getD 0)
  | _, _ => none

/-- R110 to R114, R189 to R192: the registers of a guard's group. -/
def guardWord (s : State) (g k off : Nat) : Nat :=
  let x := s.guardN g
  match k, off with
  | 0, 0x20 => flag x.fenced
  | 0, 0x24 => x.page.limit.toNat
  | 0, 0x28 => x.page.share.toNat
  | 0, 0x2C => x.page.shareEff.toNat
  | 0, 0x30 => fields [(x.activeLanes, 0), (flag (!isStack g), 7), (x.activeLanes * 1024 / 6, 8)]
  | 0, 0x34 => if x.inReset then 0 else fields [(x.inFlight, 0), (x.tagsOut.length, 16)]
  | 0, 0x90 => x.page.rmwCount.toNat
  | 0, o => if 0x48 ≤ o ∧ o ≤ 0x68 then (x.page.errCount.getD ((o - 0x48) / 4) 0).toNat else 0
  | 1, 0x20 => x.page.tfSel.toNat
  | 1, 0x24 =>
    let c := alGet 0 x.page.tfCounts x.page.tfSel.toNat
    fields [(c.toNat, 0), (flag (c == 0xFFFFFF#24), 24)]
  | 1, 0x28 => x.page.tfTotal.toNat
  | 1, 0x30 => x.page.tfLast.toNat
  | 1, 0x34 => x.page.tfAddr.toNat % 2 ^ 32
  | 1, 0x38 => x.page.tfAddr.toNat / 2 ^ 32
  | 2, 0x40 => x.page.katCount.toNat
  | 2, 0x44 => x.page.katFail.toNat
  | 2, 0x48 => x.page.parityFail.toNat
  | 2, o =>
    if 0x20 ≤ o ∧ o ≤ 0x3C ∧ (o - 0x20) / 4 < x.banks.length then
      let b := x.bankN ((o - 0x20) / 4)
      fields [(b.active.toNat, 0), (flag b.spareUsed, 9), (popCount 9 b.active, 10), (flag b.down, 14)]
    else 0
  | 3, 0x20 => fields [(x.cache.lines.length, 0), (2 * x.cache.pins.length, 10), (x.rot.length, 17)]
  | 3, 0x24 => fields [(x.cache.pinDom.toNat, 0), (flag x.cache.pinBit, 13), (x.cache.pinResult.toNat, 16), (flag x.cache.pinBusy, 18)]
  | 3, 0x28 => fields [(x.cache.query.toNat, 0), (x.queryNow.toNat, 16)]
  | 3, 0x2C => x.cache.hits.toNat
  | 3, 0x30 => x.cache.misses.toNat
  | 3, 0x34 => x.cache.bindFail.toNat
  | 3, 0x38 => x.cache.evictions.toNat
  | 3, 0x3C => x.cache.scrubs.toNat
  | 4, 0x20 => fields [(x.miss.slots.length, 0), (x.parkedCount, 16)]
  | 4, 0x24 =>
    match x.miss.slots.head? with
    | none => 0
    | some m => fields [(m.domain, 0), (flag m.want, 13), (Nat.min (s.timer - m.since) 0x3FFFF, 14)]
  | 4, 0x28 => x.miss.latMax.toNat
  | 4, 0x2C => x.miss.hold.toNat
  | 4, 0x30 => x.miss.resends.toNat
  | 5, 0x20 => fields [(x.sweep.rekey.length, 0), (x.sweep.dom.length, 5), (flag (!x.sweep.rekey.isEmpty), 10),
                       (flag (!x.sweep.dom.isEmpty), 11), (flag x.sweep.key.isSome, 12)]
  | 5, 0x24 => (x.sweep.rekey.head?.map (fun d => d.sweepId.toNat)).getD 0
  | 5, 0x28 => (x.sweep.dom.head?.map (fun d => d.sweepId.toNat)).getD 0
  | 5, 0x38 => x.sweep.fails.toNat
  | 5, 0x40 =>
    let ws := ((s.dieN (g / 10)).withdraws.map (fun w => (w.reader, (w.live s).filter (fun p => p.1 == g)))).filter (fun w => !w.2.isEmpty)
    let waits (r : Req) : Bool := ws.any (fun w => w.2.contains (g, r.uid)) ||
      x.sweep.retires.any (fun p => p.first ≤ r.domain && r.domain ≤ p.last && r.usesKey && (!p.older || x.needsOther r))
    fields [(flag (!x.sweep.retires.isEmpty), 0), (flag (ws.any (fun w => !w.1)), 1), (flag (ws.any (fun w => w.1)), 2), ((x.reqs.filter waits).length, 16)]
  | _, _ => 0

/-- R193 to R196, R686: the registers of a die section's group. -/
def dieWord (s : State) (d k off : Nat) : Nat :=
  let x := s.dieN d
  let model := bitsOf x.selReader 7 0
  match k, off with
  | 0, 0x20 => bitsNat ((guardsOf d).map (fun g => (s.guardN g).inReset || !x.serveNow) ++ [x.inReset, s.head.attached && s.activeDie == d, x.synced == 7])
  | 0, 0x24 => x.headSeq.toNat
  | 0, 0x28 => x.crcErr.toNat
  | 0, 0x2C => x.seqErr.toNat
  | 0, 0x30 => x.replays.toNat
  | 1, 0x20 => x.selStream.toNat
  | 1, 0x24 => (streamEntry x.streams x.selStream.toNat).toNat
  | 1, 0x28 => (x.streams.filter (fun e => entryState e.2 == 2)).length
  | 2, 0x20 => x.selReader.toNat
  | 2, 0x24 => (alGet 0 x.readers (128 * model + bitsOf x.selReader 14 8)).toNat
  | 2, 0x28 => ((readerWords x.readers (4096 + model)).map (fun p => popCount 32 p.2)).sum
  | 3, 0x20 => bitsNat [x.coreGood, x.guardGood, guardSafe s d, bitAt x.pairRun 0, bitAt x.pairRun 1, bitAt x.pairRun 2, x.t2Run, x.laneRun]
  | _, _ => 0

/-- R687, R688: the registers of the identity page. -/
def identityWord (s : State) (off : Nat) : Nat :=
  let id := if s.fuse.sensed then dieId s else 0
  match off with
  | 0x20 => 0x0301
  | 0x24 => 0x0464
  | 0x28 => s.fuse.grade.toNat
  | 0x2C => 0xF949
  | 0x30 => id.toNat % 2 ^ 32
  | 0x34 => id.toNat / 2 ^ 32
  | 0x38 => s.ports.pxDropped.toNat
  | 0x3C => fields [(s.ports.pxLastAddr.toNat, 0), (s.ports.pxLastClass.toNat, 24)]
  | 0x40 => flag s.ports.devidValid
  | o => if 0x100 ≤ o ∧ o < 0xBA0 then fieldLe s.ports.devidPub (o - 0x100) 4 else 0

/-- R510: the registers of the boot page, for the core that reads. -/
def bootWord (s : State) (p : Path) (off : Nat) : Nat :=
  let b := s.boot
  match off with
  | 0x20 => fields [((coreOf p).getD 0, 0), (b.bootCore, 2), (bitsNat (b.cores.toList.map (· == .halted)), 4), (b.excluded.toNat, 8), (flag b.bootValid, 12)]
  | 0x24 => fields [(flag b.slotB, 0), (b.kind.toNat, 1), (b.attempt.toNat, 3), (flag b.romLocked, 5), (flag b.finalised, 6),
                    (flag b.recovery.opened, 7), (flag b.updateBusy, 8)]
  | 0x28 => b.runSvn.toNat
  | 0x2C => fields [(cairn s, 0), (128 - cairn s, 8), (flag (cairnMarginal s), 16)]
  | 0x34 => b.secEntry.toNat
  | 0x3C => flag b.finalised
  | 0x40 => fields [(b.cairnTarget.toNat, 0), (b.cairnResult.toNat, 8), (flag b.cairnBusy, 16), (flag b.cairnValid, 17), (b.cairnSkipped.toNat, 18)]
  | 0x44 => b.foreign.toNat
  | _ => 0

/-- R523, R526, R527: whether FUSE_READ returns zero for a word. -/
def fuseHidden (s : State) (w : Nat) : Bool :=
  let r := regionOfWord w
  r == 1 || regionAbsent s r || readLocked s r

/-- R548: the registers of the fuse and life-cycle page. -/
def fuseWordReg (s : State) (off : Nat) : Nat :=
  let f := s.fuse
  let w := f.readSel.toNat
  let x := s.shadow w
  let v := if fuseHidden s w then 0 else x.value.toNat
  let count (p : Shadow → Bool) : Nat := (f.shadows.filter p).length
  match off with
  | 0x20 => f.cmd.toNat
  | 0x24 => f.data.toNat % 2 ^ 32
  | 0x28 => f.data.toNat / 2 ^ 32
  | 0x2C => fields [(flag (fuseBusy s), 0), (flag f.valid, 1), (flag f.sensed, 2), (f.result.toNat, 8), (f.skipped.toNat, 16)]
  | 0x30 => w
  | 0x34 => v % 2 ^ 32
  | 0x38 => v / 2 ^ 32
  | 0x3C => bitsNat [x.programmed, x.marginal, x.corrected, x.uncorr, fuseHidden s w]
  | 0x40 => fields [(count Shadow.corrected, 0), (count Shadow.uncorr, 10), (count Shadow.marginal, 20)]
  | 0x44 => fields [(lifeCycle s, 0), (flag f.inForce, 8), (flag f.noIdentity, 9), (flag f.fatal, 10), (flag (debugPermit s), 11), (f.grade.toNat, 16)]
  | 0x48 => fields [(f.lcTarget.toNat, 0), (f.lcResult.toNat, 8), (flag f.lcBusy, 16), (flag f.lcValid, 17)]
  | 0x4C => f.dbgBoot.toNat
  | 0x50 => f.dbgScope.toNat % 2 ^ 32
  | 0x54 => f.dbgScope.toNat / 2 ^ 32
  | 0x58 => bitsNat [f.dbgArm, f.inForce]
  | 0x5C => fields [(f.tmxGroup.toNat, 0), (flag f.tmxEnable, 6), (flag (!tmxOpen s), 7)]
  | 0xA0 => f.foreign.toNat
  | o =>
    if 0x60 ≤ o ∧ o ≤ 0x9C then
      let r := (o - 0x60) / 4
      bitsNat [sealPresent s r, regionSealed s r, writeLocked s r, readLocked s r, regionAbsent s r, (regionWords r).any (fun w => (s.shadow w).marginal)]
    else 0

/-- A map of 64 bits. -/
def bits64 (n : Nat) (p : Nat → Bool) : Nat := bitsNat ((List.range n).map p)

/-- R581: the registers of the bring-up page. -/
def brupWord (s : State) (off : Nat) : Nat :=
  let b := s.brup
  let half (hi : Bool) (v : Nat) : Nat := if hi then v / 2 ^ 32 else v % 2 ^ 32
  let serving := bits64 40 (fun g => (s.guardN g).service == .serving)
  let lost := bits64 40 (fun g => (s.guardN g).service == .lost)
  match off with
  | 0x20 => fields [(b.phase, 0), (flag b.reduced, 3), (flag b.halted, 4), (flag (seedConfig s), 5)]
  | 0x24 => half false serving
  | 0x28 => half true serving
  | 0x2C => half false lost
  | 0x30 => half true lost
  | 0x34 => half false (bits64 64 (fun n => (s.line n).run))
  | 0x38 => half true (bits64 64 (fun n => (s.line n).run))
  | 0x3C => half false (bits64 64 (fun n => (s.line n).up))
  | 0x40 => half true (bits64 64 (fun n => (s.line n).up))
  | 0x44 => half false (bits64 64 (fun n => (b.links.toList.getD n {}).qualified))
  | 0x48 => half true (bits64 64 (fun n => (b.links.toList.getD n {}).qualified))
  | 0x4C => fields [((defectWords s).length, 0), (Nat.min b.findings.length 64, 9), (b.unrecorded.toNat, 16), (b.badWords.toNat, 24)]
  | 0x5C => flag (fpWaiting s)
  | 0x60 => b.fpSeq.toNat
  | 0x64 => fields [(b.fpMismatched, 0), (b.fpFirst, 6), (flag b.fpNoLatch, 14), (flag b.fpValid, 15)]
  | o => if 0x100 ≤ o ∧ o ≤ 0x19C then (b.fpSnap.toList.getD ((o - 0x100) / 4) 0).toNat else 0

/-- R619: the registers of the fault queue page. -/
def fqWord (s : State) (off : Nat) : Nat :=
  let q := s.fq
  match off with
  | 0x20 => fields [(q.entries.length, 0), (q.reserved, 11), (flag q.overflow, 18), (flag (!q.latches.isEmpty), 19), (Nat.min q.latches.length 255, 20)]
  | 0x28 => q.seqNext.toNat
  | 0x2C => q.ovfSel.toNat
  | 0x30 => (alGet 0 q.ovf q.ovfSel.toNat).toNat
  | 0x34 => q.ovf.length
  | o => if 0x40 ≤ o ∧ o ≤ 0x5C then fieldLe ((q.entries.head?.map (fun e => e.1.bytes)).getD []) (o - 0x40) 4 else 0

/-- R620: the registers of the failover page. -/
def foWord (s : State) (off : Nat) : Nat :=
  match off with
  | 0x20 => bitsNat [s.mir.site, s.mir.ready, s.mir.takenOver, s.mir.hold, s.mir.stale]
  | 0x28 => fields [(s.boot.wdogArmed.toNat, 0), (s.boot.wdogExpired.toNat, 4)]
  | 0x2C => s.mir.missed.toNat
  | 0x30 => s.mir.unacked.length
  | 0x34 => s.mir.err.toNat
  | 0x38 => s.mir.resyncs.toNat
  | 0x3C => s.mir.takeoverTime.toNat
  | _ => 0

/-- R310: the registers of the vault page. -/
def vaultWord (s : State) (off : Nat) : Nat :=
  let v := s.vault
  let t := s.tamper
  match off with
  | 0x20 => v.cmd.toNat
  | 0x24 => (v.arg &&& 0x007F7FFF#32).toNat
  | 0x28 => v.len.toNat
  | 0x2C => fields [(flag v.run.isSome, 0), (flag v.valid, 1), (v.result.toNat, 8), (v.dropped.toNat, 16), (v.foreign.toNat, 24)]
  | 0x30 => fields [((v.slots.toList.filter AnchorSlot.occupied).length, 0), ((s.ks.doms.map (fun d => d.gens.length)).sum, 7), (v.bundles.length, 21)]
  | 0x34 => fields [(flag t.cleared, 0), (flag t.pairDie0, 1), (flag t.pairDie2, 2), (flag t.retry, 3), (t.glitches.toNat, 16)]
  | o => if 0x100 ≤ o ∧ o ≤ 0x1FC then (s.anchor ((o - 0x100) / 4)).attr.toNat else 0

/-- R365: the registers of the public-key control page. -/
def pkWord (s : State) (off : Nat) : Nat :=
  let k := s.pk
  match off with
  | 0x20 => fields [(k.fcMode.toNat, 0), (flag k.selftest, 2)]
  | 0x24 => fields [((pkMode k).toNat, 0), (flag k.dpA, 2), (flag k.dpB, 3), (flag k.shortRun.isSome, 4), (flag k.longRun.isSome, 5),
                    (flag (k.longRun.any (fun j => j.phase == .yielded)), 6), (k.shortQ.length, 7), (k.longQ.length, 11),
                    (bitsNat (k.curves.toList.map Option.isSome), 16)]
  | 0x28 => k.jobsDone.toNat
  | 0x2C => k.refused.toNat
  | 0x30 => k.compareFail.toNat
  | 0x34 => k.aborts.toNat
  | 0x38 => k.restarts.toNat
  | 0x3C => k.foreign.toNat
  | 0x40 => k.dropped.toNat
  | _ => 0

/-- R366: the registers of a slot's job page. -/
def jobWord (s : State) (slot off : Nat) : Nat :=
  let x := s.pk.slots.toList.getD slot {}
  match off with
  | 0x20 => x.cmd.toNat
  | 0x24 => bitsOf x.len 9 0
  | 0x28 => fields [(flag (s.pk.busy slot), 0), (flag (s.pk.jobs.any (fun j => j.slot == slot && j.phase != .queued)), 1), (flag x.valid, 2), (flag x.wiped, 3),
                    (flag x.restarted, 4), (flag x.long, 5), (flag x.yielded, 6), (x.mode.toNat, 7), (x.result.toNat, 16), (x.curveFail.toNat, 24)]
  | 0x30 => x.time.toNat
  | 0x34 => x.wait.toNat
  | _ => 0

/-- R372, R373: the code of a context's state. -/
def CtxState.code : CtxState → Nat
  | .free => 0
  | .claimed => 1
  | .opened => 2
  | .finishing => 3
  | .done => 4
  | .ended => 5

/-- R409: the registers of the digest control page. -/
def digWord (s : State) (off : Nat) : Nat :=
  let d := s.dig
  if 0x200 ≤ off then
    let k := (off - 0x200) / 0x380
    let o := (off - 0x200) % 0x380
    let r := s.digRegion k
    if o < 0x200 then pageWord32 r.xfer o
    else if o < 0x240 then pageWord32 r.cmpA (o - 0x200)
    else if o < 0x280 then pageWord32 r.cmpB (o - 0x240)
    else if o = 0x280 then r.cmpCtl.toNat
    else if o = 0x284 then fields [(flag r.cmpBusy, 0), (flag r.isMatch, 1), (flag r.isMatchN, 2), (r.cmpResult.toNat, 8)]
    else if o = 0x288 then r.verdict.toNat
    else 0
  else match off with
    | 0x20 => fields [(d.idleLimit.toNat, 0), (flag (d.testing != 0), 8)]
    | 0x24 => fields [(bitsNat (d.ctxs.toList.map (fun x => x.state != .free)), 0), (popCount 2 d.sha2Cores, 8), (popCount 2 d.kecCores, 10)]
    | 0x28 => d.foreign.toNat
    | 0x2C => d.dropped.toNat
    | 0x30 => d.truncs.toNat
    | 0x34 => d.shorts.toNat
    | 0x38 => fields (d.regions.toList.zipIdx.map (fun r => (r.1.outstanding.length, 5 * r.2)))
    | _ => 0

/-- R410: DIG_CTX_STATUS. -/
def ctxStatus (x : Ctx) : Nat :=
  fields [(x.state.code, 0), (x.owner, 3), (flag x.trunc, 5), (flag x.feeding, 6), (x.code.toNat, 8)]

/-- R410: the registers of a context's page; its key and customisation string read zero. -/
def ctxWord (s : State) (c off : Nat) : Nat :=
  let x := s.ctx c
  match off with
  | 0x20 => x.cmd.toNat
  | 0x24 => bitsOf x.cfg 30 0
  | 0x28 => bitsOf x.outLen 7 0
  | 0x2C => bitsOf x.decl 31 0
  | 0x30 => bitsOf x.decl 39 32
  | 0x38 => x.feedAddr.toNat % 2 ^ 32
  | 0x3C => x.feedAddr.toNat / 2 ^ 32
  | 0x40 => fields [(x.feedLen.toNat, 0), (flag x.feeding, 31)]
  | 0x44 => ctxStatus x
  | o => if 0x200 ≤ o ∧ o < 0x280 ∧ x.state = .done then fieldLe x.result (o - 0x200) 4 else 0

/-- R411: the registers of the entropy page. -/
def entWord (s : State) (off : Nat) : Nat :=
  let e := s.ent
  if 0x100 ≤ off then
    let x := e.draws.toList.getD ((off - 0x100) / 0x80) {}
    let o := (off - 0x100) % 0x80
    if 4 ≤ (off - 0x100) / 0x80 then 0
    else if o = 0 then x.len.toNat
    else if o = 4 then fields [(flag x.busy, 0), (flag x.valid, 1), (x.result.toNat, 8)]
    else if 0x40 ≤ o then (x.out.getD ((o - 0x40) / 4) 0).toNat
    else 0
  else match off with
    | 0x20 => flag e.reseedCtl
    | 0x24 => fields [((match e.noise with
        | .startup => 0
        | .healthy => 1
        | .recovering => 2
        | .outOfService => 3), 0), (flag e.seeded, 2), (flag e.katPass, 3)]
    | 0x28 => e.reqs.toNat
    | 0x2C => e.reseeds.toNat
    | 0x30 => e.rctFail.toNat
    | 0x34 => e.aptFail.toNat
    | 0x38 => e.refused.toNat
    | _ => 0

/-- R233: the registers of the ingest page. -/
def ingestWord (s : State) (off : Nat) : Nat :=
  let u := s.ingest
  match off with
  | 0x20 => fields [(flag u.run.isSome, 0), (u.queue.length, 1), ((u.run.map (fun j => j.model - 4096)).getD 0, 8), (s.vault.bundles.length, 16)]
  | 0x24 => (u.run.map (fun j => j.chunk)).getD 0
  | 0x28 => fields [(u.lastOutcome.toNat, 0), (u.lastModel.toNat, 8), (flag u.lastValid, 16)]
  | 0x2C => u.lastChunk.toNat
  | 0x38 => u.authFail.toNat
  | _ => 0

/-- R261: the registers of the mower page. How many lanes hash in this very cycle is open (log 8). -/
def mowerWord (s : State) (off : Nat) : Nat :=
  let m := s.mower
  match off with
  | 0x20 => fields [(m.run.length, 0), (flag (ingestFeed s), 3), (m.queue.length, 4), (m.kept.length, 16)]
  | 0x24 => fields [(popCount 32 m.lanes, 0), (if ingestFeed s then 12 else 0, 8), (s.free % (popCount 32 m.lanes + 1), 16)]
  | 0x28 => fields [(m.lastOutcome.toNat, 0), (m.lastDomain.toNat, 8), (flag m.lastValid, 21)]
  | 0x2C => m.lastJob.toNat
  | 0x38 => m.readFail.toNat
  | 0x40 => m.laneKatFail.toNat
  | _ => 0

/-- R464: the registers of the attestation page. -/
def attWord (s : State) (off : Nat) : Nat :=
  let a := s.att
  match off with
  | 0x20 => fields [((a.sessions.filter (fun x => !x.operator)).length, 0), ((a.sessions.filter (fun x => x.operator)).length, 10)]
  | 0x24 => a.bootCount.toNat
  | 0x30 => fields [((a.batch.getD []).length, 0), (flag a.batch.isSome, 9), (flag (a.closed.any QuoteBatch.signing), 10),
                    ((a.closed.filter (fun b => !b.signing && b.sig.isNone)).length, 11)]
  | 0x34 => a.refused.toNat
  | 0x38 => a.authFail.toNat
  | 0x3C => fields [(a.logEntries.length, 0), (flag a.logLost, 7)]
  | _ => 0

/-- A mailbox. -/
def State.mbx (s : State) (operator : Bool) : Mbx := if operator then s.operBox else s.tenantBox

/-- R683: the registers of a mailbox control page. -/
def mailboxWord (s : State) (operator : Bool) (off : Nat) : Nat :=
  let m := s.mbx operator
  match off with
  | 0x20 => fields [(m.inLen.toNat, 0), (flag m.inPost, 31)]
  | 0x24 => fields [(m.outLen.toNat, 0), (flag m.outReady, 31)]
  | 0x2C => m.inDropped.toNat
  | _ => 0

/-- R671: the register at an offset of a page, as a reader that every rule admits sees it, without the words of 64-bit registers. -/
def pageWord (s : State) (p : Path) (pg : Page) (off : Nat) : Nat :=
  if off < 0x20 then headerWord s pg off
  else match pg with
    | .identity => identityWord s off
    | .boot => bootWord s p off
    | .fuse => fuseWordReg s off
    | .bringUp => brupWord s off
    | .faultQ => fqWord s off
    | .failover => foWord s off
    | .vault => vaultWord s off
    | .pkControl => pkWord s off
    | .pkJob n => jobWord s n off
    | .digControl => digWord s off
    | .digCtx c => ctxWord s c off
    | .entropy => entWord s off
    | .ingest => ingestWord s off
    | .mower => mowerWord s off
    | .attestation => attWord s off
    | .mailbox op => mailboxWord s op off
    | .die d k => dieWord s d k off
    | .guard g k => guardWord s g k off

/-! ### Access types, classes and owners (R671 to R674) -/

/-- R669 to R672, R687: the offsets of a page's privileged registers; the identity page has none. -/
def pxOffset (pg : Page) (off : Nat) : Bool :=
  (pg != .identity && (off == 0x08 || off == 0x14)) || (match pg with
    | .boot => [0x30, 0x34, 0x38, 0x3C, 0x40].contains off
    | .fuse => [0x20, 0x24, 0x28, 0x30, 0x48, 0x4C, 0x50, 0x54, 0x58, 0x5C].contains off
    | .bringUp => [0x58, 0x5C].contains off
    | .faultQ => [0x24, 0x2C].contains off
    | .failover => off == 0x24
    | .vault => [0x20, 0x24, 0x28].contains off
    | .pkControl => off == 0x20
    | .pkJob _ => [0x20, 0x24].contains off
    | .digControl => off == 0x20 || (0x200 ≤ off && (off - 0x200) % 0x380 ≤ 0x280)
    | .digCtx _ => [0x20, 0x24, 0x28, 0x2C, 0x30, 0x38, 0x3C, 0x40].contains off || (0x100 ≤ off && off < 0x1C0)
    | .entropy => [0x20, 0x100, 0x180, 0x200, 0x280].contains off
    | .ingest => off == 0x3C
    | .mower => off == 0x3C
    | .die _ 1 => [0x20, 0x24].contains off
    | .die _ 2 => [0x20, 0x24].contains off
    | .guard _ 0 => [0x20, 0x24, 0x28].contains off
    | .guard _ 2 => off == 0x4C
    | .guard _ 3 => [0x24, 0x28].contains off
    | _ => false)

/-- R317, R682: the slot and the window offset of an address in a job window. -/
def windowAt (addr : Nat) : Option (Nat × Nat) :=
  if 0x31000 ≤ addr ∧ addr < 0x49000 ∧ 0x1000 ≤ (addr - 0x31000) % 0x3000 then some ((addr - 0x31000) / 0x3000, (addr - 0x31000) % 0x3000 - 0x1000)
  else none

/-- R310, R682: the offset of an address in the vault operand pages. -/
def operandAt (addr : Nat) : Option Nat := if 0x21000 ≤ addr ∧ addr < 0x23000 then some (addr - 0x21000) else none

/-- R682: the mailbox, the direction (true inbound) and the offset of an address in a mailbox buffer. -/
def bufferAt (addr : Nat) : Option (Bool × Bool × Nat) :=
  match addr / 0x1000 with
  | 0x81 => some (false, true, addr % 0x1000)
  | 0x82 => some (false, false, addr % 0x1000)
  | 0x89 => some (true, true, addr % 0x1000)
  | 0x8A => some (true, false, addr % 0x1000)
  | _ => none

/-- R409, R411: the core whose region of the digest control or entropy page an offset lies in. -/
def regionCore (pg : Page) (off : Nat) : Option Nat :=
  match pg with
  | .digControl => if 0x200 ≤ off then some ((off - 0x200) / 0x380) else none
  | .entropy => if 0x100 ≤ off ∧ off < 0x300 then some ((off - 0x100) / 0x80) else none
  | _ => none

/-- R317, R372, R510, R629, R674: whether a page's owner rule lets a path read the register at an offset whole. -/
def ownerReads (s : State) (p : Path) (pg : Page) (off : Nat) : Bool :=
  match pg with
  | .boot => isCore p || off == 0 || off == 0x24 || off == 0x2C
  | .pkJob n => ownsSlot n p
  | .digCtx c => (s.ctx c).state != .free && coreOf p == some (s.ctx c).owner
  | .mailbox true => nodeManagement p
  | _ => match regionCore pg off with
    | none => true
    | some k => coreOf p == some k

/-- R672: the path's number among those that keep latches of their own. -/
def pathKey : Path → Nat
  | .core c => c.toNat
  | .port d _ => 4 + d.toNat

/-- R672: the HI word a path last latched from the LO register at an address. -/
def latched (s : State) (p : Path) (lo : Nat) : Nat :=
  ((s.ports.latches.find? (fun l => l.1 == pathKey p && l.2.1.toNat == lo)).map (fun l => l.2.2.toNat)).getD 0

/-- R671 to R674: what a path reads from a register page. -/
def pageRead (s : State) (p : Path) (pg : Page) (addr : Nat) : Nat :=
  let off := addr % 0x1000
  if !ownerReads s p pg off then
    match pg with
    | .digCtx c => if off = 0x44 then fields [((s.ctx c).state.code, 0), ((s.ctx c).owner, 3)] else 0
    | _ => 0
  else if pxOffset pg off && !privileged p then 0
  else match wide s pg off with
    | some v => v.toNat % 2 ^ 32
    | none => if 4 ≤ off ∧ (wide s pg (off - 4)).isSome then latched s p (addr - 4) else pageWord s p pg off

/-- R307, R310, R317, R367, R629, R666, R671 to R674, R681: the word a path reads at an address. -/
def ctlRead (s : State) (p : Path) (addr : Nat) : BitVec 32 :=
  let v : Nat :=
    if s.cleared && addr / 0x1000 ≠ 0 && addr / 0x1000 ≠ 0x20 then 0
    else match windowAt addr with
      | some (n, o) => if ownsSlot n p && !s.pk.busy n then pageWord32 (s.pk.slots.toList.getD n {}).window o else 0
      | none => match operandAt addr with
        | some o => if privileged p then pageWord32 s.vault.shown o else 0
        | none => match bufferAt addr with
          | some (op, inb, o) => if op && !nodeManagement p then 0 else pageWord32 (if inb then (s.mbx op).inBuf else (s.mbx op).outBuf) o
          | none => ((pageAt addr).map (fun pg => pageRead s p pg addr)).getD 0
  BitVec.ofNat 32 v

/-- R317: a read of a job page or window that its owner rule refuses is counted. -/
def readForeign (p : Path) (addr : Nat) (s : State) : State :=
  if 0x31000 ≤ addr ∧ addr < 0x49000 ∧ !ownsSlot ((addr - 0x31000) / 0x3000) p then pkForeign s else s

/-- R672: reading LO latches HI for the path that reads. -/
def readLatch (p : Path) (addr : Nat) (s : State) : State :=
  match pageAt addr with
  | none => s
  | some pg =>
    if !ownerReads s p pg (addr % 0x1000) then s
    else match wide s pg (addr % 0x1000) with
      | none => s
      | some v => s.modPorts (fun q => { q with
          latches := q.latches.filter (fun l => !(l.1 == pathKey p && l.2.1.toNat == addr)) ++ [(pathKey p, BitVec.ofNat 24 addr, v.extractLsb' 32 32)] })

/-- R411: the core and the word of an address in ENT_DRAW_OUT. -/
def drawOutAt (addr : Nat) : Option (Nat × Nat) :=
  let o := addr - (entPage + 0x100)
  if entPage + 0x100 ≤ addr ∧ o < 0x200 ∧ 0x40 ≤ o % 0x80 then some (o / 0x80, (o % 0x80 - 0x40) / 4) else none

/-- R408: a read of ENT_DRAW_OUT by its core wipes the word. -/
def readWipe (p : Path) (addr : Nat) (s : State) : State :=
  match drawOutAt addr with
  | none => s
  | some (k, i) => if coreOf p == some k then s.modEnt (fun e => { e with draws := vmod e.draws k (fun x => { x with out := x.out.set i 0 }) }) else s

/-- R671: what a read leaves behind. -/
def readEffects (p : Path) (addr : Nat) (s : State) : State :=
  if s.cleared then s else readWipe p addr (readLatch p addr (readForeign p addr s))

/-- R625, R626, R671, R679: a read over a path: refused without a target; the error of an unclocked target is the CTL_TIMEOUT command. -/
def readAt (p : Path) (addr : Nat) (s : State) : State :=
  if s.ports.rstCold then s
  else if !reaches s p addr then accessError p s
  else if !clocked s addr then s
  else accessOk p (ctlRead s p addr) (if (pageAt addr).any (fun pg => pg == .mower && addr % 0x1000 == 0x24) then (readEffects p addr s).used else readEffects p addr s)

/-- DRAW_OUT_READ (R408, R411): a read of a word of ENT_DRAW_OUT. -/
def execDrawOutRead (p : Path) (addr : BitVec 24) (s : State) : Out :=
  done (onlyIf (drawOutAt addr.toNat).isSome (readAt p addr.toNat) s)

/-- LO_WORD_READ (R672): a read of a LO word latches its HI word. The table has no row for other reads: this command also reads every other register
but ENT_DRAW_OUT (log 3). -/
def execLoWordRead (p : Path) (addr : BitVec 24) (s : State) : Out :=
  done (onlyIf (drawOutAt addr.toNat).isNone (readAt p addr.toNat) s)

/-! ### Writes -/

/-- The state that a command of a row leaves. -/
def Out.stateOr (s : State) : Out → State
  | .next t => t
  | _ => s

/-- R669 to R671: a write of PAGE_CTRL or PAGE_FAULT_MASK of a page: only bits whose select bit is set, MASK_LOCK only to 1, and the mask only while
it is not locked. -/
def headerPut (off : Nat) (value : BitVec 32) (h : PageHdr) : PageHdr :=
  if off = 0x08 then (if bitAt value 16 && bitAt value 0 then { h with maskLock := true } else h)
  else if h.maskLock then h
  else { h with mask := (h.mask &&& ~~~ (value.extractLsb' 16 16)) ||| (value.extractLsb' 0 16 &&& value.extractLsb' 16 16) }

/-- R310, R510: what counts a write of the boot page by another initiator than a management core. -/
def bootForeign (s : State) : State := s.modBoot (fun b => { b with foreign := satInc b.foreign })

/-- R669, R670, R672, R674: a write of a register of a page's common header, privileged but on the identity page (R687). -/
def headerWrite (p : Path) (pg : Page) (addr : Nat) (value : BitVec 32) (s : State) : State :=
  let k (t : State) : State := modHdr (headerPut (addr % 0x1000) value) t pg
  match pg with
  | .identity => writeAt false p addr k s
  | .pkJob n => writeOwned p addr (ownsSlot n p) pkForeign k s
  | .digCtx c => writeOwned p addr (ctxOwned s c p false) digForeign k s
  | .boot => writeOwned p addr (isCore p) bootForeign k s
  | .failover => writeOwned p addr (isCore p) id k s
  | .mailbox true => writeOwned p addr false id id s
  | _ => writeAt true p addr k s

/-- R14, R671, R672, R674: a write of a register that a write does not change: ignored with a normal response, and counted where the page's owner rule
refuses it, or, of a privileged register, its class. -/
def ignoredWrite (p : Path) (pg : Page) (addr : Nat) (s : State) : State :=
  let off := addr % 0x1000
  let px := pxOffset pg off
  let gate (own : Bool) (count : State → State) : State := if px then writeOwned p addr own count id s else writeGated p addr own count id s
  match pg with
  | .pkJob n => gate (ownsSlot n p) pkForeign
  | .digCtx c => gate (ctxOwned s c p false) digForeign
  | .boot => gate (isCore p) bootForeign
  | .failover => gate (isCore p) id
  | _ => match regionCore pg off with
    | some k => gate (coreOf p == some k) digForeign
    | none => writeAt px p addr id s

/-- The low half of a 64-bit register. -/
def putLow (v : BitVec 64) (w : BitVec 32) : BitVec 64 := v.extractLsb' 32 32 ++ w

/-- The high half of a 64-bit register. -/
def putHigh (v : BitVec 64) (w : BitVec 32) : BitVec 64 := w ++ v.extractLsb' 0 32

/-- R110 to R114, R189 to R192: a write of a register of a guard's group. A write of GUARD_KAT_INJECT that injects a block is the command of that
name (log 3). -/
def guardPut (p : Path) (g : Fin 40) (k off addr : Nat) (value : BitVec 32) (s : State) : State :=
  match k, off with
  | 0, 0x20 => (execFence g p value s).stateOr s
  | 0, 0x24 => (execGuardThrottle g p value s).stateOr s
  | 0, 0x28 => (execGuardLaneShare g p value s).stateOr s
  | 0, 0x70 => (execGuardErrClear g p value s).stateOr s
  | 1, 0x20 => writeAt false p addr (State.modGuard g (fun x => { x with page := { x.page with tfSel := value.extractLsb' 0 13 } })) s
  | 1, 0x2C => (execGuardTagfailClear g p value s).stateOr s
  | 2, 0x4C => if bitAt value 0 then s else writeAt true p addr id s
  | 3, 0x24 => if bitAt value 13 then (execKcPin g p value s).stateOr s else (execKcUnpin g p value s).stateOr s
  | 3, 0x28 => (execKcQuery g p value s).stateOr s
  | 4, 0x34 => (execGuardMissClear g p value s).stateOr s
  | _, _ => ignoredWrite p (.guard g k) addr s

/-- R195, R196: a write of a register of a die section's group. -/
def diePut (p : Path) (d k off addr : Nat) (value : BitVec 32) (s : State) : State :=
  match k, off with
  | 1, 0x20 => writeAt true p addr (State.modDie d (fun x => { x with selStream := value.extractLsb' 0 16 })) s
  | 2, 0x20 => writeAt true p addr (State.modDie d (fun x => { x with selReader := value.extractLsb' 0 15 })) s
  | _, _ => ignoredWrite p (.die d k) addr s

/-- R510: a write of a register of the boot page. -/
def bootPut (p : Path) (off addr : Nat) (value : BitVec 32) (s : State) : State :=
  match off with
  | 0x30 => (execBootRelease p value s).stateOr s
  | 0x34 => bootWrite 0x34 p (State.modBoot (fun b => { b with secEntry := value })) s
  | 0x38 => (execBootHandover p value s).stateOr s
  | 0x3C => bootWrite 0x3C p (bootCtlWrite value) s
  | 0x40 => bootWrite 0x40 p (cairnCmdWrite value) s
  | _ => ignoredWrite p .boot addr s

/-- R531, R548: a write of a register of the fuse and life-cycle page. -/
def fusePut (p : Path) (off addr : Nat) (value : BitVec 32) (s : State) : State :=
  let plain (f : Fuse → Fuse) : State := writeAt true p addr (State.modFuse f) s
  match off with
  | 0x20 => fuseWrite 0x20 p (fuseCmdWrite value) s
  | 0x24 => plain (fun f => { f with data := putLow f.data value })
  | 0x28 => plain (fun f => { f with data := putHigh f.data value })
  | 0x30 => plain (fun f => { f with readSel := value.extractLsb' 0 9 })
  | 0x48 => fuseWrite 0x48 p (lcCmdWrite value) s
  | 0x4C => fuseWrite 0x4C p (State.modFuse (fun f => { f with dbgBoot := value })) s
  | 0x50 => fuseWrite 0x50 p (State.modFuse (fun f => { f with dbgScope := putLow f.dbgScope value })) s
  | 0x54 => fuseWrite 0x54 p (State.modFuse (fun f => { f with dbgScope := putHigh f.dbgScope value })) s
  | 0x58 => fuseWrite 0x58 p (armWrite value) s
  | 0x5C => (execTmxCtl p value s).stateOr s
  | _ => ignoredWrite p .fuse addr s

/-- R310: a write of a register of the vault page. -/
def vaultPut (p : Path) (off addr : Nat) (value : BitVec 32) (s : State) : State :=
  match off with
  | 0x20 =>
    if bitAt value 31 then vaultGo p value s
    else writeAt true p addr (vaultCmdWrite p value) s
  | 0x24 => writeAt true p addr (State.modVault (fun v => { v with arg := value })) s
  | 0x28 => writeAt true p addr (State.modVault (fun v => { v with len := value.extractLsb' 0 9 })) s
  | _ => ignoredWrite p .vault addr s

/-- R366, R367: a write of a register of a slot's job page. -/
def jobPut (p : Path) (n off addr : Nat) (value : BitVec 32) (s : State) : State :=
  match off with
  | 0x20 => writeOwned p addr (ownsSlot n p) pkForeign (pkCmdWrite n value) s
  | 0x24 => writeOwned p addr (ownsSlot n p) pkForeign (fun s =>
      if s.pk.busy n then s.modPk (fun k => { k with dropped := satInc k.dropped })
      else modSlot n (fun x => { x with len := value }) s) s
  | 0x2C => writeGated p addr (ownsSlot n p) pkForeign (pkCtlWrite n value) s
  | _ => ignoredWrite p (.pkJob n) addr s

/-- R409: a write of a register of the digest control page. -/
def digPut (p : Path) (off addr : Nat) (value : BitVec 32) (s : State) : State :=
  if 0x200 ≤ off then
    let k := (off - 0x200) / 0x380
    let o := (off - 0x200) % 0x380
    if o < 0x200 then regionWrite k o p (modRegion k (fun r => { r with xfer := bufStore 0 r.xfer o (vecBytes 4 value) })) s
    else if o < 0x240 then regionWrite k o p (modRegion k (fun r => { r with cmpA := bufStore 0 r.cmpA (o - 0x200) (vecBytes 4 value) })) s
    else if o < 0x280 then regionWrite k o p (modRegion k (fun r => { r with cmpB := bufStore 0 r.cmpB (o - 0x240) (vecBytes 4 value) })) s
    else if o = 0x280 then regionWrite k o p (cmpCtlWrite k value) s
    else ignoredWrite p .digControl addr s
  else match off with
    | 0x20 => if bitAt value 8 then (execDigSelftest p value s).stateOr s else writeAt true p addr (digCtlWrite value) s
    | 0x3C => writeAt false p addr (discardWrite p value) s
    | _ => ignoredWrite p .digControl addr s

/-- R372, R410: a write of a register of a context's page. -/
def ctxPut (p : Path) (c off addr : Nat) (value : BitVec 32) (s : State) : State :=
  let plain (f : Ctx → Ctx) : State := ctxWrite c off false p (modCtx c f) s
  match off with
  | 0x20 => ctxWrite c 0x20 (isClaim value) p (ctxCmdWrite c p value) s
  | 0x24 => plain (fun x => { x with cfg := value })
  | 0x28 => plain (fun x => { x with outLen := value })
  | 0x2C => plain (fun x => { x with decl := putLow x.decl value })
  | 0x30 => plain (fun x => { x with decl := putHigh x.decl value })
  | 0x34 => writeGated p addr (ctxOwned s c p false) digForeign (dataWord c value) s
  | 0x38 => plain (fun x => { x with feedAddr := putLow x.feedAddr value })
  | 0x3C => plain (fun x => { x with feedAddr := putHigh x.feedAddr value })
  | 0x40 => ctxWrite c 0x40 false p (feedCtlWrite c value) s
  | o =>
    if 0x100 ≤ o ∧ o < 0x180 then plain (fun x => { x with key := bufStore 0 x.key (o - 0x100) (vecBytes 4 value) })
    else if 0x180 ≤ o ∧ o < 0x1C0 then plain (fun x => { x with custom := bufStore 0 x.custom (o - 0x180) (vecBytes 4 value) })
    else ignoredWrite p (.digCtx c) addr s

/-- R411: a write of a register of the entropy page. -/
def entPut (p : Path) (off addr : Nat) (value : BitVec 32) (s : State) : State :=
  match off with
  | 0x20 => (execReseed p value s).stateOr s
  | 0x100 => (execEntDraw 0 p value s).stateOr s
  | 0x180 => (execEntDraw 1 p value s).stateOr s
  | 0x200 => (execEntDraw 2 p value s).stateOr s
  | 0x280 => (execEntDraw 3 p value s).stateOr s
  | _ => ignoredWrite p .entropy addr s

/-! ### Mailboxes (R629, R682 to R685) -/

/-- R684: a packet or buffer write discarded is counted. -/
def inDropped (operator : Bool) (s : State) : State := modBox operator (fun m => { m with inDropped := satInc m.inDropped }) s

/-- R423: a whole MCTP message: one of SPDM or of a session's records waits to be carried out; one of MCTP control is answered at once; every other type
is dropped. -/
def arriveMessage (p : MctpPart) (m : Mbx) : Mbx :=
  match (p.bytes.getD 0 0).toNat with
  | 0x05 => { m with arrived := m.arrived ++ [{ req := p.bytes.drop 1, src := p.src, tag := p.tag }] }
  | 0x06 => { m with arrived := m.arrived ++ [{ req := p.bytes.drop 1, record := true, src := p.src, tag := p.tag }] }
  | 0x00 =>
    if bitAt (p.bytes.getD 1 0) 7 then
      let r := mctpControl m.eid p.bytes
      let eid := r.1.getD m.eid
      pumpBox { m with eid := eid, outPkts := m.outPkts ++ mctpPackets p.src eid p.tag r.2 }
    else m
  | _ => m

/-- R423: a packet that the block has copied is assembled with those before it. -/
def arrivePacket (pkt : Bytes) (m : Mbx) : Mbx :=
  if !mctpTakes m.eid pkt then m
  else
    let r := mctpAssemble m.parts pkt
    match r.2 with
    | none => { m with parts := r.1 }
    | some p => arriveMessage p { m with parts := r.1 }

/-- R423, R684: the block copies a posted packet and clears POST, while something runs that takes packets, and assembles it. -/
def takePosted (operator : Bool) (s : State) : State :=
  onlyIf ((s.mbx operator).inPost && attUp s)
    (modBox operator (fun m =>
      let pkt := bufLoad 0 m.inBuf 0 m.inLen.toNat
      arrivePacket pkt { m with inPost := false, taken := pkt :: m.taken })) s

/-- R683, R684: a write of MBX_IN_CTL. -/
def inCtlWrite (operator : Bool) (value : BitVec 32) (s : State) : State :=
  if (s.mbx operator).inPost then inDropped operator s
  else
    let n := bitsOf value 10 0
    let s := modBox operator (fun m => { m with inLen := BitVec.ofNat 11 n }) s
    if !bitAt value 31 then s
    else if n < 5 ∨ 1028 < n then inDropped operator s
    else takePosted operator (modBox operator (fun m => { m with inPost := true }) s)

/-- R629: a write to a mailbox page: that of the operator answers only the management network's bridge, and drops every other write. -/
def boxWrite (operator : Bool) (p : Path) (addr : Nat) (k : State → State) (s : State) : State :=
  writeGated p addr (!operator || nodeManagement p) id k s

/-- The control page of a mailbox (R682). -/
def boxPage (operator : Bool) : Nat := if operator then 0x88000 else 0x80000

/-- R684: a write of MBX_OUT_CTL with TAKEN: READY clears and the next packet is written to the buffer. While READY reads 0 it is ignored. -/
def outCtlWrite (operator : Bool) (value : BitVec 32) (s : State) : State :=
  onlyIf (bitAt value 0 && (s.mbx operator).outReady) (modBox operator (fun m => pumpBox { m with outReady := false })) s

/-- MAILBOX_POST (R683 to R685): a write of MBX_IN_CTL with POST hands the packet in the inbound buffer to the block. -/
def execMailboxPost (operator : Bool) (p : Path) (value : BitVec 32) (s : State) : Out :=
  done (onlyIf (bitAt value 31) (boxWrite operator p (boxPage operator + 0x20) (inCtlWrite operator value)) s)

/-- TAKEN (R683, R684): the bridge has copied the outbound packet. -/
def execTaken (operator : Bool) (p : Path) (value : BitVec 32) (s : State) : Out :=
  done (onlyIf (bitAt value 0) (boxWrite operator p (boxPage operator + 0x28) (outCtlWrite operator value)) s)

/-- R683: a write of a register of a mailbox control page. -/
def mailboxPut (operator : Bool) (p : Path) (off addr : Nat) (value : BitVec 32) (s : State) : State :=
  match off with
  | 0x20 => boxWrite operator p addr (inCtlWrite operator value) s
  | 0x28 => boxWrite operator p addr (outCtlWrite operator value) s
  | _ => boxWrite operator p addr id s

/-- R682, R684: a write to a mailbox buffer; to the inbound buffer while POST reads 1 it is dropped and counted. -/
def bufferPut (operator inbound : Bool) (o : Nat) (p : Path) (addr : Nat) (value : BitVec 32) (s : State) : State :=
  boxWrite operator p addr (fun s =>
    if inbound && (s.mbx operator).inPost then inDropped operator s
    else modBox operator (fun m => if inbound then { m with inBuf := bufStore 0 m.inBuf o (vecBytes 4 value) }
                                   else { m with outBuf := bufStore 0 m.outBuf o (vecBytes 4 value) }) s) s

/-! ### Writes by address -/

/-- R671, R681: a write to a register page. -/
def pagePut (p : Path) (pg : Page) (addr : Nat) (value : BitVec 32) (s : State) : State :=
  let off := addr % 0x1000
  if off = 0x08 ∨ off = 0x14 then headerWrite p pg addr value s
  else match pg with
    | .identity => ignoredWrite p .identity addr s
    | .boot => bootPut p off addr value s
    | .fuse => fusePut p off addr value s
    | .bringUp =>
      if off = 0x58 then writeAt true p addr (newCtlWrite value) s
      else if off = 0x5C then (execFpSample p value s).stateOr s
      else ignoredWrite p .bringUp addr s
    | .faultQ =>
      if off = 0x24 then writeAt true p addr (fqCtlWrite value) s
      else if off = 0x2C then writeAt true p addr (State.modFq (fun q => { q with ovfSel := value.extractLsb' 0 21 })) s
      else ignoredWrite p .faultQ addr s
    | .failover => if off = 0x24 then (execFoWdog p value s).stateOr s else ignoredWrite p .failover addr s
    | .vault => vaultPut p off addr value s
    | .pkControl => if off = 0x20 then writeAt true p addr (pkCtlRegWrite value) s else ignoredWrite p .pkControl addr s
    | .pkJob n => jobPut p n off addr value s
    | .digControl => digPut p off addr value s
    | .digCtx c => ctxPut p c off addr value s
    | .entropy => entPut p off addr value s
    | .ingest => if off = 0x3C then (execIngestAbort p value s).stateOr s else ignoredWrite p .ingest addr s
    | .mower => if off = 0x3C then (execMowerAbort p value s).stateOr s else ignoredWrite p .mower addr s
    | .attestation => ignoredWrite p .attestation addr s
    | .mailbox op => mailboxPut op p off addr value s
    | .die d k => diePut p d k off addr value s
    | .guard g k => if h : g < 40 then guardPut p ⟨g, h⟩ k off addr value s else s

/-- R310, R367, R666, R681: a write at an address of the window. An address that nothing is assigned to ignores it. -/
def ctlWrite (p : Path) (addr : Nat) (value : BitVec 32) (s : State) : State :=
  match windowAt addr with
  | some (n, o) => writeOwned p addr (ownsSlot n p) pkForeign (fun s =>
      if s.pk.busy n then s.modPk (fun k => { k with dropped := satInc k.dropped })
      else modSlot n (fun x => { x with window := bufStore 0 x.window o (vecBytes 4 value) }) s) s
  | none => match operandAt addr with
    | some o => writeAt true p addr (State.modVault (fun v => { v with
        opnd := bufStore 0 v.opnd o (vecBytes 4 value), shown := bufStore 0 v.shown o (zeros 4) })) s
    | none => match bufferAt addr with
      | some (op, inb, o) => bufferPut op inb o p addr value s
      | none => match pageAt addr with
        | some pg => pagePut p pg addr value s
        | none => writeAt false p addr id s

/-- REGISTER_WRITE (R14, R671 to R674, R676): a write over a path to any register; of one that has a row of its own, with the effect of that row. -/
def execRegisterWrite (p : Path) (addr : BitVec 24) (value : BitVec 32) (s : State) : Out :=
  done (onlyIf (addr.toNat % 4 == 0 || (match p with
    | .core _ => false
    | .port _ _ => true)) (ctlWrite p addr.toNat value) s)

/-- CTL_TIMEOUT (R44, R626, R679): an access to an unclocked target ends with an error after 10 us, and the fault is queued. -/
def execCtlTimeout (p : Path) (addr : BitVec 24) (_write : Bool) (s : State) : Out :=
  done (whenUp s (onlyIf (reaches s p addr.toNat && !clocked s addr.toNat) (fun s =>
    let s := raise false kControl 0 fCtlTimeout 0 addr.toNat (reachTime (s.timer + 10) s)
    (accessError p s).modPorts (fun q => { q with ctlErrRecent := true }))))

/-! ### Telemetry (R461, R462) -/

/-- R462: whether a TELEMETRY_READ may read the word at an address. -/
def telemetryMay (addr : Nat) : Bool :=
  match pageAt addr with
  | some (.guard _ _) => true
  | some (.die _ _) => true
  | some .ingest => true
  | some .mower => true
  | some .vault => true
  | some .pkControl => true
  | some .digControl => addr % 0x1000 < 0x200
  | some .entropy => addr % 0x1000 < 0x100
  | some .attestation => true
  | _ => false

/-- R461, R679: the words of a telemetry read, in rising order, over the boot core's path; a word of an unclocked target reads zero and times out. -/
def telemetryWords (c : Fin 4) (addr : Nat) : Nat → State → Bytes × State
  | 0, s => ([], s)
  | n + 1, s =>
    if clocked s addr then
      let r := telemetryWords c (addr + 4) n (readEffects (.core c) addr s)
      (vecBytes 4 (ctlRead s (.core c) addr) ++ r.1, r.2)
    else
      let r := telemetryWords c (addr + 4) n ((raise false kControl 0 fCtlTimeout 0 addr s).modPorts (fun q => { q with ctlErrRecent := true }))
      (zeros 4 ++ r.1, r.2)

/-- TELEMETRY_READ (R440, R461, R462): words of permitted pages are returned. -/
def execTelemetryRead (sess : Nat) (tag : BitVec 32) (body : Bytes) (s : State) : Out :=
  done (whenUp s (onMessage (operMsg 0x0109) (exactly 8) sess tag body (fun _ w s =>
    let addr := fieldLe body 0 4
    let n := fieldLe body 4 2
    if fieldLe body 6 2 ≠ 0 then refuse w eReserved s
    else if n = 0 ∨ 64 < n ∨ addr % 4 ≠ 0 ∨ !((List.range n).all (fun i => telemetryMay (addr + 4 * i))) then refuse w eRange s
    else
      let r := telemetryWords (Fin.ofNat 4 s.boot.bootCore) addr n s
      reply { w with body := r.1 } eOk r.2)))

/-! ### Indications that last a time (R602, R604) -/

/-- RECENT_WINDOW_EXPIRY (R602, R604): the time after the latest event of an indication has passed. Bits 0 to 7 name PAGE_FAULT bits of the page at
`page` times 0x1000, bits 8 to 15 its PAGE_STATUS bits; bit 7 of the identity page names evt_line[7]. -/
def execRecentWindowExpiry (page : BitVec 12) (bit : BitVec 4) (s : State) : Out :=
  let b := bit.toNat
  done (whenUp s fun s =>
    match pageAt (page.toNat * 0x1000) with
    | none => s
    | some pg => match pg, b with
      | .identity, 7 => s.modPorts (fun q => { q with ctlErrRecent := false })
      | .fuse, 2 => s.modFuse (fun f => { f with recheckRecent := false })
      | .bringUp, 3 => s.modBrup (fun f => { f with fpRecent := false })
      | .failover, 1 => s.modMir (fun m => { m with mirrorRecent := false })
      | .failover, 2 => s.modMir (fun m => { m with wdogRecent := false })
      | .vault, 1 => s.modVault (fun v => { v with eccRecent := false })
      | .pkControl, 2 => s.modPk (fun k => { k with compareRecent := false })
      | .digControl, 0 => s.modDig (fun d => { d with splitRecent := false })
      | .entropy, 0 => s.modEnt (fun e => { e with healthRecent := false })
      | .ingest, 0 => s.modIngest (fun u => { u with authRecent := false })
      | .ingest, 9 => s.modIngest (fun u => { u with shareLimited := false })
      | .mower, 1 => s.modMower (fun m => { m with mismatchRecent := false })
      | .mower, 9 => s.modMower (fun m => { m with shareLimited := false })
      | .die d 0, 0 => s.modDie d (fun x => { x with crcRecent := false })
      | .die d 0, 1 => s.modDie d (fun x => { x with seqRecent := false })
      | .guard g 0, 9 => s.modGuard g (fun x => { x with page := { x.page with throttledRecent := false } })
      | .guard g 3, 0 => s.modGuard g (fun x => { x with cache := { x.cache with bindRecent := false } })
      | .guard g 3, 9 => s.modGuard g (fun x => { x with cache := { x.cache with noVictimRecent := false } })
      | _, _ => s)

end Sys2Proof.Machine
end

