-- ==== Sys2Proof/Machine/Dma.lean ====
section
/-!
DEFINITION. Responses at the DMA initiator port and what each work does with them (R174, R380 to R382, R386, R491, R543, R554, R555, R630 to R633).
-/

namespace Sys2Proof.Machine
open Sys2Proof

/-- R630: the bytes of a work's string that lie in its line `k`, once that line has been read. -/
def dmaLineBytes (s : State) (n k : Nat) : Option Bytes :=
  match s.dma.work n with
  | none => none
  | some (_, addr, len) =>
    (s.dma.lines.find? (fun l => l.1 == n && l.2.1 == k)).map (fun l =>
      ((vecBytes 64 l.2.2).take (addr % 64 + len - 64 * k)).drop (if k = 0 then addr % 64 else 0))

/-- R380, R386: the lines of a digest feed are offered to its context in the order of their addresses, as far as they have been read. -/
def feedLines (c n : Nat) : Nat → State → State
  | 0, s => s
  | fuel + 1, s =>
    let k := (s.ctx c).dmaNext
    match dmaLineBytes s n k with
    | none => s
    | some bs =>
      feedLines c n fuel ((modCtx c (fun x => { x.offer bs with dmaNext := k + 1 }) s).modDma
        (fun d => { d with lines := d.lines.filter (fun l => !(l.1 == n && l.2.1 == k)) }))

/-- R380 to R382, R386: a line of a digest feed has been read. With its last line offered the feed ends. -/
def feedArrived (c n : Nat) (s : State) : State :=
  match s.dma.work n with
  | none => s
  | some (_, addr, len) =>
    let s := feedLines c n (s.dma.lines.length + 1) s
    let s := if (s.ctx c).dmaNext = dmaLineCount addr len then feedEnd c ((s.ctx c).feedAll - len) s else s
    ctxSettle c s

/-- R633: a work that needed a failed request ends as the table of R633 states. -/
def dmaFailed (n : Nat) (k : DmaWork) (s : State) : State :=
  match k with
  | .regionList =>
    match s.ks.reads.find? (fun r => r.work == n) with
    | none => dmaEnd n s
    | some r => refuseRegionRead r eRegion s
  | .digest c => ctxEnd c 0x73 s
  | .image => updateRefused eBusy s
  | .token w => refuse w eAuth (dmaEnd n s)
  | .package line => packageFailed line n s

/-- R491, R543: a work all of whose lines have been answered goes on, where no command of its own says so. -/
def dmaArrived (n : Nat) (k : DmaWork) (s : State) : State :=
  match k with
  | .digest c => feedArrived c n s
  | .image => updateRead s
  | .token w => if dmaWhole s n then decideToken w (dmaBytes s n) (dmaEnd n s) else s
  | _ => s

/-- DMA_RESPONSE (R630 to R633): the request with an identifier in flight is answered. Any other identifier, and an answer to a work that has ended,
is discarded. -/
def execDmaResponse (id : BitVec 6) (err : Bool) (data : BitVec 512) (s : State) : Out :=
  done (whenUp s fun s =>
    match s.dma.flight.find? (fun f => f.1 == id) with
    | none => s
    | some (_, n, k, write) =>
      let s := s.modDma (fun d => { d with flight := d.flight.filter (fun f => f.1 != id) })
      match s.dma.work n with
      | none => dmaPump s
      | some (w, _, _) =>
        if err then settle (dmaPump (dmaFailed n w s))
        else
          let s := if write then s else s.modDma (fun d => { d with lines := d.lines ++ [(n, k, data)] })
          settle (dmaPump (dmaArrived n w s)))

end Sys2Proof.Machine
end

