-- ==== Sys2Proof/Machine/Recovery.lean ====
section
/-!
DEFINITION. The recovery loader (R504 to R509, R542, R651): frames from the recovery serial port and their answers.
-/

namespace Sys2Proof.Machine
open Sys2Proof

/-- R505: the bytes of a frame. -/
def frameBytes (type : Nat) (seq : BitVec 8) (payload : Bytes) : Bytes :=
  let b := [0x4B#8, 0x46#8, BitVec.ofNat 8 type, seq] ++ leBytes 2 payload.length ++ payload
  b ++ vecBytes 4 (crc32c b)

/-- R506: the payload of ACK. -/
def ackOf (code : BitVec 8) : Nat × Bytes := (0x80, [code, 0, 0, 0])

/-- R506, R540: the payload of INFO. -/
def infoOf (s : State) : Nat × Bytes :=
  (0x81, [3, 1] ++ leBytes 1 (lifeCycle s) ++ leBytes 1 (cairn s) ++ vecBytes 2 s.boot.handover.reason ++ zeros 2 ++ vecBytes 8 (dieId s) ++
    padTo 48 s.att.romDigest)

/-- R506: the payload of RESULT. -/
def resultOf (code : BitVec 8) (seq : Nat) : Nat × Bytes := (0x82, [code, 0, 0, 0, 0, 0, 0, 0] ++ leBytes 4 seq)

/-- The loader changed by `f`. -/
def modRec (f : Recovery → Recovery) (s : State) : State := s.modBoot (fun b => { b with recovery := f b.recovery })

/-- R506, R651: an answer is sent. -/
def recSend (seq : BitVec 8) (a : Nat × Bytes) (s : State) : State := modRec (fun r => { r with tx := r.tx ++ [frameBytes a.1 seq a.2] }) s

/-- R507: a frame in sequence is answered, and its answer kept for a repetition. -/
def recAnswer (seq : BitVec 8) (a : Nat × Bytes) (s : State) : State :=
  modRec (fun r => { r with expSeq := seq + 1, lastAnswer := some (frameBytes a.1 seq a.2) }) (recSend seq a s)

/-- R505 to R507, R542: a frame from the host. `first` marks HELLO; `k` gives the effect and the answer of a frame in sequence. A decommissioned
part adopts nothing, and a frame too long is no frame of these rows. -/
def recFrame (first : Bool) (seq : BitVec 8) (payload : Bytes) (k : State → State × (Nat × Bytes)) (s : State) : State :=
  if !s.boot.recovery.opened ∨ 4100 < payload.length then s
  else
    let s := modRec (fun r => { r with discarding := false }) s
    let r := s.boot.recovery
    if lifeCycle s = 4 then recSend seq (if first then infoOf s else ackOf eState) s
    else if r.hello && r.lastAnswer.isSome && seq + 1 == r.expSeq then modRec (fun r => { r with tx := r.tx ++ r.lastAnswer.toList }) s
    else if first then let t := k s; recAnswer seq t.2 t.1
    else if !r.hello then recSend seq (ackOf eState) s
    else if seq != r.expSeq then recSend seq (ackOf 0x32) s
    else let t := k s; recAnswer seq t.2 t.1

/-- RECOVERY_HELLO (R505 to R507, R542): the buffer is cleared and the sequence begins. -/
def execRecoveryHello (seq : BitVec 8) (payload : Bytes) (s : State) : Out :=
  done (whenUp s (recFrame true seq payload (fun s =>
    if payload ≠ [] then (s, ackOf eRange)
    else
      let s := modRec (fun r => { r with hello := true, buf := [], marked := [] }) s
      (s, infoOf s))))

/-- RECOVERY_WRITE (R505 to R508): image bytes are placed in the buffer. -/
def execRecoveryWrite (seq : BitVec 8) (payload : Bytes) (s : State) : Out :=
  done (whenUp s (recFrame false seq payload (fun s =>
    let o := fieldLe payload 0 4
    let n := payload.length - 4
    if n = 0 ∨ 4096 < n ∨ o % 4096 ≠ 0 ∨ 0x800000 < o + n then (s, ackOf eRange)
    else (modRec (fun r => { r with buf := bufStore 0 r.buf o (payload.drop 4), marked := (r.marked.filter (· != o / 4096)) ++ [o / 4096] }) s,
      ackOf eOk))))

/-- R508: the first check that a COMMIT fails. -/
def commitRefused (s : State) (total : Nat) : Option (BitVec 8) :=
  let r := s.boot.recovery
  let h := bufLoad 0 r.buf 0 16384
  let img := imageOf h
  if total ≠ 16384 + img.bodyLen ∨ (List.range ((total + 4095) / 4096)).any (fun i => !r.marked.contains i) then some eState
  else if !headerFields h ∨ headerReserved h then some eRange
  else if !vendorOk s h (bufLoad 0 r.buf 16384 img.bodyLen) then some eAuth
  else if img.svn < cairn s then some 0x22
  else none

/-- RECOVERY_COMMIT (R505 to R508): the buffered image is checked and adopted into slot A, a trial record appended, and the security core reset
10 ms later. `flashOk` tells whether every flash operation succeeded. -/
def execRecoveryCommit (seq : BitVec 8) (payload : Bytes) (flashOk : Bool) (s : State) : Out :=
  done (whenUp s (recFrame false seq payload (fun s =>
    if payload.length ≠ 4 then (s, resultOf eRange 0)
    else match commitRefused s (fieldLe payload 0 4) with
      | some c => (s, resultOf c 0)
      | none =>
        let h := bufLoad 0 s.boot.recovery.buf 0 16384
        let body := bufLoad 0 s.boot.recovery.buf 16384 (imageOf h).bodyLen
        if !flashOk then (programImage false h body s, resultOf 0x33 0)
        else
          let t := adopt false h body s
          let n := nextCommitSeq t
          ((commitAppend false false (imageOf h).svn t).modBoot (fun b => { b with resetDue := some (s.timer + 10000) }), resultOf eOk n))))

/-- RECOVERY_ABORT (R505 to R507): answered, with no other effect. -/
def execRecoveryAbort (seq : BitVec 8) (payload : Bytes) (s : State) : Out :=
  done (whenUp s (recFrame false seq payload (fun s => (s, ackOf (if payload = [] then eOk else eRange)))))

/-- RECOVERY_RESERVED_FRAME (R506): a frame of a reserved type. -/
def execRecoveryReservedFrame (type seq : BitVec 8) (payload : Bytes) (s : State) : Out :=
  done (whenUp s (onlyIf (type == 0 || 4 < type.toNat) (recFrame false seq payload (fun s => (s, ackOf eReserved)))))

/-- DAMAGED_FRAME (R505): bytes are discarded up to the next SYNC and nothing is answered. -/
def execDamagedFrame (s : State) : Out :=
  done (whenUp s (onlyIf s.boot.recovery.opened (modRec (fun r => { r with discarding := true }))))

end Sys2Proof.Machine
end

