-- ==== Sys2Proof/Machine/Dispatch.lean ====
section
/-!
DEFINITION. The dispatch of a command to its meaning: one arm per constructor of Instr.
-/

namespace Sys2Proof.Machine
open Sys2Proof

/-- The effect of a command on everything but the queue of waiting commands. -/
def exec (i : Instr) (s : State) : Host.Outcome State Fault Refusal :=
  match i with
  | .coldReset => Sys2Proof.Machine.execColdReset s
  | .coldResetRelease => Sys2Proof.Machine.execColdResetRelease s
  | .fuseSensingDone read => Sys2Proof.Machine.execFuseSensingDone read s
  | .bootValid passing => Sys2Proof.Machine.execBootValid passing s
  | .romBoot octal => Sys2Proof.Machine.execRomBoot octal s
  | .bootHandover p value => Sys2Proof.Machine.execBootHandover p value s
  | .bootRelease p value => Sys2Proof.Machine.execBootRelease p value s
  | .finalised p value => Sys2Proof.Machine.execFinalised p value s
  | .bootCtlCoreReset p value => Sys2Proof.Machine.execBootCtlCoreReset p value s
  | .delayedCoreReset => Sys2Proof.Machine.execDelayedCoreReset s
  | .securityCoreReset => Sys2Proof.Machine.execSecurityCoreReset s
  | .cairnRaise p value => Sys2Proof.Machine.execCairnRaise p value s
  | .cairnRaiseEnd failed => Sys2Proof.Machine.execCairnRaiseEnd failed s
  | .imageUpdate sess tag body => Sys2Proof.Machine.execImageUpdate sess tag body s
  | .imageAdopted flashOk => Sys2Proof.Machine.execImageAdopted flashOk s
  | .recoveryHello seq payload => Sys2Proof.Machine.execRecoveryHello seq payload s
  | .recoveryWrite seq payload => Sys2Proof.Machine.execRecoveryWrite seq payload s
  | .recoveryCommit seq payload flashOk => Sys2Proof.Machine.execRecoveryCommit seq payload flashOk s
  | .recoveryAbort seq payload => Sys2Proof.Machine.execRecoveryAbort seq payload s
  | .recoveryReservedFrame type seq payload => Sys2Proof.Machine.execRecoveryReservedFrame type seq payload s
  | .fuseProgram p value => Sys2Proof.Machine.execFuseProgram p value s
  | .fuseSeal p value => Sys2Proof.Machine.execFuseSeal p value s
  | .lockWrite p value => Sys2Proof.Machine.execLockWrite p value s
  | .lockRead p value => Sys2Proof.Machine.execLockRead p value s
  | .revoke p value => Sys2Proof.Machine.execRevoke p value s
  | .fuseOperationEnd failed => Sys2Proof.Machine.execFuseOperationEnd failed s
  | .fuseResense read => Sys2Proof.Machine.execFuseResense read s
  | .lcToProvision p value => Sys2Proof.Machine.execLcToProvision p value s
  | .lcToMission p value => Sys2Proof.Machine.execLcToMission p value s
  | .lcToDecommissioned p value => Sys2Proof.Machine.execLcToDecommissioned p value s
  | .lcTransitionEffect => Sys2Proof.Machine.execLcTransitionEffect s
  | .lcDebugArm p value => Sys2Proof.Machine.execLcDebugArm p value s
  | .debugUnlock sess tag body => Sys2Proof.Machine.execDebugUnlock sess tag body s
  | .decommission sess tag body => Sys2Proof.Machine.execDecommission sess tag body s
  | .tmxCtl p value => Sys2Proof.Machine.execTmxCtl p value s
  | .phaseAdvance => Sys2Proof.Machine.execPhaseAdvance s
  | .packageVerified => Sys2Proof.Machine.execPackageVerified s
  | .relUp line => Sys2Proof.Machine.execRelUp line s
  | .relUpFall line => Sys2Proof.Machine.execRelUpFall line s
  | .releaseTimeout line => Sys2Proof.Machine.execReleaseTimeout line s
  | .sealSweepEnd g => Sys2Proof.Machine.execSealSweepEnd g s
  | .bankTestPass g bank => Sys2Proof.Machine.execBankTestPass g bank s
  | .unitSelfTestPass unit => Sys2Proof.Machine.execUnitSelfTestPass unit s
  | .pop p value => Sys2Proof.Machine.execPop p value s
  | .unrecorded p value => Sys2Proof.Machine.execUnrecorded p value s
  | .guardReset sess tag body => Sys2Proof.Machine.execGuardReset sess tag body s
  | .sectionReset sess tag body => Sys2Proof.Machine.execSectionReset sess tag body s
  | .guardFence sess tag body => Sys2Proof.Machine.execGuardFence sess tag body s
  | .unitHold sess tag body => Sys2Proof.Machine.execUnitHold sess tag body s
  | .unitRelease sess tag body => Sys2Proof.Machine.execUnitRelease sess tag body s
  | .coreReset sess tag body => Sys2Proof.Machine.execCoreReset sess tag body s
  | .fpSample p value => Sys2Proof.Machine.execFpSample p value s
  | .fingerprintCompare => Sys2Proof.Machine.execFingerprintCompare s
  | .fpNoLatch => Sys2Proof.Machine.execFpNoLatch s
  | .fingerprintSampleInterval => Sys2Proof.Machine.execFingerprintSampleInterval s
  | .upstreamRequest g slice op stream domain addr txn => Sys2Proof.Machine.execUpstreamRequest g slice op stream domain addr txn s
  | .writeDataBeat g slice txn data be side => Sys2Proof.Machine.execWriteDataBeat g slice txn data be side s
  | .downstreamRequestIssue g uid => Sys2Proof.Machine.execDownstreamRequestIssue g uid s
  | .downstreamReadResponse g tag err data side => Sys2Proof.Machine.execDownstreamReadResponse g tag err data side s
  | .downstreamWriteAck g tag err => Sys2Proof.Machine.execDownstreamWriteAck g tag err s
  | .upstreamResponse g slice => Sys2Proof.Machine.execUpstreamResponse g slice s
  | .laneParity g bank lane stage lines => Sys2Proof.Machine.execLaneParity g bank lane stage lines s
  | .knownAnswerInjection g bank lane good lines => Sys2Proof.Machine.execKnownAnswerInjection g bank lane good lines s
  | .guardKatInject g p value bad lines => Sys2Proof.Machine.execGuardKatInject g p value bad lines s
  | .spareSubstitution g bank => Sys2Proof.Machine.execSpareSubstitution g bank s
  | .fence g p value => Sys2Proof.Machine.execFence g p value s
  | .guardThrottle g p value => Sys2Proof.Machine.execGuardThrottle g p value s
  | .throttleInterval g => Sys2Proof.Machine.execThrottleInterval g s
  | .guardLaneShare g p value => Sys2Proof.Machine.execGuardLaneShare g p value s
  | .guardErrClear g p value => Sys2Proof.Machine.execGuardErrClear g p value s
  | .guardTagfailClear g p value => Sys2Proof.Machine.execGuardTagfailClear g p value s
  | .memoryPortClockStopped g => Sys2Proof.Machine.execMemoryPortClockStopped g s
  | .memoryPortClockRunning g => Sys2Proof.Machine.execMemoryPortClockRunning g s
  | .keyReqResend g slot => Sys2Proof.Machine.execKeyReqResend g slot s
  | .stopInsert die => Sys2Proof.Machine.execStopInsert die s
  | .keyReq => Sys2Proof.Machine.execKeyReq s
  | .keyServiceAnswer ecc => Sys2Proof.Machine.execKeyServiceAnswer ecc s
  | .keyFill die => Sys2Proof.Machine.execKeyFill die s
  | .keyNone die => Sys2Proof.Machine.execKeyNone die s
  | .deferredFillInstall g => Sys2Proof.Machine.execDeferredFillInstall g s
  | .kcPin g p value => Sys2Proof.Machine.execKcPin g p value s
  | .kcUnpin g p value => Sys2Proof.Machine.execKcUnpin g p value s
  | .pinReservationTake g => Sys2Proof.Machine.execPinReservationTake g s
  | .kcQuery g p value => Sys2Proof.Machine.execKcQuery g p value s
  | .bindScrub g => Sys2Proof.Machine.execBindScrub g s
  | .guardMissClear g p value => Sys2Proof.Machine.execGuardMissClear g p value s
  | .rotate die => Sys2Proof.Machine.execRotate die s
  | .retire die => Sys2Proof.Machine.execRetire die s
  | .retiringEntryDrop g => Sys2Proof.Machine.execRetiringEntryDrop g s
  | .retireDequeue => Sys2Proof.Machine.execRetireDequeue s
  | .ack => Sys2Proof.Machine.execAck s
  | .broadcastResend opId sync => Sys2Proof.Machine.execBroadcastResend opId sync s
  | .ackTimeout opId sync => Sys2Proof.Machine.execAckTimeout opId sync s
  | .streamSet die => Sys2Proof.Machine.execStreamSet die s
  | .readerSet die => Sys2Proof.Machine.execReaderSet die s
  | .withdrawalDrained die => Sys2Proof.Machine.execWithdrawalDrained die s
  | .tableSync die => Sys2Proof.Machine.execTableSync die s
  | .pulseInterval => Sys2Proof.Machine.execPulseInterval s
  | .pulse die => Sys2Proof.Machine.execPulse die s
  | .ringErr => Sys2Proof.Machine.execRingErr s
  | .headMessageReturn wire => Sys2Proof.Machine.execHeadMessageReturn wire s
  | .regionListRead => Sys2Proof.Machine.execRegionListRead s
  | .descriptorSend => Sys2Proof.Machine.execDescriptorSend s
  | .sweepCmd die => Sys2Proof.Machine.execSweepCmd die s
  | .sweepLine g rdErr data side wrErr => Sys2Proof.Machine.execSweepLine g rdErr data side wrErr s
  | .domainSweepLine g wrErr => Sys2Proof.Machine.execDomainSweepLine g wrErr s
  | .sweepDone => Sys2Proof.Machine.execSweepDone s
  | .sweepAbort die => Sys2Proof.Machine.execSweepAbort die s
  | .teardownDrainEnd domain => Sys2Proof.Machine.execTeardownDrainEnd domain s
  | .domainCreate sess tag body => Sys2Proof.Machine.execDomainCreate sess tag body s
  | .operatorDomainTeardown sess tag body => Sys2Proof.Machine.execOperatorDomainTeardown sess tag body s
  | .streamPropose sess tag body => Sys2Proof.Machine.execStreamPropose sess tag body s
  | .streamWithdraw sess tag body => Sys2Proof.Machine.execStreamWithdraw sess tag body s
  | .operatorStreamUnbind sess tag body => Sys2Proof.Machine.execOperatorStreamUnbind sess tag body s
  | .regionList sess tag body => Sys2Proof.Machine.execRegionList sess tag body s
  | .ingestStart sess tag body => Sys2Proof.Machine.execIngestStart sess tag body s
  | .linkAssign sess tag body => Sys2Proof.Machine.execLinkAssign sess tag body s
  | .telemetryRead sess tag body => Sys2Proof.Machine.execTelemetryRead sess tag body s
  | .setShares sess tag body => Sys2Proof.Machine.execSetShares sess tag body s
  | .pinMsg sess tag body => Sys2Proof.Machine.execPinMsg sess tag body s
  | .unpinMsg sess tag body => Sys2Proof.Machine.execUnpinMsg sess tag body s
  | .quoteBlock sess tag body => Sys2Proof.Machine.execQuoteBlock sess tag body s
  | .getVersion operator sess req => Sys2Proof.Machine.execGetVersion operator sess req s
  | .getCapabilities operator sess req => Sys2Proof.Machine.execGetCapabilities operator sess req s
  | .negotiateAlgorithms operator sess req => Sys2Proof.Machine.execNegotiateAlgorithms operator sess req s
  | .getDigests operator sess req => Sys2Proof.Machine.execGetDigests operator sess req s
  | .getCertificate operator sess req => Sys2Proof.Machine.execGetCertificate operator sess req s
  | .challenge operator sess req => Sys2Proof.Machine.execChallenge operator sess req s
  | .getMeasurements operator sess req => Sys2Proof.Machine.execGetMeasurements operator sess req s
  | .chunkSend operator sess req => Sys2Proof.Machine.execChunkSend operator sess req s
  | .chunkGet operator sess req => Sys2Proof.Machine.execChunkGet operator sess req s
  | .spdmHeartbeat sess req => Sys2Proof.Machine.execSpdmHeartbeat sess req s
  | .keyUpdate sess req => Sys2Proof.Machine.execKeyUpdate sess req s
  | .endSession sess req => Sys2Proof.Machine.execEndSession sess req s
  | .unsupportedRequest operator sess req => Sys2Proof.Machine.execUnsupportedRequest operator sess req s
  | .kexKeys operator tag body => Sys2Proof.Machine.execKexKeys operator tag body s
  | .hybKex operator tag body => Sys2Proof.Machine.execHybKex operator tag body s
  | .hybFinish sess tag body => Sys2Proof.Machine.execHybFinish sess tag body s
  | .hybFinishTimeout sess => Sys2Proof.Machine.execHybFinishTimeout sess s
  | .sessionIdleTimeout sess => Sys2Proof.Machine.execSessionIdleTimeout sess s
  | .credProve sess tag body => Sys2Proof.Machine.execCredProve sess tag body s
  | .quote sess tag body => Sys2Proof.Machine.execQuote sess tag body s
  | .quoteBatchClose => Sys2Proof.Machine.execQuoteBatchClose s
  | .domainSeed sess tag body => Sys2Proof.Machine.execDomainSeed sess tag body s
  | .streamConfirm sess tag body => Sys2Proof.Machine.execStreamConfirm sess tag body s
  | .tenantStreamUnbind sess tag body => Sys2Proof.Machine.execTenantStreamUnbind sess tag body s
  | .tenantDomainTeardown sess tag body => Sys2Proof.Machine.execTenantDomainTeardown sess tag body s
  | .linkKey sess tag body => Sys2Proof.Machine.execLinkKey sess tag body s
  | .lkAck err => Sys2Proof.Machine.execLkAck err s
  | .lkAckTimeout => Sys2Proof.Machine.execLkAckTimeout s
  | .linkReport w0 w1 w2 w3 => Sys2Proof.Machine.execLinkReport w0 w1 w2 w3 s
  | .measureFull sess tag body => Sys2Proof.Machine.execMeasureFull sess tag body s
  | .measurePartial sess tag body => Sys2Proof.Machine.execMeasurePartial sess tag body s
  | .measureIncremental sess tag body => Sys2Proof.Machine.execMeasureIncremental sess tag body s
  | .keptRelease sess tag body => Sys2Proof.Machine.execKeptRelease sess tag body s
  | .eventPoll sess tag body => Sys2Proof.Machine.execEventPoll sess tag body s
  | .bundleKey sess tag body => Sys2Proof.Machine.execBundleKey sess tag body s
  | .readerGrantAdd sess tag body => Sys2Proof.Machine.execReaderGrantAdd sess tag body s
  | .readerGrantRemove sess tag body => Sys2Proof.Machine.execReaderGrantRemove sess tag body s
  | .readerGrantRevoke sess tag body => Sys2Proof.Machine.execReaderGrantRevoke sess tag body s
  | .bundleKeyLapse model => Sys2Proof.Machine.execBundleKeyLapse model s
  | .ingestJobStart => Sys2Proof.Machine.execIngestJobStart s
  | .ingestHeaderRead lines => Sys2Proof.Machine.execIngestHeaderRead lines s
  | .ingestChunk lines writes => Sys2Proof.Machine.execIngestChunk lines writes s
  | .ingestManifest lines => Sys2Proof.Machine.execIngestManifest lines s
  | .ingestAbort p value => Sys2Proof.Machine.execIngestAbort p value s
  | .measurementJobStart => Sys2Proof.Machine.execMeasurementJobStart s
  | .mowerReadIssue job => Sys2Proof.Machine.execMowerReadIssue job s
  | .mowerNodeHashed => Sys2Proof.Machine.execMowerNodeHashed s
  | .mowerLaneKat lane good => Sys2Proof.Machine.execMowerLaneKat lane good s
  | .mowerAbort p value => Sys2Proof.Machine.execMowerAbort p value s
  | .vaultGenerate p value => Sys2Proof.Machine.execVaultGenerate p value s
  | .vaultGeneratePair p value => Sys2Proof.Machine.execVaultGeneratePair p value s
  | .vaultDerive p value => Sys2Proof.Machine.execVaultDerive p value s
  | .vaultImport p value => Sys2Proof.Machine.execVaultImport p value s
  | .vaultExport p value => Sys2Proof.Machine.execVaultExport p value s
  | .save p value => Sys2Proof.Machine.execSave p value s
  | .restore p value => Sys2Proof.Machine.execRestore p value s
  | .clear p value => Sys2Proof.Machine.execClear p value s
  | .statement p value => Sys2Proof.Machine.execStatement p value s
  | .tamperAssertion die held => Sys2Proof.Machine.execTamperAssertion die held s
  | .tamperZeroizeDone failed => Sys2Proof.Machine.execTamperZeroizeDone failed s
  | .pkSign slot p value => Sys2Proof.Machine.execPkSign slot p value s
  | .pkVerify slot p value => Sys2Proof.Machine.execPkVerify slot p value s
  | .pkKeygen slot p value => Sys2Proof.Machine.execPkKeygen slot p value s
  | .pkPublic slot p value => Sys2Proof.Machine.execPkPublic slot p value s
  | .pkDerive slot p value => Sys2Proof.Machine.execPkDerive slot p value s
  | .pkEncaps slot p value => Sys2Proof.Machine.execPkEncaps slot p value s
  | .pkDecaps slot p value => Sys2Proof.Machine.execPkDecaps slot p value s
  | .pkCheckCurve slot p value => Sys2Proof.Machine.execPkCheckCurve slot p value s
  | .pkJobStart long => Sys2Proof.Machine.execPkJobStart long s
  | .pkValidationBoundary long runsDiffer => Sys2Proof.Machine.execPkValidationBoundary long runsDiffer s
  | .pkCheckpoint => Sys2Proof.Machine.execPkCheckpoint s
  | .pkJobEnd long runsDiffer => Sys2Proof.Machine.execPkJobEnd long runsDiffer s
  | .pkAbort slot p value => Sys2Proof.Machine.execPkAbort slot p value s
  | .pkAbortComplete long => Sys2Proof.Machine.execPkAbortComplete long s
  | .pkScrub slot p value => Sys2Proof.Machine.execPkScrub slot p value s
  | .fcMode p value => Sys2Proof.Machine.execFcMode p value s
  | .pkSelftest p value => Sys2Proof.Machine.execPkSelftest p value s
  | .pkSelftestEnd goodA goodB => Sys2Proof.Machine.execPkSelftestEnd goodA goodB s
  | .pkPeriodicKat datapathB good => Sys2Proof.Machine.execPkPeriodicKat datapathB good s
  | .pkDatapath datapathB residue => Sys2Proof.Machine.execPkDatapath datapathB residue s
  | .claim ctx p value => Sys2Proof.Machine.execClaim ctx p value s
  | .ctxOpen ctx p value => Sys2Proof.Machine.execCtxOpen ctx p value s
  | .ctxFinish ctx p value => Sys2Proof.Machine.execCtxFinish ctx p value s
  | .ctxClose ctx p value => Sys2Proof.Machine.execCtxClose ctx p value s
  | .ctxAbort ctx p value => Sys2Proof.Machine.execCtxAbort ctx p value s
  | .ctxExport ctx p value => Sys2Proof.Machine.execCtxExport ctx p value s
  | .ctxImport ctx p value => Sys2Proof.Machine.execCtxImport ctx p value s
  | .digCtxData ctx p value => Sys2Proof.Machine.execDigCtxData ctx p value s
  | .dmaFeed ctx p value => Sys2Proof.Machine.execDmaFeed ctx p value s
  | .digestBlock ctx => Sys2Proof.Machine.execDigestBlock ctx s
  | .eShort ctx => Sys2Proof.Machine.execEShort ctx s
  | .digDiscard region p value => Sys2Proof.Machine.execDigDiscard region p value s
  | .digSelftest p value => Sys2Proof.Machine.execDigSelftest p value s
  | .compare region p value => Sys2Proof.Machine.execCompare region p value s
  | .compareResult c split => Sys2Proof.Machine.execCompareResult c split s
  | .noiseSample bit => Sys2Proof.Machine.execNoiseSample bit s
  | .drbgInstantiate katGood => Sys2Proof.Machine.execDrbgInstantiate katGood s
  | .reseed p value => Sys2Proof.Machine.execReseed p value s
  | .drbgRequest => Sys2Proof.Machine.execDrbgRequest s
  | .entDraw region p value => Sys2Proof.Machine.execEntDraw region p value s
  | .drawOutRead p addr => Sys2Proof.Machine.execDrawOutRead p addr s
  | .loWordRead p addr => Sys2Proof.Machine.execLoWordRead p addr s
  | .lockstep standby c => Sys2Proof.Machine.execLockstep standby c s
  | .watchdog standby c => Sys2Proof.Machine.execWatchdog standby c s
  | .foWdog p value => Sys2Proof.Machine.execFoWdog p value s
  | .fqPop p value => Sys2Proof.Machine.execFqPop p value s
  | .clearOvf p value => Sys2Proof.Machine.execClearOvf p value s
  | .heartbeatInterval => Sys2Proof.Machine.execHeartbeatInterval s
  | .mirrorHello => Sys2Proof.Machine.execMirrorHello s
  | .mirrorHeartbeat wire => Sys2Proof.Machine.execMirrorHeartbeat wire s
  | .store wire => Sys2Proof.Machine.execStore wire s
  | .modelFrame wire => Sys2Proof.Machine.execModelFrame wire s
  | .readers wire => Sys2Proof.Machine.execReaders wire s
  | .counters wire => Sys2Proof.Machine.execCounters wire s
  | .image wire => Sys2Proof.Machine.execImage wire s
  | .hold wire => Sys2Proof.Machine.execHold wire s
  | .holdExpiry => Sys2Proof.Machine.execHoldExpiry s
  | .status wire => Sys2Proof.Machine.execStatus wire s
  | .mirrorAck wire => Sys2Proof.Machine.execMirrorAck wire s
  | .mirrorAckTimeout => Sys2Proof.Machine.execMirrorAckTimeout s
  | .standbyLost => Sys2Proof.Machine.execStandbyLost s
  | .mirrorResync => Sys2Proof.Machine.execMirrorResync s
  | .activeCoreLost => Sys2Proof.Machine.execActiveCoreLost s
  | .mirFail => Sys2Proof.Machine.execMirFail s
  | .mirTakeover => Sys2Proof.Machine.execMirTakeover s
  | .registerWrite p addr value => Sys2Proof.Machine.execRegisterWrite p addr value s
  | .ctlTimeout p addr write => Sys2Proof.Machine.execCtlTimeout p addr write s
  | .dmaResponse id err data => Sys2Proof.Machine.execDmaResponse id err data s
  | .mailboxPost operator p value => Sys2Proof.Machine.execMailboxPost operator p value s
  | .taken operator p value => Sys2Proof.Machine.execTaken operator p value s
  | .guardPowerFall die => Sys2Proof.Machine.execGuardPowerFall die s
  | .guardPowerGood die => Sys2Proof.Machine.execGuardPowerGood die s
  | .corePowerFall die => Sys2Proof.Machine.execCorePowerFall die s
  | .startTimeFinding kind unit sub => Sys2Proof.Machine.execStartTimeFinding kind unit sub s
  | .damagedMessage die wire => Sys2Proof.Machine.execDamagedMessage die wire s
  | .idleWord die => Sys2Proof.Machine.execIdleWord die s
  | .damagedFrame => Sys2Proof.Machine.execDamagedFrame s
  | .recentWindowExpiry page bit => Sys2Proof.Machine.execRecentWindowExpiry page bit s
  | .powerLimit stage => Sys2Proof.Machine.execPowerLimit stage s

end Sys2Proof.Machine
end

