-- ==== Sys2Proof/Machine/Requests.lean ====
section
/-!
DEFINITION. Requests that have arrived through a mailbox in packets are carried out (R423, R424, R436, R439, R440): each by the row of its code.
-/

namespace Sys2Proof.Machine
open Sys2Proof

/-- The rows that share a message code, one after another: each leaves what is not its own as it was. -/
def carryRows (rows : List (State → Out)) (s : State) : State := rows.foldl (fun t r => (r t).stateOr t) s

/-- R440: the rows of a message outside a session. -/
def outsideRows (operator : Bool) (m : Nat) (tag : BitVec 32) (body : Bytes) : List (State → Out) :=
  match m with
  | 0x0001 => [execKexKeys operator tag body]
  | 0x0002 => [execHybKex operator tag body]
  | _ => []

/-- R440: the rows of a message of a tenant's session. -/
def tenantRows (id m : Nat) (tag : BitVec 32) (body : Bytes) : List (State → Out) :=
  match m with
  | 0x0003 => [execHybFinish id tag body]
  | 0x0004 => [execCredProve id tag body]
  | 0x0010 => [execQuote id tag body]
  | 0x0020 => [execDomainSeed id tag body]
  | 0x0021 => [execStreamConfirm id tag body]
  | 0x0022 => [execTenantStreamUnbind id tag body]
  | 0x0023 => [execTenantDomainTeardown id tag body]
  | 0x0024 => [execLinkKey id tag body]
  | 0x0030 => [execMeasureFull id tag body, execMeasurePartial id tag body, execMeasureIncremental id tag body]
  | 0x0031 => [execKeptRelease id tag body]
  | 0x0040 => [execEventPoll id tag body]
  | 0x0050 => [execBundleKey id tag body]
  | 0x0051 => [execReaderGrantAdd id tag body, execReaderGrantRemove id tag body, execReaderGrantRevoke id tag body]
  | _ => []

/-- R461: the rows of a message of the operator. -/
def operatorRows (id m : Nat) (tag : BitVec 32) (body : Bytes) : List (State → Out) :=
  match m with
  | 0x0101 => [execDomainCreate id tag body]
  | 0x0102 => [execOperatorDomainTeardown id tag body]
  | 0x0103 => [execStreamPropose id tag body]
  | 0x0104 => [execStreamWithdraw id tag body]
  | 0x0105 => [execOperatorStreamUnbind id tag body]
  | 0x0106 => [execRegionList id tag body]
  | 0x0107 => [execIngestStart id tag body]
  | 0x0108 => [execLinkAssign id tag body]
  | 0x0109 => [execTelemetryRead id tag body]
  | 0x010A => [execGuardReset id tag body, execSectionReset id tag body, execGuardFence id tag body, execUnitHold id tag body,
      execUnitRelease id tag body, execCoreReset id tag body, execImageUpdate id tag body, execDebugUnlock id tag body, execDecommission id tag body]
  | 0x010B => [execSetShares id tag body]
  | 0x010C => [execPinMsg id tag body, execUnpinMsg id tag body]
  | 0x010D => [execQuoteBlock id tag body]
  | _ => []

/-- R424: the row of an SPDM request that is not vendor-defined. A part of a large request does not come in parts. -/
def spdmRows (operator : Bool) (sess : Option Nat) (req : Bytes) : List (State → Out) :=
  match reqByte req 1, sess with
  | 0x84, _ => [execGetVersion operator sess req]
  | 0xE1, _ => [execGetCapabilities operator sess req]
  | 0xE3, _ => [execNegotiateAlgorithms operator sess req]
  | 0x81, _ => [execGetDigests operator sess req]
  | 0x82, _ => [execGetCertificate operator sess req]
  | 0x83, _ => [execChallenge operator sess req]
  | 0xE0, _ => [execGetMeasurements operator sess req]
  | 0x85, _ => [execChunkSend operator sess req]
  | 0x86, _ => [execChunkGet operator sess req]
  | 0xE8, some id => [execSpdmHeartbeat id req]
  | 0xE9, some id => [execKeyUpdate id req]
  | 0xEC, some id => [execEndSession id req]
  | _, _ => [fun s => done (whenUp s (spdmReply operator sess (.error (if knownCode (reqByte req 1) then 0x04 else 0x07))))]

/-- R424, R439, R440: a request is carried out by its row; a vendor-defined one whose header the block refuses, by UNSUPPORTED_REQUEST. -/
def carryRequest (operator : Bool) (sess : Option Nat) (req : Bytes) (s : State) : State :=
  if reqByte req 1 ≠ 0xFE then carryRows (spdmRows operator sess req) s
  else
    let p := (vendorPayload req).getD []
    let m := fieldLe p 0 2
    let tag := bytesVec 32 (slice p 4 4)
    if reqByte req 0 ≠ 0x13 || !vendorMine req || p.isEmpty || !knownMsg m || (m == 1 || m == 2) == sess.isSome || fieldLe p 2 2 != 0 then
      carryRows [execUnsupportedRequest operator sess req] s
    else match sess with
      | none => carryRows (outsideRows operator m tag (p.drop 8)) s
      | some id => carryRows (tenantRows id m tag (p.drop 8) ++ operatorRows id m tag (p.drop 8)) s

/-- R423, R424: whether a session is open on a mailbox, for a record or a large request of it. -/
def sessOn (s : State) (operator : Bool) (id : Nat) : Option Session := (s.sess id).bind (fun x => if x.operator == operator then some x else none)

/-- R423, R424: a request outside a session, or of a session whose record has been opened, is carried out for the endpoint it came from. A message larger
than the data transfer size is turned away (log 10). -/
def serveRequest (operator : Bool) (sess : Option Nat) (a : Arrived) (req : Bytes) (s : State) : State :=
  let s := modConn operator sess (fun c => { c with peer := a.src, peerTag := a.tag }) s
  if 4096 < req.length then spdmReply operator sess (.error 0x0E) s else carryRequest operator sess req s

/-- R424: a large request is carried out, its answer to travel in the acknowledgement of its last part; the transfer of a large message is none. -/
def serveLarge (operator : Bool) (a : Arrived) (s : State) : State :=
  let s := onlyIf (!(a.sess.bind s.sess).any Session.busy)
    (modConn operator a.sess (fun c => { c with ackDue := some (c.inHandle, c.inSeq) })) s
  if reqByte a.req 1 = 0x85 ∨ reqByte a.req 1 = 0x86 then spdmReply operator a.sess (.error 0x04) s
  else carryRequest operator a.sess a.req s

/-- R423, R430: an arrived request is carried out. A record that no open session of the mailbox can open is dropped. -/
def serveArrived (operator : Bool) (a : Arrived) (s : State) : State :=
  if a.record then
    let id := fieldLe a.req 0 4
    match (sessOn s operator id).bind (fun x => openRecord x.reqSecret x.reqSeq a.req) with
    | none => s
    | some req => serveRequest operator (some id) a req (modSess id (fun x => { x with reqSeq := x.reqSeq + 1 }) s)
  else if a.large then
    if a.sess.all (fun id => (sessOn s operator id).isSome) then serveLarge operator a s else s
  else serveRequest operator none a a.req s

/-- R423: the oldest request that has arrived through a mailbox is carried out. -/
def serveMailbox (operator : Bool) (s : State) : State :=
  match (s.mbx operator).arrived with
  | [] => s
  | a :: as => onlyIf (attUp s) (fun s => serveArrived operator a (modBox operator (fun m => { m with arrived := as }) s)) s

end Sys2Proof.Machine
end

