-- ==== Sys2Proof/Machine/Tick.lean ====
section
/-!
DEFINITION. What happens when no command waits: a microsecond of the block timer passes (R689, log 1).
-/

namespace Sys2Proof.Machine
open Sys2Proof

/-- R689: the block timer counts while the always-on logic is out of reset. -/
def timerTick (s : State) : State := if s.ports.aonUp then s.modTimer (· + 1) else s

/-- R547: the test multiplexer shows what its group's signals read now. -/
def tmxTick (s : State) : State := if tmxOpen s then tmxShow s else s

/-- R423, R547, R684, R689: a microsecond without a command: the timer counts, posted packets are taken, the oldest request that has arrived through each
mailbox is carried out, and the test multiplexer shows its group. -/
def tick (s : State) : State :=
  whenUp s fun s => tmxTick (serveMailbox true (serveMailbox false (takePosted true (takePosted false (timerTick s)))))

end Sys2Proof.Machine
end

