-- ==== Sys2Proof/Safety.lean ====
section
/-!
DEFINITION. The terms that claims use: accesses that reach their register, messages that are taken, answers, and what a safe state is.
-/

namespace Sys2Proof.Machine
open Sys2Proof

/-- R622, R626, R628, R679: an access over a path reaches a register that answers: cold reset is not asserted, the part is not tamper-cleared, the
path reaches the address and its page is clocked. -/
def Access (s : State) (p : Path) (addr : Nat) : Prop :=
  s.ports.rstCold = false ∧ s.tamper.cleared = false ∧ reaches s p addr = true ∧ clocked s addr = true

/-- R673: the same for a write that also needs privilege. -/
def Write (s : State) (p : Path) (addr : Nat) : Prop := Access s p addr ∧ privileged p = true

/-- The mailbox of a kind of session. -/
def State.box (s : State) (operator : Bool) : Mbx := if operator then s.operBox else s.tenantBox

/-- R436, R440: the message of a row is taken from an open session `x`: its previous request has been answered, the session is proven, its kind may
send it and it holds a credential where the row needs one. -/
def Asks (s : State) (r : MsgRule) (sess : Nat) (x : Session) : Prop :=
  s.ports.rstCold = false ∧ s.sess sess = some x ∧ x.busy = false ∧ x.finished = true ∧
    (if x.operator then r.operator else r.tenant) = true ∧ (r.cred = true → x.cred.isSome = true)

/-- The waiter of a message. -/
def asker (r : MsgRule) (sess : Nat) (tag : BitVec 32) : Waiter := { sess := sess, msg := r.msg, tag := tag }

/-- R435, R436: the state in which a request of a session, heard now, is being answered. -/
def asked (sess : Nat) (s : State) : State := modSess sess (fun y => { y with busy := true }) (hear sess s)

/-- R28, R181: the state in which what the stops before a die's stop, and that stop, only pass has gone on. -/
def reached (die : Fin 4) (s : State) : State := ringFlow [die.toNat] (ringFlow (upstream die.toNat s) s)

/-- R30, R179, R183, R184, R268, R574: a head message is the next one a die's stop takes in, in the state `reached die s`: the section is out of reset and
not discarding words, the SEQ is the one expected, the message is addressed to the stop or to one of its guards, the section serves or the message is
one of its tables, and the stop owes no insertion. -/
def Arrives (s : State) (die : Fin 4) (m : RingMsg) : Prop :=
  let d := (reached die s).dieN die
  s.ports.rstCold = false ∧ d.discarding = false ∧ d.inReset = false ∧ d.inbox.head? = some m ∧ m.src = 0xFE ∧ m.seq = d.expSeq ∧
    addressed die m = true ∧ (d.serveNow = true ∨ m.body.isSync = true) ∧ (8 ≤ d.passing → hasInsert die (reached die s) = false)

/-- R28, R183: the state in which a die's stop has taken a head message in and sent it on. -/
def taken (die : Fin 4) (m : RingMsg) (s : State) : State := passed die m true (reached die s)

/-- R28: the state in which what the stops only pass has reached the head. -/
def atHead (s : State) : State := ringFlow (ringOrder s) s

/-- R183, R645: a message waits first in the head's queue, and the head is not discarding words. -/
def Reaches (s : State) (m : RingMsg) (ms : List RingMsg) : Prop :=
  s.ports.rstCold = false ∧ (atHead s).head.discarding = false ∧ (atHead s).head.inQ = m :: ms

/-- R183: the head after it has taken a message: a gap before it is reported, and the SEQ it expects of the source is one beyond. -/
def takenAtHead (m : RingMsg) (ms : List RingMsg) (s : State) : State :=
  (headGap m (atHead s)).modHead (fun h => { h with inQ := ms, srcSeq := alSet h.srcSeq m.src (m.seq + 1) })

/-- R441: a request is decided at once: no region list of a domain it names is being read, and no request that waits names one of them. -/
def AtOnce (s : State) (w : Waiter) (body : Bytes) : Prop :=
  ∀ d ∈ ({ msg := w.msg, sess := w.sess, tag := w.tag, body := body } : HeldMsg).domains,
    domReading s d = false ∧ ∀ h ∈ s.ks.waiting, d ∉ h.domains

/-- R424, R434, R436: an SPDM request of a code is heard: the boot core serves the mailboxes, the version is 1.3, and a session that carries it is open on its
mailbox, idle and proven. -/
def Heard (s : State) (code : Nat) (operator : Bool) (sess : Option Nat) (req : Bytes) : Prop :=
  s.ports.rstCold = false ∧ attUp s = true ∧ reqByte req 1 = code ∧ reqByte req 0 = 0x13 ∧
    ∀ id, sess = some id → ∃ x, s.sess id = some x ∧ x.operator = operator ∧ x.busy = false ∧ x.finished = true ∧ (operator = true → x.cred.isSome = true)

/-- R424, R435, DSP0274: the state in which a heard SPDM request is carried out: the session has been heard, and its code has ended the transcripts it ends. -/
def spdmHeard (code : Nat) (operator : Bool) (sess : Option Nat) (s : State) : State :=
  modConn operator sess (Conn.onCode code) (match sess with | none => s | some id => hear id s)

/-- R461: a BRINGUP_ACTION of eight bytes with a given ACTION is taken from an operator session. -/
def Acts (s : State) (sess : Nat) (body : Bytes) (action : Nat) : Prop :=
  body.length = 8 ∧ actionOf body = action ∧ ∃ x, Asks s (operMsg 0x010A) sess x

/-- The waiter of a BRINGUP_ACTION. -/
def actor (sess : Nat) (tag : BitVec 32) : Waiter := asker (operMsg 0x010A) sess tag

/-- R439, R684: the messages sent to requesters of `s`, followed by one answer, are those of `t`. -/
def Answers (s t : State) (x : Session) (w : Waiter) (result : BitVec 8) (body : Bytes) : Prop :=
  (t.box x.operator).sent = (s.box x.operator).sent ++
    [{ operator := x.operator, sess := some w.sess, body := .vendor w.msg result w.tag body }]

/-! ### The parts of State, and what a command leaves alone -/

/-- The parts of State: one for each of its fields, and the anchor slots and the fuse array apart from the units that hold them. -/
inductive Part where
  /-- State.pending -/
  | pending
  /-- State.timer -/
  | timer
  /-- State.freeCtr -/
  | freeCtr
  /-- State.guards -/
  | guards
  /-- State.dies -/
  | dies
  /-- State.head -/
  | head
  /-- State.ks -/
  | ks
  /-- State.vault but its anchor slots -/
  | vault
  /-- the anchor slots, State.vault.slots -/
  | slots
  /-- State.tamper -/
  | tamper
  /-- State.pk -/
  | pk
  /-- State.dig -/
  | dig
  /-- State.ent -/
  | ent
  /-- State.ingest -/
  | ingest
  /-- State.mower -/
  | mower
  /-- State.att -/
  | att
  /-- State.tenantBox -/
  | tenantBox
  /-- State.operBox -/
  | operBox
  /-- State.boot -/
  | boot
  /-- State.flash -/
  | flash
  /-- State.fuse but the array -/
  | fuse
  /-- the fuse array, State.fuse.array -/
  | array
  /-- State.brup -/
  | brup
  /-- State.fq -/
  | fq
  /-- State.mir -/
  | mir
  /-- State.sby -/
  | sby
  /-- State.dma -/
  | dma
  /-- State.ports -/
  | ports
  /-- State.tagWindow -/
  | tagWindow
deriving DecidableEq, Repr

/-- A part is the same in two states. -/
def Part.same (s t : State) : Part → Prop
  | .pending => t.pending = s.pending
  | .timer => t.timer = s.timer
  | .freeCtr => t.freeCtr = s.freeCtr
  | .guards => t.guards = s.guards
  | .dies => t.dies = s.dies
  | .head => t.head = s.head
  | .ks => t.ks = s.ks
  | .vault => t.vault = { s.vault with slots := t.vault.slots }
  | .slots => t.vault.slots = s.vault.slots
  | .tamper => t.tamper = s.tamper
  | .pk => t.pk = s.pk
  | .dig => t.dig = s.dig
  | .ent => t.ent = s.ent
  | .ingest => t.ingest = s.ingest
  | .mower => t.mower = s.mower
  | .att => t.att = s.att
  | .tenantBox => t.tenantBox = s.tenantBox
  | .operBox => t.operBox = s.operBox
  | .boot => t.boot = s.boot
  | .flash => t.flash = s.flash
  | .fuse => t.fuse = { s.fuse with array := t.fuse.array }
  | .array => t.fuse.array = s.fuse.array
  | .brup => t.brup = s.brup
  | .fq => t.fq = s.fq
  | .mir => t.mir = s.mir
  | .sby => t.sby = s.sby
  | .dma => t.dma = s.dma
  | .ports => t.ports = s.ports
  | .tagWindow => t.tagWindow = s.tagWindow

/-- R594, R595: the fault queue holds at most 960 general entries and 64 reserved ones, and only safety-class entries are reserved ones. -/
def FaultQ.fits (q : FaultQ) : Bool := decide (q.general ≤ 960) && decide (q.reserved ≤ 64) && q.entries.all (fun e => !e.2 || e.1.safety)

/-- R631: at most 64 DMA requests are in flight, no two of one identifier. -/
def Dma.fits (d : Dma) : Bool := decide (d.flight.length ≤ 64) && decide (d.flight.map (fun f => f.1)).Nodup

/-- R304, R307, R657: tamper-cleared is entered from the tamper sequence, and tmp_zeroize_done tells it. -/
def Tamper.coherent (t : Tamper) : Bool := (!t.cleared || t.latch) && t.done == t.cleared

/-- What every command keeps: the boot flash is in its canonical form, the fault queue and the DMA port keep within their bounds, and the tamper state
is coherent. -/
structure State.Inv (s : State) : Prop where
  /-- the boot flash is canonical -/
  flash : bufWf 0xFF s.flash = true
  /-- R594, R595 -/
  queue : s.fq.fits = true
  /-- R631 -/
  flight : s.dma.fits = true
  /-- R304, R307, R657 -/
  tamper : s.tamper.coherent = true

/-- What stays whatever a command does: the invariant, and every fuse bit that reads programmed at either reference (R511). -/
structure Lasting (s t : State) : Prop where
  /-- the invariant -/
  inv : s.Inv → t.Inv
  /-- R511: at the normal reference -/
  norm : ∀ w, (s.fuseWord w).norm &&& ~~~ (t.fuseWord w).norm = 0
  /-- R511, R519: at the tight margin reference -/
  tight : ∀ w, (s.fuseWord w).tight &&& ~~~ (t.fuseWord w).tight = 0

/-- `t` differs from `s` in no other part than those listed, and keeps what stays whatever a command does. -/
structure Only (ps : List Part) (s t : State) : Prop where
  /-- every other part is the same -/
  same : ∀ p, p ∉ ps → p.same s t
  /-- what stays -/
  lasting : Lasting s t

/-- The parts of State that a command may change, from the rules that give its effect. -/
def footprint : Instr → List Part
  | .coldReset => [.timer, .freeCtr, .guards, .dies, .head, .ks, .vault, .slots, .tamper, .pk, .dig, .ent, .ingest, .mower, .att, .tenantBox, .operBox, .boot, .fuse, .array, .brup, .fq, .mir, .sby, .dma, .ports, .tagWindow]
  | .coldResetRelease => [.timer, .dies, .head, .pk, .boot, .sby, .ports]
  | .fuseSensingDone _ => [.guards, .dies, .pk, .dig, .fuse, .brup, .fq]
  | .bootValid _ => [.dies, .head, .boot, .sby]
  | .romBoot _ => [.timer, .freeCtr, .vault, .slots, .att, .boot, .flash, .fuse, .ports]
  | .bootHandover _ _ => [.freeCtr, .guards, .dies, .head, .ks, .vault, .slots, .pk, .dig, .ent, .mower, .att, .tenantBox, .operBox, .boot, .flash, .fuse, .brup, .fq, .mir, .dma, .ports]
  | .bootRelease _ _ => [.boot, .ports]
  | .finalised _ _ => [.freeCtr, .guards, .dies, .head, .ks, .vault, .slots, .pk, .dig, .ent, .ingest, .mower, .att, .tenantBox, .operBox, .boot, .flash, .fuse, .array, .brup, .fq, .mir, .dma, .ports]
  | .bootCtlCoreReset _ _ => [.freeCtr, .guards, .dies, .head, .ks, .vault, .slots, .pk, .dig, .ent, .ingest, .mower, .att, .tenantBox, .operBox, .boot, .flash, .fuse, .array, .brup, .fq, .mir, .dma, .ports]
  | .delayedCoreReset => [.timer, .freeCtr, .guards, .dies, .head, .ks, .vault, .slots, .pk, .dig, .ent, .ingest, .mower, .att, .tenantBox, .operBox, .boot, .fuse, .array, .brup, .fq, .mir, .dma, .ports]
  | .securityCoreReset => [.freeCtr, .guards, .dies, .head, .ks, .vault, .slots, .pk, .dig, .ent, .ingest, .mower, .att, .tenantBox, .operBox, .boot, .fuse, .array, .brup, .fq, .mir, .dma, .ports]
  | .cairnRaise _ _ => [.boot, .flash, .fuse, .ports]
  | .cairnRaiseEnd _ => [.freeCtr, .boot, .fuse, .array, .fq]
  | .imageUpdate _ _ _ => [.freeCtr, .att, .tenantBox, .operBox, .boot, .dma]
  | .imageAdopted _ => [.freeCtr, .att, .tenantBox, .operBox, .boot, .flash, .mir, .dma]
  | .recoveryHello _ _ => [.boot]
  | .recoveryWrite _ _ => [.boot]
  | .recoveryCommit _ _ _ => [.boot, .flash]
  | .recoveryAbort _ _ => [.boot]
  | .recoveryReservedFrame _ _ _ => [.boot]
  | .fuseProgram _ _ => [.fuse, .ports]
  | .fuseSeal _ _ => [.fuse, .ports]
  | .lockWrite _ _ => [.fuse, .ports]
  | .lockRead _ _ => [.fuse, .ports]
  | .revoke _ _ => [.fuse, .ports]
  | .fuseOperationEnd _ => [.freeCtr, .fuse, .array]
  | .fuseResense _ => [.fuse, .fq]
  | .lcToProvision _ _ => [.fuse, .ports]
  | .lcToMission _ _ => [.fuse, .ports]
  | .lcToDecommissioned _ _ => [.fuse, .ports]
  | .lcTransitionEffect => [.freeCtr, .guards, .dies, .head, .ks, .vault, .slots, .tamper, .pk, .dig, .ent, .ingest, .mower, .att, .tenantBox, .operBox, .boot, .fuse, .array, .mir, .sby, .dma, .ports]
  | .lcDebugArm _ _ => [.fuse, .ports]
  | .debugUnlock _ _ _ => [.freeCtr, .att, .tenantBox, .operBox, .dma]
  | .decommission _ _ _ => [.att, .tenantBox, .operBox, .fuse]
  | .tmxCtl _ _ => [.fuse, .ports]
  | .phaseAdvance => [.freeCtr, .guards, .dies, .head, .ks, .vault, .mower, .att, .tenantBox, .operBox, .brup, .fq, .mir, .dma]
  | .packageVerified => [.freeCtr, .guards, .dies, .head, .ks, .vault, .mower, .att, .tenantBox, .operBox, .brup, .fq, .mir, .dma]
  | .relUp _ => [.freeCtr, .guards, .dies, .head, .ks, .vault, .ent, .mower, .att, .tenantBox, .operBox, .brup, .fq, .mir, .dma]
  | .relUpFall _ => [.freeCtr, .guards, .dies, .head, .ks, .vault, .mower, .att, .tenantBox, .operBox, .brup, .fq, .mir, .dma]
  | .releaseTimeout _ => [.timer, .freeCtr, .guards, .dies, .head, .ks, .vault, .mower, .att, .tenantBox, .operBox, .brup, .fq, .mir, .dma]
  | .sealSweepEnd _ => [.freeCtr, .guards, .dies, .head, .ent, .brup]
  | .bankTestPass _ _ => [.guards, .dies, .head, .ent]
  | .unitSelfTestPass _ => [.dig, .ingest, .mower, .brup]
  | .pop _ _ => [.brup, .fq, .ports]
  | .unrecorded _ _ => [.brup, .fq, .ports]
  | .guardReset _ _ _ => [.guards, .dies, .head, .ks, .vault, .mower, .att, .tenantBox, .operBox, .fq, .mir, .ports]
  | .sectionReset _ _ _ => [.guards, .dies, .head, .ks, .vault, .mower, .att, .tenantBox, .operBox, .fq, .mir, .ports]
  | .guardFence _ _ _ => [.guards, .dies, .head, .ks, .vault, .mower, .att, .tenantBox, .operBox, .fq, .mir]
  | .unitHold _ _ _ => [.freeCtr, .guards, .dies, .head, .ks, .vault, .mower, .att, .tenantBox, .operBox, .brup, .fq, .mir, .dma]
  | .unitRelease _ _ _ => [.freeCtr, .guards, .dies, .head, .ks, .vault, .mower, .att, .tenantBox, .operBox, .brup, .fq, .mir, .dma]
  | .coreReset _ _ _ => [.freeCtr, .att, .tenantBox, .operBox, .boot, .mir]
  | .fpSample _ _ => [.dies, .head, .ks, .brup, .ports]
  | .fingerprintCompare => [.guards, .dies, .head, .ks, .vault, .mower, .att, .tenantBox, .operBox, .brup, .fq, .mir]
  | .fpNoLatch => [.timer, .guards, .dies, .head, .ks, .vault, .mower, .att, .tenantBox, .operBox, .brup, .fq, .mir]
  | .fingerprintSampleInterval => [.dies, .head, .ks, .brup]
  | .upstreamRequest _ _ _ _ _ _ _ => [.guards, .dies, .head, .ks, .vault, .mower, .att, .tenantBox, .operBox, .fq, .mir]
  | .writeDataBeat _ _ _ _ _ _ => [.guards, .dies, .head, .ks, .vault, .mower, .att, .tenantBox, .operBox, .fq, .mir]
  | .downstreamRequestIssue _ _ => [.freeCtr, .guards]
  | .downstreamReadResponse _ _ _ _ _ => [.guards, .dies, .head, .ks, .vault, .mower, .att, .tenantBox, .operBox, .fq, .mir, .tagWindow]
  | .downstreamWriteAck _ _ _ => [.guards, .mower]
  | .upstreamResponse _ _ => [.guards]
  | .laneParity _ _ _ _ _ => [.guards, .dies, .head, .ks, .vault, .mower, .att, .tenantBox, .operBox, .brup, .fq, .mir]
  | .knownAnswerInjection _ _ _ _ _ => [.guards, .dies, .head, .ks, .vault, .mower, .att, .tenantBox, .operBox, .brup, .fq, .mir]
  | .guardKatInject _ _ _ _ _ => [.guards, .dies, .head, .ks, .vault, .mower, .att, .tenantBox, .operBox, .brup, .fq, .mir, .ports]
  | .spareSubstitution _ _ => [.guards]
  | .fence _ _ _ => [.guards, .dies, .head, .ks, .vault, .mower, .att, .tenantBox, .operBox, .fq, .mir, .ports]
  | .guardThrottle _ _ _ => [.guards, .ports]
  | .throttleInterval _ => [.guards]
  | .guardLaneShare _ _ _ => [.guards, .ports]
  | .guardErrClear _ _ _ => [.guards, .ports]
  | .guardTagfailClear _ _ _ => [.guards, .ports]
  | .memoryPortClockStopped _ => [.guards, .dies]
  | .memoryPortClockRunning _ => [.guards, .dies]
  | .keyReqResend _ _ => [.timer, .guards, .dies]
  | .stopInsert _ => [.guards, .dies, .head]
  | .keyReq => [.dies, .head, .fq, .sby]
  | .keyServiceAnswer _ => [.dies, .head, .ks, .vault, .att, .tenantBox, .operBox, .fq, .mir]
  | .keyFill _ => [.freeCtr, .guards, .dies, .head, .ks, .vault, .mower, .att, .tenantBox, .operBox, .fq, .mir, .sby, .tagWindow]
  | .keyNone _ => [.guards, .dies, .head, .ks, .vault, .ingest, .mower, .att, .tenantBox, .operBox, .fq, .mir, .sby, .tagWindow]
  | .deferredFillInstall _ => [.freeCtr, .guards, .dies, .head, .ks, .vault, .mower, .att, .tenantBox, .operBox, .fq, .mir, .tagWindow]
  | .kcPin _ _ _ => [.guards, .dies, .ports]
  | .kcUnpin _ _ _ => [.guards, .ports]
  | .pinReservationTake _ => [.guards]
  | .kcQuery _ _ _ => [.guards, .ports]
  | .bindScrub _ => [.guards, .dies, .head, .ks, .vault, .mower, .att, .tenantBox, .operBox, .fq, .mir]
  | .guardMissClear _ _ _ => [.guards, .ports]
  | .rotate _ => [.guards, .dies, .head, .fq, .sby]
  | .retire _ => [.guards, .dies, .head, .ks, .vault, .ingest, .mower, .att, .tenantBox, .operBox, .fq, .mir, .sby, .tagWindow]
  | .retiringEntryDrop _ => [.guards, .dies]
  | .retireDequeue => [.dies, .head, .ks, .vault, .mower, .att, .tenantBox, .operBox, .fq, .mir]
  | .ack => [.dies, .head, .ks, .vault, .mower, .att, .tenantBox, .operBox, .fq, .mir, .sby]
  | .broadcastResend _ _ => [.timer, .dies, .head, .ks]
  | .ackTimeout _ _ => [.timer, .guards, .dies, .head, .ks, .vault, .mower, .att, .tenantBox, .operBox, .fq, .mir]
  | .streamSet _ => [.guards, .dies, .head, .mower, .fq, .sby]
  | .readerSet _ => [.guards, .dies, .head, .mower, .fq, .sby]
  | .withdrawalDrained _ => [.dies]
  | .tableSync _ => [.guards, .dies, .head, .ks, .fq, .sby]
  | .pulseInterval => [.dies, .head, .ks, .brup]
  | .pulse _ => [.dies, .head, .brup, .fq, .sby]
  | .ringErr => [.guards, .dies, .head, .ks, .vault, .mower, .att, .tenantBox, .operBox, .fq, .mir, .sby]
  | .headMessageReturn _ => [.dies, .head, .fq, .sby]
  | .regionListRead => [.freeCtr, .guards, .dies, .head, .ks, .vault, .pk, .ingest, .mower, .att, .tenantBox, .operBox, .fq, .mir, .dma, .ports]
  | .descriptorSend => [.dies, .head, .ks, .ent]
  | .sweepCmd _ => [.guards, .dies, .head, .fq, .sby]
  | .sweepLine _ _ _ _ _ => [.freeCtr, .guards, .dies, .head, .ks, .vault, .mower, .att, .tenantBox, .operBox, .fq, .mir]
  | .domainSweepLine _ _ => [.freeCtr, .guards, .dies]
  | .sweepDone => [.dies, .head, .ks, .vault, .mower, .att, .tenantBox, .operBox, .fq, .mir, .sby]
  | .sweepAbort _ => [.guards, .dies, .head, .fq, .sby]
  | .teardownDrainEnd _ => [.dies, .head, .ks, .vault, .mower, .att, .tenantBox, .operBox, .fq, .mir]
  | .domainCreate _ _ _ => [.dies, .head, .ks, .att, .tenantBox, .operBox, .fq, .mir]
  | .operatorDomainTeardown _ _ _ => [.freeCtr, .dies, .head, .ks, .vault, .ingest, .mower, .att, .tenantBox, .operBox, .fq, .mir, .dma]
  | .streamPropose _ _ _ => [.dies, .head, .ks, .att, .tenantBox, .operBox, .mir]
  | .streamWithdraw _ _ _ => [.dies, .head, .ks, .att, .tenantBox, .operBox, .mir]
  | .operatorStreamUnbind _ _ _ => [.dies, .head, .ks, .vault, .mower, .att, .tenantBox, .operBox, .fq, .mir]
  | .regionList _ _ _ => [.freeCtr, .ks, .att, .tenantBox, .operBox, .dma]
  | .ingestStart _ _ _ => [.freeCtr, .ks, .att, .tenantBox, .operBox, .dma]
  | .linkAssign _ _ _ => [.ks, .att, .tenantBox, .operBox]
  | .telemetryRead _ _ _ => [.pk, .ent, .att, .tenantBox, .operBox, .fq, .ports]
  | .setShares _ _ _ => [.guards, .att, .tenantBox, .operBox]
  | .pinMsg _ _ _ => [.guards, .dies, .ks, .att, .tenantBox, .operBox]
  | .unpinMsg _ _ _ => [.guards, .dies, .ks, .att, .tenantBox, .operBox]
  | .quoteBlock _ _ _ => [.freeCtr, .pk, .att, .tenantBox, .operBox, .mir]
  | .getVersion _ _ _ => [.att, .tenantBox, .operBox]
  | .getCapabilities _ _ _ => [.att, .tenantBox, .operBox]
  | .negotiateAlgorithms _ _ _ => [.att, .tenantBox, .operBox]
  | .getDigests _ _ _ => [.att, .tenantBox, .operBox]
  | .getCertificate _ _ _ => [.att, .tenantBox, .operBox]
  | .challenge _ _ _ => [.freeCtr, .pk, .ent, .att, .tenantBox, .operBox]
  | .getMeasurements _ _ _ => [.freeCtr, .pk, .ent, .att, .tenantBox, .operBox]
  | .chunkSend _ _ _ => [.att, .tenantBox, .operBox]
  | .chunkGet _ _ _ => [.att, .tenantBox, .operBox]
  | .spdmHeartbeat _ _ => [.att, .tenantBox, .operBox]
  | .keyUpdate _ _ => [.att, .tenantBox, .operBox]
  | .endSession _ _ => [.att, .tenantBox, .operBox]
  | .unsupportedRequest _ _ _ => [.att, .tenantBox, .operBox]
  | .kexKeys _ _ _ => [.freeCtr, .vault, .slots, .pk, .dig, .ent, .att, .tenantBox, .operBox, .dma]
  | .hybKex _ _ _ => [.freeCtr, .vault, .slots, .pk, .dig, .ent, .att, .tenantBox, .operBox, .dma]
  | .hybFinish _ _ _ => [.att, .tenantBox, .operBox]
  | .hybFinishTimeout _ => [.timer, .att]
  | .sessionIdleTimeout _ => [.timer, .att]
  | .credProve _ _ _ => [.att, .tenantBox, .operBox]
  | .quote _ _ _ => [.freeCtr, .ks, .pk, .att, .tenantBox, .operBox, .mir]
  | .quoteBatchClose => [.timer, .freeCtr, .pk, .att, .tenantBox, .operBox, .mir]
  | .domainSeed _ _ _ => [.dies, .head, .ks, .vault, .mower, .att, .tenantBox, .operBox, .fq, .mir]
  | .streamConfirm _ _ _ => [.dies, .head, .ks, .vault, .mower, .att, .tenantBox, .operBox, .fq, .mir]
  | .tenantStreamUnbind _ _ _ => [.dies, .head, .ks, .vault, .mower, .att, .tenantBox, .operBox, .fq, .mir]
  | .tenantDomainTeardown _ _ _ => [.freeCtr, .dies, .head, .ks, .vault, .ingest, .mower, .att, .tenantBox, .operBox, .fq, .mir, .dma]
  | .linkKey _ _ _ => [.ks, .att, .tenantBox, .operBox, .ports]
  | .lkAck _ => [.att, .tenantBox, .operBox, .ports]
  | .lkAckTimeout => [.timer, .att, .tenantBox, .operBox, .ports]
  | .linkReport _ _ _ _ => [.brup]
  | .measureFull _ _ _ => [.freeCtr, .ks, .mower, .att, .tenantBox, .operBox, .dma]
  | .measurePartial _ _ _ => [.freeCtr, .ks, .mower, .att, .tenantBox, .operBox, .dma]
  | .measureIncremental _ _ _ => [.freeCtr, .ks, .mower, .att, .tenantBox, .operBox, .dma]
  | .keptRelease _ _ _ => [.ks, .mower, .att, .tenantBox, .operBox]
  | .eventPoll _ _ _ => [.att, .tenantBox, .operBox]
  | .bundleKey _ _ _ => [.dies, .head, .ks, .vault, .att, .tenantBox, .operBox, .mir]
  | .readerGrantAdd _ _ _ => [.dies, .head, .ks, .vault, .mower, .att, .tenantBox, .operBox, .fq, .mir]
  | .readerGrantRemove _ _ _ => [.dies, .head, .ks, .vault, .mower, .att, .tenantBox, .operBox, .fq, .mir]
  | .readerGrantRevoke _ _ _ => [.dies, .head, .ks, .vault, .ingest, .mower, .att, .tenantBox, .operBox, .fq, .mir]
  | .bundleKeyLapse _ => [.timer, .dies, .head, .ks, .vault, .ingest, .att, .tenantBox, .operBox, .mir]
  | .ingestJobStart => [.dies, .head, .ks, .ent, .ingest, .att, .tenantBox, .operBox, .mir]
  | .ingestHeaderRead _ => [.freeCtr, .guards, .dies, .head, .ks, .vault, .ingest, .mower, .att, .tenantBox, .operBox, .fq, .mir, .tagWindow]
  | .ingestChunk _ _ => [.freeCtr, .guards, .dies, .head, .ks, .vault, .ingest, .mower, .att, .tenantBox, .operBox, .fq, .mir, .tagWindow]
  | .ingestManifest _ => [.freeCtr, .guards, .dies, .head, .ks, .vault, .ingest, .mower, .att, .tenantBox, .operBox, .fq, .mir, .tagWindow]
  | .ingestAbort _ _ => [.dies, .head, .ks, .vault, .ingest, .mower, .att, .tenantBox, .operBox, .fq, .mir, .ports]
  | .measurementJobStart => [.mower, .att, .fq]
  | .mowerReadIssue _ => [.freeCtr, .guards, .dies, .head, .ks, .vault, .mower, .att, .tenantBox, .operBox, .fq, .mir]
  | .mowerNodeHashed => [.mower, .att, .fq]
  | .mowerLaneKat _ _ => [.mower, .att, .fq]
  | .mowerAbort _ _ => [.mower, .att, .fq, .ports]
  | .vaultGenerate _ _ => [.freeCtr, .vault, .slots, .pk, .dig, .ent, .dma, .ports]
  | .vaultGeneratePair _ _ => [.freeCtr, .vault, .slots, .pk, .dig, .ent, .dma, .ports]
  | .vaultDerive _ _ => [.freeCtr, .vault, .slots, .pk, .dig, .ent, .dma, .ports]
  | .vaultImport _ _ => [.freeCtr, .vault, .slots, .pk, .dig, .ent, .dma, .ports]
  | .vaultExport _ _ => [.freeCtr, .vault, .slots, .pk, .dig, .ent, .dma, .ports]
  | .save _ _ => [.freeCtr, .vault, .slots, .pk, .dig, .ent, .dma, .ports]
  | .restore _ _ => [.freeCtr, .vault, .slots, .pk, .dig, .ent, .dma, .ports]
  | .clear _ _ => [.freeCtr, .vault, .slots, .pk, .dig, .ent, .dma, .ports]
  | .statement _ _ => [.freeCtr, .vault, .slots, .pk, .dig, .ent, .dma, .ports]
  | .tamperAssertion _ _ => [.freeCtr, .guards, .dies, .head, .ks, .vault, .slots, .tamper, .pk, .dig, .ent, .ingest, .mower, .att, .tenantBox, .operBox, .boot, .fuse, .array, .mir, .sby, .dma, .ports]
  | .tamperZeroizeDone _ => [.tamper, .brup]
  | .pkSign _ _ _ => [.freeCtr, .pk, .ports]
  | .pkVerify _ _ _ => [.freeCtr, .pk, .ports]
  | .pkKeygen _ _ _ => [.freeCtr, .pk, .ports]
  | .pkPublic _ _ _ => [.freeCtr, .pk, .ports]
  | .pkDerive _ _ _ => [.freeCtr, .pk, .ports]
  | .pkEncaps _ _ _ => [.freeCtr, .pk, .ports]
  | .pkDecaps _ _ _ => [.freeCtr, .pk, .ports]
  | .pkCheckCurve _ _ _ => [.freeCtr, .pk, .ports]
  | .pkJobStart _ => [.freeCtr, .pk, .ent]
  | .pkValidationBoundary _ _ => [.freeCtr, .vault, .slots, .pk, .ent, .att, .tenantBox, .operBox, .fq]
  | .pkCheckpoint => [.pk]
  | .pkJobEnd _ _ => [.freeCtr, .vault, .slots, .pk, .ent, .att, .tenantBox, .operBox, .fq]
  | .pkAbort _ _ _ => [.freeCtr, .vault, .slots, .pk, .ent, .att, .tenantBox, .operBox, .ports]
  | .pkAbortComplete _ => [.freeCtr, .vault, .slots, .pk, .ent, .att, .tenantBox, .operBox]
  | .pkScrub _ _ _ => [.freeCtr, .vault, .slots, .pk, .ent, .att, .tenantBox, .operBox, .ports]
  | .fcMode _ _ => [.pk, .ports]
  | .pkSelftest _ _ => [.pk, .ports]
  | .pkSelftestEnd _ _ => [.freeCtr, .vault, .slots, .pk, .ent, .att, .tenantBox, .operBox, .brup, .fq]
  | .pkPeriodicKat _ _ => [.freeCtr, .vault, .slots, .pk, .ent, .att, .tenantBox, .operBox, .fq]
  | .pkDatapath _ _ => [.freeCtr, .vault, .slots, .pk, .ent, .att, .tenantBox, .operBox, .fq]
  | .claim _ _ _ => [.freeCtr, .dig, .ent, .dma, .ports]
  | .ctxOpen _ _ _ => [.freeCtr, .dig, .ent, .dma, .ports]
  | .ctxFinish _ _ _ => [.freeCtr, .dig, .ent, .dma, .ports]
  | .ctxClose _ _ _ => [.freeCtr, .dig, .ent, .dma, .ports]
  | .ctxAbort _ _ _ => [.freeCtr, .dig, .ent, .dma, .ports]
  | .ctxExport _ _ _ => [.freeCtr, .dig, .ent, .dma, .ports]
  | .ctxImport _ _ _ => [.freeCtr, .dig, .ent, .dma, .ports]
  | .digCtxData _ _ _ => [.dig, .ports]
  | .dmaFeed _ _ _ => [.freeCtr, .dig, .dma, .ports]
  | .digestBlock _ => [.freeCtr, .dig, .dma]
  | .eShort _ => [.timer, .freeCtr, .dig, .dma]
  | .digDiscard _ _ _ => [.dig, .ports]
  | .digSelftest _ _ => [.dig, .ports]
  | .compare _ _ _ => [.dig, .ports]
  | .compareResult _ _ => [.dig, .fq]
  | .noiseSample _ => [.vault, .slots, .ent, .fq]
  | .drbgInstantiate _ => [.vault, .slots, .ent, .fq]
  | .reseed _ _ => [.ent, .ports]
  | .drbgRequest => [.freeCtr, .vault, .slots, .dig, .ent, .dma]
  | .entDraw _ _ _ => [.dig, .ent, .ports]
  | .drawOutRead _ _ => [.freeCtr, .pk, .ent, .ports]
  | .loWordRead _ _ => [.freeCtr, .pk, .ent, .ports]
  | .lockstep _ _ => [.freeCtr, .guards, .dies, .head, .ks, .vault, .slots, .pk, .dig, .ent, .ingest, .mower, .att, .tenantBox, .operBox, .boot, .fuse, .array, .brup, .fq, .mir, .sby, .dma, .ports]
  | .watchdog _ _ => [.timer, .freeCtr, .guards, .dies, .head, .ks, .vault, .slots, .pk, .dig, .ent, .ingest, .mower, .att, .tenantBox, .operBox, .boot, .fuse, .array, .brup, .fq, .mir, .sby, .dma, .ports]
  | .foWdog _ _ => [.boot, .ports]
  | .fqPop _ _ => [.fq, .ports]
  | .clearOvf _ _ => [.fq, .ports]
  | .heartbeatInterval => [.timer, .mir]
  | .mirrorHello => [.mir, .sby]
  | .mirrorHeartbeat _ => [.mir, .sby]
  | .store _ => [.mir, .sby]
  | .modelFrame _ => [.mir, .sby]
  | .readers _ => [.mir, .sby]
  | .counters _ => [.mir, .sby]
  | .image _ => [.mir, .sby]
  | .hold _ => [.mir, .sby]
  | .holdExpiry => [.timer, .mir, .sby]
  | .status _ => [.freeCtr, .dies, .head, .ks, .vault, .ent, .mower, .att, .tenantBox, .operBox, .fq, .mir, .sby]
  | .mirrorAck _ => [.dies, .head, .ks, .vault, .mower, .att, .tenantBox, .operBox, .fq, .mir, .sby]
  | .mirrorAckTimeout => [.timer, .dies, .head, .ks, .vault, .mower, .att, .tenantBox, .operBox, .fq, .mir]
  | .standbyLost => [.timer, .dies, .head, .ks, .vault, .mower, .att, .tenantBox, .operBox, .fq, .mir]
  | .mirrorResync => [.timer, .freeCtr, .dies, .head, .ks, .vault, .ent, .mower, .att, .tenantBox, .operBox, .fq, .mir, .sby]
  | .activeCoreLost => [.timer, .mir]
  | .mirFail => [.mir]
  | .mirTakeover => [.freeCtr, .guards, .dies, .head, .ks, .vault, .slots, .pk, .dig, .ent, .ingest, .mower, .att, .tenantBox, .operBox, .boot, .flash, .fuse, .array, .brup, .fq, .mir, .sby, .dma, .ports]
  | .registerWrite _ _ _ => [.freeCtr, .guards, .dies, .head, .ks, .vault, .slots, .pk, .dig, .ent, .ingest, .mower, .att, .tenantBox, .operBox, .boot, .flash, .fuse, .array, .brup, .fq, .mir, .dma, .ports]
  | .ctlTimeout _ _ _ => [.timer, .fq, .ports]
  | .dmaResponse _ _ _ => [.freeCtr, .guards, .dies, .head, .ks, .vault, .pk, .dig, .ingest, .mower, .att, .tenantBox, .operBox, .boot, .flash, .fuse, .brup, .fq, .mir, .dma, .ports]
  | .mailboxPost _ _ _ => [.tenantBox, .operBox, .ports]
  | .taken _ _ _ => [.tenantBox, .operBox, .ports]
  | .guardPowerFall _ => [.guards, .dies, .head, .ks, .vault, .mower, .att, .tenantBox, .operBox, .fq, .mir, .ports]
  | .guardPowerGood _ => [.guards, .dies]
  | .corePowerFall _ => [.freeCtr, .guards, .dies, .head, .ks, .vault, .slots, .pk, .dig, .ent, .ingest, .mower, .att, .tenantBox, .operBox, .boot, .fuse, .array, .brup, .fq, .mir, .sby, .dma, .ports]
  | .startTimeFinding _ _ _ => [.freeCtr, .guards, .dies, .head, .ks, .vault, .slots, .pk, .dig, .ent, .ingest, .mower, .att, .tenantBox, .operBox, .boot, .brup, .fq, .mir]
  | .damagedMessage _ _ => [.dies, .head, .fq, .sby]
  | .idleWord _ => [.dies, .head]
  | .damagedFrame => [.boot]
  | .recentWindowExpiry _ _ => [.guards, .dies, .vault, .pk, .dig, .ent, .ingest, .mower, .fuse, .brup, .mir, .ports]
  | .powerLimit _ => [.freeCtr, .guards]

end Sys2Proof.Machine
end

