-- ==== Sys2Proof/Certificates/Slice0/Obligations.lean ====
section
/-!
DEFINITION. The statements about the block, for the provers. Each quantifies over the states and the operands of the commands it names;
Access, Write, Asks, Acts, Heard, Arrives and Reaches (Safety) say when a command reaches what it acts on.
-/

open Sys2Proof Sys2Proof.Machine

/-- A step takes the command at the front of the queue and is that command's effect on the state with the rest of the queue; on an empty queue a
microsecond of the block timer passes, which is the model's own choice (log 1): the timer counts while the always-on logic is up, and nothing happens
while cold reset is asserted. A command whose event cannot happen, and a write that another row owns, change nothing: the model's choice (log 3). -/
def Obligations.AStepRunsTheFrontCommand : Prop :=
  (∀ (s : State) (c : Instr) (cs : List Instr), step { s with pending := c :: cs } = exec c { s with pending := cs }) ∧
  (∀ (s : State), s.pending = [] → step s = .next (tick s)) ∧
  (∀ (s : State), s.pending = [] → s.ports.rstCold = true → step s = .next s) ∧
  (∀ (s : State), s.pending = [] → s.ports.rstCold = false → s.ports.aonUp = true → s.tenantBox.inPost = false → s.operBox.inPost = false →
    s.tenantBox.arrived = [] → s.operBox.arrived = [] → tmxOpen s = false →
    step s = .next { s with timer := s.timer + 1 })

/-- At reset cold reset is asserted and nothing waits; every guard, die section and management core is in reset, no memory is in service, the guards'
shares and DIG_CTL have their reset values, the anchor slots, the key service's records and the fault queue are empty, the export counters stand at 1
and NODE_LOG is zero; and the invariant holds. (Rests on R31, R36, R111, R112, R273, R294, R392, R409, R422, R564, R594, R622, R661.) -/
def Obligations.TheBlockAtResetIsAsTheRulesSay : Prop :=
  State.reset.pending = [] ∧ State.reset.ports.rstCold = true ∧
  (∀ g : Fin 40, (State.reset.guards.get g).inReset = true ∧ (State.reset.guards.get g).service = .held ∧
    (State.reset.guards.get g).page.share = 0x19050A05 ∧ (State.reset.guards.get g).page.shareEff = 0x19050A05 ∧ (State.reset.guards.get g).cache.lines = []) ∧
  (∀ d : Fin 4, (State.reset.dies.get d).inReset = true) ∧ (∀ c : Fin 4, State.reset.boot.cores.get c = .reset) ∧
  (∀ n, (State.reset.anchor n).occupied = false) ∧ State.reset.ks.doms = [] ∧ State.reset.ks.models = [] ∧
  State.reset.dig.idleLimit = 0x0A ∧ (∀ c : Fin 4, (State.reset.dig.regions.get c).nextSeq = 1) ∧ State.reset.att.nodeLog = List.replicate 48 0 ∧
  State.reset.fq.entries = [] ∧ State.reset.flash = [] ∧ State.reset.fuse.array = [] ∧ State.reset.Inv

/-- Every command answers a next state from every state, and leaves every part of State alone but those that the rules of its row let it change
(`footprint`): no other register, buffer, table, memory or pin changes, and the queue of waiting commands is never changed. -/
def Obligations.EveryCommandCompletesWithinItsFootprint : Prop :=
  (∀ (c : Instr) (s : State), ∃ t, exec c s = .next t ∧ ∀ p, p ∉ footprint c → p.same s t) ∧
  (∀ (c : Instr), Part.pending ∉ footprint c)

/-- A fuse bit that reads programmed, at the normal or at the tight margin reference, reads programmed after every step from every state. (Rests on R511.) -/
def Obligations.FuseBitsNeverReturn : Prop :=
  ∀ (s t : State), step s = .next t → ∀ (w : Nat) (i : Nat),
    ((s.fuseWord w).norm.getLsbD i = true → (t.fuseWord w).norm.getLsbD i = true) ∧ ((s.fuseWord w).tight.getLsbD i = true → (t.fuseWord w).tight.getLsbD i = true)

/-- From every state in which the boot flash has its canonical form, the fault queue keeps its areas' bounds with only safety-class faults in the reserved
one (R594, R595), at most 64 DMA requests of distinct identifiers are in flight (R631) and the tamper state is coherent (R304, R307, R657), a step
gives such a state. -/
def Obligations.EveryStepKeepsTheInvariant : Prop :=
  ∀ (s t : State), s.Inv → step s = .next t → t.Inv

/-- No step but COLD_RESET releases the tamper latch or leaves tamper-cleared, and none but COLD_RESET and its release turns the block timer back. (Rests
on R304, R307 to R309, R689.) -/
def Obligations.OnlyColdResetEndsTamperAndTurnsTheTimerBack : Prop :=
  ∀ (s t : State), step s = .next t → s.pending.head? ≠ some .coldReset →
    (s.tamper.latch = true → t.tamper.latch = true) ∧ (s.tamper.cleared = true → t.tamper.cleared = true) ∧
    (s.pending.head? ≠ some .coldResetRelease → s.timer ≤ t.timer)

/-- Rst_cold_n asserted puts every field at its value in State.reset, but the flash, the fuse array (R511), the power inputs and the model's own queue and
free values; and its release starts the always-on logic, the clocks and both cores' waits, with the block timer at zero. Says where exec answers a
next state for: coldReset, coldResetRelease. (Rests on R622, R661.) -/
def Obligations.ColdResetHoldsTheBlock : Prop :=
  (∀ s : State, ∃ t, exec .coldReset s = .next t ∧ t.ports.rstCold = true ∧
    t = { State.reset with pending := s.pending, freeCtr := t.freeCtr, flash := s.flash, fuse := { array := t.fuse.array }, dies := t.dies } ∧
    (∀ d : Fin 4, t.dies.get d = { coreGood := (s.dies.get d).coreGood, guardGood := (s.dies.get d).guardGood }) ∧
    (s.fuse.op = none → t.fuse.array = s.fuse.array)) ∧
  (∀ s : State, s.ports.rstCold = true → (∀ d : Fin 4, (s.dies.get d).coreGood = true ∧ (s.dies.get d).guardGood = true) →
    ∃ t, exec .coldResetRelease s = .next t ∧
      t = { s with timer := 0, ports := { s.ports with rstCold := false, aonUp := true, pairDone := true }, dies := t.dies,
                   head := { s.head with attached := true }, pk := { s.pk with stDue := true },
                   boot := { s.boot with cores := Vector.replicate 4 .romWait }, sby := { s.sby with alive := true, selftest := true } } ∧
      ∀ d : Fin 4, t.dies.get d = { s.dies.get d with inReset := false, pairRun := 7, t2Run := true })

/-- FUSE_SENSING_DONE makes the shadows of the whole array valid, as the array reads, the array itself unchanged, takes grade, test path and fatal state
from them and starts the lane clock; BOOT_VALID makes the lowest core that passed, is not marked and not excluded the boot core, halts the other cores
that passed and holds the rest. Says where exec answers a next state for: fuseSensingDone, bootValid. (Rests on R465, R466, R518, R519, R526, R538,
R662.) -/
def Obligations.SensingGivesShadowsAndABootCore : Prop :=
  (∀ (s : State) (read : List (Nat × BitVec 72 × BitVec 72)), s.ports.rstCold = false → s.ports.aonUp = true → s.fuse.sensed = false → s.tamper.latch = false →
    (∃ c : Fin 4, s.boot.cores.get c ≠ .reset) →
    ∃ t, exec (.fuseSensingDone read) s = .next t ∧ Only [.guards, .dies, .pk, .dig, .fuse, .brup, .fq] s t ∧
      t.fuse = { s.fuse with shadows := senseAll (senseArray read s.fuse.array), sensed := true, udsShadow := true, grade := BitVec.ofNat 8 (gradeOf t),
                             fatal := fuseFatal t, testPath := lifeCycle t == 1 || lifeCycle t == 2 } ∧
      t.pk.dpAOut = marked t 4 0 ∧ t.pk.dpBOut = marked t 4 1 ∧
      ((∀ d, (s.dies.get d).laneRun = false) → (∀ d, t.dies.get d = { s.dies.get d with laneRun := true }) ∧
        ∀ g : Fin 40, t.guards.get g = freshGuard t g)) ∧
  (∀ (s : State) (passing : BitVec 4) (good : List Nat) (c : Nat) (rest : List Nat), s.ports.rstCold = false → s.fuse.sensed = true →
    s.boot.bootValid = false → (∀ k, s.boot.cores.get k = .romWait) →
    good = (List.range 4).filter (fun k => bitAt passing k && !marked s 3 k && !bitAt s.boot.excluded k) → good = c :: rest →
    ∃ t, exec (.bootValid passing) s = .next t ∧
      t = { s with boot := { s.boot with
        bootCore := c, bootValid := true, excluded := BitVec.ofNat 4 (((List.range 4).filter (fun k => !good.contains k)).map (2 ^ ·)).sum,
        cores := t.boot.cores } } ∧
      ∀ k : Fin 4, t.boot.cores.get k = if k.val = c then .rom else if bitAt passing k then .halted else .reset)

/-- ROM_BOOT on a part that is neither decommissioned nor fatal leaves the digest of the ROM and the image, blob and mirror keys derived from the device
secret, and counts the boot one above the highest counter record; where a candidate is usable it leaves the handover record of the first such one,
otherwise the recovery loader opens and the flash stays. The flash is out of reset and in the mode that it answers in. A decommissioned part derives
no key and opens the loader; a fatal one computes the digest of the ROM alone. Says where exec answers a next state for: romBoot. (Rests on R412,
R472, R484, R486, R501, R502, R504, R526, R540, R542.) -/
def Obligations.RomDerivesKeysAndPicksAnImage : Prop :=
  ∀ (s : State) (octal : Bool), s.ports.rstCold = false → s.tamper.latch = false → s.boot.bootValid = true → s.boot.handover.kind = 0 →
    s.boot.recovery.opened = false → s.boot.cores.toList.getD s.boot.bootCore .reset = .rom →
    ∃ t, exec (.romBoot octal) s = .next t ∧ Only [.timer, .freeCtr, .vault, .slots, .att, .boot, .flash, .fuse, .ports] s t ∧
      (lifeCycle s ≠ 4 → s.fuse.fatal = true → t = { s with att := { s.att with romDigest := sha3_384 Config.romImage } }) ∧
      (lifeCycle s = 4 → Only [.att, .boot] s t ∧ t.att.romDigest = sha3_384 Config.romImage ∧ t.boot.recovery = { opened := true }) ∧
      (lifeCycle s ≠ 4 → s.fuse.fatal = false →
        t.att.romDigest = sha3_384 Config.romImage ∧ t.ports.xspiRst = true ∧ t.ports.flashOctal = octal ∧
        (t.anchor 4).value = kmac256 (deviceSecret s) [] 48 (ascii "KFL-IMAGE-KEY") ∧
        (t.anchor 5).value = kmac256 (deviceSecret s) [] 32 (ascii "KFL-BLOB-KEY") ∧
        (t.anchor 7).value = kmac256 (deviceSecret s) [] 32 (ascii "KFL-MIRROR-KEY") ∧
        t.att.bootCount = BitVec.ofNat 32 (((countTop (romKeys s)).map Prod.fst).getD 0 + 1) ∧
        (∀ c, (candidates (romKeys s)).find? (fun c => slotUsable (romKeys s) c.slotB) = some c →
          t.boot.image = imageOf (slotHeader s c.slotB) ∧ t.boot.imageBytes.take 16384 = slotHeader s c.slotB ∧
          t.att.fwDigest = fwDigestOf (slotHeader s c.slotB) ∧ t.boot.handover.slotB = c.slotB ∧ t.boot.handover.kind = BitVec.ofNat 8 c.kind ∧
          t.boot.recovery.opened = false ∧ t.ports.devidValid = true ∧ t.ports.devidPub = pairPublic (romKeys s) 0) ∧
        ((candidates (romKeys s)).find? (fun c => slotUsable (romKeys s) c.slotB) = none →
          t.boot.recovery = { opened := true } ∧ t.flash = s.flash ∧ t.boot.handover.kind = 0 ∧ t.ports = { s.ports with xspiRst := true, flashOctal := octal }))

/-- A write of the image's entry to BOOT_HANDOVER by the boot core locks the ROM, leaves slots 0 and 1 empty and no UDS shadow, keeps every other occupied
slot, and starts firmware with its watchdog armed; BOOT_RELEASE starts exactly the halted, not excluded cores whose bits are written. Writing
FINALISED from a management core sets it until the next boot and changes nothing else but, for a trial image without a final record, the flash, where
its final record is appended. Says where exec answers a next state for: bootHandover, bootRelease, finalised. (Rests on R279, R418, R466, R501, R526,
R592, R489, R490.) -/
def Obligations.BootPageHandsOverReleasesAndFinalises : Prop :=
  ((∀ (s : State) (c : Fin 4) (v : BitVec 32), Write s (.core c) (bootPage + 0x38) → c.val = s.boot.bootCore → s.boot.romLocked = false →
    s.boot.handover.kind ≠ 0 → v = s.boot.image.entry →
    ∃ t, exec (.bootHandover (.core c) v) s = .next t ∧
      Only [.freeCtr, .guards, .dies, .head, .ks, .vault, .slots, .pk, .dig, .ent, .mower, .att, .tenantBox, .operBox, .boot, .flash, .fuse, .brup, .fq, .mir, .dma] s t ∧
      t.boot = { s.boot with romLocked := true, entry := v, slotB := s.boot.handover.slotB, kind := s.boot.handover.kind.extractLsb' 0 2,
                             attempt := s.boot.handover.attempt.extractLsb' 0 2, runSvn := BitVec.ofNat 32 s.boot.image.svn, cores := t.boot.cores,
                             wdogArmed := t.boot.wdogArmed, wdogDue := t.boot.wdogDue } ∧
      t.boot.cores.get c = .running ∧ bitAt t.boot.wdogArmed c = true ∧ t.boot.wdogDue.get c = s.timer + 10000 ∧ t.fuse.udsShadow = false ∧
      (∀ n, n < 2 → t.anchor n = { epoch := (s.anchor n).epoch }) ∧ ∀ n, 2 ≤ n → (n < 32 ∨ (s.anchor n).occupied = true) → t.anchor n = s.anchor n) ∧
  (∀ (s : State) (p : Path) (v : BitVec 32), Write s p (bootPage + 0x30) → isCore p = true →
    ∃ t, exec (.bootRelease p v) s = .next (accessOk p 0 t) ∧ Only [.boot] s t ∧
      ∀ c : Fin 4, t.boot.cores.get c =
        if 1 ≤ c.val ∧ bitAt v c = true ∧ s.boot.cores.get c = .halted ∧ bitAt s.boot.excluded c = false then .running else s.boot.cores.get c)) ∧
(∀ (s : State) (p : Path) (v : BitVec 32), Write s p (bootPage + 0x3C) → isCore p = true → bitAt v 0 = true → bitAt v 1 = false →
    ∃ t, exec (.finalised p v) s = .next (accessOk p 0 t) ∧ t = { s with boot := { s.boot with finalised := true }, flash := t.flash } ∧
      t.flash = if s.boot.kind = 2 ∧ s.boot.finalised = false ∧
            ((commits s).find? (fun r => r.slotB == s.boot.slotB)).any CommitRec.isFinal = false
          then (commitAppend s.boot.slotB true s.boot.runSvn.toNat s).flash else s.flash)

/-- Each of the three ways resets the security core, the requested one no sooner than 10 ms after the response; the reset ends the sessions, empties the
anchor slots and the mailboxes and returns the cores to their wait for the ROM, and leaves the release lines, the flash, and every guard but for the
reads of the mower and a seal sweep that was running, as they stand; of the mailboxes only the EIDs stay (log 10). Says where exec answers a next
state for: bootCtlCoreReset, delayedCoreReset, securityCoreReset. (Rests on R435, R493, R510, R575.) -/
def Obligations.CoreResetKeepsGuardsAndLines : Prop :=
  (∀ s : State, s.ports.rstCold = false → exec .securityCoreReset s = .next (coreReset s)) ∧
  (∀ (s : State) (d : Nat), s.ports.rstCold = false → s.boot.resetDue = some d →
    exec .delayedCoreReset s = .next (coreReset { s with timer := Nat.max d s.timer })) ∧
  (∀ (s : State) (c : Fin 4) (v : BitVec 32), Write s (.core c) (bootPage + 0x3C) → bitAt v 1 = true → bitAt v 0 = false →
    exec (.bootCtlCoreReset (.core c) v) s = .next (coreReset s)) ∧
  ∀ s : State, s.tamper.latch = false →
    (coreReset s).timer = s.timer ∧ (coreReset s).att.sessions = [] ∧ (∃ a b, (coreReset s).tenantBox = { eid := a } ∧ (coreReset s).operBox = { eid := b }) ∧
    (coreReset s).boot = { cores := Vector.replicate 4 .romWait } ∧ (∀ n, (coreReset s).anchor n = { epoch := (s.anchor n).epoch }) ∧
    (coreReset s).brup.lines = s.brup.lines ∧ (coreReset s).flash = s.flash ∧
    ∀ (g : Fin 40) (x : Guard), x = (s.guards.get g).dropMower → (coreReset s).guards.get g =
      if x.sweep.sealNext.isSome then { x with sweep := { x.sweep with sealNext := none, key := none } } else x

/-- A raise to T that nothing refuses marks the cairn busy, first adopts the running image into the other slot where that holds no usable image adopted at
T or more, and starts the fuse operation; a refused one answers its code and starts none. At its end the result is E_BURN exactly where bit T - 1 was
to be burned and failed, and the failed bits below it are counted. Says where exec answers a next state for: cairnRaise, cairnRaiseEnd. (Rests on
R495, R497, R498, R499.) -/
def Obligations.CairnRisesOnlyOverAUsableImage : Prop :=
  (∀ (s : State) (p : Path) (v : BitVec 32) (c : BitVec 8), Write s p (bootPage + 0x40) → isCore p = true → bitAt v 31 = true → s.boot.cairnBusy = false →
    raiseRefused s (bitsOf v 7 0) = some c →
    exec (.cairnRaise p v) s = .next (accessOk p 0 { s with boot := { s.boot with
      cairnTarget := BitVec.ofNat 8 (bitsOf v 7 0), cairnValid := true, cairnResult := c } })) ∧
  (∀ (s : State) (p : Path) (v : BitVec 32), Write s p (bootPage + 0x40) → isCore p = true → bitAt v 31 = true → s.boot.cairnBusy = false →
    raiseRefused s (bitsOf v 7 0) = none →
    ∃ t, exec (.cairnRaise p v) s = .next (accessOk p 0 t) ∧
      t = { s with boot := { s.boot with cairnTarget := BitVec.ofNat 8 (bitsOf v 7 0), cairnBusy := true }, flash := t.flash,
                   fuse := { s.fuse with op := some (.cairn (bitsOf v 7 0)) } } ∧
      t.flash = if slotUsable s (!s.boot.slotB) && bitsOf v 7 0 ≤ (imageOf (slotHeader s (!s.boot.slotB))).svn then s.flash
        else (adopt (!s.boot.slotB) (s.boot.imageBytes.take 16384) (s.boot.imageBytes.drop 16384)
          { s with boot := { s.boot with cairnTarget := BitVec.ofNat 8 (bitsOf v 7 0), cairnBusy := true } }).flash) ∧
  (∀ (s : State) (T : Nat) (failed : List Nat), s.ports.rstCold = false → s.fuse.op = some (.cairn T) →
    ∃ t, exec (.cairnRaiseEnd failed) s = .next t ∧ Only [.freeCtr, .boot, .fuse, .array, .fq] s t ∧ t.fuse.op = none ∧
      t.boot = { s.boot with cairnBusy := false, cairnValid := true, cairnResult := t.boot.cairnResult, cairnSkipped := t.boot.cairnSkipped } ∧
      (t.boot.cairnResult = 0x30 ↔ ∃ i, i + 1 = T ∧ cairnWeak s i = true ∧ i ∈ failed) ∧ (t.boot.cairnResult = 0x30 ∨ t.boot.cairnResult = 0) ∧
      t.boot.cairnSkipped = BitVec.ofNat 7 ((List.range T).filter (fun i => i + 1 < T ∧ i ∈ failed ∧ cairnWeak s i = true)).length)

/-- A BRINGUP_ACTION of an operator session that nothing refuses is answered E_OK, and resets or fences the guard of UNIT, resets its die section, holds
or releases the line of ARG, or has the security core reset later; one refused is answered its code and does nothing else. IMAGE_UPDATE of an operator
session starts one update, which reads the image's header region from node memory, or is refused while one runs; once the image has passed its checks,
IMAGE_ADOPTED writes its tags and a trial record into the other slot, answers, and has the core reset 10 ms later. Says where exec answers a next
state for: imageUpdate, imageAdopted, guardReset, sectionReset, guardFence, unitHold, unitRelease, coreReset. (Rests on R461, R572 to R575, R461,
R491, R492, R493.) -/
def Obligations.OperatorActionsAndUpdatesDoWhatTheyName : Prop :=
  (∀ (s : State) (sess : Nat) (tag : BitVec 32) (body : Bytes),
    (Acts s sess body 1 → exec (.guardReset sess tag body) s = .next (match guardActionRefused body with
      | some c => refuse (actor sess tag) c (asked sess s)
      | none => settle (reply (actor sess tag) eOk (enterReset (guardOfUnit (actionUnit body)) (asked sess s))))) ∧
    (Acts s sess body 2 → actionArg body = 0 → actionUnit body % 8192 = 0 → actionUnit body < 4 * 8192 →
      exec (.sectionReset sess tag body) s = .next (reply (actor sess tag) eOk (sectionReset (actionUnit body / 8192) (asked sess s)))) ∧
    (Acts s sess body 3 → exec (.guardFence sess tag body) s = .next (match guardActionRefused body with
      | some c => refuse (actor sess tag) c (asked sess s)
      | none => settle (reply (actor sess tag) eOk (fenceGuard false true (guardOfUnit (actionUnit body)) (asked sess s))))) ∧
    (Acts s sess body 4 → actionUnit body = 0 → actionArg body < 64 → s.mir.site = false → ∀ u v,
      u = modLine (actionArg body) (fun l => { l with run := false, acked := false, timedOut := true }) (holdGuards (actionArg body) (dropPackage (actionArg body) (asked sess s))) →
      v = reserve (forEach (lineLinks u (actionArg body)) unqualify u) →
      exec (.unitHold sess tag body) s = .next (settle (bringOn (reply (actor sess tag) eOk v)))) ∧
    (Acts s sess body 5 → actionUnit body = 0 → actionArg body < 64 → s.mir.site = false → lineEntries s (actionArg body) ≠ [] →
      (s.line (actionArg body)).run = false → (lineEntry s (actionArg body)).phase ≤ s.brup.phase →
      exec (.unitRelease sess tag body) s = .next (bringOn (reply (actor sess tag) eOk
        (modLine (actionArg body) (fun l => { l with timedOut := false }) (asked sess s))))) ∧
    (Acts s sess body 6 → actionUnit body = 0 → actionArg body = 0 →
      exec (.coreReset sess tag body) s = .next (scheduleReset (reply (actor sess tag) eOk (asked sess s)))) ∧
    (Acts s sess body 6 → (actionUnit body ≠ 0 ∨ actionArg body ≠ 0) →
      exec (.coreReset sess tag body) s = .next (refuse (actor sess tag) eReserved (asked sess s)))) ∧
((∀ (s : State) (sess : Nat) (tag : BitVec 32) (body : Bytes), Acts s sess body 0x40 → actionUnit body = 0 →
    (s.boot.updateBusy = true → exec (.imageUpdate sess tag body) s = .next (refuse (actor sess tag) eState (asked sess s))) ∧
    (s.boot.updateBusy = false → ∃ t, exec (.imageUpdate sess tag body) s = .next t ∧ Only [.freeCtr, .att, .boot, .dma] s t ∧
      t.boot = { s.boot with updateBusy := true, update := some { waiter := actor sess tag, work := s.dma.nextWork } } ∧
      t.dma = (dmaRead .image (actionArg body * 65536) 16384 (asked sess s)).2.dma)) ∧
  (∀ (s : State) (u : Update), s.ports.rstCold = false → s.boot.update = some u → u.image ≠ [] →
    exec (.imageAdopted false) s = .next (updateRefused eBusy s) ∧
    ∃ t, exec (.imageAdopted true) s = .next t ∧ Only [.freeCtr, .att, .tenantBox, .operBox, .boot, .flash, .mir] s t ∧
      t.boot = { s.boot with update := none, updateBusy := false, resetDue := some (s.timer + 10000) } ∧
      t.flash = (commitAppend (!s.boot.slotB) false (imageOf u.header).svn (programTags (!s.boot.slotB) u.image s)).flash))

/-- A FUSE_CMD write with GO from a management core leaves the code of the first check that fails and starts nothing, or starts the operation it names; it
starts one only in a part that has been sensed and runs no fuse operation, and never in a decommissioned one. The end of a FUSE_CMD operation burns
the bits of its one word and senses it: with none failed they read one at both references and the result is 0, with any failed it is E_BURN and no bit
of the word returns to zero; no other word changes. A re-sensing burns nothing. Says where exec answers a next state for: fuseProgram, fuseSeal,
lockWrite, lockRead, revoke, fuseOperationEnd, fuseResense. (Rests on R531 to R533, R535, R512, R519, R529, R534.) -/
def Obligations.FuseCommandsStartAndEndOneOperation : Prop :=
  (∀ (s : State) (p : Path) (v : BitVec 32), Write s p (fusePage + 0x20) → isCore p = true → bitAt v 31 = true →
    (∀ i ∈ [(1, Instr.fuseProgram p v), (2, Instr.fuseSeal p v), (3, Instr.lockWrite p v), (4, Instr.lockRead p v), (5, Instr.revoke p v)],
      bitsOf v 3 0 = i.1 →
      (∀ c, fuseRefused s v = some c → exec i.2 s = .next (accessOk p 0 { s with fuse := { s.fuse with
        cmd := (v &&& 0x1FFFF#32).extractLsb' 0 31, valid := true, result := c } })) ∧
      (fuseRefused s v = none → exec i.2 s = .next (accessOk p 0 { s with fuse := { s.fuse with
        cmd := (v &&& 0x1FFFF#32).extractLsb' 0 31, op := some (fuseOpOf s v) } }))) ∧
    (fuseRefused s v = none → s.fuse.sensed = true ∧ s.fuse.op = none ∧ lifeCycle s < 4)) ∧
((∀ (s : State) (op : FuseOp) (w : Nat) (v : BitVec 72) (failed : List (Nat × Nat)), s.ports.rstCold = false → s.fuse.op = some op →
    (∀ a b, op ≠ .transition a b) → op.target s = some (w, v) →
    ∃ t, exec (.fuseOperationEnd failed) s = .next t ∧ Only [.freeCtr, .fuse, .array] s t ∧ t.fuse.op = none ∧ t.fuse.valid = true ∧
      t.fuse.result = (if failedMask w v failed = 0 then 0 else 0x30) ∧ (∀ w', w' ≠ w → t.fuseWord w' = s.fuseWord w') ∧
      (t.fuseWord w).tight = (s.fuseWord w).tight ||| (v &&& ~~~ failedMask w v failed) ∧
      (failedMask w v failed = 0 → (t.fuseWord w).norm = (s.fuseWord w).norm ||| v) ∧ (s.fuseWord w).norm &&& ~~~ (t.fuseWord w).norm = 0) ∧
  (∀ (s : State) (read : List (Nat × BitVec 72 × BitVec 72)), s.ports.rstCold = false → s.tamper.latch = false → s.fuse.sensed = true → s.fuse.op = none →
    ∃ t, exec (.fuseResense read) s = .next t ∧ Only [.fuse, .fq] s t))

/-- An LC_CMD write with GO leaves the code that refuses its target, or starts the programming of its words; when they have verified the transition takes
effect: the DRBG reseeds with the new state before its next request, and a reset 10 ms later follows for mission, the tamper sequence for
decommissioned. DECOMMISSION of the operator requests the latter. Says where exec answers a next state for: lcToProvision, lcToMission,
lcToDecommissioned, lcTransitionEffect, decommission. (Rests on R531, R535, R539, R541, R542.) -/
def Obligations.LifeCycleMovesByItsWords : Prop :=
  (∀ (s : State) (p : Path) (v : BitVec 32), Write s p (fusePage + 0x48) → isCore p = true → bitAt v 31 = true →
    ∀ i ∈ [(2, Instr.lcToProvision p v), (3, Instr.lcToMission p v), (4, Instr.lcToDecommissioned p v)], bitsOf v 7 0 = i.1 →
      (∀ c, lcWords s i.1 = .error c → exec i.2 s = .next (accessOk p 0 { s with fuse := { s.fuse with
        lcTarget := BitVec.ofNat 8 i.1, lcValid := true, lcResult := c } })) ∧
      (∀ ws, lcWords s i.1 = .ok ws → exec i.2 s = .next (accessOk p 0 { s with fuse := { s.fuse with
        lcTarget := BitVec.ofNat 8 i.1, op := some (.transition (BitVec.ofNat 8 i.1) ws), lcBusy := true } }))) ∧
  (∀ (s : State) (target : BitVec 8) (ws : List Nat), s.ports.rstCold = false → s.fuse.op = some (.transition target ws) →
    ∃ t, exec .lcTransitionEffect s = .next t ∧
      (target ≠ 4 → t.fuse.op = none ∧ t.fuse.lcBusy = false ∧ t.fuse.lcValid = true ∧ t.fuse.lcResult = 0 ∧
        t.ent = { s.ent with lcAdd := some target, reseedDue := true } ∧ t.tamper = s.tamper) ∧
      (target ≠ 3 → target ≠ 4 → t.boot = s.boot) ∧ (target = 3 → t.boot = { s.boot with resetDue := some (s.timer + 10000) }) ∧
      (target = 4 → t.tamper.latch = true ∧ t.ks = {})) ∧
  (∀ (s : State) (sess : Nat) (tag : BitVec 32) (body : Bytes), Acts s sess body 0x51 → actionUnit body = 0 →
    (actionArg body ≠ (dieId s).toNat % 2 ^ 32 → exec (.decommission sess tag body) s = .next (refuse (actor sess tag) eMismatch (asked sess s))) ∧
    (actionArg body = (dieId s).toNat % 2 ^ 32 → s.fuse.op = none → (∀ c, lcWords s 4 ≠ .error c) →
      exec (.decommission sess tag body) s = .next (reply (actor sess tag) eOk (lcCmdWrite 0x80000004#32 (asked sess s)))))

/-- A debug unlock is read from node memory, ARM arms it exactly in a mission part that permits it, an armed one comes into force only at the boot it
names and is armed no longer, and the test pins drive a group only where blank or provision, or an unlock of its scope, opens it. Says where exec
answers a next state for: lcDebugArm, debugUnlock, tmxCtl. (Rests on R543 to R547, R658.) -/
def Obligations.DebugNeedsMissionPermitAndArm : Prop :=
  (∀ (s : State) (p : Path) (v : BitVec 32), Write s p (fusePage + 0x58) → isCore p = true → bitAt v 0 = true →
    exec (.lcDebugArm p v) s = .next (accessOk p 0 (if lifeCycle s = 3 ∧ debugPermit s = true
      then { s with fuse := { s.fuse with dbgArm := true } } else s))) ∧
  (∀ (s : State) (sess : Nat) (tag : BitVec 32) (body : Bytes), Acts s sess body 0x50 → actionUnit body = 0 →
    ∃ t, exec (.debugUnlock sess tag body) s = .next t ∧ Only [.freeCtr, .att, .dma] s t ∧
      t = (dmaRead (.token (actor sess tag)) (actionArg body * 65536) 7507 (asked sess s)).2) ∧
  (∀ s : State, (debugPass s).fuse.dbgArm = false ∧
    ((debugPass s).fuse.inForce = true ↔ s.fuse.dbgArm = true ∧ s.fuse.dbgBoot = s.att.bootCount)) ∧
  (∀ (s : State) (p : Path) (v : BitVec 32), Write s p (fusePage + 0x5C) →
    ∃ t, exec (.tmxCtl p v) s = .next (accessOk p 0 t) ∧ Only [.fuse] s t ∧ t.fuse.tmxGroup = v.extractLsb' 0 6 ∧ t.fuse.tmxEnable = bitAt v 6 ∧
      tmxPins t = 0) ∧
  ∀ s : State, tmxPins s ≠ 0 → s.fuse.tmxEnable = true ∧ s.mir.site = false ∧ s.tamper.cleared = false ∧
    (lifeCycle s ≤ 2 ∨ (s.fuse.inForce = true ∧ bitAt s.fuse.dbgScope s.fuse.tmxGroup.toNat = true))

/-- In the open loader a HELLO clears the buffer and starts a sequence; a frame in sequence takes effect once and is answered, and the loader keeps the
answer; the last frame repeated is answered the same and has no effect; a frame out of sequence is refused with no effect; a damaged frame is not
answered; a decommissioned part takes nothing. Says where exec answers a next state for: recoveryHello, recoveryWrite, recoveryCommit, recoveryAbort,
recoveryReservedFrame, damagedFrame. (Rests on R505 to R509, R542.) -/
def Obligations.RecoveryAnswersFramesInOrder : Prop :=
  (∀ (s : State) (seq : BitVec 8), s.ports.rstCold = false → s.boot.recovery.opened = true → lifeCycle s ≠ 4 →
    (s.boot.recovery.hello = false ∨ s.boot.recovery.lastAnswer = none ∨ seq + 1 ≠ s.boot.recovery.expSeq) →
    ∃ t, exec (.recoveryHello seq []) s = .next t ∧ Only [.boot] s t ∧ t.boot.recovery = { s.boot.recovery with
      discarding := false, hello := true, buf := [], marked := [], expSeq := seq + 1, lastAnswer := t.boot.recovery.lastAnswer, tx := t.boot.recovery.tx } ∧
      t.boot.recovery.tx = s.boot.recovery.tx ++ t.boot.recovery.lastAnswer.toList ∧ t.boot.recovery.lastAnswer.isSome) ∧
  (∀ (s : State) (seq : BitVec 8) (payload : Bytes), s.ports.rstCold = false → s.boot.recovery.opened = true → lifeCycle s ≠ 4 →
    s.boot.recovery.hello = true → payload.length ≤ 4100 →
    ∀ c ∈ [Instr.recoveryWrite seq payload, .recoveryCommit seq payload true, .recoveryCommit seq payload false, .recoveryAbort seq payload,
           .recoveryReservedFrame 5 seq payload, .recoveryReservedFrame 0 seq payload],
      (seq = s.boot.recovery.expSeq → s.boot.recovery.lastAnswer = none ∨ seq + 1 ≠ s.boot.recovery.expSeq →
        ∃ t a, exec c s = .next t ∧ t.boot.recovery.expSeq = seq + 1 ∧ t.boot.recovery.lastAnswer = some a ∧
          t.boot.recovery.tx = s.boot.recovery.tx ++ [a]) ∧
      (seq ≠ s.boot.recovery.expSeq → s.boot.recovery.lastAnswer = none ∨ seq + 1 ≠ s.boot.recovery.expSeq →
        ∃ t, exec c s = .next t ∧ t = modRec (fun r => { r with discarding := false, tx := r.tx ++ [frameBytes 0x80 seq [0x32, 0, 0, 0]] }) s) ∧
      (∀ a, s.boot.recovery.lastAnswer = some a → seq + 1 = s.boot.recovery.expSeq →
        ∃ t, exec c s = .next t ∧ t = modRec (fun r => { r with discarding := false, tx := r.tx ++ [a] }) s)) ∧
  (∀ (s : State) (seq : BitVec 8) (payload : Bytes), s.ports.rstCold = false → s.boot.recovery.opened = true → lifeCycle s ≠ 4 →
    s.boot.recovery.hello = true → s.boot.recovery.lastAnswer = none ∨ seq + 1 ≠ s.boot.recovery.expSeq → seq = s.boot.recovery.expSeq →
    4 < payload.length → payload.length ≤ 4100 → fieldLe payload 0 4 % 4096 = 0 → fieldLe payload 0 4 + (payload.length - 4) ≤ 0x800000 →
    ∃ t, exec (.recoveryWrite seq payload) s = .next t ∧ Only [.boot] s t ∧
      t.boot.recovery.buf = bufStore 0 s.boot.recovery.buf (fieldLe payload 0 4) (payload.drop 4) ∧
      fieldLe payload 0 4 / 4096 ∈ t.boot.recovery.marked ∧ t.boot.recovery.lastAnswer = some (frameBytes 0x80 seq [eOk, 0, 0, 0])) ∧
  (∀ s : State, s.ports.rstCold = false → s.boot.recovery.opened = true →
    exec .damagedFrame s = .next (modRec (fun r => { r with discarding := true }) s))

/-- A phase that has ended gives way to the next, and its lines are released; a checked package releases its line and extends NODE_LOG; a unit that comes
up acknowledges its released line and starts the seal sweep of the guards it serves; one that falls, or never comes, has its line held again, and a
phase 2 line that times out halts bring-up; a guard serves once its seal sweep has ended. Says where exec answers a next state for: phaseAdvance,
packageVerified, relUp, relUpFall, releaseTimeout, sealSweepEnd. (Rests on R549 to R556, R559 to R561.) -/
def Obligations.BringUpReleasesByPhase : Prop :=
  (∀ s : State, s.ports.rstCold = false → ksUp s = true → s.brup.halted = false → s.mir.site = false → phaseEnded s = true →
    exec .phaseAdvance s = .next (bringOn (reserve { s with brup := { s.brup with phase := s.brup.phase + 1 } }))) ∧
  (∀ (s : State) (n work : Nat), s.ports.rstCold = false → s.brup.package = some (n, work) → dmaWhole s work = true →
    (packageOk s n = false → exec .packageVerified s = .next (packageFailed n work s)) ∧
    (packageOk s n = true → exec .packageVerified s = .next (bringOn (extendLog n (sha3_384 ((packageHeader s n).take 128))
      (releaseLine n (dmaEnd work { s with brup := { s.brup with package := none } })))))) ∧
  (∀ (s : State) (n : Fin 64), s.ports.rstCold = false → s.tamper.latch = false →
    (s.mir.site = false → (s.line n).run = true → (s.line n).acked = false → ∃ u, u = modLine n (fun x => { x with acked := true, timedOut := false })
        (modLine n (fun x => { x with up := true }) s) ∧ exec (.relUp n) s = .next (bringOn (reserve (forEach (lineGuards s n) startSeal u)))) ∧
    ((s.line n).run = false → exec (.relUp n) s = .next (modLine n (fun x => { x with up := true }) s)) ∧
    ((s.line n).run = true → (s.line n).up = true →
      exec (.relUpFall n) s = .next (bringOn (failLine n 1 (modLine n (fun x => { x with up := false }) s)))) ∧
    ((s.line n).run = true → (s.line n).acked = false → (s.line n).timedOut = false →
      ∃ u, u = failLine n 1 { s with timer := Nat.max ((s.line n).releasedAt + (lineEntry s n).timeout * 10000) s.timer } ∧
        ((lineEntry u n).phase = 2 → u.brup.phase = 2 → exec (.releaseTimeout n) s =
          .next (bringOn (raise false kBringUp n fBrupHalt 0 n { u with brup := { u.brup with halted := true } }))) ∧
        ((lineEntry u n).phase ≠ 2 ∨ u.brup.phase ≠ 2 → exec (.releaseTimeout n) s = .next (bringOn u)))) ∧
  (∀ (s : State) (g : Fin 40) (k : Entry), s.ports.rstCold = false → (s.guards.get g).sweep.sealNext.isSome = true → (s.guards.get g).canSweep = true →
    (s.guards.get g).sweep.key = some k →
    ∃ t, exec (.sealSweepEnd g) s = .next t ∧ Only [.freeCtr, .guards, .brup] s t ∧ (t.guards.get g).service = .serving ∧
      (t.guards.get g).sweep.sealNext = none ∧ (t.guards.get g).sweep.key = none ∧
      ∀ h, h ≠ g → t.guards.get h = s.guards.get h)

/-- A bank that passes its test joins with the first eight good lanes, and with its first bank a guard with no request left in flight leaves reset; a unit
of the security core that passes joins; one found bad is excluded and recorded once as a finding; POP and UNRECORDED remove the oldest finding, the
latter with a count and a fault. Says where exec answers a next state for: bankTestPass, unitSelfTestPass, pop, unrecorded, startTimeFinding. (Rests
on R562 to R570.) -/
def Obligations.SelfTestsDecideWhoJoins : Prop :=
  (∀ (s : State) (g : Fin 40) (bank : Nat) (x : Guard) (u : State), x = s.guards.get g → s.ports.rstCold = false → s.tamper.latch = false → s.ports.broken = false →
    (s.dieN (g / 10)).laneRun = true → (s.dieN (g / 10)).guardGood = true → (x.inReset = false → ∃ b ∈ x.banks, b.tested = true) →
    (x.inReset = true → x.reqs = [] ∧ x.rsps = []) →
    (List.range x.banks.length).find? (fun b => !(x.bankN b).tested && !(x.bankN b).excluded) = some bank →
    u = modBank g bank (fun b => { b with tested := true, active := goodLanes b.bad, spareUsed := bitAt (goodLanes b.bad) 8,
                                          lastKat := List.replicate 9 s.timer }) { s with guards := s.guards.set g x.noteThrottle } →
    exec (.bankTestPass g bank) s = .next (if x.inReset then leaveReset g u else u)) ∧
  (∀ (s : State) (unit : Nat), s.ports.rstCold = false →
    (s.brup.unitsLeft.contains unit = true ∨ unit / 1024 = 6 ∧ bitAt s.dig.testing (unit % 1024) = true) → coreRuns s = true →
    ∃ t, exec (.unitSelfTestPass unit) s = .next t ∧ Only [.dig, .ingest, .mower, .brup] s t ∧
      t.brup = { s.brup with unitsLeft := s.brup.unitsLeft.filter (· != unit) } ∧
      (unit / 1024 = 5 → t.mower = { s.mower with lanes := setBit s.mower.lanes (unit % 1024) true, joined := setBit s.mower.joined (unit % 1024) true }) ∧
      (unit / 1024 = 6 → unit % 1024 < 2 → t.dig = { s.dig with
        testing := setBit s.dig.testing (unit % 1024) false, sha2Cores := setBit s.dig.sha2Cores (unit % 1024) true }) ∧
      (unit / 1024 = 6 → 2 ≤ unit % 1024 → t.dig = { s.dig with
        testing := setBit s.dig.testing (unit % 1024) false, kecCores := setBit s.dig.kecCores (unit % 1024 - 2) true }) ∧
      (unit / 1024 = 7 → t.ingest = { s.ingest with gcmLanes := setBit s.ingest.gcmLanes (unit % 1024) true })) ∧
  (∀ (s : State) (kind : BitVec 4) (unit sub : BitVec 16) (d : Defect), s.ports.rstCold = false → s.tamper.latch = false →
    d = { cls := kind.toNat, unit := if kind.toNat ≤ 2 then canonUnit unit.toNat else unit.toNat, index := sub.toNat, site := 3 ≤ kind.toNat && s.mir.site } →
    defectExists d = true → (defects s).contains d = false → s.brup.findings.contains (findingOf d) = false →
    (d.cls = 6 → bitAt s.dig.testing d.index = true → s.brup.unitsLeft.contains (6 * 1024 + d.index) = true) →
    ∃ t, exec (.startTimeFinding kind unit sub) s = .next t ∧
      Only [.freeCtr, .guards, .dies, .head, .ks, .vault, .slots, .pk, .dig, .ent, .ingest, .mower, .att, .tenantBox, .operBox, .boot, .brup, .fq, .mir] s t ∧
      t.brup = { s.brup with findings := s.brup.findings ++ [findingOf d], unitsLeft := s.brup.unitsLeft.filter (· != d.cls * 1024 + d.index),
                             reduced := t.brup.reduced }) ∧
  (∀ (s : State) (p : Path) (v : BitVec 32) (f : BitVec 64) (fs : List (BitVec 64)), Write s p (brupPage + 0x58) → s.brup.findings = f :: fs →
    (bitAt v 0 = true → bitAt v 1 = false → exec (.pop p v) s = .next (accessOk p 0 { s with brup := { s.brup with findings := fs } })) ∧
    (bitAt v 0 = false → bitAt v 1 = true → ∃ t, exec (.unrecorded p v) s = .next (accessOk p 0 t) ∧ Only [.brup, .fq] s t ∧
      t.brup = { s.brup with findings := fs, unrecorded := satInc s.brup.unrecorded }))

/-- FP_SAMPLE and the 10 ms interval request a sample where none is waited for, and the head sends a PULSE for it, with the reference of that moment; once
every stop has latched, or 20 µs have passed, the guards whose snapshot differs from the reference, and those of a stop that has not latched, are
fenced and counted, and the sample ends. Says where exec answers a next state for: fpSample, fingerprintCompare, fpNoLatch, fingerprintSampleInterval.
(Rests on R577 to R579, R581.) -/
def Obligations.FingerprintMismatchFencesGuards : Prop :=
  (∀ (s : State) (p : Path) (v : BitVec 32) (u : State), Write s p (brupPage + 0x5C) → bitAt v 0 = true →
    u = { s with brup := { s.brup with fpSample := true } } →
    exec (.fpSample p v) s = .next (accessOk p 0 (if fpWaiting s then s else if s.head.attached then headAll .pulse (fpAtPulse u) else u))) ∧
  (∀ (s : State) (u : State), s.ports.rstCold = false → ksUp s = true → u = { s with brup := { s.brup with fpSample := true } } →
    exec .fingerprintSampleInterval s = .next (if fpWaiting s then s else if s.head.attached then headAll .pulse (fpAtPulse u) else u)) ∧
  (∀ (u : State), u.brup.fpSample = true → u.ks.fpRef = none → (fpAtPulse u).brup.fpSample = false ∧
    (fpAtPulse u).ks.fpRef = some (u.head.seq, referenceFp u) ∧ (fpAtPulse u).ks.fpAt = u.timer ∧
    ∀ d : Fin 4, ((fpAtPulse u).dies.get d).fpPend = !(u.dies.get d).inReset) ∧
  (∀ (s : State) (seq : BitVec 16) (ref : BitVec 32) (c : Instr), s.ports.rstCold = false → s.ks.fpRef = some (seq, ref) →
    (c = .fingerprintCompare ∧ (∀ d : Fin 4, (s.dieN d).fpPend = false ∨ (s.dieN d).inReset = true) ∨
     c = .fpNoLatch ∧ ∃ d : Fin 4, (s.dieN d).fpPend = true ∧ (s.dieN d).inReset = false) →
    ∃ t, exec c s = .next t ∧ t.brup.fpSample = s.brup.fpSample ∧ t.brup.fpValid = true ∧ t.brup.fpMismatched ≤ 40 ∧
      ∀ g : Fin 40, (((s.dieN (g / 10)).fpPend = true ∧ (s.dieN (g / 10)).inReset = false) ∨
          (s.brup.fpSnap.get g ≠ 0 ∧ s.brup.fpSnap.get g ≠ ref)) → (t.guardN g).fenced = true)

/-- A header presented where gu_req_ready reads 1 is answered by the first check that fails (the fence, a transaction tag in flight with a fault, a
reserved operation, then the rights of its stream and domain) and then no request comes of it; a header that no check refuses becomes one request,
decided on its domain's key, where a slot and a place are free. A partial write that finds no read-modify-write place is held, and the port with it
(R89). Says where exec answers a next state for: upstreamRequest. (Rests on R65, R72, R74, R75, R107, R155.) -/
def Obligations.HeadersAreCheckedInOrder : Prop :=
  ∀ (s u : State) (g : Fin 40) (slice : Nat) (op : BitVec 3) (stream : BitVec 16) (domain : BitVec 13) (addr : BitVec 42) (txn : BitVec 12) (x : Guard)
    (h : Hdr) (refused : Nat → State → State),
    s.ports.rstCold = false → x = s.guards.get g → slice < slices g → ready g x = true → (x.fenced = true ∨ (s.dieN (g / 10)).serveNow = true) →
    h = { slice := slice, op := op, stream := stream, domain := domain, addr := addr, txn := txn } →
    u = s.modGuard g (fun y => { y with placeWait := false, page := { y.page with lineCount := y.page.lineCount + 1 } }) →
    (∀ st v, refused st v = v.modGuard g (fun y => { y.answer slice txn y.uid (op == 0 || 3 ≤ op.toNat) st 0 0 with
      uid := y.uid + 1, wdWait := if op == 1 || op == 2 then y.wdWait ++ [(slice, 0)] else y.wdWait })) →
    (op = 2 → rmwPlaces g ≤ x.placesUsed → x.fenced = false → exec (.upstreamRequest g slice op stream domain addr txn) s =
      .next (s.modGuard g (fun y => { y with placeWait := true }))) ∧
    (x.fenced = true → exec (.upstreamRequest g slice op stream domain addr txn) s = .next (refused stFenced u)) ∧
    ((op ≠ 2 ∨ x.placesUsed < rmwPlaces g) →
    (x.fenced = false → x.txnInFlight txn = true → exec (.upstreamRequest g slice op stream domain addr txn) s =
      .next (refused stOp (raise false kGuard (unitGuard g) fTxnReuse 0 txn.toNat u))) ∧
    (x.fenced = false → x.txnInFlight txn = false → 3 ≤ op.toNat → exec (.upstreamRequest g slice op stream domain addr txn) s = .next (refused stOp u)) ∧
    (∀ o, x.fenced = false → x.txnInFlight txn = false → opOf op = some o →
      (∀ st, rightsCheck (s.dieN (g / 10)).streams (s.dieN (g / 10)).readers op.toNat stream.toNat domain.toNat = some st →
        exec (.upstreamRequest g slice op stream domain addr txn) s = .next (refused st u)) ∧
      (rightsCheck (s.dieN (g / 10)).streams (s.dieN (g / 10)).readers op.toNat stream.toNat domain.toNat = none →
        exec (.upstreamRequest g slice op stream domain addr txn) s =
          .next (acceptHdr g slice o h (entryDomain (streamEntry (s.dieN (g / 10)).streams stream.toNat)) u))))

/-- A data beat goes to the oldest header of its slice that owes one, and that of a refused header is dropped; a request is handed downstream under its
line's address and then waits for its answer; a read answered with an error completes with E_MEM, otherwise it is checked; a write's acknowledgement
completes it, with E_FENCED where a fence overtook it, E_MEM on an error, else OK and counted; the oldest ready response of a slice is taken. Says
where exec answers a next state for: writeDataBeat, downstreamRequestIssue, downstreamReadResponse, downstreamWriteAck, upstreamResponse. (Rests on
R66, R67, R76, R81, R83, R85, R86, R108, R638 to R640.) -/
def Obligations.MemoryAnswersCompleteRequests : Prop :=
  ∀ (s : State) (g : Fin 40) (x : Guard) (r : Req), s.ports.rstCold = false → x = s.guards.get g →
    (∀ (slice : Nat) (txn : BitVec 12) (data : BitVec 512) (be side : BitVec 64) (w : Nat × Nat), x.wdWait.find? (fun w => w.1 == slice) = some w →
      (w.2 = 0 → exec (.writeDataBeat g slice txn data be side) s = .next (s.modGuard g (fun y => { y with wdWait := dropFirst (fun v => v == w) y.wdWait }))) ∧
      (∀ r', x.reqs.find? (fun r => r.uid == w.2) = some r → w.2 ≠ 0 → r.stage = .needData →
        r' = { r with data := data, be := if r.op = .write then BitVec.allOnes 64 else be, side := side, wdTxn := txn, gotData := true,
                      op := if r.op = .partialWrite ∧ be = BitVec.allOnes 64 then .write else r.op } →
        exec (.writeDataBeat g slice txn data be side) s = .next (settle (proceedData g r' (modReq g r.uid (fun _ => r')
          (s.modGuard g (fun y => { y with wdWait := dropFirst (fun v => v == w) y.wdWait }))))))) ∧
    (∀ uid, x.reqs.find? (fun r => r.uid == uid) = some r → x.clkStopped = false → x.reqs.any (Guard.blockedBy r) = false → x.tagsOut.length < 4096 →
      (r.stage = .readQ → ∃ t tag, exec (.downstreamRequestIssue g uid) s = .next t ∧ Only [.freeCtr, .guards] s t ∧
        (t.guards.get g).reqs = mapIf (fun q => q.uid == uid) (fun q => { q with stage := .readOut tag }) x.reqs ∧
        (t.guards.get g).beat = { slice := downSlice g r.addr, write := false, addr := r.addr, tag := tag }) ∧
      (∀ d sd, r.stage = .writeQ d sd → ∃ t tag, exec (.downstreamRequestIssue g uid) s = .next t ∧ Only [.freeCtr, .guards] s t ∧
        (t.guards.get g).reqs = mapIf (fun q => q.uid == uid) (fun q => { q with stage := .writeOut tag }) x.reqs ∧
        (t.guards.get g).beat = { slice := downSlice g r.addr, write := true, addr := r.addr, tag := tag, data := d, side := sd })) ∧
    (∀ tag data side, x.reqs.find? (fun r => r.stage == .readOut tag || r.stage == .discardOut tag) = some r → r.stage = .readOut tag →
      exec (.downstreamReadResponse g tag true data side) s = .next (settle (respond g r stMem 0 side s)) ∧
      exec (.downstreamReadResponse g tag false data side) s = .next (settle (finishRead g r data side s))) ∧
    (∀ tag err, x.reqs.find? (fun r => r.stage == .writeOut tag || r.stage == .fencedOut tag) = some r →
      (r.stage = .fencedOut tag → exec (.downstreamWriteAck g tag err) s = .next (fail g r stFenced s)) ∧
      (r.stage = .writeOut tag → exec (.downstreamWriteAck g tag true) s = .next (fail g r stMem s)) ∧
      (r.stage = .writeOut tag → exec (.downstreamWriteAck g tag false) s = .next (fail g r stOk (s.modGuard g (fun y => { y with
        page := { y.page with linesWritten := if r.be = BitVec.allOnes 64 then y.page.linesWritten + 1 else y.page.linesWritten,
                              rmwCount := if r.be = BitVec.allOnes 64 then y.page.rmwCount else y.page.rmwCount + 1 } }))))) ∧
    (∀ slice p, x.rsps.find? (fun q => q.slice == slice) = some p →
      exec (.upstreamResponse g slice) s = .next (s.modGuard g (fun y => { y with rsps := dropFirst (fun q => q == p) y.rsps, rspBeat := p })))

/-- LIMIT is stored and applies from the next interval; the shares are stored capped at 100, and in force at once unless a power limit lowers them; a mask
clears error counts; one domain's tag-failure count or all of them are cleared; an interval ends with LIMIT in force and the count at 0; the guard
counts its memory port clock as stopped or running, which its die section shows. Each leaves all other state as it was. Says where exec answers a next
state for: guardThrottle, throttleInterval, guardLaneShare, guardErrClear, guardTagfailClear, memoryPortClockStopped, memoryPortClockRunning. (Rests
on R44, R93, R111 to R114, R264, R642.) -/
def Obligations.GuardPortControlsStoreTheirFields : Prop :=
  ∀ (s : State) (g : Fin 40) (p : Path) (v : BitVec 32) (x : Guard), x = s.guards.get g →
    (Write s p (guardAddr g 0x24) → exec (.guardThrottle g p v) s =
      .next (accessOk p 0 { s with guards := s.guards.set g { x with page := { x.page with limit := v.extractLsb' 0 14 } } })) ∧
    (∀ w, Write s p (guardAddr g 0x28) → (∀ i < 4, bitsOf w (8 * i + 7) (8 * i) = Nat.min (bitsOf v (8 * i + 7) (8 * i)) 100) →
      exec (.guardLaneShare g p v) s = .next (accessOk p 0 { s with guards := s.guards.set g { x with page := { x.page with share := w, shareEff := scaleShares x.page.powerPct w } } }) ∧
        (x.page.powerPct = none → scaleShares x.page.powerPct w = w)) ∧
    (Access s p (guardAddr g 0x70) → ∃ c, exec (.guardErrClear g p v) s =
      .next (accessOk p 0 { s with guards := s.guards.set g { x with page := { x.page with errCount := c } } }) ∧
      c.length = x.page.errCount.length ∧ ∀ i, c.getD i 0 = if bitAt v (i + 2) then 0 else x.page.errCount.getD i 0) ∧
    (Access s p (guardAddr g 0x102C) → bitAt v 31 = true → exec (.guardTagfailClear g p v) s =
      .next (accessOk p 0 { s with guards := s.guards.set g { x with page := { x.page with tfCounts := [], tfTotal := 0 } } })) ∧
    (Access s p (guardAddr g 0x102C) → bitAt v 31 = false → ∃ l, exec (.guardTagfailClear g p v) s =
      .next (accessOk p 0 { s with guards := s.guards.set g { x with page := { x.page with tfCounts := l } } }) ∧
      (∀ q ∈ l, q ∈ x.page.tfCounts ∧ q.1 ≠ bitsOf v 12 0) ∧ ∀ q ∈ x.page.tfCounts, q.1 ≠ bitsOf v 12 0 → q ∈ l) ∧
    (s.ports.rstCold = false → exec (.throttleInterval g) s = .next { s with guards := s.guards.set g { x.noteThrottle with
      page := { x.noteThrottle.page with limitNow := x.page.limit, lineCount := 0 },
      miss := { x.miss with hold := if x.miss.heldInterval then satInc x.miss.hold else x.miss.hold, heldInterval := x.miss.heldHdr.isSome } } }) ∧
    (s.ports.rstCold = false → ∀ c b, (c = Instr.memoryPortClockStopped g ∧ b = false ∨ c = .memoryPortClockRunning g ∧ b = true) →
      ∃ t, exec c s = .next t ∧ Only [.guards, .dies] s t ∧ t.guards = s.guards.set g { x with clkStopped := !b } ∧
        ∀ d : Fin 4, t.dies.get d = if d.val ≠ g.val / 10 then s.dies.get d
          else if g.val % 10 < 6 then { s.dies.get d with pairRun := setBit (s.dies.get d).pairRun (g % 10 / 2) b } else { s.dies.get d with t2Run := b })

/-- A stage parity error or a wrong known answer counts, raises its fault, takes the lane out of its bank and ends the lines it names; a wrong known
answer also fences the guard; the bank's good spare then takes its place; a written FENCE fences the one guard it names, whose keys are cleared. Says
where exec answers a next state for: laneParity, knownAnswerInjection, guardKatInject, spareSubstitution, fence. (Rests on R17, R19, R20, R23, R103 to
R109, R114, R584, R587.) -/
def Obligations.FailedLanesLeaveServiceAndFencesCloseGuards : Prop :=
  ∀ (s : State) (g : Fin 40) (x : Guard) (bank lane : Nat) (lines : List Nat), s.ports.rstCold = false → x = s.guards.get g →
    (∀ stage : BitVec 4, x.lanePresent bank lane = true → ∃ u, exec (.laneParity g bank lane stage lines) s = .next (settle (laneOut g bank lane lines u)) ∧
      u = raise false kGuard (unitLane g bank lane) fLaneParity 4 stage.toNat { s with guards := s.guards.set g { x with
        page := { x.page with parityFail := satInc x.page.parityFail } } }) ∧
    (x.lanePresent bank lane = true → ∃ u, exec (.knownAnswerInjection g bank lane false lines) s =
        .next (settle (fenceGuard true true g (laneOut g bank lane lines u))) ∧
      u = raise true kGuard (unitLane g bank lane) fLaneKat 5 ((x.bankN bank).lastKat.getD lane 0 % 2 ^ 48) { s with guards := s.guards.set g { x with
        page := { x.page with katCount := x.page.katCount + 1, katDecrypt := !x.page.katDecrypt, katFail := satInc x.page.katFail } } }) ∧
    (x.lanePresent bank lane = true → ∃ u l, exec (.knownAnswerInjection g bank lane true lines) s = .next (settle u) ∧ l.getD lane 0 = s.timer ∧
      u = { s with guards := s.guards.set g { x with
            page := { x.page with katCount := x.page.katCount + 1, katDecrypt := !x.page.katDecrypt },
            banks := x.banks.set bank { x.bankN bank with lastKat := l } } }) ∧
    (∀ p v bad, Write s p (guardAddr g 0x204C) → bitAt v 0 = true → exec (.guardKatInject g p v bad lines) s =
      .next (accessOk p 0 (settle (forEach ((List.range 8).flatMap (fun b => (List.range 9).map (fun l => (b, l))))
        (fun bl t => katBlock g bl.1 bl.2 (!bad.contains bl) lines t) s)))) ∧
    (bank < x.banks.length → (x.bankN bank).spareDue = true → (x.bankN bank).spareGood = true →
      exec (.spareSubstitution g bank) s = .next { s with guards := s.guards.set g { x.noteThrottle with
        banks := x.banks.set bank { x.bankN bank with active := setBit (x.bankN bank).active 8 true, spareUsed := true, spareDue := false } } }) ∧
    (∀ p v, Write s p (guardAddr g 0x20) → (bitAt v 0 = false → exec (.fence g p v) s = .next (accessOk p 0 s)) ∧
      (bitAt v 0 = true → exec (.fence g p v) s = .next (accessOk p 0 (settle (fenceGuard false true g s))))) ∧
    (∀ safety ends, ((fenceGuard safety ends g s).guardN g).fenced = true ∧
      (x.fenced = false → ((fenceGuard safety ends g s).guardN g).cache.lines = [] ∧ ((fenceGuard safety ends g s).guardN g).cache.pins = [] ∧
        ((fenceGuard safety ends g s).guardN g).sweep.key = none) ∧
      ∀ h, h ≠ g.val → (fenceGuard safety ends g s).guardN h = s.guardN h)

/-- A KEY_FILL, KEY_NONE, ROTATE or RETIRE that a stop takes in acts on the guard, or on every live guard of the die, and on the stop's rotation list; a
guard in reset takes no answer and a fenced one no key; waiting fills and retiring entries follow as entries become free. Says where exec answers a
next state for: keyReqResend, keyFill, keyNone, deferredFillInstall, rotate, retire, retiringEntryDrop. (Rests on R126, R130, R131, R139 to R142, R153
to R157, R161, R162, R691, R692.) -/
def Obligations.RingMessagesActOnTheGuardTheyName : Prop :=
  ∀ (s : State) (die : Fin 4) (m : RingMsg) (u : State), Arrives s die m → u = taken die m s →
    (∀ e, m.body = .keyFill e →
      ((u.guardN m.dest).inReset = true ∨ (u.guardN m.dest).fenced = true → exec (.keyFill die) s = .next u) ∧
      ((u.guardN m.dest).inReset = false → (u.guardN m.dest).fenced = false →
        exec (.keyFill die) s = .next (settle (fillArrived (openOk u) m.dest e u)))) ∧
    (∀ d w b, m.body = .keyNone d w b →
      ((u.guardN m.dest).inReset = true → exec (.keyNone die) s = .next u) ∧
      ((u.guardN m.dest).inReset = false → exec (.keyNone die) s = .next (settle (keyNoneAt m.dest d w b u)))) ∧
    (∀ d n op v, m.body = .rotate d n op →
      v = u.modDie die (fun x => if x.ops.any (fun o => o.1 == op) then x else
        { x with rot := x.rot.filter (fun r => r.1 != d) ++ [(d, !n.getLsbD 0)], ops := x.ops ++ [(op, true)] }) →
      exec (.rotate die) s = .next (forEach (liveGuards die v) (fun g => rotateAt g d n op) v)) ∧
    (∀ f l o op v, m.body = .retire f l o op →
      v = u.modDie die (fun x => if x.ops.any (fun q => q.1 == op) then x else
        { x with rot := x.rot.filter (fun r => r.1 < f || l < r.1), ops := x.ops ++ [(op, true)] }) →
      exec (.retire die) s = .next (settle (forEach (liveGuards die v) (fun g t => dropRetired g (retireAt g f l o op t)) v))) ∧
    (∀ g : Fin 40, (s.guards.get g).inReset = false → exec (.retiringEntryDrop g) s = .next (dropRetired g s)) ∧
    (∀ (g : Fin 40) e es, (s.guards.get g).cache.waitFills = e :: es →
      ((s.guards.get g).room e.domain).isSome = true ∨ ((s.guards.get g).lineGen e.domain e.gen).isSome = true →
      exec (.deferredFillInstall g) s = .next (settle (pinProgress g (seekSlots g (installFill (openOk s) g e
        (s.modGuard g (fun x => { x with cache := { x.cache with waitFills := es } }))))))) ∧
    (∀ (g : Fin 40) (n : Nat) sl, (s.guards.get g).miss.slots[n]? = some sl → (s.guards.get g).inReset = false →
      exec (.keyReqResend g n) s = .next (guardKeyReq g sl.domain sl.want sl.genbit
        ({ s with timer := Nat.max (sl.asked + 50) s.timer }.modGuard g (fun x => { x with miss := { x.miss with
          resends := x.miss.resends + 1, slots := mapIf (fun y => y == sl) (fun y => { y with asked := Nat.max (sl.asked + 50) s.timer }) x.miss.slots } }))))

/-- GUARD_KC_PIN pins a domain in range that is not refused, or unpins it, and otherwise shows why not; it is dropped while a pin is in progress and GO is
set; a query shows what the cache holds of its domain; the clear of miss counts; a scrub checks every valid entry; freed entries go to pins first.
Says where exec answers a next state for: kcPin, kcUnpin, pinReservationTake, kcQuery, bindScrub, guardMissClear. (Rests on R127, R131, R132, R190,
R191, R588.) -/
def Obligations.PinRegistersFollowTheirFields : Prop :=
  ∀ (s : State) (g : Fin 40) (p : Path) (v : BitVec 32) (x : Guard) (d : Nat) (shown : BitVec 2 → Guard), x = s.guards.get g → d = bitsOf v 12 0 →
    (∀ r, shown r = { x with cache := { x.cache with pinDom := BitVec.ofNat 13 d, pinBit := bitAt v 13, pinResult := r } }) →
    (Write s p (kcPinAddr g) →
      (x.cache.pinBusy = true → bitAt v 14 = true → exec (.kcPin g p v) s = .next (accessOk p 0 s) ∧ exec (.kcUnpin g p v) s = .next (accessOk p 0 s)) ∧
      (bitAt v 13 = true → (bitAt v 14 = true → x.cache.pinBusy = false) →
        (bitAt v 14 = false → exec (.kcPin g p v) s = .next (accessOk p 0 { s with guards := s.guards.set g (shown x.cache.pinResult) })) ∧
        (bitAt v 14 = true → 4352 ≤ d → exec (.kcPin g p v) s = .next (accessOk p 0 { s with guards := s.guards.set g (shown 3) })) ∧
        (bitAt v 14 = true → d < 4352 → x.pinned d = false → 32 ≤ x.cache.pins.length →
          exec (.kcPin g p v) s = .next (accessOk p 0 { s with guards := s.guards.set g (shown 2) })) ∧
        (bitAt v 14 = true → d < 4352 → x.pinned d = true ∨ x.cache.pins.length < 32 →
          exec (.kcPin g p v) s = .next (accessOk p 0 (pinStart g d s)))) ∧
      (bitAt v 13 = false → (bitAt v 14 = true → x.cache.pinBusy = false) →
        (bitAt v 14 = false → exec (.kcUnpin g p v) s = .next (accessOk p 0 { s with guards := s.guards.set g (shown x.cache.pinResult) })) ∧
        (bitAt v 14 = true → 4352 ≤ d → exec (.kcUnpin g p v) s = .next (accessOk p 0 { s with guards := s.guards.set g (shown 3) })) ∧
        (bitAt v 14 = true → d < 4352 → exec (.kcUnpin g p v) s = .next (accessOk p 0 { s with guards := s.guards.set g { x with
          cache := { x.cache with pinDom := BitVec.ofNat 13 d, pinBit := false, pinResult := 1, pins := x.cache.pins.filter (fun q => q.domain != d) } } })))) ∧
    (Write s p (guardAddr g 0x3028) → exec (.kcQuery g p v) s = .next (accessOk p 0 { s with guards := s.guards.set g { x with
      cache := { x.cache with query := v.extractLsb' 0 13, queried := true } } })) ∧
    (x.cache.query.toNat = d → x.cache.queried = true → x.queryNow = x.queryOf d) ∧
    (Access s p (guardAddr g 0x4034) → exec (.guardMissClear g p v) s = .next (accessOk p 0 { s with guards := s.guards.set g { x with
      miss := { x.miss with latMax := if bitAt v 0 then 0 else x.miss.latMax, hold := if bitAt v 1 then 0 else x.miss.hold } } })) ∧
    (s.ports.rstCold = false → exec (.pinReservationTake g) s = .next (pinProgress g { s with guards := s.guards.set g x.takePins })) ∧
    (s.ports.rstCold = false → (∀ l ∈ x.cache.lines, l.entry.bindOk l.entry.domain = true) → exec (.bindScrub g) s =
      .next (settle (loadPins g { s with guards := s.guards.set g { x with cache := { x.cache with scrubs := x.cache.scrubs + 1 } } }))) ∧
    (s.ports.rstCold = false → exec (.bindScrub g) s = .next (settle (loadPins g ((forEach x.cache.lines (fun l t =>
        if l.entry.bindOk l.entry.domain || !(t.guards.get g).cache.lines.any (fun k => k.row == l.row) then t
        else bindFailed g l 1 l.entry.domain t) s).modGuard g (fun y => { y with cache := { y.cache with scrubs := y.cache.scrubs + 1 } })))))

/-- A stop inserts from its second queue first and a KEY_REQ, of its guards in turn, only while the key service runs, each with the next SEQ of its
source; a head message with a gap before it is discarded, counted and reported; one that a discarding stop meets is lost; a damaged one is discarded,
counted and starts discarding until the next idle word; the head removes what returns, and sends a PULSE; a stop latches fingerprints at the PULSE of
a sample. A command whose event cannot happen, and a write that another row owns, change nothing: the model's choice (log 3). Says where exec answers
a next state for: stopInsert, keyFill, keyNone, rotate, retire, streamSet, readerSet, tableSync, pulseInterval, pulse, headMessageReturn, sweepCmd,
sweepAbort, damagedMessage, idleWord. (Rests on R180 to R184, R265, R267, R268, R577, R578, R645.) -/
def Obligations.RingStopsPassMessagesInOrder : Prop :=
  (∀ (s : State) (die : Fin 4) (x : Die), s.ports.rstCold = false → x = s.dies.get die → x.inReset = false → s.head.attached = true →
    (∀ m q, x.sendQ = m :: q → exec (.stopInsert die) s = .next (numbered die m { s with dies := s.dies.set die { x with sendQ := q, passing := 0 } })) ∧
    (x.sendQ = [] → ksUp s = false → exec (.stopInsert die) s = .next s) ∧
    (x.sendQ = [] → x.keyReqQ = [] → exec (.stopInsert die) s = .next s) ∧
    (∀ l m, x.sendQ = [] → ksUp s = true → x.nextAsker die = some l → x.keyReqQ.find? (fun m => m.src == 10 * die + l) = some m →
      exec (.stopInsert die) s = .next (numbered die m { s with
        dies := s.dies.set die { x with passing := 0, keyReqQ := dropFirst (fun q => q == m) x.keyReqQ, krTurn := (l + 1) % 10 } }))) ∧
  (∀ (s : State) (die : Fin 4) (m : RingMsg), (m.src < 0x50 → numbered die m s = ringOn die { m with seq := (s.guardN m.src).seq }
      (s.modGuard m.src (fun g => { g with seq := (s.guardN m.src).seq + 1 }))) ∧
    (0x50 ≤ m.src → numbered die m s = ringOn die { m with seq := (s.dies.get die).seq } { s with
      dies := s.dies.set die { s.dies.get die with seq := (s.dies.get die).seq + 1 } })) ∧
  (∀ (s t : State) (die : Fin 4) (x : Die) (m : RingMsg) (ms : List RingMsg) (c : Instr), s.ports.rstCold = false → t = ringFlow (upstream die s) s →
    x = t.dies.get die → x.inbox = m :: ms →
    c ∈ [Instr.keyFill die, .keyNone die, .rotate die, .retire die, .streamSet die, .readerSet die, .tableSync die, .pulse die, .sweepCmd die,
         .sweepAbort die] →
    x.discarding = true → exec c s = .next { t with dies := t.dies.set die { x with inbox := ms } }) ∧
  (∀ (s t : State) (die : Fin 4) (x : Die) (m : RingMsg) (ms : List RingMsg) (c : Instr), s.ports.rstCold = false → t = reached die s →
    x = t.dies.get die → x.inbox = m :: ms →
    c ∈ [Instr.keyFill die, .keyNone die, .rotate die, .retire die, .streamSet die, .readerSet die, .tableSync die, .pulse die, .sweepCmd die,
         .sweepAbort die] →
    x.discarding = false → x.inReset = false → (8 ≤ x.passing → hasInsert die t = false) → m.src = 0xFE → m.seq ≠ x.expSeq →
    2 ^ 15 ≤ (x.expSeq - m.seq).toNat → exec c s = .next (ringGap die m t)) ∧
  (∀ (s : State) (m : RingMsg) (ms : List RingMsg) (wire : Bytes), s.ports.rstCold = false → (atHead s).head.returning = m :: ms →
    (wire = m.wire → exec (.headMessageReturn wire) s = .next ((atHead s).modHead (fun h => { h with returning := ms }))) ∧
    (wire ≠ m.wire → exec (.headMessageReturn wire) s = .next (raise false kKeyService 0 fRingDamage 0
      (m.seq.toNat + fieldLe wire 0 1 * 2 ^ 16 + fieldLe wire 2 1 * 2 ^ 24) ((atHead s).modHead (fun h => { h with returning := ms }))))) ∧
  (∀ (s : State) (die : Option (Fin 4)) (wire : Bytes), s.ports.rstCold = false → wireDamaged wire = false → exec (.damagedMessage die wire) s = .next s) ∧
  (∀ (s t : State) (m : RingMsg) (ms : List RingMsg) (wire : Bytes), s.ports.rstCold = false → wireDamaged wire = true → t = atHead s →
    t.head.inQ = m :: ms → exec (.damagedMessage none wire) s =
    .next (raise false kKeyService 0 fRingDamage 0 ((alGet 0 t.head.srcSeq m.src).toNat + fieldLe wire 0 1 * 2 ^ 16 + fieldLe wire 2 1 * 2 ^ 24)
      { t with head := { t.head with inQ := ms, damaged := satInc t.head.damaged, discarding := true } })) ∧
  (∀ (s t : State) (die : Fin 4) (x : Die) (m : RingMsg) (ms : List RingMsg) (wire : Bytes), s.ports.rstCold = false → wireDamaged wire = true →
    t = ringFlow (upstream die s) s → x = t.dies.get die → x.inbox = m :: ms → x.inReset = false →
    (m.src = 0xFE → exec (.damagedMessage (some die) wire) s = .next (ringLoss die (fieldLe wire 0 1) (fieldLe wire 2 1)
      { t with dies := t.dies.set die { x with crcErr := satInc x.crcErr, crcRecent := true, discarding := true } })) ∧
    (m.src ≠ 0xFE → exec (.damagedMessage (some die) wire) s = .next (passed die m false
      { t with dies := t.dies.set die { x with crcErr := satInc x.crcErr, crcRecent := true } }))) ∧
  (∀ s : State, s.ports.rstCold = false →
    exec (.idleWord none) s = .next { s with head := { s.head with discarding := false } } ∧
    (∀ die : Fin 4, exec (.idleWord (some die)) s = .next { s with dies := s.dies.set die { s.dies.get die with discarding := false } }) ∧
    (s.head.attached = true → exec .pulseInterval s = .next (headAll .pulse (fpAtPulse s)))) ∧
  (∀ (s : State) (die : Fin 4) (m : RingMsg) (u : State), Arrives s die m → m.body = .pulse → u = taken die m s →
    ((u.dies.get die).fpPend = false → exec (.pulse die) s = .next u) ∧
    (∀ ref, u.ks.fpRef = some (m.seq, ref) → (u.dies.get die).fpPend = true → exec (.pulse die) s = .next (latchFp die m.seq u)))

/-- A STREAM_SET or READER_SET changes its table once and is acknowledged when no accepted request waits on it; a repeated one is only acknowledged again,
and not before the first has been; the last TABLE_SYNC of a kind is acknowledged with its SEQ and KIND and marks the kind complete; drained
withdrawals are acknowledged. A command whose event cannot happen, and a write that another row owns, change nothing: the model's choice (log 3). Says
where exec answers a next state for: streamSet, readerSet, withdrawalDrained, tableSync. (Rests on R32, R33, R144, R148 to R151, R188, R692.) -/
def Obligations.TableUpdatesAreAppliedOnceAndAcknowledged : Prop :=
  (∀ (s : State) (die : Fin 4) (m : RingMsg) (u : State) (c : Instr) (op : BitVec 32) (f : Die → Die) (r : Bool), Arrives s die m → u = taken die m s →
    (c = .streamSet die ∧ r = false ∧ (∃ st e, m.body = .streamSet st e op ∧ ∀ d, f d = { d with streams := alPut 0 d.streams st e }) ∨
     c = .readerSet die ∧ r = true ∧ ((∃ mo l h, m.body = .readerSet mo 0 l h op ∧ ∀ d, f d = { d with readers := readerRange mo l h true d.readers }) ∨
       (∃ mo l h, m.body = .readerSet mo 1 l h op ∧ ∀ d, f d = { d with readers := readerRange mo l h false d.readers }) ∨
       (∃ mo l h, m.body = .readerSet mo 2 l h op ∧ ∀ d, f d = { d with readers := readerClear mo d.readers }))) →
    ((u.dies.get die).applied op = some true → exec c s = .next (stopSend die (.ack op (stopUnit die) true) u)) ∧
    ((u.dies.get die).applied op = some false → exec c s = .next u) ∧
    ((u.dies.get die).applied op = none → (withdrawIn die (u.dies.get die) (u.modDie die f)).1 = [] → exec c s = .next (stopSend die (.ack op (stopUnit die) false)
      ((withdrawIn die (u.dies.get die) (u.modDie die f)).2.modDie die (fun d => { d with ops := d.ops ++ [(op, true)] })))) ∧
    ((u.dies.get die).applied op = none → (withdrawIn die (u.dies.get die) (u.modDie die f)).1 ≠ [] → exec c s = .next
      ((withdrawIn die (u.dies.get die) (u.modDie die f)).2.modDie die (fun d => { d with
        ops := d.ops ++ [(op, false)]
        withdraws := d.withdraws ++ [{ opId := op, waits := (withdrawIn die (u.dies.get die) (u.modDie die f)).1, reader := r }] })))) ∧
  (∀ (s : State) (die : Fin 4) (m : RingMsg) (u v : State) (k : Nat) (last : Bool) (start : Nat) (es : List (BitVec 32)), Arrives s die m → u = taken die m s →
    m.body = .tableSync k last start es →
    v = u.modDie die (fun d => if k = 0 then { d with streams := syncWords start es d.streams } else if k = 1 then { d with readers := syncWords start es d.readers }
      else { d with rot := syncRot es d.rot }) →
    exec (.tableSync die) s = .next (if last then stopSend die (.ack (BitVec.ofNat 32 (m.seq.toNat + k * 2 ^ 16)) (stopUnit die) false)
      (tablesTaken die (v.modDie die (fun d => { d with synced := if d.syncDead then 0 else setBit d.synced k true }))) else v)) ∧
  (∀ (s : State) (die : Fin 4) (w : Withdrawal), s.ports.rstCold = false → (s.dies.get die).inReset = false → (s.dies.get die).withdraws = [w] →
    ((∀ q ∈ w.waits, ∀ r ∈ (s.guardN q.1).reqs, r.uid = q.2 → ∃ t, r.stage = .discardOut t) →
      exec (.withdrawalDrained die) s = .next (stopSend die (.ack w.opId (stopUnit die) false)
      ((s.modDie die (fun x => { x with withdraws := [] })).modDie die (fun x => { x with
        ops := mapIf (fun o => o.1 == w.opId) (fun o => (o.1, true)) x.ops })))) ∧
    (∀ q ∈ w.waits, ∀ r ∈ (s.guardN q.1).reqs, r.uid = q.2 → (∀ t, r.stage ≠ .discardOut t) → exec (.withdrawalDrained die) s = .next s))

/-- A KEY_REQ at the head is admitted and answered in order: with the live generation it asks for, or KEY_NONE where there is none; a generation found
lost is reported first; an answer waits while its domain's change is on its way to the standby; a waiting retire and the next descriptor are sent
while the counts allow. A command whose event cannot happen, and a write that another row owns, change nothing: the model's choice (log 3). Says where
exec answers a next state for: keyReq, keyServiceAnswer, retireDequeue, descriptorSend. (Rests on R118, R137, R138, R154, R160, R169, R176, R265,
R297, R298.) -/
def Obligations.TheKeyServiceAnswersKeyRequests : Prop :=
  (∀ (s : State) (m : RingMsg) (ms : List RingMsg) d w b, Reaches s m ms → m.body = .keyReq d w b →
    exec .keyReq s = .next ((takenAtHead m ms s).modHead (fun h => { h with admitted := h.admitted ++ [m] }))) ∧
  (∀ (s : State) (m : RingMsg) (ms : List RingMsg) d w b (u : State) (ecc : BitVec 2), s.ports.rstCold = false → s.head.admitted = m :: ms →
    m.body = .keyReq d w b → u = { s with head := { s.head with admitted := ms } } →
    (ksUp s = false ∨ storePending s d = true → exec (.keyServiceAnswer ecc) s = .next s) ∧
    (ksUp s = true → storePending s d = false →
      ((∀ r, s.dom d = some r → answerEntry r w b = none) → exec (.keyServiceAnswer ecc) s = .next (headSend m.src (.keyNone d w b) u)) ∧
      (∀ r e, s.dom d = some r → answerEntry r w b = some e →
        (e.gen = r.newest → rotateUnsent s d = true → exec (.keyServiceAnswer ecc) s = .next s) ∧
        ((e.gen ≠ r.newest ∨ rotateUnsent s d = false) → ecc.toNat < 2 → e.gen ∉ r.eccBad → e.gen ∉ r.lostGen → e.bindOk d = true →
          exec (.keyServiceAnswer ecc) s = .next (headSend m.src (.keyFill e)
            { u with vault := { u.vault with eccRecent := u.vault.eccRecent || decide (ecc.toNat = 1) } })) ∧
        ((e.gen ≠ r.newest ∨ rotateUnsent s d = false) → (2 ≤ ecc.toNat ∨ e.gen ∈ r.eccBad ∨ e.gen ∈ r.lostGen ∨ e.bindOk d = false) →
          exec (.keyServiceAnswer ecc) s = .next (headSend m.src (.keyNone d w b) (markLost d e.gen (decide (2 ≤ ecc.toNat)) u)))))) ∧
  (∀ (s : State) r q, s.ports.rstCold = false → s.ks.retireQ = r :: q →
    (16 ≤ retiresOut s ∨ s.ks.held ≠ [] → exec .retireDequeue s = .next s) ∧
    (retiresOut s < 16 → s.ks.held = [] → exec .retireDequeue s =
      .next (settle (startOp (retireOp r.first r.last r.older) { s with ks := { s.ks with retireQ := q } })))) ∧
  (∀ (s : State) x (mark cmd : State → State), s.ports.rstCold = false → ksUp s = true →
    s.ks.descs.find? (fun x => !x.sent && heldBy s x.guard x.dsweep < 16 && !(s.guardN x.guard).inReset && !storePending s x.domain) = some x →
    (∀ v, cmd v = headSend x.guard (.sweepCmd x.dsweep x.domain x.first x.count x.sweepId)
      (v.modKs (fun k => { k with descs := mapIf (fun y => y.sweepId == x.sweepId) (fun y => { y with sent := true }) k.descs }))) →
    (∀ v, mark v = v.modKs (fun k => { k with
      descs := mapIf (fun y => y.guard == x.guard && y.domain == x.domain && y.dsweep) (fun y => { y with keyed := true }) k.descs })) →
    (x.dsweep = false ∨ x.keyed = true → exec .descriptorSend s = .next (cmd s)) ∧
    (x.dsweep = true → x.keyed = false →
      (drawNow s = false → exec .descriptorSend s = .next s) ∧
      (drawNow s = true → ∀ t, drawBytes 96 s = (none, t) → exec .descriptorSend s = .next t) ∧
      (drawNow s = true → ∀ keys t, drawBytes 96 s = (some keys, t) →
        exec .descriptorSend s = .next (cmd (headSend x.guard (.keyFill (entryOf keys 8191 0 .seal false)) (mark t))))))

/-- An acknowledgement is counted for the operation it names; at 50 µs what is not acknowledged is sent again; at 100 µs the units that have not
acknowledged are fenced and the operation ends; a reported gap is replayed, and where the ring no longer holds it the guards of the section are
fenced; ended descriptors are counted and a drained teardown begins its sweep. A command whose event cannot happen, and a write that another row owns,
change nothing: the model's choice (log 3). Says where exec answers a next state for: ack, broadcastResend, ackTimeout, ringErr, sweepDone,
teardownDrainEnd. (Rests on R152, R158, R166 to R168, R184, R590, R617, R693.) -/
def Obligations.BroadcastsEndByAcknowledgementOrTimeout : Prop :=
  (∀ (s : State) (m : RingMsg) (ms : List RingMsg) op unit dup, Reaches s m ms → m.body = .ack op unit dup →
    exec .ack s = .next (settle ((takenAtHead m ms s).modKs (fun k => countAck op unit k s.mir.site)))) ∧
  (∀ (s : State) op sync o, s.ports.rstCold = false → s.op op sync = some o →
    (o.resent = true ∨ s.head.attached = false → exec (.broadcastResend op sync) s = .next s) ∧
    (o.resent = false → s.head.attached = true → (∀ d k, o.kind ≠ .sync d k) → exec (.broadcastResend op sync) s =
      .next (forEach o.msgs headAll (modOp op sync (fun x => { x with resent := true }) (reachTime (o.sentAt + 50) s)))) ∧
    (∀ d k, o.resent = false → s.head.attached = true → o.kind = .sync d k → exec (.broadcastResend op sync) s =
      .next (sendSync d k o.msgs (modOp op sync (fun x => { x with resent := true }) (reachTime (o.sentAt + 50) s)))) ∧
    (o.resent = false → exec (.ackTimeout op sync) s = .next s) ∧
    (∀ (type : Nat) (done' : State → State), o.resent = true → type = ((o.msgs.head?).map RingBody.code).getD 0 →
      (∀ v, done' v = settle (modOp op sync (fun x => { x with missG := [], missS := [] }) v)) →
      (∀ d f l b, o.kind = .retire d f l → b = fRetireTimeout → exec (.ackTimeout op sync) s = .next (done' (forEach o.missG (fun g u =>
        raise true kGuard (unitGuard g) b 1 op.toNat (fenceGuard true true g u)) (reachTime (o.sentAt + 100) s)))) ∧
      (∀ d, o.kind = .rotate d → exec (.ackTimeout op sync) s = .next (done' (forEach o.missG (fun g u =>
        raise true kGuard (unitGuard g) fAckTimeout 1 (op.toNat + type * 2 ^ 32) (fenceGuard true true g u)) (reachTime (o.sentAt + 100) s)))) ∧
      (∀ d w k, o.kind = .stream d w k ∨ o.kind = .reader d w k →
        exec (.ackTimeout op sync) s = .next (done' (forEach o.missS (stopTimeout w op type) (reachTime (o.sentAt + 100) s)))) ∧
      (∀ d k, o.kind = .sync d k → exec (.ackTimeout op sync) s = .next (done' (forEach o.missS (fun d t =>
        (stopTimeout false op type d t).modDie d (fun x => { x with synced := 0, syncDead := true })) (reachTime (o.sentAt + 100) s)))))) ∧
  (∀ (s : State) (m : RingMsg) (ms : List RingMsg) exp unit t, Reaches s m ms → m.body = .ringErr exp unit → t = takenAtHead m ms s →
    ((∃ x ∈ t.head.replay, x.seq = exp) → exec .ringErr s =
      .next (forEach (t.head.replay.filter (fun x => (x.seq - exp).toNat < 2 ^ 15)).reverse (ringTo (firstStop t)) t)) ∧
    ((∀ x ∈ t.head.replay, x.seq ≠ exp) →
      (exp = t.head.seq → exec .ringErr s = .next t) ∧
      (exp ≠ t.head.seq → exec .ringErr s =
        .next (settle (raise true kDie (unit - 0x80) fRingLost 0x21 exp.toNat (fenceAll true (guardsOf (unit - 0x80)) t)))))) ∧
  (∀ (s : State) (m : RingMsg) (ms : List RingMsg) id visited failed ab x t, Reaches s m ms → m.body = .sweepDone id visited failed ab →
    s.ks.descs.find? (fun x => x.sweepId == id && x.sent && x.guard == m.src) = some x →
    t = (takenAtHead m ms s).modKs (fun k => { k with descs := k.descs.filter (fun y => y.sweepId != id) }) →
    (x.dsweep = true → exec .sweepDone s = .next (settle (sweepEnded x.domain (rekeyEnded x.domain t)))) ∧
    (x.dsweep = false → exec .sweepDone s = .next (settle (sweepEnded x.domain (rekeyEnded x.domain
      (modDom x.domain (fun r => { r with visited := r.visited + visited, failed := r.failed + failed.toNat }) t)))))) ∧
  (∀ (s : State) (d : BitVec 13) r, s.ports.rstCold = false → s.dom d.toNat = some r → r.state = .tearDrain → r.reading = false →
    domainOps s d.toNat = false → (∀ j ∈ s.mower.run, j.domain ≠ d.toNat) →
    exec (.teardownDrainEnd d) s = .next (settle (sweepEnded d.toNat (addDescs true d.toNat r.regions
      (commitDom d.toNat [] [] (modDom d.toNat (fun r => { r with state := .tearSweep }) s))))))

/-- What each operator request about domains and streams does once it is decided: the code it is refused with, or the record, stream state, region list
reading or link it brings. The order of the checks is the model's choice where no rule orders them (log 21). Says where exec answers a next state for:
domainCreate, operatorDomainTeardown, streamPropose, streamWithdraw, operatorStreamUnbind, regionList, ingestStart, linkAssign. (Rests on R50 to R52,
R118, R145, R147, R163, R168, R173 to R175, R199, R212, R441, R461.) -/
def Obligations.OperatorRequestsAreDecidedByTheirBodies : Prop :=
  ∀ (s : State) (sess : Nat) (tag : BitVec 32) (body : Bytes) (x : Session) (w : Waiter) (u : State) (ref : BitVec 8 → State) (d st : Nat),
    u = asked sess s → (∀ c, ref c = refuse w c u) → d = fieldLe body 0 2 → st = fieldLe body 0 2 →
    (∀ mode flags, w = asker (operMsg 0x0101) sess tag → Asks s (operMsg 0x0101) sess x → body.length = 4 → AtOnce s w body →
      mode = fieldLe body 2 1 → flags = fieldLe body 3 1 →
      (3 < mode ∨ 1 < flags → exec (.domainCreate sess tag body) s = .next (ref eReserved)) ∧
      (mode ≤ 3 → flags ≤ 1 → 4352 ≤ d → exec (.domainCreate sess tag body) s = .next (ref eRange)) ∧
      (mode ≤ 3 → flags ≤ 1 → d < 4352 → domState s d ≠ .free → exec (.domainCreate sess tag body) s = .next (ref eState)) ∧
      (d < 4352 → flags ≤ 1 → domState s d = .free →
        (mode = 2 ∧ 4096 ≤ d ∨ mode = 3 ∧ (4096 ≤ d ∨ openOk s = false ∨ flags = 0) → exec (.domainCreate sess tag body) s = .next (ref eKind)) ∧
        (∀ m, (mode ≤ 1 ∧ m = .seal ∨ mode = 2 ∧ d < 4096 ∧ m = .veil ∨ mode = 3 ∧ d < 4096 ∧ openOk s = true ∧ flags = 1 ∧ m = .open) →
          (d < 4096 → exec (.domainCreate sess tag body) s = .next (commitDom d [] [(w, eOk)] (setDom { id := d, mode := m, scratch := flags == 1 } u))) ∧
          (4096 ≤ d → ∀ v, v = setModel { model := d } (setDom { id := d, mode := m, scratch := flags == 1 } u) →
            exec (.domainCreate sess tag body) s = .next (commit [storeFrame v d, modelFrameOf v d] [] [(w, eOk)] v))))) ∧
    (∀ dom rights, w = asker (operMsg 0x0103) sess tag → Asks s (operMsg 0x0103) sess x → body.length = 8 → AtOnce s w body →
      dom = fieldLe body 2 2 → rights = fieldLe body 4 1 →
      (3 < rights ∨ rights = 0 ∨ fieldLe body 5 3 ≠ 0 → exec (.streamPropose sess tag body) s = .next (ref eReserved)) ∧
      (rights = 1 ∨ rights = 2 ∨ rights = 3 → fieldLe body 5 3 = 0 →
        (4096 ≤ dom → exec (.streamPropose sess tag body) s = .next (ref eRange)) ∧
        (dom < 4096 → entryState (streamNow s st) ≠ 0 ∨ domAlive s dom = false → exec (.streamPropose sess tag body) s = .next (ref eState)) ∧
        (dom < 4096 → entryState (streamNow s st) = 0 → domAlive s dom = true → exec (.streamPropose sess tag body) s =
          .next (commit [] [streamOp st (mkEntry dom (rights % 2 == 1) (2 ≤ rights) 1) false dom none] [(w, eOk)] u)))) ∧
    (w = asker (operMsg 0x0104) sess tag → Asks s (operMsg 0x0104) sess x → body.length = 4 →
      (fieldLe body 2 2 ≠ 0 → exec (.streamWithdraw sess tag body) s = .next (ref eReserved)) ∧
      (fieldLe body 2 2 = 0 → entryState (streamNow s st) ≠ 1 → exec (.streamWithdraw sess tag body) s = .next (ref eState)) ∧
      (fieldLe body 2 2 = 0 → entryState (streamNow s st) = 1 → exec (.streamWithdraw sess tag body) s =
        .next (commit [] [streamOp st 0 false (entryDomain (streamNow s st)) none] [(w, eOk)] u))) ∧
    (w = asker (operMsg 0x0105) sess tag → Asks s (operMsg 0x0105) sess x → body.length = 4 →
      (fieldLe body 2 2 ≠ 0 → exec (.operatorStreamUnbind sess tag body) s = .next (ref eReserved)) ∧
      (fieldLe body 2 2 = 0 → entryState (streamNow s st) ≠ 2 → exec (.operatorStreamUnbind sess tag body) s = .next (ref eState)) ∧
      (fieldLe body 2 2 = 0 → entryState (streamNow s st) = 2 → exec (.operatorStreamUnbind sess tag body) s = .next (settle (unbind w st u)))) ∧
    (w = asker (operMsg 0x0102) sess tag → Asks s (operMsg 0x0102) sess x → body.length = 16 → AtOnce s w body →
      (fieldLe body 2 2 ≠ 0 → exec (.operatorDomainTeardown sess tag body) s = .next (settle (ref eReserved))) ∧
      (fieldLe body 2 2 = 0 → 4352 ≤ d → exec (.operatorDomainTeardown sess tag body) s = .next (settle (ref eRange))) ∧
      (fieldLe body 2 2 = 0 → d < 4352 → exec (.operatorDomainTeardown sess tag body) s =
        .next (settle (requestTeardown w d (fieldLe body 8 8) (fieldLe body 4 4) u)))) ∧
    (w = asker (operMsg 0x0106) sess tag → Asks s (operMsg 0x0106) sess x → body.length = 16 → AtOnce s w body →
      (fieldLe body 2 2 ≠ 0 → exec (.regionList sess tag body) s = .next (ref eReserved)) ∧
      (fieldLe body 2 2 = 0 → 4352 ≤ d → exec (.regionList sess tag body) s = .next (ref eRange)) ∧
      (fieldLe body 2 2 = 0 → d < 4352 → domState s d ≠ .sweepWait → exec (.regionList sess tag body) s = .next (ref eState)) ∧
      (fieldLe body 2 2 = 0 → d < 4352 → domState s d = .sweepWait →
        (∀ c, listRefused (fieldLe body 8 8) (fieldLe body 4 4) = some c → exec (.regionList sess tag body) s = .next (ref c)) ∧
        (listRefused (fieldLe body 8 8) (fieldLe body 4 4) = none → exec (.regionList sess tag body) s =
          .next (readRegions (.rekey w d (fieldLe body 8 8) (fieldLe body 4 4)) d (fieldLe body 8 8) (fieldLe body 4 4) u)))) ∧
    (w = asker (operMsg 0x0107) sess tag → Asks s (operMsg 0x0107) sess x → body.length = 32 → AtOnce s w body →
      (fieldLe body 2 2 ≠ 0 ∨ fieldLe body 20 4 ≠ 0 → exec (.ingestStart sess tag body) s = .next (ref eReserved)) ∧
      (fieldLe body 2 2 = 0 → fieldLe body 20 4 = 0 →
        (d < 4096 ∨ 4352 ≤ d → exec (.ingestStart sess tag body) s = .next (ref eRange)) ∧
        (4096 ≤ d → d < 4352 → custody s d ≠ .keyHeld ∨ (s.model d).any ModelRec.jobUsed = true → exec (.ingestStart sess tag body) s = .next (ref eState)) ∧
        (4096 ≤ d → d < 4352 → custody s d = .keyHeld → (s.model d).any ModelRec.jobUsed = false →
          (∀ c, listRefused (fieldLe body 8 8) (fieldLe body 4 4) = some c → exec (.ingestStart sess tag body) s = .next (ref c)) ∧
          (∀ c, listRefused (fieldLe body 8 8) (fieldLe body 4 4) = none → listRefused (fieldLe body 24 8) (fieldLe body 16 4) = some c →
            exec (.ingestStart sess tag body) s = .next (ref c)) ∧
          (listRefused (fieldLe body 8 8) (fieldLe body 4 4) = none → listRefused (fieldLe body 24 8) (fieldLe body 16 4) = none → 256 < fieldLe body 16 4 →
            exec (.ingestStart sess tag body) s = .next (ref eRegion)) ∧
          (listRefused (fieldLe body 8 8) (fieldLe body 4 4) = none → listRefused (fieldLe body 24 8) (fieldLe body 16 4) = none → fieldLe body 16 4 ≤ 256 →
            exec (.ingestStart sess tag body) s = .next (readRegions (.ingestStage w d (fieldLe body 24 8) (fieldLe body 16 4)) d
              (fieldLe body 8 8) (fieldLe body 4 4) u))))) ∧
    (∀ l dst, w = asker (operMsg 0x0108) sess tag → Asks s (operMsg 0x0108) sess x → body.length = 4 → AtOnce s w body → l = fieldLe body 0 1 → dst = fieldLe body 2 2 →
      (fieldLe body 1 1 ≠ 0 → exec (.linkAssign sess tag body) s = .next (ref eReserved)) ∧
      (fieldLe body 1 1 = 0 → 63 < l ∨ (4095 < dst ∧ dst ≠ 0xFFFF) → exec (.linkAssign sess tag body) s = .next (ref eRange)) ∧
      (fieldLe body 1 1 = 0 → l ≤ 63 → dst ≤ 4095 → exec (.linkAssign sess tag body) s =
        .next (reply w eOk { u with ks := { u.ks with links := alSet u.ks.links l dst } })) ∧
      (fieldLe body 1 1 = 0 → l ≤ 63 → dst = 0xFFFF → exec (.linkAssign sess tag body) s =
        .next (reply w eOk { u with ks := { u.ks with links := alDel u.ks.links l } })))

/-- Seeds, confirmations, unbindings and teardowns are refused of any credential but the tenant's, and of a domain or stream in another state; a seed must
unwrap and carry the next generation; the pin messages of the operator follow the register's rule. The order of the checks is the model's choice where
no rule orders them (log 21, log 22). Says where exec answers a next state for: setShares, pinMsg, unpinMsg, domainSeed, streamConfirm,
tenantStreamUnbind, tenantDomainTeardown. (Rests on R116, R120 to R123, R131, R132, R146, R147, R149, R168, R296, R441 to R444, R461.) -/
def Obligations.TenantRequestsNeedTheDomainsTenant : Prop :=
  ∀ (s : State) (sess : Nat) (tag : BitVec 32) (body : Bytes) (x : Session) (w : Waiter) (u : State) (ref : BitVec 8 → State) (d st : Nat),
    u = asked sess s → (∀ c, ref c = refuse w c u) →
    (∀ r : DomRec, w = asker (tenantMsg 0x0020) sess tag → Asks s (tenantMsg 0x0020) sess x → body.length = 48 → AtOnce s w body → d = fieldLe body 0 2 →
      r = (s.dom d).getD { id := d } →
      (fieldLe body 2 2 ≠ 0 → exec (.domainSeed sess tag body) s = .next (settle (ref eReserved))) ∧
      (fieldLe body 2 2 = 0 → 4095 < d → exec (.domainSeed sess tag body) s = .next (settle (ref eRange))) ∧
      (fieldLe body 2 2 = 0 → d ≤ 4095 → r.owner.isSome = true → r.owner ≠ x.cred → exec (.domainSeed sess tag body) s = .next (settle (ref eOwner))) ∧
      (fieldLe body 2 2 = 0 → d ≤ 4095 → r.owner = none ∨ r.owner = x.cred →
        (keyUnwrap (wrapKey x) (slice body 8 40) = none → exec (.domainSeed sess tag body) s = .next (settle (ref eAuth))) ∧
        (∀ seed, keyUnwrap (wrapKey x) (slice body 8 40) = some seed →
          (bytesVec 32 (slice body 4 4) ≠ r.newest + 1 → exec (.domainSeed sess tag body) s = .next (settle (ref eState))) ∧
          (bytesVec 32 (slice body 4 4) = r.newest + 1 →
            (∀ c, seedRefused s d = some c → exec (.domainSeed sess tag body) s = .next (settle (ref c))) ∧
            (seedRefused s d = none → exec (.domainSeed sess tag body) s = .next (settle (acceptSeed w d seed u))))))) ∧
    (∀ rights, w = asker (tenantMsg 0x0021) sess tag → Asks s (tenantMsg 0x0021) sess x → body.length = 8 → AtOnce s w body →
      st = fieldLe body 0 2 → d = fieldLe body 2 2 → rights = fieldLe body 4 1 →
      (3 < rights ∨ fieldLe body 5 3 ≠ 0 → exec (.streamConfirm sess tag body) s = .next (settle (ref eReserved))) ∧
      (rights ≤ 3 → fieldLe body 5 3 = 0 → 4352 ≤ d → exec (.streamConfirm sess tag body) s = .next (settle (ref eRange))) ∧
      (rights ≤ 3 → fieldLe body 5 3 = 0 → d < 4352 → isTenant s w d = false → exec (.streamConfirm sess tag body) s = .next (settle (ref eOwner))) ∧
      (rights ≤ 3 → fieldLe body 5 3 = 0 → d < 4352 → isTenant s w d = true →
        (entryState (streamNow s st) ≠ 1 → exec (.streamConfirm sess tag body) s = .next (settle (ref eState))) ∧
        (∀ r, entryState (streamNow s st) = 1 → s.dom d = some r → r.gens ≠ [] →
          (entryDomain (streamNow s st) ≠ d ∨ entryRead (streamNow s st) ≠ (rights % 2 == 1) ∨ entryWrite (streamNow s st) ≠ decide (2 ≤ rights) →
            exec (.streamConfirm sess tag body) s = .next (settle (ref eMismatch))) ∧
          (entryDomain (streamNow s st) = d → entryRead (streamNow s st) = (rights % 2 == 1) → entryWrite (streamNow s st) = decide (2 ≤ rights) →
            exec (.streamConfirm sess tag body) s = .next (settle (commit [] [streamOp st (mkEntry d (rights % 2 == 1) (2 ≤ rights) 2) false d
              (some w)] [] u)))))) ∧
    (w = asker (tenantMsg 0x0022) sess tag → Asks s (tenantMsg 0x0022) sess x → body.length = 8 → AtOnce s w body →
      st = fieldLe body 0 2 → d = fieldLe body 2 2 →
      (fieldLe body 4 4 ≠ 0 → exec (.tenantStreamUnbind sess tag body) s = .next (settle (ref eReserved))) ∧
      (fieldLe body 4 4 = 0 → 4352 ≤ d → exec (.tenantStreamUnbind sess tag body) s = .next (settle (ref eRange))) ∧
      (fieldLe body 4 4 = 0 → d < 4352 → isTenant s w d = false → exec (.tenantStreamUnbind sess tag body) s = .next (settle (ref eOwner))) ∧
      (fieldLe body 4 4 = 0 → d < 4352 → isTenant s w d = true →
        (entryState (streamNow s st) ≠ 2 ∨ entryDomain (streamNow s st) ≠ d → exec (.tenantStreamUnbind sess tag body) s = .next (settle (ref eState))) ∧
        (entryState (streamNow s st) = 2 → entryDomain (streamNow s st) = d →
          exec (.tenantStreamUnbind sess tag body) s = .next (settle (unbind w st u))))) ∧
    (w = asker (tenantMsg 0x0023) sess tag → Asks s (tenantMsg 0x0023) sess x → body.length = 16 → AtOnce s w body → d = fieldLe body 0 2 →
      (fieldLe body 2 2 ≠ 0 → exec (.tenantDomainTeardown sess tag body) s = .next (settle (ref eReserved))) ∧
      (fieldLe body 2 2 = 0 → 4352 ≤ d → exec (.tenantDomainTeardown sess tag body) s = .next (settle (ref eRange))) ∧
      (fieldLe body 2 2 = 0 → d < 4352 → isTenant s w d = false → exec (.tenantDomainTeardown sess tag body) s = .next (settle (ref eOwner))) ∧
      (fieldLe body 2 2 = 0 → d < 4352 → isTenant s w d = true → exec (.tenantDomainTeardown sess tag body) s =
        .next (settle (requestTeardown w d (fieldLe body 8 8) (fieldLe body 4 4) u)))) ∧
    (∀ g : Nat, w = asker (operMsg 0x010C) sess tag → Asks s (operMsg 0x010C) sess x → body.length = 4 → AtOnce s w body → g = fieldLe body 0 1 → d = fieldLe body 2 2 →
      (fieldLe body 1 1 > 1 → exec (.pinMsg sess tag body) s = .next (ref eReserved)) ∧
      (fieldLe body 1 1 = 1 →
        (39 < g ∨ 4352 ≤ d → exec (.pinMsg sess tag body) s = .next (ref eRange)) ∧
        (g ≤ 39 → d < 4352 →
          ((s.guardN g).cache.pinBusy = true ∨ ((s.guardN g).pinned d = false ∧ 32 ≤ (s.guardN g).cache.pins.length) →
            exec (.pinMsg sess tag body) s = .next (ref eBusy)) ∧
          ((s.guardN g).cache.pinBusy = false → (s.guardN g).pinned d = true ∨ (s.guardN g).cache.pins.length < 32 →
            exec (.pinMsg sess tag body) s = .next (reply w eOk (pinStart g d u))))) ∧
      (fieldLe body 1 1 = 0 →
        (39 < g ∨ 4352 ≤ d → exec (.unpinMsg sess tag body) s = .next (ref eRange)) ∧
        (g ≤ 39 → d < 4352 → (s.guardN g).cache.pinBusy = true → exec (.unpinMsg sess tag body) s = .next (ref eBusy)) ∧
        (g ≤ 39 → d < 4352 → (s.guardN g).cache.pinBusy = false → exec (.unpinMsg sess tag body) s = .next (reply w eOk (pinEnd g d u))))) ∧
    (∀ g share, w = asker (operMsg 0x010B) sess tag → Asks s (operMsg 0x010B) sess x → body.length = 8 → g = fieldLe body 0 1 →
      share = capShares (bytesVec 32 (slice body 4 4)) →
      (fieldLe body 1 3 ≠ 0 → exec (.setShares sess tag body) s = .next (ref eReserved)) ∧
      (fieldLe body 1 3 = 0 → 39 < g → exec (.setShares sess tag body) s = .next (ref eRange)) ∧
      (fieldLe body 1 3 = 0 → g ≤ 39 → exec (.setShares sess tag body) s =
        .next (reply w eOk (u.modGuard g (fun y => { y with page := { y.page with share := share, shareEff := scaleShares y.page.powerPct share } })))))

/-- A region list that has been read whole is checked; a list that breaks a rule is refused with its code, one that names a held tier-2 guard with
E_STATE, and a good one goes on to the work that named it. A descriptor joins its guard's queue, or ends at once in a fenced guard; a line of a rekey
sweep is read, kept where it is current, re-sealed under the newest generation where it is in the older, and otherwise counted as failed; a domain
sweep writes zeros sealed under the one-time key, which the last descriptor wipes; an abort ends each descriptor of the domain. A command whose event
cannot happen, and a write that another row owns, change nothing: the model's choice (log 3). Says where exec answers a next state for:
regionListRead, sweepCmd, sweepLine, domainSweepLine, sweepAbort. (Rests on R118, R163, R168, R174, R175, R212, R247, R248, R441, R561, R616, R126,
R164 to R170, R176, R177, R187, R192.) -/
def Obligations.RegionListsAreCheckedAndSweepsVisitEachLine : Prop :=
  (∀ (s : State) (r : RegionRead), s.ports.rstCold = false → s.ks.reads.find? (fun r => dmaWhole s r.work) = some r →
    (∀ c, checkRegions (dmaBytes s r.work) = .error c → exec .regionListRead s = .next (refuseRegionRead r c s)) ∧
    (∀ rs, checkRegions (dmaBytes s r.work) = .ok rs →
      (namesWaiting s rs = true → r.purpose.waiter.isSome = true → exec .regionListRead s = .next (refuseRegionRead r eState s)) ∧
      (namesWaiting s rs = false ∨ r.purpose.waiter = none → exec .regionListRead s = .next (endRegionRead r (listRead r.purpose rs) s)))) ∧
((∀ (s : State) (die : Fin 4) (m : RingMsg) (u : State) ds d f c id desc, Arrives s die m → u = taken die m s → m.body = .sweepCmd ds d f c id →
    desc = ({ sweepId := id, domain := d, first := f, count := c, visited := 0, failed := 0 } : Desc) →
    ((u.guardN m.dest).inReset = true → exec (.sweepCmd die) s = .next u) ∧
    ((u.guardN m.dest).inReset = false → (u.guardN m.dest).fenced = true → exec (.sweepCmd die) s = .next (guardSend m.dest (sweepDoneMsg desc true) u)) ∧
    ((u.guardN m.dest).inReset = false → (u.guardN m.dest).fenced = false → exec (.sweepCmd die) s = .next (u.modGuard m.dest (fun x => { x with
      sweep := if ds then { x.sweep with dom := x.sweep.dom ++ [desc] } else { x.sweep with rekey := x.sweep.rekey ++ [desc] } })))) ∧
  (∀ (s : State) (die : Fin 4) (m : RingMsg) (u : State) d, Arrives s die m → u = taken die m s → m.body = .sweepAbort d →
    exec (.sweepAbort die) s = .next (forEach (liveGuards die u) (fun g t =>
      forEach ((t.guardN g).sweep.rekey.filter (fun x => x.domain == d)) (fun x v => guardSend g (sweepDoneMsg x true) v)
        (t.modGuard g (fun x => { x with sweep := { x.sweep with rekey := x.sweep.rekey.filter (fun y => y.domain != d) } }))) u)) ∧
  (∀ (s : State) (g : Fin 40) (x : Guard) rdErr data side wrErr d ds a, s.ports.rstCold = false → x = s.guards.get g → x.sweep.rekey = d :: ds →
    a = d.first + d.visited →
    (x.canSweep = false ∨ x.mayDraw 0 = false ∨ x.lineHeld a = true → exec (.sweepLine g rdErr data side wrErr) s = .next s) ∧
    (x.canSweep = true → x.mayDraw 0 = true → x.lineHeld a = false →
      (x.newest d.domain = none → exec (.sweepLine g rdErr data side wrErr) s = .next (slotFor g d.domain false false s)) ∧
      (∀ l, x.newest d.domain = some l → l.entry.bindOk d.domain = true →
        (rdErr = true → exec (.sweepLine g rdErr data side wrErr) s = .next (rekeyVisited g true (driveBeat g false a 0 0 s))) ∧
        (rdErr = false → sideMode side ≠ l.entry.mode.code →
          exec (.sweepLine g rdErr data side wrErr) s = .next (rekeyVisited g true (driveBeat g false a 0 0 s))) ∧
        (rdErr = false → sideMode side = l.entry.mode.code → sideGen side = l.entry.genBit → x.olderBit d.domain ≠ some (sideGen side) →
          exec (.sweepLine g rdErr data side wrErr) s = .next (rekeyVisited g false (driveBeat g false a 0 0 s))) ∧
        (rdErr = false → sideMode side = l.entry.mode.code → sideGen side ≠ l.entry.genBit → l.entry.mode = .open →
          x.olderBit d.domain = some (sideGen side) → exec (.sweepLine g rdErr data side wrErr) s = .next (rekeyVisited g false
            (driveBeat g true a data (sidecar l.entry a (vecBytes 64 data) side) (driveBeat g false a 0 0 s)))) ∧
        (∀ o c, rdErr = false → sideMode side = l.entry.mode.code → sideGen side ≠ l.entry.genBit → l.entry.mode ≠ .open →
          x.olderBit d.domain = some (sideGen side) → x.lineBit d.domain (sideGen side) = some o → o.entry.bindOk d.domain = true →
          (tagOk o.entry a data side = false → exec (.sweepLine g rdErr data side wrErr) s = .next (rekeyVisited g true (driveBeat g false a 0 0 s))) ∧
          (tagOk o.entry a data side = true → c = sealLine l.entry a (decryptLine o.entry a data) side →
            exec (.sweepLine g rdErr data side wrErr) s = .next (rekeyVisited g wrErr (driveBeat g true a c.1 c.2 (driveBeat g false a 0 0 s)))))))) ∧
  (∀ (s : State) (g : Fin 40) (x : Guard) wrErr d ds k a c d', s.ports.rstCold = false → x = s.guards.get g → x.sweep.dom = d :: ds → x.sweep.key = some k →
    a = d.first + d.visited → c = sealLine k a 0 0 →
    d' = { d with visited := d.visited + 1, failed := if wrErr then satInc d.failed else d.failed } →
    (x.canSweep = false ∨ x.mayDraw 1 = false ∨ x.lineHeld a = true → exec (.domainSweepLine g wrErr) s = .next s) ∧
    (x.canSweep = true → x.mayDraw 1 = true → x.lineHeld a = false →
      (d'.visited < d.count → exec (.domainSweepLine g wrErr) s = .next ((driveBeat g true a c.1 c.2 s).modGuard g (fun y => { y with
        sweep := { y.sweep with dom := d' :: ds, lines := y.sweep.lines + 1, fails := if wrErr then satInc y.sweep.fails else y.sweep.fails } }))) ∧
      (d.count ≤ d'.visited → exec (.domainSweepLine g wrErr) s = .next (guardSend g (sweepDoneMsg d' false)
        ((driveBeat g true a c.1 c.2 s).modGuard g (fun y => { y with
          sweep := { y.sweep with dom := ds, lines := y.sweep.lines + 1, fails := if wrErr then satInc y.sweep.fails else y.sweep.fails,
                                  key := if ds = [] then none else y.sweep.key } })))))))

/-- What each SPDM request is answered, outside a session or in one, as DSP0274 lays it out (log 10): GET_VERSION begins a transcript, which the requests
before authentication extend; parts of large requests and responses; a session's heartbeat, key update and end; other codes and other vendors are
answered UnsupportedRequest; a request in the wrong place or of another version is refused. Says where exec answers a next state for: getVersion,
getCapabilities, negotiateAlgorithms, getDigests, getCertificate, challenge, getMeasurements, chunkSend, chunkGet, spdmHeartbeat, keyUpdate,
endSession, unsupportedRequest. (Rests on R423 to R425, R434 to R437, R439, R440.) -/
def Obligations.SpdmRequestsAreAnsweredInTheirPlace : Prop :=
  ∀ (s : State) (op : Bool) (sess : Option Nat) (req : Bytes) (say : SpdmRsp → State → State) (kept : (Bytes → Conn → Conn) → SpdmRsp → State → State)
    (u : Nat → State),
    (∀ r v, say r v = sendOut op sess (.spdm r) v) →
    (∀ f r v, kept f r v = say r (modConn op sess (f (req ++ spdmBytes r)) v)) →
    (∀ code, u code = spdmHeard code op sess s) →
    (sess = none → s.ports.rstCold = false → attUp s = true → reqByte req 1 = 0x84 →
      exec (.getVersion op sess req) s = .next (kept Conn.keepVca .version (modConn op none (fun c =>
        { peer := c.peer, peerTag := c.peerTag, ackDue := c.ackDue, outHandle := c.outHandle }) (u 0x84)))) ∧
    (sess = none → Heard s 0xE1 op sess req → exec (.getCapabilities op sess req) s =
      .next (kept Conn.keepVca (.capabilities capBytes) (modConn op sess (fun c => { c with xfer := transferSize req }) (u 0xE1)))) ∧
    (sess = none → Heard s 0xE3 op sess req →
      (offersAll req = true → exec (.negotiateAlgorithms op sess req) s = .next (kept Conn.keepVca .algorithms (u 0xE3))) ∧
      (offersAll req = false → exec (.negotiateAlgorithms op sess req) s = .next (say (.error 0x01) (u 0xE3)))) ∧
    (Heard s 0x81 op sess req → exec (.getDigests op sess req) s = .next (kept Conn.keepCerts (.digests (sha384 (certChain (u 0x81)))) (u 0x81))) ∧
    (∀ o chain part, Heard s 0x82 op sess req → o = fieldLe req 4 2 → chain = certChain (u 0x82) →
      part = (chain.drop o).take (Nat.min (fieldLe req 6 2) ((connOf (u 0x82) op sess).xfer - 8)) →
      (reqByte req 2 % 16 ≠ 0 ∨ chain.length ≤ o → exec (.getCertificate op sess req) s = .next (say (.error 0x01) (u 0x82))) ∧
      (reqByte req 2 % 16 = 0 → o < chain.length → exec (.getCertificate op sess req) s =
        .next (kept Conn.keepCerts (.certificate part (chain.length - o - part.length)) (u 0x82)))) ∧
    (∀ n c whole all, Heard s 0x85 op sess req → n = fieldLe req 4 2 → c = connOf (u 0x85) op sess →
      whole = (if n = 0 then fieldLe req 12 4 else c.inSize) → all = (if n = 0 then [] else c.chunkIn) ++ req.drop (if n = 0 then 16 else 12) →
      (∀ code, chunkRefused c req whole all = some code → exec (.chunkSend op sess req) s =
        .next (say (.chunkSendError (req.getD 3 0) n code) (modConn op sess (fun c => { c with chunkIn := [], inSeq := 0 }) (u 0x85)))) ∧
      (chunkRefused c req whole all = none → bitAt (req.getD 2 0) 0 = false → exec (.chunkSend op sess req) s = .next (say (.chunkSendAck (req.getD 3 0) n)
        (modConn op sess (fun c => { c with chunkIn := all, inHandle := req.getD 3 0, inSeq := n + 1, inSize := whole }) (u 0x85)))) ∧
      (chunkRefused c req whole all = none → bitAt (req.getD 2 0) 0 = true → exec (.chunkSend op sess req) s =
        .next (modBox op (fun m => { m with arrived := m.arrived ++ [{ sess := sess, req := all, large := true }] })
          (modConn op sess (fun c => { c with chunkIn := [], inHandle := req.getD 3 0, inSeq := n }) (u 0x85))))) ∧
    (∀ c n, Heard s 0x86 op sess req → c = connOf (u 0x86) op sess → n = c.xfer - (if c.outSeq = 0 then 16 else 12) →
      (c.chunkOut = [] ∨ req.getD 3 0 ≠ c.outHandle ∨ fieldLe req 4 2 ≠ c.outSeq →
        exec (.chunkGet op sess req) s = .next (say (.error 0x01) (u 0x86))) ∧
      (c.chunkOut ≠ [] → req.getD 3 0 = c.outHandle → fieldLe req 4 2 = c.outSeq → exec (.chunkGet op sess req) s =
        .next (say (.chunkResponse c.outHandle c.outSeq c.outSize (c.chunkOut.take n) (c.chunkOut.drop n).length)
          (modConn op sess (fun d => { d with chunkOut := c.chunkOut.drop n, outSeq := d.outSeq + 1 }) (u 0x86))))) ∧
    (∀ id, sess = some id →
      (Heard s 0xE8 op sess req → exec (.spdmHeartbeat id req) s = .next (say .heartbeatAck (u 0xE8))) ∧
      (Heard s 0xE9 op sess req →
        (reqByte req 2 = 0 ∨ 3 < reqByte req 2 → exec (.keyUpdate id req) s = .next (say (.error 0x01) (u 0xE9))) ∧
        (∀ o, o = reqByte req 2 → 1 ≤ o → o ≤ 3 → exec (.keyUpdate id req) s =
          .next (say (.keyUpdateAck (req.getD 2 0) (req.getD 3 0)) (modSess id (fun x =>
            if o = 1 then { x with reqSecret := updatedSecret x.reqSecret, reqSeq := 0 }
            else if o = 2 then { x with reqSecret := updatedSecret x.reqSecret, reqSeq := 0, rspSecret := updatedSecret x.rspSecret, rspSeq := 0 }
            else x) (u 0xE9))))) ∧
      (Heard s 0xEC op sess req → exec (.endSession id req) s = .next (endSess id (say .endSessionAck (u 0xEC))))) ∧
    (∀ code, Heard s code op sess req → knownCode code = false → code ≠ 0xFE →
      exec (.unsupportedRequest op sess req) s = .next (say (.error 0x07) (u code))) ∧
    (Heard s 0xFE op sess req →
      (vendorMine req = false → exec (.unsupportedRequest op sess req) s = .next (say (.error 0x07) (u 0xFE))) ∧
      (vendorMine req = true → vendorPayload req = none → exec (.unsupportedRequest op sess req) s = .next (say (.error 0x01) (u 0xFE))) ∧
      (∀ p msg, vendorMine req = true → vendorPayload req = some p → msg = fieldLe p 0 2 →
        knownMsg msg = false ∨ (msg = 1 ∨ msg = 2) ∧ sess.isSome = true ∨ msg ≠ 1 ∧ msg ≠ 2 ∧ sess = none ∨ fieldLe p 2 2 ≠ 0 →
        exec (.unsupportedRequest op sess req) s =
          .next (sendOut op sess (.vendor (BitVec.ofNat 16 msg) eReserved (bytesVec 32 (slice p 4 4)) []) (u 0xFE)))) ∧
    (∀ c ∈ [(0xE1, Instr.getCapabilities op none req), (0xE3, .negotiateAlgorithms op none req), (0x81, .getDigests op none req),
        (0x82, .getCertificate op none req), (0x83, .challenge op none req), (0xE0, .getMeasurements op none req), (0x85, .chunkSend op none req),
        (0x86, .chunkGet op none req)],
      s.ports.rstCold = false → attUp s = true → reqByte req 1 = c.1 → reqByte req 0 ≠ 0x13 →
        exec c.2 s = .next (sendOut op none (.spdm (.error 0x41)) s)) ∧
    (∀ id x, ∀ c ∈ [(0x84, Instr.getVersion op (some id) req), (0xE1, .getCapabilities op (some id) req), (0xE3, .negotiateAlgorithms op (some id) req),
        (0x83, .challenge op (some id) req)],
      s.ports.rstCold = false → attUp s = true → s.sess id = some x → x.operator = op → x.busy = false → reqByte req 1 = c.1 → reqByte req 0 = 0x13 →
        exec c.2 s = .next (sendOut op (some id) (.spdm (.error 0x04)) (hear id s)))

/-- CHALLENGE and a signed GET_MEASUREMENTS carry a fresh nonce of 32 bytes and a signature of slot 2 over the transcript, whose part then ends; where a
draw or the signature fails the answer is an error, and so is a wrong slot or measurement index; an unsigned answer extends the transcript; while a
draw must wait the answer is Busy. Says where exec answers a next state for: challenge, getMeasurements. (Rests on R424, R426.) -/
def Obligations.SignedSpdmAnswersNeedADrawAndAKey : Prop :=
  ∀ (s : State) (op : Bool) (sess : Option Nat) (req : Bytes) (say : SpdmRsp → State → State) (kind : Nat),
    (∀ r v, say r v = sendOut op sess (.spdm r) v) → kind = reqByte req 3 →
    (∀ u, sess = none → Heard s 0x83 op sess req → u = spdmHeard 0x83 op sess s →
      (reqByte req 2 ≠ 0 ∨ (kind ≠ 0 ∧ kind ≠ 1 ∧ kind ≠ 0xFF) → exec (.challenge op sess req) s = .next (say (.error 0x01) u)) ∧
      (reqByte req 2 = 0 → kind = 0 ∨ kind = 1 ∨ kind = 0xFF →
        (drawNow u = false → exec (.challenge op sess req) s = .next (say (.error 0x03) u)) ∧
        (∀ t, drawNow u = true → drawBytes 32 u = (none, t) → exec (.challenge op sess req) s = .next (say (.error 0x05) t)) ∧
        (∀ nonce t v chain sum ctx, drawNow u = true → drawBytes 32 u = (some nonce, t) → chain = sha384 (certChain t) → sum = measurementSummary t kind →
          ctx = slice req 36 8 → aliasEcSign (spdmSigned "responder-challenge_auth signing"
            ((connOf t op sess).vca ++ (connOf t op sess).certs ++ req ++ challengeBytes chain nonce sum ctx)) t = v →
          (v.1 = none → exec (.challenge op sess req) s = .next (say (.error 0x05) v.2)) ∧
          (∀ sig, v.1 = some sig → exec (.challenge op sess req) s =
            .next (say (.challengeAuth chain nonce sum ctx sig) (modConn op sess (fun c => { c with certs := [] }) v.2)))))) ∧
    (∀ u blocks total signed ctx, Heard s 0xE0 op sess req → u = spdmHeard 0xE0 op sess s → signed = bitAt (req.getD 2 0) 0 → ctx = slice req (if signed then 37 else 4) 8 →
      total = (if kind = 0 then 6 else 0) →
      (kind = 0 ∧ blocks = [] ∨ kind = 0xFF ∧ blocks = [1, 2, 3, 4, 5, 6].filterMap (fun j => (measurement u j).map (fun b => (j, b))) ∨
        (1 ≤ kind ∧ kind ≤ 6 ∧ ∃ b, measurement u kind = some b ∧ blocks = [(kind, b)])) →
      (signed = true → reqByte req 36 % 16 ≠ 0 → exec (.getMeasurements op sess req) s = .next (say (.error 0x01) u)) ∧
      (signed = false ∨ reqByte req 36 % 16 = 0 →
        (drawNow u = false → exec (.getMeasurements op sess req) s = .next (say (.error 0x03) u)) ∧
        (∀ t, drawNow u = true → drawBytes 32 u = (none, t) → exec (.getMeasurements op sess req) s = .next (say (.error 0x05) t)) ∧
        (∀ nonce t, drawNow u = true → drawBytes 32 u = (some nonce, t) →
          (∀ r, signed = false → r = .measurements total blocks nonce ctx [] → exec (.getMeasurements op sess req) s = .next (say r
            (modConn op sess (fun c => { c with meas := c.meas ++ (req ++ spdmBytes r) }) t))) ∧
          (∀ v, signed = true → aliasEcSign (spdmSigned "responder-measurements signing"
              ((connOf t op none).vca ++ (connOf t op sess).meas ++ req ++ measurementsBytes total blocks nonce ctx)) t = v →
            (v.1 = none → exec (.getMeasurements op sess req) s = .next (say (.error 0x05) v.2)) ∧
            (∀ sig, v.1 = some sig → exec (.getMeasurements op sess req) s = .next (say (.measurements total blocks nonce ctx sig)
              (modConn op sess (fun c => { c with meas := [] }) v.2))))))) ∧
    (Heard s 0xE0 op sess req → 6 < kind → kind ≠ 0xFF → exec (.getMeasurements op sess req) s = .next (say (.error 0x01) (spdmHeard 0xE0 op sess s)))

/-- KEX_KEYS answers the two boot keys with their statements; HYB_KEX opens one session while its mailbox has room, and HYB_FINISH opens it for messages
or ends it; a session ends 1 s without HYB_FINISH, or idle for 120 s. A command whose event cannot happen, and a write that another row owns, change
nothing: the model's choice (log 3). Says where exec answers a next state for: kexKeys, hybKex, hybFinish, hybFinishTimeout, sessionIdleTimeout.
(Rests on R427 to R433, R435, R437 to R440, R464.) -/
def Obligations.SessionsOpenByTheHybridExchange : Prop :=
  (∀ (s : State) (op : Bool) (tag : BitVec 32) (body : Bytes), s.ports.rstCold = false → attUp s = true →
    (body ≠ [] → exec (.kexKeys op tag body) s = .next (outVendor op 0x0001 eRange tag [] s)) ∧
    ((kexSetup s).att.kexStmts = [] → exec (.kexKeys op tag []) s = .next (outVendor op 0x0001 eBusy tag [] (kexSetup s))) ∧
    ((kexSetup s).att.kexStmts ≠ [] → exec (.kexKeys op tag []) s = .next (outVendor op 0x0001 eOk tag
      ((kexSetup s).att.kemPub ++ (kexSetup s).att.dhPub ++ (kexSetup s).att.kexStmts.flatten) (kexSetup s)))) ∧
  (∀ (s : State) (op : Bool) (tag : BitVec 32) (body : Bytes), s.ports.rstCold = false → attUp s = true →
    (body.length ≠ 1704 → exec (.hybKex op tag body) s = .next (outVendor op 0x0002 eRange tag [] s)) ∧
    (body.length = 1704 → fieldLe body 2 2 ≠ 0 ∨ fieldLe body 1701 3 ≠ 0 → exec (.hybKex op tag body) s = .next (outVendor op 0x0002 eReserved tag [] s)) ∧
    (body.length = 1704 → fieldLe body 2 2 = 0 → fieldLe body 1701 3 = 0 →
      ((if op then 4 else 512) ≤ (s.att.sessions.filter (fun x => x.operator == op)).length → exec (.hybKex op tag body) s =
        .next (sendOut op none (.spdm (.error 0x0A)) { s with att := { s.att with refused := satInc s.att.refused } })) ∧
      ((s.att.sessions.filter (fun x => x.operator == op)).length < (if op then 4 else 512) →
        ((pointRefused p384 48 (slice body 36 97)).isSome = true → exec (.hybKex op tag body) s = .next (sendOut op none (.spdm (.error 0x01)) s)) ∧
        (pointRefused p384 48 (slice body 36 97) = none → drawNow s = false → exec (.hybKex op tag body) s = .next (sendOut op none (.spdm (.error 0x03)) s)) ∧
        (pointRefused p384 48 (slice body 36 97) = none → drawNow s = true → ∀ t,
          (kexExchange op tag body (kexSetup s) = (none, t) → exec (.hybKex op tag body) s = .next (sendOut op none (.spdm (.error 0x05)) t)) ∧
          (∀ x rsp, kexExchange op tag body (kexSetup s) = (some (x, rsp), t) → exec (.hybKex op tag body) s = .next (outVendor op 0x0002 eOk tag rsp
            { t with att := { t.att with sessions := t.att.sessions ++ [x], nextSess := (x.id / 2 ^ 16 + 1) % 65536 } })))))) ∧
  (∀ (s : State) (sess : Nat) (tag : BitVec 32) (body : Bytes) (x : Session) (w : Waiter) (told own th2 : Bytes) (u : State), s.ports.rstCold = false →
    s.sess sess = some x → w = { sess := sess, msg := 0x0003, tag := tag } → u = hear sess s → told = finishTranscript x.th1 tag body →
    own = verifyData x.secret x.th1 told true → th2 = sha384 (told ++ own) →
    (x.busy = true → exec (.hybFinish sess tag body) s = .next (sayBusy x.operator sess u)) ∧
    (x.busy = false → x.finished = true → exec (.hybFinish sess tag body) s = .next (refuse w eReserved u)) ∧
    (x.busy = false → x.finished = false → body.length ≠ 48 → exec (.hybFinish sess tag body) s = .next (endSess sess (refuse w eRange (countAuthFail u)))) ∧
    (x.busy = false → x.finished = false → body.length = 48 → body ≠ verifyData x.secret x.th1 (x.th1 ++ finishHeader tag) false →
      exec (.hybFinish sess tag body) s = .next (endSess sess (refuse w eAuth (countAuthFail u)))) ∧
    (x.busy = false → x.finished = false → body.length = 48 → body = verifyData x.secret x.th1 (x.th1 ++ finishHeader tag) false →
      exec (.hybFinish sess tag body) s = .next (modSess sess (fun y => { y with
        finished := true, th2 := th2, ems := exportSecret y.secret th2, reqSecret := dataDir y.secret th2 false
        rspSecret := dataDir y.secret th2 true, reqSeq := 0, rspSeq := 0 }) (reply { w with body := own } eOk u)))) ∧
  (∀ (s : State) (sess : Nat), s.ports.rstCold = false →
    (∀ x, s.sess sess = some x → x.finished = false → exec (.hybFinishTimeout sess) s =
      .next { s with timer := max (x.openedAt + 1000000) s.timer, att := { s.att with sessions := s.att.sessions.filter (fun x => x.id != sess) } }) ∧
    (∀ x, s.sess sess = some x → x.finished = true → exec (.hybFinishTimeout sess) s = .next s) ∧
    (∀ x, s.sess sess = some x → exec (.sessionIdleTimeout sess) s =
      .next { s with timer := max (x.heard + 120000000) s.timer, att := { s.att with sessions := s.att.sessions.filter (fun x => x.id != sess) } }))

/-- A credential is proven by a signature over the session's transcript hash, which an operator's must be one of the burned ones; a poll hands over up to
eight events; a permitted quote request joins the open batch, which closes 2 ms after it opened. A command whose event cannot happen, and a write that
another row owns, change nothing: the model's choice (log 3). Says where exec answers a next state for: quoteBlock, credProve, quote, quoteBatchClose,
eventPoll. (Rests on R421, R433, R434, R440, R441, R446, R447, R453, R455 to R458, R461, R464, R517.) -/
def Obligations.CredentialsEventsAndQuotesOfASession : Prop :=
  ∀ (s : State) (sess : Nat) (tag : BitVec 32) (body : Bytes) (x : Session) (w : Waiter) (u : State), u = asked sess s →
    (∀ r pub, r = ({ msg := 0x0004, operator := true, cred := false } : MsgRule) → w = asker r sess tag → Asks s r sess x → body.length = 7443 →
      pub = body.take 2720 →
      (x.cred.isSome = true → exec (.credProve sess tag body) s = .next (refuse w eState u)) ∧
      (x.cred = none → hybVerify pub (ascii "KFL-CRED" ++ leBytes 4 x.id ++ x.th2) (body.drop 2720) = false →
        exec (.credProve sess tag body) s = .next (refuse w eAuth (countAuthFail u))) ∧
      (x.cred = none → hybVerify pub (ascii "KFL-CRED" ++ leBytes 4 x.id ++ x.th2) (body.drop 2720) = true →
        (x.operator = true → credDigest pub ∉ operatorDigests s → exec (.credProve sess tag body) s = .next (endSess sess (countAuthFail u))) ∧
        (x.operator = false ∨ credDigest pub ∈ operatorDigests s → exec (.credProve sess tag body) s =
          .next (reply w eOk (modSess sess (fun y => { y with cred := some (credDigest pub), credPub := pub }) u))))) ∧
    (∀ r, r = ({ msg := 0x0040, operator := true } : MsgRule) → w = asker r sess tag → Asks s r sess x → body = [] →
      exec (.eventPoll sess tag body) s = .next (reply { w with
          body := leBytes 1 (Nat.min 8 x.events.length) ++ leBytes 1 (bitNat 0 (8 < x.events.length) + bitNat 1 x.overflow) ++ zeros 6 ++
            ((x.events.take 8).map Event.bytes).flatten } eOk
        (modSess sess (fun y => { y with events := y.events.drop 8, overflow := false }) u))) ∧
    (∀ r d kind, r = ({ msg := 0x0010, operator := true, cred := x.operator } : MsgRule) → w = asker r sess tag → Asks s r sess x → body.length = 40 →
      AtOnce s w body → d = fieldLe body 2 2 → kind = fieldLe body 0 1 →
      (1 < kind ∨ fieldLe body 1 1 ≠ 0 ∨ fieldLe body 4 4 ≠ 0 ∨ (kind = 0 ∧ d ≠ 0) → exec (.quote sess tag body) s = .next (refuse w eReserved u)) ∧
      (kind ≤ 1 → fieldLe body 1 1 = 0 → fieldLe body 4 4 = 0 → (kind = 0 → d = 0) →
        (4351 < d → exec (.quote sess tag body) s = .next (refuse w eRange u)) ∧
        (d ≤ 4351 → quotePermitted u x kind d = false → exec (.quote sess tag body) s = .next (refuse w eOwner u)) ∧
        (d ≤ 4351 → quotePermitted u x kind d = true → exec (.quote sess tag body) s =
          .next (joinBatch { sess := sess, tag := tag, msg := 0x0010, kind := kind, domain := d, nonce := slice body 8 32 } u)))) ∧
    (w = asker (operMsg 0x010D) sess tag → Asks s (operMsg 0x010D) sess x → body.length = 40 →
      (fieldLe body 0 1 ≠ 0 → exec (.quoteBlock sess tag body) s = .next (refuse w eReserved u)) ∧
      (fieldLe body 0 1 = 0 → fieldLe body 1 1 = 0 → fieldLe body 4 4 = 0 → fieldLe body 2 2 = 0 → exec (.quoteBlock sess tag body) s =
        .next (joinBatch { sess := sess, tag := tag, msg := 0x010D, kind := 0, domain := 0, nonce := slice body 8 32 } u))) ∧
    (s.ports.rstCold = false → s.att.batch = none → exec .quoteBatchClose s = .next s) ∧
    (∀ reqs wait b v t, s.ports.rstCold = false → s.att.batch = some reqs → t = reachTime (s.att.batchAt + 2000) s → wait = (s.mir.session && !s.mir.site && s.mir.ready) →
      b = { seq := s.att.quoteSeq + 1, reqs := reqs, bodies := reqs.map (quoteBody t),
            header := batchHeader t (s.att.quoteSeq + 1) (reqs.map (quoteBody t)), mirrored := !wait } →
      v = { t with att := { t.att with batch := none, quoteSeq := s.att.quoteSeq + 1, closed := s.att.closed ++ [b] } } →
      (s.mir.session = false ∨ s.mir.site = true → exec .quoteBatchClose s = .next (pumpQuotes v)) ∧
      (s.mir.session = true → s.mir.site = false → exec .quoteBatchClose s = .next (pumpQuotes
        (mirSend { frame := { body := .counters s.att.bootCount (s.att.quoteSeq + 1) }, batchSeq := if wait then some (s.att.quoteSeq + 1) else none } v))))

/-- A link report decides whether the link is qualified; a LINK_KEY of the tenant the link serves joins the pushes; each acknowledgement brings the next
direction or the answer, and an error or no answer within 1 ms refuses the request and ends it. A command whose event cannot happen, and a write that
another row owns, change nothing: the model's choice (log 3). Says where exec answers a next state for: linkKey, lkAck, lkAckTimeout, linkReport.
(Rests on R15, R436, R437, R448 to R450, R557, R558, R652 to R654.) -/
def Obligations.LinkKeysArePushedOneAtATime : Prop :=
  (∀ (s u : State) (l : Fin 64) (bits : Nat) (w0 w1 w2 errors : BitVec 32), s.ports.rstCold = false → l.val = w0.toNat % 64 →
    bits = w1.toNat + w2.toNat % 2 ^ 16 * 2 ^ 32 → u = (if bitAt w0 8 then unqualify l s else s) →
    (s.tamper.latch = true → exec (.linkReport w0 w1 w2 errors) s = .next s) ∧
    (s.tamper.latch = false → exec (.linkReport w0 w1 w2 errors) s = .next { u with brup := { u.brup with
      links := u.brup.links.set l { qualified := 3 * 10 ^ 12 ≤ bits && errors.toNat * 10 ^ 12 ≤ bits, bits := bits, errors := errors.toNat } } })) ∧
  (∀ (s : State) (sess : Nat) (tag : BitVec 32) (body : Bytes) (x : Session) (w : Waiter) (u : State) (link kslot mask d : Nat), u = asked sess s →
    w = asker (tenantMsg 0x0024) sess tag → Asks s (tenantMsg 0x0024) sess x → body.length = 52 → AtOnce s w body →
    link = fieldLe body 0 1 → kslot = fieldLe body 1 1 → mask = fieldLe body 2 1 → d = fieldLe body 4 2 →
    (3 < mask ∨ fieldLe body 3 1 ≠ 0 ∨ fieldLe body 6 2 ≠ 0 → exec (.linkKey sess tag body) s = .next (refuse w eReserved u)) ∧
    (mask ≤ 3 → fieldLe body 3 1 = 0 → fieldLe body 6 2 = 0 →
      (63 < link ∨ 3 < kslot ∨ mask = 0 ∨ 4352 ≤ d → exec (.linkKey sess tag body) s = .next (refuse w eRange u)) ∧
      (link ≤ 63 → kslot ≤ 3 → mask ≠ 0 → d < 4352 →
        (isTenant s w d = false ∨ (link, d) ∉ s.ks.links → exec (.linkKey sess tag body) s = .next (refuse w eOwner u)) ∧
        (isTenant s w d = true → (link, d) ∈ s.ks.links →
          ((s.brup.links.toList.getD link {}).qualified = false → exec (.linkKey sess tag body) s = .next (refuse w eState u)) ∧
          ((s.brup.links.toList.getD link {}).qualified = true →
            (keyUnwrap (wrapKey x) (slice body 12 40) = none → exec (.linkKey sess tag body) s = .next (refuse w eAuth u)) ∧
            (∀ seed dirs, keyUnwrap (wrapKey x) (slice body 12 40) = some seed →
              (mask = 1 ∧ dirs = [0] ∨ mask = 2 ∧ dirs = [1] ∨ mask = 3 ∧ dirs = [0, 1]) → exec (.linkKey sess tag body) s =
                .next (pumpLinks { u with ports := { u.ports with lk := u.ports.lk ++ [{
                  waiter := w, link := link, kslot := kslot, dirs := dirs, seed := seed, epoch := bytesVec 32 (slice body 8 4) }] } }))))))) ∧
  (∀ (s : State) (v : BitVec 32) (vs : List (BitVec 32)) (m : LkMsg) (ms : List LkMsg) (gone late : State), s.ports.rstCold = false → s.ports.lkWords = v :: vs →
    s.ports.lk = m :: ms → gone = pumpLinks { s with ports := { s.ports with lk := ms, lkWords := [] } } →
    late = pumpLinks { reachTime (s.ports.lkAt + 1000) s with ports := { s.ports with lk := ms, lkWords := [] } } →
    exec (.lkAck true) s = .next (refuse m.waiter eBusy gone) ∧ exec .lkAckTimeout s = .next (refuse m.waiter eBusy late) ∧
    (m.dirs.length ≤ 1 → exec (.lkAck false) s = .next (reply m.waiter eOk gone)) ∧
    (1 < m.dirs.length → exec (.lkAck false) s = .next (pumpLinks { s with ports := { s.ports with lk := { m with dirs := m.dirs.drop 1 } :: ms, lkWords := [] } })))

/-- A bundle key is taken for a model domain that awaits one and a staging domain of the releasing session, and lapses with no job; a grant must be whole,
resident, newer than the last, of the model's root and signed by its owner; an add and a removal change the reader set, a revocation tears the model
domain down. A command whose event cannot happen, and a write that another row owns, change nothing: the model's choice (log 3). Says where exec
answers a next state for: bundleKey, readerGrantAdd, readerGrantRemove, readerGrantRevoke, bundleKeyLapse. (Rests on R148 to R152, R197 to R199, R207
to R211, R213, R224 to R230, R438, R451, R452.) -/
def Obligations.BundleKeysAndGrantsNeedTheirOwner : Prop :=
  (∀ (s : State) (sess : Nat) (tag : BitVec 32) (body : Bytes) (x : Session) (w : Waiter) (u : State) (m st : Nat), u = asked sess s →
    w = asker (tenantMsg 0x0050) sess tag → Asks s (tenantMsg 0x0050) sess x → body.length = 80 → AtOnce s w body →
    m = fieldLe body 0 2 → st = fieldLe body 2 2 →
    (fieldLe body 4 4 ≠ 0 → exec (.bundleKey sess tag body) s = .next (refuse w eReserved u)) ∧
    (fieldLe body 4 4 = 0 → m < 4096 ∨ 4352 ≤ m ∨ 4352 ≤ st → exec (.bundleKey sess tag body) s = .next (refuse w eRange u)) ∧
    (fieldLe body 4 4 = 0 → 4096 ≤ m → m < 4352 → st < 4352 →
      (custody s m ≠ .awaitingKey ∨ domAlive s m = false → exec (.bundleKey sess tag body) s = .next (refuse w eState u)) ∧
      (custody s m = .awaitingKey → domAlive s m = true →
        (stagingOk s w st = false → exec (.bundleKey sess tag body) s = .next (refuse w eOwner u)) ∧
        (stagingOk s w st = true → 16 ≤ s.vault.bundles.length → exec (.bundleKey sess tag body) s = .next (refuse w eBusy u)) ∧
        (stagingOk s w st = true → s.vault.bundles.length < 16 →
          (keyUnwrap (wrapKey x) (slice body 40 40) = none → exec (.bundleKey sess tag body) s = .next (refuse w eAuth u)) ∧
          (∀ key v, keyUnwrap (wrapKey x) (slice body 40 40) = some key →
            v = modModel m (fun r => { r with custody := .keyHeld, ownerKeyId := slice body 8 32, ownerCred := x.cred.getD [], ownerPub := x.credPub })
              (u.modVault (fun y => { y with bundles := y.bundles ++ [{ model := m, keyId := slice body 8 32, key := key, staging := st, sess := sess, released := u.timer }] })) →
            exec (.bundleKey sess tag body) s = .next (commit [modelFrameOf v m] [] [(w, eOk)] v)))))) ∧
  (∀ (s : State) (m : BitVec 13) (v : State) (due : Nat), s.ports.rstCold = false →
    due = (((s.vault.bundles.find? (fun b => b.model == m.toNat)).map BundleKey.released).getD 0) + 60000000 →
    (custody s m.toNat ≠ .keyHeld → exec (.bundleKeyLapse m) s = .next s) ∧
    (custody s m.toNat = .keyHeld →
      v = modModel m.toNat (fun r => { r with custody := .awaitingKey, jobUsed := false }) (wipeBundle m.toNat { reachTime due s with
        ingest := { s.ingest with queue := s.ingest.queue.filter (fun j => j.model != m.toNat) } }) →
      exec (.bundleKeyLapse m) s = .next (commit [modelFrameOf v m.toNat] [] [] v))) ∧
  (∀ (s : State) (sess : Nat) (tag : BitVec 32) (g : Bytes) (x : Session) (w : Waiter) (u : State) (m : Nat), u = asked sess s →
    w = asker (tenantMsg 0x0051) sess tag → Asks s (tenantMsg 0x0051) sess x → g.length = 56 + 4 * grantCount g + 4723 → AtOnce s w g →
    m = fieldLe g 10 2 →
    (∀ c r, grantRefused s g = some r → (c = Instr.readerGrantAdd sess tag g ∧ (grantOper g = 0 ∨ 2 < grantOper g) ∨ c = .readerGrantRemove sess tag g ∧ grantOper g = 1 ∨
      c = .readerGrantRevoke sess tag g ∧ grantOper g = 2) → exec c s = .next (settle (refuse w r u))) ∧
    (grantRefused s g = none →
      (grantOper g = 0 → exec (.readerGrantAdd sess tag g) s = .next (settle (grantOps w m 0
        ((grantNamed g).length - ((grantNamed g).filter (domAlive s)).length) (runsOf ((grantNamed g).filter (domAlive s))) (recordGrant g u)))) ∧
      (grantOper g = 1 → exec (.readerGrantRemove sess tag g) s = .next (settle (grantOps w m 1 0 (runsOf (grantNamed g)) (recordGrant g u)))) ∧
      (grantOper g = 2 → exec (.readerGrantRevoke sess tag g) s = .next (settle (tearDown m (placementOf s m) 0 0
        [({ w with body := zeros 2 }, eOk)] (recordGrant g u)))))) ∧
  (∀ (s : State) (g : Bytes), grantRefused s g = none → slice g 0 8 = ascii "KFL-GRNT" ∧ fieldLe g 8 2 = 1 ∧ grantOper g ≤ 2 ∧ fieldLe g 49 1 = 0 ∧
    fieldLe g 52 4 = 0 ∧ 4096 ≤ fieldLe g 10 2 ∧ fieldLe g 10 2 < 4352 ∧
    ∃ r, s.model (fieldLe g 10 2) = some r ∧ r.custody = .resident ∧ r.grantSeq.toNat < fieldLe g 12 4 ∧ r.root = slice g 16 32 ∧
      hybVerify r.ownerPub (g.take (56 + 4 * grantCount g)) (g.drop (56 + 4 * grantCount g)) = true)

/-- A measurement request of any KIND is refused with the first code that applies; a model domain's is accepted on its placement list and a tenant
domain's goes on to its region list; a kept record is released by its owner. Says where exec answers a next state for: measureFull, measurePartial,
measureIncremental, keptRelease. (Rests on R246 to R251, R253, R445.) -/
def Obligations.MeasurementRequestsAreCheckedInOrder : Prop :=
  (∀ (s : State) (sess : Nat) (tag : BitVec 32) (body : Bytes) (x : Session) (w : Waiter) (u : State) (d : Nat) (c : Instr), u = asked sess s →
    w = asker (tenantMsg 0x0030) sess tag → Asks s (tenantMsg 0x0030) sess x → body.length = 40 → AtOnce s w body → d = fieldLe body 0 2 →
    (c = .measureFull sess tag body ∧ fieldLe body 2 1 ≠ 2 ∧ fieldLe body 2 1 ≠ 3 ∨ c = .measurePartial sess tag body ∧ fieldLe body 2 1 = 2 ∨
      c = .measureIncremental sess tag body ∧ fieldLe body 2 1 = 3) →
    (∀ r, jobRefused u w body = some r → exec c s = .next (refuse w r u)) ∧
    (jobRefused u w body = none →
      (4096 ≤ d → exec c s = .next (acceptJob w body (placementOf s d) u)) ∧
      (d < 4096 → (∀ r, listRefused (fieldLe body 24 8) (fieldLe body 32 4) = some r → exec c s = .next (refuse w r u)) ∧
        (listRefused (fieldLe body 24 8) (fieldLe body 32 4) = none →
          exec c s = .next (readRegions (.measure w body) d (fieldLe body 24 8) (fieldLe body 32 4) u))))) ∧
  (∀ (s : State) (w : Waiter) (body : Bytes),
    (fieldLe body 2 1 = 0 ∨ 3 < fieldLe body 2 1 → jobRefused s w body = some eReserved) ∧
    (jobRefused s w body = none → 1 ≤ fieldLe body 2 1 ∧ fieldLe body 2 1 ≤ 3 ∧ fieldLe body 0 2 < 4352 ∧ jobOwner s w (fieldLe body 0 2) = true ∧
      fieldLe body 8 8 ≠ 0 ∧ fieldLe body 8 8 % 64 = 0 ∧ fieldLe body 8 8 ≤ 2 ^ 48)) ∧
  (∀ (s : State) (sess : Nat) (tag : BitVec 32) (body : Bytes) (x : Session) (w : Waiter) (u : State) (d : Nat), u = asked sess s →
    w = asker (tenantMsg 0x0031) sess tag → Asks s (tenantMsg 0x0031) sess x → body.length = 4 → AtOnce s w body → d = fieldLe body 0 2 →
    (fieldLe body 2 2 ≠ 0 → exec (.keptRelease sess tag body) s = .next (refuse w eReserved u)) ∧
    (fieldLe body 2 2 = 0 → 4352 ≤ d → exec (.keptRelease sess tag body) s = .next (refuse w eRange u)) ∧
    (fieldLe body 2 2 = 0 → d < 4352 →
      (jobOwner u w d = false → exec (.keptRelease sess tag body) s = .next (refuse w eOwner u)) ∧
      (jobOwner u w d = true → (∀ k ∈ s.mower.kept, k.domain ≠ d) → exec (.keptRelease sess tag body) s = .next (refuse w eState u)) ∧
      (jobOwner u w d = true → (∃ k ∈ s.mower.kept, k.domain = d) → exec (.keptRelease sess tag body) s =
        .next (reply w eOk { u with mower := { u.mower with kept := u.mower.kept.filter (fun k => k.domain != d) } }))))

/-- The oldest of the waiting jobs starts while fewer than four run; a running one reads ahead at most 4,096 lines, through the guards that hold them; a
lane hashes a ready node of the next job in turn, and a job ends with its top node; a lane that fails its test leaves service, and with none left the
running jobs end; an abort ends the job it names. A command whose event cannot happen, and a write that another row owns, change nothing: the model's
choice (log 3). Says where exec answers a next state for: measurementJobStart, mowerReadIssue, mowerNodeHashed, mowerLaneKat, mowerAbort. (Rests on
R235 to R245, R249 to R252, R254, R256, R261, R694.) -/
def Obligations.TheMowerHashesItsJobsInTurn : Prop :=
  (∀ (s : State) j q, s.ports.rstCold = false → s.mower.queue = j :: q →
    (4 ≤ s.mower.run.length → exec .measurementJobStart s = .next s) ∧
    (s.mower.run.length < 4 → ∀ u, u = { s with mower := { s.mower with queue := q, run := s.mower.run ++ [j] } } →
      (s.mower.lanes = 0 → exec .measurementJobStart s = .next (endJob j mwLane [] u)) ∧
      (s.mower.lanes ≠ 0 → exec .measurementJobStart s = .next u))) ∧
  (∀ (s : State) job j g a r u, s.ports.rstCold = false → s.mower.run.find? (fun j => j.seq == job) = some j → lineOf j.lines j.issued = some (g, a) →
    r = ({ uid := (s.guardN g).uid, src := .mower job j.issued, op := .read, domain := j.domain, addr := BitVec.ofNat 42 a, stage := .parked } : Req) →
    u = (s.modMower (fun m => { m with
          shareLimited := m.shareLimited || Config.freeBit s.freeCtr
          run := mapIf (fun y => y.seq == job) (fun y => { y with issued := y.issued + 1 }) m.run })).used.modGuard g
          (fun y => { y with uid := y.uid + 1, reqs := y.reqs ++ [r] }) →
    (j.aborting = true ∨ j.lineCount ≤ j.issued ∨ 4096 ≤ j.issued - j.absorbed ∨ (s.guardN g).inReset = true ∨ (s.guardN g).clkStopped = true →
      exec (.mowerReadIssue job) s = .next s) ∧
    (j.aborting = false → j.issued < j.lineCount → j.issued - j.absorbed < 4096 → (s.guardN g).inReset = false → (s.guardN g).clkStopped = false →
      ((s.guardN g).fenced = true → exec (.mowerReadIssue job) s = .next (settle (fail g r stFenced u))) ∧
      ((s.guardN g).fenced = false → (s.guardN g).page.allot 3 = 0 →
        exec (.mowerReadIssue job) s = .next { s with mower := { s.mower with shareLimited := true } }) ∧
      ((s.guardN g).fenced = false → (s.guardN g).page.allot 3 ≠ 0 → exec (.mowerReadIssue job) s = .next (settle (decideKey (openOk s) g r u))))) ∧
  (∀ (s : State), s.ports.rstCold = false →
    (s.mower.lanes = 0 → exec .mowerNodeHashed s = .next s) ∧
    (s.mower.lanes ≠ 0 → (∀ j ∈ s.mower.run, jobTurn j s = none) → exec .mowerNodeHashed s = .next s) ∧
    (∀ j t u, s.mower.lanes ≠ 0 → s.mower.run.findSome? (fun j => (jobTurn j s).map (fun t => (j, t))) = some (j, t) →
      u = t.modMower (fun m => { m with run := m.run.filter (fun y => y.seq != j.seq) ++ m.run.filter (fun y => y.seq == j.seq) }) →
      (∀ j', u.mower.run.find? (fun y => y.seq == j.seq) = some j' →
        (j'.hash j'.target.1 j'.target.2 = none ∨ j'.aborting = true → exec .mowerNodeHashed s = .next u) ∧
        (∀ h, j'.hash j'.target.1 j'.target.2 = some h → j'.aborting = false → exec .mowerNodeHashed s = .next (jobDone j' h u))))) ∧
  (∀ (s : State) (lane : Fin 32) (u : State), s.ports.rstCold = false →
    u = raise false kMower lane fMowerLane 4 0 (s.modMower (fun m => { m with
      lanes := setBit m.lanes lane false, laneKatFail := satInc m.laneKatFail })) →
    (∀ good, good = true ∨ bitAt s.mower.lanes lane = false → exec (.mowerLaneKat lane good) s = .next s) ∧
    (bitAt s.mower.lanes lane = true → setBit s.mower.lanes lane false ≠ 0 → exec (.mowerLaneKat lane false) s = .next u) ∧
    (bitAt s.mower.lanes lane = true → setBit s.mower.lanes lane false = 0 →
      exec (.mowerLaneKat lane false) s = .next (forEach s.mower.run (fun j t => endJob j mwLane [] t) u))) ∧
  (∀ (s : State) (p : Path) (v : BitVec 32), Write s p (mowerPage + 0x3C) →
    ((∀ j ∈ s.mower.queue ++ s.mower.run, j.seq ≠ v) → exec (.mowerAbort p v) s = .next (accessOk p 0 s)) ∧
    (∀ j, (s.mower.queue ++ s.mower.run).find? (fun j => j.seq == v) = some j → exec (.mowerAbort p v) s = .next (accessOk p 0 (endJob j mwAbort [] s))))

/-- The oldest queued job starts when none runs, with a drawn seed; its header, each chunk and its manifest are read through the guards and checked in
order, the first check that fails ending the job with that outcome; the last makes the model resident. A command whose event cannot happen, and a
write that another row owns, change nothing: the model's choice (log 3). Says where exec answers a next state for: ingestJobStart, ingestHeaderRead,
ingestChunk, ingestManifest, ingestAbort. (Rests on R117, R118, R197 to R206, R210, R213 to R223, R232, R233.) -/
def Obligations.AnIngestJobRunsThroughItsParts : Prop :=
  (∀ (s : State) j q r, s.ports.rstCold = false → s.ingest.run = none → s.ingest.queue = j :: q → s.dom j.model = some r →
    (drawNow s = false → exec .ingestJobStart s = .next s) ∧
    (∀ t, drawNow s = true → drawBytes 32 s = (none, t) → exec .ingestJobStart s = .next t) ∧
    (∀ draw t, drawNow s = true → drawBytes 32 s = (some draw, t) → ∀ v,
      v = modModel j.model (fun m => { m with custody := .ingesting, placement := j.place })
        (setDom { r with state := .keyed, newest := 1, gens := [deriveEntry draw j.model 1 .seal false] }
          { t with ingest := { t.ingest with queue := q, run := some j } }) →
      exec .ingestJobStart s = .next (commit [storeFrame v j.model, modelFrameOf v j.model] [] [] v))) ∧
  (∀ (s : State) j lines, s.ports.rstCold = false → s.ingest.run = some j →
    (j.headerOk = true → exec (.ingestHeaderRead lines) s = .next s) ∧
    (j.headerOk = false → lines.length = 2 →
      (linesIn j.stage < 2 → exec (.ingestHeaderRead lines) s = .next (settle (endIngest j igShort s))) ∧
      (2 ≤ linesIn j.stage → ∀ h t,
        (readLines j 0 lines [] s = (none, h, t) → exec (.ingestHeaderRead lines) s = .next (settle t)) ∧
        (readLines j 0 lines [] s = (some false, h, t) → exec (.ingestHeaderRead lines) s = .next (settle (endIngest j igStage t))) ∧
        (readLines j 0 lines [] s = (some true, h, t) →
          (headerCheck j (bundleOf t j.model) h = some igAuth → exec (.ingestHeaderRead lines) s = .next (settle (endIngest j igAuth (countAuth t)))) ∧
          (∀ o, headerCheck j (bundleOf t j.model) h = some o → o ≠ igAuth → exec (.ingestHeaderRead lines) s = .next (settle (endIngest j o t))) ∧
          (headerCheck j (bundleOf t j.model) h = none → exec (.ingestHeaderRead lines) s =
            .next (settle { t with ingest := { t.ingest with run := some { j with header := h, headerOk := true, seeks := none, noKey := false } } })))))) ∧
  (∀ (s : State) j lines writes rec t len tr ct iv pt, s.ports.rstCold = false → s.ingest.run = some j → j.headerOk = true →
    j.chunk < chunkCountOf j.payload → len = chunkLen j j.chunk → lines.length = len / 64 + 1 → writes.length = len / 64 → s.mower.lanes ≠ 0 →
    s.ingest.gcmLanes ≠ 0 → tr = slice rec len 64 → ct = rec.take len → iv = bundleIv j.header j.chunk →
    pt = gcmCrypt (bundleOf t j.model).key iv ct →
    (readLines j (2 + 16385 * j.chunk) lines [] s = (none, rec, t) → exec (.ingestChunk lines writes) s = .next (settle t)) ∧
    (readLines j (2 + 16385 * j.chunk) lines [] s = (some false, rec, t) → exec (.ingestChunk lines writes) s = .next (settle (endIngest j igStage t))) ∧
    (readLines j (2 + 16385 * j.chunk) lines [] s = (some true, rec, t) →
      (trailerOk j tr = false → exec (.ingestChunk lines writes) s = .next (settle (endIngest j igChunk t))) ∧
      (trailerOk j tr = true → ∀ n u v, v = { u with
            mower := { u.mower with bytes := u.mower.bytes + BitVec.ofNat 64 (64 * n) }
            ingest := { u.ingest with bytes := u.ingest.bytes + BitVec.ofNat 64 (64 * n), shareLimited := u.ingest.shareLimited || Config.freeBit u.freeCtr }
            freeCtr := u.freeCtr + 1 } →
        (writeLines j (16384 * j.chunk) ((chunks 64 pt).zip writes) 0 t = (none, n, u) → exec (.ingestChunk lines writes) s = .next (settle u)) ∧
        (writeLines j (16384 * j.chunk) ((chunks 64 pt).zip writes) 0 t = (some false, n, u) →
          exec (.ingestChunk lines writes) s = .next (settle (endIngest j igWrite v))) ∧
        (writeLines j (16384 * j.chunk) ((chunks 64 pt).zip writes) 0 t = (some true, n, u) →
          (gcmTag (bundleOf t j.model).key iv (j.header.take 112 ++ slice tr 16 8) ct ≠ slice tr 0 16 →
            exec (.ingestChunk lines writes) s = .next (settle (endIngest j igAuth (countAuth v)))) ∧
          (gcmTag (bundleOf t j.model).key iv (j.header.take 112 ++ slice tr 16 8) ct = slice tr 0 16 →
            exec (.ingestChunk lines writes) s = .next (settle { v with ingest := { v.ingest with
              run := some { j with chunk := j.chunk + 1, seeks := none, noKey := false, leaves := j.leaves ++ chunkLeaves j pt } } })))))) ∧
  (∀ (s : State) j lines m t root tag, s.ports.rstCold = false → s.ingest.run = some j → j.headerOk = true → chunkCountOf j.payload ≤ j.chunk →
    lines.length = 2 → root = rootOfLeaves .seal j.payload j.leaves →
    tag = gcmTag (bundleOf t j.model).key (bundleIv j.header 0xFFFFFFFF) (j.header.take 112 ++ m.take 112) [] →
    (readLines j ((128 + j.payload + 64 * chunkCountOf j.payload) / 64) lines [] s = (none, m, t) → exec (.ingestManifest lines) s = .next (settle t)) ∧
    (readLines j ((128 + j.payload + 64 * chunkCountOf j.payload) / 64) lines [] s = (some false, m, t) →
      exec (.ingestManifest lines) s = .next (settle (endIngest j igStage t))) ∧
    (readLines j ((128 + j.payload + 64 * chunkCountOf j.payload) / 64) lines [] s = (some true, m, t) →
      (manifestForm j m = false → exec (.ingestManifest lines) s = .next (settle (endIngest j igManifest t))) ∧
      (manifestForm j m = true → tag ≠ slice m 112 16 → exec (.ingestManifest lines) s = .next (settle (endIngest j igManifest (countAuth t)))) ∧
      (manifestForm j m = true → tag = slice m 112 16 → slice m 24 32 ≠ zeros 32 → slice m 24 32 ≠ root →
        exec (.ingestManifest lines) s = .next (settle (endIngest j igRoot t))) ∧
      (manifestForm j m = true → tag = slice m 112 16 → slice m 24 32 = zeros 32 ∨ slice m 24 32 = root →
        exec (.ingestManifest lines) s = .next (settle (ingestDone j root t))))) ∧
  (∀ (s : State) (p : Path) (v : BitVec 32), Write s p (ingestPage + 0x3C) →
    (bitAt v 0 = false ∨ s.ingest.run = none → exec (.ingestAbort p v) s = .next (accessOk p 0 s)) ∧
    (∀ j, bitAt v 0 = true → s.ingest.run = some j → exec (.ingestAbort p v) s = .next (accessOk p 0 (settle (endIngest j igAbort s)))))

/-- A write of VAULT_CMD with GO is dropped while a command runs, ends with the first check it fails, or is carried out: a symmetric key is drawn or
derived into the slot, an asymmetric one waits for the engine, an export wraps, a blob is sealed or opened, a clear clears; a filled slot holds what
it was given and no other slot changes. Says where exec answers a next state for: vaultGenerate, vaultGeneratePair, vaultDerive, vaultImport,
vaultExport, save, restore, clear, statement. (Rests on R278 to R282, R284 to R293, R310, R318, R328, R338, R377 to R379.) -/
def Obligations.VaultCommandsAreCheckedThenCarriedOut : Prop :=
  (∀ (s : State) (p : Path) (v : BitVec 32) (c : Instr) (code slot slot2 : Nat) (core : Option Nat) (u : State) (r : VaultRun), Write s p (vaultPage + 0x20) →
    bitAt v 31 = true → code = bitsOf v 7 0 → slot = bitsOf v 13 8 → slot2 = bitsOf v 21 16 →
    (code, c) ∈ [(1, Instr.vaultGenerate p v), (2, .vaultGeneratePair p v), (3, .vaultDerive p v), (4, .vaultImport p v), (5, .vaultExport p v),
      (6, .save p v), (7, .restore p v), (8, .clear p v), (9, .statement p v)] →
    ((∃ k : Fin 4, p = .core k ∧ core = some k.val) ∨ (∃ a b, p = .port a b) ∧ core = none) →
    u = { s with vault := { s.vault with cmd := v &&& 0x003F3FFF#32 } } →
    r = { code := code, slot := slot, slot2 := slot2, core := core.getD 0, arg := s.vault.arg, input := vaultIn s 0 8192, ctxLen := s.vault.len.toNat } →
    (s.vault.run.isSome = true → exec c s = .next (accessOk p 0 { s with vault := { s.vault with dropped := satInc s.vault.dropped } })) ∧
    (s.vault.run = none →
      (∀ e, vaultRefused s core v = some e → exec c s = .next (accessOk p 0 { u with vault := { u.vault with
        run := none, valid := true, result := e,
        foreign := if core = none ∧ e = eOwner then satInc u.vault.foreign else u.vault.foreign } })) ∧
      (vaultRefused s core v = none → vaultDown s r = true → exec c s = .next (accessOk p 0 (vaultEnd 0x72 u))) ∧
      (vaultRefused s core v = none → vaultDown s r = false → ∀ ok : State → State, (∀ t, ok t = accessOk p 0 (vaultEnd eOk t)) →
        (∀ n, code = 1 ∧ typeParam (attrType s.vault.arg) = none ∧ n = typeLen (attrType s.vault.arg) ∨ code = 6 ∧ n = 12 →
          (drawNow u = false → exec c s = .next (accessOk p 0 { u with
            vault := { u.vault with run := some r }, ent := { u.ent with queue := u.ent.queue ++ [(.vault, n)] } })) ∧
          (∀ t, drawNow u = true → drawBytes n u = (none, t) → exec c s = .next (accessOk p 0 (vaultEnd eAuth t)))) ∧
        (code = 1 → typeParam (attrType s.vault.arg) = none → drawNow u = true → ∀ k t, drawBytes (typeLen (attrType s.vault.arg)) u = (some k, t) →
          exec c s = .next (ok (fillSlot slot (mkAttr (attrType s.vault.arg) (attrUsage s.vault.arg) 1 (attrExport s.vault.arg) (attrPersistent s.vault.arg)
            (ownerOf t (core.getD 0))) k t))) ∧
        (∀ n, code = 1 → typeParam (attrType s.vault.arg) = some n → pkMode s.pk ≠ 3 →
          exec c s = .next (accessOk p 0 (pkEnqueue (vaultJob 3 n none []) { u with vault := { u.vault with run := some r } }))) ∧
        (code = 2 → pkMode s.pk ≠ 3 → exec c s = .next (accessOk p 0 (pkEnqueue (vaultJob 3 9 none []) { u with vault := { u.vault with run := some r } }))) ∧
        (code = 3 → attrType (s.anchor slot2).attr ≠ 8 → exec c s = .next (ok (fillSlot slot (derivedAttr u r)
          (kmac256 (s.anchor slot2).value (r.input.take r.ctxLen ++ vecBytes 4 (derivedAttr u r)) (typeLen (attrType (derivedAttr u r))) (ascii "KFL-VAULT-DERIVE")) u))) ∧
        (code = 3 → attrType (s.anchor slot2).attr = 8 → pkMode s.pk ≠ 3 → exec c s = .next (accessOk p 0
          (pkEnqueue (vaultJob 5 2 (some slot2) (windowOf [(offPub, slice r.input 256 97)])) { u with vault := { u.vault with run := some r } }))) ∧
        (code = 4 → pkMode s.pk ≠ 3 → exec c s = .next (accessOk p 0
          (pkEnqueue (vaultJob 7 8 (some slot2) (windowOf [(offSig, r.input.take 1568)])) { u with vault := { u.vault with run := some r } }))) ∧
        (code = 5 → exec c s = .next (ok (vaultOut 8 (keyWrap (padTo 32 (s.anchor slot2).value) (padTo 96 (s.anchor slot).value))
          (vaultOut 0 (vecBytes 4 (s.anchor slot).attr) u)))) ∧
        (∀ iv t head ct, code = 6 → drawNow u = true → drawBytes 12 u = (some iv, t) →
          head = blobMagic ++ [BitVec.ofNat 8 slot, 0] ++ vecBytes 4 (t.anchor slot).attr ++ vecBytes 4 t.boot.runSvn ++ zeros 12 ++ iv ++ zeros 4 →
          ct = gcmCrypt (t.anchor 5).value iv (padTo 96 (t.anchor slot).value) →
          exec c s = .next (ok (vaultOut 0 (head ++ ct ++ gcmTag (t.anchor 5).value iv head ct) t))) ∧
        (∀ head iv ct, code = 7 → head = r.input.take 48 → iv = slice head 32 12 → ct = slice r.input 48 96 →
          (gcmTag (s.anchor 5).value iv head ct ≠ slice r.input 144 16 → exec c s = .next (accessOk p 0 (vaultEnd eAuth u))) ∧
          (gcmTag (s.anchor 5).value iv head ct = slice r.input 144 16 →
            (s.boot.runSvn.toNat < fieldLe head 16 4 → exec c s = .next (accessOk p 0 (vaultEnd 0x22 u))) ∧
            (fieldLe head 16 4 ≤ s.boot.runSvn.toNat → exec c s = .next (ok (fillSlot slot (bytesVec 32 (slice head 12 4))
              ((gcmCrypt (s.anchor 5).value iv ct).take (typeLen (attrType (bytesVec 32 (slice head 12 4))))) u))))) ∧
        (code = 8 → exec c s = .next (ok (clearSlot slot u))) ∧
        (code = 9 → typeParam (attrType (s.anchor slot).attr) = none → exec c s = .next (accessOk p 0 (stmtSign r (symKeyId (s.anchor slot).value) u))) ∧
        (∀ n, code = 9 → typeParam (attrType (s.anchor slot).attr) = some n → pkMode s.pk ≠ 3 →
          exec c s = .next (accessOk p 0 (pkEnqueue (match pairOf s slot with
            | some e => vaultJob 4 9 (some e) []
            | none => vaultJob 4 n (some slot) []) { u with vault := { u.vault with run := some r } })))))) ∧
  (∀ (s : State) (n m : Nat) (attr : BitVec 32) (value : Bytes), n < 64 →
    ((fillSlot n attr value s).anchor n).attr = attr ∧ ((fillSlot n attr value s).anchor n).value = value ∧
    ((fillSlot n attr value s).anchor n).epoch = (s.anchor n).epoch + 1 ∧ (m ≠ n → (fillSlot n attr value s).anchor m = s.anchor m))

/-- A write of PK_JOB_CMD of each OP is dropped while the slot is busy and foreign from another core; with GO it queues the slot's job in its class, or
ends it at once with no datapath in service; ABORT and SCRUB act on the slot's own job and areas. Says where exec answers a next state for: pkSign,
pkVerify, pkKeygen, pkPublic, pkDerive, pkEncaps, pkDecaps, pkCheckCurve, pkAbort, pkScrub, fcMode, pkSelftest. (Rests on R316, R317, R338, R352,
R353, R357, R361, R366, R367.) -/
def Obligations.PublicKeyJobsAreSubmittedByTheSlotsOwner : Prop :=
  (∀ (s : State) (n : Fin 8) (p : Path) (v : BitVec 32) (c : Instr) (j : PkJob) (u : State), Write s p (pkSlotPage n + 0x20) → bitAt v 31 = true →
    (bitsOf v 7 0, c) ∈ [(1, Instr.pkSign n p v), (2, .pkVerify n p v), (3, .pkKeygen n p v), (4, .pkPublic n p v), (5, .pkDerive n p v), (6, .pkEncaps n p v),
      (7, .pkDecaps n p v), (8, .pkCheckCurve n p v)] →
    j = { slot := n, op := BitVec.ofNat 8 (bitsOf v 7 0), param := BitVec.ofNat 8 (bitsOf v 15 8), keySrc := bitAt v 16, anchor := bitsOf v 22 17,
          reservedBits := bitsOf v 30 23 != 0 || bitsOf (s.pk.slots.get n).len 31 10 != 0, len := bitsOf (s.pk.slots.get n).len 9 0
          long := isLong s.pk (bitsOf v 7 0) (bitsOf v 15 8) } →
    u = modSlot n (fun x => { x with wiped := false, restarted := false, yielded := false, long := j.long, mode := 3, curveFail := 0 })
      (modSlot n (fun x => { x with cmd := BitVec.ofNat 31 (v &&& 0x007FFFFF#32).toNat }) s) →
    (ownsSlot n p = false → exec c s = .next (accessOk p 0 { s with pk := { s.pk with foreign := satInc s.pk.foreign } })) ∧
    (ownsSlot n p = true → s.pk.busy n = true → exec c s = .next (accessOk p 0 { s with pk := { s.pk with dropped := satInc s.pk.dropped } })) ∧
    (ownsSlot n p = true → s.pk.busy n = false →
      (pkMode s.pk = 3 → exec c s = .next (accessOk p 0 (slotEnd j { code := 0x69 } false u))) ∧
      (pkMode s.pk ≠ 3 → j.long = true → exec c s = .next (accessOk p 0 { u with pk := { u.pk with
        longQ := u.pk.longQ ++ [{ j with goAt := u.pk.nextGo }], nextGo := u.pk.nextGo + 1 } })) ∧
      (pkMode s.pk ≠ 3 → j.long = false → exec c s = .next (accessOk p 0 { u with pk := { u.pk with
        shortQ := u.pk.shortQ ++ [{ j with goAt := u.pk.nextGo }], nextGo := u.pk.nextGo + 1 } })))) ∧
  (∀ (s : State) (n : Fin 8) (p : Path) (v : BitVec 32), Access s p (pkSlotPage n + 0x2C) →
    (ownsSlot n p = false → (bitAt v 0 = true → exec (.pkAbort n p v) s = .next (accessOk p 0 { s with pk := { s.pk with foreign := satInc s.pk.foreign } })) ∧
      (bitAt v 0 = false → bitAt v 1 = true → exec (.pkScrub n p v) s = .next (accessOk p 0 { s with pk := { s.pk with foreign := satInc s.pk.foreign } }))) ∧
    (ownsSlot n p = true →
      (bitAt v 0 = true → bitAt v 1 = false → exec (.pkAbort n p v) s = .next (accessOk p 0 (pkAbortSlot n s))) ∧
      (bitAt v 0 = true → bitAt v 1 = true → exec (.pkAbort n p v) s = .next (accessOk p 0 (pkScrubSlot n (pkAbortSlot n s)))) ∧
      (bitAt v 0 = false → bitAt v 1 = true → exec (.pkScrub n p v) s = .next (accessOk p 0 (pkScrubSlot n s))))) ∧
  (∀ (s : State) (p : Path) (v : BitVec 32) (m : BitVec 2), Write s p (pkPage + 0x20) →
    (bitsOf v 1 0 = 3 ∧ m = s.pk.fcMode ∨ bitsOf v 1 0 ≠ 3 ∧ m.toNat = bitsOf v 1 0) →
    (bitAt v 2 = false → exec (.fcMode p v) s = .next (accessOk p 0 { s with pk := { s.pk with fcMode := m } })) ∧
    (bitAt v 2 = true → exec (.pkSelftest p v) s = .next (accessOk p 0 { s with pk := { s.pk with fcMode := m, selftest := true, stDue := true } })))

/-- The oldest waiting job starts in the area of its class; at the boundary a refused one ends with its code; a long one yields to waiting short ones; at
its end the outputs and status are written, or E_COMPARE where the runs differ; an aborted one ends E_ABORTED; a failed check or an error takes a
datapath out, and a self-test decides both. A command whose event cannot happen, and a write that another row owns, change nothing: the model's choice
(log 3). Says where exec answers a next state for: pkJobStart, pkValidationBoundary, pkCheckpoint, pkJobEnd, pkAbortComplete, pkSelftestEnd,
pkPeriodicKat, pkDatapath. (Rests on R313, R314, R326, R332 to R336, R338 to R348, R353 to R355, R357, R359 to R361.) -/
def Obligations.PublicKeyJobsRunThroughTheirPhases : Prop :=
  ∀ (s : State), s.ports.rstCold = false →
    (∀ long, pkNext s.pk ≠ some long → exec (.pkJobStart long) s = .next s) ∧
    (∀ long j q, pkNext s.pk = some long → (if long then s.pk.longQ else s.pk.shortQ) = j :: q →
      (drawNow s = false → j.op ≠ 2 → j.op ≠ 7 → exec (.pkJobStart long) s = .next s) ∧
      (∀ u v i mode key r, drawNow s = true ∨ j.op = 2 ∨ j.op = 7 →
        u = s.modPk (fun k => if long then { k with longQ := q } else { k with shortQ := q, batchLeft := k.batchLeft - 1 }) →
        i = { j with window := if j.slot < 8 then bufLoad 0 (u.pk.slots.toList.getD j.slot {}).window 0 8192 else j.window } → mode = pkMode u.pk →
        v = emptyEntry i (forEach (modeDps mode) (fun b t => if (t.pk.cell b long).owner = some j.slot then t else wipeArea long b t) u) →
        key = pkKey v i → r = loadJob key i v →
        exec (.pkJobStart long) s = .next (modSlot j.slot (fun x => { x with mode := mode, restarted := j.restarted, yielded := j.yieldedOnce })
          (setArea long (some r.1) (forEach (modeDps mode) (fun b => modCell b long (fun _ =>
            { owner := some j.slot, dirty := true, key := if r.1.verdict = 0 then key else [] })) r.2))))) ∧
    (∀ long j, s.pk.area long = some j →
      (∀ d, j.phase ≠ .running → exec (.pkValidationBoundary long d) s = .next s) ∧
      (j.phase = .running →
        exec (.pkValidationBoundary long true) s = .next (pkEnd long { code := 0x67 } true (pkMismatch j s)) ∧
        (j.verdict ≠ 0 → exec (.pkValidationBoundary long false) s = .next (pkEnd long { code := j.verdict } true s)) ∧
        (j.verdict = 0 → exec (.pkValidationBoundary long false) s = .next (setArea long (some { j with phase := .validated }) s))) ∧
      (∀ d, j.phase ≠ .validated → exec (.pkJobEnd long d) s = .next s) ∧
      (j.phase = .validated →
        exec (.pkJobEnd long true) s = .next (pkEnd long { code := 0x67 } false (pkMismatch j s)) ∧
        ((pkCompute s.pk (s.pk.keyOf long j) j).curve = none → exec (.pkJobEnd long false) s = .next (pkEnd long (pkCompute s.pk (s.pk.keyOf long j) j) false s)) ∧
        (∀ c, (pkCompute s.pk (s.pk.keyOf long j) j).curve = some c → exec (.pkJobEnd long false) s = .next (pkEnd long (pkCompute s.pk (s.pk.keyOf long j) j) false
          (s.modPk (fun k => { k with curves := vmod k.curves (j.param.toNat - 0x20) (fun _ => some c) }))))) ∧
      (j.phase ≠ .aborting → exec (.pkAbortComplete long) s = .next s) ∧
      (j.phase = .aborting →
        (long = true → exec (.pkAbortComplete long) s = .next (pkEnd true { code := 0x68 } false (wipeJob true j { s with pk := { s.pk with batchLeft := 0 } }))) ∧
        (long = false → exec (.pkAbortComplete long) s = .next (pkEnd false { code := 0x68 } false (wipeJob false j s))))) ∧
    (∀ j, s.pk.longRun = some j →
      (j.phase = .validated → s.pk.shortRun = none → s.pk.shortQ ≠ [] → exec .pkCheckpoint s =
        .next (modSlot j.slot (fun x => { x with yielded := true }) { s with pk := { s.pk with
          longRun := some { j with phase := .yielded, yieldedOnce := true }, batchLeft := s.pk.shortQ.length } })) ∧
      (j.phase ≠ .validated ∨ s.pk.shortRun.isSome = true ∨ s.pk.shortQ = [] → exec .pkCheckpoint s = .next s)) ∧
    (∀ b residue, (s.pk.dpOut b = true ∨ s.tamper.latch = true → exec (.pkDatapath b residue) s = .next s) ∧
      (s.pk.dpOut b = false → s.tamper.latch = false → exec (.pkDatapath b residue) s = .next (pkOut b (if residue then 2 else 1) s)) ∧
      (s.pk.dp b = false → exec (.pkPeriodicKat b false) s = .next s) ∧
      (s.pk.dp b = true → exec (.pkPeriodicKat b false) s = .next (pkOut b 4 s)) ∧ exec (.pkPeriodicKat b true) s = .next s) ∧
    (∀ u, s.pk.stDue = true → s.pk.shortRun = none → s.pk.longRun = none → s.ports.pairDone = true → ∀ goodA goodB (first : Bool → State → State),
      (∀ d t, first d t = if s.pk.dp d then t else pkFinding d t) →
      u = { s with pk := { s.pk with stDue := false, selftest := false, dpA := !s.pk.dpAOut && goodA, dpB := !s.pk.dpBOut && goodB } } →
      (goodA = true ∨ s.pk.dpAOut = true → goodB = true ∨ s.pk.dpBOut = true → exec (.pkSelftestEnd goodA goodB) s = .next u) ∧
      (goodA = false → s.pk.dpAOut = false → goodB = true ∨ s.pk.dpBOut = true → exec (.pkSelftestEnd goodA goodB) s = .next (first false (pkOut false 4 u))) ∧
      (goodA = true ∨ s.pk.dpAOut = true → goodB = false → s.pk.dpBOut = false → exec (.pkSelftestEnd goodA goodB) s = .next (first true (pkOut true 4 u))) ∧
      (goodA = false → s.pk.dpAOut = false → goodB = false → s.pk.dpBOut = false →
        exec (.pkSelftestEnd goodA goodB) s = .next (first true (pkOut true 4 (first false (pkOut false 4 u))))))

/-- A command written to DIG_CTX_CMD with GO is dropped and counted when another core owns the context; the first check it fails decides its code;
otherwise CLAIM takes the context, OPEN starts it, FINISH ends it once its bytes are absorbed, CLOSE and ABORT free it, EXPORT writes its blob, or
waits for the DRBG with its IV still to draw, and IMPORT restores it; until the tests after a reset of the core have ended no command is accepted.
Says where exec answers a next state for: claim, ctxOpen, ctxFinish, ctxClose, ctxAbort, ctxExport, ctxImport. (Rests on R368, R371 to R374, R376 to
R380, R382, R387 to R393.) -/
def Obligations.DigestCommandsAreCheckedThenCarriedOut : Prop :=
  ∀ (s w u f : State) (c : Fin 8) (p : Path) (v : BitVec 32) (op : Nat) (i : Instr), Write s p (ctxPage c + 0x20) → bitAt v 31 = true →
    (op, i) ∈ [(1, Instr.claim c p v), (2, .ctxOpen c p v), (3, .ctxFinish c p v), (4, .ctxClose c p v), (5, .ctxAbort c p v), (6, .ctxExport c p v), (7, .ctxImport c p v)] →
    bitsOf v 3 0 = op → w = modCtx c (fun x => { x with cmd := v.extractLsb' 0 4 }) s → u = modCtx c (fun x => { x with lastAct := s.timer }) w →
    f = modCtx c (fun x => { x with finished := true }) u →
    (ctxOwned s c p (op == 1) = false → exec i s = .next (accessOk p 0 { s with dig := { s.dig with foreign := satInc s.dig.foreign } })) ∧
    (∀ k, p = .core k → ctxOwned s c p (op == 1) = true → digStarting s = true → exec i s = .next w) ∧
    (∀ k, p = .core k → ctxOwned s c p (op == 1) = true → digStarting s = false →
      (∀ e, ctxRefused u c k op v = some e → exec i s = .next (modCtx c (fun x => { x with code := e }) u)) ∧
      (ctxRefused u c k op v = none →
        (op = 1 → exec i s = .next (modCtx c (fun x => { x with state := .claimed, owner := k, code := 0 }) u)) ∧
        (op = 2 → exec i s = .next (modCtx c (fun x => { ctxStart u x with code := 0 }) u)) ∧
        (op = 3 → (f.ctx c).complete = true → exec i s = .next (modCtx c (fun x => { x with code := 0 }) (ctxResult c f))) ∧
        (op = 3 → (f.ctx c).complete = false → exec i s = .next (modCtx c (fun x => { x with state := .finishing, code := 0 }) f)) ∧
        (op = 4 ∨ op = 5 → exec i s = .next (modCtx c (fun x => { x.wiped with state := .free, owner := 0, trunc := false, fed := 0, finished := false, code := 0 }) (stopFeed c u))) ∧
        (op = 6 → drawNow u = false → exec i s = .next { u with ent := { u.ent with queue := u.ent.queue ++ [(.blob c k, 12)] } }) ∧
        (op = 6 → drawNow u = true → ∀ x, (drawBytes 12 u).1 = none → x = (drawBytes 12 u).2 → exec i s = .next (modCtx c (fun y => { y with code := 0x6A }) x)) ∧
        (op = 6 → drawNow u = true → ∀ iv x head ct, (drawBytes 12 u).1 = some iv → x = (drawBytes 12 u).2 →
          head = ascii "KFL-DCTX" ++ leBytes 2 1 ++ leBytes 1 k ++ leBytes 1 (x.ctx c).alg ++ vecBytes 4 (x.digRegion k).nextSeq ++ leBytes 8 (x.ctx c).len ++
            vecBytes 8 (x.ctx c).fed ++ iv ++ zeros 4 →
          ct = gcmCrypt (x.anchor 6).value iv (ctxRecord (x.ctx c)) →
          exec i s = .next (modCtx c (fun y => { y with code := 0 }) (ctxFree c (modRegion k (fun r => { r with
            xfer := bufStore 0 r.xfer 0 (head ++ ct ++ gcmTag (x.anchor 6).value iv head ct), nextSeq := r.nextSeq + 1,
            outstanding := r.outstanding ++ [(x.digRegion k).nextSeq] }) x)))) ∧
        (op = 7 → ∀ blob r, blob = blobIn u k → blobRecord u blob = some r → exec i s = .next (modCtx c (fun x => { x with
            state := .opened, code := 0, trunc := bitAt (bytesVec 8 (slice r 435 1)) 0, fed := bytesVec 64 (slice blob 24 8), key := [], custom := [],
            alg := fieldLe blob 11 1, keySrc := fieldLe r 433 1, slot := fieldLe r 434 1, olen := fieldLe r 436 2, len := fieldLe blob 16 8,
            st := r.take (algInit (fieldLe blob 11 1)).length, outer := (slice r 200 64).take (algInit (fieldLe blob 11 1)).length,
            buf := slice r 264 (fieldLe r 432 1), slotEpoch := bytesVec 32 (slice r 438 4), result := [] })
          (modRegion k (fun g => { g with outstanding := dropFirst (fun q => q == bytesVec 32 (slice blob 12 4)) g.outstanding }) u)))))

/-- Words of register feed are offered to an open context, and are dropped and counted after FINISH; a feed with GO reads the bytes up to DECL_LEN; a core
absorbs one whole block of a context whose turn it is and a finishing context then gives its result; a context short of its bytes ends E_SHORT at the
inactivity limit after its last activity; the self-test starts the tests of every core in service. A discard removes its SEQ from the writing core's
outstanding exports; a compare of a core is refused with its code or takes copies of its operands and its turn; the compare in front gives its
verdict, and one whose trees disagree never reads as a match. A command whose event cannot happen, and a write that another row owns, change nothing:
the model's choice (log 3). Says where exec answers a next state for: digCtxData, dmaFeed, digestBlock, eShort, digDiscard, digSelftest, compare,
compareResult. (Rests on R369, R370, R372 to R374, R380 to R386, R633, R372, R392, R394 to R397, R409.) -/
def Obligations.ContextsTakeTheirBytesAndComparesRunInTurn : Prop :=
  ((∀ (s : State) (c : Fin 8) (p : Path) (v : BitVec 32) (x : Ctx), Access s p (ctxPage c + 0x34) → x = s.ctx c →
    (ctxOwned s c p false = false → exec (.digCtxData c p v) s = .next (accessOk p 0 { s with dig := { s.dig with foreign := satInc s.dig.foreign } })) ∧
    (ctxOwned s c p false = true →
      (x.state = .opened → x.feeding = false → exec (.digCtxData c p v) s =
        .next (accessOk p 0 (modCtx c (fun x => { x.offer (vecBytes 4 v) with trunc := x.trunc || decide (x.len ≤ x.fed.toNat), lastAct := s.timer }) s))) ∧
      (x.state = .opened ∧ x.feeding = true ∨ (x.state = .finishing ∨ x.state = .done ∨ x.state = .ended) ∧ x.finished = true → exec (.digCtxData c p v) s =
        .next (accessOk p 0 { s with dig := { s.dig with dropped := satInc s.dig.dropped } })) ∧
      (x.state = .free ∨ x.state = .claimed ∨ (x.state = .finishing ∨ x.state = .done ∨ x.state = .ended) ∧ x.finished = false → exec (.digCtxData c p v) s = .next (accessOk p 0 s)))) ∧
  (∀ (s u : State) (c : Fin 8) (p : Path) (v : BitVec 32) (x : Ctx) (n take : Nat), Write s p (ctxPage c + 0x40) → bitAt v 31 = true → x = s.ctx c → n = bitsOf v 30 0 →
    take = Nat.min n (x.len - x.fed.toNat) → u = modCtx c (fun x => { x with feedLen := v.extractLsb' 0 31 }) s →
    (ctxOwned s c p false = false → exec (.dmaFeed c p v) s = .next (accessOk p 0 { s with dig := { s.dig with foreign := satInc s.dig.foreign } })) ∧
    (ctxOwned s c p false = true →
      (x.state = .opened → x.feeding = false →
        (dmaBeyond x.feedAddr.toNat take = true → exec (.dmaFeed c p v) s = .next (accessOk p 0 (ctxEnd c 0x73 u))) ∧
        (dmaBeyond x.feedAddr.toNat take = false → take = 0 → exec (.dmaFeed c p v) s = .next (accessOk p 0 (feedEnd c n u))) ∧
        (dmaBeyond x.feedAddr.toNat take = false → take ≠ 0 → exec (.dmaFeed c p v) s = .next (accessOk p 0
          (modCtx c (fun y => { y with feeding := true, dmaWork := some (dmaRead (.digest c) x.feedAddr.toNat take u).1, dmaNext := 0, feedAll := n })
            (dmaRead (.digest c) x.feedAddr.toNat take u).2)))) ∧
      (x.state = .opened ∧ x.feeding = true ∨ (x.state = .finishing ∨ x.state = .done ∨ x.state = .ended) ∧ x.finished = true → exec (.dmaFeed c p v) s =
        .next (accessOk p 0 { s with dig := { s.dig with dropped := satInc s.dig.dropped } })) ∧
      (x.state = .free ∨ x.state = .claimed ∨ (x.state = .finishing ∨ x.state = .done ∨ x.state = .ended) ∧ x.finished = false → exec (.dmaFeed c p v) s = .next (accessOk p 0 s)))) ∧
  (∀ (s : State) (c : Fin 8) (x : Ctx) (u : State), s.ports.rstCold = false → x = s.dig.ctxs.get c →
    u = modCtx c (fun y => { y with st := absorbBlock y.alg y.st (y.buf.take (algBlock x.alg)), buf := y.buf.drop (algBlock x.alg) }) s →
    ((s.dig.served (algKeccak x.alg)).contains c.val = false → exec (.digestBlock c) s = .next s) ∧
    (∀ w, (s.dig.served (algKeccak x.alg)).contains c.val = true → w = { u with dig := { u.dig with turn := u.dig.turn.filter (· != c.val) ++ [c.val] } } →
      ((w.ctx c).state = .finishing → (w.ctx c).complete = true → w.dig.kindUp (algKeccak (w.ctx c).alg) = true → exec (.digestBlock c) s = .next (ctxResult c w)) ∧
      ((w.ctx c).state ≠ .finishing ∨ (w.ctx c).complete = false ∨ w.dig.kindUp (algKeccak (w.ctx c).alg) = false → exec (.digestBlock c) s = .next w)) ∧
    (x.state ≠ .opened → x.state ≠ .finishing → exec (.eShort c) s = .next s) ∧
    (x.state = .opened ∨ x.state = .finishing →
      (∀ e, x.fed.toNat < x.len → x.feeding = false → e = ctxEnd c 0x70 (reachTime (x.lastAct + 100 * s.dig.idleLimit.toNat) s) →
        exec (.eShort c) s = .next { e with dig := { e.dig with shorts := satInc e.dig.shorts } }) ∧
      (x.len ≤ x.fed.toNat ∨ x.feeding = true → exec (.eShort c) s = .next s))) ∧
  (∀ (s : State) (p : Path) (v : BitVec 32), Write s p (digPage + 0x20) → bitAt v 8 = true → exec (.digSelftest p v) s =
    .next (accessOk p 0 { s with dig := { s.dig with idleLimit := if bitsOf v 7 0 = 0 then 1 else v.extractLsb' 0 8, testing := s.dig.testing ||| (s.dig.kecCores ++ s.dig.sha2Cores) } }))) ∧
((∀ (s : State) (g : Fin 4) (p : Path) (v : BitVec 32), Access s p (digPage + 0x3C) →
    (∀ k, p = .core k → (k = g → exec (.digDiscard g p v) s = .next (modRegion g (fun r => { r with outstanding := dropFirst (fun q => q == v) r.outstanding }) s)) ∧
      (k ≠ g → exec (.digDiscard g p v) s = .next s)) ∧
    (isCore p = false → exec (.digDiscard g p v) s = .next s)) ∧
  (∀ (s u : State) (g : Fin 4) (p : Path) (v : BitVec 32) (r : DigCore) (x : Ctx) (n : Nat), Write s p (digPage + 0x200 + 0x380 * g + 0x280) → bitAt v 31 = true →
    r = s.digRegion g → x = s.ctx (bitsOf v 10 8) → n = bitsOf v 6 0 → u = modRegion g (fun r => { r with cmpCtl := BitVec.ofNat 31 (bitsOf v 10 0) }) s →
    ((coreOf p == some g.val) = false → exec (.compare g p v) s = .next (accessOk p 0 { s with dig := { s.dig with foreign := satInc s.dig.foreign } })) ∧
    ((coreOf p == some g.val) = true →
      (r.cmpBusy = true → exec (.compare g p v) s = .next (accessOk p 0 s)) ∧
      (r.cmpBusy = false →
        (n = 0 ∨ 64 < n → exec (.compare g p v) s = .next (accessOk p 0 (modRegion g (fun r => { r with verdict := 0, cmpResult := eRange }) u))) ∧
        (n ≠ 0 → n ≤ 64 → bitAt v 7 = true → x.state ≠ .done ∨ x.owner ≠ g →
          exec (.compare g p v) s = .next (accessOk p 0 (modRegion g (fun r => { r with verdict := 0, cmpResult := eState }) u))) ∧
        (n ≠ 0 → n ≤ 64 → bitAt v 7 = true → x.state = .done → x.owner = g → x.result.length < n →
          exec (.compare g p v) s = .next (accessOk p 0 (modRegion g (fun r => { r with verdict := 0, cmpResult := eRange }) u))) ∧
        (∀ w, n ≠ 0 → n ≤ 64 →
          bitAt v 7 = true ∧ x.state = .done ∧ x.owner = g ∧ n ≤ x.result.length ∨ bitAt v 7 = false →
          w = modRegion g (fun q => { q with verdict := 0, cmpBusy := true, cmpOpA := if bitAt v 7 then x.result.take n else bufLoad 0 q.cmpA 0 n, cmpOpB := bufLoad 0 q.cmpB 0 n }) u →
          exec (.compare g p v) s = .next (accessOk p 0 { w with dig := { w.dig with cmpQ := w.dig.cmpQ ++ [g.val] } }))))) ∧
  (∀ (s : State) (g : Fin 4) (split : Bool) (r : DigCore) (u : State), s.ports.rstCold = false → r = s.digRegion g →
    (s.dig.cmpQ.head? ≠ some g.val → exec (.compareResult g split) s = .next s) ∧
    (s.dig.cmpQ.head? = some g.val →
      u = modRegion g (fun q => { q with
        cmpBusy := false, cmpOpA := [], cmpOpB := [], isMatch := r.cmpOpA == r.cmpOpB,
        isMatchN := if split then r.cmpOpA == r.cmpOpB else !(r.cmpOpA == r.cmpOpB), cmpResult := 0,
        verdict := if split = false ∧ r.cmpOpA = r.cmpOpB then 0x6C3A95E3#32 else 0x93C56A1C#32 }) s →
      (split = false → exec (.compareResult g split) s = .next { u with dig := { u.dig with cmpQ := u.dig.cmpQ.drop 1 } }) ∧
      (split = true → exec (.compareResult g split) s = .next
        (raise true kDigest 0 fCmpSplit 0 g { u with dig := { u.dig with cmpQ := u.dig.cmpQ.drop 1, splitRecent := true } })))))

/-- A sample runs the two health tests and, once the start-up test is over, enters the reservoir; the generator is instantiated from 1,536 samples or
reseeded; RESEED reseeds at once or as soon as samples for it are there; a core's request of 1 to 64 bytes is queued, refused while unseeded, and
served in its turn, as are the draws of the vault and of a context's export; nothing is sampled or instantiated once the tamper latch is set. A
command whose event cannot happen, and a write that another row owns, change nothing: the model's choice (log 3). Says where exec answers a next state
for: noiseSample, drbgInstantiate, reseed, drbgRequest, entDraw. (Rests on R278, R399 to R408, R411.) -/
def Obligations.NoiseSamplesFeedTheGeneratorAndItsRequests : Prop :=
  (∀ (s : State) (bit : Bool) (run count : Nat), s.ports.rstCold = false →
    (s.ports.pairDone = false ∨ s.tamper.latch = true ∨ s.ent.noise = .outOfService → exec (.noiseSample bit) s = .next s) ∧
    (s.ports.pairDone = true → s.tamper.latch = false → s.ent.noise ≠ .outOfService → run = (if s.ent.rctLast = some bit then s.ent.rctRun + 1 else 1) →
      count = (if s.ent.aptSeen = 0 then 0 else if s.ent.aptFirst = bit then s.ent.aptCount + 1 else s.ent.aptCount) →
      (26 ≤ run ∨ 666 ≤ count → exec (.noiseSample bit) s = .next (noiseFail (decide (26 ≤ run)) (decide (666 ≤ count)) s)) ∧
      (run < 26 → count < 666 → exec (.noiseSample bit) s = .next (drawContextKey { s with ent := Ent.settle { s.ent with
          rctLast := some bit
          rctRun := run
          aptFirst := if s.ent.aptSeen = 0 then bit else s.ent.aptFirst
          aptSeen := (s.ent.aptSeen + 1) % 1024
          aptCount := count
          startLeft := s.ent.startLeft - 1
          noise := if s.ent.startLeft ≤ 1 then .healthy else s.ent.noise
          reservoir := if s.ent.startLeft = 0 ∧ s.ent.reservoir.length < 2048 then s.ent.reservoir ++ [bit] else s.ent.reservoir } })))) ∧
  (∀ (s : State) (good : Bool) (d : Drbg), s.ports.rstCold = false →
    (s.ent.seeded = true ∨ s.ent.katFailed = true ∨ s.ent.noise ≠ .healthy ∨ s.tamper.latch = true → exec (.drbgInstantiate good) s = .next s) ∧
    (s.ent.seeded = false → s.ent.katFailed = false → s.ent.noise = .healthy → s.tamper.latch = false →
      (s.ent.drbgKey ≠ [] → s.ent.reservoir.length < 2048 → exec (.drbgInstantiate good) s = .next s) ∧
      (s.ent.drbgKey ≠ [] → 2048 ≤ s.ent.reservoir.length → exec (.drbgInstantiate good) s = .next { s with ent := s.ent.reseed }) ∧
      (s.ent.drbgKey = [] → s.ent.reservoir.length < 1536 → exec (.drbgInstantiate good) s = .next s) ∧
      (s.ent.drbgKey = [] → 1536 ≤ s.ent.reservoir.length → good = false → exec (.drbgInstantiate good) s =
        .next (raise false kEntropy 0 fDrbgKat 0 0 { s with ent := { s.ent with katFailed := true, katPass := false } })) ∧
      (s.ent.drbgKey = [] → 1536 ≤ s.ent.reservoir.length → good = true →
        d = drbgInit (Config.packSamples (s.ent.reservoir.take 1024) ++ Config.packSamples ((s.ent.reservoir.drop 1024).take 512) ++ ascii "KFL-DRBG" ++ vecBytes 4 s.att.bootCount) →
        exec (.drbgInstantiate good) s = .next (drawContextKey { s with ent := { s.ent with
          drbgKey := d.1, drbgV := d.2, reservoir := s.ent.reservoir.drop 1536, seeded := true, katPass := true, reqs := 0, reseeds := s.ent.reseeds + 1 } })))) ∧
  (∀ (s : State) (p : Path) (v : BitVec 32), Write s p (entPage + 0x20) →
    (bitAt v 0 = true → exec (.reseed p v) s = .next (accessOk p 0 { s with ent := Ent.settle { s.ent with reseedDue := true, reseedCtl := true } })) ∧
    (bitAt v 0 = false → exec (.reseed p v) s = .next (accessOk p 0 s))) ∧
  (∀ (s : State) (g : Fin 4) (p : Path) (v : BitVec 32) (n : Nat) (put : (Draw → Draw) → Ent → Ent), Write s p (entPage + 0x100 + 0x80 * g) → n = bitsOf v 6 0 →
    (put = fun f e => { e with draws := vmod e.draws g (fun x => f { x with len := BitVec.ofNat 7 n }) }) →
    (p ≠ .core g → exec (.entDraw g p v) s = .next (accessOk p 0 { s with dig := { s.dig with foreign := satInc s.dig.foreign } })) ∧
    (p = .core g →
      (bitAt v 31 = false → exec (.entDraw g p v) s = .next { s with ent := put id s.ent }) ∧
      (bitAt v 31 = true →
        ((s.ent.draws.get g).busy = true → exec (.entDraw g p v) s = .next s) ∧
        ((s.ent.draws.get g).busy = false →
          (n = 0 ∨ 64 < n → exec (.entDraw g p v) s = .next { s with ent := put (fun x => { x with valid := true, result := eRange }) s.ent }) ∧
          (n ≠ 0 → n ≤ 64 →
            (s.ent.seeded = false → exec (.entDraw g p v) s =
              .next { s with ent := put (fun x => { x with valid := true, result := 0x6A }) { s.ent with refused := satInc s.ent.refused } }) ∧
            (s.ent.seeded = true → exec (.entDraw g p v) s =
              .next { s with ent := (put (fun x => { x with busy := true, valid := false, out := List.replicate 16 0 })
                { s.ent with queue := s.ent.queue ++ [(.core g, n)] }) })))))) ∧
  (∀ (s : State), s.ports.rstCold = false →
    (s.ent.queue = [] → exec .drbgRequest s = .next s) ∧
    (∀ w n q, s.ent.queue = (w, n) :: q → s.ent.canServe = false → exec .drbgRequest s = .next s) ∧
    (∀ w n q u r, s.ent.queue = (w, n) :: q → s.ent.canServe = true → u = { s with ent := { (s.ent.draw n).2 with queue := q } } → r = (s.ent.draw n).1 →
      (w = .vault → s.vault.run = none → exec .drbgRequest s = .next u) ∧
      (∀ v, w = .vault → s.vault.run = some v → exec .drbgRequest s = .next (vaultDrawn v r u)) ∧
      (∀ c k, w = .blob c k → (u.ctx c).state = .opened → (u.ctx c).owner = k → exec .drbgRequest s = .next (ctxExported c k r u)) ∧
      (∀ c k, w = .blob c k → (u.ctx c).state ≠ .opened ∨ (u.ctx c).owner ≠ k → exec .drbgRequest s = .next u)) ∧
    (∀ c n q, s.ent.queue = (.core c, n) :: q →
      (s.ent.canServe = true →
        ((s.ent.draw n).1 = none → exec .drbgRequest s = .next { s with ent := { (s.ent.draw n).2 with
          queue := q, draws := vmod (s.ent.draw n).2.draws c (fun x => { x with busy := false, valid := true, result := 0x6A }) } }) ∧
        (∀ b, (s.ent.draw n).1 = some b → exec .drbgRequest s = .next { s with ent := { (s.ent.draw n).2 with
          queue := q, draws := vmod (s.ent.draw n).2.draws c (fun x => { x with
            busy := false, valid := true, result := 0x00, out := (List.range 16).map (fun i => bytesVec 32 (slice b (4 * i) 4)) }) } }))))

/-- A held tamper assertion of a pair runs the tamper sequence and the read-back then enters tamper-cleared with every release line holding its unit; the
fall of a guard's power fences its guards, and its return leaves them fenced; the fall of a core's power stops service; a power limit gives the shares
in force, and at its last stage the tenants' lines, of every guard. A command whose event cannot happen, and a write that another row owns, change
nothing: the model's choice (log 3). Says where exec answers a next state for: tamperAssertion, tamperZeroizeDone, guardPowerFall, guardPowerGood,
corePowerFall, powerLimit. (Rests on R44, R45, R47, R49, R112, R300 to R305, R307, R309, R655, R657, R663 to R665.) -/
def Obligations.TamperAndPowerEventsFenceTheirGuards : Prop :=
  ∀ (s : State), s.ports.rstCold = false →
    (∀ (d : Fin 4) held, (d = 1 ∨ d = 3 → exec (.tamperAssertion d held) s = .next s) ∧
      (∀ u, d = 0 ∧ u = { s with tamper := { s.tamper with pairDie0 := true } } ∨ d = 2 ∧ u = { s with tamper := { s.tamper with pairDie2 := true } } →
        (held = false → s.tamper.cleared = false → exec (.tamperAssertion d held) s = .next { s with tamper := { s.tamper with glitches := satInc s.tamper.glitches } }) ∧
        (held = false → s.tamper.cleared = true → exec (.tamperAssertion d held) s = .next s) ∧
        (held = true → s.tamper.latch = false → exec (.tamperAssertion d held) s = .next (tamperSequence u)) ∧
        (held = true → s.tamper.latch = true → exec (.tamperAssertion d held) s = .next u))) ∧
    (∀ failed, (s.tamper.latch = false ∨ s.tamper.cleared = true → exec (.tamperZeroizeDone failed) s = .next s) ∧
      (s.tamper.latch = true → s.tamper.cleared = false →
        (failed = true → exec (.tamperZeroizeDone failed) s = .next { s with tamper := { s.tamper with retry := true } }) ∧
        (failed = false → exec (.tamperZeroizeDone failed) s = .next { s with
          tamper := { s.tamper with cleared := true, done := true },
          brup := { s.brup with lines := s.brup.lines.map (fun l => { up := l.up }), package := none } }))) ∧
    (∀ (d : Fin 4), ((s.dies.get d).guardGood = false → exec (.guardPowerFall d) s = .next s) ∧
      ((s.dies.get d).guardGood = true → ∀ u, u = (if guardSafe s d then s else fenceAll true (guardsOf d) s) →
        exec (.guardPowerFall d) s = .next (settle (((dropLatches (0x800000 + d * 0xA0000) (0x8A0000 + d * 0xA0000) (forEach (guardsOf d) dropWaits u)).modDie d
          (fun x => { x with guardGood := false, keyReqQ := [] })).modGuards (fun g x => if g / 10 = d then
            { freshGuard ((dropLatches (0x800000 + d * 0xA0000) (0x8A0000 + d * 0xA0000) (forEach (guardsOf d) dropWaits u)).modDie d
                (fun x => { x with guardGood := false, keyReqQ := [] })) g with
              service := x.service, fenced := true, safetyFence := x.safetyFence, inReset := true
              page := { (freshGuard ((dropLatches (0x800000 + d * 0xA0000) (0x8A0000 + d * 0xA0000) (forEach (guardsOf d) dropWaits u)).modDie d
                (fun x => { x with guardGood := false, keyReqQ := [] })) g).page with powerPct := x.page.powerPct, powerLines := x.page.powerLines } } else x)))) ∧
      ((s.dies.get d).guardGood = true → exec (.guardPowerGood d) s = .next s) ∧
      ((s.dies.get d).guardGood = false → exec (.guardPowerGood d) s = .next
        ((s.modDie d (fun x => { x with guardGood := true })).modGuards (fun g x => if g / 10 = d then { x with inReset := false } else x))) ∧
      (∀ v w, v = s.modDie d (fun x => { x with coreGood := false }) →
        w = settle (fenceAll true (allGuards.filter (fun g => (v.dieN (g / 10)).guardGood)) { v with ports := { v.ports with broken := true } }) →
        (d.val ≠ w.activeDie → d ≠ 2 → exec (.corePowerFall d) s = .next w) ∧
        (d.val ≠ w.activeDie → d = 2 → exec (.corePowerFall d) s = .next { w with sby := {} }) ∧
        (∀ x, d.val = w.activeDie → x = freshCore (endWork w) → exec (.corePowerFall d) s = .next { x with boot := { x.boot with cores := Vector.replicate 4 .reset } }))) ∧
    (∀ stage, exec (.powerLimit stage) s = .next ((s.modGuards (fun _ y => { y.noteThrottle with page := { y.noteThrottle.page with
      powerPct := if stage = 0 then none else some (s.free % 100), powerLines := if stage = 3 then some s.used.free else none }.shareNow })).used.used))

/-- POP and CLEAR_OVF act on the fault queue; a core restarts its own watchdog; a lockstep mismatch or an expired watchdog stops the core and its failure
is dealt with; a ready standby outside a HOLD asserts mir_takeover on a loss or on mir_fail, and then takes over. A command whose event cannot happen,
and a write that another row owns, change nothing: the model's choice (log 3). Says where exec answers a next state for: lockstep, watchdog, foWdog,
fqPop, clearOvf, activeCoreLost, mirFail, mirTakeover. (Rests on R37, R589, R592, R593, R595 to R597, R613 to R616, R619, R620, R648.) -/
def Obligations.CoreFailuresResetOrHandOverTheCore : Prop :=
  (∀ (s : State) (p : Path) (v : BitVec 32), Write s p (fqPage + 0x24) →
    (bitAt v 0 = true → bitAt v 1 = false → exec (.fqPop p v) s = .next (accessOk p 0 { s with fq := s.fq.pop })) ∧
    (bitAt v 0 = true → bitAt v 1 = true → exec (.fqPop p v) s = .next (accessOk p 0 { s with fq := { s.fq.pop with overflow := false, ovf := [] } })) ∧
    (bitAt v 0 = false → bitAt v 1 = true → exec (.clearOvf p v) s = .next (accessOk p 0 { s with fq := { s.fq with overflow := false, ovf := [] } }))) ∧
  (∀ (s : State) (p : Path) (v : BitVec 32), Write s p (foPage + 0x24) →
    (isCore p = false → exec (.foWdog p v) s = .next (accessOk p 0 s)) ∧
    (∀ c, p = .core c →
      (bitAt s.boot.wdogArmed c = true → exec (.foWdog p v) s = .next { s with boot := { s.boot with wdogDue := vmod s.boot.wdogDue c (fun _ => s.timer + 10000) } }) ∧
      (bitAt s.boot.wdogArmed c = false → exec (.foWdog p v) s = .next s))) ∧
  (∀ (s : State), s.ports.rstCold = false →
    (∀ (c : Fin 4),
      ((s.boot.cores.get c).runs = false → exec (.lockstep false c) s = .next s) ∧
      ((s.boot.cores.get c).runs = true → exec (.lockstep false c) s = .next (coreFails fLockstep c s)) ∧
      ((s.boot.cores.get c).runs = false ∨ bitAt s.boot.wdogArmed c = false → exec (.watchdog false c) s = .next s) ∧
      ((s.boot.cores.get c).runs = true → bitAt s.boot.wdogArmed c = true → ∀ u v, u = reachTime (s.boot.wdogDue.get c) s →
        v = { u with mir := { u.mir with wdogRecent := true }, boot := { u.boot with wdogExpired := setBit u.boot.wdogExpired c true } } →
        exec (.watchdog false c) s = .next (coreFails fWatchdog c v)) ∧
      (s.sby.alive = false ∨ s.mir.site = true → exec (.lockstep true c) s = .next s ∧ exec (.watchdog true c) s = .next s) ∧
      (s.sby.alive = true → s.mir.site = false →
        exec (.lockstep true c) s = .next (standbyReset (standbyFault true kCore c fLockstep 8 (bitNat 0 (c.val == standbyBootCore s)) s)) ∧
        exec (.watchdog true c) s = .next (standbyReset (standbyFault true kCore c fWatchdog 8 (bitNat 0 (c.val == standbyBootCore s)) s)))) ∧
    (∀ (code : Nat) (c : Fin 4) (t u : State), t = digCoreReset c (pkCoreReset c { s with boot := { s.boot with
        cores := vmod s.boot.cores c (fun _ => .failed), wdogArmed := setBit s.boot.wdogArmed c false } }) →
      (c.val ≠ s.boot.bootCore → ksUp t = true → coreFails code c s = raise true kCore c code 8 0 t) ∧
      (c.val = s.boot.bootCore ∨ ksUp t = false → ∀ b, b = (if c.val = s.boot.bootCore then 1 else 0) →
        (t.mir.ready = true → t.mir.site = false → u = raise true kCore c code 0x18 b t → coreFails code c s = { u with mir := { u.mir with mirFail := true } }) ∧
        (t.mir.ready = false ∨ t.mir.site = true → coreFails code c s = coreReset (raise true kCore c code 8 b t)))) ∧
    (∀ (u : State), u = reachTime (s.sby.lastBeat + 2000) s →
      (s.sby.alive = false ∨ s.sby.session = false ∨ s.sby.holdUntil.isSome = true ∨ s.mir.site = true → exec .activeCoreLost s = .next s) ∧
      (s.sby.alive = true → s.sby.session = true → s.sby.holdUntil = none → s.mir.site = false →
        (u.sby.isReady = true → u.sby.holdUntil = none → exec .activeCoreLost s = .next { u with mir := { u.mir with mirTakeover := true } }) ∧
        (u.sby.isReady = false → exec .activeCoreLost s = .next u))) ∧
    (s.mir.mirFail = false ∨ s.sby.alive = false ∨ s.mir.site = true ∨ s.sby.isReady = false ∨ s.sby.holdUntil.isSome = true → exec .mirFail s = .next s) ∧
    (s.mir.mirFail = true → s.sby.alive = true → s.mir.site = false → s.sby.isReady = true → s.sby.holdUntil = none →
      exec .mirFail s = .next { s with mir := { s.mir with mirTakeover := true } }) ∧
    (s.mir.mirTakeover = false ∨ s.mir.site = true ∨ s.sby.alive = false → exec .mirTakeover s = .next s) ∧
    (s.mir.mirTakeover = true → s.mir.site = false → s.sby.alive = true → exec .mirTakeover s = .next (takeover s)))

/-- The next frame on its way to the standby is taken by the command that names its type: it leaves the queue; a standby that is stopped ignores it, one
whose bytes are not those sealed under the standby's key, or that has no session, raises MIRROR_AUTH, and otherwise its content enters the copy and an
acknowledged type is acknowledged. HELLO opens the session under the standby's own slot 7. Says where exec answers a next state for: mirrorHello,
mirrorHeartbeat, store, modelFrame, readers, counters, image, hold. (Rests on R421, R468, R601, R605, R606, R608 to R611, R613, R614.) -/
def Obligations.FramesReachTheStandbysCopy : Prop :=
  ∀ (s t : State) (n : Nat) (b : FrameBody) (fs : List Frame), s.ports.rstCold = false → s.mir.site = false → s.mir.toStandby = { seq := n, body := b } :: fs →
    t = { s with mir := { s.mir with toStandby := fs } } →
    (∀ (c : Bytes → Instr) (acked : Bool) (f : Standby → Standby),
      (∃ x y z w, b = .heartbeat x y z w ∧ c = .mirrorHeartbeat ∧ acked = false ∧ f = fun y => { y with lastBeat := s.timer }) ∨
      (∃ r d, b = .store (some r) d ∧ c = .store ∧ acked = true ∧ f = fun y => { y with doms := domInsert (mirrored r) y.doms }) ∨
      (∃ d, b = .store none d ∧ c = .store ∧ acked = true ∧ f = fun y => { y with doms := y.doms.filter (fun r => r.id != d) }) ∨
      (∃ r m, b = .model (some r) m ∧ c = .modelFrame ∧ acked = true ∧ f = fun y => { y with models := modelInsert r y.models }) ∨
      (∃ m, b = .model none m ∧ c = .modelFrame ∧ acked = true ∧ f = fun y => { y with models := y.models.filter (fun r => r.model != m) }) ∨
      (∃ m ws, b = .readers m ws ∧ c = .readers ∧ acked = true ∧
        f = fun y => { y with readers := ws.foldl (fun t w => alPut 0 t w.1 w.2) (readerClear m y.readers) }) ∨
      (∃ x q, b = .counters x q ∧ c = .counters ∧ acked = true ∧ f = fun y => { y with bootCount := x, quoteSeq := q }) ∨
      (∃ o part, b = .image o part ∧ c = .image ∧ acked = true ∧ f = fun y => { y with
        image := padTo o y.image ++ part ++ y.image.drop (o + part.length),
        imageDone := imageWhole (padTo o y.image ++ part ++ y.image.drop (o + part.length)) }) ∨
      (∃ d, b = .hold d ∧ c = .hold ∧ acked = true ∧ f = fun y => { y with holdUntil := some (s.timer + d) }) →
      ∀ wire,
        (s.sby.alive = false → exec (c wire) s = .next t) ∧
        (s.sby.alive = true → wire ≠ Frame.wire 0 s.sby.key { seq := n, body := b } ∨ s.sby.session = false → exec (c wire) s = .next (standbyFault false kMirror 0 fMirrorAuth 0 n t)) ∧
        (s.sby.alive = true → wire = Frame.wire 0 s.sby.key { seq := n, body := b } → s.sby.session = true →
          (acked = false → exec (c wire) s = .next { t with sby := f s.sby }) ∧
          (acked = true → exec (c wire) s = .next { t with
            mir := { t.mir with toActive := t.mir.toActive ++ [{ seq := s.sby.txSeq, body := .ack n }] }, sby := { f s.sby with txSeq := s.sby.txSeq + 1 } }))) ∧
    (∀ w own, b = .hello w → own = kmac256 (deviceSecret s) [] 32 (ascii "KFL-MIRROR-KEY") →
      (keyUnwrap own w = none → exec .mirrorHello s = .next t) ∧
      (∀ k, keyUnwrap own w = some k →
        (s.sby.alive = false ∨ k.drop 32 ≠ s.sby.nonce → exec .mirrorHello s = .next t) ∧
        (s.sby.alive = true → k.drop 32 = s.sby.nonce → exec .mirrorHello s = .next { t with sby := { s.sby with
          session := true, key := k.take 32, txSeq := 1, doms := [], models := [], readers := [], bootCount := 0, quoteSeq := 0, image := [],
          imageDone := false, copyDone := false, holdUntil := none, lastBeat := s.timer } })))

/-- The active core sends a HEARTBEAT each interval; a STATUS outside a session begins one and in a session brings readiness and faults; an ACK lets the
change of its frame take effect; either is discarded when its bytes are not those sent; the frame whose 20 µs end first without acknowledgement is
sent once more and then the standby counts as lost, as it does 2 ms after the last STATUS; a second later a new session begins; a HOLD ends. A command
whose event cannot happen, and a write that another row owns, change nothing: the model's choice (log 3). Says where exec answers a next state for:
heartbeatInterval, holdExpiry, status, mirrorAck, mirrorAckTimeout, standbyLost, mirrorResync. (Rests on R421, R601, R605, R606, R610 to R614, R620.) -/
def Obligations.TheActiveCoreServesItsMirrorSession : Prop :=
  ∀ (s : State), s.ports.rstCold = false →
    (s.mir.session = false ∨ s.mir.site = true ∨ ksUp s = false → exec .heartbeatInterval s = .next s) ∧
    (∀ u, s.mir.session = true → s.mir.site = false → ksUp s = true → u = reachTime (s.mir.beatAt + 1000) s → exec .heartbeatInterval s = .next { u with mir := { u.mir with
      txSeq := u.mir.txSeq + 1, beatAt := u.timer, missed := if u.mir.statusSeen then u.mir.missed else satInc u.mir.missed, statusSeen := false,
      toStandby := u.mir.toStandby ++ [{ seq := u.mir.txSeq, body := .heartbeat (BitVec.ofNat 64 u.timer) u.att.quoteSeq u.att.bootCount (u.head.seq - 1) }] } }) ∧
    (s.sby.holdUntil = none → exec .holdExpiry s = .next s) ∧
    (∀ t u, s.sby.holdUntil = some t → u = reachTime t s → exec .holdExpiry s =
      .next { u with sby := { u.sby with holdUntil := none, lastBeat := u.timer }, mir := { u.mir with hold := false } }) ∧
    (∀ wire, s.sby.alive = false ∨ s.mir.site = true ∨ ksUp s = false → exec (.status wire) s = .next s) ∧
    (∀ wire, s.sby.alive = true → s.mir.site = false → ksUp s = true →
      (s.mir.session = false ∨ s.sby.session = false →
        (s.mir.lostAt.isSome = true → exec (.status wire) s = .next s) ∧ (s.mir.lostAt = none → exec (.status wire) s = .next (beginSession s))) ∧
      (s.mir.session = true → s.sby.session = true →
        (wire ≠ frameWire 1 s.mir.key 0x81 s.sby.txSeq (statusBytes s.sby) → exec (.status wire) s = .next (mirrorAuth s.sby.txSeq { s with sby := { s.sby with txSeq := s.sby.txSeq + 1 } })) ∧
        (wire = frameWire 1 s.mir.key 0x81 s.sby.txSeq (statusBytes s.sby) → ∀ u v w, u = { s with sby := { s.sby with txSeq := s.sby.txSeq + 1, faults := s.sby.faults.drop 8 } } →
          v = (if s.tamper.cleared then u else forEach (s.sby.faults.take 8) (fun f => State.modFq (FaultQ.push f)) u) →
          w = { v with mir := { v.mir with ready := v.sby.isReady, stale := v.sby.shadowStale, statusSeen := true, lastStatus := v.timer } } →
          (w.sby.shadowStale = true → w.ks.held.contains 2 = false → (w.dieN 2).inReset = false → exec (.status wire) s = .next (startSync 2 w)) ∧
          (w.sby.shadowStale = false ∨ w.ks.held.contains 2 = true ∨ (w.dieN 2).inReset = true → exec (.status wire) s = .next w)))) ∧
    (∀ wire seq n fs u, s.mir.toActive = { seq := seq, body := .ack n } :: fs → u = { s with mir := { s.mir with toActive := fs } } →
      (s.mir.site = true ∨ s.mir.session = false → exec (.mirrorAck wire) s = .next u) ∧
      (s.mir.site = false → s.mir.session = true →
        (wire ≠ Frame.wire 1 s.mir.key { seq := seq, body := .ack n } → exec (.mirrorAck wire) s = .next (mirrorAuth seq u)) ∧
        (wire = Frame.wire 1 s.mir.key { seq := seq, body := .ack n } → ∀ v, v = forEach (s.mir.unacked.filter (fun x => x.frame.seq == n)) releaseFrame
            (mirPump { u with mir := { u.mir with unacked := s.mir.unacked.filter (fun x => x.frame.seq != n) } }) →
          (v.mir.unacked = [] → v.mir.backlog = [] → v.sby.session = true →
            exec (.mirrorAck wire) s = .next (settle { v with sby := { v.sby with copyDone := true } })) ∧
          (v.mir.unacked ≠ [] ∨ v.mir.backlog ≠ [] ∨ v.sby.session = false → exec (.mirrorAck wire) s = .next (settle v))))) ∧
    (s.mir.unacked = [] ∨ s.mir.site = true → exec .mirrorAckTimeout s = .next s) ∧
    (∀ x xs w u, s.mir.unacked = x :: xs → s.mir.site = false → w = firstDue x xs → u = reachTime (w.sentAt + 20) s →
      (w.resent = true → exec .mirrorAckTimeout s = .next (loseStandby 2 u)) ∧
      (w.resent = false → exec .mirrorAckTimeout s = .next { u with mir := { u.mir with
        unacked := u.mir.unacked.map (fun x => if x.frame.seq = w.frame.seq then { x with resent := true, sentAt := u.timer } else x),
        toStandby := u.mir.toStandby ++ [w.frame] } })) ∧
    (s.mir.session = false ∨ s.mir.site = true → exec .standbyLost s = .next s) ∧
    (s.mir.session = true → s.mir.site = false → exec .standbyLost s = .next (loseStandby 1 (reachTime (s.mir.lastStatus + 2000) s))) ∧
    (s.mir.lostAt = none ∨ s.mir.site = true → exec .mirrorResync s = .next s) ∧
    (∀ t u v, s.mir.lostAt = some t → s.mir.site = false → u = reachTime (t + 1000000) s →
      v = raise false kMirror 0 fStandbyLost 0 4 { u with mir := { u.mir with lostAt := none } } →
      (v.sby.alive = true → ksUp v = true → exec .mirrorResync s = .next (beginSession v)) ∧
      (v.sby.alive = false ∨ ksUp v = false → exec .mirrorResync s = .next v))

/-- A read over a path answers with the word that the path may read; a LO word latches its HI word for that path, a word of ENT_DRAW_OUT is wiped when its
core reads it, and a refused read of a job page is counted; without a target the access ends with an error and with an unclocked one it times out and
its fault is queued. TELEMETRY_READ returns words of permitted pages over the boot core's path. A command whose event cannot happen, and a write that
another row owns, change nothing: the model's choice (log 3). Says where exec answers a next state for: telemetryRead, drawOutRead, loWordRead,
ctlTimeout. (Rests on R307, R317, R408, R411, R461, R462, R602, R626, R671, R672, R679.) -/
def Obligations.RegisterReadsAnswerTheirPath : Prop :=
  (∀ (s : State) (p : Path) (addr : BitVec 24), Access s p addr.toNat → pageAt addr.toNat ≠ some .mower →
    (∀ k i, drawOutAt addr.toNat = some (k, i) → exec (.loWordRead p addr) s = .next s ∧
      (p = .core (Fin.ofNat 4 k) → k < 4 → exec (.drawOutRead p addr) s = .next (accessOk p (ctlRead s p addr.toNat)
        { (readLatch p addr.toNat s) with ent := { (readLatch p addr.toNat s).ent with
          draws := vmod (readLatch p addr.toNat s).ent.draws k (fun x => { x with out := x.out.set i 0 }) } }))) ∧
    (drawOutAt addr.toNat = none → exec (.drawOutRead p addr) s = .next s ∧
      (∀ t, t = (if 0x31000 ≤ addr.toNat ∧ addr.toNat < 0x49000 ∧ ownsSlot ((addr.toNat - 0x31000) / 0x3000) p = false then
          { s with pk := { s.pk with foreign := satInc s.pk.foreign } } else s) →
        (pageAt addr.toNat = none → exec (.loWordRead p addr) s = .next (accessOk p (ctlRead s p addr.toNat) t)) ∧
        (∀ pg, pageAt addr.toNat = some pg →
          (ownerReads t p pg (addr.toNat % 0x1000) = false ∨ wide t pg (addr.toNat % 0x1000) = none →
            exec (.loWordRead p addr) s = .next (accessOk p (ctlRead s p addr.toNat) t)) ∧
          (∀ v, ownerReads t p pg (addr.toNat % 0x1000) = true → wide t pg (addr.toNat % 0x1000) = some v →
            exec (.loWordRead p addr) s = .next (accessOk p (ctlRead s p addr.toNat) { t with ports := { t.ports with
              latches := t.ports.latches.filter (fun l => !(l.1 == pathKey p && l.2.1.toNat == addr.toNat)) ++
                [(pathKey p, BitVec.ofNat 24 addr.toNat, v.extractLsb' 32 32)] } })))))) ∧
  (∀ (s : State) (d : Fin 4) (cls : BitVec 2) (addr : BitVec 24) (p : Path), p = .port d cls → s.ports.rstCold = false → reaches s p addr.toNat = false →
    (drawOutAt addr.toNat = none → exec (.loWordRead p addr) s = .next { s with ports := { s.ports with ctlErr := true, ctlRdata := 0, ctlErrRecent := true } }) ∧
    (drawOutAt addr.toNat ≠ none → exec (.drawOutRead p addr) s = .next { s with ports := { s.ports with ctlErr := true, ctlRdata := 0, ctlErrRecent := true } })) ∧
  (∀ (s : State) (p : Path) (addr : BitVec 24) (w : Bool), s.ports.rstCold = false →
    (reaches s p addr.toNat = false ∨ clocked s addr.toNat = true → exec (.ctlTimeout p addr w) s = .next s) ∧
    (∀ t, reaches s p addr.toNat = true → clocked s addr.toNat = false → t = accessError p (raise false kControl 0 fCtlTimeout 0 addr.toNat (reachTime (s.timer + 10) s)) →
      exec (.ctlTimeout p addr w) s = .next { t with ports := { t.ports with ctlErrRecent := true } })) ∧
  (∀ (s : State) (sess : Nat) (tag : BitVec 32) (body : Bytes) (x : Session) (w : Waiter) (u : State) (addr n : Nat), Asks s (operMsg 0x0109) sess x → body.length = 8 →
    w = asker (operMsg 0x0109) sess tag → u = asked sess s → addr = fieldLe body 0 4 → n = fieldLe body 4 2 →
    (fieldLe body 6 2 ≠ 0 → exec (.telemetryRead sess tag body) s = .next (refuse w eReserved u)) ∧
    (fieldLe body 6 2 = 0 →
      (n = 0 ∨ 64 < n ∨ addr % 4 ≠ 0 ∨ (∃ i, i < n ∧ telemetryMay (addr + 4 * i) = false) → exec (.telemetryRead sess tag body) s = .next (refuse w eRange u)) ∧
      (n ≠ 0 → n ≤ 64 → addr % 4 = 0 → (∀ i, i < n → telemetryMay (addr + 4 * i) = true) → exec (.telemetryRead sess tag body) s =
        .next (reply { w with body := (telemetryWords (Fin.ofNat 4 s.boot.bootCore) addr n u).1 } eOk (telemetryWords (Fin.ofNat 4 s.boot.bootCore) addr n u).2))))

/-- A write over a path goes by its address: the window of a job slot, the operand pages of the vault, a mailbox buffer, the mask words of a page's
header, or a register, which has the effect of its row; an address that nothing is assigned to ignores it. A command whose event cannot happen, and a
write that another row owns, change nothing: the model's choice (log 3). Says where exec answers a next state for: registerWrite. (Rests on R14, R310,
R317, R367, R629, R666, R669 to R674, R681, R682, R684.) -/
def Obligations.RegisterWritesGoToTheirAddress : Prop :=
  (∀ (s : State) (p : Path) (addr : BitVec 24) (v : BitVec 32), addr.toNat % 4 = 0 →
    (∀ n o, windowAt addr.toNat = some (n, o) → Write s p addr.toNat →
      (ownsSlot n p = false → exec (.registerWrite p addr v) s = .next (accessOk p 0 { s with pk := { s.pk with foreign := satInc s.pk.foreign } })) ∧
      (ownsSlot n p = true → s.pk.busy n = true → exec (.registerWrite p addr v) s = .next (accessOk p 0 { s with pk := { s.pk with dropped := satInc s.pk.dropped } })) ∧
      (ownsSlot n p = true → s.pk.busy n = false → exec (.registerWrite p addr v) s =
        .next (accessOk p 0 (modSlot n (fun x => { x with window := bufStore 0 x.window o (vecBytes 4 v) }) s)))) ∧
    (windowAt addr.toNat = none →
      (∀ o, operandAt addr.toNat = some o → Write s p addr.toNat → exec (.registerWrite p addr v) s = .next (accessOk p 0 { s with vault := { s.vault with
        opnd := bufStore 0 s.vault.opnd o (vecBytes 4 v), shown := bufStore 0 s.vault.shown o (zeros 4) } })) ∧
      (operandAt addr.toNat = none →
        (∀ op inb o, bufferAt addr.toNat = some (op, inb, o) → Access s p addr.toNat →
          (op = true → nodeManagement p = false → exec (.registerWrite p addr v) s = .next (accessOk p 0 s)) ∧
          (op = false ∨ nodeManagement p = true →
            (inb = true → (s.mbx op).inPost = true → exec (.registerWrite p addr v) s = .next (accessOk p 0 (modBox op (fun m => { m with inDropped := satInc m.inDropped }) s))) ∧
            (inb = true → (s.mbx op).inPost = false → exec (.registerWrite p addr v) s =
              .next (accessOk p 0 (modBox op (fun m => { m with inBuf := bufStore 0 m.inBuf o (vecBytes 4 v) }) s))) ∧
            (inb = false → exec (.registerWrite p addr v) s = .next (accessOk p 0 (modBox op (fun m => { m with outBuf := bufStore 0 m.outBuf o (vecBytes 4 v) }) s))))) ∧
        (bufferAt addr.toNat = none →
          (pageAt addr.toNat = none → Access s p addr.toNat → exec (.registerWrite p addr v) s = .next (accessOk p 0 s)) ∧
          (∀ pg, pageAt addr.toNat = some pg → Write s p addr.toNat → (addr.toNat % 0x1000 = 0x08 ∨ addr.toNat % 0x1000 = 0x14) →
            pg ∈ [.identity, .fuse, .bringUp, .faultQ, .vault, .pkControl, .digControl, .entropy, .ingest, .mower, .attestation, .mailbox false] ∨
              (∃ d k, pg = .die d k) ∨ (∃ g k, pg = .guard g k) →
            exec (.registerWrite p addr v) s = .next (accessOk p 0 (modHdr (headerPut (addr.toNat % 0x1000) v) s pg))))))) ∧
  (∀ (s : State) (k : Fin 4) (addr : BitVec 24) (v : BitVec 32), addr.toNat % 4 ≠ 0 → exec (.registerWrite (.core k) addr v) s = .next s) ∧
  (∀ (s : State) (p : Path) (v : BitVec 32) (a : BitVec 24) (t : State), Write s p a.toNat →
    (a, t) ∈ [(0x20024#24, { s with vault := { s.vault with arg := v } }), (0x20028, { s with vault := { s.vault with len := v.extractLsb' 0 9 } }),
      (0x11024, { s with fuse := { s.fuse with data := putLow s.fuse.data v } }), (0x11028, { s with fuse := { s.fuse with data := putHigh s.fuse.data v } }),
      (0x11030, { s with fuse := { s.fuse with readSel := v.extractLsb' 0 9 } }), (0x1302C, { s with fq := { s.fq with ovfSel := v.extractLsb' 0 21 } })] →
    exec (.registerWrite p a v) s = .next (accessOk p 0 t)) ∧
  (∀ (s : State) (p : Path) (v : BitVec 32),
    (∀ (a : BitVec 24) (c : Instr), (a, c) ∈ [(0x10030#24, Instr.bootRelease p v), (0x10038, .bootHandover p v), (0x1105C, .tmxCtl p v), (0x1205C, .fpSample p v),
      (0x14024, .foWdog p v), (0x59020, .reseed p v), (0x59100, .entDraw 0 p v), (0x59180, .entDraw 1 p v), (0x59200, .entDraw 2 p v), (0x59280, .entDraw 3 p v),
      (0x6003C, .ingestAbort p v), (0x6103C, .mowerAbort p v)] → exec (.registerWrite p a v) s = exec c s) ∧
    (∀ (g : Fin 40) (o : Nat) (c : Instr), (o, c) ∈ [(0x20, Instr.fence g p v), (0x24, .guardThrottle g p v), (0x28, .guardLaneShare g p v), (0x70, .guardErrClear g p v),
      (0x102C, .guardTagfailClear g p v), (0x3028, .kcQuery g p v), (0x4034, .guardMissClear g p v)] →
      exec (.registerWrite p (BitVec.ofNat 24 (guardAddr g o)) v) s = exec c s))

/-- POST hands a packet of 5 to 1,028 bytes over and it is taken, and assembled into its message, while something runs that takes packets; TAKEN frees the
outbound buffer for the next packet; a DMA response ends or feeds the work that its identifier names; the time after the latest event of an indication
passes. A command whose event cannot happen, and a write that another row owns, change nothing: the model's choice (log 3). Says where exec answers a
next state for: dmaResponse, mailboxPost, taken, recentWindowExpiry. (Rests on R602, R604, R629 to R633, R683 to R685.) -/
def Obligations.MailboxesAndTheDmaPortExchangeTheirData : Prop :=
  (∀ (s u : State) (op : Bool) (p : Path) (v : BitVec 32) (n : Nat), bitAt v 31 = true → n = bitsOf v 10 0 → Access s p (boxPage op + 0x20) →
    u = modBox op (fun m => { m with inLen := BitVec.ofNat 11 n }) s →
    (op = true → nodeManagement p = false → exec (.mailboxPost op p v) s = .next (accessOk p 0 s)) ∧
    (op = false ∨ nodeManagement p = true →
      ((s.mbx op).inPost = true → exec (.mailboxPost op p v) s = .next (accessOk p 0 (modBox op (fun m => { m with inDropped := satInc m.inDropped }) s))) ∧
      ((s.mbx op).inPost = false →
        (n < 5 ∨ 1028 < n → exec (.mailboxPost op p v) s = .next (accessOk p 0 (modBox op (fun m => { m with inDropped := satInc m.inDropped }) u))) ∧
        (5 ≤ n → n ≤ 1028 → ∀ t, t = modBox op (fun m => { m with inPost := true }) u →
          (attUp t = false → exec (.mailboxPost op p v) s = .next (accessOk p 0 t)) ∧
          (attUp t = true → exec (.mailboxPost op p v) s =
            .next (accessOk p 0 (modBox op (fun m => arrivePacket (bufLoad 0 m.inBuf 0 m.inLen.toNat)
              { m with inPost := false, taken := bufLoad 0 m.inBuf 0 m.inLen.toNat :: m.taken }) t))))))) ∧
  (∀ (s : State) (op : Bool) (p : Path) (v : BitVec 32), bitAt v 0 = true → Access s p (boxPage op + 0x28) →
    (op = true → nodeManagement p = false → exec (.taken op p v) s = .next (accessOk p 0 s)) ∧
    (op = false ∨ nodeManagement p = true →
      ((s.mbx op).outReady = false → exec (.taken op p v) s = .next (accessOk p 0 s)) ∧
      ((s.mbx op).outReady = true → exec (.taken op p v) s = .next (accessOk p 0 (modBox op (fun m => pumpBox { m with outReady := false }) s))))) ∧
  (∀ (s : State) (id : BitVec 6) (err : Bool) (data : BitVec 512), s.ports.rstCold = false →
    (s.dma.flight.find? (fun f => f.1 == id) = none → exec (.dmaResponse id err data) s = .next s) ∧
    (∀ j n k write u, s.dma.flight.find? (fun f => f.1 == id) = some (j, n, k, write) →
      u = { s with dma := { s.dma with flight := s.dma.flight.filter (fun f => f.1 != id) } } →
      (s.dma.work n = none → exec (.dmaResponse id err data) s = .next (dmaPump u)) ∧
      (∀ w a l, s.dma.work n = some (w, a, l) →
        (err = true → exec (.dmaResponse id err data) s = .next (settle (dmaPump (dmaFailed n w u)))) ∧
        (err = false → write = true → exec (.dmaResponse id err data) s = .next (settle (dmaPump (dmaArrived n w u)))) ∧
        (err = false → write = false → exec (.dmaResponse id err data) s =
          .next (settle (dmaPump (dmaArrived n w { u with dma := { u.dma with lines := u.dma.lines ++ [(n, k, data)] } }))))))) ∧
  (∀ (s : State), s.ports.rstCold = false →
    (∀ pg b, pageAt (BitVec.toNat (w := 12) pg * 0x1000) = none → exec (.recentWindowExpiry pg b) s = .next s) ∧
    (∀ (pg : BitVec 12) (b : BitVec 4) (t : State), (pg, b, t) ∈ [(0#12, 7#4, { s with ports := { s.ports with ctlErrRecent := false } }),
      (0x11, 2, { s with fuse := { s.fuse with recheckRecent := false } }), (0x12, 3, { s with brup := { s.brup with fpRecent := false } }),
      (0x14, 1, { s with mir := { s.mir with mirrorRecent := false } }), (0x14, 2, { s with mir := { s.mir with wdogRecent := false } }),
      (0x20, 1, { s with vault := { s.vault with eccRecent := false } }), (0x30, 2, { s with pk := { s.pk with compareRecent := false } }),
      (0x50, 0, { s with dig := { s.dig with splitRecent := false } }), (0x59, 0, { s with ent := { s.ent with healthRecent := false } }),
      (0x60, 0, { s with ingest := { s.ingest with authRecent := false } }), (0x60, 9, { s with ingest := { s.ingest with shareLimited := false } }),
      (0x61, 1, { s with mower := { s.mower with mismatchRecent := false } }), (0x61, 9, { s with mower := { s.mower with shareLimited := false } })] →
      exec (.recentWindowExpiry pg b) s = .next t) ∧
    (∀ (d : Fin 4), exec (.recentWindowExpiry (BitVec.ofNat 12 (0x400 + 16 * d)) 0) s = .next (s.modDie d (fun x => { x with crcRecent := false })) ∧
      exec (.recentWindowExpiry (BitVec.ofNat 12 (0x400 + 16 * d)) 1) s = .next (s.modDie d (fun x => { x with seqRecent := false }))) ∧
    (∀ (g : Fin 40), exec (.recentWindowExpiry (BitVec.ofNat 12 (0x800 + 16 * g)) 9) s = .next (s.modGuard g (fun x => { x with page := { x.page with throttledRecent := false } })) ∧
      exec (.recentWindowExpiry (BitVec.ofNat 12 (0x803 + 16 * g)) 0) s = .next (s.modGuard g (fun x => { x with cache := { x.cache with bindRecent := false } })) ∧
      exec (.recentWindowExpiry (BitVec.ofNat 12 (0x803 + 16 * g)) 9) s = .next (s.modGuard g (fun x => { x with cache := { x.cache with noVictimRecent := false } }))))

/-- R112. A write of GUARD_LANE_SHARE that reaches its register stores each of its four fields as written where it is at most 100, and as 100 where it is
above. Says where exec answers a next state for: guardLaneShare. -/
def Obligations.LaneSharesAreStoredCappedAtOneHundred : Prop :=
  ∀ (s : State) (g : Fin 40) (p : Path) (v : BitVec 32), Write s p (guardAddr g 0x28) →
    ∃ t, exec (.guardLaneShare g p v) s = .next (accessOk p 0 t) ∧ Only [.guards] s t ∧
      (∀ h, h ≠ g → t.guards.get h = s.guards.get h) ∧
      ∀ i < 4, bitsOf (t.guards.get g).page.share (8 * i + 7) (8 * i) = if 100 < bitsOf v (8 * i + 7) (8 * i) then 100 else bitsOf v (8 * i + 7) (8 * i)

/-- R305. After a tamper assertion, a read-back check that fails (`failed`, log 7) marks the repetition and leaves tmp_zeroize_done as it was, still to be
run again; the check that passes raises tmp_zeroize_done, and only then. Says where exec answers a next state for: tamperZeroizeDone. -/
def Obligations.ZeroizationRepeatsUntilItsCheckPasses : Prop :=
  ∀ (s : State) (failed : Bool), s.ports.rstCold = false → s.tamper.latch = true → s.tamper.cleared = false → s.tamper.done = false →
    ∃ t, exec (.tamperZeroizeDone failed) s = .next t ∧ (t.tamper.done = true ↔ failed = false) ∧
      (failed = true → t.tamper.retry = true ∧ t.tamper.latch = true ∧ t.tamper.cleared = false ∧
        ∃ u, exec (.tamperZeroizeDone false) t = .next u ∧ u.tamper.done = true)

/-- R397. At the end of the compare in front, whether or not its trees disagree (`split`, log 7): where MATCH then equals MATCH_N, the verdict is the
mismatch pattern and a safety-class fault is queued; where they differ no fault is. Says where exec answers a next state for: compareResult. -/
def Obligations.EqualCompareHalvesReadAsMismatchAndRaiseAFault : Prop :=
  ∀ (s : State) (g : Fin 4) (split : Bool), s.ports.rstCold = false → s.dig.cmpQ.head? = some g.val →
    ∃ t, exec (.compareResult g split) s = .next t ∧ Only [.dig, .fq] s t ∧
      ((t.dig.regions.get g).isMatch = (t.dig.regions.get g).isMatchN →
        (t.dig.regions.get g).verdict = 0x93C56A1C ∧ t.fq = (raise true kDigest 0 fCmpSplit 0 g s).fq) ∧
      ((t.dig.regions.get g).isMatch ≠ (t.dig.regions.get g).isMatchN → t.fq = s.fq)

/-- R211. When the 60 s of a held bundle key pass with no ingest job started, no bundle key of the model domain is left and the domain is again
AWAITING_KEY. Says where exec answers a next state for: bundleKeyLapse. -/
def Obligations.LapsedBundleKeysAreWiped : Prop :=
  ∀ (s : State) (m : BitVec 13), s.ports.rstCold = false → custody s m.toNat = .keyHeld →
    ∃ t, exec (.bundleKeyLapse m) s = .next t ∧ (∀ b ∈ t.vault.bundles, b.model ≠ m.toNat) ∧ custody t m.toNat = .awaitingKey ∧
      ∀ b ∈ s.vault.bundles, b.model ≠ m.toNat → b ∈ t.vault.bundles

/-- R653. While the words of one push are out no other push starts; an answer with an error and none within 1 ms are one case: the LINK_KEY is refused
with E_BUSY, its seed and every key derived from it are gone, and none of its directions is pushed any more. Says where exec answers a next state for:
lkAck, lkAckTimeout. -/
def Obligations.ABadOrLateLinkAnswerEndsItsMessage : Prop :=
  (∀ s : State, s.ports.lkWords ≠ [] → pumpLinks s = s) ∧
  ∀ (s : State) (v : BitVec 32) (vs : List (BitVec 32)) (m : LkMsg) (ms : List LkMsg), s.ports.rstCold = false → s.ports.lkWords = v :: vs → s.ports.lk = m :: ms →
    ∀ i t, (i, t) ∈ [(Instr.lkAck true, s), (.lkAckTimeout, reachTime (s.ports.lkAt + 1000) s)] →
      ∃ u, Only [.ports] t u ∧ u.ports.lk = ms ∧ (ms = [] → u.ports.lkWords = []) ∧
        (∀ n ns, ms = n :: ns → u.ports.lkWords = (n.dirs.head?.map (pushWords n)).getD []) ∧ exec i s = .next (refuse m.waiter eBusy u)
end

