-- ==== Sys2Proof/Laws/Buffers.lean ====
section
/-!
SUPPORT. Sparse buffers: a byte written reads back, every other byte is as before, and each operation keeps the canonical form.
-/

namespace Sys2Proof.Machine
open Sys2Proof

/-- A canonical buffer: no byte equals the byte that an unlisted address reads as, and every address listed is beyond those before it. -/
theorem bufWf_cons (d : Byte) (c : Host.Cell) (m : List Host.Cell) :
    bufWf d (c :: m) = true ↔ c.2 ≠ d ∧ (∀ e ∈ m, c.1 < e.1) ∧ bufWf d m = true := by
  induction m generalizing c with
  | nil => simp [bufWf]
  | cons e m ih =>
    obtain ⟨a, b⟩ := c
    obtain ⟨a', b'⟩ := e
    have := ih (a', b')
    simp only [bufWf, Bool.and_eq_true, bne_iff_ne, decide_eq_true_eq, List.mem_cons, forall_eq_or_imp]
    constructor
    · rintro ⟨⟨h1, h2⟩, h3⟩
      exact ⟨h1, ⟨h2, fun e he => Nat.lt_trans h2 ((this.mp h3).2.1 e he)⟩, h3⟩
    · rintro ⟨h1, ⟨h2, _⟩, h3⟩
      exact ⟨⟨h1, h2⟩, h3⟩

theorem bufRead_lt (d : Byte) (m : List Host.Cell) (x : Nat) (h : ∀ e ∈ m, x < e.1) : bufRead d m x = d := by
  induction m with
  | nil => rfl
  | cons e m ih =>
    have := h e (by simp)
    simp only [bufRead]
    rw [if_neg (by omega), ih (fun e he => h e (by simp [he]))]

/-- A byte written reads back, and every other address reads as before. -/
theorem bufRead_bufWrite (d v : Byte) (m : List Host.Cell) (x y : Nat) (h : bufWf d m = true) :
    bufRead d (bufWrite d m x v) y = if y = x then v else bufRead d m y := by
  induction m with
  | nil =>
    simp only [bufWrite]
    split
    · rename_i hv
      by_cases hy : y = x
      · rw [if_pos hy, hv]; rfl
      · rw [if_neg hy]
    · simp only [bufRead]
      by_cases hy : y = x
      · rw [if_pos hy, if_pos hy.symm]
      · rw [if_neg hy, if_neg (fun e => hy e.symm)]
  | cons c m ih =>
    obtain ⟨a, b⟩ := c
    obtain ⟨h1, h2, h3⟩ := (bufWf_cons d (a, b) m).mp h
    simp only [bufWrite]
    split
    · rename_i hx
      split
      · rename_i hv
        by_cases hy : y = x
        · rw [if_pos hy, hy, hv]
          exact bufRead_lt d _ x (by simpa using ⟨hx, fun p q hp => Nat.lt_trans hx (h2 (p, q) hp)⟩)
        · rw [if_neg hy]
      · by_cases hy : y = x
        · rw [if_pos hy, bufRead, if_pos hy.symm]
        · rw [if_neg hy, bufRead, if_neg (fun e => hy e.symm)]
    · split
      · rename_i hx
        split
        · rename_i hv
          by_cases hy : y = x
          · rw [if_pos hy, hy, hv]
            exact bufRead_lt d m x (fun e he => by rw [hx]; exact h2 e he)
          · rw [if_neg hy]; simp only [bufRead]; rw [if_neg (by omega)]
        · by_cases hy : y = x
          · simp [bufRead, hy]
          · simp only [bufRead]; rw [if_neg (fun e => hy e.symm), if_neg hy, if_neg (by omega)]
      · simp only [bufRead]
        rw [ih h3]
        by_cases hy : y = x
        · rw [if_pos hy, if_pos hy, if_neg (by omega)]
        · rw [if_neg hy, if_neg hy]

theorem bufWrite_mem (d v : Byte) (m : List Host.Cell) (x : Nat) (e : Host.Cell) (he : e ∈ bufWrite d m x v) : e.1 = x ∨ e ∈ m := by
  induction m with
  | nil =>
    simp only [bufWrite] at he
    split at he
    · simp at he
    · simp at he; exact .inl (by rw [he])
  | cons c m ih =>
    obtain ⟨a, b⟩ := c
    simp only [bufWrite] at he
    repeat' split at he
    · exact .inr he
    · rcases List.mem_cons.mp he with rfl | he
      · exact .inl rfl
      · exact .inr he
    · exact .inr (List.mem_cons_of_mem _ he)
    · rcases List.mem_cons.mp he with rfl | he
      · exact .inl rfl
      · exact .inr (List.mem_cons_of_mem _ he)
    · rcases List.mem_cons.mp he with rfl | he
      · exact .inr (by simp)
      · rcases ih he with h | h
        · exact .inl h
        · exact .inr (List.mem_cons_of_mem _ h)

/-- A byte written keeps the canonical form. -/
theorem bufWrite_wf (d v : Byte) (m : List Host.Cell) (x : Nat) (h : bufWf d m = true) : bufWf d (bufWrite d m x v) = true := by
  induction m with
  | nil =>
    simp only [bufWrite]
    split
    · rfl
    · rename_i hv; simp [bufWf, hv]
  | cons c m ih =>
    obtain ⟨a, b⟩ := c
    obtain ⟨h1, h2, h3⟩ := (bufWf_cons d (a, b) m).mp h
    simp only [bufWrite]
    repeat' split
    · exact h
    · rename_i hx hv
      refine (bufWf_cons _ _ _).mpr ⟨hv, fun e he => ?_, h⟩
      rcases List.mem_cons.mp he with rfl | he
      · exact hx
      · exact Nat.lt_trans hx (h2 e he)
    · exact h3
    · rename_i hx hv
      exact (bufWf_cons _ _ _).mpr ⟨hv, fun e he => by rw [hx]; exact h2 e he, h3⟩
    · rename_i hx hn
      refine (bufWf_cons _ _ _).mpr ⟨h1, fun e he => ?_, ih h3⟩
      rcases bufWrite_mem d v m x e he with h | h
      · rw [h]; show a < x; omega
      · exact h2 e h

/-- A string of bytes written keeps the canonical form. -/
theorem bufStore_wf (d : Byte) (bs : Bytes) (m : List Host.Cell) (x : Nat) (h : bufWf d m = true) : bufWf d (bufStore d m x bs) = true := by
  induction bs generalizing m x with
  | nil => exact h
  | cons b bs ih => exact ih _ _ (bufWrite_wf d b m x h)

/-- A string of bytes written reads back, and every other address reads as before. -/
theorem bufRead_bufStore (d : Byte) (bs : Bytes) (m : List Host.Cell) (x y : Nat) (h : bufWf d m = true) :
    bufRead d (bufStore d m x bs) y = if x ≤ y ∧ y < x + bs.length then bs.getD (y - x) d else bufRead d m y := by
  induction bs generalizing m x with
  | nil => rw [if_neg (by simp)]; rfl
  | cons b bs ih =>
    show bufRead d (bufStore d (bufWrite d m x b) (x + 1) bs) y = _
    rw [ih _ _ (bufWrite_wf d b m x h), bufRead_bufWrite d b m x y h]
    simp only [List.length_cons]
    by_cases h1 : y = x
    · subst h1
      rw [if_neg (by omega), if_pos rfl, if_pos (by omega)]; simp
    · by_cases h2 : x ≤ y ∧ y < x + (bs.length + 1)
      · rw [if_pos (by omega), if_pos h2, show y - x = (y - (x + 1)) + 1 from by omega]; rfl
      · rw [if_neg (by omega), if_neg h1, if_neg h2]

/-- Cells removed from a canonical buffer leave one. -/
theorem bufFilter_wf (d : Byte) (p : Host.Cell → Bool) (m : List Host.Cell) (h : bufWf d m = true) : bufWf d (m.filter p) = true := by
  induction m with
  | nil => rfl
  | cons c m ih =>
    obtain ⟨h1, h2, h3⟩ := (bufWf_cons d c m).mp h
    rw [List.filter_cons]
    split
    · exact (bufWf_cons _ _ _).mpr ⟨h1, fun e he => h2 e (List.mem_of_mem_filter he), ih h3⟩
    · exact ih h3

end Sys2Proof.Machine
end

