-- ==== Sys2Proof/Laws/FuseWords.lean ====
section
/-!
SUPPORT. The fuse array as a list of words: what a change of one word leaves in each.
-/

namespace Sys2Proof.Machine
open Sys2Proof

theorem wordPut_find_put (x : FuseWord) (a : List FuseWord) (w : Nat) :
    (wordPut.put x a).find? (fun y => y.word == w) = if w = x.word then some x else a.find? (fun y => y.word == w) := by
  induction a with
  | nil =>
    by_cases h : w = x.word
    · simp [wordPut.put, h]
    · have : ¬ x.word = w := fun e => h e.symm
      simp [wordPut.put, h, this]
  | cons y ys ih =>
    unfold wordPut.put
    by_cases h : w = x.word
    · subst h
      split
      · simp
      · split
        · simp
        · rename_i h1 h2
          have : ¬ y.word = x.word := fun e => h2 e.symm
          have hb : (y.word == x.word) = false := by simpa using this
          rw [List.find?_cons, hb, ih]; simp
    · have hx : (x.word == w) = false := by simpa using fun e => h e.symm
      split
      · simp [List.find?_cons, hx]
      · split
        · rename_i h1 h2
          have hy : (y.word == w) = false := by rw [← h2]; exact hx
          simp [hx, hy]
        · rw [List.find?_cons, List.find?_cons, ih, if_neg h]

theorem wordPut_find (x : FuseWord) (a : List FuseWord) (w : Nat) :
    ((wordPut x a).find? (fun y => y.word == w)).getD { word := w } =
      if w = x.word then x else (a.find? (fun y => y.word == w)).getD { word := w } := by
  unfold wordPut
  split
  · rename_i h
    by_cases hw : w = x.word
    · have : (a.filter (fun y => y.word != x.word)).find? (fun y => y.word == w) = none := by
        rw [List.find?_eq_none]
        intro y hy
        simp only [List.mem_filter, bne_iff_ne, ne_eq] at hy
        simp [hw, hy.2]
      rw [this, if_pos hw]
      cases x; simp_all
    · rw [if_neg hw]
      congr 1
      induction a with
      | nil => rfl
      | cons y ys ih =>
        by_cases hy : y.word = w
        · have : (y.word != x.word) = true := by simpa [hy] using hw
          rw [List.filter_cons, if_pos this, List.find?_cons, List.find?_cons]
          simp [hy]
        · by_cases hz : (y.word != x.word) = true
          · simp [hz, hy, ih]
          · simp [hz, hy, ih]
  · rw [wordPut_find_put]
    split <;> rfl

theorem fuseWord_word (s : State) (w : Nat) : (s.fuseWord w).word = w := by
  unfold State.fuseWord wordIn
  cases h : s.fuse.array.find? (fun x => x.word == w) with
  | none => rfl
  | some x => simpa using List.find?_some h

/-- R511: a burn sets bits of one word and leaves every other word. -/
theorem fuseWord_burn (w : Nat) (norm tight : BitVec 72) (s : State) (v : Nat) : (burn w norm tight s).fuseWord v =
    if v = w then { word := w, norm := (s.fuseWord w).norm ||| norm, tight := (s.fuseWord w).tight ||| tight } else s.fuseWord v := by
  show ((wordPut _ s.fuse.array).find? _).getD _ = _
  rw [wordPut_find]
  dsimp only
  rw [fuseWord_word]
  rfl

theorem fuseWord_array {s t : State} (h : t.fuse.array = s.fuse.array) (w : Nat) : t.fuseWord w = s.fuseWord w := by
  unfold State.fuseWord; rw [h]

end Sys2Proof.Machine
end

