-- ==== Sys2Proof/Laws/State.lean ====
section
/-!
SUPPORT. What each update of a unit leaves in each field of State: the changed field is the function of the old one, every other field is as it was.
-/

namespace Sys2Proof.Machine

@[simp] theorem State.modTimer_pending (f) (s : State) : (s.modTimer f).pending = s.pending := rfl
@[simp] theorem State.modTimer_timer (f) (s : State) : (s.modTimer f).timer = f s.timer := rfl
@[simp] theorem State.modTimer_freeCtr (f) (s : State) : (s.modTimer f).freeCtr = s.freeCtr := rfl
@[simp] theorem State.modTimer_guards (f) (s : State) : (s.modTimer f).guards = s.guards := rfl
@[simp] theorem State.modTimer_dies (f) (s : State) : (s.modTimer f).dies = s.dies := rfl
@[simp] theorem State.modTimer_head (f) (s : State) : (s.modTimer f).head = s.head := rfl
@[simp] theorem State.modTimer_ks (f) (s : State) : (s.modTimer f).ks = s.ks := rfl
@[simp] theorem State.modTimer_vault (f) (s : State) : (s.modTimer f).vault = s.vault := rfl
@[simp] theorem State.modTimer_tamper (f) (s : State) : (s.modTimer f).tamper = s.tamper := rfl
@[simp] theorem State.modTimer_pk (f) (s : State) : (s.modTimer f).pk = s.pk := rfl
@[simp] theorem State.modTimer_dig (f) (s : State) : (s.modTimer f).dig = s.dig := rfl
@[simp] theorem State.modTimer_ent (f) (s : State) : (s.modTimer f).ent = s.ent := rfl
@[simp] theorem State.modTimer_ingest (f) (s : State) : (s.modTimer f).ingest = s.ingest := rfl
@[simp] theorem State.modTimer_mower (f) (s : State) : (s.modTimer f).mower = s.mower := rfl
@[simp] theorem State.modTimer_att (f) (s : State) : (s.modTimer f).att = s.att := rfl
@[simp] theorem State.modTimer_tenantBox (f) (s : State) : (s.modTimer f).tenantBox = s.tenantBox := rfl
@[simp] theorem State.modTimer_operBox (f) (s : State) : (s.modTimer f).operBox = s.operBox := rfl
@[simp] theorem State.modTimer_boot (f) (s : State) : (s.modTimer f).boot = s.boot := rfl
@[simp] theorem State.modTimer_flash (f) (s : State) : (s.modTimer f).flash = s.flash := rfl
@[simp] theorem State.modTimer_fuse (f) (s : State) : (s.modTimer f).fuse = s.fuse := rfl
@[simp] theorem State.modTimer_brup (f) (s : State) : (s.modTimer f).brup = s.brup := rfl
@[simp] theorem State.modTimer_fq (f) (s : State) : (s.modTimer f).fq = s.fq := rfl
@[simp] theorem State.modTimer_mir (f) (s : State) : (s.modTimer f).mir = s.mir := rfl
@[simp] theorem State.modTimer_sby (f) (s : State) : (s.modTimer f).sby = s.sby := rfl
@[simp] theorem State.modTimer_dma (f) (s : State) : (s.modTimer f).dma = s.dma := rfl
@[simp] theorem State.modTimer_ports (f) (s : State) : (s.modTimer f).ports = s.ports := rfl
@[simp] theorem State.modTimer_tagWindow (f) (s : State) : (s.modTimer f).tagWindow = s.tagWindow := rfl
@[simp] theorem State.modFreeCtr_pending (f) (s : State) : (s.modFreeCtr f).pending = s.pending := rfl
@[simp] theorem State.modFreeCtr_timer (f) (s : State) : (s.modFreeCtr f).timer = s.timer := rfl
@[simp] theorem State.modFreeCtr_freeCtr (f) (s : State) : (s.modFreeCtr f).freeCtr = f s.freeCtr := rfl
@[simp] theorem State.modFreeCtr_guards (f) (s : State) : (s.modFreeCtr f).guards = s.guards := rfl
@[simp] theorem State.modFreeCtr_dies (f) (s : State) : (s.modFreeCtr f).dies = s.dies := rfl
@[simp] theorem State.modFreeCtr_head (f) (s : State) : (s.modFreeCtr f).head = s.head := rfl
@[simp] theorem State.modFreeCtr_ks (f) (s : State) : (s.modFreeCtr f).ks = s.ks := rfl
@[simp] theorem State.modFreeCtr_vault (f) (s : State) : (s.modFreeCtr f).vault = s.vault := rfl
@[simp] theorem State.modFreeCtr_tamper (f) (s : State) : (s.modFreeCtr f).tamper = s.tamper := rfl
@[simp] theorem State.modFreeCtr_pk (f) (s : State) : (s.modFreeCtr f).pk = s.pk := rfl
@[simp] theorem State.modFreeCtr_dig (f) (s : State) : (s.modFreeCtr f).dig = s.dig := rfl
@[simp] theorem State.modFreeCtr_ent (f) (s : State) : (s.modFreeCtr f).ent = s.ent := rfl
@[simp] theorem State.modFreeCtr_ingest (f) (s : State) : (s.modFreeCtr f).ingest = s.ingest := rfl
@[simp] theorem State.modFreeCtr_mower (f) (s : State) : (s.modFreeCtr f).mower = s.mower := rfl
@[simp] theorem State.modFreeCtr_att (f) (s : State) : (s.modFreeCtr f).att = s.att := rfl
@[simp] theorem State.modFreeCtr_tenantBox (f) (s : State) : (s.modFreeCtr f).tenantBox = s.tenantBox := rfl
@[simp] theorem State.modFreeCtr_operBox (f) (s : State) : (s.modFreeCtr f).operBox = s.operBox := rfl
@[simp] theorem State.modFreeCtr_boot (f) (s : State) : (s.modFreeCtr f).boot = s.boot := rfl
@[simp] theorem State.modFreeCtr_flash (f) (s : State) : (s.modFreeCtr f).flash = s.flash := rfl
@[simp] theorem State.modFreeCtr_fuse (f) (s : State) : (s.modFreeCtr f).fuse = s.fuse := rfl
@[simp] theorem State.modFreeCtr_brup (f) (s : State) : (s.modFreeCtr f).brup = s.brup := rfl
@[simp] theorem State.modFreeCtr_fq (f) (s : State) : (s.modFreeCtr f).fq = s.fq := rfl
@[simp] theorem State.modFreeCtr_mir (f) (s : State) : (s.modFreeCtr f).mir = s.mir := rfl
@[simp] theorem State.modFreeCtr_sby (f) (s : State) : (s.modFreeCtr f).sby = s.sby := rfl
@[simp] theorem State.modFreeCtr_dma (f) (s : State) : (s.modFreeCtr f).dma = s.dma := rfl
@[simp] theorem State.modFreeCtr_ports (f) (s : State) : (s.modFreeCtr f).ports = s.ports := rfl
@[simp] theorem State.modFreeCtr_tagWindow (f) (s : State) : (s.modFreeCtr f).tagWindow = s.tagWindow := rfl
@[simp] theorem State.modHead_pending (f) (s : State) : (s.modHead f).pending = s.pending := rfl
@[simp] theorem State.modHead_timer (f) (s : State) : (s.modHead f).timer = s.timer := rfl
@[simp] theorem State.modHead_freeCtr (f) (s : State) : (s.modHead f).freeCtr = s.freeCtr := rfl
@[simp] theorem State.modHead_guards (f) (s : State) : (s.modHead f).guards = s.guards := rfl
@[simp] theorem State.modHead_dies (f) (s : State) : (s.modHead f).dies = s.dies := rfl
@[simp] theorem State.modHead_head (f) (s : State) : (s.modHead f).head = f s.head := rfl
@[simp] theorem State.modHead_ks (f) (s : State) : (s.modHead f).ks = s.ks := rfl
@[simp] theorem State.modHead_vault (f) (s : State) : (s.modHead f).vault = s.vault := rfl
@[simp] theorem State.modHead_tamper (f) (s : State) : (s.modHead f).tamper = s.tamper := rfl
@[simp] theorem State.modHead_pk (f) (s : State) : (s.modHead f).pk = s.pk := rfl
@[simp] theorem State.modHead_dig (f) (s : State) : (s.modHead f).dig = s.dig := rfl
@[simp] theorem State.modHead_ent (f) (s : State) : (s.modHead f).ent = s.ent := rfl
@[simp] theorem State.modHead_ingest (f) (s : State) : (s.modHead f).ingest = s.ingest := rfl
@[simp] theorem State.modHead_mower (f) (s : State) : (s.modHead f).mower = s.mower := rfl
@[simp] theorem State.modHead_att (f) (s : State) : (s.modHead f).att = s.att := rfl
@[simp] theorem State.modHead_tenantBox (f) (s : State) : (s.modHead f).tenantBox = s.tenantBox := rfl
@[simp] theorem State.modHead_operBox (f) (s : State) : (s.modHead f).operBox = s.operBox := rfl
@[simp] theorem State.modHead_boot (f) (s : State) : (s.modHead f).boot = s.boot := rfl
@[simp] theorem State.modHead_flash (f) (s : State) : (s.modHead f).flash = s.flash := rfl
@[simp] theorem State.modHead_fuse (f) (s : State) : (s.modHead f).fuse = s.fuse := rfl
@[simp] theorem State.modHead_brup (f) (s : State) : (s.modHead f).brup = s.brup := rfl
@[simp] theorem State.modHead_fq (f) (s : State) : (s.modHead f).fq = s.fq := rfl
@[simp] theorem State.modHead_mir (f) (s : State) : (s.modHead f).mir = s.mir := rfl
@[simp] theorem State.modHead_sby (f) (s : State) : (s.modHead f).sby = s.sby := rfl
@[simp] theorem State.modHead_dma (f) (s : State) : (s.modHead f).dma = s.dma := rfl
@[simp] theorem State.modHead_ports (f) (s : State) : (s.modHead f).ports = s.ports := rfl
@[simp] theorem State.modHead_tagWindow (f) (s : State) : (s.modHead f).tagWindow = s.tagWindow := rfl
@[simp] theorem State.modKs_pending (f) (s : State) : (s.modKs f).pending = s.pending := rfl
@[simp] theorem State.modKs_timer (f) (s : State) : (s.modKs f).timer = s.timer := rfl
@[simp] theorem State.modKs_freeCtr (f) (s : State) : (s.modKs f).freeCtr = s.freeCtr := rfl
@[simp] theorem State.modKs_guards (f) (s : State) : (s.modKs f).guards = s.guards := rfl
@[simp] theorem State.modKs_dies (f) (s : State) : (s.modKs f).dies = s.dies := rfl
@[simp] theorem State.modKs_head (f) (s : State) : (s.modKs f).head = s.head := rfl
@[simp] theorem State.modKs_ks (f) (s : State) : (s.modKs f).ks = f s.ks := rfl
@[simp] theorem State.modKs_vault (f) (s : State) : (s.modKs f).vault = s.vault := rfl
@[simp] theorem State.modKs_tamper (f) (s : State) : (s.modKs f).tamper = s.tamper := rfl
@[simp] theorem State.modKs_pk (f) (s : State) : (s.modKs f).pk = s.pk := rfl
@[simp] theorem State.modKs_dig (f) (s : State) : (s.modKs f).dig = s.dig := rfl
@[simp] theorem State.modKs_ent (f) (s : State) : (s.modKs f).ent = s.ent := rfl
@[simp] theorem State.modKs_ingest (f) (s : State) : (s.modKs f).ingest = s.ingest := rfl
@[simp] theorem State.modKs_mower (f) (s : State) : (s.modKs f).mower = s.mower := rfl
@[simp] theorem State.modKs_att (f) (s : State) : (s.modKs f).att = s.att := rfl
@[simp] theorem State.modKs_tenantBox (f) (s : State) : (s.modKs f).tenantBox = s.tenantBox := rfl
@[simp] theorem State.modKs_operBox (f) (s : State) : (s.modKs f).operBox = s.operBox := rfl
@[simp] theorem State.modKs_boot (f) (s : State) : (s.modKs f).boot = s.boot := rfl
@[simp] theorem State.modKs_flash (f) (s : State) : (s.modKs f).flash = s.flash := rfl
@[simp] theorem State.modKs_fuse (f) (s : State) : (s.modKs f).fuse = s.fuse := rfl
@[simp] theorem State.modKs_brup (f) (s : State) : (s.modKs f).brup = s.brup := rfl
@[simp] theorem State.modKs_fq (f) (s : State) : (s.modKs f).fq = s.fq := rfl
@[simp] theorem State.modKs_mir (f) (s : State) : (s.modKs f).mir = s.mir := rfl
@[simp] theorem State.modKs_sby (f) (s : State) : (s.modKs f).sby = s.sby := rfl
@[simp] theorem State.modKs_dma (f) (s : State) : (s.modKs f).dma = s.dma := rfl
@[simp] theorem State.modKs_ports (f) (s : State) : (s.modKs f).ports = s.ports := rfl
@[simp] theorem State.modKs_tagWindow (f) (s : State) : (s.modKs f).tagWindow = s.tagWindow := rfl
@[simp] theorem State.modVault_pending (f) (s : State) : (s.modVault f).pending = s.pending := rfl
@[simp] theorem State.modVault_timer (f) (s : State) : (s.modVault f).timer = s.timer := rfl
@[simp] theorem State.modVault_freeCtr (f) (s : State) : (s.modVault f).freeCtr = s.freeCtr := rfl
@[simp] theorem State.modVault_guards (f) (s : State) : (s.modVault f).guards = s.guards := rfl
@[simp] theorem State.modVault_dies (f) (s : State) : (s.modVault f).dies = s.dies := rfl
@[simp] theorem State.modVault_head (f) (s : State) : (s.modVault f).head = s.head := rfl
@[simp] theorem State.modVault_ks (f) (s : State) : (s.modVault f).ks = s.ks := rfl
@[simp] theorem State.modVault_vault (f) (s : State) : (s.modVault f).vault = f s.vault := rfl
@[simp] theorem State.modVault_tamper (f) (s : State) : (s.modVault f).tamper = s.tamper := rfl
@[simp] theorem State.modVault_pk (f) (s : State) : (s.modVault f).pk = s.pk := rfl
@[simp] theorem State.modVault_dig (f) (s : State) : (s.modVault f).dig = s.dig := rfl
@[simp] theorem State.modVault_ent (f) (s : State) : (s.modVault f).ent = s.ent := rfl
@[simp] theorem State.modVault_ingest (f) (s : State) : (s.modVault f).ingest = s.ingest := rfl
@[simp] theorem State.modVault_mower (f) (s : State) : (s.modVault f).mower = s.mower := rfl
@[simp] theorem State.modVault_att (f) (s : State) : (s.modVault f).att = s.att := rfl
@[simp] theorem State.modVault_tenantBox (f) (s : State) : (s.modVault f).tenantBox = s.tenantBox := rfl
@[simp] theorem State.modVault_operBox (f) (s : State) : (s.modVault f).operBox = s.operBox := rfl
@[simp] theorem State.modVault_boot (f) (s : State) : (s.modVault f).boot = s.boot := rfl
@[simp] theorem State.modVault_flash (f) (s : State) : (s.modVault f).flash = s.flash := rfl
@[simp] theorem State.modVault_fuse (f) (s : State) : (s.modVault f).fuse = s.fuse := rfl
@[simp] theorem State.modVault_brup (f) (s : State) : (s.modVault f).brup = s.brup := rfl
@[simp] theorem State.modVault_fq (f) (s : State) : (s.modVault f).fq = s.fq := rfl
@[simp] theorem State.modVault_mir (f) (s : State) : (s.modVault f).mir = s.mir := rfl
@[simp] theorem State.modVault_sby (f) (s : State) : (s.modVault f).sby = s.sby := rfl
@[simp] theorem State.modVault_dma (f) (s : State) : (s.modVault f).dma = s.dma := rfl
@[simp] theorem State.modVault_ports (f) (s : State) : (s.modVault f).ports = s.ports := rfl
@[simp] theorem State.modVault_tagWindow (f) (s : State) : (s.modVault f).tagWindow = s.tagWindow := rfl
@[simp] theorem State.modTamper_pending (f) (s : State) : (s.modTamper f).pending = s.pending := rfl
@[simp] theorem State.modTamper_timer (f) (s : State) : (s.modTamper f).timer = s.timer := rfl
@[simp] theorem State.modTamper_freeCtr (f) (s : State) : (s.modTamper f).freeCtr = s.freeCtr := rfl
@[simp] theorem State.modTamper_guards (f) (s : State) : (s.modTamper f).guards = s.guards := rfl
@[simp] theorem State.modTamper_dies (f) (s : State) : (s.modTamper f).dies = s.dies := rfl
@[simp] theorem State.modTamper_head (f) (s : State) : (s.modTamper f).head = s.head := rfl
@[simp] theorem State.modTamper_ks (f) (s : State) : (s.modTamper f).ks = s.ks := rfl
@[simp] theorem State.modTamper_vault (f) (s : State) : (s.modTamper f).vault = s.vault := rfl
@[simp] theorem State.modTamper_tamper (f) (s : State) : (s.modTamper f).tamper = f s.tamper := rfl
@[simp] theorem State.modTamper_pk (f) (s : State) : (s.modTamper f).pk = s.pk := rfl
@[simp] theorem State.modTamper_dig (f) (s : State) : (s.modTamper f).dig = s.dig := rfl
@[simp] theorem State.modTamper_ent (f) (s : State) : (s.modTamper f).ent = s.ent := rfl
@[simp] theorem State.modTamper_ingest (f) (s : State) : (s.modTamper f).ingest = s.ingest := rfl
@[simp] theorem State.modTamper_mower (f) (s : State) : (s.modTamper f).mower = s.mower := rfl
@[simp] theorem State.modTamper_att (f) (s : State) : (s.modTamper f).att = s.att := rfl
@[simp] theorem State.modTamper_tenantBox (f) (s : State) : (s.modTamper f).tenantBox = s.tenantBox := rfl
@[simp] theorem State.modTamper_operBox (f) (s : State) : (s.modTamper f).operBox = s.operBox := rfl
@[simp] theorem State.modTamper_boot (f) (s : State) : (s.modTamper f).boot = s.boot := rfl
@[simp] theorem State.modTamper_flash (f) (s : State) : (s.modTamper f).flash = s.flash := rfl
@[simp] theorem State.modTamper_fuse (f) (s : State) : (s.modTamper f).fuse = s.fuse := rfl
@[simp] theorem State.modTamper_brup (f) (s : State) : (s.modTamper f).brup = s.brup := rfl
@[simp] theorem State.modTamper_fq (f) (s : State) : (s.modTamper f).fq = s.fq := rfl
@[simp] theorem State.modTamper_mir (f) (s : State) : (s.modTamper f).mir = s.mir := rfl
@[simp] theorem State.modTamper_sby (f) (s : State) : (s.modTamper f).sby = s.sby := rfl
@[simp] theorem State.modTamper_dma (f) (s : State) : (s.modTamper f).dma = s.dma := rfl
@[simp] theorem State.modTamper_ports (f) (s : State) : (s.modTamper f).ports = s.ports := rfl
@[simp] theorem State.modTamper_tagWindow (f) (s : State) : (s.modTamper f).tagWindow = s.tagWindow := rfl
@[simp] theorem State.modPk_pending (f) (s : State) : (s.modPk f).pending = s.pending := rfl
@[simp] theorem State.modPk_timer (f) (s : State) : (s.modPk f).timer = s.timer := rfl
@[simp] theorem State.modPk_freeCtr (f) (s : State) : (s.modPk f).freeCtr = s.freeCtr := rfl
@[simp] theorem State.modPk_guards (f) (s : State) : (s.modPk f).guards = s.guards := rfl
@[simp] theorem State.modPk_dies (f) (s : State) : (s.modPk f).dies = s.dies := rfl
@[simp] theorem State.modPk_head (f) (s : State) : (s.modPk f).head = s.head := rfl
@[simp] theorem State.modPk_ks (f) (s : State) : (s.modPk f).ks = s.ks := rfl
@[simp] theorem State.modPk_vault (f) (s : State) : (s.modPk f).vault = s.vault := rfl
@[simp] theorem State.modPk_tamper (f) (s : State) : (s.modPk f).tamper = s.tamper := rfl
@[simp] theorem State.modPk_pk (f) (s : State) : (s.modPk f).pk = f s.pk := rfl
@[simp] theorem State.modPk_dig (f) (s : State) : (s.modPk f).dig = s.dig := rfl
@[simp] theorem State.modPk_ent (f) (s : State) : (s.modPk f).ent = s.ent := rfl
@[simp] theorem State.modPk_ingest (f) (s : State) : (s.modPk f).ingest = s.ingest := rfl
@[simp] theorem State.modPk_mower (f) (s : State) : (s.modPk f).mower = s.mower := rfl
@[simp] theorem State.modPk_att (f) (s : State) : (s.modPk f).att = s.att := rfl
@[simp] theorem State.modPk_tenantBox (f) (s : State) : (s.modPk f).tenantBox = s.tenantBox := rfl
@[simp] theorem State.modPk_operBox (f) (s : State) : (s.modPk f).operBox = s.operBox := rfl
@[simp] theorem State.modPk_boot (f) (s : State) : (s.modPk f).boot = s.boot := rfl
@[simp] theorem State.modPk_flash (f) (s : State) : (s.modPk f).flash = s.flash := rfl
@[simp] theorem State.modPk_fuse (f) (s : State) : (s.modPk f).fuse = s.fuse := rfl
@[simp] theorem State.modPk_brup (f) (s : State) : (s.modPk f).brup = s.brup := rfl
@[simp] theorem State.modPk_fq (f) (s : State) : (s.modPk f).fq = s.fq := rfl
@[simp] theorem State.modPk_mir (f) (s : State) : (s.modPk f).mir = s.mir := rfl
@[simp] theorem State.modPk_sby (f) (s : State) : (s.modPk f).sby = s.sby := rfl
@[simp] theorem State.modPk_dma (f) (s : State) : (s.modPk f).dma = s.dma := rfl
@[simp] theorem State.modPk_ports (f) (s : State) : (s.modPk f).ports = s.ports := rfl
@[simp] theorem State.modPk_tagWindow (f) (s : State) : (s.modPk f).tagWindow = s.tagWindow := rfl
@[simp] theorem State.modDig_pending (f) (s : State) : (s.modDig f).pending = s.pending := rfl
@[simp] theorem State.modDig_timer (f) (s : State) : (s.modDig f).timer = s.timer := rfl
@[simp] theorem State.modDig_freeCtr (f) (s : State) : (s.modDig f).freeCtr = s.freeCtr := rfl
@[simp] theorem State.modDig_guards (f) (s : State) : (s.modDig f).guards = s.guards := rfl
@[simp] theorem State.modDig_dies (f) (s : State) : (s.modDig f).dies = s.dies := rfl
@[simp] theorem State.modDig_head (f) (s : State) : (s.modDig f).head = s.head := rfl
@[simp] theorem State.modDig_ks (f) (s : State) : (s.modDig f).ks = s.ks := rfl
@[simp] theorem State.modDig_vault (f) (s : State) : (s.modDig f).vault = s.vault := rfl
@[simp] theorem State.modDig_tamper (f) (s : State) : (s.modDig f).tamper = s.tamper := rfl
@[simp] theorem State.modDig_pk (f) (s : State) : (s.modDig f).pk = s.pk := rfl
@[simp] theorem State.modDig_dig (f) (s : State) : (s.modDig f).dig = f s.dig := rfl
@[simp] theorem State.modDig_ent (f) (s : State) : (s.modDig f).ent = s.ent := rfl
@[simp] theorem State.modDig_ingest (f) (s : State) : (s.modDig f).ingest = s.ingest := rfl
@[simp] theorem State.modDig_mower (f) (s : State) : (s.modDig f).mower = s.mower := rfl
@[simp] theorem State.modDig_att (f) (s : State) : (s.modDig f).att = s.att := rfl
@[simp] theorem State.modDig_tenantBox (f) (s : State) : (s.modDig f).tenantBox = s.tenantBox := rfl
@[simp] theorem State.modDig_operBox (f) (s : State) : (s.modDig f).operBox = s.operBox := rfl
@[simp] theorem State.modDig_boot (f) (s : State) : (s.modDig f).boot = s.boot := rfl
@[simp] theorem State.modDig_flash (f) (s : State) : (s.modDig f).flash = s.flash := rfl
@[simp] theorem State.modDig_fuse (f) (s : State) : (s.modDig f).fuse = s.fuse := rfl
@[simp] theorem State.modDig_brup (f) (s : State) : (s.modDig f).brup = s.brup := rfl
@[simp] theorem State.modDig_fq (f) (s : State) : (s.modDig f).fq = s.fq := rfl
@[simp] theorem State.modDig_mir (f) (s : State) : (s.modDig f).mir = s.mir := rfl
@[simp] theorem State.modDig_sby (f) (s : State) : (s.modDig f).sby = s.sby := rfl
@[simp] theorem State.modDig_dma (f) (s : State) : (s.modDig f).dma = s.dma := rfl
@[simp] theorem State.modDig_ports (f) (s : State) : (s.modDig f).ports = s.ports := rfl
@[simp] theorem State.modDig_tagWindow (f) (s : State) : (s.modDig f).tagWindow = s.tagWindow := rfl
@[simp] theorem State.modEnt_pending (f) (s : State) : (s.modEnt f).pending = s.pending := rfl
@[simp] theorem State.modEnt_timer (f) (s : State) : (s.modEnt f).timer = s.timer := rfl
@[simp] theorem State.modEnt_freeCtr (f) (s : State) : (s.modEnt f).freeCtr = s.freeCtr := rfl
@[simp] theorem State.modEnt_guards (f) (s : State) : (s.modEnt f).guards = s.guards := rfl
@[simp] theorem State.modEnt_dies (f) (s : State) : (s.modEnt f).dies = s.dies := rfl
@[simp] theorem State.modEnt_head (f) (s : State) : (s.modEnt f).head = s.head := rfl
@[simp] theorem State.modEnt_ks (f) (s : State) : (s.modEnt f).ks = s.ks := rfl
@[simp] theorem State.modEnt_vault (f) (s : State) : (s.modEnt f).vault = s.vault := rfl
@[simp] theorem State.modEnt_tamper (f) (s : State) : (s.modEnt f).tamper = s.tamper := rfl
@[simp] theorem State.modEnt_pk (f) (s : State) : (s.modEnt f).pk = s.pk := rfl
@[simp] theorem State.modEnt_dig (f) (s : State) : (s.modEnt f).dig = s.dig := rfl
@[simp] theorem State.modEnt_ent (f) (s : State) : (s.modEnt f).ent = f s.ent := rfl
@[simp] theorem State.modEnt_ingest (f) (s : State) : (s.modEnt f).ingest = s.ingest := rfl
@[simp] theorem State.modEnt_mower (f) (s : State) : (s.modEnt f).mower = s.mower := rfl
@[simp] theorem State.modEnt_att (f) (s : State) : (s.modEnt f).att = s.att := rfl
@[simp] theorem State.modEnt_tenantBox (f) (s : State) : (s.modEnt f).tenantBox = s.tenantBox := rfl
@[simp] theorem State.modEnt_operBox (f) (s : State) : (s.modEnt f).operBox = s.operBox := rfl
@[simp] theorem State.modEnt_boot (f) (s : State) : (s.modEnt f).boot = s.boot := rfl
@[simp] theorem State.modEnt_flash (f) (s : State) : (s.modEnt f).flash = s.flash := rfl
@[simp] theorem State.modEnt_fuse (f) (s : State) : (s.modEnt f).fuse = s.fuse := rfl
@[simp] theorem State.modEnt_brup (f) (s : State) : (s.modEnt f).brup = s.brup := rfl
@[simp] theorem State.modEnt_fq (f) (s : State) : (s.modEnt f).fq = s.fq := rfl
@[simp] theorem State.modEnt_mir (f) (s : State) : (s.modEnt f).mir = s.mir := rfl
@[simp] theorem State.modEnt_sby (f) (s : State) : (s.modEnt f).sby = s.sby := rfl
@[simp] theorem State.modEnt_dma (f) (s : State) : (s.modEnt f).dma = s.dma := rfl
@[simp] theorem State.modEnt_ports (f) (s : State) : (s.modEnt f).ports = s.ports := rfl
@[simp] theorem State.modEnt_tagWindow (f) (s : State) : (s.modEnt f).tagWindow = s.tagWindow := rfl
@[simp] theorem State.modIngest_pending (f) (s : State) : (s.modIngest f).pending = s.pending := rfl
@[simp] theorem State.modIngest_timer (f) (s : State) : (s.modIngest f).timer = s.timer := rfl
@[simp] theorem State.modIngest_freeCtr (f) (s : State) : (s.modIngest f).freeCtr = s.freeCtr := rfl
@[simp] theorem State.modIngest_guards (f) (s : State) : (s.modIngest f).guards = s.guards := rfl
@[simp] theorem State.modIngest_dies (f) (s : State) : (s.modIngest f).dies = s.dies := rfl
@[simp] theorem State.modIngest_head (f) (s : State) : (s.modIngest f).head = s.head := rfl
@[simp] theorem State.modIngest_ks (f) (s : State) : (s.modIngest f).ks = s.ks := rfl
@[simp] theorem State.modIngest_vault (f) (s : State) : (s.modIngest f).vault = s.vault := rfl
@[simp] theorem State.modIngest_tamper (f) (s : State) : (s.modIngest f).tamper = s.tamper := rfl
@[simp] theorem State.modIngest_pk (f) (s : State) : (s.modIngest f).pk = s.pk := rfl
@[simp] theorem State.modIngest_dig (f) (s : State) : (s.modIngest f).dig = s.dig := rfl
@[simp] theorem State.modIngest_ent (f) (s : State) : (s.modIngest f).ent = s.ent := rfl
@[simp] theorem State.modIngest_ingest (f) (s : State) : (s.modIngest f).ingest = f s.ingest := rfl
@[simp] theorem State.modIngest_mower (f) (s : State) : (s.modIngest f).mower = s.mower := rfl
@[simp] theorem State.modIngest_att (f) (s : State) : (s.modIngest f).att = s.att := rfl
@[simp] theorem State.modIngest_tenantBox (f) (s : State) : (s.modIngest f).tenantBox = s.tenantBox := rfl
@[simp] theorem State.modIngest_operBox (f) (s : State) : (s.modIngest f).operBox = s.operBox := rfl
@[simp] theorem State.modIngest_boot (f) (s : State) : (s.modIngest f).boot = s.boot := rfl
@[simp] theorem State.modIngest_flash (f) (s : State) : (s.modIngest f).flash = s.flash := rfl
@[simp] theorem State.modIngest_fuse (f) (s : State) : (s.modIngest f).fuse = s.fuse := rfl
@[simp] theorem State.modIngest_brup (f) (s : State) : (s.modIngest f).brup = s.brup := rfl
@[simp] theorem State.modIngest_fq (f) (s : State) : (s.modIngest f).fq = s.fq := rfl
@[simp] theorem State.modIngest_mir (f) (s : State) : (s.modIngest f).mir = s.mir := rfl
@[simp] theorem State.modIngest_sby (f) (s : State) : (s.modIngest f).sby = s.sby := rfl
@[simp] theorem State.modIngest_dma (f) (s : State) : (s.modIngest f).dma = s.dma := rfl
@[simp] theorem State.modIngest_ports (f) (s : State) : (s.modIngest f).ports = s.ports := rfl
@[simp] theorem State.modIngest_tagWindow (f) (s : State) : (s.modIngest f).tagWindow = s.tagWindow := rfl
@[simp] theorem State.modMower_pending (f) (s : State) : (s.modMower f).pending = s.pending := rfl
@[simp] theorem State.modMower_timer (f) (s : State) : (s.modMower f).timer = s.timer := rfl
@[simp] theorem State.modMower_freeCtr (f) (s : State) : (s.modMower f).freeCtr = s.freeCtr := rfl
@[simp] theorem State.modMower_guards (f) (s : State) : (s.modMower f).guards = s.guards := rfl
@[simp] theorem State.modMower_dies (f) (s : State) : (s.modMower f).dies = s.dies := rfl
@[simp] theorem State.modMower_head (f) (s : State) : (s.modMower f).head = s.head := rfl
@[simp] theorem State.modMower_ks (f) (s : State) : (s.modMower f).ks = s.ks := rfl
@[simp] theorem State.modMower_vault (f) (s : State) : (s.modMower f).vault = s.vault := rfl
@[simp] theorem State.modMower_tamper (f) (s : State) : (s.modMower f).tamper = s.tamper := rfl
@[simp] theorem State.modMower_pk (f) (s : State) : (s.modMower f).pk = s.pk := rfl
@[simp] theorem State.modMower_dig (f) (s : State) : (s.modMower f).dig = s.dig := rfl
@[simp] theorem State.modMower_ent (f) (s : State) : (s.modMower f).ent = s.ent := rfl
@[simp] theorem State.modMower_ingest (f) (s : State) : (s.modMower f).ingest = s.ingest := rfl
@[simp] theorem State.modMower_mower (f) (s : State) : (s.modMower f).mower = f s.mower := rfl
@[simp] theorem State.modMower_att (f) (s : State) : (s.modMower f).att = s.att := rfl
@[simp] theorem State.modMower_tenantBox (f) (s : State) : (s.modMower f).tenantBox = s.tenantBox := rfl
@[simp] theorem State.modMower_operBox (f) (s : State) : (s.modMower f).operBox = s.operBox := rfl
@[simp] theorem State.modMower_boot (f) (s : State) : (s.modMower f).boot = s.boot := rfl
@[simp] theorem State.modMower_flash (f) (s : State) : (s.modMower f).flash = s.flash := rfl
@[simp] theorem State.modMower_fuse (f) (s : State) : (s.modMower f).fuse = s.fuse := rfl
@[simp] theorem State.modMower_brup (f) (s : State) : (s.modMower f).brup = s.brup := rfl
@[simp] theorem State.modMower_fq (f) (s : State) : (s.modMower f).fq = s.fq := rfl
@[simp] theorem State.modMower_mir (f) (s : State) : (s.modMower f).mir = s.mir := rfl
@[simp] theorem State.modMower_sby (f) (s : State) : (s.modMower f).sby = s.sby := rfl
@[simp] theorem State.modMower_dma (f) (s : State) : (s.modMower f).dma = s.dma := rfl
@[simp] theorem State.modMower_ports (f) (s : State) : (s.modMower f).ports = s.ports := rfl
@[simp] theorem State.modMower_tagWindow (f) (s : State) : (s.modMower f).tagWindow = s.tagWindow := rfl
@[simp] theorem State.modAtt_pending (f) (s : State) : (s.modAtt f).pending = s.pending := rfl
@[simp] theorem State.modAtt_timer (f) (s : State) : (s.modAtt f).timer = s.timer := rfl
@[simp] theorem State.modAtt_freeCtr (f) (s : State) : (s.modAtt f).freeCtr = s.freeCtr := rfl
@[simp] theorem State.modAtt_guards (f) (s : State) : (s.modAtt f).guards = s.guards := rfl
@[simp] theorem State.modAtt_dies (f) (s : State) : (s.modAtt f).dies = s.dies := rfl
@[simp] theorem State.modAtt_head (f) (s : State) : (s.modAtt f).head = s.head := rfl
@[simp] theorem State.modAtt_ks (f) (s : State) : (s.modAtt f).ks = s.ks := rfl
@[simp] theorem State.modAtt_vault (f) (s : State) : (s.modAtt f).vault = s.vault := rfl
@[simp] theorem State.modAtt_tamper (f) (s : State) : (s.modAtt f).tamper = s.tamper := rfl
@[simp] theorem State.modAtt_pk (f) (s : State) : (s.modAtt f).pk = s.pk := rfl
@[simp] theorem State.modAtt_dig (f) (s : State) : (s.modAtt f).dig = s.dig := rfl
@[simp] theorem State.modAtt_ent (f) (s : State) : (s.modAtt f).ent = s.ent := rfl
@[simp] theorem State.modAtt_ingest (f) (s : State) : (s.modAtt f).ingest = s.ingest := rfl
@[simp] theorem State.modAtt_mower (f) (s : State) : (s.modAtt f).mower = s.mower := rfl
@[simp] theorem State.modAtt_att (f) (s : State) : (s.modAtt f).att = f s.att := rfl
@[simp] theorem State.modAtt_tenantBox (f) (s : State) : (s.modAtt f).tenantBox = s.tenantBox := rfl
@[simp] theorem State.modAtt_operBox (f) (s : State) : (s.modAtt f).operBox = s.operBox := rfl
@[simp] theorem State.modAtt_boot (f) (s : State) : (s.modAtt f).boot = s.boot := rfl
@[simp] theorem State.modAtt_flash (f) (s : State) : (s.modAtt f).flash = s.flash := rfl
@[simp] theorem State.modAtt_fuse (f) (s : State) : (s.modAtt f).fuse = s.fuse := rfl
@[simp] theorem State.modAtt_brup (f) (s : State) : (s.modAtt f).brup = s.brup := rfl
@[simp] theorem State.modAtt_fq (f) (s : State) : (s.modAtt f).fq = s.fq := rfl
@[simp] theorem State.modAtt_mir (f) (s : State) : (s.modAtt f).mir = s.mir := rfl
@[simp] theorem State.modAtt_sby (f) (s : State) : (s.modAtt f).sby = s.sby := rfl
@[simp] theorem State.modAtt_dma (f) (s : State) : (s.modAtt f).dma = s.dma := rfl
@[simp] theorem State.modAtt_ports (f) (s : State) : (s.modAtt f).ports = s.ports := rfl
@[simp] theorem State.modAtt_tagWindow (f) (s : State) : (s.modAtt f).tagWindow = s.tagWindow := rfl
@[simp] theorem State.modTenantBox_pending (f) (s : State) : (s.modTenantBox f).pending = s.pending := rfl
@[simp] theorem State.modTenantBox_timer (f) (s : State) : (s.modTenantBox f).timer = s.timer := rfl
@[simp] theorem State.modTenantBox_freeCtr (f) (s : State) : (s.modTenantBox f).freeCtr = s.freeCtr := rfl
@[simp] theorem State.modTenantBox_guards (f) (s : State) : (s.modTenantBox f).guards = s.guards := rfl
@[simp] theorem State.modTenantBox_dies (f) (s : State) : (s.modTenantBox f).dies = s.dies := rfl
@[simp] theorem State.modTenantBox_head (f) (s : State) : (s.modTenantBox f).head = s.head := rfl
@[simp] theorem State.modTenantBox_ks (f) (s : State) : (s.modTenantBox f).ks = s.ks := rfl
@[simp] theorem State.modTenantBox_vault (f) (s : State) : (s.modTenantBox f).vault = s.vault := rfl
@[simp] theorem State.modTenantBox_tamper (f) (s : State) : (s.modTenantBox f).tamper = s.tamper := rfl
@[simp] theorem State.modTenantBox_pk (f) (s : State) : (s.modTenantBox f).pk = s.pk := rfl
@[simp] theorem State.modTenantBox_dig (f) (s : State) : (s.modTenantBox f).dig = s.dig := rfl
@[simp] theorem State.modTenantBox_ent (f) (s : State) : (s.modTenantBox f).ent = s.ent := rfl
@[simp] theorem State.modTenantBox_ingest (f) (s : State) : (s.modTenantBox f).ingest = s.ingest := rfl
@[simp] theorem State.modTenantBox_mower (f) (s : State) : (s.modTenantBox f).mower = s.mower := rfl
@[simp] theorem State.modTenantBox_att (f) (s : State) : (s.modTenantBox f).att = s.att := rfl
@[simp] theorem State.modTenantBox_tenantBox (f) (s : State) : (s.modTenantBox f).tenantBox = f s.tenantBox := rfl
@[simp] theorem State.modTenantBox_operBox (f) (s : State) : (s.modTenantBox f).operBox = s.operBox := rfl
@[simp] theorem State.modTenantBox_boot (f) (s : State) : (s.modTenantBox f).boot = s.boot := rfl
@[simp] theorem State.modTenantBox_flash (f) (s : State) : (s.modTenantBox f).flash = s.flash := rfl
@[simp] theorem State.modTenantBox_fuse (f) (s : State) : (s.modTenantBox f).fuse = s.fuse := rfl
@[simp] theorem State.modTenantBox_brup (f) (s : State) : (s.modTenantBox f).brup = s.brup := rfl
@[simp] theorem State.modTenantBox_fq (f) (s : State) : (s.modTenantBox f).fq = s.fq := rfl
@[simp] theorem State.modTenantBox_mir (f) (s : State) : (s.modTenantBox f).mir = s.mir := rfl
@[simp] theorem State.modTenantBox_sby (f) (s : State) : (s.modTenantBox f).sby = s.sby := rfl
@[simp] theorem State.modTenantBox_dma (f) (s : State) : (s.modTenantBox f).dma = s.dma := rfl
@[simp] theorem State.modTenantBox_ports (f) (s : State) : (s.modTenantBox f).ports = s.ports := rfl
@[simp] theorem State.modTenantBox_tagWindow (f) (s : State) : (s.modTenantBox f).tagWindow = s.tagWindow := rfl
@[simp] theorem State.modOperBox_pending (f) (s : State) : (s.modOperBox f).pending = s.pending := rfl
@[simp] theorem State.modOperBox_timer (f) (s : State) : (s.modOperBox f).timer = s.timer := rfl
@[simp] theorem State.modOperBox_freeCtr (f) (s : State) : (s.modOperBox f).freeCtr = s.freeCtr := rfl
@[simp] theorem State.modOperBox_guards (f) (s : State) : (s.modOperBox f).guards = s.guards := rfl
@[simp] theorem State.modOperBox_dies (f) (s : State) : (s.modOperBox f).dies = s.dies := rfl
@[simp] theorem State.modOperBox_head (f) (s : State) : (s.modOperBox f).head = s.head := rfl
@[simp] theorem State.modOperBox_ks (f) (s : State) : (s.modOperBox f).ks = s.ks := rfl
@[simp] theorem State.modOperBox_vault (f) (s : State) : (s.modOperBox f).vault = s.vault := rfl
@[simp] theorem State.modOperBox_tamper (f) (s : State) : (s.modOperBox f).tamper = s.tamper := rfl
@[simp] theorem State.modOperBox_pk (f) (s : State) : (s.modOperBox f).pk = s.pk := rfl
@[simp] theorem State.modOperBox_dig (f) (s : State) : (s.modOperBox f).dig = s.dig := rfl
@[simp] theorem State.modOperBox_ent (f) (s : State) : (s.modOperBox f).ent = s.ent := rfl
@[simp] theorem State.modOperBox_ingest (f) (s : State) : (s.modOperBox f).ingest = s.ingest := rfl
@[simp] theorem State.modOperBox_mower (f) (s : State) : (s.modOperBox f).mower = s.mower := rfl
@[simp] theorem State.modOperBox_att (f) (s : State) : (s.modOperBox f).att = s.att := rfl
@[simp] theorem State.modOperBox_tenantBox (f) (s : State) : (s.modOperBox f).tenantBox = s.tenantBox := rfl
@[simp] theorem State.modOperBox_operBox (f) (s : State) : (s.modOperBox f).operBox = f s.operBox := rfl
@[simp] theorem State.modOperBox_boot (f) (s : State) : (s.modOperBox f).boot = s.boot := rfl
@[simp] theorem State.modOperBox_flash (f) (s : State) : (s.modOperBox f).flash = s.flash := rfl
@[simp] theorem State.modOperBox_fuse (f) (s : State) : (s.modOperBox f).fuse = s.fuse := rfl
@[simp] theorem State.modOperBox_brup (f) (s : State) : (s.modOperBox f).brup = s.brup := rfl
@[simp] theorem State.modOperBox_fq (f) (s : State) : (s.modOperBox f).fq = s.fq := rfl
@[simp] theorem State.modOperBox_mir (f) (s : State) : (s.modOperBox f).mir = s.mir := rfl
@[simp] theorem State.modOperBox_sby (f) (s : State) : (s.modOperBox f).sby = s.sby := rfl
@[simp] theorem State.modOperBox_dma (f) (s : State) : (s.modOperBox f).dma = s.dma := rfl
@[simp] theorem State.modOperBox_ports (f) (s : State) : (s.modOperBox f).ports = s.ports := rfl
@[simp] theorem State.modOperBox_tagWindow (f) (s : State) : (s.modOperBox f).tagWindow = s.tagWindow := rfl
@[simp] theorem State.modBoot_pending (f) (s : State) : (s.modBoot f).pending = s.pending := rfl
@[simp] theorem State.modBoot_timer (f) (s : State) : (s.modBoot f).timer = s.timer := rfl
@[simp] theorem State.modBoot_freeCtr (f) (s : State) : (s.modBoot f).freeCtr = s.freeCtr := rfl
@[simp] theorem State.modBoot_guards (f) (s : State) : (s.modBoot f).guards = s.guards := rfl
@[simp] theorem State.modBoot_dies (f) (s : State) : (s.modBoot f).dies = s.dies := rfl
@[simp] theorem State.modBoot_head (f) (s : State) : (s.modBoot f).head = s.head := rfl
@[simp] theorem State.modBoot_ks (f) (s : State) : (s.modBoot f).ks = s.ks := rfl
@[simp] theorem State.modBoot_vault (f) (s : State) : (s.modBoot f).vault = s.vault := rfl
@[simp] theorem State.modBoot_tamper (f) (s : State) : (s.modBoot f).tamper = s.tamper := rfl
@[simp] theorem State.modBoot_pk (f) (s : State) : (s.modBoot f).pk = s.pk := rfl
@[simp] theorem State.modBoot_dig (f) (s : State) : (s.modBoot f).dig = s.dig := rfl
@[simp] theorem State.modBoot_ent (f) (s : State) : (s.modBoot f).ent = s.ent := rfl
@[simp] theorem State.modBoot_ingest (f) (s : State) : (s.modBoot f).ingest = s.ingest := rfl
@[simp] theorem State.modBoot_mower (f) (s : State) : (s.modBoot f).mower = s.mower := rfl
@[simp] theorem State.modBoot_att (f) (s : State) : (s.modBoot f).att = s.att := rfl
@[simp] theorem State.modBoot_tenantBox (f) (s : State) : (s.modBoot f).tenantBox = s.tenantBox := rfl
@[simp] theorem State.modBoot_operBox (f) (s : State) : (s.modBoot f).operBox = s.operBox := rfl
@[simp] theorem State.modBoot_boot (f) (s : State) : (s.modBoot f).boot = f s.boot := rfl
@[simp] theorem State.modBoot_flash (f) (s : State) : (s.modBoot f).flash = s.flash := rfl
@[simp] theorem State.modBoot_fuse (f) (s : State) : (s.modBoot f).fuse = s.fuse := rfl
@[simp] theorem State.modBoot_brup (f) (s : State) : (s.modBoot f).brup = s.brup := rfl
@[simp] theorem State.modBoot_fq (f) (s : State) : (s.modBoot f).fq = s.fq := rfl
@[simp] theorem State.modBoot_mir (f) (s : State) : (s.modBoot f).mir = s.mir := rfl
@[simp] theorem State.modBoot_sby (f) (s : State) : (s.modBoot f).sby = s.sby := rfl
@[simp] theorem State.modBoot_dma (f) (s : State) : (s.modBoot f).dma = s.dma := rfl
@[simp] theorem State.modBoot_ports (f) (s : State) : (s.modBoot f).ports = s.ports := rfl
@[simp] theorem State.modBoot_tagWindow (f) (s : State) : (s.modBoot f).tagWindow = s.tagWindow := rfl
@[simp] theorem State.modFlash_pending (f) (s : State) : (s.modFlash f).pending = s.pending := rfl
@[simp] theorem State.modFlash_timer (f) (s : State) : (s.modFlash f).timer = s.timer := rfl
@[simp] theorem State.modFlash_freeCtr (f) (s : State) : (s.modFlash f).freeCtr = s.freeCtr := rfl
@[simp] theorem State.modFlash_guards (f) (s : State) : (s.modFlash f).guards = s.guards := rfl
@[simp] theorem State.modFlash_dies (f) (s : State) : (s.modFlash f).dies = s.dies := rfl
@[simp] theorem State.modFlash_head (f) (s : State) : (s.modFlash f).head = s.head := rfl
@[simp] theorem State.modFlash_ks (f) (s : State) : (s.modFlash f).ks = s.ks := rfl
@[simp] theorem State.modFlash_vault (f) (s : State) : (s.modFlash f).vault = s.vault := rfl
@[simp] theorem State.modFlash_tamper (f) (s : State) : (s.modFlash f).tamper = s.tamper := rfl
@[simp] theorem State.modFlash_pk (f) (s : State) : (s.modFlash f).pk = s.pk := rfl
@[simp] theorem State.modFlash_dig (f) (s : State) : (s.modFlash f).dig = s.dig := rfl
@[simp] theorem State.modFlash_ent (f) (s : State) : (s.modFlash f).ent = s.ent := rfl
@[simp] theorem State.modFlash_ingest (f) (s : State) : (s.modFlash f).ingest = s.ingest := rfl
@[simp] theorem State.modFlash_mower (f) (s : State) : (s.modFlash f).mower = s.mower := rfl
@[simp] theorem State.modFlash_att (f) (s : State) : (s.modFlash f).att = s.att := rfl
@[simp] theorem State.modFlash_tenantBox (f) (s : State) : (s.modFlash f).tenantBox = s.tenantBox := rfl
@[simp] theorem State.modFlash_operBox (f) (s : State) : (s.modFlash f).operBox = s.operBox := rfl
@[simp] theorem State.modFlash_boot (f) (s : State) : (s.modFlash f).boot = s.boot := rfl
@[simp] theorem State.modFlash_flash (f) (s : State) : (s.modFlash f).flash = f s.flash := rfl
@[simp] theorem State.modFlash_fuse (f) (s : State) : (s.modFlash f).fuse = s.fuse := rfl
@[simp] theorem State.modFlash_brup (f) (s : State) : (s.modFlash f).brup = s.brup := rfl
@[simp] theorem State.modFlash_fq (f) (s : State) : (s.modFlash f).fq = s.fq := rfl
@[simp] theorem State.modFlash_mir (f) (s : State) : (s.modFlash f).mir = s.mir := rfl
@[simp] theorem State.modFlash_sby (f) (s : State) : (s.modFlash f).sby = s.sby := rfl
@[simp] theorem State.modFlash_dma (f) (s : State) : (s.modFlash f).dma = s.dma := rfl
@[simp] theorem State.modFlash_ports (f) (s : State) : (s.modFlash f).ports = s.ports := rfl
@[simp] theorem State.modFlash_tagWindow (f) (s : State) : (s.modFlash f).tagWindow = s.tagWindow := rfl
@[simp] theorem State.modFuse_pending (f) (s : State) : (s.modFuse f).pending = s.pending := rfl
@[simp] theorem State.modFuse_timer (f) (s : State) : (s.modFuse f).timer = s.timer := rfl
@[simp] theorem State.modFuse_freeCtr (f) (s : State) : (s.modFuse f).freeCtr = s.freeCtr := rfl
@[simp] theorem State.modFuse_guards (f) (s : State) : (s.modFuse f).guards = s.guards := rfl
@[simp] theorem State.modFuse_dies (f) (s : State) : (s.modFuse f).dies = s.dies := rfl
@[simp] theorem State.modFuse_head (f) (s : State) : (s.modFuse f).head = s.head := rfl
@[simp] theorem State.modFuse_ks (f) (s : State) : (s.modFuse f).ks = s.ks := rfl
@[simp] theorem State.modFuse_vault (f) (s : State) : (s.modFuse f).vault = s.vault := rfl
@[simp] theorem State.modFuse_tamper (f) (s : State) : (s.modFuse f).tamper = s.tamper := rfl
@[simp] theorem State.modFuse_pk (f) (s : State) : (s.modFuse f).pk = s.pk := rfl
@[simp] theorem State.modFuse_dig (f) (s : State) : (s.modFuse f).dig = s.dig := rfl
@[simp] theorem State.modFuse_ent (f) (s : State) : (s.modFuse f).ent = s.ent := rfl
@[simp] theorem State.modFuse_ingest (f) (s : State) : (s.modFuse f).ingest = s.ingest := rfl
@[simp] theorem State.modFuse_mower (f) (s : State) : (s.modFuse f).mower = s.mower := rfl
@[simp] theorem State.modFuse_att (f) (s : State) : (s.modFuse f).att = s.att := rfl
@[simp] theorem State.modFuse_tenantBox (f) (s : State) : (s.modFuse f).tenantBox = s.tenantBox := rfl
@[simp] theorem State.modFuse_operBox (f) (s : State) : (s.modFuse f).operBox = s.operBox := rfl
@[simp] theorem State.modFuse_boot (f) (s : State) : (s.modFuse f).boot = s.boot := rfl
@[simp] theorem State.modFuse_flash (f) (s : State) : (s.modFuse f).flash = s.flash := rfl
@[simp] theorem State.modFuse_fuse (f) (s : State) : (s.modFuse f).fuse = f s.fuse := rfl
@[simp] theorem State.modFuse_brup (f) (s : State) : (s.modFuse f).brup = s.brup := rfl
@[simp] theorem State.modFuse_fq (f) (s : State) : (s.modFuse f).fq = s.fq := rfl
@[simp] theorem State.modFuse_mir (f) (s : State) : (s.modFuse f).mir = s.mir := rfl
@[simp] theorem State.modFuse_sby (f) (s : State) : (s.modFuse f).sby = s.sby := rfl
@[simp] theorem State.modFuse_dma (f) (s : State) : (s.modFuse f).dma = s.dma := rfl
@[simp] theorem State.modFuse_ports (f) (s : State) : (s.modFuse f).ports = s.ports := rfl
@[simp] theorem State.modFuse_tagWindow (f) (s : State) : (s.modFuse f).tagWindow = s.tagWindow := rfl
@[simp] theorem State.modBrup_pending (f) (s : State) : (s.modBrup f).pending = s.pending := rfl
@[simp] theorem State.modBrup_timer (f) (s : State) : (s.modBrup f).timer = s.timer := rfl
@[simp] theorem State.modBrup_freeCtr (f) (s : State) : (s.modBrup f).freeCtr = s.freeCtr := rfl
@[simp] theorem State.modBrup_guards (f) (s : State) : (s.modBrup f).guards = s.guards := rfl
@[simp] theorem State.modBrup_dies (f) (s : State) : (s.modBrup f).dies = s.dies := rfl
@[simp] theorem State.modBrup_head (f) (s : State) : (s.modBrup f).head = s.head := rfl
@[simp] theorem State.modBrup_ks (f) (s : State) : (s.modBrup f).ks = s.ks := rfl
@[simp] theorem State.modBrup_vault (f) (s : State) : (s.modBrup f).vault = s.vault := rfl
@[simp] theorem State.modBrup_tamper (f) (s : State) : (s.modBrup f).tamper = s.tamper := rfl
@[simp] theorem State.modBrup_pk (f) (s : State) : (s.modBrup f).pk = s.pk := rfl
@[simp] theorem State.modBrup_dig (f) (s : State) : (s.modBrup f).dig = s.dig := rfl
@[simp] theorem State.modBrup_ent (f) (s : State) : (s.modBrup f).ent = s.ent := rfl
@[simp] theorem State.modBrup_ingest (f) (s : State) : (s.modBrup f).ingest = s.ingest := rfl
@[simp] theorem State.modBrup_mower (f) (s : State) : (s.modBrup f).mower = s.mower := rfl
@[simp] theorem State.modBrup_att (f) (s : State) : (s.modBrup f).att = s.att := rfl
@[simp] theorem State.modBrup_tenantBox (f) (s : State) : (s.modBrup f).tenantBox = s.tenantBox := rfl
@[simp] theorem State.modBrup_operBox (f) (s : State) : (s.modBrup f).operBox = s.operBox := rfl
@[simp] theorem State.modBrup_boot (f) (s : State) : (s.modBrup f).boot = s.boot := rfl
@[simp] theorem State.modBrup_flash (f) (s : State) : (s.modBrup f).flash = s.flash := rfl
@[simp] theorem State.modBrup_fuse (f) (s : State) : (s.modBrup f).fuse = s.fuse := rfl
@[simp] theorem State.modBrup_brup (f) (s : State) : (s.modBrup f).brup = f s.brup := rfl
@[simp] theorem State.modBrup_fq (f) (s : State) : (s.modBrup f).fq = s.fq := rfl
@[simp] theorem State.modBrup_mir (f) (s : State) : (s.modBrup f).mir = s.mir := rfl
@[simp] theorem State.modBrup_sby (f) (s : State) : (s.modBrup f).sby = s.sby := rfl
@[simp] theorem State.modBrup_dma (f) (s : State) : (s.modBrup f).dma = s.dma := rfl
@[simp] theorem State.modBrup_ports (f) (s : State) : (s.modBrup f).ports = s.ports := rfl
@[simp] theorem State.modBrup_tagWindow (f) (s : State) : (s.modBrup f).tagWindow = s.tagWindow := rfl
@[simp] theorem State.modFq_pending (f) (s : State) : (s.modFq f).pending = s.pending := rfl
@[simp] theorem State.modFq_timer (f) (s : State) : (s.modFq f).timer = s.timer := rfl
@[simp] theorem State.modFq_freeCtr (f) (s : State) : (s.modFq f).freeCtr = s.freeCtr := rfl
@[simp] theorem State.modFq_guards (f) (s : State) : (s.modFq f).guards = s.guards := rfl
@[simp] theorem State.modFq_dies (f) (s : State) : (s.modFq f).dies = s.dies := rfl
@[simp] theorem State.modFq_head (f) (s : State) : (s.modFq f).head = s.head := rfl
@[simp] theorem State.modFq_ks (f) (s : State) : (s.modFq f).ks = s.ks := rfl
@[simp] theorem State.modFq_vault (f) (s : State) : (s.modFq f).vault = s.vault := rfl
@[simp] theorem State.modFq_tamper (f) (s : State) : (s.modFq f).tamper = s.tamper := rfl
@[simp] theorem State.modFq_pk (f) (s : State) : (s.modFq f).pk = s.pk := rfl
@[simp] theorem State.modFq_dig (f) (s : State) : (s.modFq f).dig = s.dig := rfl
@[simp] theorem State.modFq_ent (f) (s : State) : (s.modFq f).ent = s.ent := rfl
@[simp] theorem State.modFq_ingest (f) (s : State) : (s.modFq f).ingest = s.ingest := rfl
@[simp] theorem State.modFq_mower (f) (s : State) : (s.modFq f).mower = s.mower := rfl
@[simp] theorem State.modFq_att (f) (s : State) : (s.modFq f).att = s.att := rfl
@[simp] theorem State.modFq_tenantBox (f) (s : State) : (s.modFq f).tenantBox = s.tenantBox := rfl
@[simp] theorem State.modFq_operBox (f) (s : State) : (s.modFq f).operBox = s.operBox := rfl
@[simp] theorem State.modFq_boot (f) (s : State) : (s.modFq f).boot = s.boot := rfl
@[simp] theorem State.modFq_flash (f) (s : State) : (s.modFq f).flash = s.flash := rfl
@[simp] theorem State.modFq_fuse (f) (s : State) : (s.modFq f).fuse = s.fuse := rfl
@[simp] theorem State.modFq_brup (f) (s : State) : (s.modFq f).brup = s.brup := rfl
@[simp] theorem State.modFq_fq (f) (s : State) : (s.modFq f).fq = f s.fq := rfl
@[simp] theorem State.modFq_mir (f) (s : State) : (s.modFq f).mir = s.mir := rfl
@[simp] theorem State.modFq_sby (f) (s : State) : (s.modFq f).sby = s.sby := rfl
@[simp] theorem State.modFq_dma (f) (s : State) : (s.modFq f).dma = s.dma := rfl
@[simp] theorem State.modFq_ports (f) (s : State) : (s.modFq f).ports = s.ports := rfl
@[simp] theorem State.modFq_tagWindow (f) (s : State) : (s.modFq f).tagWindow = s.tagWindow := rfl
@[simp] theorem State.modMir_pending (f) (s : State) : (s.modMir f).pending = s.pending := rfl
@[simp] theorem State.modMir_timer (f) (s : State) : (s.modMir f).timer = s.timer := rfl
@[simp] theorem State.modMir_freeCtr (f) (s : State) : (s.modMir f).freeCtr = s.freeCtr := rfl
@[simp] theorem State.modMir_guards (f) (s : State) : (s.modMir f).guards = s.guards := rfl
@[simp] theorem State.modMir_dies (f) (s : State) : (s.modMir f).dies = s.dies := rfl
@[simp] theorem State.modMir_head (f) (s : State) : (s.modMir f).head = s.head := rfl
@[simp] theorem State.modMir_ks (f) (s : State) : (s.modMir f).ks = s.ks := rfl
@[simp] theorem State.modMir_vault (f) (s : State) : (s.modMir f).vault = s.vault := rfl
@[simp] theorem State.modMir_tamper (f) (s : State) : (s.modMir f).tamper = s.tamper := rfl
@[simp] theorem State.modMir_pk (f) (s : State) : (s.modMir f).pk = s.pk := rfl
@[simp] theorem State.modMir_dig (f) (s : State) : (s.modMir f).dig = s.dig := rfl
@[simp] theorem State.modMir_ent (f) (s : State) : (s.modMir f).ent = s.ent := rfl
@[simp] theorem State.modMir_ingest (f) (s : State) : (s.modMir f).ingest = s.ingest := rfl
@[simp] theorem State.modMir_mower (f) (s : State) : (s.modMir f).mower = s.mower := rfl
@[simp] theorem State.modMir_att (f) (s : State) : (s.modMir f).att = s.att := rfl
@[simp] theorem State.modMir_tenantBox (f) (s : State) : (s.modMir f).tenantBox = s.tenantBox := rfl
@[simp] theorem State.modMir_operBox (f) (s : State) : (s.modMir f).operBox = s.operBox := rfl
@[simp] theorem State.modMir_boot (f) (s : State) : (s.modMir f).boot = s.boot := rfl
@[simp] theorem State.modMir_flash (f) (s : State) : (s.modMir f).flash = s.flash := rfl
@[simp] theorem State.modMir_fuse (f) (s : State) : (s.modMir f).fuse = s.fuse := rfl
@[simp] theorem State.modMir_brup (f) (s : State) : (s.modMir f).brup = s.brup := rfl
@[simp] theorem State.modMir_fq (f) (s : State) : (s.modMir f).fq = s.fq := rfl
@[simp] theorem State.modMir_mir (f) (s : State) : (s.modMir f).mir = f s.mir := rfl
@[simp] theorem State.modMir_sby (f) (s : State) : (s.modMir f).sby = s.sby := rfl
@[simp] theorem State.modMir_dma (f) (s : State) : (s.modMir f).dma = s.dma := rfl
@[simp] theorem State.modMir_ports (f) (s : State) : (s.modMir f).ports = s.ports := rfl
@[simp] theorem State.modMir_tagWindow (f) (s : State) : (s.modMir f).tagWindow = s.tagWindow := rfl
@[simp] theorem State.modSby_pending (f) (s : State) : (s.modSby f).pending = s.pending := rfl
@[simp] theorem State.modSby_timer (f) (s : State) : (s.modSby f).timer = s.timer := rfl
@[simp] theorem State.modSby_freeCtr (f) (s : State) : (s.modSby f).freeCtr = s.freeCtr := rfl
@[simp] theorem State.modSby_guards (f) (s : State) : (s.modSby f).guards = s.guards := rfl
@[simp] theorem State.modSby_dies (f) (s : State) : (s.modSby f).dies = s.dies := rfl
@[simp] theorem State.modSby_head (f) (s : State) : (s.modSby f).head = s.head := rfl
@[simp] theorem State.modSby_ks (f) (s : State) : (s.modSby f).ks = s.ks := rfl
@[simp] theorem State.modSby_vault (f) (s : State) : (s.modSby f).vault = s.vault := rfl
@[simp] theorem State.modSby_tamper (f) (s : State) : (s.modSby f).tamper = s.tamper := rfl
@[simp] theorem State.modSby_pk (f) (s : State) : (s.modSby f).pk = s.pk := rfl
@[simp] theorem State.modSby_dig (f) (s : State) : (s.modSby f).dig = s.dig := rfl
@[simp] theorem State.modSby_ent (f) (s : State) : (s.modSby f).ent = s.ent := rfl
@[simp] theorem State.modSby_ingest (f) (s : State) : (s.modSby f).ingest = s.ingest := rfl
@[simp] theorem State.modSby_mower (f) (s : State) : (s.modSby f).mower = s.mower := rfl
@[simp] theorem State.modSby_att (f) (s : State) : (s.modSby f).att = s.att := rfl
@[simp] theorem State.modSby_tenantBox (f) (s : State) : (s.modSby f).tenantBox = s.tenantBox := rfl
@[simp] theorem State.modSby_operBox (f) (s : State) : (s.modSby f).operBox = s.operBox := rfl
@[simp] theorem State.modSby_boot (f) (s : State) : (s.modSby f).boot = s.boot := rfl
@[simp] theorem State.modSby_flash (f) (s : State) : (s.modSby f).flash = s.flash := rfl
@[simp] theorem State.modSby_fuse (f) (s : State) : (s.modSby f).fuse = s.fuse := rfl
@[simp] theorem State.modSby_brup (f) (s : State) : (s.modSby f).brup = s.brup := rfl
@[simp] theorem State.modSby_fq (f) (s : State) : (s.modSby f).fq = s.fq := rfl
@[simp] theorem State.modSby_mir (f) (s : State) : (s.modSby f).mir = s.mir := rfl
@[simp] theorem State.modSby_sby (f) (s : State) : (s.modSby f).sby = f s.sby := rfl
@[simp] theorem State.modSby_dma (f) (s : State) : (s.modSby f).dma = s.dma := rfl
@[simp] theorem State.modSby_ports (f) (s : State) : (s.modSby f).ports = s.ports := rfl
@[simp] theorem State.modSby_tagWindow (f) (s : State) : (s.modSby f).tagWindow = s.tagWindow := rfl
@[simp] theorem State.modDma_pending (f) (s : State) : (s.modDma f).pending = s.pending := rfl
@[simp] theorem State.modDma_timer (f) (s : State) : (s.modDma f).timer = s.timer := rfl
@[simp] theorem State.modDma_freeCtr (f) (s : State) : (s.modDma f).freeCtr = s.freeCtr := rfl
@[simp] theorem State.modDma_guards (f) (s : State) : (s.modDma f).guards = s.guards := rfl
@[simp] theorem State.modDma_dies (f) (s : State) : (s.modDma f).dies = s.dies := rfl
@[simp] theorem State.modDma_head (f) (s : State) : (s.modDma f).head = s.head := rfl
@[simp] theorem State.modDma_ks (f) (s : State) : (s.modDma f).ks = s.ks := rfl
@[simp] theorem State.modDma_vault (f) (s : State) : (s.modDma f).vault = s.vault := rfl
@[simp] theorem State.modDma_tamper (f) (s : State) : (s.modDma f).tamper = s.tamper := rfl
@[simp] theorem State.modDma_pk (f) (s : State) : (s.modDma f).pk = s.pk := rfl
@[simp] theorem State.modDma_dig (f) (s : State) : (s.modDma f).dig = s.dig := rfl
@[simp] theorem State.modDma_ent (f) (s : State) : (s.modDma f).ent = s.ent := rfl
@[simp] theorem State.modDma_ingest (f) (s : State) : (s.modDma f).ingest = s.ingest := rfl
@[simp] theorem State.modDma_mower (f) (s : State) : (s.modDma f).mower = s.mower := rfl
@[simp] theorem State.modDma_att (f) (s : State) : (s.modDma f).att = s.att := rfl
@[simp] theorem State.modDma_tenantBox (f) (s : State) : (s.modDma f).tenantBox = s.tenantBox := rfl
@[simp] theorem State.modDma_operBox (f) (s : State) : (s.modDma f).operBox = s.operBox := rfl
@[simp] theorem State.modDma_boot (f) (s : State) : (s.modDma f).boot = s.boot := rfl
@[simp] theorem State.modDma_flash (f) (s : State) : (s.modDma f).flash = s.flash := rfl
@[simp] theorem State.modDma_fuse (f) (s : State) : (s.modDma f).fuse = s.fuse := rfl
@[simp] theorem State.modDma_brup (f) (s : State) : (s.modDma f).brup = s.brup := rfl
@[simp] theorem State.modDma_fq (f) (s : State) : (s.modDma f).fq = s.fq := rfl
@[simp] theorem State.modDma_mir (f) (s : State) : (s.modDma f).mir = s.mir := rfl
@[simp] theorem State.modDma_sby (f) (s : State) : (s.modDma f).sby = s.sby := rfl
@[simp] theorem State.modDma_dma (f) (s : State) : (s.modDma f).dma = f s.dma := rfl
@[simp] theorem State.modDma_ports (f) (s : State) : (s.modDma f).ports = s.ports := rfl
@[simp] theorem State.modDma_tagWindow (f) (s : State) : (s.modDma f).tagWindow = s.tagWindow := rfl
@[simp] theorem State.modPorts_pending (f) (s : State) : (s.modPorts f).pending = s.pending := rfl
@[simp] theorem State.modPorts_timer (f) (s : State) : (s.modPorts f).timer = s.timer := rfl
@[simp] theorem State.modPorts_freeCtr (f) (s : State) : (s.modPorts f).freeCtr = s.freeCtr := rfl
@[simp] theorem State.modPorts_guards (f) (s : State) : (s.modPorts f).guards = s.guards := rfl
@[simp] theorem State.modPorts_dies (f) (s : State) : (s.modPorts f).dies = s.dies := rfl
@[simp] theorem State.modPorts_head (f) (s : State) : (s.modPorts f).head = s.head := rfl
@[simp] theorem State.modPorts_ks (f) (s : State) : (s.modPorts f).ks = s.ks := rfl
@[simp] theorem State.modPorts_vault (f) (s : State) : (s.modPorts f).vault = s.vault := rfl
@[simp] theorem State.modPorts_tamper (f) (s : State) : (s.modPorts f).tamper = s.tamper := rfl
@[simp] theorem State.modPorts_pk (f) (s : State) : (s.modPorts f).pk = s.pk := rfl
@[simp] theorem State.modPorts_dig (f) (s : State) : (s.modPorts f).dig = s.dig := rfl
@[simp] theorem State.modPorts_ent (f) (s : State) : (s.modPorts f).ent = s.ent := rfl
@[simp] theorem State.modPorts_ingest (f) (s : State) : (s.modPorts f).ingest = s.ingest := rfl
@[simp] theorem State.modPorts_mower (f) (s : State) : (s.modPorts f).mower = s.mower := rfl
@[simp] theorem State.modPorts_att (f) (s : State) : (s.modPorts f).att = s.att := rfl
@[simp] theorem State.modPorts_tenantBox (f) (s : State) : (s.modPorts f).tenantBox = s.tenantBox := rfl
@[simp] theorem State.modPorts_operBox (f) (s : State) : (s.modPorts f).operBox = s.operBox := rfl
@[simp] theorem State.modPorts_boot (f) (s : State) : (s.modPorts f).boot = s.boot := rfl
@[simp] theorem State.modPorts_flash (f) (s : State) : (s.modPorts f).flash = s.flash := rfl
@[simp] theorem State.modPorts_fuse (f) (s : State) : (s.modPorts f).fuse = s.fuse := rfl
@[simp] theorem State.modPorts_brup (f) (s : State) : (s.modPorts f).brup = s.brup := rfl
@[simp] theorem State.modPorts_fq (f) (s : State) : (s.modPorts f).fq = s.fq := rfl
@[simp] theorem State.modPorts_mir (f) (s : State) : (s.modPorts f).mir = s.mir := rfl
@[simp] theorem State.modPorts_sby (f) (s : State) : (s.modPorts f).sby = s.sby := rfl
@[simp] theorem State.modPorts_dma (f) (s : State) : (s.modPorts f).dma = s.dma := rfl
@[simp] theorem State.modPorts_ports (f) (s : State) : (s.modPorts f).ports = f s.ports := rfl
@[simp] theorem State.modPorts_tagWindow (f) (s : State) : (s.modPorts f).tagWindow = s.tagWindow := rfl
@[simp] theorem State.modTagWindow_pending (f) (s : State) : (s.modTagWindow f).pending = s.pending := rfl
@[simp] theorem State.modTagWindow_timer (f) (s : State) : (s.modTagWindow f).timer = s.timer := rfl
@[simp] theorem State.modTagWindow_freeCtr (f) (s : State) : (s.modTagWindow f).freeCtr = s.freeCtr := rfl
@[simp] theorem State.modTagWindow_guards (f) (s : State) : (s.modTagWindow f).guards = s.guards := rfl
@[simp] theorem State.modTagWindow_dies (f) (s : State) : (s.modTagWindow f).dies = s.dies := rfl
@[simp] theorem State.modTagWindow_head (f) (s : State) : (s.modTagWindow f).head = s.head := rfl
@[simp] theorem State.modTagWindow_ks (f) (s : State) : (s.modTagWindow f).ks = s.ks := rfl
@[simp] theorem State.modTagWindow_vault (f) (s : State) : (s.modTagWindow f).vault = s.vault := rfl
@[simp] theorem State.modTagWindow_tamper (f) (s : State) : (s.modTagWindow f).tamper = s.tamper := rfl
@[simp] theorem State.modTagWindow_pk (f) (s : State) : (s.modTagWindow f).pk = s.pk := rfl
@[simp] theorem State.modTagWindow_dig (f) (s : State) : (s.modTagWindow f).dig = s.dig := rfl
@[simp] theorem State.modTagWindow_ent (f) (s : State) : (s.modTagWindow f).ent = s.ent := rfl
@[simp] theorem State.modTagWindow_ingest (f) (s : State) : (s.modTagWindow f).ingest = s.ingest := rfl
@[simp] theorem State.modTagWindow_mower (f) (s : State) : (s.modTagWindow f).mower = s.mower := rfl
@[simp] theorem State.modTagWindow_att (f) (s : State) : (s.modTagWindow f).att = s.att := rfl
@[simp] theorem State.modTagWindow_tenantBox (f) (s : State) : (s.modTagWindow f).tenantBox = s.tenantBox := rfl
@[simp] theorem State.modTagWindow_operBox (f) (s : State) : (s.modTagWindow f).operBox = s.operBox := rfl
@[simp] theorem State.modTagWindow_boot (f) (s : State) : (s.modTagWindow f).boot = s.boot := rfl
@[simp] theorem State.modTagWindow_flash (f) (s : State) : (s.modTagWindow f).flash = s.flash := rfl
@[simp] theorem State.modTagWindow_fuse (f) (s : State) : (s.modTagWindow f).fuse = s.fuse := rfl
@[simp] theorem State.modTagWindow_brup (f) (s : State) : (s.modTagWindow f).brup = s.brup := rfl
@[simp] theorem State.modTagWindow_fq (f) (s : State) : (s.modTagWindow f).fq = s.fq := rfl
@[simp] theorem State.modTagWindow_mir (f) (s : State) : (s.modTagWindow f).mir = s.mir := rfl
@[simp] theorem State.modTagWindow_sby (f) (s : State) : (s.modTagWindow f).sby = s.sby := rfl
@[simp] theorem State.modTagWindow_dma (f) (s : State) : (s.modTagWindow f).dma = s.dma := rfl
@[simp] theorem State.modTagWindow_ports (f) (s : State) : (s.modTagWindow f).ports = s.ports := rfl
@[simp] theorem State.modTagWindow_tagWindow (f) (s : State) : (s.modTagWindow f).tagWindow = f s.tagWindow := rfl
@[simp] theorem State.modGuard_pending (g) (f) (s : State) : (s.modGuard g f).pending = s.pending := rfl
@[simp] theorem State.modGuard_timer (g) (f) (s : State) : (s.modGuard g f).timer = s.timer := rfl
@[simp] theorem State.modGuard_freeCtr (g) (f) (s : State) : (s.modGuard g f).freeCtr = s.freeCtr := rfl
@[simp] theorem State.modGuard_guards (g) (f) (s : State) : (s.modGuard g f).guards = vmod s.guards g f := rfl
@[simp] theorem State.modGuard_dies (g) (f) (s : State) : (s.modGuard g f).dies = s.dies := rfl
@[simp] theorem State.modGuard_head (g) (f) (s : State) : (s.modGuard g f).head = s.head := rfl
@[simp] theorem State.modGuard_ks (g) (f) (s : State) : (s.modGuard g f).ks = s.ks := rfl
@[simp] theorem State.modGuard_vault (g) (f) (s : State) : (s.modGuard g f).vault = s.vault := rfl
@[simp] theorem State.modGuard_tamper (g) (f) (s : State) : (s.modGuard g f).tamper = s.tamper := rfl
@[simp] theorem State.modGuard_pk (g) (f) (s : State) : (s.modGuard g f).pk = s.pk := rfl
@[simp] theorem State.modGuard_dig (g) (f) (s : State) : (s.modGuard g f).dig = s.dig := rfl
@[simp] theorem State.modGuard_ent (g) (f) (s : State) : (s.modGuard g f).ent = s.ent := rfl
@[simp] theorem State.modGuard_ingest (g) (f) (s : State) : (s.modGuard g f).ingest = s.ingest := rfl
@[simp] theorem State.modGuard_mower (g) (f) (s : State) : (s.modGuard g f).mower = s.mower := rfl
@[simp] theorem State.modGuard_att (g) (f) (s : State) : (s.modGuard g f).att = s.att := rfl
@[simp] theorem State.modGuard_tenantBox (g) (f) (s : State) : (s.modGuard g f).tenantBox = s.tenantBox := rfl
@[simp] theorem State.modGuard_operBox (g) (f) (s : State) : (s.modGuard g f).operBox = s.operBox := rfl
@[simp] theorem State.modGuard_boot (g) (f) (s : State) : (s.modGuard g f).boot = s.boot := rfl
@[simp] theorem State.modGuard_flash (g) (f) (s : State) : (s.modGuard g f).flash = s.flash := rfl
@[simp] theorem State.modGuard_fuse (g) (f) (s : State) : (s.modGuard g f).fuse = s.fuse := rfl
@[simp] theorem State.modGuard_brup (g) (f) (s : State) : (s.modGuard g f).brup = s.brup := rfl
@[simp] theorem State.modGuard_fq (g) (f) (s : State) : (s.modGuard g f).fq = s.fq := rfl
@[simp] theorem State.modGuard_mir (g) (f) (s : State) : (s.modGuard g f).mir = s.mir := rfl
@[simp] theorem State.modGuard_sby (g) (f) (s : State) : (s.modGuard g f).sby = s.sby := rfl
@[simp] theorem State.modGuard_dma (g) (f) (s : State) : (s.modGuard g f).dma = s.dma := rfl
@[simp] theorem State.modGuard_ports (g) (f) (s : State) : (s.modGuard g f).ports = s.ports := rfl
@[simp] theorem State.modGuard_tagWindow (g) (f) (s : State) : (s.modGuard g f).tagWindow = s.tagWindow := rfl
@[simp] theorem State.modGuards_pending (f) (s : State) : (s.modGuards f).pending = s.pending := rfl
@[simp] theorem State.modGuards_timer (f) (s : State) : (s.modGuards f).timer = s.timer := rfl
@[simp] theorem State.modGuards_freeCtr (f) (s : State) : (s.modGuards f).freeCtr = s.freeCtr := rfl
@[simp] theorem State.modGuards_guards (f) (s : State) : (s.modGuards f).guards = vmapIdx s.guards f := rfl
@[simp] theorem State.modGuards_dies (f) (s : State) : (s.modGuards f).dies = s.dies := rfl
@[simp] theorem State.modGuards_head (f) (s : State) : (s.modGuards f).head = s.head := rfl
@[simp] theorem State.modGuards_ks (f) (s : State) : (s.modGuards f).ks = s.ks := rfl
@[simp] theorem State.modGuards_vault (f) (s : State) : (s.modGuards f).vault = s.vault := rfl
@[simp] theorem State.modGuards_tamper (f) (s : State) : (s.modGuards f).tamper = s.tamper := rfl
@[simp] theorem State.modGuards_pk (f) (s : State) : (s.modGuards f).pk = s.pk := rfl
@[simp] theorem State.modGuards_dig (f) (s : State) : (s.modGuards f).dig = s.dig := rfl
@[simp] theorem State.modGuards_ent (f) (s : State) : (s.modGuards f).ent = s.ent := rfl
@[simp] theorem State.modGuards_ingest (f) (s : State) : (s.modGuards f).ingest = s.ingest := rfl
@[simp] theorem State.modGuards_mower (f) (s : State) : (s.modGuards f).mower = s.mower := rfl
@[simp] theorem State.modGuards_att (f) (s : State) : (s.modGuards f).att = s.att := rfl
@[simp] theorem State.modGuards_tenantBox (f) (s : State) : (s.modGuards f).tenantBox = s.tenantBox := rfl
@[simp] theorem State.modGuards_operBox (f) (s : State) : (s.modGuards f).operBox = s.operBox := rfl
@[simp] theorem State.modGuards_boot (f) (s : State) : (s.modGuards f).boot = s.boot := rfl
@[simp] theorem State.modGuards_flash (f) (s : State) : (s.modGuards f).flash = s.flash := rfl
@[simp] theorem State.modGuards_fuse (f) (s : State) : (s.modGuards f).fuse = s.fuse := rfl
@[simp] theorem State.modGuards_brup (f) (s : State) : (s.modGuards f).brup = s.brup := rfl
@[simp] theorem State.modGuards_fq (f) (s : State) : (s.modGuards f).fq = s.fq := rfl
@[simp] theorem State.modGuards_mir (f) (s : State) : (s.modGuards f).mir = s.mir := rfl
@[simp] theorem State.modGuards_sby (f) (s : State) : (s.modGuards f).sby = s.sby := rfl
@[simp] theorem State.modGuards_dma (f) (s : State) : (s.modGuards f).dma = s.dma := rfl
@[simp] theorem State.modGuards_ports (f) (s : State) : (s.modGuards f).ports = s.ports := rfl
@[simp] theorem State.modGuards_tagWindow (f) (s : State) : (s.modGuards f).tagWindow = s.tagWindow := rfl
@[simp] theorem State.modDie_pending (d) (f) (s : State) : (s.modDie d f).pending = s.pending := rfl
@[simp] theorem State.modDie_timer (d) (f) (s : State) : (s.modDie d f).timer = s.timer := rfl
@[simp] theorem State.modDie_freeCtr (d) (f) (s : State) : (s.modDie d f).freeCtr = s.freeCtr := rfl
@[simp] theorem State.modDie_guards (d) (f) (s : State) : (s.modDie d f).guards = s.guards := rfl
@[simp] theorem State.modDie_dies (d) (f) (s : State) : (s.modDie d f).dies = vmod s.dies d f := rfl
@[simp] theorem State.modDie_head (d) (f) (s : State) : (s.modDie d f).head = s.head := rfl
@[simp] theorem State.modDie_ks (d) (f) (s : State) : (s.modDie d f).ks = s.ks := rfl
@[simp] theorem State.modDie_vault (d) (f) (s : State) : (s.modDie d f).vault = s.vault := rfl
@[simp] theorem State.modDie_tamper (d) (f) (s : State) : (s.modDie d f).tamper = s.tamper := rfl
@[simp] theorem State.modDie_pk (d) (f) (s : State) : (s.modDie d f).pk = s.pk := rfl
@[simp] theorem State.modDie_dig (d) (f) (s : State) : (s.modDie d f).dig = s.dig := rfl
@[simp] theorem State.modDie_ent (d) (f) (s : State) : (s.modDie d f).ent = s.ent := rfl
@[simp] theorem State.modDie_ingest (d) (f) (s : State) : (s.modDie d f).ingest = s.ingest := rfl
@[simp] theorem State.modDie_mower (d) (f) (s : State) : (s.modDie d f).mower = s.mower := rfl
@[simp] theorem State.modDie_att (d) (f) (s : State) : (s.modDie d f).att = s.att := rfl
@[simp] theorem State.modDie_tenantBox (d) (f) (s : State) : (s.modDie d f).tenantBox = s.tenantBox := rfl
@[simp] theorem State.modDie_operBox (d) (f) (s : State) : (s.modDie d f).operBox = s.operBox := rfl
@[simp] theorem State.modDie_boot (d) (f) (s : State) : (s.modDie d f).boot = s.boot := rfl
@[simp] theorem State.modDie_flash (d) (f) (s : State) : (s.modDie d f).flash = s.flash := rfl
@[simp] theorem State.modDie_fuse (d) (f) (s : State) : (s.modDie d f).fuse = s.fuse := rfl
@[simp] theorem State.modDie_brup (d) (f) (s : State) : (s.modDie d f).brup = s.brup := rfl
@[simp] theorem State.modDie_fq (d) (f) (s : State) : (s.modDie d f).fq = s.fq := rfl
@[simp] theorem State.modDie_mir (d) (f) (s : State) : (s.modDie d f).mir = s.mir := rfl
@[simp] theorem State.modDie_sby (d) (f) (s : State) : (s.modDie d f).sby = s.sby := rfl
@[simp] theorem State.modDie_dma (d) (f) (s : State) : (s.modDie d f).dma = s.dma := rfl
@[simp] theorem State.modDie_ports (d) (f) (s : State) : (s.modDie d f).ports = s.ports := rfl
@[simp] theorem State.modDie_tagWindow (d) (f) (s : State) : (s.modDie d f).tagWindow = s.tagWindow := rfl
@[simp] theorem State.modDies_pending (f) (s : State) : (s.modDies f).pending = s.pending := rfl
@[simp] theorem State.modDies_timer (f) (s : State) : (s.modDies f).timer = s.timer := rfl
@[simp] theorem State.modDies_freeCtr (f) (s : State) : (s.modDies f).freeCtr = s.freeCtr := rfl
@[simp] theorem State.modDies_guards (f) (s : State) : (s.modDies f).guards = s.guards := rfl
@[simp] theorem State.modDies_dies (f) (s : State) : (s.modDies f).dies = vmapIdx s.dies f := rfl
@[simp] theorem State.modDies_head (f) (s : State) : (s.modDies f).head = s.head := rfl
@[simp] theorem State.modDies_ks (f) (s : State) : (s.modDies f).ks = s.ks := rfl
@[simp] theorem State.modDies_vault (f) (s : State) : (s.modDies f).vault = s.vault := rfl
@[simp] theorem State.modDies_tamper (f) (s : State) : (s.modDies f).tamper = s.tamper := rfl
@[simp] theorem State.modDies_pk (f) (s : State) : (s.modDies f).pk = s.pk := rfl
@[simp] theorem State.modDies_dig (f) (s : State) : (s.modDies f).dig = s.dig := rfl
@[simp] theorem State.modDies_ent (f) (s : State) : (s.modDies f).ent = s.ent := rfl
@[simp] theorem State.modDies_ingest (f) (s : State) : (s.modDies f).ingest = s.ingest := rfl
@[simp] theorem State.modDies_mower (f) (s : State) : (s.modDies f).mower = s.mower := rfl
@[simp] theorem State.modDies_att (f) (s : State) : (s.modDies f).att = s.att := rfl
@[simp] theorem State.modDies_tenantBox (f) (s : State) : (s.modDies f).tenantBox = s.tenantBox := rfl
@[simp] theorem State.modDies_operBox (f) (s : State) : (s.modDies f).operBox = s.operBox := rfl
@[simp] theorem State.modDies_boot (f) (s : State) : (s.modDies f).boot = s.boot := rfl
@[simp] theorem State.modDies_flash (f) (s : State) : (s.modDies f).flash = s.flash := rfl
@[simp] theorem State.modDies_fuse (f) (s : State) : (s.modDies f).fuse = s.fuse := rfl
@[simp] theorem State.modDies_brup (f) (s : State) : (s.modDies f).brup = s.brup := rfl
@[simp] theorem State.modDies_fq (f) (s : State) : (s.modDies f).fq = s.fq := rfl
@[simp] theorem State.modDies_mir (f) (s : State) : (s.modDies f).mir = s.mir := rfl
@[simp] theorem State.modDies_sby (f) (s : State) : (s.modDies f).sby = s.sby := rfl
@[simp] theorem State.modDies_dma (f) (s : State) : (s.modDies f).dma = s.dma := rfl
@[simp] theorem State.modDies_ports (f) (s : State) : (s.modDies f).ports = s.ports := rfl
@[simp] theorem State.modDies_tagWindow (f) (s : State) : (s.modDies f).tagWindow = s.tagWindow := rfl

end Sys2Proof.Machine
end

