-- ==== Sys2Proof/Laws/Shared.lean ====
section
/-!
SUPPORT. What the shared operations can do: register access, faults, answers to requesters, loops.
-/

namespace Sys2Proof.Machine
open Sys2Proof

theorem whenUp_up {s : State} (k : State → State) (h : s.ports.rstCold = false) : whenUp s k = k s := by simp [whenUp, h]

@[simp] theorem onlyIf_true (k : State → State) (s : State) : onlyIf true k s = k s := rfl

@[simp] theorem onlyIf_false (k : State → State) (s : State) : onlyIf false k s = s := rfl

@[simp] theorem accessOk_core (c : Fin 4) (v : BitVec 32) (s : State) : accessOk (.core c) v s = s := rfl

/-- A write that reaches its register and may change it does so. -/
theorem writeAt_ok {px : Bool} {p : Path} {addr : Nat} {k : State → State} {s : State} (h : Access s p addr)
    (hp : px = true → privileged p = true) : writeAt px p addr k s = accessOk p 0 (k s) := by
  obtain ⟨h1, h2, h3, h4⟩ := h
  unfold writeAt
  cases px <;> simp_all [State.cleared]

/-- A write by the owner of a page. -/
theorem writeOwned_ok {p : Path} {addr : Nat} {count k : State → State} {s : State} (h : Write s p addr) :
    writeOwned p addr true count k s = accessOk p 0 (k s) := by
  obtain ⟨⟨h1, h2, h3, h4⟩, h5⟩ := h
  simp [writeOwned, State.cleared, h1, h2, h3, h4, h5]

/-- A write to a register of a page with an owner rule that needs no privilege. -/
theorem writeGated_ok {p : Path} {addr : Nat} {count k : State → State} {s : State} (h : Access s p addr) :
    writeGated p addr true count k s = accessOk p 0 (k s) := by
  obtain ⟨h1, h2, h3, h4⟩ := h
  simp [writeGated, State.cleared, h1, h2, h3, h4]

/-! ### Guards and die sections by number -/

theorem vmod_get {α : Type} {n : Nat} (v : Vector α n) (i : Nat) (f : α → α) (j : Fin n) :
    (vmod v i f).get j = if j.val = i then f (v.get j) else v.get j := by
  show (vmod v i f)[j.val] = if j.val = i then f v[j.val] else v[j.val]
  unfold vmod
  split
  · rename_i h
    rw [Vector.getElem_set]
    by_cases e : i = j.val
    · subst e; simp; rfl
    · have e' : ¬ j.val = i := fun h => e (Eq.symm h)
      simp [e, e']
  · rename_i h
    have : j.val ≠ i := fun e => h (e ▸ j.isLt)
    simp [this]

theorem vmapIdx_get {α : Type} {n : Nat} (v : Vector α n) (f : Nat → α → α) (j : Fin n) : (vmapIdx v f).get j = f j.val (v.get j) := by
  show (vmapIdx v f)[j.val] = f j.val v[j.val]
  simp [vmapIdx]

theorem guardN_modGuard (s : State) (g h : Nat) (f : Guard → Guard) :
    (s.modGuard g f).guardN h = if h = g ∧ g < 40 then f (s.guardN h) else s.guardN h := by
  unfold State.guardN
  by_cases hh : h < 40
  · simp only [hh, dif_pos, State.modGuard_guards, vmod_get]
    by_cases e : h = g
    · subst e; simp [hh]
    · simp [e]
  · simp only [hh, dif_neg, not_false_eq_true]
    by_cases e : h = g
    · subst e; simp [hh]
    · simp [e]

theorem guardN_modGuards (s : State) (h : Nat) (f : Nat → Guard → Guard) (hh : h < 40) :
    (s.modGuards f).guardN h = f h (s.guardN h) := by
  simp [State.guardN, hh, vmapIdx_get]

theorem dieN_modDie (s : State) (g h : Nat) (f : Die → Die) :
    (s.modDie g f).dieN h = if h = g ∧ g < 4 then f (s.dieN h) else s.dieN h := by
  unfold State.dieN
  by_cases hh : h < 4
  · simp only [hh, dif_pos, State.modDie_dies, vmod_get]
    by_cases e : h = g
    · subst e; simp [hh]
    · simp [e]
  · simp only [hh, dif_neg, not_false_eq_true]
    by_cases e : h = g
    · subst e; simp [hh]
    · simp [e]

theorem dieN_modDies (s : State) (h : Nat) (f : Nat → Die → Die) (hh : h < 4) : (s.modDies f).dieN h = f h (s.dieN h) := by
  simp [State.dieN, hh, vmapIdx_get]

/-- A fault changes nothing but the fault queue. -/
theorem raise_fq (safety : Bool) (kind unit code reaction detail : Nat) (s : State) :
    ∃ q, raise safety kind unit code reaction detail s = { s with fq := q } := by
  unfold raise
  split
  · exact ⟨s.fq, rfl⟩
  · exact ⟨_, rfl⟩

/-- A loop whose passes change nothing but the fault queue changes nothing else. -/
theorem forEach_fq {α : Type} (l : List α) (f : α → State → State) (hf : ∀ a s, ∃ q, f a s = { s with fq := q }) (s : State) :
    ∃ q, forEach l f s = { s with fq := q } := by
  induction l generalizing s with
  | nil => exact ⟨s.fq, rfl⟩
  | cons a l ih =>
    obtain ⟨q, hq⟩ := hf a s
    obtain ⟨r, hr⟩ := ih (f a s)
    refine ⟨r, ?_⟩
    show forEach l f (f a s) = _
    rw [hr, hq]

/-! ### The fault queue's areas (R594 to R597) -/

theorem fits_iff (q : FaultQ) : q.fits = true ↔ q.general ≤ 960 ∧ q.reserved ≤ 64 ∧ ∀ e ∈ q.entries, e.2 = true → e.1.safety = true := by
  unfold FaultQ.fits
  simp only [Bool.and_eq_true, decide_eq_true_eq, List.all_eq_true, and_assoc]
  refine and_congr_right fun _ => and_congr_right fun _ => ⟨fun h e he h2 => ?_, fun h e he => ?_⟩
  · have := h e he
    rw [h2] at this; simpa using this
  · cases h2 : e.2
    · rfl
    · rw [h e he h2]; rfl

/-- A fault placed keeps each area within its bound. -/
theorem place_fits (f : FaultEntry) (q : FaultQ) (h : q.fits = true) : (q.place f).fits = true := by
  obtain ⟨h1, h2, h3⟩ := (fits_iff q).mp h
  unfold FaultQ.place
  repeat' split
  · refine (fits_iff _).mpr ⟨?_, ?_, fun e he => ?_⟩
    · show (List.filter _ (q.entries ++ _)).length ≤ _
      rw [List.filter_append, List.length_append]
      have : (q.entries.filter (fun e => !e.2)).length < 960 := by assumption
      simp; omega
    · show (List.filter _ (q.entries ++ _)).length ≤ _
      rw [List.filter_append, List.length_append]
      have : (q.entries.filter (fun e => e.2)).length ≤ 64 := h2
      simp; omega
    · rcases List.mem_append.mp he with he | he
      · exact h3 e he
      · simp at he; subst he; intro hh; cases hh
  · rename_i hs hr
    refine (fits_iff _).mpr ⟨?_, ?_, fun e he => ?_⟩
    · show (List.filter _ (q.entries ++ _)).length ≤ _
      rw [List.filter_append, List.length_append]
      have : (q.entries.filter (fun e => !e.2)).length ≤ 960 := h1
      simp; omega
    · show (List.filter _ (q.entries ++ _)).length ≤ _
      rw [List.filter_append, List.length_append]
      have : (q.entries.filter (fun e => e.2)).length < 64 := hr
      simp; omega
    · rcases List.mem_append.mp he with he | he
      · exact h3 e he
      · simp at he; subst he; exact fun _ => hs
  · unfold FaultQ.latch
    split <;> exact h
  · exact h

theorem push_fits (f : FaultEntry) (q : FaultQ) (h : q.fits = true) : (FaultQ.push f q).fits = true := place_fits _ _ h

/-! ### Requests in flight at the DMA port (R631) -/

theorem dma_fits_iff (d : Dma) : d.fits = true ↔ d.flight.length ≤ 64 ∧ (d.flight.map (fun f => f.1)).Nodup := by
  unfold Dma.fits; simp

/-- Requests answered leave the others in flight. -/
theorem flight_filter (p : BitVec 6 × Nat × Nat × Bool → Bool) (d : Dma) (h : d.fits = true) :
    ({ d with flight := d.flight.filter p } : Dma).fits = true := by
  obtain ⟨h1, h2⟩ := (dma_fits_iff d).mp h
  refine (dma_fits_iff _).mpr ⟨Nat.le_trans (List.length_filter_le _ _) h1, ?_⟩
  exact List.Nodup.sublist (List.Sublist.map _ List.filter_sublist) h2

/-- R631: while fewer than 64 requests are in flight, one of the 64 identifiers is free, wherever the search for it begins. -/
theorem free_id (used : List Nat) (k : Nat) (h : used.length < 64) :
    ∃ i, ((List.range 64).map (fun i => (k + i) % 64)).find? (fun x => !used.contains x) = some i ∧ i < 64 ∧ i ∉ used := by
  cases hf : ((List.range 64).map (fun i => (k + i) % 64)).find? (fun x => !used.contains x) with
  | some i =>
    have h1 := List.find?_some hf
    have h2 := List.mem_of_find?_eq_some hf
    obtain ⟨j, _, rfl⟩ := List.mem_map.mp h2
    exact ⟨_, rfl, Nat.mod_lt _ (by decide), by simpa using h1⟩
  | none =>
    exfalso
    have hall : ∀ x ∈ (List.range 64).map (fun i => (k + i) % 64), x ∈ used := by
      intro x hx
      have := List.find?_eq_none.mp hf x hx
      simpa using this
    have hn : ((List.range 64).map (fun i => (k + i) % 64)).Nodup := by
      refine List.Nodup.map_on ?_ List.nodup_range
      intro a ha b hb he
      rw [List.mem_range] at ha hb
      omega
    have := (hn.subperm hall).length_le
    simp at this
    omega

/-! ### What an update may change -/

theorem bits_kept (a : BitVec 72) : a &&& ~~~ a = 0 := by
  ext i; simp

/-- What keeps the fuse array and what the invariant speaks of keeps what stays. -/
theorem Lasting.same {s t : State} (ha : t.fuse.array = s.fuse.array) (hf : t.flash = s.flash) (hq : t.fq.entries = s.fq.entries)
    (hd : t.dma.flight = s.dma.flight) (ht : t.tamper = s.tamper) : Lasting s t :=
  ⟨fun h => ⟨by rw [hf]; exact h.flash, by have := h.queue; unfold FaultQ.fits FaultQ.general FaultQ.reserved at *; rw [hq]; exact this,
    by have := h.flight; unfold Dma.fits at *; rw [hd]; exact this, by rw [ht]; exact h.tamper⟩,
    fun w => by rw [fuseWord_array ha]; exact bits_kept _, fun w => by rw [fuseWord_array ha]; exact bits_kept _⟩

/-- What keeps the fuse array and the invariant keeps what stays. -/
theorem Lasting.of {s t : State} (ha : t.fuse.array = s.fuse.array) (hi : s.Inv → t.Inv) : Lasting s t :=
  ⟨hi, fun w => by rw [fuseWord_array ha]; exact bits_kept _, fun w => by rw [fuseWord_array ha]; exact bits_kept _⟩

/-- Bits set in each step are set at the end. -/
theorem bits_trans {a b c : BitVec 72} (h : a &&& ~~~ b = 0) (h' : b &&& ~~~ c = 0) : a &&& ~~~ c = 0 := by
  apply BitVec.eq_of_getLsbD_eq
  intro i hi
  have h1 := congrArg (fun v => v.getLsbD i) h
  have h2 := congrArg (fun v => v.getLsbD i) h'
  have hz : (0 : BitVec 72).getLsbD i = false := BitVec.getLsbD_zero
  simp only [BitVec.getLsbD_and, BitVec.getLsbD_not, hi, decide_true, Bool.true_and, hz] at *
  cases ha : a.getLsbD i <;> cases hb : b.getLsbD i <;> simp_all

theorem bits_or (a b : BitVec 72) : a &&& ~~~ (a ||| b) = 0 := by
  apply BitVec.eq_of_getLsbD_eq
  intro i hi
  have hz : (0 : BitVec 72).getLsbD i = false := BitVec.getLsbD_zero
  simp only [BitVec.getLsbD_and, BitVec.getLsbD_not, BitVec.getLsbD_or, hi, decide_true, Bool.true_and, hz]
  cases a.getLsbD i <;> cases b.getLsbD i <;> rfl

theorem Lasting.trans {s u t : State} (h : Lasting s u) (h' : Lasting u t) : Lasting s t :=
  ⟨fun f => h'.inv (h.inv f), fun w => bits_trans (h.norm w) (h'.norm w), fun w => bits_trans (h.tight w) (h'.tight w)⟩

theorem Only.refl (ps : List Part) (s : State) : Only ps s s := ⟨fun p _ => by cases p <;> rfl, Lasting.same rfl rfl rfl rfl rfl⟩

theorem Part.same_trans {s u t : State} {p : Part} (h : p.same s u) (h' : p.same u t) : p.same s t := by
  cases p
  case vault => exact Eq.trans h' (by rw [show u.vault = _ from h])
  case fuse => exact Eq.trans h' (by rw [show u.fuse = _ from h])
  all_goals exact Eq.trans h' h

theorem Only.trans {ps : List Part} {s u t : State} (h : Only ps s u) (h' : Only ps u t) : Only ps s t :=
  ⟨fun p hp => Part.same_trans (h.same p hp) (h'.same p hp), h.lasting.trans h'.lasting⟩

theorem Only.mono {ps qs : List Part} {s t : State} (h : Only qs s t) (hq : qs.all (fun p => ps.contains p) = true) : Only ps s t :=
  ⟨fun p hp => h.same p (fun hm => hp (by simpa using List.all_eq_true.mp hq p hm)), h.lasting⟩

/-- What is among parts that may change may change. -/
theorem Only.sub {P Q ps : List Part} (h : P.all (fun p => Q.contains p) = true) (hq : Q.all (fun p => ps.contains p) = true) :
    P.all (fun p => ps.contains p) = true := by
  simp only [List.all_eq_true, List.contains_iff_mem] at *
  exact fun p hp => hq p (h p hp)

/-- An operation after others: what it may change is among the parts that may change. -/
theorem Only.via {ps Q : List Part} {s u t : State} (h' : Only Q u t) (hq : Q.all (fun p => ps.contains p) = true)
    (h : Only ps s u) : Only ps s t := h.trans (h'.mono hq)

theorem Only.whenUp {ps : List Part} {b s : State} {k : State → State} (h : Only ps b s) (hk : ∀ u, Only ps b u → Only ps b (k u)) :
    Only ps b (whenUp s k) := by
  unfold Sys2Proof.Machine.whenUp; split
  · exact h
  · exact hk s h

theorem Only.onlyIf {ps : List Part} {b s : State} {c : Bool} {k : State → State} (h : Only ps b s)
    (hk : ∀ u, Only ps b u → Only ps b (k u)) : Only ps b (onlyIf c k s) := by
  unfold Sys2Proof.Machine.onlyIf; split
  · exact hk s h
  · exact h

/-- The state that an operation answers beside another value. -/
theorem Only.ofPair {α : Type} {ps : List Part} {b t : State} {a : α} {r : α × State} (h : r = (a, t)) (hr : Only ps b r.2) : Only ps b t := by
  subst h; exact hr

theorem Only.ofTriple {α β : Type} {ps : List Part} {b t : State} {a : α} {c : β} {r : α × β × State} (h : r = (a, c, t))
    (hr : Only ps b r.2.2) : Only ps b t := by
  subst h; exact hr

theorem Only.foldl {ps : List Part} {b s : State} {α : Type} {l : List α} {f : State → α → State} (h : Only ps b s)
    (hf : ∀ u a, Only ps b u → Only ps b (f u a)) : Only ps b (l.foldl f s) := by
  induction l generalizing s with
  | nil => exact h
  | cons a l ih => exact ih (hf s a h)

theorem Only.foldlPair {ps : List Part} {b : State} {α β : Type} {l : List α} {f : β × State → α → β × State} {s : β × State}
    (h : Only ps b s.2) (hf : ∀ u a, Only ps b u.2 → Only ps b (f u a).2) : Only ps b (l.foldl f s).2 := by
  induction l generalizing s with
  | nil => exact h
  | cons a l ih => exact ih (hf s a h)

theorem Only.forEach {ps : List Part} {b s : State} {α : Type} {l : List α} {f : α → State → State} (h : Only ps b s)
    (hf : ∀ a u, Only ps b u → Only ps b (f a u)) : Only ps b (forEach l f s) := by
  induction l generalizing s with
  | nil => exact h
  | cons a l ih => exact ih (hf a s h)

theorem Only.modGuard (g) (f) (s : State) : Only [.guards] s (s.modGuard g f) := ⟨fun p hp => by cases p <;> first | rfl | exact absurd (by decide) hp, Lasting.same rfl rfl rfl rfl rfl⟩
theorem Only.modGuards (f) (s : State) : Only [.guards] s (s.modGuards f) := ⟨fun p hp => by cases p <;> first | rfl | exact absurd (by decide) hp, Lasting.same rfl rfl rfl rfl rfl⟩
theorem Only.modDie (d) (f) (s : State) : Only [.dies] s (s.modDie d f) := ⟨fun p hp => by cases p <;> first | rfl | exact absurd (by decide) hp, Lasting.same rfl rfl rfl rfl rfl⟩
theorem Only.modDies (f) (s : State) : Only [.dies] s (s.modDies f) := ⟨fun p hp => by cases p <;> first | rfl | exact absurd (by decide) hp, Lasting.same rfl rfl rfl rfl rfl⟩
theorem Only.modTimer (f) (s : State) : Only [.timer] s (s.modTimer f) := ⟨fun p hp => by cases p <;> first | rfl | exact absurd (by decide) hp, Lasting.same rfl rfl rfl rfl rfl⟩
theorem Only.modFreeCtr (f) (s : State) : Only [.freeCtr] s (s.modFreeCtr f) := ⟨fun p hp => by cases p <;> first | rfl | exact absurd (by decide) hp, Lasting.same rfl rfl rfl rfl rfl⟩
theorem Only.modHead (f) (s : State) : Only [.head] s (s.modHead f) := ⟨fun p hp => by cases p <;> first | rfl | exact absurd (by decide) hp, Lasting.same rfl rfl rfl rfl rfl⟩
theorem Only.modKs (f) (s : State) : Only [.ks] s (s.modKs f) := ⟨fun p hp => by cases p <;> first | rfl | exact absurd (by decide) hp, Lasting.same rfl rfl rfl rfl rfl⟩
theorem Only.modVault (f) (s : State) : Only [.vault, .slots] s (s.modVault f) := ⟨fun p hp => by cases p <;> first | rfl | exact absurd (by decide) hp, Lasting.same rfl rfl rfl rfl rfl⟩
theorem Only.modTamper (f) (s : State) (hf : s.tamper.coherent = true → (f s.tamper).coherent = true) : Only [.tamper] s (s.modTamper f) :=
  ⟨fun p hp => by cases p <;> first | rfl | exact absurd (by decide) hp, Lasting.of rfl fun h => ⟨h.flash, h.queue, h.flight, hf h.tamper⟩⟩
theorem Only.modPk (f) (s : State) : Only [.pk] s (s.modPk f) := ⟨fun p hp => by cases p <;> first | rfl | exact absurd (by decide) hp, Lasting.same rfl rfl rfl rfl rfl⟩
theorem Only.modDig (f) (s : State) : Only [.dig] s (s.modDig f) := ⟨fun p hp => by cases p <;> first | rfl | exact absurd (by decide) hp, Lasting.same rfl rfl rfl rfl rfl⟩
theorem Only.modEnt (f) (s : State) : Only [.ent] s (s.modEnt f) := ⟨fun p hp => by cases p <;> first | rfl | exact absurd (by decide) hp, Lasting.same rfl rfl rfl rfl rfl⟩
theorem Only.modIngest (f) (s : State) : Only [.ingest] s (s.modIngest f) := ⟨fun p hp => by cases p <;> first | rfl | exact absurd (by decide) hp, Lasting.same rfl rfl rfl rfl rfl⟩
theorem Only.modMower (f) (s : State) : Only [.mower] s (s.modMower f) := ⟨fun p hp => by cases p <;> first | rfl | exact absurd (by decide) hp, Lasting.same rfl rfl rfl rfl rfl⟩
theorem Only.modAtt (f) (s : State) : Only [.att] s (s.modAtt f) := ⟨fun p hp => by cases p <;> first | rfl | exact absurd (by decide) hp, Lasting.same rfl rfl rfl rfl rfl⟩
theorem Only.modTenantBox (f) (s : State) : Only [.tenantBox] s (s.modTenantBox f) := ⟨fun p hp => by cases p <;> first | rfl | exact absurd (by decide) hp, Lasting.same rfl rfl rfl rfl rfl⟩
theorem Only.modOperBox (f) (s : State) : Only [.operBox] s (s.modOperBox f) := ⟨fun p hp => by cases p <;> first | rfl | exact absurd (by decide) hp, Lasting.same rfl rfl rfl rfl rfl⟩
theorem Only.modBoot (f) (s : State) : Only [.boot] s (s.modBoot f) := ⟨fun p hp => by cases p <;> first | rfl | exact absurd (by decide) hp, Lasting.same rfl rfl rfl rfl rfl⟩
theorem Only.modFlash (f) (s : State) (hf : bufWf 0xFF s.flash = true → bufWf 0xFF (f s.flash) = true) : Only [.flash] s (s.modFlash f) :=
  ⟨fun p hp => by cases p <;> first | rfl | exact absurd (by decide) hp, Lasting.of rfl fun h => ⟨hf h.flash, h.queue, h.flight, h.tamper⟩⟩
theorem Only.modBrup (f) (s : State) : Only [.brup] s (s.modBrup f) := ⟨fun p hp => by cases p <;> first | rfl | exact absurd (by decide) hp, Lasting.same rfl rfl rfl rfl rfl⟩
theorem Only.modFq (f) (s : State) (hf : s.fq.fits = true → (f s.fq).fits = true) : Only [.fq] s (s.modFq f) :=
  ⟨fun p hp => by cases p <;> first | rfl | exact absurd (by decide) hp, Lasting.of rfl fun h => ⟨h.flash, hf h.queue, h.flight, h.tamper⟩⟩
theorem Only.modMir (f) (s : State) : Only [.mir] s (s.modMir f) := ⟨fun p hp => by cases p <;> first | rfl | exact absurd (by decide) hp, Lasting.same rfl rfl rfl rfl rfl⟩
theorem Only.modSby (f) (s : State) : Only [.sby] s (s.modSby f) := ⟨fun p hp => by cases p <;> first | rfl | exact absurd (by decide) hp, Lasting.same rfl rfl rfl rfl rfl⟩
theorem Only.modDma (f) (s : State) (hf : s.dma.fits = true → (f s.dma).fits = true) : Only [.dma] s (s.modDma f) :=
  ⟨fun p hp => by cases p <;> first | rfl | exact absurd (by decide) hp, Lasting.of rfl fun h => ⟨h.flash, h.queue, hf h.flight, h.tamper⟩⟩
theorem Only.modPorts (f) (s : State) : Only [.ports] s (s.modPorts f) := ⟨fun p hp => by cases p <;> first | rfl | exact absurd (by decide) hp, Lasting.same rfl rfl rfl rfl rfl⟩
theorem Only.modTagWindow (f) (s : State) : Only [.tagWindow] s (s.modTagWindow f) := ⟨fun p hp => by cases p <;> first | rfl | exact absurd (by decide) hp, Lasting.same rfl rfl rfl rfl rfl⟩

/-- An update of the vault that leaves the anchor slots. -/
theorem Only.viaVault {ps : List Part} {b s : State} {f : Vault → Vault} (hf : ∀ v, (f v).slots = v.slots)
    (hq : ([.vault] : List Part).all (fun p => ps.contains p) = true) (h : Only ps b s) : Only ps b (s.modVault f) := by
  have h' : Only [.vault] s (s.modVault f) :=
    ⟨fun p hp => by cases p <;> first | rfl | exact absurd (by decide) hp | exact hf _, Lasting.same rfl rfl rfl rfl rfl⟩
  exact Only.via h' hq h

/-- An update of the fuse controller that leaves the array. -/
theorem Only.viaFuse {ps : List Part} {b s : State} {f : Fuse → Fuse} (hf : ∀ v, (f v).array = v.array)
    (hq : ([.fuse] : List Part).all (fun p => ps.contains p) = true) (h : Only ps b s) : Only ps b (s.modFuse f) := by
  have h' : Only [.fuse] s (s.modFuse f) :=
    ⟨fun p hp => by cases p <;> first | rfl | exact absurd (by decide) hp | exact hf _, Lasting.same (hf _) rfl rfl rfl rfl⟩
  exact Only.via h' hq h

/-- The register at an address is answered: only the ports' state may change. -/
theorem Only.accessOk (p : Path) (v : BitVec 32) (s : State) : Only [.ports] s (accessOk p v s) := by
  cases p
  · exact Only.refl _ _
  · unfold Machine.accessOk; exact Only.modPorts _ _

theorem Only.accessError (p : Path) (s : State) : Only [.ports] s (accessError p s) := by
  cases p
  · exact Only.refl _ _
  · unfold Machine.accessError; exact Only.modPorts _ _

theorem Only.pxDrop (p : Path) (a : Nat) (s : State) : Only [.ports] s (pxDrop p a s) := by
  cases p
  · exact Only.refl _ _
  · unfold Machine.pxDrop; exact Only.modPorts _ _

theorem Only.writeAt {ps : List Part} {b s : State} {px : Bool} {p : Path} {addr : Nat} {k : State → State} (h : Only ps b s)
    (hp : ([.ports] : List Part).all (fun p => ps.contains p) = true) (hk : ∀ u, Only ps b u → Only ps b (k u)) :
    Only ps b (writeAt px p addr k s) := by
  unfold Sys2Proof.Machine.writeAt
  split; · exact h
  split; · exact Only.via (Only.accessError _ _) hp h
  split; · exact h
  split; · exact Only.via (Only.accessOk _ _ _) hp h
  split; · exact Only.via (Only.accessOk _ _ _) hp (Only.via (Only.pxDrop _ _ _) hp h)
  exact Only.via (Only.accessOk _ _ _) hp (hk s h)

theorem Only.writeOwned {ps : List Part} {b s : State} {p : Path} {addr : Nat} {own : Bool} {count k : State → State} (h : Only ps b s)
    (hp : ([.ports] : List Part).all (fun p => ps.contains p) = true) (hc : ∀ u, Only ps b u → Only ps b (count u))
    (hk : ∀ u, Only ps b u → Only ps b (k u)) : Only ps b (writeOwned p addr own count k s) := by
  unfold Sys2Proof.Machine.writeOwned
  dsimp only
  split; · exact h
  split; · exact Only.via (Only.accessError _ _) hp h
  split; · exact h
  split; · exact Only.via (Only.accessOk _ _ _) hp h
  split
  · refine Only.via (Only.accessOk _ _ _) hp (Only.via (Only.pxDrop _ _ _) hp ?_)
    split
    · exact h
    · exact hc s h
  refine Only.via (Only.accessOk _ _ _) hp ?_
  split
  · exact hk s h
  · exact hc s h

theorem Only.writeGated {ps : List Part} {b s : State} {p : Path} {addr : Nat} {own : Bool} {count k : State → State} (h : Only ps b s)
    (hp : ([.ports] : List Part).all (fun p => ps.contains p) = true) (hc : ∀ u, Only ps b u → Only ps b (count u))
    (hk : ∀ u, Only ps b u → Only ps b (k u)) : Only ps b (writeGated p addr own count k s) := by
  unfold Sys2Proof.Machine.writeGated
  split; · exact h
  split; · exact Only.via (Only.accessError _ _) hp h
  split; · exact h
  split; · exact Only.via (Only.accessOk _ _ _) hp h
  refine Only.via (Only.accessOk _ _ _) hp ?_
  split
  · exact hk s h
  · exact hc s h

/-! ### A part outside what may change -/

theorem Only.pending_eq {ps : List Part} {s t : State} (h : Only ps s t) (hp : Part.pending ∉ ps := by decide) : t.pending = s.pending := h.same _ hp
theorem Only.timer_eq {ps : List Part} {s t : State} (h : Only ps s t) (hp : Part.timer ∉ ps := by decide) : t.timer = s.timer := h.same _ hp
theorem Only.freeCtr_eq {ps : List Part} {s t : State} (h : Only ps s t) (hp : Part.freeCtr ∉ ps := by decide) : t.freeCtr = s.freeCtr := h.same _ hp
theorem Only.guards_eq {ps : List Part} {s t : State} (h : Only ps s t) (hp : Part.guards ∉ ps := by decide) : t.guards = s.guards := h.same _ hp
theorem Only.dies_eq {ps : List Part} {s t : State} (h : Only ps s t) (hp : Part.dies ∉ ps := by decide) : t.dies = s.dies := h.same _ hp
theorem Only.head_eq {ps : List Part} {s t : State} (h : Only ps s t) (hp : Part.head ∉ ps := by decide) : t.head = s.head := h.same _ hp
theorem Only.ks_eq {ps : List Part} {s t : State} (h : Only ps s t) (hp : Part.ks ∉ ps := by decide) : t.ks = s.ks := h.same _ hp
theorem Only.slots_eq {ps : List Part} {s t : State} (h : Only ps s t) (hp : Part.slots ∉ ps := by decide) : t.vault.slots = s.vault.slots := h.same _ hp
theorem Only.vault_eq {ps : List Part} {s t : State} (h : Only ps s t) (hp : Part.vault ∉ ps := by decide) (hq : Part.slots ∉ ps := by decide) :
    t.vault = s.vault := (show _ = _ from h.same _ hp).trans (by rw [h.slots_eq hq])
theorem Only.tamper_eq {ps : List Part} {s t : State} (h : Only ps s t) (hp : Part.tamper ∉ ps := by decide) : t.tamper = s.tamper := h.same _ hp
theorem Only.pk_eq {ps : List Part} {s t : State} (h : Only ps s t) (hp : Part.pk ∉ ps := by decide) : t.pk = s.pk := h.same _ hp
theorem Only.dig_eq {ps : List Part} {s t : State} (h : Only ps s t) (hp : Part.dig ∉ ps := by decide) : t.dig = s.dig := h.same _ hp
theorem Only.ent_eq {ps : List Part} {s t : State} (h : Only ps s t) (hp : Part.ent ∉ ps := by decide) : t.ent = s.ent := h.same _ hp
theorem Only.ingest_eq {ps : List Part} {s t : State} (h : Only ps s t) (hp : Part.ingest ∉ ps := by decide) : t.ingest = s.ingest := h.same _ hp
theorem Only.mower_eq {ps : List Part} {s t : State} (h : Only ps s t) (hp : Part.mower ∉ ps := by decide) : t.mower = s.mower := h.same _ hp
theorem Only.att_eq {ps : List Part} {s t : State} (h : Only ps s t) (hp : Part.att ∉ ps := by decide) : t.att = s.att := h.same _ hp
theorem Only.tenantBox_eq {ps : List Part} {s t : State} (h : Only ps s t) (hp : Part.tenantBox ∉ ps := by decide) : t.tenantBox = s.tenantBox := h.same _ hp
theorem Only.operBox_eq {ps : List Part} {s t : State} (h : Only ps s t) (hp : Part.operBox ∉ ps := by decide) : t.operBox = s.operBox := h.same _ hp
theorem Only.boot_eq {ps : List Part} {s t : State} (h : Only ps s t) (hp : Part.boot ∉ ps := by decide) : t.boot = s.boot := h.same _ hp
theorem Only.flash_eq {ps : List Part} {s t : State} (h : Only ps s t) (hp : Part.flash ∉ ps := by decide) : t.flash = s.flash := h.same _ hp
theorem Only.array_eq {ps : List Part} {s t : State} (h : Only ps s t) (hp : Part.array ∉ ps := by decide) : t.fuse.array = s.fuse.array := h.same _ hp
theorem Only.fuse_eq {ps : List Part} {s t : State} (h : Only ps s t) (hp : Part.fuse ∉ ps := by decide) (hq : Part.array ∉ ps := by decide) :
    t.fuse = s.fuse := (show _ = _ from h.same _ hp).trans (by rw [h.array_eq hq])
theorem Only.brup_eq {ps : List Part} {s t : State} (h : Only ps s t) (hp : Part.brup ∉ ps := by decide) : t.brup = s.brup := h.same _ hp
theorem Only.fq_eq {ps : List Part} {s t : State} (h : Only ps s t) (hp : Part.fq ∉ ps := by decide) : t.fq = s.fq := h.same _ hp
theorem Only.mir_eq {ps : List Part} {s t : State} (h : Only ps s t) (hp : Part.mir ∉ ps := by decide) : t.mir = s.mir := h.same _ hp
theorem Only.sby_eq {ps : List Part} {s t : State} (h : Only ps s t) (hp : Part.sby ∉ ps := by decide) : t.sby = s.sby := h.same _ hp
theorem Only.dma_eq {ps : List Part} {s t : State} (h : Only ps s t) (hp : Part.dma ∉ ps := by decide) : t.dma = s.dma := h.same _ hp
theorem Only.ports_eq {ps : List Part} {s t : State} (h : Only ps s t) (hp : Part.ports ∉ ps := by decide) : t.ports = s.ports := h.same _ hp
theorem Only.tagWindow_eq {ps : List Part} {s t : State} (h : Only ps s t) (hp : Part.tagWindow ∉ ps := by decide) : t.tagWindow = s.tagWindow := h.same _ hp

/-! ### A state from its one changed part -/

theorem State.ext_parts {s t : State} (h_pending : t.pending = s.pending) (h_timer : t.timer = s.timer) (h_freeCtr : t.freeCtr = s.freeCtr) (h_guards : t.guards = s.guards) (h_dies : t.dies = s.dies) (h_head : t.head = s.head) (h_ks : t.ks = s.ks) (h_vault : t.vault = s.vault) (h_tamper : t.tamper = s.tamper) (h_pk : t.pk = s.pk) (h_dig : t.dig = s.dig) (h_ent : t.ent = s.ent) (h_ingest : t.ingest = s.ingest) (h_mower : t.mower = s.mower) (h_att : t.att = s.att) (h_tenantBox : t.tenantBox = s.tenantBox) (h_operBox : t.operBox = s.operBox) (h_boot : t.boot = s.boot) (h_flash : t.flash = s.flash) (h_fuse : t.fuse = s.fuse) (h_brup : t.brup = s.brup) (h_fq : t.fq = s.fq) (h_mir : t.mir = s.mir) (h_sby : t.sby = s.sby) (h_dma : t.dma = s.dma) (h_ports : t.ports = s.ports) (h_tagWindow : t.tagWindow = s.tagWindow) : t = s := by
  cases s; cases t; dsimp only at *; subst_vars; rfl

theorem Only.flash_eta {s t : State} (h : Only [.flash] s t) : t = { s with flash := t.flash } :=
  State.ext_parts h.pending_eq h.timer_eq h.freeCtr_eq h.guards_eq h.dies_eq h.head_eq h.ks_eq h.vault_eq h.tamper_eq h.pk_eq h.dig_eq h.ent_eq h.ingest_eq h.mower_eq h.att_eq h.tenantBox_eq h.operBox_eq h.boot_eq rfl h.fuse_eq h.brup_eq h.fq_eq h.mir_eq h.sby_eq h.dma_eq h.ports_eq h.tagWindow_eq

end Sys2Proof.Machine
end

