-- ==== Sys2Proof/Laws/OnlyOps.lean ====
section
/-!
SUPPORT. The parts of State that the operations of Machine/Ops.lean may change.
-/

namespace Sys2Proof.Machine
open Sys2Proof

theorem done_only (s : State) : ∃ t, done s = .next t ∧ Only [] s t := by
  refine ⟨_, rfl, ?_⟩
  try dsimp only
  repeat' first
    | with_reducible exact Only.refl _ _
    | with_reducible assumption
    | exact (rfl : (_ : Bool) = true)
    | exact fun _ => rfl
    | intro _
    | split

theorem state_used_only (s : State) : Only [.freeCtr] s (State.used s) := by
  unfold State.used
  try dsimp only
  repeat' first
    | with_reducible exact Only.refl _ _
    | with_reducible assumption
    | exact (rfl : (_ : Bool) = true)
    | exact fun _ => rfl
    | intro _
    | split
    | with_reducible apply Only.via (Q := [.freeCtr]) (Only.modFreeCtr _ _)

theorem reachTime_only (t : Nat) (s : State) : Only [.timer] s (reachTime t s) := by
  unfold reachTime
  try dsimp only
  repeat' first
    | with_reducible exact Only.refl _ _
    | with_reducible assumption
    | exact (rfl : (_ : Bool) = true)
    | exact fun _ => rfl
    | intro _
    | split
    | with_reducible apply Only.via (Q := [.timer]) (Only.modTimer _ _)

theorem raise_only (safety : Bool) (kind unit code reaction detail : Nat) (s : State) : Only [.fq] s (raise safety kind unit code reaction detail s) := by
  unfold raise
  try dsimp only
  repeat' first
    | with_reducible exact Only.refl _ _
    | with_reducible assumption
    | exact fun h => h
    | exact push_fits _ _
    | exact (rfl : (_ : Bool) = true)
    | exact fun _ => rfl
    | intro _
    | split
    | with_reducible refine Only.via (Q := [.fq]) (Only.modFq _ _ ?_) ?_ ?_

theorem accessError_only (p : Path) (s : State) : Only [.ports] s (accessError p s) := by
  unfold accessError
  try dsimp only
  repeat' first
    | with_reducible exact Only.refl _ _
    | with_reducible assumption
    | exact (rfl : (_ : Bool) = true)
    | exact fun _ => rfl
    | intro _
    | split
    | with_reducible apply Only.via (Q := [.ports]) (Only.modPorts _ _)

theorem accessOk_only (p : Path) (rdata : BitVec 32) (s : State) : Only [.ports] s (accessOk p rdata s) := by
  unfold accessOk
  try dsimp only
  repeat' first
    | with_reducible exact Only.refl _ _
    | with_reducible assumption
    | exact (rfl : (_ : Bool) = true)
    | exact fun _ => rfl
    | intro _
    | split
    | with_reducible apply Only.via (Q := [.ports]) (Only.modPorts _ _)

theorem pxDrop_only (p : Path) (addr : Nat) (s : State) : Only [.ports] s (pxDrop p addr s) := by
  unfold pxDrop
  try dsimp only
  repeat' first
    | with_reducible exact Only.refl _ _
    | with_reducible assumption
    | exact (rfl : (_ : Bool) = true)
    | exact fun _ => rfl
    | intro _
    | split
    | with_reducible apply Only.via (Q := [.ports]) (Only.modPorts _ _)

theorem ringTo_only (d : Nat) (m : RingMsg) (s : State) : Only [.dies] s (ringTo d m s) := by
  unfold ringTo
  try dsimp only
  repeat' first
    | with_reducible exact Only.refl _ _
    | with_reducible assumption
    | exact (rfl : (_ : Bool) = true)
    | exact fun _ => rfl
    | intro _
    | split
    | with_reducible apply Only.via (Q := [.dies]) (Only.modDie _ _ _)

theorem ringOn_only (d : Nat) (m : RingMsg) (s : State) : Only [.dies, .head] s (ringOn d m s) := by
  unfold ringOn
  try dsimp only
  repeat' first
    | with_reducible exact Only.refl _ _
    | with_reducible assumption
    | exact (rfl : (_ : Bool) = true)
    | exact fun _ => rfl
    | intro _
    | split
    | with_reducible apply Only.via (Q := [.dies]) (ringTo_only _ _ _)
    | with_reducible apply Only.via (Q := [.head]) (Only.modHead _ _)

theorem headSend_only (dest : Nat) (body : RingBody) (s : State) : Only [.dies, .head] s (headSend dest body s) := by
  unfold headSend
  try dsimp only
  repeat' first
    | with_reducible exact Only.refl _ _
    | with_reducible assumption
    | exact (rfl : (_ : Bool) = true)
    | exact fun _ => rfl
    | intro _
    | split
    | with_reducible apply Only.via (Q := [.dies]) (ringTo_only _ _ _)
    | with_reducible apply Only.via (Q := [.head]) (Only.modHead _ _)

theorem headAll_only (body : RingBody) (s : State) : Only [.dies, .head] s (headAll body s) := by
  unfold headAll
  try dsimp only
  repeat' first
    | with_reducible exact Only.refl _ _
    | with_reducible assumption
    | exact (rfl : (_ : Bool) = true)
    | exact fun _ => rfl
    | intro _
    | split
    | with_reducible apply Only.via (Q := [.dies, .head]) (headSend_only _ _ _)

theorem stopSend_only (d : Nat) (body : RingBody) (s : State) : Only [.dies] s (stopSend d body s) := by
  unfold stopSend
  try dsimp only
  repeat' first
    | with_reducible exact Only.refl _ _
    | with_reducible assumption
    | exact (rfl : (_ : Bool) = true)
    | exact fun _ => rfl
    | intro _
    | split
    | with_reducible apply Only.via (Q := [.dies]) (Only.modDie _ _ _)

theorem guardSend_only (g : Nat) (body : RingBody) (s : State) : Only [.dies] s (guardSend g body s) := by
  unfold guardSend
  try dsimp only
  repeat' first
    | with_reducible exact Only.refl _ _
    | with_reducible assumption
    | exact (rfl : (_ : Bool) = true)
    | exact fun _ => rfl
    | intro _
    | split
    | with_reducible apply Only.via (Q := [.dies]) (Only.modDie _ _ _)

theorem guardKeyReq_only (g domain : Nat) (want genbit : Bool) (s : State) : Only [.dies] s (guardKeyReq g domain want genbit s) := by
  unfold guardKeyReq
  try dsimp only
  repeat' first
    | with_reducible exact Only.refl _ _
    | with_reducible assumption
    | exact (rfl : (_ : Bool) = true)
    | exact fun _ => rfl
    | intro _
    | split
    | with_reducible apply Only.via (Q := [.dies]) (Only.modDie _ _ _)

theorem guardAck_only (g : Nat) (opId : BitVec 32) (duplicate : Bool) (s : State) : Only [.dies] s (guardAck g opId duplicate s) := by
  unfold guardAck
  try dsimp only
  repeat' first
    | with_reducible exact Only.refl _ _
    | with_reducible assumption
    | exact (rfl : (_ : Bool) = true)
    | exact fun _ => rfl
    | intro _
    | split
    | with_reducible apply Only.via (Q := [.dies]) (guardSend_only _ _ _)

theorem respond_only (g : Nat) (r : Req) (status : Nat) (data : BitVec 512) (side : BitVec 64) (s : State) : Only [.guards, .mower] s (respond g r status data side s) := by
  unfold respond
  try dsimp only
  repeat' first
    | with_reducible exact Only.refl _ _
    | with_reducible assumption
    | exact (rfl : (_ : Bool) = true)
    | exact fun _ => rfl
    | intro _
    | split
    | with_reducible apply Only.via (Q := [.guards]) (Only.modGuard _ _ _)
    | with_reducible apply Only.via (Q := [.mower]) (Only.modMower _ _)

theorem fail_only (g : Nat) (r : Req) (status : Nat) (s : State) : Only [.guards, .mower] s (fail g r status s) := by
  unfold fail
  try dsimp only
  repeat' first
    | with_reducible exact Only.refl _ _
    | with_reducible assumption
    | exact (rfl : (_ : Bool) = true)
    | exact fun _ => rfl
    | intro _
    | split
    | with_reducible apply Only.via (Q := [.guards, .mower]) (respond_only _ _ _ _ _ _)

theorem fenceReq_only (g : Nat) (r : Req) (s : State) : Only [.guards, .mower] s (fenceReq g r s) := by
  unfold fenceReq
  try dsimp only
  repeat' first
    | with_reducible exact Only.refl _ _
    | with_reducible assumption
    | exact (rfl : (_ : Bool) = true)
    | exact fun _ => rfl
    | intro _
    | split
    | with_reducible apply Only.via (Q := [.guards, .mower]) (fail_only _ _ _ _)
    | with_reducible apply Only.via (Q := [.guards]) (Only.modGuard _ _ _)

theorem countAcked_only (g : Nat) (s : State) : Only [.ks] s (countAcked g s) := by
  unfold countAcked
  try dsimp only
  repeat' first
    | with_reducible exact Only.refl _ _
    | with_reducible assumption
    | exact (rfl : (_ : Bool) = true)
    | exact fun _ => rfl
    | intro _
    | split
    | with_reducible apply Only.via (Q := [.ks]) (Only.modKs _ _)

theorem abortDescs_only (g : Nat) (s : State) : Only [.guards, .dies] s (abortDescs g s) := by
  unfold abortDescs
  try dsimp only
  repeat' first
    | with_reducible exact Only.refl _ _
    | with_reducible assumption
    | exact (rfl : (_ : Bool) = true)
    | exact fun _ => rfl
    | intro _
    | split
    | with_reducible apply Only.forEach
    | with_reducible apply Only.via (Q := [.dies]) (guardSend_only _ _ _)
    | with_reducible apply Only.via (Q := [.guards]) (Only.modGuard _ _ _)

theorem clearKeys_only (g : Nat) (s : State) : Only [.guards, .dies] s (clearKeys g s) := by
  unfold clearKeys
  try dsimp only
  repeat' first
    | with_reducible exact Only.refl _ _
    | with_reducible assumption
    | exact (rfl : (_ : Bool) = true)
    | exact fun _ => rfl
    | intro _
    | split
    | with_reducible apply Only.forEach
    | with_reducible apply Only.via (Q := [.dies]) (guardAck_only _ _ _ _)
    | with_reducible apply Only.via (Q := [.guards]) (Only.modGuard _ _ _)

theorem fenceHeld_only (g : Nat) (s : State) : Only [.guards] s (fenceHeld g s) := by
  unfold fenceHeld
  try dsimp only
  repeat' first
    | with_reducible exact Only.refl _ _
    | with_reducible assumption
    | exact (rfl : (_ : Bool) = true)
    | exact fun _ => rfl
    | intro _
    | split
    | with_reducible apply Only.via (Q := [.guards]) (Only.modGuard _ _ _)

theorem fenceGuard_only (safety ends : Bool) (g : Nat) (s : State) : Only [.guards, .dies, .ks, .mower] s (fenceGuard safety ends g s) := by
  unfold fenceGuard
  try dsimp only
  repeat' first
    | with_reducible exact Only.refl _ _
    | with_reducible assumption
    | exact (rfl : (_ : Bool) = true)
    | exact fun _ => rfl
    | intro _
    | split
    | with_reducible apply Only.via (Q := [.guards, .dies]) (abortDescs_only _ _)
    | with_reducible apply Only.via (Q := [.guards, .dies]) (clearKeys_only _ _)
    | with_reducible apply Only.via (Q := [.ks]) (countAcked_only _ _)
    | with_reducible apply Only.via (Q := [.guards]) (fenceHeld_only _ _)
    | with_reducible apply Only.via (Q := [.guards, .mower]) (fenceReq_only _ _ _)
    | with_reducible apply Only.forEach
    | with_reducible apply Only.via (Q := [.guards]) (Only.modGuard _ _ _)

theorem fenceAll_only (safety : Bool) (gs : List Nat) (s : State) : Only [.guards, .dies, .ks, .mower] s (fenceAll safety gs s) := by
  unfold fenceAll
  try dsimp only
  repeat' first
    | with_reducible exact Only.refl _ _
    | with_reducible assumption
    | exact (rfl : (_ : Bool) = true)
    | exact fun _ => rfl
    | intro _
    | split
    | with_reducible apply Only.via (Q := [.guards, .dies, .ks, .mower]) (fenceGuard_only _ _ _ _)
    | with_reducible apply Only.forEach

end Sys2Proof.Machine
end

