-- ==== Sys2Proof/Laws/OnlyDmaOps.lean ====
section
/-!
SUPPORT. The parts of State that the operations of Machine/DmaOps.lean may change.
-/

namespace Sys2Proof.Machine
open Sys2Proof

theorem dmaIssue_only (s : State) : Only [.freeCtr, .dma] s (dmaIssue s) := by
  unfold dmaIssue
  dsimp only
  split
  · exact Only.refl _ _
  rename_i hn
  split
  · exact Only.refl _ _
  · refine Only.via (state_used_only _) (by decide) (Only.via (Only.modDma _ _ fun h => ?_) (by decide) (Only.refl _ _))
    obtain ⟨h1, h2⟩ := (dma_fits_iff _).mp h
    obtain ⟨i, hi, hl, hm⟩ := free_id (s.dma.flight.map (fun f => f.1.toNat)) s.free (by simpa using hn)
    refine (dma_fits_iff _).mpr ⟨?_, ?_⟩
    · show (s.dma.flight ++ _).length ≤ 64
      rw [List.length_append]
      simp; omega
    · show ((s.dma.flight ++ _).map _).Nodup
      rw [hi, List.map_append]
      refine List.Nodup.append h2 (by simp) ?_
      intro x hx hy
      simp at hy
      obtain ⟨f, hf, rfl⟩ := List.mem_map.mp hx
      refine hm (List.mem_map.mpr ⟨f, hf, ?_⟩)
      have hy' : f.1 = BitVec.ofNat 6 i := hy
      show f.1.toNat = i
      rw [hy']; simp; omega

theorem dmaPump_only (s : State) : Only [.freeCtr, .dma] s (dmaPump s) := by
  unfold dmaPump
  try dsimp only
  repeat' first
    | with_reducible exact Only.refl _ _
    | with_reducible assumption
    | with_reducible apply Only.foldl
    | with_reducible apply Only.foldlPair
    | exact (rfl : (_ : Bool) = true)
    | exact fun _ => rfl
    | intro _
    | split
    | with_reducible apply Only.via (Q := [.freeCtr, .dma]) (dmaIssue_only _)
    | dsimp only

theorem dmaRead_only (k : DmaWork) (addr len : Nat) (s : State) : Only [.freeCtr, .dma] s (dmaRead k addr len s).2 := by
  unfold dmaRead
  try dsimp only
  repeat' first
    | with_reducible exact Only.refl _ _
    | with_reducible assumption
    | exact fun h => h
    | exact (rfl : (_ : Bool) = true)
    | exact fun _ => rfl
    | intro _
    | split
    | with_reducible apply Only.via (Q := [.freeCtr, .dma]) (dmaPump_only _)
    | with_reducible refine Only.via (Q := [.dma]) (Only.modDma _ _ ?_) ?_ ?_

theorem dmaWrite_only (k : DmaWork) (addr : Nat) (bs : Bytes) (s : State) : Only [.freeCtr, .dma] s (dmaWrite k addr bs s).2 := by
  unfold dmaWrite
  try dsimp only
  repeat' first
    | with_reducible exact Only.refl _ _
    | with_reducible assumption
    | exact fun h => h
    | exact (rfl : (_ : Bool) = true)
    | exact fun _ => rfl
    | intro _
    | split
    | with_reducible apply Only.via (Q := [.freeCtr, .dma]) (dmaPump_only _)
    | with_reducible refine Only.via (Q := [.dma]) (Only.modDma _ _ ?_) ?_ ?_

theorem dmaEnd_only (n : Nat) (s : State) : Only [.freeCtr, .dma] s (dmaEnd n s) := by
  unfold dmaEnd
  try dsimp only
  repeat' first
    | with_reducible exact Only.refl _ _
    | with_reducible assumption
    | exact fun h => h
    | exact (rfl : (_ : Bool) = true)
    | exact fun _ => rfl
    | intro _
    | split
    | with_reducible apply Only.via (Q := [.freeCtr, .dma]) (dmaPump_only _)
    | with_reducible refine Only.via (Q := [.dma]) (Only.modDma _ _ ?_) ?_ ?_

end Sys2Proof.Machine
end

