-- ==== Sys2Proof/Laws/OnlyEntropy.lean ====
section
/-!
SUPPORT. The parts of State that the operations of Machine/Entropy.lean may change.
-/

namespace Sys2Proof.Machine
open Sys2Proof

theorem drawBytes_only (n : Nat) (s : State) : Only [.ent] s (drawBytes n s).2 := by
  unfold drawBytes
  try dsimp only
  repeat' first
    | with_reducible exact Only.refl _ _
    | with_reducible assumption
    | exact (rfl : (_ : Bool) = true)
    | exact fun _ => rfl
    | intro _
    | split
    | with_reducible apply Only.via (Q := [.ent]) (Only.modEnt _ _)

theorem noiseFail_only (rct apt : Bool) (s : State) : Only [.ent, .fq] s (noiseFail rct apt s) := by
  unfold noiseFail
  try dsimp only
  repeat' first
    | with_reducible exact Only.refl _ _
    | with_reducible assumption
    | exact (rfl : (_ : Bool) = true)
    | exact fun _ => rfl
    | intro _
    | split
    | with_reducible apply Only.via (Q := [.fq]) (raise_only _ _ _ _ _ _ _)
    | with_reducible apply Only.via (Q := [.ent]) (Only.modEnt _ _)

theorem drawContextKey_only (s : State) : Only [.vault, .slots, .ent] s (drawContextKey s) := by
  unfold drawContextKey
  try dsimp only
  repeat' first
    | with_reducible exact Only.refl _ _
    | with_reducible assumption
    | exact (rfl : (_ : Bool) = true)
    | exact fun _ => rfl
    | intro _
    | split
    | with_reducible apply Only.via (Q := [.ent]) (drawBytes_only _ _)
    | with_reducible apply Only.via (Q := [.vault, .slots]) (Only.modVault _ _)
    | with_reducible refine Only.ofPair (by assumption) ?_
    | with_reducible refine Only.ofTriple (by assumption) ?_

theorem execReseed_only (p : Path) (value : BitVec 32) (s : State) : ∃ t, execReseed p value s = .next t ∧ Only [.ent, .ports] s t := by
  refine ⟨_, rfl, ?_⟩
  try dsimp only
  repeat' first
    | with_reducible exact Only.refl _ _
    | with_reducible assumption
    | exact (rfl : (_ : Bool) = true)
    | exact fun _ => rfl
    | intro _
    | split
    | with_reducible apply Only.via (Q := []) (done_only _)
    | with_reducible apply Only.onlyIf
    | with_reducible apply Only.writeAt
    | with_reducible apply Only.via (Q := [.ent]) (Only.modEnt _ _)

theorem digForeign_only (s : State) : Only [.dig] s (digForeign s) := by
  unfold digForeign
  try dsimp only
  repeat' first
    | with_reducible exact Only.refl _ _
    | with_reducible assumption
    | exact (rfl : (_ : Bool) = true)
    | exact fun _ => rfl
    | intro _
    | split
    | with_reducible apply Only.via (Q := [.dig]) (Only.modDig _ _)

theorem execEntDraw_only (region : Fin 4) (p : Path) (value : BitVec 32) (s : State) : ∃ t, execEntDraw region p value s = .next t ∧ Only [.dig, .ent, .ports] s t := by
  refine ⟨_, rfl, ?_⟩
  try dsimp only
  repeat' first
    | with_reducible exact Only.refl _ _
    | with_reducible assumption
    | exact (rfl : (_ : Bool) = true)
    | exact fun _ => rfl
    | intro _
    | split
    | with_reducible apply Only.via (Q := [.dig]) (digForeign_only _)
    | with_reducible apply Only.via (Q := []) (done_only _)
    | with_reducible apply Only.writeOwned
    | with_reducible apply Only.via (Q := [.ent]) (Only.modEnt _ _)
    | dsimp only [id]

end Sys2Proof.Machine
end

