-- ==== Sys2Proof/Laws/OnlySessionOps.lean ====
section
/-!
SUPPORT. The parts of State that the operations of Machine/SessionOps.lean may change.
-/

namespace Sys2Proof.Machine
open Sys2Proof

theorem modSess_only (id : Nat) (f : Session → Session) (s : State) : Only [.att] s (modSess id f s) := by
  unfold modSess
  try dsimp only
  repeat' first
    | with_reducible exact Only.refl _ _
    | with_reducible assumption
    | exact (rfl : (_ : Bool) = true)
    | exact fun _ => rfl
    | intro _
    | split
    | with_reducible apply Only.via (Q := [.att]) (Only.modAtt _ _)
    | dsimp only [id]

theorem modBox_only (operator : Bool) (f : Mbx → Mbx) (s : State) : Only [.tenantBox, .operBox] s (modBox operator f s) := by
  unfold modBox
  try dsimp only
  repeat' first
    | with_reducible exact Only.refl _ _
    | with_reducible assumption
    | exact (rfl : (_ : Bool) = true)
    | exact fun _ => rfl
    | intro _
    | split
    | with_reducible apply Only.via (Q := [.operBox]) (Only.modOperBox _ _)
    | with_reducible apply Only.via (Q := [.tenantBox]) (Only.modTenantBox _ _)

theorem modConn_only (operator : Bool) (sess : Option Nat) (f : Conn → Conn) (s : State) : Only [.att] s (modConn operator sess f s) := by
  unfold modConn
  try dsimp only
  repeat' first
    | with_reducible exact Only.refl _ _
    | with_reducible assumption
    | exact (rfl : (_ : Bool) = true)
    | exact fun _ => rfl
    | intro _
    | split
    | with_reducible apply Only.via (Q := [.att]) (modSess_only _ _ _)
    | with_reducible apply Only.via (Q := [.att]) (Only.modAtt _ _)
    | dsimp only [id]

theorem sendOut_only (operator : Bool) (sess : Option Nat) (body : OutBody) (s : State) : Only [.att, .tenantBox, .operBox] s (sendOut operator sess body s) := by
  unfold sendOut
  try dsimp only
  repeat' first
    | with_reducible exact Only.refl _ _
    | with_reducible assumption
    | exact (rfl : (_ : Bool) = true)
    | exact fun _ => rfl
    | intro _
    | split
    | with_reducible apply Only.via (Q := [.tenantBox, .operBox]) (modBox_only _ _ _)
    | with_reducible apply Only.via (Q := [.att]) (modConn_only _ _ _ _)
    | with_reducible apply Only.via (Q := [.att]) (modSess_only _ _ _)
    | dsimp only [id]

theorem hear_only (id : Nat) (s : State) : Only [.att] s (hear id s) := by
  unfold hear
  try dsimp only
  repeat' first
    | with_reducible exact Only.refl _ _
    | with_reducible assumption
    | exact (rfl : (_ : Bool) = true)
    | exact fun _ => rfl
    | intro _
    | split
    | with_reducible apply Only.via (Q := [.att]) (modSess_only _ _ _)
    | dsimp only [id]

theorem sayBusy_only (operator : Bool) (id : Nat) (s : State) : Only [.att, .tenantBox, .operBox] s (sayBusy operator id s) := by
  unfold sayBusy
  try dsimp only
  repeat' first
    | with_reducible exact Only.refl _ _
    | with_reducible assumption
    | exact (rfl : (_ : Bool) = true)
    | exact fun _ => rfl
    | intro _
    | split
    | with_reducible apply Only.via (Q := [.att]) (modConn_only _ _ _ _)
    | with_reducible apply Only.via (Q := [.att, .tenantBox, .operBox]) (sendOut_only _ _ _ _)
    | dsimp only [id]

theorem reply_only (w : Waiter) (result : BitVec 8) (s : State) : Only [.att, .tenantBox, .operBox] s (reply w result s) := by
  unfold reply
  try dsimp only
  repeat' first
    | with_reducible exact Only.refl _ _
    | with_reducible assumption
    | exact (rfl : (_ : Bool) = true)
    | exact fun _ => rfl
    | intro _
    | split
    | with_reducible apply Only.via (Q := [.att]) (modSess_only _ _ _)
    | with_reducible apply Only.via (Q := [.att, .tenantBox, .operBox]) (sendOut_only _ _ _ _)

theorem refuse_only (w : Waiter) (result : BitVec 8) (s : State) : Only [.att, .tenantBox, .operBox] s (refuse w result s) := by
  unfold refuse
  try dsimp only
  repeat' first
    | with_reducible exact Only.refl _ _
    | with_reducible assumption
    | exact (rfl : (_ : Bool) = true)
    | exact fun _ => rfl
    | intro _
    | split
    | with_reducible apply Only.via (Q := [.att, .tenantBox, .operBox]) (reply_only _ _ _)

theorem countAuthFail_only (s : State) : Only [.att] s (countAuthFail s) := by
  unfold countAuthFail
  try dsimp only
  repeat' first
    | with_reducible exact Only.refl _ _
    | with_reducible assumption
    | exact (rfl : (_ : Bool) = true)
    | exact fun _ => rfl
    | intro _
    | split
    | with_reducible apply Only.via (Q := [.att]) (Only.modAtt _ _)

theorem pushEvent_only (p : Session → Bool) (e : Event) (s : State) : Only [.att] s (pushEvent p e s) := by
  unfold pushEvent
  try dsimp only
  repeat' first
    | with_reducible exact Only.refl _ _
    | with_reducible assumption
    | exact (rfl : (_ : Bool) = true)
    | exact fun _ => rfl
    | intro _
    | split
    | with_reducible apply Only.via (Q := [.att]) (Only.modAtt _ _)

theorem ownerEvent_only (owner : Option Bytes) (e : Event) (s : State) : Only [.att] s (ownerEvent owner e s) := by
  unfold ownerEvent
  try dsimp only
  repeat' first
    | with_reducible exact Only.refl _ _
    | with_reducible assumption
    | exact (rfl : (_ : Bool) = true)
    | exact fun _ => rfl
    | intro _
    | split
    | with_reducible apply Only.via (Q := [.att]) (pushEvent_only _ _ _)

theorem sessEvent_only (id : Nat) (e : Event) (s : State) : Only [.att] s (sessEvent id e s) := by
  unfold sessEvent
  try dsimp only
  repeat' first
    | with_reducible exact Only.refl _ _
    | with_reducible assumption
    | exact (rfl : (_ : Bool) = true)
    | exact fun _ => rfl
    | intro _
    | split
    | with_reducible apply Only.via (Q := [.att]) (pushEvent_only _ _ _)
    | dsimp only [id]

theorem Only.onMessage {ps : List Part} {b s : State} {r : MsgRule} {lengthOk : Bytes → Bool} {id : Nat} {tag : BitVec 32} {body : Bytes}
    {k : Session → Waiter → State → State} (h : Only ps b s)
    (hp : ([.att, .tenantBox, .operBox] : List Part).all (fun p => ps.contains p) = true)
    (hk : ∀ x w u, Only ps b u → Only ps b (k x w u)) : Only ps b (onMessage r lengthOk id tag body k s) := by
  have ha : Only ps b (hear id s) := Only.via (hear_only _ _) (Only.sub rfl hp) h
  have hs : ∀ u, Only ps b u → Only ps b (modSess id (fun y => { y with busy := true }) u) := fun u hu => Only.via (modSess_only _ _ _)
    (Only.sub rfl hp) hu
  unfold Machine.onMessage
  dsimp only
  repeat' first
    | with_reducible exact h
    | with_reducible exact Only.via (sayBusy_only _ _ _) (Only.sub rfl hp) ha
    | with_reducible exact Only.via (refuse_only _ _ _) (Only.sub rfl hp) (hs _ ha)
    | with_reducible exact hk _ _ _ (hs _ ha)
    | split

end Sys2Proof.Machine
end

