-- ==== Sys2Proof/Laws/OnlyPkOps.lean ====
section
/-!
SUPPORT. The parts of State that the operations of Machine/PkOps.lean may change.
-/

namespace Sys2Proof.Machine
open Sys2Proof

theorem drawNonce_only (c : EcCurve) (d : Nat) (h : Bytes) (n : Nat) (s : State) : Only [.freeCtr, .ent] s (drawNonce c d h n s).2 := by
  induction n generalizing s with
  | zero => exact Only.via (state_used_only _) rfl (Only.refl _ _)
  | succ n ih =>
    unfold drawNonce
    split
    · exact Only.via (Only.ofPair (by assumption) (drawBytes_only _ _)) rfl (Only.refl _ _)
    · rename_i hd
      have hu : Only [.freeCtr, .ent] s _ := Only.via (Only.ofPair hd (drawBytes_only _ _)) rfl (Only.refl _ _)
      dsimp only
      split
      · exact hu.trans (ih _)
      · exact hu

theorem Only.thenDraw {ps : List Part} {b : State} {r : Option Bytes × State} {k : Bytes → State → Option Bytes × State} (h : Only ps b r.2)
    (hk : ∀ x u, Only ps b u → Only ps b (k x u).2) : Only ps b (thenDraw r k).2 := by
  unfold Machine.thenDraw
  split
  · exact h
  · exact hk _ _ h

theorem nonceBytes_only (c : EcCurve) (d : Nat) (h : Bytes) (s : State) : Only [.freeCtr, .ent] s (nonceBytes c d h s).2 := by
  unfold nonceBytes
  try dsimp only
  repeat' first
    | with_reducible exact Only.refl _ _
    | with_reducible assumption
    | exact (rfl : (_ : Bool) = true)
    | exact fun _ => rfl
    | intro _
    | split
    | with_reducible apply Only.via (Q := [.freeCtr, .ent]) (drawNonce_only _ _ _ _ _)
    | with_reducible refine Only.ofPair (by assumption) ?_
    | with_reducible refine Only.ofTriple (by assumption) ?_

theorem pkDraw_only (j : PkJob) (key : Bytes) (set : Option PkSet) (s : State) : Only [.freeCtr, .ent] s (pkDraw j key set s).2 := by
  unfold pkDraw
  try dsimp only
  repeat' first
    | with_reducible exact Only.refl _ _
    | with_reducible assumption
    | exact (rfl : (_ : Bool) = true)
    | exact fun _ => rfl
    | intro _
    | split
    | with_reducible apply Only.via (Q := [.ent]) (drawBytes_only _ _)
    | with_reducible apply Only.via (Q := [.freeCtr, .ent]) (nonceBytes_only _ _ _ _)
    | with_reducible apply Only.thenDraw
    | with_reducible refine Only.ofPair (by assumption) ?_
    | with_reducible refine Only.ofTriple (by assumption) ?_

theorem modCell_only (b long : Bool) (f : PkArea → PkArea) (s : State) : Only [.pk] s (modCell b long f s) := by
  unfold modCell
  try dsimp only
  repeat' first
    | with_reducible exact Only.refl _ _
    | with_reducible assumption
    | exact (rfl : (_ : Bool) = true)
    | exact fun _ => rfl
    | intro _
    | split
    | with_reducible apply Only.via (Q := [.pk]) (Only.modPk _ _)

theorem modSlot_only (slot : Nat) (f : PkSlot → PkSlot) (s : State) : Only [.pk] s (modSlot slot f s) := by
  unfold modSlot
  try dsimp only
  repeat' first
    | with_reducible exact Only.refl _ _
    | with_reducible assumption
    | exact (rfl : (_ : Bool) = true)
    | exact fun _ => rfl
    | intro _
    | split
    | with_reducible apply Only.via (Q := [.pk]) (Only.modPk _ _)

theorem slotEnd_only (j : PkJob) (e : PkEnd) (boundary : Bool) (s : State) : Only [.freeCtr, .pk] s (slotEnd j e boundary s) := by
  unfold slotEnd
  try dsimp only
  repeat' first
    | with_reducible exact Only.refl _ _
    | with_reducible assumption
    | with_reducible apply Only.foldl
    | with_reducible apply Only.foldlPair
    | exact (rfl : (_ : Bool) = true)
    | exact fun _ => rfl
    | intro _
    | split
    | with_reducible apply Only.via (Q := [.freeCtr]) (state_used_only _)
    | with_reducible apply Only.via (Q := [.pk]) (modSlot_only _ _ _)
    | with_reducible apply Only.via (Q := [.pk]) (Only.modPk _ _)
    | dsimp only

theorem pkMismatch_only (j : PkJob) (s : State) : Only [.pk, .fq] s (pkMismatch j s) := by
  unfold pkMismatch
  try dsimp only
  repeat' first
    | with_reducible exact Only.refl _ _
    | with_reducible assumption
    | exact (rfl : (_ : Bool) = true)
    | exact fun _ => rfl
    | intro _
    | split
    | with_reducible apply Only.via (Q := [.fq]) (raise_only _ _ _ _ _ _ _)
    | with_reducible apply Only.via (Q := [.pk]) (Only.modPk _ _)

theorem pkEnqueue_only (j : PkJob) (s : State) : Only [.pk] s (pkEnqueue j s) := Only.modPk _ s

theorem pkSubmit_only (j : PkJob) (s : State) : Only [.freeCtr, .pk] s (pkSubmit j s) := by
  unfold pkSubmit
  try dsimp only
  repeat' first
    | with_reducible exact Only.refl _ _
    | with_reducible assumption
    | exact (rfl : (_ : Bool) = true)
    | exact fun _ => rfl
    | intro _
    | split
    | with_reducible apply Only.via (Q := [.pk]) (modSlot_only _ _ _)
    | with_reducible apply Only.via (Q := [.pk]) (pkEnqueue_only _ _)
    | with_reducible apply Only.via (Q := [.freeCtr, .pk]) (slotEnd_only _ _ _ _)

end Sys2Proof.Machine
end

