-- ==== Sys2Proof/Laws/OnlyDigOps.lean ====
section
/-!
SUPPORT. The parts of State that the operations of Machine/DigOps.lean may change.
-/

namespace Sys2Proof.Machine
open Sys2Proof

theorem modCtx_only (c : Nat) (f : Ctx → Ctx) (s : State) : Only [.dig] s (modCtx c f s) := by
  unfold modCtx
  try dsimp only
  repeat' first
    | with_reducible exact Only.refl _ _
    | with_reducible assumption
    | exact (rfl : (_ : Bool) = true)
    | exact fun _ => rfl
    | intro _
    | split
    | with_reducible apply Only.via (Q := [.dig]) (Only.modDig _ _)

theorem stopFeed_only (c : Nat) (s : State) : Only [.freeCtr, .dma] s (stopFeed c s) := by
  unfold stopFeed
  try dsimp only
  repeat' first
    | with_reducible exact Only.refl _ _
    | with_reducible assumption
    | exact (rfl : (_ : Bool) = true)
    | exact fun _ => rfl
    | intro _
    | split
    | with_reducible apply Only.via (Q := [.freeCtr, .dma]) (dmaEnd_only _ _)

theorem ctxFree_only (c : Nat) (s : State) : Only [.freeCtr, .dig, .dma] s (ctxFree c s) := by
  unfold ctxFree
  try dsimp only
  repeat' first
    | with_reducible exact Only.refl _ _
    | with_reducible assumption
    | exact (rfl : (_ : Bool) = true)
    | exact fun _ => rfl
    | intro _
    | split
    | with_reducible apply Only.via (Q := [.dig]) (modCtx_only _ _ _)
    | with_reducible apply Only.via (Q := [.freeCtr, .dma]) (stopFeed_only _ _)

theorem ctxEnd_only (c : Nat) (code : BitVec 8) (s : State) : Only [.freeCtr, .dig, .dma] s (ctxEnd c code s) := by
  unfold ctxEnd
  try dsimp only
  repeat' first
    | with_reducible exact Only.refl _ _
    | with_reducible assumption
    | exact (rfl : (_ : Bool) = true)
    | exact fun _ => rfl
    | intro _
    | split
    | with_reducible apply Only.via (Q := [.dig]) (modCtx_only _ _ _)
    | with_reducible apply Only.via (Q := [.freeCtr, .dma]) (stopFeed_only _ _)

theorem keyLost_only (slot : Nat) (s : State) : Only [.freeCtr, .dig, .dma] s (keyLost slot s) := by
  unfold keyLost
  try dsimp only
  repeat' first
    | with_reducible exact Only.refl _ _
    | with_reducible assumption
    | exact (rfl : (_ : Bool) = true)
    | exact fun _ => rfl
    | intro _
    | split
    | with_reducible apply Only.via (Q := [.freeCtr, .dig, .dma]) (ctxEnd_only _ _ _)
    | with_reducible apply Only.forEach
    | with_reducible apply Only.onlyIf

theorem digCoreReset_only (core : Nat) (s : State) : Only [.freeCtr, .dig, .dma] s (digCoreReset core s) := by
  unfold digCoreReset
  try dsimp only
  repeat' first
    | with_reducible exact Only.refl _ _
    | with_reducible assumption
    | exact (rfl : (_ : Bool) = true)
    | exact fun _ => rfl
    | intro _
    | split
    | with_reducible apply Only.via (Q := [.freeCtr, .dig, .dma]) (ctxFree_only _ _)
    | with_reducible apply Only.forEach
    | with_reducible apply Only.onlyIf
    | with_reducible apply Only.via (Q := [.dig]) (Only.modDig _ _)

theorem ctxResult_only (c : Nat) (s : State) : Only [.freeCtr, .dig, .dma] s (ctxResult c s) := by
  unfold ctxResult
  try dsimp only
  repeat' first
    | with_reducible exact Only.refl _ _
    | with_reducible assumption
    | exact (rfl : (_ : Bool) = true)
    | exact fun _ => rfl
    | intro _
    | split
    | with_reducible apply Only.via (Q := [.dig]) (modCtx_only _ _ _)
    | with_reducible apply Only.via (Q := [.freeCtr, .dma]) (stopFeed_only _ _)
    | with_reducible apply Only.via (Q := [.dig]) (Only.modDig _ _)

theorem feedOver_only (c : Nat) (s : State) : Only [.freeCtr, .dig, .dma] s (feedOver c s) := by
  unfold feedOver
  try dsimp only
  repeat' first
    | with_reducible exact Only.refl _ _
    | with_reducible assumption
    | exact (rfl : (_ : Bool) = true)
    | exact fun _ => rfl
    | intro _
    | split
    | with_reducible apply Only.via (Q := [.dig]) (modCtx_only _ _ _)
    | with_reducible apply Only.via (Q := [.freeCtr, .dma]) (stopFeed_only _ _)

end Sys2Proof.Machine
end

