-- ==== Sys2Proof/Laws/OnlyVault.lean ====
section
/-!
SUPPORT. The parts of State that the operations of Machine/Vault.lean may change.
-/

namespace Sys2Proof.Machine
open Sys2Proof

theorem modAnchor_only (n : Nat) (f : AnchorSlot → AnchorSlot) (s : State) : Only [.vault, .slots] s (modAnchor n f s) := by
  unfold modAnchor
  try dsimp only
  repeat' first
    | with_reducible exact Only.refl _ _
    | with_reducible assumption
    | exact (rfl : (_ : Bool) = true)
    | exact fun _ => rfl
    | intro _
    | split
    | with_reducible apply Only.via (Q := [.vault, .slots]) (Only.modVault _ _)

theorem fillSlot_only (n : Nat) (attr : BitVec 32) (value : Bytes) (s : State) : Only [.vault, .slots] s (fillSlot n attr value s) := by
  unfold fillSlot
  try dsimp only
  repeat' first
    | with_reducible exact Only.refl _ _
    | with_reducible assumption
    | exact (rfl : (_ : Bool) = true)
    | exact fun _ => rfl
    | intro _
    | split
    | with_reducible apply Only.via (Q := [.vault, .slots]) (modAnchor_only _ _ _)

theorem clearSlot_only (n : Nat) (s : State) : Only [.freeCtr, .vault, .slots, .dig, .dma] s (clearSlot n s) := by
  unfold clearSlot
  try dsimp only
  repeat' first
    | with_reducible exact Only.refl _ _
    | with_reducible assumption
    | exact (rfl : (_ : Bool) = true)
    | exact fun _ => rfl
    | intro _
    | split
    | with_reducible apply Only.via (Q := [.freeCtr, .dig, .dma]) (keyLost_only _ _)
    | with_reducible apply Only.via (Q := [.vault, .slots]) (modAnchor_only _ _ _)

theorem vaultOut_only (o : Nat) (bs : Bytes) (s : State) : Only [.vault] s (vaultOut o bs s) := by
  unfold vaultOut
  try dsimp only
  repeat' first
    | with_reducible exact Only.refl _ _
    | with_reducible assumption
    | exact (rfl : (_ : Bool) = true)
    | exact fun _ => rfl
    | intro _
    | split
    | with_reducible apply Only.viaVault
    | (intro v; dsimp only; split <;> rfl)

theorem vaultEnd_only (code : BitVec 8) (s : State) : Only [.vault] s (vaultEnd code s) := by
  unfold vaultEnd
  try dsimp only
  repeat' first
    | with_reducible exact Only.refl _ _
    | with_reducible assumption
    | exact (rfl : (_ : Bool) = true)
    | exact fun _ => rfl
    | intro _
    | split
    | with_reducible apply Only.viaVault
    | (intro v; dsimp only; split <;> rfl)

theorem vaultWait_only (r : VaultRun) (j : PkJob) (s : State) : Only [.vault, .pk] s (vaultWait r j s) := by
  unfold vaultWait
  try dsimp only
  repeat' first
    | with_reducible exact Only.refl _ _
    | with_reducible assumption
    | exact (rfl : (_ : Bool) = true)
    | exact fun _ => rfl
    | intro _
    | split
    | with_reducible apply Only.via (Q := [.pk]) (pkEnqueue_only _ _)
    | with_reducible apply Only.via (Q := [.vault]) (vaultEnd_only _ _)
    | with_reducible apply Only.viaVault
    | (intro v; dsimp only; split <;> rfl)

theorem deriveSlot_only (r : VaultRun) (k : Bytes) (s : State) : Only [.vault, .slots] s (deriveSlot r k s) := by
  unfold deriveSlot
  try dsimp only
  repeat' first
    | with_reducible exact Only.refl _ _
    | with_reducible assumption
    | exact (rfl : (_ : Bool) = true)
    | exact fun _ => rfl
    | intro _
    | split
    | with_reducible apply Only.via (Q := [.vault, .slots]) (fillSlot_only _ _ _ _)
    | with_reducible apply Only.via (Q := [.vault]) (vaultEnd_only _ _)

theorem stmtSign_only (r : VaultRun) (keyId : Bytes) (s : State) : Only [.vault, .pk] s (stmtSign r keyId s) := by
  unfold stmtSign
  try dsimp only
  repeat' first
    | with_reducible exact Only.refl _ _
    | with_reducible assumption
    | exact (rfl : (_ : Bool) = true)
    | exact fun _ => rfl
    | intro _
    | split
    | with_reducible apply Only.via (Q := [.vault, .pk]) (vaultWait_only _ _ _)

theorem vaultDrawn_only (r : VaultRun) (b : Option Bytes) (s : State) : Only [.vault, .slots] s (vaultDrawn r b s) := by
  unfold vaultDrawn
  try dsimp only
  repeat' first
    | with_reducible exact Only.refl _ _
    | with_reducible assumption
    | exact (rfl : (_ : Bool) = true)
    | exact fun _ => rfl
    | intro _
    | split
    | with_reducible apply Only.via (Q := [.vault, .slots]) (fillSlot_only _ _ _ _)
    | with_reducible apply Only.via (Q := [.vault]) (vaultEnd_only _ _)
    | with_reducible apply Only.via (Q := [.vault]) (vaultOut_only _ _ _)

theorem vaultDraw_only (r : VaultRun) (n : Nat) (s : State) : Only [.vault, .slots, .ent] s (vaultDraw r n s) := by
  unfold vaultDraw
  try dsimp only
  repeat' first
    | with_reducible exact Only.refl _ _
    | with_reducible assumption
    | exact (rfl : (_ : Bool) = true)
    | exact fun _ => rfl
    | intro _
    | split
    | with_reducible apply Only.via (Q := [.ent]) (drawBytes_only _ _)
    | with_reducible apply Only.via (Q := [.vault, .slots]) (vaultDrawn_only _ _ _)
    | with_reducible apply Only.via (Q := [.ent]) (Only.modEnt _ _)
    | with_reducible apply Only.viaVault
    | (intro v; dsimp only; split <;> rfl)
    | with_reducible refine Only.ofPair (by assumption) ?_
    | with_reducible refine Only.ofTriple (by assumption) ?_

theorem vaultRun_only (r : VaultRun) (s : State) : Only [.freeCtr, .vault, .slots, .pk, .dig, .ent, .dma] s (vaultRun r s) := by
  unfold vaultRun
  try dsimp only
  repeat' first
    | with_reducible exact Only.refl _ _
    | with_reducible assumption
    | exact (rfl : (_ : Bool) = true)
    | exact fun _ => rfl
    | intro _
    | split
    | with_reducible apply Only.via (Q := [.freeCtr, .vault, .slots, .dig, .dma]) (clearSlot_only _ _)
    | with_reducible apply Only.via (Q := [.vault, .slots]) (deriveSlot_only _ _ _)
    | with_reducible apply Only.via (Q := [.vault, .slots]) (fillSlot_only _ _ _ _)
    | with_reducible apply Only.via (Q := [.vault, .pk]) (stmtSign_only _ _ _)
    | with_reducible apply Only.via (Q := [.vault, .slots, .ent]) (vaultDraw_only _ _ _)
    | with_reducible apply Only.via (Q := [.vault]) (vaultEnd_only _ _)
    | with_reducible apply Only.via (Q := [.vault]) (vaultOut_only _ _ _)
    | with_reducible apply Only.via (Q := [.vault, .pk]) (vaultWait_only _ _ _)

theorem vaultCmdWrite_only (p : Path) (value : BitVec 32) (s : State) : Only [.freeCtr, .vault, .slots, .pk, .dig, .ent, .dma] s (vaultCmdWrite p value s) := by
  unfold vaultCmdWrite
  try dsimp only
  repeat' first
    | with_reducible exact Only.refl _ _
    | with_reducible assumption
    | exact (rfl : (_ : Bool) = true)
    | exact fun _ => rfl
    | intro _
    | split
    | with_reducible apply Only.via (Q := [.vault]) (vaultEnd_only _ _)
    | with_reducible apply Only.via (Q := [.freeCtr, .vault, .slots, .pk, .dig, .ent, .dma]) (vaultRun_only _ _)
    | with_reducible apply Only.viaVault
    | (intro v; dsimp only; split <;> rfl)

theorem vaultJobEnd_only (j : PkJob) (e : PkEnd) (s : State) : Only [.vault, .slots, .pk] s (vaultJobEnd j e s) := by
  unfold vaultJobEnd
  try dsimp only
  repeat' first
    | with_reducible exact Only.refl _ _
    | with_reducible assumption
    | exact (rfl : (_ : Bool) = true)
    | exact fun _ => rfl
    | intro _
    | split
    | with_reducible apply Only.via (Q := [.vault, .slots]) (deriveSlot_only _ _ _)
    | with_reducible apply Only.via (Q := [.vault, .slots]) (fillSlot_only _ _ _ _)
    | with_reducible apply Only.via (Q := [.vault, .pk]) (stmtSign_only _ _ _)
    | with_reducible apply Only.via (Q := [.vault]) (vaultEnd_only _ _)
    | with_reducible apply Only.via (Q := [.vault]) (vaultOut_only _ _ _)
    | with_reducible apply Only.viaVault
    | (intro v; dsimp only; split <;> rfl)

theorem vaultGo_only (p : Path) (value : BitVec 32) (s : State) : Only [.freeCtr, .vault, .slots, .pk, .dig, .ent, .dma, .ports] s (vaultGo p value s) := by
  unfold vaultGo
  try dsimp only
  repeat' first
    | with_reducible exact Only.refl _ _
    | with_reducible assumption
    | exact (rfl : (_ : Bool) = true)
    | exact fun _ => rfl
    | intro _
    | split
    | with_reducible apply Only.via (Q := [.ports]) (accessOk_only _ _ _)
    | with_reducible apply Only.via (Q := [.freeCtr, .vault, .slots, .pk, .dig, .ent, .dma]) (vaultCmdWrite_only _ _ _)
    | with_reducible apply Only.via (Q := [.vault]) (vaultEnd_only _ _)
    | with_reducible apply Only.writeOwned
    | with_reducible apply Only.viaVault
    | (intro v; dsimp only; split <;> rfl)

theorem vaultRow_only (code : Nat) (p : Path) (value : BitVec 32) (s : State) : Only [.freeCtr, .vault, .slots, .pk, .dig, .ent, .dma, .ports] s (vaultRow code p value s) := by
  unfold vaultRow
  try dsimp only
  repeat' first
    | with_reducible exact Only.refl _ _
    | with_reducible assumption
    | exact (rfl : (_ : Bool) = true)
    | exact fun _ => rfl
    | intro _
    | split
    | with_reducible apply Only.onlyIf
    | with_reducible apply Only.via (Q := [.freeCtr, .vault, .slots, .pk, .dig, .ent, .dma, .ports]) (vaultGo_only _ _ _)

end Sys2Proof.Machine
end

