-- ==== Sys2Proof/Laws/Access.lean ====
section
/-!
SUPPORT. Writes that reach a register of the pages with an owner rule, anchor slots, and entries of vectors.
-/

namespace Sys2Proof.Machine
open Sys2Proof

theorem bootWrite_ok {off : Nat} {p : Path} {k : State → State} {s : State} (h : Write s p (bootPage + off)) (hc : isCore p = true) :
    bootWrite off p k s = accessOk p 0 (k s) := by
  unfold bootWrite; rw [hc]; exact writeOwned_ok h

theorem fuseWrite_ok {off : Nat} {p : Path} {k : State → State} {s : State} (h : Write s p (fusePage + off)) (hc : isCore p = true) :
    fuseWrite off p k s = accessOk p 0 (k s) := by
  unfold fuseWrite; rw [hc]; exact writeOwned_ok h

/-- The value of a slot after one slot has been filled. -/
theorem anchor_fillSlot (n m : Nat) (attr : BitVec 32) (value : Bytes) (s : State) (hn : n < 64) :
    ((fillSlot n attr value s).anchor m).value = if m = n then value else (s.anchor m).value := by
  unfold State.anchor
  by_cases hm : m < 64
  · rw [dif_pos hm, dif_pos hm]
    show ((vmod s.vault.slots n _).get ⟨m, hm⟩).value = _
    rw [vmod_get]
    split <;> rfl
  · rw [dif_neg hm, dif_neg hm]
    have : m ≠ n := by omega
    simp [this]

/-- A slot after one slot has been filled: another keeps what it holds. -/
theorem anchor_fillSlot_ne (n m : Nat) (attr : BitVec 32) (value : Bytes) (s : State) (h : m ≠ n) :
    (fillSlot n attr value s).anchor m = s.anchor m := by
  unfold State.anchor
  by_cases hm : m < 64
  · rw [dif_pos hm, dif_pos hm]
    show (vmod s.vault.slots n _).get ⟨m, hm⟩ = _
    rw [vmod_get, if_neg h]
  · rw [dif_neg hm, dif_neg hm]

/-- The slots are those of another state where their list is the same. -/
theorem anchor_slots {s t : State} (h : t.vault.slots = s.vault.slots) (n : Nat) : t.anchor n = s.anchor n := by
  unfold State.anchor; rw [h]

/-- A slot after one slot has been cleared. -/
theorem anchor_clearSlot (n m : Nat) (s : State) (hn : n < 64) :
    (clearSlot n s).anchor m = if m = n then { epoch := (s.anchor n).epoch } else s.anchor m := by
  unfold clearSlot
  have hs : (keyLost n s).vault.slots = s.vault.slots := (keyLost_only n s).slots_eq
  generalize keyLost n s = u at *
  unfold State.anchor
  by_cases hm : m < 64
  · rw [dif_pos hm, dif_pos hm, dif_pos hn]
    show (vmod u.vault.slots n _).get ⟨m, hm⟩ = _
    rw [vmod_get, hs]
    by_cases e : m = n
    · subst e; simp
    · simp [e]
  · rw [dif_neg hm, dif_neg hm]
    have : m ≠ n := by omega
    simp [this]

/-- The guards after one has changed. -/
theorem guards_modGuard (s : State) (g : Nat) (f : Guard → Guard) (j : Fin 40) :
    (s.modGuard g f).guards.get j = if j.val = g then f (s.guards.get j) else s.guards.get j := vmod_get _ _ _ _

/-- The die sections after one has changed. -/
theorem dies_modDie (s : State) (d : Nat) (f : Die → Die) (j : Fin 4) :
    (s.modDie d f).dies.get j = if j.val = d then f (s.dies.get j) else s.dies.get j := vmod_get _ _ _ _

theorem vmap_get {α β : Type} {n : Nat} (v : Vector α n) (f : α → β) (i : Fin n) : (v.map f).get i = f (v.get i) := by
  simp [Vector.get]

theorem all_of_get {n : Nat} {α : Type} (v : Vector α n) (p : α → Bool) (h : ∀ k, p (v.get k) = true) : v.toList.all p = true := by
  rw [List.all_eq_true]
  intro x hx
  obtain ⟨i, hi, rfl⟩ := List.mem_iff_getElem.mp hx
  simpa [Vector.get] using h ⟨i, by simpa using hi⟩

theorem any_of_get {n : Nat} {α : Type} (v : Vector α n) (p : α → Bool) (k) (h : p (v.get k) = true) : v.toList.any p = true := by
  rw [List.any_eq_true]
  exact ⟨v.get k, by simp [Vector.get], h⟩

end Sys2Proof.Machine
end

