-- ==== Sys2Proof/Laws/OnlyFuseOps.lean ====
section
/-!
SUPPORT. The parts of State that the operations of Machine/FuseOps.lean may change.
-/

namespace Sys2Proof.Machine
open Sys2Proof

theorem burn_only (w : Nat) (norm tight : BitVec 72) (s : State) : Only [.fuse, .array] s (burn w norm tight s) :=
  ⟨fun p hp => by cases p <;> first | rfl | exact absurd (by decide) hp,
    ⟨fun h => ⟨h.flash, h.queue, h.flight, h.tamper⟩, fun v => by
      rw [fuseWord_burn]
      split
      · rename_i h; subst h; exact bits_or _ _
      · exact bits_kept _, fun v => by
      rw [fuseWord_burn]
      split
      · rename_i h; subst h; exact bits_or _ _
      · exact bits_kept _⟩⟩

theorem senseOne_only (w : Nat) (s : State) : Only [.fuse] s (senseOne w s) := by
  unfold senseOne
  try dsimp only
  repeat' first
    | with_reducible exact Only.refl _ _
    | with_reducible assumption
    | exact (rfl : (_ : Bool) = true)
    | exact fun _ => rfl
    | intro _
    | split
    | with_reducible apply Only.viaFuse
    | (intro v; dsimp only; split <;> rfl)

theorem interruptFuse_only (s : State) : Only [.freeCtr, .fuse, .array] s (interruptFuse s) := by
  unfold interruptFuse
  try dsimp only
  repeat' first
    | with_reducible exact Only.refl _ _
    | with_reducible assumption
    | exact (rfl : (_ : Bool) = true)
    | exact fun _ => rfl
    | intro _
    | split
    | with_reducible apply Only.via (Q := [.freeCtr]) (state_used_only _)
    | with_reducible apply Only.via (Q := [.fuse, .array]) (burn_only _ _ _ _)
    | with_reducible apply Only.viaFuse
    | (intro v; dsimp only; split <;> rfl)

theorem wipeUds_only (s : State) : Only [.fuse] s (wipeUds s) := by
  unfold wipeUds
  try dsimp only
  repeat' first
    | with_reducible exact Only.refl _ _
    | with_reducible assumption
    | exact (rfl : (_ : Bool) = true)
    | exact fun _ => rfl
    | intro _
    | split
    | with_reducible apply Only.viaFuse
    | (intro v; dsimp only; split <;> rfl)

end Sys2Proof.Machine
end

