-- ==== Sys2Proof/Laws/OnlyDefects.lean ====
section
/-!
SUPPORT. The parts of State that the operations of Machine/Defects.lean may change.
-/

namespace Sys2Proof.Machine
open Sys2Proof

theorem queueFinding_only (d : Defect) (s : State) : Only [.brup] s (queueFinding d s) := by
  unfold queueFinding
  try dsimp only
  repeat' first
    | with_reducible exact Only.refl _ _
    | with_reducible assumption
    | exact (rfl : (_ : Bool) = true)
    | exact fun _ => rfl
    | intro _
    | split
    | with_reducible apply Only.onlyIf
    | with_reducible apply Only.via (Q := [.brup]) (Only.modBrup _ _)

end Sys2Proof.Machine
end

