-- ==== Sys2Proof/Laws/OnlyGuardCache.lean ====
section
/-!
SUPPORT. The parts of State that the operations of Machine/GuardCache.lean may change.
-/

namespace Sys2Proof.Machine
open Sys2Proof

theorem slotFor_only (g d : Nat) (want bit : Bool) (s : State) : Only [.guards, .dies] s (slotFor g d want bit s) := by
  unfold slotFor
  try dsimp only
  repeat' first
    | with_reducible exact Only.refl _ _
    | with_reducible assumption
    | exact (rfl : (_ : Bool) = true)
    | exact fun _ => rfl
    | intro _
    | split
    | with_reducible apply Only.via (Q := [.dies]) (guardKeyReq_only _ _ _ _ _)
    | with_reducible apply Only.via (Q := [.guards]) (Only.modGuard _ _ _)

theorem countMiss_only (g : Nat) (s : State) : Only [.guards] s (countMiss g s) := by
  unfold countMiss
  try dsimp only
  repeat' first
    | with_reducible exact Only.refl _ _
    | with_reducible assumption
    | exact (rfl : (_ : Bool) = true)
    | exact fun _ => rfl
    | intro _
    | split
    | with_reducible apply Only.via (Q := [.guards]) (Only.modGuard _ _ _)

theorem bindFault_only (g row how domain : Nat) (s : State) : Only [.guards, .dies, .ks, .mower, .fq] s (bindFault g row how domain s) := by
  unfold bindFault
  try dsimp only
  repeat' first
    | with_reducible exact Only.refl _ _
    | with_reducible assumption
    | exact (rfl : (_ : Bool) = true)
    | exact fun _ => rfl
    | intro _
    | split
    | with_reducible apply Only.via (Q := [.guards, .dies, .ks, .mower]) (fenceGuard_only _ _ _ _)
    | with_reducible apply Only.onlyIf
    | with_reducible apply Only.via (Q := [.fq]) (raise_only _ _ _ _ _ _ _)
    | with_reducible apply Only.via (Q := [.guards]) (Only.modGuard _ _ _)

theorem bindFailed_only (g : Nat) (l : KcLine) (how domain : Nat) (s : State) : Only [.guards, .dies, .ks, .mower, .fq] s (bindFailed g l how domain s) := by
  unfold bindFailed
  try dsimp only
  repeat' first
    | with_reducible exact Only.refl _ _
    | with_reducible assumption
    | exact (rfl : (_ : Bool) = true)
    | exact fun _ => rfl
    | intro _
    | split
    | with_reducible apply Only.via (Q := [.guards, .dies, .ks, .mower, .fq]) (bindFault_only _ _ _ _ _)
    | with_reducible apply Only.via (Q := [.guards]) (Only.modGuard _ _ _)

theorem modReq_only (g uid : Nat) (f : Req → Req) (s : State) : Only [.guards] s (modReq g uid f s) := by
  unfold modReq
  try dsimp only
  repeat' first
    | with_reducible exact Only.refl _ _
    | with_reducible assumption
    | exact (rfl : (_ : Bool) = true)
    | exact fun _ => rfl
    | intro _
    | split
    | with_reducible apply Only.via (Q := [.guards]) (Only.modGuard _ _ _)

theorem park_only (g : Nat) (r : Req) (s : State) : Only [.guards, .dies] s (park g r s) := by
  unfold park
  try dsimp only
  repeat' first
    | with_reducible exact Only.refl _ _
    | with_reducible assumption
    | exact (rfl : (_ : Bool) = true)
    | exact fun _ => rfl
    | intro _
    | split
    | with_reducible apply Only.via (Q := [.guards]) (countMiss_only _ _)
    | with_reducible apply Only.via (Q := [.guards]) (modReq_only _ _ _ _)
    | with_reducible apply Only.via (Q := [.guards, .dies]) (slotFor_only _ _ _ _ _)

theorem proceedData_only (g : Nat) (r : Req) (s : State) : Only [.guards, .dies, .ks, .mower, .fq] s (proceedData g r s) := by
  unfold proceedData
  try dsimp only
  repeat' first
    | with_reducible exact Only.refl _ _
    | with_reducible assumption
    | exact (rfl : (_ : Bool) = true)
    | exact fun _ => rfl
    | intro _
    | split
    | with_reducible apply Only.via (Q := [.guards, .dies, .ks, .mower, .fq]) (bindFailed_only _ _ _ _ _)
    | with_reducible apply Only.via (Q := [.guards, .mower]) (fail_only _ _ _ _)
    | with_reducible apply Only.via (Q := [.guards]) (modReq_only _ _ _ _)
    | with_reducible apply Only.via (Q := [.guards, .dies]) (park_only _ _ _)
    | with_reducible apply Only.via (Q := [.guards]) (Only.modGuard _ _ _)

theorem pastChecks_only (g : Nat) (r : Req) (l : KcLine) (s : State) : Only [.guards, .dies, .ks, .mower, .fq] s (pastChecks g r l s) := by
  unfold pastChecks
  try dsimp only
  repeat' first
    | with_reducible exact Only.refl _ _
    | with_reducible assumption
    | exact (rfl : (_ : Bool) = true)
    | exact fun _ => rfl
    | intro _
    | split
    | with_reducible apply Only.via (Q := [.guards]) (modReq_only _ _ _ _)
    | with_reducible apply Only.onlyIf
    | with_reducible apply Only.via (Q := [.guards, .dies, .ks, .mower, .fq]) (proceedData_only _ _ _)
    | with_reducible apply Only.via (Q := [.guards]) (Only.modGuard _ _ _)

theorem decideKey_only (openOk : Bool) (g : Nat) (r : Req) (s : State) : Only [.guards, .dies, .ks, .mower, .fq] s (decideKey openOk g r s) := by
  unfold decideKey
  try dsimp only
  repeat' first
    | with_reducible exact Only.refl _ _
    | with_reducible assumption
    | exact (rfl : (_ : Bool) = true)
    | exact fun _ => rfl
    | intro _
    | split
    | with_reducible apply Only.via (Q := [.guards, .dies, .ks, .mower, .fq]) (bindFailed_only _ _ _ _ _)
    | with_reducible apply Only.via (Q := [.guards, .mower]) (fail_only _ _ _ _)
    | with_reducible apply Only.onlyIf
    | with_reducible apply Only.via (Q := [.guards, .dies]) (park_only _ _ _)
    | with_reducible apply Only.via (Q := [.guards, .dies, .ks, .mower, .fq]) (pastChecks_only _ _ _ _)
    | with_reducible apply Only.via (Q := [.guards]) (Only.modGuard _ _ _)

theorem tagFailed_only (g : Nat) (r : Req) (cause : Nat) (s : State) : Only [.guards, .fq, .tagWindow] s (tagFailed g r cause s) := by
  unfold tagFailed
  try dsimp only
  repeat' first
    | with_reducible exact Only.refl _ _
    | with_reducible assumption
    | exact (rfl : (_ : Bool) = true)
    | exact fun _ => rfl
    | intro _
    | split
    | with_reducible apply Only.onlyIf
    | with_reducible apply Only.via (Q := [.fq]) (raise_only _ _ _ _ _ _ _)
    | with_reducible apply Only.via (Q := [.guards]) (Only.modGuard _ _ _)
    | with_reducible apply Only.via (Q := [.tagWindow]) (Only.modTagWindow _ _)

theorem failTag_only (g : Nat) (r : Req) (cause : Nat) (side : BitVec 64) (s : State) : Only [.guards, .mower, .fq, .tagWindow] s (failTag g r cause side s) := by
  unfold failTag
  try dsimp only
  repeat' first
    | with_reducible exact Only.refl _ _
    | with_reducible assumption
    | exact (rfl : (_ : Bool) = true)
    | exact fun _ => rfl
    | intro _
    | split
    | with_reducible apply Only.via (Q := [.guards, .mower]) (respond_only _ _ _ _ _ _)
    | with_reducible apply Only.via (Q := [.guards, .fq, .tagWindow]) (tagFailed_only _ _ _ _)

theorem holdRead_only (g : Nat) (r : Req) (bit : Bool) (raw : BitVec 512) (side : BitVec 64) (s : State) : Only [.guards, .dies] s (holdRead g r bit raw side s) := by
  unfold holdRead
  try dsimp only
  repeat' first
    | with_reducible exact Only.refl _ _
    | with_reducible assumption
    | exact (rfl : (_ : Bool) = true)
    | exact fun _ => rfl
    | intro _
    | split
    | with_reducible apply Only.via (Q := [.guards]) (countMiss_only _ _)
    | with_reducible apply Only.via (Q := [.guards]) (modReq_only _ _ _ _)
    | with_reducible apply Only.via (Q := [.guards, .dies]) (slotFor_only _ _ _ _ _)

theorem lineGood_only (g : Nat) (r : Req) (raw data : BitVec 512) (side : BitVec 64) (s : State) : Only [.guards, .dies, .ks, .mower, .fq] s (lineGood g r raw data side s) := by
  unfold lineGood
  try dsimp only
  repeat' first
    | with_reducible exact Only.refl _ _
    | with_reducible assumption
    | exact (rfl : (_ : Bool) = true)
    | exact fun _ => rfl
    | intro _
    | split
    | with_reducible apply Only.via (Q := [.guards, .dies, .ks, .mower, .fq]) (bindFailed_only _ _ _ _ _)
    | with_reducible apply Only.via (Q := [.guards, .dies]) (holdRead_only _ _ _ _ _ _)
    | with_reducible apply Only.via (Q := [.guards]) (modReq_only _ _ _ _)
    | with_reducible apply Only.onlyIf
    | with_reducible apply Only.via (Q := [.guards, .mower]) (respond_only _ _ _ _ _ _)
    | with_reducible apply Only.via (Q := [.guards]) (Only.modGuard _ _ _)

theorem finishRead_only (g : Nat) (r : Req) (data : BitVec 512) (side : BitVec 64) (s : State) : Only [.guards, .dies, .ks, .mower, .fq, .tagWindow] s (finishRead g r data side s) := by
  unfold finishRead
  try dsimp only
  repeat' first
    | with_reducible exact Only.refl _ _
    | with_reducible assumption
    | exact (rfl : (_ : Bool) = true)
    | exact fun _ => rfl
    | intro _
    | split
    | with_reducible apply Only.via (Q := [.guards, .dies, .ks, .mower, .fq]) (bindFailed_only _ _ _ _ _)
    | with_reducible apply Only.via (Q := [.guards, .mower, .fq, .tagWindow]) (failTag_only _ _ _ _ _)
    | with_reducible apply Only.via (Q := [.guards, .dies]) (holdRead_only _ _ _ _ _ _)
    | with_reducible apply Only.via (Q := [.guards, .dies, .ks, .mower, .fq]) (lineGood_only _ _ _ _ _ _)
    | with_reducible apply Only.via (Q := [.guards]) (Only.modGuard _ _ _)

theorem retryHeld_only (g : Nat) (s : State) : Only [.guards, .dies] s (retryHeld g s) := by
  unfold retryHeld
  try dsimp only
  repeat' first
    | with_reducible exact Only.refl _ _
    | with_reducible assumption
    | exact (rfl : (_ : Bool) = true)
    | exact fun _ => rfl
    | intro _
    | split
    | with_reducible apply Only.via (Q := [.guards, .dies]) (slotFor_only _ _ _ _ _)
    | with_reducible apply Only.via (Q := [.guards]) (Only.modGuard _ _ _)

theorem loadPins_only (g : Nat) (s : State) : Only [.guards, .dies] s (loadPins g s) := by
  unfold loadPins
  try dsimp only
  repeat' first
    | with_reducible exact Only.refl _ _
    | with_reducible assumption
    | exact (rfl : (_ : Bool) = true)
    | exact fun _ => rfl
    | intro _
    | split
    | with_reducible apply Only.forEach
    | with_reducible apply Only.onlyIf
    | with_reducible apply Only.via (Q := [.guards, .dies]) (slotFor_only _ _ _ _ _)

theorem pinProgress_only (g : Nat) (s : State) : Only [.guards] s (pinProgress g s) := by
  unfold pinProgress
  try dsimp only
  repeat' first
    | with_reducible exact Only.refl _ _
    | with_reducible assumption
    | exact (rfl : (_ : Bool) = true)
    | exact fun _ => rfl
    | intro _
    | split
    | with_reducible apply Only.via (Q := [.guards]) (Only.modGuard _ _ _)

theorem seekSlots_only (g : Nat) (s : State) : Only [.guards, .dies] s (seekSlots g s) := by
  unfold seekSlots
  try dsimp only
  repeat' first
    | with_reducible exact Only.refl _ _
    | with_reducible assumption
    | exact (rfl : (_ : Bool) = true)
    | exact fun _ => rfl
    | intro _
    | split
    | with_reducible apply Only.forEach
    | with_reducible apply Only.via (Q := [.guards, .dies]) (loadPins_only _ _)
    | with_reducible apply Only.via (Q := [.guards, .dies]) (retryHeld_only _ _)
    | with_reducible apply Only.via (Q := [.guards, .dies]) (slotFor_only _ _ _ _ _)

theorem recordLat_only (g : Nat) (e : Entry) (s : State) : Only [.freeCtr, .guards] s (recordLat g e s) := by
  unfold recordLat
  try dsimp only
  repeat' first
    | with_reducible exact Only.refl _ _
    | with_reducible assumption
    | with_reducible apply Only.foldl
    | with_reducible apply Only.foldlPair
    | exact (rfl : (_ : Bool) = true)
    | exact fun _ => rfl
    | intro _
    | split
    | with_reducible apply Only.via (Q := [.freeCtr]) (state_used_only _)
    | with_reducible apply Only.via (Q := [.guards]) (Only.modGuard _ _ _)
    | dsimp only

theorem answerSlots_only (openOk : Bool) (g : Nat) (e : Entry) (s : State) : Only [.guards, .dies, .ks, .mower, .fq, .tagWindow] s (answerSlots openOk g e s) := by
  unfold answerSlots
  try dsimp only
  repeat' first
    | with_reducible exact Only.refl _ _
    | with_reducible assumption
    | exact (rfl : (_ : Bool) = true)
    | exact fun _ => rfl
    | intro _
    | split
    | with_reducible apply Only.via (Q := [.guards, .dies, .ks, .mower, .fq]) (decideKey_only _ _ _ _)
    | with_reducible apply Only.via (Q := [.guards, .dies, .ks, .mower, .fq, .tagWindow]) (finishRead_only _ _ _ _ _)
    | with_reducible apply Only.forEach
    | with_reducible apply Only.via (Q := [.guards]) (Only.modGuard _ _ _)

theorem installFill_only (openOk : Bool) (g : Nat) (e : Entry) (s : State) : Only [.freeCtr, .guards, .dies, .ks, .mower, .fq, .tagWindow] s (installFill openOk g e s) := by
  unfold installFill
  try dsimp only
  repeat' first
    | with_reducible exact Only.refl _ _
    | with_reducible assumption
    | exact (rfl : (_ : Bool) = true)
    | exact fun _ => rfl
    | intro _
    | split
    | with_reducible apply Only.via (Q := [.freeCtr]) (state_used_only _)
    | with_reducible apply Only.via (Q := [.guards, .dies, .ks, .mower, .fq, .tagWindow]) (answerSlots_only _ _ _ _)
    | with_reducible apply Only.via (Q := [.freeCtr, .guards]) (recordLat_only _ _ _)
    | with_reducible apply Only.via (Q := [.guards]) (Only.modGuard _ _ _)

theorem askAgain_only (g : Nat) (sl : Slot) (s : State) : Only [.guards, .dies] s (askAgain g sl s) := by
  unfold askAgain
  try dsimp only
  repeat' first
    | with_reducible exact Only.refl _ _
    | with_reducible assumption
    | exact (rfl : (_ : Bool) = true)
    | exact fun _ => rfl
    | intro _
    | split
    | with_reducible apply Only.via (Q := [.dies]) (guardKeyReq_only _ _ _ _ _)
    | with_reducible apply Only.via (Q := [.guards]) (Only.modGuard _ _ _)

theorem fillArrived_only (openOk : Bool) (g : Nat) (e : Entry) (s : State) : Only [.freeCtr, .guards, .dies, .ks, .mower, .fq, .tagWindow] s (fillArrived openOk g e s) := by
  unfold fillArrived
  try dsimp only
  repeat' first
    | with_reducible exact Only.refl _ _
    | with_reducible assumption
    | exact (rfl : (_ : Bool) = true)
    | exact fun _ => rfl
    | intro _
    | split
    | with_reducible apply Only.via (Q := [.freeCtr]) (state_used_only _)
    | with_reducible apply Only.via (Q := [.guards, .dies]) (askAgain_only _ _ _)
    | with_reducible apply Only.via (Q := [.guards, .dies, .ks, .mower, .fq]) (bindFault_only _ _ _ _ _)
    | with_reducible apply Only.forEach
    | with_reducible apply Only.via (Q := [.freeCtr, .guards, .dies, .ks, .mower, .fq, .tagWindow]) (installFill_only _ _ _ _)
    | with_reducible apply Only.via (Q := [.guards]) (pinProgress_only _ _)
    | with_reducible apply Only.via (Q := [.guards, .dies]) (seekSlots_only _ _)
    | with_reducible apply Only.via (Q := [.guards]) (Only.modGuard _ _ _)

end Sys2Proof.Machine
end

