-- ==== Sys2Proof/Laws/OnlyKeyOps.lean ====
section
/-!
SUPPORT. The parts of State that the operations of Machine/KeyOps.lean may change.
-/

namespace Sys2Proof.Machine
open Sys2Proof

theorem setDom_only (r : DomRec) (s : State) : Only [.ks] s (setDom r s) := by
  unfold setDom
  try dsimp only
  repeat' first
    | with_reducible exact Only.refl _ _
    | with_reducible assumption
    | exact (rfl : (_ : Bool) = true)
    | exact fun _ => rfl
    | intro _
    | split
    | with_reducible apply Only.via (Q := [.ks]) (Only.modKs _ _)

theorem modDom_only (d : Nat) (f : DomRec → DomRec) (s : State) : Only [.ks] s (modDom d f s) := by
  unfold modDom
  try dsimp only
  repeat' first
    | with_reducible exact Only.refl _ _
    | with_reducible assumption
    | exact (rfl : (_ : Bool) = true)
    | exact fun _ => rfl
    | intro _
    | split
    | with_reducible apply Only.via (Q := [.ks]) (Only.modKs _ _)
    | dsimp only [id]

theorem setModel_only (r : ModelRec) (s : State) : Only [.ks] s (setModel r s) := by
  unfold setModel
  try dsimp only
  repeat' first
    | with_reducible exact Only.refl _ _
    | with_reducible assumption
    | exact (rfl : (_ : Bool) = true)
    | exact fun _ => rfl
    | intro _
    | split
    | with_reducible apply Only.via (Q := [.ks]) (Only.modKs _ _)

theorem modModel_only (m : Nat) (f : ModelRec → ModelRec) (s : State) : Only [.ks] s (modModel m f s) := by
  unfold modModel
  try dsimp only
  repeat' first
    | with_reducible exact Only.refl _ _
    | with_reducible assumption
    | exact (rfl : (_ : Bool) = true)
    | exact fun _ => rfl
    | intro _
    | split
    | with_reducible apply Only.via (Q := [.ks]) (Only.modKs _ _)

theorem startOp_only (b : Broadcast) (s : State) : Only [.dies, .head, .ks] s (startOp b s) := by
  unfold startOp
  try dsimp only
  repeat' first
    | with_reducible exact Only.refl _ _
    | with_reducible assumption
    | with_reducible apply Only.foldl
    | with_reducible apply Only.foldlPair
    | exact (rfl : (_ : Bool) = true)
    | exact fun _ => rfl
    | intro _
    | split
    | with_reducible apply Only.forEach
    | with_reducible apply Only.via (Q := [.dies, .head]) (headAll_only _ _)
    | with_reducible apply Only.via (Q := [.ks]) (Only.modKs _ _)
    | dsimp only
    | dsimp only [id]

theorem sendSync_only (die kind : Nat) (msgs : List RingBody) (s : State) : Only [.dies, .head, .ks] s (sendSync die kind msgs s) := by
  unfold sendSync
  try dsimp only
  repeat' first
    | with_reducible exact Only.refl _ _
    | with_reducible assumption
    | exact (rfl : (_ : Bool) = true)
    | exact fun _ => rfl
    | intro _
    | split
    | with_reducible apply Only.forEach
    | with_reducible apply Only.via (Q := [.dies, .head]) (headSend_only _ _ _)
    | with_reducible apply Only.via (Q := [.ks]) (Only.modKs _ _)

theorem startSync_only (die : Nat) (s : State) : Only [.dies, .head, .ks] s (startSync die s) := by
  unfold startSync
  try dsimp only
  repeat' first
    | with_reducible exact Only.refl _ _
    | with_reducible assumption
    | exact (rfl : (_ : Bool) = true)
    | exact fun _ => rfl
    | intro _
    | split
    | with_reducible apply Only.forEach
    | with_reducible apply Only.via (Q := [.dies, .head, .ks]) (sendSync_only _ _ _ _)
    | with_reducible apply Only.via (Q := [.ks]) (Only.modKs _ _)

theorem launch_only (b : Broadcast) (s : State) : Only [.dies, .head, .ks] s (launch b s) := by
  unfold launch
  try dsimp only
  repeat' first
    | with_reducible exact Only.refl _ _
    | with_reducible assumption
    | exact (rfl : (_ : Bool) = true)
    | exact fun _ => rfl
    | intro _
    | split
    | with_reducible apply Only.via (Q := [.dies, .head, .ks]) (startOp_only _ _)
    | with_reducible apply Only.via (Q := [.ks]) (Only.modKs _ _)

theorem mirSend_only (u : Unacked) (s : State) : Only [.mir] s (mirSend u s) := by
  unfold mirSend
  try dsimp only
  repeat' first
    | with_reducible exact Only.refl _ _
    | with_reducible assumption
    | exact (rfl : (_ : Bool) = true)
    | exact fun _ => rfl
    | intro _
    | split
    | with_reducible apply Only.via (Q := [.mir]) (Only.modMir _ _)

theorem commit_only (frames : List FrameBody) (effects : List Broadcast) (replies : List (Waiter × BitVec 8)) (s : State) : Only [.dies, .head, .ks, .att, .tenantBox, .operBox, .mir] s (commit frames effects replies s) := by
  unfold commit
  try dsimp only
  repeat' first
    | with_reducible exact Only.refl _ _
    | with_reducible assumption
    | exact (rfl : (_ : Bool) = true)
    | exact fun _ => rfl
    | intro _
    | split
    | with_reducible apply Only.forEach
    | with_reducible apply Only.via (Q := [.dies, .head, .ks]) (launch_only _ _)
    | with_reducible apply Only.via (Q := [.mir]) (mirSend_only _ _)
    | with_reducible apply Only.via (Q := [.att, .tenantBox, .operBox]) (reply_only _ _ _)

theorem loseGen_only (d : Nat) (gen : BitVec 32) (s : State) : Only [.ks, .att, .fq] s (loseGen d gen s) := by
  unfold loseGen
  try dsimp only
  repeat' first
    | with_reducible exact Only.refl _ _
    | with_reducible assumption
    | exact (rfl : (_ : Bool) = true)
    | exact fun _ => rfl
    | intro _
    | split
    | with_reducible apply Only.via (Q := [.ks]) (modDom_only _ _ _)
    | with_reducible apply Only.onlyIf
    | with_reducible apply Only.via (Q := [.att]) (ownerEvent_only _ _ _)
    | with_reducible apply Only.via (Q := [.fq]) (raise_only _ _ _ _ _ _ _)
    | dsimp only [id]

theorem checkStore_only (d : Nat) (s : State) : Only [.ks, .att, .fq] s (checkStore d s) := by
  unfold checkStore
  try dsimp only
  repeat' first
    | with_reducible exact Only.refl _ _
    | with_reducible assumption
    | exact (rfl : (_ : Bool) = true)
    | exact fun _ => rfl
    | intro _
    | split
    | with_reducible apply Only.forEach
    | with_reducible apply Only.via (Q := [.ks, .att, .fq]) (loseGen_only _ _ _)
    | with_reducible apply Only.onlyIf

theorem commitDom_only (d : Nat) (effects : List Broadcast) (replies : List (Waiter × BitVec 8)) (s : State) : Only [.dies, .head, .ks, .att, .tenantBox, .operBox, .fq, .mir] s (commitDom d effects replies s) := by
  unfold commitDom
  try dsimp only
  repeat' first
    | with_reducible exact Only.refl _ _
    | with_reducible assumption
    | exact (rfl : (_ : Bool) = true)
    | exact fun _ => rfl
    | intro _
    | split
    | with_reducible apply Only.via (Q := [.ks, .att, .fq]) (checkStore_only _ _)
    | with_reducible apply Only.via (Q := [.dies, .head, .ks, .att, .tenantBox, .operBox, .mir]) (commit_only _ _ _ _)

theorem dropKept_only (d : Nat) (s : State) : Only [.mower] s (dropKept d s) := by
  unfold dropKept
  try dsimp only
  repeat' first
    | with_reducible exact Only.refl _ _
    | with_reducible assumption
    | exact (rfl : (_ : Bool) = true)
    | exact fun _ => rfl
    | intro _
    | split
    | with_reducible apply Only.via (Q := [.mower]) (Only.modMower _ _)

theorem wipeBundle_only (m : Nat) (s : State) : Only [.vault] s (wipeBundle m s) := by
  unfold wipeBundle
  try dsimp only
  repeat' first
    | with_reducible exact Only.refl _ _
    | with_reducible assumption
    | exact (rfl : (_ : Bool) = true)
    | exact fun _ => rfl
    | intro _
    | split
    | with_reducible apply Only.viaVault
    | (intro v; dsimp only; split <;> rfl)

theorem freeDomain_only (d : Nat) (s : State) : Only [.dies, .head, .ks, .vault, .mower, .att, .tenantBox, .operBox, .mir] s (freeDomain d s) := by
  unfold freeDomain
  try dsimp only
  repeat' first
    | with_reducible exact Only.refl _ _
    | with_reducible assumption
    | exact (rfl : (_ : Bool) = true)
    | exact fun _ => rfl
    | intro _
    | split
    | with_reducible apply Only.via (Q := [.dies, .head, .ks, .att, .tenantBox, .operBox, .mir]) (commit_only _ _ _ _)
    | with_reducible apply Only.via (Q := [.mower]) (dropKept_only _ _)
    | with_reducible apply Only.via (Q := [.att]) (ownerEvent_only _ _ _)
    | with_reducible apply Only.via (Q := [.vault]) (wipeBundle_only _ _)
    | with_reducible apply Only.via (Q := [.ks]) (Only.modKs _ _)
    | with_reducible apply Only.via (Q := [.mower]) (Only.modMower _ _)
    | dsimp only [id]

theorem closeCreated_only (d : Nat) (s : State) : Only [.dies, .head, .ks, .vault, .mower, .att, .tenantBox, .operBox, .mir] s (closeCreated d s) := by
  unfold closeCreated
  try dsimp only
  repeat' first
    | with_reducible exact Only.refl _ _
    | with_reducible assumption
    | exact (rfl : (_ : Bool) = true)
    | exact fun _ => rfl
    | intro _
    | split
    | with_reducible apply Only.via (Q := [.dies, .head, .ks, .vault, .mower, .att, .tenantBox, .operBox, .mir]) (freeDomain_only _ _)
    | with_reducible apply Only.onlyIf

theorem closeAll_only (s : State) : Only [.dies, .head, .ks, .vault, .mower, .att, .tenantBox, .operBox, .mir] s (closeAll s) := by
  unfold closeAll
  try dsimp only
  repeat' first
    | with_reducible exact Only.refl _ _
    | with_reducible assumption
    | exact (rfl : (_ : Bool) = true)
    | exact fun _ => rfl
    | intro _
    | split
    | with_reducible apply Only.via (Q := [.dies, .head, .ks, .vault, .mower, .att, .tenantBox, .operBox, .mir]) (closeCreated_only _ _)
    | with_reducible apply Only.forEach
    | dsimp only [id]

theorem addDescs_only (dsweep : Bool) (d : Nat) (rs : List Region) (s : State) : Only [.ks] s (addDescs dsweep d rs s) := by
  unfold addDescs
  try dsimp only
  repeat' first
    | with_reducible exact Only.refl _ _
    | with_reducible assumption
    | exact (rfl : (_ : Bool) = true)
    | exact fun _ => rfl
    | intro _
    | split
    | with_reducible apply Only.forEach
    | with_reducible apply Only.via (Q := [.ks]) (modDom_only _ _ _)
    | with_reducible apply Only.via (Q := [.ks]) (Only.modKs _ _)

theorem rekeyEnded_only (d : Nat) (s : State) : Only [.dies, .head, .ks, .att, .tenantBox, .operBox, .fq, .mir] s (rekeyEnded d s) := by
  unfold rekeyEnded
  try dsimp only
  repeat' first
    | with_reducible exact Only.refl _ _
    | with_reducible assumption
    | exact (rfl : (_ : Bool) = true)
    | exact fun _ => rfl
    | intro _
    | split
    | with_reducible apply Only.via (Q := [.dies, .head, .ks, .att, .tenantBox, .operBox, .fq, .mir]) (commitDom_only _ _ _ _)
    | with_reducible apply Only.via (Q := [.ks]) (modDom_only _ _ _)
    | with_reducible apply Only.onlyIf

theorem sweepEnded_only (d : Nat) (s : State) : Only [.dies, .head, .ks, .att, .tenantBox, .operBox, .fq, .mir] s (sweepEnded d s) := by
  unfold sweepEnded
  try dsimp only
  repeat' first
    | with_reducible exact Only.refl _ _
    | with_reducible assumption
    | exact (rfl : (_ : Bool) = true)
    | exact fun _ => rfl
    | intro _
    | split
    | with_reducible apply Only.via (Q := [.dies, .head, .ks, .att, .tenantBox, .operBox, .fq, .mir]) (commitDom_only _ _ _ _)
    | with_reducible apply Only.via (Q := [.ks]) (modDom_only _ _ _)
    | with_reducible apply Only.onlyIf

theorem retiredOld_only (d : Nat) (s : State) : Only [.dies, .head, .ks, .att, .tenantBox, .operBox, .fq, .mir] s (retiredOld d s) := by
  unfold retiredOld
  try dsimp only
  repeat' first
    | with_reducible exact Only.refl _ _
    | with_reducible assumption
    | exact (rfl : (_ : Bool) = true)
    | exact fun _ => rfl
    | intro _
    | split
    | with_reducible apply Only.via (Q := [.dies, .head, .ks, .att, .tenantBox, .operBox, .fq, .mir]) (commitDom_only _ _ _ _)
    | with_reducible apply Only.via (Q := [.ks]) (modDom_only _ _ _)
    | with_reducible apply Only.via (Q := [.att]) (ownerEvent_only _ _ _)
    | dsimp only [id]

theorem retiredAll_only (d : Nat) (s : State) : Only [.dies, .head, .ks, .vault, .mower, .att, .tenantBox, .operBox, .mir] s (retiredAll d s) := by
  unfold retiredAll
  try dsimp only
  repeat' first
    | with_reducible exact Only.refl _ _
    | with_reducible assumption
    | exact (rfl : (_ : Bool) = true)
    | exact fun _ => rfl
    | intro _
    | split
    | with_reducible apply Only.via (Q := [.dies, .head, .ks, .vault, .mower, .att, .tenantBox, .operBox, .mir]) (freeDomain_only _ _)
    | with_reducible apply Only.onlyIf

theorem synced_only (die : Nat) (s : State) : Only [.dies, .head, .ks] s (synced die s) := by
  unfold synced
  try dsimp only
  repeat' first
    | with_reducible exact Only.refl _ _
    | with_reducible assumption
    | exact (rfl : (_ : Bool) = true)
    | exact fun _ => rfl
    | intro _
    | split
    | with_reducible apply Only.forEach
    | with_reducible apply Only.via (Q := [.dies, .head, .ks]) (launch_only _ _)
    | with_reducible apply Only.via (Q := [.ks]) (Only.modKs _ _)

theorem finishOp_only (b : Broadcast) (s : State) : Only [.dies, .head, .ks, .vault, .mower, .att, .tenantBox, .operBox, .fq, .mir] s (finishOp b s) := by
  unfold finishOp
  try dsimp only
  repeat' first
    | with_reducible exact Only.refl _ _
    | with_reducible assumption
    | exact (rfl : (_ : Bool) = true)
    | exact fun _ => rfl
    | intro _
    | split
    | with_reducible apply Only.via (Q := [.dies, .head, .ks, .vault, .mower, .att, .tenantBox, .operBox, .mir]) (closeAll_only _)
    | with_reducible apply Only.via (Q := [.dies, .head, .ks, .att, .tenantBox, .operBox, .mir]) (commit_only _ _ _ _)
    | with_reducible apply Only.via (Q := [.dies, .head, .ks, .att, .tenantBox, .operBox, .fq, .mir]) (commitDom_only _ _ _ _)
    | with_reducible apply Only.forEach
    | with_reducible apply Only.via (Q := [.ks]) (modDom_only _ _ _)
    | with_reducible apply Only.via (Q := [.dies, .head, .ks, .vault, .mower, .att, .tenantBox, .operBox, .mir]) (retiredAll_only _ _)
    | with_reducible apply Only.via (Q := [.dies, .head, .ks, .att, .tenantBox, .operBox, .fq, .mir]) (retiredOld_only _ _)
    | with_reducible apply Only.via (Q := [.dies, .head, .ks]) (synced_only _ _)

theorem settleOps_only (n : Nat) (s : State) : Only [.dies, .head, .ks, .vault, .mower, .att, .tenantBox, .operBox, .fq, .mir] s (settleOps n s) := by
  induction n generalizing s with
  | zero => exact Only.refl _ _
  | succ n ih =>
    unfold settleOps
    split
    · exact Only.refl _ _
    · exact Only.trans (Only.via (finishOp_only _ _) rfl (Only.via (Only.modKs _ _) rfl (Only.refl _ _))) (ih _)

theorem settleKeys_only (s : State) : Only [.dies, .head, .ks, .vault, .mower, .att, .tenantBox, .operBox, .fq, .mir] s (settleKeys s) := by
  unfold settleKeys
  try dsimp only
  repeat' first
    | with_reducible exact Only.refl _ _
    | with_reducible assumption
    | exact (rfl : (_ : Bool) = true)
    | exact fun _ => rfl
    | intro _
    | split
    | with_reducible apply Only.via (Q := [.dies, .head, .ks, .vault, .mower, .att, .tenantBox, .operBox, .fq, .mir]) (settleOps_only _ _)

end Sys2Proof.Machine
end

