-- ==== Sys2Proof/Laws/OnlyMower.lean ====
section
/-!
SUPPORT. The parts of State that the operations of Machine/Mower.lean may change.
-/

namespace Sys2Proof.Machine
open Sys2Proof

theorem setResult_only (r : ResultRec) (s : State) : Only [.mower] s (setResult r s) := by
  unfold setResult
  try dsimp only
  repeat' first
    | with_reducible exact Only.refl _ _
    | with_reducible assumption
    | exact (rfl : (_ : Bool) = true)
    | exact fun _ => rfl
    | intro _
    | split
    | with_reducible apply Only.via (Q := [.mower]) (Only.modMower _ _)

theorem endJob_only (j : MJob) (outcome : BitVec 8) (hash : Bytes) (s : State) : Only [.mower, .att, .fq] s (endJob j outcome hash s) := by
  unfold endJob
  try dsimp only
  repeat' first
    | with_reducible exact Only.refl _ _
    | with_reducible assumption
    | exact (rfl : (_ : Bool) = true)
    | exact fun _ => rfl
    | intro _
    | split
    | with_reducible apply Only.onlyIf
    | with_reducible apply Only.via (Q := [.fq]) (raise_only _ _ _ _ _ _ _)
    | with_reducible apply Only.via (Q := [.att]) (sessEvent_only _ _ _)
    | with_reducible apply Only.via (Q := [.mower]) (setResult_only _ _)
    | with_reducible apply Only.via (Q := [.mower]) (Only.modMower _ _)
    | dsimp only [id]

theorem settleMower_only (s : State) : Only [.mower, .att, .fq] s (settleMower s) := by
  unfold settleMower
  try dsimp only
  repeat' first
    | with_reducible exact Only.refl _ _
    | with_reducible assumption
    | exact (rfl : (_ : Bool) = true)
    | exact fun _ => rfl
    | intro _
    | split
    | with_reducible apply Only.via (Q := [.mower, .att, .fq]) (endJob_only _ _ _ _)
    | with_reducible apply Only.forEach
    | with_reducible apply Only.via (Q := [.mower]) (Only.modMower _ _)

theorem settle_only (s : State) : Only [.dies, .head, .ks, .vault, .mower, .att, .tenantBox, .operBox, .fq, .mir] s (settle s) := by
  unfold settle
  try dsimp only
  repeat' first
    | with_reducible exact Only.refl _ _
    | with_reducible assumption
    | exact (rfl : (_ : Bool) = true)
    | exact fun _ => rfl
    | intro _
    | split
    | with_reducible apply Only.via (Q := [.dies, .head, .ks, .vault, .mower, .att, .tenantBox, .operBox, .fq, .mir]) (settleKeys_only _)
    | with_reducible apply Only.via (Q := [.mower, .att, .fq]) (settleMower_only _)

theorem abortJobs_only (d : Nat) (s : State) : Only [.mower, .att, .fq] s (abortJobs d s) := by
  unfold abortJobs
  try dsimp only
  repeat' first
    | with_reducible exact Only.refl _ _
    | with_reducible assumption
    | exact (rfl : (_ : Bool) = true)
    | exact fun _ => rfl
    | intro _
    | split
    | with_reducible apply Only.via (Q := [.mower, .att, .fq]) (endJob_only _ _ _ _)
    | with_reducible apply Only.forEach
    | with_reducible apply Only.via (Q := [.mower, .att, .fq]) (settleMower_only _)
    | with_reducible apply Only.via (Q := [.mower]) (Only.modMower _ _)

theorem addNode_only (seq : BitVec 32) (n : Nat × Nat × Bytes) (s : State) : Only [.mower] s (addNode seq n s) := by
  unfold addNode
  try dsimp only
  repeat' first
    | with_reducible exact Only.refl _ _
    | with_reducible assumption
    | exact (rfl : (_ : Bool) = true)
    | exact fun _ => rfl
    | intro _
    | split
    | with_reducible apply Only.via (Q := [.mower]) (Only.modMower _ _)

theorem jobDone_only (j : MJob) (hash : Bytes) (s : State) : Only [.mower, .att, .fq] s (jobDone j hash s) := by
  unfold jobDone
  try dsimp only
  repeat' first
    | with_reducible exact Only.refl _ _
    | with_reducible assumption
    | exact (rfl : (_ : Bool) = true)
    | exact fun _ => rfl
    | intro _
    | split
    | with_reducible apply Only.via (Q := [.mower, .att, .fq]) (endJob_only _ _ _ _)
    | with_reducible apply Only.onlyIf
    | with_reducible apply Only.via (Q := [.mower]) (Only.modMower _ _)

theorem jobTurn_only {j : MJob} {s t : State} (h : jobTurn j s = some t) : Only [.mower] s t := by
  unfold jobTurn at h
  split at h
  · cases h
    exact Only.via (addNode_only _ _ _) rfl (Only.refl _ _)
  · split at h
    · cases h
    · cases h
      exact Only.via (addNode_only _ _ _) rfl (Only.via (Only.modMower _ _) rfl (Only.refl _ _))

/-- The turn of the first job that can take one. -/
theorem firstTurn_only {l : List MJob} {j : MJob} {s t : State} (h : l.findSome? (fun j => (jobTurn j s).map (fun t => (j, t))) = some (j, t)) :
    Only [.mower] s t := by
  obtain ⟨k, _, hk⟩ := List.exists_of_findSome?_eq_some h
  cases hj : jobTurn k s with
  | none => rw [hj] at hk; cases hk
  | some u =>
    rw [hj] at hk
    cases hk
    exact jobTurn_only hj

theorem execMowerAbort_only (p : Path) (value : BitVec 32) (s : State) : ∃ t, execMowerAbort p value s = .next t ∧ Only [.mower, .att, .fq, .ports] s t := by
  refine ⟨_, rfl, ?_⟩
  try dsimp only
  repeat' first
    | with_reducible exact Only.refl _ _
    | with_reducible assumption
    | exact (rfl : (_ : Bool) = true)
    | exact fun _ => rfl
    | intro _
    | split
    | with_reducible apply Only.via (Q := []) (done_only _)
    | with_reducible apply Only.via (Q := [.mower, .att, .fq]) (endJob_only _ _ _ _)
    | with_reducible apply Only.writeAt

end Sys2Proof.Machine
end

