-- ==== Sys2Proof/Laws/OnlyGuardKeys.lean ====
section
/-!
SUPPORT. The parts of State that the operations of Machine/GuardKeys.lean may change.
-/

namespace Sys2Proof.Machine
open Sys2Proof

theorem passed_only (die : Nat) (m : RingMsg) (counts : Bool) (s : State) : Only [.dies, .head, .sby] s (passed die m counts s) := by
  unfold passed
  try dsimp only
  repeat' first
    | with_reducible exact Only.refl _ _
    | with_reducible assumption
    | exact (rfl : (_ : Bool) = true)
    | exact fun _ => rfl
    | intro _
    | split
    | with_reducible apply Only.onlyIf
    | with_reducible apply Only.via (Q := [.dies, .head]) (ringOn_only _ _ _)
    | with_reducible apply Only.via (Q := [.dies]) (Only.modDie _ _ _)
    | with_reducible apply Only.via (Q := [.sby]) (Only.modSby _ _)

theorem ringLoss_only (die type src : Nat) (s : State) : Only [.dies, .fq, .sby] s (ringLoss die type src s) := by
  unfold ringLoss
  try dsimp only
  repeat' first
    | with_reducible exact Only.refl _ _
    | with_reducible assumption
    | exact (rfl : (_ : Bool) = true)
    | exact fun _ => rfl
    | intro _
    | split
    | with_reducible apply Only.onlyIf
    | with_reducible apply Only.via (Q := [.fq]) (raise_only _ _ _ _ _ _ _)
    | with_reducible apply Only.via (Q := [.dies]) (stopSend_only _ _ _)
    | with_reducible apply Only.via (Q := [.dies]) (Only.modDie _ _ _)
    | with_reducible apply Only.via (Q := [.sby]) (Only.modSby _ _)

theorem ringGap_only (die : Nat) (m : RingMsg) (s : State) : Only [.dies, .fq, .sby] s (ringGap die m s) := by
  unfold ringGap
  try dsimp only
  repeat' first
    | with_reducible exact Only.refl _ _
    | with_reducible assumption
    | exact (rfl : (_ : Bool) = true)
    | exact fun _ => rfl
    | intro _
    | split
    | with_reducible apply Only.via (Q := [.dies, .fq, .sby]) (ringLoss_only _ _ _ _)
    | with_reducible apply Only.via (Q := [.dies]) (Only.modDie _ _ _)

theorem skipPassed_only (die n : Nat) (s : State) : Only [.dies, .head, .sby] s (skipPassed die n s) := by
  induction n generalizing s with
  | zero => exact Only.refl _ _
  | succ n ih =>
    unfold skipPassed
    split
    · exact Only.refl _ _
    · split
      · exact Only.trans (Only.via (passed_only _ _ _ _) rfl (Only.refl _ _)) (ih _)
      · exact Only.refl _ _

theorem ringFlow_only (ds : List Nat) (s : State) : Only [.dies, .head, .sby] s (ringFlow ds s) := by
  unfold ringFlow
  try dsimp only
  repeat' first
    | with_reducible exact Only.refl _ _
    | with_reducible assumption
    | exact (rfl : (_ : Bool) = true)
    | exact fun _ => rfl
    | intro _
    | split
    | with_reducible apply Only.forEach
    | with_reducible apply Only.via (Q := [.dies, .head, .sby]) (skipPassed_only _ _ _)

theorem Only.receive {ps : List Part} {b s : State} {die : Fin 4} {k : RingMsg → Option (State → State)} (h : Only ps b s)
    (hp : ([.dies, .head, .fq, .sby] : List Part).all (fun p => ps.contains p) = true)
    (hk : ∀ m u, Only ps b u → Only ps b (((k m).getD id) u)) : Only ps b (receive die k s) := by
  have hf : ∀ ds u, Only ps b u → Only ps b (ringFlow ds u) := fun ds u hu => Only.via (ringFlow_only _ _) (Only.sub rfl hp) hu
  unfold Machine.receive
  dsimp only
  split
  · exact Only.via (Only.modDie _ _ _) (Only.sub rfl hp) (hf _ _ h)
  split
  · exact Only.via (ringGap_only _ _ _) (Only.sub rfl hp) (hf _ _ (hf _ _ h))
  · split
    · exact hf _ _ (hf _ _ h)
    · rename_i m _ _ f hm
      have := hk m _ (Only.via (passed_only die.toNat m true _) (Only.sub rfl hp) (hf [die.toNat] _ (hf (upstream die.toNat s) _ h)))
      rwa [hm] at this
  · exact hf _ _ (hf _ _ h)

theorem ingestNoKey_only (g first last : Nat) (p : Bool → Bool → Bool) (s : State) : Only [.ingest] s (ingestNoKey g first last p s) := by
  unfold ingestNoKey
  try dsimp only
  repeat' first
    | with_reducible exact Only.refl _ _
    | with_reducible assumption
    | exact (rfl : (_ : Bool) = true)
    | exact fun _ => rfl
    | intro _
    | split
    | with_reducible apply Only.via (Q := [.ingest]) (Only.modIngest _ _)

theorem keyNoneAt_only (g domain : Nat) (want genbit : Bool) (s : State) : Only [.guards, .dies, .ingest, .mower, .fq, .tagWindow] s (keyNoneAt g domain want genbit s) := by
  unfold keyNoneAt
  try dsimp only
  repeat' first
    | with_reducible exact Only.refl _ _
    | with_reducible assumption
    | exact (rfl : (_ : Bool) = true)
    | exact fun _ => rfl
    | intro _
    | split
    | with_reducible apply Only.via (Q := [.guards, .mower]) (fail_only _ _ _ _)
    | with_reducible apply Only.via (Q := [.guards, .mower, .fq, .tagWindow]) (failTag_only _ _ _ _ _)
    | with_reducible apply Only.forEach
    | with_reducible apply Only.via (Q := [.ingest]) (ingestNoKey_only _ _ _ _ _)
    | with_reducible apply Only.onlyIf
    | with_reducible apply Only.via (Q := [.guards, .dies]) (seekSlots_only _ _)
    | with_reducible apply Only.via (Q := [.guards]) (Only.modGuard _ _ _)

theorem pinStart_only (g d : Nat) (s : State) : Only [.guards, .dies] s (pinStart g d s) := by
  unfold pinStart
  try dsimp only
  repeat' first
    | with_reducible exact Only.refl _ _
    | with_reducible assumption
    | exact (rfl : (_ : Bool) = true)
    | exact fun _ => rfl
    | intro _
    | split
    | with_reducible apply Only.via (Q := [.guards, .dies]) (loadPins_only _ _)
    | with_reducible apply Only.via (Q := [.guards]) (pinProgress_only _ _)
    | with_reducible apply Only.via (Q := [.guards]) (Only.modGuard _ _ _)

theorem pinEnd_only (g d : Nat) (s : State) : Only [.guards] s (pinEnd g d s) := by
  unfold pinEnd
  try dsimp only
  repeat' first
    | with_reducible exact Only.refl _ _
    | with_reducible assumption
    | exact (rfl : (_ : Bool) = true)
    | exact fun _ => rfl
    | intro _
    | split
    | with_reducible apply Only.via (Q := [.guards]) (Only.modGuard _ _ _)

theorem execKcPin_only (g : Fin 40) (p : Path) (value : BitVec 32) (s : State) : ∃ t, execKcPin g p value s = .next t ∧ Only [.guards, .dies, .ports] s t := by
  refine ⟨_, rfl, ?_⟩
  try dsimp only
  repeat' first
    | with_reducible exact Only.refl _ _
    | with_reducible assumption
    | exact (rfl : (_ : Bool) = true)
    | exact fun _ => rfl
    | intro _
    | split
    | with_reducible apply Only.via (Q := []) (done_only _)
    | with_reducible apply Only.via (Q := [.guards, .dies]) (pinStart_only _ _ _)
    | with_reducible apply Only.writeAt
    | with_reducible apply Only.via (Q := [.guards]) (Only.modGuard _ _ _)

theorem execKcUnpin_only (g : Fin 40) (p : Path) (value : BitVec 32) (s : State) : ∃ t, execKcUnpin g p value s = .next t ∧ Only [.guards, .ports] s t := by
  refine ⟨_, rfl, ?_⟩
  try dsimp only
  repeat' first
    | with_reducible exact Only.refl _ _
    | with_reducible assumption
    | exact (rfl : (_ : Bool) = true)
    | exact fun _ => rfl
    | intro _
    | split
    | with_reducible apply Only.via (Q := []) (done_only _)
    | with_reducible apply Only.via (Q := [.guards]) (pinEnd_only _ _ _)
    | with_reducible apply Only.writeAt
    | with_reducible apply Only.via (Q := [.guards]) (Only.modGuard _ _ _)

theorem execKcQuery_only (g : Fin 40) (p : Path) (value : BitVec 32) (s : State) : ∃ t, execKcQuery g p value s = .next t ∧ Only [.guards, .ports] s t := by
  refine ⟨_, rfl, ?_⟩
  try dsimp only
  repeat' first
    | with_reducible exact Only.refl _ _
    | with_reducible assumption
    | exact (rfl : (_ : Bool) = true)
    | exact fun _ => rfl
    | intro _
    | split
    | with_reducible apply Only.via (Q := []) (done_only _)
    | with_reducible apply Only.writeAt
    | with_reducible apply Only.via (Q := [.guards]) (Only.modGuard _ _ _)

theorem execGuardMissClear_only (g : Fin 40) (p : Path) (value : BitVec 32) (s : State) : ∃ t, execGuardMissClear g p value s = .next t ∧ Only [.guards, .ports] s t := by
  refine ⟨_, rfl, ?_⟩
  try dsimp only
  repeat' first
    | with_reducible exact Only.refl _ _
    | with_reducible assumption
    | exact (rfl : (_ : Bool) = true)
    | exact fun _ => rfl
    | intro _
    | split
    | with_reducible apply Only.via (Q := []) (done_only _)
    | with_reducible apply Only.writeAt
    | with_reducible apply Only.via (Q := [.guards]) (Only.modGuard _ _ _)

theorem guardDuplicate_only {g : Nat} {op : BitVec 32} {s t : State} (h : guardDuplicate g op s = some t) : Only [.guards, .dies] s t := by
  unfold guardDuplicate at h
  split at h
  · cases h
  · cases h
    split
    · exact Only.via (guardAck_only _ _ _ _) rfl (Only.refl _ _)
    · exact Only.refl _ _

theorem rotateAt_only (g domain : Nat) (newGen op : BitVec 32) (s : State) : Only [.guards, .dies] s (rotateAt g domain newGen op s) := by
  unfold rotateAt
  try dsimp only
  repeat' first
    | with_reducible exact Only.refl _ _
    | with_reducible assumption
    | exact (rfl : (_ : Bool) = true)
    | exact fun _ => rfl
    | intro _
    | split
    | with_reducible apply Only.via (Q := [.dies]) (guardAck_only _ _ _ _)
    | with_reducible refine Only.via (guardDuplicate_only (by assumption)) ?_ ?_
    | with_reducible apply Only.via (Q := [.guards, .dies]) (loadPins_only _ _)
    | with_reducible apply Only.via (Q := [.guards]) (Only.modGuard _ _ _)

theorem retireAt_only (g first last : Nat) (older : Bool) (op : BitVec 32) (s : State) : Only [.guards, .dies, .ingest, .mower, .fq, .tagWindow] s (retireAt g first last older op s) := by
  unfold retireAt
  try dsimp only
  repeat' first
    | with_reducible exact Only.refl _ _
    | with_reducible assumption
    | exact (rfl : (_ : Bool) = true)
    | exact fun _ => rfl
    | intro _
    | split
    | with_reducible apply Only.via (Q := [.guards, .mower]) (fail_only _ _ _ _)
    | with_reducible apply Only.via (Q := [.guards, .mower, .fq, .tagWindow]) (failTag_only _ _ _ _ _)
    | with_reducible apply Only.forEach
    | with_reducible refine Only.via (guardDuplicate_only (by assumption)) ?_ ?_
    | with_reducible apply Only.via (Q := [.ingest]) (ingestNoKey_only _ _ _ _ _)
    | with_reducible apply Only.onlyIf
    | with_reducible apply Only.via (Q := [.guards]) (Only.modGuard _ _ _)

theorem dropRetired_only (g : Nat) (s : State) : Only [.guards, .dies] s (dropRetired g s) := by
  unfold dropRetired
  try dsimp only
  repeat' first
    | with_reducible exact Only.refl _ _
    | with_reducible assumption
    | exact (rfl : (_ : Bool) = true)
    | exact fun _ => rfl
    | intro _
    | split
    | with_reducible apply Only.forEach
    | with_reducible apply Only.via (Q := [.dies]) (guardAck_only _ _ _ _)
    | with_reducible apply Only.via (Q := [.guards]) (Only.modGuard _ _ _)

end Sys2Proof.Machine
end

