-- ==== Sys2Proof/Laws/OnlyGuardPort.lean ====
section
/-!
SUPPORT. The parts of State that the operations of Machine/GuardPort.lean may change.
-/

namespace Sys2Proof.Machine
open Sys2Proof

theorem refuseHdr_only (g slice : Nat) (op : BitVec 3) (txn : BitVec 12) (status : Nat) (s : State) : Only [.guards] s (refuseHdr g slice op txn status s) := by
  unfold refuseHdr
  try dsimp only
  repeat' first
    | with_reducible exact Only.refl _ _
    | with_reducible assumption
    | exact (rfl : (_ : Bool) = true)
    | exact fun _ => rfl
    | intro _
    | split
    | with_reducible apply Only.via (Q := [.guards]) (Only.modGuard _ _ _)

theorem lookupBind_only (g d : Nat) (s : State) : Only [.guards, .dies, .ks, .mower, .fq] s (lookupBind g d s) := by
  unfold lookupBind
  try dsimp only
  repeat' first
    | with_reducible exact Only.refl _ _
    | with_reducible assumption
    | exact (rfl : (_ : Bool) = true)
    | exact fun _ => rfl
    | intro _
    | split
    | with_reducible apply Only.via (Q := [.guards, .dies, .ks, .mower, .fq]) (bindFailed_only _ _ _ _ _)

theorem acceptHdr_only (g slice : Nat) (op : ReqOp) (h : Hdr) (bound : Nat) (s : State) : Only [.guards, .dies, .head, .ks, .vault, .mower, .att, .tenantBox, .operBox, .fq, .mir] s (acceptHdr g slice op h bound s) := by
  unfold acceptHdr
  try dsimp only
  repeat' first
    | with_reducible exact Only.refl _ _
    | with_reducible assumption
    | exact (rfl : (_ : Bool) = true)
    | exact fun _ => rfl
    | intro _
    | split
    | with_reducible apply Only.via (Q := [.guards, .dies, .ks, .mower, .fq]) (decideKey_only _ _ _ _)
    | with_reducible apply Only.via (Q := [.guards, .dies, .ks, .mower, .fq]) (lookupBind_only _ _ _)
    | with_reducible apply Only.via (Q := [.guards]) (refuseHdr_only _ _ _ _ _ _)
    | with_reducible apply Only.via (Q := [.dies, .head, .ks, .vault, .mower, .att, .tenantBox, .operBox, .fq, .mir]) (settle_only _)
    | with_reducible apply Only.via (Q := [.guards]) (Only.modGuard _ _ _)

theorem checkHdr_only (g slice : Nat) (op : BitVec 3) (h : Hdr) (s : State) : Only [.guards, .dies, .head, .ks, .vault, .mower, .att, .tenantBox, .operBox, .fq, .mir] s (checkHdr g slice op h s) := by
  unfold checkHdr
  try dsimp only
  repeat' first
    | with_reducible exact Only.refl _ _
    | with_reducible assumption
    | exact (rfl : (_ : Bool) = true)
    | exact fun _ => rfl
    | intro _
    | split
    | with_reducible apply Only.via (Q := [.guards, .dies, .head, .ks, .vault, .mower, .att, .tenantBox, .operBox, .fq, .mir]) (acceptHdr_only _ _ _ _ _ _)
    | with_reducible apply Only.via (Q := [.fq]) (raise_only _ _ _ _ _ _ _)
    | with_reducible apply Only.via (Q := [.guards]) (refuseHdr_only _ _ _ _ _ _)

end Sys2Proof.Machine
end

