-- ==== Sys2Proof/Laws/OnlyRing.lean ====
section
/-!
SUPPORT. The parts of State that the operations of Machine/Ring.lean may change.
-/

namespace Sys2Proof.Machine
open Sys2Proof

theorem numbered_only (die : Nat) (m : RingMsg) (s : State) : Only [.guards, .dies, .head] s (numbered die m s) := by
  unfold numbered
  try dsimp only
  repeat' first
    | with_reducible exact Only.refl _ _
    | with_reducible assumption
    | exact (rfl : (_ : Bool) = true)
    | exact fun _ => rfl
    | intro _
    | split
    | with_reducible apply Only.via (Q := [.dies, .head]) (ringOn_only _ _ _)
    | with_reducible apply Only.via (Q := [.dies]) (Only.modDie _ _ _)
    | with_reducible apply Only.via (Q := [.guards]) (Only.modGuard _ _ _)

theorem fpAtPulse_only (s : State) : Only [.dies, .ks, .brup] s (fpAtPulse s) := by
  unfold fpAtPulse
  try dsimp only
  repeat' first
    | with_reducible exact Only.refl _ _
    | with_reducible assumption
    | exact (rfl : (_ : Bool) = true)
    | exact fun _ => rfl
    | intro _
    | split
    | with_reducible apply Only.onlyIf
    | with_reducible apply Only.via (Q := [.brup]) (Only.modBrup _ _)
    | with_reducible apply Only.via (Q := [.dies]) (Only.modDies _ _)
    | with_reducible apply Only.via (Q := [.ks]) (Only.modKs _ _)

theorem latchFp_only (die : Nat) (seq : BitVec 16) (s : State) : Only [.dies, .brup] s (latchFp die seq s) := by
  unfold latchFp
  try dsimp only
  repeat' first
    | with_reducible exact Only.refl _ _
    | with_reducible assumption
    | with_reducible apply Only.foldl
    | with_reducible apply Only.foldlPair
    | exact (rfl : (_ : Bool) = true)
    | exact fun _ => rfl
    | intro _
    | split
    | with_reducible apply Only.via (Q := [.brup]) (Only.modBrup _ _)
    | with_reducible apply Only.via (Q := [.dies]) (Only.modDie _ _ _)
    | dsimp only

theorem headDamage_only (exp : BitVec 16) (type src : Nat) (s : State) : Only [.fq] s (headDamage exp type src s) := by
  unfold headDamage
  try dsimp only
  repeat' first
    | with_reducible exact Only.refl _ _
    | with_reducible assumption
    | exact (rfl : (_ : Bool) = true)
    | exact fun _ => rfl
    | intro _
    | split
    | with_reducible apply Only.via (Q := [.fq]) (raise_only _ _ _ _ _ _ _)

theorem refuseHeld_only (g : Nat) (h : Hdr) (st : Nat) (s : State) : Only [.guards] s (refuseHeld g h st s) := by
  unfold refuseHeld
  try dsimp only
  repeat' first
    | with_reducible exact Only.refl _ _
    | with_reducible assumption
    | exact (rfl : (_ : Bool) = true)
    | exact fun _ => rfl
    | intro _
    | split
    | with_reducible apply Only.via (Q := [.guards]) (refuseHdr_only _ _ _ _ _ _)
    | with_reducible apply Only.via (Q := [.guards]) (Only.modGuard _ _ _)

theorem withdrawIn_only (die : Nat) (old : Die) (s : State) : Only [.guards, .mower] s (withdrawIn die old s).2 := by
  unfold withdrawIn
  try dsimp only
  repeat' first
    | with_reducible exact Only.refl _ _
    | with_reducible assumption
    | with_reducible apply Only.foldl
    | with_reducible apply Only.foldlPair
    | exact (rfl : (_ : Bool) = true)
    | exact fun _ => rfl
    | intro _
    | split
    | with_reducible apply Only.via (Q := [.guards, .mower]) (fail_only _ _ _ _)
    | with_reducible apply Only.via (Q := [.guards]) (refuseHeld_only _ _ _ _)
    | dsimp only

theorem applyUpdate_only (die : Nat) (op : BitVec 32) (reader : Bool) (f : Die → Die) (s : State) : Only [.guards, .dies, .mower] s (applyUpdate die op reader f s) := by
  unfold applyUpdate
  try dsimp only
  repeat' first
    | with_reducible exact Only.refl _ _
    | with_reducible assumption
    | exact (rfl : (_ : Bool) = true)
    | exact fun _ => rfl
    | intro _
    | split
    | with_reducible apply Only.via (Q := [.dies]) (stopSend_only _ _ _)
    | with_reducible apply Only.via (Q := [.guards, .mower]) (withdrawIn_only _ _ _)
    | with_reducible apply Only.via (Q := [.dies]) (Only.modDie _ _ _)
    | with_reducible refine Only.ofPair (by assumption) ?_
    | with_reducible refine Only.ofTriple (by assumption) ?_

theorem tablesTaken_only (die : Nat) (s : State) : Only [.guards, .dies] s (tablesTaken die s) := by
  unfold tablesTaken
  try dsimp only
  repeat' first
    | with_reducible exact Only.refl _ _
    | with_reducible assumption
    | exact (rfl : (_ : Bool) = true)
    | exact fun _ => rfl
    | intro _
    | split
    | with_reducible apply Only.onlyIf
    | with_reducible apply Only.via (Q := [.dies]) (Only.modDie _ _ _)
    | with_reducible apply Only.via (Q := [.guards]) (Only.modGuards _ _)

end Sys2Proof.Machine
end

