-- ==== Sys2Proof/Laws/OnlyQuotes.lean ====
section
/-!
SUPPORT. The parts of State that the operations of Machine/Quotes.lean may change.
-/

namespace Sys2Proof.Machine
open Sys2Proof

theorem modBatch_only (seq : BitVec 64) (f : QuoteBatch → QuoteBatch) (s : State) : Only [.att] s (modBatch seq f s) := by
  unfold modBatch
  try dsimp only
  repeat' first
    | with_reducible exact Only.refl _ _
    | with_reducible assumption
    | exact (rfl : (_ : Bool) = true)
    | exact fun _ => rfl
    | intro _
    | split
    | with_reducible apply Only.via (Q := [.att]) (Only.modAtt _ _)

theorem dropBatch_only (seq : BitVec 64) (s : State) : Only [.att] s (dropBatch seq s) := by
  unfold dropBatch
  try dsimp only
  repeat' first
    | with_reducible exact Only.refl _ _
    | with_reducible assumption
    | exact (rfl : (_ : Bool) = true)
    | exact fun _ => rfl
    | intro _
    | split
    | with_reducible apply Only.via (Q := [.att]) (Only.modAtt _ _)

theorem releaseQuotes_only (s : State) : Only [.att, .tenantBox, .operBox] s (releaseQuotes s) := by
  unfold releaseQuotes
  try dsimp only
  repeat' first
    | with_reducible exact Only.refl _ _
    | with_reducible assumption
    | exact (rfl : (_ : Bool) = true)
    | exact fun _ => rfl
    | intro _
    | split
    | with_reducible apply Only.via (Q := [.att]) (dropBatch_only _ _)
    | with_reducible apply Only.forEach
    | with_reducible apply Only.via (Q := [.att, .tenantBox, .operBox]) (reply_only _ _ _)

theorem quoteEnd_only (e : PkEnd) (s : State) : Only [.att, .tenantBox, .operBox] s (quoteEnd e s) := by
  unfold quoteEnd
  try dsimp only
  repeat' first
    | with_reducible exact Only.refl _ _
    | with_reducible assumption
    | exact (rfl : (_ : Bool) = true)
    | exact fun _ => rfl
    | intro _
    | split
    | with_reducible apply Only.via (Q := [.att]) (dropBatch_only _ _)
    | with_reducible apply Only.forEach
    | with_reducible apply Only.via (Q := [.att]) (modBatch_only _ _ _)
    | with_reducible apply Only.via (Q := [.att, .tenantBox, .operBox]) (refuse_only _ _ _)
    | with_reducible apply Only.via (Q := [.att, .tenantBox, .operBox]) (releaseQuotes_only _)

theorem quoteSubmit_only (k : Nat) (b : QuoteBatch) (s : State) : Only [.freeCtr, .pk, .att] s (quoteSubmit k b s) := by
  unfold quoteSubmit
  try dsimp only
  repeat' first
    | with_reducible exact Only.refl _ _
    | with_reducible assumption
    | exact (rfl : (_ : Bool) = true)
    | exact fun _ => rfl
    | intro _
    | split
    | with_reducible apply Only.via (Q := [.att]) (modBatch_only _ _ _)
    | with_reducible apply Only.via (Q := [.pk]) (modSlot_only _ _ _)
    | with_reducible apply Only.via (Q := [.freeCtr, .pk]) (pkSubmit_only _ _)

theorem quotePump_only (n : Nat) (s : State) : Only [.freeCtr, .pk, .att, .tenantBox, .operBox] s (quotePump n s) := by
  induction n generalizing s with
  | zero => exact Only.refl _ _
  | succ n ih =>
    unfold quotePump
    split
    · exact Only.refl _ _
    split
    · dsimp only
      split
      · exact Only.trans (Only.via (quoteEnd_only _ _) rfl (Only.via (quoteSubmit_only _ _ _) rfl (Only.refl _ _))) (ih _)
      · exact Only.via (quoteSubmit_only _ _ _) rfl (Only.refl _ _)
    · exact Only.refl _ _

theorem pumpQuotes_only (s : State) : Only [.freeCtr, .pk, .att, .tenantBox, .operBox] s (pumpQuotes s) := by
  unfold pumpQuotes
  try dsimp only
  repeat' first
    | with_reducible exact Only.refl _ _
    | with_reducible assumption
    | exact (rfl : (_ : Bool) = true)
    | exact fun _ => rfl
    | intro _
    | split
    | with_reducible apply Only.via (Q := [.freeCtr, .pk, .att, .tenantBox, .operBox]) (quotePump_only _ _)

theorem quoteSigned_only (e : PkEnd) (s : State) : Only [.freeCtr, .pk, .att, .tenantBox, .operBox] s (quoteSigned e s) := by
  unfold quoteSigned
  try dsimp only
  repeat' first
    | with_reducible exact Only.refl _ _
    | with_reducible assumption
    | exact (rfl : (_ : Bool) = true)
    | exact fun _ => rfl
    | intro _
    | split
    | with_reducible apply Only.via (Q := [.freeCtr, .pk, .att, .tenantBox, .operBox]) (pumpQuotes_only _)
    | with_reducible apply Only.via (Q := [.att, .tenantBox, .operBox]) (quoteEnd_only _ _)

theorem closeBatch_only (s : State) : Only [.freeCtr, .pk, .att, .tenantBox, .operBox, .mir] s (closeBatch s) := by
  unfold closeBatch
  try dsimp only
  repeat' first
    | with_reducible exact Only.refl _ _
    | with_reducible assumption
    | exact (rfl : (_ : Bool) = true)
    | exact fun _ => rfl
    | intro _
    | split
    | with_reducible apply Only.via (Q := [.mir]) (mirSend_only _ _)
    | with_reducible apply Only.onlyIf
    | with_reducible apply Only.via (Q := [.freeCtr, .pk, .att, .tenantBox, .operBox]) (pumpQuotes_only _)
    | with_reducible apply Only.via (Q := [.att]) (Only.modAtt _ _)

theorem joinBatch_only (q : QuoteReq) (s : State) : Only [.freeCtr, .pk, .att, .tenantBox, .operBox, .mir] s (joinBatch q s) := by
  unfold joinBatch
  try dsimp only
  repeat' first
    | with_reducible exact Only.refl _ _
    | with_reducible assumption
    | exact (rfl : (_ : Bool) = true)
    | exact fun _ => rfl
    | intro _
    | split
    | with_reducible apply Only.via (Q := [.freeCtr, .pk, .att, .tenantBox, .operBox, .mir]) (closeBatch_only _)
    | with_reducible apply Only.onlyIf
    | with_reducible apply Only.via (Q := [.att]) (Only.modAtt _ _)

theorem decideQuote_only (w : Waiter) (body : Bytes) (s : State) : Only [.freeCtr, .pk, .att, .tenantBox, .operBox, .mir] s (decideQuote w body s) := by
  unfold decideQuote
  try dsimp only
  repeat' first
    | with_reducible exact Only.refl _ _
    | with_reducible assumption
    | exact (rfl : (_ : Bool) = true)
    | exact fun _ => rfl
    | intro _
    | split
    | with_reducible apply Only.via (Q := [.freeCtr, .pk, .att, .tenantBox, .operBox, .mir]) (joinBatch_only _ _)
    | with_reducible apply Only.via (Q := [.att, .tenantBox, .operBox]) (refuse_only _ _ _)

end Sys2Proof.Machine
end

