-- ==== Sys2Proof/Laws/OnlyPkJobs.lean ====
section
/-!
SUPPORT. The parts of State that the operations of Machine/PkJobs.lean may change.
-/

namespace Sys2Proof.Machine
open Sys2Proof

theorem pkForeign_only (s : State) : Only [.pk] s (pkForeign s) := by
  unfold pkForeign
  try dsimp only
  repeat' first
    | with_reducible exact Only.refl _ _
    | with_reducible assumption
    | exact (rfl : (_ : Bool) = true)
    | exact fun _ => rfl
    | intro _
    | split
    | with_reducible apply Only.via (Q := [.pk]) (Only.modPk _ _)

theorem noteWiped_only (slot : Nat) (s : State) : Only [.pk] s (noteWiped slot s) := by
  unfold noteWiped
  try dsimp only
  repeat' first
    | with_reducible exact Only.refl _ _
    | with_reducible assumption
    | exact (rfl : (_ : Bool) = true)
    | exact fun _ => rfl
    | intro _
    | split
    | with_reducible apply Only.via (Q := [.pk]) (modSlot_only _ _ _)

theorem wipeArea_only (long b : Bool) (s : State) : Only [.pk] s (wipeArea long b s) := by
  unfold wipeArea
  try dsimp only
  repeat' first
    | with_reducible exact Only.refl _ _
    | with_reducible assumption
    | exact (rfl : (_ : Bool) = true)
    | exact fun _ => rfl
    | intro _
    | split
    | with_reducible apply Only.via (Q := [.pk]) (modCell_only _ _ _ _)
    | with_reducible apply Only.via (Q := [.pk]) (noteWiped_only _ _)

theorem wipeJob_only (long : Bool) (j : PkJob) (s : State) : Only [.pk] s (wipeJob long j s) := by
  unfold wipeJob
  try dsimp only
  repeat' first
    | with_reducible exact Only.refl _ _
    | with_reducible assumption
    | exact (rfl : (_ : Bool) = true)
    | exact fun _ => rfl
    | intro _
    | split
    | with_reducible apply Only.forEach
    | with_reducible apply Only.via (Q := [.pk]) (wipeArea_only _ _ _)

theorem dropKeys_only (long : Bool) (j : PkJob) (s : State) : Only [.pk] s (dropKeys long j s) := by
  unfold dropKeys
  try dsimp only
  repeat' first
    | with_reducible exact Only.refl _ _
    | with_reducible assumption
    | exact (rfl : (_ : Bool) = true)
    | exact fun _ => rfl
    | intro _
    | split
    | with_reducible apply Only.forEach
    | with_reducible apply Only.via (Q := [.pk]) (modCell_only _ _ _ _)

theorem setArea_only (long : Bool) (j : Option PkJob) (s : State) : Only [.pk] s (setArea long j s) := by
  unfold setArea
  try dsimp only
  repeat' first
    | with_reducible exact Only.refl _ _
    | with_reducible assumption
    | exact (rfl : (_ : Bool) = true)
    | exact fun _ => rfl
    | intro _
    | split
    | with_reducible apply Only.via (Q := [.pk]) (Only.modPk _ _)

theorem loadJob_only (key : Bytes) (j : PkJob) (s : State) : Only [.freeCtr, .ent] s (loadJob key j s).2 := by
  unfold loadJob
  try dsimp only
  repeat' first
    | with_reducible exact Only.refl _ _
    | with_reducible assumption
    | exact (rfl : (_ : Bool) = true)
    | exact fun _ => rfl
    | intro _
    | split
    | with_reducible apply Only.via (Q := [.freeCtr, .ent]) (pkDraw_only _ _ _ _)
    | with_reducible refine Only.ofPair (by assumption) ?_
    | with_reducible refine Only.ofTriple (by assumption) ?_

theorem emptyEntry_only (j : PkJob) (s : State) : Only [.pk] s (emptyEntry j s) := by
  unfold emptyEntry
  try dsimp only
  repeat' first
    | with_reducible exact Only.refl _ _
    | with_reducible assumption
    | exact (rfl : (_ : Bool) = true)
    | exact fun _ => rfl
    | intro _
    | split
    | with_reducible apply Only.onlyIf
    | with_reducible apply Only.via (Q := [.pk]) (Only.modPk _ _)

theorem placeJob_only (long : Bool) (j : PkJob) (s : State) : Only [.freeCtr, .pk, .ent] s (placeJob long j s) := by
  unfold placeJob
  try dsimp only
  repeat' first
    | with_reducible exact Only.refl _ _
    | with_reducible assumption
    | exact (rfl : (_ : Bool) = true)
    | exact fun _ => rfl
    | intro _
    | split
    | with_reducible apply Only.via (Q := [.pk]) (emptyEntry_only _ _)
    | with_reducible apply Only.forEach
    | with_reducible apply Only.via (Q := [.freeCtr, .ent]) (loadJob_only _ _ _)
    | with_reducible apply Only.via (Q := [.pk]) (modCell_only _ _ _ _)
    | with_reducible apply Only.via (Q := [.pk]) (modSlot_only _ _ _)
    | with_reducible apply Only.onlyIf
    | with_reducible apply Only.via (Q := [.pk]) (setArea_only _ _ _)
    | with_reducible apply Only.via (Q := [.pk]) (wipeArea_only _ _ _)
    | with_reducible refine Only.ofPair (by assumption) ?_
    | with_reducible refine Only.ofTriple (by assumption) ?_

theorem switchIn_only (s : State) : Only [.freeCtr, .pk, .ent] s (switchIn s) := by
  unfold switchIn
  try dsimp only
  repeat' first
    | with_reducible exact Only.refl _ _
    | with_reducible assumption
    | exact (rfl : (_ : Bool) = true)
    | exact fun _ => rfl
    | intro _
    | split
    | with_reducible apply Only.via (Q := [.freeCtr, .pk, .ent]) (placeJob_only _ _ _)
    | with_reducible apply Only.via (Q := [.pk]) (setArea_only _ _ _)

theorem pkLeave_only (j : PkJob) (e : PkEnd) (boundary : Bool) (s : State) : Only [.freeCtr, .vault, .slots, .pk, .att, .tenantBox, .operBox] s (pkLeave j e boundary s) := by
  unfold pkLeave
  try dsimp only
  repeat' first
    | with_reducible exact Only.refl _ _
    | with_reducible assumption
    | exact (rfl : (_ : Bool) = true)
    | exact fun _ => rfl
    | intro _
    | split
    | with_reducible apply Only.via (Q := [.freeCtr, .pk, .att, .tenantBox, .operBox]) (pumpQuotes_only _)
    | with_reducible apply Only.via (Q := [.freeCtr, .pk, .att, .tenantBox, .operBox]) (quoteSigned_only _ _)
    | with_reducible apply Only.via (Q := [.freeCtr, .pk]) (slotEnd_only _ _ _ _)
    | with_reducible apply Only.via (Q := [.vault, .slots, .pk]) (vaultJobEnd_only _ _ _)

theorem pkEnd_only (long : Bool) (e : PkEnd) (boundary : Bool) (s : State) : Only [.freeCtr, .vault, .slots, .pk, .ent, .att, .tenantBox, .operBox] s (pkEnd long e boundary s) := by
  unfold pkEnd
  try dsimp only
  repeat' first
    | with_reducible exact Only.refl _ _
    | with_reducible assumption
    | exact (rfl : (_ : Bool) = true)
    | exact fun _ => rfl
    | intro _
    | split
    | with_reducible apply Only.via (Q := [.pk]) (dropKeys_only _ _ _)
    | with_reducible apply Only.via (Q := [.freeCtr, .vault, .slots, .pk, .att, .tenantBox, .operBox]) (pkLeave_only _ _ _ _)
    | with_reducible apply Only.via (Q := [.pk]) (setArea_only _ _ _)
    | with_reducible apply Only.via (Q := [.freeCtr, .pk, .ent]) (switchIn_only _)

theorem pkDownAll_only (s : State) : Only [.freeCtr, .vault, .slots, .pk, .att, .tenantBox, .operBox] s (pkDownAll s) := by
  unfold pkDownAll
  try dsimp only
  repeat' first
    | with_reducible exact Only.refl _ _
    | with_reducible assumption
    | exact (rfl : (_ : Bool) = true)
    | exact fun _ => rfl
    | intro _
    | split
    | with_reducible apply Only.forEach
    | with_reducible apply Only.via (Q := [.freeCtr, .vault, .slots, .pk, .att, .tenantBox, .operBox]) (pkLeave_only _ _ _ _)
    | with_reducible apply Only.via (Q := [.pk]) (Only.modPk _ _)

theorem pkAbortSlot_only (slot : Nat) (s : State) : Only [.freeCtr, .vault, .slots, .pk, .ent, .att, .tenantBox, .operBox] s (pkAbortSlot slot s) := by
  unfold pkAbortSlot
  try dsimp only
  repeat' first
    | with_reducible exact Only.refl _ _
    | with_reducible assumption
    | exact (rfl : (_ : Bool) = true)
    | exact fun _ => rfl
    | intro _
    | split
    | with_reducible apply Only.via (Q := [.freeCtr, .vault, .slots, .pk, .att, .tenantBox, .operBox]) (pkLeave_only _ _ _ _)
    | with_reducible apply Only.via (Q := [.freeCtr, .pk, .ent]) (switchIn_only _)
    | with_reducible apply Only.via (Q := [.pk]) (Only.modPk _ _)

theorem pkScrubSlot_only (slot : Nat) (s : State) : Only [.pk] s (pkScrubSlot slot s) := by
  unfold pkScrubSlot
  try dsimp only
  repeat' first
    | with_reducible exact Only.refl _ _
    | with_reducible assumption
    | exact (rfl : (_ : Bool) = true)
    | exact fun _ => rfl
    | intro _
    | split
    | with_reducible apply Only.forEach
    | with_reducible apply Only.via (Q := [.pk]) (noteWiped_only _ _)
    | with_reducible apply Only.onlyIf
    | with_reducible apply Only.via (Q := [.pk]) (wipeArea_only _ _ _)

theorem pkCtlWrite_only (slot : Nat) (value : BitVec 32) (s : State) : Only [.freeCtr, .vault, .slots, .pk, .ent, .att, .tenantBox, .operBox] s (pkCtlWrite slot value s) := by
  unfold pkCtlWrite
  try dsimp only
  repeat' first
    | with_reducible exact Only.refl _ _
    | with_reducible assumption
    | exact (rfl : (_ : Bool) = true)
    | exact fun _ => rfl
    | intro _
    | split
    | with_reducible apply Only.onlyIf
    | with_reducible apply Only.via (Q := [.freeCtr, .vault, .slots, .pk, .ent, .att, .tenantBox, .operBox]) (pkAbortSlot_only _ _)
    | with_reducible apply Only.via (Q := [.pk]) (pkScrubSlot_only _ _)

theorem pkCoreReset_only (core : Nat) (s : State) : Only [.freeCtr, .vault, .slots, .pk, .ent, .att, .tenantBox, .operBox] s (pkCoreReset core s) := by
  unfold pkCoreReset
  try dsimp only
  repeat' first
    | with_reducible exact Only.refl _ _
    | with_reducible assumption
    | exact (rfl : (_ : Bool) = true)
    | exact fun _ => rfl
    | intro _
    | split
    | with_reducible apply Only.forEach
    | with_reducible apply Only.via (Q := [.pk]) (modSlot_only _ _ _)
    | with_reducible apply Only.via (Q := [.freeCtr, .vault, .slots, .pk, .ent, .att, .tenantBox, .operBox]) (pkAbortSlot_only _ _)

theorem pkLost_only (b long : Bool) (s : State) : Only [.freeCtr, .vault, .slots, .pk, .ent, .att, .tenantBox, .operBox] s (pkLost b long s) := by
  unfold pkLost
  try dsimp only
  repeat' first
    | with_reducible exact Only.refl _ _
    | with_reducible assumption
    | exact (rfl : (_ : Bool) = true)
    | exact fun _ => rfl
    | intro _
    | split
    | with_reducible apply Only.via (Q := [.pk]) (modSlot_only _ _ _)
    | with_reducible apply Only.via (Q := [.freeCtr, .vault, .slots, .pk, .ent, .att, .tenantBox, .operBox]) (pkEnd_only _ _ _ _)
    | with_reducible apply Only.via (Q := [.freeCtr, .pk, .ent]) (placeJob_only _ _ _)
    | with_reducible apply Only.via (Q := [.pk]) (setArea_only _ _ _)
    | with_reducible apply Only.via (Q := [.pk]) (wipeJob_only _ _ _)
    | with_reducible apply Only.via (Q := [.pk]) (Only.modPk _ _)

theorem pkOut_only (b : Bool) (why : Nat) (s : State) : Only [.freeCtr, .vault, .slots, .pk, .ent, .att, .tenantBox, .operBox, .fq] s (pkOut b why s) := by
  unfold pkOut
  try dsimp only
  repeat' first
    | with_reducible exact Only.refl _ _
    | with_reducible assumption
    | exact (rfl : (_ : Bool) = true)
    | exact fun _ => rfl
    | intro _
    | split
    | with_reducible apply Only.via (Q := [.freeCtr, .vault, .slots, .pk, .att, .tenantBox, .operBox]) (pkDownAll_only _)
    | with_reducible apply Only.via (Q := [.freeCtr, .vault, .slots, .pk, .ent, .att, .tenantBox, .operBox]) (pkLost_only _ _ _)
    | with_reducible apply Only.via (Q := [.fq]) (raise_only _ _ _ _ _ _ _)
    | with_reducible apply Only.via (Q := [.pk]) (Only.modPk _ _)

theorem pkCtlRegWrite_only (value : BitVec 32) (s : State) : Only [.pk] s (pkCtlRegWrite value s) := by
  unfold pkCtlRegWrite
  try dsimp only
  repeat' first
    | with_reducible exact Only.refl _ _
    | with_reducible assumption
    | exact (rfl : (_ : Bool) = true)
    | exact fun _ => rfl
    | intro _
    | split
    | with_reducible apply Only.via (Q := [.pk]) (Only.modPk _ _)

theorem pkFinding_only (b : Bool) (s : State) : Only [.brup] s (pkFinding b s) := by
  unfold pkFinding
  try dsimp only
  repeat' first
    | with_reducible exact Only.refl _ _
    | with_reducible assumption
    | exact (rfl : (_ : Bool) = true)
    | exact fun _ => rfl
    | intro _
    | split
    | with_reducible apply Only.via (Q := [.brup]) (queueFinding_only _ _)

end Sys2Proof.Machine
end

