-- ==== Sys2Proof/Laws/OnlyBootKeys.lean ====
section
/-!
SUPPORT. The parts of State that the operations of Machine/BootKeys.lean may change.
-/

namespace Sys2Proof.Machine
open Sys2Proof

theorem pkNow_only (op param : Nat) (anchor : Option Nat) (window : Bytes) (s : State) : Only [.freeCtr, .pk, .ent] s (pkNow op param anchor window s).2 := by
  unfold pkNow
  try dsimp only
  repeat' first
    | with_reducible exact Only.refl _ _
    | with_reducible assumption
    | exact (rfl : (_ : Bool) = true)
    | exact fun _ => rfl
    | intro _
    | split
    | with_reducible apply Only.via (Q := [.freeCtr, .ent]) (loadJob_only _ _ _)
    | with_reducible apply Only.via (Q := [.pk]) (Only.modPk _ _)
    | with_reducible refine Only.ofPair (by assumption) ?_
    | with_reducible refine Only.ofTriple (by assumption) ?_

theorem stmtNow_only (slot : Nat) (keyId : Bytes) (s : State) : Only [.freeCtr, .vault, .pk, .ent] s (stmtNow slot keyId s).2 := by
  unfold stmtNow
  try dsimp only
  repeat' first
    | with_reducible exact Only.refl _ _
    | with_reducible assumption
    | exact (rfl : (_ : Bool) = true)
    | exact fun _ => rfl
    | intro _
    | split
    | with_reducible apply Only.via (Q := [.freeCtr, .pk, .ent]) (pkNow_only _ _ _ _ _)
    | with_reducible apply Only.viaVault
    | (intro v; dsimp only; split <;> rfl)
    | with_reducible refine Only.ofPair (by assumption) ?_
    | with_reducible refine Only.ofTriple (by assumption) ?_

theorem kexPair_only (slot param : Nat) (attr : BitVec 32) (s : State) : Only [.freeCtr, .vault, .slots, .pk, .ent] s (kexPair slot param attr s).2 := by
  unfold kexPair
  try dsimp only
  repeat' first
    | with_reducible exact Only.refl _ _
    | with_reducible assumption
    | exact (rfl : (_ : Bool) = true)
    | exact fun _ => rfl
    | intro _
    | split
    | with_reducible apply Only.via (Q := [.vault, .slots]) (fillSlot_only _ _ _ _)
    | with_reducible apply Only.via (Q := [.freeCtr, .pk, .ent]) (pkNow_only _ _ _ _ _)
    | with_reducible apply Only.via (Q := [.freeCtr, .vault, .pk, .ent]) (stmtNow_only _ _ _)
    | with_reducible refine Only.ofPair (by assumption) ?_
    | with_reducible refine Only.ofTriple (by assumption) ?_

theorem kexSetup_only (s : State) : Only [.freeCtr, .vault, .slots, .pk, .dig, .ent, .att, .dma] s (kexSetup s) := by
  unfold kexSetup
  try dsimp only
  repeat' first
    | with_reducible exact Only.refl _ _
    | with_reducible assumption
    | exact (rfl : (_ : Bool) = true)
    | exact fun _ => rfl
    | intro _
    | split
    | with_reducible apply Only.via (Q := [.freeCtr, .vault, .slots, .dig, .dma]) (clearSlot_only _ _)
    | with_reducible apply Only.via (Q := [.freeCtr, .vault, .slots, .pk, .ent]) (kexPair_only _ _ _ _)
    | with_reducible apply Only.via (Q := [.att]) (Only.modAtt _ _)
    | with_reducible refine Only.ofPair (by assumption) ?_
    | with_reducible refine Only.ofTriple (by assumption) ?_

end Sys2Proof.Machine
end

