-- ==== Sys2Proof/Laws/OnlySweeps.lean ====
section
/-!
SUPPORT. The parts of State that the operations of Machine/Sweeps.lean may change.
-/

namespace Sys2Proof.Machine
open Sys2Proof

theorem driveBeat_only (g : Nat) (write : Bool) (a : Nat) (data : BitVec 512) (side : BitVec 64) (s : State) : Only [.freeCtr, .guards] s (driveBeat g write a data side s) := by
  unfold driveBeat
  try dsimp only
  repeat' first
    | with_reducible exact Only.refl _ _
    | with_reducible assumption
    | exact (rfl : (_ : Bool) = true)
    | exact fun _ => rfl
    | intro _
    | split
    | with_reducible apply Only.via (Q := [.freeCtr]) (state_used_only _)
    | with_reducible apply Only.via (Q := [.guards]) (Only.modGuard _ _ _)

theorem rekeyVisited_only (g : Nat) (failed : Bool) (s : State) : Only [.guards, .dies] s (rekeyVisited g failed s) := by
  unfold rekeyVisited
  try dsimp only
  repeat' first
    | with_reducible exact Only.refl _ _
    | with_reducible assumption
    | exact (rfl : (_ : Bool) = true)
    | exact fun _ => rfl
    | intro _
    | split
    | with_reducible apply Only.via (Q := [.dies]) (guardSend_only _ _ _)
    | with_reducible apply Only.onlyIf
    | with_reducible apply Only.via (Q := [.guards]) (Only.modGuard _ _ _)

end Sys2Proof.Machine
end

