-- ==== Sys2Proof/Laws/OnlyKeyService.lean ====
section
/-!
SUPPORT. The parts of State that the operations of Machine/KeyService.lean may change.
-/

namespace Sys2Proof.Machine
open Sys2Proof

theorem headGap_only (m : RingMsg) (s : State) : Only [.fq] s (headGap m s) := by
  unfold headGap
  try dsimp only
  repeat' first
    | with_reducible exact Only.refl _ _
    | with_reducible assumption
    | exact (rfl : (_ : Bool) = true)
    | exact fun _ => rfl
    | intro _
    | split
    | with_reducible apply Only.via (Q := [.fq]) (headDamage_only _ _ _ _)
    | with_reducible apply Only.onlyIf

theorem Only.headReceive {ps : List Part} {b s : State} {k : RingMsg → Option (State → State)} (h : Only ps b s)
    (hp : ([.dies, .head, .fq, .sby] : List Part).all (fun p => ps.contains p) = true)
    (hk : ∀ m u, Only ps b u → Only ps b (((k m).getD id) u)) : Only ps b (headReceive k s) := by
  have hf : Only ps b (ringFlow (ringOrder s) s) := Only.via (ringFlow_only _ _) (Only.sub rfl hp) h
  unfold Machine.headReceive
  dsimp only
  split
  · exact hf
  split
  · exact Only.via (Only.modHead _ _) (Only.sub rfl hp) hf
  split
  · exact hf
  · rename_i m ms _ _ _ f hm
    have hq := hk m
    rw [hm] at hq
    exact hq _ (Only.via (Only.modHead _ _) (Only.sub rfl hp) (Only.via (headGap_only _ _) (Only.sub rfl hp) hf))

theorem markLost_only (d : Nat) (gen : BitVec 32) (ecc : Bool) (s : State) : Only [.dies, .head, .ks, .att, .tenantBox, .operBox, .fq, .mir] s (markLost d gen ecc s) := by
  unfold markLost
  try dsimp only
  repeat' first
    | with_reducible exact Only.refl _ _
    | with_reducible assumption
    | exact (rfl : (_ : Bool) = true)
    | exact fun _ => rfl
    | intro _
    | split
    | with_reducible apply Only.via (Q := [.dies, .head, .ks, .att, .tenantBox, .operBox, .fq, .mir]) (commitDom_only _ _ _ _)
    | with_reducible apply Only.via (Q := [.ks, .att, .fq]) (loseGen_only _ _ _)
    | with_reducible apply Only.via (Q := [.ks]) (modDom_only _ _ _)
    | with_reducible apply Only.onlyIf

theorem modOp_only (id : BitVec 32) (sync : Bool) (f : Broadcast → Broadcast) (s : State) : Only [.ks] s (modOp id sync f s) := by
  unfold modOp
  try dsimp only
  repeat' first
    | with_reducible exact Only.refl _ _
    | with_reducible assumption
    | exact (rfl : (_ : Bool) = true)
    | exact fun _ => rfl
    | intro _
    | split
    | with_reducible apply Only.via (Q := [.ks]) (Only.modKs _ _)
    | dsimp only [id]

theorem stopTimeout_only (withdraw : Bool) (op : BitVec 32) (type die : Nat) (s : State) : Only [.guards, .dies, .ks, .mower, .fq] s (stopTimeout withdraw op type die s) := by
  unfold stopTimeout
  try dsimp only
  repeat' first
    | with_reducible exact Only.refl _ _
    | with_reducible assumption
    | exact (rfl : (_ : Bool) = true)
    | exact fun _ => rfl
    | intro _
    | split
    | with_reducible apply Only.via (Q := [.guards, .dies, .ks, .mower]) (fenceAll_only _ _ _)
    | with_reducible apply Only.via (Q := [.fq]) (raise_only _ _ _ _ _ _ _)

end Sys2Proof.Machine
end

