-- ==== Sys2Proof/Laws/OnlyCustody.lean ====
section
/-!
SUPPORT. The parts of State that the operations of Machine/Custody.lean may change.
-/

namespace Sys2Proof.Machine
open Sys2Proof

theorem Only.inOrder {ps : List Part} {b s : State} {w : Waiter} {body : Bytes} {k : State → State} (h : Only ps b s)
    (hp : ([.ks] : List Part).all (fun p => ps.contains p) = true) (hk : ∀ u, Only ps b u → Only ps b (k u)) :
    Only ps b (inOrder w body k s) := by
  unfold Machine.inOrder
  dsimp only
  split
  · exact Only.via (Only.modKs _ _) hp h
  · exact hk _ h

theorem readRegions_only (p : RPurpose) (domain addr count : Nat) (s : State) : Only [.freeCtr, .ks, .dma] s (readRegions p domain addr count s) := by
  unfold readRegions
  try dsimp only
  repeat' first
    | with_reducible exact Only.refl _ _
    | with_reducible assumption
    | exact (rfl : (_ : Bool) = true)
    | exact fun _ => rfl
    | intro _
    | split
    | with_reducible apply Only.via (Q := [.freeCtr, .dma]) (dmaRead_only _ _ _ _)
    | with_reducible apply Only.via (Q := [.ks]) (modDom_only _ _ _)
    | with_reducible apply Only.via (Q := [.ks]) (Only.modKs _ _)
    | with_reducible refine Only.ofPair (by assumption) ?_
    | with_reducible refine Only.ofTriple (by assumption) ?_

theorem ingestOver_only (j : IngestJob) (outcome : BitVec 8) (root : Bytes) (s : State) : Only [.vault, .ingest, .mower, .att] s (ingestOver j outcome root s) := by
  unfold ingestOver
  try dsimp only
  repeat' first
    | with_reducible exact Only.refl _ _
    | with_reducible assumption
    | exact (rfl : (_ : Bool) = true)
    | exact fun _ => rfl
    | intro _
    | split
    | with_reducible apply Only.via (Q := [.att]) (pushEvent_only _ _ _)
    | with_reducible apply Only.via (Q := [.mower]) (setResult_only _ _)
    | with_reducible apply Only.via (Q := [.vault]) (wipeBundle_only _ _)
    | with_reducible apply Only.via (Q := [.ingest]) (Only.modIngest _ _)
    | dsimp only [id]

theorem beginTeardown_only (d : Nat) (rs : List Region) (addr count : Nat) (replies : List (Waiter × BitVec 8)) (s : State) : Only [.dies, .head, .ks, .vault, .ingest, .mower, .att, .tenantBox, .operBox, .fq, .mir] s (beginTeardown d rs addr count replies s) := by
  unfold beginTeardown
  try dsimp only
  repeat' first
    | with_reducible exact Only.refl _ _
    | with_reducible assumption
    | exact (rfl : (_ : Bool) = true)
    | exact fun _ => rfl
    | intro _
    | split
    | with_reducible apply Only.via (Q := [.mower, .att, .fq]) (abortJobs_only _ _)
    | with_reducible apply Only.via (Q := [.ks, .att, .fq]) (checkStore_only _ _)
    | with_reducible apply Only.via (Q := [.dies, .head, .ks, .vault, .mower, .att, .tenantBox, .operBox, .mir]) (closeCreated_only _ _)
    | with_reducible apply Only.via (Q := [.dies, .head, .ks, .att, .tenantBox, .operBox, .mir]) (commit_only _ _ _ _)
    | with_reducible apply Only.via (Q := [.mower]) (dropKept_only _ _)
    | with_reducible apply Only.via (Q := [.dies, .head]) (headAll_only _ _)
    | with_reducible apply Only.via (Q := [.ks]) (modDom_only _ _ _)
    | with_reducible apply Only.via (Q := [.ks]) (modModel_only _ _ _)
    | with_reducible apply Only.onlyIf
    | with_reducible apply Only.via (Q := [.vault]) (wipeBundle_only _ _)
    | with_reducible apply Only.via (Q := [.ingest]) (Only.modIngest _ _)
    | with_reducible apply Only.via (Q := [.ks]) (Only.modKs _ _)

theorem endIngest_only (j : IngestJob) (outcome : BitVec 8) (s : State) : Only [.dies, .head, .ks, .vault, .ingest, .mower, .att, .tenantBox, .operBox, .fq, .mir] s (endIngest j outcome s) := by
  unfold endIngest
  try dsimp only
  repeat' first
    | with_reducible exact Only.refl _ _
    | with_reducible assumption
    | exact (rfl : (_ : Bool) = true)
    | exact fun _ => rfl
    | intro _
    | split
    | with_reducible apply Only.via (Q := [.dies, .head, .ks, .vault, .ingest, .mower, .att, .tenantBox, .operBox, .fq, .mir]) (beginTeardown_only _ _ _ _ _ _)
    | with_reducible apply Only.via (Q := [.vault, .ingest, .mower, .att]) (ingestOver_only _ _ _ _)

theorem tearDown_only (d : Nat) (rs : List Region) (addr count : Nat) (replies : List (Waiter × BitVec 8)) (s : State) : Only [.dies, .head, .ks, .vault, .ingest, .mower, .att, .tenantBox, .operBox, .fq, .mir] s (tearDown d rs addr count replies s) := by
  unfold tearDown
  try dsimp only
  repeat' first
    | with_reducible exact Only.refl _ _
    | with_reducible assumption
    | exact (rfl : (_ : Bool) = true)
    | exact fun _ => rfl
    | intro _
    | split
    | with_reducible apply Only.via (Q := [.dies, .head, .ks, .vault, .ingest, .mower, .att, .tenantBox, .operBox, .fq, .mir]) (beginTeardown_only _ _ _ _ _ _)
    | with_reducible apply Only.via (Q := [.dies, .head, .ks, .vault, .ingest, .mower, .att, .tenantBox, .operBox, .fq, .mir]) (endIngest_only _ _ _)
    | with_reducible apply Only.via (Q := [.vault, .ingest, .mower, .att]) (ingestOver_only _ _ _ _)

end Sys2Proof.Machine
end

