-- ==== Sys2Proof/Laws/OnlyDigest.lean ====
section
/-!
SUPPORT. The parts of State that the operations of Machine/Digest.lean may change.
-/

namespace Sys2Proof.Machine
open Sys2Proof

theorem modRegion_only (k : Nat) (f : DigCore → DigCore) (s : State) : Only [.dig] s (modRegion k f s) := by
  unfold modRegion
  try dsimp only
  repeat' first
    | with_reducible exact Only.refl _ _
    | with_reducible assumption
    | exact (rfl : (_ : Bool) = true)
    | exact fun _ => rfl
    | intro _
    | split
    | with_reducible apply Only.via (Q := [.dig]) (Only.modDig _ _)

theorem Only.ctxWrite {ps : List Part} {b s : State} {c off : Nat} {claim : Bool} {p : Path} {k : State → State} (h : Only ps b s)
    (hp : ([.dig, .ports] : List Part).all (fun p => ps.contains p) = true) (hk : ∀ u, Only ps b u → Only ps b (k u)) :
    Only ps b (ctxWrite c off claim p k s) :=
  Only.writeOwned h (Only.sub rfl hp) (fun u hu => Only.via (digForeign_only u) (Only.sub rfl hp) hu) hk

theorem ctxExported_only (c k : Nat) (iv : Option Bytes) (s : State) : Only [.freeCtr, .dig, .dma] s (ctxExported c k iv s) := by
  unfold ctxExported
  try dsimp only
  repeat' first
    | with_reducible exact Only.refl _ _
    | with_reducible assumption
    | exact (rfl : (_ : Bool) = true)
    | exact fun _ => rfl
    | intro _
    | split
    | with_reducible apply Only.via (Q := [.freeCtr, .dig, .dma]) (ctxFree_only _ _)
    | with_reducible apply Only.via (Q := [.dig]) (modCtx_only _ _ _)
    | with_reducible apply Only.via (Q := [.dig]) (modRegion_only _ _ _)

theorem ctxExport_only (c k : Nat) (s : State) : Only [.freeCtr, .dig, .ent, .dma] s (ctxExport c k s) := by
  unfold ctxExport
  try dsimp only
  repeat' first
    | with_reducible exact Only.refl _ _
    | with_reducible assumption
    | exact (rfl : (_ : Bool) = true)
    | exact fun _ => rfl
    | intro _
    | split
    | with_reducible apply Only.via (Q := [.freeCtr, .dig, .dma]) (ctxExported_only _ _ _ _)
    | with_reducible apply Only.via (Q := [.ent]) (drawBytes_only _ _)
    | with_reducible apply Only.via (Q := [.ent]) (Only.modEnt _ _)
    | with_reducible refine Only.ofPair (by assumption) ?_
    | with_reducible refine Only.ofTriple (by assumption) ?_

theorem ctxImport_only (c k : Nat) (s : State) : Only [.dig] s (ctxImport c k s) := by
  unfold ctxImport
  try dsimp only
  repeat' first
    | with_reducible exact Only.refl _ _
    | with_reducible assumption
    | exact (rfl : (_ : Bool) = true)
    | exact fun _ => rfl
    | intro _
    | split
    | with_reducible apply Only.via (Q := [.dig]) (modCtx_only _ _ _)
    | with_reducible apply Only.via (Q := [.dig]) (modRegion_only _ _ _)

theorem ctxRun_only (c k op : Nat) (s : State) : Only [.freeCtr, .dig, .ent, .dma] s (ctxRun c k op s) := by
  unfold ctxRun
  try dsimp only
  repeat' first
    | with_reducible exact Only.refl _ _
    | with_reducible assumption
    | exact (rfl : (_ : Bool) = true)
    | exact fun _ => rfl
    | intro _
    | split
    | with_reducible apply Only.via (Q := [.freeCtr, .dig, .ent, .dma]) (ctxExport_only _ _ _)
    | with_reducible apply Only.via (Q := [.freeCtr, .dig, .dma]) (ctxFree_only _ _)
    | with_reducible apply Only.via (Q := [.dig]) (ctxImport_only _ _ _)
    | with_reducible apply Only.via (Q := [.freeCtr, .dig, .dma]) (ctxResult_only _ _)
    | with_reducible apply Only.via (Q := [.dig]) (modCtx_only _ _ _)

theorem ctxCmdWrite_only (c : Nat) (p : Path) (value : BitVec 32) (s : State) : Only [.freeCtr, .dig, .ent, .dma] s (ctxCmdWrite c p value s) := by
  unfold ctxCmdWrite
  try dsimp only
  repeat' first
    | with_reducible exact Only.refl _ _
    | with_reducible assumption
    | exact (rfl : (_ : Bool) = true)
    | exact fun _ => rfl
    | intro _
    | split
    | with_reducible apply Only.via (Q := [.freeCtr, .dig, .ent, .dma]) (ctxRun_only _ _ _ _)
    | with_reducible apply Only.via (Q := [.dig]) (modCtx_only _ _ _)

theorem ctxRow_only (op c : Nat) (p : Path) (value : BitVec 32) (s : State) : Only [.freeCtr, .dig, .ent, .dma, .ports] s (ctxRow op c p value s) := by
  unfold ctxRow
  try dsimp only
  repeat' first
    | with_reducible exact Only.refl _ _
    | with_reducible assumption
    | exact (rfl : (_ : Bool) = true)
    | exact fun _ => rfl
    | intro _
    | split
    | with_reducible apply Only.via (Q := [.freeCtr, .dig, .ent, .dma]) (ctxCmdWrite_only _ _ _ _)
    | with_reducible apply Only.ctxWrite
    | with_reducible apply Only.onlyIf

theorem feedDropped_only (s : State) : Only [.dig] s (feedDropped s) := by
  unfold feedDropped
  try dsimp only
  repeat' first
    | with_reducible exact Only.refl _ _
    | with_reducible assumption
    | exact (rfl : (_ : Bool) = true)
    | exact fun _ => rfl
    | intro _
    | split
    | with_reducible apply Only.via (Q := [.dig]) (Only.modDig _ _)

theorem dataWord_only (c : Nat) (value : BitVec 32) (s : State) : Only [.dig] s (dataWord c value s) := by
  unfold dataWord
  try dsimp only
  repeat' first
    | with_reducible exact Only.refl _ _
    | with_reducible assumption
    | exact (rfl : (_ : Bool) = true)
    | exact fun _ => rfl
    | intro _
    | split
    | with_reducible apply Only.via (Q := [.dig]) (feedDropped_only _)
    | with_reducible apply Only.via (Q := [.dig]) (modCtx_only _ _ _)
    | with_reducible apply Only.onlyIf

theorem feedEnd_only (c surplus : Nat) (s : State) : Only [.freeCtr, .dig, .dma] s (feedEnd c surplus s) := by
  unfold feedEnd
  try dsimp only
  repeat' first
    | with_reducible exact Only.refl _ _
    | with_reducible assumption
    | exact (rfl : (_ : Bool) = true)
    | exact fun _ => rfl
    | intro _
    | split
    | with_reducible apply Only.via (Q := [.freeCtr, .dig, .dma]) (feedOver_only _ _)
    | with_reducible apply Only.via (Q := [.dig]) (modCtx_only _ _ _)

theorem feedCtlWrite_only (c : Nat) (value : BitVec 32) (s : State) : Only [.freeCtr, .dig, .dma] s (feedCtlWrite c value s) := by
  unfold feedCtlWrite
  try dsimp only
  repeat' first
    | with_reducible exact Only.refl _ _
    | with_reducible assumption
    | exact (rfl : (_ : Bool) = true)
    | exact fun _ => rfl
    | intro _
    | split
    | with_reducible apply Only.via (Q := [.freeCtr, .dig, .dma]) (ctxEnd_only _ _ _)
    | with_reducible apply Only.via (Q := [.freeCtr, .dma]) (dmaRead_only _ _ _ _)
    | with_reducible apply Only.via (Q := [.dig]) (feedDropped_only _)
    | with_reducible apply Only.via (Q := [.freeCtr, .dig, .dma]) (feedEnd_only _ _ _)
    | with_reducible apply Only.via (Q := [.dig]) (modCtx_only _ _ _)
    | with_reducible apply Only.onlyIf
    | with_reducible refine Only.ofPair (by assumption) ?_
    | with_reducible refine Only.ofTriple (by assumption) ?_

theorem ctxSettle_only (c : Nat) (s : State) : Only [.freeCtr, .dig, .dma] s (ctxSettle c s) := by
  unfold ctxSettle
  try dsimp only
  repeat' first
    | with_reducible exact Only.refl _ _
    | with_reducible assumption
    | exact (rfl : (_ : Bool) = true)
    | exact fun _ => rfl
    | intro _
    | split
    | with_reducible apply Only.via (Q := [.freeCtr, .dig, .dma]) (ctxResult_only _ _)
    | with_reducible apply Only.onlyIf

theorem discardWrite_only (p : Path) (value : BitVec 32) (s : State) : Only [.dig] s (discardWrite p value s) := by
  unfold discardWrite
  try dsimp only
  repeat' first
    | with_reducible exact Only.refl _ _
    | with_reducible assumption
    | exact (rfl : (_ : Bool) = true)
    | exact fun _ => rfl
    | intro _
    | split
    | with_reducible apply Only.via (Q := [.dig]) (modRegion_only _ _ _)

theorem digCtlWrite_only (value : BitVec 32) (s : State) : Only [.dig] s (digCtlWrite value s) := by
  unfold digCtlWrite
  try dsimp only
  repeat' first
    | with_reducible exact Only.refl _ _
    | with_reducible assumption
    | exact (rfl : (_ : Bool) = true)
    | exact fun _ => rfl
    | intro _
    | split
    | with_reducible apply Only.via (Q := [.dig]) (Only.modDig _ _)

theorem execDigSelftest_only (p : Path) (value : BitVec 32) (s : State) : ∃ t, execDigSelftest p value s = .next t ∧ Only [.dig, .ports] s t := by
  refine ⟨_, rfl, ?_⟩
  try dsimp only
  repeat' first
    | with_reducible exact Only.refl _ _
    | with_reducible assumption
    | exact (rfl : (_ : Bool) = true)
    | exact fun _ => rfl
    | intro _
    | split
    | with_reducible apply Only.via (Q := [.dig]) (digCtlWrite_only _ _)
    | with_reducible apply Only.via (Q := []) (done_only _)
    | with_reducible apply Only.onlyIf
    | with_reducible apply Only.writeAt
    | with_reducible apply Only.via (Q := [.dig]) (Only.modDig _ _)

theorem cmpCtlWrite_only (k : Nat) (value : BitVec 32) (s : State) : Only [.dig] s (cmpCtlWrite k value s) := by
  unfold cmpCtlWrite
  try dsimp only
  repeat' first
    | with_reducible exact Only.refl _ _
    | with_reducible assumption
    | exact (rfl : (_ : Bool) = true)
    | exact fun _ => rfl
    | intro _
    | split
    | with_reducible apply Only.via (Q := [.dig]) (modRegion_only _ _ _)
    | with_reducible apply Only.via (Q := [.dig]) (Only.modDig _ _)

theorem Only.regionWrite {ps : List Part} {b s : State} {j off : Nat} {p : Path} {k : State → State} (h : Only ps b s)
    (hp : ([.dig, .ports] : List Part).all (fun p => ps.contains p) = true) (hk : ∀ u, Only ps b u → Only ps b (k u)) :
    Only ps b (regionWrite j off p k s) :=
  Only.writeOwned h (Only.sub rfl hp) (fun u hu => Only.via (digForeign_only u) (Only.sub rfl hp) hu) hk

end Sys2Proof.Machine
end

