-- ==== Sys2Proof/Laws/OnlyLanes.lean ====
section
/-!
SUPPORT. The parts of State that the operations of Machine/Lanes.lean may change.
-/

namespace Sys2Proof.Machine
open Sys2Proof

theorem modBank_only (g bank : Nat) (f : Bank → Bank) (s : State) : Only [.guards] s (modBank g bank f s) := by
  unfold modBank
  try dsimp only
  repeat' first
    | with_reducible exact Only.refl _ _
    | with_reducible assumption
    | exact (rfl : (_ : Bool) = true)
    | exact fun _ => rfl
    | intro _
    | split
    | with_reducible apply Only.via (Q := [.guards]) (Only.modGuard _ _ _)

theorem reserve_only (s : State) : Only [.brup] s (reserve s) := by
  unfold reserve
  try dsimp only
  repeat' first
    | with_reducible exact Only.refl _ _
    | with_reducible assumption
    | exact (rfl : (_ : Bool) = true)
    | exact fun _ => rfl
    | intro _
    | split
    | with_reducible apply Only.via (Q := [.brup]) (Only.modBrup _ _)

theorem dropHeld_only (g : Nat) (s : State) : Only [.dies, .head, .ks, .vault, .mower, .att, .tenantBox, .operBox, .fq, .mir] s (dropHeld g s) := by
  unfold dropHeld
  try dsimp only
  repeat' first
    | with_reducible exact Only.refl _ _
    | with_reducible assumption
    | exact (rfl : (_ : Bool) = true)
    | exact fun _ => rfl
    | intro _
    | split
    | with_reducible apply Only.forEach
    | with_reducible apply Only.via (Q := [.dies, .head, .ks, .att, .tenantBox, .operBox, .fq, .mir]) (rekeyEnded_only _ _)
    | with_reducible apply Only.via (Q := [.dies, .head, .ks, .vault, .mower, .att, .tenantBox, .operBox, .fq, .mir]) (settle_only _)
    | with_reducible apply Only.via (Q := [.dies, .head, .ks, .att, .tenantBox, .operBox, .fq, .mir]) (sweepEnded_only _ _)
    | with_reducible apply Only.via (Q := [.ks]) (Only.modKs _ _)

theorem loseMemory_only (g : Nat) (s : State) : Only [.guards, .dies, .head, .ks, .vault, .mower, .att, .tenantBox, .operBox, .fq, .mir] s (loseMemory g s) := by
  unfold loseMemory
  try dsimp only
  repeat' first
    | with_reducible exact Only.refl _ _
    | with_reducible assumption
    | exact (rfl : (_ : Bool) = true)
    | exact fun _ => rfl
    | intro _
    | split
    | with_reducible apply Only.via (Q := [.dies, .head, .ks, .vault, .mower, .att, .tenantBox, .operBox, .fq, .mir]) (dropHeld_only _ _)
    | with_reducible apply Only.via (Q := [.guards, .dies, .ks, .mower]) (fenceGuard_only _ _ _ _)
    | with_reducible apply Only.via (Q := [.guards]) (Only.modGuard _ _ _)

theorem lostIfDown_only (g : Nat) (s : State) : Only [.guards, .dies, .head, .ks, .vault, .mower, .att, .tenantBox, .operBox, .brup, .fq, .mir] s (lostIfDown g s) := by
  unfold lostIfDown
  try dsimp only
  repeat' first
    | with_reducible exact Only.refl _ _
    | with_reducible assumption
    | exact (rfl : (_ : Bool) = true)
    | exact fun _ => rfl
    | intro _
    | split
    | with_reducible apply Only.via (Q := [.guards, .dies, .head, .ks, .vault, .mower, .att, .tenantBox, .operBox, .fq, .mir]) (loseMemory_only _ _)
    | with_reducible apply Only.onlyIf
    | with_reducible apply Only.via (Q := [.brup]) (reserve_only _)

theorem laneLine_only (g uid : Nat) (s : State) : Only [.guards, .mower] s (laneLine g uid s) := by
  unfold laneLine
  try dsimp only
  repeat' first
    | with_reducible exact Only.refl _ _
    | with_reducible assumption
    | exact (rfl : (_ : Bool) = true)
    | exact fun _ => rfl
    | intro _
    | split
    | with_reducible apply Only.via (Q := [.guards, .mower]) (fail_only _ _ _ _)
    | with_reducible apply Only.via (Q := [.guards]) (Only.modGuard _ _ _)

theorem laneOut_only (g bank lane : Nat) (lines : List Nat) (s : State) : Only [.guards, .dies, .head, .ks, .vault, .mower, .att, .tenantBox, .operBox, .brup, .fq, .mir] s (laneOut g bank lane lines s) := by
  unfold laneOut
  try dsimp only
  repeat' first
    | with_reducible exact Only.refl _ _
    | with_reducible assumption
    | exact (rfl : (_ : Bool) = true)
    | exact fun _ => rfl
    | intro _
    | split
    | with_reducible apply Only.forEach
    | with_reducible apply Only.via (Q := [.guards, .mower]) (laneLine_only _ _ _)
    | with_reducible apply Only.via (Q := [.guards, .dies, .head, .ks, .vault, .mower, .att, .tenantBox, .operBox, .brup, .fq, .mir]) (lostIfDown_only _ _)
    | with_reducible apply Only.via (Q := [.guards]) (modBank_only _ _ _ _)

theorem katBlock_only (g bank lane : Nat) (good : Bool) (lines : List Nat) (s : State) : Only [.guards, .dies, .head, .ks, .vault, .mower, .att, .tenantBox, .operBox, .brup, .fq, .mir] s (katBlock g bank lane good lines s) := by
  unfold katBlock
  try dsimp only
  repeat' first
    | with_reducible exact Only.refl _ _
    | with_reducible assumption
    | exact (rfl : (_ : Bool) = true)
    | exact fun _ => rfl
    | intro _
    | split
    | with_reducible apply Only.via (Q := [.guards, .dies, .ks, .mower]) (fenceGuard_only _ _ _ _)
    | with_reducible apply Only.via (Q := [.guards, .dies, .head, .ks, .vault, .mower, .att, .tenantBox, .operBox, .brup, .fq, .mir]) (laneOut_only _ _ _ _ _)
    | with_reducible apply Only.via (Q := [.guards]) (modBank_only _ _ _ _)
    | with_reducible apply Only.onlyIf
    | with_reducible apply Only.via (Q := [.fq]) (raise_only _ _ _ _ _ _ _)
    | with_reducible apply Only.via (Q := [.guards]) (Only.modGuard _ _ _)

theorem execFence_only (g : Fin 40) (p : Path) (value : BitVec 32) (s : State) : ∃ t, execFence g p value s = .next t ∧ Only [.guards, .dies, .head, .ks, .vault, .mower, .att, .tenantBox, .operBox, .fq, .mir, .ports] s t := by
  refine ⟨_, rfl, ?_⟩
  try dsimp only
  repeat' first
    | with_reducible exact Only.refl _ _
    | with_reducible assumption
    | exact (rfl : (_ : Bool) = true)
    | exact fun _ => rfl
    | intro _
    | split
    | with_reducible apply Only.via (Q := []) (done_only _)
    | with_reducible apply Only.via (Q := [.guards, .dies, .ks, .mower]) (fenceGuard_only _ _ _ _)
    | with_reducible apply Only.onlyIf
    | with_reducible apply Only.via (Q := [.dies, .head, .ks, .vault, .mower, .att, .tenantBox, .operBox, .fq, .mir]) (settle_only _)
    | with_reducible apply Only.writeAt

theorem execGuardThrottle_only (g : Fin 40) (p : Path) (value : BitVec 32) (s : State) : ∃ t, execGuardThrottle g p value s = .next t ∧ Only [.guards, .ports] s t := by
  refine ⟨_, rfl, ?_⟩
  try dsimp only
  repeat' first
    | with_reducible exact Only.refl _ _
    | with_reducible assumption
    | exact (rfl : (_ : Bool) = true)
    | exact fun _ => rfl
    | intro _
    | split
    | with_reducible apply Only.via (Q := []) (done_only _)
    | with_reducible apply Only.writeAt
    | with_reducible apply Only.via (Q := [.guards]) (Only.modGuard _ _ _)

theorem execGuardLaneShare_only (g : Fin 40) (p : Path) (value : BitVec 32) (s : State) : ∃ t, execGuardLaneShare g p value s = .next t ∧ Only [.guards, .ports] s t := by
  refine ⟨_, rfl, ?_⟩
  try dsimp only
  repeat' first
    | with_reducible exact Only.refl _ _
    | with_reducible assumption
    | exact (rfl : (_ : Bool) = true)
    | exact fun _ => rfl
    | intro _
    | split
    | with_reducible apply Only.via (Q := []) (done_only _)
    | with_reducible apply Only.writeAt
    | with_reducible apply Only.via (Q := [.guards]) (Only.modGuard _ _ _)

theorem execGuardErrClear_only (g : Fin 40) (p : Path) (value : BitVec 32) (s : State) : ∃ t, execGuardErrClear g p value s = .next t ∧ Only [.guards, .ports] s t := by
  refine ⟨_, rfl, ?_⟩
  try dsimp only
  repeat' first
    | with_reducible exact Only.refl _ _
    | with_reducible assumption
    | exact (rfl : (_ : Bool) = true)
    | exact fun _ => rfl
    | intro _
    | split
    | with_reducible apply Only.via (Q := []) (done_only _)
    | with_reducible apply Only.writeAt
    | with_reducible apply Only.via (Q := [.guards]) (Only.modGuard _ _ _)

theorem execGuardTagfailClear_only (g : Fin 40) (p : Path) (value : BitVec 32) (s : State) : ∃ t, execGuardTagfailClear g p value s = .next t ∧ Only [.guards, .ports] s t := by
  refine ⟨_, rfl, ?_⟩
  try dsimp only
  repeat' first
    | with_reducible exact Only.refl _ _
    | with_reducible assumption
    | exact (rfl : (_ : Bool) = true)
    | exact fun _ => rfl
    | intro _
    | split
    | with_reducible apply Only.via (Q := []) (done_only _)
    | with_reducible apply Only.writeAt
    | with_reducible apply Only.via (Q := [.guards]) (Only.modGuard _ _ _)

theorem portClock_only (g : Nat) (run : Bool) (s : State) : Only [.guards, .dies] s (portClock g run s) := by
  unfold portClock
  try dsimp only
  repeat' first
    | with_reducible exact Only.refl _ _
    | with_reducible assumption
    | exact (rfl : (_ : Bool) = true)
    | exact fun _ => rfl
    | intro _
    | split
    | with_reducible apply Only.via (Q := [.dies]) (Only.modDie _ _ _)
    | with_reducible apply Only.via (Q := [.guards]) (Only.modGuard _ _ _)

end Sys2Proof.Machine
end

