-- ==== Sys2Proof/Laws/OnlyDomains.lean ====
section
/-!
SUPPORT. The parts of State that the operations of Machine/Domains.lean may change.
-/

namespace Sys2Proof.Machine
open Sys2Proof

theorem decideCreate_only (w : Waiter) (body : Bytes) (s : State) : Only [.dies, .head, .ks, .att, .tenantBox, .operBox, .fq, .mir] s (decideCreate w body s) := by
  unfold decideCreate
  try dsimp only
  repeat' first
    | with_reducible exact Only.refl _ _
    | with_reducible assumption
    | exact (rfl : (_ : Bool) = true)
    | exact fun _ => rfl
    | intro _
    | split
    | with_reducible apply Only.via (Q := [.dies, .head, .ks, .att, .tenantBox, .operBox, .mir]) (commit_only _ _ _ _)
    | with_reducible apply Only.via (Q := [.dies, .head, .ks, .att, .tenantBox, .operBox, .fq, .mir]) (commitDom_only _ _ _ _)
    | with_reducible apply Only.via (Q := [.att, .tenantBox, .operBox]) (refuse_only _ _ _)
    | with_reducible apply Only.via (Q := [.ks]) (setDom_only _ _)
    | with_reducible apply Only.via (Q := [.ks]) (setModel_only _ _)
    | dsimp only [id]

theorem execDomainCreate_only (sess : Nat) (tag : BitVec 32) (body : Bytes) (s : State) : ∃ t, execDomainCreate sess tag body s = .next t ∧ Only [.dies, .head, .ks, .att, .tenantBox, .operBox, .fq, .mir] s t := by
  refine ⟨_, rfl, ?_⟩
  try dsimp only
  repeat' first
    | with_reducible exact Only.refl _ _
    | with_reducible assumption
    | exact (rfl : (_ : Bool) = true)
    | exact fun _ => rfl
    | intro _
    | split
    | with_reducible apply Only.via (Q := [.dies, .head, .ks, .att, .tenantBox, .operBox, .fq, .mir]) (decideCreate_only _ _ _)
    | with_reducible apply Only.via (Q := []) (done_only _)
    | with_reducible apply Only.inOrder
    | with_reducible apply Only.onMessage
    | with_reducible apply Only.whenUp

theorem requestTeardown_only (w : Waiter) (d addr count : Nat) (s : State) : Only [.freeCtr, .dies, .head, .ks, .vault, .ingest, .mower, .att, .tenantBox, .operBox, .fq, .mir, .dma] s (requestTeardown w d addr count s) := by
  unfold requestTeardown
  try dsimp only
  repeat' first
    | with_reducible exact Only.refl _ _
    | with_reducible assumption
    | exact (rfl : (_ : Bool) = true)
    | exact fun _ => rfl
    | intro _
    | split
    | with_reducible apply Only.via (Q := [.freeCtr, .ks, .dma]) (readRegions_only _ _ _ _ _)
    | with_reducible apply Only.via (Q := [.att, .tenantBox, .operBox]) (refuse_only _ _ _)
    | with_reducible apply Only.via (Q := [.dies, .head, .ks, .vault, .ingest, .mower, .att, .tenantBox, .operBox, .fq, .mir]) (tearDown_only _ _ _ _ _ _)

theorem decideOperTeardown_only (w : Waiter) (body : Bytes) (s : State) : Only [.freeCtr, .dies, .head, .ks, .vault, .ingest, .mower, .att, .tenantBox, .operBox, .fq, .mir, .dma] s (decideOperTeardown w body s) := by
  unfold decideOperTeardown
  try dsimp only
  repeat' first
    | with_reducible exact Only.refl _ _
    | with_reducible assumption
    | exact (rfl : (_ : Bool) = true)
    | exact fun _ => rfl
    | intro _
    | split
    | with_reducible apply Only.via (Q := [.att, .tenantBox, .operBox]) (refuse_only _ _ _)
    | with_reducible apply Only.via (Q := [.freeCtr, .dies, .head, .ks, .vault, .ingest, .mower, .att, .tenantBox, .operBox, .fq, .mir, .dma]) (requestTeardown_only _ _ _ _ _)

theorem execOperatorDomainTeardown_only (sess : Nat) (tag : BitVec 32) (body : Bytes) (s : State) : ∃ t, execOperatorDomainTeardown sess tag body s = .next t ∧ Only [.freeCtr, .dies, .head, .ks, .vault, .ingest, .mower, .att, .tenantBox, .operBox, .fq, .mir, .dma] s t := by
  refine ⟨_, rfl, ?_⟩
  try dsimp only
  repeat' first
    | with_reducible exact Only.refl _ _
    | with_reducible assumption
    | exact (rfl : (_ : Bool) = true)
    | exact fun _ => rfl
    | intro _
    | split
    | with_reducible apply Only.via (Q := [.freeCtr, .dies, .head, .ks, .vault, .ingest, .mower, .att, .tenantBox, .operBox, .fq, .mir, .dma]) (decideOperTeardown_only _ _ _)
    | with_reducible apply Only.via (Q := []) (done_only _)
    | with_reducible apply Only.inOrder
    | with_reducible apply Only.onMessage
    | with_reducible apply Only.via (Q := [.dies, .head, .ks, .vault, .mower, .att, .tenantBox, .operBox, .fq, .mir]) (settle_only _)
    | with_reducible apply Only.whenUp

theorem decideTenantTeardown_only (w : Waiter) (body : Bytes) (s : State) : Only [.freeCtr, .dies, .head, .ks, .vault, .ingest, .mower, .att, .tenantBox, .operBox, .fq, .mir, .dma] s (decideTenantTeardown w body s) := by
  unfold decideTenantTeardown
  try dsimp only
  repeat' first
    | with_reducible exact Only.refl _ _
    | with_reducible assumption
    | exact (rfl : (_ : Bool) = true)
    | exact fun _ => rfl
    | intro _
    | split
    | with_reducible apply Only.via (Q := [.att, .tenantBox, .operBox]) (refuse_only _ _ _)
    | with_reducible apply Only.via (Q := [.freeCtr, .dies, .head, .ks, .vault, .ingest, .mower, .att, .tenantBox, .operBox, .fq, .mir, .dma]) (requestTeardown_only _ _ _ _ _)

theorem execTenantDomainTeardown_only (sess : Nat) (tag : BitVec 32) (body : Bytes) (s : State) : ∃ t, execTenantDomainTeardown sess tag body s = .next t ∧ Only [.freeCtr, .dies, .head, .ks, .vault, .ingest, .mower, .att, .tenantBox, .operBox, .fq, .mir, .dma] s t := by
  refine ⟨_, rfl, ?_⟩
  try dsimp only
  repeat' first
    | with_reducible exact Only.refl _ _
    | with_reducible assumption
    | exact (rfl : (_ : Bool) = true)
    | exact fun _ => rfl
    | intro _
    | split
    | with_reducible apply Only.via (Q := [.freeCtr, .dies, .head, .ks, .vault, .ingest, .mower, .att, .tenantBox, .operBox, .fq, .mir, .dma]) (decideTenantTeardown_only _ _ _)
    | with_reducible apply Only.via (Q := []) (done_only _)
    | with_reducible apply Only.inOrder
    | with_reducible apply Only.onMessage
    | with_reducible apply Only.via (Q := [.dies, .head, .ks, .vault, .mower, .att, .tenantBox, .operBox, .fq, .mir]) (settle_only _)
    | with_reducible apply Only.whenUp

theorem decidePropose_only (w : Waiter) (body : Bytes) (s : State) : Only [.dies, .head, .ks, .att, .tenantBox, .operBox, .mir] s (decidePropose w body s) := by
  unfold decidePropose
  try dsimp only
  repeat' first
    | with_reducible exact Only.refl _ _
    | with_reducible assumption
    | exact (rfl : (_ : Bool) = true)
    | exact fun _ => rfl
    | intro _
    | split
    | with_reducible apply Only.via (Q := [.dies, .head, .ks, .att, .tenantBox, .operBox, .mir]) (commit_only _ _ _ _)
    | with_reducible apply Only.via (Q := [.att, .tenantBox, .operBox]) (refuse_only _ _ _)

theorem execStreamPropose_only (sess : Nat) (tag : BitVec 32) (body : Bytes) (s : State) : ∃ t, execStreamPropose sess tag body s = .next t ∧ Only [.dies, .head, .ks, .att, .tenantBox, .operBox, .mir] s t := by
  refine ⟨_, rfl, ?_⟩
  try dsimp only
  repeat' first
    | with_reducible exact Only.refl _ _
    | with_reducible assumption
    | exact (rfl : (_ : Bool) = true)
    | exact fun _ => rfl
    | intro _
    | split
    | with_reducible apply Only.via (Q := [.dies, .head, .ks, .att, .tenantBox, .operBox, .mir]) (decidePropose_only _ _ _)
    | with_reducible apply Only.via (Q := []) (done_only _)
    | with_reducible apply Only.inOrder
    | with_reducible apply Only.onMessage
    | with_reducible apply Only.whenUp

theorem execStreamWithdraw_only (sess : Nat) (tag : BitVec 32) (body : Bytes) (s : State) : ∃ t, execStreamWithdraw sess tag body s = .next t ∧ Only [.dies, .head, .ks, .att, .tenantBox, .operBox, .mir] s t := by
  refine ⟨_, rfl, ?_⟩
  try dsimp only
  repeat' first
    | with_reducible exact Only.refl _ _
    | with_reducible assumption
    | exact (rfl : (_ : Bool) = true)
    | exact fun _ => rfl
    | intro _
    | split
    | with_reducible apply Only.via (Q := [.dies, .head, .ks, .att, .tenantBox, .operBox, .mir]) (commit_only _ _ _ _)
    | with_reducible apply Only.via (Q := []) (done_only _)
    | with_reducible apply Only.onMessage
    | with_reducible apply Only.via (Q := [.att, .tenantBox, .operBox]) (refuse_only _ _ _)
    | with_reducible apply Only.whenUp

theorem unbind_only (w : Waiter) (st : Nat) (s : State) : Only [.dies, .head, .ks, .att, .tenantBox, .operBox, .mir] s (unbind w st s) := by
  unfold unbind
  try dsimp only
  repeat' first
    | with_reducible exact Only.refl _ _
    | with_reducible assumption
    | exact (rfl : (_ : Bool) = true)
    | exact fun _ => rfl
    | intro _
    | split
    | with_reducible apply Only.via (Q := [.dies, .head, .ks, .att, .tenantBox, .operBox, .mir]) (commit_only _ _ _ _)

theorem execOperatorStreamUnbind_only (sess : Nat) (tag : BitVec 32) (body : Bytes) (s : State) : ∃ t, execOperatorStreamUnbind sess tag body s = .next t ∧ Only [.dies, .head, .ks, .vault, .mower, .att, .tenantBox, .operBox, .fq, .mir] s t := by
  refine ⟨_, rfl, ?_⟩
  try dsimp only
  repeat' first
    | with_reducible exact Only.refl _ _
    | with_reducible assumption
    | exact (rfl : (_ : Bool) = true)
    | exact fun _ => rfl
    | intro _
    | split
    | with_reducible apply Only.via (Q := []) (done_only _)
    | with_reducible apply Only.onMessage
    | with_reducible apply Only.via (Q := [.att, .tenantBox, .operBox]) (refuse_only _ _ _)
    | with_reducible apply Only.via (Q := [.dies, .head, .ks, .vault, .mower, .att, .tenantBox, .operBox, .fq, .mir]) (settle_only _)
    | with_reducible apply Only.via (Q := [.dies, .head, .ks, .att, .tenantBox, .operBox, .mir]) (unbind_only _ _ _)
    | with_reducible apply Only.whenUp

theorem decideTenantUnbind_only (w : Waiter) (body : Bytes) (s : State) : Only [.dies, .head, .ks, .att, .tenantBox, .operBox, .mir] s (decideTenantUnbind w body s) := by
  unfold decideTenantUnbind
  try dsimp only
  repeat' first
    | with_reducible exact Only.refl _ _
    | with_reducible assumption
    | exact (rfl : (_ : Bool) = true)
    | exact fun _ => rfl
    | intro _
    | split
    | with_reducible apply Only.via (Q := [.att, .tenantBox, .operBox]) (refuse_only _ _ _)
    | with_reducible apply Only.via (Q := [.dies, .head, .ks, .att, .tenantBox, .operBox, .mir]) (unbind_only _ _ _)

theorem execTenantStreamUnbind_only (sess : Nat) (tag : BitVec 32) (body : Bytes) (s : State) : ∃ t, execTenantStreamUnbind sess tag body s = .next t ∧ Only [.dies, .head, .ks, .vault, .mower, .att, .tenantBox, .operBox, .fq, .mir] s t := by
  refine ⟨_, rfl, ?_⟩
  try dsimp only
  repeat' first
    | with_reducible exact Only.refl _ _
    | with_reducible assumption
    | exact (rfl : (_ : Bool) = true)
    | exact fun _ => rfl
    | intro _
    | split
    | with_reducible apply Only.via (Q := [.dies, .head, .ks, .att, .tenantBox, .operBox, .mir]) (decideTenantUnbind_only _ _ _)
    | with_reducible apply Only.via (Q := []) (done_only _)
    | with_reducible apply Only.inOrder
    | with_reducible apply Only.onMessage
    | with_reducible apply Only.via (Q := [.dies, .head, .ks, .vault, .mower, .att, .tenantBox, .operBox, .fq, .mir]) (settle_only _)
    | with_reducible apply Only.whenUp

theorem decideConfirm_only (w : Waiter) (body : Bytes) (s : State) : Only [.dies, .head, .ks, .att, .tenantBox, .operBox, .mir] s (decideConfirm w body s) := by
  unfold decideConfirm
  try dsimp only
  repeat' first
    | with_reducible exact Only.refl _ _
    | with_reducible assumption
    | exact (rfl : (_ : Bool) = true)
    | exact fun _ => rfl
    | intro _
    | split
    | with_reducible apply Only.via (Q := [.dies, .head, .ks, .att, .tenantBox, .operBox, .mir]) (commit_only _ _ _ _)
    | with_reducible apply Only.via (Q := [.att, .tenantBox, .operBox]) (refuse_only _ _ _)

theorem execStreamConfirm_only (sess : Nat) (tag : BitVec 32) (body : Bytes) (s : State) : ∃ t, execStreamConfirm sess tag body s = .next t ∧ Only [.dies, .head, .ks, .vault, .mower, .att, .tenantBox, .operBox, .fq, .mir] s t := by
  refine ⟨_, rfl, ?_⟩
  try dsimp only
  repeat' first
    | with_reducible exact Only.refl _ _
    | with_reducible assumption
    | exact (rfl : (_ : Bool) = true)
    | exact fun _ => rfl
    | intro _
    | split
    | with_reducible apply Only.via (Q := [.dies, .head, .ks, .att, .tenantBox, .operBox, .mir]) (decideConfirm_only _ _ _)
    | with_reducible apply Only.via (Q := []) (done_only _)
    | with_reducible apply Only.inOrder
    | with_reducible apply Only.onMessage
    | with_reducible apply Only.via (Q := [.dies, .head, .ks, .vault, .mower, .att, .tenantBox, .operBox, .fq, .mir]) (settle_only _)
    | with_reducible apply Only.whenUp

theorem decideRegionList_only (w : Waiter) (body : Bytes) (s : State) : Only [.freeCtr, .ks, .att, .tenantBox, .operBox, .dma] s (decideRegionList w body s) := by
  unfold decideRegionList
  try dsimp only
  repeat' first
    | with_reducible exact Only.refl _ _
    | with_reducible assumption
    | exact (rfl : (_ : Bool) = true)
    | exact fun _ => rfl
    | intro _
    | split
    | with_reducible apply Only.via (Q := [.freeCtr, .ks, .dma]) (readRegions_only _ _ _ _ _)
    | with_reducible apply Only.via (Q := [.att, .tenantBox, .operBox]) (refuse_only _ _ _)

theorem execRegionList_only (sess : Nat) (tag : BitVec 32) (body : Bytes) (s : State) : ∃ t, execRegionList sess tag body s = .next t ∧ Only [.freeCtr, .ks, .att, .tenantBox, .operBox, .dma] s t := by
  refine ⟨_, rfl, ?_⟩
  try dsimp only
  repeat' first
    | with_reducible exact Only.refl _ _
    | with_reducible assumption
    | exact (rfl : (_ : Bool) = true)
    | exact fun _ => rfl
    | intro _
    | split
    | with_reducible apply Only.via (Q := [.freeCtr, .ks, .att, .tenantBox, .operBox, .dma]) (decideRegionList_only _ _ _)
    | with_reducible apply Only.via (Q := []) (done_only _)
    | with_reducible apply Only.inOrder
    | with_reducible apply Only.onMessage
    | with_reducible apply Only.whenUp

theorem decideIngestStart_only (w : Waiter) (body : Bytes) (s : State) : Only [.freeCtr, .ks, .att, .tenantBox, .operBox, .dma] s (decideIngestStart w body s) := by
  unfold decideIngestStart
  try dsimp only
  repeat' first
    | with_reducible exact Only.refl _ _
    | with_reducible assumption
    | exact (rfl : (_ : Bool) = true)
    | exact fun _ => rfl
    | intro _
    | split
    | with_reducible apply Only.via (Q := [.freeCtr, .ks, .dma]) (readRegions_only _ _ _ _ _)
    | with_reducible apply Only.via (Q := [.att, .tenantBox, .operBox]) (refuse_only _ _ _)

theorem execIngestStart_only (sess : Nat) (tag : BitVec 32) (body : Bytes) (s : State) : ∃ t, execIngestStart sess tag body s = .next t ∧ Only [.freeCtr, .ks, .att, .tenantBox, .operBox, .dma] s t := by
  refine ⟨_, rfl, ?_⟩
  try dsimp only
  repeat' first
    | with_reducible exact Only.refl _ _
    | with_reducible assumption
    | exact (rfl : (_ : Bool) = true)
    | exact fun _ => rfl
    | intro _
    | split
    | with_reducible apply Only.via (Q := [.freeCtr, .ks, .att, .tenantBox, .operBox, .dma]) (decideIngestStart_only _ _ _)
    | with_reducible apply Only.via (Q := []) (done_only _)
    | with_reducible apply Only.inOrder
    | with_reducible apply Only.onMessage
    | with_reducible apply Only.whenUp

theorem decideLinkAssign_only (w : Waiter) (body : Bytes) (s : State) : Only [.ks, .att, .tenantBox, .operBox] s (decideLinkAssign w body s) := by
  unfold decideLinkAssign
  try dsimp only
  repeat' first
    | with_reducible exact Only.refl _ _
    | with_reducible assumption
    | exact (rfl : (_ : Bool) = true)
    | exact fun _ => rfl
    | intro _
    | split
    | with_reducible apply Only.via (Q := [.att, .tenantBox, .operBox]) (refuse_only _ _ _)
    | with_reducible apply Only.via (Q := [.att, .tenantBox, .operBox]) (reply_only _ _ _)
    | with_reducible apply Only.via (Q := [.ks]) (Only.modKs _ _)

theorem execLinkAssign_only (sess : Nat) (tag : BitVec 32) (body : Bytes) (s : State) : ∃ t, execLinkAssign sess tag body s = .next t ∧ Only [.ks, .att, .tenantBox, .operBox] s t := by
  refine ⟨_, rfl, ?_⟩
  try dsimp only
  repeat' first
    | with_reducible exact Only.refl _ _
    | with_reducible assumption
    | exact (rfl : (_ : Bool) = true)
    | exact fun _ => rfl
    | intro _
    | split
    | with_reducible apply Only.via (Q := [.ks, .att, .tenantBox, .operBox]) (decideLinkAssign_only _ _ _)
    | with_reducible apply Only.via (Q := []) (done_only _)
    | with_reducible apply Only.inOrder
    | with_reducible apply Only.onMessage
    | with_reducible apply Only.whenUp

theorem execSetShares_only (sess : Nat) (tag : BitVec 32) (body : Bytes) (s : State) : ∃ t, execSetShares sess tag body s = .next t ∧ Only [.guards, .att, .tenantBox, .operBox] s t := by
  refine ⟨_, rfl, ?_⟩
  try dsimp only
  repeat' first
    | with_reducible exact Only.refl _ _
    | with_reducible assumption
    | exact (rfl : (_ : Bool) = true)
    | exact fun _ => rfl
    | intro _
    | split
    | with_reducible apply Only.via (Q := []) (done_only _)
    | with_reducible apply Only.onMessage
    | with_reducible apply Only.via (Q := [.att, .tenantBox, .operBox]) (refuse_only _ _ _)
    | with_reducible apply Only.via (Q := [.att, .tenantBox, .operBox]) (reply_only _ _ _)
    | with_reducible apply Only.whenUp
    | with_reducible apply Only.via (Q := [.guards]) (Only.modGuard _ _ _)

theorem decidePin_only (w : Waiter) (body : Bytes) (s : State) : Only [.guards, .dies, .att, .tenantBox, .operBox] s (decidePin w body s) := by
  unfold decidePin
  try dsimp only
  repeat' first
    | with_reducible exact Only.refl _ _
    | with_reducible assumption
    | exact (rfl : (_ : Bool) = true)
    | exact fun _ => rfl
    | intro _
    | split
    | with_reducible apply Only.via (Q := [.guards]) (pinEnd_only _ _ _)
    | with_reducible apply Only.via (Q := [.guards, .dies]) (pinStart_only _ _ _)
    | with_reducible apply Only.via (Q := [.att, .tenantBox, .operBox]) (refuse_only _ _ _)
    | with_reducible apply Only.via (Q := [.att, .tenantBox, .operBox]) (reply_only _ _ _)

theorem execPinMsg_only (sess : Nat) (tag : BitVec 32) (body : Bytes) (s : State) : ∃ t, execPinMsg sess tag body s = .next t ∧ Only [.guards, .dies, .ks, .att, .tenantBox, .operBox] s t := by
  refine ⟨_, rfl, ?_⟩
  try dsimp only
  repeat' first
    | with_reducible exact Only.refl _ _
    | with_reducible assumption
    | exact (rfl : (_ : Bool) = true)
    | exact fun _ => rfl
    | intro _
    | split
    | with_reducible apply Only.via (Q := [.guards, .dies, .att, .tenantBox, .operBox]) (decidePin_only _ _ _)
    | with_reducible apply Only.via (Q := []) (done_only _)
    | with_reducible apply Only.inOrder
    | with_reducible apply Only.onMessage
    | with_reducible apply Only.onlyIf
    | with_reducible apply Only.whenUp

theorem execUnpinMsg_only (sess : Nat) (tag : BitVec 32) (body : Bytes) (s : State) : ∃ t, execUnpinMsg sess tag body s = .next t ∧ Only [.guards, .dies, .ks, .att, .tenantBox, .operBox] s t := by
  refine ⟨_, rfl, ?_⟩
  try dsimp only
  repeat' first
    | with_reducible exact Only.refl _ _
    | with_reducible assumption
    | exact (rfl : (_ : Bool) = true)
    | exact fun _ => rfl
    | intro _
    | split
    | with_reducible apply Only.via (Q := [.guards, .dies, .att, .tenantBox, .operBox]) (decidePin_only _ _ _)
    | with_reducible apply Only.via (Q := []) (done_only _)
    | with_reducible apply Only.inOrder
    | with_reducible apply Only.onMessage
    | with_reducible apply Only.onlyIf
    | with_reducible apply Only.whenUp

theorem acceptSeed_only (w : Waiter) (d : Nat) (seed : Bytes) (s : State) : Only [.dies, .head, .ks, .att, .tenantBox, .operBox, .fq, .mir] s (acceptSeed w d seed s) := by
  unfold acceptSeed
  try dsimp only
  repeat' first
    | with_reducible exact Only.refl _ _
    | with_reducible assumption
    | exact (rfl : (_ : Bool) = true)
    | exact fun _ => rfl
    | intro _
    | split
    | with_reducible apply Only.via (Q := [.dies, .head, .ks, .att, .tenantBox, .operBox, .fq, .mir]) (commitDom_only _ _ _ _)
    | with_reducible apply Only.via (Q := [.ks]) (setDom_only _ _)

theorem decideSeed_only (w : Waiter) (body : Bytes) (s : State) : Only [.dies, .head, .ks, .att, .tenantBox, .operBox, .fq, .mir] s (decideSeed w body s) := by
  unfold decideSeed
  try dsimp only
  repeat' first
    | with_reducible exact Only.refl _ _
    | with_reducible assumption
    | exact (rfl : (_ : Bool) = true)
    | exact fun _ => rfl
    | intro _
    | split
    | with_reducible apply Only.via (Q := [.dies, .head, .ks, .att, .tenantBox, .operBox, .fq, .mir]) (acceptSeed_only _ _ _ _)
    | with_reducible apply Only.via (Q := [.att, .tenantBox, .operBox]) (refuse_only _ _ _)
    | dsimp only [id]

theorem execDomainSeed_only (sess : Nat) (tag : BitVec 32) (body : Bytes) (s : State) : ∃ t, execDomainSeed sess tag body s = .next t ∧ Only [.dies, .head, .ks, .vault, .mower, .att, .tenantBox, .operBox, .fq, .mir] s t := by
  refine ⟨_, rfl, ?_⟩
  try dsimp only
  repeat' first
    | with_reducible exact Only.refl _ _
    | with_reducible assumption
    | exact (rfl : (_ : Bool) = true)
    | exact fun _ => rfl
    | intro _
    | split
    | with_reducible apply Only.via (Q := [.dies, .head, .ks, .att, .tenantBox, .operBox, .fq, .mir]) (decideSeed_only _ _ _)
    | with_reducible apply Only.via (Q := []) (done_only _)
    | with_reducible apply Only.inOrder
    | with_reducible apply Only.onMessage
    | with_reducible apply Only.via (Q := [.dies, .head, .ks, .vault, .mower, .att, .tenantBox, .operBox, .fq, .mir]) (settle_only _)
    | with_reducible apply Only.whenUp

end Sys2Proof.Machine
end

