-- ==== Sys2Proof/Laws/OnlyLinks.lean ====
section
/-!
SUPPORT. The parts of State that the operations of Machine/Links.lean may change.
-/

namespace Sys2Proof.Machine
open Sys2Proof

theorem pumpLinks_only (s : State) : Only [.ports] s (pumpLinks s) := by
  unfold pumpLinks
  try dsimp only
  repeat' first
    | with_reducible exact Only.refl _ _
    | with_reducible assumption
    | exact (rfl : (_ : Bool) = true)
    | exact fun _ => rfl
    | intro _
    | split
    | with_reducible apply Only.via (Q := [.ports]) (Only.modPorts _ _)

theorem endLink_only (s : State) : Only [.ports] s (endLink s) := by
  unfold endLink
  try dsimp only
  repeat' first
    | with_reducible exact Only.refl _ _
    | with_reducible assumption
    | exact (rfl : (_ : Bool) = true)
    | exact fun _ => rfl
    | intro _
    | split
    | with_reducible apply Only.via (Q := [.ports]) (pumpLinks_only _)
    | with_reducible apply Only.via (Q := [.ports]) (Only.modPorts _ _)

theorem failLink_only (s : State) : Only [.att, .tenantBox, .operBox, .ports] s (failLink s) := by
  unfold failLink
  try dsimp only
  repeat' first
    | with_reducible exact Only.refl _ _
    | with_reducible assumption
    | exact (rfl : (_ : Bool) = true)
    | exact fun _ => rfl
    | intro _
    | split
    | with_reducible apply Only.via (Q := [.ports]) (endLink_only _)
    | with_reducible apply Only.via (Q := [.att, .tenantBox, .operBox]) (refuse_only _ _ _)

theorem decideLinkKey_only (w : Waiter) (body : Bytes) (s : State) : Only [.att, .tenantBox, .operBox, .ports] s (decideLinkKey w body s) := by
  unfold decideLinkKey
  try dsimp only
  repeat' first
    | with_reducible exact Only.refl _ _
    | with_reducible assumption
    | exact (rfl : (_ : Bool) = true)
    | exact fun _ => rfl
    | intro _
    | split
    | with_reducible apply Only.via (Q := [.ports]) (pumpLinks_only _)
    | with_reducible apply Only.via (Q := [.att, .tenantBox, .operBox]) (refuse_only _ _ _)
    | with_reducible apply Only.via (Q := [.ports]) (Only.modPorts _ _)

theorem execLinkKey_only (sess : Nat) (tag : BitVec 32) (body : Bytes) (s : State) : ∃ t, execLinkKey sess tag body s = .next t ∧ Only [.ks, .att, .tenantBox, .operBox, .ports] s t := by
  refine ⟨_, rfl, ?_⟩
  try dsimp only
  repeat' first
    | with_reducible exact Only.refl _ _
    | with_reducible assumption
    | exact (rfl : (_ : Bool) = true)
    | exact fun _ => rfl
    | intro _
    | split
    | with_reducible apply Only.via (Q := [.att, .tenantBox, .operBox, .ports]) (decideLinkKey_only _ _ _)
    | with_reducible apply Only.via (Q := []) (done_only _)
    | with_reducible apply Only.inOrder
    | with_reducible apply Only.onMessage
    | with_reducible apply Only.whenUp

end Sys2Proof.Machine
end

