-- ==== Sys2Proof/Laws/OnlyModels.lean ====
section
/-!
SUPPORT. The parts of State that the operations of Machine/Models.lean may change.
-/

namespace Sys2Proof.Machine
open Sys2Proof

theorem decideBundle_only (w : Waiter) (body : Bytes) (s : State) : Only [.dies, .head, .ks, .vault, .att, .tenantBox, .operBox, .mir] s (decideBundle w body s) := by
  unfold decideBundle
  try dsimp only
  repeat' first
    | with_reducible exact Only.refl _ _
    | with_reducible assumption
    | exact (rfl : (_ : Bool) = true)
    | exact fun _ => rfl
    | intro _
    | split
    | with_reducible apply Only.via (Q := [.dies, .head, .ks, .att, .tenantBox, .operBox, .mir]) (commit_only _ _ _ _)
    | with_reducible apply Only.via (Q := [.ks]) (modModel_only _ _ _)
    | with_reducible apply Only.via (Q := [.att, .tenantBox, .operBox]) (refuse_only _ _ _)
    | with_reducible apply Only.viaVault
    | (intro v; dsimp only; split <;> rfl)
    | dsimp only [id]

theorem execBundleKey_only (sess : Nat) (tag : BitVec 32) (body : Bytes) (s : State) : ∃ t, execBundleKey sess tag body s = .next t ∧ Only [.dies, .head, .ks, .vault, .att, .tenantBox, .operBox, .mir] s t := by
  refine ⟨_, rfl, ?_⟩
  try dsimp only
  repeat' first
    | with_reducible exact Only.refl _ _
    | with_reducible assumption
    | exact (rfl : (_ : Bool) = true)
    | exact fun _ => rfl
    | intro _
    | split
    | with_reducible apply Only.via (Q := [.dies, .head, .ks, .vault, .att, .tenantBox, .operBox, .mir]) (decideBundle_only _ _ _)
    | with_reducible apply Only.via (Q := []) (done_only _)
    | with_reducible apply Only.inOrder
    | with_reducible apply Only.onMessage
    | with_reducible apply Only.whenUp

theorem recordGrant_only (g : Bytes) (s : State) : Only [.ks] s (recordGrant g s) := by
  unfold recordGrant
  try dsimp only
  repeat' first
    | with_reducible exact Only.refl _ _
    | with_reducible assumption
    | exact (rfl : (_ : Bool) = true)
    | exact fun _ => rfl
    | intro _
    | split
    | with_reducible apply Only.via (Q := [.ks]) (modModel_only _ _ _)

theorem grantOps_only (w : Waiter) (m oper skipped : Nat) (rs : List (Nat × Nat)) (s : State) : Only [.dies, .head, .ks, .att, .tenantBox, .operBox, .mir] s (grantOps w m oper skipped rs s) := by
  unfold grantOps
  try dsimp only
  repeat' first
    | with_reducible exact Only.refl _ _
    | with_reducible assumption
    | exact (rfl : (_ : Bool) = true)
    | exact fun _ => rfl
    | intro _
    | split
    | with_reducible apply Only.via (Q := [.dies, .head, .ks, .att, .tenantBox, .operBox, .mir]) (commit_only _ _ _ _)

theorem decideGrantAdd_only (w : Waiter) (g : Bytes) (s : State) : Only [.dies, .head, .ks, .att, .tenantBox, .operBox, .mir] s (decideGrantAdd w g s) := by
  unfold decideGrantAdd
  try dsimp only
  repeat' first
    | with_reducible exact Only.refl _ _
    | with_reducible assumption
    | exact (rfl : (_ : Bool) = true)
    | exact fun _ => rfl
    | intro _
    | split
    | with_reducible apply Only.via (Q := [.dies, .head, .ks, .att, .tenantBox, .operBox, .mir]) (grantOps_only _ _ _ _ _ _)
    | with_reducible apply Only.via (Q := [.ks]) (recordGrant_only _ _)
    | with_reducible apply Only.via (Q := [.att, .tenantBox, .operBox]) (refuse_only _ _ _)

theorem execReaderGrantAdd_only (sess : Nat) (tag : BitVec 32) (body : Bytes) (s : State) : ∃ t, execReaderGrantAdd sess tag body s = .next t ∧ Only [.dies, .head, .ks, .vault, .mower, .att, .tenantBox, .operBox, .fq, .mir] s t := by
  refine ⟨_, rfl, ?_⟩
  try dsimp only
  repeat' first
    | with_reducible exact Only.refl _ _
    | with_reducible assumption
    | exact (rfl : (_ : Bool) = true)
    | exact fun _ => rfl
    | intro _
    | split
    | with_reducible apply Only.via (Q := [.dies, .head, .ks, .att, .tenantBox, .operBox, .mir]) (decideGrantAdd_only _ _ _)
    | with_reducible apply Only.via (Q := []) (done_only _)
    | with_reducible apply Only.inOrder
    | with_reducible apply Only.onMessage
    | with_reducible apply Only.onlyIf
    | with_reducible apply Only.via (Q := [.dies, .head, .ks, .vault, .mower, .att, .tenantBox, .operBox, .fq, .mir]) (settle_only _)
    | with_reducible apply Only.whenUp

theorem decideGrantRemove_only (w : Waiter) (g : Bytes) (s : State) : Only [.dies, .head, .ks, .att, .tenantBox, .operBox, .mir] s (decideGrantRemove w g s) := by
  unfold decideGrantRemove
  try dsimp only
  repeat' first
    | with_reducible exact Only.refl _ _
    | with_reducible assumption
    | exact (rfl : (_ : Bool) = true)
    | exact fun _ => rfl
    | intro _
    | split
    | with_reducible apply Only.via (Q := [.dies, .head, .ks, .att, .tenantBox, .operBox, .mir]) (grantOps_only _ _ _ _ _ _)
    | with_reducible apply Only.via (Q := [.ks]) (recordGrant_only _ _)
    | with_reducible apply Only.via (Q := [.att, .tenantBox, .operBox]) (refuse_only _ _ _)

theorem execReaderGrantRemove_only (sess : Nat) (tag : BitVec 32) (body : Bytes) (s : State) : ∃ t, execReaderGrantRemove sess tag body s = .next t ∧ Only [.dies, .head, .ks, .vault, .mower, .att, .tenantBox, .operBox, .fq, .mir] s t := by
  refine ⟨_, rfl, ?_⟩
  try dsimp only
  repeat' first
    | with_reducible exact Only.refl _ _
    | with_reducible assumption
    | exact (rfl : (_ : Bool) = true)
    | exact fun _ => rfl
    | intro _
    | split
    | with_reducible apply Only.via (Q := [.dies, .head, .ks, .att, .tenantBox, .operBox, .mir]) (decideGrantRemove_only _ _ _)
    | with_reducible apply Only.via (Q := []) (done_only _)
    | with_reducible apply Only.inOrder
    | with_reducible apply Only.onMessage
    | with_reducible apply Only.onlyIf
    | with_reducible apply Only.via (Q := [.dies, .head, .ks, .vault, .mower, .att, .tenantBox, .operBox, .fq, .mir]) (settle_only _)
    | with_reducible apply Only.whenUp

theorem decideGrantRevoke_only (w : Waiter) (g : Bytes) (s : State) : Only [.dies, .head, .ks, .vault, .ingest, .mower, .att, .tenantBox, .operBox, .fq, .mir] s (decideGrantRevoke w g s) := by
  unfold decideGrantRevoke
  try dsimp only
  repeat' first
    | with_reducible exact Only.refl _ _
    | with_reducible assumption
    | exact (rfl : (_ : Bool) = true)
    | exact fun _ => rfl
    | intro _
    | split
    | with_reducible apply Only.via (Q := [.ks]) (recordGrant_only _ _)
    | with_reducible apply Only.via (Q := [.att, .tenantBox, .operBox]) (refuse_only _ _ _)
    | with_reducible apply Only.via (Q := [.dies, .head, .ks, .vault, .ingest, .mower, .att, .tenantBox, .operBox, .fq, .mir]) (tearDown_only _ _ _ _ _ _)

theorem execReaderGrantRevoke_only (sess : Nat) (tag : BitVec 32) (body : Bytes) (s : State) : ∃ t, execReaderGrantRevoke sess tag body s = .next t ∧ Only [.dies, .head, .ks, .vault, .ingest, .mower, .att, .tenantBox, .operBox, .fq, .mir] s t := by
  refine ⟨_, rfl, ?_⟩
  try dsimp only
  repeat' first
    | with_reducible exact Only.refl _ _
    | with_reducible assumption
    | exact (rfl : (_ : Bool) = true)
    | exact fun _ => rfl
    | intro _
    | split
    | with_reducible apply Only.via (Q := [.dies, .head, .ks, .vault, .ingest, .mower, .att, .tenantBox, .operBox, .fq, .mir]) (decideGrantRevoke_only _ _ _)
    | with_reducible apply Only.via (Q := []) (done_only _)
    | with_reducible apply Only.inOrder
    | with_reducible apply Only.onMessage
    | with_reducible apply Only.onlyIf
    | with_reducible apply Only.via (Q := [.dies, .head, .ks, .vault, .mower, .att, .tenantBox, .operBox, .fq, .mir]) (settle_only _)
    | with_reducible apply Only.whenUp

end Sys2Proof.Machine
end

