-- ==== Sys2Proof/Laws/OnlyMeasure.lean ====
section
/-!
SUPPORT. The parts of State that the operations of Machine/Measure.lean may change.
-/

namespace Sys2Proof.Machine
open Sys2Proof

theorem acceptJob_only (w : Waiter) (b : Bytes) (lines : List Region) (s : State) : Only [.mower, .att, .tenantBox, .operBox] s (acceptJob w b lines s) := by
  unfold acceptJob
  try dsimp only
  repeat' first
    | with_reducible exact Only.refl _ _
    | with_reducible assumption
    | exact (rfl : (_ : Bool) = true)
    | exact fun _ => rfl
    | intro _
    | split
    | with_reducible apply Only.via (Q := [.att, .tenantBox, .operBox]) (refuse_only _ _ _)
    | with_reducible apply Only.via (Q := [.att, .tenantBox, .operBox]) (reply_only _ _ _)
    | with_reducible apply Only.via (Q := [.mower]) (Only.modMower _ _)

theorem decideMeasure_only (w : Waiter) (b : Bytes) (s : State) : Only [.freeCtr, .ks, .mower, .att, .tenantBox, .operBox, .dma] s (decideMeasure w b s) := by
  unfold decideMeasure
  try dsimp only
  repeat' first
    | with_reducible exact Only.refl _ _
    | with_reducible assumption
    | exact (rfl : (_ : Bool) = true)
    | exact fun _ => rfl
    | intro _
    | split
    | with_reducible apply Only.via (Q := [.mower, .att, .tenantBox, .operBox]) (acceptJob_only _ _ _ _)
    | with_reducible apply Only.via (Q := [.freeCtr, .ks, .dma]) (readRegions_only _ _ _ _ _)
    | with_reducible apply Only.via (Q := [.att, .tenantBox, .operBox]) (refuse_only _ _ _)

theorem execMeasureFull_only (sess : Nat) (tag : BitVec 32) (body : Bytes) (s : State) : ∃ t, execMeasureFull sess tag body s = .next t ∧ Only [.freeCtr, .ks, .mower, .att, .tenantBox, .operBox, .dma] s t := by
  refine ⟨_, rfl, ?_⟩
  try dsimp only
  repeat' first
    | with_reducible exact Only.refl _ _
    | with_reducible assumption
    | exact (rfl : (_ : Bool) = true)
    | exact fun _ => rfl
    | intro _
    | split
    | with_reducible apply Only.via (Q := [.freeCtr, .ks, .mower, .att, .tenantBox, .operBox, .dma]) (decideMeasure_only _ _ _)
    | with_reducible apply Only.via (Q := []) (done_only _)
    | with_reducible apply Only.inOrder
    | with_reducible apply Only.onMessage
    | with_reducible apply Only.onlyIf
    | with_reducible apply Only.whenUp

theorem execMeasurePartial_only (sess : Nat) (tag : BitVec 32) (body : Bytes) (s : State) : ∃ t, execMeasurePartial sess tag body s = .next t ∧ Only [.freeCtr, .ks, .mower, .att, .tenantBox, .operBox, .dma] s t := by
  refine ⟨_, rfl, ?_⟩
  try dsimp only
  repeat' first
    | with_reducible exact Only.refl _ _
    | with_reducible assumption
    | exact (rfl : (_ : Bool) = true)
    | exact fun _ => rfl
    | intro _
    | split
    | with_reducible apply Only.via (Q := [.freeCtr, .ks, .mower, .att, .tenantBox, .operBox, .dma]) (decideMeasure_only _ _ _)
    | with_reducible apply Only.via (Q := []) (done_only _)
    | with_reducible apply Only.inOrder
    | with_reducible apply Only.onMessage
    | with_reducible apply Only.onlyIf
    | with_reducible apply Only.whenUp

theorem execMeasureIncremental_only (sess : Nat) (tag : BitVec 32) (body : Bytes) (s : State) : ∃ t, execMeasureIncremental sess tag body s = .next t ∧ Only [.freeCtr, .ks, .mower, .att, .tenantBox, .operBox, .dma] s t := by
  refine ⟨_, rfl, ?_⟩
  try dsimp only
  repeat' first
    | with_reducible exact Only.refl _ _
    | with_reducible assumption
    | exact (rfl : (_ : Bool) = true)
    | exact fun _ => rfl
    | intro _
    | split
    | with_reducible apply Only.via (Q := [.freeCtr, .ks, .mower, .att, .tenantBox, .operBox, .dma]) (decideMeasure_only _ _ _)
    | with_reducible apply Only.via (Q := []) (done_only _)
    | with_reducible apply Only.inOrder
    | with_reducible apply Only.onMessage
    | with_reducible apply Only.onlyIf
    | with_reducible apply Only.whenUp

theorem decideKeptRelease_only (w : Waiter) (body : Bytes) (s : State) : Only [.mower, .att, .tenantBox, .operBox] s (decideKeptRelease w body s) := by
  unfold decideKeptRelease
  try dsimp only
  repeat' first
    | with_reducible exact Only.refl _ _
    | with_reducible assumption
    | exact (rfl : (_ : Bool) = true)
    | exact fun _ => rfl
    | intro _
    | split
    | with_reducible apply Only.via (Q := [.mower]) (dropKept_only _ _)
    | with_reducible apply Only.via (Q := [.att, .tenantBox, .operBox]) (refuse_only _ _ _)
    | with_reducible apply Only.via (Q := [.att, .tenantBox, .operBox]) (reply_only _ _ _)

theorem execKeptRelease_only (sess : Nat) (tag : BitVec 32) (body : Bytes) (s : State) : ∃ t, execKeptRelease sess tag body s = .next t ∧ Only [.ks, .mower, .att, .tenantBox, .operBox] s t := by
  refine ⟨_, rfl, ?_⟩
  try dsimp only
  repeat' first
    | with_reducible exact Only.refl _ _
    | with_reducible assumption
    | exact (rfl : (_ : Bool) = true)
    | exact fun _ => rfl
    | intro _
    | split
    | with_reducible apply Only.via (Q := [.mower, .att, .tenantBox, .operBox]) (decideKeptRelease_only _ _ _)
    | with_reducible apply Only.via (Q := []) (done_only _)
    | with_reducible apply Only.inOrder
    | with_reducible apply Only.onMessage
    | with_reducible apply Only.whenUp

end Sys2Proof.Machine
end

