-- ==== Sys2Proof/Laws/OnlyRegions.lean ====
section
/-!
SUPPORT. The parts of State that the operations of Machine/Regions.lean may change.
-/

namespace Sys2Proof.Machine
open Sys2Proof

theorem decideHeld_only (h : HeldMsg) (s : State) : Only [.freeCtr, .guards, .dies, .head, .ks, .vault, .pk, .ingest, .mower, .att, .tenantBox, .operBox, .fq, .mir, .dma, .ports] s (decideHeld h s) := by
  have key : ∀ (c : Prop) [Decidable c] (f g : Waiter → Bytes → State → State),
      (∀ w b u, Only [.freeCtr, .guards, .dies, .head, .ks, .vault, .pk, .ingest, .mower, .att, .tenantBox, .operBox, .fq, .mir, .dma, .ports] s u → Only [.freeCtr, .guards, .dies, .head, .ks, .vault, .pk, .ingest, .mower, .att, .tenantBox, .operBox, .fq, .mir, .dma, .ports] s (f w b u)) →
      (∀ w b u, Only [.freeCtr, .guards, .dies, .head, .ks, .vault, .pk, .ingest, .mower, .att, .tenantBox, .operBox, .fq, .mir, .dma, .ports] s u → Only [.freeCtr, .guards, .dies, .head, .ks, .vault, .pk, .ingest, .mower, .att, .tenantBox, .operBox, .fq, .mir, .dma, .ports] s (g w b u)) →
      ∀ w b u, Only [.freeCtr, .guards, .dies, .head, .ks, .vault, .pk, .ingest, .mower, .att, .tenantBox, .operBox, .fq, .mir, .dma, .ports] s u → Only [.freeCtr, .guards, .dies, .head, .ks, .vault, .pk, .ingest, .mower, .att, .tenantBox, .operBox, .fq, .mir, .dma, .ports] s ((if c then f else g) w b u) := by
    intro c _ f g hf hg w b u hu
    by_cases hc : c
    · rw [if_pos hc]; exact hf w b u hu
    · rw [if_neg hc]; exact hg w b u hu
  by_cases h0 : (s.sess h.sess).isNone = true
  · unfold decideHeld
    rw [if_pos h0]
    exact Only.refl _ _
  · unfold decideHeld
    rw [if_neg h0]
    clear h0
    generalize h.body = b, h.msg = m
    refine (key _ _ _ ?_ ?_) _ _ _ (Only.refl _ _)
    rotate_left
    refine key _ _ _ ?_ ?_
    rotate_left
    refine key _ _ _ ?_ ?_
    rotate_left
    refine key _ _ _ ?_ ?_
    rotate_left
    refine key _ _ _ ?_ ?_
    rotate_left
    refine key _ _ _ ?_ ?_
    rotate_left
    refine key _ _ _ ?_ ?_
    rotate_left
    refine key _ _ _ ?_ ?_
    rotate_left
    refine key _ _ _ ?_ ?_
    rotate_left
    refine key _ _ _ (key _ _ _ ?_ (key _ _ _ ?_ ?_)) ?_
    rotate_left 3
    refine key _ _ _ ?_ ?_
    rotate_left
    refine key _ _ _ ?_ ?_
    rotate_left
    refine key _ _ _ ?_ ?_
    rotate_left
    refine key _ _ _ ?_ ?_
    rotate_left
    refine key _ _ _ ?_ ?_
    rotate_left
    refine key _ _ _ ?_ ?_
    rotate_left
    refine key _ _ _ ?_ (fun _ _ _ hu => hu)
    all_goals intro w b u hu
    all_goals first
      | (with_reducible apply Only.via (decideLinkAssign_only _ _ _)) <;> first | rfl | exact hu
      | (with_reducible apply Only.via (decidePin_only _ _ _)) <;> first | rfl | exact hu
      | (with_reducible apply Only.via (decideQuote_only _ _ _)) <;> first | rfl | exact hu
      | (with_reducible apply Only.via (decideSeed_only _ _ _)) <;> first | rfl | exact hu
      | (with_reducible apply Only.via (decideConfirm_only _ _ _)) <;> first | rfl | exact hu
      | (with_reducible apply Only.via (decideTenantUnbind_only _ _ _)) <;> first | rfl | exact hu
      | (with_reducible apply Only.via (decideTenantTeardown_only _ _ _)) <;> first | rfl | exact hu
      | (with_reducible apply Only.via (decideLinkKey_only _ _ _)) <;> first | rfl | exact hu
      | (with_reducible apply Only.via (decideMeasure_only _ _ _)) <;> first | rfl | exact hu
      | (with_reducible apply Only.via (decideKeptRelease_only _ _ _)) <;> first | rfl | exact hu
      | (with_reducible apply Only.via (decideBundle_only _ _ _)) <;> first | rfl | exact hu
      | (with_reducible apply Only.via (decideGrantRemove_only _ _ _)) <;> first | rfl | exact hu
      | (with_reducible apply Only.via (decideGrantRevoke_only _ _ _)) <;> first | rfl | exact hu
      | (with_reducible apply Only.via (decideGrantAdd_only _ _ _)) <;> first | rfl | exact hu
      | (with_reducible apply Only.via (decideCreate_only _ _ _)) <;> first | rfl | exact hu
      | (with_reducible apply Only.via (decideOperTeardown_only _ _ _)) <;> first | rfl | exact hu
      | (with_reducible apply Only.via (decidePropose_only _ _ _)) <;> first | rfl | exact hu
      | (with_reducible apply Only.via (decideRegionList_only _ _ _)) <;> first | rfl | exact hu
      | (with_reducible apply Only.via (decideIngestStart_only _ _ _)) <;> first | rfl | exact hu

theorem flushWaiting_only (n : Nat) (s : State) : Only [.freeCtr, .guards, .dies, .head, .ks, .vault, .pk, .ingest, .mower, .att, .tenantBox, .operBox, .fq, .mir, .dma, .ports] s (flushWaiting n s) := by
  induction n generalizing s with
  | zero => exact Only.refl _ _
  | succ n ih =>
    unfold flushWaiting
    split
    · exact Only.refl _ _
    · exact Only.trans (Only.via (decideHeld_only _ _) rfl (Only.via (Only.modKs _ _) rfl (Only.refl _ _))) (ih _)

theorem finishIngestStart_only (w : Waiter) (m : Nat) (stage place : List Region) (s : State) : Only [.ks, .ingest, .att, .tenantBox, .operBox] s (finishIngestStart w m stage place s) := by
  unfold finishIngestStart
  try dsimp only
  repeat' first
    | with_reducible exact Only.refl _ _
    | with_reducible assumption
    | exact (rfl : (_ : Bool) = true)
    | exact fun _ => rfl
    | intro _
    | split
    | with_reducible apply Only.via (Q := [.ks]) (modModel_only _ _ _)
    | with_reducible apply Only.via (Q := [.att, .tenantBox, .operBox]) (refuse_only _ _ _)
    | with_reducible apply Only.via (Q := [.att, .tenantBox, .operBox]) (reply_only _ _ _)
    | with_reducible apply Only.via (Q := [.ingest]) (Only.modIngest _ _)

theorem startRekey_only (w : Waiter) (d addr count : Nat) (rs : List Region) (s : State) : Only [.dies, .head, .ks, .att, .tenantBox, .operBox, .fq, .mir] s (startRekey w d addr count rs s) := by
  unfold startRekey
  try dsimp only
  repeat' first
    | with_reducible exact Only.refl _ _
    | with_reducible assumption
    | exact (rfl : (_ : Bool) = true)
    | exact fun _ => rfl
    | intro _
    | split
    | with_reducible apply Only.via (Q := [.ks]) (addDescs_only _ _ _ _)
    | with_reducible apply Only.via (Q := [.dies, .head, .ks, .att, .tenantBox, .operBox, .fq, .mir]) (commitDom_only _ _ _ _)
    | with_reducible apply Only.via (Q := [.ks]) (modDom_only _ _ _)
    | with_reducible apply Only.via (Q := [.att, .tenantBox, .operBox]) (refuse_only _ _ _)
    | with_reducible apply Only.via (Q := [.dies, .head, .ks, .att, .tenantBox, .operBox, .fq, .mir]) (rekeyEnded_only _ _)

theorem resumeSweep_only (d : Nat) (rs : List Region) (s : State) : Only [.dies, .head, .ks, .att, .tenantBox, .operBox, .fq, .mir] s (resumeSweep d rs s) := by
  unfold resumeSweep
  try dsimp only
  repeat' first
    | with_reducible exact Only.refl _ _
    | with_reducible assumption
    | exact (rfl : (_ : Bool) = true)
    | exact fun _ => rfl
    | intro _
    | split
    | with_reducible apply Only.via (Q := [.ks]) (addDescs_only _ _ _ _)
    | with_reducible apply Only.via (Q := [.ks]) (modDom_only _ _ _)
    | with_reducible apply Only.via (Q := [.dies, .head, .ks, .att, .tenantBox, .operBox, .fq, .mir]) (rekeyEnded_only _ _)
    | with_reducible apply Only.via (Q := [.dies, .head, .ks, .att, .tenantBox, .operBox, .fq, .mir]) (sweepEnded_only _ _)

theorem listRead_only (p : RPurpose) (rs : List Region) (s : State) : Only [.freeCtr, .dies, .head, .ks, .vault, .ingest, .mower, .att, .tenantBox, .operBox, .fq, .mir, .dma] s (listRead p rs s) := by
  unfold listRead
  try dsimp only
  repeat' first
    | with_reducible exact Only.refl _ _
    | with_reducible assumption
    | exact (rfl : (_ : Bool) = true)
    | exact fun _ => rfl
    | intro _
    | split
    | with_reducible apply Only.via (Q := [.mower, .att, .tenantBox, .operBox]) (acceptJob_only _ _ _ _)
    | with_reducible apply Only.via (Q := [.ks, .ingest, .att, .tenantBox, .operBox]) (finishIngestStart_only _ _ _ _ _)
    | with_reducible apply Only.via (Q := [.freeCtr, .ks, .dma]) (readRegions_only _ _ _ _ _)
    | with_reducible apply Only.via (Q := [.att, .tenantBox, .operBox]) (refuse_only _ _ _)
    | with_reducible apply Only.via (Q := [.dies, .head, .ks, .att, .tenantBox, .operBox, .fq, .mir]) (resumeSweep_only _ _ _)
    | with_reducible apply Only.via (Q := [.dies, .head, .ks, .att, .tenantBox, .operBox, .fq, .mir]) (startRekey_only _ _ _ _ _ _)
    | with_reducible apply Only.via (Q := [.dies, .head, .ks, .vault, .ingest, .mower, .att, .tenantBox, .operBox, .fq, .mir]) (tearDown_only _ _ _ _ _ _)

theorem Only.endRegionRead {ps : List Part} {b s : State} {r : RegionRead} {k : State → State} (h : Only ps b s)
    (hp : ([.freeCtr, .guards, .dies, .head, .ks, .vault, .pk, .ingest, .mower, .att, .tenantBox, .operBox, .fq, .mir, .dma, .ports] : List Part).all (fun p => ps.contains p) = true) (hk : ∀ u, Only ps b u → Only ps b (k u)) :
    Only ps b (endRegionRead r k s) := by
  unfold Machine.endRegionRead
  dsimp only
  refine Only.via (settle_only _) (Only.sub rfl hp) (Only.via (flushWaiting_only _ _) (Only.sub rfl hp) (hk _ ?_))
  exact Only.via (modDom_only _ _ _) (Only.sub rfl hp) (Only.via (dmaEnd_only _ _) (Only.sub rfl hp) (Only.via (Only.modKs _ _) (Only.sub rfl hp) h))

theorem refuseRegionRead_only (r : RegionRead) (code : BitVec 8) (s : State) : Only [.freeCtr, .guards, .dies, .head, .ks, .vault, .pk, .ingest, .mower, .att, .tenantBox, .operBox, .fq, .mir, .dma, .ports] s (refuseRegionRead r code s) := by
  unfold refuseRegionRead
  try dsimp only
  repeat' first
    | with_reducible exact Only.refl _ _
    | with_reducible assumption
    | exact (rfl : (_ : Bool) = true)
    | exact fun _ => rfl
    | intro _
    | split
    | with_reducible apply Only.endRegionRead
    | with_reducible apply Only.via (Q := [.att, .tenantBox, .operBox]) (refuse_only _ _ _)
    | dsimp only [id]

end Sys2Proof.Machine
end

