-- ==== Sys2Proof/Laws/OnlySpdm.lean ====
section
/-!
SUPPORT. The parts of State that the operations of Machine/Spdm.lean may change.
-/

namespace Sys2Proof.Machine
open Sys2Proof

theorem aliasEcSign_only (msg : Bytes) (s : State) : Only [.freeCtr, .pk, .ent] s (aliasEcSign msg s).2 := by
  unfold aliasEcSign
  try dsimp only
  repeat' first
    | with_reducible exact Only.refl _ _
    | with_reducible assumption
    | exact (rfl : (_ : Bool) = true)
    | exact fun _ => rfl
    | intro _
    | split
    | with_reducible apply Only.via (Q := [.freeCtr, .pk, .ent]) (pkNow_only _ _ _ _ _)
    | with_reducible refine Only.ofPair (by assumption) ?_
    | with_reducible refine Only.ofTriple (by assumption) ?_

theorem spdmReply_only (operator : Bool) (sess : Option Nat) (r : SpdmRsp) (s : State) : Only [.att, .tenantBox, .operBox] s (spdmReply operator sess r s) := by
  unfold spdmReply
  try dsimp only
  repeat' first
    | with_reducible exact Only.refl _ _
    | with_reducible assumption
    | exact (rfl : (_ : Bool) = true)
    | exact fun _ => rfl
    | intro _
    | split
    | with_reducible apply Only.via (Q := [.att, .tenantBox, .operBox]) (sendOut_only _ _ _ _)

theorem spdmKept_only (f : Bytes → Conn → Conn) (operator : Bool) (sess : Option Nat) (req : Bytes) (r : SpdmRsp) (s : State) : Only [.att, .tenantBox, .operBox] s (spdmKept f operator sess req r s) := by
  unfold spdmKept
  try dsimp only
  repeat' first
    | with_reducible exact Only.refl _ _
    | with_reducible assumption
    | exact (rfl : (_ : Bool) = true)
    | exact fun _ => rfl
    | intro _
    | split
    | with_reducible apply Only.via (Q := [.att]) (modConn_only _ _ _ _)
    | with_reducible apply Only.via (Q := [.att, .tenantBox, .operBox]) (spdmReply_only _ _ _ _)

theorem Only.onSpdm {ps : List Part} {b s : State} {code : Nat} {place : Place} {operator : Bool} {sess : Option Nat} {req : Bytes}
    {k : State → State} (h : Only ps b s) (hp : ([.att, .tenantBox, .operBox] : List Part).all (fun p => ps.contains p) = true)
    (hk : ∀ u, Only ps b u → Only ps b (k u)) : Only ps b (onSpdm code place operator sess req k s) := by
  have ha : ∀ id, Only ps b (hear id s) := fun id => Only.via (hear_only _ _) (Only.sub rfl hp) h
  have he : ∀ c u, Only ps b u → Only ps b (spdmReply operator sess (.error c) u) := fun c u hu =>
    Only.via (spdmReply_only _ _ _ _) (Only.sub rfl hp) hu
  have hr : ∀ u, Only ps b u → Only ps b (k (modConn operator sess (Conn.onCode code) u)) := fun u hu =>
    hk _ (Only.via (modConn_only _ _ _ _) (Only.sub rfl hp) hu)
  unfold Machine.onSpdm
  dsimp only
  repeat' first
    | with_reducible exact h
    | with_reducible exact he _ _ h
    | with_reducible exact he _ _ (ha _)
    | with_reducible exact Only.via (sayBusy_only _ _ _) (Only.sub rfl hp) (ha _)
    | with_reducible exact hr _ h
    | with_reducible exact hr _ (ha _)
    | split

theorem execGetVersion_only (operator : Bool) (sess : Option Nat) (req : Bytes) (s : State) : ∃ t, execGetVersion operator sess req s = .next t ∧ Only [.att, .tenantBox, .operBox] s t := by
  refine ⟨_, rfl, ?_⟩
  try dsimp only
  repeat' first
    | with_reducible exact Only.refl _ _
    | with_reducible assumption
    | exact (rfl : (_ : Bool) = true)
    | exact fun _ => rfl
    | intro _
    | split
    | with_reducible apply Only.via (Q := []) (done_only _)
    | with_reducible apply Only.via (Q := [.att]) (modConn_only _ _ _ _)
    | with_reducible apply Only.onSpdm
    | with_reducible apply Only.via (Q := [.att, .tenantBox, .operBox]) (spdmKept_only _ _ _ _ _ _)
    | with_reducible apply Only.whenUp

theorem execGetCapabilities_only (operator : Bool) (sess : Option Nat) (req : Bytes) (s : State) : ∃ t, execGetCapabilities operator sess req s = .next t ∧ Only [.att, .tenantBox, .operBox] s t := by
  refine ⟨_, rfl, ?_⟩
  try dsimp only
  repeat' first
    | with_reducible exact Only.refl _ _
    | with_reducible assumption
    | exact (rfl : (_ : Bool) = true)
    | exact fun _ => rfl
    | intro _
    | split
    | with_reducible apply Only.via (Q := []) (done_only _)
    | with_reducible apply Only.via (Q := [.att]) (modConn_only _ _ _ _)
    | with_reducible apply Only.onSpdm
    | with_reducible apply Only.via (Q := [.att, .tenantBox, .operBox]) (spdmKept_only _ _ _ _ _ _)
    | with_reducible apply Only.whenUp

theorem execNegotiateAlgorithms_only (operator : Bool) (sess : Option Nat) (req : Bytes) (s : State) : ∃ t, execNegotiateAlgorithms operator sess req s = .next t ∧ Only [.att, .tenantBox, .operBox] s t := by
  refine ⟨_, rfl, ?_⟩
  try dsimp only
  repeat' first
    | with_reducible exact Only.refl _ _
    | with_reducible assumption
    | exact (rfl : (_ : Bool) = true)
    | exact fun _ => rfl
    | intro _
    | split
    | with_reducible apply Only.via (Q := []) (done_only _)
    | with_reducible apply Only.onSpdm
    | with_reducible apply Only.via (Q := [.att, .tenantBox, .operBox]) (spdmKept_only _ _ _ _ _ _)
    | with_reducible apply Only.via (Q := [.att, .tenantBox, .operBox]) (spdmReply_only _ _ _ _)
    | with_reducible apply Only.whenUp

theorem execGetDigests_only (operator : Bool) (sess : Option Nat) (req : Bytes) (s : State) : ∃ t, execGetDigests operator sess req s = .next t ∧ Only [.att, .tenantBox, .operBox] s t := by
  refine ⟨_, rfl, ?_⟩
  try dsimp only
  repeat' first
    | with_reducible exact Only.refl _ _
    | with_reducible assumption
    | exact (rfl : (_ : Bool) = true)
    | exact fun _ => rfl
    | intro _
    | split
    | with_reducible apply Only.via (Q := []) (done_only _)
    | with_reducible apply Only.onSpdm
    | with_reducible apply Only.via (Q := [.att, .tenantBox, .operBox]) (spdmKept_only _ _ _ _ _ _)
    | with_reducible apply Only.whenUp

theorem execGetCertificate_only (operator : Bool) (sess : Option Nat) (req : Bytes) (s : State) : ∃ t, execGetCertificate operator sess req s = .next t ∧ Only [.att, .tenantBox, .operBox] s t := by
  refine ⟨_, rfl, ?_⟩
  try dsimp only
  repeat' first
    | with_reducible exact Only.refl _ _
    | with_reducible assumption
    | exact (rfl : (_ : Bool) = true)
    | exact fun _ => rfl
    | intro _
    | split
    | with_reducible apply Only.via (Q := []) (done_only _)
    | with_reducible apply Only.onSpdm
    | with_reducible apply Only.via (Q := [.att, .tenantBox, .operBox]) (spdmKept_only _ _ _ _ _ _)
    | with_reducible apply Only.via (Q := [.att, .tenantBox, .operBox]) (spdmReply_only _ _ _ _)
    | with_reducible apply Only.whenUp

theorem execChallenge_only (operator : Bool) (sess : Option Nat) (req : Bytes) (s : State) : ∃ t, execChallenge operator sess req s = .next t ∧ Only [.freeCtr, .pk, .ent, .att, .tenantBox, .operBox] s t := by
  refine ⟨_, rfl, ?_⟩
  try dsimp only
  repeat' first
    | with_reducible exact Only.refl _ _
    | with_reducible assumption
    | exact (rfl : (_ : Bool) = true)
    | exact fun _ => rfl
    | intro _
    | split
    | with_reducible apply Only.via (Q := [.freeCtr, .pk, .ent]) (aliasEcSign_only _ _)
    | with_reducible apply Only.via (Q := []) (done_only _)
    | with_reducible apply Only.via (Q := [.ent]) (drawBytes_only _ _)
    | with_reducible apply Only.via (Q := [.att]) (modConn_only _ _ _ _)
    | with_reducible apply Only.onSpdm
    | with_reducible apply Only.via (Q := [.att, .tenantBox, .operBox]) (spdmReply_only _ _ _ _)
    | with_reducible apply Only.whenUp
    | with_reducible refine Only.ofPair (by assumption) ?_
    | with_reducible refine Only.ofTriple (by assumption) ?_

theorem execGetMeasurements_only (operator : Bool) (sess : Option Nat) (req : Bytes) (s : State) : ∃ t, execGetMeasurements operator sess req s = .next t ∧ Only [.freeCtr, .pk, .ent, .att, .tenantBox, .operBox] s t := by
  refine ⟨_, rfl, ?_⟩
  try dsimp only
  repeat' first
    | with_reducible exact Only.refl _ _
    | with_reducible assumption
    | exact (rfl : (_ : Bool) = true)
    | exact fun _ => rfl
    | intro _
    | split
    | with_reducible apply Only.via (Q := [.freeCtr, .pk, .ent]) (aliasEcSign_only _ _)
    | with_reducible apply Only.via (Q := []) (done_only _)
    | with_reducible apply Only.via (Q := [.ent]) (drawBytes_only _ _)
    | with_reducible apply Only.via (Q := [.att]) (modConn_only _ _ _ _)
    | with_reducible apply Only.onSpdm
    | with_reducible apply Only.via (Q := [.att, .tenantBox, .operBox]) (spdmKept_only _ _ _ _ _ _)
    | with_reducible apply Only.via (Q := [.att, .tenantBox, .operBox]) (spdmReply_only _ _ _ _)
    | with_reducible apply Only.whenUp
    | with_reducible refine Only.ofPair (by assumption) ?_
    | with_reducible refine Only.ofTriple (by assumption) ?_

theorem execChunkSend_only (operator : Bool) (sess : Option Nat) (req : Bytes) (s : State) : ∃ t, execChunkSend operator sess req s = .next t ∧ Only [.att, .tenantBox, .operBox] s t := by
  refine ⟨_, rfl, ?_⟩
  try dsimp only
  repeat' first
    | with_reducible exact Only.refl _ _
    | with_reducible assumption
    | exact (rfl : (_ : Bool) = true)
    | exact fun _ => rfl
    | intro _
    | split
    | with_reducible apply Only.via (Q := []) (done_only _)
    | with_reducible apply Only.via (Q := [.tenantBox, .operBox]) (modBox_only _ _ _)
    | with_reducible apply Only.via (Q := [.att]) (modConn_only _ _ _ _)
    | with_reducible apply Only.onSpdm
    | with_reducible apply Only.via (Q := [.att, .tenantBox, .operBox]) (spdmReply_only _ _ _ _)
    | with_reducible apply Only.whenUp

theorem execChunkGet_only (operator : Bool) (sess : Option Nat) (req : Bytes) (s : State) : ∃ t, execChunkGet operator sess req s = .next t ∧ Only [.att, .tenantBox, .operBox] s t := by
  refine ⟨_, rfl, ?_⟩
  try dsimp only
  repeat' first
    | with_reducible exact Only.refl _ _
    | with_reducible assumption
    | exact (rfl : (_ : Bool) = true)
    | exact fun _ => rfl
    | intro _
    | split
    | with_reducible apply Only.via (Q := []) (done_only _)
    | with_reducible apply Only.via (Q := [.att]) (modConn_only _ _ _ _)
    | with_reducible apply Only.onSpdm
    | with_reducible apply Only.via (Q := [.att, .tenantBox, .operBox]) (spdmReply_only _ _ _ _)
    | with_reducible apply Only.whenUp

theorem execSpdmHeartbeat_only (sess : Nat) (req : Bytes) (s : State) : ∃ t, execSpdmHeartbeat sess req s = .next t ∧ Only [.att, .tenantBox, .operBox] s t := by
  refine ⟨_, rfl, ?_⟩
  try dsimp only
  repeat' first
    | with_reducible exact Only.refl _ _
    | with_reducible assumption
    | exact (rfl : (_ : Bool) = true)
    | exact fun _ => rfl
    | intro _
    | split
    | with_reducible apply Only.via (Q := []) (done_only _)
    | with_reducible apply Only.onSpdm
    | with_reducible apply Only.via (Q := [.att, .tenantBox, .operBox]) (spdmReply_only _ _ _ _)
    | with_reducible apply Only.whenUp

theorem execKeyUpdate_only (sess : Nat) (req : Bytes) (s : State) : ∃ t, execKeyUpdate sess req s = .next t ∧ Only [.att, .tenantBox, .operBox] s t := by
  refine ⟨_, rfl, ?_⟩
  try dsimp only
  repeat' first
    | with_reducible exact Only.refl _ _
    | with_reducible assumption
    | exact (rfl : (_ : Bool) = true)
    | exact fun _ => rfl
    | intro _
    | split
    | with_reducible apply Only.via (Q := []) (done_only _)
    | with_reducible apply Only.via (Q := [.att]) (modSess_only _ _ _)
    | with_reducible apply Only.onSpdm
    | with_reducible apply Only.via (Q := [.att, .tenantBox, .operBox]) (spdmReply_only _ _ _ _)
    | with_reducible apply Only.whenUp

theorem endSess_only (id : Nat) (s : State) : Only [.att] s (endSess id s) := by
  unfold endSess
  try dsimp only
  repeat' first
    | with_reducible exact Only.refl _ _
    | with_reducible assumption
    | exact (rfl : (_ : Bool) = true)
    | exact fun _ => rfl
    | intro _
    | split
    | with_reducible apply Only.via (Q := [.att]) (Only.modAtt _ _)
    | dsimp only [id]

theorem execEndSession_only (sess : Nat) (req : Bytes) (s : State) : ∃ t, execEndSession sess req s = .next t ∧ Only [.att, .tenantBox, .operBox] s t := by
  refine ⟨_, rfl, ?_⟩
  try dsimp only
  repeat' first
    | with_reducible exact Only.refl _ _
    | with_reducible assumption
    | exact (rfl : (_ : Bool) = true)
    | exact fun _ => rfl
    | intro _
    | split
    | with_reducible apply Only.via (Q := []) (done_only _)
    | with_reducible apply Only.via (Q := [.att]) (endSess_only _ _)
    | with_reducible apply Only.onSpdm
    | with_reducible apply Only.via (Q := [.att, .tenantBox, .operBox]) (spdmReply_only _ _ _ _)
    | with_reducible apply Only.whenUp

theorem unsupported_only (operator : Bool) (sess : Option Nat) (req : Bytes) (s : State) : Only [.att, .tenantBox, .operBox] s (unsupported operator sess req s) := by
  unfold unsupported
  try dsimp only
  repeat' first
    | with_reducible exact Only.refl _ _
    | with_reducible assumption
    | exact (rfl : (_ : Bool) = true)
    | exact fun _ => rfl
    | intro _
    | split
    | with_reducible apply Only.onlyIf
    | with_reducible apply Only.via (Q := [.att, .tenantBox, .operBox]) (sendOut_only _ _ _ _)
    | with_reducible apply Only.via (Q := [.att, .tenantBox, .operBox]) (spdmReply_only _ _ _ _)

theorem execUnsupportedRequest_only (operator : Bool) (sess : Option Nat) (req : Bytes) (s : State) : ∃ t, execUnsupportedRequest operator sess req s = .next t ∧ Only [.att, .tenantBox, .operBox] s t := by
  refine ⟨_, rfl, ?_⟩
  try dsimp only
  repeat' first
    | with_reducible exact Only.refl _ _
    | with_reducible assumption
    | exact (rfl : (_ : Bool) = true)
    | exact fun _ => rfl
    | intro _
    | split
    | with_reducible apply Only.via (Q := []) (done_only _)
    | with_reducible apply Only.onSpdm
    | with_reducible apply Only.via (Q := [.att, .tenantBox, .operBox]) (unsupported_only _ _ _ _)
    | with_reducible apply Only.whenUp

end Sys2Proof.Machine
end

