-- ==== Sys2Proof/Laws/OnlySessions.lean ====
section
/-!
SUPPORT. The parts of State that the operations of Machine/Sessions.lean may change.
-/

namespace Sys2Proof.Machine
open Sys2Proof

theorem outVendor_only (operator : Bool) (msg : BitVec 16) (result : BitVec 8) (tag : BitVec 32) (body : Bytes) (s : State) : Only [.att, .tenantBox, .operBox] s (outVendor operator msg result tag body s) := by
  unfold outVendor
  try dsimp only
  repeat' first
    | with_reducible exact Only.refl _ _
    | with_reducible assumption
    | exact (rfl : (_ : Bool) = true)
    | exact fun _ => rfl
    | intro _
    | split
    | with_reducible apply Only.via (Q := [.att, .tenantBox, .operBox]) (sendOut_only _ _ _ _)

theorem execKexKeys_only (operator : Bool) (tag : BitVec 32) (body : Bytes) (s : State) : ∃ t, execKexKeys operator tag body s = .next t ∧ Only [.freeCtr, .vault, .slots, .pk, .dig, .ent, .att, .tenantBox, .operBox, .dma] s t := by
  refine ⟨_, rfl, ?_⟩
  try dsimp only
  repeat' first
    | with_reducible exact Only.refl _ _
    | with_reducible assumption
    | exact (rfl : (_ : Bool) = true)
    | exact fun _ => rfl
    | intro _
    | split
    | with_reducible apply Only.via (Q := []) (done_only _)
    | with_reducible apply Only.via (Q := [.freeCtr, .vault, .slots, .pk, .dig, .ent, .att, .dma]) (kexSetup_only _)
    | with_reducible apply Only.onlyIf
    | with_reducible apply Only.via (Q := [.att, .tenantBox, .operBox]) (outVendor_only _ _ _ _ _ _)
    | with_reducible apply Only.whenUp

theorem kexExchange_only (operator : Bool) (tag : BitVec 32) (body : Bytes) (s : State) : Only [.freeCtr, .pk, .ent] s (kexExchange operator tag body s).2 := by
  unfold kexExchange
  try dsimp only
  repeat' first
    | with_reducible exact Only.refl _ _
    | with_reducible assumption
    | exact (rfl : (_ : Bool) = true)
    | exact fun _ => rfl
    | intro _
    | split
    | with_reducible apply Only.via (Q := [.ent]) (drawBytes_only _ _)
    | with_reducible apply Only.via (Q := [.freeCtr, .pk, .ent]) (pkNow_only _ _ _ _ _)
    | with_reducible refine Only.ofPair (by assumption) ?_
    | with_reducible refine Only.ofTriple (by assumption) ?_
    | dsimp only [id]

theorem execHybKex_only (operator : Bool) (tag : BitVec 32) (body : Bytes) (s : State) : ∃ t, execHybKex operator tag body s = .next t ∧ Only [.freeCtr, .vault, .slots, .pk, .dig, .ent, .att, .tenantBox, .operBox, .dma] s t := by
  refine ⟨_, rfl, ?_⟩
  try dsimp only
  repeat' first
    | with_reducible exact Only.refl _ _
    | with_reducible assumption
    | exact (rfl : (_ : Bool) = true)
    | exact fun _ => rfl
    | intro _
    | split
    | with_reducible apply Only.via (Q := []) (done_only _)
    | with_reducible apply Only.via (Q := [.freeCtr, .pk, .ent]) (kexExchange_only _ _ _ _)
    | with_reducible apply Only.via (Q := [.freeCtr, .vault, .slots, .pk, .dig, .ent, .att, .dma]) (kexSetup_only _)
    | with_reducible apply Only.onlyIf
    | with_reducible apply Only.via (Q := [.att, .tenantBox, .operBox]) (outVendor_only _ _ _ _ _ _)
    | with_reducible apply Only.via (Q := [.att, .tenantBox, .operBox]) (spdmReply_only _ _ _ _)
    | with_reducible apply Only.whenUp
    | with_reducible apply Only.via (Q := [.att]) (Only.modAtt _ _)
    | with_reducible refine Only.ofPair (by assumption) ?_
    | with_reducible refine Only.ofTriple (by assumption) ?_
    | dsimp only [id]

theorem execHybFinish_only (sess : Nat) (tag : BitVec 32) (body : Bytes) (s : State) : ∃ t, execHybFinish sess tag body s = .next t ∧ Only [.att, .tenantBox, .operBox] s t := by
  refine ⟨_, rfl, ?_⟩
  try dsimp only
  repeat' first
    | with_reducible exact Only.refl _ _
    | with_reducible assumption
    | exact (rfl : (_ : Bool) = true)
    | exact fun _ => rfl
    | intro _
    | split
    | with_reducible apply Only.via (Q := [.att]) (countAuthFail_only _)
    | with_reducible apply Only.via (Q := []) (done_only _)
    | with_reducible apply Only.via (Q := [.att]) (endSess_only _ _)
    | with_reducible apply Only.via (Q := [.att]) (hear_only _ _)
    | with_reducible apply Only.via (Q := [.att]) (modSess_only _ _ _)
    | with_reducible apply Only.via (Q := [.att, .tenantBox, .operBox]) (refuse_only _ _ _)
    | with_reducible apply Only.via (Q := [.att, .tenantBox, .operBox]) (reply_only _ _ _)
    | with_reducible apply Only.via (Q := [.att, .tenantBox, .operBox]) (sayBusy_only _ _ _)
    | with_reducible apply Only.whenUp

theorem execCredProve_only (sess : Nat) (tag : BitVec 32) (body : Bytes) (s : State) : ∃ t, execCredProve sess tag body s = .next t ∧ Only [.att, .tenantBox, .operBox] s t := by
  refine ⟨_, rfl, ?_⟩
  try dsimp only
  repeat' first
    | with_reducible exact Only.refl _ _
    | with_reducible assumption
    | exact (rfl : (_ : Bool) = true)
    | exact fun _ => rfl
    | intro _
    | split
    | with_reducible apply Only.via (Q := [.att]) (countAuthFail_only _)
    | with_reducible apply Only.via (Q := []) (done_only _)
    | with_reducible apply Only.via (Q := [.att]) (endSess_only _ _)
    | with_reducible apply Only.via (Q := [.att]) (modSess_only _ _ _)
    | with_reducible apply Only.onMessage
    | with_reducible apply Only.via (Q := [.att, .tenantBox, .operBox]) (refuse_only _ _ _)
    | with_reducible apply Only.via (Q := [.att, .tenantBox, .operBox]) (reply_only _ _ _)
    | with_reducible apply Only.whenUp
    | dsimp only [id]

theorem execEventPoll_only (sess : Nat) (tag : BitVec 32) (body : Bytes) (s : State) : ∃ t, execEventPoll sess tag body s = .next t ∧ Only [.att, .tenantBox, .operBox] s t := by
  refine ⟨_, rfl, ?_⟩
  try dsimp only
  repeat' first
    | with_reducible exact Only.refl _ _
    | with_reducible assumption
    | exact (rfl : (_ : Bool) = true)
    | exact fun _ => rfl
    | intro _
    | split
    | with_reducible apply Only.via (Q := []) (done_only _)
    | with_reducible apply Only.via (Q := [.att]) (modSess_only _ _ _)
    | with_reducible apply Only.onMessage
    | with_reducible apply Only.via (Q := [.att, .tenantBox, .operBox]) (reply_only _ _ _)
    | with_reducible apply Only.whenUp

theorem execQuote_only (sess : Nat) (tag : BitVec 32) (body : Bytes) (s : State) : ∃ t, execQuote sess tag body s = .next t ∧ Only [.freeCtr, .ks, .pk, .att, .tenantBox, .operBox, .mir] s t := by
  refine ⟨_, rfl, ?_⟩
  try dsimp only
  repeat' first
    | with_reducible exact Only.refl _ _
    | with_reducible assumption
    | exact (rfl : (_ : Bool) = true)
    | exact fun _ => rfl
    | intro _
    | split
    | with_reducible apply Only.via (Q := [.freeCtr, .pk, .att, .tenantBox, .operBox, .mir]) (decideQuote_only _ _ _)
    | with_reducible apply Only.via (Q := []) (done_only _)
    | with_reducible apply Only.inOrder
    | with_reducible apply Only.onMessage
    | with_reducible apply Only.whenUp

theorem execQuoteBlock_only (sess : Nat) (tag : BitVec 32) (body : Bytes) (s : State) : ∃ t, execQuoteBlock sess tag body s = .next t ∧ Only [.freeCtr, .pk, .att, .tenantBox, .operBox, .mir] s t := by
  refine ⟨_, rfl, ?_⟩
  try dsimp only
  repeat' first
    | with_reducible exact Only.refl _ _
    | with_reducible assumption
    | exact (rfl : (_ : Bool) = true)
    | exact fun _ => rfl
    | intro _
    | split
    | with_reducible apply Only.via (Q := [.freeCtr, .pk, .att, .tenantBox, .operBox, .mir]) (decideQuote_only _ _ _)
    | with_reducible apply Only.via (Q := []) (done_only _)
    | with_reducible apply Only.onMessage
    | with_reducible apply Only.via (Q := [.att, .tenantBox, .operBox]) (refuse_only _ _ _)
    | with_reducible apply Only.whenUp

end Sys2Proof.Machine
end

