-- ==== Sys2Proof/Laws/OnlyReset.lean ====
section
/-!
SUPPORT. The parts of State that the operations of Machine/Reset.lean may change.
-/

namespace Sys2Proof.Machine
open Sys2Proof

theorem dropWaits_only (g : Nat) (s : State) : Only [.dies] s (dropWaits g s) := by
  unfold dropWaits
  try dsimp only
  repeat' first
    | with_reducible exact Only.refl _ _
    | with_reducible assumption
    | exact (rfl : (_ : Bool) = true)
    | exact fun _ => rfl
    | intro _
    | split
    | with_reducible apply Only.via (Q := [.dies]) (Only.modDie _ _ _)

theorem dropLatches_only (lo hi : Nat) (s : State) : Only [.ports] s (dropLatches lo hi s) := by
  unfold dropLatches
  try dsimp only
  repeat' first
    | with_reducible exact Only.refl _ _
    | with_reducible assumption
    | exact (rfl : (_ : Bool) = true)
    | exact fun _ => rfl
    | intro _
    | split
    | with_reducible apply Only.via (Q := [.ports]) (Only.modPorts _ _)

theorem enterReset_only (g : Nat) (s : State) : Only [.guards, .dies, .ks, .mower, .ports] s (enterReset g s) := by
  unfold enterReset
  try dsimp only
  repeat' first
    | with_reducible exact Only.refl _ _
    | with_reducible assumption
    | exact (rfl : (_ : Bool) = true)
    | exact fun _ => rfl
    | intro _
    | split
    | with_reducible apply Only.via (Q := [.ports]) (dropLatches_only _ _ _)
    | with_reducible apply Only.via (Q := [.dies]) (dropWaits_only _ _)
    | with_reducible apply Only.via (Q := [.guards, .dies, .ks, .mower]) (fenceGuard_only _ _ _ _)
    | with_reducible apply Only.via (Q := [.guards]) (Only.modGuard _ _ _)
    | with_reducible apply Only.via (Q := [.ks]) (Only.modKs _ _)

theorem startSeal_only (g : Nat) (s : State) : Only [.guards, .dies, .head, .ent] s (startSeal g s) := by
  unfold startSeal
  try dsimp only
  repeat' first
    | with_reducible exact Only.refl _ _
    | with_reducible assumption
    | exact (rfl : (_ : Bool) = true)
    | exact fun _ => rfl
    | intro _
    | split
    | with_reducible apply Only.via (Q := [.ent]) (drawBytes_only _ _)
    | with_reducible apply Only.via (Q := [.dies, .head]) (headSend_only _ _ _)
    | with_reducible apply Only.via (Q := [.guards]) (Only.modGuard _ _ _)
    | with_reducible refine Only.ofPair (by assumption) ?_
    | with_reducible refine Only.ofTriple (by assumption) ?_

theorem leaveReset_only (g : Nat) (s : State) : Only [.guards, .dies, .head, .ent] s (leaveReset g s) := by
  unfold leaveReset
  try dsimp only
  repeat' first
    | with_reducible exact Only.refl _ _
    | with_reducible assumption
    | exact (rfl : (_ : Bool) = true)
    | exact fun _ => rfl
    | intro _
    | split
    | with_reducible apply Only.onlyIf
    | with_reducible apply Only.via (Q := [.guards, .dies, .head, .ent]) (startSeal_only _ _)
    | with_reducible apply Only.via (Q := [.guards]) (Only.modGuard _ _ _)

theorem countStop_only (d : Nat) (s : State) : Only [.ks] s (countStop d s) := by
  unfold countStop
  try dsimp only
  repeat' first
    | with_reducible exact Only.refl _ _
    | with_reducible assumption
    | exact (rfl : (_ : Bool) = true)
    | exact fun _ => rfl
    | intro _
    | split
    | with_reducible apply Only.via (Q := [.ks]) (Only.modKs _ _)

theorem sectionReset_only (d : Nat) (s : State) : Only [.guards, .dies, .head, .ks, .vault, .mower, .att, .tenantBox, .operBox, .fq, .mir, .ports] s (sectionReset d s) := by
  unfold sectionReset
  try dsimp only
  repeat' first
    | with_reducible exact Only.refl _ _
    | with_reducible assumption
    | exact (rfl : (_ : Bool) = true)
    | exact fun _ => rfl
    | intro _
    | split
    | with_reducible apply Only.via (Q := [.ks]) (countStop_only _ _)
    | with_reducible apply Only.via (Q := [.guards, .dies, .ks, .mower, .ports]) (enterReset_only _ _)
    | with_reducible apply Only.forEach
    | with_reducible apply Only.onlyIf
    | with_reducible apply Only.via (Q := [.dies, .head, .ks, .vault, .mower, .att, .tenantBox, .operBox, .fq, .mir]) (settle_only _)
    | with_reducible apply Only.via (Q := [.dies, .head, .ks]) (startSync_only _ _)
    | with_reducible apply Only.via (Q := [.dies]) (Only.modDie _ _ _)

theorem stopWaiting_only (s : State) : Only [.dies, .head, .ks, .vault, .mower, .att, .tenantBox, .operBox, .fq, .mir] s (stopWaiting s) := by
  unfold stopWaiting
  try dsimp only
  repeat' first
    | with_reducible exact Only.refl _ _
    | with_reducible assumption
    | exact (rfl : (_ : Bool) = true)
    | exact fun _ => rfl
    | intro _
    | split
    | with_reducible apply Only.forEach
    | with_reducible apply Only.via (Q := [.dies, .head, .ks]) (launch_only _ _)
    | with_reducible apply Only.via (Q := [.att, .tenantBox, .operBox]) (releaseQuotes_only _)
    | with_reducible apply Only.via (Q := [.att, .tenantBox, .operBox]) (reply_only _ _ _)
    | with_reducible apply Only.via (Q := [.dies, .head, .ks, .vault, .mower, .att, .tenantBox, .operBox, .fq, .mir]) (settle_only _)
    | with_reducible apply Only.via (Q := [.att]) (Only.modAtt _ _)
    | with_reducible apply Only.via (Q := [.mir]) (Only.modMir _ _)

theorem endSessions_only (s : State) : Only [.att, .ports] s (endSessions s) := by
  unfold endSessions
  try dsimp only
  repeat' first
    | with_reducible exact Only.refl _ _
    | with_reducible assumption
    | exact (rfl : (_ : Bool) = true)
    | exact fun _ => rfl
    | intro _
    | split
    | with_reducible apply Only.via (Q := [.att]) (Only.modAtt _ _)
    | with_reducible apply Only.via (Q := [.ports]) (Only.modPorts _ _)

theorem dropReads_only (s : State) : Only [.ks, .dma] s (dropReads s) := by
  unfold dropReads
  try dsimp only
  repeat' first
    | with_reducible exact Only.refl _ _
    | with_reducible assumption
    | exact fun h => h
    | exact flight_filter _ _
    | exact (rfl : (_ : Bool) = true)
    | exact fun _ => rfl
    | intro _
    | split
    | with_reducible refine Only.via (Q := [.dma]) (Only.modDma _ _ ?_) ?_ ?_
    | with_reducible apply Only.via (Q := [.ks]) (Only.modKs _ _)

theorem dropBundles_only (s : State) : Only [.ks, .vault] s (dropBundles s) := by
  unfold dropBundles
  try dsimp only
  repeat' first
    | with_reducible exact Only.refl _ _
    | with_reducible assumption
    | exact (rfl : (_ : Bool) = true)
    | exact fun _ => rfl
    | intro _
    | split
    | with_reducible apply Only.forEach
    | with_reducible apply Only.via (Q := [.ks]) (modModel_only _ _ _)
    | with_reducible apply Only.viaVault
    | (intro v; dsimp only; split <;> rfl)

theorem endWork_only (s : State) : Only [.freeCtr, .dies, .head, .ks, .vault, .ingest, .mower, .att, .tenantBox, .operBox, .fuse, .array, .fq, .mir, .dma, .ports] s (endWork s) := by
  unfold endWork
  try dsimp only
  repeat' first
    | with_reducible exact Only.refl _ _
    | with_reducible assumption
    | exact (rfl : (_ : Bool) = true)
    | exact fun _ => rfl
    | intro _
    | split
    | with_reducible apply Only.via (Q := [.ks, .vault]) (dropBundles_only _)
    | with_reducible apply Only.via (Q := [.ks, .dma]) (dropReads_only _)
    | with_reducible apply Only.via (Q := [.dies, .head, .ks, .vault, .ingest, .mower, .att, .tenantBox, .operBox, .fq, .mir]) (endIngest_only _ _ _)
    | with_reducible apply Only.via (Q := [.att, .ports]) (endSessions_only _)
    | with_reducible apply Only.via (Q := [.freeCtr, .fuse, .array]) (interruptFuse_only _)
    | with_reducible apply Only.via (Q := [.dies, .head, .ks, .vault, .mower, .att, .tenantBox, .operBox, .fq, .mir]) (stopWaiting_only _)

theorem returnKeyReqs_only (s : State) : Only [.dies] s (returnKeyReqs s) := by
  unfold returnKeyReqs
  try dsimp only
  repeat' first
    | with_reducible exact Only.refl _ _
    | with_reducible assumption
    | exact (rfl : (_ : Bool) = true)
    | exact fun _ => rfl
    | intro _
    | split
    | with_reducible apply Only.forEach
    | with_reducible apply Only.via (Q := [.dies]) (guardKeyReq_only _ _ _ _ _)

theorem freshCore_only (s : State) : Only [.guards, .dies, .head, .vault, .slots, .pk, .dig, .ent, .ingest, .mower, .att, .tenantBox, .operBox, .boot, .fuse, .brup, .fq, .mir, .ports] s (freshCore s) := by
  have h : Only [.guards, .dies, .head, .vault, .slots, .pk, .dig, .ent, .ingest, .mower, .att, .tenantBox, .operBox, .boot, .fuse, .brup, .fq, .mir, .ports] s ((returnKeyReqs s).modGuards (fun _ => Guard.dropMower)) :=
    Only.via (Only.modGuards _ _) rfl (Only.via (returnKeyReqs_only _) rfl (Only.refl _ _))
  exact h.trans ⟨fun p hp => by cases p <;> first | rfl | exact absurd (by decide) hp, Lasting.same rfl rfl rfl rfl rfl⟩

theorem coreReset_only (s : State) : Only [.freeCtr, .guards, .dies, .head, .ks, .vault, .slots, .pk, .dig, .ent, .ingest, .mower, .att, .tenantBox, .operBox, .boot, .fuse, .array, .brup, .fq, .mir, .dma, .ports] s (coreReset s) := by
  unfold coreReset
  try dsimp only
  repeat' first
    | with_reducible exact Only.refl _ _
    | with_reducible assumption
    | exact (rfl : (_ : Bool) = true)
    | exact fun _ => rfl
    | intro _
    | split
    | with_reducible apply Only.via (Q := [.freeCtr, .dies, .head, .ks, .vault, .ingest, .mower, .att, .tenantBox, .operBox, .fuse, .array, .fq, .mir, .dma, .ports]) (endWork_only _)
    | with_reducible apply Only.via (Q := [.guards, .dies, .head, .vault, .slots, .pk, .dig, .ent, .ingest, .mower, .att, .tenantBox, .operBox, .boot, .fuse, .brup, .fq, .mir, .ports]) (freshCore_only _)
    | with_reducible apply Only.via (Q := [.guards]) (Only.modGuards _ _)

theorem scheduleReset_only (s : State) : Only [.freeCtr, .boot, .mir] s (scheduleReset s) := by
  unfold scheduleReset
  try dsimp only
  repeat' first
    | with_reducible exact Only.refl _ _
    | with_reducible assumption
    | exact (rfl : (_ : Bool) = true)
    | exact fun _ => rfl
    | intro _
    | split
    | with_reducible apply Only.via (Q := [.freeCtr]) (state_used_only _)
    | with_reducible apply Only.via (Q := [.mir]) (mirSend_only _ _)
    | with_reducible apply Only.onlyIf
    | with_reducible apply Only.via (Q := [.boot]) (Only.modBoot _ _)
    | with_reducible apply Only.via (Q := [.mir]) (Only.modMir _ _)

theorem overwriteStores_only (s : State) : Only [.head, .ks, .vault, .slots, .tamper, .pk, .dig, .ent, .ingest, .mower, .att, .tenantBox, .operBox, .boot, .mir, .sby, .dma] s (overwriteStores s) :=
  ⟨fun p hp => by cases p <;> first | rfl | exact absurd (by decide) hp, Lasting.of rfl fun h => ⟨h.flash, h.queue, rfl, by
    have := h.tamper
    unfold Tamper.coherent at *
    show ((!s.tamper.cleared || true) && s.tamper.done == s.tamper.cleared) = true
    simp at this ⊢
    exact this.2⟩⟩

theorem tamperSequence_only (s : State) : Only [.freeCtr, .guards, .dies, .head, .ks, .vault, .slots, .tamper, .pk, .dig, .ent, .ingest, .mower, .att, .tenantBox, .operBox, .boot, .fuse, .array, .mir, .sby, .dma, .ports] s (tamperSequence s) := by
  unfold tamperSequence
  try dsimp only
  repeat' first
    | with_reducible exact Only.refl _ _
    | with_reducible assumption
    | exact (rfl : (_ : Bool) = true)
    | exact fun _ => rfl
    | intro _
    | split
    | with_reducible apply Only.via (Q := [.att, .ports]) (endSessions_only _)
    | with_reducible apply Only.via (Q := [.guards, .dies, .ks, .mower]) (fenceGuard_only _ _ _ _)
    | with_reducible apply Only.forEach
    | with_reducible apply Only.via (Q := [.freeCtr, .fuse, .array]) (interruptFuse_only _)
    | with_reducible apply Only.via (Q := [.head, .ks, .vault, .slots, .tamper, .pk, .dig, .ent, .ingest, .mower, .att, .tenantBox, .operBox, .boot, .mir, .sby, .dma]) (overwriteStores_only _)
    | with_reducible apply Only.via (Q := [.fuse]) (wipeUds_only _)
    | with_reducible apply Only.via (Q := [.guards]) (Only.modGuards _ _)

end Sys2Proof.Machine
end

