-- ==== Sys2Proof/Laws/OnlyFuses.lean ====
section
/-!
SUPPORT. The parts of State that the operations of Machine/Fuses.lean may change.
-/

namespace Sys2Proof.Machine
open Sys2Proof

theorem fuseForeign_only (s : State) : Only [.fuse] s (fuseForeign s) := by
  unfold fuseForeign
  try dsimp only
  repeat' first
    | with_reducible exact Only.refl _ _
    | with_reducible assumption
    | exact (rfl : (_ : Bool) = true)
    | exact fun _ => rfl
    | intro _
    | split
    | with_reducible apply Only.viaFuse
    | (intro v; dsimp only; split <;> rfl)

theorem Only.fuseWrite {ps : List Part} {b s : State} {off : Nat} {p : Path} {k : State → State} (h : Only ps b s)
    (hp : ([.fuse, .ports] : List Part).all (fun p => ps.contains p) = true) (hk : ∀ u, Only ps b u → Only ps b (k u)) :
    Only ps b (fuseWrite off p k s) :=
  Only.writeOwned h (Only.sub rfl hp) (fun u hu => Only.via (fuseForeign_only u) (Only.sub rfl hp) hu) hk

theorem applyRecord_only (s : State) : Only [.pk, .dig, .brup, .fq] s (applyRecord s) := by
  unfold applyRecord
  try dsimp only
  repeat' first
    | with_reducible exact Only.refl _ _
    | with_reducible assumption
    | exact (rfl : (_ : Bool) = true)
    | exact fun _ => rfl
    | intro _
    | split
    | with_reducible apply Only.forEach
    | with_reducible apply Only.via (Q := [.fq]) (raise_only _ _ _ _ _ _ _)
    | with_reducible apply Only.via (Q := [.brup]) (Only.modBrup _ _)
    | with_reducible apply Only.via (Q := [.dig]) (Only.modDig _ _)
    | with_reducible apply Only.via (Q := [.pk]) (Only.modPk _ _)

theorem laneStart_only (s : State) : Only [.guards, .dies] s (laneStart s) := by
  unfold laneStart
  try dsimp only
  repeat' first
    | with_reducible exact Only.refl _ _
    | with_reducible assumption
    | exact (rfl : (_ : Bool) = true)
    | exact fun _ => rfl
    | intro _
    | split
    | with_reducible apply Only.onlyIf
    | with_reducible apply Only.via (Q := [.dies]) (Only.modDies _ _)
    | with_reducible apply Only.via (Q := [.guards]) (Only.modGuards _ _)

theorem resenseWord_only (found : List FuseWord) (w : Nat) (s : State) : Only [.fuse, .fq] s (resenseWord found w s) := by
  unfold resenseWord
  try dsimp only
  repeat' first
    | with_reducible exact Only.refl _ _
    | with_reducible assumption
    | exact (rfl : (_ : Bool) = true)
    | exact fun _ => rfl
    | intro _
    | split
    | with_reducible apply Only.onlyIf
    | with_reducible apply Only.via (Q := [.fq]) (raise_only _ _ _ _ _ _ _)
    | with_reducible apply Only.viaFuse
    | (intro v; dsimp only; split <;> rfl)

theorem regrade_only (found : List FuseWord) (s : State) : Only [.fuse] s (regrade found s) := by
  unfold regrade
  try dsimp only
  repeat' first
    | with_reducible exact Only.refl _ _
    | with_reducible assumption
    | exact (rfl : (_ : Bool) = true)
    | exact fun _ => rfl
    | intro _
    | split
    | with_reducible apply Only.viaFuse
    | (intro v; dsimp only; split <;> rfl)

theorem fuseCmdWrite_only (value : BitVec 32) (s : State) : Only [.fuse] s (fuseCmdWrite value s) := by
  unfold fuseCmdWrite
  try dsimp only
  repeat' first
    | with_reducible exact Only.refl _ _
    | with_reducible assumption
    | exact (rfl : (_ : Bool) = true)
    | exact fun _ => rfl
    | intro _
    | split
    | with_reducible apply Only.viaFuse
    | (intro v; dsimp only; split <;> rfl)

theorem fuseRow_only (op : Nat) (p : Path) (value : BitVec 32) (s : State) : Only [.fuse, .ports] s (fuseRow op p value s) := by
  unfold fuseRow
  try dsimp only
  repeat' first
    | with_reducible exact Only.refl _ _
    | with_reducible assumption
    | exact (rfl : (_ : Bool) = true)
    | exact fun _ => rfl
    | intro _
    | split
    | with_reducible apply Only.via (Q := [.fuse]) (fuseCmdWrite_only _ _)
    | with_reducible apply Only.fuseWrite
    | with_reducible apply Only.onlyIf

theorem burnWord_only (w : Nat) (v : BitVec 72) (failed : List (Nat × Nat)) (s : State) : Only [.freeCtr, .fuse, .array] s (burnWord w v failed s) := by
  unfold burnWord
  try dsimp only
  repeat' first
    | with_reducible exact Only.refl _ _
    | with_reducible assumption
    | exact (rfl : (_ : Bool) = true)
    | exact fun _ => rfl
    | intro _
    | split
    | with_reducible apply Only.via (Q := [.freeCtr]) (state_used_only _)
    | with_reducible apply Only.via (Q := [.fuse, .array]) (burn_only _ _ _ _)
    | with_reducible apply Only.via (Q := [.fuse]) (senseOne_only _ _)

theorem lcCmdWrite_only (value : BitVec 32) (s : State) : Only [.fuse] s (lcCmdWrite value s) := by
  unfold lcCmdWrite
  try dsimp only
  repeat' first
    | with_reducible exact Only.refl _ _
    | with_reducible assumption
    | exact (rfl : (_ : Bool) = true)
    | exact fun _ => rfl
    | intro _
    | split
    | with_reducible apply Only.viaFuse
    | (intro v; dsimp only; split <;> rfl)

theorem lcRow_only (target : Nat) (p : Path) (value : BitVec 32) (s : State) : Only [.fuse, .ports] s (lcRow target p value s) := by
  unfold lcRow
  try dsimp only
  repeat' first
    | with_reducible exact Only.refl _ _
    | with_reducible assumption
    | exact (rfl : (_ : Bool) = true)
    | exact fun _ => rfl
    | intro _
    | split
    | with_reducible apply Only.fuseWrite
    | with_reducible apply Only.via (Q := [.fuse]) (lcCmdWrite_only _ _)
    | with_reducible apply Only.onlyIf

theorem Only.actionRow {ps : List Part} {mine : Bool} {sess : Nat} {tag : BitVec 32} {body : Bytes} {k : Waiter → State → State} {s : State}
    (hp : ([.att, .tenantBox, .operBox] : List Part).all (fun p => ps.contains p) = true)
    (hk : ∀ w u, Only ps s u → Only ps s (k w u)) : ∃ t, actionRow mine sess tag body k s = .next t ∧ Only ps s t :=
  ⟨_, rfl, Only.whenUp (Only.refl _ _) fun u hu => Only.onlyIf hu fun v hv => Only.onMessage hv hp fun _ w x hx => hk w x hx⟩

theorem execDecommission_only (sess : Nat) (tag : BitVec 32) (body : Bytes) (s : State) : ∃ t, execDecommission sess tag body s = .next t ∧ Only [.att, .tenantBox, .operBox, .fuse] s t := by
  unfold execDecommission
  refine Only.actionRow rfl ?_
  try dsimp only
  repeat' first
    | with_reducible exact Only.refl _ _
    | with_reducible assumption
    | exact (rfl : (_ : Bool) = true)
    | exact fun _ => rfl
    | intro _
    | split
    | with_reducible apply Only.via (Q := [.fuse]) (lcCmdWrite_only _ _)
    | with_reducible apply Only.via (Q := [.att, .tenantBox, .operBox]) (refuse_only _ _ _)
    | with_reducible apply Only.via (Q := [.att, .tenantBox, .operBox]) (reply_only _ _ _)

theorem armWrite_only (value : BitVec 32) (s : State) : Only [.fuse] s (armWrite value s) := by
  unfold armWrite
  try dsimp only
  repeat' first
    | with_reducible exact Only.refl _ _
    | with_reducible assumption
    | exact (rfl : (_ : Bool) = true)
    | exact fun _ => rfl
    | intro _
    | split
    | with_reducible apply Only.viaFuse
    | (intro v; dsimp only; split <;> rfl)

theorem decideToken_only (w : Waiter) (t : Bytes) (s : State) : Only [.freeCtr, .att, .tenantBox, .operBox, .boot, .fuse, .mir] s (decideToken w t s) := by
  unfold decideToken
  try dsimp only
  repeat' first
    | with_reducible exact Only.refl _ _
    | with_reducible assumption
    | exact (rfl : (_ : Bool) = true)
    | exact fun _ => rfl
    | intro _
    | split
    | with_reducible apply Only.via (Q := [.att, .tenantBox, .operBox]) (refuse_only _ _ _)
    | with_reducible apply Only.via (Q := [.att, .tenantBox, .operBox]) (reply_only _ _ _)
    | with_reducible apply Only.via (Q := [.freeCtr, .boot, .mir]) (scheduleReset_only _)
    | with_reducible apply Only.viaFuse
    | (intro v; dsimp only; split <;> rfl)

theorem execDebugUnlock_only (sess : Nat) (tag : BitVec 32) (body : Bytes) (s : State) : ∃ t, execDebugUnlock sess tag body s = .next t ∧ Only [.freeCtr, .att, .tenantBox, .operBox, .dma] s t := by
  unfold execDebugUnlock
  refine Only.actionRow rfl ?_
  try dsimp only
  repeat' first
    | with_reducible exact Only.refl _ _
    | with_reducible assumption
    | exact (rfl : (_ : Bool) = true)
    | exact fun _ => rfl
    | intro _
    | split
    | with_reducible apply Only.via (Q := [.freeCtr, .dma]) (dmaRead_only _ _ _ _)
    | with_reducible apply Only.via (Q := [.att, .tenantBox, .operBox]) (refuse_only _ _ _)
    | with_reducible refine Only.ofPair (by assumption) ?_
    | with_reducible refine Only.ofTriple (by assumption) ?_

theorem tmxWrite_only (value : BitVec 32) (s : State) : Only [.fuse] s (tmxWrite value s) := by
  unfold tmxWrite
  try dsimp only
  repeat' first
    | with_reducible exact Only.refl _ _
    | with_reducible assumption
    | exact (rfl : (_ : Bool) = true)
    | exact fun _ => rfl
    | intro _
    | split
    | with_reducible apply Only.viaFuse
    | (intro v; dsimp only; split <;> rfl)

theorem tmxShow_only (s : State) : Only [.freeCtr, .fuse] s (tmxShow s) := by
  unfold tmxShow
  try dsimp only
  repeat' first
    | with_reducible exact Only.refl _ _
    | with_reducible assumption
    | exact (rfl : (_ : Bool) = true)
    | exact fun _ => rfl
    | intro _
    | split
    | with_reducible apply Only.via (Q := [.freeCtr]) (state_used_only _)
    | with_reducible apply Only.viaFuse
    | (intro v; dsimp only; split <;> rfl)

theorem execTmxCtl_only (p : Path) (value : BitVec 32) (s : State) : ∃ t, execTmxCtl p value s = .next t ∧ Only [.fuse, .ports] s t := by
  refine ⟨_, rfl, ?_⟩
  try dsimp only
  repeat' first
    | with_reducible exact Only.refl _ _
    | with_reducible assumption
    | exact (rfl : (_ : Bool) = true)
    | exact fun _ => rfl
    | intro _
    | split
    | with_reducible apply Only.via (Q := []) (done_only _)
    | with_reducible apply Only.via (Q := [.fuse]) (tmxWrite_only _ _)
    | with_reducible apply Only.writeAt

end Sys2Proof.Machine
end

