-- ==== Sys2Proof/Laws/OnlyFlash.lean ====
section
/-!
SUPPORT. The parts of State that the operations of Machine/Flash.lean may change.
-/

namespace Sys2Proof.Machine
open Sys2Proof

theorem flashErase_only (o n : Nat) (s : State) : Only [.flash] s (flashErase o n s) :=
  Only.modFlash _ _ (bufFilter_wf _ _ _)

theorem flashProgram_only (o : Nat) (bs : Bytes) (s : State) : Only [.flash] s (flashProgram o bs s) :=
  Only.modFlash _ _ (bufStore_wf _ _ _ _)

theorem commitAppend_only (slotB isFinal : Bool) (svn : Nat) (s : State) : Only [.flash] s (commitAppend slotB isFinal svn s) := by
  unfold commitAppend
  try dsimp only
  repeat' first
    | with_reducible exact Only.refl _ _
    | with_reducible assumption
    | exact (rfl : (_ : Bool) = true)
    | exact fun _ => rfl
    | intro _
    | split
    | with_reducible apply Only.via (Q := [.flash]) (flashErase_only _ _ _)
    | with_reducible apply Only.via (Q := [.flash]) (flashProgram_only _ _ _)

theorem countWrite_only (count : Nat) (s : State) : Only [.flash] s (countWrite count s).2 := by
  unfold countWrite
  try dsimp only
  repeat' first
    | with_reducible exact Only.refl _ _
    | with_reducible assumption
    | exact (rfl : (_ : Bool) = true)
    | exact fun _ => rfl
    | intro _
    | split
    | with_reducible apply Only.via (Q := [.flash]) (flashErase_only _ _ _)
    | with_reducible apply Only.via (Q := [.flash]) (flashProgram_only _ _ _)

theorem countKeep_only (s : State) : Only [.flash] s (countKeep s) := by
  unfold countKeep
  try dsimp only
  repeat' first
    | with_reducible exact Only.refl _ _
    | with_reducible assumption
    | exact (rfl : (_ : Bool) = true)
    | exact fun _ => rfl
    | intro _
    | split
    | with_reducible apply Only.via (Q := [.flash]) (flashErase_only _ _ _)
    | with_reducible apply Only.onlyIf

theorem programImage_only (slotB : Bool) (h body : Bytes) (s : State) : Only [.flash] s (programImage slotB h body s) := by
  unfold programImage
  try dsimp only
  repeat' first
    | with_reducible exact Only.refl _ _
    | with_reducible assumption
    | exact (rfl : (_ : Bool) = true)
    | exact fun _ => rfl
    | intro _
    | split
    | with_reducible apply Only.via (Q := [.flash]) (flashErase_only _ _ _)
    | with_reducible apply Only.via (Q := [.flash]) (flashProgram_only _ _ _)

theorem programTags_only (slotB : Bool) (body : Bytes) (s : State) : Only [.flash] s (programTags slotB body s) := by
  unfold programTags
  try dsimp only
  repeat' first
    | with_reducible exact Only.refl _ _
    | with_reducible assumption
    | exact (rfl : (_ : Bool) = true)
    | exact fun _ => rfl
    | intro _
    | split
    | with_reducible apply Only.via (Q := [.flash]) (flashProgram_only _ _ _)

theorem adopt_only (slotB : Bool) (h body : Bytes) (s : State) : Only [.flash] s (adopt slotB h body s) := by
  unfold adopt
  try dsimp only
  repeat' first
    | with_reducible exact Only.refl _ _
    | with_reducible assumption
    | exact (rfl : (_ : Bool) = true)
    | exact fun _ => rfl
    | intro _
    | split
    | with_reducible apply Only.via (Q := [.flash]) (programImage_only _ _ _ _)
    | with_reducible apply Only.via (Q := [.flash]) (programTags_only _ _ _)

end Sys2Proof.Machine
end

