-- ==== Sys2Proof/Laws/OnlyBringUp.lean ====
section
/-!
SUPPORT. The parts of State that the operations of Machine/BringUp.lean may change.
-/

namespace Sys2Proof.Machine
open Sys2Proof

theorem takePlan_only (body : Bytes) (s : State) : Only [.brup] s (takePlan body s) := by
  unfold takePlan
  try dsimp only
  repeat' first
    | with_reducible exact Only.refl _ _
    | with_reducible assumption
    | exact (rfl : (_ : Bool) = true)
    | exact fun _ => rfl
    | intro _
    | split
    | with_reducible apply Only.via (Q := [.brup]) (Only.modBrup _ _)

theorem modLine_only (n : Nat) (f : Line → Line) (s : State) : Only [.brup] s (modLine n f s) := by
  unfold modLine
  try dsimp only
  repeat' first
    | with_reducible exact Only.refl _ _
    | with_reducible assumption
    | exact (rfl : (_ : Bool) = true)
    | exact fun _ => rfl
    | intro _
    | split
    | with_reducible apply Only.via (Q := [.brup]) (Only.modBrup _ _)

theorem unqualify_only (l : Nat) (s : State) : Only [.brup] s (unqualify l s) := by
  unfold unqualify
  try dsimp only
  repeat' first
    | with_reducible exact Only.refl _ _
    | with_reducible assumption
    | exact (rfl : (_ : Bool) = true)
    | exact fun _ => rfl
    | intro _
    | split
    | with_reducible apply Only.via (Q := [.brup]) (Only.modBrup _ _)

theorem lineLost_only (n : Nat) (s : State) : Only [.guards, .dies, .head, .ks, .vault, .mower, .att, .tenantBox, .operBox, .brup, .fq, .mir] s (lineLost n s) := by
  unfold lineLost
  try dsimp only
  repeat' first
    | with_reducible exact Only.refl _ _
    | with_reducible assumption
    | exact (rfl : (_ : Bool) = true)
    | exact fun _ => rfl
    | intro _
    | split
    | with_reducible apply Only.forEach
    | with_reducible apply Only.via (Q := [.guards, .dies, .head, .ks, .vault, .mower, .att, .tenantBox, .operBox, .fq, .mir]) (loseMemory_only _ _)
    | with_reducible apply Only.via (Q := [.brup]) (reserve_only _)
    | with_reducible apply Only.via (Q := [.brup]) (unqualify_only _ _)

theorem failLine_only (n detail : Nat) (s : State) : Only [.guards, .dies, .head, .ks, .vault, .mower, .att, .tenantBox, .operBox, .brup, .fq, .mir] s (failLine n detail s) := by
  unfold failLine
  try dsimp only
  repeat' first
    | with_reducible exact Only.refl _ _
    | with_reducible assumption
    | exact (rfl : (_ : Bool) = true)
    | exact fun _ => rfl
    | intro _
    | split
    | with_reducible apply Only.via (Q := [.guards, .dies, .head, .ks, .vault, .mower, .att, .tenantBox, .operBox, .brup, .fq, .mir]) (lineLost_only _ _)
    | with_reducible apply Only.via (Q := [.brup]) (modLine_only _ _ _)
    | with_reducible apply Only.via (Q := [.fq]) (raise_only _ _ _ _ _ _ _)

theorem timeOutLine_only (n detail : Nat) (s : State) : Only [.guards, .dies, .head, .ks, .vault, .mower, .att, .tenantBox, .operBox, .brup, .fq, .mir] s (timeOutLine n detail s) := by
  unfold timeOutLine
  try dsimp only
  repeat' first
    | with_reducible exact Only.refl _ _
    | with_reducible assumption
    | exact (rfl : (_ : Bool) = true)
    | exact fun _ => rfl
    | intro _
    | split
    | with_reducible apply Only.via (Q := [.guards, .dies, .head, .ks, .vault, .mower, .att, .tenantBox, .operBox, .brup, .fq, .mir]) (failLine_only _ _ _)
    | with_reducible apply Only.onlyIf
    | with_reducible apply Only.via (Q := [.fq]) (raise_only _ _ _ _ _ _ _)
    | with_reducible apply Only.via (Q := [.brup]) (Only.modBrup _ _)

theorem extendLog_only (n : Nat) (digest : Bytes) (s : State) : Only [.att] s (extendLog n digest s) := by
  unfold extendLog
  try dsimp only
  repeat' first
    | with_reducible exact Only.refl _ _
    | with_reducible assumption
    | exact (rfl : (_ : Bool) = true)
    | exact fun _ => rfl
    | intro _
    | split
    | with_reducible apply Only.via (Q := [.att]) (Only.modAtt _ _)

theorem releaseLine_only (n : Nat) (s : State) : Only [.brup] s (releaseLine n s) := by
  unfold releaseLine
  try dsimp only
  repeat' first
    | with_reducible exact Only.refl _ _
    | with_reducible assumption
    | exact (rfl : (_ : Bool) = true)
    | exact fun _ => rfl
    | intro _
    | split
    | with_reducible apply Only.via (Q := [.brup]) (modLine_only _ _ _)

theorem loadPackage_only (n : Nat) (s : State) : Only [.freeCtr, .guards, .dies, .head, .ks, .vault, .mower, .att, .tenantBox, .operBox, .brup, .fq, .mir, .dma] s (loadPackage n s) := by
  unfold loadPackage
  try dsimp only
  repeat' first
    | with_reducible exact Only.refl _ _
    | with_reducible assumption
    | exact (rfl : (_ : Bool) = true)
    | exact fun _ => rfl
    | intro _
    | split
    | with_reducible apply Only.via (Q := [.freeCtr, .dma]) (dmaWrite_only _ _ _ _)
    | with_reducible apply Only.via (Q := [.guards, .dies, .head, .ks, .vault, .mower, .att, .tenantBox, .operBox, .brup, .fq, .mir]) (timeOutLine_only _ _ _)
    | with_reducible apply Only.via (Q := [.brup]) (Only.modBrup _ _)
    | with_reducible refine Only.ofPair (by assumption) ?_
    | with_reducible refine Only.ofTriple (by assumption) ?_

theorem pumpLines_only (n : Nat) (s : State) : Only [.freeCtr, .guards, .dies, .head, .ks, .vault, .mower, .att, .tenantBox, .operBox, .brup, .fq, .mir, .dma] s (pumpLines n s) := by
  induction n generalizing s with
  | zero => exact Only.refl _ _
  | succ n ih =>
    unfold pumpLines
    dsimp only
    split
    · exact Only.refl _ _
    have hf := Only.forEach (l := ((List.range 64).filter (linePending s)).filter (fun n => !(lineEntry s n).firmware)) (f := releaseLine)
      (Only.refl [.freeCtr, .guards, .dies, .head, .ks, .vault, .mower, .att, .tenantBox, .operBox, .brup, .fq, .mir, .dma] s) (fun a u hu => Only.via (releaseLine_only a u) rfl hu)
    split
    · exact Only.trans (Only.via (loadPackage_only _ _) rfl hf) (ih _)
    · exact hf

theorem bringOn_only (s : State) : Only [.freeCtr, .guards, .dies, .head, .ks, .vault, .mower, .att, .tenantBox, .operBox, .brup, .fq, .mir, .dma] s (bringOn s) := by
  unfold bringOn
  try dsimp only
  repeat' first
    | with_reducible exact Only.refl _ _
    | with_reducible assumption
    | exact (rfl : (_ : Bool) = true)
    | exact fun _ => rfl
    | intro _
    | split
    | with_reducible apply Only.via (Q := [.freeCtr, .guards, .dies, .head, .ks, .vault, .mower, .att, .tenantBox, .operBox, .brup, .fq, .mir, .dma]) (pumpLines_only _ _)

theorem packageFailed_only (n work : Nat) (s : State) : Only [.freeCtr, .guards, .dies, .head, .ks, .vault, .mower, .att, .tenantBox, .operBox, .brup, .fq, .mir, .dma] s (packageFailed n work s) := by
  unfold packageFailed
  try dsimp only
  repeat' first
    | with_reducible exact Only.refl _ _
    | with_reducible assumption
    | exact (rfl : (_ : Bool) = true)
    | exact fun _ => rfl
    | intro _
    | split
    | with_reducible apply Only.via (Q := [.freeCtr, .guards, .dies, .head, .ks, .vault, .mower, .att, .tenantBox, .operBox, .brup, .fq, .mir, .dma]) (bringOn_only _)
    | with_reducible apply Only.via (Q := [.freeCtr, .dma]) (dmaEnd_only _ _)
    | with_reducible apply Only.via (Q := [.guards, .dies, .head, .ks, .vault, .mower, .att, .tenantBox, .operBox, .brup, .fq, .mir]) (timeOutLine_only _ _ _)
    | with_reducible apply Only.via (Q := [.brup]) (Only.modBrup _ _)

theorem resumeBringUp_only (s : State) : Only [.freeCtr, .guards, .dies, .head, .ks, .vault, .mower, .att, .tenantBox, .operBox, .brup, .fq, .mir, .dma] s (resumeBringUp s) := by
  unfold resumeBringUp
  try dsimp only
  repeat' first
    | with_reducible exact Only.refl _ _
    | with_reducible assumption
    | exact (rfl : (_ : Bool) = true)
    | exact fun _ => rfl
    | intro _
    | split
    | with_reducible apply Only.via (Q := [.freeCtr, .guards, .dies, .head, .ks, .vault, .mower, .att, .tenantBox, .operBox, .brup, .fq, .mir, .dma]) (bringOn_only _)
    | with_reducible apply Only.forEach
    | with_reducible apply Only.via (Q := [.brup]) (modLine_only _ _ _)
    | with_reducible apply Only.via (Q := [.brup]) (Only.modBrup _ _)

theorem exclude_only (d : Defect) (s : State) : Only [.freeCtr, .guards, .vault, .slots, .pk, .dig, .ent, .ingest, .mower, .att, .tenantBox, .operBox, .boot, .fq] s (exclude d s) := by
  unfold exclude
  try dsimp only
  repeat' first
    | with_reducible exact Only.refl _ _
    | with_reducible assumption
    | exact (rfl : (_ : Bool) = true)
    | exact fun _ => rfl
    | intro _
    | split
    | with_reducible apply Only.via (Q := [.guards]) (modBank_only _ _ _ _)
    | with_reducible apply Only.onlyIf
    | with_reducible apply Only.via (Q := [.freeCtr, .vault, .slots, .pk, .ent, .att, .tenantBox, .operBox, .fq]) (pkOut_only _ _ _)
    | with_reducible apply Only.via (Q := [.fq]) (raise_only _ _ _ _ _ _ _)
    | with_reducible apply Only.via (Q := [.boot]) (Only.modBoot _ _)
    | with_reducible apply Only.via (Q := [.dig]) (Only.modDig _ _)
    | with_reducible apply Only.via (Q := [.guards]) (Only.modGuard _ _ _)
    | with_reducible apply Only.via (Q := [.ingest]) (Only.modIngest _ _)
    | with_reducible apply Only.via (Q := [.mower]) (Only.modMower _ _)

theorem popFinding_only (unrec : Bool) (s : State) : Only [.brup, .fq] s (popFinding unrec s) := by
  unfold popFinding
  try dsimp only
  repeat' first
    | with_reducible exact Only.refl _ _
    | with_reducible assumption
    | exact (rfl : (_ : Bool) = true)
    | exact fun _ => rfl
    | intro _
    | split
    | with_reducible apply Only.onlyIf
    | with_reducible apply Only.via (Q := [.fq]) (raise_only _ _ _ _ _ _ _)
    | with_reducible apply Only.via (Q := [.brup]) (Only.modBrup _ _)

theorem newCtlWrite_only (value : BitVec 32) (s : State) : Only [.brup, .fq] s (newCtlWrite value s) := by
  unfold newCtlWrite
  try dsimp only
  repeat' first
    | with_reducible exact Only.refl _ _
    | with_reducible assumption
    | exact (rfl : (_ : Bool) = true)
    | exact fun _ => rfl
    | intro _
    | split
    | with_reducible apply Only.onlyIf
    | with_reducible apply Only.via (Q := [.brup, .fq]) (popFinding_only _ _)

theorem execGuardReset_only (sess : Nat) (tag : BitVec 32) (body : Bytes) (s : State) : ∃ t, execGuardReset sess tag body s = .next t ∧ Only [.guards, .dies, .head, .ks, .vault, .mower, .att, .tenantBox, .operBox, .fq, .mir, .ports] s t := by
  unfold execGuardReset
  refine Only.actionRow rfl ?_
  try dsimp only
  repeat' first
    | with_reducible exact Only.refl _ _
    | with_reducible assumption
    | exact (rfl : (_ : Bool) = true)
    | exact fun _ => rfl
    | intro _
    | split
    | with_reducible apply Only.via (Q := [.guards, .dies, .ks, .mower, .ports]) (enterReset_only _ _)
    | with_reducible apply Only.via (Q := [.att, .tenantBox, .operBox]) (refuse_only _ _ _)
    | with_reducible apply Only.via (Q := [.att, .tenantBox, .operBox]) (reply_only _ _ _)
    | with_reducible apply Only.via (Q := [.dies, .head, .ks, .vault, .mower, .att, .tenantBox, .operBox, .fq, .mir]) (settle_only _)

theorem execSectionReset_only (sess : Nat) (tag : BitVec 32) (body : Bytes) (s : State) : ∃ t, execSectionReset sess tag body s = .next t ∧ Only [.guards, .dies, .head, .ks, .vault, .mower, .att, .tenantBox, .operBox, .fq, .mir, .ports] s t := by
  unfold execSectionReset
  refine Only.actionRow rfl ?_
  try dsimp only
  repeat' first
    | with_reducible exact Only.refl _ _
    | with_reducible assumption
    | exact (rfl : (_ : Bool) = true)
    | exact fun _ => rfl
    | intro _
    | split
    | with_reducible apply Only.via (Q := [.att, .tenantBox, .operBox]) (refuse_only _ _ _)
    | with_reducible apply Only.via (Q := [.att, .tenantBox, .operBox]) (reply_only _ _ _)
    | with_reducible apply Only.via (Q := [.guards, .dies, .head, .ks, .vault, .mower, .att, .tenantBox, .operBox, .fq, .mir, .ports]) (sectionReset_only _ _)

theorem execGuardFence_only (sess : Nat) (tag : BitVec 32) (body : Bytes) (s : State) : ∃ t, execGuardFence sess tag body s = .next t ∧ Only [.guards, .dies, .head, .ks, .vault, .mower, .att, .tenantBox, .operBox, .fq, .mir] s t := by
  unfold execGuardFence
  refine Only.actionRow rfl ?_
  try dsimp only
  repeat' first
    | with_reducible exact Only.refl _ _
    | with_reducible assumption
    | exact (rfl : (_ : Bool) = true)
    | exact fun _ => rfl
    | intro _
    | split
    | with_reducible apply Only.via (Q := [.guards, .dies, .ks, .mower]) (fenceGuard_only _ _ _ _)
    | with_reducible apply Only.via (Q := [.att, .tenantBox, .operBox]) (refuse_only _ _ _)
    | with_reducible apply Only.via (Q := [.att, .tenantBox, .operBox]) (reply_only _ _ _)
    | with_reducible apply Only.via (Q := [.dies, .head, .ks, .vault, .mower, .att, .tenantBox, .operBox, .fq, .mir]) (settle_only _)

theorem dropPackage_only (n : Nat) (s : State) : Only [.freeCtr, .brup, .dma] s (dropPackage n s) := by
  unfold dropPackage
  try dsimp only
  repeat' first
    | with_reducible exact Only.refl _ _
    | with_reducible assumption
    | exact (rfl : (_ : Bool) = true)
    | exact fun _ => rfl
    | intro _
    | split
    | with_reducible apply Only.via (Q := [.freeCtr, .dma]) (dmaEnd_only _ _)
    | with_reducible apply Only.via (Q := [.brup]) (Only.modBrup _ _)

theorem holdGuards_only (n : Nat) (s : State) : Only [.guards, .dies, .ks, .mower] s (holdGuards n s) := by
  unfold holdGuards
  try dsimp only
  repeat' first
    | with_reducible exact Only.refl _ _
    | with_reducible assumption
    | exact (rfl : (_ : Bool) = true)
    | exact fun _ => rfl
    | intro _
    | split
    | with_reducible apply Only.via (Q := [.guards, .dies, .ks, .mower]) (fenceGuard_only _ _ _ _)
    | with_reducible apply Only.forEach
    | with_reducible apply Only.via (Q := [.guards]) (Only.modGuard _ _ _)

theorem execUnitHold_only (sess : Nat) (tag : BitVec 32) (body : Bytes) (s : State) : ∃ t, execUnitHold sess tag body s = .next t ∧ Only [.freeCtr, .guards, .dies, .head, .ks, .vault, .mower, .att, .tenantBox, .operBox, .brup, .fq, .mir, .dma] s t := by
  unfold execUnitHold
  refine Only.actionRow rfl ?_
  try dsimp only
  repeat' first
    | with_reducible exact Only.refl _ _
    | with_reducible assumption
    | exact (rfl : (_ : Bool) = true)
    | exact fun _ => rfl
    | intro _
    | split
    | with_reducible apply Only.via (Q := [.freeCtr, .guards, .dies, .head, .ks, .vault, .mower, .att, .tenantBox, .operBox, .brup, .fq, .mir, .dma]) (bringOn_only _)
    | with_reducible apply Only.via (Q := [.freeCtr, .brup, .dma]) (dropPackage_only _ _)
    | with_reducible apply Only.forEach
    | with_reducible apply Only.via (Q := [.guards, .dies, .ks, .mower]) (holdGuards_only _ _)
    | with_reducible apply Only.via (Q := [.brup]) (modLine_only _ _ _)
    | with_reducible apply Only.via (Q := [.att, .tenantBox, .operBox]) (refuse_only _ _ _)
    | with_reducible apply Only.via (Q := [.att, .tenantBox, .operBox]) (reply_only _ _ _)
    | with_reducible apply Only.via (Q := [.brup]) (reserve_only _)
    | with_reducible apply Only.via (Q := [.dies, .head, .ks, .vault, .mower, .att, .tenantBox, .operBox, .fq, .mir]) (settle_only _)
    | with_reducible apply Only.via (Q := [.brup]) (unqualify_only _ _)

theorem execUnitRelease_only (sess : Nat) (tag : BitVec 32) (body : Bytes) (s : State) : ∃ t, execUnitRelease sess tag body s = .next t ∧ Only [.freeCtr, .guards, .dies, .head, .ks, .vault, .mower, .att, .tenantBox, .operBox, .brup, .fq, .mir, .dma] s t := by
  unfold execUnitRelease
  refine Only.actionRow rfl ?_
  try dsimp only
  repeat' first
    | with_reducible exact Only.refl _ _
    | with_reducible assumption
    | exact (rfl : (_ : Bool) = true)
    | exact fun _ => rfl
    | intro _
    | split
    | with_reducible apply Only.via (Q := [.freeCtr, .guards, .dies, .head, .ks, .vault, .mower, .att, .tenantBox, .operBox, .brup, .fq, .mir, .dma]) (bringOn_only _)
    | with_reducible apply Only.via (Q := [.brup]) (modLine_only _ _ _)
    | with_reducible apply Only.via (Q := [.att, .tenantBox, .operBox]) (refuse_only _ _ _)
    | with_reducible apply Only.via (Q := [.att, .tenantBox, .operBox]) (reply_only _ _ _)

theorem execCoreReset_only (sess : Nat) (tag : BitVec 32) (body : Bytes) (s : State) : ∃ t, execCoreReset sess tag body s = .next t ∧ Only [.freeCtr, .att, .tenantBox, .operBox, .boot, .mir] s t := by
  unfold execCoreReset
  refine Only.actionRow rfl ?_
  try dsimp only
  repeat' first
    | with_reducible exact Only.refl _ _
    | with_reducible assumption
    | exact (rfl : (_ : Bool) = true)
    | exact fun _ => rfl
    | intro _
    | split
    | with_reducible apply Only.via (Q := [.att, .tenantBox, .operBox]) (refuse_only _ _ _)
    | with_reducible apply Only.via (Q := [.att, .tenantBox, .operBox]) (reply_only _ _ _)
    | with_reducible apply Only.via (Q := [.freeCtr, .boot, .mir]) (scheduleReset_only _)

theorem requestSample_only (s : State) : Only [.dies, .head, .ks, .brup] s (requestSample s) := by
  unfold requestSample
  try dsimp only
  repeat' first
    | with_reducible exact Only.refl _ _
    | with_reducible assumption
    | exact (rfl : (_ : Bool) = true)
    | exact fun _ => rfl
    | intro _
    | split
    | with_reducible apply Only.via (Q := [.dies, .ks, .brup]) (fpAtPulse_only _)
    | with_reducible apply Only.via (Q := [.dies, .head]) (headAll_only _ _)
    | with_reducible apply Only.onlyIf
    | with_reducible apply Only.via (Q := [.brup]) (Only.modBrup _ _)

theorem execFpSample_only (p : Path) (value : BitVec 32) (s : State) : ∃ t, execFpSample p value s = .next t ∧ Only [.dies, .head, .ks, .brup, .ports] s t := by
  refine ⟨_, rfl, ?_⟩
  try dsimp only
  repeat' first
    | with_reducible exact Only.refl _ _
    | with_reducible assumption
    | exact (rfl : (_ : Bool) = true)
    | exact fun _ => rfl
    | intro _
    | split
    | with_reducible apply Only.via (Q := []) (done_only _)
    | with_reducible apply Only.onlyIf
    | with_reducible apply Only.via (Q := [.dies, .head, .ks, .brup]) (requestSample_only _)
    | with_reducible apply Only.writeAt

theorem fpMismatch_only (ref : BitVec 32) (g : Nat) (s : State) : Only [.guards, .dies, .ks, .mower, .fq] s (fpMismatch ref g s) := by
  unfold fpMismatch
  try dsimp only
  repeat' first
    | with_reducible exact Only.refl _ _
    | with_reducible assumption
    | exact (rfl : (_ : Bool) = true)
    | exact fun _ => rfl
    | intro _
    | split
    | with_reducible apply Only.via (Q := [.guards, .dies, .ks, .mower]) (fenceGuard_only _ _ _ _)
    | with_reducible apply Only.via (Q := [.fq]) (raise_only _ _ _ _ _ _ _)

theorem compareFp_only (seq : BitVec 16) (ref : BitVec 32) (s : State) : Only [.guards, .dies, .head, .ks, .vault, .mower, .att, .tenantBox, .operBox, .brup, .fq, .mir] s (compareFp seq ref s) := by
  unfold compareFp
  try dsimp only
  repeat' first
    | with_reducible exact Only.refl _ _
    | with_reducible assumption
    | exact (rfl : (_ : Bool) = true)
    | exact fun _ => rfl
    | intro _
    | split
    | with_reducible apply Only.via (Q := [.guards, .dies, .ks, .mower]) (fenceAll_only _ _ _)
    | with_reducible apply Only.forEach
    | with_reducible apply Only.via (Q := [.guards, .dies, .ks, .mower, .fq]) (fpMismatch_only _ _ _)
    | with_reducible apply Only.via (Q := [.fq]) (raise_only _ _ _ _ _ _ _)
    | with_reducible apply Only.via (Q := [.dies, .head, .ks, .vault, .mower, .att, .tenantBox, .operBox, .fq, .mir]) (settle_only _)
    | with_reducible apply Only.via (Q := [.brup]) (Only.modBrup _ _)
    | with_reducible apply Only.via (Q := [.dies]) (Only.modDies _ _)
    | with_reducible apply Only.via (Q := [.ks]) (Only.modKs _ _)

end Sys2Proof.Machine
end

