-- ==== Sys2Proof/Laws/OnlyBoot.lean ====
section
/-!
SUPPORT. The parts of State that the operations of Machine/Boot.lean may change.
-/

namespace Sys2Proof.Machine
open Sys2Proof

theorem Only.bootWrite {ps : List Part} {b s : State} {off : Nat} {p : Path} {k : State → State} (h : Only ps b s)
    (hp : ([.boot, .ports] : List Part).all (fun p => ps.contains p) = true) (hk : ∀ u, Only ps b u → Only ps b (k u)) :
    Only ps b (bootWrite off p k s) :=
  Only.writeOwned h (Only.sub rfl hp) (fun u hu => Only.via (Only.modBoot _ u) (Only.sub rfl hp) hu) hk

theorem fillPair_only (n owner : Nat) (parent : BitVec 32) (k : Bytes) (s : State) : Only [.vault, .slots] s (fillPair n owner parent k s) := by
  unfold fillPair
  try dsimp only
  repeat' first
    | with_reducible exact Only.refl _ _
    | with_reducible assumption
    | exact (rfl : (_ : Bool) = true)
    | exact fun _ => rfl
    | intro _
    | split
    | with_reducible apply Only.via (Q := [.vault, .slots]) (fillSlot_only _ _ _ _)

theorem romKeys_only (s : State) : Only [.vault, .slots, .att, .fuse] s (romKeys s) := by
  unfold romKeys
  try dsimp only
  repeat' first
    | with_reducible exact Only.refl _ _
    | with_reducible assumption
    | exact (rfl : (_ : Bool) = true)
    | exact fun _ => rfl
    | intro _
    | split
    | with_reducible apply Only.via (Q := [.vault, .slots]) (fillPair_only _ _ _ _ _)
    | with_reducible apply Only.via (Q := [.vault, .slots]) (fillSlot_only _ _ _ _)
    | with_reducible apply Only.via (Q := [.att]) (Only.modAtt _ _)
    | with_reducible apply Only.viaFuse
    | (intro v; dsimp only; split <;> rfl)

theorem aliasKeys_only (svn : Nat) (s : State) : Only [.vault, .slots] s (aliasKeys svn s) := by
  unfold aliasKeys
  try dsimp only
  repeat' first
    | with_reducible exact Only.refl _ _
    | with_reducible assumption
    | exact (rfl : (_ : Bool) = true)
    | exact fun _ => rfl
    | intro _
    | split
    | with_reducible apply Only.via (Q := [.vault, .slots]) (fillPair_only _ _ _ _ _)
    | with_reducible apply Only.via (Q := [.vault, .slots]) (fillSlot_only _ _ _ _)

theorem debugPass_only (s : State) : Only [.fuse] s (debugPass s) := by
  unfold debugPass
  try dsimp only
  repeat' first
    | with_reducible exact Only.refl _ _
    | with_reducible assumption
    | exact (rfl : (_ : Bool) = true)
    | exact fun _ => rfl
    | intro _
    | split
    | with_reducible apply Only.viaFuse
    | (intro v; dsimp only; split <;> rfl)

theorem certify_only (svn : Nat) (s : State) : Only [.freeCtr, .att, .ports] s (certify svn s) := by
  unfold certify
  try dsimp only
  repeat' first
    | with_reducible exact Only.refl _ _
    | with_reducible assumption
    | exact (rfl : (_ : Bool) = true)
    | exact fun _ => rfl
    | intro _
    | split
    | with_reducible apply Only.via (Q := [.freeCtr]) (state_used_only _)
    | with_reducible apply Only.via (Q := [.att]) (Only.modAtt _ _)
    | with_reducible apply Only.via (Q := [.ports]) (Only.modPorts _ _)

theorem markAttempt_only (c : Candidate) (s : State) : Only [.freeCtr, .flash] s (markAttempt c s) := by
  unfold markAttempt
  try dsimp only
  repeat' first
    | with_reducible exact Only.refl _ _
    | with_reducible assumption
    | exact (rfl : (_ : Bool) = true)
    | exact fun _ => rfl
    | intro _
    | split
    | with_reducible apply Only.via (Q := [.freeCtr]) (state_used_only _)
    | with_reducible apply Only.via (Q := [.flash]) (flashProgram_only _ _ _)

theorem romLoad_only (c : Candidate) (reason : Nat) (s : State) : Only [.freeCtr, .vault, .slots, .att, .boot, .flash, .ports] s (romLoad c reason s) := by
  unfold romLoad
  try dsimp only
  repeat' first
    | with_reducible exact Only.refl _ _
    | with_reducible assumption
    | exact (rfl : (_ : Bool) = true)
    | exact fun _ => rfl
    | intro _
    | split
    | with_reducible apply Only.via (Q := [.freeCtr]) (state_used_only _)
    | with_reducible apply Only.via (Q := [.vault, .slots]) (aliasKeys_only _ _)
    | with_reducible apply Only.via (Q := [.freeCtr, .att, .ports]) (certify_only _ _)
    | with_reducible apply Only.via (Q := [.flash]) (countWrite_only _ _)
    | with_reducible apply Only.via (Q := [.freeCtr, .flash]) (markAttempt_only _ _)
    | with_reducible apply Only.via (Q := [.att]) (Only.modAtt _ _)
    | with_reducible apply Only.via (Q := [.boot]) (Only.modBoot _ _)
    | with_reducible refine Only.ofPair (by assumption) ?_
    | with_reducible refine Only.ofTriple (by assumption) ?_

theorem openRecovery_only (reason : Nat) (s : State) : Only [.boot] s (openRecovery reason s) := by
  unfold openRecovery
  try dsimp only
  repeat' first
    | with_reducible exact Only.refl _ _
    | with_reducible assumption
    | exact (rfl : (_ : Bool) = true)
    | exact fun _ => rfl
    | intro _
    | split
    | with_reducible apply Only.via (Q := [.boot]) (Only.modBoot _ _)

theorem flashUp_only (octal : Bool) (s : State) : Only [.timer, .ports] s (flashUp octal s) := by
  unfold flashUp
  try dsimp only
  repeat' first
    | with_reducible exact Only.refl _ _
    | with_reducible assumption
    | exact (rfl : (_ : Bool) = true)
    | exact fun _ => rfl
    | intro _
    | split
    | with_reducible apply Only.via (Q := [.timer]) (reachTime_only _ _)
    | with_reducible apply Only.via (Q := [.ports]) (Only.modPorts _ _)

theorem romFlow_only (octal : Bool) (s : State) : Only [.timer, .freeCtr, .vault, .slots, .att, .boot, .flash, .fuse, .ports] s (romFlow octal s) := by
  unfold romFlow
  try dsimp only
  repeat' first
    | with_reducible exact Only.refl _ _
    | with_reducible assumption
    | exact (rfl : (_ : Bool) = true)
    | exact fun _ => rfl
    | intro _
    | split
    | with_reducible apply Only.via (Q := [.fuse]) (debugPass_only _)
    | with_reducible apply Only.via (Q := [.timer, .ports]) (flashUp_only _ _)
    | with_reducible apply Only.via (Q := [.boot]) (openRecovery_only _ _)
    | with_reducible apply Only.via (Q := [.vault, .slots, .att, .fuse]) (romKeys_only _)
    | with_reducible apply Only.via (Q := [.freeCtr, .vault, .slots, .att, .boot, .flash, .ports]) (romLoad_only _ _ _)
    | with_reducible apply Only.via (Q := [.att]) (Only.modAtt _ _)

theorem startService_only (s : State) : Only [.freeCtr, .guards, .dies, .head, .ks, .ent, .dma] s (startService s) := by
  unfold startService
  try dsimp only
  repeat' first
    | with_reducible exact Only.refl _ _
    | with_reducible assumption
    | exact (rfl : (_ : Bool) = true)
    | exact fun _ => rfl
    | intro _
    | split
    | with_reducible apply Only.forEach
    | with_reducible apply Only.onlyIf
    | with_reducible apply Only.via (Q := [.freeCtr, .ks, .dma]) (readRegions_only _ _ _ _ _)
    | with_reducible apply Only.via (Q := [.guards, .dies, .head, .ent]) (startSeal_only _ _)
    | with_reducible apply Only.via (Q := [.dies, .head, .ks]) (startSync_only _ _)
    | dsimp only [id]

theorem execBootHandover_only (p : Path) (value : BitVec 32) (s : State) : ∃ t, execBootHandover p value s = .next t ∧ Only [.freeCtr, .guards, .dies, .head, .ks, .vault, .slots, .pk, .dig, .ent, .mower, .att, .tenantBox, .operBox, .boot, .flash, .fuse, .brup, .fq, .mir, .dma, .ports] s t := by
  refine ⟨_, rfl, ?_⟩
  try dsimp only
  repeat' first
    | with_reducible exact Only.refl _ _
    | with_reducible assumption
    | exact (rfl : (_ : Bool) = true)
    | exact fun _ => rfl
    | intro _
    | split
    | with_reducible apply Only.bootWrite
    | with_reducible apply Only.via (Q := [.freeCtr, .vault, .slots, .dig, .dma]) (clearSlot_only _ _)
    | with_reducible apply Only.via (Q := [.flash]) (countKeep_only _)
    | with_reducible apply Only.via (Q := []) (done_only _)
    | with_reducible apply Only.via (Q := [.freeCtr, .vault, .slots, .pk, .dig, .ent, .att, .dma]) (kexSetup_only _)
    | with_reducible apply Only.via (Q := [.freeCtr, .guards, .dies, .head, .ks, .vault, .mower, .att, .tenantBox, .operBox, .brup, .fq, .mir, .dma]) (resumeBringUp_only _)
    | with_reducible apply Only.via (Q := [.dies, .head, .ks, .vault, .mower, .att, .tenantBox, .operBox, .fq, .mir]) (settle_only _)
    | with_reducible apply Only.via (Q := [.freeCtr, .guards, .dies, .head, .ks, .ent, .dma]) (startService_only _)
    | with_reducible apply Only.via (Q := [.brup]) (takePlan_only _ _)
    | with_reducible apply Only.via (Q := [.fuse]) (wipeUds_only _)
    | with_reducible apply Only.via (Q := [.att]) (Only.modAtt _ _)
    | with_reducible apply Only.via (Q := [.boot]) (Only.modBoot _ _)

theorem execBootRelease_only (p : Path) (value : BitVec 32) (s : State) : ∃ t, execBootRelease p value s = .next t ∧ Only [.boot, .ports] s t := by
  refine ⟨_, rfl, ?_⟩
  try dsimp only
  repeat' first
    | with_reducible exact Only.refl _ _
    | with_reducible assumption
    | with_reducible apply Only.foldl
    | with_reducible apply Only.foldlPair
    | exact (rfl : (_ : Bool) = true)
    | exact fun _ => rfl
    | intro _
    | split
    | with_reducible apply Only.bootWrite
    | with_reducible apply Only.via (Q := []) (done_only _)
    | with_reducible apply Only.via (Q := [.boot]) (Only.modBoot _ _)
    | dsimp only

theorem finalise_only (s : State) : Only [.boot, .flash] s (finalise s) := by
  unfold finalise
  try dsimp only
  repeat' first
    | with_reducible exact Only.refl _ _
    | with_reducible assumption
    | exact (rfl : (_ : Bool) = true)
    | exact fun _ => rfl
    | intro _
    | split
    | with_reducible apply Only.via (Q := [.flash]) (commitAppend_only _ _ _ _)
    | with_reducible apply Only.onlyIf
    | with_reducible apply Only.via (Q := [.boot]) (Only.modBoot _ _)

theorem bootCtlWrite_only (value : BitVec 32) (s : State) : Only [.freeCtr, .guards, .dies, .head, .ks, .vault, .slots, .pk, .dig, .ent, .ingest, .mower, .att, .tenantBox, .operBox, .boot, .flash, .fuse, .array, .brup, .fq, .mir, .dma, .ports] s (bootCtlWrite value s) := by
  unfold bootCtlWrite
  try dsimp only
  repeat' first
    | with_reducible exact Only.refl _ _
    | with_reducible assumption
    | exact (rfl : (_ : Bool) = true)
    | exact fun _ => rfl
    | intro _
    | split
    | with_reducible apply Only.via (Q := [.freeCtr, .guards, .dies, .head, .ks, .vault, .slots, .pk, .dig, .ent, .ingest, .mower, .att, .tenantBox, .operBox, .boot, .fuse, .array, .brup, .fq, .mir, .dma, .ports]) (coreReset_only _)
    | with_reducible apply Only.via (Q := [.boot, .flash]) (finalise_only _)
    | with_reducible apply Only.onlyIf

theorem copyOwn_only (t : Nat) (s : State) : Only [.flash] s (copyOwn t s) := by
  unfold copyOwn
  try dsimp only
  repeat' first
    | with_reducible exact Only.refl _ _
    | with_reducible assumption
    | exact (rfl : (_ : Bool) = true)
    | exact fun _ => rfl
    | intro _
    | split
    | with_reducible apply Only.via (Q := [.flash]) (adopt_only _ _ _ _)

theorem cairnCmdWrite_only (value : BitVec 32) (s : State) : Only [.boot, .flash, .fuse] s (cairnCmdWrite value s) := by
  unfold cairnCmdWrite
  try dsimp only
  repeat' first
    | with_reducible exact Only.refl _ _
    | with_reducible assumption
    | exact (rfl : (_ : Bool) = true)
    | exact fun _ => rfl
    | intro _
    | split
    | with_reducible apply Only.via (Q := [.flash]) (copyOwn_only _ _)
    | with_reducible apply Only.via (Q := [.boot]) (Only.modBoot _ _)
    | with_reducible apply Only.viaFuse
    | (intro v; dsimp only; split <;> rfl)

theorem burnBit_only (i : Nat) (ok : Bool) (s : State) : Only [.freeCtr, .fuse, .array] s (burnBit i ok s) := by
  unfold burnBit
  try dsimp only
  repeat' first
    | with_reducible exact Only.refl _ _
    | with_reducible assumption
    | exact (rfl : (_ : Bool) = true)
    | exact fun _ => rfl
    | intro _
    | split
    | with_reducible apply Only.via (Q := [.freeCtr]) (state_used_only _)
    | with_reducible apply Only.via (Q := [.fuse, .array]) (burn_only _ _ _ _)

theorem updateRefused_only (code : BitVec 8) (s : State) : Only [.freeCtr, .att, .tenantBox, .operBox, .boot, .dma] s (updateRefused code s) := by
  unfold updateRefused
  try dsimp only
  repeat' first
    | with_reducible exact Only.refl _ _
    | with_reducible assumption
    | exact (rfl : (_ : Bool) = true)
    | exact fun _ => rfl
    | intro _
    | split
    | with_reducible apply Only.via (Q := [.freeCtr, .dma]) (dmaEnd_only _ _)
    | with_reducible apply Only.via (Q := [.att, .tenantBox, .operBox]) (refuse_only _ _ _)
    | with_reducible apply Only.via (Q := [.boot]) (Only.modBoot _ _)

theorem updateHeader_only (u : Update) (h : Bytes) (s : State) : Only [.freeCtr, .att, .tenantBox, .operBox, .boot, .dma] s (updateHeader u h s) := by
  unfold updateHeader
  try dsimp only
  repeat' first
    | with_reducible exact Only.refl _ _
    | with_reducible assumption
    | exact (rfl : (_ : Bool) = true)
    | exact fun _ => rfl
    | intro _
    | split
    | with_reducible apply Only.via (Q := [.freeCtr, .dma]) (dmaEnd_only _ _)
    | with_reducible apply Only.via (Q := [.freeCtr, .dma]) (dmaRead_only _ _ _ _)
    | with_reducible apply Only.via (Q := [.freeCtr, .att, .tenantBox, .operBox, .boot, .dma]) (updateRefused_only _ _)
    | with_reducible apply Only.via (Q := [.boot]) (Only.modBoot _ _)
    | with_reducible refine Only.ofPair (by assumption) ?_
    | with_reducible refine Only.ofTriple (by assumption) ?_

theorem updateBody_only (u : Update) (body : Bytes) (s : State) : Only [.freeCtr, .att, .tenantBox, .operBox, .boot, .flash, .dma] s (updateBody u body s) := by
  unfold updateBody
  try dsimp only
  repeat' first
    | with_reducible exact Only.refl _ _
    | with_reducible assumption
    | exact (rfl : (_ : Bool) = true)
    | exact fun _ => rfl
    | intro _
    | split
    | with_reducible apply Only.via (Q := [.freeCtr, .dma]) (dmaEnd_only _ _)
    | with_reducible apply Only.via (Q := [.flash]) (programImage_only _ _ _ _)
    | with_reducible apply Only.via (Q := [.freeCtr, .att, .tenantBox, .operBox, .boot, .dma]) (updateRefused_only _ _)
    | with_reducible apply Only.via (Q := [.boot]) (Only.modBoot _ _)

theorem updateRead_only (s : State) : Only [.freeCtr, .att, .tenantBox, .operBox, .boot, .flash, .dma] s (updateRead s) := by
  unfold updateRead
  try dsimp only
  repeat' first
    | with_reducible exact Only.refl _ _
    | with_reducible assumption
    | exact (rfl : (_ : Bool) = true)
    | exact fun _ => rfl
    | intro _
    | split
    | with_reducible apply Only.via (Q := [.freeCtr, .att, .tenantBox, .operBox, .boot, .flash, .dma]) (updateBody_only _ _ _)
    | with_reducible apply Only.via (Q := [.freeCtr, .att, .tenantBox, .operBox, .boot, .dma]) (updateHeader_only _ _ _)

theorem execImageUpdate_only (sess : Nat) (tag : BitVec 32) (body : Bytes) (s : State) : ∃ t, execImageUpdate sess tag body s = .next t ∧ Only [.freeCtr, .att, .tenantBox, .operBox, .boot, .dma] s t := by
  unfold execImageUpdate
  refine Only.actionRow rfl ?_
  try dsimp only
  repeat' first
    | with_reducible exact Only.refl _ _
    | with_reducible assumption
    | exact (rfl : (_ : Bool) = true)
    | exact fun _ => rfl
    | intro _
    | split
    | with_reducible apply Only.via (Q := [.freeCtr, .dma]) (dmaRead_only _ _ _ _)
    | with_reducible apply Only.via (Q := [.att, .tenantBox, .operBox]) (refuse_only _ _ _)
    | with_reducible apply Only.via (Q := [.boot]) (Only.modBoot _ _)
    | with_reducible refine Only.ofPair (by assumption) ?_
    | with_reducible refine Only.ofTriple (by assumption) ?_

end Sys2Proof.Machine
end

