-- ==== Sys2Proof/Laws/OnlyMirror.lean ====
section
/-!
SUPPORT. The parts of State that the operations of Machine/Mirror.lean may change.
-/

namespace Sys2Proof.Machine
open Sys2Proof

theorem standbyFault_only (safety : Bool) (kind unit code reaction detail : Nat) (s : State) : Only [.sby] s (standbyFault safety kind unit code reaction detail s) := by
  unfold standbyFault
  try dsimp only
  repeat' first
    | with_reducible exact Only.refl _ _
    | with_reducible assumption
    | exact (rfl : (_ : Bool) = true)
    | exact fun _ => rfl
    | intro _
    | split
    | with_reducible apply Only.via (Q := [.sby]) (Only.modSby _ _)

theorem mirrorAuth_only (seq : Nat) (s : State) : Only [.fq, .mir] s (mirrorAuth seq s) := by
  unfold mirrorAuth
  try dsimp only
  repeat' first
    | with_reducible exact Only.refl _ _
    | with_reducible assumption
    | exact (rfl : (_ : Bool) = true)
    | exact fun _ => rfl
    | intro _
    | split
    | with_reducible apply Only.via (Q := [.fq]) (raise_only _ _ _ _ _ _ _)
    | with_reducible apply Only.via (Q := [.mir]) (Only.modMir _ _)

theorem beginSession_only (s : State) : Only [.freeCtr, .dies, .head, .ks, .vault, .ent, .mower, .att, .tenantBox, .operBox, .fq, .mir, .sby] s (beginSession s) := by
  unfold beginSession
  try dsimp only
  repeat' first
    | with_reducible exact Only.refl _ _
    | with_reducible assumption
    | exact (rfl : (_ : Bool) = true)
    | exact fun _ => rfl
    | intro _
    | split
    | with_reducible apply Only.via (Q := [.freeCtr]) (state_used_only _)
    | with_reducible apply Only.via (Q := [.ks, .att, .fq]) (checkStore_only _ _)
    | with_reducible apply Only.via (Q := [.ent]) (drawBytes_only _ _)
    | with_reducible apply Only.forEach
    | with_reducible apply Only.via (Q := [.mir]) (mirSend_only _ _)
    | with_reducible apply Only.via (Q := [.dies, .head, .ks, .vault, .mower, .att, .tenantBox, .operBox, .fq, .mir]) (stopWaiting_only _)
    | with_reducible apply Only.via (Q := [.mir]) (Only.modMir _ _)
    | with_reducible apply Only.via (Q := [.sby]) (Only.modSby _ _)
    | with_reducible refine Only.ofPair (by assumption) ?_
    | with_reducible refine Only.ofTriple (by assumption) ?_
    | dsimp only [id]

theorem Only.standbyFrame {ps : List Part} {b s : State} {mine : FrameBody → Bool} {acked : Bool} {wire : Bytes} {k : FrameBody → State → State}
    (h : Only ps b s) (hp : ([.mir, .sby] : List Part).all (fun p => ps.contains p) = true)
    (hk : ∀ f u, Only ps b u → Only ps b (k f u)) : Only ps b (standbyFrame mine acked wire k s) := by
  have hm : ∀ f u, Only ps b u → Only ps b (State.modMir f u) := fun f u hu => Only.via (Only.modMir f u) (Only.sub rfl hp) hu
  have hy : ∀ f u, Only ps b u → Only ps b (State.modSby f u) := fun f u hu => Only.via (Only.modSby f u) (Only.sub rfl hp) hu
  unfold Machine.standbyFrame
  dsimp only
  split
  · exact h
  split
  · exact h
  split
  · exact hm _ _ h
  split
  · exact Only.via (standbyFault_only _ _ _ _ _ _ _) (Only.sub rfl hp) (hm _ _ h)
  · exact Only.onlyIf (hk _ _ (hm _ _ h)) (fun u hu => hy _ _ (hm _ _ hu))

theorem mirPump_only (s : State) : Only [.mir] s (mirPump s) := by
  unfold mirPump
  try dsimp only
  repeat' first
    | with_reducible exact Only.refl _ _
    | with_reducible assumption
    | exact (rfl : (_ : Bool) = true)
    | exact fun _ => rfl
    | intro _
    | split
    | with_reducible apply Only.via (Q := [.mir]) (Only.modMir _ _)

theorem releaseFrame_only (u : Unacked) (s : State) : Only [.dies, .head, .ks, .att, .tenantBox, .operBox] s (releaseFrame u s) := by
  unfold releaseFrame
  try dsimp only
  repeat' first
    | with_reducible exact Only.refl _ _
    | with_reducible assumption
    | exact (rfl : (_ : Bool) = true)
    | exact fun _ => rfl
    | intro _
    | split
    | with_reducible apply Only.forEach
    | with_reducible apply Only.via (Q := [.dies, .head, .ks]) (launch_only _ _)
    | with_reducible apply Only.via (Q := [.att]) (modBatch_only _ _ _)
    | with_reducible apply Only.via (Q := [.att, .tenantBox, .operBox]) (releaseQuotes_only _)
    | with_reducible apply Only.via (Q := [.att, .tenantBox, .operBox]) (reply_only _ _ _)

theorem loseStandby_only (detail : Nat) (s : State) : Only [.dies, .head, .ks, .vault, .mower, .att, .tenantBox, .operBox, .fq, .mir] s (loseStandby detail s) := by
  unfold loseStandby
  try dsimp only
  repeat' first
    | with_reducible exact Only.refl _ _
    | with_reducible assumption
    | exact (rfl : (_ : Bool) = true)
    | exact fun _ => rfl
    | intro _
    | split
    | with_reducible apply Only.via (Q := [.fq]) (raise_only _ _ _ _ _ _ _)
    | with_reducible apply Only.via (Q := [.dies, .head, .ks, .vault, .mower, .att, .tenantBox, .operBox, .fq, .mir]) (stopWaiting_only _)
    | with_reducible apply Only.via (Q := [.mir]) (Only.modMir _ _)

end Sys2Proof.Machine
end

