-- ==== Sys2Proof/Laws/OnlyFailover.lean ====
section
/-!
SUPPORT. The parts of State that the operations of Machine/Failover.lean may change.
-/

namespace Sys2Proof.Machine
open Sys2Proof

theorem pop_fits (q : FaultQ) (h : q.fits = true) : q.pop.fits = true := by
  obtain ⟨h1, h2, h3⟩ := (fits_iff q).mp h
  unfold FaultQ.pop
  split
  · exact h
  · rename_i e es he
    have ht : ({ q with entries := es } : FaultQ).fits = true := by
      unfold FaultQ.general at h1
      unfold FaultQ.reserved at h2
      rw [he] at h1 h2 h3
      refine (fits_iff _).mpr ⟨Nat.le_trans ?_ h1, Nat.le_trans ?_ h2, fun x hx => h3 x (List.mem_cons_of_mem _ hx)⟩
      · exact (List.Sublist.filter _ (List.sublist_cons_self _ _)).length_le
      · exact (List.Sublist.filter _ (List.sublist_cons_self _ _)).length_le
    split
    · exact ht
    · exact place_fits _ _ ht

theorem fqCtlWrite_only (value : BitVec 32) (s : State) : Only [.fq] s (fqCtlWrite value s) := by
  refine Only.modFq _ _ fun h => ?_
  dsimp only
  have hp : (if bitAt value 0 then s.fq.pop else s.fq).fits = true := by
    split
    · exact pop_fits _ h
    · exact h
  split
  · exact hp
  · exact hp

theorem restartWatchdog_only (p : Path) (s : State) : Only [.boot] s (restartWatchdog p s) := by
  unfold restartWatchdog
  try dsimp only
  repeat' first
    | with_reducible exact Only.refl _ _
    | with_reducible assumption
    | exact (rfl : (_ : Bool) = true)
    | exact fun _ => rfl
    | intro _
    | split
    | with_reducible apply Only.onlyIf
    | with_reducible apply Only.via (Q := [.boot]) (Only.modBoot _ _)

theorem execFoWdog_only (p : Path) (_value : BitVec 32) (s : State) : ∃ t, execFoWdog p _value s = .next t ∧ Only [.boot, .ports] s t := by
  refine ⟨_, rfl, ?_⟩
  try dsimp only
  repeat' first
    | with_reducible exact Only.refl _ _
    | with_reducible assumption
    | exact (rfl : (_ : Bool) = true)
    | exact fun _ => rfl
    | intro _
    | split
    | with_reducible apply Only.via (Q := []) (done_only _)
    | with_reducible apply Only.via (Q := [.boot]) (restartWatchdog_only _ _)
    | with_reducible apply Only.writeOwned
    | dsimp only [id]

theorem standbyReset_only (s : State) : Only [.sby] s (standbyReset s) := by
  unfold standbyReset
  try dsimp only
  repeat' first
    | with_reducible exact Only.refl _ _
    | with_reducible assumption
    | exact (rfl : (_ : Bool) = true)
    | exact fun _ => rfl
    | intro _
    | split
    | with_reducible apply Only.via (Q := [.sby]) (Only.modSby _ _)

theorem standbyCoreFails_only (code c : Nat) (s : State) : Only [.sby] s (standbyCoreFails code c s) := by
  unfold standbyCoreFails
  try dsimp only
  repeat' first
    | with_reducible exact Only.refl _ _
    | with_reducible assumption
    | exact (rfl : (_ : Bool) = true)
    | exact fun _ => rfl
    | intro _
    | split
    | with_reducible apply Only.onlyIf
    | with_reducible apply Only.via (Q := [.sby]) (standbyFault_only _ _ _ _ _ _ _)
    | with_reducible apply Only.via (Q := [.sby]) (standbyReset_only _)

theorem coreFails_only (code c : Nat) (s : State) : Only [.freeCtr, .guards, .dies, .head, .ks, .vault, .slots, .pk, .dig, .ent, .ingest, .mower, .att, .tenantBox, .operBox, .boot, .fuse, .array, .brup, .fq, .mir, .dma, .ports] s (coreFails code c s) := by
  unfold coreFails
  try dsimp only
  repeat' first
    | with_reducible exact Only.refl _ _
    | with_reducible assumption
    | exact (rfl : (_ : Bool) = true)
    | exact fun _ => rfl
    | intro _
    | split
    | with_reducible apply Only.via (Q := [.freeCtr, .guards, .dies, .head, .ks, .vault, .slots, .pk, .dig, .ent, .ingest, .mower, .att, .tenantBox, .operBox, .boot, .fuse, .array, .brup, .fq, .mir, .dma, .ports]) (coreReset_only _)
    | with_reducible apply Only.via (Q := [.freeCtr, .dig, .dma]) (digCoreReset_only _ _)
    | with_reducible apply Only.via (Q := [.freeCtr, .vault, .slots, .pk, .ent, .att, .tenantBox, .operBox]) (pkCoreReset_only _ _)
    | with_reducible apply Only.via (Q := [.fq]) (raise_only _ _ _ _ _ _ _)
    | with_reducible apply Only.via (Q := [.boot]) (Only.modBoot _ _)
    | with_reducible apply Only.via (Q := [.mir]) (Only.modMir _ _)

theorem declareLost_only (s : State) : Only [.mir] s (declareLost s) := by
  unfold declareLost
  try dsimp only
  repeat' first
    | with_reducible exact Only.refl _ _
    | with_reducible assumption
    | exact (rfl : (_ : Bool) = true)
    | exact fun _ => rfl
    | intro _
    | split
    | with_reducible apply Only.onlyIf
    | with_reducible apply Only.via (Q := [.mir]) (Only.modMir _ _)

theorem takeTables_only (y : Standby) (s : State) : Only [.dies, .head, .ks, .fq, .mir, .sby, .dma, .ports] s (takeTables y s) :=
  ⟨fun p hp => by cases p <;> first | rfl | exact absurd (by decide) hp, Lasting.of rfl fun h => ⟨h.flash, rfl, rfl, h.tamper⟩⟩

theorem rejoinRing_only (s : State) : Only [.dies] s (rejoinRing s) := by
  unfold rejoinRing
  try dsimp only
  repeat' first
    | with_reducible exact Only.refl _ _
    | with_reducible assumption
    | exact (rfl : (_ : Bool) = true)
    | exact fun _ => rfl
    | intro _
    | split
    | with_reducible apply Only.via (Q := [.dies]) (Only.modDies _ _)

theorem takePlace_only (y : Standby) (s : State) : Only [.freeCtr, .guards, .dies, .head, .ks, .vault, .slots, .pk, .dig, .ent, .ingest, .mower, .att, .tenantBox, .operBox, .boot, .fuse, .array, .brup, .fq, .mir, .sby, .dma, .ports] s (takePlace y s) := by
  unfold takePlace
  try dsimp only
  repeat' first
    | with_reducible exact Only.refl _ _
    | with_reducible assumption
    | exact (rfl : (_ : Bool) = true)
    | exact fun _ => rfl
    | intro _
    | split
    | with_reducible apply Only.via (Q := [.ks, .dma]) (dropReads_only _)
    | with_reducible apply Only.via (Q := [.att, .ports]) (endSessions_only _)
    | with_reducible apply Only.via (Q := [.guards, .dies, .head, .vault, .slots, .pk, .dig, .ent, .ingest, .mower, .att, .tenantBox, .operBox, .boot, .fuse, .brup, .fq, .mir, .ports]) (freshCore_only _)
    | with_reducible apply Only.via (Q := [.freeCtr, .fuse, .array]) (interruptFuse_only _)
    | with_reducible apply Only.via (Q := [.dies]) (rejoinRing_only _)
    | with_reducible apply Only.via (Q := [.dies, .head, .ks, .fq, .mir, .sby, .dma, .ports]) (takeTables_only _ _)
    | with_reducible apply Only.via (Q := [.mir]) (Only.modMir _ _)

theorem takeFaults_only (y : Standby) (s : State) : Only [.fq] s (takeFaults y s) := by
  unfold takeFaults
  try dsimp only
  repeat' first
    | with_reducible exact Only.refl _ _
    | with_reducible assumption
    | exact fun h => h
    | exact push_fits _ _
    | exact (rfl : (_ : Bool) = true)
    | exact fun _ => rfl
    | intro _
    | split
    | with_reducible apply Only.forEach
    | with_reducible apply Only.via (Q := [.fq]) (raise_only _ _ _ _ _ _ _)
    | with_reducible refine Only.via (Q := [.fq]) (Only.modFq _ _ ?_) ?_ ?_

theorem takeUnits_only (s : State) : Only [.freeCtr, .vault, .slots, .pk, .dig, .ent, .ingest, .mower, .brup] s (takeUnits s) := by
  unfold takeUnits
  try dsimp only
  repeat' first
    | with_reducible exact Only.refl _ _
    | with_reducible assumption
    | exact (rfl : (_ : Bool) = true)
    | exact fun _ => rfl
    | intro _
    | split
    | with_reducible apply Only.via (Q := [.freeCtr]) (state_used_only _)
    | with_reducible apply Only.via (Q := [.vault, .slots, .ent]) (drawContextKey_only _)
    | with_reducible apply Only.via (Q := [.brup]) (Only.modBrup _ _)
    | with_reducible apply Only.via (Q := [.dig]) (Only.modDig _ _)
    | with_reducible apply Only.via (Q := [.ent]) (Only.modEnt _ _)
    | with_reducible apply Only.via (Q := [.ingest]) (Only.modIngest _ _)
    | with_reducible apply Only.via (Q := [.mower]) (Only.modMower _ _)
    | with_reducible apply Only.via (Q := [.pk]) (Only.modPk _ _)

theorem takeCores_only (s : State) : Only [.boot] s (takeCores s) := by
  unfold takeCores
  try dsimp only
  repeat' first
    | with_reducible exact Only.refl _ _
    | with_reducible assumption
    | exact (rfl : (_ : Bool) = true)
    | exact fun _ => rfl
    | intro _
    | split
    | with_reducible apply Only.via (Q := [.boot]) (Only.modBoot _ _)

theorem takeImage_only (img : Bytes) (s : State) : Only [.freeCtr, .att, .boot, .brup] s (takeImage img s) := by
  unfold takeImage
  try dsimp only
  repeat' first
    | with_reducible exact Only.refl _ _
    | with_reducible assumption
    | exact (rfl : (_ : Bool) = true)
    | exact fun _ => rfl
    | intro _
    | split
    | with_reducible apply Only.via (Q := [.freeCtr]) (state_used_only _)
    | with_reducible apply Only.via (Q := [.brup]) (takePlan_only _ _)
    | with_reducible apply Only.via (Q := [.att]) (Only.modAtt _ _)
    | with_reducible apply Only.via (Q := [.boot]) (Only.modBoot _ _)

theorem takeIdentity_only (y : Standby) (s : State) : Only [.freeCtr, .vault, .slots, .dig, .att, .boot, .flash, .fuse, .brup, .dma, .ports] s (takeIdentity y s) := by
  unfold takeIdentity
  try dsimp only
  repeat' first
    | with_reducible exact Only.refl _ _
    | with_reducible assumption
    | exact (rfl : (_ : Bool) = true)
    | exact fun _ => rfl
    | intro _
    | split
    | with_reducible apply Only.via (Q := [.freeCtr]) (state_used_only _)
    | with_reducible apply Only.via (Q := [.vault, .slots]) (aliasKeys_only _ _)
    | with_reducible apply Only.via (Q := [.freeCtr, .att, .ports]) (certify_only _ _)
    | with_reducible apply Only.via (Q := [.freeCtr, .vault, .slots, .dig, .dma]) (clearSlot_only _ _)
    | with_reducible apply Only.via (Q := [.flash]) (countKeep_only _)
    | with_reducible apply Only.via (Q := [.flash]) (countWrite_only _ _)
    | with_reducible apply Only.via (Q := [.vault, .slots, .att, .fuse]) (romKeys_only _)
    | with_reducible apply Only.via (Q := [.freeCtr, .att, .boot, .brup]) (takeImage_only _ _)
    | with_reducible apply Only.via (Q := [.fuse]) (wipeUds_only _)
    | with_reducible apply Only.via (Q := [.att]) (Only.modAtt _ _)
    | with_reducible apply Only.viaFuse
    | (intro v; dsimp only; split <;> rfl)
    | with_reducible apply Only.via (Q := [.ports]) (Only.modPorts _ _)
    | with_reducible refine Only.ofPair (by assumption) ?_
    | with_reducible refine Only.ofTriple (by assumption) ?_

theorem fixReaders_only (y : Standby) (s : State) : Only [.dies, .head, .ks] s (fixReaders y s) := by
  unfold fixReaders
  try dsimp only
  repeat' first
    | with_reducible exact Only.refl _ _
    | with_reducible assumption
    | exact (rfl : (_ : Bool) = true)
    | exact fun _ => rfl
    | intro _
    | split
    | with_reducible apply Only.forEach
    | with_reducible apply Only.via (Q := [.dies, .head, .ks]) (launch_only _ _)

theorem resumeDomain_only (r : DomRec) (s : State) : Only [.freeCtr, .dies, .head, .ks, .vault, .mower, .att, .tenantBox, .operBox, .fq, .mir, .dma] s (resumeDomain r s) := by
  unfold resumeDomain
  try dsimp only
  repeat' first
    | with_reducible exact Only.refl _ _
    | with_reducible assumption
    | exact (rfl : (_ : Bool) = true)
    | exact fun _ => rfl
    | intro _
    | split
    | with_reducible apply Only.via (Q := [.dies, .head, .ks, .vault, .mower, .att, .tenantBox, .operBox, .mir]) (closeCreated_only _ _)
    | with_reducible apply Only.forEach
    | with_reducible apply Only.via (Q := [.dies, .head]) (headAll_only _ _)
    | with_reducible apply Only.via (Q := [.dies, .head, .ks]) (launch_only _ _)
    | with_reducible apply Only.via (Q := [.ks]) (modDom_only _ _ _)
    | with_reducible apply Only.onlyIf
    | with_reducible apply Only.via (Q := [.freeCtr, .ks, .dma]) (readRegions_only _ _ _ _ _)
    | with_reducible apply Only.via (Q := [.dies, .head, .ks, .att, .tenantBox, .operBox, .fq, .mir]) (resumeSweep_only _ _ _)
    | dsimp only [id]

theorem resumeModel_only (m : ModelRec) (s : State) : Only [.dies, .head, .ks, .vault, .ingest, .mower, .att, .tenantBox, .operBox, .fq, .mir] s (resumeModel m s) := by
  unfold resumeModel
  try dsimp only
  repeat' first
    | with_reducible exact Only.refl _ _
    | with_reducible assumption
    | exact (rfl : (_ : Bool) = true)
    | exact fun _ => rfl
    | intro _
    | split
    | with_reducible apply Only.via (Q := [.dies, .head, .ks, .vault, .ingest, .mower, .att, .tenantBox, .operBox, .fq, .mir]) (beginTeardown_only _ _ _ _ _ _)
    | with_reducible apply Only.onlyIf

theorem takeover_only (s0 : State) : Only [.freeCtr, .guards, .dies, .head, .ks, .vault, .slots, .pk, .dig, .ent, .ingest, .mower, .att, .tenantBox, .operBox, .boot, .flash, .fuse, .array, .brup, .fq, .mir, .sby, .dma, .ports] s0 (takeover s0) := by
  unfold takeover
  try dsimp only
  repeat' first
    | with_reducible exact Only.refl _ _
    | with_reducible assumption
    | exact (rfl : (_ : Bool) = true)
    | exact fun _ => rfl
    | intro _
    | split
    | with_reducible apply Only.via (Q := [.dies, .head, .ks]) (fixReaders_only _ _)
    | with_reducible apply Only.forEach
    | with_reducible apply Only.via (Q := [.dies, .head]) (headAll_only _ _)
    | with_reducible apply Only.via (Q := [.freeCtr, .vault, .slots, .pk, .dig, .ent, .att, .dma]) (kexSetup_only _)
    | with_reducible apply Only.onlyIf
    | with_reducible apply Only.via (Q := [.freeCtr, .dies, .head, .ks, .vault, .mower, .att, .tenantBox, .operBox, .fq, .mir, .dma]) (resumeDomain_only _ _)
    | with_reducible apply Only.via (Q := [.dies, .head, .ks, .vault, .ingest, .mower, .att, .tenantBox, .operBox, .fq, .mir]) (resumeModel_only _ _)
    | with_reducible apply Only.via (Q := [.dies, .head, .ks, .vault, .mower, .att, .tenantBox, .operBox, .fq, .mir]) (settle_only _)
    | with_reducible apply Only.via (Q := [.dies, .head, .ks]) (startSync_only _ _)
    | with_reducible apply Only.via (Q := [.boot]) (takeCores_only _)
    | with_reducible apply Only.via (Q := [.fq]) (takeFaults_only _ _)
    | with_reducible apply Only.via (Q := [.freeCtr, .vault, .slots, .dig, .att, .boot, .flash, .fuse, .brup, .dma, .ports]) (takeIdentity_only _ _)
    | with_reducible apply Only.via (Q := [.freeCtr, .guards, .dies, .head, .ks, .vault, .slots, .pk, .dig, .ent, .ingest, .mower, .att, .tenantBox, .operBox, .boot, .fuse, .array, .brup, .fq, .mir, .sby, .dma, .ports]) (takePlace_only _ _)
    | with_reducible apply Only.via (Q := [.freeCtr, .vault, .slots, .pk, .dig, .ent, .ingest, .mower, .brup]) (takeUnits_only _)
    | with_reducible apply Only.via (Q := [.brup]) (Only.modBrup _ _)

end Sys2Proof.Machine
end

