-- ==== Sys2Proof/Laws/OnlyFlags.lean ====
section
/-!
SUPPORT. The parts of State that the operations of Machine/Flags.lean may change.
-/

namespace Sys2Proof.Machine
open Sys2Proof

theorem modHdr_only (f : PageHdr → PageHdr) (s : State) (p : Page) : Only [.guards, .dies, .vault, .pk, .dig, .ent, .ingest, .mower, .att, .tenantBox, .operBox, .boot, .fuse, .brup, .fq, .mir, .ports] s (modHdr f s p) := by
  cases p <;> unfold modHdr <;> first
    | exact Only.via (Only.modPorts _ _) rfl (Only.refl _ _)
    | exact Only.via (Only.modBoot _ _) rfl (Only.refl _ _)
    | exact Only.viaFuse (fun _ => rfl) rfl (Only.refl _ _)
    | exact Only.via (Only.modBrup _ _) rfl (Only.refl _ _)
    | exact Only.via (Only.modFq _ _ (fun h => h)) (by decide) (Only.refl _ _)
    | exact Only.via (Only.modMir _ _) rfl (Only.refl _ _)
    | exact Only.viaVault (fun _ => rfl) rfl (Only.refl _ _)
    | exact Only.via (Only.modPk _ _) rfl (Only.refl _ _)
    | exact Only.via (modSlot_only _ _ _) rfl (Only.refl _ _)
    | exact Only.via (Only.modDig _ _) rfl (Only.refl _ _)
    | exact Only.via (modCtx_only _ _ _) rfl (Only.refl _ _)
    | exact Only.via (Only.modEnt _ _) rfl (Only.refl _ _)
    | exact Only.via (Only.modIngest _ _) rfl (Only.refl _ _)
    | exact Only.via (Only.modMower _ _) rfl (Only.refl _ _)
    | exact Only.via (Only.modAtt _ _) rfl (Only.refl _ _)
    | exact Only.via (modBox_only _ _ _) rfl (Only.refl _ _)
    | exact Only.via (Only.modDie _ _ _) rfl (Only.refl _ _)
    | exact Only.via (Only.modGuard _ _ _) rfl (Only.refl _ _)

end Sys2Proof.Machine
end

