-- ==== Sys2Proof/Laws/OnlyIngest.lean ====
section
/-!
SUPPORT. The parts of State that the operations of Machine/Ingest.lean may change.
-/

namespace Sys2Proof.Machine
open Sys2Proof

theorem IngestRes.state_good (x : BitVec 512) (t : State) : (IngestRes.good x t).state = t := rfl

theorem IngestRes.state_bad (t : State) : (IngestRes.bad t).state = t := rfl

theorem IngestRes.state_wait (t : State) : (IngestRes.wait t).state = t := rfl

theorem Only.iteState {ps : List Part} {s : State} {c : Prop} [Decidable c] {a b : IngestRes} (ha : Only ps s a.state) (hb : Only ps s b.state) :
    Only ps s (if c then a else b).state := by
  split
  · exact ha
  · exact hb

theorem keyWaits_only {ps : List Part} {b s : State} (g d : Nat) (older bit : Bool) (k : State → IngestRes)
    (hp : ([.guards, .dies, .ingest] : List Part).all (fun p => ps.contains p) = true) (h : Only ps b s) (hk : ∀ u, Only ps b u → Only ps b (k u).state) :
    Only ps b (keyWaits g d older bit k s).state :=
  Only.iteState (hk _ h) (Only.via (slotFor_only _ _ _ _ _) (Only.sub rfl hp) (Only.onlyIf h
    (fun u hu => Only.via (Only.modIngest _ _) (Only.sub rfl hp) (Only.via (countMiss_only _ _) (Only.sub rfl hp) hu))))

theorem stageRead_only (d g a : Nat) (ans : LineAnswer) (s : State) : Only [.freeCtr, .guards, .dies, .ks, .ingest, .mower, .fq, .tagWindow] s (stageRead d g a ans s).state := by
  unfold stageRead
  dsimp only
  repeat' first
    | with_reducible exact Only.refl _ _
    | exact (rfl : (_ : Bool) = true)
    | with_reducible assumption
    | (intro u hu; try dsimp only [IngestRes.state])
    | (with_reducible refine keyWaits_only _ _ _ _ _ ?_ ?_ ?_)
    | with_reducible refine Only.iteState ?_ ?_
    | split
    | with_reducible apply Only.via (Only.modIngest _ _)
    | with_reducible apply Only.via (slotFor_only _ _ _ _ _)
    | with_reducible apply Only.via (countMiss_only _ _)
    | with_reducible apply Only.via (bindFailed_only _ _ _ _ _)
    | with_reducible apply Only.via (driveBeat_only _ _ _ _ _ _)
    | with_reducible apply Only.via (tagFailed_only _ _ _ _)
    | dsimp only [shareWaits, IngestRes.state_good, IngestRes.state_bad, IngestRes.state_wait]

theorem placeWrite_only (m g a : Nat) (data : BitVec 512) (err : Bool) (s : State) : Only [.freeCtr, .guards, .dies, .ks, .ingest, .mower, .fq] s (placeWrite m g a data err s).state := by
  unfold placeWrite
  dsimp only
  repeat' first
    | with_reducible exact Only.refl _ _
    | exact (rfl : (_ : Bool) = true)
    | with_reducible assumption
    | (intro u hu; try dsimp only [IngestRes.state])
    | (with_reducible refine keyWaits_only _ _ _ _ _ ?_ ?_ ?_)
    | with_reducible refine Only.iteState ?_ ?_
    | split
    | with_reducible apply Only.via (Only.modIngest _ _)
    | with_reducible apply Only.via (slotFor_only _ _ _ _ _)
    | with_reducible apply Only.via (countMiss_only _ _)
    | with_reducible apply Only.via (bindFailed_only _ _ _ _ _)
    | with_reducible apply Only.via (driveBeat_only _ _ _ _ _ _)
    | dsimp only [shareWaits, IngestRes.state_good, IngestRes.state_bad, IngestRes.state_wait]

theorem readLines_only (j : IngestJob) (k : Nat) (l : List LineAnswer) (acc : Bytes) (s : State) :
    Only [.freeCtr, .guards, .dies, .ks, .ingest, .mower, .fq, .tagWindow] s (readLines j k l acc s).2.2 := by
  induction l generalizing k acc s with
  | nil => exact Only.refl _ _
  | cons a l ih =>
    unfold readLines
    split
    · exact Only.refl _ _
    · rename_i g a' _
      have h := stageRead_only j.staging g a' a s
      split <;> rename_i e <;> rw [e] at h
      · exact Only.trans h (ih _ _ _)
      · exact h
      · exact h

theorem writeLines_only (j : IngestJob) (k : Nat) (l : List (Bytes × Bool)) (n : Nat) (s : State) :
    Only [.freeCtr, .guards, .dies, .ks, .ingest, .mower, .fq] s (writeLines j k l n s).2.2 := by
  induction l generalizing k n s with
  | nil => exact Only.refl _ _
  | cons a l ih =>
    unfold writeLines
    split
    · exact Only.refl _ _
    · rename_i g a' _
      have h := placeWrite_only j.model g a' (bytesVec 512 a.1) a.2 s
      split <;> rename_i e <;> rw [e] at h
      · exact Only.via (Q := [.freeCtr, .guards, .dies, .ks, .ingest, .mower, .fq]) h rfl (Only.refl _ _) |>.trans (ih _ _ _)
      · exact Only.via (Q := [.freeCtr, .guards, .dies, .ks, .ingest, .mower, .fq]) h rfl (Only.refl _ _)
      · exact Only.via (Q := [.freeCtr, .guards, .dies, .ks, .ingest, .mower, .fq]) h rfl (Only.refl _ _)

theorem ingestWaits_only (s : State) : Only [.dies, .head, .ks, .vault, .mower, .att, .tenantBox, .operBox, .fq, .mir] s (ingestWaits s) := by
  unfold ingestWaits
  try dsimp only
  repeat' first
    | with_reducible exact Only.refl _ _
    | with_reducible assumption
    | exact (rfl : (_ : Bool) = true)
    | exact fun _ => rfl
    | intro _
    | split
    | with_reducible apply Only.via (Q := [.dies, .head, .ks, .vault, .mower, .att, .tenantBox, .operBox, .fq, .mir]) (settle_only _)

theorem countAuth_only (s : State) : Only [.ingest] s (countAuth s) := by
  unfold countAuth
  try dsimp only
  repeat' first
    | with_reducible exact Only.refl _ _
    | with_reducible assumption
    | exact (rfl : (_ : Bool) = true)
    | exact fun _ => rfl
    | intro _
    | split
    | with_reducible apply Only.via (Q := [.ingest]) (Only.modIngest _ _)

theorem ingestDone_only (j : IngestJob) (root : Bytes) (s : State) : Only [.dies, .head, .ks, .vault, .ingest, .mower, .att, .tenantBox, .operBox, .mir] s (ingestDone j root s) := by
  unfold ingestDone
  try dsimp only
  repeat' first
    | with_reducible exact Only.refl _ _
    | with_reducible assumption
    | exact (rfl : (_ : Bool) = true)
    | exact fun _ => rfl
    | intro _
    | split
    | with_reducible apply Only.via (Q := [.dies, .head, .ks, .att, .tenantBox, .operBox, .mir]) (commit_only _ _ _ _)
    | with_reducible apply Only.via (Q := [.vault, .ingest, .mower, .att]) (ingestOver_only _ _ _ _)
    | with_reducible apply Only.via (Q := [.ks]) (modModel_only _ _ _)

theorem execIngestAbort_only (p : Path) (value : BitVec 32) (s : State) : ∃ t, execIngestAbort p value s = .next t ∧ Only [.dies, .head, .ks, .vault, .ingest, .mower, .att, .tenantBox, .operBox, .fq, .mir, .ports] s t := by
  refine ⟨_, rfl, ?_⟩
  try dsimp only
  repeat' first
    | with_reducible exact Only.refl _ _
    | with_reducible assumption
    | exact (rfl : (_ : Bool) = true)
    | exact fun _ => rfl
    | intro _
    | split
    | with_reducible apply Only.via (Q := []) (done_only _)
    | with_reducible apply Only.via (Q := [.dies, .head, .ks, .vault, .ingest, .mower, .att, .tenantBox, .operBox, .fq, .mir]) (endIngest_only _ _ _)
    | with_reducible apply Only.onlyIf
    | with_reducible apply Only.via (Q := [.dies, .head, .ks, .vault, .mower, .att, .tenantBox, .operBox, .fq, .mir]) (settle_only _)
    | with_reducible apply Only.writeAt

end Sys2Proof.Machine
end

