-- ==== Sys2Proof/Laws/OnlyPkQueue.lean ====
section
/-!
SUPPORT. The parts of State that the operations of Machine/PkQueue.lean may change.
-/

namespace Sys2Proof.Machine
open Sys2Proof

theorem pkCmdWrite_only (slot : Nat) (value : BitVec 32) (s : State) : Only [.freeCtr, .pk] s (pkCmdWrite slot value s) := by
  unfold pkCmdWrite
  try dsimp only
  repeat' first
    | with_reducible exact Only.refl _ _
    | with_reducible assumption
    | exact (rfl : (_ : Bool) = true)
    | exact fun _ => rfl
    | intro _
    | split
    | with_reducible apply Only.via (Q := [.pk]) (modSlot_only _ _ _)
    | with_reducible apply Only.onlyIf
    | with_reducible apply Only.via (Q := [.freeCtr, .pk]) (pkSubmit_only _ _)
    | with_reducible apply Only.via (Q := [.pk]) (Only.modPk _ _)

theorem pkRow_only (op : Nat) (slot : Fin 8) (p : Path) (value : BitVec 32) (s : State) : Only [.freeCtr, .pk, .ports] s (pkRow op slot p value s) := by
  unfold pkRow
  try dsimp only
  repeat' first
    | with_reducible exact Only.refl _ _
    | with_reducible assumption
    | exact (rfl : (_ : Bool) = true)
    | exact fun _ => rfl
    | intro _
    | split
    | with_reducible apply Only.onlyIf
    | with_reducible apply Only.via (Q := [.freeCtr, .pk]) (pkCmdWrite_only _ _ _)
    | with_reducible apply Only.via (Q := [.pk]) (pkForeign_only _)
    | with_reducible apply Only.writeOwned

end Sys2Proof.Machine
end

