-- ==== Sys2Proof/Laws/OnlyRegisters.lean ====
section
/-!
SUPPORT. The parts of State that the operations of Machine/Registers.lean may change.
-/

namespace Sys2Proof.Machine
open Sys2Proof

theorem readForeign_only (p : Path) (addr : Nat) (s : State) : Only [.pk] s (readForeign p addr s) := by
  unfold readForeign
  try dsimp only
  repeat' first
    | with_reducible exact Only.refl _ _
    | with_reducible assumption
    | exact (rfl : (_ : Bool) = true)
    | exact fun _ => rfl
    | intro _
    | split
    | with_reducible apply Only.via (Q := [.pk]) (pkForeign_only _)

theorem readLatch_only (p : Path) (addr : Nat) (s : State) : Only [.ports] s (readLatch p addr s) := by
  unfold readLatch
  try dsimp only
  repeat' first
    | with_reducible exact Only.refl _ _
    | with_reducible assumption
    | exact (rfl : (_ : Bool) = true)
    | exact fun _ => rfl
    | intro _
    | split
    | with_reducible apply Only.via (Q := [.ports]) (Only.modPorts _ _)

theorem readWipe_only (p : Path) (addr : Nat) (s : State) : Only [.ent] s (readWipe p addr s) := by
  unfold readWipe
  try dsimp only
  repeat' first
    | with_reducible exact Only.refl _ _
    | with_reducible assumption
    | exact (rfl : (_ : Bool) = true)
    | exact fun _ => rfl
    | intro _
    | split
    | with_reducible apply Only.via (Q := [.ent]) (Only.modEnt _ _)

theorem readEffects_only (p : Path) (addr : Nat) (s : State) : Only [.pk, .ent, .ports] s (readEffects p addr s) := by
  unfold readEffects
  try dsimp only
  repeat' first
    | with_reducible exact Only.refl _ _
    | with_reducible assumption
    | exact (rfl : (_ : Bool) = true)
    | exact fun _ => rfl
    | intro _
    | split
    | with_reducible apply Only.via (Q := [.pk]) (readForeign_only _ _ _)
    | with_reducible apply Only.via (Q := [.ports]) (readLatch_only _ _ _)
    | with_reducible apply Only.via (Q := [.ent]) (readWipe_only _ _ _)

theorem readAt_only (p : Path) (addr : Nat) (s : State) : Only [.freeCtr, .pk, .ent, .ports] s (readAt p addr s) := by
  unfold readAt
  try dsimp only
  repeat' first
    | with_reducible exact Only.refl _ _
    | with_reducible assumption
    | exact (rfl : (_ : Bool) = true)
    | exact fun _ => rfl
    | intro _
    | split
    | with_reducible apply Only.via (Q := [.freeCtr]) (state_used_only _)
    | with_reducible apply Only.via (Q := [.ports]) (accessError_only _ _)
    | with_reducible apply Only.via (Q := [.ports]) (accessOk_only _ _ _)
    | with_reducible apply Only.via (Q := [.pk, .ent, .ports]) (readEffects_only _ _ _)

theorem Only.stateOr {ps : List Part} {s u : State} {o : Out} (h : ∃ t, o = .next t ∧ Only ps s t) : Only ps s (Out.stateOr u o) := by
  obtain ⟨t, rfl, h⟩ := h
  exact h

theorem bootForeign_only (s : State) : Only [.boot] s (bootForeign s) := by
  unfold bootForeign
  try dsimp only
  repeat' first
    | with_reducible exact Only.refl _ _
    | with_reducible assumption
    | exact (rfl : (_ : Bool) = true)
    | exact fun _ => rfl
    | intro _
    | split
    | with_reducible apply Only.via (Q := [.boot]) (Only.modBoot _ _)

theorem headerWrite_only (p : Path) (pg : Page) (addr : Nat) (value : BitVec 32) (s : State) : Only [.guards, .dies, .vault, .pk, .dig, .ent, .ingest, .mower, .att, .tenantBox, .operBox, .boot, .fuse, .brup, .fq, .mir, .ports] s (headerWrite p pg addr value s) := by
  unfold headerWrite
  try dsimp only
  repeat' first
    | with_reducible exact Only.refl _ _
    | with_reducible assumption
    | exact (rfl : (_ : Bool) = true)
    | exact fun _ => rfl
    | intro _
    | split
    | with_reducible apply Only.via (Q := [.boot]) (bootForeign_only _)
    | with_reducible apply Only.via (Q := [.dig]) (digForeign_only _)
    | with_reducible apply Only.via (Q := [.guards, .dies, .vault, .pk, .dig, .ent, .ingest, .mower, .att, .tenantBox, .operBox, .boot, .fuse, .brup, .fq, .mir, .ports]) (modHdr_only _ _ _)
    | with_reducible apply Only.via (Q := [.pk]) (pkForeign_only _)
    | with_reducible apply Only.writeAt
    | with_reducible apply Only.writeOwned
    | dsimp only [id]

theorem ignoredWrite_only (p : Path) (pg : Page) (addr : Nat) (s : State) : Only [.pk, .dig, .boot, .ports] s (ignoredWrite p pg addr s) := by
  unfold ignoredWrite
  try dsimp only
  repeat' first
    | with_reducible exact Only.refl _ _
    | with_reducible assumption
    | exact (rfl : (_ : Bool) = true)
    | exact fun _ => rfl
    | intro _
    | split
    | with_reducible apply Only.via (Q := [.boot]) (bootForeign_only _)
    | with_reducible apply Only.via (Q := [.dig]) (digForeign_only _)
    | with_reducible apply Only.via (Q := [.pk]) (pkForeign_only _)
    | with_reducible apply Only.writeAt
    | with_reducible apply Only.writeGated
    | with_reducible apply Only.writeOwned
    | dsimp only [id]

theorem guardPut_only (p : Path) (g : Fin 40) (k off addr : Nat) (value : BitVec 32) (s : State) : Only [.guards, .dies, .head, .ks, .vault, .pk, .dig, .mower, .att, .tenantBox, .operBox, .boot, .fq, .mir, .ports] s (guardPut p g k off addr value s) := by
  unfold guardPut
  try dsimp only
  repeat' first
    | with_reducible exact Only.refl _ _
    | with_reducible assumption
    | exact (rfl : (_ : Bool) = true)
    | exact fun _ => rfl
    | intro _
    | split
    | with_reducible apply Only.via (Q := [.guards, .dies, .head, .ks, .vault, .mower, .att, .tenantBox, .operBox, .fq, .mir, .ports]) (Only.stateOr (execFence_only _ _ _ _))
    | with_reducible apply Only.via (Q := [.guards, .ports]) (Only.stateOr (execGuardErrClear_only _ _ _ _))
    | with_reducible apply Only.via (Q := [.guards, .ports]) (Only.stateOr (execGuardLaneShare_only _ _ _ _))
    | with_reducible apply Only.via (Q := [.guards, .ports]) (Only.stateOr (execGuardMissClear_only _ _ _ _))
    | with_reducible apply Only.via (Q := [.guards, .ports]) (Only.stateOr (execGuardTagfailClear_only _ _ _ _))
    | with_reducible apply Only.via (Q := [.guards, .ports]) (Only.stateOr (execGuardThrottle_only _ _ _ _))
    | with_reducible apply Only.via (Q := [.guards, .dies, .ports]) (Only.stateOr (execKcPin_only _ _ _ _))
    | with_reducible apply Only.via (Q := [.guards, .ports]) (Only.stateOr (execKcQuery_only _ _ _ _))
    | with_reducible apply Only.via (Q := [.guards, .ports]) (Only.stateOr (execKcUnpin_only _ _ _ _))
    | with_reducible apply Only.via (Q := [.pk, .dig, .boot, .ports]) (ignoredWrite_only _ _ _ _)
    | with_reducible apply Only.writeAt
    | with_reducible apply Only.via (Q := [.guards]) (Only.modGuard _ _ _)
    | dsimp only [id]

theorem diePut_only (p : Path) (d k off addr : Nat) (value : BitVec 32) (s : State) : Only [.dies, .pk, .dig, .boot, .ports] s (diePut p d k off addr value s) := by
  unfold diePut
  try dsimp only
  repeat' first
    | with_reducible exact Only.refl _ _
    | with_reducible assumption
    | exact (rfl : (_ : Bool) = true)
    | exact fun _ => rfl
    | intro _
    | split
    | with_reducible apply Only.via (Q := [.pk, .dig, .boot, .ports]) (ignoredWrite_only _ _ _ _)
    | with_reducible apply Only.writeAt
    | with_reducible apply Only.via (Q := [.dies]) (Only.modDie _ _ _)

theorem bootPut_only (p : Path) (off addr : Nat) (value : BitVec 32) (s : State) : Only [.freeCtr, .guards, .dies, .head, .ks, .vault, .slots, .pk, .dig, .ent, .ingest, .mower, .att, .tenantBox, .operBox, .boot, .flash, .fuse, .array, .brup, .fq, .mir, .dma, .ports] s (bootPut p off addr value s) := by
  unfold bootPut
  try dsimp only
  repeat' first
    | with_reducible exact Only.refl _ _
    | with_reducible assumption
    | exact (rfl : (_ : Bool) = true)
    | exact fun _ => rfl
    | intro _
    | split
    | with_reducible apply Only.via (Q := [.freeCtr, .guards, .dies, .head, .ks, .vault, .slots, .pk, .dig, .ent, .ingest, .mower, .att, .tenantBox, .operBox, .boot, .flash, .fuse, .array, .brup, .fq, .mir, .dma, .ports]) (bootCtlWrite_only _ _)
    | with_reducible apply Only.bootWrite
    | with_reducible apply Only.via (Q := [.boot, .flash, .fuse]) (cairnCmdWrite_only _ _)
    | with_reducible apply Only.via (Q := [.freeCtr, .guards, .dies, .head, .ks, .vault, .slots, .pk, .dig, .ent, .mower, .att, .tenantBox, .operBox, .boot, .flash, .fuse, .brup, .fq, .mir, .dma, .ports]) (Only.stateOr (execBootHandover_only _ _ _))
    | with_reducible apply Only.via (Q := [.boot, .ports]) (Only.stateOr (execBootRelease_only _ _ _))
    | with_reducible apply Only.via (Q := [.pk, .dig, .boot, .ports]) (ignoredWrite_only _ _ _ _)
    | with_reducible apply Only.via (Q := [.boot]) (Only.modBoot _ _)

theorem fusePut_only (p : Path) (off addr : Nat) (value : BitVec 32) (s : State) : Only [.pk, .dig, .boot, .fuse, .ports] s (fusePut p off addr value s) := by
  unfold fusePut
  try dsimp only
  repeat' first
    | with_reducible exact Only.refl _ _
    | with_reducible assumption
    | exact (rfl : (_ : Bool) = true)
    | exact fun _ => rfl
    | intro _
    | split
    | with_reducible apply Only.via (Q := [.fuse]) (armWrite_only _ _)
    | with_reducible apply Only.via (Q := [.fuse, .ports]) (Only.stateOr (execTmxCtl_only _ _ _))
    | with_reducible apply Only.via (Q := [.fuse]) (fuseCmdWrite_only _ _)
    | with_reducible apply Only.fuseWrite
    | with_reducible apply Only.via (Q := [.pk, .dig, .boot, .ports]) (ignoredWrite_only _ _ _ _)
    | with_reducible apply Only.via (Q := [.fuse]) (lcCmdWrite_only _ _)
    | with_reducible apply Only.writeAt
    | with_reducible apply Only.viaFuse
    | (intro v; dsimp only; split <;> rfl)

theorem vaultPut_only (p : Path) (off addr : Nat) (value : BitVec 32) (s : State) : Only [.freeCtr, .vault, .slots, .pk, .dig, .ent, .boot, .dma, .ports] s (vaultPut p off addr value s) := by
  unfold vaultPut
  try dsimp only
  repeat' first
    | with_reducible exact Only.refl _ _
    | with_reducible assumption
    | exact (rfl : (_ : Bool) = true)
    | exact fun _ => rfl
    | intro _
    | split
    | with_reducible apply Only.via (Q := [.pk, .dig, .boot, .ports]) (ignoredWrite_only _ _ _ _)
    | with_reducible apply Only.via (Q := [.freeCtr, .vault, .slots, .pk, .dig, .ent, .dma]) (vaultCmdWrite_only _ _ _)
    | with_reducible apply Only.via (Q := [.freeCtr, .vault, .slots, .pk, .dig, .ent, .dma, .ports]) (vaultGo_only _ _ _)
    | with_reducible apply Only.writeAt
    | with_reducible apply Only.viaVault
    | (intro v; dsimp only; split <;> rfl)

theorem jobPut_only (p : Path) (n off addr : Nat) (value : BitVec 32) (s : State) : Only [.freeCtr, .vault, .slots, .pk, .dig, .ent, .att, .tenantBox, .operBox, .boot, .ports] s (jobPut p n off addr value s) := by
  unfold jobPut
  try dsimp only
  repeat' first
    | with_reducible exact Only.refl _ _
    | with_reducible assumption
    | exact (rfl : (_ : Bool) = true)
    | exact fun _ => rfl
    | intro _
    | split
    | with_reducible apply Only.via (Q := [.pk, .dig, .boot, .ports]) (ignoredWrite_only _ _ _ _)
    | with_reducible apply Only.via (Q := [.pk]) (modSlot_only _ _ _)
    | with_reducible apply Only.via (Q := [.freeCtr, .pk]) (pkCmdWrite_only _ _ _)
    | with_reducible apply Only.via (Q := [.freeCtr, .vault, .slots, .pk, .ent, .att, .tenantBox, .operBox]) (pkCtlWrite_only _ _ _)
    | with_reducible apply Only.via (Q := [.pk]) (pkForeign_only _)
    | with_reducible apply Only.writeGated
    | with_reducible apply Only.writeOwned
    | with_reducible apply Only.via (Q := [.pk]) (Only.modPk _ _)

theorem digPut_only (p : Path) (off addr : Nat) (value : BitVec 32) (s : State) : Only [.pk, .dig, .boot, .ports] s (digPut p off addr value s) := by
  unfold digPut
  try dsimp only
  repeat' first
    | with_reducible exact Only.refl _ _
    | with_reducible assumption
    | exact (rfl : (_ : Bool) = true)
    | exact fun _ => rfl
    | intro _
    | split
    | with_reducible apply Only.via (Q := [.dig]) (cmpCtlWrite_only _ _ _)
    | with_reducible apply Only.via (Q := [.dig]) (digCtlWrite_only _ _)
    | with_reducible apply Only.via (Q := [.dig]) (discardWrite_only _ _ _)
    | with_reducible apply Only.via (Q := [.dig, .ports]) (Only.stateOr (execDigSelftest_only _ _ _))
    | with_reducible apply Only.via (Q := [.pk, .dig, .boot, .ports]) (ignoredWrite_only _ _ _ _)
    | with_reducible apply Only.via (Q := [.dig]) (modRegion_only _ _ _)
    | with_reducible apply Only.regionWrite
    | with_reducible apply Only.writeAt

theorem ctxPut_only (p : Path) (c off addr : Nat) (value : BitVec 32) (s : State) : Only [.freeCtr, .pk, .dig, .ent, .boot, .dma, .ports] s (ctxPut p c off addr value s) := by
  unfold ctxPut
  try dsimp only
  repeat' first
    | with_reducible exact Only.refl _ _
    | with_reducible assumption
    | exact (rfl : (_ : Bool) = true)
    | exact fun _ => rfl
    | intro _
    | split
    | with_reducible apply Only.via (Q := [.freeCtr, .dig, .ent, .dma]) (ctxCmdWrite_only _ _ _ _)
    | with_reducible apply Only.ctxWrite
    | with_reducible apply Only.via (Q := [.dig]) (dataWord_only _ _ _)
    | with_reducible apply Only.via (Q := [.dig]) (digForeign_only _)
    | with_reducible apply Only.via (Q := [.freeCtr, .dig, .dma]) (feedCtlWrite_only _ _ _)
    | with_reducible apply Only.via (Q := [.pk, .dig, .boot, .ports]) (ignoredWrite_only _ _ _ _)
    | with_reducible apply Only.via (Q := [.dig]) (modCtx_only _ _ _)
    | with_reducible apply Only.writeGated

theorem entPut_only (p : Path) (off addr : Nat) (value : BitVec 32) (s : State) : Only [.pk, .dig, .ent, .boot, .ports] s (entPut p off addr value s) := by
  unfold entPut
  try dsimp only
  repeat' first
    | with_reducible exact Only.refl _ _
    | with_reducible assumption
    | exact (rfl : (_ : Bool) = true)
    | exact fun _ => rfl
    | intro _
    | split
    | with_reducible apply Only.via (Q := [.dig, .ent, .ports]) (Only.stateOr (execEntDraw_only _ _ _ _))
    | with_reducible apply Only.via (Q := [.ent, .ports]) (Only.stateOr (execReseed_only _ _ _))
    | with_reducible apply Only.via (Q := [.pk, .dig, .boot, .ports]) (ignoredWrite_only _ _ _ _)

theorem inDropped_only (operator : Bool) (s : State) : Only [.tenantBox, .operBox] s (inDropped operator s) := by
  unfold inDropped
  try dsimp only
  repeat' first
    | with_reducible exact Only.refl _ _
    | with_reducible assumption
    | exact (rfl : (_ : Bool) = true)
    | exact fun _ => rfl
    | intro _
    | split
    | with_reducible apply Only.via (Q := [.tenantBox, .operBox]) (modBox_only _ _ _)

theorem takePosted_only (operator : Bool) (s : State) : Only [.tenantBox, .operBox] s (takePosted operator s) := by
  unfold takePosted
  try dsimp only
  repeat' first
    | with_reducible exact Only.refl _ _
    | with_reducible assumption
    | exact (rfl : (_ : Bool) = true)
    | exact fun _ => rfl
    | intro _
    | split
    | with_reducible apply Only.via (Q := [.tenantBox, .operBox]) (modBox_only _ _ _)
    | with_reducible apply Only.onlyIf

theorem inCtlWrite_only (operator : Bool) (value : BitVec 32) (s : State) : Only [.tenantBox, .operBox] s (inCtlWrite operator value s) := by
  unfold inCtlWrite
  try dsimp only
  repeat' first
    | with_reducible exact Only.refl _ _
    | with_reducible assumption
    | exact (rfl : (_ : Bool) = true)
    | exact fun _ => rfl
    | intro _
    | split
    | with_reducible apply Only.via (Q := [.tenantBox, .operBox]) (inDropped_only _ _)
    | with_reducible apply Only.via (Q := [.tenantBox, .operBox]) (modBox_only _ _ _)
    | with_reducible apply Only.via (Q := [.tenantBox, .operBox]) (takePosted_only _ _)

theorem Only.boxWrite {ps : List Part} {b s : State} {operator : Bool} {p : Path} {addr : Nat} {k : State → State} (h : Only ps b s)
    (hp : ([.ports] : List Part).all (fun p => ps.contains p) = true) (hk : ∀ u, Only ps b u → Only ps b (k u)) :
    Only ps b (boxWrite operator p addr k s) :=
  Only.writeGated h hp (fun _ hu => hu) hk

theorem outCtlWrite_only (operator : Bool) (value : BitVec 32) (s : State) : Only [.tenantBox, .operBox] s (outCtlWrite operator value s) := by
  unfold outCtlWrite
  try dsimp only
  repeat' first
    | with_reducible exact Only.refl _ _
    | with_reducible assumption
    | exact (rfl : (_ : Bool) = true)
    | exact fun _ => rfl
    | intro _
    | split
    | with_reducible apply Only.via (Q := [.tenantBox, .operBox]) (modBox_only _ _ _)
    | with_reducible apply Only.onlyIf

theorem mailboxPut_only (operator : Bool) (p : Path) (off addr : Nat) (value : BitVec 32) (s : State) : Only [.tenantBox, .operBox, .ports] s (mailboxPut operator p off addr value s) := by
  unfold mailboxPut
  try dsimp only
  repeat' first
    | with_reducible exact Only.refl _ _
    | with_reducible assumption
    | exact (rfl : (_ : Bool) = true)
    | exact fun _ => rfl
    | intro _
    | split
    | with_reducible apply Only.boxWrite
    | with_reducible apply Only.via (Q := [.tenantBox, .operBox]) (inCtlWrite_only _ _ _)
    | with_reducible apply Only.via (Q := [.tenantBox, .operBox]) (outCtlWrite_only _ _ _)
    | dsimp only [id]

theorem bufferPut_only (operator inbound : Bool) (o : Nat) (p : Path) (addr : Nat) (value : BitVec 32) (s : State) : Only [.tenantBox, .operBox, .ports] s (bufferPut operator inbound o p addr value s) := by
  unfold bufferPut
  try dsimp only
  repeat' first
    | with_reducible exact Only.refl _ _
    | with_reducible assumption
    | exact (rfl : (_ : Bool) = true)
    | exact fun _ => rfl
    | intro _
    | split
    | with_reducible apply Only.boxWrite
    | with_reducible apply Only.via (Q := [.tenantBox, .operBox]) (inDropped_only _ _)
    | with_reducible apply Only.via (Q := [.tenantBox, .operBox]) (modBox_only _ _ _)

theorem pagePut_only (p : Path) (pg : Page) (addr : Nat) (value : BitVec 32) (s : State) : Only [.freeCtr, .guards, .dies, .head, .ks, .vault, .slots, .pk, .dig, .ent, .ingest, .mower, .att, .tenantBox, .operBox, .boot, .flash, .fuse, .array, .brup, .fq, .mir, .dma, .ports] s (pagePut p pg addr value s) := by
  unfold pagePut
  try dsimp only
  repeat' first
    | with_reducible exact Only.refl _ _
    | with_reducible assumption
    | exact fun h => h
    | exact push_fits _ _
    | exact (rfl : (_ : Bool) = true)
    | exact fun _ => rfl
    | intro _
    | split
    | with_reducible apply Only.via (Q := [.freeCtr, .guards, .dies, .head, .ks, .vault, .slots, .pk, .dig, .ent, .ingest, .mower, .att, .tenantBox, .operBox, .boot, .flash, .fuse, .array, .brup, .fq, .mir, .dma, .ports]) (bootPut_only _ _ _ _ _)
    | with_reducible apply Only.via (Q := [.freeCtr, .pk, .dig, .ent, .boot, .dma, .ports]) (ctxPut_only _ _ _ _ _ _)
    | with_reducible apply Only.via (Q := [.dies, .pk, .dig, .boot, .ports]) (diePut_only _ _ _ _ _ _ _)
    | with_reducible apply Only.via (Q := [.pk, .dig, .boot, .ports]) (digPut_only _ _ _ _ _)
    | with_reducible apply Only.via (Q := [.pk, .dig, .ent, .boot, .ports]) (entPut_only _ _ _ _ _)
    | with_reducible apply Only.via (Q := [.boot, .ports]) (Only.stateOr (execFoWdog_only _ _ _))
    | with_reducible apply Only.via (Q := [.dies, .head, .ks, .brup, .ports]) (Only.stateOr (execFpSample_only _ _ _))
    | with_reducible apply Only.via (Q := [.dies, .head, .ks, .vault, .ingest, .mower, .att, .tenantBox, .operBox, .fq, .mir, .ports]) (Only.stateOr (execIngestAbort_only _ _ _))
    | with_reducible apply Only.via (Q := [.mower, .att, .fq, .ports]) (Only.stateOr (execMowerAbort_only _ _ _))
    | with_reducible apply Only.via (Q := [.fq]) (fqCtlWrite_only _ _)
    | with_reducible apply Only.via (Q := [.pk, .dig, .boot, .fuse, .ports]) (fusePut_only _ _ _ _ _)
    | with_reducible apply Only.via (Q := [.guards, .dies, .head, .ks, .vault, .pk, .dig, .mower, .att, .tenantBox, .operBox, .boot, .fq, .mir, .ports]) (guardPut_only _ _ _ _ _ _ _)
    | with_reducible apply Only.via (Q := [.guards, .dies, .vault, .pk, .dig, .ent, .ingest, .mower, .att, .tenantBox, .operBox, .boot, .fuse, .brup, .fq, .mir, .ports]) (headerWrite_only _ _ _ _ _)
    | with_reducible apply Only.via (Q := [.pk, .dig, .boot, .ports]) (ignoredWrite_only _ _ _ _)
    | with_reducible apply Only.via (Q := [.freeCtr, .vault, .slots, .pk, .dig, .ent, .att, .tenantBox, .operBox, .boot, .ports]) (jobPut_only _ _ _ _ _ _)
    | with_reducible apply Only.via (Q := [.tenantBox, .operBox, .ports]) (mailboxPut_only _ _ _ _ _ _)
    | with_reducible apply Only.via (Q := [.brup, .fq]) (newCtlWrite_only _ _)
    | with_reducible apply Only.via (Q := [.pk]) (pkCtlRegWrite_only _ _)
    | with_reducible apply Only.via (Q := [.freeCtr, .vault, .slots, .pk, .dig, .ent, .boot, .dma, .ports]) (vaultPut_only _ _ _ _ _)
    | with_reducible apply Only.writeAt
    | with_reducible refine Only.via (Q := [.fq]) (Only.modFq _ _ ?_) ?_ ?_

theorem ctlWrite_only (p : Path) (addr : Nat) (value : BitVec 32) (s : State) : Only [.freeCtr, .guards, .dies, .head, .ks, .vault, .slots, .pk, .dig, .ent, .ingest, .mower, .att, .tenantBox, .operBox, .boot, .flash, .fuse, .array, .brup, .fq, .mir, .dma, .ports] s (ctlWrite p addr value s) := by
  unfold ctlWrite
  try dsimp only
  repeat' first
    | with_reducible exact Only.refl _ _
    | with_reducible assumption
    | exact (rfl : (_ : Bool) = true)
    | exact fun _ => rfl
    | intro _
    | split
    | with_reducible apply Only.via (Q := [.tenantBox, .operBox, .ports]) (bufferPut_only _ _ _ _ _ _ _)
    | with_reducible apply Only.via (Q := [.pk]) (modSlot_only _ _ _)
    | with_reducible apply Only.via (Q := [.freeCtr, .guards, .dies, .head, .ks, .vault, .slots, .pk, .dig, .ent, .ingest, .mower, .att, .tenantBox, .operBox, .boot, .flash, .fuse, .array, .brup, .fq, .mir, .dma, .ports]) (pagePut_only _ _ _ _ _)
    | with_reducible apply Only.via (Q := [.pk]) (pkForeign_only _)
    | with_reducible apply Only.writeAt
    | with_reducible apply Only.writeOwned
    | with_reducible apply Only.via (Q := [.pk]) (Only.modPk _ _)
    | with_reducible apply Only.viaVault
    | (intro v; dsimp only; split <;> rfl)
    | dsimp only [id]

theorem telemetryWords_only (c : Fin 4) (addr n : Nat) (s : State) : Only [.pk, .ent, .fq, .ports] s (telemetryWords c addr n s).2 := by
  induction n generalizing s addr with
  | zero => exact Only.refl _ _
  | succ n ih =>
    unfold telemetryWords
    split
    · exact Only.trans (Only.via (readEffects_only _ _ _) rfl (Only.refl _ _)) (ih _ _)
    · exact Only.trans (Only.via (Only.modPorts _ _) rfl (Only.via (raise_only _ _ _ _ _ _ _) rfl (Only.refl _ _))) (ih _ _)

theorem execTelemetryRead_only (sess : Nat) (tag : BitVec 32) (body : Bytes) (s : State) : ∃ t, execTelemetryRead sess tag body s = .next t ∧ Only [.pk, .ent, .att, .tenantBox, .operBox, .fq, .ports] s t := by
  refine ⟨_, rfl, ?_⟩
  try dsimp only
  repeat' first
    | with_reducible exact Only.refl _ _
    | with_reducible assumption
    | exact (rfl : (_ : Bool) = true)
    | exact fun _ => rfl
    | intro _
    | split
    | with_reducible apply Only.via (Q := []) (done_only _)
    | with_reducible apply Only.onMessage
    | with_reducible apply Only.via (Q := [.att, .tenantBox, .operBox]) (refuse_only _ _ _)
    | with_reducible apply Only.via (Q := [.att, .tenantBox, .operBox]) (reply_only _ _ _)
    | with_reducible apply Only.via (Q := [.pk, .ent, .fq, .ports]) (telemetryWords_only _ _ _ _)
    | with_reducible apply Only.whenUp
    | with_reducible refine Only.ofPair (by assumption) ?_
    | with_reducible refine Only.ofTriple (by assumption) ?_

end Sys2Proof.Machine
end

