-- ==== Sys2Proof/Laws/OnlyDma.lean ====
section
/-!
SUPPORT. The parts of State that the operations of Machine/Dma.lean may change.
-/

namespace Sys2Proof.Machine
open Sys2Proof

theorem feedLines_only (c n fuel : Nat) (s : State) : Only [.dig, .dma] s (feedLines c n fuel s) := by
  induction fuel generalizing s with
  | zero => exact Only.refl _ _
  | succ fuel ih =>
    unfold feedLines
    dsimp only
    split
    · exact Only.refl _ _
    · exact Only.trans (Only.via (Only.modDma _ _ (fun h => h)) (by decide) (Only.via (modCtx_only _ _ _) rfl (Only.refl _ _))) (ih _)

theorem feedArrived_only (c n : Nat) (s : State) : Only [.freeCtr, .dig, .dma] s (feedArrived c n s) := by
  unfold feedArrived
  try dsimp only
  repeat' first
    | with_reducible exact Only.refl _ _
    | with_reducible assumption
    | exact (rfl : (_ : Bool) = true)
    | exact fun _ => rfl
    | intro _
    | split
    | with_reducible apply Only.via (Q := [.freeCtr, .dig, .dma]) (ctxSettle_only _ _)
    | with_reducible apply Only.via (Q := [.freeCtr, .dig, .dma]) (feedEnd_only _ _ _)
    | with_reducible apply Only.via (Q := [.dig, .dma]) (feedLines_only _ _ _ _)

theorem dmaFailed_only (n : Nat) (k : DmaWork) (s : State) : Only [.freeCtr, .guards, .dies, .head, .ks, .vault, .pk, .dig, .ingest, .mower, .att, .tenantBox, .operBox, .boot, .brup, .fq, .mir, .dma, .ports] s (dmaFailed n k s) := by
  unfold dmaFailed
  try dsimp only
  repeat' first
    | with_reducible exact Only.refl _ _
    | with_reducible assumption
    | exact (rfl : (_ : Bool) = true)
    | exact fun _ => rfl
    | intro _
    | split
    | with_reducible apply Only.via (Q := [.freeCtr, .dig, .dma]) (ctxEnd_only _ _ _)
    | with_reducible apply Only.via (Q := [.freeCtr, .dma]) (dmaEnd_only _ _)
    | with_reducible apply Only.via (Q := [.freeCtr, .guards, .dies, .head, .ks, .vault, .mower, .att, .tenantBox, .operBox, .brup, .fq, .mir, .dma]) (packageFailed_only _ _ _)
    | with_reducible apply Only.via (Q := [.att, .tenantBox, .operBox]) (refuse_only _ _ _)
    | with_reducible apply Only.via (Q := [.freeCtr, .guards, .dies, .head, .ks, .vault, .pk, .ingest, .mower, .att, .tenantBox, .operBox, .fq, .mir, .dma, .ports]) (refuseRegionRead_only _ _ _)
    | with_reducible apply Only.via (Q := [.freeCtr, .att, .tenantBox, .operBox, .boot, .dma]) (updateRefused_only _ _)

theorem dmaArrived_only (n : Nat) (k : DmaWork) (s : State) : Only [.freeCtr, .dig, .att, .tenantBox, .operBox, .boot, .flash, .fuse, .mir, .dma] s (dmaArrived n k s) := by
  unfold dmaArrived
  try dsimp only
  repeat' first
    | with_reducible exact Only.refl _ _
    | with_reducible assumption
    | exact (rfl : (_ : Bool) = true)
    | exact fun _ => rfl
    | intro _
    | split
    | with_reducible apply Only.via (Q := [.freeCtr, .att, .tenantBox, .operBox, .boot, .fuse, .mir]) (decideToken_only _ _ _)
    | with_reducible apply Only.via (Q := [.freeCtr, .dma]) (dmaEnd_only _ _)
    | with_reducible apply Only.via (Q := [.freeCtr, .dig, .dma]) (feedArrived_only _ _ _)
    | with_reducible apply Only.via (Q := [.freeCtr, .att, .tenantBox, .operBox, .boot, .flash, .dma]) (updateRead_only _)

end Sys2Proof.Machine
end

