-- ==== Sys2Proof/Laws/OnlyRecovery.lean ====
section
/-!
SUPPORT. The parts of State that the operations of Machine/Recovery.lean may change.
-/

namespace Sys2Proof.Machine
open Sys2Proof

theorem modRec_only (f : Recovery → Recovery) (s : State) : Only [.boot] s (modRec f s) := by
  unfold modRec
  try dsimp only
  repeat' first
    | with_reducible exact Only.refl _ _
    | with_reducible assumption
    | exact (rfl : (_ : Bool) = true)
    | exact fun _ => rfl
    | intro _
    | split
    | with_reducible apply Only.via (Q := [.boot]) (Only.modBoot _ _)

theorem recSend_only (seq : BitVec 8) (a : Nat × Bytes) (s : State) : Only [.boot] s (recSend seq a s) := by
  unfold recSend
  try dsimp only
  repeat' first
    | with_reducible exact Only.refl _ _
    | with_reducible assumption
    | exact (rfl : (_ : Bool) = true)
    | exact fun _ => rfl
    | intro _
    | split
    | with_reducible apply Only.via (Q := [.boot]) (modRec_only _ _)

theorem recAnswer_only (seq : BitVec 8) (a : Nat × Bytes) (s : State) : Only [.boot] s (recAnswer seq a s) := by
  unfold recAnswer
  try dsimp only
  repeat' first
    | with_reducible exact Only.refl _ _
    | with_reducible assumption
    | exact (rfl : (_ : Bool) = true)
    | exact fun _ => rfl
    | intro _
    | split
    | with_reducible apply Only.via (Q := [.boot]) (modRec_only _ _)
    | with_reducible apply Only.via (Q := [.boot]) (recSend_only _ _ _)

theorem Only.recFrame {ps : List Part} {b s : State} {first : Bool} {seq : BitVec 8} {payload : Bytes}
    {k : State → State × (Nat × Bytes)} (h : Only ps b s) (hp : ([.boot] : List Part).all (fun p => ps.contains p) = true)
    (hk : ∀ u, Only ps b u → Only ps b (k u).1) : Only ps b (recFrame first seq payload k s) := by
  have hm : ∀ f u, Only ps b u → Only ps b (modRec f u) := fun f u hu => Only.via (modRec_only f u) hp hu
  have hs : ∀ x u, Only ps b u → Only ps b (recSend seq x u) := fun x u hu => Only.via (recSend_only seq x u) hp hu
  have ha : ∀ x u, Only ps b u → Only ps b (recAnswer seq x u) := fun x u hu => Only.via (recAnswer_only seq x u) hp hu
  unfold Machine.recFrame
  dsimp only
  repeat' first
    | exact h
    | exact hs _ _ (hm _ _ h)
    | exact hm _ _ (hm _ _ h)
    | exact ha _ _ (hk _ (hm _ _ h))
    | split

end Sys2Proof.Machine
end

