-- ==== Sys2Proof/Laws/OnlyRequests.lean ====
section
/-!
SUPPORT. The parts of State that the operations of Machine/Requests.lean may change.
-/

namespace Sys2Proof.Machine
open Sys2Proof

theorem Only.carryRows {ps : List Part} {b s : State} {rows : List (State → Out)} (h : Only ps b s)
    (hr : ∀ r ∈ rows, ∀ u, Only ps u (Out.stateOr u (r u))) : Only ps b (carryRows rows s) := by
  unfold Machine.carryRows
  induction rows generalizing s with
  | nil => exact h
  | cons r rs ih => exact ih (h.trans (hr r (List.mem_cons_self ..) s)) (fun x hx => hr x (List.mem_cons_of_mem _ hx))

theorem outsideRows_only (operator : Bool) (m : Nat) (tag : BitVec 32) (body : Bytes) : ∀ r ∈ outsideRows operator m tag body, ∀ u, Only [.freeCtr, .vault, .slots, .pk, .dig, .ent, .att, .tenantBox, .operBox, .dma] u (Out.stateOr u (r u)) := by
  unfold outsideRows
  split
  all_goals intro r hr u
  all_goals simp only [List.mem_cons, List.not_mem_nil, or_false] at hr
  all_goals repeat' first
    | (rcases hr with rfl | hr)
    | subst hr
    | exact hr.elim
    | with_reducible exact Only.refl _ _
    | exact (rfl : (_ : Bool) = true)
    | with_reducible apply Only.via (Q := [.freeCtr, .vault, .slots, .pk, .dig, .ent, .att, .tenantBox, .operBox, .dma]) (Only.stateOr (execHybKex_only _ _ _ _))
    | with_reducible apply Only.via (Q := [.freeCtr, .vault, .slots, .pk, .dig, .ent, .att, .tenantBox, .operBox, .dma]) (Only.stateOr (execKexKeys_only _ _ _ _))
    | exact Only.via (spdmReply_only _ _ _ _) rfl (Only.refl _ _)
    | (unfold done whenUp Out.stateOr; dsimp only; split)

theorem tenantRows_only (id m : Nat) (tag : BitVec 32) (body : Bytes) : ∀ r ∈ tenantRows id m tag body, ∀ u, Only [.freeCtr, .dies, .head, .ks, .vault, .pk, .ingest, .mower, .att, .tenantBox, .operBox, .fq, .mir, .dma, .ports] u (Out.stateOr u (r u)) := by
  unfold tenantRows
  split
  all_goals intro r hr u
  all_goals simp only [List.mem_cons, List.not_mem_nil, or_false] at hr
  all_goals repeat' first
    | (rcases hr with rfl | hr)
    | subst hr
    | exact hr.elim
    | with_reducible exact Only.refl _ _
    | exact (rfl : (_ : Bool) = true)
    | with_reducible apply Only.via (Q := [.dies, .head, .ks, .vault, .att, .tenantBox, .operBox, .mir]) (Only.stateOr (execBundleKey_only _ _ _ _))
    | with_reducible apply Only.via (Q := [.att, .tenantBox, .operBox]) (Only.stateOr (execCredProve_only _ _ _ _))
    | with_reducible apply Only.via (Q := [.dies, .head, .ks, .vault, .mower, .att, .tenantBox, .operBox, .fq, .mir]) (Only.stateOr (execDomainSeed_only _ _ _ _))
    | with_reducible apply Only.via (Q := [.att, .tenantBox, .operBox]) (Only.stateOr (execEventPoll_only _ _ _ _))
    | with_reducible apply Only.via (Q := [.att, .tenantBox, .operBox]) (Only.stateOr (execHybFinish_only _ _ _ _))
    | with_reducible apply Only.via (Q := [.ks, .mower, .att, .tenantBox, .operBox]) (Only.stateOr (execKeptRelease_only _ _ _ _))
    | with_reducible apply Only.via (Q := [.ks, .att, .tenantBox, .operBox, .ports]) (Only.stateOr (execLinkKey_only _ _ _ _))
    | with_reducible apply Only.via (Q := [.freeCtr, .ks, .mower, .att, .tenantBox, .operBox, .dma]) (Only.stateOr (execMeasureFull_only _ _ _ _))
    | with_reducible apply Only.via (Q := [.freeCtr, .ks, .mower, .att, .tenantBox, .operBox, .dma]) (Only.stateOr (execMeasureIncremental_only _ _ _ _))
    | with_reducible apply Only.via (Q := [.freeCtr, .ks, .mower, .att, .tenantBox, .operBox, .dma]) (Only.stateOr (execMeasurePartial_only _ _ _ _))
    | with_reducible apply Only.via (Q := [.freeCtr, .ks, .pk, .att, .tenantBox, .operBox, .mir]) (Only.stateOr (execQuote_only _ _ _ _))
    | with_reducible apply Only.via (Q := [.dies, .head, .ks, .vault, .mower, .att, .tenantBox, .operBox, .fq, .mir]) (Only.stateOr (execReaderGrantAdd_only _ _ _ _))
    | with_reducible apply Only.via (Q := [.dies, .head, .ks, .vault, .mower, .att, .tenantBox, .operBox, .fq, .mir]) (Only.stateOr (execReaderGrantRemove_only _ _ _ _))
    | with_reducible apply Only.via (Q := [.dies, .head, .ks, .vault, .ingest, .mower, .att, .tenantBox, .operBox, .fq, .mir]) (Only.stateOr (execReaderGrantRevoke_only _ _ _ _))
    | with_reducible apply Only.via (Q := [.dies, .head, .ks, .vault, .mower, .att, .tenantBox, .operBox, .fq, .mir]) (Only.stateOr (execStreamConfirm_only _ _ _ _))
    | with_reducible apply Only.via (Q := [.freeCtr, .dies, .head, .ks, .vault, .ingest, .mower, .att, .tenantBox, .operBox, .fq, .mir, .dma]) (Only.stateOr (execTenantDomainTeardown_only _ _ _ _))
    | with_reducible apply Only.via (Q := [.dies, .head, .ks, .vault, .mower, .att, .tenantBox, .operBox, .fq, .mir]) (Only.stateOr (execTenantStreamUnbind_only _ _ _ _))
    | exact Only.via (spdmReply_only _ _ _ _) rfl (Only.refl _ _)
    | (unfold done whenUp Out.stateOr; dsimp only; split)

theorem operatorRows_only (id m : Nat) (tag : BitVec 32) (body : Bytes) : ∀ r ∈ operatorRows id m tag body, ∀ u, Only [.freeCtr, .guards, .dies, .head, .ks, .vault, .pk, .ent, .ingest, .mower, .att, .tenantBox, .operBox, .boot, .fuse, .brup, .fq, .mir, .dma, .ports] u (Out.stateOr u (r u)) := by
  unfold operatorRows
  split
  all_goals intro r hr u
  all_goals simp only [List.mem_cons, List.not_mem_nil, or_false] at hr
  all_goals repeat' first
    | (rcases hr with rfl | hr)
    | subst hr
    | exact hr.elim
    | with_reducible exact Only.refl _ _
    | exact (rfl : (_ : Bool) = true)
    | with_reducible apply Only.via (Q := [.freeCtr, .att, .tenantBox, .operBox, .boot, .mir]) (Only.stateOr (execCoreReset_only _ _ _ _))
    | with_reducible apply Only.via (Q := [.freeCtr, .att, .tenantBox, .operBox, .dma]) (Only.stateOr (execDebugUnlock_only _ _ _ _))
    | with_reducible apply Only.via (Q := [.att, .tenantBox, .operBox, .fuse]) (Only.stateOr (execDecommission_only _ _ _ _))
    | with_reducible apply Only.via (Q := [.dies, .head, .ks, .att, .tenantBox, .operBox, .fq, .mir]) (Only.stateOr (execDomainCreate_only _ _ _ _))
    | with_reducible apply Only.via (Q := [.guards, .dies, .head, .ks, .vault, .mower, .att, .tenantBox, .operBox, .fq, .mir]) (Only.stateOr (execGuardFence_only _ _ _ _))
    | with_reducible apply Only.via (Q := [.guards, .dies, .head, .ks, .vault, .mower, .att, .tenantBox, .operBox, .fq, .mir, .ports]) (Only.stateOr (execGuardReset_only _ _ _ _))
    | with_reducible apply Only.via (Q := [.freeCtr, .att, .tenantBox, .operBox, .boot, .dma]) (Only.stateOr (execImageUpdate_only _ _ _ _))
    | with_reducible apply Only.via (Q := [.freeCtr, .ks, .att, .tenantBox, .operBox, .dma]) (Only.stateOr (execIngestStart_only _ _ _ _))
    | with_reducible apply Only.via (Q := [.ks, .att, .tenantBox, .operBox]) (Only.stateOr (execLinkAssign_only _ _ _ _))
    | with_reducible apply Only.via (Q := [.freeCtr, .dies, .head, .ks, .vault, .ingest, .mower, .att, .tenantBox, .operBox, .fq, .mir, .dma]) (Only.stateOr (execOperatorDomainTeardown_only _ _ _ _))
    | with_reducible apply Only.via (Q := [.dies, .head, .ks, .vault, .mower, .att, .tenantBox, .operBox, .fq, .mir]) (Only.stateOr (execOperatorStreamUnbind_only _ _ _ _))
    | with_reducible apply Only.via (Q := [.guards, .dies, .ks, .att, .tenantBox, .operBox]) (Only.stateOr (execPinMsg_only _ _ _ _))
    | with_reducible apply Only.via (Q := [.freeCtr, .pk, .att, .tenantBox, .operBox, .mir]) (Only.stateOr (execQuoteBlock_only _ _ _ _))
    | with_reducible apply Only.via (Q := [.freeCtr, .ks, .att, .tenantBox, .operBox, .dma]) (Only.stateOr (execRegionList_only _ _ _ _))
    | with_reducible apply Only.via (Q := [.guards, .dies, .head, .ks, .vault, .mower, .att, .tenantBox, .operBox, .fq, .mir, .ports]) (Only.stateOr (execSectionReset_only _ _ _ _))
    | with_reducible apply Only.via (Q := [.guards, .att, .tenantBox, .operBox]) (Only.stateOr (execSetShares_only _ _ _ _))
    | with_reducible apply Only.via (Q := [.dies, .head, .ks, .att, .tenantBox, .operBox, .mir]) (Only.stateOr (execStreamPropose_only _ _ _ _))
    | with_reducible apply Only.via (Q := [.dies, .head, .ks, .att, .tenantBox, .operBox, .mir]) (Only.stateOr (execStreamWithdraw_only _ _ _ _))
    | with_reducible apply Only.via (Q := [.pk, .ent, .att, .tenantBox, .operBox, .fq, .ports]) (Only.stateOr (execTelemetryRead_only _ _ _ _))
    | with_reducible apply Only.via (Q := [.freeCtr, .guards, .dies, .head, .ks, .vault, .mower, .att, .tenantBox, .operBox, .brup, .fq, .mir, .dma]) (Only.stateOr (execUnitHold_only _ _ _ _))
    | with_reducible apply Only.via (Q := [.freeCtr, .guards, .dies, .head, .ks, .vault, .mower, .att, .tenantBox, .operBox, .brup, .fq, .mir, .dma]) (Only.stateOr (execUnitRelease_only _ _ _ _))
    | with_reducible apply Only.via (Q := [.guards, .dies, .ks, .att, .tenantBox, .operBox]) (Only.stateOr (execUnpinMsg_only _ _ _ _))
    | exact Only.via (spdmReply_only _ _ _ _) rfl (Only.refl _ _)
    | (unfold done whenUp Out.stateOr; dsimp only; split)

theorem spdmRows_only (operator : Bool) (sess : Option Nat) (req : Bytes) : ∀ r ∈ spdmRows operator sess req, ∀ u, Only [.freeCtr, .pk, .ent, .att, .tenantBox, .operBox] u (Out.stateOr u (r u)) := by
  unfold spdmRows
  split
  all_goals intro r hr u
  all_goals simp only [List.mem_cons, List.not_mem_nil, or_false] at hr
  all_goals repeat' first
    | (rcases hr with rfl | hr)
    | subst hr
    | exact hr.elim
    | with_reducible exact Only.refl _ _
    | exact (rfl : (_ : Bool) = true)
    | with_reducible apply Only.via (Q := []) (done_only _)
    | with_reducible apply Only.via (Q := [.freeCtr, .pk, .ent, .att, .tenantBox, .operBox]) (Only.stateOr (execChallenge_only _ _ _ _))
    | with_reducible apply Only.via (Q := [.att, .tenantBox, .operBox]) (Only.stateOr (execChunkGet_only _ _ _ _))
    | with_reducible apply Only.via (Q := [.att, .tenantBox, .operBox]) (Only.stateOr (execChunkSend_only _ _ _ _))
    | with_reducible apply Only.via (Q := [.att, .tenantBox, .operBox]) (Only.stateOr (execEndSession_only _ _ _))
    | with_reducible apply Only.via (Q := [.att, .tenantBox, .operBox]) (Only.stateOr (execGetCapabilities_only _ _ _ _))
    | with_reducible apply Only.via (Q := [.att, .tenantBox, .operBox]) (Only.stateOr (execGetCertificate_only _ _ _ _))
    | with_reducible apply Only.via (Q := [.att, .tenantBox, .operBox]) (Only.stateOr (execGetDigests_only _ _ _ _))
    | with_reducible apply Only.via (Q := [.freeCtr, .pk, .ent, .att, .tenantBox, .operBox]) (Only.stateOr (execGetMeasurements_only _ _ _ _))
    | with_reducible apply Only.via (Q := [.att, .tenantBox, .operBox]) (Only.stateOr (execGetVersion_only _ _ _ _))
    | with_reducible apply Only.via (Q := [.att, .tenantBox, .operBox]) (Only.stateOr (execKeyUpdate_only _ _ _))
    | with_reducible apply Only.via (Q := [.att, .tenantBox, .operBox]) (Only.stateOr (execNegotiateAlgorithms_only _ _ _ _))
    | with_reducible apply Only.via (Q := [.att, .tenantBox, .operBox]) (Only.stateOr (execSpdmHeartbeat_only _ _ _))
    | with_reducible apply Only.via (Q := [.att, .tenantBox, .operBox]) (spdmReply_only _ _ _ _)
    | with_reducible apply Only.whenUp
    | exact Only.via (spdmReply_only _ _ _ _) rfl (Only.refl _ _)
    | (unfold done whenUp Out.stateOr; dsimp only; split)

theorem carryRequest_only (operator : Bool) (sess : Option Nat) (req : Bytes) (s : State) : Only [.freeCtr, .guards, .dies, .head, .ks, .vault, .slots, .pk, .dig, .ent, .ingest, .mower, .att, .tenantBox, .operBox, .boot, .fuse, .brup, .fq, .mir, .dma, .ports] s (carryRequest operator sess req s) := by
  have sub : ∀ {P : List Part} {rows : List (State → Out)}, P.all (fun p => ([.freeCtr, .guards, .dies, .head, .ks, .vault, .slots, .pk, .dig, .ent, .ingest, .mower, .att, .tenantBox, .operBox, .boot, .fuse, .brup, .fq, .mir, .dma, .ports] : List Part).contains p) = true →
      (∀ r ∈ rows, ∀ u, Only P u (Out.stateOr u (r u))) → ∀ r ∈ rows, ∀ u, Only [.freeCtr, .guards, .dies, .head, .ks, .vault, .slots, .pk, .dig, .ent, .ingest, .mower, .att, .tenantBox, .operBox, .boot, .fuse, .brup, .fq, .mir, .dma, .ports] u (Out.stateOr u (r u)) :=
    fun hp h r hr u => (h r hr u).mono hp
  unfold carryRequest
  dsimp only
  split
  · exact Only.carryRows (Only.refl _ _) (sub rfl (spdmRows_only _ _ _))
  · split
    · refine Only.carryRows (Only.refl _ _) ?_
      intro r hr u
      simp only [List.mem_cons, List.not_mem_nil, or_false] at hr
      subst hr
      exact (Only.stateOr (execUnsupportedRequest_only _ _ _ _)).mono rfl
    · split
      · exact Only.carryRows (Only.refl _ _) (sub rfl (outsideRows_only _ _ _ _))
      · refine Only.carryRows (Only.refl _ _) ?_
        intro r hr u
        rcases List.mem_append.mp hr with h | h
        · exact (tenantRows_only _ _ _ _ r h u).mono rfl
        · exact (operatorRows_only _ _ _ _ r h u).mono rfl

theorem serveRequest_only (operator : Bool) (sess : Option Nat) (a : Arrived) (req : Bytes) (s : State) : Only [.freeCtr, .guards, .dies, .head, .ks, .vault, .slots, .pk, .dig, .ent, .ingest, .mower, .att, .tenantBox, .operBox, .boot, .fuse, .brup, .fq, .mir, .dma, .ports] s (serveRequest operator sess a req s) := by
  unfold serveRequest
  try dsimp only
  repeat' first
    | with_reducible exact Only.refl _ _
    | with_reducible assumption
    | exact (rfl : (_ : Bool) = true)
    | exact fun _ => rfl
    | intro _
    | split
    | with_reducible apply Only.via (Q := [.freeCtr, .guards, .dies, .head, .ks, .vault, .slots, .pk, .dig, .ent, .ingest, .mower, .att, .tenantBox, .operBox, .boot, .fuse, .brup, .fq, .mir, .dma, .ports]) (carryRequest_only _ _ _ _)
    | with_reducible apply Only.via (Q := [.att]) (modConn_only _ _ _ _)
    | with_reducible apply Only.via (Q := [.att, .tenantBox, .operBox]) (spdmReply_only _ _ _ _)

theorem serveLarge_only (operator : Bool) (a : Arrived) (s : State) : Only [.freeCtr, .guards, .dies, .head, .ks, .vault, .slots, .pk, .dig, .ent, .ingest, .mower, .att, .tenantBox, .operBox, .boot, .fuse, .brup, .fq, .mir, .dma, .ports] s (serveLarge operator a s) := by
  unfold serveLarge
  try dsimp only
  repeat' first
    | with_reducible exact Only.refl _ _
    | with_reducible assumption
    | exact (rfl : (_ : Bool) = true)
    | exact fun _ => rfl
    | intro _
    | split
    | with_reducible apply Only.via (Q := [.freeCtr, .guards, .dies, .head, .ks, .vault, .slots, .pk, .dig, .ent, .ingest, .mower, .att, .tenantBox, .operBox, .boot, .fuse, .brup, .fq, .mir, .dma, .ports]) (carryRequest_only _ _ _ _)
    | with_reducible apply Only.via (Q := [.att]) (modConn_only _ _ _ _)
    | with_reducible apply Only.onlyIf
    | with_reducible apply Only.via (Q := [.att, .tenantBox, .operBox]) (spdmReply_only _ _ _ _)

theorem serveArrived_only (operator : Bool) (a : Arrived) (s : State) : Only [.freeCtr, .guards, .dies, .head, .ks, .vault, .slots, .pk, .dig, .ent, .ingest, .mower, .att, .tenantBox, .operBox, .boot, .fuse, .brup, .fq, .mir, .dma, .ports] s (serveArrived operator a s) := by
  unfold serveArrived
  try dsimp only
  repeat' first
    | with_reducible exact Only.refl _ _
    | with_reducible assumption
    | exact (rfl : (_ : Bool) = true)
    | exact fun _ => rfl
    | intro _
    | split
    | with_reducible apply Only.via (Q := [.att]) (modSess_only _ _ _)
    | with_reducible apply Only.via (Q := [.freeCtr, .guards, .dies, .head, .ks, .vault, .slots, .pk, .dig, .ent, .ingest, .mower, .att, .tenantBox, .operBox, .boot, .fuse, .brup, .fq, .mir, .dma, .ports]) (serveLarge_only _ _ _)
    | with_reducible apply Only.via (Q := [.freeCtr, .guards, .dies, .head, .ks, .vault, .slots, .pk, .dig, .ent, .ingest, .mower, .att, .tenantBox, .operBox, .boot, .fuse, .brup, .fq, .mir, .dma, .ports]) (serveRequest_only _ _ _ _ _)
    | dsimp only [id]

theorem serveMailbox_only (operator : Bool) (s : State) : Only [.freeCtr, .guards, .dies, .head, .ks, .vault, .slots, .pk, .dig, .ent, .ingest, .mower, .att, .tenantBox, .operBox, .boot, .fuse, .brup, .fq, .mir, .dma, .ports] s (serveMailbox operator s) := by
  unfold serveMailbox
  try dsimp only
  repeat' first
    | with_reducible exact Only.refl _ _
    | with_reducible assumption
    | exact (rfl : (_ : Bool) = true)
    | exact fun _ => rfl
    | intro _
    | split
    | with_reducible apply Only.via (Q := [.tenantBox, .operBox]) (modBox_only _ _ _)
    | with_reducible apply Only.onlyIf
    | with_reducible apply Only.via (Q := [.freeCtr, .guards, .dies, .head, .ks, .vault, .slots, .pk, .dig, .ent, .ingest, .mower, .att, .tenantBox, .operBox, .boot, .fuse, .brup, .fq, .mir, .dma, .ports]) (serveArrived_only _ _ _)

end Sys2Proof.Machine
end

