-- ==== Sys2Proof/Laws/OnlyTick.lean ====
section
/-!
SUPPORT. The parts of State that the operations of Machine/Tick.lean may change.
-/

namespace Sys2Proof.Machine
open Sys2Proof

theorem timerTick_only (s : State) : Only [.timer] s (timerTick s) := by
  unfold timerTick
  try dsimp only
  repeat' first
    | with_reducible exact Only.refl _ _
    | with_reducible assumption
    | exact (rfl : (_ : Bool) = true)
    | exact fun _ => rfl
    | intro _
    | split
    | with_reducible apply Only.via (Q := [.timer]) (Only.modTimer _ _)

theorem tmxTick_only (s : State) : Only [.freeCtr, .fuse] s (tmxTick s) := by
  unfold tmxTick
  try dsimp only
  repeat' first
    | with_reducible exact Only.refl _ _
    | with_reducible assumption
    | exact (rfl : (_ : Bool) = true)
    | exact fun _ => rfl
    | intro _
    | split
    | with_reducible apply Only.via (Q := [.freeCtr, .fuse]) (tmxShow_only _)

end Sys2Proof.Machine
end

