-- ==== Sys2Proof/Laws/Commands.lean ====
section
/-!
SUPPORT. What each command can do: from every state it answers a next state that differs from it in the listed parts only.
-/

namespace Sys2Proof.Machine
open Sys2Proof

theorem execNoiseSample_only (bit : Bool) (s : State) : ∃ t, execNoiseSample bit s = .next t ∧ Only [.vault, .slots, .ent, .fq] s t := by
  refine ⟨_, rfl, ?_⟩
  try dsimp only
  repeat' first
    | with_reducible exact Only.refl _ _
    | with_reducible assumption
    | exact (rfl : (_ : Bool) = true)
    | exact fun _ => rfl
    | intro _
    | split
    | with_reducible apply Only.via (Q := []) (done_only _)
    | with_reducible apply Only.via (Q := [.vault, .slots, .ent]) (drawContextKey_only _)
    | with_reducible apply Only.via (Q := [.ent, .fq]) (noiseFail_only _ _ _)
    | with_reducible apply Only.onlyIf
    | with_reducible apply Only.whenUp
    | with_reducible apply Only.via (Q := [.ent]) (Only.modEnt _ _)

theorem execDrbgInstantiate_only (katGood : Bool) (s : State) : ∃ t, execDrbgInstantiate katGood s = .next t ∧ Only [.vault, .slots, .ent, .fq] s t := by
  refine ⟨_, rfl, ?_⟩
  try dsimp only
  repeat' first
    | with_reducible exact Only.refl _ _
    | with_reducible assumption
    | exact (rfl : (_ : Bool) = true)
    | exact fun _ => rfl
    | intro _
    | split
    | with_reducible apply Only.via (Q := []) (done_only _)
    | with_reducible apply Only.via (Q := [.vault, .slots, .ent]) (drawContextKey_only _)
    | with_reducible apply Only.onlyIf
    | with_reducible apply Only.via (Q := [.fq]) (raise_only _ _ _ _ _ _ _)
    | with_reducible apply Only.whenUp
    | with_reducible apply Only.via (Q := [.ent]) (Only.modEnt _ _)

theorem execVaultGenerate_only (p : Path) (value : BitVec 32) (s : State) : ∃ t, execVaultGenerate p value s = .next t ∧ Only [.freeCtr, .vault, .slots, .pk, .dig, .ent, .dma, .ports] s t := by
  refine ⟨_, rfl, ?_⟩
  try dsimp only
  repeat' first
    | with_reducible exact Only.refl _ _
    | with_reducible assumption
    | exact (rfl : (_ : Bool) = true)
    | exact fun _ => rfl
    | intro _
    | split
    | with_reducible apply Only.via (Q := []) (done_only _)
    | with_reducible apply Only.via (Q := [.freeCtr, .vault, .slots, .pk, .dig, .ent, .dma, .ports]) (vaultRow_only _ _ _ _)

theorem execVaultGeneratePair_only (p : Path) (value : BitVec 32) (s : State) : ∃ t, execVaultGeneratePair p value s = .next t ∧ Only [.freeCtr, .vault, .slots, .pk, .dig, .ent, .dma, .ports] s t := by
  refine ⟨_, rfl, ?_⟩
  try dsimp only
  repeat' first
    | with_reducible exact Only.refl _ _
    | with_reducible assumption
    | exact (rfl : (_ : Bool) = true)
    | exact fun _ => rfl
    | intro _
    | split
    | with_reducible apply Only.via (Q := []) (done_only _)
    | with_reducible apply Only.via (Q := [.freeCtr, .vault, .slots, .pk, .dig, .ent, .dma, .ports]) (vaultRow_only _ _ _ _)

theorem execVaultDerive_only (p : Path) (value : BitVec 32) (s : State) : ∃ t, execVaultDerive p value s = .next t ∧ Only [.freeCtr, .vault, .slots, .pk, .dig, .ent, .dma, .ports] s t := by
  refine ⟨_, rfl, ?_⟩
  try dsimp only
  repeat' first
    | with_reducible exact Only.refl _ _
    | with_reducible assumption
    | exact (rfl : (_ : Bool) = true)
    | exact fun _ => rfl
    | intro _
    | split
    | with_reducible apply Only.via (Q := []) (done_only _)
    | with_reducible apply Only.via (Q := [.freeCtr, .vault, .slots, .pk, .dig, .ent, .dma, .ports]) (vaultRow_only _ _ _ _)

theorem execVaultImport_only (p : Path) (value : BitVec 32) (s : State) : ∃ t, execVaultImport p value s = .next t ∧ Only [.freeCtr, .vault, .slots, .pk, .dig, .ent, .dma, .ports] s t := by
  refine ⟨_, rfl, ?_⟩
  try dsimp only
  repeat' first
    | with_reducible exact Only.refl _ _
    | with_reducible assumption
    | exact (rfl : (_ : Bool) = true)
    | exact fun _ => rfl
    | intro _
    | split
    | with_reducible apply Only.via (Q := []) (done_only _)
    | with_reducible apply Only.via (Q := [.freeCtr, .vault, .slots, .pk, .dig, .ent, .dma, .ports]) (vaultRow_only _ _ _ _)

theorem execVaultExport_only (p : Path) (value : BitVec 32) (s : State) : ∃ t, execVaultExport p value s = .next t ∧ Only [.freeCtr, .vault, .slots, .pk, .dig, .ent, .dma, .ports] s t := by
  refine ⟨_, rfl, ?_⟩
  try dsimp only
  repeat' first
    | with_reducible exact Only.refl _ _
    | with_reducible assumption
    | exact (rfl : (_ : Bool) = true)
    | exact fun _ => rfl
    | intro _
    | split
    | with_reducible apply Only.via (Q := []) (done_only _)
    | with_reducible apply Only.via (Q := [.freeCtr, .vault, .slots, .pk, .dig, .ent, .dma, .ports]) (vaultRow_only _ _ _ _)

theorem execSave_only (p : Path) (value : BitVec 32) (s : State) : ∃ t, execSave p value s = .next t ∧ Only [.freeCtr, .vault, .slots, .pk, .dig, .ent, .dma, .ports] s t := by
  refine ⟨_, rfl, ?_⟩
  try dsimp only
  repeat' first
    | with_reducible exact Only.refl _ _
    | with_reducible assumption
    | exact (rfl : (_ : Bool) = true)
    | exact fun _ => rfl
    | intro _
    | split
    | with_reducible apply Only.via (Q := []) (done_only _)
    | with_reducible apply Only.via (Q := [.freeCtr, .vault, .slots, .pk, .dig, .ent, .dma, .ports]) (vaultRow_only _ _ _ _)

theorem execRestore_only (p : Path) (value : BitVec 32) (s : State) : ∃ t, execRestore p value s = .next t ∧ Only [.freeCtr, .vault, .slots, .pk, .dig, .ent, .dma, .ports] s t := by
  refine ⟨_, rfl, ?_⟩
  try dsimp only
  repeat' first
    | with_reducible exact Only.refl _ _
    | with_reducible assumption
    | exact (rfl : (_ : Bool) = true)
    | exact fun _ => rfl
    | intro _
    | split
    | with_reducible apply Only.via (Q := []) (done_only _)
    | with_reducible apply Only.via (Q := [.freeCtr, .vault, .slots, .pk, .dig, .ent, .dma, .ports]) (vaultRow_only _ _ _ _)

theorem execClear_only (p : Path) (value : BitVec 32) (s : State) : ∃ t, execClear p value s = .next t ∧ Only [.freeCtr, .vault, .slots, .pk, .dig, .ent, .dma, .ports] s t := by
  refine ⟨_, rfl, ?_⟩
  try dsimp only
  repeat' first
    | with_reducible exact Only.refl _ _
    | with_reducible assumption
    | exact (rfl : (_ : Bool) = true)
    | exact fun _ => rfl
    | intro _
    | split
    | with_reducible apply Only.via (Q := []) (done_only _)
    | with_reducible apply Only.via (Q := [.freeCtr, .vault, .slots, .pk, .dig, .ent, .dma, .ports]) (vaultRow_only _ _ _ _)

theorem execStatement_only (p : Path) (value : BitVec 32) (s : State) : ∃ t, execStatement p value s = .next t ∧ Only [.freeCtr, .vault, .slots, .pk, .dig, .ent, .dma, .ports] s t := by
  refine ⟨_, rfl, ?_⟩
  try dsimp only
  repeat' first
    | with_reducible exact Only.refl _ _
    | with_reducible assumption
    | exact (rfl : (_ : Bool) = true)
    | exact fun _ => rfl
    | intro _
    | split
    | with_reducible apply Only.via (Q := []) (done_only _)
    | with_reducible apply Only.via (Q := [.freeCtr, .vault, .slots, .pk, .dig, .ent, .dma, .ports]) (vaultRow_only _ _ _ _)

theorem execMeasurementJobStart_only (s : State) : ∃ t, execMeasurementJobStart s = .next t ∧ Only [.mower, .att, .fq] s t := by
  refine ⟨_, rfl, ?_⟩
  try dsimp only
  repeat' first
    | with_reducible exact Only.refl _ _
    | with_reducible assumption
    | exact (rfl : (_ : Bool) = true)
    | exact fun _ => rfl
    | intro _
    | split
    | with_reducible apply Only.via (Q := []) (done_only _)
    | with_reducible apply Only.via (Q := [.mower, .att, .fq]) (endJob_only _ _ _ _)
    | with_reducible apply Only.whenUp
    | with_reducible apply Only.via (Q := [.mower]) (Only.modMower _ _)

theorem execMowerReadIssue_only (job : BitVec 32) (s : State) : ∃ t, execMowerReadIssue job s = .next t ∧ Only [.freeCtr, .guards, .dies, .head, .ks, .vault, .mower, .att, .tenantBox, .operBox, .fq, .mir] s t := by
  refine ⟨_, rfl, ?_⟩
  try dsimp only
  repeat' first
    | with_reducible exact Only.refl _ _
    | with_reducible assumption
    | exact (rfl : (_ : Bool) = true)
    | exact fun _ => rfl
    | intro _
    | split
    | with_reducible apply Only.via (Q := [.freeCtr]) (state_used_only _)
    | with_reducible apply Only.via (Q := [.guards, .dies, .ks, .mower, .fq]) (decideKey_only _ _ _ _)
    | with_reducible apply Only.via (Q := []) (done_only _)
    | with_reducible apply Only.via (Q := [.guards, .mower]) (fail_only _ _ _ _)
    | with_reducible apply Only.via (Q := [.dies, .head, .ks, .vault, .mower, .att, .tenantBox, .operBox, .fq, .mir]) (settle_only _)
    | with_reducible apply Only.whenUp
    | with_reducible apply Only.via (Q := [.guards]) (Only.modGuard _ _ _)
    | with_reducible apply Only.via (Q := [.mower]) (Only.modMower _ _)

theorem execMowerNodeHashed_only (s : State) : ∃ t, execMowerNodeHashed s = .next t ∧ Only [.mower, .att, .fq] s t := by
  refine ⟨_, rfl, ?_⟩
  try dsimp only
  repeat' first
    | with_reducible exact Only.refl _ _
    | with_reducible assumption
    | exact (rfl : (_ : Bool) = true)
    | exact fun _ => rfl
    | intro _
    | split
    | with_reducible apply Only.via (Q := []) (done_only _)
    | with_reducible apply Only.via (Q := [.mower, .att, .fq]) (jobDone_only _ _ _)
    | with_reducible refine Only.via (firstTurn_only (by assumption)) ?_ ?_
    | with_reducible apply Only.whenUp
    | with_reducible apply Only.via (Q := [.mower]) (Only.modMower _ _)

theorem execMowerLaneKat_only (lane : Fin 32) (good : Bool) (s : State) : ∃ t, execMowerLaneKat lane good s = .next t ∧ Only [.mower, .att, .fq] s t := by
  refine ⟨_, rfl, ?_⟩
  try dsimp only
  repeat' first
    | with_reducible exact Only.refl _ _
    | with_reducible assumption
    | exact (rfl : (_ : Bool) = true)
    | exact fun _ => rfl
    | intro _
    | split
    | with_reducible apply Only.via (Q := []) (done_only _)
    | with_reducible apply Only.via (Q := [.mower, .att, .fq]) (endJob_only _ _ _ _)
    | with_reducible apply Only.forEach
    | with_reducible apply Only.via (Q := [.fq]) (raise_only _ _ _ _ _ _ _)
    | with_reducible apply Only.whenUp
    | with_reducible apply Only.via (Q := [.mower]) (Only.modMower _ _)

theorem execKeyReqResend_only (g : Fin 40) (slot : Nat) (s : State) : ∃ t, execKeyReqResend g slot s = .next t ∧ Only [.timer, .guards, .dies] s t := by
  refine ⟨_, rfl, ?_⟩
  try dsimp only
  repeat' first
    | with_reducible exact Only.refl _ _
    | with_reducible assumption
    | exact (rfl : (_ : Bool) = true)
    | exact fun _ => rfl
    | intro _
    | split
    | with_reducible apply Only.via (Q := [.guards, .dies]) (askAgain_only _ _ _)
    | with_reducible apply Only.via (Q := []) (done_only _)
    | with_reducible apply Only.via (Q := [.timer]) (reachTime_only _ _)
    | with_reducible apply Only.whenUp

theorem execKeyFill_only (die : Fin 4) (s : State) : ∃ t, execKeyFill die s = .next t ∧ Only [.freeCtr, .guards, .dies, .head, .ks, .vault, .mower, .att, .tenantBox, .operBox, .fq, .mir, .sby, .tagWindow] s t := by
  refine ⟨_, rfl, ?_⟩
  try dsimp only
  repeat' first
    | with_reducible exact Only.refl _ _
    | with_reducible assumption
    | exact (rfl : (_ : Bool) = true)
    | exact fun _ => rfl
    | intro _
    | split
    | with_reducible apply Only.via (Q := []) (done_only _)
    | with_reducible apply Only.via (Q := [.freeCtr, .guards, .dies, .ks, .mower, .fq, .tagWindow]) (fillArrived_only _ _ _ _)
    | with_reducible apply Only.receive
    | with_reducible apply Only.via (Q := [.dies, .head, .ks, .vault, .mower, .att, .tenantBox, .operBox, .fq, .mir]) (settle_only _)
    | with_reducible apply Only.whenUp
    | dsimp only [Option.getD, id]

theorem execKeyNone_only (die : Fin 4) (s : State) : ∃ t, execKeyNone die s = .next t ∧ Only [.guards, .dies, .head, .ks, .vault, .ingest, .mower, .att, .tenantBox, .operBox, .fq, .mir, .sby, .tagWindow] s t := by
  refine ⟨_, rfl, ?_⟩
  try dsimp only
  repeat' first
    | with_reducible exact Only.refl _ _
    | with_reducible assumption
    | exact (rfl : (_ : Bool) = true)
    | exact fun _ => rfl
    | intro _
    | split
    | with_reducible apply Only.via (Q := []) (done_only _)
    | with_reducible apply Only.via (Q := [.guards, .dies, .ingest, .mower, .fq, .tagWindow]) (keyNoneAt_only _ _ _ _ _)
    | with_reducible apply Only.receive
    | with_reducible apply Only.via (Q := [.dies, .head, .ks, .vault, .mower, .att, .tenantBox, .operBox, .fq, .mir]) (settle_only _)
    | with_reducible apply Only.whenUp
    | dsimp only [Option.getD, id]

theorem execDeferredFillInstall_only (g : Fin 40) (s : State) : ∃ t, execDeferredFillInstall g s = .next t ∧ Only [.freeCtr, .guards, .dies, .head, .ks, .vault, .mower, .att, .tenantBox, .operBox, .fq, .mir, .tagWindow] s t := by
  refine ⟨_, rfl, ?_⟩
  try dsimp only
  repeat' first
    | with_reducible exact Only.refl _ _
    | with_reducible assumption
    | exact (rfl : (_ : Bool) = true)
    | exact fun _ => rfl
    | intro _
    | split
    | with_reducible apply Only.via (Q := []) (done_only _)
    | with_reducible apply Only.via (Q := [.freeCtr, .guards, .dies, .ks, .mower, .fq, .tagWindow]) (installFill_only _ _ _ _)
    | with_reducible apply Only.via (Q := [.guards]) (pinProgress_only _ _)
    | with_reducible apply Only.via (Q := [.guards, .dies]) (seekSlots_only _ _)
    | with_reducible apply Only.via (Q := [.dies, .head, .ks, .vault, .mower, .att, .tenantBox, .operBox, .fq, .mir]) (settle_only _)
    | with_reducible apply Only.whenUp
    | with_reducible apply Only.via (Q := [.guards]) (Only.modGuard _ _ _)

theorem execPinReservationTake_only (g : Fin 40) (s : State) : ∃ t, execPinReservationTake g s = .next t ∧ Only [.guards] s t := by
  refine ⟨_, rfl, ?_⟩
  try dsimp only
  repeat' first
    | with_reducible exact Only.refl _ _
    | with_reducible assumption
    | exact (rfl : (_ : Bool) = true)
    | exact fun _ => rfl
    | intro _
    | split
    | with_reducible apply Only.via (Q := []) (done_only _)
    | with_reducible apply Only.via (Q := [.guards]) (pinProgress_only _ _)
    | with_reducible apply Only.whenUp
    | with_reducible apply Only.via (Q := [.guards]) (Only.modGuard _ _ _)

theorem execBindScrub_only (g : Fin 40) (s : State) : ∃ t, execBindScrub g s = .next t ∧ Only [.guards, .dies, .head, .ks, .vault, .mower, .att, .tenantBox, .operBox, .fq, .mir] s t := by
  refine ⟨_, rfl, ?_⟩
  try dsimp only
  repeat' first
    | with_reducible exact Only.refl _ _
    | with_reducible assumption
    | exact (rfl : (_ : Bool) = true)
    | exact fun _ => rfl
    | intro _
    | split
    | with_reducible apply Only.via (Q := [.guards, .dies, .ks, .mower, .fq]) (bindFailed_only _ _ _ _ _)
    | with_reducible apply Only.via (Q := []) (done_only _)
    | with_reducible apply Only.forEach
    | with_reducible apply Only.via (Q := [.guards, .dies]) (loadPins_only _ _)
    | with_reducible apply Only.via (Q := [.dies, .head, .ks, .vault, .mower, .att, .tenantBox, .operBox, .fq, .mir]) (settle_only _)
    | with_reducible apply Only.whenUp
    | with_reducible apply Only.via (Q := [.guards]) (Only.modGuard _ _ _)

theorem execRotate_only (die : Fin 4) (s : State) : ∃ t, execRotate die s = .next t ∧ Only [.guards, .dies, .head, .fq, .sby] s t := by
  refine ⟨_, rfl, ?_⟩
  try dsimp only
  repeat' first
    | with_reducible exact Only.refl _ _
    | with_reducible assumption
    | exact (rfl : (_ : Bool) = true)
    | exact fun _ => rfl
    | intro _
    | split
    | with_reducible apply Only.via (Q := []) (done_only _)
    | with_reducible apply Only.forEach
    | with_reducible apply Only.receive
    | with_reducible apply Only.via (Q := [.guards, .dies]) (rotateAt_only _ _ _ _ _)
    | with_reducible apply Only.whenUp
    | with_reducible apply Only.via (Q := [.dies]) (Only.modDie _ _ _)
    | dsimp only [Option.getD, id]

theorem execRetire_only (die : Fin 4) (s : State) : ∃ t, execRetire die s = .next t ∧ Only [.guards, .dies, .head, .ks, .vault, .ingest, .mower, .att, .tenantBox, .operBox, .fq, .mir, .sby, .tagWindow] s t := by
  refine ⟨_, rfl, ?_⟩
  try dsimp only
  repeat' first
    | with_reducible exact Only.refl _ _
    | with_reducible assumption
    | exact (rfl : (_ : Bool) = true)
    | exact fun _ => rfl
    | intro _
    | split
    | with_reducible apply Only.via (Q := []) (done_only _)
    | with_reducible apply Only.via (Q := [.guards, .dies]) (dropRetired_only _ _)
    | with_reducible apply Only.forEach
    | with_reducible apply Only.receive
    | with_reducible apply Only.via (Q := [.guards, .dies, .ingest, .mower, .fq, .tagWindow]) (retireAt_only _ _ _ _ _ _)
    | with_reducible apply Only.via (Q := [.dies, .head, .ks, .vault, .mower, .att, .tenantBox, .operBox, .fq, .mir]) (settle_only _)
    | with_reducible apply Only.whenUp
    | with_reducible apply Only.via (Q := [.dies]) (Only.modDie _ _ _)
    | dsimp only [Option.getD, id]

theorem execRetiringEntryDrop_only (g : Fin 40) (s : State) : ∃ t, execRetiringEntryDrop g s = .next t ∧ Only [.guards, .dies] s t := by
  refine ⟨_, rfl, ?_⟩
  try dsimp only
  repeat' first
    | with_reducible exact Only.refl _ _
    | with_reducible assumption
    | exact (rfl : (_ : Bool) = true)
    | exact fun _ => rfl
    | intro _
    | split
    | with_reducible apply Only.via (Q := []) (done_only _)
    | with_reducible apply Only.via (Q := [.guards, .dies]) (dropRetired_only _ _)
    | with_reducible apply Only.onlyIf
    | with_reducible apply Only.whenUp

theorem execUpstreamRequest_only (g : Fin 40) (slice : Nat) (op : BitVec 3) (stream : BitVec 16) (domain : BitVec 13)
    (addr : BitVec 42) (txn : BitVec 12) (s : State) : ∃ t, execUpstreamRequest g slice op stream domain addr txn s = .next t ∧ Only [.guards, .dies, .head, .ks, .vault, .mower, .att, .tenantBox, .operBox, .fq, .mir] s t := by
  refine ⟨_, rfl, ?_⟩
  try dsimp only
  repeat' first
    | with_reducible exact Only.refl _ _
    | with_reducible assumption
    | exact (rfl : (_ : Bool) = true)
    | exact fun _ => rfl
    | intro _
    | split
    | with_reducible apply Only.via (Q := [.guards, .dies, .head, .ks, .vault, .mower, .att, .tenantBox, .operBox, .fq, .mir]) (checkHdr_only _ _ _ _ _)
    | with_reducible apply Only.via (Q := []) (done_only _)
    | with_reducible apply Only.whenUp
    | with_reducible apply Only.via (Q := [.guards]) (Only.modGuard _ _ _)

theorem execWriteDataBeat_only (g : Fin 40) (slice : Nat) (txn : BitVec 12) (data : BitVec 512) (be side : BitVec 64) (s : State) : ∃ t, execWriteDataBeat g slice txn data be side s = .next t ∧ Only [.guards, .dies, .head, .ks, .vault, .mower, .att, .tenantBox, .operBox, .fq, .mir] s t := by
  refine ⟨_, rfl, ?_⟩
  try dsimp only
  repeat' first
    | with_reducible exact Only.refl _ _
    | with_reducible assumption
    | exact (rfl : (_ : Bool) = true)
    | exact fun _ => rfl
    | intro _
    | split
    | with_reducible apply Only.via (Q := []) (done_only _)
    | with_reducible apply Only.via (Q := [.guards]) (modReq_only _ _ _ _)
    | with_reducible apply Only.via (Q := [.guards, .dies, .ks, .mower, .fq]) (proceedData_only _ _ _)
    | with_reducible apply Only.via (Q := [.dies, .head, .ks, .vault, .mower, .att, .tenantBox, .operBox, .fq, .mir]) (settle_only _)
    | with_reducible apply Only.whenUp
    | with_reducible apply Only.via (Q := [.guards]) (Only.modGuard _ _ _)

theorem execDownstreamRequestIssue_only (g : Fin 40) (uid : Nat) (s : State) : ∃ t, execDownstreamRequestIssue g uid s = .next t ∧ Only [.freeCtr, .guards] s t := by
  refine ⟨_, rfl, ?_⟩
  try dsimp only
  repeat' first
    | with_reducible exact Only.refl _ _
    | with_reducible assumption
    | exact (rfl : (_ : Bool) = true)
    | exact fun _ => rfl
    | intro _
    | split
    | with_reducible apply Only.via (Q := [.freeCtr]) (state_used_only _)
    | with_reducible apply Only.via (Q := []) (done_only _)
    | with_reducible apply Only.via (Q := [.guards]) (modReq_only _ _ _ _)
    | with_reducible apply Only.whenUp
    | with_reducible apply Only.via (Q := [.guards]) (Only.modGuard _ _ _)

theorem execDownstreamReadResponse_only (g : Fin 40) (tag : BitVec 12) (err : Bool) (data : BitVec 512) (side : BitVec 64) (s : State) : ∃ t, execDownstreamReadResponse g tag err data side s = .next t ∧ Only [.guards, .dies, .head, .ks, .vault, .mower, .att, .tenantBox, .operBox, .fq, .mir, .tagWindow] s t := by
  refine ⟨_, rfl, ?_⟩
  try dsimp only
  repeat' first
    | with_reducible exact Only.refl _ _
    | with_reducible assumption
    | exact (rfl : (_ : Bool) = true)
    | exact fun _ => rfl
    | intro _
    | split
    | with_reducible apply Only.via (Q := []) (done_only _)
    | with_reducible apply Only.via (Q := [.guards, .dies, .ks, .mower, .fq, .tagWindow]) (finishRead_only _ _ _ _ _)
    | with_reducible apply Only.via (Q := [.guards, .mower]) (respond_only _ _ _ _ _ _)
    | with_reducible apply Only.via (Q := [.dies, .head, .ks, .vault, .mower, .att, .tenantBox, .operBox, .fq, .mir]) (settle_only _)
    | with_reducible apply Only.whenUp
    | with_reducible apply Only.via (Q := [.guards]) (Only.modGuard _ _ _)

theorem execDownstreamWriteAck_only (g : Fin 40) (tag : BitVec 12) (err : Bool) (s : State) : ∃ t, execDownstreamWriteAck g tag err s = .next t ∧ Only [.guards, .mower] s t := by
  refine ⟨_, rfl, ?_⟩
  try dsimp only
  repeat' first
    | with_reducible exact Only.refl _ _
    | with_reducible assumption
    | exact (rfl : (_ : Bool) = true)
    | exact fun _ => rfl
    | intro _
    | split
    | with_reducible apply Only.via (Q := []) (done_only _)
    | with_reducible apply Only.via (Q := [.guards, .mower]) (fail_only _ _ _ _)
    | with_reducible apply Only.whenUp
    | with_reducible apply Only.via (Q := [.guards]) (Only.modGuard _ _ _)

theorem execUpstreamResponse_only (g : Fin 40) (slice : Nat) (s : State) : ∃ t, execUpstreamResponse g slice s = .next t ∧ Only [.guards] s t := by
  refine ⟨_, rfl, ?_⟩
  try dsimp only
  repeat' first
    | with_reducible exact Only.refl _ _
    | with_reducible assumption
    | exact (rfl : (_ : Bool) = true)
    | exact fun _ => rfl
    | intro _
    | split
    | with_reducible apply Only.via (Q := []) (done_only _)
    | with_reducible apply Only.whenUp
    | with_reducible apply Only.via (Q := [.guards]) (Only.modGuard _ _ _)

theorem execStopInsert_only (die : Fin 4) (s : State) : ∃ t, execStopInsert die s = .next t ∧ Only [.guards, .dies, .head] s t := by
  refine ⟨_, rfl, ?_⟩
  try dsimp only
  repeat' first
    | with_reducible exact Only.refl _ _
    | with_reducible assumption
    | exact (rfl : (_ : Bool) = true)
    | exact fun _ => rfl
    | intro _
    | split
    | with_reducible apply Only.via (Q := []) (done_only _)
    | with_reducible apply Only.via (Q := [.guards, .dies, .head]) (numbered_only _ _ _)
    | with_reducible apply Only.whenUp
    | with_reducible apply Only.via (Q := [.dies]) (Only.modDie _ _ _)

theorem execPulseInterval_only (s : State) : ∃ t, execPulseInterval s = .next t ∧ Only [.dies, .head, .ks, .brup] s t := by
  refine ⟨_, rfl, ?_⟩
  try dsimp only
  repeat' first
    | with_reducible exact Only.refl _ _
    | with_reducible assumption
    | exact (rfl : (_ : Bool) = true)
    | exact fun _ => rfl
    | intro _
    | split
    | with_reducible apply Only.via (Q := []) (done_only _)
    | with_reducible apply Only.via (Q := [.dies, .ks, .brup]) (fpAtPulse_only _)
    | with_reducible apply Only.via (Q := [.dies, .head]) (headAll_only _ _)
    | with_reducible apply Only.onlyIf
    | with_reducible apply Only.whenUp

theorem execPulse_only (die : Fin 4) (s : State) : ∃ t, execPulse die s = .next t ∧ Only [.dies, .head, .brup, .fq, .sby] s t := by
  refine ⟨_, rfl, ?_⟩
  try dsimp only
  repeat' first
    | with_reducible exact Only.refl _ _
    | with_reducible assumption
    | exact (rfl : (_ : Bool) = true)
    | exact fun _ => rfl
    | intro _
    | split
    | with_reducible apply Only.via (Q := []) (done_only _)
    | with_reducible apply Only.via (Q := [.dies, .brup]) (latchFp_only _ _ _)
    | with_reducible apply Only.onlyIf
    | with_reducible apply Only.receive
    | with_reducible apply Only.whenUp
    | dsimp only [Option.getD, id]

theorem execHeadMessageReturn_only (wire : Bytes) (s : State) : ∃ t, execHeadMessageReturn wire s = .next t ∧ Only [.dies, .head, .fq, .sby] s t := by
  refine ⟨_, rfl, ?_⟩
  try dsimp only
  repeat' first
    | with_reducible exact Only.refl _ _
    | with_reducible assumption
    | exact (rfl : (_ : Bool) = true)
    | exact fun _ => rfl
    | intro _
    | split
    | with_reducible apply Only.via (Q := []) (done_only _)
    | with_reducible apply Only.via (Q := [.fq]) (headDamage_only _ _ _ _)
    | with_reducible apply Only.onlyIf
    | with_reducible apply Only.via (Q := [.dies, .head, .sby]) (ringFlow_only _ _)
    | with_reducible apply Only.whenUp
    | with_reducible apply Only.via (Q := [.head]) (Only.modHead _ _)

theorem execDamagedMessage_only (die : Option (Fin 4)) (wire : Bytes) (s : State) : ∃ t, execDamagedMessage die wire s = .next t ∧ Only [.dies, .head, .fq, .sby] s t := by
  refine ⟨_, rfl, ?_⟩
  try dsimp only
  repeat' first
    | with_reducible exact Only.refl _ _
    | with_reducible assumption
    | exact (rfl : (_ : Bool) = true)
    | exact fun _ => rfl
    | intro _
    | split
    | with_reducible apply Only.via (Q := []) (done_only _)
    | with_reducible apply Only.via (Q := [.fq]) (headDamage_only _ _ _ _)
    | with_reducible apply Only.via (Q := [.dies, .head, .sby]) (passed_only _ _ _ _)
    | with_reducible apply Only.via (Q := [.dies, .head, .sby]) (ringFlow_only _ _)
    | with_reducible apply Only.via (Q := [.dies, .fq, .sby]) (ringLoss_only _ _ _ _)
    | with_reducible apply Only.whenUp
    | with_reducible apply Only.via (Q := [.dies]) (Only.modDie _ _ _)
    | with_reducible apply Only.via (Q := [.head]) (Only.modHead _ _)

theorem execIdleWord_only (die : Option (Fin 4)) (s : State) : ∃ t, execIdleWord die s = .next t ∧ Only [.dies, .head] s t := by
  refine ⟨_, rfl, ?_⟩
  try dsimp only
  repeat' first
    | with_reducible exact Only.refl _ _
    | with_reducible assumption
    | exact (rfl : (_ : Bool) = true)
    | exact fun _ => rfl
    | intro _
    | split
    | with_reducible apply Only.via (Q := []) (done_only _)
    | with_reducible apply Only.whenUp
    | with_reducible apply Only.via (Q := [.dies]) (Only.modDie _ _ _)
    | with_reducible apply Only.via (Q := [.head]) (Only.modHead _ _)

theorem execStreamSet_only (die : Fin 4) (s : State) : ∃ t, execStreamSet die s = .next t ∧ Only [.guards, .dies, .head, .mower, .fq, .sby] s t := by
  refine ⟨_, rfl, ?_⟩
  try dsimp only
  repeat' first
    | with_reducible exact Only.refl _ _
    | with_reducible assumption
    | exact (rfl : (_ : Bool) = true)
    | exact fun _ => rfl
    | intro _
    | split
    | with_reducible apply Only.via (Q := [.guards, .dies, .mower]) (applyUpdate_only _ _ _ _ _)
    | with_reducible apply Only.via (Q := []) (done_only _)
    | with_reducible apply Only.receive
    | with_reducible apply Only.whenUp
    | dsimp only [Option.getD, id]

theorem execReaderSet_only (die : Fin 4) (s : State) : ∃ t, execReaderSet die s = .next t ∧ Only [.guards, .dies, .head, .mower, .fq, .sby] s t := by
  refine ⟨_, rfl, ?_⟩
  try dsimp only
  repeat' first
    | with_reducible exact Only.refl _ _
    | with_reducible assumption
    | exact (rfl : (_ : Bool) = true)
    | exact fun _ => rfl
    | intro _
    | split
    | with_reducible apply Only.via (Q := [.guards, .dies, .mower]) (applyUpdate_only _ _ _ _ _)
    | with_reducible apply Only.via (Q := []) (done_only _)
    | with_reducible apply Only.receive
    | with_reducible apply Only.whenUp
    | dsimp only [Option.getD, id]

theorem execWithdrawalDrained_only (die : Fin 4) (s : State) : ∃ t, execWithdrawalDrained die s = .next t ∧ Only [.dies] s t := by
  refine ⟨_, rfl, ?_⟩
  try dsimp only
  repeat' first
    | with_reducible exact Only.refl _ _
    | with_reducible assumption
    | exact (rfl : (_ : Bool) = true)
    | exact fun _ => rfl
    | intro _
    | split
    | with_reducible apply Only.via (Q := []) (done_only _)
    | with_reducible apply Only.forEach
    | with_reducible apply Only.via (Q := [.dies]) (stopSend_only _ _ _)
    | with_reducible apply Only.whenUp
    | with_reducible apply Only.via (Q := [.dies]) (Only.modDie _ _ _)

theorem execTableSync_only (die : Fin 4) (s : State) : ∃ t, execTableSync die s = .next t ∧ Only [.guards, .dies, .head, .ks, .fq, .sby] s t := by
  refine ⟨_, rfl, ?_⟩
  try dsimp only
  repeat' first
    | with_reducible exact Only.refl _ _
    | with_reducible assumption
    | exact (rfl : (_ : Bool) = true)
    | exact fun _ => rfl
    | intro _
    | split
    | with_reducible apply Only.via (Q := []) (done_only _)
    | with_reducible apply Only.receive
    | with_reducible apply Only.via (Q := [.dies]) (stopSend_only _ _ _)
    | with_reducible apply Only.via (Q := [.dies, .head, .ks]) (synced_only _ _)
    | with_reducible apply Only.via (Q := [.guards, .dies]) (tablesTaken_only _ _)
    | with_reducible apply Only.whenUp
    | with_reducible apply Only.via (Q := [.dies]) (Only.modDie _ _ _)
    | dsimp only [Option.getD, id]

theorem execPkJobStart_only (long : Bool) (s : State) : ∃ t, execPkJobStart long s = .next t ∧ Only [.freeCtr, .pk, .ent] s t := by
  refine ⟨_, rfl, ?_⟩
  try dsimp only
  repeat' first
    | with_reducible exact Only.refl _ _
    | with_reducible assumption
    | exact (rfl : (_ : Bool) = true)
    | exact fun _ => rfl
    | intro _
    | split
    | with_reducible apply Only.via (Q := []) (done_only _)
    | with_reducible apply Only.via (Q := [.freeCtr, .pk, .ent]) (placeJob_only _ _ _)
    | with_reducible apply Only.whenUp
    | with_reducible apply Only.via (Q := [.pk]) (Only.modPk _ _)

theorem execPkValidationBoundary_only (long runsDiffer : Bool) (s : State) : ∃ t, execPkValidationBoundary long runsDiffer s = .next t ∧ Only [.freeCtr, .vault, .slots, .pk, .ent, .att, .tenantBox, .operBox, .fq] s t := by
  refine ⟨_, rfl, ?_⟩
  try dsimp only
  repeat' first
    | with_reducible exact Only.refl _ _
    | with_reducible assumption
    | exact (rfl : (_ : Bool) = true)
    | exact fun _ => rfl
    | intro _
    | split
    | with_reducible apply Only.via (Q := []) (done_only _)
    | with_reducible apply Only.via (Q := [.freeCtr, .vault, .slots, .pk, .ent, .att, .tenantBox, .operBox]) (pkEnd_only _ _ _ _)
    | with_reducible apply Only.via (Q := [.pk, .fq]) (pkMismatch_only _ _)
    | with_reducible apply Only.via (Q := [.pk]) (setArea_only _ _ _)
    | with_reducible apply Only.whenUp

theorem execPkCheckpoint_only (s : State) : ∃ t, execPkCheckpoint s = .next t ∧ Only [.pk] s t := by
  refine ⟨_, rfl, ?_⟩
  try dsimp only
  repeat' first
    | with_reducible exact Only.refl _ _
    | with_reducible assumption
    | exact (rfl : (_ : Bool) = true)
    | exact fun _ => rfl
    | intro _
    | split
    | with_reducible apply Only.via (Q := []) (done_only _)
    | with_reducible apply Only.via (Q := [.pk]) (modSlot_only _ _ _)
    | with_reducible apply Only.onlyIf
    | with_reducible apply Only.via (Q := [.pk]) (setArea_only _ _ _)
    | with_reducible apply Only.whenUp
    | with_reducible apply Only.via (Q := [.pk]) (Only.modPk _ _)

theorem execPkJobEnd_only (long runsDiffer : Bool) (s : State) : ∃ t, execPkJobEnd long runsDiffer s = .next t ∧ Only [.freeCtr, .vault, .slots, .pk, .ent, .att, .tenantBox, .operBox, .fq] s t := by
  refine ⟨_, rfl, ?_⟩
  try dsimp only
  repeat' first
    | with_reducible exact Only.refl _ _
    | with_reducible assumption
    | exact (rfl : (_ : Bool) = true)
    | exact fun _ => rfl
    | intro _
    | split
    | with_reducible apply Only.via (Q := []) (done_only _)
    | with_reducible apply Only.via (Q := [.freeCtr, .vault, .slots, .pk, .ent, .att, .tenantBox, .operBox]) (pkEnd_only _ _ _ _)
    | with_reducible apply Only.via (Q := [.pk, .fq]) (pkMismatch_only _ _)
    | with_reducible apply Only.whenUp
    | with_reducible apply Only.via (Q := [.pk]) (Only.modPk _ _)

theorem execPkAbort_only (slot : Fin 8) (p : Path) (value : BitVec 32) (s : State) : ∃ t, execPkAbort slot p value s = .next t ∧ Only [.freeCtr, .vault, .slots, .pk, .ent, .att, .tenantBox, .operBox, .ports] s t := by
  refine ⟨_, rfl, ?_⟩
  try dsimp only
  repeat' first
    | with_reducible exact Only.refl _ _
    | with_reducible assumption
    | exact (rfl : (_ : Bool) = true)
    | exact fun _ => rfl
    | intro _
    | split
    | with_reducible apply Only.via (Q := []) (done_only _)
    | with_reducible apply Only.onlyIf
    | with_reducible apply Only.via (Q := [.freeCtr, .vault, .slots, .pk, .ent, .att, .tenantBox, .operBox]) (pkCtlWrite_only _ _ _)
    | with_reducible apply Only.via (Q := [.pk]) (pkForeign_only _)
    | with_reducible apply Only.writeGated

theorem execPkScrub_only (slot : Fin 8) (p : Path) (value : BitVec 32) (s : State) : ∃ t, execPkScrub slot p value s = .next t ∧ Only [.freeCtr, .vault, .slots, .pk, .ent, .att, .tenantBox, .operBox, .ports] s t := by
  refine ⟨_, rfl, ?_⟩
  try dsimp only
  repeat' first
    | with_reducible exact Only.refl _ _
    | with_reducible assumption
    | exact (rfl : (_ : Bool) = true)
    | exact fun _ => rfl
    | intro _
    | split
    | with_reducible apply Only.via (Q := []) (done_only _)
    | with_reducible apply Only.onlyIf
    | with_reducible apply Only.via (Q := [.freeCtr, .vault, .slots, .pk, .ent, .att, .tenantBox, .operBox]) (pkCtlWrite_only _ _ _)
    | with_reducible apply Only.via (Q := [.pk]) (pkForeign_only _)
    | with_reducible apply Only.writeGated

theorem execPkAbortComplete_only (long : Bool) (s : State) : ∃ t, execPkAbortComplete long s = .next t ∧ Only [.freeCtr, .vault, .slots, .pk, .ent, .att, .tenantBox, .operBox] s t := by
  refine ⟨_, rfl, ?_⟩
  try dsimp only
  repeat' first
    | with_reducible exact Only.refl _ _
    | with_reducible assumption
    | exact (rfl : (_ : Bool) = true)
    | exact fun _ => rfl
    | intro _
    | split
    | with_reducible apply Only.via (Q := []) (done_only _)
    | with_reducible apply Only.via (Q := [.freeCtr, .vault, .slots, .pk, .ent, .att, .tenantBox, .operBox]) (pkEnd_only _ _ _ _)
    | with_reducible apply Only.whenUp
    | with_reducible apply Only.via (Q := [.pk]) (wipeJob_only _ _ _)
    | with_reducible apply Only.via (Q := [.pk]) (Only.modPk _ _)

theorem execPkDatapath_only (datapathB residue : Bool) (s : State) : ∃ t, execPkDatapath datapathB residue s = .next t ∧ Only [.freeCtr, .vault, .slots, .pk, .ent, .att, .tenantBox, .operBox, .fq] s t := by
  refine ⟨_, rfl, ?_⟩
  try dsimp only
  repeat' first
    | with_reducible exact Only.refl _ _
    | with_reducible assumption
    | exact (rfl : (_ : Bool) = true)
    | exact fun _ => rfl
    | intro _
    | split
    | with_reducible apply Only.via (Q := []) (done_only _)
    | with_reducible apply Only.onlyIf
    | with_reducible apply Only.via (Q := [.freeCtr, .vault, .slots, .pk, .ent, .att, .tenantBox, .operBox, .fq]) (pkOut_only _ _ _)
    | with_reducible apply Only.whenUp

theorem execPkPeriodicKat_only (datapathB good : Bool) (s : State) : ∃ t, execPkPeriodicKat datapathB good s = .next t ∧ Only [.freeCtr, .vault, .slots, .pk, .ent, .att, .tenantBox, .operBox, .fq] s t := by
  refine ⟨_, rfl, ?_⟩
  try dsimp only
  repeat' first
    | with_reducible exact Only.refl _ _
    | with_reducible assumption
    | exact (rfl : (_ : Bool) = true)
    | exact fun _ => rfl
    | intro _
    | split
    | with_reducible apply Only.via (Q := []) (done_only _)
    | with_reducible apply Only.onlyIf
    | with_reducible apply Only.via (Q := [.freeCtr, .vault, .slots, .pk, .ent, .att, .tenantBox, .operBox, .fq]) (pkOut_only _ _ _)
    | with_reducible apply Only.whenUp

theorem execFcMode_only (p : Path) (value : BitVec 32) (s : State) : ∃ t, execFcMode p value s = .next t ∧ Only [.pk, .ports] s t := by
  refine ⟨_, rfl, ?_⟩
  try dsimp only
  repeat' first
    | with_reducible exact Only.refl _ _
    | with_reducible assumption
    | exact (rfl : (_ : Bool) = true)
    | exact fun _ => rfl
    | intro _
    | split
    | with_reducible apply Only.via (Q := []) (done_only _)
    | with_reducible apply Only.onlyIf
    | with_reducible apply Only.via (Q := [.pk]) (pkCtlRegWrite_only _ _)
    | with_reducible apply Only.writeAt

theorem execPkSelftest_only (p : Path) (value : BitVec 32) (s : State) : ∃ t, execPkSelftest p value s = .next t ∧ Only [.pk, .ports] s t := by
  refine ⟨_, rfl, ?_⟩
  try dsimp only
  repeat' first
    | with_reducible exact Only.refl _ _
    | with_reducible assumption
    | exact (rfl : (_ : Bool) = true)
    | exact fun _ => rfl
    | intro _
    | split
    | with_reducible apply Only.via (Q := []) (done_only _)
    | with_reducible apply Only.onlyIf
    | with_reducible apply Only.via (Q := [.pk]) (pkCtlRegWrite_only _ _)
    | with_reducible apply Only.writeAt

theorem execPkSelftestEnd_only (goodA goodB : Bool) (s : State) : ∃ t, execPkSelftestEnd goodA goodB s = .next t ∧ Only [.freeCtr, .vault, .slots, .pk, .ent, .att, .tenantBox, .operBox, .brup, .fq] s t := by
  refine ⟨_, rfl, ?_⟩
  try dsimp only
  repeat' first
    | with_reducible exact Only.refl _ _
    | with_reducible assumption
    | exact (rfl : (_ : Bool) = true)
    | exact fun _ => rfl
    | intro _
    | split
    | with_reducible apply Only.via (Q := []) (done_only _)
    | with_reducible apply Only.onlyIf
    | with_reducible apply Only.via (Q := [.brup]) (pkFinding_only _ _)
    | with_reducible apply Only.via (Q := [.freeCtr, .vault, .slots, .pk, .ent, .att, .tenantBox, .operBox, .fq]) (pkOut_only _ _ _)
    | with_reducible apply Only.whenUp
    | with_reducible apply Only.via (Q := [.pk]) (Only.modPk _ _)

theorem execSweepCmd_only (die : Fin 4) (s : State) : ∃ t, execSweepCmd die s = .next t ∧ Only [.guards, .dies, .head, .fq, .sby] s t := by
  refine ⟨_, rfl, ?_⟩
  try dsimp only
  repeat' first
    | with_reducible exact Only.refl _ _
    | with_reducible assumption
    | exact (rfl : (_ : Bool) = true)
    | exact fun _ => rfl
    | intro _
    | split
    | with_reducible apply Only.via (Q := []) (done_only _)
    | with_reducible apply Only.via (Q := [.dies]) (guardSend_only _ _ _)
    | with_reducible apply Only.receive
    | with_reducible apply Only.whenUp
    | with_reducible apply Only.via (Q := [.guards]) (Only.modGuard _ _ _)
    | dsimp only [id]
    | dsimp only [Option.getD, id]

theorem execSweepAbort_only (die : Fin 4) (s : State) : ∃ t, execSweepAbort die s = .next t ∧ Only [.guards, .dies, .head, .fq, .sby] s t := by
  refine ⟨_, rfl, ?_⟩
  try dsimp only
  repeat' first
    | with_reducible exact Only.refl _ _
    | with_reducible assumption
    | exact (rfl : (_ : Bool) = true)
    | exact fun _ => rfl
    | intro _
    | split
    | with_reducible apply Only.via (Q := []) (done_only _)
    | with_reducible apply Only.forEach
    | with_reducible apply Only.via (Q := [.dies]) (guardSend_only _ _ _)
    | with_reducible apply Only.receive
    | with_reducible apply Only.whenUp
    | with_reducible apply Only.via (Q := [.guards]) (Only.modGuard _ _ _)
    | dsimp only [Option.getD, id]

theorem execSweepLine_only (g : Fin 40) (rdErr : Bool) (data : BitVec 512) (side : BitVec 64) (wrErr : Bool) (s : State) : ∃ t, execSweepLine g rdErr data side wrErr s = .next t ∧ Only [.freeCtr, .guards, .dies, .head, .ks, .vault, .mower, .att, .tenantBox, .operBox, .fq, .mir] s t := by
  refine ⟨_, rfl, ?_⟩
  try dsimp only
  repeat' first
    | with_reducible exact Only.refl _ _
    | with_reducible assumption
    | exact (rfl : (_ : Bool) = true)
    | exact fun _ => rfl
    | intro _
    | split
    | with_reducible apply Only.via (Q := [.guards, .dies, .ks, .mower, .fq]) (bindFailed_only _ _ _ _ _)
    | with_reducible apply Only.via (Q := []) (done_only _)
    | with_reducible apply Only.via (Q := [.freeCtr, .guards]) (driveBeat_only _ _ _ _ _ _)
    | with_reducible apply Only.via (Q := [.guards, .dies]) (rekeyVisited_only _ _ _)
    | with_reducible apply Only.via (Q := [.dies, .head, .ks, .vault, .mower, .att, .tenantBox, .operBox, .fq, .mir]) (settle_only _)
    | with_reducible apply Only.via (Q := [.guards, .dies]) (slotFor_only _ _ _ _ _)
    | with_reducible apply Only.whenUp

theorem execDomainSweepLine_only (g : Fin 40) (wrErr : Bool) (s : State) : ∃ t, execDomainSweepLine g wrErr s = .next t ∧ Only [.freeCtr, .guards, .dies] s t := by
  refine ⟨_, rfl, ?_⟩
  try dsimp only
  repeat' first
    | with_reducible exact Only.refl _ _
    | with_reducible assumption
    | exact (rfl : (_ : Bool) = true)
    | exact fun _ => rfl
    | intro _
    | split
    | with_reducible apply Only.via (Q := []) (done_only _)
    | with_reducible apply Only.via (Q := [.freeCtr, .guards]) (driveBeat_only _ _ _ _ _ _)
    | with_reducible apply Only.via (Q := [.dies]) (guardSend_only _ _ _)
    | with_reducible apply Only.onlyIf
    | with_reducible apply Only.whenUp
    | with_reducible apply Only.via (Q := [.guards]) (Only.modGuard _ _ _)

theorem execKeyReq_only (s : State) : ∃ t, execKeyReq s = .next t ∧ Only [.dies, .head, .fq, .sby] s t := by
  refine ⟨_, rfl, ?_⟩
  try dsimp only
  repeat' first
    | with_reducible exact Only.refl _ _
    | with_reducible assumption
    | exact (rfl : (_ : Bool) = true)
    | exact fun _ => rfl
    | intro _
    | split
    | with_reducible apply Only.via (Q := []) (done_only _)
    | with_reducible apply Only.headReceive
    | with_reducible apply Only.whenUp
    | with_reducible apply Only.via (Q := [.head]) (Only.modHead _ _)
    | dsimp only [Option.getD, id]

theorem execKeyServiceAnswer_only (ecc : BitVec 2) (s : State) : ∃ t, execKeyServiceAnswer ecc s = .next t ∧ Only [.dies, .head, .ks, .vault, .att, .tenantBox, .operBox, .fq, .mir] s t := by
  refine ⟨_, rfl, ?_⟩
  try dsimp only
  repeat' first
    | with_reducible exact Only.refl _ _
    | with_reducible assumption
    | exact (rfl : (_ : Bool) = true)
    | exact fun _ => rfl
    | intro _
    | split
    | with_reducible apply Only.via (Q := []) (done_only _)
    | with_reducible apply Only.via (Q := [.dies, .head]) (headSend_only _ _ _)
    | with_reducible apply Only.via (Q := [.dies, .head, .ks, .att, .tenantBox, .operBox, .fq, .mir]) (markLost_only _ _ _ _)
    | with_reducible apply Only.whenUp
    | with_reducible apply Only.via (Q := [.head]) (Only.modHead _ _)
    | with_reducible apply Only.viaVault
    | (intro v; dsimp only; split <;> rfl)

theorem execRetireDequeue_only (s : State) : ∃ t, execRetireDequeue s = .next t ∧ Only [.dies, .head, .ks, .vault, .mower, .att, .tenantBox, .operBox, .fq, .mir] s t := by
  refine ⟨_, rfl, ?_⟩
  try dsimp only
  repeat' first
    | with_reducible exact Only.refl _ _
    | with_reducible assumption
    | exact (rfl : (_ : Bool) = true)
    | exact fun _ => rfl
    | intro _
    | split
    | with_reducible apply Only.via (Q := []) (done_only _)
    | with_reducible apply Only.via (Q := [.dies, .head, .ks, .vault, .mower, .att, .tenantBox, .operBox, .fq, .mir]) (settle_only _)
    | with_reducible apply Only.via (Q := [.dies, .head, .ks]) (startOp_only _ _)
    | with_reducible apply Only.whenUp
    | with_reducible apply Only.via (Q := [.ks]) (Only.modKs _ _)

theorem execAck_only (s : State) : ∃ t, execAck s = .next t ∧ Only [.dies, .head, .ks, .vault, .mower, .att, .tenantBox, .operBox, .fq, .mir, .sby] s t := by
  refine ⟨_, rfl, ?_⟩
  try dsimp only
  repeat' first
    | with_reducible exact Only.refl _ _
    | with_reducible assumption
    | exact (rfl : (_ : Bool) = true)
    | exact fun _ => rfl
    | intro _
    | split
    | with_reducible apply Only.via (Q := []) (done_only _)
    | with_reducible apply Only.headReceive
    | with_reducible apply Only.via (Q := [.dies, .head, .ks, .vault, .mower, .att, .tenantBox, .operBox, .fq, .mir]) (settle_only _)
    | with_reducible apply Only.whenUp
    | with_reducible apply Only.via (Q := [.ks]) (Only.modKs _ _)
    | dsimp only [Option.getD, id]

theorem execBroadcastResend_only (opId : BitVec 32) (sync : Bool) (s : State) : ∃ t, execBroadcastResend opId sync s = .next t ∧ Only [.timer, .dies, .head, .ks] s t := by
  refine ⟨_, rfl, ?_⟩
  try dsimp only
  repeat' first
    | with_reducible exact Only.refl _ _
    | with_reducible assumption
    | exact (rfl : (_ : Bool) = true)
    | exact fun _ => rfl
    | intro _
    | split
    | with_reducible apply Only.via (Q := []) (done_only _)
    | with_reducible apply Only.forEach
    | with_reducible apply Only.via (Q := [.dies, .head]) (headAll_only _ _)
    | with_reducible apply Only.via (Q := [.ks]) (modOp_only _ _ _ _)
    | with_reducible apply Only.via (Q := [.timer]) (reachTime_only _ _)
    | with_reducible apply Only.via (Q := [.dies, .head, .ks]) (sendSync_only _ _ _ _)
    | with_reducible apply Only.whenUp

theorem execAckTimeout_only (opId : BitVec 32) (sync : Bool) (s : State) : ∃ t, execAckTimeout opId sync s = .next t ∧ Only [.timer, .guards, .dies, .head, .ks, .vault, .mower, .att, .tenantBox, .operBox, .fq, .mir] s t := by
  refine ⟨_, rfl, ?_⟩
  try dsimp only
  repeat' first
    | with_reducible exact Only.refl _ _
    | with_reducible assumption
    | exact (rfl : (_ : Bool) = true)
    | exact fun _ => rfl
    | intro _
    | split
    | with_reducible apply Only.via (Q := []) (done_only _)
    | with_reducible apply Only.via (Q := [.guards, .dies, .ks, .mower]) (fenceGuard_only _ _ _ _)
    | with_reducible apply Only.forEach
    | with_reducible apply Only.via (Q := [.ks]) (modOp_only _ _ _ _)
    | with_reducible apply Only.via (Q := [.fq]) (raise_only _ _ _ _ _ _ _)
    | with_reducible apply Only.via (Q := [.timer]) (reachTime_only _ _)
    | with_reducible apply Only.via (Q := [.dies, .head, .ks, .vault, .mower, .att, .tenantBox, .operBox, .fq, .mir]) (settle_only _)
    | with_reducible apply Only.via (Q := [.guards, .dies, .ks, .mower, .fq]) (stopTimeout_only _ _ _ _ _)
    | with_reducible apply Only.via (Q := [.dies, .head, .ks]) (synced_only _ _)
    | with_reducible apply Only.whenUp
    | with_reducible apply Only.via (Q := [.dies]) (Only.modDie _ _ _)

theorem execRingErr_only (s : State) : ∃ t, execRingErr s = .next t ∧ Only [.guards, .dies, .head, .ks, .vault, .mower, .att, .tenantBox, .operBox, .fq, .mir, .sby] s t := by
  refine ⟨_, rfl, ?_⟩
  try dsimp only
  repeat' first
    | with_reducible exact Only.refl _ _
    | with_reducible assumption
    | exact (rfl : (_ : Bool) = true)
    | exact fun _ => rfl
    | intro _
    | split
    | with_reducible apply Only.via (Q := []) (done_only _)
    | with_reducible apply Only.via (Q := [.guards, .dies, .ks, .mower]) (fenceAll_only _ _ _)
    | with_reducible apply Only.forEach
    | with_reducible apply Only.headReceive
    | with_reducible apply Only.via (Q := [.fq]) (raise_only _ _ _ _ _ _ _)
    | with_reducible apply Only.via (Q := [.dies]) (ringTo_only _ _ _)
    | with_reducible apply Only.via (Q := [.dies, .head, .ks, .vault, .mower, .att, .tenantBox, .operBox, .fq, .mir]) (settle_only _)
    | with_reducible apply Only.whenUp
    | dsimp only [Option.getD, id]

theorem execDescriptorSend_only (s : State) : ∃ t, execDescriptorSend s = .next t ∧ Only [.dies, .head, .ks, .ent] s t := by
  refine ⟨_, rfl, ?_⟩
  try dsimp only
  repeat' first
    | with_reducible exact Only.refl _ _
    | with_reducible assumption
    | exact (rfl : (_ : Bool) = true)
    | exact fun _ => rfl
    | intro _
    | split
    | with_reducible apply Only.via (Q := []) (done_only _)
    | with_reducible apply Only.via (Q := [.ent]) (drawBytes_only _ _)
    | with_reducible apply Only.via (Q := [.dies, .head]) (headSend_only _ _ _)
    | with_reducible apply Only.whenUp
    | with_reducible apply Only.via (Q := [.ks]) (Only.modKs _ _)
    | with_reducible refine Only.ofPair (by assumption) ?_
    | with_reducible refine Only.ofTriple (by assumption) ?_

theorem execSweepDone_only (s : State) : ∃ t, execSweepDone s = .next t ∧ Only [.dies, .head, .ks, .vault, .mower, .att, .tenantBox, .operBox, .fq, .mir, .sby] s t := by
  refine ⟨_, rfl, ?_⟩
  try dsimp only
  repeat' first
    | with_reducible exact Only.refl _ _
    | with_reducible assumption
    | exact (rfl : (_ : Bool) = true)
    | exact fun _ => rfl
    | intro _
    | split
    | with_reducible apply Only.via (Q := []) (done_only _)
    | with_reducible apply Only.headReceive
    | with_reducible apply Only.via (Q := [.ks]) (modDom_only _ _ _)
    | with_reducible apply Only.onlyIf
    | with_reducible apply Only.via (Q := [.dies, .head, .ks, .att, .tenantBox, .operBox, .fq, .mir]) (rekeyEnded_only _ _)
    | with_reducible apply Only.via (Q := [.dies, .head, .ks, .vault, .mower, .att, .tenantBox, .operBox, .fq, .mir]) (settle_only _)
    | with_reducible apply Only.via (Q := [.dies, .head, .ks, .att, .tenantBox, .operBox, .fq, .mir]) (sweepEnded_only _ _)
    | with_reducible apply Only.whenUp
    | with_reducible apply Only.via (Q := [.ks]) (Only.modKs _ _)
    | dsimp only [id]
    | dsimp only [Option.getD, id]

theorem execTeardownDrainEnd_only (domain : BitVec 13) (s : State) : ∃ t, execTeardownDrainEnd domain s = .next t ∧ Only [.dies, .head, .ks, .vault, .mower, .att, .tenantBox, .operBox, .fq, .mir] s t := by
  refine ⟨_, rfl, ?_⟩
  try dsimp only
  repeat' first
    | with_reducible exact Only.refl _ _
    | with_reducible assumption
    | exact (rfl : (_ : Bool) = true)
    | exact fun _ => rfl
    | intro _
    | split
    | with_reducible apply Only.via (Q := [.ks]) (addDescs_only _ _ _ _)
    | with_reducible apply Only.via (Q := [.dies, .head, .ks, .att, .tenantBox, .operBox, .fq, .mir]) (commitDom_only _ _ _ _)
    | with_reducible apply Only.via (Q := []) (done_only _)
    | with_reducible apply Only.via (Q := [.ks]) (modDom_only _ _ _)
    | with_reducible apply Only.via (Q := [.dies, .head, .ks, .vault, .mower, .att, .tenantBox, .operBox, .fq, .mir]) (settle_only _)
    | with_reducible apply Only.via (Q := [.dies, .head, .ks, .att, .tenantBox, .operBox, .fq, .mir]) (sweepEnded_only _ _)
    | with_reducible apply Only.whenUp

theorem execLaneParity_only (g : Fin 40) (bank lane : Nat) (stage : BitVec 4) (lines : List Nat) (s : State) : ∃ t, execLaneParity g bank lane stage lines s = .next t ∧ Only [.guards, .dies, .head, .ks, .vault, .mower, .att, .tenantBox, .operBox, .brup, .fq, .mir] s t := by
  refine ⟨_, rfl, ?_⟩
  try dsimp only
  repeat' first
    | with_reducible exact Only.refl _ _
    | with_reducible assumption
    | exact (rfl : (_ : Bool) = true)
    | exact fun _ => rfl
    | intro _
    | split
    | with_reducible apply Only.via (Q := []) (done_only _)
    | with_reducible apply Only.via (Q := [.guards, .dies, .head, .ks, .vault, .mower, .att, .tenantBox, .operBox, .brup, .fq, .mir]) (laneOut_only _ _ _ _ _)
    | with_reducible apply Only.onlyIf
    | with_reducible apply Only.via (Q := [.fq]) (raise_only _ _ _ _ _ _ _)
    | with_reducible apply Only.via (Q := [.dies, .head, .ks, .vault, .mower, .att, .tenantBox, .operBox, .fq, .mir]) (settle_only _)
    | with_reducible apply Only.whenUp
    | with_reducible apply Only.via (Q := [.guards]) (Only.modGuard _ _ _)

theorem execKnownAnswerInjection_only (g : Fin 40) (bank lane : Nat) (good : Bool) (lines : List Nat) (s : State) : ∃ t, execKnownAnswerInjection g bank lane good lines s = .next t ∧ Only [.guards, .dies, .head, .ks, .vault, .mower, .att, .tenantBox, .operBox, .brup, .fq, .mir] s t := by
  refine ⟨_, rfl, ?_⟩
  try dsimp only
  repeat' first
    | with_reducible exact Only.refl _ _
    | with_reducible assumption
    | exact (rfl : (_ : Bool) = true)
    | exact fun _ => rfl
    | intro _
    | split
    | with_reducible apply Only.via (Q := []) (done_only _)
    | with_reducible apply Only.via (Q := [.guards, .dies, .head, .ks, .vault, .mower, .att, .tenantBox, .operBox, .brup, .fq, .mir]) (katBlock_only _ _ _ _ _ _)
    | with_reducible apply Only.via (Q := [.dies, .head, .ks, .vault, .mower, .att, .tenantBox, .operBox, .fq, .mir]) (settle_only _)
    | with_reducible apply Only.whenUp

theorem execGuardKatInject_only (g : Fin 40) (p : Path) (value : BitVec 32) (bad : List (Nat × Nat)) (lines : List Nat) (s : State) : ∃ t, execGuardKatInject g p value bad lines s = .next t ∧ Only [.guards, .dies, .head, .ks, .vault, .mower, .att, .tenantBox, .operBox, .brup, .fq, .mir, .ports] s t := by
  refine ⟨_, rfl, ?_⟩
  try dsimp only
  repeat' first
    | with_reducible exact Only.refl _ _
    | with_reducible assumption
    | exact (rfl : (_ : Bool) = true)
    | exact fun _ => rfl
    | intro _
    | split
    | with_reducible apply Only.via (Q := []) (done_only _)
    | with_reducible apply Only.forEach
    | with_reducible apply Only.via (Q := [.guards, .dies, .head, .ks, .vault, .mower, .att, .tenantBox, .operBox, .brup, .fq, .mir]) (katBlock_only _ _ _ _ _ _)
    | with_reducible apply Only.onlyIf
    | with_reducible apply Only.via (Q := [.dies, .head, .ks, .vault, .mower, .att, .tenantBox, .operBox, .fq, .mir]) (settle_only _)
    | with_reducible apply Only.writeAt

theorem execSpareSubstitution_only (g : Fin 40) (bank : Nat) (s : State) : ∃ t, execSpareSubstitution g bank s = .next t ∧ Only [.guards] s t := by
  refine ⟨_, rfl, ?_⟩
  try dsimp only
  repeat' first
    | with_reducible exact Only.refl _ _
    | with_reducible assumption
    | exact (rfl : (_ : Bool) = true)
    | exact fun _ => rfl
    | intro _
    | split
    | with_reducible apply Only.via (Q := []) (done_only _)
    | with_reducible apply Only.via (Q := [.guards]) (modBank_only _ _ _ _)
    | with_reducible apply Only.whenUp
    | with_reducible apply Only.via (Q := [.guards]) (Only.modGuard _ _ _)

theorem execThrottleInterval_only (g : Fin 40) (s : State) : ∃ t, execThrottleInterval g s = .next t ∧ Only [.guards] s t := by
  refine ⟨_, rfl, ?_⟩
  try dsimp only
  repeat' first
    | with_reducible exact Only.refl _ _
    | with_reducible assumption
    | exact (rfl : (_ : Bool) = true)
    | exact fun _ => rfl
    | intro _
    | split
    | with_reducible apply Only.via (Q := []) (done_only _)
    | with_reducible apply Only.whenUp
    | with_reducible apply Only.via (Q := [.guards]) (Only.modGuard _ _ _)

theorem execMemoryPortClockStopped_only (g : Fin 40) (s : State) : ∃ t, execMemoryPortClockStopped g s = .next t ∧ Only [.guards, .dies] s t := by
  refine ⟨_, rfl, ?_⟩
  try dsimp only
  repeat' first
    | with_reducible exact Only.refl _ _
    | with_reducible assumption
    | exact (rfl : (_ : Bool) = true)
    | exact fun _ => rfl
    | intro _
    | split
    | with_reducible apply Only.via (Q := []) (done_only _)
    | with_reducible apply Only.via (Q := [.guards, .dies]) (portClock_only _ _ _)
    | with_reducible apply Only.whenUp

theorem execMemoryPortClockRunning_only (g : Fin 40) (s : State) : ∃ t, execMemoryPortClockRunning g s = .next t ∧ Only [.guards, .dies] s t := by
  refine ⟨_, rfl, ?_⟩
  try dsimp only
  repeat' first
    | with_reducible exact Only.refl _ _
    | with_reducible assumption
    | exact (rfl : (_ : Bool) = true)
    | exact fun _ => rfl
    | intro _
    | split
    | with_reducible apply Only.via (Q := []) (done_only _)
    | with_reducible apply Only.via (Q := [.guards, .dies]) (portClock_only _ _ _)
    | with_reducible apply Only.whenUp

theorem execBundleKeyLapse_only (model : BitVec 13) (s : State) : ∃ t, execBundleKeyLapse model s = .next t ∧ Only [.timer, .dies, .head, .ks, .vault, .ingest, .att, .tenantBox, .operBox, .mir] s t := by
  refine ⟨_, rfl, ?_⟩
  try dsimp only
  repeat' first
    | with_reducible exact Only.refl _ _
    | with_reducible assumption
    | exact (rfl : (_ : Bool) = true)
    | exact fun _ => rfl
    | intro _
    | split
    | with_reducible apply Only.via (Q := [.dies, .head, .ks, .att, .tenantBox, .operBox, .mir]) (commit_only _ _ _ _)
    | with_reducible apply Only.via (Q := []) (done_only _)
    | with_reducible apply Only.via (Q := [.ks]) (modModel_only _ _ _)
    | with_reducible apply Only.via (Q := [.timer]) (reachTime_only _ _)
    | with_reducible apply Only.whenUp
    | with_reducible apply Only.via (Q := [.vault]) (wipeBundle_only _ _)
    | with_reducible apply Only.via (Q := [.ingest]) (Only.modIngest _ _)

theorem execLkAck_only (err : Bool) (s : State) : ∃ t, execLkAck err s = .next t ∧ Only [.att, .tenantBox, .operBox, .ports] s t := by
  refine ⟨_, rfl, ?_⟩
  try dsimp only
  repeat' first
    | with_reducible exact Only.refl _ _
    | with_reducible assumption
    | exact (rfl : (_ : Bool) = true)
    | exact fun _ => rfl
    | intro _
    | split
    | with_reducible apply Only.via (Q := []) (done_only _)
    | with_reducible apply Only.via (Q := [.ports]) (endLink_only _)
    | with_reducible apply Only.via (Q := [.att, .tenantBox, .operBox, .ports]) (failLink_only _)
    | with_reducible apply Only.via (Q := [.ports]) (pumpLinks_only _)
    | with_reducible apply Only.via (Q := [.att, .tenantBox, .operBox]) (reply_only _ _ _)
    | with_reducible apply Only.whenUp
    | with_reducible apply Only.via (Q := [.ports]) (Only.modPorts _ _)

theorem execLkAckTimeout_only (s : State) : ∃ t, execLkAckTimeout s = .next t ∧ Only [.timer, .att, .tenantBox, .operBox, .ports] s t := by
  refine ⟨_, rfl, ?_⟩
  try dsimp only
  repeat' first
    | with_reducible exact Only.refl _ _
    | with_reducible assumption
    | exact (rfl : (_ : Bool) = true)
    | exact fun _ => rfl
    | intro _
    | split
    | with_reducible apply Only.via (Q := []) (done_only _)
    | with_reducible apply Only.via (Q := [.att, .tenantBox, .operBox, .ports]) (failLink_only _)
    | with_reducible apply Only.onlyIf
    | with_reducible apply Only.via (Q := [.timer]) (reachTime_only _ _)
    | with_reducible apply Only.whenUp

theorem execRegionListRead_only (s : State) : ∃ t, execRegionListRead s = .next t ∧ Only [.freeCtr, .guards, .dies, .head, .ks, .vault, .pk, .ingest, .mower, .att, .tenantBox, .operBox, .fq, .mir, .dma, .ports] s t := by
  refine ⟨_, rfl, ?_⟩
  try dsimp only
  repeat' first
    | with_reducible exact Only.refl _ _
    | with_reducible assumption
    | exact (rfl : (_ : Bool) = true)
    | exact fun _ => rfl
    | intro _
    | split
    | with_reducible apply Only.via (Q := []) (done_only _)
    | with_reducible apply Only.endRegionRead
    | with_reducible apply Only.via (Q := [.freeCtr, .dies, .head, .ks, .vault, .ingest, .mower, .att, .tenantBox, .operBox, .fq, .mir, .dma]) (listRead_only _ _ _)
    | with_reducible apply Only.via (Q := [.freeCtr, .guards, .dies, .head, .ks, .vault, .pk, .ingest, .mower, .att, .tenantBox, .operBox, .fq, .mir, .dma, .ports]) (refuseRegionRead_only _ _ _)
    | with_reducible apply Only.whenUp
    | dsimp only [id]

theorem execHybFinishTimeout_only (sess : Nat) (s : State) : ∃ t, execHybFinishTimeout sess s = .next t ∧ Only [.timer, .att] s t := by
  refine ⟨_, rfl, ?_⟩
  try dsimp only
  repeat' first
    | with_reducible exact Only.refl _ _
    | with_reducible assumption
    | exact (rfl : (_ : Bool) = true)
    | exact fun _ => rfl
    | intro _
    | split
    | with_reducible apply Only.via (Q := []) (done_only _)
    | with_reducible apply Only.via (Q := [.att]) (endSess_only _ _)
    | with_reducible apply Only.via (Q := [.timer]) (reachTime_only _ _)
    | with_reducible apply Only.whenUp

theorem execSessionIdleTimeout_only (sess : Nat) (s : State) : ∃ t, execSessionIdleTimeout sess s = .next t ∧ Only [.timer, .att] s t := by
  refine ⟨_, rfl, ?_⟩
  try dsimp only
  repeat' first
    | with_reducible exact Only.refl _ _
    | with_reducible assumption
    | exact (rfl : (_ : Bool) = true)
    | exact fun _ => rfl
    | intro _
    | split
    | with_reducible apply Only.via (Q := []) (done_only _)
    | with_reducible apply Only.via (Q := [.att]) (endSess_only _ _)
    | with_reducible apply Only.via (Q := [.timer]) (reachTime_only _ _)
    | with_reducible apply Only.whenUp

theorem execQuoteBatchClose_only (s : State) : ∃ t, execQuoteBatchClose s = .next t ∧ Only [.timer, .freeCtr, .pk, .att, .tenantBox, .operBox, .mir] s t := by
  refine ⟨_, rfl, ?_⟩
  try dsimp only
  repeat' first
    | with_reducible exact Only.refl _ _
    | with_reducible assumption
    | exact (rfl : (_ : Bool) = true)
    | exact fun _ => rfl
    | intro _
    | split
    | with_reducible apply Only.via (Q := [.freeCtr, .pk, .att, .tenantBox, .operBox, .mir]) (closeBatch_only _)
    | with_reducible apply Only.via (Q := []) (done_only _)
    | with_reducible apply Only.onlyIf
    | with_reducible apply Only.via (Q := [.timer]) (reachTime_only _ _)
    | with_reducible apply Only.whenUp

theorem execClaim_only (c : Fin 8) (p : Path) (value : BitVec 32) (s : State) : ∃ t, execClaim c p value s = .next t ∧ Only [.freeCtr, .dig, .ent, .dma, .ports] s t := by
  refine ⟨_, rfl, ?_⟩
  try dsimp only
  repeat' first
    | with_reducible exact Only.refl _ _
    | with_reducible assumption
    | exact (rfl : (_ : Bool) = true)
    | exact fun _ => rfl
    | intro _
    | split
    | with_reducible apply Only.via (Q := [.freeCtr, .dig, .ent, .dma, .ports]) (ctxRow_only _ _ _ _ _)
    | with_reducible apply Only.via (Q := []) (done_only _)

theorem execCtxOpen_only (c : Fin 8) (p : Path) (value : BitVec 32) (s : State) : ∃ t, execCtxOpen c p value s = .next t ∧ Only [.freeCtr, .dig, .ent, .dma, .ports] s t := by
  refine ⟨_, rfl, ?_⟩
  try dsimp only
  repeat' first
    | with_reducible exact Only.refl _ _
    | with_reducible assumption
    | exact (rfl : (_ : Bool) = true)
    | exact fun _ => rfl
    | intro _
    | split
    | with_reducible apply Only.via (Q := [.freeCtr, .dig, .ent, .dma, .ports]) (ctxRow_only _ _ _ _ _)
    | with_reducible apply Only.via (Q := []) (done_only _)

theorem execCtxFinish_only (c : Fin 8) (p : Path) (value : BitVec 32) (s : State) : ∃ t, execCtxFinish c p value s = .next t ∧ Only [.freeCtr, .dig, .ent, .dma, .ports] s t := by
  refine ⟨_, rfl, ?_⟩
  try dsimp only
  repeat' first
    | with_reducible exact Only.refl _ _
    | with_reducible assumption
    | exact (rfl : (_ : Bool) = true)
    | exact fun _ => rfl
    | intro _
    | split
    | with_reducible apply Only.via (Q := [.freeCtr, .dig, .ent, .dma, .ports]) (ctxRow_only _ _ _ _ _)
    | with_reducible apply Only.via (Q := []) (done_only _)

theorem execCtxClose_only (c : Fin 8) (p : Path) (value : BitVec 32) (s : State) : ∃ t, execCtxClose c p value s = .next t ∧ Only [.freeCtr, .dig, .ent, .dma, .ports] s t := by
  refine ⟨_, rfl, ?_⟩
  try dsimp only
  repeat' first
    | with_reducible exact Only.refl _ _
    | with_reducible assumption
    | exact (rfl : (_ : Bool) = true)
    | exact fun _ => rfl
    | intro _
    | split
    | with_reducible apply Only.via (Q := [.freeCtr, .dig, .ent, .dma, .ports]) (ctxRow_only _ _ _ _ _)
    | with_reducible apply Only.via (Q := []) (done_only _)

theorem execCtxAbort_only (c : Fin 8) (p : Path) (value : BitVec 32) (s : State) : ∃ t, execCtxAbort c p value s = .next t ∧ Only [.freeCtr, .dig, .ent, .dma, .ports] s t := by
  refine ⟨_, rfl, ?_⟩
  try dsimp only
  repeat' first
    | with_reducible exact Only.refl _ _
    | with_reducible assumption
    | exact (rfl : (_ : Bool) = true)
    | exact fun _ => rfl
    | intro _
    | split
    | with_reducible apply Only.via (Q := [.freeCtr, .dig, .ent, .dma, .ports]) (ctxRow_only _ _ _ _ _)
    | with_reducible apply Only.via (Q := []) (done_only _)

theorem execCtxExport_only (c : Fin 8) (p : Path) (value : BitVec 32) (s : State) : ∃ t, execCtxExport c p value s = .next t ∧ Only [.freeCtr, .dig, .ent, .dma, .ports] s t := by
  refine ⟨_, rfl, ?_⟩
  try dsimp only
  repeat' first
    | with_reducible exact Only.refl _ _
    | with_reducible assumption
    | exact (rfl : (_ : Bool) = true)
    | exact fun _ => rfl
    | intro _
    | split
    | with_reducible apply Only.via (Q := [.freeCtr, .dig, .ent, .dma, .ports]) (ctxRow_only _ _ _ _ _)
    | with_reducible apply Only.via (Q := []) (done_only _)

theorem execCtxImport_only (c : Fin 8) (p : Path) (value : BitVec 32) (s : State) : ∃ t, execCtxImport c p value s = .next t ∧ Only [.freeCtr, .dig, .ent, .dma, .ports] s t := by
  refine ⟨_, rfl, ?_⟩
  try dsimp only
  repeat' first
    | with_reducible exact Only.refl _ _
    | with_reducible assumption
    | exact (rfl : (_ : Bool) = true)
    | exact fun _ => rfl
    | intro _
    | split
    | with_reducible apply Only.via (Q := [.freeCtr, .dig, .ent, .dma, .ports]) (ctxRow_only _ _ _ _ _)
    | with_reducible apply Only.via (Q := []) (done_only _)

theorem execDigCtxData_only (c : Fin 8) (p : Path) (value : BitVec 32) (s : State) : ∃ t, execDigCtxData c p value s = .next t ∧ Only [.dig, .ports] s t := by
  refine ⟨_, rfl, ?_⟩
  try dsimp only
  repeat' first
    | with_reducible exact Only.refl _ _
    | with_reducible assumption
    | exact (rfl : (_ : Bool) = true)
    | exact fun _ => rfl
    | intro _
    | split
    | with_reducible apply Only.via (Q := [.dig]) (dataWord_only _ _ _)
    | with_reducible apply Only.via (Q := [.dig]) (digForeign_only _)
    | with_reducible apply Only.via (Q := []) (done_only _)
    | with_reducible apply Only.writeGated

theorem execDmaFeed_only (c : Fin 8) (p : Path) (value : BitVec 32) (s : State) : ∃ t, execDmaFeed c p value s = .next t ∧ Only [.freeCtr, .dig, .dma, .ports] s t := by
  refine ⟨_, rfl, ?_⟩
  try dsimp only
  repeat' first
    | with_reducible exact Only.refl _ _
    | with_reducible assumption
    | exact (rfl : (_ : Bool) = true)
    | exact fun _ => rfl
    | intro _
    | split
    | with_reducible apply Only.ctxWrite
    | with_reducible apply Only.via (Q := []) (done_only _)
    | with_reducible apply Only.via (Q := [.freeCtr, .dig, .dma]) (feedCtlWrite_only _ _ _)
    | with_reducible apply Only.onlyIf

theorem execDigestBlock_only (c : Fin 8) (s : State) : ∃ t, execDigestBlock c s = .next t ∧ Only [.freeCtr, .dig, .dma] s t := by
  refine ⟨_, rfl, ?_⟩
  try dsimp only
  repeat' first
    | with_reducible exact Only.refl _ _
    | with_reducible assumption
    | exact (rfl : (_ : Bool) = true)
    | exact fun _ => rfl
    | intro _
    | split
    | with_reducible apply Only.via (Q := [.freeCtr, .dig, .dma]) (ctxSettle_only _ _)
    | with_reducible apply Only.via (Q := []) (done_only _)
    | with_reducible apply Only.via (Q := [.dig]) (modCtx_only _ _ _)
    | with_reducible apply Only.whenUp
    | with_reducible apply Only.via (Q := [.dig]) (Only.modDig _ _)

theorem execEShort_only (c : Fin 8) (s : State) : ∃ t, execEShort c s = .next t ∧ Only [.timer, .freeCtr, .dig, .dma] s t := by
  refine ⟨_, rfl, ?_⟩
  try dsimp only
  repeat' first
    | with_reducible exact Only.refl _ _
    | with_reducible assumption
    | exact (rfl : (_ : Bool) = true)
    | exact fun _ => rfl
    | intro _
    | split
    | with_reducible apply Only.via (Q := [.freeCtr, .dig, .dma]) (ctxEnd_only _ _ _)
    | with_reducible apply Only.via (Q := []) (done_only _)
    | with_reducible apply Only.onlyIf
    | with_reducible apply Only.via (Q := [.timer]) (reachTime_only _ _)
    | with_reducible apply Only.whenUp
    | with_reducible apply Only.via (Q := [.dig]) (Only.modDig _ _)

theorem execDigDiscard_only (region : Fin 4) (p : Path) (value : BitVec 32) (s : State) : ∃ t, execDigDiscard region p value s = .next t ∧ Only [.dig, .ports] s t := by
  refine ⟨_, rfl, ?_⟩
  try dsimp only
  repeat' first
    | with_reducible exact Only.refl _ _
    | with_reducible assumption
    | exact (rfl : (_ : Bool) = true)
    | exact fun _ => rfl
    | intro _
    | split
    | with_reducible apply Only.via (Q := [.dig]) (discardWrite_only _ _ _)
    | with_reducible apply Only.via (Q := []) (done_only _)
    | with_reducible apply Only.onlyIf
    | with_reducible apply Only.writeAt

theorem execCompare_only (region : Fin 4) (p : Path) (value : BitVec 32) (s : State) : ∃ t, execCompare region p value s = .next t ∧ Only [.dig, .ports] s t := by
  refine ⟨_, rfl, ?_⟩
  try dsimp only
  repeat' first
    | with_reducible exact Only.refl _ _
    | with_reducible assumption
    | exact (rfl : (_ : Bool) = true)
    | exact fun _ => rfl
    | intro _
    | split
    | with_reducible apply Only.via (Q := [.dig]) (cmpCtlWrite_only _ _ _)
    | with_reducible apply Only.via (Q := []) (done_only _)
    | with_reducible apply Only.onlyIf
    | with_reducible apply Only.regionWrite

theorem execCompareResult_only (c : Fin 4) (split : Bool) (s : State) : ∃ t, execCompareResult c split s = .next t ∧ Only [.dig, .fq] s t := by
  refine ⟨_, rfl, ?_⟩
  try dsimp only
  repeat' first
    | with_reducible exact Only.refl _ _
    | with_reducible assumption
    | exact (rfl : (_ : Bool) = true)
    | exact fun _ => rfl
    | intro _
    | split
    | with_reducible apply Only.via (Q := []) (done_only _)
    | with_reducible apply Only.via (Q := [.dig]) (modRegion_only _ _ _)
    | with_reducible apply Only.onlyIf
    | with_reducible apply Only.via (Q := [.fq]) (raise_only _ _ _ _ _ _ _)
    | with_reducible apply Only.whenUp
    | with_reducible apply Only.via (Q := [.dig]) (Only.modDig _ _)

theorem execDrbgRequest_only (s : State) : ∃ t, execDrbgRequest s = .next t ∧ Only [.freeCtr, .vault, .slots, .dig, .ent, .dma] s t := by
  refine ⟨_, rfl, ?_⟩
  try dsimp only
  repeat' first
    | with_reducible exact Only.refl _ _
    | with_reducible assumption
    | exact (rfl : (_ : Bool) = true)
    | exact fun _ => rfl
    | intro _
    | split
    | with_reducible apply Only.via (Q := [.freeCtr, .dig, .dma]) (ctxExported_only _ _ _ _)
    | with_reducible apply Only.via (Q := []) (done_only _)
    | with_reducible apply Only.onlyIf
    | with_reducible apply Only.via (Q := [.vault, .slots]) (vaultDrawn_only _ _ _)
    | with_reducible apply Only.whenUp
    | with_reducible apply Only.via (Q := [.ent]) (Only.modEnt _ _)

theorem execSecurityCoreReset_only (s : State) : ∃ t, execSecurityCoreReset s = .next t ∧ Only [.freeCtr, .guards, .dies, .head, .ks, .vault, .slots, .pk, .dig, .ent, .ingest, .mower, .att, .tenantBox, .operBox, .boot, .fuse, .array, .brup, .fq, .mir, .dma, .ports] s t := by
  refine ⟨_, rfl, ?_⟩
  try dsimp only
  repeat' first
    | with_reducible exact Only.refl _ _
    | with_reducible assumption
    | exact (rfl : (_ : Bool) = true)
    | exact fun _ => rfl
    | intro _
    | split
    | with_reducible apply Only.via (Q := [.freeCtr, .guards, .dies, .head, .ks, .vault, .slots, .pk, .dig, .ent, .ingest, .mower, .att, .tenantBox, .operBox, .boot, .fuse, .array, .brup, .fq, .mir, .dma, .ports]) (coreReset_only _)
    | with_reducible apply Only.via (Q := []) (done_only _)
    | with_reducible apply Only.whenUp

theorem execDelayedCoreReset_only (s : State) : ∃ t, execDelayedCoreReset s = .next t ∧ Only [.timer, .freeCtr, .guards, .dies, .head, .ks, .vault, .slots, .pk, .dig, .ent, .ingest, .mower, .att, .tenantBox, .operBox, .boot, .fuse, .array, .brup, .fq, .mir, .dma, .ports] s t := by
  refine ⟨_, rfl, ?_⟩
  try dsimp only
  repeat' first
    | with_reducible exact Only.refl _ _
    | with_reducible assumption
    | exact (rfl : (_ : Bool) = true)
    | exact fun _ => rfl
    | intro _
    | split
    | with_reducible apply Only.via (Q := [.freeCtr, .guards, .dies, .head, .ks, .vault, .slots, .pk, .dig, .ent, .ingest, .mower, .att, .tenantBox, .operBox, .boot, .fuse, .array, .brup, .fq, .mir, .dma, .ports]) (coreReset_only _)
    | with_reducible apply Only.via (Q := []) (done_only _)
    | with_reducible apply Only.via (Q := [.timer]) (reachTime_only _ _)
    | with_reducible apply Only.whenUp

theorem execTamperAssertion_only (die : Fin 4) (held : Bool) (s : State) : ∃ t, execTamperAssertion die held s = .next t ∧ Only [.freeCtr, .guards, .dies, .head, .ks, .vault, .slots, .tamper, .pk, .dig, .ent, .ingest, .mower, .att, .tenantBox, .operBox, .boot, .fuse, .array, .mir, .sby, .dma, .ports] s t := by
  refine ⟨_, rfl, Only.whenUp (Only.refl _ _) fun u hu => ?_⟩
  split
  · exact hu
  split
  · exact Only.onlyIf hu fun v hv => Only.via (Only.modTamper _ _ fun h => h) rfl hv
  · refine Only.onlyIf (Only.via (Only.modTamper _ _ fun h => ?_) rfl hu) fun v hv => Only.via (tamperSequence_only _) rfl hv
    split
    · exact h
    · exact h

theorem execTamperZeroizeDone_only (failed : Bool) (s : State) : ∃ t, execTamperZeroizeDone failed s = .next t ∧ Only [.tamper, .brup] s t := by
  refine ⟨_, rfl, Only.whenUp (Only.refl _ _) fun u hu => ?_⟩
  split
  · exact hu
  rename_i hl
  split
  · exact Only.via (Only.modTamper _ _ fun h => h) (by decide) hu
  · refine Only.via (Only.modBrup _ _) (by decide) (Only.via (Only.modTamper _ _ fun h => ?_) (by decide) hu)
    have : u.tamper.latch = true := by
      cases hh : u.tamper.latch
      · exact absurd (.inl (by simp [hh])) hl
      · rfl
    unfold Tamper.coherent
    simp [this]

theorem execColdReset_only (s : State) : ∃ t, execColdReset s = .next t ∧ Only [.timer, .freeCtr, .guards, .dies, .head, .ks, .vault, .slots, .tamper, .pk, .dig, .ent, .ingest, .mower, .att, .tenantBox, .operBox, .boot, .fuse, .array, .brup, .fq, .mir, .sby, .dma, .ports, .tagWindow] s t := by
  refine ⟨_, rfl, ?_⟩
  exact Only.trans (Only.via (interruptFuse_only s) (by decide) (Only.refl _ _))
    ⟨fun p hp => by cases p <;> first | rfl | exact absurd (by decide) hp, Lasting.of rfl fun h => ⟨h.flash, rfl, rfl, rfl⟩⟩

theorem execColdResetRelease_only (s : State) : ∃ t, execColdResetRelease s = .next t ∧ Only [.timer, .dies, .head, .pk, .boot, .sby, .ports] s t := by
  refine ⟨_, rfl, ?_⟩
  split
  · exact Only.refl _ _
  · exact ⟨fun p hp => by cases p <;> first | rfl | exact absurd (by decide) hp, Lasting.same rfl rfl rfl rfl rfl⟩

theorem execGuardPowerFall_only (die : Fin 4) (s : State) : ∃ t, execGuardPowerFall die s = .next t ∧ Only [.guards, .dies, .head, .ks, .vault, .mower, .att, .tenantBox, .operBox, .fq, .mir, .ports] s t := by
  refine ⟨_, rfl, ?_⟩
  try dsimp only
  repeat' first
    | with_reducible exact Only.refl _ _
    | with_reducible assumption
    | exact (rfl : (_ : Bool) = true)
    | exact fun _ => rfl
    | intro _
    | split
    | with_reducible apply Only.via (Q := []) (done_only _)
    | with_reducible apply Only.via (Q := [.ports]) (dropLatches_only _ _ _)
    | with_reducible apply Only.via (Q := [.dies]) (dropWaits_only _ _)
    | with_reducible apply Only.via (Q := [.guards, .dies, .ks, .mower]) (fenceAll_only _ _ _)
    | with_reducible apply Only.forEach
    | with_reducible apply Only.onlyIf
    | with_reducible apply Only.via (Q := [.dies, .head, .ks, .vault, .mower, .att, .tenantBox, .operBox, .fq, .mir]) (settle_only _)
    | with_reducible apply Only.whenUp
    | with_reducible apply Only.via (Q := [.dies]) (Only.modDie _ _ _)
    | with_reducible apply Only.via (Q := [.guards]) (Only.modGuards _ _)

theorem execGuardPowerGood_only (die : Fin 4) (s : State) : ∃ t, execGuardPowerGood die s = .next t ∧ Only [.guards, .dies] s t := by
  refine ⟨_, rfl, ?_⟩
  try dsimp only
  repeat' first
    | with_reducible exact Only.refl _ _
    | with_reducible assumption
    | exact (rfl : (_ : Bool) = true)
    | exact fun _ => rfl
    | intro _
    | split
    | with_reducible apply Only.via (Q := []) (done_only _)
    | with_reducible apply Only.onlyIf
    | with_reducible apply Only.whenUp
    | with_reducible apply Only.via (Q := [.dies]) (Only.modDie _ _ _)
    | with_reducible apply Only.via (Q := [.guards]) (Only.modGuards _ _)

theorem execCorePowerFall_only (die : Fin 4) (s : State) : ∃ t, execCorePowerFall die s = .next t ∧ Only [.freeCtr, .guards, .dies, .head, .ks, .vault, .slots, .pk, .dig, .ent, .ingest, .mower, .att, .tenantBox, .operBox, .boot, .fuse, .array, .brup, .fq, .mir, .sby, .dma, .ports] s t := by
  refine ⟨_, rfl, ?_⟩
  try dsimp only
  repeat' first
    | with_reducible exact Only.refl _ _
    | with_reducible assumption
    | exact (rfl : (_ : Bool) = true)
    | exact fun _ => rfl
    | intro _
    | split
    | with_reducible apply Only.via (Q := []) (done_only _)
    | with_reducible apply Only.via (Q := [.freeCtr, .dies, .head, .ks, .vault, .ingest, .mower, .att, .tenantBox, .operBox, .fuse, .array, .fq, .mir, .dma, .ports]) (endWork_only _)
    | with_reducible apply Only.via (Q := [.guards, .dies, .ks, .mower]) (fenceAll_only _ _ _)
    | with_reducible apply Only.via (Q := [.guards, .dies, .head, .vault, .slots, .pk, .dig, .ent, .ingest, .mower, .att, .tenantBox, .operBox, .boot, .fuse, .brup, .fq, .mir, .ports]) (freshCore_only _)
    | with_reducible apply Only.onlyIf
    | with_reducible apply Only.via (Q := [.dies, .head, .ks, .vault, .mower, .att, .tenantBox, .operBox, .fq, .mir]) (settle_only _)
    | with_reducible apply Only.whenUp
    | with_reducible apply Only.via (Q := [.boot]) (Only.modBoot _ _)
    | with_reducible apply Only.via (Q := [.dies]) (Only.modDie _ _ _)
    | with_reducible apply Only.via (Q := [.ports]) (Only.modPorts _ _)
    | with_reducible apply Only.via (Q := [.sby]) (Only.modSby _ _)

theorem execPowerLimit_only (stage : BitVec 2) (s : State) : ∃ t, execPowerLimit stage s = .next t ∧ Only [.freeCtr, .guards] s t := by
  refine ⟨_, rfl, ?_⟩
  try dsimp only
  repeat' first
    | with_reducible exact Only.refl _ _
    | with_reducible assumption
    | exact (rfl : (_ : Bool) = true)
    | exact fun _ => rfl
    | intro _
    | split
    | with_reducible apply Only.via (Q := [.freeCtr]) (state_used_only _)
    | with_reducible apply Only.via (Q := []) (done_only _)
    | with_reducible apply Only.whenUp
    | with_reducible apply Only.via (Q := [.guards]) (Only.modGuards _ _)

theorem execFuseSensingDone_only (read : List (Nat × BitVec 72 × BitVec 72)) (s : State) : ∃ t, execFuseSensingDone read s = .next t ∧ Only [.guards, .dies, .pk, .dig, .fuse, .brup, .fq] s t := by
  refine ⟨_, rfl, ?_⟩
  try dsimp only
  repeat' first
    | with_reducible exact Only.refl _ _
    | with_reducible assumption
    | exact (rfl : (_ : Bool) = true)
    | exact fun _ => rfl
    | intro _
    | split
    | with_reducible apply Only.via (Q := [.pk, .dig, .brup, .fq]) (applyRecord_only _)
    | with_reducible apply Only.via (Q := []) (done_only _)
    | with_reducible apply Only.via (Q := [.guards, .dies]) (laneStart_only _)
    | with_reducible apply Only.onlyIf
    | with_reducible apply Only.whenUp
    | with_reducible apply Only.viaFuse
    | (intro v; dsimp only; split <;> rfl)

theorem execFuseResense_only (read : List (Nat × BitVec 72 × BitVec 72)) (s : State) : ∃ t, execFuseResense read s = .next t ∧ Only [.fuse, .fq] s t := by
  refine ⟨_, rfl, ?_⟩
  try dsimp only
  repeat' first
    | with_reducible exact Only.refl _ _
    | with_reducible assumption
    | exact (rfl : (_ : Bool) = true)
    | exact fun _ => rfl
    | intro _
    | split
    | with_reducible apply Only.via (Q := []) (done_only _)
    | with_reducible apply Only.forEach
    | with_reducible apply Only.onlyIf
    | with_reducible apply Only.via (Q := [.fuse]) (regrade_only _ _)
    | with_reducible apply Only.via (Q := [.fuse, .fq]) (resenseWord_only _ _ _)
    | with_reducible apply Only.whenUp

theorem execFuseProgram_only (p : Path) (value : BitVec 32) (s : State) : ∃ t, execFuseProgram p value s = .next t ∧ Only [.fuse, .ports] s t := by
  refine ⟨_, rfl, ?_⟩
  try dsimp only
  repeat' first
    | with_reducible exact Only.refl _ _
    | with_reducible assumption
    | exact (rfl : (_ : Bool) = true)
    | exact fun _ => rfl
    | intro _
    | split
    | with_reducible apply Only.via (Q := []) (done_only _)
    | with_reducible apply Only.via (Q := [.fuse, .ports]) (fuseRow_only _ _ _ _)

theorem execFuseSeal_only (p : Path) (value : BitVec 32) (s : State) : ∃ t, execFuseSeal p value s = .next t ∧ Only [.fuse, .ports] s t := by
  refine ⟨_, rfl, ?_⟩
  try dsimp only
  repeat' first
    | with_reducible exact Only.refl _ _
    | with_reducible assumption
    | exact (rfl : (_ : Bool) = true)
    | exact fun _ => rfl
    | intro _
    | split
    | with_reducible apply Only.via (Q := []) (done_only _)
    | with_reducible apply Only.via (Q := [.fuse, .ports]) (fuseRow_only _ _ _ _)

theorem execLockWrite_only (p : Path) (value : BitVec 32) (s : State) : ∃ t, execLockWrite p value s = .next t ∧ Only [.fuse, .ports] s t := by
  refine ⟨_, rfl, ?_⟩
  try dsimp only
  repeat' first
    | with_reducible exact Only.refl _ _
    | with_reducible assumption
    | exact (rfl : (_ : Bool) = true)
    | exact fun _ => rfl
    | intro _
    | split
    | with_reducible apply Only.via (Q := []) (done_only _)
    | with_reducible apply Only.via (Q := [.fuse, .ports]) (fuseRow_only _ _ _ _)

theorem execLockRead_only (p : Path) (value : BitVec 32) (s : State) : ∃ t, execLockRead p value s = .next t ∧ Only [.fuse, .ports] s t := by
  refine ⟨_, rfl, ?_⟩
  try dsimp only
  repeat' first
    | with_reducible exact Only.refl _ _
    | with_reducible assumption
    | exact (rfl : (_ : Bool) = true)
    | exact fun _ => rfl
    | intro _
    | split
    | with_reducible apply Only.via (Q := []) (done_only _)
    | with_reducible apply Only.via (Q := [.fuse, .ports]) (fuseRow_only _ _ _ _)

theorem execRevoke_only (p : Path) (value : BitVec 32) (s : State) : ∃ t, execRevoke p value s = .next t ∧ Only [.fuse, .ports] s t := by
  refine ⟨_, rfl, ?_⟩
  try dsimp only
  repeat' first
    | with_reducible exact Only.refl _ _
    | with_reducible assumption
    | exact (rfl : (_ : Bool) = true)
    | exact fun _ => rfl
    | intro _
    | split
    | with_reducible apply Only.via (Q := []) (done_only _)
    | with_reducible apply Only.via (Q := [.fuse, .ports]) (fuseRow_only _ _ _ _)

theorem execFuseOperationEnd_only (failed : List (Nat × Nat)) (s : State) : ∃ t, execFuseOperationEnd failed s = .next t ∧ Only [.freeCtr, .fuse, .array] s t := by
  refine ⟨_, rfl, ?_⟩
  try dsimp only
  repeat' first
    | with_reducible exact Only.refl _ _
    | with_reducible assumption
    | exact (rfl : (_ : Bool) = true)
    | exact fun _ => rfl
    | intro _
    | split
    | with_reducible apply Only.via (Q := [.freeCtr, .fuse, .array]) (burnWord_only _ _ _ _)
    | with_reducible apply Only.via (Q := []) (done_only _)
    | with_reducible apply Only.whenUp
    | with_reducible apply Only.viaFuse
    | (intro v; dsimp only; split <;> rfl)

theorem execLcToProvision_only (p : Path) (value : BitVec 32) (s : State) : ∃ t, execLcToProvision p value s = .next t ∧ Only [.fuse, .ports] s t := by
  refine ⟨_, rfl, ?_⟩
  try dsimp only
  repeat' first
    | with_reducible exact Only.refl _ _
    | with_reducible assumption
    | exact (rfl : (_ : Bool) = true)
    | exact fun _ => rfl
    | intro _
    | split
    | with_reducible apply Only.via (Q := []) (done_only _)
    | with_reducible apply Only.via (Q := [.fuse, .ports]) (lcRow_only _ _ _ _)

theorem execLcToMission_only (p : Path) (value : BitVec 32) (s : State) : ∃ t, execLcToMission p value s = .next t ∧ Only [.fuse, .ports] s t := by
  refine ⟨_, rfl, ?_⟩
  try dsimp only
  repeat' first
    | with_reducible exact Only.refl _ _
    | with_reducible assumption
    | exact (rfl : (_ : Bool) = true)
    | exact fun _ => rfl
    | intro _
    | split
    | with_reducible apply Only.via (Q := []) (done_only _)
    | with_reducible apply Only.via (Q := [.fuse, .ports]) (lcRow_only _ _ _ _)

theorem execLcToDecommissioned_only (p : Path) (value : BitVec 32) (s : State) : ∃ t, execLcToDecommissioned p value s = .next t ∧ Only [.fuse, .ports] s t := by
  refine ⟨_, rfl, ?_⟩
  try dsimp only
  repeat' first
    | with_reducible exact Only.refl _ _
    | with_reducible assumption
    | exact (rfl : (_ : Bool) = true)
    | exact fun _ => rfl
    | intro _
    | split
    | with_reducible apply Only.via (Q := []) (done_only _)
    | with_reducible apply Only.via (Q := [.fuse, .ports]) (lcRow_only _ _ _ _)

theorem execLcTransitionEffect_only (s : State) : ∃ t, execLcTransitionEffect s = .next t ∧ Only [.freeCtr, .guards, .dies, .head, .ks, .vault, .slots, .tamper, .pk, .dig, .ent, .ingest, .mower, .att, .tenantBox, .operBox, .boot, .fuse, .array, .mir, .sby, .dma, .ports] s t := by
  refine ⟨_, rfl, ?_⟩
  try dsimp only
  repeat' first
    | with_reducible exact Only.refl _ _
    | with_reducible assumption
    | exact (rfl : (_ : Bool) = true)
    | exact fun _ => rfl
    | intro _
    | split
    | with_reducible apply Only.via (Q := [.freeCtr, .fuse, .array]) (burnWord_only _ _ _ _)
    | with_reducible apply Only.via (Q := []) (done_only _)
    | with_reducible apply Only.forEach
    | with_reducible apply Only.via (Q := [.freeCtr, .boot, .mir]) (scheduleReset_only _)
    | with_reducible apply Only.via (Q := [.freeCtr, .guards, .dies, .head, .ks, .vault, .slots, .tamper, .pk, .dig, .ent, .ingest, .mower, .att, .tenantBox, .operBox, .boot, .fuse, .array, .mir, .sby, .dma, .ports]) (tamperSequence_only _)
    | with_reducible apply Only.whenUp
    | with_reducible apply Only.via (Q := [.ent]) (Only.modEnt _ _)
    | with_reducible apply Only.viaFuse
    | (intro v; dsimp only; split <;> rfl)

theorem execLcDebugArm_only (p : Path) (value : BitVec 32) (s : State) : ∃ t, execLcDebugArm p value s = .next t ∧ Only [.fuse, .ports] s t := by
  refine ⟨_, rfl, ?_⟩
  try dsimp only
  repeat' first
    | with_reducible exact Only.refl _ _
    | with_reducible assumption
    | exact (rfl : (_ : Bool) = true)
    | exact fun _ => rfl
    | intro _
    | split
    | with_reducible apply Only.via (Q := [.fuse]) (armWrite_only _ _)
    | with_reducible apply Only.via (Q := []) (done_only _)
    | with_reducible apply Only.fuseWrite
    | with_reducible apply Only.onlyIf

theorem execPackageVerified_only (s : State) : ∃ t, execPackageVerified s = .next t ∧ Only [.freeCtr, .guards, .dies, .head, .ks, .vault, .mower, .att, .tenantBox, .operBox, .brup, .fq, .mir, .dma] s t := by
  refine ⟨_, rfl, ?_⟩
  try dsimp only
  repeat' first
    | with_reducible exact Only.refl _ _
    | with_reducible assumption
    | exact (rfl : (_ : Bool) = true)
    | exact fun _ => rfl
    | intro _
    | split
    | with_reducible apply Only.via (Q := [.freeCtr, .guards, .dies, .head, .ks, .vault, .mower, .att, .tenantBox, .operBox, .brup, .fq, .mir, .dma]) (bringOn_only _)
    | with_reducible apply Only.via (Q := [.freeCtr, .dma]) (dmaEnd_only _ _)
    | with_reducible apply Only.via (Q := []) (done_only _)
    | with_reducible apply Only.via (Q := [.att]) (extendLog_only _ _ _)
    | with_reducible apply Only.via (Q := [.freeCtr, .guards, .dies, .head, .ks, .vault, .mower, .att, .tenantBox, .operBox, .brup, .fq, .mir, .dma]) (packageFailed_only _ _ _)
    | with_reducible apply Only.via (Q := [.brup]) (releaseLine_only _ _)
    | with_reducible apply Only.whenUp
    | with_reducible apply Only.via (Q := [.brup]) (Only.modBrup _ _)

theorem execPhaseAdvance_only (s : State) : ∃ t, execPhaseAdvance s = .next t ∧ Only [.freeCtr, .guards, .dies, .head, .ks, .vault, .mower, .att, .tenantBox, .operBox, .brup, .fq, .mir, .dma] s t := by
  refine ⟨_, rfl, ?_⟩
  try dsimp only
  repeat' first
    | with_reducible exact Only.refl _ _
    | with_reducible assumption
    | exact (rfl : (_ : Bool) = true)
    | exact fun _ => rfl
    | intro _
    | split
    | with_reducible apply Only.via (Q := [.freeCtr, .guards, .dies, .head, .ks, .vault, .mower, .att, .tenantBox, .operBox, .brup, .fq, .mir, .dma]) (bringOn_only _)
    | with_reducible apply Only.via (Q := []) (done_only _)
    | with_reducible apply Only.onlyIf
    | with_reducible apply Only.via (Q := [.brup]) (reserve_only _)
    | with_reducible apply Only.whenUp
    | with_reducible apply Only.via (Q := [.brup]) (Only.modBrup _ _)

theorem execRelUp_only (line : Fin 64) (s : State) : ∃ t, execRelUp line s = .next t ∧ Only [.freeCtr, .guards, .dies, .head, .ks, .vault, .ent, .mower, .att, .tenantBox, .operBox, .brup, .fq, .mir, .dma] s t := by
  refine ⟨_, rfl, ?_⟩
  try dsimp only
  repeat' first
    | with_reducible exact Only.refl _ _
    | with_reducible assumption
    | exact (rfl : (_ : Bool) = true)
    | exact fun _ => rfl
    | intro _
    | split
    | with_reducible apply Only.via (Q := [.freeCtr, .guards, .dies, .head, .ks, .vault, .mower, .att, .tenantBox, .operBox, .brup, .fq, .mir, .dma]) (bringOn_only _)
    | with_reducible apply Only.via (Q := []) (done_only _)
    | with_reducible apply Only.forEach
    | with_reducible apply Only.via (Q := [.brup]) (modLine_only _ _ _)
    | with_reducible apply Only.via (Q := [.brup]) (reserve_only _)
    | with_reducible apply Only.via (Q := [.guards, .dies, .head, .ent]) (startSeal_only _ _)
    | with_reducible apply Only.whenUp

theorem execRelUpFall_only (line : Fin 64) (s : State) : ∃ t, execRelUpFall line s = .next t ∧ Only [.freeCtr, .guards, .dies, .head, .ks, .vault, .mower, .att, .tenantBox, .operBox, .brup, .fq, .mir, .dma] s t := by
  refine ⟨_, rfl, ?_⟩
  try dsimp only
  repeat' first
    | with_reducible exact Only.refl _ _
    | with_reducible assumption
    | exact (rfl : (_ : Bool) = true)
    | exact fun _ => rfl
    | intro _
    | split
    | with_reducible apply Only.via (Q := [.freeCtr, .guards, .dies, .head, .ks, .vault, .mower, .att, .tenantBox, .operBox, .brup, .fq, .mir, .dma]) (bringOn_only _)
    | with_reducible apply Only.via (Q := []) (done_only _)
    | with_reducible apply Only.via (Q := [.guards, .dies, .head, .ks, .vault, .mower, .att, .tenantBox, .operBox, .brup, .fq, .mir]) (failLine_only _ _ _)
    | with_reducible apply Only.via (Q := [.brup]) (modLine_only _ _ _)
    | with_reducible apply Only.whenUp

theorem execReleaseTimeout_only (line : Fin 64) (s : State) : ∃ t, execReleaseTimeout line s = .next t ∧ Only [.timer, .freeCtr, .guards, .dies, .head, .ks, .vault, .mower, .att, .tenantBox, .operBox, .brup, .fq, .mir, .dma] s t := by
  refine ⟨_, rfl, ?_⟩
  try dsimp only
  repeat' first
    | with_reducible exact Only.refl _ _
    | with_reducible assumption
    | exact (rfl : (_ : Bool) = true)
    | exact fun _ => rfl
    | intro _
    | split
    | with_reducible apply Only.via (Q := [.freeCtr, .guards, .dies, .head, .ks, .vault, .mower, .att, .tenantBox, .operBox, .brup, .fq, .mir, .dma]) (bringOn_only _)
    | with_reducible apply Only.via (Q := []) (done_only _)
    | with_reducible apply Only.via (Q := [.timer]) (reachTime_only _ _)
    | with_reducible apply Only.via (Q := [.guards, .dies, .head, .ks, .vault, .mower, .att, .tenantBox, .operBox, .brup, .fq, .mir]) (timeOutLine_only _ _ _)
    | with_reducible apply Only.whenUp

theorem execSealSweepEnd_only (g : Fin 40) (s : State) : ∃ t, execSealSweepEnd g s = .next t ∧ Only [.freeCtr, .guards, .dies, .head, .ent, .brup] s t := by
  refine ⟨_, rfl, ?_⟩
  try dsimp only
  repeat' first
    | with_reducible exact Only.refl _ _
    | with_reducible assumption
    | exact (rfl : (_ : Bool) = true)
    | exact fun _ => rfl
    | intro _
    | split
    | with_reducible apply Only.via (Q := []) (done_only _)
    | with_reducible apply Only.via (Q := [.freeCtr, .guards]) (driveBeat_only _ _ _ _ _ _)
    | with_reducible apply Only.via (Q := [.brup]) (reserve_only _)
    | with_reducible apply Only.via (Q := [.guards, .dies, .head, .ent]) (startSeal_only _ _)
    | with_reducible apply Only.whenUp
    | with_reducible apply Only.via (Q := [.guards]) (Only.modGuard _ _ _)

theorem execBankTestPass_only (g : Fin 40) (bank : Nat) (s : State) : ∃ t, execBankTestPass g bank s = .next t ∧ Only [.guards, .dies, .head, .ent] s t := by
  refine ⟨_, rfl, ?_⟩
  try dsimp only
  repeat' first
    | with_reducible exact Only.refl _ _
    | with_reducible assumption
    | exact (rfl : (_ : Bool) = true)
    | exact fun _ => rfl
    | intro _
    | split
    | with_reducible apply Only.via (Q := []) (done_only _)
    | with_reducible apply Only.via (Q := [.guards, .dies, .head, .ent]) (leaveReset_only _ _)
    | with_reducible apply Only.via (Q := [.guards]) (modBank_only _ _ _ _)
    | with_reducible apply Only.onlyIf
    | with_reducible apply Only.whenUp
    | with_reducible apply Only.via (Q := [.guards]) (Only.modGuard _ _ _)

theorem execUnitSelfTestPass_only (unit : Nat) (s : State) : ∃ t, execUnitSelfTestPass unit s = .next t ∧ Only [.dig, .ingest, .mower, .brup] s t := by
  refine ⟨_, rfl, ?_⟩
  try dsimp only
  repeat' first
    | with_reducible exact Only.refl _ _
    | with_reducible assumption
    | exact (rfl : (_ : Bool) = true)
    | exact fun _ => rfl
    | intro _
    | split
    | with_reducible apply Only.via (Q := []) (done_only _)
    | with_reducible apply Only.onlyIf
    | with_reducible apply Only.whenUp
    | with_reducible apply Only.via (Q := [.brup]) (Only.modBrup _ _)
    | with_reducible apply Only.via (Q := [.dig]) (Only.modDig _ _)
    | with_reducible apply Only.via (Q := [.ingest]) (Only.modIngest _ _)
    | with_reducible apply Only.via (Q := [.mower]) (Only.modMower _ _)

theorem execStartTimeFinding_only (kind : BitVec 4) (unit sub : BitVec 16) (s : State) : ∃ t, execStartTimeFinding kind unit sub s = .next t ∧ Only [.freeCtr, .guards, .dies, .head, .ks, .vault, .slots, .pk, .dig, .ent, .ingest, .mower, .att, .tenantBox, .operBox, .boot, .brup, .fq, .mir] s t := by
  refine ⟨_, rfl, ?_⟩
  try dsimp only
  repeat' first
    | with_reducible exact Only.refl _ _
    | with_reducible assumption
    | exact (rfl : (_ : Bool) = true)
    | exact fun _ => rfl
    | intro _
    | split
    | with_reducible apply Only.via (Q := []) (done_only _)
    | with_reducible apply Only.via (Q := [.freeCtr, .guards, .vault, .slots, .pk, .dig, .ent, .ingest, .mower, .att, .tenantBox, .operBox, .boot, .fq]) (exclude_only _ _)
    | with_reducible apply Only.via (Q := [.guards, .dies, .head, .ks, .vault, .mower, .att, .tenantBox, .operBox, .brup, .fq, .mir]) (lostIfDown_only _ _)
    | with_reducible apply Only.onlyIf
    | with_reducible apply Only.via (Q := [.brup]) (queueFinding_only _ _)
    | with_reducible apply Only.whenUp
    | with_reducible apply Only.via (Q := [.brup]) (Only.modBrup _ _)

theorem execPop_only (p : Path) (value : BitVec 32) (s : State) : ∃ t, execPop p value s = .next t ∧ Only [.brup, .fq, .ports] s t := by
  refine ⟨_, rfl, ?_⟩
  try dsimp only
  repeat' first
    | with_reducible exact Only.refl _ _
    | with_reducible assumption
    | exact (rfl : (_ : Bool) = true)
    | exact fun _ => rfl
    | intro _
    | split
    | with_reducible apply Only.via (Q := []) (done_only _)
    | with_reducible apply Only.via (Q := [.brup, .fq]) (newCtlWrite_only _ _)
    | with_reducible apply Only.onlyIf
    | with_reducible apply Only.writeAt

theorem execUnrecorded_only (p : Path) (value : BitVec 32) (s : State) : ∃ t, execUnrecorded p value s = .next t ∧ Only [.brup, .fq, .ports] s t := by
  refine ⟨_, rfl, ?_⟩
  try dsimp only
  repeat' first
    | with_reducible exact Only.refl _ _
    | with_reducible assumption
    | exact (rfl : (_ : Bool) = true)
    | exact fun _ => rfl
    | intro _
    | split
    | with_reducible apply Only.via (Q := []) (done_only _)
    | with_reducible apply Only.via (Q := [.brup, .fq]) (newCtlWrite_only _ _)
    | with_reducible apply Only.onlyIf
    | with_reducible apply Only.writeAt

theorem execFingerprintSampleInterval_only (s : State) : ∃ t, execFingerprintSampleInterval s = .next t ∧ Only [.dies, .head, .ks, .brup] s t := by
  refine ⟨_, rfl, ?_⟩
  try dsimp only
  repeat' first
    | with_reducible exact Only.refl _ _
    | with_reducible assumption
    | exact (rfl : (_ : Bool) = true)
    | exact fun _ => rfl
    | intro _
    | split
    | with_reducible apply Only.via (Q := []) (done_only _)
    | with_reducible apply Only.onlyIf
    | with_reducible apply Only.via (Q := [.dies, .head, .ks, .brup]) (requestSample_only _)
    | with_reducible apply Only.whenUp

theorem execFingerprintCompare_only (s : State) : ∃ t, execFingerprintCompare s = .next t ∧ Only [.guards, .dies, .head, .ks, .vault, .mower, .att, .tenantBox, .operBox, .brup, .fq, .mir] s t := by
  refine ⟨_, rfl, ?_⟩
  try dsimp only
  repeat' first
    | with_reducible exact Only.refl _ _
    | with_reducible assumption
    | exact (rfl : (_ : Bool) = true)
    | exact fun _ => rfl
    | intro _
    | split
    | with_reducible apply Only.via (Q := [.guards, .dies, .head, .ks, .vault, .mower, .att, .tenantBox, .operBox, .brup, .fq, .mir]) (compareFp_only _ _ _)
    | with_reducible apply Only.via (Q := []) (done_only _)
    | with_reducible apply Only.whenUp

theorem execFpNoLatch_only (s : State) : ∃ t, execFpNoLatch s = .next t ∧ Only [.timer, .guards, .dies, .head, .ks, .vault, .mower, .att, .tenantBox, .operBox, .brup, .fq, .mir] s t := by
  refine ⟨_, rfl, ?_⟩
  try dsimp only
  repeat' first
    | with_reducible exact Only.refl _ _
    | with_reducible assumption
    | exact (rfl : (_ : Bool) = true)
    | exact fun _ => rfl
    | intro _
    | split
    | with_reducible apply Only.via (Q := [.guards, .dies, .head, .ks, .vault, .mower, .att, .tenantBox, .operBox, .brup, .fq, .mir]) (compareFp_only _ _ _)
    | with_reducible apply Only.via (Q := []) (done_only _)
    | with_reducible apply Only.via (Q := [.timer]) (reachTime_only _ _)
    | with_reducible apply Only.whenUp

theorem execLinkReport_only (w0 w1 w2 w3 : BitVec 32) (s : State) : ∃ t, execLinkReport w0 w1 w2 w3 s = .next t ∧ Only [.brup] s t := by
  refine ⟨_, rfl, ?_⟩
  try dsimp only
  repeat' first
    | with_reducible exact Only.refl _ _
    | with_reducible assumption
    | exact (rfl : (_ : Bool) = true)
    | exact fun _ => rfl
    | intro _
    | split
    | with_reducible apply Only.via (Q := []) (done_only _)
    | with_reducible apply Only.onlyIf
    | with_reducible apply Only.via (Q := [.brup]) (unqualify_only _ _)
    | with_reducible apply Only.whenUp
    | with_reducible apply Only.via (Q := [.brup]) (Only.modBrup _ _)

theorem execBootValid_only (passing : BitVec 4) (s : State) : ∃ t, execBootValid passing s = .next t ∧ Only [.dies, .head, .boot, .sby] s t := by
  refine ⟨_, rfl, ?_⟩
  try dsimp only
  repeat' first
    | with_reducible exact Only.refl _ _
    | with_reducible assumption
    | exact (rfl : (_ : Bool) = true)
    | exact fun _ => rfl
    | intro _
    | split
    | with_reducible apply Only.via (Q := []) (done_only _)
    | with_reducible apply Only.onlyIf
    | with_reducible apply Only.via (Q := [.dies, .head, .sby]) (passed_only _ _ _ _)
    | with_reducible apply Only.whenUp
    | with_reducible apply Only.via (Q := [.boot]) (Only.modBoot _ _)

theorem execRomBoot_only (octal : Bool) (s : State) : ∃ t, execRomBoot octal s = .next t ∧ Only [.timer, .freeCtr, .vault, .slots, .att, .boot, .flash, .fuse, .ports] s t := by
  refine ⟨_, rfl, ?_⟩
  try dsimp only
  repeat' first
    | with_reducible exact Only.refl _ _
    | with_reducible assumption
    | exact (rfl : (_ : Bool) = true)
    | exact fun _ => rfl
    | intro _
    | split
    | with_reducible apply Only.via (Q := []) (done_only _)
    | with_reducible apply Only.onlyIf
    | with_reducible apply Only.via (Q := [.boot]) (openRecovery_only _ _)
    | with_reducible apply Only.via (Q := [.timer, .freeCtr, .vault, .slots, .att, .boot, .flash, .fuse, .ports]) (romFlow_only _ _)
    | with_reducible apply Only.whenUp
    | with_reducible apply Only.via (Q := [.att]) (Only.modAtt _ _)

theorem execFinalised_only (p : Path) (value : BitVec 32) (s : State) : ∃ t, execFinalised p value s = .next t ∧ Only [.freeCtr, .guards, .dies, .head, .ks, .vault, .slots, .pk, .dig, .ent, .ingest, .mower, .att, .tenantBox, .operBox, .boot, .flash, .fuse, .array, .brup, .fq, .mir, .dma, .ports] s t := by
  refine ⟨_, rfl, ?_⟩
  try dsimp only
  repeat' first
    | with_reducible exact Only.refl _ _
    | with_reducible assumption
    | exact (rfl : (_ : Bool) = true)
    | exact fun _ => rfl
    | intro _
    | split
    | with_reducible apply Only.via (Q := [.freeCtr, .guards, .dies, .head, .ks, .vault, .slots, .pk, .dig, .ent, .ingest, .mower, .att, .tenantBox, .operBox, .boot, .flash, .fuse, .array, .brup, .fq, .mir, .dma, .ports]) (bootCtlWrite_only _ _)
    | with_reducible apply Only.bootWrite
    | with_reducible apply Only.via (Q := []) (done_only _)
    | with_reducible apply Only.onlyIf

theorem execBootCtlCoreReset_only (p : Path) (value : BitVec 32) (s : State) : ∃ t, execBootCtlCoreReset p value s = .next t ∧ Only [.freeCtr, .guards, .dies, .head, .ks, .vault, .slots, .pk, .dig, .ent, .ingest, .mower, .att, .tenantBox, .operBox, .boot, .flash, .fuse, .array, .brup, .fq, .mir, .dma, .ports] s t := by
  refine ⟨_, rfl, ?_⟩
  try dsimp only
  repeat' first
    | with_reducible exact Only.refl _ _
    | with_reducible assumption
    | exact (rfl : (_ : Bool) = true)
    | exact fun _ => rfl
    | intro _
    | split
    | with_reducible apply Only.via (Q := [.freeCtr, .guards, .dies, .head, .ks, .vault, .slots, .pk, .dig, .ent, .ingest, .mower, .att, .tenantBox, .operBox, .boot, .flash, .fuse, .array, .brup, .fq, .mir, .dma, .ports]) (bootCtlWrite_only _ _)
    | with_reducible apply Only.bootWrite
    | with_reducible apply Only.via (Q := []) (done_only _)
    | with_reducible apply Only.onlyIf

theorem execCairnRaise_only (p : Path) (value : BitVec 32) (s : State) : ∃ t, execCairnRaise p value s = .next t ∧ Only [.boot, .flash, .fuse, .ports] s t := by
  refine ⟨_, rfl, ?_⟩
  try dsimp only
  repeat' first
    | with_reducible exact Only.refl _ _
    | with_reducible assumption
    | exact (rfl : (_ : Bool) = true)
    | exact fun _ => rfl
    | intro _
    | split
    | with_reducible apply Only.bootWrite
    | with_reducible apply Only.via (Q := [.boot, .flash, .fuse]) (cairnCmdWrite_only _ _)
    | with_reducible apply Only.via (Q := []) (done_only _)
    | with_reducible apply Only.onlyIf

theorem execCairnRaiseEnd_only (failed : List Nat) (s : State) : ∃ t, execCairnRaiseEnd failed s = .next t ∧ Only [.freeCtr, .boot, .fuse, .array, .fq] s t := by
  refine ⟨_, rfl, ?_⟩
  try dsimp only
  repeat' first
    | with_reducible exact Only.refl _ _
    | with_reducible assumption
    | exact (rfl : (_ : Bool) = true)
    | exact fun _ => rfl
    | intro _
    | split
    | with_reducible apply Only.via (Q := [.freeCtr, .fuse, .array]) (burnBit_only _ _ _)
    | with_reducible apply Only.via (Q := []) (done_only _)
    | with_reducible apply Only.forEach
    | with_reducible apply Only.via (Q := [.fq]) (raise_only _ _ _ _ _ _ _)
    | with_reducible apply Only.via (Q := [.fuse]) (senseOne_only _ _)
    | with_reducible apply Only.whenUp
    | with_reducible apply Only.via (Q := [.boot]) (Only.modBoot _ _)
    | with_reducible apply Only.viaFuse
    | (intro v; dsimp only; split <;> rfl)

theorem execImageAdopted_only (flashOk : Bool) (s : State) : ∃ t, execImageAdopted flashOk s = .next t ∧ Only [.freeCtr, .att, .tenantBox, .operBox, .boot, .flash, .mir, .dma] s t := by
  refine ⟨_, rfl, ?_⟩
  try dsimp only
  repeat' first
    | with_reducible exact Only.refl _ _
    | with_reducible assumption
    | exact (rfl : (_ : Bool) = true)
    | exact fun _ => rfl
    | intro _
    | split
    | with_reducible apply Only.via (Q := [.flash]) (commitAppend_only _ _ _ _)
    | with_reducible apply Only.via (Q := []) (done_only _)
    | with_reducible apply Only.via (Q := [.flash]) (programTags_only _ _ _)
    | with_reducible apply Only.via (Q := [.att, .tenantBox, .operBox]) (reply_only _ _ _)
    | with_reducible apply Only.via (Q := [.freeCtr, .boot, .mir]) (scheduleReset_only _)
    | with_reducible apply Only.via (Q := [.freeCtr, .att, .tenantBox, .operBox, .boot, .dma]) (updateRefused_only _ _)
    | with_reducible apply Only.whenUp
    | with_reducible apply Only.via (Q := [.boot]) (Only.modBoot _ _)

theorem execMirrorHello_only (s : State) : ∃ t, execMirrorHello s = .next t ∧ Only [.mir, .sby] s t := by
  refine ⟨_, rfl, ?_⟩
  try dsimp only
  repeat' first
    | with_reducible exact Only.refl _ _
    | with_reducible assumption
    | exact (rfl : (_ : Bool) = true)
    | exact fun _ => rfl
    | intro _
    | split
    | with_reducible apply Only.via (Q := []) (done_only _)
    | with_reducible apply Only.whenUp
    | with_reducible apply Only.via (Q := [.mir]) (Only.modMir _ _)
    | with_reducible apply Only.via (Q := [.sby]) (Only.modSby _ _)

theorem execMirrorHeartbeat_only (wire : Bytes) (s : State) : ∃ t, execMirrorHeartbeat wire s = .next t ∧ Only [.mir, .sby] s t := by
  refine ⟨_, rfl, ?_⟩
  try dsimp only
  repeat' first
    | with_reducible exact Only.refl _ _
    | with_reducible assumption
    | exact (rfl : (_ : Bool) = true)
    | exact fun _ => rfl
    | intro _
    | split
    | with_reducible apply Only.via (Q := []) (done_only _)
    | with_reducible apply Only.standbyFrame
    | with_reducible apply Only.whenUp
    | with_reducible apply Only.via (Q := [.sby]) (Only.modSby _ _)

theorem execStore_only (wire : Bytes) (s : State) : ∃ t, execStore wire s = .next t ∧ Only [.mir, .sby] s t := by
  refine ⟨_, rfl, ?_⟩
  try dsimp only
  repeat' first
    | with_reducible exact Only.refl _ _
    | with_reducible assumption
    | exact (rfl : (_ : Bool) = true)
    | exact fun _ => rfl
    | intro _
    | split
    | with_reducible apply Only.via (Q := []) (done_only _)
    | with_reducible apply Only.standbyFrame
    | with_reducible apply Only.whenUp
    | with_reducible apply Only.via (Q := [.sby]) (Only.modSby _ _)
    | dsimp only [id]

theorem execModelFrame_only (wire : Bytes) (s : State) : ∃ t, execModelFrame wire s = .next t ∧ Only [.mir, .sby] s t := by
  refine ⟨_, rfl, ?_⟩
  try dsimp only
  repeat' first
    | with_reducible exact Only.refl _ _
    | with_reducible assumption
    | exact (rfl : (_ : Bool) = true)
    | exact fun _ => rfl
    | intro _
    | split
    | with_reducible apply Only.via (Q := []) (done_only _)
    | with_reducible apply Only.standbyFrame
    | with_reducible apply Only.whenUp
    | with_reducible apply Only.via (Q := [.sby]) (Only.modSby _ _)

theorem execReaders_only (wire : Bytes) (s : State) : ∃ t, execReaders wire s = .next t ∧ Only [.mir, .sby] s t := by
  refine ⟨_, rfl, ?_⟩
  try dsimp only
  repeat' first
    | with_reducible exact Only.refl _ _
    | with_reducible assumption
    | with_reducible apply Only.foldl
    | with_reducible apply Only.foldlPair
    | exact (rfl : (_ : Bool) = true)
    | exact fun _ => rfl
    | intro _
    | split
    | with_reducible apply Only.via (Q := []) (done_only _)
    | with_reducible apply Only.standbyFrame
    | with_reducible apply Only.whenUp
    | with_reducible apply Only.via (Q := [.sby]) (Only.modSby _ _)
    | dsimp only

theorem execCounters_only (wire : Bytes) (s : State) : ∃ t, execCounters wire s = .next t ∧ Only [.mir, .sby] s t := by
  refine ⟨_, rfl, ?_⟩
  try dsimp only
  repeat' first
    | with_reducible exact Only.refl _ _
    | with_reducible assumption
    | exact (rfl : (_ : Bool) = true)
    | exact fun _ => rfl
    | intro _
    | split
    | with_reducible apply Only.via (Q := []) (done_only _)
    | with_reducible apply Only.standbyFrame
    | with_reducible apply Only.whenUp
    | with_reducible apply Only.via (Q := [.sby]) (Only.modSby _ _)

theorem execImage_only (wire : Bytes) (s : State) : ∃ t, execImage wire s = .next t ∧ Only [.mir, .sby] s t := by
  refine ⟨_, rfl, ?_⟩
  try dsimp only
  repeat' first
    | with_reducible exact Only.refl _ _
    | with_reducible assumption
    | exact (rfl : (_ : Bool) = true)
    | exact fun _ => rfl
    | intro _
    | split
    | with_reducible apply Only.via (Q := []) (done_only _)
    | with_reducible apply Only.standbyFrame
    | with_reducible apply Only.whenUp
    | with_reducible apply Only.via (Q := [.sby]) (Only.modSby _ _)

theorem execHold_only (wire : Bytes) (s : State) : ∃ t, execHold wire s = .next t ∧ Only [.mir, .sby] s t := by
  refine ⟨_, rfl, ?_⟩
  try dsimp only
  repeat' first
    | with_reducible exact Only.refl _ _
    | with_reducible assumption
    | exact (rfl : (_ : Bool) = true)
    | exact fun _ => rfl
    | intro _
    | split
    | with_reducible apply Only.via (Q := []) (done_only _)
    | with_reducible apply Only.standbyFrame
    | with_reducible apply Only.whenUp
    | with_reducible apply Only.via (Q := [.sby]) (Only.modSby _ _)

theorem execHoldExpiry_only (s : State) : ∃ t, execHoldExpiry s = .next t ∧ Only [.timer, .mir, .sby] s t := by
  refine ⟨_, rfl, ?_⟩
  try dsimp only
  repeat' first
    | with_reducible exact Only.refl _ _
    | with_reducible assumption
    | exact (rfl : (_ : Bool) = true)
    | exact fun _ => rfl
    | intro _
    | split
    | with_reducible apply Only.via (Q := []) (done_only _)
    | with_reducible apply Only.via (Q := [.timer]) (reachTime_only _ _)
    | with_reducible apply Only.whenUp
    | with_reducible apply Only.via (Q := [.mir]) (Only.modMir _ _)
    | with_reducible apply Only.via (Q := [.sby]) (Only.modSby _ _)

theorem execHeartbeatInterval_only (s : State) : ∃ t, execHeartbeatInterval s = .next t ∧ Only [.timer, .mir] s t := by
  refine ⟨_, rfl, ?_⟩
  try dsimp only
  repeat' first
    | with_reducible exact Only.refl _ _
    | with_reducible assumption
    | exact (rfl : (_ : Bool) = true)
    | exact fun _ => rfl
    | intro _
    | split
    | with_reducible apply Only.via (Q := []) (done_only _)
    | with_reducible apply Only.onlyIf
    | with_reducible apply Only.via (Q := [.timer]) (reachTime_only _ _)
    | with_reducible apply Only.whenUp
    | with_reducible apply Only.via (Q := [.mir]) (Only.modMir _ _)

theorem execStatus_only (wire : Bytes) (s : State) : ∃ t, execStatus wire s = .next t ∧ Only [.freeCtr, .dies, .head, .ks, .vault, .ent, .mower, .att, .tenantBox, .operBox, .fq, .mir, .sby] s t := by
  refine ⟨_, rfl, ?_⟩
  try dsimp only
  repeat' first
    | with_reducible exact Only.refl _ _
    | with_reducible assumption
    | exact fun h => h
    | exact push_fits _ _
    | exact (rfl : (_ : Bool) = true)
    | exact fun _ => rfl
    | intro _
    | split
    | with_reducible apply Only.via (Q := [.freeCtr, .dies, .head, .ks, .vault, .ent, .mower, .att, .tenantBox, .operBox, .fq, .mir, .sby]) (beginSession_only _)
    | with_reducible apply Only.via (Q := []) (done_only _)
    | with_reducible apply Only.forEach
    | with_reducible apply Only.via (Q := [.fq, .mir]) (mirrorAuth_only _ _)
    | with_reducible apply Only.onlyIf
    | with_reducible apply Only.via (Q := [.dies, .head, .ks]) (startSync_only _ _)
    | with_reducible apply Only.whenUp
    | with_reducible refine Only.via (Q := [.fq]) (Only.modFq _ _ ?_) ?_ ?_
    | with_reducible apply Only.via (Q := [.mir]) (Only.modMir _ _)
    | with_reducible apply Only.via (Q := [.sby]) (Only.modSby _ _)

theorem execMirrorAck_only (wire : Bytes) (s : State) : ∃ t, execMirrorAck wire s = .next t ∧ Only [.dies, .head, .ks, .vault, .mower, .att, .tenantBox, .operBox, .fq, .mir, .sby] s t := by
  refine ⟨_, rfl, ?_⟩
  try dsimp only
  repeat' first
    | with_reducible exact Only.refl _ _
    | with_reducible assumption
    | exact (rfl : (_ : Bool) = true)
    | exact fun _ => rfl
    | intro _
    | split
    | with_reducible apply Only.via (Q := []) (done_only _)
    | with_reducible apply Only.forEach
    | with_reducible apply Only.via (Q := [.mir]) (mirPump_only _)
    | with_reducible apply Only.via (Q := [.fq, .mir]) (mirrorAuth_only _ _)
    | with_reducible apply Only.onlyIf
    | with_reducible apply Only.via (Q := [.dies, .head, .ks, .att, .tenantBox, .operBox]) (releaseFrame_only _ _)
    | with_reducible apply Only.via (Q := [.dies, .head, .ks, .vault, .mower, .att, .tenantBox, .operBox, .fq, .mir]) (settle_only _)
    | with_reducible apply Only.whenUp
    | with_reducible apply Only.via (Q := [.mir]) (Only.modMir _ _)
    | with_reducible apply Only.via (Q := [.sby]) (Only.modSby _ _)

theorem execMirrorAckTimeout_only (s : State) : ∃ t, execMirrorAckTimeout s = .next t ∧ Only [.timer, .dies, .head, .ks, .vault, .mower, .att, .tenantBox, .operBox, .fq, .mir] s t := by
  refine ⟨_, rfl, ?_⟩
  try dsimp only
  repeat' first
    | with_reducible exact Only.refl _ _
    | with_reducible assumption
    | exact (rfl : (_ : Bool) = true)
    | exact fun _ => rfl
    | intro _
    | split
    | with_reducible apply Only.via (Q := []) (done_only _)
    | with_reducible apply Only.via (Q := [.dies, .head, .ks, .vault, .mower, .att, .tenantBox, .operBox, .fq, .mir]) (loseStandby_only _ _)
    | with_reducible apply Only.via (Q := [.timer]) (reachTime_only _ _)
    | with_reducible apply Only.whenUp
    | with_reducible apply Only.via (Q := [.mir]) (Only.modMir _ _)

theorem execStandbyLost_only (s : State) : ∃ t, execStandbyLost s = .next t ∧ Only [.timer, .dies, .head, .ks, .vault, .mower, .att, .tenantBox, .operBox, .fq, .mir] s t := by
  refine ⟨_, rfl, ?_⟩
  try dsimp only
  repeat' first
    | with_reducible exact Only.refl _ _
    | with_reducible assumption
    | exact (rfl : (_ : Bool) = true)
    | exact fun _ => rfl
    | intro _
    | split
    | with_reducible apply Only.via (Q := []) (done_only _)
    | with_reducible apply Only.via (Q := [.dies, .head, .ks, .vault, .mower, .att, .tenantBox, .operBox, .fq, .mir]) (loseStandby_only _ _)
    | with_reducible apply Only.onlyIf
    | with_reducible apply Only.via (Q := [.timer]) (reachTime_only _ _)
    | with_reducible apply Only.whenUp

theorem execMirrorResync_only (s : State) : ∃ t, execMirrorResync s = .next t ∧ Only [.timer, .freeCtr, .dies, .head, .ks, .vault, .ent, .mower, .att, .tenantBox, .operBox, .fq, .mir, .sby] s t := by
  refine ⟨_, rfl, ?_⟩
  try dsimp only
  repeat' first
    | with_reducible exact Only.refl _ _
    | with_reducible assumption
    | exact (rfl : (_ : Bool) = true)
    | exact fun _ => rfl
    | intro _
    | split
    | with_reducible apply Only.via (Q := [.freeCtr, .dies, .head, .ks, .vault, .ent, .mower, .att, .tenantBox, .operBox, .fq, .mir, .sby]) (beginSession_only _)
    | with_reducible apply Only.via (Q := []) (done_only _)
    | with_reducible apply Only.onlyIf
    | with_reducible apply Only.via (Q := [.fq]) (raise_only _ _ _ _ _ _ _)
    | with_reducible apply Only.via (Q := [.timer]) (reachTime_only _ _)
    | with_reducible apply Only.whenUp
    | with_reducible apply Only.via (Q := [.mir]) (Only.modMir _ _)

theorem execFqPop_only (p : Path) (value : BitVec 32) (s : State) : ∃ t, execFqPop p value s = .next t ∧ Only [.fq, .ports] s t := by
  refine ⟨_, rfl, ?_⟩
  try dsimp only
  repeat' first
    | with_reducible exact Only.refl _ _
    | with_reducible assumption
    | exact (rfl : (_ : Bool) = true)
    | exact fun _ => rfl
    | intro _
    | split
    | with_reducible apply Only.via (Q := []) (done_only _)
    | with_reducible apply Only.via (Q := [.fq]) (fqCtlWrite_only _ _)
    | with_reducible apply Only.onlyIf
    | with_reducible apply Only.writeAt

theorem execClearOvf_only (p : Path) (value : BitVec 32) (s : State) : ∃ t, execClearOvf p value s = .next t ∧ Only [.fq, .ports] s t := by
  refine ⟨_, rfl, ?_⟩
  try dsimp only
  repeat' first
    | with_reducible exact Only.refl _ _
    | with_reducible assumption
    | exact (rfl : (_ : Bool) = true)
    | exact fun _ => rfl
    | intro _
    | split
    | with_reducible apply Only.via (Q := []) (done_only _)
    | with_reducible apply Only.via (Q := [.fq]) (fqCtlWrite_only _ _)
    | with_reducible apply Only.onlyIf
    | with_reducible apply Only.writeAt

theorem execLockstep_only (standby : Bool) (c : Fin 4) (s : State) : ∃ t, execLockstep standby c s = .next t ∧ Only [.freeCtr, .guards, .dies, .head, .ks, .vault, .slots, .pk, .dig, .ent, .ingest, .mower, .att, .tenantBox, .operBox, .boot, .fuse, .array, .brup, .fq, .mir, .sby, .dma, .ports] s t := by
  refine ⟨_, rfl, ?_⟩
  try dsimp only
  repeat' first
    | with_reducible exact Only.refl _ _
    | with_reducible assumption
    | exact (rfl : (_ : Bool) = true)
    | exact fun _ => rfl
    | intro _
    | split
    | with_reducible apply Only.via (Q := [.freeCtr, .guards, .dies, .head, .ks, .vault, .slots, .pk, .dig, .ent, .ingest, .mower, .att, .tenantBox, .operBox, .boot, .fuse, .array, .brup, .fq, .mir, .dma, .ports]) (coreFails_only _ _ _)
    | with_reducible apply Only.via (Q := []) (done_only _)
    | with_reducible apply Only.onlyIf
    | with_reducible apply Only.via (Q := [.sby]) (standbyCoreFails_only _ _ _)
    | with_reducible apply Only.whenUp

theorem execWatchdog_only (standby : Bool) (c : Fin 4) (s : State) : ∃ t, execWatchdog standby c s = .next t ∧ Only [.timer, .freeCtr, .guards, .dies, .head, .ks, .vault, .slots, .pk, .dig, .ent, .ingest, .mower, .att, .tenantBox, .operBox, .boot, .fuse, .array, .brup, .fq, .mir, .sby, .dma, .ports] s t := by
  refine ⟨_, rfl, ?_⟩
  try dsimp only
  repeat' first
    | with_reducible exact Only.refl _ _
    | with_reducible assumption
    | exact (rfl : (_ : Bool) = true)
    | exact fun _ => rfl
    | intro _
    | split
    | with_reducible apply Only.via (Q := [.freeCtr, .guards, .dies, .head, .ks, .vault, .slots, .pk, .dig, .ent, .ingest, .mower, .att, .tenantBox, .operBox, .boot, .fuse, .array, .brup, .fq, .mir, .dma, .ports]) (coreFails_only _ _ _)
    | with_reducible apply Only.via (Q := []) (done_only _)
    | with_reducible apply Only.onlyIf
    | with_reducible apply Only.via (Q := [.timer]) (reachTime_only _ _)
    | with_reducible apply Only.via (Q := [.sby]) (standbyCoreFails_only _ _ _)
    | with_reducible apply Only.whenUp
    | with_reducible apply Only.via (Q := [.boot]) (Only.modBoot _ _)
    | with_reducible apply Only.via (Q := [.mir]) (Only.modMir _ _)

theorem execActiveCoreLost_only (s : State) : ∃ t, execActiveCoreLost s = .next t ∧ Only [.timer, .mir] s t := by
  refine ⟨_, rfl, ?_⟩
  try dsimp only
  repeat' first
    | with_reducible exact Only.refl _ _
    | with_reducible assumption
    | exact (rfl : (_ : Bool) = true)
    | exact fun _ => rfl
    | intro _
    | split
    | with_reducible apply Only.via (Q := [.mir]) (declareLost_only _)
    | with_reducible apply Only.via (Q := []) (done_only _)
    | with_reducible apply Only.onlyIf
    | with_reducible apply Only.via (Q := [.timer]) (reachTime_only _ _)
    | with_reducible apply Only.whenUp

theorem execMirFail_only (s : State) : ∃ t, execMirFail s = .next t ∧ Only [.mir] s t := by
  refine ⟨_, rfl, ?_⟩
  try dsimp only
  repeat' first
    | with_reducible exact Only.refl _ _
    | with_reducible assumption
    | exact (rfl : (_ : Bool) = true)
    | exact fun _ => rfl
    | intro _
    | split
    | with_reducible apply Only.via (Q := [.mir]) (declareLost_only _)
    | with_reducible apply Only.via (Q := []) (done_only _)
    | with_reducible apply Only.onlyIf
    | with_reducible apply Only.whenUp

theorem execMirTakeover_only (s : State) : ∃ t, execMirTakeover s = .next t ∧ Only [.freeCtr, .guards, .dies, .head, .ks, .vault, .slots, .pk, .dig, .ent, .ingest, .mower, .att, .tenantBox, .operBox, .boot, .flash, .fuse, .array, .brup, .fq, .mir, .sby, .dma, .ports] s t := by
  refine ⟨_, rfl, ?_⟩
  try dsimp only
  repeat' first
    | with_reducible exact Only.refl _ _
    | with_reducible assumption
    | exact (rfl : (_ : Bool) = true)
    | exact fun _ => rfl
    | intro _
    | split
    | with_reducible apply Only.via (Q := []) (done_only _)
    | with_reducible apply Only.onlyIf
    | with_reducible apply Only.via (Q := [.freeCtr, .guards, .dies, .head, .ks, .vault, .slots, .pk, .dig, .ent, .ingest, .mower, .att, .tenantBox, .operBox, .boot, .flash, .fuse, .array, .brup, .fq, .mir, .sby, .dma, .ports]) (takeover_only _)
    | with_reducible apply Only.whenUp

theorem execPkSign_only (slot : Fin 8) (p : Path) (value : BitVec 32) (s : State) : ∃ t, execPkSign slot p value s = .next t ∧ Only [.freeCtr, .pk, .ports] s t := by
  refine ⟨_, rfl, ?_⟩
  try dsimp only
  repeat' first
    | with_reducible exact Only.refl _ _
    | with_reducible assumption
    | exact (rfl : (_ : Bool) = true)
    | exact fun _ => rfl
    | intro _
    | split
    | with_reducible apply Only.via (Q := []) (done_only _)
    | with_reducible apply Only.via (Q := [.freeCtr, .pk, .ports]) (pkRow_only _ _ _ _ _)

theorem execPkVerify_only (slot : Fin 8) (p : Path) (value : BitVec 32) (s : State) : ∃ t, execPkVerify slot p value s = .next t ∧ Only [.freeCtr, .pk, .ports] s t := by
  refine ⟨_, rfl, ?_⟩
  try dsimp only
  repeat' first
    | with_reducible exact Only.refl _ _
    | with_reducible assumption
    | exact (rfl : (_ : Bool) = true)
    | exact fun _ => rfl
    | intro _
    | split
    | with_reducible apply Only.via (Q := []) (done_only _)
    | with_reducible apply Only.via (Q := [.freeCtr, .pk, .ports]) (pkRow_only _ _ _ _ _)

theorem execPkKeygen_only (slot : Fin 8) (p : Path) (value : BitVec 32) (s : State) : ∃ t, execPkKeygen slot p value s = .next t ∧ Only [.freeCtr, .pk, .ports] s t := by
  refine ⟨_, rfl, ?_⟩
  try dsimp only
  repeat' first
    | with_reducible exact Only.refl _ _
    | with_reducible assumption
    | exact (rfl : (_ : Bool) = true)
    | exact fun _ => rfl
    | intro _
    | split
    | with_reducible apply Only.via (Q := []) (done_only _)
    | with_reducible apply Only.via (Q := [.freeCtr, .pk, .ports]) (pkRow_only _ _ _ _ _)

theorem execPkPublic_only (slot : Fin 8) (p : Path) (value : BitVec 32) (s : State) : ∃ t, execPkPublic slot p value s = .next t ∧ Only [.freeCtr, .pk, .ports] s t := by
  refine ⟨_, rfl, ?_⟩
  try dsimp only
  repeat' first
    | with_reducible exact Only.refl _ _
    | with_reducible assumption
    | exact (rfl : (_ : Bool) = true)
    | exact fun _ => rfl
    | intro _
    | split
    | with_reducible apply Only.via (Q := []) (done_only _)
    | with_reducible apply Only.via (Q := [.freeCtr, .pk, .ports]) (pkRow_only _ _ _ _ _)

theorem execPkDerive_only (slot : Fin 8) (p : Path) (value : BitVec 32) (s : State) : ∃ t, execPkDerive slot p value s = .next t ∧ Only [.freeCtr, .pk, .ports] s t := by
  refine ⟨_, rfl, ?_⟩
  try dsimp only
  repeat' first
    | with_reducible exact Only.refl _ _
    | with_reducible assumption
    | exact (rfl : (_ : Bool) = true)
    | exact fun _ => rfl
    | intro _
    | split
    | with_reducible apply Only.via (Q := []) (done_only _)
    | with_reducible apply Only.via (Q := [.freeCtr, .pk, .ports]) (pkRow_only _ _ _ _ _)

theorem execPkEncaps_only (slot : Fin 8) (p : Path) (value : BitVec 32) (s : State) : ∃ t, execPkEncaps slot p value s = .next t ∧ Only [.freeCtr, .pk, .ports] s t := by
  refine ⟨_, rfl, ?_⟩
  try dsimp only
  repeat' first
    | with_reducible exact Only.refl _ _
    | with_reducible assumption
    | exact (rfl : (_ : Bool) = true)
    | exact fun _ => rfl
    | intro _
    | split
    | with_reducible apply Only.via (Q := []) (done_only _)
    | with_reducible apply Only.via (Q := [.freeCtr, .pk, .ports]) (pkRow_only _ _ _ _ _)

theorem execPkDecaps_only (slot : Fin 8) (p : Path) (value : BitVec 32) (s : State) : ∃ t, execPkDecaps slot p value s = .next t ∧ Only [.freeCtr, .pk, .ports] s t := by
  refine ⟨_, rfl, ?_⟩
  try dsimp only
  repeat' first
    | with_reducible exact Only.refl _ _
    | with_reducible assumption
    | exact (rfl : (_ : Bool) = true)
    | exact fun _ => rfl
    | intro _
    | split
    | with_reducible apply Only.via (Q := []) (done_only _)
    | with_reducible apply Only.via (Q := [.freeCtr, .pk, .ports]) (pkRow_only _ _ _ _ _)

theorem execPkCheckCurve_only (slot : Fin 8) (p : Path) (value : BitVec 32) (s : State) : ∃ t, execPkCheckCurve slot p value s = .next t ∧ Only [.freeCtr, .pk, .ports] s t := by
  refine ⟨_, rfl, ?_⟩
  try dsimp only
  repeat' first
    | with_reducible exact Only.refl _ _
    | with_reducible assumption
    | exact (rfl : (_ : Bool) = true)
    | exact fun _ => rfl
    | intro _
    | split
    | with_reducible apply Only.via (Q := []) (done_only _)
    | with_reducible apply Only.via (Q := [.freeCtr, .pk, .ports]) (pkRow_only _ _ _ _ _)

theorem execIngestJobStart_only (s : State) : ∃ t, execIngestJobStart s = .next t ∧ Only [.dies, .head, .ks, .ent, .ingest, .att, .tenantBox, .operBox, .mir] s t := by
  refine ⟨_, rfl, ?_⟩
  try dsimp only
  repeat' first
    | with_reducible exact Only.refl _ _
    | with_reducible assumption
    | exact (rfl : (_ : Bool) = true)
    | exact fun _ => rfl
    | intro _
    | split
    | with_reducible apply Only.via (Q := [.dies, .head, .ks, .att, .tenantBox, .operBox, .mir]) (commit_only _ _ _ _)
    | with_reducible apply Only.via (Q := []) (done_only _)
    | with_reducible apply Only.via (Q := [.ent]) (drawBytes_only _ _)
    | with_reducible apply Only.via (Q := [.ks]) (modModel_only _ _ _)
    | with_reducible apply Only.via (Q := [.ks]) (setDom_only _ _)
    | with_reducible apply Only.whenUp
    | with_reducible apply Only.via (Q := [.ingest]) (Only.modIngest _ _)
    | with_reducible refine Only.ofPair (by assumption) ?_
    | with_reducible refine Only.ofTriple (by assumption) ?_

theorem execIngestHeaderRead_only (lines : List (Bool × BitVec 512 × BitVec 64)) (s : State) : ∃ t, execIngestHeaderRead lines s = .next t ∧ Only [.freeCtr, .guards, .dies, .head, .ks, .vault, .ingest, .mower, .att, .tenantBox, .operBox, .fq, .mir, .tagWindow] s t := by
  refine ⟨_, rfl, ?_⟩
  try dsimp only
  repeat' first
    | with_reducible exact Only.refl _ _
    | with_reducible assumption
    | exact (rfl : (_ : Bool) = true)
    | exact fun _ => rfl
    | intro _
    | split
    | with_reducible apply Only.via (Q := [.ingest]) (countAuth_only _)
    | with_reducible apply Only.via (Q := []) (done_only _)
    | with_reducible apply Only.via (Q := [.dies, .head, .ks, .vault, .ingest, .mower, .att, .tenantBox, .operBox, .fq, .mir]) (endIngest_only _ _ _)
    | with_reducible apply Only.via (Q := [.dies, .head, .ks, .vault, .mower, .att, .tenantBox, .operBox, .fq, .mir]) (ingestWaits_only _)
    | with_reducible apply Only.onlyIf
    | with_reducible apply Only.via (Q := [.freeCtr, .guards, .dies, .ks, .ingest, .mower, .fq, .tagWindow]) (readLines_only _ _ _ _ _)
    | with_reducible apply Only.via (Q := [.dies, .head, .ks, .vault, .mower, .att, .tenantBox, .operBox, .fq, .mir]) (settle_only _)
    | with_reducible apply Only.whenUp
    | with_reducible apply Only.via (Q := [.ingest]) (Only.modIngest _ _)
    | with_reducible refine Only.ofPair (by assumption) ?_
    | with_reducible refine Only.ofTriple (by assumption) ?_

theorem execIngestChunk_only (lines : List (Bool × BitVec 512 × BitVec 64)) (writes : List Bool) (s : State) : ∃ t, execIngestChunk lines writes s = .next t ∧ Only [.freeCtr, .guards, .dies, .head, .ks, .vault, .ingest, .mower, .att, .tenantBox, .operBox, .fq, .mir, .tagWindow] s t := by
  refine ⟨_, rfl, ?_⟩
  try dsimp only
  repeat' first
    | with_reducible exact Only.refl _ _
    | with_reducible assumption
    | exact (rfl : (_ : Bool) = true)
    | exact fun _ => rfl
    | intro _
    | split
    | with_reducible apply Only.via (Q := [.freeCtr]) (state_used_only _)
    | with_reducible apply Only.via (Q := [.ingest]) (countAuth_only _)
    | with_reducible apply Only.via (Q := []) (done_only _)
    | with_reducible apply Only.via (Q := [.dies, .head, .ks, .vault, .ingest, .mower, .att, .tenantBox, .operBox, .fq, .mir]) (endIngest_only _ _ _)
    | with_reducible apply Only.via (Q := [.dies, .head, .ks, .vault, .mower, .att, .tenantBox, .operBox, .fq, .mir]) (ingestWaits_only _)
    | with_reducible apply Only.via (Q := [.freeCtr, .guards, .dies, .ks, .ingest, .mower, .fq, .tagWindow]) (readLines_only _ _ _ _ _)
    | with_reducible apply Only.via (Q := [.dies, .head, .ks, .vault, .mower, .att, .tenantBox, .operBox, .fq, .mir]) (settle_only _)
    | with_reducible apply Only.whenUp
    | with_reducible apply Only.via (Q := [.freeCtr, .guards, .dies, .ks, .ingest, .mower, .fq]) (writeLines_only _ _ _ _ _)
    | with_reducible apply Only.via (Q := [.ingest]) (Only.modIngest _ _)
    | with_reducible apply Only.via (Q := [.mower]) (Only.modMower _ _)
    | with_reducible refine Only.ofPair (by assumption) ?_
    | with_reducible refine Only.ofTriple (by assumption) ?_

theorem execIngestManifest_only (lines : List (Bool × BitVec 512 × BitVec 64)) (s : State) : ∃ t, execIngestManifest lines s = .next t ∧ Only [.freeCtr, .guards, .dies, .head, .ks, .vault, .ingest, .mower, .att, .tenantBox, .operBox, .fq, .mir, .tagWindow] s t := by
  refine ⟨_, rfl, ?_⟩
  try dsimp only
  repeat' first
    | with_reducible exact Only.refl _ _
    | with_reducible assumption
    | exact (rfl : (_ : Bool) = true)
    | exact fun _ => rfl
    | intro _
    | split
    | with_reducible apply Only.via (Q := [.ingest]) (countAuth_only _)
    | with_reducible apply Only.via (Q := []) (done_only _)
    | with_reducible apply Only.via (Q := [.dies, .head, .ks, .vault, .ingest, .mower, .att, .tenantBox, .operBox, .fq, .mir]) (endIngest_only _ _ _)
    | with_reducible apply Only.via (Q := [.dies, .head, .ks, .vault, .ingest, .mower, .att, .tenantBox, .operBox, .mir]) (ingestDone_only _ _ _)
    | with_reducible apply Only.via (Q := [.dies, .head, .ks, .vault, .mower, .att, .tenantBox, .operBox, .fq, .mir]) (ingestWaits_only _)
    | with_reducible apply Only.via (Q := [.freeCtr, .guards, .dies, .ks, .ingest, .mower, .fq, .tagWindow]) (readLines_only _ _ _ _ _)
    | with_reducible apply Only.via (Q := [.dies, .head, .ks, .vault, .mower, .att, .tenantBox, .operBox, .fq, .mir]) (settle_only _)
    | with_reducible apply Only.whenUp
    | with_reducible refine Only.ofPair (by assumption) ?_
    | with_reducible refine Only.ofTriple (by assumption) ?_

theorem execDrawOutRead_only (p : Path) (addr : BitVec 24) (s : State) : ∃ t, execDrawOutRead p addr s = .next t ∧ Only [.freeCtr, .pk, .ent, .ports] s t := by
  refine ⟨_, rfl, ?_⟩
  try dsimp only
  repeat' first
    | with_reducible exact Only.refl _ _
    | with_reducible assumption
    | exact (rfl : (_ : Bool) = true)
    | exact fun _ => rfl
    | intro _
    | split
    | with_reducible apply Only.via (Q := []) (done_only _)
    | with_reducible apply Only.onlyIf
    | with_reducible apply Only.via (Q := [.freeCtr, .pk, .ent, .ports]) (readAt_only _ _ _)

theorem execLoWordRead_only (p : Path) (addr : BitVec 24) (s : State) : ∃ t, execLoWordRead p addr s = .next t ∧ Only [.freeCtr, .pk, .ent, .ports] s t := by
  refine ⟨_, rfl, ?_⟩
  try dsimp only
  repeat' first
    | with_reducible exact Only.refl _ _
    | with_reducible assumption
    | exact (rfl : (_ : Bool) = true)
    | exact fun _ => rfl
    | intro _
    | split
    | with_reducible apply Only.via (Q := []) (done_only _)
    | with_reducible apply Only.onlyIf
    | with_reducible apply Only.via (Q := [.freeCtr, .pk, .ent, .ports]) (readAt_only _ _ _)

theorem execMailboxPost_only (operator : Bool) (p : Path) (value : BitVec 32) (s : State) : ∃ t, execMailboxPost operator p value s = .next t ∧ Only [.tenantBox, .operBox, .ports] s t := by
  refine ⟨_, rfl, ?_⟩
  try dsimp only
  repeat' first
    | with_reducible exact Only.refl _ _
    | with_reducible assumption
    | exact (rfl : (_ : Bool) = true)
    | exact fun _ => rfl
    | intro _
    | split
    | with_reducible apply Only.boxWrite
    | with_reducible apply Only.via (Q := []) (done_only _)
    | with_reducible apply Only.via (Q := [.tenantBox, .operBox]) (inCtlWrite_only _ _ _)
    | with_reducible apply Only.onlyIf

theorem execTaken_only (operator : Bool) (p : Path) (value : BitVec 32) (s : State) : ∃ t, execTaken operator p value s = .next t ∧ Only [.tenantBox, .operBox, .ports] s t := by
  refine ⟨_, rfl, ?_⟩
  try dsimp only
  repeat' first
    | with_reducible exact Only.refl _ _
    | with_reducible assumption
    | exact (rfl : (_ : Bool) = true)
    | exact fun _ => rfl
    | intro _
    | split
    | with_reducible apply Only.boxWrite
    | with_reducible apply Only.via (Q := []) (done_only _)
    | with_reducible apply Only.onlyIf
    | with_reducible apply Only.via (Q := [.tenantBox, .operBox]) (outCtlWrite_only _ _ _)

theorem execRegisterWrite_only (p : Path) (addr : BitVec 24) (value : BitVec 32) (s : State) : ∃ t, execRegisterWrite p addr value s = .next t ∧ Only [.freeCtr, .guards, .dies, .head, .ks, .vault, .slots, .pk, .dig, .ent, .ingest, .mower, .att, .tenantBox, .operBox, .boot, .flash, .fuse, .array, .brup, .fq, .mir, .dma, .ports] s t := by
  refine ⟨_, rfl, ?_⟩
  try dsimp only
  repeat' first
    | with_reducible exact Only.refl _ _
    | with_reducible assumption
    | exact (rfl : (_ : Bool) = true)
    | exact fun _ => rfl
    | intro _
    | split
    | with_reducible apply Only.via (Q := [.freeCtr, .guards, .dies, .head, .ks, .vault, .slots, .pk, .dig, .ent, .ingest, .mower, .att, .tenantBox, .operBox, .boot, .flash, .fuse, .array, .brup, .fq, .mir, .dma, .ports]) (ctlWrite_only _ _ _ _)
    | with_reducible apply Only.via (Q := []) (done_only _)
    | with_reducible apply Only.onlyIf

theorem execCtlTimeout_only (p : Path) (addr : BitVec 24) (_write : Bool) (s : State) : ∃ t, execCtlTimeout p addr _write s = .next t ∧ Only [.timer, .fq, .ports] s t := by
  refine ⟨_, rfl, ?_⟩
  try dsimp only
  repeat' first
    | with_reducible exact Only.refl _ _
    | with_reducible assumption
    | exact (rfl : (_ : Bool) = true)
    | exact fun _ => rfl
    | intro _
    | split
    | with_reducible apply Only.via (Q := [.ports]) (accessError_only _ _)
    | with_reducible apply Only.via (Q := []) (done_only _)
    | with_reducible apply Only.onlyIf
    | with_reducible apply Only.via (Q := [.fq]) (raise_only _ _ _ _ _ _ _)
    | with_reducible apply Only.via (Q := [.timer]) (reachTime_only _ _)
    | with_reducible apply Only.whenUp
    | with_reducible apply Only.via (Q := [.ports]) (Only.modPorts _ _)

theorem execRecentWindowExpiry_only (page : BitVec 12) (bit : BitVec 4) (s : State) : ∃ t, execRecentWindowExpiry page bit s = .next t ∧ Only [.guards, .dies, .vault, .pk, .dig, .ent, .ingest, .mower, .fuse, .brup, .mir, .ports] s t := by
  refine ⟨_, rfl, ?_⟩
  try dsimp only
  repeat' first
    | with_reducible exact Only.refl _ _
    | with_reducible assumption
    | exact (rfl : (_ : Bool) = true)
    | exact fun _ => rfl
    | intro _
    | split
    | with_reducible apply Only.via (Q := []) (done_only _)
    | with_reducible apply Only.whenUp
    | with_reducible apply Only.via (Q := [.brup]) (Only.modBrup _ _)
    | with_reducible apply Only.via (Q := [.dies]) (Only.modDie _ _ _)
    | with_reducible apply Only.via (Q := [.dig]) (Only.modDig _ _)
    | with_reducible apply Only.via (Q := [.ent]) (Only.modEnt _ _)
    | with_reducible apply Only.viaFuse
    | (intro v; dsimp only; split <;> rfl)
    | with_reducible apply Only.via (Q := [.guards]) (Only.modGuard _ _ _)
    | with_reducible apply Only.via (Q := [.ingest]) (Only.modIngest _ _)
    | with_reducible apply Only.via (Q := [.mir]) (Only.modMir _ _)
    | with_reducible apply Only.via (Q := [.mower]) (Only.modMower _ _)
    | with_reducible apply Only.via (Q := [.pk]) (Only.modPk _ _)
    | with_reducible apply Only.via (Q := [.ports]) (Only.modPorts _ _)
    | with_reducible apply Only.viaVault
    | (intro v; dsimp only; split <;> rfl)

theorem execDmaResponse_only (id : BitVec 6) (err : Bool) (data : BitVec 512) (s : State) : ∃ t, execDmaResponse id err data s = .next t ∧ Only [.freeCtr, .guards, .dies, .head, .ks, .vault, .pk, .dig, .ingest, .mower, .att, .tenantBox, .operBox, .boot, .flash, .fuse, .brup, .fq, .mir, .dma, .ports] s t := by
  refine ⟨_, rfl, ?_⟩
  try dsimp only
  repeat' first
    | with_reducible exact Only.refl _ _
    | with_reducible assumption
    | exact fun h => h
    | exact flight_filter _ _
    | exact (rfl : (_ : Bool) = true)
    | exact fun _ => rfl
    | intro _
    | split
    | with_reducible apply Only.via (Q := [.freeCtr, .dig, .att, .tenantBox, .operBox, .boot, .flash, .fuse, .mir, .dma]) (dmaArrived_only _ _ _)
    | with_reducible apply Only.via (Q := [.freeCtr, .guards, .dies, .head, .ks, .vault, .pk, .dig, .ingest, .mower, .att, .tenantBox, .operBox, .boot, .brup, .fq, .mir, .dma, .ports]) (dmaFailed_only _ _ _)
    | with_reducible apply Only.via (Q := [.freeCtr, .dma]) (dmaPump_only _)
    | with_reducible apply Only.via (Q := []) (done_only _)
    | with_reducible apply Only.via (Q := [.dies, .head, .ks, .vault, .mower, .att, .tenantBox, .operBox, .fq, .mir]) (settle_only _)
    | with_reducible apply Only.whenUp
    | with_reducible refine Only.via (Q := [.dma]) (Only.modDma _ _ ?_) ?_ ?_
    | dsimp only [id]

theorem execRecoveryHello_only (seq : BitVec 8) (payload : Bytes) (s : State) : ∃ t, execRecoveryHello seq payload s = .next t ∧ Only [.boot] s t := by
  refine ⟨_, rfl, ?_⟩
  try dsimp only
  repeat' first
    | with_reducible exact Only.refl _ _
    | with_reducible assumption
    | exact (rfl : (_ : Bool) = true)
    | exact fun _ => rfl
    | intro _
    | split
    | with_reducible apply Only.via (Q := []) (done_only _)
    | with_reducible apply Only.via (Q := [.boot]) (modRec_only _ _)
    | with_reducible apply Only.recFrame
    | with_reducible apply Only.whenUp

theorem execRecoveryWrite_only (seq : BitVec 8) (payload : Bytes) (s : State) : ∃ t, execRecoveryWrite seq payload s = .next t ∧ Only [.boot] s t := by
  refine ⟨_, rfl, ?_⟩
  try dsimp only
  repeat' first
    | with_reducible exact Only.refl _ _
    | with_reducible assumption
    | exact (rfl : (_ : Bool) = true)
    | exact fun _ => rfl
    | intro _
    | split
    | with_reducible apply Only.via (Q := []) (done_only _)
    | with_reducible apply Only.via (Q := [.boot]) (modRec_only _ _)
    | with_reducible apply Only.recFrame
    | with_reducible apply Only.whenUp

theorem execRecoveryCommit_only (seq : BitVec 8) (payload : Bytes) (flashOk : Bool) (s : State) : ∃ t, execRecoveryCommit seq payload flashOk s = .next t ∧ Only [.boot, .flash] s t := by
  refine ⟨_, rfl, ?_⟩
  try dsimp only
  repeat' first
    | with_reducible exact Only.refl _ _
    | with_reducible assumption
    | exact (rfl : (_ : Bool) = true)
    | exact fun _ => rfl
    | intro _
    | split
    | with_reducible apply Only.via (Q := [.flash]) (adopt_only _ _ _ _)
    | with_reducible apply Only.via (Q := [.flash]) (commitAppend_only _ _ _ _)
    | with_reducible apply Only.via (Q := []) (done_only _)
    | with_reducible apply Only.via (Q := [.flash]) (programImage_only _ _ _ _)
    | with_reducible apply Only.recFrame
    | with_reducible apply Only.whenUp
    | with_reducible apply Only.via (Q := [.boot]) (Only.modBoot _ _)

theorem execRecoveryAbort_only (seq : BitVec 8) (payload : Bytes) (s : State) : ∃ t, execRecoveryAbort seq payload s = .next t ∧ Only [.boot] s t := by
  refine ⟨_, rfl, ?_⟩
  try dsimp only
  repeat' first
    | with_reducible exact Only.refl _ _
    | with_reducible assumption
    | exact (rfl : (_ : Bool) = true)
    | exact fun _ => rfl
    | intro _
    | split
    | with_reducible apply Only.via (Q := []) (done_only _)
    | with_reducible apply Only.recFrame
    | with_reducible apply Only.whenUp

theorem execRecoveryReservedFrame_only (type seq : BitVec 8) (payload : Bytes) (s : State) : ∃ t, execRecoveryReservedFrame type seq payload s = .next t ∧ Only [.boot] s t := by
  refine ⟨_, rfl, ?_⟩
  try dsimp only
  repeat' first
    | with_reducible exact Only.refl _ _
    | with_reducible assumption
    | exact (rfl : (_ : Bool) = true)
    | exact fun _ => rfl
    | intro _
    | split
    | with_reducible apply Only.via (Q := []) (done_only _)
    | with_reducible apply Only.onlyIf
    | with_reducible apply Only.recFrame
    | with_reducible apply Only.whenUp

theorem execDamagedFrame_only (s : State) : ∃ t, execDamagedFrame s = .next t ∧ Only [.boot] s t := by
  refine ⟨_, rfl, ?_⟩
  try dsimp only
  repeat' first
    | with_reducible exact Only.refl _ _
    | with_reducible assumption
    | exact (rfl : (_ : Bool) = true)
    | exact fun _ => rfl
    | intro _
    | split
    | with_reducible apply Only.via (Q := []) (done_only _)
    | with_reducible apply Only.via (Q := [.boot]) (modRec_only _ _)
    | with_reducible apply Only.onlyIf
    | with_reducible apply Only.whenUp

/-- What a tick of the block timer can change. -/
theorem tick_only (s : State) : Only [.timer, .freeCtr, .guards, .dies, .head, .ks, .vault, .slots, .pk, .dig, .ent, .ingest, .mower, .att, .tenantBox, .operBox, .boot, .fuse, .brup, .fq, .mir, .dma, .ports] s (tick s) := by
  unfold tick
  refine Only.whenUp (Only.refl _ _) fun u hu => ?_
  exact Only.via (tmxTick_only _) rfl (Only.via (serveMailbox_only _ _) rfl (Only.via (serveMailbox_only _ _) rfl
    (Only.via (takePosted_only _ _) rfl (Only.via (takePosted_only _ _) rfl (Only.via (timerTick_only _) rfl hu)))))

end Sys2Proof.Machine
end

