-- ==== Sys2Proof/Laws/Fence.lean ====
section
/-!
SUPPORT. Fencing (R107, R108): it touches one guard, and leaves that guard fenced, with an empty key cache.
-/

namespace Sys2Proof.Machine
open Sys2Proof

theorem guardN_guards {s t : State} (h : t.guards = s.guards) (g : Nat) : t.guardN g = s.guardN g := by
  unfold State.guardN; rw [h]

theorem guardN_modGuard_ne (s : State) (g h : Nat) (f : Guard → Guard) (hn : h ≠ g) : (s.modGuard g f).guardN h = s.guardN h := by
  rw [guardN_modGuard, if_neg (fun e => hn e.1)]

theorem guardN_modGuard_eq (s : State) (g : Nat) (f : Guard → Guard) (hg : g < 40) : (s.modGuard g f).guardN g = f (s.guardN g) := by
  rw [guardN_modGuard, if_pos ⟨rfl, hg⟩]

/-- A loop whose passes leave a guard leaves it. -/
theorem guardN_forEach {α : Type} (l : List α) (f : α → State → State) (h : Nat) (hf : ∀ a s, (f a s).guardN h = s.guardN h) (s : State) :
    (forEach l f s).guardN h = s.guardN h := by
  induction l generalizing s with
  | nil => rfl
  | cons a l ih => exact (ih (f a s)).trans (hf a s)

theorem respond_ne (g h : Nat) (r : Req) (status : Nat) (data : BitVec 512) (side : BitVec 64) (s : State) (hn : h ≠ g) :
    (respond g r status data side s).guardN h = s.guardN h := by
  unfold respond
  split
  · exact guardN_modGuard_ne _ _ _ _ hn
  · dsimp only
    split
    · exact guardN_modGuard_ne _ _ _ _ hn
    · exact guardN_modGuard_ne _ _ _ _ hn

theorem guardSend_guardN (g h : Nat) (body : RingBody) (s : State) : (guardSend g body s).guardN h = s.guardN h := rfl

theorem fenceReq_ne (g h : Nat) (r : Req) (s : State) (hn : h ≠ g) : (fenceReq g r s).guardN h = s.guardN h := by
  unfold fenceReq
  split
  · exact guardN_modGuard_ne _ _ _ _ hn
  · rfl
  · rfl
  · exact (guardN_modGuard_ne _ _ _ _ hn).trans (respond_ne _ _ _ _ _ _ _ hn)
  · exact respond_ne _ _ _ _ _ _ _ hn

theorem fenceHeld_ne (g h : Nat) (s : State) (hn : h ≠ g) : (fenceHeld g s).guardN h = s.guardN h := by
  unfold fenceHeld
  split
  · rfl
  · exact guardN_modGuard_ne _ _ _ _ hn

theorem abortDescs_ne (g h : Nat) (s : State) (hn : h ≠ g) : (abortDescs g s).guardN h = s.guardN h := by
  unfold abortDescs
  exact (guardN_modGuard_ne _ _ _ _ hn).trans (guardN_forEach _ _ _ (fun _ _ => guardSend_guardN _ _ _ _) _)

theorem clearKeys_ne (g h : Nat) (s : State) (hn : h ≠ g) : (clearKeys g s).guardN h = s.guardN h := by
  unfold clearKeys
  exact (guardN_forEach _ _ _ (fun _ _ => guardSend_guardN _ _ _ _) _).trans (guardN_modGuard_ne _ _ _ _ hn)

/-- R107: a fence of one guard leaves every other guard as it is. -/
theorem fenceGuard_ne (safety ends : Bool) (g h : Nat) (s : State) (hn : h ≠ g) : (fenceGuard safety ends g s).guardN h = s.guardN h := by
  unfold fenceGuard
  split
  · exact guardN_modGuard_ne _ _ _ _ hn
  · dsimp only
    unfold countAcked
    refine (guardN_modGuard_ne _ _ _ _ hn).trans ((clearKeys_ne _ _ _ hn).trans ?_)
    have h0 : ∀ l, (fenceHeld g (forEach l (fenceReq g) (s.modGuard g Guard.fenceRsps))).guardN h = s.guardN h := fun _ =>
      (fenceHeld_ne _ _ _ hn).trans ((guardN_forEach _ _ _ (fun _ _ => fenceReq_ne _ _ _ _ hn) _).trans (guardN_modGuard_ne _ _ _ _ hn))
    split
    · exact (abortDescs_ne _ _ _ hn).trans (h0 _)
    · exact h0 _

theorem guardSend_key (g : Nat) (body : RingBody) (s : State) : ((guardSend g body s).guardN g).cache = (s.guardN g).cache ∧
    ((guardSend g body s).guardN g).sweep.key = (s.guardN g).sweep.key := ⟨rfl, rfl⟩

/-- R107: a fenced guard is fenced, whatever fenced it. -/
theorem fenceGuard_fenced (safety ends : Bool) (g : Nat) (s : State) (hg : g < 40) : ((fenceGuard safety ends g s).guardN g).fenced = true := by
  unfold fenceGuard
  split
  · rename_i h
    rw [guardN_modGuard_eq _ _ _ hg]; exact h
  · dsimp only
    unfold countAcked
    exact congrArg Guard.fenced (guardN_modGuard_eq _ _ _ hg)

/-- A fence never lifts another's. -/
theorem fenceGuard_mono (safety ends : Bool) (g h : Nat) (s : State) (hg : g < 40) (hf : (s.guardN h).fenced = true) :
    ((fenceGuard safety ends g s).guardN h).fenced = true := by
  by_cases e : h = g
  · subst e; exact fenceGuard_fenced _ _ _ _ hg
  · rw [fenceGuard_ne _ _ _ _ _ e]; exact hf

/-- R585: every guard of a list is fenced after the list has been. -/
theorem fenceAll_fenced (safety : Bool) (gs : List Nat) (s : State) (hg : ∀ g ∈ gs, g < 40) (h : Nat) (hh : h ∈ gs ∨ (s.guardN h).fenced = true) :
    ((fenceAll safety gs s).guardN h).fenced = true := by
  unfold fenceAll
  induction gs generalizing s with
  | nil => simpa [forEach] using hh
  | cons g gs ih =>
    refine ih (fenceGuard safety true g s) (fun x hx => hg x (List.mem_cons_of_mem _ hx)) ?_
    rcases hh with hh | hh
    · rcases List.mem_cons.mp hh with rfl | hh
      · exact .inr (fenceGuard_fenced _ _ _ _ (hg _ List.mem_cons_self))
      · exact .inl hh
    · exact .inr (fenceGuard_mono _ _ _ _ _ (hg _ List.mem_cons_self) hh)

/-- R107, R23: where a guard was not fenced its fence clears its key cache and its sweep key. -/
theorem fenceGuard_keys (safety ends : Bool) (g : Nat) (s : State) (hg : g < 40) (hf : (s.guardN g).fenced = false) :
    ((fenceGuard safety ends g s).guardN g).cache.lines = [] ∧ ((fenceGuard safety ends g s).guardN g).cache.pins = [] ∧
    ((fenceGuard safety ends g s).guardN g).sweep.key = none := by
  have hk : ∀ (l : List PendRetire) (u : State), (u.guardN g).cache.lines = [] ∧ (u.guardN g).cache.pins = [] ∧ (u.guardN g).sweep.key = none →
      ((forEach l (fun p => guardAck g p.opId false) u).guardN g).cache.lines = [] ∧
      ((forEach l (fun p => guardAck g p.opId false) u).guardN g).cache.pins = [] ∧
      ((forEach l (fun p => guardAck g p.opId false) u).guardN g).sweep.key = none := by
    intro l
    induction l with
    | nil => exact fun u h => h
    | cons a l ih =>
      intro u h
      refine ih (guardAck g a.opId false u) ?_
      obtain ⟨h1, h2⟩ := guardSend_key g (.ack a.opId g false) u
      unfold guardAck
      rw [h1, h2]; exact h
  unfold fenceGuard
  rw [if_neg (by simp [hf])]
  dsimp only
  unfold countAcked
  have e : ∀ (v : State) (F : Guard → Guard) (k : KeySvc → KeySvc), (((v.modGuard g F).modKs k).guardN g) = F (v.guardN g) :=
    fun v F k => guardN_modGuard_eq v g F hg
  rw [e]
  refine hk _ _ ?_
  rw [guardN_modGuard_eq _ _ _ hg]
  exact ⟨rfl, rfl, rfl⟩

end Sys2Proof.Machine
end

