-- ==== Sys2Proof/Laws/Fuses.lean ====
section
/-!
SUPPORT. The fuse array: what a burn leaves in each word.
-/

namespace Sys2Proof.Machine
open Sys2Proof

theorem senseOne_array (w : Nat) (s : State) : (senseOne w s).fuse.array = s.fuse.array := rfl

/-- R499, R534: the words after a word has been burned with some bits failed: only the word named changes, by bits set; the tight reference gains
the bits that verified, and the normal one all of them where none failed. -/
theorem burnWord_words (w : Nat) (v : BitVec 72) (failed : List (Nat × Nat)) (s : State) :
    ∃ n : BitVec 72, (failedMask w v failed = 0 → n = v) ∧ ∀ u, (burnWord w v failed s).fuseWord u =
      if u = w then { word := w, norm := (s.fuseWord w).norm ||| n, tight := (s.fuseWord w).tight ||| (v &&& ~~~ failedMask w v failed) }
      else s.fuseWord u := by
  unfold burnWord
  dsimp only
  generalize failedMask w v failed = m
  by_cases hm : m = 0
  · refine ⟨v, fun _ => rfl, fun u => ?_⟩
    have hv : v &&& ~~~(0 : BitVec 72) = v := by
      rw [show ~~~(0 : BitVec 72) = BitVec.allOnes 72 from by decide]; exact BitVec.and_allOnes
    rw [fuseWord_array (senseOne_array _ _), if_pos hm, fuseWord_burn, hm, hv]
  · refine ⟨(v &&& ~~~ m) ||| (m &&& BitVec.ofNat 72 s.free), fun h => absurd h hm, fun u => ?_⟩
    rw [fuseWord_array (senseOne_array _ _), if_neg hm]
    exact fuseWord_burn _ _ _ _ _

end Sys2Proof.Machine
end

