-- ==== Sys2Proof/Laws/Messages.lean ====
section
/-!
SUPPORT. Messages of sessions: which are taken, and what an answer sends.
-/

namespace Sys2Proof.Machine
open Sys2Proof

/-- Finding a session after one session has changed, its identity kept. -/
theorem find_mapIf (l : List Session) (id n : Nat) (f : Session → Session) (hf : ∀ x, (f x).id = x.id) :
    (mapIf (fun x => x.id == id) f l).find? (fun x => x.id == n) = (l.find? (fun x => x.id == n)).map (fun x => if x.id == id then f x else x) := by
  induction l with
  | nil => rfl
  | cons a l ih =>
    have ha : (if a.id == id then f a else a).id = a.id := by split <;> simp [hf]
    simp only [mapIf, List.map_cons, List.find?_cons, ha]
    cases h : a.id == n
    · simpa [mapIf] using ih
    · simp

theorem sess_modSess (s : State) (id n : Nat) (f : Session → Session) (hf : ∀ x, (f x).id = x.id) :
    (modSess id f s).sess n = (s.sess n).map (fun x => if x.id == id then f x else x) := find_mapIf _ _ _ _ hf

theorem sess_id {s : State} {n : Nat} {x : Session} (h : s.sess n = some x) : x.id = n := by
  have := List.find?_some h
  simpa using this

theorem sess_modSess_at {s : State} {id : Nat} {f : Session → Session} {x : Session} (h : s.sess id = some x) (hf : ∀ x, (f x).id = x.id) :
    (modSess id f s).sess id = some (f x) := by
  rw [sess_modSess _ _ _ _ hf, h]
  simp [sess_id h]

/-- A row whose message is taken decides it. -/
theorem onMessage_ok {r : MsgRule} {lengthOk : Bytes → Bool} {sess : Nat} {tag : BitVec 32} {body : Bytes}
    {k : Session → Waiter → State → State} {s : State} {x : Session} (h : Asks s r sess x) (hl : lengthOk body = true) :
    onMessage r lengthOk sess tag body k s = k x (asker r sess tag) (asked sess s) := by
  obtain ⟨_, h1, h2, h3, h4, h5⟩ := h
  have h6 : (r.cred && x.cred.isNone) = false := by
    cases hr : r.cred
    · rfl
    · have := h5 hr
      simp only [Bool.true_and]
      simpa using this
  unfold onMessage
  simp only [h1, h2, h3, h6, hl, asker, asked]
  cases hx : x.operator <;> simp_all

/-- The same for a row whose body must have one length. -/
theorem onMessage_exactly {r : MsgRule} {n : Nat} {sess : Nat} {tag : BitVec 32} {body : Bytes}
    {k : Session → Waiter → State → State} {s : State} {x : Session} (h : Asks s r sess x) (hl : body.length = n) :
    onMessage r (exactly n) sess tag body k s = k x (asker r sess tag) (asked sess s) :=
  onMessage_ok h (by simp [exactly, hl])

theorem whenUp_asks {r : MsgRule} {sess : Nat} {x : Session} {s : State} (k : State → State) (h : Asks s r sess x) : whenUp s k = k s :=
  whenUp_up k h.1

/-- A bring-up action that is taken is decided by its own row. -/
theorem actionRow_ok {mine : Bool} {sess : Nat} {tag : BitVec 32} {body : Bytes} {a : Nat} {k : Waiter → State → State} {s : State}
    (h : Acts s sess body a) (hm : mine = true) : actionRow mine sess tag body k s = .next (k (actor sess tag) (asked sess s)) := by
  obtain ⟨hl, _, x, hx⟩ := h
  unfold actionRow done
  rw [whenUp_asks _ hx, hm, onlyIf_true, onMessage_exactly hx hl]
  rfl

theorem pumpBox_sent (m : Mbx) : (pumpBox m).sent = m.sent := by
  unfold pumpBox
  split <;> rfl

theorem box_modSess (o : Bool) (id : Nat) (f : Session → Session) (s : State) : (modSess id f s).box o = s.box o := by
  cases o <;> rfl

theorem box_modConn (o p : Bool) (sess : Option Nat) (f : Conn → Conn) (s : State) : (modConn p sess f s).box o = s.box o := by
  cases sess <;> cases o <;> rfl

theorem box_modBox (o : Bool) (f : Mbx → Mbx) (s : State) : (modBox o f s).box o = f (s.box o) := by
  cases o <;> rfl

theorem sendOut_sent (o : Bool) (sess : Option Nat) (body : OutBody) (s : State) :
    ((sendOut o sess body s).box o).sent = (s.box o).sent ++ [{ operator := o, sess := sess, body := body }] := by
  unfold sendOut
  dsimp only
  rw [box_modBox, pumpBox_sent]
  cases sess with
  | none => rw [box_modConn]
  | some id =>
    dsimp only
    rw [box_modSess, box_modConn]

/-- A request that is being answered was heard when it came. -/
theorem sess_asked {s : State} {id : Nat} {x : Session} (h : s.sess id = some x) :
    (asked id s).sess id = some { x with heard := s.timer, busy := true } :=
  sess_modSess_at (f := fun y => { y with busy := true }) (sess_modSess_at (f := fun y => { y with heard := s.timer }) h fun _ => rfl) fun _ => rfl

/-- A message sent leaves a session as it is but for its own records and the SPDM requests of it. -/
theorem sess_sendOut {s : State} {id : Nat} {x : Session} (o : Bool) (b : OutBody) (h : s.sess id = some x) :
    ∃ c, (sendOut o (some id) b s).sess id = some { x with conn := c, rspSeq := x.rspSeq + 1 } := by
  unfold sendOut
  dsimp only
  have hb : ∀ (f : Mbx → Mbx) (t : State), (modBox o f t).sess id = t.sess id := by intro f t; cases o <;> rfl
  rw [hb]
  let c := ((connOf s o (some id)).carry (outBytes b)).2
  exact ⟨c, sess_modSess_at (f := fun y => { y with rspSeq := y.rspSeq + 1 }) (sess_modSess_at (f := fun y => { y with conn := c }) h fun _ => rfl) fun _ => rfl⟩

/-- An answer to a request of an open session is sent through its mailbox. -/
theorem reply_sent {w : Waiter} {result : BitVec 8} {s : State} {x : Session} (h : s.sess w.sess = some x) :
    ((reply w result s).box x.operator).sent =
      (s.box x.operator).sent ++ [{ operator := x.operator, sess := some w.sess, body := .vendor w.msg result w.tag w.body }] := by
  unfold reply
  rw [h]
  dsimp only
  rw [sendOut_sent, box_modSess]

/-- After an answer the session may send again. -/
theorem reply_sess {w : Waiter} {result : BitVec 8} {s : State} {x : Session} (h : s.sess w.sess = some x) :
    ∃ y, (reply w result s).sess w.sess = some y ∧ y.busy = false ∧ y.operator = x.operator := by
  unfold reply
  rw [h]
  dsimp only
  obtain ⟨c, hc⟩ := sess_sendOut x.operator (.vendor w.msg result w.tag w.body) (sess_modSess_at (f := fun y => { y with busy := false }) h fun _ => rfl)
  exact ⟨_, hc, rfl, rfl⟩

end Sys2Proof.Machine
end

