-- ==== Sys2Proof/Laws/Arrivals.lean ====
section
/-!
SUPPORT. A ring message that arrives at a stop; one guard, bank or die section of the block seen as a place in its list.
-/

set_option maxRecDepth 40000

namespace Sys2Proof.Machine
open Sys2Proof

/-- A message that arrives is what the stop's front is, for it to take. -/
theorem front_arrives {s : State} {die : Fin 4} {m : RingMsg} (h : Arrives s die m) : ringFront die.toNat (reached die s) = .take m := by
  obtain ⟨_, _, h2, h3, h4, h5, h6, h7, h8⟩ := h
  have e : die.toNat = die.val := rfl
  unfold ringFront
  rw [e]
  cases hi : ((reached die s).dieN die).inbox with
  | nil => rw [hi] at h3; cases h3
  | cons a l =>
    rw [hi] at h3; cases h3
    have h8' : (decide (8 ≤ ((reached die s).dieN die).passing) && hasInsert die (reached die s)) = false := by
      by_cases hp : 8 ≤ ((reached die s).dieN die).passing
      · simp [hp, h8 hp]
      · simp [hp]
    have h5' : seqOld ((reached die s).dieN die).expSeq m.seq = false := by rw [h5]; unfold seqOld; simp
    have h7' : (((reached die s).dieN die).serveNow || m.body.isSync) = true := by rw [Bool.or_eq_true]; exact h7
    dsimp only
    rw [hi]
    dsimp only
    rw [h8', if_neg Bool.false_ne_true, if_neg (by simp [h4]), h2, if_neg Bool.false_ne_true, h5', if_neg Bool.false_ne_true, if_neg (by simp [h5]), h6, h7']
    rfl

/-- A stop that discards no words once what it only passes has gone on, discarded none before. -/
theorem undiscarded {die : Nat} {s : State} (h : ((ringFlow [die] s).dieN die).discarding = false) : (s.dieN die).discarding = false := by
  cases hd : (s.dieN die).discarding with
  | false => rfl
  | true =>
    have e : ringFlow [die] s = s := by
      show skipPassed die ((s.dieN die).inbox.length + 1) s = s
      unfold skipPassed
      rw [hd]; rfl
    rw [e, hd] at h; exact h

/-- A message that arrives is applied by the command that names its type. -/
theorem receive_arrives {s : State} {die : Fin 4} {m : RingMsg} {k : RingMsg → Option (State → State)} {f : State → State} (h : Arrives s die m) (hk : k m = some f) :
    receive die k s = f (taken die m s) := by
  unfold receive
  dsimp only
  rw [if_neg (by rw [undiscarded h.2.1]; exact Bool.false_ne_true), show ringFlow [die.toNat] (ringFlow (upstream die.toNat s) s) = reached die s from rfl, front_arrives h]
  dsimp only
  rw [hk]; rfl

/-- The message at the front of the head's queue is taken by the command that names its type. -/
theorem headReceive_reaches {s : State} {m : RingMsg} {ms : List RingMsg} {k : RingMsg → Option (State → State)} {f : State → State} (h : Reaches s m ms) (hk : k m = some f) :
    headReceive k s = f (takenAtHead m ms s) := by
  unfold headReceive
  dsimp only
  rw [show ringFlow (ringOrder s) s = atHead s from rfl, h.2.2]; dsimp only; rw [h.2.1, hk]; rfl

/-- Taking a message in at the head changes the ring, the fault queue and the standby's ring shadow alone. -/
theorem takenAtHead_only (m : RingMsg) (ms : List RingMsg) (s : State) : Only [.dies, .head, .sby, .fq] s (takenAtHead m ms s) :=
  Only.via (Only.modHead _ _) (by decide) (Only.via (headGap_only _ _) (by decide) (Only.via (ringFlow_only _ _) (by decide) (Only.refl _ _)))
theorem takenAtHead_ks (m : RingMsg) (ms : List RingMsg) (s : State) : (takenAtHead m ms s).ks = s.ks := (takenAtHead_only m ms s).ks_eq (by decide)

theorem inOrder_once {s : State} {sess : Nat} {w : Waiter} {body : Bytes} {k : State → State} (h : AtOnce s w body) : inOrder w body k (asked sess s) = k (asked sess s) := by
  unfold inOrder
  dsimp only
  rw [if_neg]
  intro hh
  obtain ⟨d, hd, hp⟩ := List.any_eq_true.mp hh
  have h1 := h d hd
  have e1 : domReading (asked sess s) d = domReading s d := rfl
  have e2 : (asked sess s).ks.waiting = s.ks.waiting := rfl
  rw [e1, e2, h1.1] at hp
  simp only [Bool.false_or] at hp
  obtain ⟨x, hx, hc⟩ := List.any_eq_true.mp hp
  exact h1.2 x hx (by simpa using hc)
/-- A heard SPDM request is carried out where its place allows it. -/
theorem onSpdm_heard {s : State} {code : Nat} {place : Place} {op : Bool} {sess : Option Nat} {req : Bytes} {k : State → State} (h : Heard s code op sess req)
    (h1 : sess = none → place ≠ .inside) (h2 : sess ≠ none → place ≠ .outside) : onSpdm code place op sess req k s = k (spdmHeard code op sess s) := by
  obtain ⟨_, ha, hc, hv, hs⟩ := h
  unfold onSpdm
  dsimp only
  rw [if_neg (by simp [ha, hc])]
  cases sess with
  | none => dsimp only; rw [if_neg (by simp [hv]), if_neg (h1 rfl)]; rfl
  | some id =>
    obtain ⟨x, e, e1, e2, e3, e4⟩ := hs id rfl
    dsimp only; rw [e]; dsimp only
    rw [if_neg (by simp [e1]), if_neg (by simp [e2]), if_neg (by simp [hv]), if_neg]
    · rfl
    intro hh
    have hp : (place = .outside) = False := eq_false (h2 (by simp))
    cases op
    · simp [hp, e3] at hh
    · have := e4 rfl
      cases hx : x.cred with
      | none => rw [hx] at this; cases this
      | some y => simp [hp, e3, hx] at hh

theorem modGuard_set (s : State) (g : Fin 40) (f : Guard → Guard) : s.modGuard g f = { s with guards := s.guards.set g (f (s.guards.get g)) } := by
  unfold State.modGuard; unfold vmod; rw [dif_pos g.isLt]
theorem modGuard_guardN (s : State) (g : Fin 40) : s.guardN g = s.guards.get g := by unfold State.guardN; rw [dif_pos g.isLt]
theorem vset_set {n : Nat} {α : Type} (v : Vector α n) (i : Fin n) (a b : α) : (v.set i a).set i b = v.set i b := by simp
theorem vset_get {n : Nat} {α : Type} (v : Vector α n) (i : Fin n) (a : α) : (v.set i a).get i = a := by
  show (v.set i.val a i.isLt)[i.val] = a
  simp
theorem modify_set (l : List Bank) (i : Nat) (f : Bank → Bank) (hi : i < l.length) : l.modify i f = l.set i (f (l.getD i {})) := by
  apply List.ext_getElem?
  intro j
  rw [List.getElem?_modify, List.getElem?_set]
  by_cases h : i = j
  · subst h; simp [hi]
  · simp [h]
theorem modDie_set (s : State) (g : Fin 4) (f : Die → Die) : s.modDie g f = { s with dies := s.dies.set g (f (s.dies.get g)) } := by
  unfold State.modDie; unfold vmod; rw [dif_pos g.isLt]
theorem dieN_get (s : State) (g : Fin 4) : s.dieN g = s.dies.get g := by unfold State.dieN; rw [dif_pos g.isLt]
theorem asked_find {s : State} {sess : Nat} {x : Session} (h : s.sess sess = some x) : (asked sess s).sess sess = some { x with heard := s.timer, busy := true } := sess_asked h
theorem isTenant_asked {s : State} {sess : Nat} {x : Session} (h : s.sess sess = some x) (w : Waiter) (d : Nat) (hw : w.sess = sess) : isTenant (asked sess s) w d = isTenant s w d := by
  have : credOf (asked sess s) w = credOf s w := by unfold credOf; rw [hw, asked_find h, h]; rfl
  unfold isTenant; rw [this]; rfl
theorem writeOwned_any {p : Path} {addr : Nat} {own : Bool} {count k : State → State} {s : State} (h : Write s p addr) :
    writeOwned p addr own count k s = accessOk p 0 (if own then k s else count s) := by
  obtain ⟨⟨h1, h2, h3, h4⟩, h5⟩ := h
  unfold writeOwned
  dsimp only
  rw [if_neg (by simp [h1]), if_neg (by simp [h3]), if_neg (by simp [h4]), if_neg (by simp [State.cleared, h2]), if_neg (by simp [h5])]
theorem writeGated_any {p : Path} {addr : Nat} {own : Bool} {count k : State → State} {s : State} (h : Access s p addr) :
    writeGated p addr own count k s = accessOk p 0 (if own then k s else count s) := by
  obtain ⟨h1, h2, h3, h4⟩ := h
  unfold writeGated
  rw [if_neg (by simp [h1]), if_neg (by simp [h3]), if_neg (by simp [h4]), if_neg (by simp [State.cleared, h2])]
theorem vmod_vmod {α : Type} {n : Nat} (v : Vector α n) (i : Nat) (f g : α → α) : vmod (vmod v i f) i g = vmod v i (fun x => g (f x)) := by
  unfold vmod
  by_cases h : i < n
  · rw [dif_pos h, dif_pos h, dif_pos h]
    have e := vset_get v ⟨i, h⟩ (f (v.get ⟨i, h⟩))
    dsimp only at e
    rw [e]
    exact vset_set v ⟨i, h⟩ _ _
  · rw [dif_neg h, dif_neg h, dif_neg h]
theorem modCtx_modCtx (c : Nat) (f g : Ctx → Ctx) (s : State) : modCtx c g (modCtx c f s) = modCtx c (fun x => g (f x)) s := by
  unfold modCtx State.modDig; dsimp only; rw [vmod_vmod]

end Sys2Proof.Machine
end

