-- ==== Sys2Proof/Laws/AskFacts.lean ====
section
/-!
SUPPORT. Requests of connections and sessions.
-/

set_option maxRecDepth 40000

namespace Sys2Proof.Machine
open Sys2Proof

theorem heard_op {s : State} {code : Nat} {op : Bool} {sess : Option Nat} {req : Bytes} {id : Nat} (h : Heard s code op sess req) (hs : sess = some id) :
    ((s.sess id).map Session.operator).getD false = op := by
  obtain ⟨x, e, e1, _⟩ := h.2.2.2.2 id hs
  rw [e]; exact e1
theorem measurement_all (s : State) : ([1, 2, 3, 4, 5, 6].filterMap (fun j => (measurement s j).map (fun b => (j, b)))).length = 6 := by
  simp [measurement]

theorem grantRefused_asked (s : State) (n : Nat) (g : Bytes) : grantRefused (asked n s) g = grantRefused s g := rfl
theorem placement_asked (s : State) (n : Nat) (m : Nat) : placementOf (asked n s) m = placementOf s m := rfl

end Sys2Proof.Machine
end

