-- ==== Sys2Proof/Laws/BootFacts.lean ====
section
/-!
SUPPORT. Booting, the image slots, core resets and the recovery loader.
-/

set_option maxRecDepth 40000

namespace Sys2Proof.Machine
open Sys2Proof

theorem interruptFuse_parts (s : State) : ∃ n f, interruptFuse s = { s with freeCtr := n, fuse := f } := by
  unfold interruptFuse
  split
  · exact ⟨_, _, rfl⟩
  · dsimp only
    split
    · exact ⟨_, _, rfl⟩
    · split
      · exact ⟨_, _, rfl⟩
      · exact ⟨_, _, rfl⟩

theorem romKeys_att (s : State) : (romKeys s).att = { s.att with romDigest := sha3_384 Config.romImage } := by
  unfold romKeys fillPair
  dsimp only
  generalize sha3_384 Config.romImage = r
  rw [(fillSlot_only _ _ _ _).att_eq, (fillSlot_only _ _ _ _).att_eq, (fillSlot_only _ _ _ _).att_eq, (fillSlot_only _ _ _ _).att_eq, (fillSlot_only _ _ _ _).att_eq]
  rfl
theorem romKeys_anchors (s : State) : 
    ((romKeys s).anchor 4).value = kmac256 (deviceSecret s) [] 48 (ascii "KFL-IMAGE-KEY") ∧
    ((romKeys s).anchor 5).value = kmac256 (deviceSecret s) [] 32 (ascii "KFL-BLOB-KEY") ∧
    ((romKeys s).anchor 7).value = kmac256 (deviceSecret s) [] 32 (ascii "KFL-MIRROR-KEY") := by
  unfold romKeys
  dsimp only
  refine ⟨?_, ?_, ?_⟩
  · rw [anchor_fillSlot_ne _ _ _ _ _ (by decide), anchor_fillSlot_ne _ _ _ _ _ (by decide), anchor_fillSlot _ _ _ _ _ (by decide), if_pos rfl]
  · rw [anchor_fillSlot_ne _ _ _ _ _ (by decide), anchor_fillSlot _ _ _ _ _ (by decide), if_pos rfl]
  · rw [anchor_fillSlot _ _ _ _ _ (by decide), if_pos rfl]
theorem commitAt_congr {s t : State} (hf : t.flash = s.flash) (hk : imageKey t = imageKey s) : commitAt t = commitAt s := by
  funext o
  simp only [commitAt, commitTag, slotHeader, flashBytes, hf, hk]
  congr!
theorem commits_congr {s t : State} (hf : t.flash = s.flash) (hk : imageKey t = imageKey s) : commits t = commits s := by
  simp only [commits, commitAt_congr hf hk]
theorem candidates_congr {s t : State} (hf : t.flash = s.flash) (hk : imageKey t = imageKey s) : candidates t = candidates s := by
  simp only [candidates, commits_congr hf hk, fallbacks, slotHeader, flashBytes, hf]
  congr!
theorem slotUsable_congr {s t : State} (hf : t.flash = s.flash) (hk : imageKey t = imageKey s) (hc : cairn t = cairn s) : slotUsable t = slotUsable s := by
  funext b
  simp only [slotUsable, headerOk, belowCairn, blocksOk, slotBody, slotHeader, flashBytes, hf, hk, hc]
  congr!
theorem debugPass_shadows (s : State) : (debugPass s).fuse.shadows = s.fuse.shadows := rfl
theorem cairn_congr {s t : State} (h : t.fuse.shadows = s.fuse.shadows) : cairn t = cairn s := by
  have : cairnBit t = cairnBit s := by funext i; simp only [cairnBit, State.shadow, h]
  unfold cairn; rw [this]
theorem aliasKeys_anchor (svn : Nat) (s : State) (n : Nat) (h : n ≠ 2) (h' : n ≠ 3) (h8 : n ≠ 8) : (aliasKeys svn s).anchor n = s.anchor n := by
  unfold aliasKeys fillPair
  dsimp only
  rw [anchor_fillSlot_ne _ _ _ _ _ h', anchor_fillSlot_ne _ _ _ _ _ h, anchor_fillSlot_ne _ _ _ _ _ h8]
theorem bufLoad_length (d : BitVec 8) (m : List Host.Cell) (o n : Nat) : (bufLoad d m o n).length = n := by
  induction n generalizing o with
  | zero => rfl
  | succ n ih => simp [bufLoad, ih]
theorem slotHeader_length (s : State) (b : Bool) : (slotHeader s b).length = 16384 := bufLoad_length _ _ _ _
theorem romLoad_facts (c : Candidate) (reason : Nat) (s : State) :
    (∀ n, n ≠ 2 → n ≠ 3 → n ≠ 8 → (romLoad c reason s).anchor n = s.anchor n) ∧ (romLoad c reason s).att.romDigest = s.att.romDigest ∧
    (romLoad c reason s).att.bootCount = s.att.bootCount ∧
    (romLoad c reason s).boot.image = imageOf (slotHeader s c.slotB) ∧ (romLoad c reason s).boot.imageBytes.take 16384 = slotHeader s c.slotB ∧
    (romLoad c reason s).att.fwDigest = fwDigestOf (slotHeader s c.slotB) ∧ (romLoad c reason s).boot.handover.slotB = c.slotB ∧
    (romLoad c reason s).boot.handover.kind = BitVec.ofNat 8 c.kind ∧
    (romLoad c reason s).boot.recovery = s.boot.recovery ∧ (romLoad c reason s).ports.devidValid = true ∧
    (romLoad c reason s).ports.devidPub = pairPublic s 0 ∧ (romLoad c reason s).ports.xspiRst = s.ports.xspiRst ∧
    (romLoad c reason s).ports.flashOctal = s.ports.flashOctal := by
  unfold romLoad
  dsimp only
  have hlen : (slotHeader s c.slotB).length = 16384 := slotHeader_length s c.slotB
  generalize slotHeader s c.slotB = h at *
  have ou : Only [.freeCtr, .flash] s (markAttempt c s) := markAttempt_only _ _
  generalize markAttempt c s = u at *
  generalize hw : countWrite u.att.bootCount.toNat u = w
  have ow : Only [.freeCtr, .flash] u w.2 := by subst hw; exact (countWrite_only _ _).mono rfl
  have o1 := ou.trans ow
  clear ow hw
  generalize hv : w.2.modAtt (fun a => { a with fwDigest := fwDigestOf h }) = v
  have va : v.att = { s.att with fwDigest := fwDigestOf h } := by subst hv; show { w.2.att with fwDigest := fwDigestOf h } = _; rw [o1.att_eq]
  have vv : v.vault = s.vault := by subst hv; exact o1.vault_eq
  have vb : v.boot = s.boot := by subst hv; exact o1.boot_eq
  have vp : v.ports = s.ports := by subst hv; exact o1.ports_eq
  clear hv
  have oa := aliasKeys_only (imageOf h).svn v
  have aa := aliasKeys_anchor (imageOf h).svn v
  have vs : ∀ n, v.anchor n = s.anchor n := fun n => anchor_slots (by rw [vv]) n
  generalize aliasKeys (imageOf h).svn v = x at *
  have oc := certify_only (imageOf h).svn x
  have cc : (certify (imageOf h).svn x).ports.devidValid = true ∧ (certify (imageOf h).svn x).ports.devidPub = pairPublic x 0 ∧
     (certify (imageOf h).svn x).att = { x.att with aliasCert := (certify (imageOf h).svn x).att.aliasCert } ∧
     (certify (imageOf h).svn x).ports.xspiRst = x.ports.xspiRst ∧ (certify (imageOf h).svn x).ports.flashOctal = x.ports.flashOctal := by
    unfold certify; dsimp only; generalize pairPublic x 0 = pp; exact ⟨rfl, rfl, rfl, rfl, rfl⟩
  generalize certify (imageOf h).svn x = y at *
  have hp : pairPublic x 0 = pairPublic s 0 := by
    unfold pairPublic
    rw [aa 0 (by decide) (by decide) (by decide), aa (0+1) (by decide) (by decide) (by decide), vs, vs]
  obtain ⟨c1, c2, c3, c4, c5⟩ := cc
  have xp : x.ports = s.ports := oa.ports_eq.trans vp
  have ya : y.att.romDigest = s.att.romDigest ∧ y.att.bootCount = s.att.bootCount ∧ y.att.fwDigest = fwDigestOf h := by
    rw [c3, oa.att_eq, va]; exact ⟨rfl, rfl, rfl⟩
  refine ⟨fun n g2 g3 g8 => ?_, ya.1, ya.2.1, rfl, ?_, ya.2.2, rfl, rfl, ?_, c1, c2.trans hp, c4.trans (congrArg Ports.xspiRst xp), c5.trans (congrArg Ports.flashOctal xp)⟩
  · show y.anchor n = _
    rw [anchor_slots oc.slots_eq, aa n g2 g3 g8, vs]
  · show List.take 16384 (h ++ _) = h
    rw [← hlen]; exact List.take_left' rfl
  · show y.boot.recovery = _
    rw [oc.boot_eq, oa.boot_eq, vb]

theorem bitAt_setBit_self (v : BitVec 4) (i : Nat) (h : i < 4) : bitAt (setBit v i true) i = true := by
  unfold bitAt setBit
  have : i = 0 ∨ i = 1 ∨ i = 2 ∨ i = 3 := by omega
  rcases this with rfl | rfl | rfl | rfl <;> revert v <;> decide
theorem setBit_get (v : BitVec 4) (c : Fin 4) : bitAt (setBit v c.val true) c.val = true := bitAt_setBit_self v c.val c.isLt
/-- R428: generating a boot pair changes no other anchor slot. -/
theorem kexPair_anchor (slot param : Nat) (attr : BitVec 32) (s : State) {m : Nat} (h : m ≠ slot) : (kexPair slot param attr s).2.anchor m = s.anchor m := by
  have hp : ∀ op par an wi (t : State), (pkNow op par an wi t).2.anchor m = t.anchor m := fun op par an wi t => anchor_slots (pkNow_only op par an wi t).slots_eq m
  unfold kexPair
  dsimp only
  split
  · show (stmtNow slot _ _).2.anchor m = _
    rw [anchor_slots (stmtNow_only _ _ _).slots_eq m, anchor_fillSlot_ne _ _ _ _ _ h, hp]
  · exact hp _ _ _ _ _
/-- R428: the boot pairs go into empty slots from 32 on. -/
theorem kexSetup_anchor (s : State) {m : Nat} (h : m < 32 ∨ (s.anchor m).occupied = true) : (kexSetup s).anchor m = s.anchor m := by
  unfold kexSetup
  split
  · rfl
  split
  · rename_i a b l he
    have hin : ∀ x, x ∈ ((List.range 32).map (· + 32)).filter (fun n => !(s.anchor n).occupied) → m ≠ x ∧ x < 64 := by
      intro x hx
      simp only [List.mem_filter, List.mem_map, List.mem_range, Bool.not_eq_true'] at hx
      obtain ⟨⟨y, hy, rfl⟩, ho⟩ := hx
      refine ⟨fun e => ?_, by omega⟩
      subst e
      rcases h with h | h
      · omega
      · rw [h] at ho; cases ho
    obtain ⟨ha, ha'⟩ := hin a (by rw [he]; simp)
    obtain ⟨hb, hb'⟩ := hin b (by rw [he]; simp)
    have h1 := kexPair_anchor a 8 (mkAttr 7 2 1 false false 3) s ha
    generalize kexPair a 8 (mkAttr 7 2 1 false false 3) s = q at *
    obtain ⟨o, t⟩ := q
    cases o with
    | none => dsimp only; rw [anchor_clearSlot _ _ _ ha', if_neg ha]; exact h1
    | some kem =>
      dsimp only
      have h2 := kexPair_anchor b 2 (mkAttr 8 4 1 false false 3) t hb
      generalize kexPair b 2 (mkAttr 8 4 1 false false 3) t = q at *
      obtain ⟨o, u⟩ := q
      cases o with
      | none => dsimp only; rw [anchor_clearSlot _ _ _ hb', if_neg hb, anchor_clearSlot _ _ _ ha', if_neg ha]; exact h2.trans h1
      | some dh => exact h2.trans h1
  · rfl
theorem tail_only (body : Bytes) (x : State) : Only [.freeCtr, .guards, .dies, .head, .ks, .vault, .slots, .pk, .dig, .mower, .att, .tenantBox, .operBox, .ent, .flash, .brup, .fq, .mir, .dma] x
    (settle (kexSetup (resumeBringUp (startService (countKeep (takePlan body x)))))) :=
  Only.via (settle_only _) rfl (Only.via (kexSetup_only _) rfl (Only.via (resumeBringUp_only _) rfl (Only.via (startService_only _) rfl (Only.via (countKeep_only _) rfl (Only.via (takePlan_only _ _) rfl (Only.refl _ _))))))
theorem tail_anchor (body : Bytes) (x : State) {m : Nat} (h : m < 32 ∨ (x.anchor m).occupied = true) :
    (settle (kexSetup (resumeBringUp (startService (countKeep (takePlan body x)))))).anchor m = x.anchor m := by
  have o : Only [.freeCtr, .guards, .dies, .head, .ks, .vault, .mower, .att, .tenantBox, .operBox, .ent, .flash, .brup, .fq, .mir, .dma] x
      (resumeBringUp (startService (countKeep (takePlan body x)))) :=
    Only.via (resumeBringUp_only _) rfl (Only.via (startService_only _) rfl (Only.via (countKeep_only _) rfl (Only.via (takePlan_only _ _) rfl (Only.refl _ _))))
  have e := anchor_slots o.slots_eq m
  rw [anchor_slots (settle_only _).slots_eq, kexSetup_anchor _ (by rw [e]; exact h), e]

theorem coreRuns_of {s : State} {p : Path} {a : Nat} (h : Write s p a) (hp : isCore p = true) : coreRuns s = true := by
  cases p with
  | core c => exact any_of_get _ _ c h.1.2.2.1
  | port d c => cases hp

theorem copyOwn_flash (t : Nat) (s : State) : (copyOwn t s).flash = if slotUsable s (!s.boot.slotB) && t ≤ (imageOf (slotHeader s (!s.boot.slotB))).svn then s.flash
        else (adopt (!s.boot.slotB) (s.boot.imageBytes.take 16384) (s.boot.imageBytes.drop 16384) s).flash := by
  unfold copyOwn; dsimp only; split <;> rfl

theorem scheduleReset_boot (s : State) : (scheduleReset s).boot = { s.boot with resetDue := some (s.timer + 10000) } := by
  unfold scheduleReset onlyIf; split <;> rfl
theorem recFrame_fresh {first : Bool} {seq : BitVec 8} {payload : Bytes} {k : State → State × (Nat × Bytes)} {s : State}
    (ho : s.boot.recovery.opened = true) (hp : payload.length ≤ 4100) (hl : lifeCycle s ≠ 4)
    (hr : first = true ∧ s.boot.recovery.hello = false ∨ s.boot.recovery.lastAnswer = none ∨ seq + 1 ≠ s.boot.recovery.expSeq)
    (hf : first = true ∨ (s.boot.recovery.hello = true ∧ seq = s.boot.recovery.expSeq)) :
    recFrame first seq payload k s = recAnswer seq (k (modRec (fun r => { r with discarding := false }) s)).2 (k (modRec (fun r => { r with discarding := false }) s)).1 := by
  unfold recFrame
  have h1 : ¬ ((!s.boot.recovery.opened) = true ∨ 4100 < payload.length) := by rw [ho]; simp; omega
  have h2 : ¬ lifeCycle (modRec (fun r => { r with discarding := false }) s) = 4 := hl
  rw [if_neg h1]
  dsimp only
  rw [if_neg h2]
  have h3 : (s.boot.recovery.hello && s.boot.recovery.lastAnswer.isSome && seq + 1 == s.boot.recovery.expSeq) = false := by
    rcases hr with ⟨_, h⟩ | h | h
    · rw [h]; rfl
    · rw [h]; simp
    · have h9 : ¬ seq + 1#8 = s.boot.recovery.expSeq := h; simp [h9]
  show (if (s.boot.recovery.hello && s.boot.recovery.lastAnswer.isSome && seq + 1 == s.boot.recovery.expSeq) = true then _ else _) = _
  rw [h3]
  simp only [Bool.false_eq_true, if_false]
  rcases hf with rfl | ⟨h, h'⟩
  · rfl
  · cases first
    · show (if (!s.boot.recovery.hello) = true then _ else if (seq != s.boot.recovery.expSeq) = true then _ else _) = _
      rw [h, h']; simp
    · rfl
theorem recFrame_out {seq : BitVec 8} {payload : Bytes} {k : State → State × (Nat × Bytes)} {s : State}
    (ho : s.boot.recovery.opened = true) (hp : payload.length ≤ 4100) (hl : lifeCycle s ≠ 4) (hh : s.boot.recovery.hello = true)
    (hr : s.boot.recovery.lastAnswer = none ∨ seq + 1 ≠ s.boot.recovery.expSeq) (hf : seq ≠ s.boot.recovery.expSeq) :
    recFrame false seq payload k s = modRec (fun r => { r with discarding := false, tx := r.tx ++ [frameBytes 0x80 seq [0x32, 0, 0, 0]] }) s := by
  unfold recFrame
  have h1 : ¬ ((!s.boot.recovery.opened) = true ∨ 4100 < payload.length) := by rw [ho]; simp; omega
  have h2 : ¬ lifeCycle (modRec (fun r => { r with discarding := false }) s) = 4 := hl
  rw [if_neg h1]
  dsimp only
  rw [if_neg h2]
  have h3 : (s.boot.recovery.hello && s.boot.recovery.lastAnswer.isSome && seq + 1 == s.boot.recovery.expSeq) = false := by
    rcases hr with h | h
    · rw [h]; simp
    · have h9 : ¬ seq + 1#8 = s.boot.recovery.expSeq := h; simp [h9]
  show (if (s.boot.recovery.hello && s.boot.recovery.lastAnswer.isSome && seq + 1 == s.boot.recovery.expSeq) = true then _ else _) = _
  rw [h3]
  simp only [Bool.false_eq_true, if_false]
  show (if (!s.boot.recovery.hello) = true then _ else if (seq != s.boot.recovery.expSeq) = true then _ else _) = _
  have h5 : (seq != s.boot.recovery.expSeq) = true := by simpa using hf
  rw [hh, h5]; rfl
theorem recFrame_again {seq : BitVec 8} {payload : Bytes} {k : State → State × (Nat × Bytes)} {s : State} {a : Bytes}
    (ho : s.boot.recovery.opened = true) (hp : payload.length ≤ 4100) (hl : lifeCycle s ≠ 4) (hh : s.boot.recovery.hello = true)
    (ha : s.boot.recovery.lastAnswer = some a) (hf : seq + 1 = s.boot.recovery.expSeq) :
    recFrame false seq payload k s = modRec (fun r => { r with discarding := false, tx := r.tx ++ [a] }) s := by
  unfold recFrame
  have h1 : ¬ ((!s.boot.recovery.opened) = true ∨ 4100 < payload.length) := by rw [ho]; simp; omega
  have h2 : ¬ lifeCycle (modRec (fun r => { r with discarding := false }) s) = 4 := hl
  rw [if_neg h1]
  dsimp only
  rw [if_neg h2]
  have h3 : (s.boot.recovery.hello && s.boot.recovery.lastAnswer.isSome && seq + 1 == s.boot.recovery.expSeq) = true := by
    rw [hh, ha, hf]; simp
  show (if (s.boot.recovery.hello && s.boot.recovery.lastAnswer.isSome && seq + 1 == s.boot.recovery.expSeq) = true then modRec (fun r => { r with tx := r.tx ++ s.boot.recovery.lastAnswer.toList }) _ else _) = _
  rw [h3, ha]; rfl
theorem recAnswer_facts (seq : BitVec 8) (x : State × (Nat × Bytes)) (hx : x.1.boot.recovery.tx = tx) :
   (recAnswer seq x.2 x.1).boot.recovery.expSeq = seq + 1 ∧ (recAnswer seq x.2 x.1).boot.recovery.lastAnswer = some (frameBytes x.2.1 seq x.2.2) ∧
   (recAnswer seq x.2 x.1).boot.recovery.tx = tx ++ [frameBytes x.2.1 seq x.2.2] := ⟨rfl, rfl, by rw [← hx]; rfl⟩
theorem recAnswer_rec (seq : BitVec 8) (a : Nat × Bytes) (s : State) : (recAnswer seq a s).boot.recovery =
    { s.boot.recovery with expSeq := seq + 1, lastAnswer := some (frameBytes a.1 seq a.2), tx := s.boot.recovery.tx ++ [frameBytes a.1 seq a.2] } := rfl
theorem modRec_rec (f) (s : State) : (modRec f s).boot.recovery = f s.boot.recovery := rfl
theorem commit_tx (flashOk : Bool) (seq : BitVec 8) (payload : Bytes) (s : State) (_h : s.ports.rstCold = false) (u : State) :
   (if payload.length ≠ 4 then (u, resultOf eRange 0)
    else match commitRefused u (fieldLe payload 0 4) with
      | some c => (u, resultOf c 0)
      | none =>
        let h := bufLoad 0 u.boot.recovery.buf 0 16384
        let body := bufLoad 0 u.boot.recovery.buf 16384 (imageOf h).bodyLen
        if !flashOk then (programImage false h body u, resultOf 0x33 0)
        else
          let t := adopt false h body u
          let n := nextCommitSeq t
          ((commitAppend false false (imageOf h).svn t).modBoot (fun b => { b with resetDue := some (u.timer + 10000) }), resultOf eOk n)).1.boot.recovery.tx = u.boot.recovery.tx := by
  split
  · rfl
  · split
    · rfl
    · dsimp only
      generalize bufLoad 0 u.boot.recovery.buf 0 16384 = hd
      generalize bufLoad 0 u.boot.recovery.buf 16384 _ = bd
      have h1 := programImage_only false hd bd u
      have h2 := (adopt_only false hd bd u)
      generalize programImage false hd bd u = w at *
      generalize adopt false hd bd u = x at *
      have h3 := commitAppend_only false false (imageOf hd).svn x
      generalize commitAppend false false (imageOf hd).svn x = y at *
      cases flashOk
      · show w.boot.recovery.tx = _
        rw [h1.boot_eq]
      · show y.boot.recovery.tx = _
        rw [h3.boot_eq, h2.boot_eq]

end Sys2Proof.Machine
end

