-- ==== Sys2Proof/Laws/EngineFacts.lean ====
section
/-!
SUPPORT. Rows of the key vault, the public-key datapaths and the digest contexts.
-/

set_option maxRecDepth 40000

namespace Sys2Proof.Machine
open Sys2Proof

theorem vaultRow_ok {s : State} {p : Path} {v : BitVec 32} {code : Nat} (hw : Write s p (vaultPage + 0x20)) (hg : bitAt v 31 = true) (hc : code = bitsOf v 7 0) :
    vaultRow code p v s = accessOk p 0 (vaultCmdWrite p v s) := by
  unfold vaultRow vaultGo
  rw [hg, ← hc, show (true && code == code) = true from by simp, onlyIf_true, if_neg (by simp [State.cleared, hw.1.2.1]), hw.2, writeOwned_ok hw]

theorem pkRow_ok {s : State} {n : Fin 8} {p : Path} {v : BitVec 32} {op : Nat} (hw : Write s p (pkSlotPage n + 0x20)) (hg : bitAt v 31 = true) (hc : bitsOf v 7 0 = op) :
    pkRow op n p v s = accessOk p 0 (if ownsSlot n p then pkCmdWrite n v s else pkForeign s) := by
  unfold pkRow
  rw [hg, hc, show (true && op == op) = true from by simp, onlyIf_true]
  exact writeOwned_any hw

theorem ctx_get (s : State) (c : Fin 8) : s.ctx c = s.dig.ctxs.get c := by
  unfold State.ctx; simp [Vector.get]

end Sys2Proof.Machine
end

