-- ==== Sys2Proof/Laws/FailFacts.lean ====
section
/-!
SUPPORT. A failing core and the frames of the mirror.
-/

set_option maxRecDepth 40000

namespace Sys2Proof.Machine
open Sys2Proof

theorem declareLost_ready {s : State} (h : s.sby.isReady = true) (h' : s.sby.holdUntil = none) : declareLost s = { s with mir := { s.mir with mirTakeover := true } } := by
  unfold declareLost; rw [h, h']; rfl
theorem declareLost_not {s : State} (h : s.sby.isReady = false ∨ s.sby.holdUntil.isSome = true) : declareLost s = s := by
  unfold declareLost; rw [show (s.sby.isReady && s.sby.holdUntil.isNone) = false from by
    rcases h with h | h
    · simp [h]
    · cases hh : s.sby.holdUntil
      · rw [hh] at h; cases h
      · simp]; rfl
theorem coreFails_eq {code : Nat} {c : Fin 4} {s t : State} (ht : t = digCoreReset c (pkCoreReset c { s with boot := { s.boot with
        cores := vmod s.boot.cores c (fun _ => .failed), wdogArmed := setBit s.boot.wdogArmed c false } })) :
    coreFails code c s = (if (!(c.val == s.boot.bootCore) && ksUp t) then raise true kCore c code (if !(!(c.val == s.boot.bootCore) && ksUp t) && t.mir.ready && !t.mir.site then 0x18 else 8) (bitNat 0 (c.val == s.boot.bootCore)) t
      else if !(!(c.val == s.boot.bootCore) && ksUp t) && t.mir.ready && !t.mir.site then
        (raise true kCore c code (if !(!(c.val == s.boot.bootCore) && ksUp t) && t.mir.ready && !t.mir.site then 0x18 else 8) (bitNat 0 (c.val == s.boot.bootCore)) t).modMir (fun m => { m with mirFail := true })
      else coreReset (raise true kCore c code (if !(!(c.val == s.boot.bootCore) && ksUp t) && t.mir.ready && !t.mir.site then 0x18 else 8) (bitNat 0 (c.val == s.boot.bootCore)) t)) := by
  unfold coreFails
  dsimp only [State.modBoot]
  rw [← ht]

/-- R606, R608, R611: how a frame of a command's own type is taken. -/
theorem standbyFrame_taken {s t : State} {n : Nat} {b : FrameBody} {fs : List Frame} {mine : FrameBody → Bool} {acked : Bool} {wire : Bytes} {k : FrameBody → State → State}
    {f : Standby → Standby} (hs : s.mir.site = false) (hf : s.mir.toStandby = { seq := n, body := b } :: fs) (ht : t = { s with mir := { s.mir with toStandby := fs } })
    (hm : mine b = true) (hk : k b t = { t with sby := f s.sby }) (hx : (f s.sby).txSeq = s.sby.txSeq) :
    (s.sby.alive = false → standbyFrame mine acked wire k s = t) ∧
    (s.sby.alive = true → wire ≠ ({ seq := n, body := b } : Frame).wire 0 s.sby.key ∨ s.sby.session = false →
      standbyFrame mine acked wire k s = standbyFault false kMirror 0 fMirrorAuth 0 n t) ∧
    (s.sby.alive = true → wire = ({ seq := n, body := b } : Frame).wire 0 s.sby.key → s.sby.session = true →
      (acked = false → standbyFrame mine acked wire k s = { t with sby := f s.sby }) ∧
      (acked = true → standbyFrame mine acked wire k s = { t with
        mir := { t.mir with toActive := t.mir.toActive ++ [{ seq := s.sby.txSeq, body := .ack n }] }, sby := { f s.sby with txSeq := s.sby.txSeq + 1 } })) := by
  have e : standbyFrame mine acked wire k s = (if !t.sby.alive then t
      else if wire != ({ seq := n, body := b } : Frame).wire 0 t.sby.key || !t.sby.session then standbyFault false kMirror 0 fMirrorAuth 0 n t
      else
        let s := k b t
        onlyIf acked (fun s =>
          (s.modMir (fun m => { m with toActive := m.toActive ++ [{ seq := s.sby.txSeq, body := .ack n }] })).modSby
            (fun y => { y with txSeq := y.txSeq + 1 })) s) := by
    unfold standbyFrame
    rw [hf]; dsimp only; rw [if_neg (by simp [hs, hm]), ht]; rfl
  have ha : t.sby = s.sby := by rw [ht]
  rw [e]
  refine ⟨fun h => ?_, fun h h' => ?_, fun h h1 h2 => ?_⟩
  · rw [if_pos (by simp [ha, h])]
  · rw [if_neg (by simp [ha, h]), if_pos (by
      rw [ha]
      rcases h' with h' | h'
      · rw [bne_iff_ne.mpr h', Bool.true_or]
      · rw [h', Bool.not_false, Bool.or_true])]
  · rw [if_neg (by simp [ha, h]), if_neg (by rw [ha, h1, h2, bne_self_eq_false]; exact Bool.false_ne_true)]
    dsimp only
    rw [hk]
    refine ⟨fun a => ?_, fun a => ?_⟩
    · rw [a]; rfl
    · rw [a, onlyIf_true]; unfold State.modMir State.modSby; dsimp only; rw [hx]

/-- The same of the command whose row is such a frame. -/
theorem frame_exec {s t : State} {n : Nat} {b : FrameBody} {fs : List Frame} {mine : FrameBody → Bool} {acked : Bool} {wire : Bytes} {k : FrameBody → State → State} {i : Instr}
    {f : Standby → Standby} (he : exec i s = .next (standbyFrame mine acked wire k s)) (hs : s.mir.site = false) (hf : s.mir.toStandby = { seq := n, body := b } :: fs)
    (ht : t = { s with mir := { s.mir with toStandby := fs } })
    (hm : mine b = true) (hk : k b t = { t with sby := f s.sby }) (hx : (f s.sby).txSeq = s.sby.txSeq) :
    (s.sby.alive = false → exec i s = .next t) ∧
    (s.sby.alive = true → wire ≠ ({ seq := n, body := b } : Frame).wire 0 s.sby.key ∨ s.sby.session = false → exec i s = .next (standbyFault false kMirror 0 fMirrorAuth 0 n t)) ∧
    (s.sby.alive = true → wire = ({ seq := n, body := b } : Frame).wire 0 s.sby.key → s.sby.session = true →
      (acked = false → exec i s = .next { t with sby := f s.sby }) ∧
      (acked = true → exec i s = .next { t with
        mir := { t.mir with toActive := t.mir.toActive ++ [{ seq := s.sby.txSeq, body := .ack n }] }, sby := { f s.sby with txSeq := s.sby.txSeq + 1 } })) := by
  have h := standbyFrame_taken (acked := acked) (wire := wire) hs hf ht hm hk hx
  rw [he]
  exact ⟨fun a => congrArg _ (h.1 a), fun a b => congrArg _ (h.2.1 a b), fun a b c => ⟨fun d => congrArg _ ((h.2.2 a b c).1 d), fun d => congrArg _ ((h.2.2 a b c).2 d)⟩⟩

end Sys2Proof.Machine
end

