-- ==== Sys2Proof/Laws/LifeFacts.lean ====
section
/-!
SUPPORT. Fuse words, the tamper latch and the tick.
-/

set_option maxRecDepth 40000

namespace Sys2Proof.Machine
open Sys2Proof

theorem tail_lc (ws : List Nat) (s : State) : Only [.freeCtr, .fuse, .array] s (forEach ws (fun w => burnWord w (if w = 40 then 1 else encodeWord allOnes64) []) s) :=
  Only.forEach (Only.refl _ _) (fun a u hu => Only.via (burnWord_only _ _ _ _) rfl hu)

theorem bit_kept {a b : BitVec 72} (h : a &&& ~~~ b = 0) (i : Nat) (ha : a.getLsbD i = true) : b.getLsbD i = true := by
  have hi : i < 72 := by
    by_contra hn
    rw [BitVec.getLsbD_of_ge a i (by omega)] at ha; cases ha
  have := congrArg (fun v => v.getLsbD i) h
  have hz : (0 : BitVec 72).getLsbD i = false := BitVec.getLsbD_zero
  simp only [BitVec.getLsbD_and, BitVec.getLsbD_not, hi, decide_true, Bool.true_and, hz, ha] at this
  simpa using this
theorem tick_keeps (s : State) : (tick s).tamper = s.tamper ∧ s.timer ≤ (tick s).timer := by
  have h := tick_only s
  refine ⟨h.tamper_eq, ?_⟩
  unfold tick whenUp
  split
  · exact Nat.le_refl _
  have h1 : s.timer ≤ (timerTick s).timer := by
    unfold timerTick
    split
    · exact Nat.le_succ _
    · exact Nat.le_refl _
  refine Nat.le_trans h1 (Nat.le_of_eq ?_)
  have e (o : Bool) (u : State) : (takePosted o u).timer = u.timer := (takePosted_only o u).timer_eq
  have e2 (u : State) : (tmxTick u).timer = u.timer := (tmxTick_only u).timer_eq
  have e3 (o : Bool) (u : State) : (serveMailbox o u).timer = u.timer := (serveMailbox_only o u).timer_eq
  rw [e2, e3, e3, e, e]
theorem tamperSequence_tamper (s : State) : (tamperSequence s).tamper = { s.tamper with latch := true } := by
  unfold tamperSequence
  dsimp only
  rw [(wipeUds_only _).tamper_eq]
  show ({ (endSessions _).tamper with latch := true } : Tamper) = _
  rw [(endSessions_only _).tamper_eq]
  rw [(Only.modGuards _ _).tamper_eq]
  rw [(Only.forEach (ps := [.freeCtr, .guards, .dies, .head, .ks, .vault, .att, .tenantBox, .operBox, .fq, .mower, .mir, .dma]) (Only.refl _ _) (fun g u hu => Only.via (fenceGuard_only _ _ g u) (by decide) hu)).tamper_eq]
  rw [(interruptFuse_only s).tamper_eq]

end Sys2Proof.Machine
end

