-- ==== Sys2Proof/Laws/PathFacts.lean ====
section
/-!
SUPPORT. Register accesses by their path, and the die and guard pages.
-/

set_option maxRecDepth 40000

namespace Sys2Proof.Machine
open Sys2Proof

theorem readAt_ok {s : State} {p : Path} {addr : Nat} (h : Access s p addr) (hm : pageAt addr ≠ some .mower) :
    readAt p addr s = accessOk p (ctlRead s p addr) (readWipe p addr (readLatch p addr (readForeign p addr s))) := by
  obtain ⟨h1, h2, h3, h4⟩ := h
  unfold readAt
  rw [if_neg (by simp [h1]), if_neg (by simp [h3]), if_neg (by simp [h4]), if_neg]
  · unfold readEffects
    rw [if_neg (by simp [State.cleared, h2])]
  · cases hp : pageAt addr with
    | none => simp
    | some pg =>
      rw [hp] at hm
      simp
      intro hh; subst hh; exact absurd rfl hm
theorem regWrite_exec {s : State} {p : Path} {addr : BitVec 24} {v : BitVec 32} (h : addr.toNat % 4 = 0) : exec (.registerWrite p addr v) s = .next (ctlWrite p addr.toNat v s) := by
  show execRegisterWrite p addr v s = _
  unfold execRegisterWrite done
  rw [show (addr.toNat % 4 == 0) = true from by simpa using h, Bool.true_or, onlyIf_true]
theorem guardPages : ∀ g : Fin 40, ∀ o ∈ [0x20, 0x24, 0x28, 0x70, 0x102C, 0x3028, 0x4034], pageAt (guardAddr g o) = some (.guard g (o / 0x1000)) ∧ windowAt (guardAddr g o) = none ∧
    operandAt (guardAddr g o) = none ∧ bufferAt (guardAddr g o) = none ∧ guardAddr g o % 0x1000 = o % 0x1000 ∧ guardAddr g o % 4 = 0 ∧ guardAddr g o < 2 ^ 24 ∧ o % 0x1000 ≠ 8 ∧ o % 0x1000 ≠ 0x14 := by decide
theorem regWrite_guard {s : State} {p : Path} {v : BitVec 32} {g : Fin 40} {o : Nat} (ho : o ∈ [0x20, 0x24, 0x28, 0x70, 0x102C, 0x3028, 0x4034]) :
    exec (.registerWrite p (BitVec.ofNat 24 (guardAddr g o)) v) s = .next (guardPut p g (o / 0x1000) (o % 0x1000) (guardAddr g o) v s) := by
  obtain ⟨h1, h2, h3, h4, h5, h6, h7, h8, h9⟩ := guardPages g o ho
  have hb : (BitVec.ofNat 24 (guardAddr g o)).toNat = guardAddr g o := by rw [BitVec.toNat_ofNat, Nat.mod_eq_of_lt h7]
  rw [regWrite_exec (by rw [hb]; exact h6), hb]
  unfold ctlWrite
  rw [h2, h3, h4, h1]; dsimp only; unfold pagePut
  rw [h5, if_neg (by simp [h8, h9])]
  dsimp only
  rw [dif_pos g.isLt]

theorem recent_at {s : State} {pg : BitVec 12} {b : BitVec 4} {x : Page} {t : State} (hr : s.ports.rstCold = false)
    (h : (match x, b.toNat with
      | .identity, 7 => s.modPorts (fun q => { q with ctlErrRecent := false })
      | .fuse, 2 => s.modFuse (fun f => { f with recheckRecent := false })
      | .bringUp, 3 => s.modBrup (fun f => { f with fpRecent := false })
      | .failover, 1 => s.modMir (fun m => { m with mirrorRecent := false })
      | .failover, 2 => s.modMir (fun m => { m with wdogRecent := false })
      | .vault, 1 => s.modVault (fun v => { v with eccRecent := false })
      | .pkControl, 2 => s.modPk (fun k => { k with compareRecent := false })
      | .digControl, 0 => s.modDig (fun d => { d with splitRecent := false })
      | .entropy, 0 => s.modEnt (fun e => { e with healthRecent := false })
      | .ingest, 0 => s.modIngest (fun u => { u with authRecent := false })
      | .ingest, 9 => s.modIngest (fun u => { u with shareLimited := false })
      | .mower, 1 => s.modMower (fun m => { m with mismatchRecent := false })
      | .mower, 9 => s.modMower (fun m => { m with shareLimited := false })
      | .die d 0, 0 => s.modDie d (fun x => { x with crcRecent := false })
      | .die d 0, 1 => s.modDie d (fun x => { x with seqRecent := false })
      | .guard g 0, 9 => s.modGuard g (fun x => { x with page := { x.page with throttledRecent := false } })
      | .guard g 3, 0 => s.modGuard g (fun x => { x with cache := { x.cache with bindRecent := false } })
      | .guard g 3, 9 => s.modGuard g (fun x => { x with cache := { x.cache with noVictimRecent := false } })
      | _, _ => s) = t) (hp : pageAt (pg.toNat * 0x1000) = some x) : exec (.recentWindowExpiry pg b) s = .next t := by
  show execRecentWindowExpiry pg b s = _
  unfold execRecentWindowExpiry done
  dsimp only
  rw [whenUp_up _ hr, hp]; exact congrArg _ h
theorem diePages : ∀ d : Fin 4, pageAt ((BitVec.ofNat 12 (0x400 + 16 * d)).toNat * 0x1000) = some (.die d 0) := by decide
theorem guardPage0 : ∀ g : Fin 40, pageAt ((BitVec.ofNat 12 (0x800 + 16 * g)).toNat * 0x1000) = some (.guard g 0) := by decide
theorem guardPage3 : ∀ g : Fin 40, pageAt ((BitVec.ofNat 12 (0x803 + 16 * g)).toNat * 0x1000) = some (.guard g 3) := by decide

end Sys2Proof.Machine
end

