-- ==== Sys2Proof/Laws/SiteFacts.lean ====
section
/-!
SUPPORT. Die sections, guards, ring stops and fingerprints.
-/

set_option maxRecDepth 40000

namespace Sys2Proof.Machine
open Sys2Proof

theorem forEach_fence {α : Type} (l : List α) (f : α → State → State) (P : α → Nat → Prop)
    (hm : ∀ a ∈ l, ∀ s h, (s.guardN h).fenced = true → ((f a s).guardN h).fenced = true) (hf : ∀ a ∈ l, ∀ s h, P a h → ((f a s).guardN h).fenced = true)
    (s : State) (h : Nat) (hh : (∃ a ∈ l, P a h) ∨ (s.guardN h).fenced = true) : ((forEach l f s).guardN h).fenced = true := by
  induction l generalizing s with
  | nil => simpa [forEach] using hh
  | cons a l ih =>
    refine ih (fun b hb => hm b (List.mem_cons_of_mem _ hb)) (fun b hb => hf b (List.mem_cons_of_mem _ hb)) (f a s) ?_
    rcases hh with ⟨b, hb, hp⟩ | hh
    · rcases List.mem_cons.mp hb with rfl | hb
      · exact .inr (hf _ List.mem_cons_self _ _ hp)
      · exact .inl ⟨b, hb, hp⟩
    · exact .inr (hm _ List.mem_cons_self _ _ hh)
theorem guardsOf_lt {d g : Nat} (hd : d < 4) (hg : g ∈ guardsOf d) : g < 40 := by
  unfold guardsOf at hg; simp at hg; omega
theorem mem_guardsOf {g : Nat} : g ∈ guardsOf (g / 10) := by
  unfold guardsOf; simp; exact ⟨g % 10, by omega, by omega⟩
theorem compareFp_facts (seq : BitVec 16) (ref : BitVec 32) (s : State) : (compareFp seq ref s).brup.fpSample = s.brup.fpSample ∧ (compareFp seq ref s).brup.fpValid = true ∧ (compareFp seq ref s).brup.fpMismatched ≤ 40 ∧
      ∀ g : Fin 40, (((s.dieN (g / 10)).fpPend = true ∧ (s.dieN (g / 10)).inReset = false) ∨
          (s.brup.fpSnap.get g ≠ 0 ∧ s.brup.fpSnap.get g ≠ ref)) → ((compareFp seq ref s).guardN g).fenced = true := by
  unfold compareFp fpLate
  dsimp only
  generalize hl : List.filter (fun d => (s.dieN d).fpPend && !(s.dieN d).inReset) (List.range 4) = late
  generalize hb : List.filter (fun g => !late.contains (g / 10) && s.brup.fpSnap.toList.getD g 0 != 0 && s.brup.fpSnap.toList.getD g 0 != ref) allGuards = bad
  have hlate : ∀ d ∈ late, d < 4 := by intro d hd; rw [← hl] at hd; simp at hd; exact hd.1
  have hbad : ∀ g ∈ bad, g < 40 := by intro d hd; rw [← hb] at hd; simp [allGuards] at hd; exact hd.1
  have hlen : (List.filter (fun g => bad.contains g || late.contains (g / 10)) allGuards).length ≤ 40 := (List.length_filter_le _ _).trans (by decide)
  generalize List.filter (fun g => bad.contains g || late.contains (g / 10)) allGuards = all at *
  generalize hu1 : forEach late (fun d t => raise true kDie d fFpNoLatch 0x21 seq.toNat (fenceAll true (guardsOf d) t)) s = u1
  generalize hu2 : forEach bad (fpMismatch ref) u1 = u2
  have e : ∀ v : State, (settle v).brup = v.brup := fun v => (settle_only v).brup_eq
  have e' : ∀ v : State, (settle v).guards = v.guards := fun v => (settle_only v).guards_eq
  have hb1 : u1.brup = s.brup := by
    rw [← hu1]
    exact (Only.forEach (ps := [.guards, .dies, .ks, .mower, .fq]) (Only.refl _ _) (fun d u hu =>
      Only.via (raise_only _ _ _ _ _ _ _) (by decide) (Only.via (fenceAll_only _ _ _) (by decide) hu))).brup_eq (by decide)
  have hb2 : u2.brup = u1.brup := by
    rw [← hu2]
    exact (Only.forEach (ps := [.guards, .dies, .ks, .mower, .fq]) (Only.refl _ _) (fun d u hu => Only.via (fpMismatch_only _ _ _) (by decide) hu)).brup_eq (by decide)
  refine ⟨by rw [e]; show u2.brup.fpSample = _; rw [hb2, hb1], by rw [e]; rfl, by rw [e]; exact hlen, fun g hg => ?_⟩
  rw [guardN_guards (e' _)]
  show (u2.guardN g).fenced = true
  have hr : ∀ (a b c d e : Nat) (x : Bool) (v : State) (h : Nat), ((raise x a b c d e v).guardN h) = v.guardN h := by
    intro a b c d e x v h; exact guardN_guards (raise_only _ _ _ _ _ _ _).guards_eq h
  rw [← hu2]
  refine forEach_fence bad (fpMismatch ref) (fun a h => a = h) ?_ ?_ _ _ ?_
  · intro a _ v h hv
    unfold fpMismatch; dsimp only; rw [hr]
    by_cases ha : a < 40
    · exact fenceGuard_mono _ _ _ _ _ ha hv
    · by_cases hah : h = a
      · subst hah; unfold State.guardN at hv; rw [dif_neg ha] at hv; cases hv
      · rw [fenceGuard_ne _ _ _ _ _ hah]; exact hv
  · intro a ha v h hh
    subst hh
    unfold fpMismatch; dsimp only; rw [hr]
    exact fenceGuard_fenced _ _ _ _ (hbad _ ha)
  · by_cases hgl : (g.val / 10) ∈ late
    · right
      rw [← hu1]
      refine forEach_fence late _ (fun d h => d < 4 ∧ h ∈ guardsOf d) ?_ ?_ _ _ (.inl ⟨_, hgl, hlate _ hgl, mem_guardsOf⟩)
      · intro a ha v h hv
        rw [hr]
        exact fenceAll_fenced _ _ _ (fun g hg => guardsOf_lt (hlate _ ha) hg) _ (.inr hv)
      · intro a ha v h hh
        rw [hr]
        exact fenceAll_fenced _ _ _ (fun g hg => guardsOf_lt hh.1 hg) _ (.inl hh.2)
    · left
      refine ⟨g, ?_, rfl⟩
      rw [← hb]
      simp only [List.mem_filter, Bool.and_eq_true, Bool.not_eq_true', List.contains_eq_mem, decide_eq_false_iff_not, bne_iff_ne, ne_eq]
      rcases hg with hg | hg
      · exfalso; apply hgl; rw [← hl]; simp only [List.mem_filter, List.mem_range, Bool.and_eq_true, Bool.not_eq_true']
        exact ⟨by omega, hg.1, hg.2⟩
      · have e9 : s.brup.fpSnap.toList.getD g.val 0 = s.brup.fpSnap.get g := by simp [Vector.get]
        rw [e9]
        refine ⟨by simp [allGuards], ⟨hgl, hg.1⟩, hg.2⟩

theorem shares_uniq (v w : BitVec 32) (h : ∀ i < 4, bitsOf w (8 * i + 7) (8 * i) = Nat.min (bitsOf v (8 * i + 7) (8 * i)) 100) : w = capShares v := by
  have h0 := h 0 (by omega); have h1 := h 1 (by omega); have h2 := h 2 (by omega); have h3 := h 3 (by omega)
  apply BitVec.eq_of_toNat_eq
  have hw := w.isLt
  unfold capShares capShare
  rw [BitVec.toNat_ofNat]
  simp only [Nat.mul_zero, Nat.zero_add, Nat.mul_one, Nat.reduceMul, Nat.reduceAdd] at h0 h1 h2 h3
  rw [← h0, ← h1, ← h2, ← h3]
  unfold bitsOf
  simp only [Nat.reduceAdd, Nat.reduceSub, Nat.reducePow, Nat.div_one]
  omega

/-- R645: a stop that is discarding words loses the message it takes in. -/
theorem receive_discard {s t : State} {die : Fin 4} {k : RingMsg → Option (State → State)} (ht : t = ringFlow (upstream die s) s)
    (h : (t.dies.get die).discarding = true) (m ms) (hi : (t.dies.get die).inbox = m :: ms) :
    receive die k s = { t with dies := t.dies.set die { t.dies.get die with inbox := ms } } := by
  unfold receive
  dsimp only
  rw [show ringFlow (upstream die.toNat s) s = t from ht.symm, show (t.dieN die.toNat).discarding = true from (dieN_get t die).symm ▸ h, if_pos rfl]
  refine (modDie_set t die _).trans ?_
  rw [hi]; rfl
/-- R184: a head message whose SEQ is beyond the one expected is a gap. -/
theorem receive_gap {s t : State} {die : Fin 4} {k : RingMsg → Option (State → State)} {m ms} (ht : t = reached die s)
    (h : (t.dies.get die).discarding = false) (h2 : (t.dies.get die).inReset = false) (hh : (8 ≤ (t.dies.get die).passing → hasInsert die t = false))
    (hi : (t.dies.get die).inbox = m :: ms) (hs : m.src = 0xFE) (hn : m.seq ≠ (t.dies.get die).expSeq) (hg : 2 ^ 15 ≤ ((t.dies.get die).expSeq - m.seq).toNat) :
    receive die k s = ringGap die m t := by
  have e : t.dieN die.toNat = t.dies.get die := dieN_get t die
  have hf : ringFront die.toNat t = .gap m := by
    unfold ringFront
    rw [e]
    dsimp only
    rw [hi]
    dsimp only
    have h8 : (decide (8 ≤ (t.dies.get die).passing) && hasInsert die.toNat t) = false := by
      by_cases hp : 8 ≤ (t.dies.get die).passing
      · rw [show hasInsert die.toNat t = false from hh hp, Bool.and_false]
      · simp [hp]
    have h5 : seqOld (t.dies.get die).expSeq m.seq = false := by
      unfold seqOld
      rw [decide_eq_false (by omega), Bool.and_false]
    rw [h8, if_neg Bool.false_ne_true, if_neg (by simp [hs]), h2, if_neg Bool.false_ne_true, h5, if_neg Bool.false_ne_true, if_pos (by simp [hn])]
  unfold receive
  dsimp only
  have hu : ((ringFlow (upstream die.toNat s) s).dieN die.toNat).discarding = false :=
    undiscarded (show ((reached die s).dieN die.toNat).discarding = false from by rw [← ht, e]; exact h)
  rw [if_neg (by rw [hu]; exact Bool.false_ne_true), show ringFlow [die.toNat] (ringFlow (upstream die.toNat s) s) = t from ht.symm, hf]
  rfl
theorem rowsGo {s : State} {die : Fin 4} {c : Instr} (hr : s.ports.rstCold = false) (v : State) (h : ∀ k, receive die k s = v)
    (hc : c ∈ [Instr.keyFill die, .keyNone die, .rotate die, .retire die, .streamSet die, .readerSet die, .tableSync die, .pulse die, .sweepCmd die,
         .sweepAbort die]) : exec c s = .next v := by
  simp only [List.mem_cons, List.not_mem_nil, or_false] at hc
  rcases hc with rfl | rfl | rfl | rfl | rfl | rfl | rfl | rfl | rfl | rfl
  · show execKeyFill die s = _; unfold execKeyFill done; rw [whenUp_up _ hr, h]
  · show execKeyNone die s = _; unfold execKeyNone done; rw [whenUp_up _ hr, h]
  · show execRotate die s = _; unfold execRotate done; rw [whenUp_up _ hr, h]
  · show execRetire die s = _; unfold execRetire done; rw [whenUp_up _ hr, h]
  · show execStreamSet die s = _; unfold execStreamSet done; rw [whenUp_up _ hr, h]
  · show execReaderSet die s = _; unfold execReaderSet done; rw [whenUp_up _ hr, h]
  · show execTableSync die s = _; unfold execTableSync done; rw [whenUp_up _ hr, h]
  · show execPulse die s = _; unfold execPulse done; rw [whenUp_up _ hr, h]
  · show execSweepCmd die s = _; unfold execSweepCmd done; rw [whenUp_up _ hr, h]
  · show execSweepAbort die s = _; unfold execSweepAbort done; rw [whenUp_up _ hr, h]
theorem applyUpdate_cases (die : Fin 4) (op : BitVec 32) (r : Bool) (f : Die → Die) (u : State) :
    ((u.dies.get die).applied op = some true → applyUpdate die op r f u = (stopSend die (.ack op (stopUnit die) true) u)) ∧
    ((u.dies.get die).applied op = some false → applyUpdate die op r f u = u) ∧
    ((u.dies.get die).applied op = none → (withdrawIn die (u.dies.get die) (u.modDie die f)).1 = [] → applyUpdate die op r f u = (stopSend die (.ack op (stopUnit die) false)
      ((withdrawIn die (u.dies.get die) (u.modDie die f)).2.modDie die (fun d => { d with ops := d.ops ++ [(op, true)] })))) ∧
    ((u.dies.get die).applied op = none → (withdrawIn die (u.dies.get die) (u.modDie die f)).1 ≠ [] → applyUpdate die op r f u =
      ((withdrawIn die (u.dies.get die) (u.modDie die f)).2.modDie die (fun d => { d with
        ops := d.ops ++ [(op, false)]
        withdraws := d.withdraws ++ [{ opId := op, waits := (withdrawIn die (u.dies.get die) (u.modDie die f)).1, reader := r }] }))) := by
  have e : u.dieN die = u.dies.get die := dieN_get u die
  refine ⟨fun h => ?_, fun h => ?_, fun h h' => ?_, fun h h' => ?_⟩
  · unfold applyUpdate; rw [e, h]
  · unfold applyUpdate; rw [e, h]
  · unfold applyUpdate; rw [e, h]; dsimp only; rw [h']; simp
  · unfold applyUpdate; rw [e, h]; dsimp only
    generalize withdrawIn die (u.dies.get die) (u.modDie die f) = w at *
    have : w.1.isEmpty = false := by cases hw : w.1 with
      | nil => exact absurd hw h'
      | cons a l => rfl
    rw [this]
    simp only [Bool.false_eq_true, if_false, modDie_set, vset_get, vset_set]

theorem power_fall {s v w : State} {d : Fin 4} (hr : s.ports.rstCold = false) (hv : v = s.modDie d (fun x => { x with coreGood := false }))
    (hw : w = settle (fenceAll true (allGuards.filter (fun g => (v.dieN (g / 10)).guardGood)) { v with ports := { v.ports with broken := true } })) :
    exec (.corePowerFall d) s = .next (if d.toNat = w.activeDie then (freshCore (endWork w)).modBoot (fun b => { b with cores := Vector.replicate 4 .reset })
      else onlyIf (d.toNat == 2) (State.modSby (fun _ => {})) w) := by
  show execCorePowerFall d s = _
  unfold execCorePowerFall done
  rw [whenUp_up _ hr]
  subst hw; subst hv; rfl

end Sys2Proof.Machine
end

