-- ==== Sys2Proof/Laws/Timer.lean ====
section
/-!
SUPPORT. The block timer never turns back but at a cold reset: what every operation that touches it leaves it at.
-/

set_option maxRecDepth 40000

namespace Sys2Proof.Machine
open Sys2Proof

structure Later (b t : State) : Prop where
  le : b.timer ≤ t.timer
theorem Later.refl (s : State) : Later s s := ⟨Nat.le_refl _⟩
theorem Later.via {Q : List Part} {b u t : State} (h' : Only Q u t) (hq : Q.all (fun p => decide (p ≠ .timer)) = true) (h : Later b u) : Later b t := by
  refine ⟨?_⟩
  rw [h'.timer_eq (fun hm => by have := List.all_eq_true.mp hq _ hm; simp at this)]
  exact h.le
theorem Later.trans {b u t : State} (h2 : Later u t) (h1 : Later b u) : Later b t := ⟨Nat.le_trans h1.le h2.le⟩
theorem Later.reach {b u : State} {n : Nat} (h : Later b u) : Later b (reachTime n u) := ⟨Nat.le_trans h.le (Nat.le_max_right n u.timer)⟩
theorem Later.whenUp {b s : State} {k : State → State} (h : Later b s) (hk : ∀ u, Later b u → Later b (k u)) : Later b (whenUp s k) := by
  unfold Machine.whenUp
  split
  · exact h
  · exact hk _ h
theorem Later.onlyIf {b s : State} {c : Bool} {k : State → State} (h : Later b s) (hk : ∀ u, Later b u → Later b (k u)) : Later b (onlyIf c k s) := by
  cases c
  · exact h
  · exact hk _ h
theorem Later.forEach {b s : State} {α : Type} {l : List α} {f : α → State → State} (h : Later b s) (hf : ∀ a u, Later b u → Later b (f a u)) : Later b (forEach l f s) := by
  induction l generalizing s with
  | nil => exact h
  | cons a l ih => exact ih (hf a _ h)
theorem flashUp_later (octal : Bool) (s : State) : Later s (flashUp octal s) := by
  unfold flashUp
  try dsimp only
  repeat' first
    | with_reducible exact Later.refl _
    | with_reducible assumption
    | exact (rfl : (_ : Bool) = true)
    | exact fun _ => rfl
    | intro _
    | split
    | with_reducible apply Later.reach
    | with_reducible apply Later.via (Q := [.ports]) (Only.modPorts _ _)

theorem romFlow_later (octal : Bool) (s : State) : Later s (romFlow octal s) := by
  unfold romFlow
  try dsimp only
  repeat' first
    | with_reducible exact Later.refl _
    | with_reducible assumption
    | exact (rfl : (_ : Bool) = true)
    | exact fun _ => rfl
    | intro _
    | split
    | with_reducible apply Later.via (Q := [.fuse]) (debugPass_only _)
    | with_reducible apply Later.trans (flashUp_later _ _)
    | with_reducible apply Later.via (Q := [.boot]) (openRecovery_only _ _)
    | with_reducible apply Later.via (Q := [.vault, .slots, .att, .fuse]) (romKeys_only _)
    | with_reducible apply Later.via (Q := [.freeCtr, .vault, .slots, .att, .boot, .flash, .ports]) (romLoad_only _ _ _)
    | with_reducible apply Later.via (Q := [.att]) (Only.modAtt _ _)

theorem execRomBoot_later (octal : Bool) (s : State) : ∃ t, execRomBoot octal s = .next t ∧ Later s t := by
  refine ⟨_, rfl, ?_⟩
  try dsimp only
  repeat' first
    | with_reducible exact Later.refl _
    | with_reducible assumption
    | exact (rfl : (_ : Bool) = true)
    | exact fun _ => rfl
    | intro _
    | split
    | with_reducible apply Later.via (Q := []) (done_only _)
    | with_reducible apply Later.onlyIf
    | with_reducible apply Later.via (Q := [.boot]) (openRecovery_only _ _)
    | with_reducible apply Later.trans (romFlow_later _ _)
    | with_reducible apply Later.whenUp
    | with_reducible apply Later.via (Q := [.att]) (Only.modAtt _ _)

theorem execDelayedCoreReset_later (s : State) : ∃ t, execDelayedCoreReset s = .next t ∧ Later s t := by
  refine ⟨_, rfl, ?_⟩
  try dsimp only
  repeat' first
    | with_reducible exact Later.refl _
    | with_reducible assumption
    | exact (rfl : (_ : Bool) = true)
    | exact fun _ => rfl
    | intro _
    | split
    | with_reducible apply Later.via (Q := [.freeCtr, .guards, .dies, .head, .ks, .vault, .slots, .pk, .dig, .ent, .ingest, .mower, .att, .tenantBox, .operBox, .boot, .fuse, .array, .brup, .fq, .mir, .dma, .ports]) (coreReset_only _)
    | with_reducible apply Later.via (Q := []) (done_only _)
    | with_reducible apply Later.reach
    | with_reducible apply Later.whenUp

theorem execReleaseTimeout_later (line : Fin 64) (s : State) : ∃ t, execReleaseTimeout line s = .next t ∧ Later s t := by
  refine ⟨_, rfl, ?_⟩
  try dsimp only
  repeat' first
    | with_reducible exact Later.refl _
    | with_reducible assumption
    | exact (rfl : (_ : Bool) = true)
    | exact fun _ => rfl
    | intro _
    | split
    | with_reducible apply Later.via (Q := [.freeCtr, .guards, .dies, .head, .ks, .vault, .mower, .att, .tenantBox, .operBox, .brup, .fq, .mir, .dma]) (bringOn_only _)
    | with_reducible apply Later.via (Q := []) (done_only _)
    | with_reducible apply Later.reach
    | with_reducible apply Later.via (Q := [.guards, .dies, .head, .ks, .vault, .mower, .att, .tenantBox, .operBox, .brup, .fq, .mir]) (timeOutLine_only _ _ _)
    | with_reducible apply Later.whenUp

theorem execFpNoLatch_later (s : State) : ∃ t, execFpNoLatch s = .next t ∧ Later s t := by
  refine ⟨_, rfl, ?_⟩
  try dsimp only
  repeat' first
    | with_reducible exact Later.refl _
    | with_reducible assumption
    | exact (rfl : (_ : Bool) = true)
    | exact fun _ => rfl
    | intro _
    | split
    | with_reducible apply Later.via (Q := [.guards, .dies, .head, .ks, .vault, .mower, .att, .tenantBox, .operBox, .brup, .fq, .mir]) (compareFp_only _ _ _)
    | with_reducible apply Later.via (Q := []) (done_only _)
    | with_reducible apply Later.reach
    | with_reducible apply Later.whenUp

theorem execKeyReqResend_later (g : Fin 40) (slot : Nat) (s : State) : ∃ t, execKeyReqResend g slot s = .next t ∧ Later s t := by
  refine ⟨_, rfl, ?_⟩
  try dsimp only
  repeat' first
    | with_reducible exact Later.refl _
    | with_reducible assumption
    | exact (rfl : (_ : Bool) = true)
    | exact fun _ => rfl
    | intro _
    | split
    | with_reducible apply Later.via (Q := [.guards, .dies]) (askAgain_only _ _ _)
    | with_reducible apply Later.via (Q := []) (done_only _)
    | with_reducible apply Later.reach
    | with_reducible apply Later.whenUp

theorem execBroadcastResend_later (opId : BitVec 32) (sync : Bool) (s : State) : ∃ t, execBroadcastResend opId sync s = .next t ∧ Later s t := by
  refine ⟨_, rfl, ?_⟩
  try dsimp only
  repeat' first
    | with_reducible exact Later.refl _
    | with_reducible assumption
    | exact (rfl : (_ : Bool) = true)
    | exact fun _ => rfl
    | intro _
    | split
    | with_reducible apply Later.via (Q := []) (done_only _)
    | with_reducible apply Later.forEach
    | with_reducible apply Later.via (Q := [.dies, .head]) (headAll_only _ _)
    | with_reducible apply Later.via (Q := [.ks]) (modOp_only _ _ _ _)
    | with_reducible apply Later.reach
    | with_reducible apply Later.via (Q := [.dies, .head, .ks]) (sendSync_only _ _ _ _)
    | with_reducible apply Later.whenUp

theorem execAckTimeout_later (opId : BitVec 32) (sync : Bool) (s : State) : ∃ t, execAckTimeout opId sync s = .next t ∧ Later s t := by
  refine ⟨_, rfl, ?_⟩
  try dsimp only
  repeat' first
    | with_reducible exact Later.refl _
    | with_reducible assumption
    | exact (rfl : (_ : Bool) = true)
    | exact fun _ => rfl
    | intro _
    | split
    | with_reducible apply Later.via (Q := []) (done_only _)
    | with_reducible apply Later.via (Q := [.guards, .dies, .ks, .mower]) (fenceGuard_only _ _ _ _)
    | with_reducible apply Later.forEach
    | with_reducible apply Later.via (Q := [.ks]) (modOp_only _ _ _ _)
    | with_reducible apply Later.via (Q := [.fq]) (raise_only _ _ _ _ _ _ _)
    | with_reducible apply Later.reach
    | with_reducible apply Later.via (Q := [.dies, .head, .ks, .vault, .mower, .att, .tenantBox, .operBox, .fq, .mir]) (settle_only _)
    | with_reducible apply Later.via (Q := [.guards, .dies, .ks, .mower, .fq]) (stopTimeout_only _ _ _ _ _)
    | with_reducible apply Later.via (Q := [.dies, .head, .ks]) (synced_only _ _)
    | with_reducible apply Later.whenUp
    | with_reducible apply Later.via (Q := [.dies]) (Only.modDie _ _ _)

theorem execHybFinishTimeout_later (sess : Nat) (s : State) : ∃ t, execHybFinishTimeout sess s = .next t ∧ Later s t := by
  refine ⟨_, rfl, ?_⟩
  try dsimp only
  repeat' first
    | with_reducible exact Later.refl _
    | with_reducible assumption
    | exact (rfl : (_ : Bool) = true)
    | exact fun _ => rfl
    | intro _
    | split
    | with_reducible apply Later.via (Q := []) (done_only _)
    | with_reducible apply Later.via (Q := [.att]) (endSess_only _ _)
    | with_reducible apply Later.reach
    | with_reducible apply Later.whenUp

theorem execSessionIdleTimeout_later (sess : Nat) (s : State) : ∃ t, execSessionIdleTimeout sess s = .next t ∧ Later s t := by
  refine ⟨_, rfl, ?_⟩
  try dsimp only
  repeat' first
    | with_reducible exact Later.refl _
    | with_reducible assumption
    | exact (rfl : (_ : Bool) = true)
    | exact fun _ => rfl
    | intro _
    | split
    | with_reducible apply Later.via (Q := []) (done_only _)
    | with_reducible apply Later.via (Q := [.att]) (endSess_only _ _)
    | with_reducible apply Later.reach
    | with_reducible apply Later.whenUp

theorem execQuoteBatchClose_later (s : State) : ∃ t, execQuoteBatchClose s = .next t ∧ Later s t := by
  refine ⟨_, rfl, ?_⟩
  try dsimp only
  repeat' first
    | with_reducible exact Later.refl _
    | with_reducible assumption
    | exact (rfl : (_ : Bool) = true)
    | exact fun _ => rfl
    | intro _
    | split
    | with_reducible apply Later.via (Q := [.freeCtr, .pk, .att, .tenantBox, .operBox, .mir]) (closeBatch_only _)
    | with_reducible apply Later.via (Q := []) (done_only _)
    | with_reducible apply Later.onlyIf
    | with_reducible apply Later.reach
    | with_reducible apply Later.whenUp

theorem execLkAckTimeout_later (s : State) : ∃ t, execLkAckTimeout s = .next t ∧ Later s t := by
  refine ⟨_, rfl, ?_⟩
  try dsimp only
  repeat' first
    | with_reducible exact Later.refl _
    | with_reducible assumption
    | exact (rfl : (_ : Bool) = true)
    | exact fun _ => rfl
    | intro _
    | split
    | with_reducible apply Later.via (Q := []) (done_only _)
    | with_reducible apply Later.via (Q := [.att, .tenantBox, .operBox, .ports]) (failLink_only _)
    | with_reducible apply Later.onlyIf
    | with_reducible apply Later.reach
    | with_reducible apply Later.whenUp

theorem execBundleKeyLapse_later (model : BitVec 13) (s : State) : ∃ t, execBundleKeyLapse model s = .next t ∧ Later s t := by
  refine ⟨_, rfl, ?_⟩
  try dsimp only
  repeat' first
    | with_reducible exact Later.refl _
    | with_reducible assumption
    | exact (rfl : (_ : Bool) = true)
    | exact fun _ => rfl
    | intro _
    | split
    | with_reducible apply Later.via (Q := [.dies, .head, .ks, .att, .tenantBox, .operBox, .mir]) (commit_only _ _ _ _)
    | with_reducible apply Later.via (Q := []) (done_only _)
    | with_reducible apply Later.via (Q := [.ks]) (modModel_only _ _ _)
    | with_reducible apply Later.reach
    | with_reducible apply Later.whenUp
    | with_reducible apply Later.via (Q := [.vault]) (wipeBundle_only _ _)
    | with_reducible apply Later.via (Q := [.ingest]) (Only.modIngest _ _)

theorem execEShort_later (c : Fin 8) (s : State) : ∃ t, execEShort c s = .next t ∧ Later s t := by
  refine ⟨_, rfl, ?_⟩
  try dsimp only
  repeat' first
    | with_reducible exact Later.refl _
    | with_reducible assumption
    | exact (rfl : (_ : Bool) = true)
    | exact fun _ => rfl
    | intro _
    | split
    | with_reducible apply Later.via (Q := [.freeCtr, .dig, .dma]) (ctxEnd_only _ _ _)
    | with_reducible apply Later.via (Q := []) (done_only _)
    | with_reducible apply Later.onlyIf
    | with_reducible apply Later.reach
    | with_reducible apply Later.whenUp
    | with_reducible apply Later.via (Q := [.dig]) (Only.modDig _ _)

theorem execWatchdog_later (standby : Bool) (c : Fin 4) (s : State) : ∃ t, execWatchdog standby c s = .next t ∧ Later s t := by
  refine ⟨_, rfl, ?_⟩
  try dsimp only
  repeat' first
    | with_reducible exact Later.refl _
    | with_reducible assumption
    | exact (rfl : (_ : Bool) = true)
    | exact fun _ => rfl
    | intro _
    | split
    | with_reducible apply Later.via (Q := [.freeCtr, .guards, .dies, .head, .ks, .vault, .slots, .pk, .dig, .ent, .ingest, .mower, .att, .tenantBox, .operBox, .boot, .fuse, .array, .brup, .fq, .mir, .dma, .ports]) (coreFails_only _ _ _)
    | with_reducible apply Later.via (Q := []) (done_only _)
    | with_reducible apply Later.onlyIf
    | with_reducible apply Later.reach
    | with_reducible apply Later.via (Q := [.sby]) (standbyCoreFails_only _ _ _)
    | with_reducible apply Later.whenUp
    | with_reducible apply Later.via (Q := [.boot]) (Only.modBoot _ _)
    | with_reducible apply Later.via (Q := [.mir]) (Only.modMir _ _)

theorem execHeartbeatInterval_later (s : State) : ∃ t, execHeartbeatInterval s = .next t ∧ Later s t := by
  refine ⟨_, rfl, ?_⟩
  try dsimp only
  repeat' first
    | with_reducible exact Later.refl _
    | with_reducible assumption
    | exact (rfl : (_ : Bool) = true)
    | exact fun _ => rfl
    | intro _
    | split
    | with_reducible apply Later.via (Q := []) (done_only _)
    | with_reducible apply Later.onlyIf
    | with_reducible apply Later.reach
    | with_reducible apply Later.whenUp
    | with_reducible apply Later.via (Q := [.mir]) (Only.modMir _ _)

theorem execHoldExpiry_later (s : State) : ∃ t, execHoldExpiry s = .next t ∧ Later s t := by
  refine ⟨_, rfl, ?_⟩
  try dsimp only
  repeat' first
    | with_reducible exact Later.refl _
    | with_reducible assumption
    | exact (rfl : (_ : Bool) = true)
    | exact fun _ => rfl
    | intro _
    | split
    | with_reducible apply Later.via (Q := []) (done_only _)
    | with_reducible apply Later.reach
    | with_reducible apply Later.whenUp
    | with_reducible apply Later.via (Q := [.mir]) (Only.modMir _ _)
    | with_reducible apply Later.via (Q := [.sby]) (Only.modSby _ _)

theorem execMirrorAckTimeout_later (s : State) : ∃ t, execMirrorAckTimeout s = .next t ∧ Later s t := by
  refine ⟨_, rfl, ?_⟩
  try dsimp only
  repeat' first
    | with_reducible exact Later.refl _
    | with_reducible assumption
    | exact (rfl : (_ : Bool) = true)
    | exact fun _ => rfl
    | intro _
    | split
    | with_reducible apply Later.via (Q := []) (done_only _)
    | with_reducible apply Later.via (Q := [.dies, .head, .ks, .vault, .mower, .att, .tenantBox, .operBox, .fq, .mir]) (loseStandby_only _ _)
    | with_reducible apply Later.reach
    | with_reducible apply Later.whenUp
    | with_reducible apply Later.via (Q := [.mir]) (Only.modMir _ _)

theorem execStandbyLost_later (s : State) : ∃ t, execStandbyLost s = .next t ∧ Later s t := by
  refine ⟨_, rfl, ?_⟩
  try dsimp only
  repeat' first
    | with_reducible exact Later.refl _
    | with_reducible assumption
    | exact (rfl : (_ : Bool) = true)
    | exact fun _ => rfl
    | intro _
    | split
    | with_reducible apply Later.via (Q := []) (done_only _)
    | with_reducible apply Later.via (Q := [.dies, .head, .ks, .vault, .mower, .att, .tenantBox, .operBox, .fq, .mir]) (loseStandby_only _ _)
    | with_reducible apply Later.onlyIf
    | with_reducible apply Later.reach
    | with_reducible apply Later.whenUp

theorem execMirrorResync_later (s : State) : ∃ t, execMirrorResync s = .next t ∧ Later s t := by
  refine ⟨_, rfl, ?_⟩
  try dsimp only
  repeat' first
    | with_reducible exact Later.refl _
    | with_reducible assumption
    | exact (rfl : (_ : Bool) = true)
    | exact fun _ => rfl
    | intro _
    | split
    | with_reducible apply Later.via (Q := [.freeCtr, .dies, .head, .ks, .vault, .ent, .mower, .att, .tenantBox, .operBox, .fq, .mir, .sby]) (beginSession_only _)
    | with_reducible apply Later.via (Q := []) (done_only _)
    | with_reducible apply Later.onlyIf
    | with_reducible apply Later.via (Q := [.fq]) (raise_only _ _ _ _ _ _ _)
    | with_reducible apply Later.reach
    | with_reducible apply Later.whenUp
    | with_reducible apply Later.via (Q := [.mir]) (Only.modMir _ _)

theorem execActiveCoreLost_later (s : State) : ∃ t, execActiveCoreLost s = .next t ∧ Later s t := by
  refine ⟨_, rfl, ?_⟩
  try dsimp only
  repeat' first
    | with_reducible exact Later.refl _
    | with_reducible assumption
    | exact (rfl : (_ : Bool) = true)
    | exact fun _ => rfl
    | intro _
    | split
    | with_reducible apply Later.via (Q := [.mir]) (declareLost_only _)
    | with_reducible apply Later.via (Q := []) (done_only _)
    | with_reducible apply Later.onlyIf
    | with_reducible apply Later.reach
    | with_reducible apply Later.whenUp

theorem execCtlTimeout_later (p : Path) (addr : BitVec 24) (_write : Bool) (s : State) : ∃ t, execCtlTimeout p addr _write s = .next t ∧ Later s t := by
  refine ⟨_, rfl, ?_⟩
  try dsimp only
  repeat' first
    | with_reducible exact Later.refl _
    | with_reducible assumption
    | exact (rfl : (_ : Bool) = true)
    | exact fun _ => rfl
    | intro _
    | split
    | with_reducible apply Later.via (Q := [.ports]) (accessError_only _ _)
    | with_reducible apply Later.via (Q := []) (done_only _)
    | with_reducible apply Later.onlyIf
    | with_reducible apply Later.via (Q := [.fq]) (raise_only _ _ _ _ _ _ _)
    | with_reducible apply Later.reach
    | with_reducible apply Later.whenUp
    | with_reducible apply Later.via (Q := [.ports]) (Only.modPorts _ _)

end Sys2Proof.Machine
end

