-- ==== Sys2Proof/WellFormed.lean ====
section
/-!
DEFINITION. Which commands the ports of the block can carry: the ranges of operands whose types are wider than the field they stand for.
The meanings are total: of an ill-formed command nothing is claimed.
-/

namespace Sys2Proof
namespace WellFormed

/-- R26, R634: a stack guard's ports have twelve slices, a tier-2 guard's one. -/
def sliceOk (g : Fin 40) (slice : Nat) : Bool := slice < (if g.toNat % 10 < 6 then 12 else 1)

/-- R17, R26: a stack guard has eight banks, a tier-2 guard one. -/
def bankOk (g : Fin 40) (bank : Nat) : Bool := bank < (if g.toNat % 10 < 6 then 8 else 1)

/-- R17: a bank has nine lane positions. -/
def laneOk (lane : Nat) : Bool := lane < 9

/-- R600: the stages that LANE_PARITY reports are 1 to 14. -/
def stageOk (stage : BitVec 4) : Bool := stage != 0 && stage != 15

/-- R425: no message is larger than MaxSPDMmsgSize. -/
def bodyOk (body : Bytes) : Bool := body.length ≤ 16384

/-- R505: a frame's payload has at most 4,100 bytes. -/
def payloadOk (payload : Bytes) : Bool := payload.length ≤ 4100

/-- R626: an access that names a register has bits [1:0] of its address zero. -/
def addrOk (addr : BitVec 24) : Bool := addr.toNat % 4 == 0

/-- Whether a command is one that the ports can carry. -/
def instr : Instr → Bool
  | .coldReset => true
  | .coldResetRelease => true
  | .fuseSensingDone _ => true
  | .bootValid _ => true
  | .romBoot _ => true
  | .bootHandover _ _ => true
  | .bootRelease _ _ => true
  | .finalised _ _ => true
  | .bootCtlCoreReset _ _ => true
  | .delayedCoreReset => true
  | .securityCoreReset => true
  | .cairnRaise _ _ => true
  | .cairnRaiseEnd _ => true
  | .imageUpdate _ _ body => bodyOk body
  | .imageAdopted _ => true
  | .recoveryHello _ payload => payloadOk payload
  | .recoveryWrite _ payload => payloadOk payload
  | .recoveryCommit _ payload _ => payloadOk payload
  | .recoveryAbort _ payload => payloadOk payload
  | .recoveryReservedFrame _ _ payload => payloadOk payload
  | .fuseProgram _ _ => true
  | .fuseSeal _ _ => true
  | .lockWrite _ _ => true
  | .lockRead _ _ => true
  | .revoke _ _ => true
  | .fuseOperationEnd _ => true
  | .fuseResense _ => true
  | .lcToProvision _ _ => true
  | .lcToMission _ _ => true
  | .lcToDecommissioned _ _ => true
  | .lcTransitionEffect => true
  | .lcDebugArm _ _ => true
  | .debugUnlock _ _ body => bodyOk body
  | .decommission _ _ body => bodyOk body
  | .tmxCtl _ _ => true
  | .phaseAdvance => true
  | .packageVerified => true
  | .relUp _ => true
  | .relUpFall _ => true
  | .releaseTimeout _ => true
  | .sealSweepEnd _ => true
  | .bankTestPass g bank => bankOk g bank
  | .unitSelfTestPass _ => true
  | .pop _ _ => true
  | .unrecorded _ _ => true
  | .guardReset _ _ body => bodyOk body
  | .sectionReset _ _ body => bodyOk body
  | .guardFence _ _ body => bodyOk body
  | .unitHold _ _ body => bodyOk body
  | .unitRelease _ _ body => bodyOk body
  | .coreReset _ _ body => bodyOk body
  | .fpSample _ _ => true
  | .fingerprintCompare => true
  | .fpNoLatch => true
  | .fingerprintSampleInterval => true
  | .upstreamRequest g slice _ _ _ _ _ => sliceOk g slice
  | .writeDataBeat g slice _ _ _ _ => sliceOk g slice
  | .downstreamRequestIssue _ _ => true
  | .downstreamReadResponse _ _ _ _ _ => true
  | .downstreamWriteAck _ _ _ => true
  | .upstreamResponse g slice => sliceOk g slice
  | .laneParity g bank lane stage _ => bankOk g bank && laneOk lane && stageOk stage
  | .knownAnswerInjection g bank lane _ _ => bankOk g bank && laneOk lane
  | .guardKatInject _ _ _ _ _ => true
  | .spareSubstitution g bank => bankOk g bank
  | .fence _ _ _ => true
  | .guardThrottle _ _ _ => true
  | .throttleInterval _ => true
  | .guardLaneShare _ _ _ => true
  | .guardErrClear _ _ _ => true
  | .guardTagfailClear _ _ _ => true
  | .memoryPortClockStopped _ => true
  | .memoryPortClockRunning _ => true
  | .keyReqResend _ _ => true
  | .stopInsert _ => true
  | .keyReq => true
  | .keyServiceAnswer ecc => decide (ecc.toNat < 3)
  | .keyFill _ => true
  | .keyNone _ => true
  | .deferredFillInstall _ => true
  | .kcPin _ _ _ => true
  | .kcUnpin _ _ _ => true
  | .pinReservationTake _ => true
  | .kcQuery _ _ _ => true
  | .bindScrub _ => true
  | .guardMissClear _ _ _ => true
  | .rotate _ => true
  | .retire _ => true
  | .retiringEntryDrop _ => true
  | .retireDequeue => true
  | .ack => true
  | .broadcastResend _ _ => true
  | .ackTimeout _ _ => true
  | .streamSet _ => true
  | .readerSet _ => true
  | .withdrawalDrained _ => true
  | .tableSync _ => true
  | .pulseInterval => true
  | .pulse _ => true
  | .ringErr => true
  | .headMessageReturn wire => wire.length ≤ 148
  | .regionListRead => true
  | .descriptorSend => true
  | .sweepCmd _ => true
  | .sweepLine _ _ _ _ _ => true
  | .domainSweepLine _ _ => true
  | .sweepDone => true
  | .sweepAbort _ => true
  | .teardownDrainEnd _ => true
  | .domainCreate _ _ body => bodyOk body
  | .operatorDomainTeardown _ _ body => bodyOk body
  | .streamPropose _ _ body => bodyOk body
  | .streamWithdraw _ _ body => bodyOk body
  | .operatorStreamUnbind _ _ body => bodyOk body
  | .regionList _ _ body => bodyOk body
  | .ingestStart _ _ body => bodyOk body
  | .linkAssign _ _ body => bodyOk body
  | .telemetryRead _ _ body => bodyOk body
  | .setShares _ _ body => bodyOk body
  | .pinMsg _ _ body => bodyOk body
  | .unpinMsg _ _ body => bodyOk body
  | .quoteBlock _ _ body => bodyOk body
  | .getVersion _ _ req => bodyOk req
  | .getCapabilities _ _ req => bodyOk req
  | .negotiateAlgorithms _ _ req => bodyOk req
  | .getDigests _ _ req => bodyOk req
  | .getCertificate _ _ req => bodyOk req
  | .challenge _ _ req => bodyOk req
  | .getMeasurements _ _ req => bodyOk req
  | .chunkSend _ _ req => bodyOk req
  | .chunkGet _ _ req => bodyOk req
  | .spdmHeartbeat _ req => bodyOk req
  | .keyUpdate _ req => bodyOk req
  | .endSession _ req => bodyOk req
  | .unsupportedRequest _ _ req => bodyOk req
  | .kexKeys _ _ body => bodyOk body
  | .hybKex _ _ body => bodyOk body
  | .hybFinish _ _ body => bodyOk body
  | .hybFinishTimeout _ => true
  | .sessionIdleTimeout _ => true
  | .credProve _ _ body => bodyOk body
  | .quote _ _ body => bodyOk body
  | .quoteBatchClose => true
  | .domainSeed _ _ body => bodyOk body
  | .streamConfirm _ _ body => bodyOk body
  | .tenantStreamUnbind _ _ body => bodyOk body
  | .tenantDomainTeardown _ _ body => bodyOk body
  | .linkKey _ _ body => bodyOk body
  | .lkAck _ => true
  | .lkAckTimeout => true
  | .linkReport _ _ _ _ => true
  | .measureFull _ _ body => bodyOk body
  | .measurePartial _ _ body => bodyOk body
  | .measureIncremental _ _ body => bodyOk body
  | .keptRelease _ _ body => bodyOk body
  | .eventPoll _ _ body => bodyOk body
  | .bundleKey _ _ body => bodyOk body
  | .readerGrantAdd _ _ body => bodyOk body
  | .readerGrantRemove _ _ body => bodyOk body
  | .readerGrantRevoke _ _ body => bodyOk body
  | .bundleKeyLapse _ => true
  | .ingestJobStart => true
  | .ingestHeaderRead _ => true
  | .ingestChunk _ _ => true
  | .ingestManifest _ => true
  | .ingestAbort _ _ => true
  | .measurementJobStart => true
  | .mowerReadIssue _ => true
  | .mowerNodeHashed => true
  | .mowerLaneKat _ _ => true
  | .mowerAbort _ _ => true
  | .vaultGenerate _ _ => true
  | .vaultGeneratePair _ _ => true
  | .vaultDerive _ _ => true
  | .vaultImport _ _ => true
  | .vaultExport _ _ => true
  | .save _ _ => true
  | .restore _ _ => true
  | .clear _ _ => true
  | .statement _ _ => true
  | .tamperAssertion _ _ => true
  | .tamperZeroizeDone _ => true
  | .pkSign _ _ _ => true
  | .pkVerify _ _ _ => true
  | .pkKeygen _ _ _ => true
  | .pkPublic _ _ _ => true
  | .pkDerive _ _ _ => true
  | .pkEncaps _ _ _ => true
  | .pkDecaps _ _ _ => true
  | .pkCheckCurve _ _ _ => true
  | .pkJobStart _ => true
  | .pkValidationBoundary _ _ => true
  | .pkCheckpoint => true
  | .pkJobEnd _ _ => true
  | .pkAbort _ _ _ => true
  | .pkAbortComplete _ => true
  | .pkScrub _ _ _ => true
  | .fcMode _ _ => true
  | .pkSelftest _ _ => true
  | .pkSelftestEnd _ _ => true
  | .pkPeriodicKat _ _ => true
  | .pkDatapath _ _ => true
  | .claim _ _ _ => true
  | .ctxOpen _ _ _ => true
  | .ctxFinish _ _ _ => true
  | .ctxClose _ _ _ => true
  | .ctxAbort _ _ _ => true
  | .ctxExport _ _ _ => true
  | .ctxImport _ _ _ => true
  | .digCtxData _ _ _ => true
  | .dmaFeed _ _ _ => true
  | .digestBlock _ => true
  | .eShort _ => true
  | .digDiscard _ _ _ => true
  | .digSelftest _ _ => true
  | .compare _ _ _ => true
  | .compareResult _ _ => true
  | .noiseSample _ => true
  | .drbgInstantiate _ => true
  | .reseed _ _ => true
  | .drbgRequest => true
  | .entDraw _ _ _ => true
  | .drawOutRead _ addr => addrOk addr
  | .loWordRead _ addr => addrOk addr
  | .lockstep _ _ => true
  | .watchdog _ _ => true
  | .foWdog _ _ => true
  | .fqPop _ _ => true
  | .clearOvf _ _ => true
  | .heartbeatInterval => true
  | .mirrorHello => true
  | .mirrorHeartbeat _ => true
  | .store _ => true
  | .modelFrame _ => true
  | .readers _ => true
  | .counters _ => true
  | .image _ => true
  | .hold _ => true
  | .holdExpiry => true
  | .status _ => true
  | .mirrorAck _ => true
  | .mirrorAckTimeout => true
  | .standbyLost => true
  | .mirrorResync => true
  | .activeCoreLost => true
  | .mirFail => true
  | .mirTakeover => true
  | .registerWrite _ addr _ => addrOk addr
  | .ctlTimeout _ addr _ => addrOk addr
  | .dmaResponse _ _ _ => true
  | .mailboxPost _ _ _ => true
  | .taken _ _ _ => true
  | .guardPowerFall _ => true
  | .guardPowerGood _ => true
  | .corePowerFall _ => true
  | .startTimeFinding _ _ _ => true
  | .damagedMessage _ wire => wire.length ≤ 148
  | .idleWord _ => true
  | .damagedFrame => true
  | .recentWindowExpiry _ _ => true
  | .powerLimit _ => true

end WellFormed
end Sys2Proof
end

