-- ==== Sys2Proof/Tests/Slice0.lean ====
section
/-!
SUPPORT. The model's own tests: states and operands that meet the hypotheses of each statement, clause by clause (the theorems wit_…), then well-formedness
refuses ill-formed commands and single steps give what the rules give (the theorems test_…). Where a hypothesis asks for a
signature that verifies, a key exchange or a wrapped key that opens, no term shows it that the kernel evaluates in reasonable time; the witness then meets the
hypotheses around it.
-/

namespace Sys2Proof.Tests
set_option Elab.async false
open Sys2Proof Sys2Proof.Machine

/-- The block out of cold reset, with firmware running on core 0. -/
def up : State :=
  { State.reset with
    ports := { State.reset.ports with rstCold := false, aonUp := true, pairDone := true },
    boot := { State.reset.boot with bootValid := true, cores := #v[.running, .halted, .halted, .halted] },
    dies := State.reset.dies.map (fun d => { d with inReset := false, laneRun := true, coreGood := true, guardGood := true }),
    fuse := { State.reset.fuse with sensed := true } }

/-- `up` with core 1 running the key service too, and the head attached. -/
def upKs : State :=
  { up with boot := { up.boot with cores := #v[.running, .running, .halted, .halted] }, head := { up.head with attached := true } }

/-- The path of core 0. -/
def c0 : Path := .core 0

/-- The other control port: the end at die 0 in the secure class. -/
def port0 : Path := .port 0 1

/-- A proven tenant session and an operator session. -/
def ten : Session := { id := 65536, finished := true, cred := some [1] }

/-- An operator session. -/
def opr : Session := { id := 65536, operator := true, finished := true, cred := some [1] }

/-- A state with one session. -/
def withSess (x : Session) (s : State) : State := { s with att := { s.att with sessions := [x] } }

/-- The shadows of a part with the given words programmed whole. -/
def burnt (ws : List Nat) (s : State) : State :=
  { s with fuse := { s.fuse with shadows := ws.map (fun w => { word := w, value := BitVec.allOnes 64, programmed := true }) } }

/-! ### Boot, fuses and life cycle -/

theorem wit_coldResetRelease : State.reset.ports.rstCold = true ∧ ∀ d : Fin 4, (State.reset.dies.get d).coreGood = true ∧ (State.reset.dies.get d).guardGood = true := by
  decide +kernel

/-- The block before its fuses have been sensed. -/
def unsensed : State := { up with fuse := {}, dies := up.dies.map (fun d => { d with laneRun := false }) }

theorem wit_sensing : unsensed.ports.rstCold = false ∧ unsensed.ports.aonUp = true ∧ unsensed.fuse.sensed = false ∧ unsensed.tamper.latch = false ∧
    (∃ c : Fin 4, unsensed.boot.cores.get c ≠ .reset) ∧ ∀ d, (unsensed.dies.get d).laneRun = false := by decide +kernel

/-- The block with its cores waiting for BOOT_VALID. -/
def waiting : State := { up with boot := { up.boot with bootValid := false, cores := Vector.replicate 4 .romWait } }

theorem wit_bootValid : waiting.ports.rstCold = false ∧ waiting.fuse.sensed = true ∧ waiting.boot.bootValid = false ∧ (∀ k, waiting.boot.cores.get k = .romWait) ∧
    [1, 3] = (List.range 4).filter (fun k => bitAt (10#4) k && !marked waiting 3 k && !bitAt waiting.boot.excluded k) := by decide +kernel

/-- The block with its boot core in the ROM. -/
def inRom : State := { up with boot := { up.boot with cores := #v[.rom, .halted, .halted, .halted] } }

theorem wit_romBoot : inRom.ports.rstCold = false ∧ inRom.tamper.latch = false ∧ inRom.boot.bootValid = true ∧ inRom.boot.handover.kind = 0 ∧
    inRom.boot.recovery.opened = false ∧ inRom.boot.cores.toList.getD inRom.boot.bootCore .reset = .rom ∧
    lifeCycle inRom ≠ 4 ∧ inRom.fuse.fatal = false ∧ ({ inRom with fuse := { inRom.fuse with fatal := true } } : State).fuse.fatal = true ∧ lifeCycle (burnt [34] inRom) = 4 ∧ 
    (candidates (romKeys inRom)).find? (fun c => slotUsable (romKeys inRom) c.slotB) = none := by decide +kernel

/-- The ROM has left a handover record for slot A. -/
def handing : State := { up with boot := { up.boot with handover := { kind := 2, attempt := 1 }, image := { entry := 0x1000 } } }

theorem wit_bootHandover : Write handing (.core 0) (bootPage + 0x38) ∧ (0 : Fin 4).val = handing.boot.bootCore ∧ handing.boot.romLocked = false ∧
    handing.boot.handover.kind ≠ 0 ∧ (0x1000 : BitVec 32) = handing.boot.image.entry := by unfold Write Access; decide +kernel

theorem wit_bootPage : Write up c0 (bootPage + 0x30) ∧ Write up c0 (bootPage + 0x3C) ∧ isCore c0 = true ∧ bitAt (1#32) 0 = true ∧ bitAt (1#32) 1 = false ∧
    bitAt (2#32) 1 = true ∧ bitAt (2#32) 0 = false := by unfold Write Access; decide +kernel

theorem wit_coreReset : up.ports.rstCold = false ∧ up.tamper.latch = false ∧ ({ up with boot := { up.boot with resetDue := some 7 } } : State).boot.resetDue = some 7 := by
  decide +kernel

/-- Final firmware of security version 3 in a provisioned part. -/
def final : State := burnt [32] { up with boot := { up.boot with finalised := true, runSvn := 3 } }

theorem wit_cairnRaise : Write final c0 (bootPage + 0x40) ∧ isCore c0 = true ∧ bitAt (0x80000003#32) 31 = true ∧ final.boot.cairnBusy = false ∧
    raiseRefused final (bitsOf (0x80000003#32) 7 0) = none ∧ raiseRefused final (bitsOf (0x80000004#32) 7 0) = some eRange ∧
    raiseRefused final (bitsOf (0x80000000#32) 7 0) = some eRange ∧ raiseRefused up (bitsOf (0x80000001#32) 7 0) = some eState := by
  unfold Write Access; decide +kernel

/-- A cairn raise to 3 that runs. -/
def raising : State := { final with fuse := { final.fuse with op := some (.cairn 3) } }

theorem wit_cairnRaiseEnd : raising.ports.rstCold = false ∧ raising.fuse.op = some (.cairn 3) ∧ cairnWeak raising 2 = true := by decide +kernel

/-- The body of a BRINGUP_ACTION: unit, argument and action. -/
def act (action unit arg : Nat) : Bytes := leBytes 2 action ++ leBytes 2 unit ++ leBytes 4 arg

theorem wit_acts : ∀ a ∈ [1, 2, 3, 4, 5, 6, 0x40, 0x50, 0x51], Acts (withSess opr up) 65536 (act a 0 0) a := by
  have h : ∀ a ∈ [1, 2, 3, 4, 5, 6, 0x40, 0x50, 0x51], (act a 0 0).length = 8 ∧ actionOf (act a 0 0) = a := by decide +kernel
  exact fun a ha => ⟨(h a ha).1, (h a ha).2, opr, by unfold Asks; decide +kernel⟩

/-- A plan in which line 5 belongs to phase 2 and names guard 3 and link 9. -/
def planned (s : State) : State := { s with brup := { s.brup with phase := 2, plan := [{ line := 5, memory := true, target := 3 }, { line := 5, link := true, target := 9 }] } }

theorem wit_actions : (actionArg (act 2 8192 0) = 0 ∧ actionUnit (act 2 8192 0) % 8192 = 0 ∧ actionUnit (act 2 8192 0) < 4 * 8192) ∧
    guardActionRefused (act 1 512 0) = none ∧ guardActionRefused (act 1 5120 0) = some eReserved ∧
    (actionUnit (act 4 0 63) = 0 ∧ actionArg (act 4 0 63) < 64 ∧ up.mir.site = false) ∧
    (actionArg (act 5 0 5) < 64 ∧ lineEntries (planned up) (actionArg (act 5 0 5)) ≠ [] ∧ ((planned up).line (actionArg (act 5 0 5))).run = false ∧
      (lineEntry (planned up) (actionArg (act 5 0 5))).phase ≤ (planned up).brup.phase ∧ (planned up).mir.site = false) ∧
    (actionUnit (act 6 1 0) ≠ 0 ∧ actionArg (act 6 0 1) ≠ 0 ∧ actionArg (act 6 0 0) = 0) := by decide +kernel

theorem wit_updates : (withSess opr up).boot.updateBusy = false ∧ actionUnit (act 0x40 0 9) = 0 ∧
    ({ up with boot := { up.boot with updateBusy := true } } : State).boot.updateBusy = true ∧
    ∃ u : Update, ({ up with boot := { up.boot with update := some { image := [1] } } } : State).boot.update = some u ∧ u.image ≠ [] :=
  ⟨rfl, by decide +kernel, rfl, _, rfl, by decide +kernel⟩

/-- FUSE_DATA holds a value. -/
def withData : State := { up with fuse := { up.fuse with data := 5 } }

theorem wit_fuseCmd : Write up c0 (fusePage + 0x20) ∧ isCore c0 = true ∧ bitAt (0x80000002#32) 31 = true ∧
    (∀ n ∈ [1, 2, 3, 4, 5], bitsOf (0x80000000#32 ||| BitVec.ofNat 32 n) 3 0 = n) ∧
    fuseRefused withData 0x80006401#32 = none ∧ fuseRefused up 0x80006401#32 = some eRange ∧ fuseRefused withData 0x8000640F#32 = some eReserved := by
  unfold Write Access; decide +kernel

/-- A FUSE_CMD that programs word 64. -/
def burning : State := { up with fuse := { up.fuse with op := some (.program 64 5) } }

theorem wit_fuseEnd : burning.fuse.op = some (.program 64 5) ∧ (∀ a b, (FuseOp.program 64 5) ≠ .transition a b) ∧
    ((FuseOp.program 64 5).target burning).isSome = true ∧ up.tamper.latch = false ∧ up.fuse.sensed = true ∧ up.fuse.op = none :=
  ⟨rfl, fun _ _ h => FuseOp.noConfusion h, rfl, rfl, rfl, rfl⟩

theorem wit_fuseEndMask : failedMask 64 (encodeWord 5) [] = 0 ∧ failedMask 64 (encodeWord 5) [(64, 0)] ≠ 0 := by decide +kernel

theorem wit_lcCmd : Write up c0 (fusePage + 0x48) ∧ isCore c0 = true ∧ (∀ n ∈ [2, 3, 4], bitsOf (0x80000000#32 ||| BitVec.ofNat 32 n) 7 0 = n) ∧
    lcWords up 2 = .error 0x37 ∧ lcWords up 3 = .error eState ∧ lcWords up 4 = .ok [34] ∧ lcWords (burnt [34] up) 4 = .error eState := by
  unfold Write Access; decide +kernel

theorem wit_lcEffect : ∀ t ∈ [(2 : BitVec 8), 3, 4],
    ({ up with fuse := { up.fuse with op := some (.transition t [32]) } } : State).fuse.op = some (.transition t [32]) := by decide +kernel

theorem wit_decommission : actionArg (act 0x51 0 0) = (dieId up).toNat % 2 ^ 32 ∧ actionArg (act 0x51 0 1) ≠ (dieId up).toNat % 2 ^ 32 ∧
    actionUnit (act 0x51 0 1) = 0 ∧ up.fuse.op = none ∧ (∀ c, lcWords up 4 ≠ .error c) := by
  refine ⟨by decide +kernel, by decide +kernel, by decide +kernel, rfl, fun c h => ?_⟩
  have e : lcWords up 4 = .ok [34] := by decide +kernel
  rw [e] at h; cases h

theorem wit_debug : Write up c0 (fusePage + 0x58) ∧ Write up c0 (fusePage + 0x5C) ∧ isCore c0 = true ∧ bitAt (1#32) 0 = true ∧ actionUnit (act 0x50 0 7) = 0 ∧
    tmxPins { up with fuse := { up.fuse with tmxEnable := true, tmxData := 7 } } ≠ 0 := by unfold Write Access; decide +kernel

/-- The recovery loader is open and has taken a HELLO of sequence number 0. -/
def loader : State := { up with boot := { up.boot with recovery := { opened := true, hello := true, expSeq := 1 } } }

/-- A WRITE of the last 4,096 bytes of the buffer. -/
def lastWrite : Bytes := leBytes 4 0x7FF000 ++ zeros 4096

theorem wit_recovery : loader.ports.rstCold = false ∧ loader.boot.recovery.opened = true ∧ lifeCycle loader ≠ 4 ∧ loader.boot.recovery.hello = true ∧
    loader.boot.recovery.lastAnswer = none ∧ (1 : BitVec 8) = loader.boot.recovery.expSeq ∧ (2 : BitVec 8) ≠ loader.boot.recovery.expSeq ∧
    (modRec (fun r => { r with lastAnswer := some [1] }) loader).boot.recovery.lastAnswer = some [1] ∧
    (0 : BitVec 8) + 1 = (modRec (fun r => { r with lastAnswer := some [1] }) loader).boot.recovery.expSeq ∧
    4 < lastWrite.length ∧ lastWrite.length ≤ 4100 ∧ fieldLe lastWrite 0 4 % 4096 = 0 ∧ fieldLe lastWrite 0 4 + (lastWrite.length - 4) ≤ 0x800000 := by decide +kernel

/-! ### Bring-up and partial reset -/

/-- The bring-up part of a state. -/
def brupOf (f : BringUp → BringUp) (s : State) : State := { s with brup := f s.brup }

theorem wit_phase : up.ports.rstCold = false ∧ ksUp up = true ∧ up.brup.halted = false ∧ up.mir.site = false ∧
    phaseEnded (brupOf (fun b => { b with phase := 1 }) up) = true := by decide +kernel

/-- The package of line 5 has been read whole: nothing is left in flight. -/
def packaged : State :=
  { brupOf (fun b => { b with package := some (5, 0), nodeKeyId := [1] }) up with
    dma := { up.dma with works := [(0, .package 5, 0, 64)], issued := [(0, 1)], lines := [(0, 0, 0)] } }

theorem wit_package : packaged.ports.rstCold = false ∧ packaged.brup.package = some (5, 0) ∧ dmaWhole packaged 0 = true := by decide +kernel

/-- Line 5 as given, in phase 2, whose line it is. -/
def lined (l : Line) : State := planned (brupOf (fun b => { b with lines := b.lines.set 5 l }) up)

theorem wit_lines : up.tamper.latch = false ∧
    ((lined { run := true }).mir.site = false ∧ ((lined { run := true }).line 5).run = true ∧ ((lined { run := true }).line 5).acked = false ∧
      ((lined { run := true }).line 5).timedOut = false ∧ (lineEntry (lined { run := true }) 5).phase = 2) ∧
    ((lined {}).line 5).run = false ∧ (((lined { run := true, up := true }).line 5).run = true ∧ ((lined { run := true, up := true }).line 5).up = true) ∧
    (failLine 5 1 (lined { run := true })).brup.phase = 2 ∧
    (failLine 5 1 (brupOf (fun b => { b with phase := 3 }) (lined { run := true }))).brup.phase ≠ 2 := by decide +kernel

/-- Guard 0 in service, with a change of it. -/
def inGuard (f : Guard → Guard) (s : State) : State :=
  { s with guards := s.guards.set 0 (f { (s.guards.get 0) with
      inReset := false, service := .serving, banks := List.replicate 8 { active := 0xFF, tested := true } }) }

theorem wit_sealEnd : ∃ k : Entry, (inGuard (fun x => { x with service := .sweeping, sweep := { x.sweep with sealNext := some 9, key := some k } }) up).ports.rstCold = false ∧
    ((inGuard (fun x => { x with service := .sweeping, sweep := { x.sweep with sealNext := some 9, key := some k } }) up).guards.get 0).sweep.sealNext.isSome = true ∧
    ((inGuard (fun x => { x with service := .sweeping, sweep := { x.sweep with sealNext := some 9, key := some k } }) up).guards.get 0).canSweep = true ∧
    ((inGuard (fun x => { x with service := .sweeping, sweep := { x.sweep with sealNext := some 9, key := some k } }) up).guards.get 0).sweep.key = some k :=
  ⟨{}, by decide +kernel⟩

theorem wit_bankTest : up.ports.broken = false ∧ (up.dieN (39 / 10)).laneRun = true ∧ (up.dieN (39 / 10)).guardGood = true ∧ (up.guards.get 39).inReset = true ∧
    (up.guards.get 39).reqs = [] ∧ (up.guards.get 39).rsps = [] ∧ (∃ b ∈ ((inGuard id up).guards.get 0).banks, b.tested = true) ∧
    (List.range (up.guards.get 39).banks.length).find? (fun b => !((up.guards.get 39).bankN b).tested && !((up.guards.get 39).bankN b).excluded) = some 0 := by
  decide +kernel

/-- The defect of mower lane 3. -/
def lane3 : Defect := { cls := 5, unit := 0, index := 3, site := false }

/-- The defect of digest core 3. -/
def core3 : Defect := { cls := 6, unit := 0, index := 3, site := false }

theorem wit_selfTests : (brupOf (fun b => { b with unitsLeft := [5 * 1024 + 3] }) up).brup.unitsLeft.contains (5 * 1024 + 3) = true ∧ coreRuns up = true ∧
    lane3 = { cls := (5#4).toNat, unit := (0#16).toNat, index := (3#16).toNat, site := 3 ≤ (5#4).toNat && up.mir.site } ∧ defectExists lane3 = true ∧
    (defects up).contains lane3 = false ∧ up.brup.findings.contains (findingOf lane3) = false ∧ lane3.cls ≠ 6 ∧
    (6 * 1024 + 3) / 1024 = 6 ∧ bitAt ({ up with dig := { up.dig with testing := 8 } } : State).dig.testing ((6 * 1024 + 3) % 1024) = true ∧
    bitAt up.dig.testing core3.index = false ∧ defectExists core3 = true ∧ (defects up).contains core3 = false := by decide +kernel

theorem wit_findings : Write (brupOf (fun b => { b with findings := [7] }) up) c0 (brupPage + 0x58) ∧ (brupOf (fun b => { b with findings := [7] }) up).brup.findings = [7] ∧
    bitAt (1#32) 0 = true ∧ bitAt (1#32) 1 = false ∧ bitAt (2#32) 0 = false ∧ bitAt (2#32) 1 = true := by unfold Write Access; decide +kernel

/-- A fingerprint sample that the stop of die 3 has not latched, if `late`. -/
def sampling (late : Bool) : State := { up with ks := { up.ks with fpRef := some (5, 7) }, dies := up.dies.set 3 { up.dies.get 3 with fpPend := late } }

theorem wit_fingerprint : fpWaiting up = false ∧ fpWaiting (sampling true) = true ∧ up.head.attached = false ∧ upKs.head.attached = true ∧
    ({ up with brup := { up.brup with fpSample := true } } : State).brup.fpSample = true ∧ up.ks.fpRef = none ∧ Write up c0 (brupPage + 0x5C) ∧ bitAt (1#32) 0 = true ∧ ksUp up = true ∧ (sampling false).ks.fpRef = some (5, 7) ∧
    (∀ d : Fin 4, ((sampling false).dieN d).fpPend = false ∨ ((sampling false).dieN d).inReset = true) ∧
    ∃ d : Fin 4, ((sampling true).dieN d).fpPend = true ∧ ((sampling true).dieN d).inReset = false := by unfold Write Access; decide +kernel

/-! ### Guards -/

/-- Guard 0 in service; stream 7 is bound to tenant domain 5, to read and write. -/
def serving (f : Guard → Guard) : State :=
  inGuard f { up with dies := up.dies.map (fun d => { d with serveNow := true, streams := [(7, mkEntry 5 true true 2)] }) }

/-- A read of transaction tag 1 that waits for its key. -/
def waitingRead : Req := { uid := 1, txn := 1, slice := 11, domain := 5 }

/-- A partial write that waits for its data. -/
def partialWait : Req := { uid := 1, txn := 2, slice := 11, domain := 5, op := .partialWrite, stage := .needData }

theorem wit_header : ready 0 ((serving id).guards.get 0) = true ∧ 11 < slices 0 ∧ ((serving id).dieN 0).serveNow = true ∧
    (∀ op : BitVec 3, op ≠ 2 ∨ ((serving id).guards.get 0).placesUsed < rmwPlaces 0) ∧
    ready 0 ((serving (fun x => { x with fenced := true })).guards.get 0) = true ∧
    (ready 0 ((serving (fun x => { x with reqs := [waitingRead] })).guards.get 0) = true ∧
      ((serving (fun x => { x with reqs := [waitingRead] })).guards.get 0).txnInFlight 1 = true) ∧
    rmwPlaces 0 ≤ ((serving (fun x => { x with reqs := List.replicate 64 partialWait })).guards.get 0).placesUsed ∧
    ready 0 ((serving (fun x => { x with reqs := List.replicate 64 partialWait })).guards.get 0) = true ∧
    ((serving id).guards.get 0).txnInFlight 1 = false ∧ (∀ op ∈ [3#3, 7], 3 ≤ op.toNat) ∧
    rightsCheck ((serving id).dieN 0).streams ((serving id).dieN 0).readers 0 7 5 = none ∧
    rightsCheck ((serving id).dieN 0).streams ((serving id).dieN 0).readers 1 7 6 = some stRights ∧
    rightsCheck ((serving id).dieN 0).streams ((serving id).dieN 0).readers 0 8 5 = some stUnbound := by decide +kernel

theorem wit_data : (serving (fun x => { x with wdWait := [(11, 0)] })).ports.rstCold = false ∧
    ((serving (fun x => { x with wdWait := [(11, 0)] })).guards.get 0).wdWait.find? (fun w => w.1 == 11) = some (11, 0) ∧
    ((serving (fun x => { x with wdWait := [(11, 1)], reqs := [{ waitingRead with op := .write, stage := .needData }] })).guards.get 0).reqs.find? (fun r => r.uid == 1) =
      some { waitingRead with op := .write, stage := .needData } := by decide +kernel

/-- Guard 0 with one request in a stage. -/
def staged (st : Stage) : Guard := (serving (fun x => { x with reqs := [{ waitingRead with stage := st }] })).guards.get 0

theorem wit_memory : (∀ st ∈ [Stage.readQ, .writeQ 3 4],
      (staged st).reqs.find? (fun r => r.uid == 1) = some { waitingRead with stage := st } ∧ (staged st).clkStopped = false ∧
      (staged st).reqs.any (Guard.blockedBy { waitingRead with stage := st }) = false ∧ (staged st).tagsOut.length < 4096) ∧
    (staged (.readOut 4095)).reqs.find? (fun r => r.stage == .readOut 4095 || r.stage == .discardOut 4095) = some { waitingRead with stage := .readOut 4095 } ∧
    (∀ st ∈ [Stage.writeOut 0, .fencedOut 0], (staged st).reqs.find? (fun r => r.stage == .writeOut 0 || r.stage == .fencedOut 0) = some { waitingRead with stage := st }) ∧
    ((serving (fun x => { x with rsps := [{ slice := 11 }] })).guards.get 0).rsps.find? (fun q => q.slice == 11) = some { slice := 11 } := by decide +kernel

theorem wit_guardPages : Write up c0 (guardAddr 39 0x24) ∧ Write up c0 (guardAddr 39 0x28) ∧ Access up c0 (guardAddr 39 0x70) ∧ Access up c0 (guardAddr 39 0x102C) ∧
    Write up c0 (guardAddr 39 0x20) ∧ Write up c0 (guardAddr 39 0x204C) ∧ Write up c0 (guardAddr 39 0x3028) ∧ Access up c0 (guardAddr 39 0x4034) ∧
    bitAt (0x80000005#32) 31 = true ∧ bitAt (5#32) 31 = false ∧ bitAt (1#32) 0 = true ∧ bitAt (0#32) 0 = false := by unfold Write Access; decide +kernel

theorem wit_shares : (up.guards.get 39).page.powerPct = none ∧ ∀ i < 4, bitsOf (0x64640500#32) (8 * i + 7) (8 * i) = Nat.min (bitsOf (0xFF640500#32) (8 * i + 7) (8 * i)) 100 := by decide +kernel

/-- Guard 0 with the bank 7 changed. -/
def banked (b : Bank) : State := serving (fun x => { x with banks := x.banks.set 7 b })

theorem wit_lanes : ((serving id).guards.get 0).lanePresent 7 8 = true ∧ 7 < ((banked { tested := true, spareDue := true }).guards.get 0).banks.length ∧
    (((banked { tested := true, spareDue := true }).guards.get 0).bankN 7).spareDue = true ∧
    (((banked { tested := true, spareDue := true }).guards.get 0).bankN 7).spareGood = true ∧ ((serving id).guards.get 0).fenced = false := by decide +kernel

/-! ### The key ring and the key service -/

/-- A message of the head. -/
def headMsg (dest : Nat) (b : RingBody) : RingMsg := { src := 0xFE, dest := dest, body := b }

/-- A head message at the stop of die 1, which serves and expects SEQ 0. -/
def arrived (m : RingMsg) (s : State) : State := { s with dies := s.dies.set 1 { s.dies.get 1 with serveNow := true, inbox := [m] } }

/-- One message of each type that the head sends to stops. -/
def bodies : List RingBody :=
  [.keyFill {}, .keyNone 5 false true, .rotate 5 2 9, .retire 5 6 true 9, .streamSet 7 3 9, .readerSet 4096 0 5 6 9, .readerSet 4096 1 5 6 9, .readerSet 4096 2 0 0 9,
   .tableSync 0 true 0 [1], .tableSync 1 false 0 [1], .tableSync 2 true 0 [1], .sweepCmd true 5 64 2 9, .sweepAbort 5, .pulse]

theorem wit_arrives : ∀ dest ∈ [10, 19, 0x81, 0xFF], ∀ b ∈ bodies, Arrives (arrived (headMsg dest b) up) 1 (headMsg dest b) := by
  unfold Arrives; decide +kernel

/-- A message of a type for guard 0 at the stop of die 0, guard 0 in service with a change of it. -/
def toGuard0 (b : RingBody) (f : Guard → Guard) : State :=
  inGuard f { up with dies := up.dies.set 0 { up.dies.get 0 with serveNow := true, inbox := [headMsg 0 b] } }

theorem wit_fills : ((taken 1 (headMsg 19 (.keyFill {})) (arrived (headMsg 19 (.keyFill {})) up)).guardN 19).inReset = true ∧
    Arrives (toGuard0 (.keyFill {}) id) 0 (headMsg 0 (.keyFill {})) ∧ Arrives (toGuard0 (.keyNone 5 false true) id) 0 (headMsg 0 (.keyNone 5 false true)) ∧
    ((taken 0 (headMsg 0 (.keyFill {})) (toGuard0 (.keyFill {}) id)).guardN 0).inReset = false ∧
    ((taken 0 (headMsg 0 (.keyFill {})) (toGuard0 (.keyFill {}) id)).guardN 0).fenced = false ∧
    ((taken 0 (headMsg 0 (.keyFill {})) (toGuard0 (.keyFill {}) (fun x => { x with fenced := true }))).guardN 0).fenced = true ∧ ((inGuard id up).guards.get 0).inReset = false := by unfold Arrives; decide +kernel

theorem wit_guardKeys : ((inGuard (fun x => { x with cache := { x.cache with waitFills := [{ domain := 5 }] } }) up).guards.get 0).cache.waitFills = [{ domain := 5 }] ∧
    (((inGuard (fun x => { x with cache := { x.cache with waitFills := [{ domain := 5 }] } }) up).guards.get 0).room 5).isSome = true ∧
    ((inGuard (fun x => { x with miss := { x.miss with slots := [{ domain := 5 }] } }) up).guards.get 0).miss.slots[0]? = some { domain := 5 } ∧
    (((inGuard (fun x => { x with cache := { x.cache with waitFills := [{ domain := 5 }], lines := [{ row := 0, entry := { domain := 5 } }] } }) up).guards.get 0).lineGen 5 0).isSome = true := by decide +kernel

theorem wit_pin : Write up c0 (kcPinAddr 39) ∧ (up.guards.get 39).cache.pinBusy = false ∧ bitAt (0x2000#32) 13 = true ∧ bitAt (0#32) 13 = false ∧ bitAt (0x4000#32) 14 = true ∧ bitAt (0x2000#32) 14 = false ∧ (up.guards.get 39).cache.query.toNat = 0 ∧
    ((inGuard (fun x => { x with cache := { x.cache with queried := true } }) up).guards.get 0).cache.queried = true ∧
    4352 ≤ bitsOf (0x6000#32 + 4352#32) 12 0 ∧ bitsOf (0x6000#32 + 4351#32) 12 0 < 4352 ∧ (up.guards.get 39).pinned 4351 = false ∧ (up.guards.get 39).cache.pins.length < 32 ∧
    32 ≤ ((inGuard (fun x => { x with cache := { x.cache with pins := List.replicate 32 {} } }) up).guards.get 0).cache.pins.length ∧
    ((inGuard (fun x => { x with cache := { x.cache with pins := List.replicate 32 {} } }) up).guards.get 0).pinned 1 = false ∧
    ((inGuard (fun x => { x with cache := { x.cache with pins := List.replicate 32 {} } }) up).guards.get 0).pinned 0 = true ∧
    ((inGuard (fun x => { x with cache := { x.cache with pinBusy := true } }) up).guards.get 0).cache.pinBusy = true ∧
    (∀ l ∈ (up.guards.get 39).cache.lines, l.entry.bindOk l.entry.domain = true) := by unfold Write Access; decide +kernel

/-- The stop of die 1 with messages to send. -/
def sending (a b : List RingMsg) (s : State) : State := { s with dies := s.dies.set 1 { s.dies.get 1 with sendQ := a, keyReqQ := b } }

theorem wit_stop : upKs.head.attached = true ∧ ((sending [{}] [] upKs).dies.get 1).sendQ = [{}] ∧ ((sending [] [{ src := 13 }] upKs).dies.get 1).sendQ = [] ∧
    ((sending [] [{ src := 13 }] upKs).dies.get 1).nextAsker 1 = some 3 ∧
    ((sending [] [{ src := 13 }] upKs).dies.get 1).keyReqQ.find? (fun m => m.src == 13) = some { src := 13 } ∧ ((sending [] [] upKs).dies.get 1).keyReqQ = [] ∧
    ksUp upKs = true ∧ ksUp { up with boot := { up.boot with cores := Vector.replicate 4 .halted } } = false ∧ (upKs.dies.get 1).inReset = false := by decide +kernel

/-- The stop of die 1 discards words with a message in front. -/
def deaf : State := { up with dies := up.dies.set 1 { (arrived (headMsg 10 .pulse) up).dies.get 1 with discarding := true } }

theorem wit_ringWords : ((ringFlow (upstream 1 deaf) deaf).dies.get 1).inbox = [headMsg 10 .pulse] ∧ ((ringFlow (upstream 1 deaf) deaf).dies.get 1).discarding = true ∧
    ((reached 1 (arrived { headMsg 10 .pulse with seq := 1 } up)).dies.get 1).inbox = [{ headMsg 10 .pulse with seq := 1 }] ∧ ((reached 1 (arrived { headMsg 10 .pulse with seq := 1 } up)).dies.get 1).discarding = false ∧
    ((reached 1 (arrived { headMsg 10 .pulse with seq := 1 } up)).dies.get 1).inReset = false ∧ ((reached 1 (arrived { headMsg 10 .pulse with seq := 1 } up)).dies.get 1).passing = 0 ∧
    ((reached 1 (arrived { headMsg 10 .pulse with seq := 1 } up)).dies.get 1).expSeq = 0 ∧
    2 ^ 15 ≤ ((0 : BitVec 16) - 1).toNat ∧ 2 ^ 15 ≤ ((0 : BitVec 16) - 0x8000).toNat ∧
    (Machine.atHead { up with head := { up.head with returning := [{}], inQ := [{}] } }).head.returning = [{}] ∧
    (Machine.atHead { up with head := { up.head with returning := [{}], inQ := [{}] } }).head.inQ = [{}] ∧
    wireDamaged ({} : RingMsg).wire = false ∧ wireDamaged (zeros 12) = true ∧
    ((ringFlow (upstream 1 (arrived (headMsg 10 .pulse) up)) (arrived (headMsg 10 .pulse) up)).dies.get 1).inbox = [headMsg 10 .pulse] ∧
    ((ringFlow (upstream 1 (arrived { src := 3 } up)) (arrived { src := 3 } up)).dies.get 1).inbox = [{ src := 3 }] := by decide +kernel

/-- A PULSE at which the stop of die 1 is to latch fingerprints. -/
def pulsed (ref : Option (BitVec 16 × BitVec 32)) : State :=
  { arrived (headMsg 0xFF .pulse) up with ks := { up.ks with fpRef := ref }, dies := (arrived (headMsg 0xFF .pulse) up).dies.map (fun d => { d with fpPend := true }) }

theorem wit_pulse : Arrives (pulsed none) 1 (headMsg 0xFF .pulse) ∧ ((taken 1 (headMsg 0xFF .pulse) { pulsed none with dies := (arrived (headMsg 0xFF .pulse) up).dies }).dies.get 1).fpPend = false ∧
    (taken 1 (headMsg 0xFF .pulse) (pulsed (some (0, 9)))).ks.fpRef = some ((headMsg 0xFF .pulse).seq, 9) ∧
    ((taken 1 (headMsg 0xFF .pulse) (pulsed (some (0, 9)))).dies.get 1).fpPend = true := by unfold Arrives; decide +kernel

/-- Die 1 with operations it has taken. -/
def opped (l : List (BitVec 32 × Bool)) : State := { up with dies := up.dies.set 1 { up.dies.get 1 with ops := l } }

/-- Guard 0 reads for a request of stream 7, which is bound to domain 5. -/
def unbinding : State := serving (fun x => { x with reqs := [{ waitingRead with stream := 7, stage := .readQ }] })

theorem wit_tables : ((opped [(9, true)]).dies.get 1).applied 9 = some true ∧ ((opped [(9, false)]).dies.get 1).applied 9 = some false ∧ ((opped []).dies.get 1).applied 9 = none ∧
    (withdrawIn 1 ((opped []).dies.get 1) (opped [])).1 = [] ∧
    (withdrawIn 0 (unbinding.dies.get 0) (unbinding.modDie 0 (fun d => { d with streams := alPut 0 d.streams 7 0 }))).1 ≠ [] := by decide +kernel

/-- Die 0 with one withdrawal that waits for a request of guard 0. -/
def draining (reqs : List Req) : State :=
  inGuard (fun x => { x with reqs := reqs }) { up with dies := up.dies.set 0 { up.dies.get 0 with withdraws := [{ opId := 9, waits := [(0, 1)] }] } }

theorem wit_drained : (∀ rs ∈ [[], [waitingRead]], ((draining rs).dies.get 0).withdraws = [{ opId := 9, waits := [(0, 1)] }]) ∧ ((draining []).dies.get 0).inReset = false ∧
    (∀ r ∈ ((draining []).guardN 0).reqs, r.uid ≠ 1) ∧ (∀ r ∈ ((draining [waitingRead]).guardN 0).reqs, r.uid = 1 ∧ r.stage = .parked) := by decide +kernel

/-- The head with a message that waits. -/
def headHas (b : RingBody) : State := { upKs with head := { upKs.head with inQ := [{ src := 3, body := b }] } }

theorem wit_reaches : ∀ b ∈ [RingBody.keyReq 5 false false, .ack 9 3 false, .sweepDone 9 1 0 false, .ringErr 4 0x81, .ringErr 0 0x81, .ringErr 7 0x81],
    Reaches (headHas b) { src := 3, body := b } [] := by unfold Reaches; decide +kernel

/-- A domain record with one live generation. -/
def keyed (bad : List (BitVec 32)) : DomRec := { id := 5, state := .keyed, newest := 1, gens := [{ domain := 5, gen := 1 }], eccBad := bad }

/-- The key service with admitted requests and a domain. -/
def asking (r : Option DomRec) : State :=
  { upKs with head := { upKs.head with admitted := [{ src := 3, body := .keyReq 5 false false }] }, ks := { upKs.ks with doms := r.toList } }

/-- The ROTATE of domain 5 has not been sent yet. -/
def rotatingHeld : State :=
  { asking (some (keyed [])) with ks := { (asking (some (keyed []))).ks with heldOps := [{ kind := .rotate 5, msgs := [.rotate 5 1 0] }] } }

theorem wit_keyService : (asking none).head.admitted = [{ src := 3, body := .keyReq 5 false false }] ∧ ksUp (asking none) = true ∧ storePending (asking none) 5 = false ∧
    (asking none).dom 5 = none ∧ (asking (some (keyed []))).dom 5 = some (keyed []) ∧ (answerEntry (keyed []) false false).isSome = true ∧
    (∀ e ∈ (keyed []).gens, e.gen ∉ (keyed []).eccBad ∧ e.gen ∉ (keyed []).lostGen) ∧ (∀ e ∈ (keyed [1]).gens, e.gen ∈ (keyed [1]).eccBad) ∧ (1 : BitVec 32) = (keyed []).newest ∧
    rotateUnsent (asking (some (keyed []))) 5 = false ∧ rotateUnsent rotatingHeld 5 = true ∧ rotatingHeld.dom 5 = some (keyed []) ∧ (1#2).toNat < 2 ∧ 2 ≤ (2#2).toNat := by decide +kernel

theorem wit_retires : ({ upKs with ks := { upKs.ks with retireQ := [{}] } } : State).ks.retireQ = [{}] ∧ retiresOut upKs < 16 ∧ upKs.ks.held = [] ∧
    ({ upKs with ks := { upKs.ks with held := [2] } } : State).ks.held ≠ [] ∧
    16 ≤ retiresOut { upKs with ks := { upKs.ks with ops := List.replicate 16 { kind := .retire 5 5 false } } } := by decide +kernel

/-- A descriptor to send to guard 0, which is in service. -/
def described (x : HeldDesc) (seeded : Bool) : State :=
  inGuard id { upKs with ks := { upKs.ks with descs := [x] }, ent := { upKs.ent with seeded := seeded, drbgKey := zeros 32, drbgV := zeros 16 } }

theorem wit_descriptor : (∀ x ∈ [({ domain := 5 } : HeldDesc), { domain := 5, dsweep := true, keyed := true }, { domain := 5, dsweep := true }],
      (described x true).ks.descs.find? (fun x => !x.sent && heldBy (described x true) x.guard x.dsweep < 16 && !((described x true).guardN x.guard).inReset &&
        !storePending (described x true) x.domain) = some x) ∧
    drawNow (described { dsweep := true } true) = true ∧ (drawBytes 96 (described { dsweep := true } true)).1.isSome = true ∧
    drawNow { described {} true with ent := { (described {} true).ent with reseedDue := true } } = false ∧
    ksUp (described {} true) = true := by decide +kernel

/-- An operation of the key service. -/
def oped (k : BKind) (resent : Bool) : State := { upKs with ks := { upKs.ks with ops := [{ opId := 9, kind := k, resent := resent, missG := [39], missS := [3] }] } }

theorem wit_broadcasts : (∀ k ∈ [BKind.rotate 5, .retire 5 6 true, .stream 7 true 5, .reader 4096 true 5, .sync 3 0], ∀ r ∈ [false, true],
      (oped k r).op 9 (match k with | .sync _ _ => true | _ => false) = some { opId := 9, kind := k, resent := r, missG := [39], missS := [3] }) ∧ (oped (.rotate 5) true).head.attached = true ∧
    (∃ x ∈ ({ upKs with head := { upKs.head with replay := [{ seq := 4 }] } } : State).head.replay, x.seq = 4) ∧ (∀ x ∈ upKs.head.replay, x.seq ≠ 4) ∧ (0 : BitVec 16) = upKs.head.seq ∧
    (4 : BitVec 16) ≠ upKs.head.seq := by decide +kernel

theorem wit_sweepDone : ∀ ds ∈ [false, true], ({ upKs with ks := { upKs.ks with descs := [{ guard := 3, dsweep := ds, sent := true, sweepId := 9 }] } } : State).ks.descs.find?
    (fun x => x.sweepId == 9 && x.sent && x.guard == ({ src := 3 } : RingMsg).src) = some { guard := 3, dsweep := ds, sent := true, sweepId := 9 } := by decide +kernel

theorem wit_teardown : ({ upKs with ks := { upKs.ks with doms := [{ id := 4351, state := .tearDrain }] } } : State).dom (4351#13).toNat = some { id := 4351, state := .tearDrain } ∧
    domainOps { upKs with ks := { upKs.ks with doms := [{ id := 4351, state := .tearDrain }] } } 4351 = false ∧ (∀ j ∈ upKs.mower.run, j.domain ≠ 4351) := by decide +kernel

/-! ### Sweeps and region lists -/

theorem wit_sweepCmd : ∀ ds ∈ [false, true],
    ((taken 1 (headMsg 19 (.sweepCmd ds 5 64 2 9)) (arrived (headMsg 19 (.sweepCmd ds 5 64 2 9)) up)).guardN 19).inReset = true ∧
    (∀ b ∈ [false, true], ((taken 0 (headMsg 0 (.sweepCmd ds 5 64 2 9)) (toGuard0 (.sweepCmd ds 5 64 2 9) (fun x => { x with fenced := b }))).guardN 0).inReset = false ∧
      ((taken 0 (headMsg 0 (.sweepCmd ds 5 64 2 9)) (toGuard0 (.sweepCmd ds 5 64 2 9) (fun x => { x with fenced := b }))).guardN 0).fenced = b) := by decide +kernel

/-- A key entry of domain 5 in veil mode, without its binding tag. -/
def baseKey (g : BitVec 32) : Entry := { k1 := zeros 32, k2 := zeros 32, k3 := zeros 32, h := zeros 16, domain := 5, gen := g, mode := .veil }

/-- A current and an older key of domain 5. -/
def key (g : BitVec 32) : Entry := { baseKey g with bind := bindOf ((baseKey g).bound 5) }

/-- Guard 0 rekeying domain 5, whose generation 2 is the newest. -/
def rekeying (f : Guard → Guard) : State :=
  inGuard (fun x => f { x with sweep := { x.sweep with rekey := [{ domain := 5, first := 64, count := 2 }] }, rot := [(5, true)], cache := { x.cache with lines := [{ row := 0, entry := key 2 }, { row := 1, entry := key 1 }] } }) up

theorem wit_bind (g : BitVec 32) : (key g).bindOk 5 = true := by
  have h : (key g).bound 5 = (baseKey g).bound 5 := by simp only [Entry.bound, Entry.flags, key]
  unfold Entry.bindOk
  rw [h]
  generalize hb : bindOf ((baseKey g).bound 5) = b
  rw [show (key g).bind = bindOf ((baseKey g).bound 5) by simp only [key], hb]
  exact beq_self_eq_true b

theorem wit_sweepLine : ((rekeying id).guards.get 0).sweep.rekey = [{ domain := 5, first := 64, count := 2 }] ∧ ((rekeying id).guards.get 0).canSweep = true ∧ ((rekeying id).guards.get 0).mayDraw 0 = true ∧
    ((rekeying (fun x => { x with page := { x.page with share := 0, shareEff := 0 } })).guards.get 0).mayDraw 0 = false ∧
    ((rekeying id).guards.get 0).lineHeld 64 = false ∧ ((rekeying (fun x => { x with clkStopped := true })).guards.get 0).canSweep = false ∧
    ((rekeying (fun x => { x with cache := {} })).guards.get 0).newest 5 = none ∧
    (((rekeying id).guards.get 0).newest 5).map KcLine.row = some 0 ∧
    sideMode 0 ≠ (key 2).mode.code ∧ sideMode 0x400000000 = (key 2).mode.code ∧ sideGen 0x400000000 = (key 2).genBit ∧ ((rekeying id).guards.get 0).olderBit 5 ≠ some (sideGen 0x400000000) ∧
    sideMode 0x500000000 = (key 2).mode.code ∧ sideGen 0x500000000 ≠ (key 2).genBit ∧ (key 2).mode ≠ .open ∧ ((rekeying id).guards.get 0).olderBit 5 = some (sideGen 0x500000000) ∧
    (((rekeying id).guards.get 0).lineBit 5 (sideGen 0x500000000)).map KcLine.row = some 1 ∧ tagOk (key 1) 64 0 0x500000000 = true := by decide +kernel

/-- Guard 0 sweeping a domain of two lines. -/
def zeroing (v : Nat) : State := inGuard (fun x => { x with sweep := { x.sweep with dom := [{ domain := 5, first := 64, count := 2, visited := v }], key := some {} } }) up

theorem wit_domainSweep : ∀ v ∈ [0, 1], ((zeroing v).guards.get 0).sweep.dom = [{ domain := 5, first := 64, count := 2, visited := v }] ∧ ((zeroing v).guards.get 0).sweep.key = some {} ∧
    ((zeroing v).guards.get 0).canSweep = true ∧ ((zeroing v).guards.get 0).mayDraw 1 = true ∧ ((zeroing v).guards.get 0).lineHeld (64 + v) = false ∧ (v + 1 < 2 ∨ 2 ≤ v + 1) := by decide +kernel

/-- A region list of one entry that has been read whole. -/
def listed (e : BitVec 512) (p : RPurpose) : State :=
  { upKs with ks := { upKs.ks with reads := [{ work := 0, purpose := p }] },
              dma := { upKs.dma with works := [(0, .regionList, 0, 16)], issued := [(0, 1)], lines := [(0, 0, e)] } }

theorem wit_regionList : (listed 0 (.resume 5)).ks.reads.find? (fun r => dmaWhole (listed 0 (.resume 5)) r.work) = some { work := 0, purpose := .resume 5 } ∧
    (checkRegions (dmaBytes (listed 0 (.resume 5)) 0)).isOk = false ∧
    (checkRegions (dmaBytes (listed (1#512 <<< 64 ||| 6#512 <<< 48) (.resume 5)) 0)).isOk = true ∧
    (∀ v ∈ [Service.held, .sweeping], namesWaiting (up.modGuard 8 (fun x => { x with service := v })) [{ guard := 8, first := 0, count := 1 }] = true) ∧
    namesWaiting (up.modGuard 8 (fun x => { x with service := .serving })) [{ guard := 8, first := 0, count := 1 }] = false ∧ namesWaiting up [{ guard := 0, first := 0, count := 1 }] = false ∧ (RPurpose.rekey {} 5 0 1).waiter.isSome = true ∧ (RPurpose.resume 5).waiter = none := by decide +kernel

/-! ### Requests of sessions -/

/-- A body from its fields, each of a length in bytes and a value. -/
def pack (l : List (Nat × Nat)) : Bytes := l.flatMap (fun p => leBytes p.1 p.2)

/-- The key service with domains, model domains and streams in several states, all of the tenant of `x`. -/
def town (x : Session) : State :=
  withSess x { upKs with
    ks := { upKs.ks with
      doms := [{ id := 5, state := .keyed, owner := some [1], newest := 1, gens := [{ domain := 5, gen := 1 }] }, { id := 6 }, { id := 7, state := .sweepWait, owner := some [2] },
        { id := 4096 }, { id := 4097 }, { id := 4098 }, { id := 4099 }],
      models := [{ model := 4096, custody := .keyHeld }, { model := 4097 }, { model := 4098, custody := .resident, payload := 64 }, { model := 4099, custody := .keyHeld, jobUsed := true }],
      streams := [(1, mkEntry 5 true true 1), (2, mkEntry 5 true true 2)], links := [(63, 5)] },
    mower := { upKs.mower with kept := [{ domain := 5 }] },
    brup := { upKs.brup with links := upKs.brup.links.set 63 { qualified := true } } }

theorem wit_asks : (∀ m ∈ [0x0101, 0x0102, 0x0103, 0x0104, 0x0105, 0x0106, 0x0107, 0x0108, 0x0109, 0x010B, 0x010C, 0x010D],
      Asks (town opr) (operMsg (BitVec.ofNat 16 m)) 65536 opr) ∧
    (∀ m ∈ [0x0020, 0x0021, 0x0022, 0x0023, 0x0024, 0x0030, 0x0031, 0x0050, 0x0051], Asks (town ten) (tenantMsg (BitVec.ofNat 16 m)) 65536 ten) := by
  unfold Asks; decide +kernel

theorem wit_atOnce (x : Session) (w : Waiter) (body : Bytes) : AtOnce (town x) w body := by
  have h : ∀ r : DomRec, r ∈ (town x).ks.doms → r.reading = false := by
    intro r hr
    have h' : (town x).ks.doms.all (fun r => r.reading == false) = true := rfl
    simpa using List.all_eq_true.mp h' r hr
  intro d _
  refine ⟨?_, fun q hq => by cases hq⟩
  unfold domReading State.dom
  cases he : (town x).ks.doms.find? (fun r => r.id == d) with
  | none => rfl
  | some r => exact h r (List.mem_of_find?_eq_some he)

theorem wit_domainCreate : (∀ b ∈ [pack [(2, 8), (1, 4), (1, 0)], pack [(2, 8), (1, 0), (1, 2)], pack [(2, 4352), (1, 3), (1, 1)], pack [(2, 5), (1, 0), (1, 0)]], b.length = 4) ∧
    domState (town opr) 5 ≠ .free ∧ domState (town opr) 8 = .free ∧ domState (town opr) 4351 = .free ∧ openOk (town opr) = true ∧ openOk (burnt [32, 33] (town opr)) = false := by decide +kernel

theorem wit_streams : (pack [(2, 3), (2, 5), (1, 3), (3, 0)]).length = 8 ∧ fieldLe (pack [(2, 3), (2, 5), (1, 4), (3, 0)]) 4 1 = 4 ∧ fieldLe (pack [(2, 3), (2, 4096), (1, 1), (3, 0)]) 2 2 = 4096 ∧
    entryState (streamNow (town opr) 3) = 0 ∧ entryState (streamNow (town opr) 1) = 1 ∧ entryState (streamNow (town opr) 2) = 2 ∧ domAlive (town opr) 5 = true ∧ domAlive (town opr) 8 = false ∧
    (pack [(2, 1), (2, 0)]).length = 4 ∧ fieldLe (pack [(2, 1), (2, 1)]) 2 2 ≠ 0 ∧ fieldLe (pack [(2, 1), (2, 0)]) 2 2 = 0 := by decide +kernel

theorem wit_lists : (∀ b ∈ [pack [(2, 7), (2, 1), (4, 1), (8, 0)], pack [(2, 4352), (2, 0), (4, 1), (8, 0)], pack [(2, 7), (2, 0), (4, 0), (8, 0)]], b.length = 16) ∧
    domState (town opr) 7 = .sweepWait ∧ domState (town opr) 5 ≠ .sweepWait ∧ listRefused 0 0 = some eRegion ∧ listRefused 0 65537 = some eRegion ∧ listRefused 64 65536 = none ∧
    (pack [(2, 4096), (2, 0), (4, 1), (8, 0), (4, 1), (4, 0), (8, 0)]).length = 32 ∧ custody (town opr) 4096 = .keyHeld ∧ ((town opr).model 4096).any ModelRec.jobUsed = false ∧
    ((town opr).model 4099).any ModelRec.jobUsed = true ∧ custody (town opr) 4097 ≠ .keyHeld ∧ fieldLe (pack [(2, 4096), (2, 0), (4, 1), (8, 0), (4, 257), (4, 0), (8, 0)]) 16 4 = 257 ∧
    listRefused 0 257 = none ∧ fieldLe (pack [(2, 4096), (2, 0), (4, 1), (8, 0), (4, 256), (4, 0), (8, 0)]) 16 4 ≤ 256 := by decide +kernel

theorem wit_links : (∀ b ∈ [pack [(1, 63), (1, 0), (2, 4095)], pack [(1, 64), (1, 0), (2, 0)], pack [(1, 63), (1, 0), (2, 4096)], pack [(1, 63), (1, 0), (2, 0xFFFF)], pack [(1, 63), (1, 1), (2, 0)]],
      b.length = 4) ∧ fieldLe (pack [(1, 63), (1, 0), (2, 4095)]) 0 1 ≤ 63 ∧ fieldLe (pack [(1, 63), (1, 0), (2, 4095)]) 2 2 ≤ 4095 ∧
    fieldLe (pack [(1, 63), (1, 0), (2, 0xFFFF)]) 2 2 = 0xFFFF := by decide +kernel

theorem wit_seed : (pack [(2, 5), (2, 0), (4, 2), (40, 0)]).length = 48 ∧ ((town ten).dom 5).any (fun r => r.owner == ten.cred) = true ∧ ((town ten).dom 7).any (fun r => r.owner.isSome && r.owner != ten.cred) = true ∧
    (((town ten).dom 6).map DomRec.owner) = some none ∧ seedRefused (town ten) 5 = none ∧ seedRefused (town ten) 6 = none ∧ seedRefused (town ten) 7 = some eState ∧ seedRefused (town ten) 4095 = some eState := by decide +kernel

theorem wit_tenantStreams : (pack [(2, 1), (2, 5), (1, 3), (3, 0)]).length = 8 ∧ isTenant (town ten) (asker (tenantMsg 0x0021) 65536 0) 5 = true ∧
    isTenant (town ten) (asker (tenantMsg 0x0021) 65536 0) 7 = false ∧ entryState (streamNow (town ten) 1) = 1 ∧ entryState (streamNow (town ten) 2) ≠ 1 ∧
    (((town ten).dom 5).map DomRec.gens).any (· ≠ []) = true ∧ entryDomain (streamNow (town ten) 1) = 5 ∧ entryRead (streamNow (town ten) 1) = (3 % 2 == 1) ∧
    entryWrite (streamNow (town ten) 1) = decide (2 ≤ 3) ∧ entryWrite (streamNow (town ten) 1) ≠ decide (2 ≤ 1) ∧ entryState (streamNow (town ten) 2) = 2 ∧ entryDomain (streamNow (town ten) 2) = 5 ∧
    entryDomain (streamNow (town ten) 2) ≠ 7 ∧ fieldLe (pack [(2, 1), (2, 4352), (1, 3), (3, 0)]) 2 2 = 4352 ∧ (pack [(2, 5), (2, 0), (12, 0)]).length = 16 := by decide +kernel

theorem wit_pinMsg : (pack [(1, 39), (1, 1), (2, 4351)]).length = 4 ∧ fieldLe (pack [(1, 39), (1, 2), (2, 4351)]) 1 1 > 1 ∧ fieldLe (pack [(1, 39), (1, 1), (2, 4351)]) 1 1 = 1 ∧
    fieldLe (pack [(1, 40), (1, 0), (2, 0)]) 0 1 = 40 ∧ fieldLe (pack [(1, 39), (1, 0), (2, 4352)]) 2 2 = 4352 ∧ ((town opr).guardN 39).cache.pinBusy = false ∧
    ((town opr).guardN 39).cache.pins.length < 32 ∧ ((town opr).guardN 39).pinned 4351 = false ∧
    ((inGuard (fun x => { x with cache := { x.cache with pinBusy := true } }) (town opr)).guardN 0).cache.pinBusy = true ∧ (pack [(1, 39), (3, 0), (4, 0xFFFFFFFF)]).length = 8 ∧ fieldLe (pack [(1, 39), (3, 1), (4, 0)]) 1 3 ≠ 0 := by decide +kernel

theorem wit_linkKey : (pack [(1, 63), (1, 3), (1, 3), (1, 0), (2, 5), (2, 0), (44, 0)]).length = 52 ∧ isTenant (town ten) (asker (tenantMsg 0x0024) 65536 0) 5 = true ∧
    (63, 5) ∈ (town ten).ks.links ∧ (62, 5) ∉ (town ten).ks.links ∧ ((town ten).brup.links.toList.getD 63 {}).qualified = true ∧ ((town ten).brup.links.toList.getD 62 {}).qualified = false := by
  decide +kernel

/-- The port with two link-key messages, the first of two directions. -/
def pushing (dirs : List Nat) : State := { up with ports := { up.ports with lk := [{ dirs := dirs }, { dirs := [0] }], lkWords := [7] } }

theorem wit_push : ∀ ds ∈ [[1], [0, 1]], (pushing ds).ports.rstCold = false ∧ (pushing ds).ports.lkWords = [7] ∧ (pushing ds).ports.lk = [{ dirs := ds }, { dirs := [0] }] := by decide +kernel

theorem wit_bundle : (pack [(2, 4097), (2, 5), (4, 0), (72, 0)]).length = 80 ∧ custody (town ten) 4097 = .awaitingKey ∧ domAlive (town ten) 4097 = true ∧ custody (town ten) 4096 ≠ .awaitingKey ∧
    stagingOk (town ten) (asker (tenantMsg 0x0050) 65536 0) 5 = true ∧ stagingOk (town ten) (asker (tenantMsg 0x0050) 65536 0) 6 = false ∧ (town ten).vault.bundles.length < 16 ∧
    16 ≤ ({ town ten with vault := { (town ten).vault with bundles := List.replicate 16 {} } } : State).vault.bundles.length ∧ custody (town ten) (4096#13).toNat = .keyHeld ∧
    fieldLe (pack [(2, 4097), (2, 4352), (4, 0), (72, 0)]) 2 2 = 4352 := by decide +kernel

theorem wit_grant : (zeros 4779).length = 56 + 4 * grantCount (zeros 4779) + 4723 ∧ grantRefused (town ten) (zeros 4779) = some eReserved ∧ grantOper (zeros 4779) = 0 ∧
    grantOper (zeros 48 ++ [1] ++ zeros 4730) = 1 ∧ grantRefused (town ten) (zeros 48 ++ [1] ++ zeros 4730) = some eReserved ∧ grantOper (zeros 48 ++ [2] ++ zeros 4730) = 2 := by decide +kernel

/-- A measurement request of a kind over a domain of 64 bytes in a list of one entry. -/
def measureBody (d kind total : Nat) : Bytes := pack [(2, d), (1, kind), (1, 0), (4, 0), (8, total), (8, 0), (8, 0), (4, 1), (4, 0)]

theorem wit_measure : (measureBody 5 1 64).length = 40 ∧ jobRefused (asked 65536 (town ten)) (asker (tenantMsg 0x0030) 65536 0) (measureBody 5 0 64) = some eReserved ∧
    jobRefused (asked 65536 (town ten)) (asker (tenantMsg 0x0030) 65536 0) (measureBody 5 1 64) = none ∧
    jobRefused (asked 65536 (town ten)) (asker (tenantMsg 0x0030) 65536 0) (measureBody 7 1 64) = some eOwner ∧ (measureBody 4098 1 64).length = 40 ∧
    (pack [(2, 5), (2, 0)]).length = 4 ∧ jobOwner (asked 65536 (town ten)) (asker (tenantMsg 0x0031) 65536 0) 5 = true ∧ (∃ k ∈ (town ten).mower.kept, k.domain = 5) ∧
    jobOwner (asked 65536 (town ten)) (asker (tenantMsg 0x0031) 65536 0) 7 = false := by decide +kernel

theorem wit_quotes : (zeros 40).length = 40 ∧ quotePermitted (asked 65536 (town ten)) ten 0 0 = true ∧ quotePermitted (asked 65536 (town ten)) ten 1 7 = false ∧
    quotePermitted (asked 65536 (town ten)) ten 1 4351 = true ∧ (zeros 7443).length = 7443 ∧ Asks (withSess { ten with cred := none } upKs) { msg := 0x0004, operator := true, cred := false } 65536 { ten with cred := none } ∧
    Asks (town ten) { msg := 0x0004, operator := true, cred := false } 65536 ten ∧ Asks (town ten) { msg := 0x0040, operator := true } 65536 ten ∧
    Asks (town ten) { msg := 0x0010, operator := true, cred := ten.operator } 65536 ten ∧ ({ upKs with att := { upKs.att with batch := some [] } } : State).att.batch = some [] ∧
    upKs.att.batch = none ∧ upKs.mir.session = false ∧
    hybVerify ((zeros 7443).take 2720) (ascii "KFL-CRED" ++ leBytes 4 65536 ++ []) ((zeros 7443).drop 2720) = false ∧ credDigest (zeros 2720) ∉ operatorDigests upKs ∧
    (withSess { opr with cred := none } upKs).sess 65536 = some { opr with cred := none } := by unfold Asks; decide +kernel

/-! ### SPDM and sessions -/

/-- A request of a code with parameters. -/
def req (code p1 p2 : Nat) : Bytes := [0x13, BitVec.ofNat 8 code, BitVec.ofNat 8 p1, BitVec.ofNat 8 p2] ++ zeros 28

theorem wit_heard : ∀ code ∈ [0xE1, 0xE3, 0x81, 0x82, 0x83, 0xE0, 0x85, 0x86, 0xE8, 0xE9, 0xEC, 0xFE, 0x99],
    (∀ op, Heard (town ten) code op none (req code 0 0)) ∧ Heard (town ten) code false (some 65536) (req code 0 0) ∧ Heard (town opr) code true (some 65536) (req code 0 0) := by
  have h : ∀ code ∈ [0xE1, 0xE3, 0x81, 0x82, 0x83, 0xE0, 0x85, 0x86, 0xE8, 0xE9, 0xEC, 0xFE, 0x99], reqByte (req code 0 0) 1 = code ∧ reqByte (req code 0 0) 0 = 0x13 := by decide +kernel
  have ht : (town ten).ports.rstCold = false ∧ attUp (town ten) = true ∧ (town ten).sess 65536 = some ten ∧ ten.operator = false ∧ ten.busy = false ∧ ten.finished = true := by decide +kernel
  have ho : (town opr).ports.rstCold = false ∧ attUp (town opr) = true ∧ (town opr).sess 65536 = some opr ∧ opr.operator = true ∧ opr.busy = false ∧ opr.finished = true ∧ opr.cred.isSome = true := by decide +kernel
  intro code hc
  refine ⟨fun op => ⟨ht.1, ht.2.1, (h code hc).1, (h code hc).2, fun id hi => by cases hi⟩, ⟨ht.1, ht.2.1, (h code hc).1, (h code hc).2, fun id hi => ?_⟩, ⟨ho.1, ho.2.1, (h code hc).1, (h code hc).2, fun id hi => ?_⟩⟩
  · cases hi; exact ⟨ten, ht.2.2.1, rfl, rfl, rfl, fun hh => by cases hh⟩
  · cases hi; exact ⟨opr, ho.2.2.1, rfl, rfl, rfl, fun _ => rfl⟩

/-- A part of a large request: whether it is the last, its number, the bytes it announces and the bytes it carries. -/
def part (last n whole len : Nat) : Bytes :=
  [0x13, 0x85, BitVec.ofNat 8 last, 9] ++ leBytes 4 n ++ leBytes 4 len ++ (if n = 0 then leBytes 4 whole else []) ++ zeros len

theorem wit_chunks : chunkRefused {} (part 0 0 8 4) 8 (zeros 4) = none ∧ chunkRefused {} (part 1 0 4 4) 4 (zeros 4) = none ∧ chunkRefused {} (part 0 0 16385 4) 16385 (zeros 4) = some 0x0E ∧
    chunkRefused { inHandle := 9, inSeq := 1 } (part 1 1 0 4) 8 (zeros 8) = none ∧ chunkRefused { inHandle := 9, inSeq := 2 } (part 1 1 0 4) 8 (zeros 8) = some 0x01 ∧
    fieldLe (part 0 0 8 4) 12 4 = 8 ∧ fieldLe (part 1 1 0 4) 4 2 = 1 ∧ reqByte (part 1 1 0 4) 1 = 0x85 ∧ bitAt ((part 1 1 0 4).getD 2 0) 0 = true := by decide +kernel

/-- A vendor-defined request of the block with a payload. -/
def vendorReq (n : Nat) (p : Bytes) : Bytes := [0x13, 0xFE, 0, 0] ++ (vendorHead 0).take 7 ++ leBytes 2 n ++ p

theorem wit_vendor : vendorMine (req 0xFE 0 0) = false ∧ vendorMine (vendorReq 8 (zeros 8)) = true ∧ vendorPayload (vendorReq 8 (zeros 8)) = some (zeros 8) ∧ vendorPayload (vendorReq 9 (zeros 8)) = none ∧
    vendorPayload (vendorReq 8 (leBytes 8 0x10001)) = some (leBytes 8 0x10001) ∧ fieldLe (leBytes 8 0x10001) 2 2 ≠ 0 := by decide +kernel

theorem wit_spdm : attUp upKs = true ∧ reqByte (req 0x84 0 0) 1 = 0x84 ∧ offersAll (req 0xE3 0 0) = false ∧
    offersAll (req 0xE3 1 0) = false ∧ reqByte (req 0x82 1 0) 2 ≠ 0 ∧ fieldLe (req 0x82 0 0) 4 2 = 0 ∧ (connOf upKs false none).chunkOut = [] ∧
    (connOf { upKs with att := { upKs.att with tenantConn := { chunkOut := [1] } } } false none).chunkOut ≠ [] ∧ (∀ p ∈ [0, 1, 2, 3, 4], reqByte (req 0xE9 p 0) 2 = p) ∧
    knownCode 0x99 = false ∧ (0x99 : Nat) ≠ 0xFE ∧ knownMsg 0 = false ∧ knownMsg 0x0020 = true ∧ reqByte (0x12 :: (req 0xE1 0 0).drop 1) 0 ≠ 0x13 ∧
    reqByte (req 0x82 0 0) 2 % 16 = 0 ∧ reqByte (req 0x82 16 0) 2 % 16 = 0 ∧ reqByte (req 0x82 1 0) 2 % 16 ≠ 0 ∧ fieldLe (req 0x82 0 0) 4 2 < (certChain upKs).length := by decide +kernel

theorem wit_signed : reqByte (req 0x83 0 0) 2 = 0 ∧ reqByte (req 0x83 1 0) 2 ≠ 0 ∧ (drawBytes 32 upKs).1 = none ∧ (drawBytes 32 (described {} true)).1.isSome = true ∧
    (∀ i ∈ [0, 1, 6, 7, 0xFE, 0xFF], reqByte (req 0xE0 1 i) 3 = i) ∧ reqByte (req 0xE0 1 1) 2 % 2 = 1 ∧ reqByte (req 0xE0 0 1) 2 % 2 = 0 ∧ (measurement upKs 3).isSome = true ∧ drawNow upKs = true ∧ drawNow (described {} true) = true ∧
    drawNow { described {} true with ent := { (described {} true).ent with queue := [(.vault, 12)] } } = false ∧ bitAt ((req 0xE0 1 1).getD 2 0) 0 = true ∧
    bitAt ((req 0xE0 2 1).getD 2 0) 0 = false ∧ reqByte (req 0xE0 1 1) 36 % 16 = 0 ∧ reqByte (req 0xE0 1 1 ++ zeros 4 ++ [1]) 36 % 16 ≠ 0 := by decide +kernel

theorem wit_hybKex : (zeros 1704).length = 1704 ∧ fieldLe (zeros 1704) 2 2 = 0 ∧ fieldLe (zeros 1704) 1701 3 = 0 ∧ fieldLe (zeros 2 ++ [1] ++ zeros 1701) 2 2 ≠ 0 ∧
    (pointRefused p384 48 (slice (zeros 1704) 36 97)).isSome = true ∧ ((upKs.att.sessions.filter (fun x => x.operator == true)).length < 4) ∧
    4 ≤ (List.filter (fun x : Session => x.operator == true) (List.replicate 4 opr)).length ∧ (kexSetup upKs).att.kexStmts = [] ∧
    (kexSetup { upKs with att := { upKs.att with kexStmts := [[1], [2]] } }).att.kexStmts ≠ [] ∧
    pointRefused p384 48 (slice (zeros 36 ++ pointBytes 48 p384.g ++ zeros 1571) 36 97) = none ∧ (zeros 36 ++ pointBytes 48 p384.g ++ zeros 1571).length = 1704 ∧
    (kexExchange false 0 (zeros 36 ++ pointBytes 48 p384.g ++ zeros 1571) (kexSetup upKs)).1.isNone = true := by decide +kernel

theorem wit_hybFinish : (∀ f ∈ [false, true], (withSess { ten with finished := f } upKs).sess 65536 = some { ten with finished := f }) ∧ (zeros 48).length = 48 ∧ (zeros 47).length ≠ 48 ∧
    (verifyData [] [] ([] ++ finishHeader 0) false).length = 48 ∧ zeros 48 ≠ verifyData [] [] ([] ++ finishHeader 0) false := by decide +kernel

/-! ### The mower and the ingest unit -/

/-- The tree-hash unit with two lanes, a waiting job and the given running jobs. -/
def mowing (run : List MJob) : State := inGuard id { up with mower := { up.mower with lanes := 3, queue := [{ seq := 9 }], run := run } }

/-- A job over one line of domain 5 whose line has been read. -/
def oneLine : MJob := { seq := 1, domain := 5, total := 64, lines := [{ guard := 0, first := 64, count := 1 }], hi := 64, got := [(0, 7)] }

theorem wit_mowerStart : (mowing []).mower.queue = [{ seq := 9 }] ∧ (mowing []).mower.run.length < 4 ∧ (mowing []).mower.lanes ≠ 0 ∧
    ({ mowing [] with mower := { (mowing []).mower with lanes := 0 } } : State).mower.lanes = 0 ∧ 4 ≤ (mowing [{}, {}, {}, {}]).mower.run.length := by decide +kernel

theorem wit_mowerRead : (mowing [oneLine]).mower.run.find? (fun j => j.seq == 1) = some oneLine ∧ lineOf oneLine.lines oneLine.issued = some (0, 64) ∧ oneLine.aborting = false ∧
    oneLine.issued < oneLine.lineCount ∧ oneLine.issued - oneLine.absorbed < 4096 ∧ ((mowing []).guardN 0).inReset = false ∧ ((mowing []).guardN 0).clkStopped = false ∧
    ((mowing []).guardN 0).fenced = false ∧ ((mowing []).guardN 0).page.allot 3 ≠ 0 ∧
    ((inGuard (fun x => { x with page := { x.page with shareEff := 0 } }) (mowing [])).guardN 0).page.allot 3 = 0 ∧ ((inGuard (fun x => { x with fenced := true }) (mowing [])).guardN 0).fenced = true ∧
    ({ oneLine with aborting := true }).aborting = true ∧ ({ oneLine with issued := 1 }).lineCount ≤ 1 ∧ (up.guardN 0).inReset = true := by decide +kernel

theorem wit_mowerNode : (∀ j ∈ (mowing [{ seq := 1 }]).mower.run, (jobTurn j (mowing [{ seq := 1 }])).isNone = true) ∧ (jobTurn oneLine (mowing [oneLine])).isSome = true ∧
    ((jobTurn oneLine (mowing [oneLine])).bind (fun t => t.mower.run.find? (fun y => y.seq == 1))).any (fun j => (j.hash j.target.1 j.target.2).isNone) = true ∧
    (((jobTurn { oneLine with nodes := [(0, 0, zeros 32)] } (mowing [{ oneLine with nodes := [(0, 0, zeros 32)] }])).bind (fun t => t.mower.run.find? (fun y => y.seq == 1))).bind
      (fun j => j.hash j.target.1 j.target.2)).isSome = true := by decide +kernel

theorem wit_mowerLanes : bitAt (3#32) 1 = true ∧ setBit (3#32) 1 false ≠ 0 ∧ bitAt (2#32) 1 = true ∧ setBit (2#32) 1 false = 0 ∧ bitAt (2#32) 0 = false ∧
    Write (mowing [oneLine]) c0 (mowerPage + 0x3C) ∧ ((mowing [oneLine]).mower.queue ++ (mowing [oneLine]).mower.run).find? (fun j => j.seq == 1) = some oneLine ∧
    (∀ j ∈ (mowing [oneLine]).mower.queue ++ (mowing [oneLine]).mower.run, j.seq ≠ 2) := by unfold Write Access; decide +kernel

/-- A key of a domain whose binding tag is right. -/
def bound (e : Entry) : Entry := { e with bind := bindOf (e.bound e.domain) }

/-- The first 112 bytes of the header of a bundle of 64 bytes for model domain 4097. -/
def hdrBody : Bytes :=
  ascii "KFL-BNDL" ++ leBytes 2 1 ++ leBytes 2 4097 ++ zeros 4 ++ zeros 32 ++ leBytes 8 64 ++ leBytes 4 1 ++ zeros 4 ++ zeros 8 ++ zeros 40

/-- The whole header. -/
def hdr : Bytes := hdrBody ++ beBytes 16 41840757143067777342860920924848547378

/-- The trailer of a chunk of zeros. -/
def chunkTrailer (tag : Bytes) : Bytes := tag ++ leBytes 4 0 ++ leBytes 4 64 ++ zeros 40

/-- The right tag of that chunk. -/
def chunkTag : Bytes := beBytes 16 307147618006645890640873485709024673544

/-- The first 112 bytes of the manifest, with a root. -/
def manBody (root : Bytes) : Bytes := ascii "KFL-MNFT" ++ leBytes 4 1 ++ zeros 4 ++ leBytes 8 64 ++ root ++ zeros 56

/-- The whole manifest, with its root and its tag. -/
def man (root : Bytes) (tag : Nat) : Bytes := manBody root ++ beBytes 16 tag

/-- The root of a bundle of one leaf whose hash is thirty-two bytes of 1. -/
def root1 : Bytes := beBytes 32 63366534379780320622606977898170529931949355481716870097224593479298676175010

/-- Its manifest. -/
def man0 : Bytes := man root1 162095648373501615845040662163872021312

/-- An ingest job of model domain 4097, whose staging region of `n` lines is of domain 6. -/
def ingJob (n : Nat) : IngestJob :=
  { model := 4097, staging := 6, stage := [{ guard := 0, first := 64, count := n }], place := [{ guard := 0, first := 640, count := 1 }] }

/-- The ingest unit running a job, with the keys of both domains in guard 0 and a key of the bundle. -/
def ingesting (j : IngestJob) : State :=
  inGuard (fun x => { x with cache := { x.cache with lines := [{ row := 0, entry := bound { domain := 6, gen := 1, mode := .open } },
      { row := 1, entry := bound { domain := 4097, gen := 1, k1 := zeros 32, k2 := zeros 32, k3 := zeros 32, h := zeros 16 } }] } })
    { up with ingest := { up.ingest with run := some j, gcmLanes := 1 }, mower := { up.mower with lanes := 1 },
              vault := { up.vault with bundles := [{ model := 4097, keyId := zeros 32, key := zeros 32 }] } }

/-- The answers of memory for two lines of an open domain. -/
def served (bs : Bytes) : List LineAnswer := [(false, bytesVec 512 (bs.take 64), 0x600000000), (false, bytesVec 512 (bs.drop 64), 0x600000000)]

theorem bound_ok (e : Entry) : (bound e).bindOk e.domain = true := by
  have h : (bound e).bound e.domain = e.bound e.domain := by simp only [Entry.bound, Entry.flags, bound]
  unfold Entry.bindOk
  rw [h]
  generalize hb : bindOf (e.bound e.domain) = b
  rw [show (bound e).bind = bindOf (e.bound e.domain) by simp only [bound], hb]
  exact beq_self_eq_true b

/-- A guard that serves the staging region of domain 6 and the placement region of domain 4097. -/
def hasKeys (s : State) : Prop :=
  (s.guardN 0).newest 6 = some { row := 0, entry := bound { domain := 6, gen := 1, mode := .open } } ∧
  (s.guardN 0).newest 4097 = some { row := 1, entry := bound { domain := 4097, gen := 1, k1 := zeros 32, k2 := zeros 32, k3 := zeros 32, h := zeros 16 } } ∧
  (s.guardN 0).fenced = false ∧ (s.guardN 0).inReset = false ∧ (s.guardN 0).retiringAll 6 = false ∧ openOk s = true ∧ (s.guardN 0).page.allot 2 ≠ 0 ∧
  ∀ a ∈ [64, 65, 66, 67, 68, 69, 640], ingestHeld (s.guardN 0) a = false

theorem ingesting_hasKeys (j : IngestJob) : hasKeys (ingesting j) :=
  ⟨rfl, rfl, rfl, rfl, rfl, by show openOk up = true; decide +kernel, by show ((ingesting {}).guardN 0).page.allot 2 ≠ 0; decide +kernel, by
    show ∀ a ∈ [64, 65, 66, 67, 68, 69, 640], ingestHeld ((ingesting {}).guardN 0) a = false
    decide +kernel⟩

theorem driveBeat_hasKeys {s : State} (w : Bool) (a : Nat) (d : BitVec 512) (e : BitVec 64) (h : hasKeys s) : hasKeys (driveBeat 0 w a d e s) := by
  have hg : ∃ b, (driveBeat 0 w a d e s).guardN 0 = { s.guardN 0 with beat := b } := ⟨_, guardN_modGuard_eq s 0 _ (by decide)⟩
  obtain ⟨b, hg⟩ := hg
  obtain ⟨h1, h2, h3, h4, h5, h6, h8, h7⟩ := h
  unfold hasKeys
  rw [hg]
  exact ⟨h1, h2, h3, h4, h5, h6, h8, h7⟩

theorem stageRead_open {s : State} (h : hasKeys s) (a : Nat) (ha : a ∈ [64, 65, 66, 67, 68, 69, 640]) (data : BitVec 512) :
    stageRead 6 0 a (false, data, 0x600000000) s = .good data (driveBeat 0 false a 0 0 s) := by
  obtain ⟨h1, -, h3, h4, h5, h6, -, h7⟩ := h
  have hs : ∀ live, sideCause .open live 0x600000000 = none := fun live => by
    unfold sideCause; rw [if_neg (by decide), if_neg (by decide), if_neg (by simp)]
  have hb : (bound { domain := 6, gen := 1, mode := .open }).bindOk 6 = true := bound_ok _
  have hm : (bound { domain := 6, gen := 1, mode := .open }).mode = .open := rfl
  unfold stageRead
  simp only [h1, h3, h4, h5, h6, h7 a ha, hb, hm, hs, Bool.or_self, Bool.not_true, Bool.and_false, Bool.false_eq_true, if_false, beq_self_eq_true, if_true, bne_self_eq_false, Bool.false_and]

theorem readLines_open {s : State} (h : hasKeys s) (j : IngestJob) (hs : j.staging = 6) (k a : Nat) (hk : lineOf j.stage k = some (0, a)) (hk' : lineOf j.stage (k + 1) = some (0, a + 1))
    (ha : a ∈ [64, 65, 66, 67, 68, 69, 640]) (ha' : a + 1 ∈ [64, 65, 66, 67, 68, 69, 640]) (x y : BitVec 512) :
    ∃ t, hasKeys t ∧ readLines j k [(false, x, 0x600000000), (false, y, 0x600000000)] [] s = (some true, vecBytes 64 x ++ vecBytes 64 y, t) := by
  refine ⟨driveBeat 0 false (a + 1) 0 0 (driveBeat 0 false a 0 0 s), driveBeat_hasKeys _ _ _ _ (driveBeat_hasKeys _ _ _ _ h), ?_⟩
  simp only [readLines, hk, hk', hs, stageRead_open h a ha, stageRead_open (driveBeat_hasKeys false a 0 0 h) (a + 1) ha', List.nil_append]

theorem placeWrite_ok {s : State} (h : hasKeys s) (x : BitVec 512) (err : Bool) : ∃ t, placeWrite 4097 0 640 x err s = if err then .bad t else .good x t := by
  obtain ⟨-, h2, h3, h4, -, -, h8, h7⟩ := h
  have hb : (bound { domain := 4097, gen := 1, k1 := zeros 32, k2 := zeros 32, k3 := zeros 32, h := zeros 16 }).bindOk 4097 = true := bound_ok _
  unfold placeWrite
  simp only [h2, h3, h4, h7 640 (by decide), hb, beq_eq_false_iff_ne.mpr h8, Bool.or_self, Bool.not_true, Bool.and_false, Bool.false_eq_true, if_false]
  exact ⟨_, rfl⟩

theorem wit_ingestHeader : (ingesting (ingJob 6)).ingest.run = some (ingJob 6) ∧ (ingJob 6).headerOk = false ∧ (served hdr).length = 2 ∧ linesIn (ingJob 1).stage < 2 ∧
    (∃ t, hasKeys t ∧ readLines (ingJob 6) 0 (served hdr) [] (ingesting (ingJob 6)) = (some true, hdr, t)) ∧
    (readLines (ingJob 6) 0 (served hdr) [] (inGuard (fun x => { x with fenced := true }) (ingesting (ingJob 6)))).1 = some false ∧
    (readLines (ingJob 6) 0 (served hdr) [] (inGuard (fun x => { x with cache := {} }) (ingesting (ingJob 6)))).1 = none := by
  refine ⟨rfl, rfl, rfl, by decide, ?_, by decide +kernel, by decide +kernel⟩
  have h := readLines_open (ingesting_hasKeys (ingJob 6)) (ingJob 6) rfl 0 64 rfl rfl (by decide) (by decide) (bytesVec 512 (hdr.take 64)) (bytesVec 512 (hdr.drop 64))
  rwa [show vecBytes 64 (bytesVec 512 (hdr.take 64)) ++ vecBytes 64 (bytesVec 512 (hdr.drop 64)) = hdr by decide +kernel] at h

theorem hdr_tag : gcmTag (zeros 32) (bundleIv hdr 0xFFFFFFFE) (hdr.take 112) [] = slice hdr 112 16 := by decide +kernel

theorem wit_ingestHeaderCheck : (bundleOf (ingesting (ingJob 6)) 4097).key = zeros 32 ∧ headerCheck (ingJob 6) { model := 4097, keyId := zeros 32, key := zeros 32 } hdr = none ∧
    headerCheck (ingJob 5) { model := 4097, keyId := zeros 32, key := zeros 32 } hdr = some igShort ∧
    headerCheck (ingJob 6) { model := 4097, keyId := zeros 32, key := zeros 32 } (hdrBody ++ zeros 16) = some igAuth := by
  have h1 : headerForm hdr = true ∧ fieldLe hdr 10 2 = 4097 ∧ slice hdr 16 32 = zeros 32 ∧ fieldLe hdr 48 8 = 64 := by decide +kernel
  have h2 : headerForm (hdrBody ++ zeros 16) = true ∧ fieldLe (hdrBody ++ zeros 16) 10 2 = 4097 ∧ slice (hdrBody ++ zeros 16) 16 32 = zeros 32 ∧
      bundleIv (hdrBody ++ zeros 16) 0xFFFFFFFE = bundleIv hdr 0xFFFFFFFE ∧ (hdrBody ++ zeros 16).take 112 = hdr.take 112 ∧
      slice hdr 112 16 ≠ slice (hdrBody ++ zeros 16) 112 16 := by decide +kernel
  refine ⟨by decide +kernel, ?_, ?_, ?_⟩ <;> unfold headerCheck
  · simp only [h1, hdr_tag]; decide
  · simp only [h1, hdr_tag]; decide
  · simp only [h2, hdr_tag, Bool.not_true, Bool.false_eq_true, if_false, ne_eq, not_false_iff, if_true]; decide +kernel

theorem wit_ingestHeaderForm : headerCheck (ingJob 6) (bundleOf (ingesting (ingJob 6)) 4097) (zeros 128) = some igHeader := by decide +kernel

/-- The job after its header. -/
def chunkJob : IngestJob := { ingJob 6 with header := hdr, headerOk := true }

theorem wit_ingestChunk : (ingesting chunkJob).ingest.run = some chunkJob ∧ chunkJob.chunk < chunkCountOf chunkJob.payload ∧ chunkLen chunkJob 0 = 64 ∧
    (∃ t, hasKeys t ∧ readLines chunkJob 2 (served (zeros 64 ++ chunkTrailer chunkTag)) [] (ingesting chunkJob) = (some true, zeros 64 ++ chunkTrailer chunkTag, t)) ∧
    (∀ t, hasKeys t → ∀ e, (writeLines chunkJob 0 [(zeros 64, e)] 0 t).1 = some (!e)) ∧
    (writeLines chunkJob 0 [(zeros 64, false)] 0 (inGuard (fun x => { x with cache := {} }) (ingesting chunkJob))).1 = none ∧ (ingesting chunkJob).mower.lanes ≠ 0 ∧
    (ingesting chunkJob).ingest.gcmLanes ≠ 0 := by
  refine ⟨rfl, by decide +kernel, by decide +kernel, ?_, fun t ht e => ?_, by decide +kernel, by decide, by decide⟩
  · have h := readLines_open (ingesting_hasKeys chunkJob) chunkJob rfl 2 66 rfl rfl (by decide) (by decide) (bytesVec 512 ((zeros 64 ++ chunkTrailer chunkTag).take 64))
      (bytesVec 512 ((zeros 64 ++ chunkTrailer chunkTag).drop 64))
    rwa [show vecBytes 64 (bytesVec 512 ((zeros 64 ++ chunkTrailer chunkTag).take 64)) ++ vecBytes 64 (bytesVec 512 ((zeros 64 ++ chunkTrailer chunkTag).drop 64)) =
      zeros 64 ++ chunkTrailer chunkTag by decide +kernel] at h
  · obtain ⟨u, hu⟩ := placeWrite_ok ht (bytesVec 512 (zeros 64)) e
    have hl : lineOf chunkJob.place 0 = some (0, 640) := rfl
    have hm : chunkJob.model = 4097 := rfl
    simp only [writeLines, hl, hm, hu]
    cases e <;> rfl

theorem wit_ingestTag : trailerOk chunkJob (chunkTrailer chunkTag) = true ∧ trailerOk chunkJob (zeros 64) = false ∧
    (∀ t, chunkTrailer t = chunkTrailer chunkTag ∨ slice (chunkTrailer t) 16 8 = slice (chunkTrailer chunkTag) 16 8 →
      gcmTag (bundleOf (ingesting chunkJob) 4097).key (bundleIv chunkJob.header 0) (chunkJob.header.take 112 ++ slice (chunkTrailer t) 16 8) (zeros 64) = chunkTag) ∧
    slice (chunkTrailer chunkTag) 0 16 = chunkTag ∧ slice (chunkTrailer (zeros 16)) 0 16 ≠ chunkTag ∧
    slice (chunkTrailer (zeros 16)) 16 8 = slice (chunkTrailer chunkTag) 16 8 := by
  refine ⟨by decide +kernel, by decide +kernel, fun t ht => ?_, by decide +kernel, by decide +kernel, by decide +kernel⟩
  rw [show slice (chunkTrailer t) 16 8 = slice (chunkTrailer chunkTag) 16 8 from ht.elim (fun h => by rw [h]) id]
  decide +kernel

/-- The job after its only chunk. -/
def manJob : IngestJob := { chunkJob with chunk := 1, leaves := [List.replicate 32 1] }

theorem wit_ingestManifest : (ingesting manJob).ingest.run = some manJob ∧ chunkCountOf manJob.payload ≤ manJob.chunk ∧
    (128 + manJob.payload + 64 * chunkCountOf manJob.payload) / 64 = 4 ∧
    (∃ t, hasKeys t ∧ readLines manJob 4 (served (man0)) [] (ingesting manJob) = (some true, man0, t)) := by
  refine ⟨rfl, by decide +kernel, by decide +kernel, ?_⟩
  have h := readLines_open (ingesting_hasKeys manJob) manJob rfl 4 68 rfl rfl (by decide) (by decide) (bytesVec 512 ((man0).take 64)) (bytesVec 512 ((man0).drop 64))
  rwa [show vecBytes 64 (bytesVec 512 ((man0).take 64)) ++ vecBytes 64 (bytesVec 512 ((man0).drop 64)) = man0 by decide +kernel] at h

theorem wit_ingestRoot : manifestForm manJob man0 = true ∧ manifestForm manJob (zeros 128) = false ∧ slice man0 24 32 ≠ zeros 32 ∧
    rootOfLeaves .seal manJob.payload manJob.leaves = slice man0 24 32 ∧ rootOfLeaves .seal manJob.payload [List.replicate 32 2] ≠ slice man0 24 32 ∧
    manifestForm manJob (man root1 0) = true ∧ (man root1 0).take 112 = man0.take 112 ∧ slice (man root1 0) 112 16 ≠ slice man0 112 16 := by decide +kernel

theorem wit_ingestManifestTag :
    gcmTag (bundleOf (ingesting manJob) 4097).key (bundleIv manJob.header 0xFFFFFFFF) (manJob.header.take 112 ++ man0.take 112) [] = slice man0 112 16 := by decide +kernel

theorem wit_ingestStart : ({ ingesting (ingJob 6) with ingest := { queue := [ingJob 6] }, ks := (town opr).ks } : State).ingest.run = none ∧ ((town opr).dom 4097).isSome = true ∧
    drawNow (described {} true) = true ∧ (drawBytes 32 (described {} true)).1.isSome = true ∧ drawNow (described {} false) = true ∧ (drawBytes 32 (described {} false)).1.isNone = true ∧
    drawNow { described {} true with ent := { (described {} true).ent with reseedDue := true } } = false ∧
    Write (ingesting (ingJob 6)) c0 (ingestPage + 0x3C) ∧ bitAt (1#32) 0 = true ∧ bitAt (0#32) 0 = false := by unfold Write Access; decide +kernel

/-! ### The vault and the public-key engine -/

/-- The state with keys in anchor slots, each of the value of zeros of its length. -/
def filled (l : List (Fin 64 × BitVec 32)) (s : State) : State :=
  { s with vault := { s.vault with slots := l.foldl (fun v p => v.set p.1 { attr := p.2, value := zeros (typeLen (attrType p.2)) }) s.vault.slots } }

/-- The vault with an argument, a context length and operand bytes, and slots 5, 40 (derivation), 42 (decapsulation), 44 (wrapping), 46 (exportable, saved), 48 (agreement) filled. -/
def vaulted (arg : BitVec 32) (opnd : Bytes) : State :=
  filled [(5, mkAttr 1 2 1 false false 1), (40, mkAttr 2 4 1 false false 2), (42, mkAttr 7 2 1 false false 2), (44, mkAttr 1 3 3 false false 2), (46, mkAttr 1 1 1 true true 2),
    (48, mkAttr 8 4 1 false false 2), (50, mkAttr 4 5 1 false false 2)]
    { up with boot := { up.boot with romLocked := true }, dig := { up.dig with sha2Cores := 3, kecCores := 3 }, vault := { up.vault with arg := arg, len := 4, opnd := bufStore 0 [] 0 opnd }, pk := { up.pk with dpA := true, dpB := true } }

/-- A write of VAULT_CMD with GO. -/
def vcmd (code slot slot2 : Nat) : BitVec 32 := BitVec.ofNat 32 (2 ^ 31 + slot2 * 2 ^ 16 + slot * 2 ^ 8 + code)

/-- An argument of a type and usage. -/
def varg (type usage : Nat) : BitVec 32 := mkAttr type usage 0 false false 0

/-- The operands of an IMPORT, whose attribute word stands at byte 1568. -/
def importOpnd : Bytes := zeros 1568 ++ vecBytes 4 (varg 1 1)

/-- The operands of a RESTORE of slot 60. -/
def blobOpnd (ver : Nat) : Bytes := blobMagic ++ [60, 0] ++ vecBytes 4 (mkAttr 1 1 1 true true 2) ++ leBytes 4 ver ++ zeros 28 ++ zeros 112

theorem wit_vaultWrite : Write up c0 (vaultPage + 0x20) ∧ (∀ code ∈ [1, 2, 3, 4, 5, 6, 7, 8, 9], bitAt (vcmd code 60 0) 31 = true ∧ bitsOf (vcmd code 60 0) 7 0 = code ∧
      bitsOf (vcmd code 63 0) 13 8 = 63 ∧ bitsOf (vcmd code 60 63) 21 16 = 63) ∧ ({ up with vault := { up.vault with run := some {} } } : State).vault.run.isSome = true ∧
    up.vault.run = none := by unfold Write Access; decide +kernel

theorem wit_vaultRuns :
    (vaultRefused (vaulted (varg 1 1) []) (some 0) (vcmd 1 60 0) = none ∧ typeParam (attrType (varg 1 1)) = none) ∧
    (vaultRefused (vaulted (varg 4 5) []) (some 0) (vcmd 1 60 0) = none ∧ typeParam (attrType (varg 4 5)) = some 2) ∧
    vaultRefused (vaulted 0 []) (some 0) (vcmd 2 60 0) = none ∧
    (vaultRefused (vaulted (varg 1 1) []) (some 0) (vcmd 3 60 40) = none ∧ attrType ((vaulted (varg 1 1) []).anchor 40).attr ≠ 8) ∧
    (vaultRefused (vaulted (varg 1 1) []) (some 0) (vcmd 3 60 48) = none ∧ attrType ((vaulted (varg 1 1) []).anchor 48).attr = 8) ∧
    vaultRefused (vaulted 0 importOpnd) (some 0) (vcmd 4 60 42) = none ∧ vaultRefused (vaulted 0 []) (some 0) (vcmd 5 46 44) = none ∧
    vaultRefused (vaulted 0 []) (some 0) (vcmd 6 46 0) = none ∧ vaultRefused (vaulted 0 (blobOpnd 0)) (some 0) (vcmd 7 60 0) = none ∧
    vaultRefused (vaulted 0 []) (some 0) (vcmd 8 46 0) = none ∧
    (vaultRefused (vaulted 0 []) (some 0) (vcmd 9 46 0) = none ∧ typeParam (attrType ((vaulted 0 []).anchor 46).attr) = none) ∧
    (vaultRefused (vaulted 0 []) (some 0) (vcmd 9 50 0) = none ∧ typeParam (attrType ((vaulted 0 []).anchor 50).attr) = some 2) ∧ pkMode (vaulted 0 []).pk ≠ 3 ∧
    (∀ c ∈ [1, 2, 3, 4, 5, 6, 7, 8, 9], vaultDown (vaulted (varg 2 4) []) { code := c, arg := varg 2 4 } = false) ∧
    (∀ c ∈ [1, 3, 4, 9], vaultDown up { code := c, arg := varg 2 4 } = true) ∧ pairOf (vaulted 0 []) 50 = none := by decide +kernel

theorem wit_vaultRefusals : vaultRefused (vaulted 0 []) none (vcmd 8 46 0) = some eOwner ∧ vaultRefused (vaulted 0 []) (some 0) (vcmd 8 31 0) = some eRange ∧
    vaultRefused (vaulted (varg 1 1) []) (some 0) (vcmd 1 46 0) = some eState ∧ vaultRefused (vaulted (varg 1 4) []) (some 0) (vcmd 1 60 0) = some 0x20 ∧
    vaultRefused (vaulted 0 []) (some 0) (vcmd 10 46 0) = some eReserved := by decide +kernel

theorem wit_vaultBlob : drawNow (described {} true) = true ∧ (drawBytes 12 (described {} true)).1.isSome = true ∧ drawNow (described {} false) = true ∧
    (drawBytes 12 (described {} false)).1.isNone = true ∧ drawNow { described {} true with ent := { (described {} true).ent with queue := [(.vault, 12)] } } = false ∧ ((vaulted 0 []).anchor 5).value = zeros 32 ∧
    fieldLe (blobOpnd 1) 16 4 = 1 ∧ fieldLe (blobOpnd 0) 16 4 = 0 ∧ (vaulted 0 []).boot.runSvn.toNat = 0 := by decide +kernel

theorem wit_blobTag (x t u : Bytes) (hx : x.length = 144) (ht : t = gcmTag (zeros 32) (slice x 32 12) (x.take 48) (slice x 48 96)) (hl : u.length = 16) :
    gcmTag (zeros 32) (slice (x ++ u) 32 12) ((x ++ u).take 48) (slice (x ++ u) 48 96) = slice (x ++ u) 144 16 ↔ t = u := by
  have h1 : ∀ a n, a + n ≤ 144 → slice (x ++ u) a n = slice x a n := fun a n h => by
    unfold slice padTo
    rw [List.drop_append_of_le_length (by omega), List.take_append_of_le_length (by rw [List.length_drop]; omega)]
    simp only [List.length_append, List.length_drop]
    rw [show n - (x.length - a + u.length) = 0 by omega, show n - (x.length - a) = 0 by omega]
  rw [h1 32 12 (by decide), h1 48 96 (by decide), List.take_append_of_le_length (by omega), ← ht]
  unfold slice padTo
  rw [← hx, List.drop_left, ← hl, List.take_length, Nat.sub_self, show zeros 0 = [] from rfl, List.append_nil]

theorem wit_blobTagLength : ((blobOpnd 0).take 144).length = 144 ∧
    (gcmTag (zeros 32) (slice ((blobOpnd 0).take 144) 32 12) (((blobOpnd 0).take 144).take 48) (slice ((blobOpnd 0).take 144) 48 96)).length = 16 := by decide +kernel

/-- `up` with all four cores running. -/
def allUp : State := { up with boot := { up.boot with cores := Vector.replicate 4 .running } }

/-- A write of PK_JOB_CMD with GO. -/
def pcmd (op param : Nat) : BitVec 32 := BitVec.ofNat 32 (2 ^ 31 + param * 2 ^ 8 + op)

/-- The engine in service, with jobs in its queues and areas. -/
def engine (f : Pk → Pk) : State := { up with pk := f { up.pk with dpA := true, dpB := true } }

theorem wit_pkSubmit : (∀ n : Fin 8, Write allUp (.core (Fin.ofNat 4 (n.val / 2))) (pkSlotPage n + 0x20) ∧ ownsSlot n (.core (Fin.ofNat 4 (n.val / 2))) = true) ∧ ownsSlot 2 c0 = false ∧
    (∀ op ∈ [1, 2, 3, 4, 5, 6, 7, 8], bitAt (pcmd op 2) 31 = true ∧ bitsOf (pcmd op 2) 7 0 = op) ∧ (engine id).pk.busy 0 = false ∧
    (engine (fun k => { k with shortQ := [{}] })).pk.busy 0 = true ∧ pkMode (engine id).pk ≠ 3 ∧ pkMode (engine (fun k => { k with dpA := false, dpB := false, dpAOut := true, dpBOut := true })).pk = 3 ∧
    isLong (engine id).pk 1 3 = true ∧ isLong (engine id).pk 1 2 = false ∧ bitAt (2#32) 1 = true ∧ bitAt (2#32) 0 = false ∧
    Access up c0 (pkSlotPage 0 + 0x2C) ∧ Write up c0 (pkPage + 0x20) ∧ bitsOf (7#32) 1 0 = 3 ∧ bitsOf (6#32) 1 0 = (2#2).toNat ∧ bitAt (3#32) 2 = false := by unfold Write Access; decide +kernel

theorem wit_pkStart : pkNext (engine id).pk = none ∧ pkNext (engine (fun k => { k with longQ := [{ long := true }] })).pk = some true ∧
    pkNext (engine (fun k => { k with shortQ := [{}] })).pk = some false ∧ drawNow (engine id) = true ∧
    drawNow { (engine id) with ent := { up.ent with seeded := true, queue := [(.vault, 12)] } } = false ∧ ({ op := 2 } : PkJob).op = 2 ∧ ({ op := 1 } : PkJob).op ≠ 2 ∧ (engine (fun k => { k with shortQ := [{}] })).pk.shortQ = [{}] := by decide +kernel

/-- A job of a phase in the area of its class. -/
def inArea (p : PkPhase) (v : BitVec 8) : State :=
  engine (fun k => { k with longRun := some { phase := p, verdict := v, long := true, op := 1, param := 3 }, shortQ := [{}] })

theorem wit_pkPhases : (∀ p ∈ [PkPhase.running, .validated, .aborting], (inArea p 0).pk.area true = some { phase := p, verdict := 0, long := true, op := 1, param := 3 }) ∧
    (inArea .running 0x62).pk.area true = some { phase := .running, verdict := 0x62, long := true, op := 1, param := 3 } ∧
    (inArea .validated 0).pk.longRun = some { phase := .validated, long := true, op := 1, param := 3 } ∧ (inArea .validated 0).pk.shortRun = none ∧ (inArea .validated 0).pk.shortQ ≠ [] ∧
    (inArea .validated 0).pk.stDue = false ∧ (engine id).pk.dp true = true ∧ up.pk.dp true = false ∧
    (engine (fun k => { k with stDue := true })).pk.stDue = true ∧ (engine id).pk.shortRun = none ∧ (engine id).pk.longRun = none ∧ (engine id).ports.pairDone = true ∧
    (engine (fun k => { k with dpAOut := true })).pk.dpAOut = true ∧ (engine id).pk.dpBOut = false ∧ (engine id).tamper.latch = false ∧
    (engine (fun k => { k with dpAOut := true })).pk.dpOut false = true ∧ (engine id).pk.dpOut true = false := by decide +kernel

/-- The operands of CHECK_CURVE for the curve y² = x³ + 2x + 1 over the field of 5 elements, whose seven points (0, 1) generates. -/
def curveWindow : Bytes := beBytes 66 5 ++ beBytes 66 2 ++ beBytes 66 1 ++ beBytes 66 0 ++ beBytes 66 1 ++ beBytes 66 7 ++ [1]

theorem wit_pkCompute : (pkCompute (engine id).pk [] { op := 8, param := 0x20, window := curveWindow }).curve.isSome = true ∧
    (pkCompute (engine id).pk [] { op := 8, param := 0x20 }).curve = none := by decide +kernel

/-! ### Digests, compares and the generator -/

/-- The digest engine in service, with context 2 of core 0 and a region of core 0. -/
def digesting (x : Ctx) (r : DigCore) : State :=
  { up with dig := { up.dig with sha2Cores := 3, kecCores := 3, ctxs := up.dig.ctxs.set 2 x, regions := up.dig.regions.set 0 r } }

theorem wit_digestCmd : Write up c0 (ctxPage 2 + 0x20) ∧ (∀ op ∈ [1, 2, 3, 4, 5, 6, 7], bitAt (0x80000000#32 + BitVec.ofNat 32 op) 31 = true ∧
      bitsOf (0x80000000#32 + BitVec.ofNat 32 op) 3 0 = op) ∧
    (∀ x ∈ [(1, ({} : Ctx)), (2, { state := .claimed, cfg := 1 }), (3, { state := .opened, alg := 1 }), (3, { state := .opened, alg := 1, len := 64 }), (4, { state := .done }),
      (5, { state := .claimed }), (6, { state := .opened, alg := 1 })],
      ctxOwned (digesting x.2 {}) 2 c0 (x.1 == 1) = true ∧ ctxRefused (digesting x.2 {}) 2 0 x.1 (0x80000000#32 + BitVec.ofNat 32 x.1) = none) ∧
    ({ state := .opened, alg := 1 } : Ctx).complete = true ∧ ({ state := .opened, alg := 1, len := 64 } : Ctx).complete = false ∧
    ctxOwned (digesting {} {}) 2 c0 false = false ∧ ctxOwned (digesting { state := .claimed, owner := 1 } {}) 2 c0 true = false ∧
    digStarting (digesting {} {}) = false ∧ digStarting { up with brup := { up.brup with unitsLeft := [6 * 1024] } } = true ∧
    ctxRefused (digesting { state := .claimed } {}) 2 0 2 0x80000002#32 = some eReserved ∧ ctxRefused (digesting { state := .claimed } {}) 2 0 1 0x80000001#32 = some eState := by
  unfold Write Access; decide +kernel

/-- The first 496 bytes of a blob of core 0 with SEQ 7. -/
def exported : Bytes := ascii "KFL-DCTX" ++ leBytes 2 1 ++ leBytes 1 0 ++ leBytes 1 1 ++ leBytes 4 7 ++ zeros 480

/-- Core 0 with a blob in its transfer buffer, its SEQ outstanding, and context 2 claimed. -/
def importing (m : List Host.Cell) : State :=
  filled [(6, mkAttr 1 1 1 false false 1)] (digesting { state := .claimed } { xfer := m, outstanding := [7] })

theorem bufLoad_range (m : List Host.Cell) (n x : Nat) : bufLoad 0 m x n = (List.range' x n).map (bufRead 0 m) := by
  induction n generalizing x with
  | zero => rfl
  | succ n ih => rw [bufLoad, ih, List.range'_succ, List.map_cons]

theorem buffer_holds (b : Bytes) (n : Nat) (hn : b.length = n) : bufLoad 0 (bufStore 0 [] 0 b) 0 n = b := by
  rw [bufLoad_range]
  apply List.ext_getElem
  · simp [hn]
  · intro i h1 h2
    rw [List.getElem_map, List.getElem_range', bufRead_bufStore 0 b [] 0 _ rfl, if_pos (by omega)]
    simp [h2]

theorem wit_import : ∃ m r, blobRecord (importing m) (blobIn (importing m) 0) = some r ∧ ctxRefused (importing m) 2 0 7 0x80000007#32 = none ∧
    ctxOwned (importing m) 2 c0 false = true := by
  obtain ⟨t, ht⟩ : ∃ t, t = gcmTag (zeros 32) (slice exported 32 12) (exported.take 48) (slice exported 48 448) := ⟨_, rfl⟩
  have hl : t.length = 16 := by rw [ht]; decide +kernel
  have hx : exported.length = 496 := by decide +kernel
  obtain ⟨m, hm⟩ : ∃ m, m = bufStore 0 [] 0 (exported ++ t) := ⟨_, rfl⟩
  have hg : ((importing m).digRegion 0).xfer = m := rfl
  have hb : blobIn (importing m) 0 = exported ++ t := by
    unfold blobIn
    rw [hg, hm]
    exact buffer_holds (exported ++ t) 512 (by rw [List.length_append, hl, hx])
  have hs : ∀ a n, a + n ≤ 496 → slice (exported ++ t) a n = slice exported a n := fun a n h => by
    unfold slice padTo
    rw [List.drop_append_of_le_length (by omega), List.take_append_of_le_length (by rw [List.length_drop]; omega)]
    simp only [List.length_append, List.length_drop]
    rw [show n - (exported.length - a + t.length) = 0 by omega, show n - (exported.length - a) = 0 by omega]
  have hr : blobRecord (importing m) (exported ++ t) = some (gcmCrypt (zeros 32) (slice exported 32 12) (slice exported 48 448)) := by
    have h6 : ((importing m).anchor 6) = { attr := mkAttr 1 1 1 false false 1, value := zeros 32 } := rfl
    have he : slice (exported ++ t) 496 16 = t := by
      unfold slice padTo
      rw [← hx, List.drop_left, ← hl, List.take_length, Nat.sub_self, show zeros 0 = [] from rfl, List.append_nil]
    unfold blobRecord
    rw [h6, hs 32 12 (by decide), hs 48 448 (by decide), he, List.take_append_of_le_length (by omega)]
    exact if_pos ⟨by decide, ht.symm⟩
  have hf : ∀ a n, a + n ≤ 496 → Machine.fieldLe (exported ++ t) a n = Machine.fieldLe exported a n := fun a n h => by
    unfold Machine.fieldLe
    rw [hs a n h]
  have h1 : ctxDown (importing m) ((importing m).ctx 2) 7 = false := rfl
  have h2 : ctxReserved ((importing m).ctx 2) 7 0x80000007#32 (exported ++ t) = false := by
    rw [show (importing m).ctx 2 = { state := .claimed } from rfl]
    unfold ctxReserved
    rw [List.take_append_of_le_length (by omega), hf 8 2 (by decide), hf 44 4 (by decide), hf 11 1 (by decide)]
    decide +kernel
  have h3 : ctxPermitted ((importing m).ctx 2) 7 = true := rfl
  have h4 : ((importing m).digRegion 0).outstanding = [7] := rfl
  have h5 : Machine.fieldLe exported 10 1 = 0 ∧ bytesVec 32 (slice exported 12 4) = 7 ∧
      Machine.fieldLe (gcmCrypt (zeros 32) (slice exported 32 12) (slice exported 48 448)) 433 1 ≠ 2 := by decide +kernel
  refine ⟨m, _, by rw [hb]; exact hr, ?_, rfl⟩
  unfold ctxRefused
  simp only [hb, hr, h1, h2, h3, h4, hf 10 1 (by decide), hs 12 4 (by decide), h5]
  simp

theorem wit_contexts : Access up c0 (ctxPage 2 + 0x34) ∧ Write up c0 (ctxPage 2 + 0x40) ∧ (∀ st ∈ [CtxState.claimed, .opened, .finishing, .done, .ended],
      ∀ f ∈ [false, true], ctxOwned (digesting { state := st, feeding := f } {}) 2 c0 false = true ∧ (digesting { state := st, feeding := f } {}).ctx 2 = { state := st, feeding := f }) ∧
    bitAt (0x80000040#32) 31 = true ∧ bitsOf (0x80000040#32) 30 0 = 64 ∧ dmaBeyond 0 64 = false ∧ dmaBeyond (2 ^ 52) 64 = true ∧ Nat.min 64 (0 - 0) = 0 ∧ Nat.min 64 (64 - 0) ≠ 0 ∧
    (0 : Nat) < algBlock 1 ∧ algBlock 1 ≤ (zeros 64).length ∧ (digesting {} {}).dig.kindUp (algKeccak 1) = true ∧ up.dig.kindUp (algKeccak 1) = false ∧
    ((modCtx 2 (fun y => { y with st := absorbBlock y.alg y.st (y.buf.take 64), buf := y.buf.drop 64 })
      (digesting { state := .finishing, alg := 1, buf := zeros 64, len := 64, fed := 64 } {})).ctx 2).complete = true ∧
    ((modCtx 2 (fun y => { y with st := absorbBlock y.alg y.st (y.buf.take 64), buf := y.buf.drop 64 })
      (digesting { state := .finishing, alg := 1, buf := zeros 64, len := 128, fed := 64 } {})).ctx 2).complete = false ∧
    ((digesting { state := .finishing, alg := 1, buf := zeros 64, len := 64, fed := 64 } {}).dig.served (algKeccak 1)).contains 2 = true ∧
    ((digesting { state := .finishing, alg := 1, buf := zeros 63, len := 64, fed := 63 } {}).dig.served (algKeccak 1)).contains 2 = false ∧
    (0#64).toNat < 64 ∧ (∀ st ∈ [CtxState.finishing, .done, .ended], ∀ f ∈ [false, true], ({ state := st, finished := f } : Ctx).finished = f) ∧
    Write up c0 (digPage + 0x20) ∧ bitAt (0x100#32) 8 = true := by unfold Write Access; decide +kernel

theorem wit_compare : (∀ g : Fin 4, Write allUp (.core g) (digPage + 0x200 + 0x380 * g + 0x280) ∧ Access allUp (.core g) (digPage + 0x3C) ∧ (coreOf (.core g) == some g.val) = true) ∧
    (coreOf (.core 1) == some 0) = false ∧ isCore port0 = false ∧ bitAt (0x80000040#32) 31 = true ∧ bitsOf (0x80000040#32) 6 0 = 64 ∧ bitsOf (0x80000041#32) 6 0 = 65 ∧
    bitsOf (0x80000280#32) 6 0 = 0 ∧ bitAt (0x800002C0#32) 7 = true ∧ bitsOf (0x800002C0#32) 10 8 = 2 ∧ bitsOf (0x800002C0#32) 6 0 = 64 ∧
    ((digesting { state := .done, result := zeros 64 } {}).ctx 2).result.length = 64 ∧ ((digesting { state := .done, result := zeros 32 } {}).ctx 2).result.length < 64 ∧
    ((digesting {} { cmpBusy := true }).digRegion 0).cmpBusy = true ∧ ({ up with dig := { up.dig with cmpQ := [0, 1] } } : State).dig.cmpQ.head? = some (0 : Fin 4).val ∧
    ({ up with dig := { up.dig with cmpQ := [0, 1] } } : State).dig.cmpQ.head? ≠ some (1 : Fin 4).val := by unfold Write Access; decide +kernel

/-- The noise source and the generator in some state. -/
def noisy (f : Ent → Ent) : State := { up with ent := f up.ent }

theorem wit_noise : (noisy id).tamper.latch = false ∧ { up with tamper := { up.tamper with latch := true } }.tamper.latch = true ∧ (noisy id).ports.pairDone = true ∧ (noisy id).ent.noise ≠ .outOfService ∧ (noisy (fun e => { e with noise := .outOfService })).ent.noise = .outOfService ∧
    (if (some true : Option Bool) = some true then 25 + 1 else 1) = 26 ∧ (noisy (fun e => { e with rctLast := some true, rctRun := 25 })).ent.rctRun + 1 = 26 ∧
    (noisy (fun e => { e with aptSeen := 1, aptFirst := true, aptCount := 665 })).ent.aptCount + 1 = 666 := by decide +kernel

theorem wit_generator : (noisy (fun e => { e with noise := .healthy })).ent.seeded = false ∧ (noisy (fun e => { e with noise := .healthy })).ent.katFailed = false ∧
    (noisy (fun e => { e with noise := .healthy, drbgKey := zeros 32 })).ent.drbgKey ≠ [] ∧ (List.replicate 2048 true).length = 2048 ∧
    (noisy (fun e => { e with noise := .healthy })).ent.drbgKey = [] ∧ 1536 ≤ (List.replicate 2048 true).length ∧
    Write up c0 (entPage + 0x20) ∧ bitAt (1#32) 0 = true ∧ bitAt (2#32) 0 = false := by unfold Write Access; decide +kernel

theorem wit_draws : (∀ g : Fin 4, Write allUp (.core g) (entPage + 0x100 + 0x80 * g)) ∧ Path.core 1 ≠ .core 0 ∧ (up.ent.draws.get 0).busy = false ∧
    ((noisy (fun e => { e with draws := e.draws.set 0 { busy := true } })).ent.draws.get 0).busy = true ∧ bitsOf (0x80000040#32) 6 0 = 64 ∧ bitsOf (0x80000041#32) 6 0 = 65 ∧
    up.ent.seeded = false ∧ (described {} true).ent.seeded = true ∧ (∀ w ∈ [DrawFor.core 0, .vault, .blob 2 0], (noisy (fun e => { e with queue := [(w, 64)] })).ent.queue = [(w, 64)]) ∧
    up.vault.run = none ∧ (noisy (fun e => { e with queue := [(.vault, 12)], seeded := true, reseedDue := true })).ent.canServe = false ∧
    ((digesting { state := .opened } {}).ctx 2).owner = 0 ∧
    ((described {} true).ent.draw 64).1.isSome = true ∧ (up.ent.draw 64).1 = none ∧ up.ent.canServe = true := by unfold Write Access; decide +kernel

/-! ### Tamper, power, failures and the mirror -/

/-- The tamper latch set, before and after the read-back check. -/
def tampered (cleared : Bool) : State := { up with tamper := { up.tamper with latch := true, cleared := cleared, done := cleared } }

theorem wit_tamper : up.ports.rstCold = false ∧ up.tamper.latch = false ∧ (tampered false).tamper.latch = true ∧ (tampered false).tamper.cleared = false ∧
    (tampered false).tamper.done = false ∧ (tampered true).tamper.cleared = true := by decide +kernel

/-- Die 1 with no power good for its guards. -/
def darkGuards : State := { up with dies := up.dies.set 1 { up.dies.get 1 with guardGood := false } }

theorem wit_power : (up.dies.get 1).guardGood = true ∧ (darkGuards.dies.get 1).guardGood = false ∧ guardSafe up 1 = false ∧
    guardSafe { up with guards := up.guards.map (fun g => { g with fenced := true }) } 1 = true ∧
    (settle (fenceAll true (allGuards.filter (fun g => (up.dieN (g / 10)).guardGood)) { up with ports := { up.ports with broken := true } })).activeDie = 0 ∧
    (settle (fenceAll true (allGuards.filter (fun g => (up.dieN (g / 10)).guardGood)) { up with ports := { up.ports with broken := true } })).mir.site = false := by decide +kernel

theorem wit_faultQueue : Write up c0 (fqPage + 0x24) ∧ bitAt (3#32) 0 = true ∧ bitAt (3#32) 1 = true ∧ bitAt (2#32) 0 = false ∧ bitAt (1#32) 1 = false ∧
    Write up c0 (foPage + 0x24) ∧ Write up port0 (foPage + 0x24) ∧ isCore port0 = false ∧ bitAt up.boot.wdogArmed 0 = false ∧
    bitAt ({ up with boot := { up.boot with wdogArmed := 1 } } : State).boot.wdogArmed 0 = true := by unfold Write Access; decide +kernel

/-- The standby: alive, in a session or not, ready or not, holding or not. -/
def standby (session ready : Bool) (hold : Option Nat) : State :=
  { upKs with sby := { upKs.sby with alive := true, session := session, selftest := ready, imageDone := ready, copyDone := ready, holdUntil := hold },
              mir := { upKs.mir with session := session, ready := ready, mirFail := true, mirTakeover := true } }

theorem wit_failures : (up.boot.cores.get 0).runs = true ∧ (up.boot.cores.get 1).runs = false ∧ up.sby.alive = false ∧ (standby true true none).sby.alive = true ∧
    (standby true true none).mir.site = false ∧ (standby true true none).sby.isReady = true ∧ (standby true false none).sby.isReady = false ∧
    (standby true true (some 9)).sby.holdUntil.isSome = true ∧ (0 : Fin 4).val = up.boot.bootCore ∧ (1 : Fin 4).val ≠ up.boot.bootCore ∧ ksUp upKs = true ∧
    ksUp (digCoreReset 2 (pkCoreReset 2 { upKs with boot := { upKs.boot with cores := vmod upKs.boot.cores 2 (fun _ => .failed) } })) = true ∧
    ksUp (digCoreReset 1 (pkCoreReset 1 { upKs with boot := { upKs.boot with cores := vmod upKs.boot.cores 1 (fun _ => .failed) } })) = false ∧
    (standby true true none).sby.session = true ∧ (standby true true none).mir.mirFail = true ∧ (standby true true none).mir.mirTakeover = true ∧
    (reachTime 2000 (standby true true none)).sby.isReady = true ∧ (reachTime 2000 (standby true false none)).sby.isReady = false := by decide +kernel

/-- A frame on its way to the standby. -/
def framed (b : FrameBody) (s : State) : State := { s with mir := { s.mir with toStandby := [{ seq := 3, body := b }] } }

theorem wit_frames (b : FrameBody) : (framed b (standby true true none)).mir.toStandby = [{ seq := 3, body := b }] ∧ (framed b (standby true true none)).ports.rstCold = false ∧
    (framed b (standby true true none)).mir.site = false ∧ (framed b (standby true true none)).sby.alive = true ∧ (framed b (standby true true none)).sby.session = true ∧
    (framed b (standby false true none)).sby.session = false ∧ (framed b up).sby.alive = false ∧ (framed b (standby true true none)).sby.nonce = [] :=
  ⟨rfl, rfl, rfl, rfl, rfl, rfl, rfl, rfl⟩

theorem wit_wire (w : Bytes) : w ++ [0] ≠ w := by simp

theorem wit_helloNone (k : Bytes) : keyUnwrap k [] = none := rfl

theorem wit_mirror : (∀ s ∈ [standby true true none], s.mir.session = true ∧ s.mir.site = false ∧ ksUp s = true ∧ s.sby.holdUntil = none ∧ s.mir.lostAt = none ∧ s.sby.shadowStale = false) ∧
    (standby true true (some 9)).sby.holdUntil = some 9 ∧ (standby false true none).mir.session = false ∧
    ({ standby false true none with mir := { upKs.mir with lostAt := some 5 } } : State).mir.lostAt = some 5 ∧
    ({ standby true true none with mir := { (standby true true none).mir with toActive := [{ seq := 4, body := .ack 3 }], unacked := [{ frame := { seq := 3 } }] } } : State).mir.toActive =
      [{ seq := 4, body := .ack 3 }] ∧
    ({ standby true true none with mir := { (standby true true none).mir with unacked := [{ resent := true }] } } : State).mir.unacked = [{ resent := true }] ∧
    ({ standby true true none with sby := { (standby true true none).sby with shadowStale := true } } : State).sby.shadowStale = true ∧ upKs.ks.held.contains 2 = false ∧
    (upKs.dieN 2).inReset = false ∧ (reachTime 1000005 (standby true true none)).sby.alive = true ∧ ksUp (reachTime 1000005 (standby true true none)) = true := by decide +kernel

/-! ### Register accesses, mailboxes and the DMA port -/

theorem wit_reads : (∀ k : Fin 4, Access allUp (.core k) (entPage + 0x100 + 0x80 * k + 0x40) ∧ drawOutAt (entPage + 0x100 + 0x80 * k + 0x40) = some (k.val, 0)) ∧
    Access up c0 0x31000 ∧ ownsSlot ((0x37000 - 0x31000) / 0x3000) c0 = false ∧ ownsSlot ((0x31000 - 0x31000) / 0x3000) c0 = true ∧ pageAt 0x31000 = some (.pkJob 0) ∧
    pageAt 0x1000 = none ∧ pageAt 0x70028 = some .attestation ∧ ownerReads up c0 .attestation 0x28 = true ∧ wide up .attestation 0x28 = some up.att.quoteSeq ∧
    wide up .attestation 0x20 = none ∧ drawOutAt 0x70028 = none ∧ reaches up (.port 1 0) 0x70028 = false ∧ reaches up (.port 1 0) (entPage + 0x140) = false ∧
    reaches up c0 0x800020 = true ∧ clocked { up with ports := { up.ports with broken := true } } 0x800020 = false ∧ clocked up 0x800020 = true := by unfold Access; decide +kernel

theorem wit_telemetry : Asks (withSess opr upKs) (operMsg 0x0109) 65536 opr ∧ (leBytes 4 0x70028 ++ leBytes 2 64 ++ leBytes 2 0).length = 8 ∧
    Machine.fieldLe (leBytes 4 0x70028 ++ leBytes 2 64 ++ leBytes 2 1) 6 2 ≠ 0 ∧ Machine.fieldLe (leBytes 4 0x70028 ++ leBytes 2 64 ++ leBytes 2 0) 4 2 = 64 ∧
    (∀ i, i < 64 → telemetryMay (0x70028 + 4 * i) = true) ∧ telemetryMay 0x11020 = false := by unfold Asks; decide +kernel

theorem wit_writes : windowAt 0x32000 = some (0, 0) ∧ windowAt 0x33FFC = some (0, 0x1FFC) ∧ windowAt 0x38000 = some (2, 0) ∧ Write up c0 0x32000 ∧ operandAt 0x22FFC = some 0x1FFC ∧ Write up c0 0x22FFC ∧
    bufferAt 0x81000 = some (false, true, 0) ∧ bufferAt 0x8A404 = some (true, false, 0x404) ∧ Access up port0 0x81000 ∧ Access up (.port 0 2) 0x8A404 ∧ nodeManagement (.port 0 2) = true ∧
    nodeManagement port0 = false ∧ pageAt 0x1000 = none ∧ (∀ a ∈ [0x11008, 0x59014, 0x401008, 0x800014], Write up (if a = 0x800014 ∨ a = 0x401008 then c0 else port0) a) ∧
    pageAt 0x401008 = some (.die 0 1) ∧ pageAt 0x800014 = some (.guard 0 0) ∧ (0x20025#24).toNat % 4 ≠ 0 ∧
    (∀ a ∈ [0x20024, 0x20028, 0x11024, 0x11028, 0x11030, 0x1302C], Write up c0 a) := by unfold Write Access; decide +kernel

/-- The tenant mailbox with a packet in it, either way. -/
def boxed (inPost outReady : Bool) : State := { up with tenantBox := { up.tenantBox with inPost := inPost, outReady := outReady } }

theorem wit_mailboxes : bitAt (0x80000404#32) 31 = true ∧ bitsOf (0x80000404#32) 10 0 = 1028 ∧ bitsOf (0x80000405#32) 10 0 = 1029 ∧ bitsOf (0x80000005#32) 10 0 = 5 ∧
    bitsOf (0x80000004#32) 10 0 = 4 ∧ (∀ op, Access up (.port 0 2) (boxPage op + 0x20) ∧ Access up port0 (boxPage op + 0x28)) ∧ ((boxed true false).mbx false).inPost = true ∧
    ((boxed false true).mbx false).outReady = true ∧ (up.mbx false).inPost = false ∧ (up.mbx true).outReady = false ∧ attUp up = true ∧ attUp waiting = false := by unfold Access; decide +kernel

/-- One request in flight at the DMA port. -/
def flying (write : Bool) : State := { up with dma := { up.dma with works := [(0, .regionList, 0, 64)], flight := [(63, 0, 0, write)] } }

theorem wit_dma : (∀ w, (flying w).dma.flight.find? (fun f => f.1 == 63) = some (63, 0, 0, w) ∧ (flying w).dma.work 0 = some (.regionList, 0, 64) ∧
      (flying w).dma.flight.find? (fun f => f.1 == 62) = none) ∧ ({ (flying true).dma with works := [] } : Dma).work 0 = none ∧ pageAt 0x1000 = none := by decide +kernel

/-! ### Steps -/

theorem wit_step : up.Inv ∧ ({ up with pending := [.coldReset] } : State).pending.head? = some .coldReset ∧ up.pending = [] ∧ up.ports.aonUp = true ∧ up.tenantBox.inPost = false ∧
    up.operBox.inPost = false ∧ tmxOpen up = false ∧ (burning.fuseWord 64).norm = 0 ∧ (tampered true).pending.head? ≠ some .coldReset :=
  ⟨⟨rfl, rfl, rfl, rfl⟩, rfl, rfl, rfl, rfl, rfl, rfl, rfl, by decide⟩

theorem wit_lapse : custody (town ten) (4096#13).toNat = .keyHeld ∧ (town ten).ports.rstCold = false := by decide +kernel

/-! ### Well-formedness, standards and single steps -/

theorem test_wellFormed : WellFormed.instr (.upstreamResponse 0 11) = true ∧ WellFormed.instr (.bankTestPass 0 7) = true ∧ WellFormed.instr (.laneParity 0 7 8 14 []) = true := by decide

theorem test_wellFormed_slice : WellFormed.instr (.upstreamResponse 0 12) = false ∧ WellFormed.instr (.upstreamResponse 6 1) = false := by decide

theorem test_wellFormed_bank : WellFormed.instr (.bankTestPass 0 8) = false ∧ WellFormed.instr (.spareSubstitution 39 1) = false := by decide

theorem test_wellFormed_lane : WellFormed.instr (.knownAnswerInjection 0 0 9 true []) = false := by decide

theorem test_wellFormed_stage : WellFormed.instr (.laneParity 0 0 0 0 []) = false ∧ WellFormed.instr (.laneParity 0 0 0 15 []) = false := by decide

theorem test_wellFormed_body : WellFormed.instr (.quote 0 0 (zeros 16385)) = false := by decide +kernel

theorem test_wellFormed_payload : WellFormed.instr (.recoveryHello 0 (zeros 4101)) = false := by decide +kernel

theorem test_wellFormed_ring : WellFormed.instr (.keyServiceAnswer 3) = false ∧ WellFormed.instr (.damagedMessage none (zeros 149)) = false ∧
    WellFormed.instr (.headMessageReturn (zeros 149)) = false := by decide +kernel

theorem test_wellFormed_addr : WellFormed.instr (.loWordRead c0 0x70029) = false := by decide

/-- FIPS 197, appendix C.3. -/
theorem test_aes256 : aesEncK (aesKeys ((List.range 32).map (BitVec.ofNat 8))) ((List.range 16).map (fun i => BitVec.ofNat 8 (17 * i))) =
    beBytes 16 0x8ea2b7ca516745bfeafc49904b496089 := by decide +kernel

/-- FIPS 202: the hash of no bytes. -/
theorem test_sha3_256 : sha3_256 [] = beBytes 32 0xa7ffc6f8bf1ed76651c14756a061d662f580ff4de43b49fa82d80a4b80f8434a := by decide +kernel

/-- The state that a command answers. -/
def after (c : Instr) (s : State) : State :=
  match exec c s with
  | .next t => t
  | _ => s

/-- Step takes the front command; on an empty queue a microsecond passes (log 1). -/
theorem test_step : (match step { up with pending := [.coldReset, .fuseResense []] } with
      | .next t => t.ports.rstCold && t.pending == [.fuseResense []]
      | _ => false) = true ∧
    (match step up with
      | .next t => t.timer == 1
      | _ => false) = true := by decide +kernel

/-- R112: values above 100 are stored as 100, field by field. -/
theorem test_laneShare : ((after (.guardLaneShare 39 c0 0xFF640500) up).guards.get 39).page.share = 0x64640500 := by decide +kernel

/-- The register map (spec/19), access paths: reading QUOTE_SEQ's LO word latches its HI word for the path that read it. -/
theorem test_latch : (after (.loWordRead c0 0x70028) { up with att := { up.att with quoteSeq := 0x500000002 } }).ports.latches = [(0, 0x70028, 5)] := by decide +kernel

/-- R673: the non-secure class has no privilege to write VAULT_ARG; the secure class has. -/
theorem test_privilege : (after (.registerWrite (.port 0 0) 0x20024 5) up).vault.arg = 0 ∧ (after (.registerWrite port0 0x20024 5) up).vault.arg = 5 := by decide +kernel

/-- R400: the 26th identical sample fails the repetition count test, the 25th does not. -/
theorem test_repetition : (after (.noiseSample true) (noisy (fun e => { e with rctLast := some true, rctRun := 25 }))).ent.rctFail = 1 ∧
    (after (.noiseSample true) (noisy (fun e => { e with rctLast := some true, rctRun := 24 }))).ent.rctFail = 0 := by decide +kernel

/-- R597: POP takes the oldest record. -/
theorem test_pop : (after (.fqPop c0 1) { up with fq := { up.fq with entries := [({ code := 1 }, true), ({ code := 2 }, true)] } }).fq.entries = [({ code := 2 }, true)] := by decide +kernel

/-- R302, R304: a glitch leaves the tamper latch, a held assertion of die 2's pair sets it. -/
theorem test_tamper : (after (.tamperAssertion 2 false) up).tamper.latch = false ∧ (after (.tamperAssertion 2 true) up).tamper.latch = true := by decide +kernel

/-- R72: a request of a stream that no entry binds is answered at once with STATUS 0x5 and goes no further. -/
theorem test_unbound : (((after (.upstreamRequest 0 0 0 9 5 64 1) (serving id)).guards.get 0).rsps.map (fun r => r.status)) = [5] ∧
    ((after (.upstreamRequest 0 0 0 9 5 64 1) (serving id)).guards.get 0).reqs = [] := by decide +kernel

end Sys2Proof.Tests
end

section
/-!
PROOFS. GUARD_LANE_SHARE (R112): what a byte of the stored word is, and what a write that reaches the register does.
-/

namespace Sys2Proof.Machine
open Sys2Proof

theorem capShare_eq_ite (b : Nat) : capShare b = if 100 < b then 100 else b := by
  unfold capShare
  split
  · exact Nat.min_eq_right (by omega)
  · exact Nat.min_eq_left (by omega)

theorem capShare_le (b : Nat) : capShare b ≤ 100 := Nat.min_le_right _ _

/-- A byte of the stored word: a capped share fits its byte, so no term of the word carries into the next. -/
theorem bitsOf_capShares (v : BitVec 32) (i : Nat) (hi : i < 4) :
    bitsOf (capShares v) (8 * i + 7) (8 * i) = capShare (bitsOf v (8 * i + 7) (8 * i)) := by
  have h0 := capShare_le (bitsOf v 7 0)
  have h1 := capShare_le (bitsOf v 15 8)
  have h2 := capShare_le (bitsOf v 23 16)
  have h3 := capShare_le (bitsOf v 31 24)
  rw [bitsOf, capShares, BitVec.toNat_ofNat]
  interval_cases i <;> simp only [Nat.reduceMul, Nat.reduceAdd] <;> omega

@[simp] theorem DataPage.shareNow_share (p : DataPage) : p.shareNow.share = p.share := rfl

/-- R111, R112: a write that reaches GUARD_LANE_SHARE stores the capped word and takes it in force, in its guard alone. -/
theorem exec_guardLaneShare_of_write {s : State} {g : Fin 40} {p : Path} (v : BitVec 32) (h : Write s p (guardAddr g 0x28)) :
    exec (.guardLaneShare g p v) s =
      .next (accessOk p 0 (s.modGuard g (fun x => { x with page := { x.page with share := capShares v }.shareNow }))) := by
  obtain ⟨hreach, hpriv⟩ := h
  exact congrArg done (writeAt_ok hreach (fun _ => hpriv))

/-- Settles O56: the state stored is the guard's own with the capped word, whose bytes are the capped bytes of the operand. -/
theorem laneSharesAreStoredCappedAtOneHundred : Obligations.LaneSharesAreStoredCappedAtOneHundred := by
  intro s g p v hw
  refine ⟨_, exec_guardLaneShare_of_write v hw, Only.modGuard _ _ _, fun h hne => ?_, fun i hi => ?_⟩
  · rw [guards_modGuard, if_neg (fun e => hne (Fin.ext e))]
  · rw [guards_modGuard, if_pos rfl, DataPage.shareNow_share, bitsOf_capShares v i hi, capShare_eq_ite]

end Sys2Proof.Machine
end

section
/-!
PROOFS. Custody of model domains (R198, R211): the record of a model domain after a change to it, what a commit with nothing to send or to answer may
change, and the lapse of a bundle key.
-/

namespace Sys2Proof.Machine
open Sys2Proof

/-- Finding by a predicate after the elements that satisfy it have been changed and still do. -/
theorem find?_mapIf_same {α : Type} {p : α → Bool} {f : α → α} (hf : ∀ x, p (f x) = p x) (l : List α) :
    (mapIf p f l).find? p = (l.find? p).map f := by
  have hp : (p ∘ fun x => if p x then f x else x) = p := by
    funext x
    rw [Function.comp_apply]
    split
    · exact hf x
    · rfl
  rw [mapIf, List.find?_map, hp]
  exact Option.map_congr fun x hx => if_pos (List.find?_some hx)

theorem model_modModel_same {f : ModelRec → ModelRec} (hf : ∀ r, (f r).model = r.model) (m : Nat) (s : State) :
    (modModel m f s).model m = (s.model m).map f :=
  find?_mapIf_same (fun r => congrArg (· == m) (hf r)) s.ks.models

theorem custody_congr {s t : State} (h : t.ks = s.ks) (m : Nat) : custody t m = custody s m := by
  rw [custody, custody, State.model, State.model, h]

/-- R198: a model domain that is not NONE has a record. -/
theorem exists_model_of_custody_ne_none {s : State} {m : Nat} (h : custody s m ≠ .none) : ∃ r, s.model m = some r := by
  cases hr : s.model m with
  | none => exact absurd (by rw [custody, hr]; rfl) h
  | some r => exact ⟨r, rfl⟩

/-- R198: the custody state that a change of its record gives a model domain that is not NONE. -/
theorem custody_modModel_same {f : ModelRec → ModelRec} {c : Custody} (hf : ∀ r, (f r).model = r.model) (hc : ∀ r, (f r).custody = c)
    {m : Nat} {s : State} (h : custody s m ≠ .none) : custody (modModel m f s) m = c := by
  obtain ⟨r, hr⟩ := exists_model_of_custody_ne_none h
  rw [custody, model_modModel_same hf, hr]
  exact hc r

theorem mem_bundles_wipeBundle {m : Nat} {s : State} {b : BundleKey} :
    b ∈ (wipeBundle m s).vault.bundles ↔ b ∈ s.vault.bundles ∧ b.model ≠ m := by
  simp [wipeBundle]

/-- R610: with no broadcast and no answer that depends on them, frames only go to the standby. -/
theorem commit_frames_only (frames : List FrameBody) (s : State) : Only [.mir] s (commit frames [] [] s) := by
  have sends (l : List FrameBody) : Only [.mir] s (forEach l (fun f t => mirSend { frame := { body := f } } t) s) :=
    Only.forEach (Only.refl _ _) fun _ _ h => h.trans (mirSend_only _ _)
  unfold commit
  split
  · exact Only.refl _ _
  · split
    · exact sends frames
    · split
      · exact Only.refl _ _
      · next last before _ => exact (sends before.reverse).trans (mirSend_only _ _)

/-- R211: block timer when the 60 s of a model domain's bundle key have passed. -/
def bundleDue (m : Nat) (s : State) : Nat := (((s.vault.bundles.find? (fun b => b.model == m)).map BundleKey.released).getD 0) + 60000000

/-- R211: the state at block timer `due` with a model domain's bundle key lapsed, before its record is mirrored. -/
def bundleLapsed (due m : Nat) (s : State) : State :=
  modModel m (fun r => { r with custody := .awaitingKey, jobUsed := false })
    (wipeBundle m ((reachTime due s).modIngest (fun u => { u with queue := u.queue.filter (fun j => j.model != m) })))

theorem exec_bundleKeyLapse_of_keyHeld {s : State} {m : BitVec 13} (h : s.ports.rstCold = false) (hc : custody s m.toNat = .keyHeld) :
    exec (.bundleKeyLapse m) s =
      .next (commit [modelFrameOf (bundleLapsed (bundleDue m.toNat s) m.toNat s) m.toNat] [] [] (bundleLapsed (bundleDue m.toNat s) m.toNat s)) :=
  congrArg done ((whenUp_up _ h).trans (if_neg (not_not_intro hc)))

theorem mem_bundles_bundleLapsed {due m : Nat} {s : State} {b : BundleKey} :
    b ∈ (bundleLapsed due m s).vault.bundles ↔ b ∈ s.vault.bundles ∧ b.model ≠ m :=
  mem_bundles_wipeBundle

theorem custody_bundleLapsed_same (due : Nat) {m : Nat} {s : State} (h : custody s m ≠ .none) :
    custody (bundleLapsed due m s) m = .awaitingKey := by
  refine custody_modModel_same ?_ ?_ h
  · exact fun _ => rfl
  · exact fun _ => rfl

/-- Settles O59: the commit leaves the vault and the key service as the lapse made them. -/
theorem lapsedBundleKeysAreWiped : Obligations.LapsedBundleKeysAreWiped := by
  intro s m hup hc
  refine ⟨_, exec_bundleKeyLapse_of_keyHeld hup hc, ?_⟩
  rw [(commit_frames_only _ _).vault_eq, custody_congr (commit_frames_only _ _).ks_eq]
  refine ⟨fun b hb => (mem_bundles_bundleLapsed.mp hb).2, custody_bundleLapsed_same _ ?_, fun b hb hne => mem_bundles_bundleLapsed.mpr ⟨hb, hne⟩⟩
  rw [hc]
  decide

end Sys2Proof.Machine
end

section
/-!
PROOFS. The end of a zeroization's read-back (R304, R305, R307, R655): what a check that fails and one that passes do while a tamper assertion is not yet answered.
-/

namespace Sys2Proof.Machine
open Sys2Proof

/-- R304, R307: from the tamper assertion until tamper-cleared, a read-back that ends is acted on. -/
theorem readBack_due {s : State} (hlatch : s.tamper.latch = true) (hcleared : s.tamper.cleared = false) :
    ¬((!s.tamper.latch) = true ∨ s.tamper.cleared = true) := by
  simp [hlatch, hcleared]

/-- R305: a check that fails only marks the repetition. -/
theorem exec_tamperZeroizeDone_failed {s : State} (hup : s.ports.rstCold = false) (hlatch : s.tamper.latch = true)
    (hcleared : s.tamper.cleared = false) :
    exec (.tamperZeroizeDone true) s = .next (s.modTamper (fun t => { t with retry := true })) :=
  congrArg done ((whenUp_up _ hup).trans ((if_neg (readBack_due hlatch hcleared)).trans (if_pos rfl)))

/-- R305, R307, R655: the check that passes raises tmp_zeroize_done, enters tamper-cleared and leaves every release line holding its unit. -/
theorem exec_tamperZeroizeDone_passed {s : State} (hup : s.ports.rstCold = false) (hlatch : s.tamper.latch = true)
    (hcleared : s.tamper.cleared = false) :
    exec (.tamperZeroizeDone false) s = .next ((s.modTamper (fun t => { t with cleared := true, done := true })).modBrup (fun b =>
      { b with lines := b.lines.map (fun l => { up := l.up }), package := none })) :=
  congrArg done ((whenUp_up _ hup).trans ((if_neg (readBack_due hlatch hcleared)).trans (if_neg Bool.false_ne_true)))

/-- Settles O57: a failed check leaves everything that a further check depends on, so the passing one can still follow it. -/
theorem zeroizationRepeatsUntilItsCheckPasses : Obligations.ZeroizationRepeatsUntilItsCheckPasses := by
  intro s failed hup hlatch hcleared hdone
  cases failed with
  | false =>
    exact ⟨_, exec_tamperZeroizeDone_passed hup hlatch hcleared, iff_of_true rfl rfl, fun h => absurd h Bool.false_ne_true⟩
  | true =>
    have hnotDone : ¬(s.modTamper (fun t => { t with retry := true })).tamper.done = true := by simp [hdone]
    exact ⟨_, exec_tamperZeroizeDone_failed hup hlatch hcleared, iff_of_false hnotDone Bool.false_ne_true.symm,
      fun _ => ⟨rfl, hlatch, hcleared, _, exec_tamperZeroizeDone_passed hup hlatch hcleared, rfl⟩⟩

end Sys2Proof.Machine
end

section
/-!
PROOFS. The end of a compare (R396, R397): the region that the compare in front leaves, and the fault where its trees disagree.
-/

namespace Sys2Proof.Machine
open Sys2Proof

/-- R396, R397: a core's region once its compare is over, `m` being the result of one tree and `split` whether the other disagrees. -/
def DigCore.withVerdict (m split : Bool) (r : DigCore) : DigCore :=
  { r with
    cmpBusy := false, cmpOpA := [], cmpOpB := [], isMatch := m, isMatchN := if split then m else !m, cmpResult := 0,
    verdict := if m && !split then 0x6C3A95E3#32 else 0x93C56A1C#32 }

/-- R396: the halves are equal exactly where the trees disagree, as the second is reported inverted. -/
theorem DigCore.isMatch_withVerdict_eq_isMatchN_iff (m split : Bool) (r : DigCore) :
    (r.withVerdict m split).isMatch = (r.withVerdict m split).isMatchN ↔ split = true := by
  cases split with
  | false => exact iff_of_false (Bool.not_ne_self m).symm Bool.false_ne_true
  | true => exact iff_of_true rfl rfl

/-- R397: disagreeing trees give the mismatch pattern, whatever they found. -/
theorem DigCore.verdict_withVerdict_split (m : Bool) (r : DigCore) : (r.withVerdict m true).verdict = 0x93C56A1C#32 :=
  if_neg (by simp)

/-- R395 to R397: the state with the compare in front over and the next one in front, before any fault. -/
def compareEnded (c : Fin 4) (split : Bool) (s : State) : State :=
  (modRegion c.toNat (DigCore.withVerdict ((s.digRegion c.toNat).cmpOpA == (s.digRegion c.toNat).cmpOpB) split) s).modDig
    (fun d => { d with cmpQ := d.cmpQ.drop 1 })

/-- R397, R409: a compare whose trees disagree is over; the page tells of it for 10 ms. -/
def compareSplit (c : Fin 4) (s : State) : State := (compareEnded c true s).modDig (fun d => { d with splitRecent := true })

theorem compareEnded_only (c : Fin 4) (split : Bool) (s : State) : Only [.dig] s (compareEnded c split s) :=
  (modRegion_only _ _ _).trans (Only.modDig _ _)

theorem compareSplit_only (c : Fin 4) (s : State) : Only [.dig] s (compareSplit c s) :=
  (compareEnded_only c true s).trans (Only.modDig _ _)

/-- The regions of the cores after one has changed. -/
theorem regions_modRegion (k : Nat) (f : DigCore → DigCore) (s : State) (j : Fin 4) :
    (modRegion k f s).dig.regions.get j = if j.val = k then f (s.dig.regions.get j) else s.dig.regions.get j :=
  vmod_get _ _ _ _

theorem region_compareEnded_same (c : Fin 4) (split : Bool) (s : State) :
    (compareEnded c split s).dig.regions.get c =
      (s.dig.regions.get c).withVerdict ((s.digRegion c.toNat).cmpOpA == (s.digRegion c.toNat).cmpOpB) split :=
  (regions_modRegion _ _ _ _).trans (if_pos rfl)

theorem region_compareSplit_same (c : Fin 4) (s : State) :
    (compareSplit c s).dig.regions.get c =
      (s.dig.regions.get c).withVerdict ((s.digRegion c.toNat).cmpOpA == (s.digRegion c.toNat).cmpOpB) true :=
  region_compareEnded_same c true s

/-- R599: the digest engine has no part in the entry that a fault makes. -/
theorem fq_raise_of_only_dig {s t : State} (h : Only [.dig] s t) (safety : Bool) (kind unit code reaction detail : Nat) :
    (raise safety kind unit code reaction detail t).fq = (raise safety kind unit code reaction detail s).fq := by
  rw [raise, raise, h.tamper_eq, h.mir_eq, h.timer_eq]
  split
  · exact h.fq_eq
  · rw [State.modFq_fq, State.modFq_fq, h.fq_eq]

/-- R396: a compare whose trees agree raises no fault. -/
theorem exec_compareResult_agreed {s : State} {c : Fin 4} (hup : s.ports.rstCold = false) (hfront : s.dig.cmpQ.head? = some c.val) :
    exec (.compareResult c false) s = .next (compareEnded c false s) :=
  congrArg done ((whenUp_up _ hup).trans (if_pos (beq_iff_eq.mpr hfront)))

/-- R397: a compare whose trees disagree ends with a safety-class fault. -/
theorem exec_compareResult_split {s : State} {c : Fin 4} (hup : s.ports.rstCold = false) (hfront : s.dig.cmpQ.head? = some c.val) :
    exec (.compareResult c true) s = .next (raise true kDigest 0 fCmpSplit 0 c.val (compareSplit c s)) :=
  congrArg done ((whenUp_up _ hup).trans (if_pos (beq_iff_eq.mpr hfront)))

/-- Settles O58: MATCH equals MATCH_N exactly where the trees disagree, which is where the fault is raised. -/
theorem equalCompareHalvesReadAsMismatchAndRaiseAFault : Obligations.EqualCompareHalvesReadAsMismatchAndRaiseAFault := by
  intro s g split hup hfront
  cases split with
  | false =>
    refine ⟨_, exec_compareResult_agreed hup hfront, (compareEnded_only g false s).mono rfl, fun heq => ?_,
      fun _ => (compareEnded_only g false s).fq_eq⟩
    rw [region_compareEnded_same, DigCore.isMatch_withVerdict_eq_isMatchN_iff] at heq
    exact absurd heq Bool.false_ne_true
  | true =>
    have hdig := (raise_only true kDigest 0 fCmpSplit 0 g.val (compareSplit g s)).dig_eq
    refine ⟨_, exec_compareResult_split hup hfront, ((compareSplit_only g s).mono rfl).trans ((raise_only _ _ _ _ _ _ _).mono rfl), ?_⟩
    rw [hdig, region_compareSplit_same]
    exact ⟨fun _ => ⟨DigCore.verdict_withVerdict_split _ _, fq_raise_of_only_dig (compareSplit_only g s) ..⟩,
      fun hne => absurd ((DigCore.isMatch_withVerdict_eq_isMatchN_iff _ _ _).mpr rfl) hne⟩

end Sys2Proof.Machine
end

section
/-!
PROOFS. The push of link keys that is out (R653): no other starts beside it, and a bad or late answer refuses its message and brings the next one's push.
-/

namespace Sys2Proof.Machine
open Sys2Proof

/-- R653: while a push is out, no other starts. -/
theorem pumpLinks_of_push_out {s : State} (hout : s.ports.lkWords ≠ []) : pumpLinks s = s := by
  cases hw : s.ports.lkWords with
  | nil => exact absurd hw hout
  | cons v vs => simp only [pumpLinks, hw]

/-- R653: with no message waiting, no push starts. -/
theorem pumpLinks_of_no_message {s : State} (hlk : s.ports.lk = []) : pumpLinks s = s := by
  cases hw : s.ports.lkWords with
  | nil => simp only [pumpLinks, hw, hlk]
  | cons v vs => exact pumpLinks_of_push_out (by simp [hw])

/-- R653: with no push out, the next direction of the first message is pushed. -/
theorem pumpLinks_of_message {s : State} {m : LkMsg} {ms : List LkMsg} (hw : s.ports.lkWords = []) (hlk : s.ports.lk = m :: ms) :
    pumpLinks s = s.modPorts (fun p => { p with lkWords := (m.dirs.head?.map (pushWords m)).getD [], lkAt := s.timer }) := by
  simp only [pumpLinks, hw, hlk]

/-- Starting a push takes no message from those waiting. -/
theorem lk_pumpLinks (s : State) : (pumpLinks s).ports.lk = s.ports.lk := by
  unfold pumpLinks
  split
  · rfl
  · rfl

/-- R653: the message whose push was out is gone, with its seed. -/
theorem lk_endLink {s : State} {m : LkMsg} {ms : List LkMsg} (hlk : s.ports.lk = m :: ms) : (endLink s).ports.lk = ms :=
  (lk_pumpLinks _).trans (congrArg (List.drop 1) hlk)

/-- R653: after the last message, the words of its keys are gone. -/
theorem lkWords_endLink_of_last {s : State} {m : LkMsg} (hlk : s.ports.lk = [m]) : (endLink s).ports.lkWords = [] := by
  rw [endLink, pumpLinks_of_no_message (congrArg (List.drop 1) hlk)]
  rfl

/-- R653: the words out after a message are those of the next one. -/
theorem lkWords_endLink_of_next {s : State} {m n : LkMsg} {ns : List LkMsg} (hlk : s.ports.lk = m :: n :: ns) :
    (endLink s).ports.lkWords = (n.dirs.head?.map (pushWords n)).getD [] := by
  rw [endLink, pumpLinks_of_message rfl (congrArg (List.drop 1) hlk)]
  rfl

/-- R653: the LINK_KEY whose push fails is refused with E_BUSY. -/
theorem failLink_of_push_out {s : State} {v : BitVec 32} {vs : List (BitVec 32)} {m : LkMsg} {ms : List LkMsg}
    (hw : s.ports.lkWords = v :: vs) (hlk : s.ports.lk = m :: ms) : failLink s = refuse m.waiter eBusy (endLink s) := by
  simp only [failLink, hw, hlk]

/-- R653: an answer with an error fails the push that is out. -/
theorem exec_lkAck_error {s : State} (hup : s.ports.rstCold = false) : exec (.lkAck true) s = .next (failLink s) :=
  congrArg done ((whenUp_up _ hup).trans (if_pos rfl))

/-- R653: 1 ms without an answer fails the push that is out. -/
theorem exec_lkAckTimeout_of_push_out {s : State} (hup : s.ports.rstCold = false) (hout : s.ports.lkWords ≠ []) :
    exec .lkAckTimeout s = .next (failLink (reachTime (s.ports.lkAt + 1000) s)) := by
  have hsome : (!s.ports.lkWords.isEmpty) = true := by simpa using hout
  exact congrArg done ((whenUp_up _ hup).trans (by rw [hsome, onlyIf_true]))

/-- Settles O60: the bad answer and the late one both fail the push, the late one only 1 ms after its start. -/
theorem aBadOrLateLinkAnswerEndsItsMessage : Obligations.ABadOrLateLinkAnswerEndsItsMessage := by
  refine ⟨fun s => pumpLinks_of_push_out, fun s v vs m ms hup hw hlk i t hit => ?_⟩
  have hfails : exec i s = .next (failLink t) ∧ t.ports = s.ports := by
    rcases List.mem_pair.mp hit with hi | hi
    · cases hi
      exact ⟨exec_lkAck_error hup, rfl⟩
    · cases hi
      exact ⟨exec_lkAckTimeout_of_push_out hup (by simp [hw]), rfl⟩
  obtain ⟨hexec, hports⟩ := hfails
  rw [← hports] at hw hlk
  refine ⟨endLink t, endLink_only t, lk_endLink hlk, ?last, ?next, hexec.trans (congrArg _ (failLink_of_push_out hw hlk))⟩
  case last =>
    rintro rfl
    exact lkWords_endLink_of_last hlk
  case next =>
    rintro n ns rfl
    exact lkWords_endLink_of_next hlk

end Sys2Proof.Machine
end

section
/-!
PROOFS. What every command and every step keeps: a next state that differs from the last in the footprint alone, the fuse bits, the invariant, the tamper
state and the block timer; and what a step is.
-/

namespace Sys2Proof.Machine
open Sys2Proof

/-- Each command answers a next state, and changes no part of State but those of its footprint. -/
theorem exec_only (c : Instr) (s : State) : ∃ t, exec c s = .next t ∧ Only (footprint c) s t :=
  match c with
  | .coldReset => execColdReset_only s
  | .coldResetRelease => execColdResetRelease_only s
  | .fuseSensingDone read => execFuseSensingDone_only read s
  | .bootValid passing => execBootValid_only passing s
  | .romBoot octal => execRomBoot_only octal s
  | .bootHandover p value => execBootHandover_only p value s
  | .bootRelease p value => execBootRelease_only p value s
  | .finalised p value => execFinalised_only p value s
  | .bootCtlCoreReset p value => execBootCtlCoreReset_only p value s
  | .delayedCoreReset => execDelayedCoreReset_only s
  | .securityCoreReset => execSecurityCoreReset_only s
  | .cairnRaise p value => execCairnRaise_only p value s
  | .cairnRaiseEnd failed => execCairnRaiseEnd_only failed s
  | .imageUpdate sess tag body => execImageUpdate_only sess tag body s
  | .imageAdopted flashOk => execImageAdopted_only flashOk s
  | .recoveryHello seq payload => execRecoveryHello_only seq payload s
  | .recoveryWrite seq payload => execRecoveryWrite_only seq payload s
  | .recoveryCommit seq payload flashOk => execRecoveryCommit_only seq payload flashOk s
  | .recoveryAbort seq payload => execRecoveryAbort_only seq payload s
  | .recoveryReservedFrame type seq payload => execRecoveryReservedFrame_only type seq payload s
  | .fuseProgram p value => execFuseProgram_only p value s
  | .fuseSeal p value => execFuseSeal_only p value s
  | .lockWrite p value => execLockWrite_only p value s
  | .lockRead p value => execLockRead_only p value s
  | .revoke p value => execRevoke_only p value s
  | .fuseOperationEnd failed => execFuseOperationEnd_only failed s
  | .fuseResense read => execFuseResense_only read s
  | .lcToProvision p value => execLcToProvision_only p value s
  | .lcToMission p value => execLcToMission_only p value s
  | .lcToDecommissioned p value => execLcToDecommissioned_only p value s
  | .lcTransitionEffect => execLcTransitionEffect_only s
  | .lcDebugArm p value => execLcDebugArm_only p value s
  | .debugUnlock sess tag body => execDebugUnlock_only sess tag body s
  | .decommission sess tag body => execDecommission_only sess tag body s
  | .tmxCtl p value => execTmxCtl_only p value s
  | .phaseAdvance => execPhaseAdvance_only s
  | .packageVerified => execPackageVerified_only s
  | .relUp line => execRelUp_only line s
  | .relUpFall line => execRelUpFall_only line s
  | .releaseTimeout line => execReleaseTimeout_only line s
  | .sealSweepEnd g => execSealSweepEnd_only g s
  | .bankTestPass g bank => execBankTestPass_only g bank s
  | .unitSelfTestPass unit => execUnitSelfTestPass_only unit s
  | .pop p value => execPop_only p value s
  | .unrecorded p value => execUnrecorded_only p value s
  | .guardReset sess tag body => execGuardReset_only sess tag body s
  | .sectionReset sess tag body => execSectionReset_only sess tag body s
  | .guardFence sess tag body => execGuardFence_only sess tag body s
  | .unitHold sess tag body => execUnitHold_only sess tag body s
  | .unitRelease sess tag body => execUnitRelease_only sess tag body s
  | .coreReset sess tag body => execCoreReset_only sess tag body s
  | .fpSample p value => execFpSample_only p value s
  | .fingerprintCompare => execFingerprintCompare_only s
  | .fpNoLatch => execFpNoLatch_only s
  | .fingerprintSampleInterval => execFingerprintSampleInterval_only s
  | .upstreamRequest g slice op stream domain addr txn => execUpstreamRequest_only g slice op stream domain addr txn s
  | .writeDataBeat g slice txn data be side => execWriteDataBeat_only g slice txn data be side s
  | .downstreamRequestIssue g uid => execDownstreamRequestIssue_only g uid s
  | .downstreamReadResponse g tag err data side => execDownstreamReadResponse_only g tag err data side s
  | .downstreamWriteAck g tag err => execDownstreamWriteAck_only g tag err s
  | .upstreamResponse g slice => execUpstreamResponse_only g slice s
  | .laneParity g bank lane stage lines => execLaneParity_only g bank lane stage lines s
  | .knownAnswerInjection g bank lane good lines => execKnownAnswerInjection_only g bank lane good lines s
  | .guardKatInject g p value bad lines => execGuardKatInject_only g p value bad lines s
  | .spareSubstitution g bank => execSpareSubstitution_only g bank s
  | .fence g p value => execFence_only g p value s
  | .guardThrottle g p value => execGuardThrottle_only g p value s
  | .throttleInterval g => execThrottleInterval_only g s
  | .guardLaneShare g p value => execGuardLaneShare_only g p value s
  | .guardErrClear g p value => execGuardErrClear_only g p value s
  | .guardTagfailClear g p value => execGuardTagfailClear_only g p value s
  | .memoryPortClockStopped g => execMemoryPortClockStopped_only g s
  | .memoryPortClockRunning g => execMemoryPortClockRunning_only g s
  | .keyReqResend g slot => execKeyReqResend_only g slot s
  | .stopInsert die => execStopInsert_only die s
  | .keyReq => execKeyReq_only s
  | .keyServiceAnswer ecc => execKeyServiceAnswer_only ecc s
  | .keyFill die => execKeyFill_only die s
  | .keyNone die => execKeyNone_only die s
  | .deferredFillInstall g => execDeferredFillInstall_only g s
  | .kcPin g p value => execKcPin_only g p value s
  | .kcUnpin g p value => execKcUnpin_only g p value s
  | .pinReservationTake g => execPinReservationTake_only g s
  | .kcQuery g p value => execKcQuery_only g p value s
  | .bindScrub g => execBindScrub_only g s
  | .guardMissClear g p value => execGuardMissClear_only g p value s
  | .rotate die => execRotate_only die s
  | .retire die => execRetire_only die s
  | .retiringEntryDrop g => execRetiringEntryDrop_only g s
  | .retireDequeue => execRetireDequeue_only s
  | .ack => execAck_only s
  | .broadcastResend opId sync => execBroadcastResend_only opId sync s
  | .ackTimeout opId sync => execAckTimeout_only opId sync s
  | .streamSet die => execStreamSet_only die s
  | .readerSet die => execReaderSet_only die s
  | .withdrawalDrained die => execWithdrawalDrained_only die s
  | .tableSync die => execTableSync_only die s
  | .pulseInterval => execPulseInterval_only s
  | .pulse die => execPulse_only die s
  | .ringErr => execRingErr_only s
  | .headMessageReturn wire => execHeadMessageReturn_only wire s
  | .regionListRead => execRegionListRead_only s
  | .descriptorSend => execDescriptorSend_only s
  | .sweepCmd die => execSweepCmd_only die s
  | .sweepLine g rdErr data side wrErr => execSweepLine_only g rdErr data side wrErr s
  | .domainSweepLine g wrErr => execDomainSweepLine_only g wrErr s
  | .sweepDone => execSweepDone_only s
  | .sweepAbort die => execSweepAbort_only die s
  | .teardownDrainEnd domain => execTeardownDrainEnd_only domain s
  | .domainCreate sess tag body => execDomainCreate_only sess tag body s
  | .operatorDomainTeardown sess tag body => execOperatorDomainTeardown_only sess tag body s
  | .streamPropose sess tag body => execStreamPropose_only sess tag body s
  | .streamWithdraw sess tag body => execStreamWithdraw_only sess tag body s
  | .operatorStreamUnbind sess tag body => execOperatorStreamUnbind_only sess tag body s
  | .regionList sess tag body => execRegionList_only sess tag body s
  | .ingestStart sess tag body => execIngestStart_only sess tag body s
  | .linkAssign sess tag body => execLinkAssign_only sess tag body s
  | .telemetryRead sess tag body => execTelemetryRead_only sess tag body s
  | .setShares sess tag body => execSetShares_only sess tag body s
  | .pinMsg sess tag body => execPinMsg_only sess tag body s
  | .unpinMsg sess tag body => execUnpinMsg_only sess tag body s
  | .quoteBlock sess tag body => execQuoteBlock_only sess tag body s
  | .getVersion operator sess req => execGetVersion_only operator sess req s
  | .getCapabilities operator sess req => execGetCapabilities_only operator sess req s
  | .negotiateAlgorithms operator sess req => execNegotiateAlgorithms_only operator sess req s
  | .getDigests operator sess req => execGetDigests_only operator sess req s
  | .getCertificate operator sess req => execGetCertificate_only operator sess req s
  | .challenge operator sess req => execChallenge_only operator sess req s
  | .getMeasurements operator sess req => execGetMeasurements_only operator sess req s
  | .chunkSend operator sess req => execChunkSend_only operator sess req s
  | .chunkGet operator sess req => execChunkGet_only operator sess req s
  | .spdmHeartbeat sess req => execSpdmHeartbeat_only sess req s
  | .keyUpdate sess req => execKeyUpdate_only sess req s
  | .endSession sess req => execEndSession_only sess req s
  | .unsupportedRequest operator sess req => execUnsupportedRequest_only operator sess req s
  | .kexKeys operator tag body => execKexKeys_only operator tag body s
  | .hybKex operator tag body => execHybKex_only operator tag body s
  | .hybFinish sess tag body => execHybFinish_only sess tag body s
  | .hybFinishTimeout sess => execHybFinishTimeout_only sess s
  | .sessionIdleTimeout sess => execSessionIdleTimeout_only sess s
  | .credProve sess tag body => execCredProve_only sess tag body s
  | .quote sess tag body => execQuote_only sess tag body s
  | .quoteBatchClose => execQuoteBatchClose_only s
  | .domainSeed sess tag body => execDomainSeed_only sess tag body s
  | .streamConfirm sess tag body => execStreamConfirm_only sess tag body s
  | .tenantStreamUnbind sess tag body => execTenantStreamUnbind_only sess tag body s
  | .tenantDomainTeardown sess tag body => execTenantDomainTeardown_only sess tag body s
  | .linkKey sess tag body => execLinkKey_only sess tag body s
  | .lkAck err => execLkAck_only err s
  | .lkAckTimeout => execLkAckTimeout_only s
  | .linkReport w0 w1 w2 w3 => execLinkReport_only w0 w1 w2 w3 s
  | .measureFull sess tag body => execMeasureFull_only sess tag body s
  | .measurePartial sess tag body => execMeasurePartial_only sess tag body s
  | .measureIncremental sess tag body => execMeasureIncremental_only sess tag body s
  | .keptRelease sess tag body => execKeptRelease_only sess tag body s
  | .eventPoll sess tag body => execEventPoll_only sess tag body s
  | .bundleKey sess tag body => execBundleKey_only sess tag body s
  | .readerGrantAdd sess tag body => execReaderGrantAdd_only sess tag body s
  | .readerGrantRemove sess tag body => execReaderGrantRemove_only sess tag body s
  | .readerGrantRevoke sess tag body => execReaderGrantRevoke_only sess tag body s
  | .bundleKeyLapse model => execBundleKeyLapse_only model s
  | .ingestJobStart => execIngestJobStart_only s
  | .ingestHeaderRead lines => execIngestHeaderRead_only lines s
  | .ingestChunk lines writes => execIngestChunk_only lines writes s
  | .ingestManifest lines => execIngestManifest_only lines s
  | .ingestAbort p value => execIngestAbort_only p value s
  | .measurementJobStart => execMeasurementJobStart_only s
  | .mowerReadIssue job => execMowerReadIssue_only job s
  | .mowerNodeHashed => execMowerNodeHashed_only s
  | .mowerLaneKat lane good => execMowerLaneKat_only lane good s
  | .mowerAbort p value => execMowerAbort_only p value s
  | .vaultGenerate p value => execVaultGenerate_only p value s
  | .vaultGeneratePair p value => execVaultGeneratePair_only p value s
  | .vaultDerive p value => execVaultDerive_only p value s
  | .vaultImport p value => execVaultImport_only p value s
  | .vaultExport p value => execVaultExport_only p value s
  | .save p value => execSave_only p value s
  | .restore p value => execRestore_only p value s
  | .clear p value => execClear_only p value s
  | .statement p value => execStatement_only p value s
  | .tamperAssertion die held => execTamperAssertion_only die held s
  | .tamperZeroizeDone failed => execTamperZeroizeDone_only failed s
  | .pkSign slot p value => execPkSign_only slot p value s
  | .pkVerify slot p value => execPkVerify_only slot p value s
  | .pkKeygen slot p value => execPkKeygen_only slot p value s
  | .pkPublic slot p value => execPkPublic_only slot p value s
  | .pkDerive slot p value => execPkDerive_only slot p value s
  | .pkEncaps slot p value => execPkEncaps_only slot p value s
  | .pkDecaps slot p value => execPkDecaps_only slot p value s
  | .pkCheckCurve slot p value => execPkCheckCurve_only slot p value s
  | .pkJobStart long => execPkJobStart_only long s
  | .pkValidationBoundary long runsDiffer => execPkValidationBoundary_only long runsDiffer s
  | .pkCheckpoint => execPkCheckpoint_only s
  | .pkJobEnd long runsDiffer => execPkJobEnd_only long runsDiffer s
  | .pkAbort slot p value => execPkAbort_only slot p value s
  | .pkAbortComplete long => execPkAbortComplete_only long s
  | .pkScrub slot p value => execPkScrub_only slot p value s
  | .fcMode p value => execFcMode_only p value s
  | .pkSelftest p value => execPkSelftest_only p value s
  | .pkSelftestEnd goodA goodB => execPkSelftestEnd_only goodA goodB s
  | .pkPeriodicKat datapathB good => execPkPeriodicKat_only datapathB good s
  | .pkDatapath datapathB residue => execPkDatapath_only datapathB residue s
  | .claim ctx p value => execClaim_only ctx p value s
  | .ctxOpen ctx p value => execCtxOpen_only ctx p value s
  | .ctxFinish ctx p value => execCtxFinish_only ctx p value s
  | .ctxClose ctx p value => execCtxClose_only ctx p value s
  | .ctxAbort ctx p value => execCtxAbort_only ctx p value s
  | .ctxExport ctx p value => execCtxExport_only ctx p value s
  | .ctxImport ctx p value => execCtxImport_only ctx p value s
  | .digCtxData ctx p value => execDigCtxData_only ctx p value s
  | .dmaFeed ctx p value => execDmaFeed_only ctx p value s
  | .digestBlock ctx => execDigestBlock_only ctx s
  | .eShort ctx => execEShort_only ctx s
  | .digDiscard region p value => execDigDiscard_only region p value s
  | .digSelftest p value => execDigSelftest_only p value s
  | .compare region p value => execCompare_only region p value s
  | .compareResult c split => execCompareResult_only c split s
  | .noiseSample bit => execNoiseSample_only bit s
  | .drbgInstantiate katGood => execDrbgInstantiate_only katGood s
  | .reseed p value => execReseed_only p value s
  | .drbgRequest => execDrbgRequest_only s
  | .entDraw region p value => execEntDraw_only region p value s
  | .drawOutRead p addr => execDrawOutRead_only p addr s
  | .loWordRead p addr => execLoWordRead_only p addr s
  | .lockstep standby c => execLockstep_only standby c s
  | .watchdog standby c => execWatchdog_only standby c s
  | .foWdog p value => execFoWdog_only p value s
  | .fqPop p value => execFqPop_only p value s
  | .clearOvf p value => execClearOvf_only p value s
  | .heartbeatInterval => execHeartbeatInterval_only s
  | .mirrorHello => execMirrorHello_only s
  | .mirrorHeartbeat wire => execMirrorHeartbeat_only wire s
  | .store wire => execStore_only wire s
  | .modelFrame wire => execModelFrame_only wire s
  | .readers wire => execReaders_only wire s
  | .counters wire => execCounters_only wire s
  | .image wire => execImage_only wire s
  | .hold wire => execHold_only wire s
  | .holdExpiry => execHoldExpiry_only s
  | .status wire => execStatus_only wire s
  | .mirrorAck wire => execMirrorAck_only wire s
  | .mirrorAckTimeout => execMirrorAckTimeout_only s
  | .standbyLost => execStandbyLost_only s
  | .mirrorResync => execMirrorResync_only s
  | .activeCoreLost => execActiveCoreLost_only s
  | .mirFail => execMirFail_only s
  | .mirTakeover => execMirTakeover_only s
  | .registerWrite p addr value => execRegisterWrite_only p addr value s
  | .ctlTimeout p addr write => execCtlTimeout_only p addr write s
  | .dmaResponse id err data => execDmaResponse_only id err data s
  | .mailboxPost operator p value => execMailboxPost_only operator p value s
  | .taken operator p value => execTaken_only operator p value s
  | .guardPowerFall die => execGuardPowerFall_only die s
  | .guardPowerGood die => execGuardPowerGood_only die s
  | .corePowerFall die => execCorePowerFall_only die s
  | .startTimeFinding kind unit sub => execStartTimeFinding_only kind unit sub s
  | .damagedMessage die wire => execDamagedMessage_only die wire s
  | .idleWord die => execIdleWord_only die s
  | .damagedFrame => execDamagedFrame_only s
  | .recentWindowExpiry page bit => execRecentWindowExpiry_only page bit s
  | .powerLimit stage => execPowerLimit_only stage s

/-- A state that a command answers differs from the one before in the footprint alone. -/
theorem only_of_exec {c : Instr} {s t : State} (h : exec c s = .next t) : Only (footprint c) s t := by
  obtain ⟨u, hu, honly⟩ := exec_only c s
  cases hu.symm.trans h
  exact honly

theorem pending_notMem_footprint (c : Instr) : Part.pending ∉ footprint c := by
  apply of_decide_eq_false
  cases c
  all_goals rfl

/-- Settles O3: one lemma for each command says what it can change at most. -/
theorem everyCommandCompletesWithinItsFootprint : Obligations.EveryCommandCompletesWithinItsFootprint := by
  refine ⟨fun c s => ?_, pending_notMem_footprint⟩
  obtain ⟨t, ht, honly⟩ := exec_only c s
  exact ⟨t, ht, honly.same⟩

/-! ### Steps -/

theorem step_of_empty {s : State} (h : s.pending = []) : step s = .next (tick s) := by
  rw [step, h]

theorem step_of_front {s : State} {c : Instr} {cs : List Instr} (h : s.pending = c :: cs) : step s = exec c { s with pending := cs } := by
  rw [step, h]

/-- A step is a tick on an empty queue, or the effect of the command in front. -/
theorem step_cases {s t : State} (h : step s = .next t) :
    (s.pending = [] ∧ t = tick s) ∨ ∃ c cs, s.pending = c :: cs ∧ exec c { s with pending := cs } = .next t := by
  cases hp : s.pending with
  | nil =>
    rw [step_of_empty hp] at h
    cases h
    exact .inl ⟨rfl, rfl⟩
  | cons c cs => exact .inr ⟨c, cs, rfl, step_of_front hp ▸ h⟩

/-- The queue of waiting commands has no part in what stays whatever a command does. -/
theorem lasting_pending (s : State) (cs : List Instr) : Lasting s { s with pending := cs } := Lasting.same rfl rfl rfl rfl rfl

theorem lasting_of_step {s t : State} (h : step s = .next t) : Lasting s t := by
  obtain ⟨-, rfl⟩ | ⟨c, cs, -, hc⟩ := step_cases h
  · exact (tick_only s).lasting
  · exact (lasting_pending s cs).trans (only_of_exec hc).lasting

/-- Settles O4: every operation keeps the programmed bits of each word at both references. -/
theorem fuseBitsNeverReturn : Obligations.FuseBitsNeverReturn := by
  intro s t h w i
  exact ⟨bit_kept ((lasting_of_step h).norm w) i, bit_kept ((lasting_of_step h).tight w) i⟩

/-- Settles O5: every operation keeps the invariant. -/
theorem everyStepKeepsTheInvariant : Obligations.EveryStepKeepsTheInvariant :=
  fun _ _ hinv h => (lasting_of_step h).inv hinv

/-! ### The tamper state and the block timer over a step -/

/-- What the tamper latch and tamper-cleared do when neither is released. -/
structure TamperHeld (s t : State) : Prop where
  /-- the latch stays set -/
  latch : s.tamper.latch = true → t.tamper.latch = true
  /-- tamper-cleared is not left -/
  cleared : s.tamper.cleared = true → t.tamper.cleared = true

theorem TamperHeld.of_eq {s t : State} (h : t.tamper = s.tamper) : TamperHeld s t := by
  constructor
  · rw [h]; exact id
  · rw [h]; exact id

theorem TamperHeld.trans {s u t : State} (h : TamperHeld s u) (h' : TamperHeld u t) : TamperHeld s t :=
  ⟨h'.latch ∘ h.latch, h'.cleared ∘ h.cleared⟩

/-- R304: the tamper sequence sets the latch and leaves tamper-cleared as it is. -/
theorem tamperHeld_tamperSequence (s : State) : TamperHeld s (tamperSequence s) := by
  constructor
  · rw [tamperSequence_tamper]; exact fun _ => rfl
  · rw [tamperSequence_tamper]; exact id

theorem TamperHeld.whenUp {b s : State} {k : State → State} (h : TamperHeld b s) (hk : ∀ u, TamperHeld b u → TamperHeld b (k u)) :
    TamperHeld b (whenUp s k) := by
  unfold Machine.whenUp
  split
  · exact h
  · exact hk s h

theorem TamperHeld.onlyIf {b s : State} {c : Bool} {k : State → State} (h : TamperHeld b s) (hk : ∀ u, TamperHeld b u → TamperHeld b (k u)) :
    TamperHeld b (onlyIf c k s) := by
  cases c
  · exact h
  · exact hk s h

theorem TamperHeld.modTamper {b s : State} {f : Tamper → Tamper} (h : TamperHeld b s) (hlatch : (f s.tamper).latch = s.tamper.latch)
    (hcleared : s.tamper.cleared = true → (f s.tamper).cleared = true) : TamperHeld b (s.modTamper f) :=
  h.trans ⟨hlatch.trans, hcleared⟩

theorem exec_tamperAssertion_held (die : Fin 4) (held : Bool) (s : State) : ∃ t, exec (.tamperAssertion die held) s = .next t ∧ TamperHeld s t := by
  refine ⟨_, rfl, TamperHeld.whenUp (TamperHeld.of_eq rfl) fun u hu => ?_⟩
  split
  · exact hu
  split
  · exact TamperHeld.onlyIf hu fun v hv => hv.modTamper rfl id
  · refine TamperHeld.onlyIf (hu.modTamper ?_ ?_) fun v hv => hv.trans (tamperHeld_tamperSequence v)
    · split <;> rfl
    · split <;> exact id

theorem exec_tamperZeroizeDone_held (failed : Bool) (s : State) : ∃ t, exec (.tamperZeroizeDone failed) s = .next t ∧ TamperHeld s t := by
  refine ⟨_, rfl, TamperHeld.whenUp (TamperHeld.of_eq rfl) fun u hu => ?_⟩
  split
  · exact hu
  split
  · exact hu.modTamper rfl id
  · refine TamperHeld.trans (hu.modTamper ?_ ?_) (TamperHeld.of_eq (State.modBrup_tamper _ _))
    · rfl
    · exact fun _ => rfl

/-- R539: the state in which the words of a life-cycle transition have verified, before what the transition brings. -/
def lcVerified (target : BitVec 8) (ws : List Nat) (s : State) : State :=
  ((forEach ws (fun w => burnWord w (if w = 40 then 1 else encodeWord allOnes64) []) s).modFuse
    (fun f => { f with op := none, lcBusy := false, lcValid := true, lcResult := 0 })).modEnt
      (fun e => { e with lcAdd := some target, reseedDue := true })

theorem lcVerified_only (target : BitVec 8) (ws : List Nat) (s : State) : Only [.freeCtr, .fuse, .array, .ent] s (lcVerified target ws s) :=
  Only.via (Only.modEnt _ _) rfl (Only.viaFuse (fun _ => rfl) rfl ((tail_lc ws s).mono rfl))

theorem exec_lcTransitionEffect_of_transition {s : State} {target : BitVec 8} {ws : List Nat} (hup : s.ports.rstCold = false)
    (hop : s.fuse.op = some (.transition target ws)) :
    exec .lcTransitionEffect s = .next (if target = 3 then scheduleReset (lcVerified target ws s) else
      if target = 4 then tamperSequence (lcVerified target ws s) else lcVerified target ws s) := by
  refine congrArg done ((whenUp_up _ hup).trans ?_)
  rw [hop]
  rfl

theorem exec_lcTransitionEffect_held (s : State) : ∃ t, exec .lcTransitionEffect s = .next t ∧ TamperHeld s t := by
  refine ⟨_, rfl, TamperHeld.whenUp (TamperHeld.of_eq rfl) fun u hu => ?_⟩
  split
  · next target ws _ =>
    have hv : TamperHeld s (lcVerified target ws u) := hu.trans (TamperHeld.of_eq ((lcVerified_only target ws u).tamper_eq (by decide)))
    change TamperHeld s (if target = 3 then scheduleReset (lcVerified target ws u) else
      if target = 4 then tamperSequence (lcVerified target ws u) else lcVerified target ws u)
    split
    · exact hv.trans (TamperHeld.of_eq ((scheduleReset_only _).tamper_eq (by decide)))
    split
    · exact hv.trans (tamperHeld_tamperSequence _)
    · exact hv
  · exact hu

/-- No command but COLD_RESET releases the tamper latch or leaves tamper-cleared. -/
theorem tamperHeld_of_exec {c : Instr} {s t : State} (h : exec c s = .next t) (hc : c ≠ .coldReset) : TamperHeld s t := by
  by_cases hm : Part.tamper ∈ footprint c
  · replace hm := decide_eq_true hm
    have hheld : ∃ u, exec c s = .next u ∧ TamperHeld s u := by
      cases c
      case coldReset => exact absurd rfl hc
      case lcTransitionEffect => exact exec_lcTransitionEffect_held s
      case tamperAssertion die held => exact exec_tamperAssertion_held die held s
      case tamperZeroizeDone failed => exact exec_tamperZeroizeDone_held failed s
      all_goals exact (Bool.false_ne_true hm).elim
    obtain ⟨u, hu, hheld⟩ := hheld
    cases hu.symm.trans h
    exact hheld
  · exact TamperHeld.of_eq ((only_of_exec h).tamper_eq hm)

/-- R689: no command but COLD_RESET and its release turns the block timer back. -/
theorem later_of_exec {c : Instr} {s t : State} (h : exec c s = .next t) (hc : c ≠ .coldReset) (hc' : c ≠ .coldResetRelease) : Later s t := by
  by_cases hm : Part.timer ∈ footprint c
  · replace hm := decide_eq_true hm
    have hlater : ∃ u, exec c s = .next u ∧ Later s u := by
      cases c
      case coldReset => exact absurd rfl hc
      case coldResetRelease => exact absurd rfl hc'
      case romBoot octal => exact execRomBoot_later octal s
      case delayedCoreReset => exact execDelayedCoreReset_later s
      case releaseTimeout line => exact execReleaseTimeout_later line s
      case fpNoLatch => exact execFpNoLatch_later s
      case keyReqResend g slot => exact execKeyReqResend_later g slot s
      case broadcastResend opId sync => exact execBroadcastResend_later opId sync s
      case ackTimeout opId sync => exact execAckTimeout_later opId sync s
      case hybFinishTimeout sess => exact execHybFinishTimeout_later sess s
      case sessionIdleTimeout sess => exact execSessionIdleTimeout_later sess s
      case quoteBatchClose => exact execQuoteBatchClose_later s
      case lkAckTimeout => exact execLkAckTimeout_later s
      case bundleKeyLapse model => exact execBundleKeyLapse_later model s
      case eShort ctx => exact execEShort_later ctx s
      case watchdog standby c => exact execWatchdog_later standby c s
      case heartbeatInterval => exact execHeartbeatInterval_later s
      case holdExpiry => exact execHoldExpiry_later s
      case mirrorAckTimeout => exact execMirrorAckTimeout_later s
      case standbyLost => exact execStandbyLost_later s
      case mirrorResync => exact execMirrorResync_later s
      case activeCoreLost => exact execActiveCoreLost_later s
      case ctlTimeout p addr write => exact execCtlTimeout_later p addr write s
      all_goals exact (Bool.false_ne_true hm).elim
    obtain ⟨u, hu, hlater⟩ := hlater
    cases hu.symm.trans h
    exact hlater
  · exact ⟨Nat.le_of_eq ((only_of_exec h).timer_eq hm).symm⟩

/-- Settles O6: each command but COLD_RESET keeps the tamper state, and each but its release too keeps the time. -/
theorem onlyColdResetEndsTamperAndTurnsTheTimerBack : Obligations.OnlyColdResetEndsTamperAndTurnsTheTimerBack := by
  intro s t h hc
  obtain ⟨-, rfl⟩ | ⟨c, cs, hp, hexec⟩ := step_cases h
  · obtain ⟨htamper, htimer⟩ := tick_keeps s
    obtain ⟨hlatch, hcleared⟩ := TamperHeld.of_eq htamper
    exact ⟨hlatch, hcleared, fun _ => htimer⟩
  · rw [hp, List.head?_cons, ne_eq, Option.some_inj] at hc ⊢
    obtain ⟨hlatch, hcleared⟩ := tamperHeld_of_exec hexec hc
    exact ⟨hlatch, hcleared, fun hc' => (later_of_exec hexec hc hc').le⟩

/-! ### The tick -/

theorem takePosted_of_not_inPost {o : Bool} {s : State} (h : (s.mbx o).inPost = false) : takePosted o s = s := by
  rw [takePosted, h]
  rfl

theorem serveMailbox_of_none_arrived {o : Bool} {s : State} (h : (s.mbx o).arrived = []) : serveMailbox o s = s := by
  rw [serveMailbox, h]

/-- R689: a tick with nothing posted, arrived or shown is the passing of its microsecond. -/
theorem tick_of_quiet {s u : State} (hup : s.ports.rstCold = false) (hu : timerTick s = u) (ht : u.tenantBox.inPost = false)
    (ho : u.operBox.inPost = false) (hta : u.tenantBox.arrived = []) (hoa : u.operBox.arrived = []) (htmx : tmxOpen u = false) : tick s = u := by
  rw [tick, whenUp_up _ hup, hu, takePosted_of_not_inPost (o := false) ht, takePosted_of_not_inPost (o := true) ho,
    serveMailbox_of_none_arrived (o := false) hta, serveMailbox_of_none_arrived (o := true) hoa, tmxTick, htmx]
  rfl

/-- Settles O1: with nothing posted, arrived or shown, a tick is the microsecond alone. -/
theorem aStepRunsTheFrontCommand : Obligations.AStepRunsTheFrontCommand := by
  refine ⟨fun s c cs => rfl, fun s => step_of_empty, fun s hp hcold => ?_, fun s hp hup haon ht ho hta hoa htmx => ?_⟩
  · rw [step_of_empty hp, tick, whenUp, hcold, if_pos rfl]
  · rw [step_of_empty hp, tick_of_quiet hup (if_pos haon) ht ho hta hoa htmx]
    rfl

/-! ### The block at reset -/

theorem get_replicate {α : Type} {n : Nat} (a : α) (i : Fin n) : (Vector.replicate n a).get i = a :=
  Vector.getElem_replicate i.isLt

/-- R661: each guard at reset is the reset guard of its number. -/
theorem guards_reset (g : Fin 40) : State.reset.guards.get g = Guard.reset g := by
  show ((List.range 40).map Guard.reset).toArray[g.val] = _
  simp

theorem anchor_reset (n : Nat) : State.reset.anchor n = {} := by
  unfold State.anchor
  split
  · exact get_replicate _ _
  · rfl

theorem inv_reset : State.reset.Inv := ⟨rfl, rfl, rfl, rfl⟩

/-- Settles O2: every field has the value that its structure declares. -/
theorem theBlockAtResetIsAsTheRulesSay : Obligations.TheBlockAtResetIsAsTheRulesSay := by
  refine ⟨rfl, rfl, fun g => ?guard, fun d => ?die, fun c => get_replicate _ c, fun n => ?anchor, rfl, rfl, rfl, fun c => ?region, rfl, rfl, rfl,
    rfl, inv_reset⟩
  case guard =>
    rw [guards_reset]
    exact ⟨rfl, rfl, rfl, rfl, rfl⟩
  case die => exact congrArg Die.inReset (get_replicate _ d)
  case anchor =>
    rw [anchor_reset]
    rfl
  case region => exact congrArg DigCore.nextSeq (get_replicate _ c)

end Sys2Proof.Machine
end

section
/-!
PROOFS. Cold reset and its release (R622, R661), fuse sensing (R518, R519, R526, R538, R662) and the choice of the boot core (R465, R466): what the readings
of the fuses rest on, and the states that the four commands leave.
-/

namespace Sys2Proof.Machine
open Sys2Proof

theorem get_map {α β : Type} {n : Nat} (f : α → β) (v : Vector α n) (i : Fin n) : (v.map f).get i = f (v.get i) :=
  Vector.getElem_map f i.isLt

/-! ### Cold reset -/

theorem interruptFuse_of_idle {s : State} (h : s.fuse.op = none) : interruptFuse s = s := by
  unfold interruptFuse
  rw [h]

theorem exec_coldReset {s u : State} (hu : interruptFuse s = u) :
    exec .coldReset s = .next { State.reset with
      pending := u.pending, freeCtr := u.freeCtr, flash := u.flash, fuse := { array := u.fuse.array },
      dies := u.dies.map (fun d => { coreGood := d.coreGood, guardGood := d.guardGood }) } := by
  rw [← hu]
  rfl

/-- R661: the release of cold reset does nothing before every power input is good. -/
theorem exec_coldResetRelease {s : State} (hcold : s.ports.rstCold = true)
    (hgood : ∀ d : Fin 4, (s.dies.get d).coreGood = true ∧ (s.dies.get d).guardGood = true) :
    exec .coldResetRelease s = .next { s with
      timer := 0, ports := { s.ports with rstCold := false, aonUp := true, pairDone := true },
      dies := s.dies.map (fun d => { d with inReset := false, pairRun := 7, t2Run := true }),
      head := { s.head with attached := true }, pk := { s.pk with stDue := true },
      boot := { s.boot with cores := Vector.replicate 4 .romWait }, sby := { s.sby with alive := true, selftest := true } } := by
  refine congrArg done (if_neg ?_)
  rintro (hrst | hbad)
  · rw [hcold] at hrst
    exact absurd hrst (by decide)
  · obtain ⟨x, hx, hxbad⟩ := List.any_eq_true.mp hbad
    obtain ⟨i, hi, rfl⟩ := Vector.mem_iff_getElem.mp (Vector.mem_toList_iff.mp hx)
    obtain ⟨hcore, hguard⟩ := hgood ⟨i, hi⟩
    change (!(s.dies.get ⟨i, hi⟩).coreGood || !(s.dies.get ⟨i, hi⟩).guardGood) = true at hxbad
    rw [hcore, hguard] at hxbad
    exact absurd hxbad (by decide)

/-- Settles O7: the fuse operation that a cold reset interrupts may only touch the array. -/
theorem coldResetHoldsTheBlock : Obligations.ColdResetHoldsTheBlock := by
  refine ⟨fun s => ?_, fun s hcold hgood => ?_⟩
  · obtain ⟨n, f, hu⟩ := interruptFuse_parts s
    refine ⟨_, exec_coldReset hu, rfl, rfl, fun d => get_map _ _ d, fun hop => ?_⟩
    rw [interruptFuse_of_idle hop] at hu
    exact (congrArg (fun u => u.fuse.array) hu).symm
  · exact ⟨_, exec_coldResetRelease hcold hgood, rfl, fun d => get_map _ _ d⟩

/-! ### What the readings of the fuses rest on -/

section
variable {s t : State}

theorem shadow_congr (hs : t.fuse.shadows = s.fuse.shadows) : t.shadow = s.shadow := by
  funext w
  simp only [State.shadow, hs]

theorem burned_congr (hs : t.fuse.shadows = s.fuse.shadows) : t.burned = s.burned := by
  funext w
  rw [State.burned, State.burned, shadow_congr hs]

theorem sensed_congr (hs : t.fuse.shadows = s.fuse.shadows) (ha : t.fuse.array = s.fuse.array) : t.sensed = s.sensed := by
  funext w
  rw [State.sensed, State.sensed, shadow_congr hs, fuseWord_array ha]

theorem sealPresent_congr (hs : t.fuse.shadows = s.fuse.shadows) (ha : t.fuse.array = s.fuse.array) : sealPresent t = sealPresent s := by
  funext r
  rw [sealPresent, sealPresent, sensed_congr hs ha]

theorem regionSealed_congr (hs : t.fuse.shadows = s.fuse.shadows) (ha : t.fuse.array = s.fuse.array) : regionSealed t = regionSealed s := by
  funext r
  rw [regionSealed, regionSealed, sealValue, sealValue, sealPresent_congr hs ha, sensed_congr hs ha]

theorem regionAbsent_congr (hs : t.fuse.shadows = s.fuse.shadows) (ha : t.fuse.array = s.fuse.array) : regionAbsent t = regionAbsent s := by
  funext r
  rw [regionAbsent, regionAbsent, writeLocked, writeLocked, readLocked, readLocked, sealPresent_congr hs ha, regionSealed_congr hs ha, burned_congr hs]

theorem gradeOf_congr (hs : t.fuse.shadows = s.fuse.shadows) (ha : t.fuse.array = s.fuse.array) : gradeOf t = gradeOf s := by
  simp only [gradeOf, shadow_congr hs, regionAbsent_congr hs ha]

theorem fuseFatal_congr (hs : t.fuse.shadows = s.fuse.shadows) (ha : t.fuse.array = s.fuse.array) : fuseFatal t = fuseFatal s := by
  simp only [fuseFatal, burned_congr hs, regionAbsent_congr hs ha]

theorem lifeCycle_congr (hs : t.fuse.shadows = s.fuse.shadows) (ht : t.tamper = s.tamper) : lifeCycle t = lifeCycle s := by
  simp only [lifeCycle, burned_congr hs, ht]

theorem defects_congr (hs : t.fuse.shadows = s.fuse.shadows) : defects t = defects s := by
  rw [defects, defects, defectWords, defectWords, hs]

theorem marked_congr (hs : t.fuse.shadows = s.fuse.shadows) (hm : t.mir = s.mir) : marked t = marked s := by
  funext c i
  rw [marked, marked, defects_congr hs, hm]

theorem freshGuard_congr (hs : t.fuse.shadows = s.fuse.shadows) : freshGuard t = freshGuard s := by
  funext g
  rw [freshGuard, freshGuard, defects_congr hs]

end

/-! ### Sensing -/

/-- R518, R526, R538: the state in which a sensing has set the shadows, and grade, fatal state and test path from them. -/
def shadowed (read : List (Nat × BitVec 72 × BitVec 72)) (s : State) : State :=
  let u := s.modFuse (fun f => { f with shadows := senseAll (senseArray read f.array), sensed := true, udsShadow := true })
  u.modFuse (fun f => { f with grade := BitVec.ofNat 8 (gradeOf u), fatal := fuseFatal u, testPath := lifeCycle u == 1 || lifeCycle u == 2 })

theorem exec_fuseSensingDone {s : State} (read : List (Nat × BitVec 72 × BitVec 72)) (hup : s.ports.rstCold = false)
    (haon : s.ports.aonUp = true) (hunsensed : s.fuse.sensed = false) (htamper : s.tamper.latch = false)
    (hcore : ∃ c : Fin 4, s.boot.cores.get c ≠ .reset) :
    exec (.fuseSensingDone read) s = .next (applyRecord (laneStart (shadowed read s))) := by
  obtain ⟨c, hc⟩ := hcore
  have hany : s.boot.cores.toList.any (fun c => c != .reset) = true := any_of_get _ _ c (by simpa using hc)
  refine congrArg done ((whenUp_up _ hup).trans ?_)
  rw [haon, hunsensed, htamper, hany]
  rfl

/-- R538: what a sensing sets from the shadows is what any state with these shadows and this array gives. -/
theorem fuse_shadowed {s t : State} {read : List (Nat × BitVec 72 × BitVec 72)} (hf : t.fuse = (shadowed read s).fuse) (ht : t.tamper = s.tamper) :
    t.fuse = { s.fuse with
      shadows := senseAll (senseArray read s.fuse.array), sensed := true, udsShadow := true, grade := BitVec.ofNat 8 (gradeOf t),
      fatal := fuseFatal t, testPath := lifeCycle t == 1 || lifeCycle t == 2 } := by
  have hs : t.fuse.shadows = senseAll (senseArray read s.fuse.array) := congrArg Fuse.shadows hf
  have ha : t.fuse.array = s.fuse.array := (congrArg Fuse.array hf :)
  have hu : t.fuse.shadows = (s.modFuse (fun f => { f with
    shadows := senseAll (senseArray read f.array), sensed := true, udsShadow := true })).fuse.shadows := hs
  rw [gradeOf_congr hu ha, fuseFatal_congr hu ha, lifeCycle_congr hu ht, hf]
  rfl

/-- R567: the record applied takes the datapaths of the public-key engine that it marks out. -/
theorem pk_applyRecord (s : State) : (applyRecord s).pk = { s.pk with dpAOut := marked s 4 0, dpBOut := marked s 4 1 } := by
  have hraise (l : List Shadow) (u : State) : Only [.fq] u (forEach l (fun x => raise false kBringUp x.word fDefectWord 0 x.word) u) :=
    Only.forEach (Only.refl _ _) fun _ _ h => h.trans (raise_only _ _ _ _ _ _ _)
  refine ((hraise _ _).pk_eq (by decide)).trans ?_
  have hmarked (f : BringUp → BringUp) : marked (s.modBrup f) = marked s := marked_congr rfl rfl
  rw [State.modDig_pk, State.modPk_pk, State.modBrup_pk, hmarked]

theorem laneStart_of_cold {s : State} (h : ∀ d, (s.dies.get d).laneRun = false) :
    laneStart s = (s.modDies (fun _ d => { d with laneRun := true })).modGuards (fun g _ => freshGuard s g) := by
  have hall : s.dies.toList.all (fun d => !d.laneRun) = true := all_of_get _ _ fun d => by rw [h d]; rfl
  rw [laneStart, hall, onlyIf_true, freshGuard_congr rfl]

/-! ### The boot core -/

theorem exec_bootValid {s : State} {passing : BitVec 4} {c : Nat} {rest : List Nat} (hup : s.ports.rstCold = false) (hsensed : s.fuse.sensed = true)
    (hnone : s.boot.bootValid = false) (hwait : ∀ k, s.boot.cores.get k = .romWait)
    (hgood : (List.range 4).filter (fun k => bitAt passing k && !marked s 3 k && !bitAt s.boot.excluded k) = c :: rest) :
    exec (.bootValid passing) s = .next (s.modBoot (fun b => { b with
      bootCore := c, bootValid := true, excluded := BitVec.ofNat 4 (((List.range 4).filter (fun k => !(c :: rest).contains k)).map (2 ^ ·)).sum,
      cores := vmapIdx b.cores (fun k _ => if k = c then .rom else if ((List.range 4).filter (bitAt passing)).contains k then .halted else .reset) })) := by
  have hall : s.boot.cores.toList.all (· == .romWait) = true := all_of_get _ _ fun k => beq_iff_eq.mpr (hwait k)
  have hfilter : ((List.range 4).filter (bitAt passing)).filter (fun c => !marked s 3 c && !bitAt s.boot.excluded c) = c :: rest := by
    rw [← hgood, List.filter_filter]
    refine List.filter_congr fun k _ => ?_
    cases bitAt passing k <;> simp
  refine congrArg done ((whenUp_up _ hup).trans ?_)
  rw [hsensed, hnone, hall]
  dsimp only [onlyIf]
  rw [hfilter]
  rfl

theorem contains_passed (passing : BitVec 4) (k : Fin 4) : ((List.range 4).filter (bitAt passing)).contains k.val = bitAt passing k.val := by
  rw [List.contains_eq_mem]
  simp [k.isLt]

/-- Settles O8: the shadows alone decide what a sensing sets, and the record and the passing cores who runs. -/
theorem sensingGivesShadowsAndABootCore : Obligations.SensingGivesShadowsAndABootCore := by
  refine ⟨fun s read hup haon hunsensed htamper hcore => ?_, fun s passing good c rest hup hsensed hnone hwait hgood hfirst => ?_⟩
  · have hexec := exec_fuseSensingDone read hup haon hunsensed htamper hcore
    have honly := only_of_exec hexec
    have hrecord := applyRecord_only (laneStart (shadowed read s))
    have hlane := laneStart_only (shadowed read s)
    refine ⟨_, hexec, honly, ?fuse, ?dpA, ?dpB, fun hcold => ⟨fun d => ?die, fun g => ?guard⟩⟩
    case fuse => exact fuse_shadowed ((hrecord.fuse_eq (by decide)).trans (hlane.fuse_eq (by decide))) ((hrecord.tamper_eq (by decide)).trans (hlane.tamper_eq (by decide)))
    case dpA =>
      rw [pk_applyRecord, marked_congr (congrArg Fuse.shadows (hrecord.fuse_eq (by decide))) (hrecord.mir_eq (by decide))]
    case dpB =>
      rw [pk_applyRecord, marked_congr (congrArg Fuse.shadows (hrecord.fuse_eq (by decide))) (hrecord.mir_eq (by decide))]
    case die =>
      rw [hrecord.dies_eq (by decide), laneStart_of_cold (s := shadowed read s) hcold, State.modGuards_dies, State.modDies_dies, vmapIdx_get]
      rfl
    case guard =>
      rw [hrecord.guards_eq (by decide), freshGuard_congr (congrArg Fuse.shadows ((hrecord.fuse_eq (by decide)).trans (hlane.fuse_eq (by decide)))),
        laneStart_of_cold (s := shadowed read s) hcold, State.modGuards_guards, vmapIdx_get]
  · refine ⟨_, exec_bootValid hup hsensed hnone hwait (hgood.symm.trans hfirst), ?_, fun k => ?_⟩
    · rw [hfirst]
      rfl
    · rw [State.modBoot_boot]
      dsimp only
      rw [vmapIdx_get, contains_passed]

end Sys2Proof.Machine
end

section
/-!
PROOFS. The ROM flow (R412, R472, R484, R486, R501, R502, R504, R526, R540, R542) and the boot page: handover, release, FINALISED (R466, R489, R490, R501, R526)
and the cairn (R495 to R499).
-/

namespace Sys2Proof.Machine
open Sys2Proof

/-! ### The ROM flow -/

theorem exec_romBoot {s : State} (octal : Bool) (hup : s.ports.rstCold = false) (htamper : s.tamper.latch = false) (hvalid : s.boot.bootValid = true)
    (hkind : s.boot.handover.kind = 0) (hclosed : s.boot.recovery.opened = false)
    (hrom : s.boot.cores.toList.getD s.boot.bootCore .reset = .rom) :
    exec (.romBoot octal) s = .next (
      if lifeCycle s = 4 then openRecovery 0 (s.modAtt (fun a => { a with romDigest := sha3_384 Config.romImage }))
      else if s.fuse.fatal then s.modAtt (fun a => { a with romDigest := sha3_384 Config.romImage })
      else romFlow octal s) := by
  refine congrArg done ((whenUp_up _ hup).trans ?_)
  rw [hvalid, hkind, hclosed, htamper, hrom]
  rfl

/-- R484: the state with the boot counted. -/
def bootCounted (s : State) : State := s.modAtt (fun a => { a with bootCount := BitVec.ofNat 32 (((countTop s).map Prod.fst).getD 0 + 1) })

theorem bootCounted_only (s : State) : Only [.att] s (bootCounted s) := Only.modAtt _ _

theorem att_bootCounted (s : State) :
    (bootCounted s).att = { s.att with bootCount := BitVec.ofNat 32 (((countTop s).map Prod.fst).getD 0 + 1) } := rfl

/-- R486: the state in which the ROM, with its keys derived and the boot counted, picks a candidate. -/
def romReady (octal : Bool) (s : State) : State := debugPass (bootCounted (flashUp octal (romKeys s)))

/-- R502: REASON as the ROM leaves it, but for its bit 7. -/
def romReason (octal : Bool) (u : State) : Nat :=
  bitNat 2 (recorded (commits u)).2 + bitNat 3 (commits u).isEmpty + bitNat 4 (!octal) +
    triedReason u ((candidates u).takeWhile (fun c => !slotUsable u c.slotB))

theorem romFlow_of_usable {octal : Bool} {s : State} {c : Candidate}
    (h : (candidates (romReady octal s)).find? (fun c => slotUsable (romReady octal s) c.slotB) = some c) :
    romFlow octal s = romLoad c (romReason octal (romReady octal s)) (romReady octal s) := by
  unfold romReady bootCounted at h
  unfold romFlow
  dsimp only at h ⊢
  rw [h]
  rfl

theorem romFlow_of_none_usable {octal : Bool} {s : State}
    (h : (candidates (romReady octal s)).find? (fun c => slotUsable (romReady octal s) c.slotB) = none) :
    romFlow octal s = openRecovery (romReason octal (romReady octal s)) (romReady octal s) := by
  unfold romReady bootCounted at h
  unfold romFlow
  dsimp only at h ⊢
  rw [h]
  rfl

theorem countTop_congr {s t : State} (hf : t.flash = s.flash) (hk : imageKey t = imageKey s) : countTop t = countTop s := by
  have hbytes : flashBytes t = flashBytes s := by
    funext o n
    rw [flashBytes, flashBytes, hf]
  have hrecord : countRecord t = countRecord s := by
    funext n
    rw [countRecord, countRecord, hk]
  rw [countTop, countTop, hbytes, hrecord]

/-- R504: the open recovery loader, with no handover record but REASON. -/
theorem openRecovery_facts (reason : Nat) (s : State) : (openRecovery reason s).boot.recovery = { opened := true } ∧
    (openRecovery reason s).boot.handover.kind = 0 ∧ (openRecovery reason s).flash = s.flash ∧ (openRecovery reason s).ports = s.ports :=
  ⟨rfl, rfl, rfl, rfl⟩

theorem ports_flashUp (octal : Bool) (s : State) : (flashUp octal s).ports = { s.ports with xspiRst := true, flashOctal := octal } := rfl

section
variable (octal : Bool) (s : State)

theorem romReady_only_romKeys : Only [.timer, .att, .fuse, .ports] (romKeys s) (romReady octal s) := by
  exact Only.via (debugPass_only _) rfl (Only.via (bootCounted_only _) rfl ((flashUp_only octal (romKeys s)).mono rfl))

theorem shadows_romReady : (romReady octal s).fuse.shadows = (romKeys s).fuse.shadows := by
  rw [romReady, debugPass_shadows, (bootCounted_only _).fuse_eq (by decide), (flashUp_only octal (romKeys s)).fuse_eq (by decide)]

theorem flash_romReady : (romReady octal s).flash = s.flash :=
  ((romReady_only_romKeys octal s).flash_eq (by decide)).trans ((romKeys_only s).flash_eq (by decide))

theorem anchor_romReady (n : Nat) : (romReady octal s).anchor n = (romKeys s).anchor n :=
  anchor_slots ((romReady_only_romKeys octal s).slots_eq (by decide)) n

theorem imageKey_romReady : imageKey (romReady octal s) = imageKey (romKeys s) :=
  congrArg AnchorSlot.value (anchor_romReady octal s 4)

/-- R486: the ROM's choice among the slots rests on the keys it derived and on the flash. -/
theorem choice_romReady : (candidates (romReady octal s)).find? (fun c => slotUsable (romReady octal s) c.slotB) =
    (candidates (romKeys s)).find? (fun c => slotUsable (romKeys s) c.slotB) := by
  have hf := (romReady_only_romKeys octal s).flash_eq (by decide)
  have hk := imageKey_romReady octal s
  rw [candidates_congr hf hk, slotUsable_congr hf hk (cairn_congr (shadows_romReady octal s))]

theorem att_romReady : (romReady octal s).att = { s.att with
    romDigest := sha3_384 Config.romImage, bootCount := BitVec.ofNat 32 (((countTop (romKeys s)).map Prod.fst).getD 0 + 1) } := by
  have hup := flashUp_only octal (romKeys s)
  have hk : imageKey (flashUp octal (romKeys s)) = imageKey (romKeys s) := congrArg AnchorSlot.value (anchor_slots (hup.slots_eq (by decide)) 4)
  rw [romReady, (debugPass_only _).att_eq (by decide), att_bootCounted, countTop_congr (hup.flash_eq (by decide)) hk, hup.att_eq (by decide), romKeys_att]

theorem ports_romReady : (romReady octal s).ports = { s.ports with xspiRst := true, flashOctal := octal } := by
  rw [romReady, (debugPass_only _).ports_eq (by decide), (bootCounted_only _).ports_eq (by decide), ports_flashUp, (romKeys_only s).ports_eq (by decide)]

theorem boot_romReady : (romReady octal s).boot = s.boot :=
  ((romReady_only_romKeys octal s).boot_eq (by decide)).trans ((romKeys_only s).boot_eq (by decide))

end

/-- R472, R484, R486: what the ROM flow leaves whichever candidate it picks. -/
theorem romFlow_facts (octal : Bool) (s : State) :
    (romFlow octal s).att.romDigest = sha3_384 Config.romImage ∧
    (romFlow octal s).att.bootCount = BitVec.ofNat 32 (((countTop (romKeys s)).map Prod.fst).getD 0 + 1) ∧
    (romFlow octal s).ports.xspiRst = true ∧ (romFlow octal s).ports.flashOctal = octal ∧
    ∀ n, n ≠ 2 → n ≠ 3 → n ≠ 8 → (romFlow octal s).anchor n = (romKeys s).anchor n := by
  cases h : (candidates (romReady octal s)).find? (fun c => slotUsable (romReady octal s) c.slotB) with
  | none =>
    have honly := openRecovery_only (romReason octal (romReady octal s)) (romReady octal s)
    rw [romFlow_of_none_usable h, honly.att_eq (by decide), honly.ports_eq (by decide), att_romReady, ports_romReady]
    exact ⟨rfl, rfl, rfl, rfl, fun n _ _ _ => (anchor_slots (honly.slots_eq (by decide)) n).trans (anchor_romReady octal s n)⟩
  | some c =>
    obtain ⟨hanchor, hdigest, hcount, -, -, -, -, -, -, -, -, hrst, hoctal⟩ :=
      romLoad_facts c (romReason octal (romReady octal s)) (romReady octal s)
    rw [romFlow_of_usable h, hdigest, hcount, hrst, hoctal, att_romReady, ports_romReady]
    exact ⟨rfl, rfl, rfl, rfl, fun n h2 h3 h8 => (hanchor n h2 h3 h8).trans (anchor_romReady octal s n)⟩

/-- Settles O9: the keys are those of `romKeys`, and the choice of the image rests on them and the flash. -/
theorem romDerivesKeysAndPicksAnImage : Obligations.RomDerivesKeysAndPicksAnImage := by
  intro s octal hup htamper hvalid hkind hclosed hrom
  have hexec := exec_romBoot octal hup htamper hvalid hkind hclosed hrom
  refine ⟨_, hexec, only_of_exec hexec, fun hlc hfatal => ?fatal, fun hlc => ?decommissioned, fun hlc hfatal => ?flow⟩
  case fatal =>
    rw [if_neg hlc, if_pos hfatal]
    rfl
  case decommissioned =>
    rw [if_pos hlc]
    exact ⟨Only.via (openRecovery_only _ _) rfl ((Only.modAtt _ _).mono rfl), rfl, rfl⟩
  case flow =>
    rw [if_neg hlc, hfatal, if_neg Bool.false_ne_true]
    obtain ⟨hdigest, hcount, hrst, hoctal, hanchor⟩ := romFlow_facts octal s
    obtain ⟨himage, hblob, hmirror⟩ := romKeys_anchors s
    refine ⟨hdigest, hrst, hoctal, ?_, ?_, ?_, hcount, fun c hc => ?some, fun hnone => ?none⟩
    · rw [hanchor 4 (by decide) (by decide) (by decide), himage]
    · rw [hanchor 5 (by decide) (by decide) (by decide), hblob]
    · rw [hanchor 7 (by decide) (by decide) (by decide), hmirror]
    case some =>
      rw [← choice_romReady octal] at hc
      obtain ⟨-, -, -, hhead, hbytes, hfw, hslot, hkind, hrec, hvalid, hpub, -, -⟩ :=
        romLoad_facts c (romReason octal (romReady octal s)) (romReady octal s)
      have hheader : slotHeader (romReady octal s) c.slotB = slotHeader s c.slotB := by
        rw [slotHeader, slotHeader, flashBytes, flashBytes, flash_romReady]
      have hpair : pairPublic (romReady octal s) 0 = pairPublic (romKeys s) 0 := by
        rw [pairPublic, pairPublic, anchor_romReady, anchor_romReady]
      rw [hheader] at hhead hbytes hfw
      rw [boot_romReady] at hrec
      rw [romFlow_of_usable hc]
      exact ⟨hhead, hbytes, hfw, hslot, hkind, (congrArg Recovery.opened hrec).trans hclosed, hvalid, hpub.trans hpair⟩
    case none =>
      rw [← choice_romReady octal] at hnone
      obtain ⟨hopened, hnoKind, hflash, hports⟩ := openRecovery_facts (romReason octal (romReady octal s)) (romReady octal s)
      rw [romFlow_of_none_usable hnone]
      exact ⟨hopened, hflash.trans (flash_romReady octal s), hnoKind, hports.trans (ports_romReady octal s)⟩

/-! ### Handover and release -/

/-- R501, R526: a state whose slots 0 and 1 are empty, with the ROM locked and firmware running, before it takes up its work; `h` is the handover record. -/
def firmwareStarted (entry : BitVec 32) (h : Handover) (c : Nat) (u : State) : State :=
  let w := wipeUds u
  let v := w.modBoot (fun b => { b with
    romLocked := true, entry := entry, slotB := h.slotB, kind := h.kind.extractLsb' 0 2,
    attempt := h.attempt.extractLsb' 0 2, runSvn := BitVec.ofNat 32 b.image.svn, cores := vmod b.cores c (fun _ => .running),
    wdogArmed := setBit b.wdogArmed c true, wdogDue := vmod b.wdogDue c (fun _ => w.timer + 10000) })
  v.modAtt (fun a => { a with certMismatch := certDiffers v })

theorem firmwareStarted_only (entry : BitVec 32) (h : Handover) (c : Nat) (u : State) : Only [.boot, .fuse, .att] u (firmwareStarted entry h c u) := by
  unfold firmwareStarted
  dsimp only
  exact Only.via (Only.modAtt _ _) rfl (Only.via (Only.modBoot _ _) rfl ((wipeUds_only u).mono rfl))

theorem udsShadow_firmwareStarted (entry : BitVec 32) (h : Handover) (c : Nat) (u : State) :
    (firmwareStarted entry h c u).fuse.udsShadow = false := rfl

theorem boot_firmwareStarted (entry : BitVec 32) (h : Handover) (c : Nat) (u : State) : (firmwareStarted entry h c u).boot = { u.boot with
    romLocked := true, entry := entry, slotB := h.slotB, kind := h.kind.extractLsb' 0 2,
    attempt := h.attempt.extractLsb' 0 2, runSvn := BitVec.ofNat 32 u.boot.image.svn, cores := vmod u.boot.cores c (fun _ => .running),
    wdogArmed := setBit u.boot.wdogArmed c true, wdogDue := vmod u.boot.wdogDue c (fun _ => u.timer + 10000) } := rfl

/-- R279, R501, R526: the state in which firmware runs after the handover, before it takes up its work. -/
def handedOver (entry : BitVec 32) (s : State) : State := firmwareStarted entry s.boot.handover s.boot.bootCore (clearSlot 1 (clearSlot 0 s))

/-- R279: the state with slots 0 and 1 empty. -/
theorem anchor_clearSlots (s : State) (n : Nat) :
    (clearSlot 1 (clearSlot 0 s)).anchor n = if n < 2 then { epoch := (s.anchor n).epoch } else s.anchor n := by
  rw [anchor_clearSlot _ _ _ (by decide), anchor_clearSlot _ _ _ (by decide), anchor_clearSlot _ _ _ (by decide)]
  obtain rfl | rfl | hn : n = 0 ∨ n = 1 ∨ 2 ≤ n := by omega
  · rfl
  · rfl
  · rw [if_neg (by omega), if_neg (by omega), if_neg (by omega)]

theorem clearSlots_only (s : State) : Only [.freeCtr, .vault, .slots, .dig, .dma] s (clearSlot 1 (clearSlot 0 s)) :=
  (clearSlot_only 0 s).trans (clearSlot_only 1 _)

theorem handedOver_only (entry : BitVec 32) (s : State) : Only [.freeCtr, .vault, .slots, .dig, .dma, .boot, .fuse, .att] s (handedOver entry s) :=
  Only.via (firmwareStarted_only _ _ _ _) rfl ((clearSlots_only s).mono rfl)

theorem anchor_handedOver (entry : BitVec 32) (s : State) (n : Nat) :
    (handedOver entry s).anchor n = if n < 2 then { epoch := (s.anchor n).epoch } else s.anchor n :=
  (anchor_slots ((firmwareStarted_only _ _ _ _).slots_eq (by decide)) n).trans (anchor_clearSlots s n)

theorem boot_handedOver (entry : BitVec 32) (s : State) : (handedOver entry s).boot = { s.boot with
    romLocked := true, entry := entry, slotB := s.boot.handover.slotB, kind := s.boot.handover.kind.extractLsb' 0 2,
    attempt := s.boot.handover.attempt.extractLsb' 0 2, runSvn := BitVec.ofNat 32 s.boot.image.svn,
    cores := vmod s.boot.cores s.boot.bootCore (fun _ => .running), wdogArmed := setBit s.boot.wdogArmed s.boot.bootCore true,
    wdogDue := vmod s.boot.wdogDue s.boot.bootCore (fun _ => s.timer + 10000) } := by
  rw [handedOver, boot_firmwareStarted, (clearSlots_only s).boot_eq (by decide), (clearSlots_only s).timer_eq (by decide)]

/-- R501: the handover is taken from the boot core while the ROM is readable, for the image's entry. -/
theorem exec_bootHandover {s : State} {c : Fin 4} {v : BitVec 32} (hw : Write s (.core c) (bootPage + 0x38)) (hc : c.val = s.boot.bootCore)
    (hopen : s.boot.romLocked = false) (hkind : s.boot.handover.kind ≠ 0) (hv : v = s.boot.image.entry) :
    exec (.bootHandover (.core c) v) s = .next (settle (kexSetup (resumeBringUp (startService (countKeep
      (takePlan ((handedOver v s).boot.imageBytes.drop 16384) (handedOver v s))))))) := by
  have hgo : ¬(s.boot.romLocked = true ∨ s.boot.handover.kind = 0 ∨ (!(c.toNat == s.boot.bootCore)) = true ∨ v ≠ s.boot.image.entry) := by
    rintro (hlocked | hnone | hother | hentry)
    · exact absurd (hopen.symm.trans hlocked) (by decide)
    · exact hkind hnone
    · exact absurd (beq_iff_eq.mpr hc) (by simpa using hother)
    · exact hentry hv
  refine congrArg done ((writeOwned_ok hw).trans ?_)
  rw [accessOk_core]
  dsimp only
  rw [if_neg hgo]
  rfl

theorem getD_toList {α : Type} {n : Nat} (v : Vector α n) (d : α) (i : Fin n) : v.toList.getD i.val d = v.get i := by
  rw [List.getD_eq_getElem _ _ (by simp), Vector.getElem_toList]
  rfl

/-- R466: the cores that a write of BOOT_RELEASE starts. -/
def releasedCores (s : State) (v : BitVec 32) : List Nat :=
  [1, 2, 3].filter (fun c => bitAt v c && s.boot.cores.toList.getD c .reset == .halted && !bitAt s.boot.excluded c)

theorem contains_releasedCores {s : State} {v : BitVec 32} (c : Fin 4) : (releasedCores s v).contains c.val = true ↔
    1 ≤ c.val ∧ bitAt v c = true ∧ s.boot.cores.get c = .halted ∧ bitAt s.boot.excluded c = false := by
  have hmem : c.val ∈ [1, 2, 3] ↔ 1 ≤ c.val := by
    have := c.isLt
    simp only [List.mem_cons, List.not_mem_nil, or_false]
    omega
  rw [List.contains_iff_mem, releasedCores, List.mem_filter, getD_toList, hmem]
  simp only [Bool.and_eq_true, beq_iff_eq, Bool.not_eq_true', and_assoc]

theorem exec_bootRelease {s : State} {p : Path} {v : BitVec 32} (hw : Write s p (bootPage + 0x30)) (hp : isCore p = true) :
    exec (.bootRelease p v) s = .next (accessOk p 0 (s.modBoot (fun b => { b with
      cores := vmapIdx b.cores (fun c m => if (releasedCores s v).contains c then .running else m),
      wdogArmed := (releasedCores s v).foldl (fun a c => setBit a c true) b.wdogArmed,
      wdogDue := vmapIdx b.wdogDue (fun c t => if (releasedCores s v).contains c then s.timer + 10000 else t) }))) := by
  refine congrArg done ?_
  rw [bootWrite, hp, writeOwned_ok hw]
  rfl

/-! ### FINALISED -/

/-- R489: a trial image with no final record, when FINALISED is not set yet. -/
def trialUnfinished (s : State) : Bool :=
  s.boot.kind == 2 && !s.boot.finalised && !((commits s).find? (fun r => r.slotB == s.boot.slotB)).any (fun r => r.isFinal)

theorem finalise_eq (s : State) : finalise s = { s with
    boot := { s.boot with finalised := true },
    flash := if trialUnfinished s then (commitAppend s.boot.slotB true s.boot.runSvn.toNat s).flash else s.flash } := by
  show (onlyIf (trialUnfinished s) (commitAppend s.boot.slotB true s.boot.runSvn.toNat) s).modBoot (fun b => { b with finalised := true }) = _
  cases trialUnfinished s with
  | false => rfl
  | true =>
    rw [onlyIf_true, (commitAppend_only s.boot.slotB true s.boot.runSvn.toNat s).flash_eta]
    rfl

theorem trialUnfinished_iff (s : State) : trialUnfinished s = true ↔ s.boot.kind = 2 ∧ s.boot.finalised = false ∧
    ((commits s).find? (fun r => r.slotB == s.boot.slotB)).any CommitRec.isFinal = false := by
  simp only [trialUnfinished, Bool.and_eq_true, beq_iff_eq, Bool.not_eq_true', and_assoc]

theorem exec_finalised {s : State} {p : Path} {v : BitVec 32} (hw : Write s p (bootPage + 0x3C)) (hp : isCore p = true) (hset : bitAt v 0 = true)
    (hreset : bitAt v 1 = false) : exec (.finalised p v) s = .next (accessOk p 0 (finalise s)) := by
  refine congrArg done ?_
  rw [hset, onlyIf_true, bootWrite, hp, writeOwned_ok hw, bootCtlWrite, hreset, hset, coreRuns_of hw hp]
  rfl

/-- Settles O10: the handover's tail keeps the slots that it finds occupied, and a release or FINALISED write changes the boot state alone. -/
theorem bootPageHandsOverReleasesAndFinalises : Obligations.BootPageHandsOverReleasesAndFinalises := by
  refine ⟨⟨fun s c v hw hc hopen hkind hv => ?handover, fun s p v hw hp => ?release⟩, fun s p v hw hp hset hreset => ?finalised⟩
  case handover =>
    have hexec := exec_bootHandover hw hc hopen hkind hv
    have htail := tail_only ((handedOver v s).boot.imageBytes.drop 16384) (handedOver v s)
    have hanchor (n : Nat) (h : n < 32 ∨ ((handedOver v s).anchor n).occupied = true) :=
      tail_anchor ((handedOver v s).boot.imageBytes.drop 16384) (handedOver v s) h
    have hboot := (htail.boot_eq (by decide)).trans (boot_handedOver v s)
    refine ⟨_, hexec, Only.via htail rfl ((handedOver_only v s).mono rfl), ?_, ?_, ?_, ?_, ?_, fun n hn => ?_, fun n hn h => ?_⟩
    · rw [hboot]
    · rw [hboot, vmod_get, if_pos hc]
    · rw [hboot, ← hc]
      exact setBit_get _ c
    · rw [hboot, vmod_get, if_pos hc]
    · rw [htail.fuse_eq (by decide)]
      exact udsShadow_firmwareStarted _ _ _ _
    · rw [hanchor n (.inl (by omega)), anchor_handedOver, if_pos hn]
    · have hkept : (handedOver v s).anchor n = s.anchor n := by rw [anchor_handedOver, if_neg (by omega)]
      rw [hanchor n (by rwa [hkept]), hkept]
  case release =>
    refine ⟨_, exec_bootRelease hw hp, Only.modBoot _ _, fun c => ?_⟩
    rw [State.modBoot_boot]
    dsimp only
    rw [vmapIdx_get]
    exact if_congr (contains_releasedCores c) rfl rfl
  case finalised =>
    refine ⟨_, exec_finalised hw hp hset hreset, ?_, ?_⟩
    · rw [finalise_eq]
    · rw [finalise_eq]
      exact if_congr (trialUnfinished_iff s) rfl rfl

/-! ### The cairn -/

section
variable {s : State} {p : Path} {v : BitVec 32} (hw : Write s p (bootPage + 0x40)) (hp : isCore p = true) (hgo : bitAt v 31 = true)
include hw hp hgo

theorem exec_cairnRaise : exec (.cairnRaise p v) s = .next (accessOk p 0 (cairnCmdWrite v s)) := by
  refine congrArg done ?_
  rw [hgo, onlyIf_true, bootWrite, hp, writeOwned_ok hw]

end

theorem cairnCmdWrite_of_refused {s : State} {v : BitVec 32} {c : BitVec 8} (hgo : bitAt v 31 = true) (hidle : s.boot.cairnBusy = false)
    (h : raiseRefused s (bitsOf v 7 0) = some c) :
    cairnCmdWrite v s = { s with boot := { s.boot with
      cairnTarget := BitVec.ofNat 8 (bitsOf v 7 0), cairnValid := true, cairnResult := c } } := by
  unfold cairnCmdWrite
  refine (if_neg (by simp [hgo])).trans ((if_neg (by simp [hidle])).trans ?_)
  dsimp only
  rw [h]
  rfl

/-- R498: the raise is under way before the running image is kept. -/
def cairnBegun (t : Nat) (s : State) : State := { s with boot := { s.boot with cairnTarget := BitVec.ofNat 8 t, cairnBusy := true } }

theorem cairnCmdWrite_of_taken {s : State} {v : BitVec 32} (hgo : bitAt v 31 = true) (hidle : s.boot.cairnBusy = false)
    (h : raiseRefused s (bitsOf v 7 0) = none) :
    cairnCmdWrite v s = (copyOwn (bitsOf v 7 0) (cairnBegun (bitsOf v 7 0) s)).modFuse (fun f => { f with op := some (.cairn (bitsOf v 7 0)) }) := by
  unfold cairnCmdWrite
  refine (if_neg (by simp [hgo])).trans ((if_neg (by simp [hidle])).trans ?_)
  rw [h]
  rfl

/-- R499: the bits of the cairn below T that the raise is to burn. -/
def cairnBits (s : State) (t : Nat) : List Nat := (List.range t).filter (cairnWeak s)

/-- R499: the bits of the raise that fail. -/
def cairnFailed (s : State) (t : Nat) (failed : List Nat) : List Nat := (cairnBits s t).filter (fun i => failed.contains i)

/-- R499: the state with the raise's bits burned and its faults queued. -/
def cairnBurned (s : State) (t : Nat) (failed : List Nat) : State :=
  forEach ((cairnFailed s t failed).filter (· + 1 < t)) (fun i => raise false kFuse (40 + i / 64) fCairnSkip 0 i)
    (senseOne 41 (senseOne 40 (forEach (cairnBits s t) (fun i => burnBit i (!(cairnFailed s t failed).contains i)) s)))

theorem cairnBurned_only (s : State) (t : Nat) (failed : List Nat) : Only [.freeCtr, .fuse, .array, .fq] s (cairnBurned s t failed) := by
  have hburn := Only.forEach (ps := [.freeCtr, .fuse, .array]) (l := cairnBits s t)
    (f := fun i => burnBit i (!(cairnFailed s t failed).contains i)) (Only.refl _ s) fun i u hu => hu.trans (burnBit_only i _ u)
  have hsense := Only.via (senseOne_only 41 _) rfl (Only.via (senseOne_only 40 _) rfl hburn)
  exact Only.forEach (hsense.mono rfl) fun i u hu => Only.via (raise_only _ _ _ _ _ _ u) rfl hu

theorem exec_cairnRaiseEnd {s : State} {t : Nat} (failed : List Nat) (hup : s.ports.rstCold = false) (hop : s.fuse.op = some (.cairn t)) :
    exec (.cairnRaiseEnd failed) s = .next (((cairnBurned s t failed).modFuse (fun f => { f with op := none })).modBoot (fun b => { b with
      cairnBusy := false, cairnValid := true, cairnResult := if (cairnFailed s t failed).any (· + 1 == t) then 0x30 else 0,
      cairnSkipped := BitVec.ofNat 7 ((cairnFailed s t failed).filter (· + 1 < t)).length })) := by
  refine congrArg done ((whenUp_up _ hup).trans ?_)
  rw [hop]
  rfl

theorem any_cairnFailed {s : State} {t : Nat} {failed : List Nat} :
    (cairnFailed s t failed).any (· + 1 == t) = true ↔ ∃ i, i + 1 = t ∧ cairnWeak s i = true ∧ i ∈ failed := by
  rw [List.any_eq_true]
  constructor
  · rintro ⟨i, hi, ht⟩
    obtain ⟨hbit, hfailed⟩ := List.mem_filter.mp hi
    exact ⟨i, beq_iff_eq.mp ht, (List.mem_filter.mp hbit).2, List.contains_iff_mem.mp hfailed⟩
  · rintro ⟨i, rfl, hweak, hfailed⟩
    exact ⟨i, List.mem_filter.mpr ⟨List.mem_filter.mpr ⟨List.mem_range.mpr (Nat.lt_succ_self i), hweak⟩, List.contains_iff_mem.mpr hfailed⟩,
      beq_iff_eq.mpr rfl⟩

theorem skipped_cairnFailed (s : State) (t : Nat) (failed : List Nat) : (cairnFailed s t failed).filter (· + 1 < t) =
    (List.range t).filter (fun i => i + 1 < t ∧ i ∈ failed ∧ cairnWeak s i = true) := by
  rw [cairnFailed, cairnBits, List.filter_filter, List.filter_filter]
  refine List.filter_congr fun i _ => ?_
  rw [Bool.eq_iff_iff]
  simp only [Bool.and_eq_true, decide_eq_true_eq, List.contains_iff_mem, and_assoc]

/-- Settles O12: the running image is kept before the operation starts, and the end reads which of the raise's bits failed. -/
theorem cairnRisesOnlyOverAUsableImage : Obligations.CairnRisesOnlyOverAUsableImage := by
  refine ⟨fun s p v c hw hp hgo hidle h => ?refused, fun s p v hw hp hgo hidle h => ?taken, fun s t failed hup hop => ?ended⟩
  case refused => rw [exec_cairnRaise hw hp hgo, cairnCmdWrite_of_refused hgo hidle h]
  case taken =>
    refine ⟨_, exec_cairnRaise hw hp hgo, ?_, ?_⟩
    · rw [cairnCmdWrite_of_taken hgo hidle h, (copyOwn_only (bitsOf v 7 0) (cairnBegun (bitsOf v 7 0) s)).flash_eta]
      rfl
    · rw [cairnCmdWrite_of_taken hgo hidle h]
      exact copyOwn_flash (bitsOf v 7 0) (cairnBegun (bitsOf v 7 0) s)
  case ended =>
    have hexec := exec_cairnRaiseEnd failed hup hop
    have hburned := cairnBurned_only s t failed
    refine ⟨_, hexec, only_of_exec hexec, rfl, ?_, ?_, ?_, ?_⟩
    · rw [State.modBoot_boot, State.modFuse_boot, hburned.boot_eq (by decide)]
    · rw [State.modBoot_boot, ← any_cairnFailed]
      dsimp only
      cases (cairnFailed s t failed).any (· + 1 == t) <;> decide
    · rw [State.modBoot_boot]
      dsimp only
      exact (ite_eq_or_eq _ _ _)
    · rw [State.modBoot_boot, ← skipped_cairnFailed]

end Sys2Proof.Machine
end

section
/-!
PROOFS. Life-cycle transitions (R531, R535, R539, R541, R542), debug unlocks and the test multiplexer (R543 to R547, R658), and bring-up by phases (R549 to
R556, R559 to R561).
-/

namespace Sys2Proof.Machine
open Sys2Proof

/-! ### Requests of the operator -/

/-- R435, R436: hearing a request and marking it as being answered changes the sessions alone. -/
theorem asked_only (sess : Nat) (s : State) : Only [.att] s (asked sess s) :=
  (modSess_only sess _ s).trans (modSess_only sess _ _)

theorem actionOf_of_acts {s : State} {sess : Nat} {body : Bytes} {a : Nat} (h : Acts s sess body a) : actionOf body = a := h.2.1

/-! ### LC_CMD -/

/-- R535: the state in which LC_CMD shows the target written to it. -/
def lcTargeted (target : Nat) (s : State) : State := s.modFuse (fun f => { f with lcTarget := BitVec.ofNat 8 target })

theorem lcWords_lcTargeted (target n : Nat) (s : State) : lcWords (lcTargeted target s) n = lcWords s n := rfl

theorem lcCmdWrite_of_error {s : State} {v : BitVec 32} {target : Nat} {c : BitVec 8} (hgo : bitAt v 31 = true) (ht : bitsOf v 7 0 = target)
    (h : lcWords s target = .error c) :
    lcCmdWrite v s = { s with fuse := { s.fuse with lcTarget := BitVec.ofNat 8 target, lcValid := true, lcResult := c } } := by
  subst ht
  refine (if_neg (by simp [hgo])).trans ?_
  change (match lcWords (lcTargeted (bitsOf v 7 0) s) (bitsOf v 7 0) with | .error c => _ | .ok ws => _) = _
  rw [lcWords_lcTargeted, h]
  rfl

theorem lcCmdWrite_of_ok {s : State} {v : BitVec 32} {target : Nat} {ws : List Nat} (hgo : bitAt v 31 = true) (ht : bitsOf v 7 0 = target)
    (h : lcWords s target = .ok ws) :
    lcCmdWrite v s = { s with fuse := { s.fuse with
      lcTarget := BitVec.ofNat 8 target, op := some (.transition (BitVec.ofNat 8 target) ws), lcBusy := true } } := by
  subst ht
  refine (if_neg (by simp [hgo])).trans ?_
  change (match lcWords (lcTargeted (bitsOf v 7 0) s) (bitsOf v 7 0) with | .error c => _ | .ok ws => _) = _
  rw [lcWords_lcTargeted, h]
  rfl

/-- R531: the row of its own target carries a write of LC_CMD with GO out. -/
theorem lcRow_of_write {s : State} {p : Path} {v : BitVec 32} {target : Nat} (hw : Write s p (fusePage + 0x48)) (hp : isCore p = true)
    (hgo : bitAt v 31 = true) (ht : bitsOf v 7 0 = target) : lcRow target p v s = accessOk p 0 (lcCmdWrite v s) := by
  have hmine : (bitAt v 31 && (bitsOf v 7 0 == target || (target == 2 && bitsOf v 7 0 != 3 && bitsOf v 7 0 != 4))) = true := by
    rw [hgo, ht, beq_self_eq_true, Bool.true_or, Bool.true_and]
  rw [lcRow, hmine, onlyIf_true, fuseWrite, hp, writeOwned_ok hw]

theorem exec_lcRow {s : State} {p : Path} {v : BitVec 32} {i : Nat × Instr}
    (hi : i ∈ [(2, Instr.lcToProvision p v), (3, Instr.lcToMission p v), (4, Instr.lcToDecommissioned p v)]) :
    exec i.2 s = .next (lcRow i.1 p v s) := by
  simp only [List.mem_cons, List.not_mem_nil, or_false] at hi
  rcases hi with rfl | rfl | rfl
  · rfl
  · rfl
  · rfl

/-! ### The effect of a transition -/

theorem ent_lcVerified (target : BitVec 8) (ws : List Nat) (s : State) :
    (lcVerified target ws s).ent = { s.ent with lcAdd := some target, reseedDue := true } := by
  rw [lcVerified, State.modEnt_ent, State.modFuse_ent, (tail_lc ws s).ent_eq (by decide)]

/-- R303: the tamper sequence leaves the key service empty. -/
theorem ks_tamperSequence (s : State) : (tamperSequence s).ks = {} := by
  unfold tamperSequence
  dsimp only
  rw [(wipeUds_only _).ks_eq (by decide)]
  rfl

/-- Settles O15: the words of the transition decide its result, and its target what follows when they have verified. -/
theorem lifeCycleMovesByItsWords : Obligations.LifeCycleMovesByItsWords := by
  refine ⟨fun s p v hw hp hgo i hi ht => ⟨fun c hc => ?error, fun ws hws => ?ok⟩, fun s target ws hup hop => ?effect,
    fun s sess tag body hacts hunit => ⟨fun harg => ?mismatch, fun harg hidle hnone => ?request⟩⟩
  case error => rw [exec_lcRow hi, lcRow_of_write hw hp hgo ht, lcCmdWrite_of_error hgo ht hc]
  case ok => rw [exec_lcRow hi, lcRow_of_write hw hp hgo ht, lcCmdWrite_of_ok hgo ht hws]
  case effect =>
    have hv := lcVerified_only target ws s
    have hreset := scheduleReset_only (lcVerified target ws s)
    refine ⟨_, exec_lcTransitionEffect_of_transition hup hop, fun h4 => ?_, fun h3 h4 => ?_, fun h3 => ?_, fun h4 => ?_⟩
    · rw [if_neg h4]
      split
      · rw [hreset.fuse_eq (by decide), hreset.ent_eq (by decide), hreset.tamper_eq (by decide), hv.tamper_eq (by decide)]
        exact ⟨rfl, rfl, rfl, rfl, ent_lcVerified target ws s, rfl⟩
      · exact ⟨rfl, rfl, rfl, rfl, ent_lcVerified target ws s, hv.tamper_eq (by decide)⟩
    · rw [if_neg h3, if_neg h4, hv.boot_eq (by decide)]
    · rw [if_pos h3, scheduleReset_boot, hv.boot_eq (by decide), hv.timer_eq (by decide)]
    · have h3 : ¬target = 3 := by
        rw [h4]
        decide
      rw [if_neg h3, if_pos h4, tamperSequence_tamper, ks_tamperSequence]
      exact ⟨rfl, rfl⟩
  case mismatch =>
    refine (actionRow_ok hacts (beq_iff_eq.mpr (actionOf_of_acts hacts))).trans (congrArg _ ?_)
    exact (if_neg (not_not_intro hunit)).trans (if_pos harg)
  case request =>
    obtain ⟨ws, hws⟩ : ∃ ws, lcWords (asked sess s) 4 = .ok ws := by
      change ∃ ws, lcWords s 4 = .ok ws
      cases h : lcWords s 4 with
      | error c => exact absurd h (hnone c)
      | ok ws => exact ⟨ws, rfl⟩
    have hwritten := lcCmdWrite_of_ok (v := 0x80000004#32) rfl rfl hws
    have hstarted : ((asked sess s).fuse.op.isNone && (lcCmdWrite 0x80000004#32 (asked sess s)).fuse.op.isSome) = true := by
      rw [hwritten]
      change (s.fuse.op.isNone && true) = true
      rw [hidle]
      rfl
    refine (actionRow_ok hacts (beq_iff_eq.mpr (actionOf_of_acts hacts))).trans (congrArg _ ?_)
    exact (if_neg (not_not_intro hunit)).trans ((if_neg (not_not_intro harg)).trans (if_pos hstarted))

/-! ### Debug unlocks and the test multiplexer -/

theorem armWrite_eq {s : State} {v : BitVec 32} (harm : bitAt v 0 = true) :
    armWrite v s = if lifeCycle s = 3 ∧ debugPermit s = true then { s with fuse := { s.fuse with dbgArm := true } } else s := by
  refine if_congr ?_ rfl rfl
  rw [harm, Bool.true_and, Bool.and_eq_true, beq_iff_eq]

theorem exec_lcDebugArm {s : State} {p : Path} {v : BitVec 32} (hw : Write s p (fusePage + 0x58)) (hp : isCore p = true) (harm : bitAt v 0 = true) :
    exec (.lcDebugArm p v) s = .next (accessOk p 0 (armWrite v s)) := by
  refine congrArg done ?_
  rw [harm, onlyIf_true, fuseWrite, hp, writeOwned_ok hw]

theorem tmxPins_of_no_data {s : State} (h : s.fuse.tmxData = 0) : tmxPins s = 0 := by
  rw [tmxPins, h]
  split <;> rfl

/-- R546, R658: what lets the test multiplexer drive a group. -/
theorem tmxOpen_iff (s : State) : tmxOpen s = true ↔ s.fuse.tmxEnable = true ∧ s.tamper.cleared = false ∧ s.mir.site = false ∧
    ((lifeCycle s = 1 ∨ lifeCycle s = 2) ∨ (s.fuse.inForce = true ∧ bitAt s.fuse.dbgScope s.fuse.tmxGroup.toNat = true)) := by
  simp only [tmxOpen, Bool.and_eq_true, Bool.or_eq_true, Bool.not_eq_true', beq_iff_eq, and_assoc]

/-- Settles O16: ARM and the pins read the life cycle, and an armed unlock is used up by the boot that follows. -/
theorem debugNeedsMissionPermitAndArm : Obligations.DebugNeedsMissionPermitAndArm := by
  refine ⟨fun s p v hw hp harm => ?arm, fun s sess tag body hacts hunit => ?unlock, fun s => ⟨rfl, ?inForce⟩, fun s p v hw => ?select,
    fun s hdriven => ?pins⟩
  case arm => rw [exec_lcDebugArm hw hp harm, armWrite_eq harm]
  case unlock =>
    have hmine : (0x50 ≤ actionOf body && actionOf body ≤ 0x5F && actionOf body != 0x51) = true := by
      rw [actionOf_of_acts hacts]
      rfl
    refine ⟨_, (actionRow_ok hacts hmine).trans (congrArg _ (if_neg ?_)), ?_, rfl⟩
    · rw [actionOf_of_acts hacts, hunit]
      simp
    · exact Only.via (dmaRead_only _ _ _ _) rfl ((asked_only sess s).mono rfl)
  case inForce =>
    change (s.fuse.dbgArm && s.fuse.dbgBoot == s.att.bootCount) = true ↔ _
    rw [Bool.and_eq_true, beq_iff_eq]
  case select =>
    obtain ⟨hreach, hpriv⟩ := hw
    refine ⟨_, congrArg done (writeAt_ok hreach fun _ => hpriv), Only.viaFuse (fun _ => rfl) rfl (Only.refl _ _), rfl, rfl, tmxPins_of_no_data rfl⟩
  case pins =>
    have hopen : tmxOpen s = true := by
      by_contra h
      exact hdriven (if_neg h)
    obtain ⟨henable, hcleared, hsite, hscope⟩ := (tmxOpen_iff s).mp hopen
    exact ⟨henable, hsite, hcleared, hscope.imp_left fun h => by omega⟩

/-! ### Phases, packages and lines -/

theorem exec_phaseAdvance {s : State} (hup : s.ports.rstCold = false) (hks : ksUp s = true) (hrun : s.brup.halted = false)
    (hsite : s.mir.site = false) (hended : phaseEnded s = true) :
    exec .phaseAdvance s = .next (bringOn (reserve { s with brup := { s.brup with phase := s.brup.phase + 1 } })) := by
  refine congrArg done ((whenUp_up _ hup).trans ?_)
  rw [hks, hrun, hsite, hended]
  rfl

section
variable {s : State} {n work : Nat} (hup : s.ports.rstCold = false) (hpackage : s.brup.package = some (n, work)) (hwhole : dmaWhole s work = true)
include hup hpackage hwhole

theorem exec_packageVerified_failed (h : packageOk s n = false) : exec .packageVerified s = .next (packageFailed n work s) := by
  refine congrArg done ((whenUp_up _ hup).trans ?_)
  rw [hpackage]
  exact (if_neg (by simp [hwhole])).trans (if_pos (by simp [h]))

theorem exec_packageVerified_ok (h : packageOk s n = true) : exec .packageVerified s = .next (bringOn (extendLog n
    (sha3_384 ((packageHeader s n).take 128)) (releaseLine n (dmaEnd work { s with brup := { s.brup with package := none } })))) := by
  refine congrArg done ((whenUp_up _ hup).trans ?_)
  rw [hpackage]
  exact (if_neg (by simp [hwhole])).trans (if_neg (by simp [h]))

end

section
variable {s : State} {n : Fin 64} (hup : s.ports.rstCold = false)
include hup

theorem exec_relUp_of_released (htamper : s.tamper.latch = false) (hsite : s.mir.site = false) (hrun : (s.line n).run = true)
    (hwait : (s.line n).acked = false) :
    exec (.relUp n) s = .next (bringOn (reserve (forEach (lineGuards s n) startSeal
      (modLine n (fun x => { x with acked := true, timedOut := false }) (modLine n (fun x => { x with up := true }) s))))) := by
  refine congrArg done ((whenUp_up _ hup).trans (if_neg ?_))
  rintro (h | h | h | h)
  · exact absurd (hrun.symm.trans (by simpa using h)) (by decide)
  · exact absurd (hwait.symm.trans h) (by decide)
  · exact absurd (htamper.symm.trans h) (by decide)
  · exact absurd (hsite.symm.trans h) (by decide)

theorem exec_relUp_of_held (hheld : (s.line n).run = false) : exec (.relUp n) s = .next (modLine n (fun x => { x with up := true }) s) :=
  congrArg done ((whenUp_up _ hup).trans (if_pos (.inl (by simpa using hheld))))

theorem exec_relUpFall (htamper : s.tamper.latch = false) (hrun : (s.line n).run = true) (hsUp : (s.line n).up = true) :
    exec (.relUpFall n) s = .next (bringOn (failLine n 1 (modLine n (fun x => { x with up := false }) s))) := by
  refine congrArg done ((whenUp_up _ hup).trans (if_neg ?_))
  rintro (h | h | h)
  · exact absurd (hrun.symm.trans (by simpa using h)) (by decide)
  · exact absurd (hsUp.symm.trans (by simpa using h)) (by decide)
  · exact absurd (htamper.symm.trans h) (by decide)

theorem exec_releaseTimeout (htamper : s.tamper.latch = false) (hrun : (s.line n).run = true) (hwait : (s.line n).acked = false)
    (hfresh : (s.line n).timedOut = false) : exec (.releaseTimeout n) s =
      .next (bringOn (timeOutLine n 1 { s with timer := Nat.max ((s.line n).releasedAt + (lineEntry s n).timeout * 10000) s.timer })) := by
  refine congrArg done ((whenUp_up _ hup).trans (if_neg ?_))
  rintro (h | h | h | h)
  · exact absurd (hrun.symm.trans (by simpa using h)) (by decide)
  · exact absurd (hwait.symm.trans h) (by decide)
  · exact absurd (hfresh.symm.trans h) (by decide)
  · exact absurd (htamper.symm.trans h) (by decide)

end

/-- R550: a line of phase 2 that times out while bring-up stands there halts it. -/
theorem timeOutLine_of_phase_two {n detail : Nat} {s u : State} (hu : failLine n detail s = u) (hline : (lineEntry u n).phase = 2)
    (hphase : u.brup.phase = 2) :
    timeOutLine n detail s = raise false kBringUp n fBrupHalt 0 n { u with brup := { u.brup with halted := true } } := by
  subst hu
  rw [timeOutLine, hline, hphase]
  rfl

theorem timeOutLine_of_other_phase {n detail : Nat} {s u : State} (hu : failLine n detail s = u)
    (h : (lineEntry u n).phase ≠ 2 ∨ u.brup.phase ≠ 2) : timeOutLine n detail s = u := by
  subst hu
  have hrun : ((lineEntry (failLine n detail s) n).phase == 2 && (failLine n detail s).brup.phase == 2) = false := by
    rw [Bool.and_eq_false_iff, beq_eq_false_iff_ne, beq_eq_false_iff_ne]
    exact h
  rw [timeOutLine, hrun]
  rfl

/-! ### Seal sweeps -/

/-- R559, R560: a guard whose initial seal sweep is over. -/
def sealed (g : Nat) (x : Guard) : Guard :=
  { x with service := .serving, page := x.page.shareNow,
           sweep := { x.sweep with sealNext := none, key := none, lines := x.sweep.lines + BitVec.ofNat 64 (guardLines g) } }

theorem exec_sealSweepEnd {s : State} {g : Fin 40} {k : Entry} (hup : s.ports.rstCold = false) (hsweep : (s.guards.get g).sweep.sealNext.isSome = true)
    (hcan : (s.guards.get g).canSweep = true) (hkey : (s.guards.get g).sweep.key = some k) :
    ∃ data side, exec (.sealSweepEnd g) s =
      .next (reserve ((driveBeat g true (s.free % 2 ^ 42) data side s).modGuard g (sealed g))) := by
  refine ⟨(sealLine k (s.free % 2 ^ 42) 0 0).1, (sealLine k (s.free % 2 ^ 42) 0 0).2, congrArg done ((whenUp_up _ hup).trans ?_)⟩
  refine (if_neg ?_).trans ?_
  · rintro (h | h)
    · exact absurd (Option.isNone_iff_eq_none.mp h) (Option.isSome_iff_ne_none.mp hsweep)
    · exact absurd (hcan.symm.trans (by simpa [State.guard] using h)) (by decide)
  · change (match (s.guards.get g).sweep.key with | none => _ | some k => _) = _
    rw [hkey]
    rfl

theorem guards_driveBeat (g : Nat) (write : Bool) (a : Nat) (data : BitVec 512) (side : BitVec 64) (s : State) (h : Fin 40) (hne : h.val ≠ g) :
    (driveBeat g write a data side s).guards.get h = s.guards.get h := by
  rw [driveBeat, State.used, State.modFreeCtr_guards, State.modGuard_guards, vmod_get, if_neg hne]

/-- Settles O18: each event acts on its own line or guard, and then whatever the phase allows is released. -/
theorem bringUpReleasesByPhase : Obligations.BringUpReleasesByPhase := by
  refine ⟨fun s hup hks hrun hsite hended => exec_phaseAdvance hup hks hrun hsite hended,
    fun s n work hup hpackage hwhole => ⟨exec_packageVerified_failed hup hpackage hwhole, exec_packageVerified_ok hup hpackage hwhole⟩,
    fun s n hup htamper => ⟨fun hsite hrun hwait => ⟨_, rfl, exec_relUp_of_released hup htamper hsite hrun hwait⟩, exec_relUp_of_held hup,
      exec_relUpFall hup htamper, fun hrun hwait hfresh => ⟨_, rfl, fun hline hphase => ?halts, fun hother => ?other⟩⟩,
    fun s g k hup hsweep hcan hkey => ?sealed⟩
  case halts => rw [exec_releaseTimeout hup htamper hrun hwait hfresh, timeOutLine_of_phase_two rfl hline hphase]
  case other => rw [exec_releaseTimeout hup htamper hrun hwait hfresh, timeOutLine_of_other_phase rfl hother]
  case sealed =>
    obtain ⟨data, side, hexec⟩ := exec_sealSweepEnd hup hsweep hcan hkey
    refine ⟨_, hexec, Only.via (reserve_only _) rfl (Only.via (Only.modGuard _ _ _) rfl ((driveBeat_only _ _ _ _ _ s).mono rfl)), ?_, ?_, ?_, fun h hne => ?_⟩
    · rw [(reserve_only _).guards_eq (by decide), State.modGuard_guards, vmod_get, if_pos rfl]
      rfl
    · rw [(reserve_only _).guards_eq (by decide), State.modGuard_guards, vmod_get, if_pos rfl]
      rfl
    · rw [(reserve_only _).guards_eq (by decide), State.modGuard_guards, vmod_get, if_pos rfl]
      rfl
    · have hval : h.val ≠ g.val := fun e => hne (Fin.ext e)
      rw [(reserve_only _).guards_eq (by decide), State.modGuard_guards, vmod_get, if_neg hval, guards_driveBeat _ _ _ _ _ _ _ hval]

end Sys2Proof.Machine
end

section
/-!
PROOFS. The datapath of a guard: the checks of a header in the order of R72, the requests on their way to the memory and back (R66, R76, R81, R83, R108),
and the port controls (R44, R111 to R114, R264, R642).
-/

namespace Sys2Proof.Machine
open Sys2Proof

theorem guard_get (s : State) (g : Fin 40) : s.guard g = s.guards.get g := rfl

/-! ### Headers -/

/-- R65: the header that a slice presents. -/
def hdrOf (slice : Nat) (op : BitVec 3) (stream : BitVec 16) (domain : BitVec 13) (addr : BitVec 42) (txn : BitVec 12) : Hdr :=
  { slice := slice, op := op, stream := stream, domain := domain, addr := addr, txn := txn }

/-- R264: a guard that has accepted a header counts it, and holds none for a place. -/
def hdrCounted (g : Nat) (s : State) : State :=
  s.modGuard g (fun y => { y with placeWait := false, page := { y.page with lineCount := y.page.lineCount + 1 } })

theorem guardN_hdrCounted (g : Fin 40) (s : State) : (hdrCounted g s).guardN g =
    { s.guards.get g with placeWait := false, page := { (s.guards.get g).page with lineCount := (s.guards.get g).page.lineCount + 1 } } := by
  rw [hdrCounted, guardN_modGuard_eq _ _ _ g.isLt, modGuard_guardN]

theorem fenced_hdrCounted (g : Fin 40) (s : State) : ((hdrCounted g s).guardN g).fenced = (s.guards.get g).fenced := by
  rw [guardN_hdrCounted]

theorem txnInFlight_hdrCounted (g : Fin 40) (s : State) (txn : BitVec 12) :
    ((hdrCounted g s).guardN g).txnInFlight txn = (s.guards.get g).txnInFlight txn := by
  rw [guardN_hdrCounted]
  rfl

section
variable {s : State} {g slice : Nat} {op : BitVec 3} {h : Hdr}

theorem checkHdr_of_fenced (hf : (s.guardN g).fenced = true) : checkHdr g slice op h s = refuseHdr g slice op h.txn stFenced s :=
  if_pos hf

section
variable (hf : (s.guardN g).fenced = false)
include hf

/-- R71, R72: a transaction tag in flight is refused with a fault. -/
theorem checkHdr_of_txnInFlight (ht : (s.guardN g).txnInFlight h.txn = true) :
    checkHdr g slice op h s = refuseHdr g slice op h.txn stOp (raise false kGuard (unitGuard g) fTxnReuse 0 h.txn.toNat s) :=
  (if_neg (by simp [hf])).trans (if_pos ht)

variable (ht : (s.guardN g).txnInFlight h.txn = false)
include ht

theorem checkHdr_of_new_txn : checkHdr g slice op h s =
    match opOf op with
    | none => refuseHdr g slice op h.txn stOp s
    | some o =>
      match rightsCheck (s.dieN (g / 10)).streams (s.dieN (g / 10)).readers op.toNat h.stream.toNat h.domain.toNat with
      | some st => refuseHdr g slice op h.txn st s
      | none => acceptHdr g slice o h (entryDomain (streamEntry (s.dieN (g / 10)).streams h.stream.toNat)) s :=
  (if_neg (by simp [hf])).trans (if_neg (by simp [ht]))

theorem checkHdr_of_reserved (ho : opOf op = none) : checkHdr g slice op h s = refuseHdr g slice op h.txn stOp s := by
  rw [checkHdr_of_new_txn hf ht, ho]

theorem checkHdr_of_rights {o : ReqOp} {st : Nat} (ho : opOf op = some o)
    (hr : rightsCheck (s.dieN (g / 10)).streams (s.dieN (g / 10)).readers op.toNat h.stream.toNat h.domain.toNat = some st) :
    checkHdr g slice op h s = refuseHdr g slice op h.txn st s := by
  rw [checkHdr_of_new_txn hf ht, ho]
  dsimp only
  rw [hr]

theorem checkHdr_of_allowed {o : ReqOp} (ho : opOf op = some o)
    (hr : rightsCheck (s.dieN (g / 10)).streams (s.dieN (g / 10)).readers op.toNat h.stream.toNat h.domain.toNat = none) :
    checkHdr g slice op h s = acceptHdr g slice o h (entryDomain (streamEntry (s.dieN (g / 10)).streams h.stream.toNat)) s := by
  rw [checkHdr_of_new_txn hf ht, ho]
  dsimp only
  rw [hr]

end

end

theorem opOf_eq_none {op : BitVec 3} (h : 3 ≤ op.toNat) : opOf op = none := by
  have h0 : op ≠ 0 := fun e => absurd (e ▸ h) (by decide)
  have h1 : op ≠ 1 := fun e => absurd (e ▸ h) (by decide)
  have h2 : op ≠ 2 := fun e => absurd (e ▸ h) (by decide)
  rw [opOf, if_neg h0, if_neg h1, if_neg h2]

section
variable {s : State} {g : Fin 40} {slice : Nat} {op : BitVec 3} {stream : BitVec 16} {domain : BitVec 13} {addr : BitVec 42} {txn : BitVec 12}
  (hup : s.ports.rstCold = false) (hslice : slice < slices g) (hready : ready g (s.guards.get g) = true)
  (hserve : (s.guards.get g).fenced = true ∨ (s.dieN (g / 10)).serveNow = true)
include hup hslice hready hserve

/-- R637: where gu_req_ready reads 1 a header is taken, but for a partial write that finds no place. -/
theorem exec_upstreamRequest_of_ready : exec (.upstreamRequest g slice op stream domain addr txn) s = .next (
    if op == 2 && rmwPlaces g ≤ (s.guards.get g).placesUsed && !(s.guards.get g).fenced then s.modGuard g (fun y => { y with placeWait := true })
    else checkHdr g slice op (hdrOf slice op stream domain addr txn) (hdrCounted g s)) := by
  have htaken : (slice < slices g && ready g (s.guards.get g) && ((s.guards.get g).fenced || (s.dieN (g / 10)).serveNow)) = true := by
    rw [hready, Bool.and_true, Bool.and_eq_true, decide_eq_true_eq, Bool.or_eq_true]
    exact ⟨hslice, hserve⟩
  exact congrArg done ((whenUp_up _ hup).trans (if_pos htaken))

theorem exec_upstreamRequest_held (hop : op = 2) (hplaces : rmwPlaces g ≤ (s.guards.get g).placesUsed) (hf : (s.guards.get g).fenced = false) :
    exec (.upstreamRequest g slice op stream domain addr txn) s = .next (s.modGuard g (fun y => { y with placeWait := true })) := by
  rw [exec_upstreamRequest_of_ready hup hslice hready hserve, if_pos]
  simp [hop, hplaces, hf]

theorem exec_upstreamRequest_checked (h : (op ≠ 2 ∨ (s.guards.get g).placesUsed < rmwPlaces g) ∨ (s.guards.get g).fenced = true) :
    exec (.upstreamRequest g slice op stream domain addr txn) s =
      .next (checkHdr g slice op (hdrOf slice op stream domain addr txn) (hdrCounted g s)) := by
  rw [exec_upstreamRequest_of_ready hup hslice hready hserve, if_neg]
  simp only [Bool.and_eq_true, beq_iff_eq, decide_eq_true_eq, Bool.not_eq_true', not_and, Bool.not_eq_false]
  rintro ⟨hop, hplaces⟩
  rcases h with (h | h) | h
  · exact absurd hop h
  · omega
  · exact h

end

/-- Settles O21: the checks of a header in order, each refusal the answer of `refuseHdr`. -/
theorem headersAreCheckedInOrder : Obligations.HeadersAreCheckedInOrder := by
  intro s u g slice op stream domain addr txn x h refused hup hx hslice hready hserve hh hu hrefused
  subst hx hh
  obtain rfl : u = hdrCounted g s := hu
  have hrefuse (st : Nat) (v : State) : refuseHdr g slice op txn st v = refused st v := (hrefused st v).symm
  have hfenced := fenced_hdrCounted g s
  have htxn := txnInFlight_hdrCounted g s txn
  refine ⟨fun hop hplaces hf => exec_upstreamRequest_held hup hslice hready hserve hop hplaces hf, fun hf => ?fenced, fun hplace =>
    ⟨fun hf ht => ?txn, fun hf ht hop => ?reserved, fun o hf ht ho => ⟨fun st hr => ?rights, fun hr => ?allowed⟩⟩⟩
  case fenced =>
    rw [exec_upstreamRequest_checked hup hslice hready hserve (.inr hf), checkHdr_of_fenced (hfenced.trans hf)]
    exact congrArg _ (hrefuse _ _)
  all_goals rw [exec_upstreamRequest_checked hup hslice hready hserve (.inl hplace)]
  case txn =>
    rw [checkHdr_of_txnInFlight (h := hdrOf slice op stream domain addr txn) (hfenced.trans hf) (htxn.trans ht)]
    exact congrArg _ (hrefuse _ _)
  case reserved =>
    rw [checkHdr_of_reserved (h := hdrOf slice op stream domain addr txn) (hfenced.trans hf) (htxn.trans ht) (opOf_eq_none hop)]
    exact congrArg _ (hrefuse _ _)
  case rights =>
    rw [checkHdr_of_rights (h := hdrOf slice op stream domain addr txn) (hfenced.trans hf) (htxn.trans ht) ho hr]
    exact congrArg _ (hrefuse _ _)
  case allowed =>
    rw [checkHdr_of_allowed (h := hdrOf slice op stream domain addr txn) (hfenced.trans hf) (htxn.trans ht) ho hr]
    rfl

/-! ### Data beats, the downstream port and the responses -/

/-- R640: a downstream tag that is not in flight. -/
def freeTag (s : State) (x : Guard) : BitVec 12 := BitVec.ofNat 12 (freeFrom s.free 4096 x.tagsOut)

/-- R639: the state in which a guard has handed a request downstream, in stage `st` and with `b` on its port. -/
def issued (g uid : Nat) (st : Stage) (b : DownBeat) (s : State) : State :=
  (modReq g uid (fun q => { q with stage := st }) s).used.modGuard g (fun y => { y with beat := b })

theorem issued_only (g uid : Nat) (st : Stage) (b : DownBeat) (s : State) : Only [.freeCtr, .guards] s (issued g uid st b s) :=
  Only.via (Only.modGuard _ _ _) rfl (Only.via (Only.modFreeCtr _ _) rfl ((Only.modGuard _ _ s).mono rfl))

theorem guards_issued (g : Fin 40) (uid : Nat) (st : Stage) (b : DownBeat) (s : State) : (issued g uid st b s).guards.get g =
    { s.guards.get g with reqs := mapIf (fun q => q.uid == uid) (fun q => { q with stage := st }) (s.guards.get g).reqs, beat := b } := by
  rw [issued, State.modGuard_guards, vmod_get, if_pos rfl, State.used, State.modFreeCtr_guards, modReq, State.modGuard_guards, vmod_get, if_pos rfl]

section
variable {s : State} {g : Fin 40} (hup : s.ports.rstCold = false)
include hup

section
variable {slice : Nat} {txn : BitVec 12} {data : BitVec 512} {be side : BitVec 64} {w : Nat × Nat}
  (hw : (s.guards.get g).wdWait.find? (fun w => w.1 == slice) = some w)
include hw

/-- R66: the data beat of a refused header is dropped. -/
theorem exec_writeDataBeat_of_refused (h : w.2 = 0) : exec (.writeDataBeat g slice txn data be side) s =
    .next (s.modGuard g (fun y => { y with wdWait := dropFirst (fun v => v == w) y.wdWait })) := by
  have hnone : (s.guards.get g).reqs.find? (fun r => r.uid == w.2 && w.2 != 0) = none := by
    rw [List.find?_eq_none]
    intro r _
    simp [h]
  refine congrArg done ((whenUp_up _ hup).trans ?_)
  dsimp only
  rw [guard_get, hw]
  dsimp only
  rw [hnone]
  rfl

theorem exec_writeDataBeat_of_owed {r r' : Req} (hr : (s.guards.get g).reqs.find? (fun r => r.uid == w.2) = some r) (h : w.2 ≠ 0)
    (hstage : r.stage = .needData)
    (hr' : r' = { r with data := data, be := if r.op = .write then BitVec.allOnes 64 else be, side := side, wdTxn := txn, gotData := true,
                         op := if r.op = .partialWrite ∧ be = BitVec.allOnes 64 then .write else r.op }) :
    exec (.writeDataBeat g slice txn data be side) s = .next (settle (proceedData g r' (modReq g r.uid (fun _ => r')
      (s.modGuard g (fun y => { y with wdWait := dropFirst (fun v => v == w) y.wdWait }))))) := by
  have hfind : (s.guards.get g).reqs.find? (fun r => r.uid == w.2 && w.2 != 0) = some r := by
    rw [← hr]
    congr 1
    funext q
    simp [h]
  subst hr'
  refine congrArg done ((whenUp_up _ hup).trans ?_)
  dsimp only
  rw [guard_get, hw]
  dsimp only
  rw [hfind]
  dsimp only
  rw [hstage]
  rfl

end

section
variable {uid : Nat} {r : Req} (hr : (s.guards.get g).reqs.find? (fun r => r.uid == uid) = some r) (hclk : (s.guards.get g).clkStopped = false)
  (hfree : (s.guards.get g).reqs.any (Guard.blockedBy r) = false) (htags : (s.guards.get g).tagsOut.length < 4096)

include hr hclk hfree htags

theorem exec_downstreamRequestIssue_of_read (hstage : r.stage = .readQ) : exec (.downstreamRequestIssue g uid) s =
    .next (issued g uid (.readOut (freeTag s (s.guards.get g)))
      { slice := downSlice g r.addr, write := false, addr := r.addr, tag := freeTag s (s.guards.get g) } s) := by
  refine congrArg done ((whenUp_up _ hup).trans ?_)
  dsimp only
  rw [guard_get, hr]
  refine (if_neg ?_).trans ?_
  · simp [hclk, hfree, htags]
  · rw [hstage]
    rfl

theorem exec_downstreamRequestIssue_of_write {data : BitVec 512} {side : BitVec 64} (hstage : r.stage = .writeQ data side) :
    exec (.downstreamRequestIssue g uid) s = .next (issued g uid (.writeOut (freeTag s (s.guards.get g)))
      { slice := downSlice g r.addr, write := true, addr := r.addr, tag := freeTag s (s.guards.get g), data := data, side := side } s) := by
  refine congrArg done ((whenUp_up _ hup).trans ?_)
  dsimp only
  rw [guard_get, hr]
  refine (if_neg ?_).trans ?_
  · simp [hclk, hfree, htags]
  · rw [hstage]
    rfl

end

section
variable {tag : BitVec 12} {r : Req}

/-- R76, R640: the controller's answer to a read that is out, with or without an error. -/
theorem exec_downstreamReadResponse (err : Bool) (data : BitVec 512) (side : BitVec 64)
    (hr : (s.guards.get g).reqs.find? (fun r => r.stage == .readOut tag || r.stage == .discardOut tag) = some r) (hstage : r.stage = .readOut tag) :
    exec (.downstreamReadResponse g tag err data side) s =
      .next (settle (if err then respond g r stMem 0 side s else finishRead g r data side s)) := by
  refine congrArg done ((whenUp_up _ hup).trans ?_)
  dsimp only
  rw [guard_get, hr]
  dsimp only
  rw [hstage]
  rfl

variable (hr : (s.guards.get g).reqs.find? (fun r => r.stage == .writeOut tag || r.stage == .fencedOut tag) = some r)
include hr

/-- R108: the acknowledgement of a write that a fence overtook. -/
theorem exec_downstreamWriteAck_of_fenced (err : Bool) (hstage : r.stage = .fencedOut tag) :
    exec (.downstreamWriteAck g tag err) s = .next (fail g r stFenced s) := by
  refine congrArg done ((whenUp_up _ hup).trans ?_)
  dsimp only
  rw [guard_get, hr]
  dsimp only
  rw [hstage]
  rfl

/-- R83: the acknowledgement of a write that is out. -/
theorem exec_downstreamWriteAck (err : Bool) (hstage : r.stage = .writeOut tag) : exec (.downstreamWriteAck g tag err) s = .next (
    if err then fail g r stMem s
    else fail g r stOk (s.modGuard g (fun y => { y with page := { y.page with
      linesWritten := if r.be = BitVec.allOnes 64 then y.page.linesWritten + 1 else y.page.linesWritten,
      rmwCount := if r.be = BitVec.allOnes 64 then y.page.rmwCount else y.page.rmwCount + 1 } }))) := by
  refine congrArg done ((whenUp_up _ hup).trans ?_)
  dsimp only
  rw [guard_get, hr]
  dsimp only
  rw [hstage]
  simp only [beq_iff_eq]
  rfl

end

theorem exec_upstreamResponse {slice : Nat} {p : Rsp} (hp : (s.guards.get g).rsps.find? (fun q => q.slice == slice) = some p) :
    exec (.upstreamResponse g slice) s =
      .next (s.modGuard g (fun y => { y with rsps := dropFirst (fun q => q == p) y.rsps, rspBeat := p })) := by
  refine congrArg done ((whenUp_up _ hup).trans ?_)
  rw [guard_get, hp]
  rfl

end

/-- Settles O22: each answer of the memory finds its request by its tag, and each beat its header by its slice. -/
theorem memoryAnswersCompleteRequests : Obligations.MemoryAnswersCompleteRequests := by
  intro s g x r hup hx
  subst hx
  refine ⟨fun slice txn data be side w hw => ⟨fun h => exec_writeDataBeat_of_refused hup hw h, fun r' hr h hstage hr' =>
      exec_writeDataBeat_of_owed hup hw hr h hstage hr'⟩,
    fun uid hr hclk hfree htags => ⟨fun hstage => ?readIssue, fun d sd hstage => ?writeIssue⟩,
    fun tag data side hr hstage => ⟨exec_downstreamReadResponse hup true data side hr hstage, exec_downstreamReadResponse hup false data side hr hstage⟩,
    fun tag err hr => ⟨exec_downstreamWriteAck_of_fenced hup hr err, exec_downstreamWriteAck hup hr true, exec_downstreamWriteAck hup hr false⟩,
    fun slice p hp => exec_upstreamResponse hup hp⟩
  case readIssue =>
    refine ⟨_, freeTag s (s.guards.get g), exec_downstreamRequestIssue_of_read hup hr hclk hfree htags hstage, issued_only _ _ _ _ _, ?_, ?_⟩
    · rw [guards_issued]
    · rw [guards_issued]
  case writeIssue =>
    refine ⟨_, freeTag s (s.guards.get g), exec_downstreamRequestIssue_of_write hup hr hclk hfree htags hstage, issued_only _ _ _ _ _, ?_, ?_⟩
    · rw [guards_issued]
    · rw [guards_issued]

end Sys2Proof.Machine
end

section
/-!
PROOFS. The port controls of a guard (R44, R111 to R114, R264, R642), its lanes and its fence (R17 to R23, R103 to R109, R587).
-/

namespace Sys2Proof.Machine
open Sys2Proof

/-! ### Port controls -/

section
variable {s : State} {g : Fin 40} {p : Path} {v : BitVec 32}

theorem exec_guardThrottle_of_write (h : Write s p (guardAddr g 0x24)) : exec (.guardThrottle g p v) s =
    .next (accessOk p 0 (s.modGuard g (fun x => { x with page := { x.page with limit := v.extractLsb' 0 14 } }))) := by
  obtain ⟨hreach, hpriv⟩ := h
  exact congrArg done (writeAt_ok hreach (fun _ => hpriv))

/-- R111: the error counts that a mask leaves. -/
def clearedErrors (v : BitVec 32) (l : List (BitVec 32)) : List (BitVec 32) := l.mapIdx (fun i c => if bitAt v (i + 2) then 0 else c)

theorem getD_clearedErrors (v : BitVec 32) (l : List (BitVec 32)) (i : Nat) :
    (clearedErrors v l).getD i 0 = if bitAt v (i + 2) then 0 else l.getD i 0 := by
  rw [List.getD_eq_getElem?_getD, clearedErrors, List.getElem?_mapIdx, List.getD_eq_getElem?_getD]
  cases l[i]? with
  | none => simp
  | some c => rfl

theorem exec_guardErrClear_of_access (h : Access s p (guardAddr g 0x70)) : exec (.guardErrClear g p v) s =
    .next (accessOk p 0 (s.modGuard g (fun x => { x with page := { x.page with errCount := clearedErrors v x.page.errCount } }))) :=
  congrArg done (writeAt_ok h (fun hp => absurd hp (by decide)))

theorem exec_guardTagfailClear_of_access (h : Access s p (guardAddr g 0x102C)) : exec (.guardTagfailClear g p v) s =
    .next (accessOk p 0 (s.modGuard g (fun x => { x with
      page := if bitAt v 31 then { x.page with tfCounts := [], tfTotal := 0 } else { x.page with tfCounts := alDel x.page.tfCounts (bitsOf v 12 0) } }))) :=
  congrArg done (writeAt_ok h (fun hp => absurd hp (by decide)))

end

theorem mem_alDel {β : Type} {l : List (Nat × β)} {x : Nat} {q : Nat × β} : q ∈ alDel l x ↔ q ∈ l ∧ q.1 ≠ x := by
  simp [alDel, List.mem_filter]

theorem noteThrottle_eq (x : Guard) :
    x.noteThrottle = { x with page := { x.page with throttledRecent := x.page.throttledRecent || x.throttledNow } } := by
  rw [Guard.noteThrottle]
  cases h : x.throttledNow <;> simp

/-- R44, R642: a counted change of the memory port clock of a guard, in its own state and in what its die section shows. -/
theorem portClock_guards (g : Fin 40) (b : Bool) (s : State) :
    (portClock g b s).guards = s.guards.set g { s.guards.get g with clkStopped := !b } := by
  rw [portClock, State.modDie_guards, modGuard_set]

theorem portClock_dies (g : Fin 40) (b : Bool) (s : State) (d : Fin 4) : (portClock g b s).dies.get d =
    if d.val ≠ g.val / 10 then s.dies.get d
    else if g.val % 10 < 6 then { s.dies.get d with pairRun := setBit (s.dies.get d).pairRun (g % 10 / 2) b } else { s.dies.get d with t2Run := b } := by
  rw [portClock, State.modDie_dies, vmod_get, State.modGuard_dies, ite_not]

/-- Settles O23: each control is a change of one field of its guard, the clocks of its die section with it. -/
theorem guardPortControlsStoreTheirFields : Obligations.GuardPortControlsStoreTheirFields := by
  intro s g p v x hx
  subst hx
  refine ⟨fun h => ?limit, fun w h hw => ⟨?share, fun hp => by rw [hp]; rfl⟩, fun h => ⟨clearedErrors v _, ?errors, by simp [clearedErrors], getD_clearedErrors v _⟩,
    fun h hv => ?tagAll, fun h hv => ⟨alDel _ _, ?tagOne, fun q hq => mem_alDel.1 hq, fun q hq hne => mem_alDel.2 ⟨hq, hne⟩⟩,
    fun hup => ?interval, fun hup c b hc => ?clock⟩
  case limit => rw [exec_guardThrottle_of_write h, modGuard_set]
  case share =>
    rw [exec_guardLaneShare_of_write v h, modGuard_set, shares_uniq v w hw]
    rfl
  case errors => rw [exec_guardErrClear_of_access h, modGuard_set]
  case tagAll => rw [exec_guardTagfailClear_of_access h, modGuard_set, if_pos hv]
  case tagOne => rw [exec_guardTagfailClear_of_access h, modGuard_set, if_neg (by simp [hv])]
  case interval =>
    refine congrArg done ((whenUp_up _ hup).trans ((modGuard_set s g _).trans ?_))
    dsimp only
    rw [noteThrottle_eq]
  case clock =>
    have hexec : exec c s = .next (portClock g b s) := by
      rcases hc with ⟨rfl, rfl⟩ | ⟨rfl, rfl⟩ <;> exact congrArg done (whenUp_up _ hup)
    exact ⟨_, hexec, portClock_only _ _ _, portClock_guards g b s, portClock_dies g b s⟩

/-! ### Lanes and the fence -/

section
variable {s : State} {g : Fin 40} {bank lane : Nat} {lines : List Nat}

/-- R103: a wrong known answer counts and raises its fault, its lane leaves service and the guard is fenced. -/
theorem katBlock_bad (h : (s.guards.get g).lanePresent bank lane = true) : katBlock g bank lane false lines s =
    fenceGuard true true g (laneOut g bank lane lines (raise true kGuard (unitLane g bank lane) fLaneKat 5
      (((s.guards.get g).bankN bank).lastKat.getD lane 0 % 2 ^ 48) (s.modGuard g (fun x => { x with
        page := { x.page with katCount := x.page.katCount + 1, katDecrypt := !x.page.katDecrypt, katFail := satInc x.page.katFail } })))) := by
  rw [katBlock, modGuard_guardN, onlyIf, if_pos h]
  dsimp only
  rw [if_neg (by decide), modGuard_guardN]
  simp only [modGuard_set, vset_set, vset_get]
  rfl

theorem katBlock_good (h : (s.guards.get g).lanePresent bank lane = true) : katBlock g bank lane true lines s =
    s.modGuard g (fun x => { x with
      page := { x.page with katCount := x.page.katCount + 1, katDecrypt := !x.page.katDecrypt },
      banks := x.banks.modify bank (fun b => { b with lastKat := (katBlock.padKat b.lastKat).set lane s.timer }) }) := by
  rw [katBlock, modGuard_guardN, onlyIf, if_pos h]
  simp only [if_true, modBank, modGuard_set, vset_set, vset_get]

theorem getD_set_padKat (l : List Nat) (t : Nat) (h : lane < 9) : ((katBlock.padKat l).set lane t).getD lane 0 = t := by
  have hlen : lane < ((katBlock.padKat l).set lane t).length := by simpa [katBlock.padKat] using h
  rw [List.getD_eq_getElem _ _ hlen, List.getElem_set_self]

theorem bank_lt_of_lanePresent {x : Guard} (h : x.lanePresent bank lane = true) : bank < x.banks.length ∧ lane < 9 := by
  simp only [Guard.lanePresent, Bool.and_eq_true, decide_eq_true_eq] at h
  exact ⟨h.1.1.1, h.1.1.2⟩

end

section
variable {s : State} {g : Fin 40} {bank lane : Nat} {lines : List Nat} (hup : s.ports.rstCold = false)
include hup

theorem exec_laneParity_of_present (stage : BitVec 4) (h : (s.guards.get g).lanePresent bank lane = true) :
    exec (.laneParity g bank lane stage lines) s = .next (settle (laneOut g bank lane lines (raise false kGuard (unitLane g bank lane) fLaneParity 4
      stage.toNat (s.modGuard g (fun x => { x with page := { x.page with parityFail := satInc x.page.parityFail } }))))) :=
  congrArg done ((whenUp_up _ hup).trans (if_pos h))

theorem exec_knownAnswerInjection_of_up (good : Bool) :
    exec (.knownAnswerInjection g bank lane good lines) s = .next (settle (katBlock g bank lane good lines s)) :=
  congrArg done (whenUp_up _ hup)

/-- R106: a spare that is due and good takes the place of the lane that failed. -/
theorem exec_spareSubstitution_of_due (hbank : bank < (s.guards.get g).banks.length) (hdue : ((s.guards.get g).bankN bank).spareDue = true)
    (hgood : ((s.guards.get g).bankN bank).spareGood = true) : exec (.spareSubstitution g bank) s =
      .next (s.modGuard g (fun x => { x.noteThrottle with
        banks := x.banks.set bank { x.bankN bank with active := setBit (x.bankN bank).active 8 true, spareUsed := true, spareDue := false } })) := by
  refine congrArg done ((whenUp_up _ hup).trans ((modGuard_set _ g _).trans ?_))
  rw [show s.modGuard g.toNat Guard.noteThrottle = _ from modGuard_set s g _, modGuard_set]
  dsimp only
  rw [vset_set, vset_get, noteThrottle_eq]
  dsimp only
  rw [modify_set _ _ _ hbank]
  rw [if_pos]
  · rfl
  · exact Bool.and_eq_true_iff.2 ⟨hdue, hgood⟩

end

section
variable {s : State} {g : Fin 40} {p : Path} {v : BitVec 32}

theorem exec_guardKatInject_of_write {bad : List (Nat × Nat)} {lines : List Nat} (h : Write s p (guardAddr g 0x204C)) (hv : bitAt v 0 = true) :
    exec (.guardKatInject g p v bad lines) s =
      .next (accessOk p 0 (settle (forEach ((List.range 8).flatMap (fun b => (List.range 9).map (fun l => (b, l))))
        (fun bl t => katBlock g bl.1 bl.2 (!bad.contains bl) lines t) s))) := by
  obtain ⟨hreach, hpriv⟩ := h
  exact congrArg done ((writeAt_ok hreach (fun _ => hpriv)).trans (congrArg _ (if_pos hv)))

theorem exec_fence_of_write (h : Write s p (guardAddr g 0x20)) :
    exec (.fence g p v) s = .next (accessOk p 0 (if bitAt v 0 then settle (fenceGuard false true g s) else s)) := by
  obtain ⟨hreach, hpriv⟩ := h
  exact congrArg done (writeAt_ok hreach (fun _ => hpriv))

end

/-- Settles O24: what a failed lane does to its bank and a wrong answer to its guard, and what a fence leaves. -/
theorem failedLanesLeaveServiceAndFencesCloseGuards : Obligations.FailedLanesLeaveServiceAndFencesCloseGuards := by
  intro s g x bank lane lines hup hx
  subst hx
  refine ⟨fun stage h => ⟨_, ?parity, rfl⟩, fun h => ⟨_, ?bad, rfl⟩,
    fun h => ⟨_, (katBlock.padKat ((s.guards.get g).bankN bank).lastKat).set lane s.timer, ?good, getD_set_padKat _ _ (bank_lt_of_lanePresent h).2, rfl⟩,
    fun p v bad hw hv => exec_guardKatInject_of_write hw hv, fun hb hdue hgood => ?spare, fun p v hw => ⟨fun hv => ?noFence, fun hv => ?fence⟩,
    fun safety ends => ⟨fenceGuard_fenced safety ends g s g.isLt, fun hf => ?keys, fun h hne => fenceGuard_ne safety ends g h s hne⟩⟩
  case parity => rw [exec_laneParity_of_present hup stage h, modGuard_set]
  case bad => rw [exec_knownAnswerInjection_of_up hup, katBlock_bad h, modGuard_set]
  case good =>
    rw [exec_knownAnswerInjection_of_up hup, katBlock_good h, modGuard_set, modify_set _ _ _ (bank_lt_of_lanePresent h).1]
    rfl
  case spare => rw [exec_spareSubstitution_of_due hup hb hdue hgood, modGuard_set]
  case noFence => rw [exec_fence_of_write hw, if_neg (by simp [hv])]
  case fence => rw [exec_fence_of_write hw, if_pos hv]
  case keys => exact fenceGuard_keys safety ends g s g.isLt (by rw [modGuard_guardN]; exact hf)

end Sys2Proof.Machine
end

section
/-!
PROOFS. What the ring brings to a guard (R126, R130, R139 to R142, R153 to R157, R161, R162, R691, R692) and the registers of its key cache
(R127, R131, R132, R190, R191).
-/

namespace Sys2Proof.Machine
open Sys2Proof

/-- R28: a message that arrives is applied by the command of its type to the state in which the stop has taken it in. -/
theorem done_receive {s : State} {die : Fin 4} {m : RingMsg} {k : RingMsg → Option (State → State)} (f : State → State) (h : Arrives s die m)
    (hk : k m = some f) : done (whenUp s (receive die k)) = .next (f (taken die m s)) := by
  obtain ⟨hup, -⟩ := id h
  exact congrArg done ((whenUp_up _ hup).trans (receive_arrives h hk))

section
variable {s : State} {die : Fin 4} {m : RingMsg} (h : Arrives s die m)
include h

theorem exec_keyFill_of_arrives {e : Entry} (hb : m.body = .keyFill e) : exec (.keyFill die) s = .next (
    if ((taken die m s).guardN m.dest).inReset || ((taken die m s).guardN m.dest).fenced then taken die m s
    else settle (fillArrived (openOk (taken die m s)) m.dest e (taken die m s))) :=
  done_receive (fun t => if (t.guardN m.dest).inReset || (t.guardN m.dest).fenced then t else settle (fillArrived (openOk t) m.dest e t)) h (by rw [hb])

theorem exec_keyNone_of_arrives {d : Nat} {w b : Bool} (hb : m.body = .keyNone d w b) : exec (.keyNone die) s = .next (
    if ((taken die m s).guardN m.dest).inReset then taken die m s else settle (keyNoneAt m.dest d w b (taken die m s))) :=
  done_receive (fun t => if (t.guardN m.dest).inReset then t else settle (keyNoneAt m.dest d w b t)) h (by rw [hb])

end

/-- R162, R692: a stop applies a ROTATE to its rotation list once. -/
def rotated (die d : Nat) (n op : BitVec 32) (u : State) : State :=
  u.modDie die (fun x => if x.ops.any (fun o => o.1 == op) then x else
    { x with rot := x.rot.filter (fun r => r.1 != d) ++ [(d, !n.getLsbD 0)], ops := x.ops ++ [(op, true)] })

/-- R153, R692: a stop applies a RETIRE to its rotation list once. -/
def retired (die f l : Nat) (op : BitVec 32) (u : State) : State :=
  u.modDie die (fun x => if x.ops.any (fun q => q.1 == op) then x else
    { x with rot := x.rot.filter (fun r => r.1 < f || l < r.1), ops := x.ops ++ [(op, true)] })

section
variable {s : State} {die : Fin 4} {m : RingMsg} (h : Arrives s die m)
include h

theorem exec_rotate_of_arrives {d : Nat} {n op : BitVec 32} (hb : m.body = .rotate d n op) : exec (.rotate die) s =
    .next (forEach (liveGuards die (rotated die d n op (taken die m s))) (fun g => rotateAt g d n op) (rotated die d n op (taken die m s))) :=
  done_receive (fun t => forEach (liveGuards die (rotated die d n op t)) (fun g => rotateAt g d n op) (rotated die d n op t)) h (by rw [hb]; rfl)

theorem exec_retire_of_arrives {f l : Nat} {o : Bool} {op : BitVec 32} (hb : m.body = .retire f l o op) : exec (.retire die) s =
    .next (settle (forEach (liveGuards die (retired die f l op (taken die m s))) (fun g t => dropRetired g (retireAt g f l o op t))
      (retired die f l op (taken die m s)))) :=
  done_receive (fun t => settle (forEach (liveGuards die (retired die f l op t)) (fun g t => dropRetired g (retireAt g f l o op t)) (retired die f l op t)))
    h (by rw [hb]; rfl)

end

section
variable {s : State} {g : Fin 40}

theorem exec_retiringEntryDrop_of_live (hup : s.ports.rstCold = false) (h : (s.guards.get g).inReset = false) :
    exec (.retiringEntryDrop g) s = .next (dropRetired g s) :=
  congrArg done ((whenUp_up _ hup).trans (if_pos (by rw [guard_get, h]; rfl)))

theorem exec_deferredFillInstall_of_room {e : Entry} {es : List Entry} (hup : s.ports.rstCold = false) (hw : (s.guards.get g).cache.waitFills = e :: es)
    (h : ((s.guards.get g).room e.domain).isSome = true ∨ ((s.guards.get g).lineGen e.domain e.gen).isSome = true) :
    exec (.deferredFillInstall g) s = .next (settle (pinProgress g (seekSlots g (installFill (openOk s) g e
      (s.modGuard g (fun x => { x with cache := { x.cache with waitFills := es } })))))) := by
  refine congrArg done ((whenUp_up _ hup).trans ?_)
  rw [guard_get, hw]
  refine if_neg ?_
  rw [Bool.and_eq_true, Option.isNone_iff_eq_none, Option.isNone_iff_eq_none]
  rintro ⟨hroom, hline⟩
  rcases h with h | h
  · rw [hroom] at h
    exact Bool.false_ne_true h
  · rw [hline] at h
    exact Bool.false_ne_true h

theorem exec_keyReqResend_of_slot {n : Nat} {sl : Slot} (hup : s.ports.rstCold = false) (hsl : (s.guards.get g).miss.slots[n]? = some sl)
    (h : (s.guards.get g).inReset = false) : exec (.keyReqResend g n) s = .next (askAgain g sl (reachTime (sl.asked + 50) s)) := by
  refine congrArg done ((whenUp_up _ hup).trans ?_)
  rw [guard_get, hsl]
  exact if_neg (by simp [h])

end

/-- Settles O25: each message acts in the state in which its stop has taken it in. -/
theorem ringMessagesActOnTheGuardTheyName : Obligations.RingMessagesActOnTheGuardTheyName := by
  intro s die m u h hu
  subst hu
  obtain ⟨hup, -⟩ := id h
  refine ⟨fun e hb => ⟨fun hg => ?ignored, fun hr hf => ?filled⟩, fun d w b hb => ⟨fun hr => ?noneReset, fun hr => ?none⟩,
    fun d n op v hb hv => ?rotate, fun f l o op v hb hv => ?retire, fun g hg => exec_retiringEntryDrop_of_live hup hg,
    fun g e es hw hroom => exec_deferredFillInstall_of_room hup hw hroom, fun g n sl hsl hr => exec_keyReqResend_of_slot hup hsl hr⟩
  case ignored => rw [exec_keyFill_of_arrives h hb, if_pos (Bool.or_eq_true_iff.2 hg)]
  case filled => rw [exec_keyFill_of_arrives h hb, if_neg (by simp [hr, hf])]
  case noneReset => rw [exec_keyNone_of_arrives h hb, if_pos hr]
  case none => rw [exec_keyNone_of_arrives h hb, if_neg (by simp [hr])]
  case rotate =>
    subst hv
    exact exec_rotate_of_arrives h hb
  case retire =>
    subst hv
    exact exec_retire_of_arrives h hb

/-! ### The registers of the key cache -/

section
variable {s : State} {g : Fin 40} {p : Path} {v : BitVec 32}

/-- R190: the fields of GUARD_KC_PIN as a write leaves them, with the result that it shows. -/
def pinShown (v : BitVec 32) (r : BitVec 2) (x : Guard) : Guard :=
  { x with cache := { x.cache with pinDom := BitVec.ofNat 13 (bitsOf v 12 0), pinBit := bitAt v 13, pinResult := r } }

section
variable (h : Write s p (kcPinAddr g))
include h

theorem exec_kcPin_of_write : exec (.kcPin g p v) s = .next (accessOk p 0 (
    if !bitAt v 13 then s
    else if !bitAt v 14 then s.modGuard g (fun x => pinShown v x.cache.pinResult x)
    else if (s.guards.get g).cache.pinBusy then s
    else if 4352 ≤ bitsOf v 12 0 then s.modGuard g (pinShown v 3)
    else if !(s.guards.get g).pinned (bitsOf v 12 0) && 32 ≤ (s.guards.get g).cache.pins.length then s.modGuard g (pinShown v 2)
    else pinStart g (bitsOf v 12 0) s)) := by
  obtain ⟨hreach, hpriv⟩ := h
  exact congrArg done (writeAt_ok hreach (fun _ => hpriv))

theorem exec_kcUnpin_of_write (hpin : bitAt v 13 = false) : exec (.kcUnpin g p v) s = .next (accessOk p 0 (
    if !bitAt v 14 then s.modGuard g (fun x => pinShown v x.cache.pinResult x)
    else if (s.guards.get g).cache.pinBusy then s
    else if 4352 ≤ bitsOf v 12 0 then s.modGuard g (pinShown v 3)
    else pinEnd g (bitsOf v 12 0) s)) := by
  obtain ⟨hreach, hpriv⟩ := h
  refine congrArg done ((writeAt_ok hreach (fun _ => hpriv)).trans (congrArg _ ((if_neg (by simp [hpin])).trans ?_)))
  rw [show pinShown v = fun r x => { x with cache := { x.cache with pinDom := BitVec.ofNat 13 (bitsOf v 12 0), pinBit := false, pinResult := r } }
    from by funext r x; rw [pinShown, hpin]]
  rfl

theorem exec_kcUnpin_of_pin (hpin : bitAt v 13 = true) : exec (.kcUnpin g p v) s = .next (accessOk p 0 s) := by
  obtain ⟨hreach, hpriv⟩ := h
  exact congrArg done ((writeAt_ok hreach (fun _ => hpriv)).trans (congrArg _ (if_pos hpin)))

end

theorem exec_kcQuery_of_write (h : Write s p (guardAddr g 0x3028)) : exec (.kcQuery g p v) s = .next (accessOk p 0 (s.modGuard g (fun x =>
    { x with cache := { x.cache with query := v.extractLsb' 0 13, queried := true } }))) := by
  obtain ⟨hreach, hpriv⟩ := h
  exact congrArg done (writeAt_ok hreach (fun _ => hpriv))

theorem exec_guardMissClear_of_access (h : Access s p (guardAddr g 0x4034)) : exec (.guardMissClear g p v) s =
    .next (accessOk p 0 (s.modGuard g (fun x => { x with
      miss := { x.miss with latMax := if bitAt v 0 then 0 else x.miss.latMax, hold := if bitAt v 1 then 0 else x.miss.hold } }))) :=
  congrArg done (writeAt_ok h (fun hp => absurd hp (by decide)))

end

/-- R127: an entry of the cache is checked: one that has gone meanwhile, or whose BIND is right, stays. -/
def scrubLine (g : Fin 40) (l : KcLine) (t : State) : State :=
  if l.entry.bindOk l.entry.domain || !(t.guards.get g).cache.lines.any (fun k => k.row == l.row) then t else bindFailed g l 1 l.entry.domain t

/-- R127: a scrub is counted, and what it invalidates of the pins is sought again. -/
def scrubbed (g : Nat) (s : State) : State :=
  settle (loadPins g (s.modGuard g (fun y => { y with cache := { y.cache with scrubs := y.cache.scrubs + 1 } })))

theorem exec_bindScrub_of_up {s : State} (g : Fin 40) (hup : s.ports.rstCold = false) :
    exec (.bindScrub g) s = .next (scrubbed g (forEach (s.guards.get g).cache.lines (scrubLine g) s)) :=
  congrArg done (whenUp_up _ hup)

theorem forEach_scrubLine_of_bindOk (g : Fin 40) (s : State) (ls : List KcLine) (h : ∀ l ∈ ls, l.entry.bindOk l.entry.domain = true) :
    forEach ls (scrubLine g) s = s := by
  induction ls with
  | nil => rfl
  | cons l ls ih =>
    have hl : scrubLine g l s = s := if_pos (by rw [h l List.mem_cons_self]; rfl)
    show forEach ls (scrubLine g) (scrubLine g l s) = s
    rw [hl]
    exact ih (fun k hk => h k (List.mem_cons_of_mem _ hk))

/-- Settles O26: each field of GUARD_KC_PIN in the order in which it decides. -/
theorem pinRegistersFollowTheirFields : Obligations.PinRegistersFollowTheirFields := by
  intro s g p v x d shown hx hd hshown
  subst hx hd
  obtain rfl : shown = fun r => pinShown v r (s.guards.get g) := funext hshown
  refine ⟨fun h => ⟨fun hbusy hgo => ⟨?pinDropped, ?unpinDropped⟩, fun hpin hfree => ⟨fun hgo => ?pinShown, fun hgo hd => ?pinRange, fun hgo hd hp hn => ?pinFull,
      fun hgo hd hp => ?pinStart⟩, fun hpin hfree => ⟨fun hgo => ?unpinShown, fun hgo hd => ?unpinRange, fun hgo hd => ?unpinEnd⟩⟩,
    fun h => ?query, fun hq hd => ?queryNow, fun h => ?missClear, fun hup => ?take, fun hup h => ?scrubGood, fun hup => exec_bindScrub_of_up g hup⟩
  case pinDropped =>
    rw [exec_kcPin_of_write h, hgo, hbusy]
    simp
  case unpinDropped =>
    cases hpin : bitAt v 13 with
    | true => exact exec_kcUnpin_of_pin h hpin
    | false =>
      rw [exec_kcUnpin_of_write h hpin, hgo, hbusy]
      rfl
  case pinShown => rw [exec_kcPin_of_write h, hpin, hgo, modGuard_set]; rfl
  case pinRange => rw [exec_kcPin_of_write h, hpin, hgo, hfree hgo, if_neg (by decide), if_neg (by decide), if_neg (by decide), if_pos hd, modGuard_set]
  case pinFull =>
    rw [exec_kcPin_of_write h, hpin, hgo, hfree hgo, if_neg (by decide), if_neg (by decide), if_neg (by decide), if_neg (by omega), if_pos (by simp [hp, hn]),
      modGuard_set]
  case pinStart =>
    rw [exec_kcPin_of_write h, hpin, hgo, hfree hgo, if_neg (by decide), if_neg (by decide), if_neg (by decide), if_neg (by omega), if_neg]
    rintro hfull
    simp only [Bool.and_eq_true, Bool.not_eq_true', decide_eq_true_eq] at hfull
    rcases hp with hp | hp
    · rw [hfull.1] at hp
      exact Bool.false_ne_true hp
    · omega
  case unpinShown => rw [exec_kcUnpin_of_write h hpin, hgo, modGuard_set]; rfl
  case unpinRange => rw [exec_kcUnpin_of_write h hpin, hgo, hfree hgo, if_neg (by decide), if_neg (by decide), if_pos hd, modGuard_set]
  case unpinEnd => rw [exec_kcUnpin_of_write h hpin, hgo, hfree hgo, if_neg (by decide), if_neg (by decide), if_neg (by omega), pinEnd, modGuard_set]
  case query => rw [exec_kcQuery_of_write h, modGuard_set]
  case queryNow => rw [Guard.queryNow, if_pos hd, hq]
  case missClear => rw [exec_guardMissClear_of_access h, modGuard_set]
  case take =>
    rw [← modGuard_set]
    exact congrArg done (whenUp_up _ hup)
  case scrubGood =>
    rw [exec_bindScrub_of_up g hup, forEach_scrubLine_of_bindOk g s _ h, scrubbed, modGuard_set]

end Sys2Proof.Machine
end

section
/-!
PROOFS. The key ring: insertion, passing, loss and return of messages (R180 to R184, R265 to R268, R577, R578, R645), and the tables that a stop keeps
(R32, R33, R144, R148 to R151, R188, R692).
-/

namespace Sys2Proof.Machine
open Sys2Proof

theorem die_get (s : State) (d : Fin 4) : s.dieN d = s.dies.get d := dieN_get s d

theorem modDie_modDie (d : Nat) (f g : Die → Die) (s : State) : (s.modDie d f).modDie d g = s.modDie d (fun x => g (f x)) := by
  unfold State.modDie
  dsimp only
  rw [vmod_vmod]

/-! ### Insertion -/

section
variable {s : State} {die : Fin 4}

theorem hasInsert_of_sendQ {m : RingMsg} {q : List RingMsg} (hr : (s.dies.get die).inReset = false) (ha : s.head.attached = true)
    (hq : (s.dies.get die).sendQ = m :: q) : hasInsert die s = true := by
  rw [hasInsert, die_get, hr, ha, hq]
  rfl

theorem hasInsert_of_empty (hq : (s.dies.get die).sendQ = []) (h : ksUp s = false ∨ (s.dies.get die).keyReqQ = []) : hasInsert die s = false := by
  rw [hasInsert, die_get, hq]
  rcases h with h | h <;> simp [h]

theorem hasInsert_of_keyReq {m : RingMsg} (hr : (s.dies.get die).inReset = false) (ha : s.head.attached = true) (hk : ksUp s = true)
    (hm : m ∈ (s.dies.get die).keyReqQ) : hasInsert die s = true := by
  have hne : (s.dies.get die).keyReqQ.isEmpty = false := by
    rw [List.isEmpty_eq_false_iff]
    exact List.ne_nil_of_mem hm
  rw [hasInsert, die_get, hr, ha, hk, hne]
  simp

section
variable (hup : s.ports.rstCold = false)
include hup

theorem exec_stopInsert_of_none (h : hasInsert die s = false) : exec (.stopInsert die) s = .next s :=
  congrArg done ((whenUp_up _ hup).trans (if_pos (by rw [show hasInsert die.toNat s = false from h]; rfl)))

/-- R267: the second send queue goes before the KEY_REQs. -/
theorem exec_stopInsert_of_sendQ {m : RingMsg} {q : List RingMsg} (h : hasInsert die s = true) (hq : (s.dies.get die).sendQ = m :: q) :
    exec (.stopInsert die) s = .next (numbered die m (s.modDie die (fun x => { x with passing := 0, sendQ := q }))) := by
  refine congrArg done ((whenUp_up _ hup).trans ((if_neg (by rw [show hasInsert die.toNat s = true from h]; decide)).trans ?_))
  dsimp only
  rw [hq]
  dsimp only
  rw [modDie_modDie]
  rfl

theorem exec_stopInsert_of_keyReq {l : Nat} {m : RingMsg} (h : hasInsert die s = true) (hq : (s.dies.get die).sendQ = [])
    (hl : (s.dies.get die).nextAsker die = some l) (hm : (s.dies.get die).keyReqQ.find? (fun m => m.src == 10 * die + l) = some m) :
    exec (.stopInsert die) s = .next (numbered die m (s.modDie die (fun x =>
      { x with passing := 0, keyReqQ := dropFirst (fun q => q == m) x.keyReqQ, krTurn := (l + 1) % 10 }))) := by
  refine congrArg done ((whenUp_up _ hup).trans ((if_neg (by rw [show hasInsert die.toNat s = true from h]; decide)).trans ?_))
  dsimp only
  rw [hq]
  dsimp only
  rw [show (s.dies.get die).nextAsker die.toNat = some l from hl]
  dsimp only
  rw [show (s.dies.get die).keyReqQ.find? (fun m => m.src == 10 * die.toNat + l) = some m from hm]
  dsimp only
  rw [modDie_modDie]
  rfl

end

end

theorem modGuard_at (s : State) (g : Nat) (f : Guard → Guard → Guard) : s.modGuard g (fun x => f x x) = s.modGuard g (f (s.guardN g)) := by
  unfold State.modGuard vmod State.guardN
  by_cases h : g < 40
  · rw [dif_pos h, dif_pos h, dif_pos h]
  · rw [dif_neg h, dif_neg h]

/-! ### Return, damage and idle words -/

section
variable {s : State} (hup : s.ports.rstCold = false)
include hup

theorem exec_headMessageReturn_of_returning {m : RingMsg} {ms : List RingMsg} {wire : Bytes} (h : (atHead s).head.returning = m :: ms) :
    exec (.headMessageReturn wire) s = .next (onlyIf (wire != m.wire) (headDamage m.seq (fieldLe wire 0 1) (fieldLe wire 2 1))
      ((atHead s).modHead (fun h => { h with returning := ms }))) := by
  refine congrArg done ((whenUp_up _ hup).trans ?_)
  rw [show ringFlow (ringOrder s) s = atHead s from rfl]
  dsimp only
  rw [h]

theorem exec_damagedMessage_of_good {wire : Bytes} (die : Option (Fin 4)) (h : wireDamaged wire = false) : exec (.damagedMessage die wire) s = .next s :=
  congrArg done ((whenUp_up _ hup).trans (if_pos (by rw [h]; rfl)))

/-- R184: a damaged message that the head meets. -/
theorem exec_damagedMessage_atHead {m : RingMsg} {ms : List RingMsg} {wire : Bytes} (hw : wireDamaged wire = true) (h : (atHead s).head.inQ = m :: ms) :
    exec (.damagedMessage none wire) s = .next (headDamage (alGet 0 (atHead s).head.srcSeq m.src) (fieldLe wire 0 1) (fieldLe wire 2 1)
      ((atHead s).modHead (fun h => { h with inQ := ms, damaged := satInc h.damaged, discarding := true }))) := by
  refine congrArg done ((whenUp_up _ hup).trans ((if_neg (by rw [hw]; decide)).trans ?_))
  dsimp only
  rw [show ringFlow (ringOrder s) s = atHead s from rfl, h]

/-- R184, R645: a damaged message that a stop meets: another source's is passed on, the head's is lost. -/
theorem exec_damagedMessage_atStop {die : Fin 4} {t : State} {m : RingMsg} {ms : List RingMsg} {wire : Bytes} (hw : wireDamaged wire = true)
    (ht : t = ringFlow (upstream die s) s) (h : (t.dies.get die).inbox = m :: ms) (hr : (t.dies.get die).inReset = false) :
    exec (.damagedMessage (some die) wire) s = .next (
      if m.src != 0xFE then passed die m false (t.modDie die (fun y => { y with crcErr := satInc y.crcErr, crcRecent := true }))
      else ringLoss die (fieldLe wire 0 1) (fieldLe wire 2 1)
        (t.modDie die (fun y => { y with crcErr := satInc y.crcErr, crcRecent := true, discarding := true }))) := by
  refine congrArg done ((whenUp_up _ hup).trans ((if_neg (by rw [hw]; decide)).trans ?_))
  dsimp only
  rw [show ringFlow (upstream die.toNat s) s = t from ht.symm, show t.dieN die.toNat = t.dies.get die from die_get t die, h, hr]
  dsimp only
  rw [if_neg (by decide), modDie_modDie]
  rfl

theorem exec_pulseInterval_of_attached (h : s.head.attached = true) : exec .pulseInterval s = .next (headAll .pulse (fpAtPulse s)) :=
  congrArg done ((whenUp_up _ hup).trans (if_pos h))

end

/-- R578: a PULSE that a stop takes in latches its guards' fingerprints where it is the one of a sample that the stop has yet to latch. -/
def pulseTaken (die : Nat) (m : RingMsg) (t : State) : State :=
  onlyIf ((t.dieN die).fpPend && t.ks.fpRef.any (fun r => r.1 == m.seq)) (latchFp die m.seq) t

theorem exec_pulse_of_arrives {s : State} {die : Fin 4} {m : RingMsg} (h : Arrives s die m) (hb : m.body = .pulse) :
    exec (.pulse die) s = .next (pulseTaken die m (taken die m s)) :=
  done_receive (pulseTaken die m) h (by rw [hb]; rfl)

/-- Settles O27: what a stop or the head does with the message that meets it, by its source, its SEQ and its state. -/
theorem ringStopsPassMessagesInOrder : Obligations.RingStopsPassMessagesInOrder := by
  refine ⟨fun s die x hup hx hr ha => ?insert, fun s die m => ⟨fun hm => ?numGuard, fun hm => ?numStop⟩, fun s t die x m ms c hup ht hx hi hc hd => ?discard,
    fun s t die x m ms c hup ht hx hi hc hd hr hh hm hne hgap => ?gap, fun s m ms wire hup h => ⟨fun hw => ?returned, fun hw => ?returnDamaged⟩,
    fun s die wire hup hw => exec_damagedMessage_of_good hup die hw, fun s t m ms wire hup hw ht h => ?headDamage, fun s t die x m ms wire hup hw ht hx h hr => ?stopDamage,
    fun s hup => ⟨congrArg done (whenUp_up _ hup), fun die => ?idle, exec_pulseInterval_of_attached hup⟩,
    fun s die m u h hb hu => ⟨fun hp => ?noPulse, fun ref hf hp => ?pulse⟩⟩
  case insert =>
    subst hx
    refine ⟨fun m q hq => ?_, fun hq hk => exec_stopInsert_of_none hup (hasInsert_of_empty hq (.inl hk)),
      fun hq hk => exec_stopInsert_of_none hup (hasInsert_of_empty hq (.inr hk)), fun l m hq hk hl hm => ?_⟩
    · rw [exec_stopInsert_of_sendQ hup (hasInsert_of_sendQ hr ha hq) hq, modDie_set]
    · rw [exec_stopInsert_of_keyReq hup (hasInsert_of_keyReq hr ha hk (List.mem_of_find?_eq_some hm)) hq hl hm, modDie_set]
  case numGuard => rw [numbered, if_pos hm, modGuard_at s m.src (fun x g => { g with seq := x.seq + 1 })]
  case numStop =>
    rw [numbered, if_neg (by omega), modDie_set, die_get]
  case discard =>
    subst hx
    exact rowsGo hup _ (fun k => receive_discard ht hd m ms hi) hc
  case gap =>
    subst hx
    exact rowsGo hup _ (fun k => receive_gap ht hd hr hh hi hm hne hgap) hc
  case returned => rw [exec_headMessageReturn_of_returning hup h, onlyIf, if_neg (by simp [hw])]
  case returnDamaged =>
    rw [exec_headMessageReturn_of_returning hup h, onlyIf, if_pos (by simp [hw])]
    rfl
  case headDamage =>
    subst ht
    exact exec_damagedMessage_atHead hup hw h
  case stopDamage =>
    subst hx
    refine ⟨fun hm => ?_, fun hm => ?_⟩
    · rw [exec_damagedMessage_atStop hup hw ht h hr, if_neg (by simp [hm]), modDie_set]
    · rw [exec_damagedMessage_atStop hup hw ht h hr, if_pos (by simp [hm]), modDie_set]
  case idle => exact congrArg done ((whenUp_up _ hup).trans (modDie_set s die _))
  case noPulse =>
    subst hu
    rw [exec_pulse_of_arrives h hb, pulseTaken, die_get, hp]
    rfl
  case pulse =>
    subst hu
    rw [exec_pulse_of_arrives h hb, pulseTaken, die_get, hp, hf]
    simp

/-! ### Tables and withdrawals -/

section
variable {s : State} {die : Fin 4} {m : RingMsg} (h : Arrives s die m)
include h

theorem exec_streamSet_of_arrives {st : Nat} {e op : BitVec 32} (hb : m.body = .streamSet st e op) {f : Die → Die}
    (hf : ∀ d, f d = { d with streams := alPut 0 d.streams st e }) : exec (.streamSet die) s = .next (applyUpdate die op false f (taken die m s)) := by
  have hfun : f = fun d => { d with streams := alPut 0 d.streams st e } := funext hf
  rw [hfun]
  exact done_receive (applyUpdate die op false _) h (by rw [hb]; rfl)

/-- R148: a reader set as a READER_SET leaves it. -/
def readersAfter (mo oper f l : Nat) (d : Die) : Die :=
  { d with readers := if oper = 2 then readerClear mo d.readers else readerRange mo f l (oper == 0) d.readers }

theorem exec_readerSet_of_arrives {mo oper lo hi : Nat} {op : BitVec 32} (hb : m.body = .readerSet mo oper lo hi op) {f : Die → Die}
    (hf : ∀ d, f d = readersAfter mo oper lo hi d) : exec (.readerSet die) s = .next (applyUpdate die op true f (taken die m s)) := by
  have hfun : f = readersAfter mo oper lo hi := funext hf
  rw [hfun]
  exact done_receive (applyUpdate die op true _) h (by rw [hb]; rfl)

end

/-- R188: the entries of a TABLE_SYNC in the table of its kind. -/
def syncEntries (k start : Nat) (es : List (BitVec 32)) (d : Die) : Die :=
  if k = 0 then { d with streams := syncWords start es d.streams } else if k = 1 then { d with readers := syncWords start es d.readers }
  else { d with rot := syncRot es d.rot }

theorem syncEntries_eq_match (k start : Nat) (es : List (BitVec 32)) : (fun d : Die => match k with
    | 0 => { d with streams := syncWords start es d.streams }
    | 1 => { d with readers := syncWords start es d.readers }
    | _ => { d with rot := syncRot es d.rot }) = syncEntries k start es := by
  match k with
  | 0 => rfl
  | 1 => rfl
  | k + 2 => rfl

/-- R188, R692: what the last TABLE_SYNC of a kind does beyond its entries. -/
def kindSynced (die k : Nat) (seq : BitVec 16) (s : State) : State :=
  stopSend die (.ack (BitVec.ofNat 32 (seq.toNat + k * 2 ^ 16)) (stopUnit die) false)
    (tablesTaken die (s.modDie die (fun d => { d with synced := if d.syncDead then 0 else setBit d.synced k true })))

theorem exec_tableSync_of_arrives {s : State} {die : Fin 4} {m : RingMsg} (h : Arrives s die m) {k start : Nat} {last : Bool} {es : List (BitVec 32)}
    (hb : m.body = .tableSync k last start es) : exec (.tableSync die) s =
      .next (if !last then (taken die m s).modDie die (syncEntries k start es) else kindSynced die k m.seq ((taken die m s).modDie die (syncEntries k start es))) := by
  refine done_receive (fun t => if !last then t.modDie die (syncEntries k start es) else kindSynced die k m.seq (t.modDie die (syncEntries k start es))) h ?_
  rw [hb, ← syncEntries_eq_match]
  rfl

theorem modDie_of_fixed {s : State} {die : Fin 4} {f : Die → Die} (h : f (s.dies.get die) = s.dies.get die) : s.modDie die f = s := by
  rw [modDie_set, h]
  have hset : s.dies.set die (s.dies.get die) = s.dies := Vector.set_getElem_self _
  rw [hset]

theorem withdraws_eta {d : Die} {l : List Withdrawal} (h : d.withdraws = l) : { d with withdraws := l } = d := by
  subst h
  rfl

theorem Guard.holds_iff {g : Guard} {uid : Nat} : g.holds uid = true ↔ ∃ r ∈ g.reqs, r.uid = uid ∧ ∀ t, r.stage ≠ .discardOut t := by
  rw [Guard.holds, List.any_eq_true]
  refine exists_congr fun r => and_congr_right fun _ => ?_
  rw [Bool.and_eq_true, beq_iff_eq]
  refine and_congr_right fun _ => ?_
  cases r.stage <;> simp

/-- R151: a withdrawal that waits for nothing: each request it names has completed, or only its discarded answer is out. -/
theorem live_isEmpty_iff {w : Withdrawal} {s : State} : (w.live s).isEmpty = true ↔ ∀ q ∈ w.waits, (s.guardN q.1).holds q.2 = false := by
  rw [List.isEmpty_iff, Withdrawal.live, List.filter_eq_nil_iff]
  simp

section
variable {s : State} {die : Fin 4} {w : Withdrawal} (hup : s.ports.rstCold = false) (hr : (s.dies.get die).inReset = false)
  (hw : (s.dies.get die).withdraws = [w])
include hup hr hw

theorem exec_withdrawalDrained_of_one (b : Bool) (hb : (w.live s).isEmpty = b) : exec (.withdrawalDrained die) s = .next (
    forEach (bif b then [w] else []) (fun w t => stopSend die (.ack w.opId (stopUnit die) false)
      (t.modDie die (fun x => { x with ops := mapIf (fun o => o.1 == w.opId) (fun o => (o.1, true)) x.ops })))
      (s.modDie die (fun x => { x with withdraws := x.withdraws.filter (fun w => !(w.live s).isEmpty) }))) := by
  refine congrArg done ((whenUp_up _ hup).trans ((if_neg (by simp [hr])).trans ?_))
  have hfilter : (s.dies.get die).withdraws.filter (fun w => (w.live s).isEmpty) = bif b then [w] else [] := by
    rw [hw, List.filter_singleton, hb]
  exact congrArg (fun l => forEach l _ _) hfilter

end

/-- Settles O28: an update by its operation's record at the stop, a TABLE_SYNC by its LAST, a withdrawal by the requests it waits for. -/
theorem tableUpdatesAreAppliedOnceAndAcknowledged : Obligations.TableUpdatesAreAppliedOnceAndAcknowledged := by
  refine ⟨fun s die m u c op f r h hu hc => ?update, fun s die m u v k last start es h hu hb hv => ?sync,
    fun s die w hup hr hw => ⟨fun hq => ?drained, fun q hq r hr' hid hst => ?waiting⟩⟩
  case update =>
    have hexec : exec c s = .next (applyUpdate die op r f u) := by
      subst hu
      rcases hc with ⟨rfl, rfl, st, e, hb, hf⟩ | ⟨rfl, rfl, ⟨mo, l, h', hb, hf⟩ | ⟨mo, l, h', hb, hf⟩ | ⟨mo, l, h', hb, hf⟩⟩
      · exact exec_streamSet_of_arrives h hb hf
      · exact exec_readerSet_of_arrives h hb hf
      · exact exec_readerSet_of_arrives h hb hf
      · exact exec_readerSet_of_arrives h hb hf
    rw [hexec]
    obtain ⟨hagain, hpending, hnow, hlater⟩ := applyUpdate_cases die op r f u
    exact ⟨fun ha => congrArg _ (hagain ha), fun ha => congrArg _ (hpending ha), fun ha hw => congrArg _ (hnow ha hw), fun ha hw => congrArg _ (hlater ha hw)⟩
  case sync =>
    subst hu hv
    rw [exec_tableSync_of_arrives h hb]
    cases last <;> rfl
  case drained =>
    have hlive : (w.live s).isEmpty = true := live_isEmpty_iff.2 fun q hq' => by
      rw [Bool.eq_false_iff, Ne, Guard.holds_iff]
      rintro ⟨r, hr', hid, hst⟩
      obtain ⟨t, ht⟩ := hq q hq' r hr' hid
      exact hst t ht
    rw [exec_withdrawalDrained_of_one hup hr hw true hlive]
    simp only [modDie_set, hw, List.filter_singleton, hlive]
    rfl
  case waiting =>
    have hlive : (w.live s).isEmpty = false := by
      rw [Bool.eq_false_iff, Ne, live_isEmpty_iff]
      intro hno
      have := hno q hq
      rw [Guard.holds_iff.2 ⟨r, hr', hid, hst⟩] at this
      cases this
    rw [exec_withdrawalDrained_of_one hup hr hw false hlive]
    refine congrArg _ (modDie_of_fixed ?_)
    rw [hw, List.filter_singleton, hlive]
    exact withdraws_eta hw

end Sys2Proof.Machine
end

section
/-!
PROOFS. The key service on the ring: its answers to KEY_REQs, the messages it sends as the counts allow (R118, R137, R138, R154, R160, R169, R176, R265,
R297, R298), and the ends of its broadcasts (R152, R158, R166 to R168, R184, R590, R617, R693).
-/

namespace Sys2Proof.Machine
open Sys2Proof

/-- R183: a message that reaches the head is applied by the command of its type to the state in which the head has taken it. -/
theorem done_headReceive {s : State} {m : RingMsg} {ms : List RingMsg} {k : RingMsg → Option (State → State)} (f : State → State) (h : Reaches s m ms)
    (hk : k m = some f) : done (whenUp s (headReceive k)) = .next (f (takenAtHead m ms s)) := by
  obtain ⟨hup, -⟩ := id h
  exact congrArg done ((whenUp_up _ hup).trans (headReceive_reaches h hk))

theorem exec_keyReq_of_reaches {s : State} {m : RingMsg} {ms : List RingMsg} {d : Nat} {w b : Bool} (h : Reaches s m ms) (hb : m.body = .keyReq d w b) :
    exec .keyReq s = .next ((takenAtHead m ms s).modHead (fun h => { h with admitted := h.admitted ++ [m] })) :=
  done_headReceive (State.modHead (fun h => { h with admitted := h.admitted ++ [m] })) h (by rw [hb])

/-! ### Answers -/

section
variable {s : State} {m : RingMsg} {ms : List RingMsg} {d : Nat} {w b : Bool} {ecc : BitVec 2}

/-- R137, R298: the answer that the key service gives to a KEY_REQ, `t` being the state without it: the live generation asked for, or KEY_NONE. -/
def keyAnswer (m : RingMsg) (d : Nat) (w b : Bool) (ecc : BitVec 2) (s t : State) : State :=
  match (s.dom d).bind (fun r => (answerEntry r w b).map (fun e => (r, e))) with
  | none => headSend m.src (.keyNone d w b) t
  | some (r, e) =>
    if e.gen == r.newest && rotateUnsent s d then s
    else if 1 < ecc.toNat || r.unreadable e then headSend m.src (.keyNone d w b) (markLost d e.gen (1 < ecc.toNat) t)
    else headSend m.src (.keyFill e) (t.modVault (fun v => { v with eccRecent := v.eccRecent || ecc == 1 }))

theorem keyAnswer_of_none (t : State) (h : ∀ r, s.dom d = some r → answerEntry r w b = none) :
    keyAnswer m d w b ecc s t = headSend m.src (.keyNone d w b) t := by
  have hnone : (s.dom d).bind (fun r => (answerEntry r w b).map (fun e => (r, e))) = none := by
    cases hd : s.dom d with
    | none => rfl
    | some r => rw [Option.bind_some, h r hd]; rfl
  rw [keyAnswer, hnone]

theorem keyAnswer_of_entry (t : State) {r : DomRec} {e : Entry} (hr : s.dom d = some r) (he : answerEntry r w b = some e) :
    keyAnswer m d w b ecc s t =
      if e.gen == r.newest && rotateUnsent s d then s
      else if 1 < ecc.toNat || r.unreadable e then headSend m.src (.keyNone d w b) (markLost d e.gen (1 < ecc.toNat) t)
      else headSend m.src (.keyFill e) (t.modVault (fun v => { v with eccRecent := v.eccRecent || ecc == 1 })) := by
  rw [keyAnswer, hr, Option.bind_some, he]
  rfl

section
variable (hup : s.ports.rstCold = false) (hq : s.head.admitted = m :: ms) (hb : m.body = .keyReq d w b)
include hup hq hb

theorem exec_keyServiceAnswer_of_keyReq : exec (.keyServiceAnswer ecc) s = .next (
    if !ksUp s || storePending s d then s else keyAnswer m d w b ecc s (s.modHead (fun h => { h with admitted := ms }))) := by
  refine congrArg done ((whenUp_up _ hup).trans ?_)
  rw [hq]
  dsimp only
  rw [hb]
  rfl

end

end

theorem dom_id {s : State} {d : Nat} {r : DomRec} (h : s.dom d = some r) : r.id = d := by
  simpa using List.find?_some h

theorem unreadable_iff {r : DomRec} {e : Entry} :
    r.unreadable e = true ↔ e.gen ∈ r.eccBad ∨ e.gen ∈ r.lostGen ∨ e.bindOk r.id = false := by
  simp [DomRec.unreadable, or_assoc]

theorem ecc_corrected (ecc : BitVec 2) : (ecc == 1) = decide (ecc.toNat = 1) := by
  revert ecc
  decide

/-- R169, R265: a descriptor is sent to its guard. -/
def descriptorSent (x : HeldDesc) (v : State) : State :=
  headSend x.guard (.sweepCmd x.dsweep x.domain x.first x.count x.sweepId)
    (v.modKs (fun k => { k with descs := mapIf (fun y => y.sweepId == x.sweepId) (fun y => { y with sent := true }) k.descs }))

/-- R176: the one-time key of a guard's domain sweep has been drawn. -/
def descriptorKeyed (x : HeldDesc) (v : State) : State :=
  v.modKs (fun k => { k with descs := mapIf (fun y => y.guard == x.guard && y.domain == x.domain && y.dsweep) (fun y => { y with keyed := true }) k.descs })

section
variable {s : State} (hup : s.ports.rstCold = false)
include hup

theorem exec_retireDequeue_of_waiting {r : Retire} {q : List Retire} (h : s.ks.retireQ = r :: q) : exec .retireDequeue s = .next (
    if 16 ≤ retiresOut s || !s.ks.held.isEmpty then s
    else settle (startOp (retireOp r.first r.last r.older) (s.modKs (fun k => { k with retireQ := q })))) := by
  refine congrArg done ((whenUp_up _ hup).trans ?_)
  rw [h]

theorem exec_descriptorSend_of_due {x : HeldDesc} (hk : ksUp s = true)
    (hx : s.ks.descs.find? (fun x => !x.sent && heldBy s x.guard x.dsweep < 16 && !(s.guardN x.guard).inReset && !storePending s x.domain) = some x) :
    exec .descriptorSend s = .next (
      if !x.dsweep || x.keyed then descriptorSent x s
      else if !drawNow s then s
      else
        match drawBytes 96 s with
        | (none, t) => t
        | (some keys, t) => descriptorSent x (headSend x.guard (.keyFill (entryOf keys 8191 0 .seal false)) (descriptorKeyed x t))) := by
  refine congrArg done ((whenUp_up _ hup).trans ((if_neg (by simp [hk])).trans ?_))
  rw [hx]
  rfl

end

/-- Settles O29: the answer by the domain's record and the state of its store, and what is sent next by the counts. -/
theorem theKeyServiceAnswersKeyRequests : Obligations.TheKeyServiceAnswersKeyRequests := by
  refine ⟨fun s m ms d w b h hb => exec_keyReq_of_reaches h hb, fun s m ms d w b u ecc hup hq hb hu => ?answer, fun s r q hup h => ⟨fun hn => ?full, fun hn hh => ?retire⟩,
    fun s x mark cmd hup hk hx hcmd hmark => ?desc⟩
  case answer =>
    subst hu
    have hexec := exec_keyServiceAnswer_of_keyReq (ecc := ecc) hup hq hb
    refine ⟨fun hwait => ?wait, fun hk hp => ?_⟩
    case wait =>
      rw [hexec, if_pos]
      rcases hwait with h | h <;> simp [h]
    rw [if_neg (by simp [hk, hp])] at hexec
    refine ⟨fun hnone => ?none, fun r e hr he => ?_⟩
    case none => rw [hexec, keyAnswer_of_none _ hnone]; rfl
    rw [keyAnswer_of_entry _ hr he] at hexec
    refine ⟨fun hn hrot => ?unsent, fun hsent hecc hbad hlost hbind => ?fill, fun hsent hlost => ?lost⟩
    case unsent => rw [hexec, if_pos (by simp [hn, hrot])]
    all_goals
      have hsent' : ¬(e.gen == r.newest && rotateUnsent s d) = true := by
        rw [Bool.and_eq_true, beq_iff_eq]
        rintro ⟨hn, hrot⟩
        rcases hsent with h | h
        · exact h hn
        · rw [h] at hrot
          exact Bool.false_ne_true hrot
      rw [if_neg hsent'] at hexec
    case fill =>
      have hread : ¬(decide (1 < ecc.toNat) || r.unreadable e) = true := by
        rw [Bool.or_eq_true, unreadable_iff, dom_id hr, decide_eq_true_eq]
        rintro (h | h | h | h)
        · omega
        · exact hbad h
        · exact hlost h
        · rw [hbind] at h
          exact Bool.false_ne_true h.symm
      rw [hexec, if_neg hread, ecc_corrected]
      rfl
    case lost =>
      have hread : (decide (1 < ecc.toNat) || r.unreadable e) = true := by
        rw [Bool.or_eq_true, unreadable_iff, dom_id hr, decide_eq_true_eq]
        exact hlost.imp_left (fun h => h)
      rw [hexec, if_pos hread]
      rfl
  case full =>
    rw [exec_retireDequeue_of_waiting hup h, if_pos]
    rcases hn with h | h <;> simp [h]
  case retire => rw [exec_retireDequeue_of_waiting hup h, if_neg (by simp [hh]; omega)]; rfl
  case desc =>
    obtain rfl : cmd = descriptorSent x := funext hcmd
    obtain rfl : mark = descriptorKeyed x := funext hmark
    rw [exec_descriptorSend_of_due hup hk hx]
    refine ⟨fun h => ?_, fun hd hkeyed => ?_⟩
    · rw [if_pos]
      rcases h with h | h <;> simp [h]
    · rw [if_neg (by simp [hd, hkeyed])]
      refine ⟨fun hn => ?_, fun hn t ht => ?_, fun hn keys t ht => ?_⟩
      · rw [hn]; rfl
      · rw [hn, ht]; rfl
      · rw [hn, ht]; rfl

/-! ### Broadcasts -/

/-- R184: what the head does with a RING_ERR. -/
def replayed (exp : BitVec 16) (unit : Nat) (t : State) : State :=
  if t.head.replay.any (fun x => x.seq == exp) then
    forEach (t.head.replay.filter (fun x => (x.seq - exp).toNat < 2 ^ 15)).reverse (ringTo (firstStop t)) t
  else if exp == t.head.seq then t
  else settle (raise true kDie (unit - 0x80) fRingLost 0x21 exp.toNat (fenceAll true (guardsOf (unit - 0x80)) t))

/-- R166: a descriptor that has ended, and what its sweep then does. -/
def descriptorEnded (x : HeldDesc) (visited : Nat) (failed : BitVec 32) (t : State) : State :=
  settle (sweepEnded x.domain (rekeyEnded x.domain (onlyIf (!x.dsweep)
    (modDom x.domain (fun r => { r with visited := r.visited + visited, failed := r.failed + failed.toNat })) t)))

section
variable {s : State} {m : RingMsg} {ms : List RingMsg} (h : Reaches s m ms)
include h

theorem exec_ack_of_reaches {op : BitVec 32} {unit : Nat} {dup : Bool} (hb : m.body = .ack op unit dup) :
    exec .ack s = .next (settle ((takenAtHead m ms s).modKs (fun k => countAck op unit k (takenAtHead m ms s).mir.site))) :=
  done_headReceive (fun t => settle (t.modKs (fun k => countAck op unit k t.mir.site))) h (by rw [hb])

theorem exec_ringErr_of_reaches {exp : BitVec 16} {unit : Nat} (hb : m.body = .ringErr exp unit) :
    exec .ringErr s = .next (replayed exp unit (takenAtHead m ms s)) :=
  done_headReceive (replayed exp unit) h (by rw [hb]; rfl)

theorem exec_sweepDone_of_reaches {id : BitVec 32} {visited : Nat} {failed : BitVec 32} {ab : Bool} {x : HeldDesc}
    (hb : m.body = .sweepDone id visited failed ab) (hx : s.ks.descs.find? (fun x => x.sweepId == id && x.sent && x.guard == m.src) = some x) :
    exec .sweepDone s = .next (descriptorEnded x visited failed
      ((takenAtHead m ms s).modKs (fun k => { k with descs := k.descs.filter (fun y => y.sweepId != id) }))) := by
  have hx' : (takenAtHead m ms s).ks.descs.find? (fun x => x.sweepId == id && x.sent && x.guard == m.src) = some x := by rw [takenAtHead_ks, hx]
  refine (done_headReceive (fun t => match t.ks.descs.find? (fun x => x.sweepId == id && x.sent && x.guard == m.src) with
    | none => t
    | some x => descriptorEnded x visited failed (t.modKs (fun k => { k with descs := k.descs.filter (fun y => y.sweepId != id) }))) h
      (by rw [hb]; rfl)).trans ?_
  rw [hx']

end

section
variable {s : State} {op : BitVec 32} {sync : Bool} {o : Broadcast} (hup : s.ports.rstCold = false) (ho : s.op op sync = some o)
include hup ho

theorem exec_broadcastResend_of_op : exec (.broadcastResend op sync) s = .next (
    if o.resent || !s.head.attached then s
    else match o.kind with
      | .sync die kind => sendSync die kind o.msgs (modOp op sync (fun x => { x with resent := true }) (reachTime (o.sentAt + 50) s))
      | _ => forEach o.msgs headAll (modOp op sync (fun x => { x with resent := true }) (reachTime (o.sentAt + 50) s))) := by
  refine congrArg done ((whenUp_up _ hup).trans ?_)
  rw [ho] <;> rfl

theorem exec_ackTimeout_of_unsent (h : o.resent = false) : exec (.ackTimeout op sync) s = .next s := by
  refine congrArg done ((whenUp_up _ hup).trans ?_)
  rw [ho]
  exact if_pos (by rw [h]; rfl)

end

/-- R158, R184: a guard that has not acknowledged is fenced, with its fault. -/
def guardTimedOut (code : Nat) (detail : Nat) (g : Nat) (u : State) : State := raise true kGuard (unitGuard g) code 1 detail (fenceGuard true true g u)

/-- R188, R693: a stop that has not acknowledged a TABLE_SYNC. -/
def syncTimedOut (op : BitVec 32) (type d : Nat) (t : State) : State :=
  (stopTimeout false op type d t).modDie d (fun x => { x with synced := 0, syncDead := true })

/-- R158, R184, R188, R590: what the end of its time does to the units that have not acknowledged an operation. -/
def missesTimedOut (op : BitVec 32) (o : Broadcast) (s : State) : State :=
  let type := ((o.msgs.head?).map RingBody.code).getD 0
  match o.kind with
  | .retire _ _ _ => forEach o.missG (guardTimedOut fRetireTimeout op.toNat) s
  | .rotate _ => forEach o.missG (guardTimedOut fAckTimeout (op.toNat + type * 2 ^ 32)) s
  | .stream _ w _ => forEach o.missS (stopTimeout w op type) s
  | .reader _ w _ => forEach o.missS (stopTimeout w op type) s
  | .sync _ _ => forEach o.missS (syncTimedOut op type) s

theorem exec_ackTimeout_of_resent {s : State} {op : BitVec 32} {sync : Bool} {o : Broadcast} (hup : s.ports.rstCold = false) (ho : s.op op sync = some o)
    (h : o.resent = true) : exec (.ackTimeout op sync) s =
      .next (settle (modOp op sync (fun x => { x with missG := [], missS := [] }) (missesTimedOut op o (reachTime (o.sentAt + 100) s)))) := by
  refine congrArg done ((whenUp_up _ hup).trans ?_)
  rw [ho]
  exact if_neg (by rw [h]; decide)

theorem domState_of_dom {s : State} {d : Nat} {r : DomRec} (h : s.dom d = some r) : domState s d = r.state := by
  rw [domState, h]
  rfl

theorem exec_teardownDrainEnd_of_drained {s : State} {d : BitVec 13} {r : DomRec} (hup : s.ports.rstCold = false) (hr : s.dom d.toNat = some r)
    (hs : r.state = .tearDrain) (hreading : r.reading = false) (hops : domainOps s d.toNat = false) (hjobs : ∀ j ∈ s.mower.run, j.domain ≠ d.toNat) :
    exec (.teardownDrainEnd d) s = .next (settle (sweepEnded d.toNat (addDescs true d.toNat r.regions
      (commitDom d.toNat [] [] (modDom d.toNat (fun r => { r with state := .tearSweep }) s))))) := by
  have hrun : s.mower.run.any (fun j => j.domain == d.toNat) = false := by
    rw [List.any_eq_false]
    intro j hj
    simpa using hjobs j hj
  refine congrArg done ((whenUp_up _ hup).trans ((if_neg ?_).trans ?_))
  · rw [domState_of_dom hr, hs, hops, hr, hrun]
    simp [hreading]
  · rw [hr]
    rfl

/-- Settles O30: each operation by its kind, whether it has been sent again, and what has acknowledged it. -/
theorem broadcastsEndByAcknowledgementOrTimeout : Obligations.BroadcastsEndByAcknowledgementOrTimeout := by
  refine ⟨fun s m ms op unit dup h hb => ?ack, fun s op sync o hup ho => ⟨fun hn => ?notResent, fun hr ha hk => ?resend, fun d k hr ha hk => ?resendSync,
      fun hr => exec_ackTimeout_of_unsent hup ho hr, fun type done' hr htype hdone => ?timeout⟩,
    fun s m ms exp unit t h hb ht => ?ringErr, fun s m ms id visited failed ab x t h hb hx ht => ?sweepDone,
    fun s d r hup hr hs hreading hops hjobs => exec_teardownDrainEnd_of_drained hup hr hs hreading hops hjobs⟩
  case ack =>
    rw [exec_ack_of_reaches h hb, (takenAtHead_only m ms s).mir_eq (by decide)]
  case notResent =>
    rw [exec_broadcastResend_of_op hup ho, if_pos]
    rcases hn with h | h <;> simp [h]
  case resend =>
    rw [exec_broadcastResend_of_op hup ho, if_neg (by simp [hr, ha])]
    cases hkind : o.kind with
    | sync d k => exact absurd hkind (hk d k)
    | _ => rfl
  case resendSync => rw [exec_broadcastResend_of_op hup ho, if_neg (by simp [hr, ha]), hk]
  case timeout =>
    subst htype
    obtain rfl : done' = fun v => settle (modOp op sync (fun x => { x with missG := [], missS := [] }) v) := funext hdone
    rw [exec_ackTimeout_of_resent hup ho hr, missesTimedOut]
    refine ⟨fun d f l b hk hb => ?_, fun d hk => ?_, fun d w k hk => ?_, fun d k hk => ?_⟩
    · rw [hk, hb]; rfl
    · rw [hk]; rfl
    · rcases hk with hk | hk <;> rw [hk]
    · rw [hk]; rfl
  case ringErr =>
    subst ht
    rw [exec_ringErr_of_reaches h hb, replayed]
    refine ⟨fun ⟨x, hx, he⟩ => ?_, fun hno => ?_⟩
    · rw [if_pos (List.any_eq_true.2 ⟨x, hx, by simp [he]⟩)]
    · have hany : (takenAtHead m ms s).head.replay.any (fun x => x.seq == exp) = false := by
        rw [List.any_eq_false]
        intro x hx
        simpa using hno x hx
      rw [hany, if_neg (by decide)]
      exact ⟨fun he => by rw [if_pos (beq_iff_eq.2 he)], fun he => by rw [if_neg (by simpa using he)]⟩
  case sweepDone =>
    subst ht
    rw [exec_sweepDone_of_reaches h hb hx, descriptorEnded]
    exact ⟨fun hd => by rw [hd]; rfl, fun hd => by rw [hd]; rfl⟩

end Sys2Proof.Machine
end

section
/-!
PROOFS. Requests of the operator and of tenants about domains and streams (R115 to R123, R131, R132, R145 to R147, R163, R168, R173 to R175, R199, R212,
R296, R441 to R444, R461): each is decided by its body in the state in which it has been heard.
-/

namespace Sys2Proof.Machine
open Sys2Proof

/-! ### How a request comes to be decided -/

section
variable {s : State} {r : MsgRule} {n sess : Nat} {tag : BitVec 32} {body : Bytes} {x : Session} {w : Waiter} (k : Waiter → Bytes → State → State)
  (hw : w = asker r sess tag) (hx : Asks s r sess x) (hl : body.length = n)
include hw hx hl

theorem done_message (k : Session → Waiter → State → State) :
    done (whenUp s (onMessage r (exactly n) sess tag body k)) = .next (k x w (asked sess s)) := by
  subst hw
  exact congrArg done ((whenUp_asks _ hx).trans (onMessage_exactly hx hl))

/-- R441: a request that no region list holds up is decided at once. -/
theorem done_inOrder (ho : AtOnce s w body) : done (whenUp s (onMessage r (exactly n) sess tag body (fun _ w => inOrder w body (k w body)))) =
    .next (k w body (asked sess s)) := by
  refine (done_message hw hx hl _).trans (congrArg _ ?_)
  subst hw
  exact inOrder_once ho

theorem done_inOrder_settle (ho : AtOnce s w body) :
    done (whenUp s (onMessage r (exactly n) sess tag body (fun _ w s => settle (inOrder w body (k w body) s)))) =
      .next (settle (k w body (asked sess s))) := by
  refine (done_message hw hx hl _).trans (congrArg _ (congrArg settle ?_))
  subst hw
  exact inOrder_once ho

end

/-! ### A request that has been heard leaves the records as they are -/

section
variable (sess : Nat) (s : State)

@[simp] theorem asked_ks : (asked sess s).ks = s.ks := rfl
@[simp] theorem asked_guards : (asked sess s).guards = s.guards := rfl
@[simp] theorem asked_fuse : (asked sess s).fuse = s.fuse := rfl
@[simp] theorem asked_mower : (asked sess s).mower = s.mower := rfl
@[simp] theorem dom_asked (d : Nat) : (asked sess s).dom d = s.dom d := rfl
@[simp] theorem domState_asked (d : Nat) : domState (asked sess s) d = domState s d := rfl
@[simp] theorem streamNow_asked (st : Nat) : streamNow (asked sess s) st = streamNow s st := rfl
@[simp] theorem domAlive_asked (d : Nat) : domAlive (asked sess s) d = domAlive s d := rfl
@[simp] theorem custody_asked (d : Nat) : custody (asked sess s) d = custody s d := rfl
@[simp] theorem model_asked (d : Nat) : (asked sess s).model d = s.model d := rfl
@[simp] theorem guardN_asked (g : Nat) : (asked sess s).guardN g = s.guardN g := rfl
@[simp] theorem openOk_asked : openOk (asked sess s) = openOk s := rfl
@[simp] theorem seedRefused_asked (d : Nat) : seedRefused (asked sess s) d = seedRefused s d := rfl

end

/-! ### Creation -/

theorem createMode_seal (s : State) (d mode : Nat) (scratch : Bool) (h : mode ≤ 1) : createMode s d mode scratch = some .seal := if_pos h

theorem createMode_of_model {s : State} {d mode : Nat} {scratch : Bool} (h : 1 < mode) (hd : 4096 ≤ d) : createMode s d mode scratch = none :=
  (if_neg (by omega)).trans (if_pos hd)

theorem createMode_veil {s : State} {d : Nat} {scratch : Bool} (hd : d < 4096) : createMode s d 2 scratch = some .veil :=
  (if_neg (by omega)).trans ((if_neg (by omega)).trans (if_pos rfl))

theorem createMode_open {s : State} {d : Nat} {scratch : Bool} (hd : d < 4096) :
    createMode s d 3 scratch = if openOk s && scratch then some .open else none :=
  (if_neg (by omega)).trans ((if_neg (by omega)).trans (if_neg (by omega)))

/-- R118, R173, R198: the domain of a creation that nothing refuses. -/
def createdDom (w : Waiter) (r : DomRec) (s : State) : State :=
  if 4096 ≤ r.id then commit [storeFrame (setModel { model := r.id } (setDom r s)) r.id, modelFrameOf (setModel { model := r.id } (setDom r s)) r.id] []
    [(w, eOk)] (setModel { model := r.id } (setDom r s))
  else commitDom r.id [] [(w, eOk)] (setDom r s)

theorem decideCreate_of_free {w : Waiter} {body : Bytes} {s : State} (hflags : fieldLe body 3 1 ≤ 1) (hmode : fieldLe body 2 1 ≤ 3)
    (hd : fieldLe body 0 2 < 4352) (hfree : domState s (fieldLe body 0 2) = .free) : decideCreate w body s =
      match createMode s (fieldLe body 0 2) (fieldLe body 2 1) (fieldLe body 3 1 == 1) with
      | none => refuse w eKind s
      | some m => createdDom w { id := fieldLe body 0 2, mode := m, scratch := fieldLe body 3 1 == 1 } s :=
  (if_neg (by omega)).trans ((if_neg (by omega)).trans (if_neg (by simp [hfree])))

/-- R147: the withdrawal of a proposal is decided. -/
def decideWithdraw (w : Waiter) (body : Bytes) (s : State) : State :=
  if fieldLe body 2 2 ≠ 0 then refuse w eReserved s
  else if entryState (streamNow s (fieldLe body 0 2)) ≠ 1 then refuse w eState s
  else commit [] [streamOp (fieldLe body 0 2) 0 false (entryDomain (streamNow s (fieldLe body 0 2))) none] [(w, eOk)] s

/-- R147: an operator's unbinding is decided. -/
def decideOperUnbind (w : Waiter) (body : Bytes) (s : State) : State :=
  if fieldLe body 2 2 ≠ 0 then refuse w eReserved s
  else if entryState (streamNow s (fieldLe body 0 2)) ≠ 2 then refuse w eState s
  else settle (unbind w (fieldLe body 0 2) s)

/-- Settles O31: each request's checks in the order of its row. -/
theorem operatorRequestsAreDecidedByTheirBodies : Obligations.OperatorRequestsAreDecidedByTheirBodies := by
  intro s sess tag body x w u ref d st hu href hd hst
  obtain rfl : ref = fun c => refuse w c u := funext href
  subst hu hd hst
  refine ⟨fun mode flags hw hx hl ho hmode hflags => ?create, fun dom rights hw hx hl ho hdom hrights => ?propose, fun hw hx hl => ?withdraw,
    fun hw hx hl => ?unbind, fun hw hx hl ho => ?teardown, fun hw hx hl ho => ?regions, fun hw hx hl ho => ?ingest, fun l dst hw hx hl ho hl' hdst => ?link⟩
  case create =>
    subst hmode hflags
    have hexec : exec (.domainCreate sess tag body) s = .next (decideCreate w body (asked sess s)) := done_inOrder decideCreate hw hx hl ho
    rw [hexec]
    refine ⟨fun h => congrArg _ (if_pos h), fun hm hf hd => congrArg _ ((if_neg (by omega)).trans (if_pos hd)),
      fun hm hf hd hs => congrArg _ ((if_neg (by omega)).trans ((if_neg (by omega)).trans (if_pos hs))), fun hd hf hs => ⟨fun hk => ?kind, fun m hm => ?created⟩⟩
    case kind =>
      have hnone : createMode (asked sess s) (fieldLe body 0 2) (fieldLe body 2 1) (fieldLe body 3 1 == 1) = none := by
        rcases hk with ⟨h2, hd⟩ | ⟨h3, hd | hno | hf⟩
        · exact createMode_of_model (by omega) hd
        · exact createMode_of_model (by omega) hd
        · rw [h3, createMode, openOk_asked, hno]
          simp
        · rw [h3, createMode, hf]
          simp
      rw [decideCreate_of_free (s := asked sess s) hf (by omega) hd hs, hnone]
    case created =>
      have hmode : createMode (asked sess s) (fieldLe body 0 2) (fieldLe body 2 1) (fieldLe body 3 1 == 1) = some m := by
        rcases hm with ⟨h1, rfl⟩ | ⟨h2, hd, rfl⟩ | ⟨h3, hd, ho, hf, rfl⟩
        · exact createMode_seal _ _ _ _ h1
        · rw [h2, createMode_veil hd]
        · rw [h3, createMode_open hd, openOk_asked, ho, hf]
          rfl
      rw [decideCreate_of_free (s := asked sess s) hf (by omega) hd hs, hmode]
      refine ⟨fun hd => congrArg _ (if_neg (by simpa using hd)), fun hd v hv => ?_⟩
      subst hv
      exact congrArg _ (if_pos hd)
  case propose =>
    subst hdom hrights
    have hexec : exec (.streamPropose sess tag body) s = .next (decidePropose w body (asked sess s)) := done_inOrder decidePropose hw hx hl ho
    rw [hexec]
    refine ⟨fun h => congrArg _ (if_pos h), fun hr h0 => ⟨fun hd => congrArg _ ((if_neg (by omega)).trans (if_pos hd)),
      fun hd h => congrArg _ ((if_neg (by omega)).trans ((if_neg (by omega)).trans (if_pos (by simpa using h)))),
      fun hd he ha => congrArg _ ((if_neg (by omega)).trans ((if_neg (by omega)).trans (if_neg (by simp [he, ha]))))⟩⟩
  case withdraw =>
    have hexec : exec (.streamWithdraw sess tag body) s = .next (decideWithdraw w body (asked sess s)) := done_message hw hx hl _
    rw [hexec]
    exact ⟨fun h => congrArg _ (if_pos h), fun h he => congrArg _ ((if_neg (by omega)).trans (if_pos he)),
      fun h he => congrArg _ ((if_neg (by omega)).trans (if_neg (by simp [he])))⟩
  case unbind =>
    have hexec : exec (.operatorStreamUnbind sess tag body) s = .next (decideOperUnbind w body (asked sess s)) := done_message hw hx hl _
    rw [hexec]
    exact ⟨fun h => congrArg _ (if_pos h), fun h he => congrArg _ ((if_neg (by omega)).trans (if_pos he)),
      fun h he => congrArg _ ((if_neg (by omega)).trans (if_neg (by simp [he])))⟩
  case teardown =>
    have hexec : exec (.operatorDomainTeardown sess tag body) s = .next (settle (decideOperTeardown w body (asked sess s))) :=
      done_inOrder_settle decideOperTeardown hw hx hl ho
    rw [hexec]
    exact ⟨fun h => congrArg _ (congrArg settle (if_pos h)), fun h hd => congrArg _ (congrArg settle ((if_neg (by omega)).trans (if_pos hd))),
      fun h hd => congrArg _ (congrArg settle ((if_neg (by omega)).trans (if_neg (by omega))))⟩
  case regions =>
    have hexec : exec (.regionList sess tag body) s = .next (decideRegionList w body (asked sess s)) := done_inOrder decideRegionList hw hx hl ho
    rw [hexec]
    refine ⟨fun h => congrArg _ (if_pos h), fun h hd => congrArg _ ((if_neg (by omega)).trans (if_pos hd)),
      fun h hd hs => congrArg _ ((if_neg (by omega)).trans ((if_neg (by omega)).trans (if_pos hs))), fun h hd hs => ?_⟩
    have hlist : decideRegionList w body (asked sess s) = match listRefused (fieldLe body 8 8) (fieldLe body 4 4) with
        | some c => refuse w c (asked sess s)
        | none => readRegions (.rekey w (fieldLe body 0 2) (fieldLe body 8 8) (fieldLe body 4 4)) (fieldLe body 0 2) (fieldLe body 8 8) (fieldLe body 4 4)
            (asked sess s) :=
      (if_neg (by omega)).trans ((if_neg (by omega)).trans ((if_neg (by simp [hs])).trans rfl))
    rw [hlist]
    exact ⟨fun c hc => by rw [hc], fun hc => by rw [hc]⟩
  case ingest =>
    have hexec : exec (.ingestStart sess tag body) s = .next (decideIngestStart w body (asked sess s)) := done_inOrder decideIngestStart hw hx hl ho
    rw [hexec]
    refine ⟨fun h => congrArg _ (if_pos h), fun h0 h1 => ⟨fun h => congrArg _ ((if_neg (by omega)).trans (if_pos h)),
      fun h2 h3 h => congrArg _ ((if_neg (by omega)).trans ((if_neg (by omega)).trans (if_pos h))), fun h2 h3 hc hj => ?_⟩⟩
    have hlists : decideIngestStart w body (asked sess s) =
        match listRefused (fieldLe body 8 8) (fieldLe body 4 4), listRefused (fieldLe body 24 8) (fieldLe body 16 4) with
        | some c, _ => refuse w c (asked sess s)
        | none, some c => refuse w c (asked sess s)
        | none, none => if 256 < fieldLe body 16 4 then refuse w eRegion (asked sess s)
            else readRegions (.ingestStage w (fieldLe body 0 2) (fieldLe body 24 8) (fieldLe body 16 4)) (fieldLe body 0 2) (fieldLe body 8 8)
              (fieldLe body 4 4) (asked sess s) :=
      (if_neg (by omega)).trans ((if_neg (by omega)).trans ((if_neg (by simp [hc, hj])).trans rfl))
    rw [hlists]
    refine ⟨fun c h => by rw [h], fun c h h' => by rw [h, h'], fun h h' hn => ?_, fun h h' hn => ?_⟩
    · rw [h, h']
      exact congrArg _ (if_pos hn)
    · rw [h, h']
      exact congrArg _ (if_neg (by omega))
  case link =>
    subst hl' hdst
    have hexec : exec (.linkAssign sess tag body) s = .next (decideLinkAssign w body (asked sess s)) := done_inOrder decideLinkAssign hw hx hl ho
    rw [hexec]
    exact ⟨fun h => congrArg _ (if_pos h), fun h hr => congrArg _ ((if_neg (by omega)).trans (if_pos hr)),
      fun h hl hd => congrArg _ ((if_neg (by omega)).trans ((if_neg (by omega)).trans
        (congrArg (fun l => reply w eOk ((asked sess s).modKs (fun k => { k with links := l }))) (if_neg (by omega))))),
      fun h hl hd => congrArg _ ((if_neg (by omega)).trans ((if_neg (by omega)).trans
        (congrArg (fun l => reply w eOk ((asked sess s).modKs (fun k => { k with links := l }))) (if_pos hd))))⟩

end Sys2Proof.Machine
end

section
/-!
PROOFS. Requests of tenants, and the operator's shares and pins (R93, R112, R116, R120 to R123, R131, R132, R146, R147, R149, R168, R296, R441 to R444,
R461).
-/

namespace Sys2Proof.Machine
open Sys2Proof

/-! ### Seeds -/

/-- R442: a seed whose domain and owner are good, by what its wrapping holds. -/
def decideUnwrapped (w : Waiter) (d : Nat) (gen newest : BitVec 32) (seed : Option Bytes) (s : State) : State :=
  match seed with
  | none => refuse w eAuth s
  | some seed =>
    if gen ≠ newest + 1 then refuse w eState s
    else
      match seedRefused s d with
      | some c => refuse w c s
      | none => acceptSeed w d seed s

section
variable {s : State} {w : Waiter} {body : Bytes} {x : Session} (hx : s.sess w.sess = some x)
include hx

theorem decideSeed_of_sess : decideSeed w body s =
    if fieldLe body 2 2 ≠ 0 then refuse w eReserved s
    else if 4095 < fieldLe body 0 2 then refuse w eRange s
    else if ((s.dom (fieldLe body 0 2)).getD { id := fieldLe body 0 2 }).owner.isSome &&
      ((s.dom (fieldLe body 0 2)).getD { id := fieldLe body 0 2 }).owner != x.cred then refuse w eOwner s
    else decideUnwrapped w (fieldLe body 0 2) (bytesVec 32 (slice body 4 4)) ((s.dom (fieldLe body 0 2)).getD { id := fieldLe body 0 2 }).newest
      (keyUnwrap (wrapKey x) (slice body 8 40)) s := by
  rw [decideSeed, hx]
  rfl

end

/-! ### Pins -/

section
variable {s : State} {sess : Nat} {tag : BitVec 32} {body : Bytes} {x : Session} {w : Waiter} (hw : w = asker (operMsg 0x010C) sess tag)
  (hx : Asks s (operMsg 0x010C) sess x) (hl : body.length = 4) (ho : AtOnce s w body)
include hw hx hl ho

theorem exec_pinMsg_of_asks (hp : fieldLe body 1 1 ≠ 0) : exec (.pinMsg sess tag body) s = .next (decidePin w body (asked sess s)) := by
  have honly : ∀ k : State → State, onlyIf (fieldLe body 1 1 != 0) k = k := fun k => funext fun t => if_pos (by simpa using hp)
  refine Eq.trans ?_ (done_inOrder decidePin hw hx hl ho)
  rw [← honly (onMessage _ _ _ _ _ _)]
  rfl

theorem exec_unpinMsg_of_asks (hp : fieldLe body 1 1 = 0) : exec (.unpinMsg sess tag body) s = .next (decidePin w body (asked sess s)) := by
  have honly : ∀ k : State → State, onlyIf (fieldLe body 1 1 == 0) k = k := fun k => funext fun t => if_pos (by simpa using hp)
  refine Eq.trans ?_ (done_inOrder decidePin hw hx hl ho)
  rw [← honly (onMessage _ _ _ _ _ _)]
  rfl

end

/-- R112, R461: a SET_SHARES is decided. -/
def decideShares (w : Waiter) (body : Bytes) (s : State) : State :=
  if fieldLe body 1 3 ≠ 0 then refuse w eReserved s
  else if 39 < fieldLe body 0 1 then refuse w eRange s
  else reply w eOk (s.modGuard (fieldLe body 0 1) (fun x => { x with page := { x.page with share := capShares (bytesVec 32 (slice body 4 4)) }.shareNow }))

/-- Settles O32: each request's checks in the order of its row, the owner's before the state's. -/
theorem tenantRequestsNeedTheDomainsTenant : Obligations.TenantRequestsNeedTheDomainsTenant := by
  intro s sess tag body x w u ref d st hu href
  obtain rfl : ref = fun c => refuse w c u := funext href
  subst hu
  refine ⟨fun r hw hx hl ho hd hr => ?seed, fun rights hw hx hl ho hst hd hrights => ?confirm, fun hw hx hl ho hst hd => ?unbind,
    fun hw hx hl ho hd => ?teardown, fun g hw hx hl ho hg hd => ?pin, fun g share hw hx hl hg hshare => ?shares⟩
  case seed =>
    subst hd hr
    have hexec : exec (.domainSeed sess tag body) s = .next (settle (decideSeed w body (asked sess s))) := done_inOrder_settle decideSeed hw hx hl ho
    obtain ⟨-, hsess, -⟩ := id hx
    have hfind : (asked sess s).sess w.sess = some { x with heard := s.timer, busy := true } := by
      subst hw
      exact asked_find hsess
    rw [hexec, decideSeed_of_sess hfind]
    refine ⟨fun h => congrArg _ (congrArg settle (if_pos h)), fun h hd => congrArg _ (congrArg settle ((if_neg (by omega)).trans (if_pos hd))),
      fun h hd ho hne => congrArg _ (congrArg settle ((if_neg (by omega)).trans ((if_neg (by omega)).trans (if_pos ?owner)))), fun h hd hown => ?_⟩
    case owner =>
      rw [dom_asked, ho, Bool.true_and, bne_iff_ne]
      exact hne
    rw [if_neg (by omega), if_neg (by omega), if_neg (?mine : ¬_)]
    case mine =>
      rw [dom_asked, Bool.and_eq_true, bne_iff_ne]
      rintro ⟨hsome, hne⟩
      rcases hown with h | h
      · rw [h] at hsome
        exact Bool.false_ne_true hsome
      · exact hne h
    refine ⟨fun hno => ?_, fun seed hseed => ⟨fun hgen => ?_, fun hgen => ⟨fun c hc => ?_, fun hc => ?_⟩⟩⟩
    · rw [show keyUnwrap (wrapKey { x with heard := s.timer, busy := true }) (slice body 8 40) = none from hno]
      rfl
    all_goals rw [show keyUnwrap (wrapKey { x with heard := s.timer, busy := true }) (slice body 8 40) = some seed from hseed, decideUnwrapped]
    · exact congrArg _ (congrArg settle (if_pos hgen))
    all_goals rw [dom_asked, if_neg (not_not.2 hgen), seedRefused_asked, hc]
  case confirm =>
    subst hst hd hrights
    have hexec : exec (.streamConfirm sess tag body) s = .next (settle (decideConfirm w body (asked sess s))) := done_inOrder_settle decideConfirm hw hx hl ho
    obtain ⟨-, hsess, -⟩ := id hx
    have hten : isTenant (asked sess s) w (fieldLe body 2 2) = isTenant s w (fieldLe body 2 2) := isTenant_asked hsess w _ (by rw [hw]; rfl)
    rw [hexec]
    refine ⟨fun h => congrArg _ (congrArg settle (if_pos h)), fun hr h hd => congrArg _ (congrArg settle ((if_neg (by omega)).trans (if_pos hd))),
      fun hr h hd ht => congrArg _ (congrArg settle ((if_neg (by omega)).trans ((if_neg (by omega)).trans (if_pos (by rw [hten, ht]; rfl))))),
      fun hr h hd ht => ⟨fun he => congrArg _ (congrArg settle ((if_neg (by omega)).trans ((if_neg (by omega)).trans ((if_neg (by rw [hten, ht]; decide)).trans
        (if_pos (.inl he)))))), fun r he hr' hg => ⟨fun hne => ?mismatch, fun h1 h2 h3 => ?confirmed⟩⟩⟩
    all_goals
      have hstate : ¬(entryState (streamNow s (fieldLe body 0 2)) ≠ 1 ∨ ((s.dom (fieldLe body 2 2)).map DomRec.gens).getD [] = []) := by
        rw [hr']
        simp [he, hg]
      refine congrArg _ (congrArg settle ((if_neg (by omega)).trans ((if_neg (by omega)).trans ((if_neg (by rw [hten, ht]; decide)).trans
        ((if_neg hstate).trans ?_)))))
    case mismatch => exact if_pos hne
    case confirmed =>
      refine (if_neg (by rw [streamNow_asked]; simp [h1, h2, h3])).trans ?_
      rw [streamNow_asked, h2, h3]
  case unbind =>
    subst hst hd
    have hexec : exec (.tenantStreamUnbind sess tag body) s = .next (settle (decideTenantUnbind w body (asked sess s))) :=
      done_inOrder_settle decideTenantUnbind hw hx hl ho
    obtain ⟨-, hsess, -⟩ := id hx
    have hten : isTenant (asked sess s) w (fieldLe body 2 2) = isTenant s w (fieldLe body 2 2) := isTenant_asked hsess w _ (by rw [hw]; rfl)
    rw [hexec]
    exact ⟨fun h => congrArg _ (congrArg settle (if_pos h)), fun h hd => congrArg _ (congrArg settle ((if_neg (by omega)).trans (if_pos hd))),
      fun h hd ht => congrArg _ (congrArg settle ((if_neg (by omega)).trans ((if_neg (by omega)).trans (if_pos (by rw [hten, ht]; rfl))))),
      fun h hd ht => ⟨fun he => congrArg _ (congrArg settle ((if_neg (by omega)).trans ((if_neg (by omega)).trans ((if_neg (by rw [hten, ht]; decide)).trans
        (if_pos he))))),
        fun he hed => congrArg _ (congrArg settle ((if_neg (by omega)).trans ((if_neg (by omega)).trans ((if_neg (by rw [hten, ht]; decide)).trans
          (if_neg (by simp [he, hed]))))))⟩⟩
  case teardown =>
    subst hd
    have hexec : exec (.tenantDomainTeardown sess tag body) s = .next (settle (decideTenantTeardown w body (asked sess s))) :=
      done_inOrder_settle decideTenantTeardown hw hx hl ho
    obtain ⟨-, hsess, -⟩ := id hx
    have hten : isTenant (asked sess s) w (fieldLe body 0 2) = isTenant s w (fieldLe body 0 2) := isTenant_asked hsess w _ (by rw [hw]; rfl)
    rw [hexec]
    exact ⟨fun h => congrArg _ (congrArg settle (if_pos h)), fun h hd => congrArg _ (congrArg settle ((if_neg (by omega)).trans (if_pos hd))),
      fun h hd ht => congrArg _ (congrArg settle ((if_neg (by omega)).trans ((if_neg (by omega)).trans (if_pos (by rw [hten, ht]; rfl))))),
      fun h hd ht => congrArg _ (congrArg settle ((if_neg (by omega)).trans ((if_neg (by omega)).trans (if_neg (by rw [hten, ht]; decide)))))⟩
  case pin =>
    subst hg hd
    refine ⟨fun h => ?reserved, fun hp => ?pin, fun hp => ?unpin⟩
    case reserved =>
      rw [exec_pinMsg_of_asks hw hx hl ho (by omega)]
      exact congrArg _ (if_pos h)
    case pin =>
      rw [exec_pinMsg_of_asks hw hx hl ho (by omega)]
      refine ⟨fun h => congrArg _ ((if_neg (by omega)).trans (if_pos h)),
        fun hg hd => ⟨fun h => congrArg _ ((if_neg (by omega)).trans ((if_neg (by omega)).trans (if_pos ?_))),
          fun hb hn => congrArg _ ((if_neg (by omega)).trans ((if_neg (by omega)).trans ((if_neg ?_).trans ?_)))⟩⟩
      · rw [guardN_asked, hp]
        rcases h with h | ⟨h, h'⟩ <;> simp [h]
        exact .inr h'
      · rw [guardN_asked, hp, hb]
        rcases hn with h | h <;> simp [h]
      · rw [if_pos hp]
    case unpin =>
      rw [exec_unpinMsg_of_asks hw hx hl ho hp]
      refine ⟨fun h => congrArg _ ((if_neg (by omega)).trans (if_pos h)),
        fun hg hd hb => congrArg _ ((if_neg (by omega)).trans ((if_neg (by omega)).trans (if_pos (by rw [guardN_asked, hb]; rfl)))),
        fun hg hd hb => congrArg _ ((if_neg (by omega)).trans ((if_neg (by omega)).trans ((if_neg ?_).trans ?_)))⟩
      · rw [guardN_asked, hb, hp]
        simp
      · rw [if_neg (by omega)]
  case shares =>
    subst hg hshare
    have hexec : exec (.setShares sess tag body) s = .next (decideShares w body (asked sess s)) := done_message hw hx hl _
    rw [hexec]
    exact ⟨fun h => congrArg _ (if_pos h), fun h hg => congrArg _ ((if_neg (by omega)).trans (if_pos hg)),
      fun h hg => congrArg _ ((if_neg (by omega)).trans (if_neg (by omega)))⟩

end Sys2Proof.Machine
end

section
/-!
PROOFS. Region lists that have been read (R163, R168, R174, R175, R212, R441, R561, R616) and the sweeps of a guard (R126, R164 to R170, R176, R177,
R187, R192).
-/

namespace Sys2Proof.Machine
open Sys2Proof

/-! ### Region lists -/

section
variable {s : State} {r : RegionRead} (hup : s.ports.rstCold = false) (hr : s.ks.reads.find? (fun r => dmaWhole s r.work) = some r)
include hup hr

theorem exec_regionListRead_of_error {c : BitVec 8} (h : checkRegions (dmaBytes s r.work) = .error c) :
    exec .regionListRead s = .next (refuseRegionRead r c s) := by
  refine congrArg done ((whenUp_up _ hup).trans ?_)
  rw [hr]
  dsimp only
  rw [h]

theorem exec_regionListRead_of_ok {rs : List Region} (h : checkRegions (dmaBytes s r.work) = .ok rs) : exec .regionListRead s = .next (
    if namesWaiting s rs && r.purpose.waiter.isSome then refuseRegionRead r eState s else endRegionRead r (listRead r.purpose rs) s) := by
  refine congrArg done ((whenUp_up _ hup).trans ?_)
  rw [hr]
  dsimp only
  rw [h]

end

/-! ### Descriptors -/

/-- R167, R176: what a SWEEP_CMD does in the guard it names. -/
def descriptorTaken (g : Nat) (ds : Bool) (desc : Desc) (t : State) : State :=
  if (t.guardN g).inReset then t
  else if (t.guardN g).fenced then guardSend g (sweepDoneMsg desc true) t
  else t.modGuard g (fun x => { x with
    sweep := if ds then { x.sweep with dom := x.sweep.dom ++ [desc] } else { x.sweep with rekey := x.sweep.rekey ++ [desc] } })

/-- R168: every rekey descriptor of a domain in a guard ends. -/
def abortSweeps (d g : Nat) (t : State) : State :=
  forEach ((t.guardN g).sweep.rekey.filter (fun x => x.domain == d)) (fun x v => guardSend g (sweepDoneMsg x true) v)
    (t.modGuard g (fun x => { x with sweep := { x.sweep with rekey := x.sweep.rekey.filter (fun y => y.domain != d) } }))

section
variable {s : State} {die : Fin 4} {m : RingMsg} (h : Arrives s die m)
include h

theorem exec_sweepCmd_of_arrives {ds : Bool} {d f c : Nat} {id : BitVec 32} (hb : m.body = .sweepCmd ds d f c id) : exec (.sweepCmd die) s =
    .next (descriptorTaken m.dest ds { sweepId := id, domain := d, first := f, count := c, visited := 0, failed := 0 } (taken die m s)) :=
  done_receive (descriptorTaken m.dest ds { sweepId := id, domain := d, first := f, count := c, visited := 0, failed := 0 }) h (by rw [hb]; rfl)

theorem exec_sweepAbort_of_arrives {d : Nat} (hb : m.body = .sweepAbort d) : exec (.sweepAbort die) s =
    .next (forEach (liveGuards die (taken die m s)) (abortSweeps d) (taken die m s)) :=
  done_receive (fun t => forEach (liveGuards die t) (abortSweeps d) t) h (by rw [hb]; rfl)

end

/-! ### Lines of the rekey sweep -/

/-- R164: what the rekey sweep does to line `a`, the entry of the newest generation being cached and good and that of the older one, where the line
needs it, `old`. -/
def rekeyRead (g : Nat) (new : Entry) (older : Option Bool) (old : Option Entry) (a : Nat) (rdErr : Bool) (data : BitVec 512) (side : BitVec 64)
    (wrErr : Bool) (s : State) : State :=
  if rdErr then rekeyVisited g true (driveBeat g false a 0 0 s)
  else
    match sweepAct new older old a data side with
    | .keep => rekeyVisited g false (driveBeat g false a 0 0 s)
    | .bad => rekeyVisited g true (driveBeat g false a 0 0 s)
    | .write dt sd counts => rekeyVisited g (wrErr && counts) (driveBeat g true a dt sd (driveBeat g false a 0 0 s))

/-- R164: a line that was read without error, of a mode that encrypts, names its domain's older generation. -/
def namesOlder (new : Entry) (older : Option Bool) (rdErr : Bool) (side : BitVec 64) : Bool :=
  !rdErr && new.mode != .open && sideMode side == new.mode.code && older == some (sideGen side)

section
variable {s : State} {g : Fin 40} {rdErr : Bool} {data : BitVec 512} {side : BitVec 64} {wrErr : Bool} {d : Desc} {ds : List Desc} {a : Nat}
  (hup : s.ports.rstCold = false) (hd : (s.guards.get g).sweep.rekey = d :: ds) (ha : a = d.first + d.visited)
include hup hd ha

theorem exec_sweepLine_of_waiting (h : (s.guards.get g).canSweep = false ∨ (s.guards.get g).mayDraw 0 = false ∨ (s.guards.get g).lineHeld a = true) :
    exec (.sweepLine g rdErr data side wrErr) s = .next s := by
  subst ha
  refine congrArg done ((whenUp_up _ hup).trans ?_)
  dsimp only
  rw [guard_get, hd]
  refine if_pos ?_
  rcases h with h | h | h <;> simp [h]

section
variable (hsweep : (s.guards.get g).canSweep = true) (hdraw : (s.guards.get g).mayDraw 0 = true) (hheld : (s.guards.get g).lineHeld a = false)
include hsweep hdraw hheld

theorem exec_sweepLine_of_no_key (hl : (s.guards.get g).newest d.domain = none) :
    exec (.sweepLine g rdErr data side wrErr) s = .next (slotFor g d.domain false false s) := by
  subst ha
  refine congrArg done ((whenUp_up _ hup).trans ?_)
  dsimp only
  rw [guard_get, hd]
  refine (if_neg (by simp [hsweep, hdraw, hheld])).trans ?_
  rw [hl]
  rfl

section
variable {l : KcLine} (hl : (s.guards.get g).newest d.domain = some l) (hb : l.entry.bindOk d.domain = true)
include hl hb

/-- A line that does not name the older generation needs no entry but the newest. -/
theorem exec_sweepLine_of_newest (hn : namesOlder l.entry ((s.guards.get g).olderBit d.domain) rdErr side = false) :
    exec (.sweepLine g rdErr data side wrErr) s =
      .next (rekeyRead g l.entry ((s.guards.get g).olderBit d.domain) none a rdErr data side wrErr s) := by
  subst ha
  refine congrArg done ((whenUp_up _ hup).trans ?_)
  dsimp only
  rw [guard_get, hd]
  refine (if_neg (by simp [hsweep, hdraw, hheld])).trans ?_
  rw [hl]
  dsimp only
  rw [hb, show (!rdErr && l.entry.mode != .open && sideMode side == l.entry.mode.code && (s.guards.get g).olderBit d.domain == some (sideGen side)) = false
    from hn]
  rfl

/-- A line that names the older generation is decided with that generation's entry. -/
theorem exec_sweepLine_of_older {o : KcLine} (hn : namesOlder l.entry ((s.guards.get g).olderBit d.domain) rdErr side = true)
    (ho : (s.guards.get g).lineBit d.domain (sideGen side) = some o) (hob : o.entry.bindOk d.domain = true) :
    exec (.sweepLine g rdErr data side wrErr) s =
      .next (rekeyRead g l.entry ((s.guards.get g).olderBit d.domain) (some o.entry) a rdErr data side wrErr s) := by
  subst ha
  refine congrArg done ((whenUp_up _ hup).trans ?_)
  dsimp only
  rw [guard_get, hd]
  refine (if_neg (by simp [hsweep, hdraw, hheld])).trans ?_
  rw [hl]
  dsimp only
  rw [hb, show (!rdErr && l.entry.mode != .open && sideMode side == l.entry.mode.code && (s.guards.get g).olderBit d.domain == some (sideGen side)) = true
    from hn, if_pos rfl, ho, Option.any_some, hob]
  rfl

end

end

end

section
variable {g : Nat} {new : Entry} {older : Option Bool} {old : Option Entry} {a : Nat} {data : BitVec 512} {side : BitVec 64} {wrErr : Bool} {s : State}

theorem rekeyRead_bad (h : sweepAct new older old a data side = .bad) :
    rekeyRead g new older old a false data side wrErr s = rekeyVisited g true (driveBeat g false a 0 0 s) := by
  rw [rekeyRead, h]
  rfl

theorem rekeyRead_keep (h : sweepAct new older old a data side = .keep) :
    rekeyRead g new older old a false data side wrErr s = rekeyVisited g false (driveBeat g false a 0 0 s) := by
  rw [rekeyRead, h]
  rfl

theorem rekeyRead_write {dt : BitVec 512} {sd : BitVec 64} {counts : Bool} (h : sweepAct new older old a data side = .write dt sd counts) :
    rekeyRead g new older old a false data side wrErr s = rekeyVisited g (wrErr && counts) (driveBeat g true a dt sd (driveBeat g false a 0 0 s)) := by
  rw [rekeyRead, h]
  rfl

variable (hm : sideMode side = new.mode.code)
include hm

theorem sweepAct_keep (hg : sideGen side = new.genBit) : sweepAct new older old a data side = .keep :=
  (if_neg (not_not.2 hm)).trans (if_pos hg)

variable (hg : sideGen side ≠ new.genBit) (ho : older = some (sideGen side))
include hg ho

theorem sweepAct_open (h : new.mode = .open) : sweepAct new older old a data side = .write data (sidecar new a (vecBytes 64 data) side) false :=
  (if_neg (not_not.2 hm)).trans ((if_neg hg).trans ((if_neg (not_not.2 ho)).trans (if_pos h)))

theorem sweepAct_reseal {o : Entry} (h : new.mode ≠ .open) : sweepAct new older (some o) a data side =
    if tagOk o a data side then .write (sealLine new a (decryptLine o a data) side).1 (sealLine new a (decryptLine o a data) side).2 true else .bad :=
  (if_neg (not_not.2 hm)).trans ((if_neg hg).trans ((if_neg (not_not.2 ho)).trans (if_neg h)))

end

/-! ### Lines of a domain sweep -/

section
variable {s : State} {g : Fin 40} {wrErr : Bool} {d d' : Desc} {ds : List Desc} {k : Entry} {a : Nat} {c : BitVec 512 × BitVec 64}
  (hup : s.ports.rstCold = false) (hd : (s.guards.get g).sweep.dom = d :: ds) (hk : (s.guards.get g).sweep.key = some k) (ha : a = d.first + d.visited)
include hup hd hk ha

theorem exec_domainSweepLine_of_waiting (h : (s.guards.get g).canSweep = false ∨ (s.guards.get g).mayDraw 1 = false ∨ (s.guards.get g).lineHeld a = true) :
    exec (.domainSweepLine g wrErr) s = .next s := by
  subst ha
  refine congrArg done ((whenUp_up _ hup).trans ?_)
  dsimp only
  rw [guard_get, hd, hk]
  refine if_pos ?_
  rcases h with h | h | h <;> simp [h]

/-- R169, R170, R192: a line of a domain sweep is written; with the last of the descriptor it ends. -/
theorem exec_domainSweepLine_of_ready (hsweep : (s.guards.get g).canSweep = true) (hdraw : (s.guards.get g).mayDraw 1 = true)
    (hheld : (s.guards.get g).lineHeld a = false) (hc : c = sealLine k a 0 0)
    (hd' : d' = { d with visited := d.visited + 1, failed := if wrErr then satInc d.failed else d.failed }) (b : Bool) (hb : b = decide (d.count ≤ d'.visited)) :
    exec (.domainSweepLine g wrErr) s = .next (onlyIf b (guardSend g (sweepDoneMsg d' false)) ((driveBeat g true a c.1 c.2 s).modGuard g (fun y => { y with
      sweep := { y.sweep with dom := if b then ds else d' :: ds, lines := y.sweep.lines + 1, fails := if wrErr then satInc y.sweep.fails else y.sweep.fails,
                              key := if b && ds.isEmpty then none else y.sweep.key } }))) := by
  subst ha hc hd' hb
  refine congrArg done ((whenUp_up _ hup).trans ?_)
  dsimp only
  rw [guard_get, hd, hk]
  refine (if_neg (by simp [hsweep, hdraw, hheld])).trans ?_
  simp only [decide_eq_true_eq]
  rfl

end

/-- Settles O33: a list by its checks, a descriptor by its guard, and a line by its sidecar and the entries that the guard holds. -/
theorem regionListsAreCheckedAndSweepsVisitEachLine : Obligations.RegionListsAreCheckedAndSweepsVisitEachLine := by
  refine ⟨fun s r hup hr => ⟨fun c hc => exec_regionListRead_of_error hup hr hc, fun rs hrs => ⟨fun hn hw => ?held, fun h => ?read⟩⟩,
    fun s die m u ds d f c id desc h hu hb hdesc => ?cmd, fun s die m u d h hu hb => ?abort,
    fun s g x rdErr data side wrErr d ds a hup hx hd ha => ?rekey, fun s g x wrErr d ds k a c d' hup hx hd hk ha hc hd' => ?domain⟩
  case held => rw [exec_regionListRead_of_ok hup hr hrs, if_pos (by simp [hn, hw])]
  case read =>
    rw [exec_regionListRead_of_ok hup hr hrs, if_neg]
    rcases h with h | h <;> simp [h]
  case cmd =>
    subst hu hdesc
    rw [exec_sweepCmd_of_arrives h hb]
    exact ⟨fun hr => congrArg _ (if_pos hr), fun hr hf => congrArg _ ((if_neg (by simp [hr])).trans (if_pos hf)),
      fun hr hf => congrArg _ ((if_neg (by simp [hr])).trans (if_neg (by simp [hf])))⟩
  case abort =>
    subst hu
    exact exec_sweepAbort_of_arrives h hb
  case rekey =>
    subst hx
    refine ⟨exec_sweepLine_of_waiting hup hd ha, fun hs hm hh => ⟨exec_sweepLine_of_no_key hup hd ha hs hm hh, fun l hl hb => ?_⟩⟩
    have hnew := @exec_sweepLine_of_newest s g rdErr data side wrErr d ds a hup hd ha hs hm hh l hl hb
    refine ⟨fun he => ?error, fun he hmode => ?mode, fun he hmode hgen ho => ?current, fun he hmode hgen hopen ho => ?opened,
      fun o c he hmode hgen hopen ho hline hbind => ?older⟩
    case error =>
      rw [hnew (by simp [namesOlder, he]), rekeyRead, if_pos he]
    case mode =>
      subst he
      rw [hnew (by simp [namesOlder, hmode]), rekeyRead_bad (if_pos hmode)]
    case current =>
      subst he
      rw [hnew (by simp [namesOlder, ho]), rekeyRead_keep (sweepAct_keep hmode hgen)]
    case opened =>
      subst he
      rw [hnew (by simp [namesOlder, hopen]), rekeyRead_write (sweepAct_open hmode hgen ho hopen), Bool.and_false]
    case older =>
      subst he
      rw [exec_sweepLine_of_older hup hd ha hs hm hh hl hb (by simp [namesOlder, hopen, hmode, ho]) hline hbind]
      have hact := sweepAct_reseal (data := data) (a := a) (o := o.entry) hmode hgen ho hopen
      refine ⟨fun ht => ?_, fun ht hc => ?_⟩
      · rw [rekeyRead_bad (hact.trans (if_neg (by simp [ht])))]
      · subst hc
        rw [rekeyRead_write (hact.trans (if_pos ht)), Bool.and_true]
  case domain =>
    subst hx
    have hready := @exec_domainSweepLine_of_ready s g wrErr d d' ds k a c hup hd hk ha
    refine ⟨exec_domainSweepLine_of_waiting hup hd hk ha, fun hs hm hh => ⟨fun hn => ?more, fun hn => ?last⟩⟩
    case more =>
      rw [hready hs hm hh hc hd' false (by simpa using hn)]
      rfl
    case last =>
      rw [hready hs hm hh hc hd' true (by simpa using hn)]
      simp only [Bool.true_and, List.isEmpty_iff]
      rfl

end Sys2Proof.Machine
end

section
/-!
PROOFS. SPDM requests (R423 to R426, R434 to R437, R439, R440): the place of each, and what it is answered there.
-/

namespace Sys2Proof.Machine
open Sys2Proof

/-! ### The place of a request -/

section
variable {s : State} {code : Nat} {place : Place} {op : Bool} {sess : Option Nat} {req : Bytes}

/-- R424: a request that is heard, in a place where it is accepted, is carried out. -/
theorem done_onSpdm (k : State → State) (h : Heard s code op sess req) (h1 : sess = none → place ≠ .inside) (h2 : sess ≠ none → place ≠ .outside) :
    done (whenUp s (onSpdm code place op sess req k)) = .next (k (spdmHeard code op sess s)) := by
  obtain ⟨hup, -⟩ := id h
  exact congrArg done ((whenUp_up _ hup).trans (onSpdm_heard h h1 h2))

theorem done_onSpdm_both (k : State → State) (h : Heard s code op sess req) :
    done (whenUp s (onSpdm code .both op sess req k)) = .next (k (spdmHeard code op sess s)) :=
  done_onSpdm k h (fun _ => by decide) (fun _ => by decide)

theorem done_onSpdm_outside (k : State → State) (h : Heard s code op sess req) (hs : sess = none) :
    done (whenUp s (onSpdm code .outside op sess req k)) = .next (k (spdmHeard code op sess s)) :=
  done_onSpdm k h (fun _ => by decide) (fun hne => absurd hs hne)

theorem served (hatt : attUp s = true) (hcode : reqByte req 1 = code) : ¬(!attUp s || reqByte req 1 != code) = true := by
  simp [hatt, hcode]

section
variable (hup : s.ports.rstCold = false) (hatt : attUp s = true) (hcode : reqByte req 1 = code)
include hup hatt hcode

/-- R424: GET_VERSION is taken in any version. -/
theorem done_onSpdm_version (k : State → State) (h84 : code = 0x84) :
    done (whenUp s (onSpdm code .outside op none req k)) = .next (k (spdmHeard code op none s)) := by
  subst h84
  exact congrArg done ((whenUp_up _ hup).trans ((if_neg (served hatt hcode)).trans ((if_neg (by simp)).trans (if_neg (by decide)))))

theorem done_onSpdm_badVersion (k : State → State) (hne : code ≠ 0x84) (hv : reqByte req 0 ≠ 0x13) :
    done (whenUp s (onSpdm code place op none req k)) = .next (sendOut op none (.spdm (.error 0x41)) s) :=
  congrArg done ((whenUp_up _ hup).trans ((if_neg (served hatt hcode)).trans (if_pos (by simp [hne, hv]))))

theorem done_onSpdm_inSession {id : Nat} {x : Session} (k : State → State) (hx : s.sess id = some x) (ho : x.operator = op) (hb : x.busy = false)
    (hv : reqByte req 0 = 0x13) :
    done (whenUp s (onSpdm code .outside op (some id) req k)) = .next (sendOut op (some id) (.spdm (.error 0x04)) (hear id s)) := by
  refine congrArg done ((whenUp_up _ hup).trans ((if_neg (served hatt hcode)).trans ?_))
  dsimp only
  rw [hx]
  exact (if_neg (by simp [ho])).trans ((if_neg (by simp [hb])).trans ((if_neg (not_not.2 hv)).trans (if_pos rfl)))

end

end

theorem operator_of_heard {s : State} {code id : Nat} {op : Bool} {req : Bytes} (h : Heard s code op (some id) req) :
    ((s.sess id).map Session.operator).getD false = op := by
  obtain ⟨-, -, -, -, hs⟩ := h
  obtain ⟨x, hx, ho, -⟩ := hs id rfl
  rw [hx]
  exact ho

/-- R424: a request of a session that only a session may carry. -/
theorem done_onSpdm_inside {s : State} {code id : Nat} {op : Bool} {req : Bytes} (k : Bool → State → State) (h : Heard s code op (some id) req) :
    done (whenUp s (onSpdm code .inside (((s.sess id).map Session.operator).getD false) (some id) req (k (((s.sess id).map Session.operator).getD false)))) =
      .next (k op (spdmHeard code op (some id) s)) := by
  rw [operator_of_heard h]
  exact done_onSpdm (k op) h (fun hne => by cases hne) (fun _ => by decide)

/-! ### What each request is answered -/

section
variable (op : Bool) (sess : Option Nat) (req : Bytes)

/-- R425: the answer to NEGOTIATE_ALGORITHMS. -/
def answerAlgorithms (s : State) : State :=
  if offersAll req then spdmKept Conn.keepVca op sess req .algorithms s else spdmReply op sess (.error 0x01) s

/-- R419: the answer to GET_CERTIFICATE. -/
def answerCertificate (s : State) : State :=
  let c := certChain s
  let o := fieldLe req 4 2
  let part := (c.drop o).take (Nat.min (fieldLe req 6 2) ((connOf s op sess).xfer - 8))
  if reqByte req 2 % 16 ≠ 0 ∨ c.length ≤ o then spdmReply op sess (.error 0x01) s
  else spdmKept Conn.keepCerts op sess req (.certificate part (c.length - o - part.length)) s

/-- R425: what a part of a large request, with which `all` of `whole` bytes have come, is answered. -/
def answerChunk (c : Conn) (n whole : Nat) (all : Bytes) (s : State) : State :=
  match chunkRefused c req whole all with
  | some code => spdmReply op sess (.chunkSendError (req.getD 3 0) n code) (modConn op sess (fun c => { c with chunkIn := [], inSeq := 0 }) s)
  | none =>
    if bitAt (req.getD 2 0) 0 then
      modBox op (fun m => { m with arrived := m.arrived ++ [{ sess := sess, req := all, large := true }] })
        (modConn op sess (fun c => { c with chunkIn := [], inHandle := req.getD 3 0, inSeq := n }) s)
    else spdmReply op sess (.chunkSendAck (req.getD 3 0) n)
      (modConn op sess (fun c => { c with chunkIn := all, inHandle := req.getD 3 0, inSeq := n + 1, inSize := whole }) s)

/-- R425: the answer to CHUNK_GET, `c` being what the connection holds. -/
def answerChunkGet (c : Conn) (s : State) : State :=
  if c.chunkOut = [] ∨ req.getD 3 0 ≠ c.outHandle ∨ fieldLe req 4 2 ≠ c.outSeq then spdmReply op sess (.error 0x01) s
  else spdmReply op sess (.chunkResponse c.outHandle c.outSeq c.outSize (c.chunkOut.take (c.xfer - (if c.outSeq = 0 then 16 else 12)))
      (c.chunkOut.drop (c.xfer - (if c.outSeq = 0 then 16 else 12))).length)
    (modConn op sess (fun d => { d with chunkOut := c.chunkOut.drop (c.xfer - (if c.outSeq = 0 then 16 else 12)), outSeq := d.outSeq + 1 }) s)

end

/-- R424: the answer to KEY_UPDATE. -/
def answerKeyUpdate (id : Nat) (req : Bytes) (op : Bool) (s : State) : State :=
  if reqByte req 2 = 0 ∨ 3 < reqByte req 2 then spdmReply op (some id) (.error 0x01) s
  else spdmReply op (some id) (.keyUpdateAck (req.getD 2 0) (req.getD 3 0)) (modSess id (Session.updateKeys (reqByte req 2)) s)

theorem unsupported_of_vendor {op : Bool} {sess : Option Nat} {req p : Bytes} {s : State} (h : reqByte req 1 = 0xFE) (hm : vendorMine req = true)
    (hp : vendorPayload req = some p) : unsupported op sess req s =
      onlyIf (!knownMsg (fieldLe p 0 2) || (fieldLe p 0 2 == 1 || fieldLe p 0 2 == 2) == sess.isSome || fieldLe p 2 2 != 0)
        (sendOut op sess (.vendor (BitVec.ofNat 16 (fieldLe p 0 2)) eReserved (bytesVec 32 (slice p 4 4)) [])) s := by
  refine (if_neg (not_not.2 h)).trans ((if_neg (by simp [hm])).trans ?_)
  rw [hp]

/-- Settles O34: each request by its place and version, then by its own fields. -/
theorem spdmRequestsAreAnsweredInTheirPlace : Obligations.SpdmRequestsAreAnsweredInTheirPlace := by
  intro s op sess req say kept u hsay hkept hu
  obtain rfl : say = fun r v => sendOut op sess (.spdm r) v := by
    funext r v
    exact hsay r v
  obtain rfl : kept = fun f r v => spdmKept f op sess req r v := by
    funext f r v
    exact hkept f r v
  obtain rfl : u = fun code => spdmHeard code op sess s := funext hu
  dsimp only
  refine ⟨fun hs hup hatt hc => ?version, fun hs h => ?capabilities, fun hs h => ?algorithms, fun h => ?digests, fun o chain part h ho hchain hpart => ?certificate,
    fun n c whole all h hn hc hwhole hall => ?chunkSend, fun c n h hc hn => ?chunkGet, fun id hid => ?session, fun code h hno hne => ?unknown,
    fun h => ?vendor, fun c hc hup hatt hcode hv => ?badVersion, fun id x c hc hup hatt hx ho hb hcode hv => ?inSession⟩
  case version =>
    subst hs
    exact done_onSpdm_version hup hatt hc _ rfl
  case capabilities => exact done_onSpdm_outside _ h hs
  case algorithms =>
    have hexec : exec (.negotiateAlgorithms op sess req) s = .next (answerAlgorithms op sess req (spdmHeard 0xE3 op sess s)) := done_onSpdm_outside _ h hs
    rw [hexec]
    exact ⟨fun ho => congrArg _ (if_pos ho), fun ho => congrArg _ (if_neg (by simp [ho]))⟩
  case digests => exact done_onSpdm_both _ h
  case certificate =>
    subst ho hchain hpart
    have hexec : exec (.getCertificate op sess req) s = .next (answerCertificate op sess req (spdmHeard 0x82 op sess s)) := done_onSpdm_both _ h
    rw [hexec]
    exact ⟨fun hbad => congrArg _ (if_pos hbad), fun h0 hlt => congrArg _ (if_neg (by rintro (h | h) <;> omega))⟩
  case chunkSend =>
    subst hn hc hwhole hall
    have hexec : exec (.chunkSend op sess req) s = .next (answerChunk op sess req (connOf (spdmHeard 0x85 op sess s) op sess) (fieldLe req 4 2)
        (if fieldLe req 4 2 = 0 then fieldLe req 12 4 else (connOf (spdmHeard 0x85 op sess s) op sess).inSize)
        ((if fieldLe req 4 2 = 0 then [] else (connOf (spdmHeard 0x85 op sess s) op sess).chunkIn) ++ req.drop (if fieldLe req 4 2 = 0 then 16 else 12))
        (spdmHeard 0x85 op sess s)) := done_onSpdm_both _ h
    rw [hexec, answerChunk]
    refine ⟨fun code hcode => ?_, fun hok hlast => ?_, fun hok hlast => ?_⟩
    · rw [hcode]
      rfl
    · rw [hok]
      exact congrArg _ (if_neg (by rw [hlast]; decide))
    · rw [hok]
      exact congrArg _ (if_pos hlast)
  case chunkGet =>
    subst hc hn
    have hexec : exec (.chunkGet op sess req) s = .next (answerChunkGet op sess req (connOf (spdmHeard 0x86 op sess s) op sess) (spdmHeard 0x86 op sess s)) :=
      done_onSpdm_both _ h
    rw [hexec]
    exact ⟨fun hbad => congrArg _ (if_pos hbad), fun hne hh hseq => congrArg _ (if_neg (not_or.2 ⟨hne, not_or.2 ⟨not_not.2 hh, not_not.2 hseq⟩⟩))⟩
  case session =>
    subst hid
    refine ⟨fun h => done_onSpdm_inside (fun op => spdmReply op (some id) .heartbeatAck) h, fun h => ?keys,
      fun h => done_onSpdm_inside (fun op s => endSess id (spdmReply op (some id) .endSessionAck s)) h⟩
    have hexec : exec (.keyUpdate id req) s = .next (answerKeyUpdate id req op (spdmHeard 0xE9 op (some id) s)) :=
      done_onSpdm_inside (answerKeyUpdate id req) h
    rw [hexec]
    refine ⟨fun hbad => congrArg _ (if_pos hbad), fun o ho h1 h3 => congrArg _ ?_⟩
    subst ho
    exact if_neg (by omega)
  case unknown =>
    obtain ⟨-, -, hcode, -⟩ := id h
    subst hcode
    have hexec : exec (.unsupportedRequest op sess req) s = .next (unsupported op sess req (spdmHeard (reqByte req 1) op sess s)) := done_onSpdm_both _ h
    rw [hexec]
    refine congrArg _ ((if_pos hne).trans ?_)
    rw [hno]
    rfl
  case vendor =>
    obtain ⟨-, -, hcode, -⟩ := id h
    have hexec : exec (.unsupportedRequest op sess req) s = .next (unsupported op sess req (spdmHeard 0xFE op sess s)) := by
      rw [← hcode] at h ⊢
      exact done_onSpdm_both _ h
    rw [hexec]
    refine ⟨fun hm => congrArg _ ((if_neg (not_not.2 hcode)).trans (if_pos (by simp [hm]))), fun hm hp => congrArg _ ?_, fun p msg hm hp hmsg hbad => congrArg _ ?_⟩
    · refine (if_neg (not_not.2 hcode)).trans ((if_neg (by simp [hm])).trans ?_)
      rw [hp]
      rfl
    · subst hmsg
      rw [unsupported_of_vendor hcode hm hp, onlyIf, if_pos]
      rcases hbad with h | ⟨h, hs⟩ | ⟨h1, h2, hs⟩ | h
      · simp [h]
      · rcases h with h | h <;> simp [h, hs]
      · simp [h1, h2, hs]
      · simp [h]
  case badVersion =>
    simp only [List.mem_cons, List.not_mem_nil, or_false] at hc
    rcases hc with rfl | rfl | rfl | rfl | rfl | rfl | rfl | rfl
    all_goals exact done_onSpdm_badVersion hup hatt hcode _ (by dsimp only; decide) hv
  case inSession =>
    simp only [List.mem_cons, List.not_mem_nil, or_false] at hc
    rcases hc with rfl | rfl | rfl | rfl
    all_goals exact done_onSpdm_inSession hup hatt hcode _ hx ho hb hv

end Sys2Proof.Machine
end

section
/-!
PROOFS. Signed SPDM answers (R424, R426), the hybrid exchange that opens a session, and its timeouts (R427 to R433, R435, R437 to R440, R464).
-/

namespace Sys2Proof.Machine
open Sys2Proof

/-! ### CHALLENGE and GET_MEASUREMENTS -/

section
variable (op : Bool) (sess : Option Nat) (req : Bytes)

/-- R424: the signature of a CHALLENGE whose nonce has been drawn. -/
def challengeSignature (nonce : Bytes) (t : State) : Option Bytes × State :=
  aliasEcSign (spdmSigned "responder-challenge_auth signing" ((connOf t op sess).vca ++ (connOf t op sess).certs ++ req ++
    challengeBytes (sha384 (certChain t)) nonce (measurementSummary t (reqByte req 3)) (slice req 36 8))) t

/-- R424: a CHALLENGE whose nonce has been drawn is answered with its signature, or an error. -/
def answerChallengeDrawn (nonce : Bytes) (t : State) : State :=
  match challengeSignature op sess req nonce t with
  | (none, v) => spdmReply op sess (.error 0x05) v
  | (some sig, v) => spdmReply op sess (.challengeAuth (sha384 (certChain t)) nonce (measurementSummary t (reqByte req 3)) (slice req 36 8) sig)
      (modConn op sess (fun c => { c with certs := [] }) v)

/-- R424: the answer to CHALLENGE. -/
def answerChallenge (s : State) : State :=
  if reqByte req 2 ≠ 0 ∨ !(reqByte req 3 = 0 ∨ reqByte req 3 = 1 ∨ reqByte req 3 = 0xFF) then spdmReply op sess (.error 0x01) s
  else if !drawNow s then spdmReply op sess (.error 0x03) s
  else
    match drawBytes 32 s with
    | (none, t) => spdmReply op sess (.error 0x05) t
    | (some nonce, t) => answerChallengeDrawn op sess req nonce t

section
variable {op sess req} {nonce : Bytes} {t v : State}

theorem answerChallengeDrawn_of_none (h : challengeSignature op sess req nonce t = (none, v)) :
    answerChallengeDrawn op sess req nonce t = spdmReply op sess (.error 0x05) v := by
  rw [answerChallengeDrawn, h]

theorem answerChallengeDrawn_of_some {sig : Bytes} (h : challengeSignature op sess req nonce t = (some sig, v)) :
    answerChallengeDrawn op sess req nonce t =
      spdmReply op sess (.challengeAuth (sha384 (certChain t)) nonce (measurementSummary t (reqByte req 3)) (slice req 36 8) sig)
        (modConn op sess (fun c => { c with certs := [] }) v) := by
  rw [answerChallengeDrawn, h]

end

/-- R426: the nonce and context of GET_MEASUREMENTS, which stand behind the slot where it asks for a signature. -/
def measureContext : Bytes := slice req (if bitAt (req.getD 2 0) 0 then 37 else 4) 8

/-- R424: the signature of a GET_MEASUREMENTS whose nonce has been drawn. -/
def measureSignature (total : Nat) (blocks : List (Nat × Bytes)) (nonce : Bytes) (t : State) : Option Bytes × State :=
  aliasEcSign (spdmSigned "responder-measurements signing"
    ((connOf t op none).vca ++ (connOf t op sess).meas ++ req ++ measurementsBytes total blocks nonce (measureContext req))) t

/-- R424, R426: a GET_MEASUREMENTS whose nonce has been drawn is answered, signed where it asks for it. -/
def answerMeasureDrawn (total : Nat) (blocks : List (Nat × Bytes)) (nonce : Bytes) (t : State) : State :=
  if !bitAt (req.getD 2 0) 0 then spdmKept Conn.keepMeas op sess req (.measurements total blocks nonce (measureContext req) []) t
  else
    match measureSignature op sess req total blocks nonce t with
    | (none, v) => spdmReply op sess (.error 0x05) v
    | (some sig, v) => spdmReply op sess (.measurements total blocks nonce (measureContext req) sig) (modConn op sess (fun c => { c with meas := [] }) v)

/-- R426: the answer to GET_MEASUREMENTS. -/
def answerMeasure (s : State) : State :=
  if (measurementsOf s (measurementIndices (reqByte req 3))).length ≠ (measurementIndices (reqByte req 3)).length ∨
      (bitAt (req.getD 2 0) 0 ∧ reqByte req 36 % 16 ≠ 0) then spdmReply op sess (.error 0x01) s
  else if !drawNow s then spdmReply op sess (.error 0x03) s
  else
    match drawBytes 32 s with
    | (none, t) => spdmReply op sess (.error 0x05) t
    | (some nonce, t) => answerMeasureDrawn op sess req (if reqByte req 3 = 0 then 6 else 0) (measurementsOf s (measurementIndices (reqByte req 3))) nonce t

section
variable {op sess req} {total : Nat} {blocks : List (Nat × Bytes)} {nonce : Bytes} {t v : State} (hs : bitAt (req.getD 2 0) 0 = true)
include hs

theorem answerMeasureDrawn_of_none (h : measureSignature op sess req total blocks nonce t = (none, v)) :
    answerMeasureDrawn op sess req total blocks nonce t = spdmReply op sess (.error 0x05) v := by
  refine (if_neg (by rw [hs]; decide)).trans ?_
  rw [h]

theorem answerMeasureDrawn_of_some {sig : Bytes} (h : measureSignature op sess req total blocks nonce t = (some sig, v)) :
    answerMeasureDrawn op sess req total blocks nonce t =
      spdmReply op sess (.measurements total blocks nonce (measureContext req) sig) (modConn op sess (fun c => { c with meas := [] }) v) := by
  refine (if_neg (by rw [hs]; decide)).trans ?_
  rw [h]

end

end

theorem answerMeasure_of_drawNow {op : Bool} {sess : Option Nat} {req : Bytes} {s : State} {blocks : List (Nat × Bytes)}
    (hb : measurementsOf s (measurementIndices (reqByte req 3)) = blocks) (hlen : blocks.length = (measurementIndices (reqByte req 3)).length)
    (hok : bitAt (req.getD 2 0) 0 = false ∨ reqByte req 36 % 16 = 0) : answerMeasure op sess req s =
      if !drawNow s then spdmReply op sess (.error 0x03) s
      else
        match drawBytes 32 s with
        | (none, t) => spdmReply op sess (.error 0x05) t
        | (some nonce, t) => answerMeasureDrawn op sess req (if reqByte req 3 = 0 then 6 else 0) blocks nonce t := by
  subst hb
  refine if_neg ?_
  rintro (h | ⟨h, h'⟩)
  · exact h hlen
  · rcases hok with hok | hok
    · rw [hok] at h
      exact Bool.false_ne_true h
    · exact h' hok

/-- R426: the indices asked for are those of blocks that there are. -/
theorem measurementsOf_indices {u : State} {i : Nat} {blocks : List (Nat × Bytes)}
    (h : i = 0 ∧ blocks = [] ∨ i = 0xFF ∧ blocks = [1, 2, 3, 4, 5, 6].filterMap (fun j => (measurement u j).map (fun b => (j, b))) ∨
      (1 ≤ i ∧ i ≤ 6 ∧ ∃ b, measurement u i = some b ∧ blocks = [(i, b)])) :
    measurementsOf u (measurementIndices i) = blocks ∧ blocks.length = (measurementIndices i).length := by
  rcases h with ⟨rfl, rfl⟩ | ⟨rfl, rfl⟩ | ⟨h1, h6, b, hb, rfl⟩
  · exact ⟨rfl, rfl⟩
  · exact ⟨rfl, measurement_all u⟩
  · have hi : measurementIndices i = [i] := (if_neg (by omega)).trans (if_neg (by omega))
    rw [hi, measurementsOf]
    simp [hb]

theorem measurementsOf_of_unknown (u : State) {i : Nat} (h6 : 6 < i) (hff : i ≠ 0xFF) :
    (measurementsOf u (measurementIndices i)).length ≠ (measurementIndices i).length := by
  have hi : measurementIndices i = [i] := (if_neg (by omega)).trans (if_neg hff)
  have hnone : measurement u i = none := by
    match i with
    | 0 | 1 | 2 | 3 | 4 | 5 | 6 => omega
    | i + 7 => rfl
  rw [hi, measurementsOf]
  simp [hnone]

/-- Settles O35: each answer by the fields of its request, the draw of its nonce and its signature. -/
theorem signedSpdmAnswersNeedADrawAndAKey : Obligations.SignedSpdmAnswersNeedADrawAndAKey := by
  intro s op sess req say kind hsay hkind
  obtain rfl : say = fun r v => sendOut op sess (.spdm r) v := by
    funext r v
    exact hsay r v
  subst hkind
  dsimp only
  refine ⟨fun u hs h hu => ?challenge, fun u blocks total signed ctx h hu hsigned hctx htotal hblocks => ?measure, fun h h6 hff => ?unknown⟩
  case challenge =>
    subst hu
    have hexec : exec (.challenge op sess req) s = .next (answerChallenge op sess req (spdmHeard 0x83 op sess s)) := done_onSpdm_outside _ h hs
    rw [hexec]
    refine ⟨fun hbad => congrArg _ (if_pos (hbad.imp_right (fun h => by simpa using h))), fun h2 hk => ?_⟩
    have hgood : ¬(reqByte req 2 ≠ 0 ∨ (!(reqByte req 3 = 0 ∨ reqByte req 3 = 1 ∨ reqByte req 3 = 0xFF)) = true) := by
      rintro (h | h)
      · exact h h2
      · simp only [Bool.not_eq_true', decide_eq_false_iff_not] at h
        exact h hk
    rw [answerChallenge, if_neg hgood]
    refine ⟨fun hd => congrArg _ (if_pos (by simp [hd])), fun t hd ht => congrArg _ ((if_neg (by simp [hd])).trans ?_),
      fun nonce t v chain sum ctx hd ht hchain hsum hctx hv => ?_⟩
    · rw [ht]
      rfl
    · have hsig : challengeSignature op sess req nonce t = (v.1, v.2) := by
        rw [hchain, hsum, hctx] at hv
        exact hv
      rw [if_neg (by simp [hd]), ht, hchain, hsum, hctx]
      exact ⟨fun hn => congrArg _ (answerChallengeDrawn_of_none (hsig.trans (by rw [hn]))),
        fun sig hs => congrArg _ (answerChallengeDrawn_of_some (hsig.trans (by rw [hs])))⟩
  case measure =>
    subst hu hsigned hctx htotal
    obtain ⟨hb, hlen⟩ := measurementsOf_indices hblocks
    have hexec : exec (.getMeasurements op sess req) s = .next (answerMeasure op sess req (spdmHeard 0xE0 op sess s)) := done_onSpdm_both _ h
    rw [hexec]
    refine ⟨fun hs h36 => congrArg _ (if_pos (.inr ⟨hs, h36⟩)), fun hok => ?_⟩
    rw [answerMeasure_of_drawNow hb hlen hok]
    refine ⟨fun hd => congrArg _ (if_pos (by simp [hd])), fun t hd ht => congrArg _ ((if_neg (by simp [hd])).trans ?_), fun nonce t hd ht => ?_⟩
    · rw [ht]
      rfl
    · rw [hd, Bool.not_true, if_neg Bool.false_ne_true, ht]
      refine ⟨fun r hs hr => ?_, fun v hs hv => ?_⟩
      · subst hr
        exact congrArg _ (if_pos (by rw [hs]; rfl))
      · have hsig : measureSignature op sess req (if reqByte req 3 = 0 then 6 else 0) blocks nonce t = (v.1, v.2) := hv
        exact ⟨fun hn => congrArg _ (answerMeasureDrawn_of_none hs (hsig.trans (by rw [hn]))),
          fun sig hsome => congrArg _ (answerMeasureDrawn_of_some hs (hsig.trans (by rw [hsome])))⟩
  case unknown =>
    have hexec : exec (.getMeasurements op sess req) s = .next (answerMeasure op sess req (spdmHeard 0xE0 op sess s)) := done_onSpdm_both _ h
    rw [hexec]
    exact congrArg _ (if_pos (.inl (measurementsOf_of_unknown _ h6 hff)))

/-! ### The hybrid exchange -/

section
variable {s : State} {op : Bool} {tag : BitVec 32} {body : Bytes}

/-- R428: the answer to KEX_KEYS. -/
def answerKexKeys (op : Bool) (tag : BitVec 32) (body : Bytes) (s : State) : State :=
  if body ≠ [] then outVendor op 0x0001 eRange tag [] s
  else if (kexSetup s).att.kexStmts.isEmpty then outVendor op 0x0001 eBusy tag [] (kexSetup s)
  else outVendor op 0x0001 eOk tag ((kexSetup s).att.kemPub ++ (kexSetup s).att.dhPub ++ (kexSetup s).att.kexStmts.flatten) (kexSetup s)

/-- R429 to R431: the answer to a HYB_KEX whose body is laid out right. -/
def answerKex (op : Bool) (tag : BitVec 32) (body : Bytes) (s : State) : State :=
  if sessionsFull s op then spdmReply op none (.error 0x0A) (s.modAtt (fun a => { a with refused := satInc a.refused }))
  else if (pointRefused p384 48 (slice body 36 97)).isSome then spdmReply op none (.error 0x01) s
  else if !drawNow s then spdmReply op none (.error 0x03) s
  else
    match kexExchange op tag body (kexSetup s) with
    | (none, s) => spdmReply op none (.error 0x05) s
    | (some r, s) => outVendor op 0x0002 eOk tag r.2 (s.modAtt (fun a => { a with
        sessions := a.sessions ++ [r.1], nextSess := (r.1.id / 2 ^ 16 + 1) % 65536 }))

variable (hup : s.ports.rstCold = false) (hatt : attUp s = true)
include hup hatt

theorem exec_kexKeys_of_served : exec (.kexKeys op tag body) s = .next (answerKexKeys op tag body s) :=
  congrArg done ((whenUp_up _ hup).trans (if_pos hatt))

theorem exec_hybKex_of_served : exec (.hybKex op tag body) s = .next (
    if body.length ≠ 1704 then outVendor op 0x0002 eRange tag [] s
    else if fieldLe body 2 2 ≠ 0 ∨ fieldLe body 1701 3 ≠ 0 then outVendor op 0x0002 eReserved tag [] s
    else answerKex op tag body s) :=
  congrArg done ((whenUp_up _ hup).trans (if_pos hatt))

end

section
variable {s : State} {sess : Nat} {x : Session} (hup : s.ports.rstCold = false) (hx : s.sess sess = some x)
include hup hx

/-- R432: a HYB_FINISH by what it finds: its session, heard now, and the requester's verify data. -/
theorem exec_hybFinish_of_sess (tag : BitVec 32) (body : Bytes) (w : Waiter) (hw : w = { sess := sess, msg := 0x0003, tag := tag }) :
    exec (.hybFinish sess tag body) s = .next (
      if x.busy then sayBusy x.operator sess (hear sess s)
      else if x.finished then refuse w eReserved (hear sess s)
      else if body.length ≠ 48 then endSess sess (refuse w eRange (countAuthFail (hear sess s)))
      else if body ≠ verifyData x.secret x.th1 (x.th1 ++ finishHeader tag) false then endSess sess (refuse w eAuth (countAuthFail (hear sess s)))
      else modSess sess (Session.opened (sha384 (finishTranscript x.th1 tag body ++ verifyData x.secret x.th1 (finishTranscript x.th1 tag body) true)))
        (reply { w with body := verifyData x.secret x.th1 (finishTranscript x.th1 tag body) true } eOk (hear sess s))) := by
  subst hw
  refine congrArg done ((whenUp_up _ hup).trans ?_)
  rw [hx]

theorem exec_hybFinishTimeout_of_sess : exec (.hybFinishTimeout sess) s =
    .next (if x.finished then s else endSess sess (reachTime (x.openedAt + 1000000) s)) := by
  refine congrArg done ((whenUp_up _ hup).trans ?_)
  rw [hx]

theorem exec_sessionIdleTimeout_of_sess : exec (.sessionIdleTimeout sess) s = .next (endSess sess (reachTime (x.heard + 120000000) s)) := by
  refine congrArg done ((whenUp_up _ hup).trans ?_)
  rw [hx]

end

theorem endSess_reachTime (id t : Nat) (s : State) : endSess id (reachTime t s) =
    { s with timer := max t s.timer, att := { s.att with sessions := s.att.sessions.filter (fun x => x.id != id) } } := rfl

/-- Settles O36: each message of the exchange by its checks in their order. -/
theorem sessionsOpenByTheHybridExchange : Obligations.SessionsOpenByTheHybridExchange := by
  refine ⟨fun s op tag body hup hatt => ?keys, fun s op tag body hup hatt => ?kex, fun s sess tag body x w told own th2 u hup hx hw hu htold hown hth2 => ?finish,
    fun s sess hup => ⟨fun x hx hf => ?timeout, fun x hx hf => ?opened, fun x hx => ?idle⟩⟩
  case keys =>
    rw [exec_kexKeys_of_served hup hatt, exec_kexKeys_of_served hup hatt]
    exact ⟨fun h => congrArg _ (if_pos h), fun h => congrArg _ ((if_neg (not_not.2 rfl)).trans (if_pos (by rw [h]; rfl))),
      fun h => congrArg _ ((if_neg (not_not.2 rfl)).trans (if_neg (by rw [List.isEmpty_iff]; exact h)))⟩
  case kex =>
    rw [exec_hybKex_of_served hup hatt]
    refine ⟨fun h => congrArg _ (if_pos h), fun h hr => congrArg _ ((if_neg (not_not.2 h)).trans (if_pos hr)), fun h h2 h3 => ?_⟩
    have hanswer : exec (.hybKex op tag body) s = .next (answerKex op tag body s) :=
      (exec_hybKex_of_served hup hatt).trans (congrArg _ ((if_neg (not_not.2 h)).trans (if_neg (by simp [h2, h3]))))
    rw [← exec_hybKex_of_served hup hatt, hanswer]
    refine ⟨fun hfull => congrArg _ (if_pos (decide_eq_true hfull)), fun hroom => ?_⟩
    have hroom' : ¬sessionsFull s op = true := by
      rw [sessionsFull, decide_eq_true_eq]
      exact not_le.2 hroom
    rw [answerKex, if_neg hroom']
    refine ⟨fun hp => congrArg _ (if_pos hp), fun hp hd => congrArg _ ((if_neg (by simp [hp])).trans (if_pos (by simp [hd]))), fun hp hd t => ?_⟩
    rw [if_neg (by simp [hp]), if_neg (by simp [hd])]
    refine ⟨fun hn => ?_, fun x rsp hs => ?_⟩
    · rw [hn]
      rfl
    · rw [hs]
      rfl
  case finish =>
    rw [exec_hybFinish_of_sess hup hx tag body w hw, hth2, hown, htold, hu]
    exact ⟨fun hb => congrArg _ (if_pos hb), fun hb hf => congrArg _ ((if_neg (by simp [hb])).trans (if_pos hf)),
      fun hb hf hl => congrArg _ ((if_neg (by simp [hb])).trans ((if_neg (by simp [hf])).trans (if_pos hl))),
      fun hb hf hl hv => congrArg _ ((if_neg (by simp [hb])).trans ((if_neg (by simp [hf])).trans ((if_neg (not_not.2 hl)).trans (if_pos hv)))),
      fun hb hf hl hv => congrArg _ ((if_neg (by simp [hb])).trans ((if_neg (by simp [hf])).trans ((if_neg (not_not.2 hl)).trans (if_neg (not_not.2 hv)))))⟩
  case timeout =>
    rw [exec_hybFinishTimeout_of_sess hup hx, if_neg (by simp [hf]), endSess_reachTime]
  case opened => rw [exec_hybFinishTimeout_of_sess hup hx, if_pos hf]
  case idle => rw [exec_sessionIdleTimeout_of_sess hup hx, endSess_reachTime]

end Sys2Proof.Machine
end

section
/-!
PROOFS. Credentials, events and quotes of a session (R421, R433, R434, R440, R441, R446, R447, R453, R455 to R458, R461, R464, R517), and link keys
(R448 to R450, R557, R558, R652 to R654).
-/

namespace Sys2Proof.Machine
open Sys2Proof

/-! ### Credentials and events -/

/-- R433, R464: a CRED_PROVE is decided. -/
def decideCred (body : Bytes) (x : Session) (w : Waiter) (s : State) : State :=
  if x.cred.isSome then refuse w eState s
  else if !hybVerify (body.take 2720) (ascii "KFL-CRED" ++ leBytes 4 x.id ++ x.th2) (body.drop 2720) then refuse w eAuth (countAuthFail s)
  else if x.operator && !(operatorDigests s).contains (credDigest (body.take 2720)) then endSess x.id (countAuthFail s)
  else reply w eOk (modSess x.id (fun y => { y with cred := some (credDigest (body.take 2720)), credPub := body.take 2720 }) s)

section
variable {s : State} {sess : Nat} {tag : BitVec 32} {body : Bytes} {x : Session} {w : Waiter}

theorem exec_credProve_of_asks (hw : w = asker { msg := 0x0004, operator := true, cred := false } sess tag)
    (hx : Asks s { msg := 0x0004, operator := true, cred := false } sess x) (hl : body.length = 7443) :
    exec (.credProve sess tag body) s = .next (decideCred body x w (asked sess s)) := by
  obtain ⟨-, hsess, -⟩ := id hx
  refine (done_message hw hx hl _).trans ?_
  rw [decideCred, sess_id hsess]

theorem pollBody_eq (x : Session) : pollBody x = leBytes 1 (Nat.min 8 x.events.length) ++
    leBytes 1 (bitNat 0 (8 < x.events.length) + bitNat 1 x.overflow) ++ zeros 6 ++ ((x.events.take 8).map Event.bytes).flatten := by
  rw [pollBody, List.length_take]

/-! ### Quotes -/

theorem exec_quote_of_asks {r : MsgRule} (hr : r = { msg := 0x0010, operator := true, cred := x.operator }) (hw : w = asker r sess tag) (hx : Asks s r sess x)
    (hl : body.length = 40) (ho : AtOnce s w body) : exec (.quote sess tag body) s = .next (decideQuote w body (asked sess s)) := by
  subst hr
  obtain ⟨-, hsess, -⟩ := id hx
  have hcred : (s.sess sess).any (·.operator) = x.operator := by
    rw [hsess]
    rfl
  show done (whenUp s (onMessage { msg := 0x0010, operator := true, cred := (s.sess sess).any (·.operator) } (exactly 40) sess tag body
    (fun _ w => inOrder w body (decideQuote w body)))) = _
  rw [hcred]
  exact done_inOrder decideQuote hw hx hl ho

end

theorem decideQuote_of_sess {s : State} {w : Waiter} {body : Bytes} {x : Session} (hx : s.sess w.sess = some x) : decideQuote w body s =
    if 1 < fieldLe body 0 1 ∨ fieldLe body 1 1 ≠ 0 ∨ fieldLe body 4 4 ≠ 0 ∨ (fieldLe body 0 1 = 0 ∧ fieldLe body 2 2 ≠ 0) then refuse w eReserved s
    else if 4351 < fieldLe body 2 2 then refuse w eRange s
    else if !quotePermitted s x (fieldLe body 0 1) (fieldLe body 2 2) then refuse w eOwner s
    else joinBatch { sess := w.sess, tag := w.tag, msg := w.msg, kind := fieldLe body 0 1, domain := fieldLe body 2 2, nonce := slice body 8 32 } s := by
  rw [decideQuote, hx]

/-- R455: a quote of the block is permitted in every session. -/
theorem quotePermitted_block (s : State) (x : Session) (d : Nat) : quotePermitted s x 0 d = true := if_pos rfl

/-- R455 to R458: the batch that closes, and how it is then sent. -/
theorem closeBatch_of_some {s : State} {reqs : List QuoteReq} (h : s.att.batch = some reqs) (wait : Bool) (hwait : wait = (s.mir.session && !s.mir.site && s.mir.ready))
    (v : State) (hv : v = s.modAtt (fun a => { a with batch := none, quoteSeq := s.att.quoteSeq + 1, closed := a.closed ++
      [{ seq := s.att.quoteSeq + 1, reqs := reqs, bodies := reqs.map (quoteBody s),
         header := batchHeader s (s.att.quoteSeq + 1) (reqs.map (quoteBody s)), mirrored := !wait }] })) :
    closeBatch s = pumpQuotes (onlyIf (s.mir.session && !s.mir.site)
      (mirSend { frame := { body := .counters s.att.bootCount (s.att.quoteSeq + 1) }, batchSeq := if wait then some (s.att.quoteSeq + 1) else none }) v) := by
  rw [closeBatch, h, hv, hwait]
  rfl

/-- Settles O37: each message by its body, the batch by the mirror's session. -/
theorem credentialsEventsAndQuotesOfASession : Obligations.CredentialsEventsAndQuotesOfASession := by
  intro s sess tag body x w u hu
  subst hu
  refine ⟨fun r pub hr hw hx hl hpub => ?cred, fun r hr hw hx hl => ?poll, fun r d kind hr hw hx hl ho hd hkind => ?quote, fun hw hx hl => ?block,
    fun hup hb => ?noBatch, fun reqs wait b v t hup hb ht hwait hbatch hv => ?batch⟩
  case cred =>
    subst hr hpub
    obtain ⟨-, hsess, -⟩ := id hx
    rw [exec_credProve_of_asks hw hx hl, decideCred, sess_id hsess]
    refine ⟨fun hc => congrArg _ (if_pos hc), fun hc hv => congrArg _ ((if_neg (by simp [hc])).trans (if_pos (by rw [hv]; rfl))), fun hc hv => ?_⟩
    rw [if_neg (by simp [hc]), if_neg (by rw [hv]; decide)]
    refine ⟨fun hop hno => congrArg _ (if_pos ?_), fun h => congrArg _ (if_neg ?_)⟩
    · rw [hop, Bool.true_and, Bool.not_eq_true', List.contains_eq_mem, decide_eq_false_iff_not]
      exact hno
    · rw [Bool.and_eq_true, Bool.not_eq_true', List.contains_eq_mem, decide_eq_false_iff_not]
      rintro ⟨hop, hno⟩
      rcases h with h | h
      · rw [hop] at h
        exact Bool.false_ne_true h.symm
      · exact hno h
  case poll =>
    subst hr hl
    refine (done_message (n := 0) hw hx rfl _).trans ?_
    rw [pollBody_eq]
  case quote =>
    obtain ⟨-, hsess, -⟩ := id hx
    have hfind : (asked sess s).sess w.sess = some { x with heard := s.timer, busy := true } := by
      rw [hw]
      exact asked_find hsess
    rw [exec_quote_of_asks hr hw hx hl ho, decideQuote_of_sess hfind, hw, hr, hd, hkind]
    have hperm (kind d : Nat) : quotePermitted (asked sess s) { x with heard := s.timer, busy := true } kind d = quotePermitted (asked sess s) x kind d := rfl
    rw [hperm]
    refine ⟨fun h => congrArg _ (if_pos h), fun h1 h2 h3 h0 => ?_⟩
    rw [if_neg (by omega)]
    exact ⟨fun hd => congrArg _ (if_pos hd), fun hd hp => congrArg _ ((if_neg (by omega)).trans (if_pos (by simpa using hp))),
      fun hd hp => congrArg _ ((if_neg (by omega)).trans (if_neg (by simpa using hp)))⟩
  case block =>
    obtain ⟨-, hsess, -⟩ := id hx
    have hfind : (asked sess s).sess w.sess = some { x with heard := s.timer, busy := true } := by
      rw [hw]
      exact asked_find hsess
    have hexec : exec (.quoteBlock sess tag body) s =
        .next (if fieldLe body 0 1 ≠ 0 then refuse w eReserved (asked sess s) else decideQuote w body (asked sess s)) := done_message hw hx hl _
    rw [hexec]
    refine ⟨fun h => congrArg _ (if_pos h), fun h0 h1 h4 h2 => congrArg _ ((if_neg (not_not.2 h0)).trans ?_)⟩
    rw [decideQuote_of_sess hfind, h0, h1, h2, h4, if_neg (by decide), if_neg (by decide), quotePermitted_block, hw]
    rfl
  case noBatch => exact congrArg done ((whenUp_up _ hup).trans (if_neg (by rw [hb]; decide)))
  case batch =>
    have hexec : exec .quoteBatchClose s = .next (closeBatch t) := by
      rw [ht]
      exact congrArg done ((whenUp_up _ hup).trans (if_pos (by rw [hb]; rfl)))
    have htatt : t.att = s.att := by
      rw [ht]
      rfl
    have htmir : t.mir = s.mir := by
      rw [ht]
      rfl
    have hclose := closeBatch_of_some (s := t) (htatt ▸ hb) wait (by rw [hwait, htmir]) v (by rw [hv, hbatch, State.modAtt, htatt])
    rw [hexec, hclose, htmir, htatt]
    refine ⟨fun h => ?_, fun h1 h2 => ?_⟩
    · rw [onlyIf, if_neg]
      rcases h with h | h <;> simp [h]
    · rw [h1, h2]
      rfl

/-! ### Link keys -/

theorem vmod_at {α : Type} {n : Nat} (v : Vector α n) (i : Fin n) (f : α → α) : vmod v i f = v.set i (f (v.get i)) := by
  rw [vmod, dif_pos i.isLt]

theorem exec_linkReport {s : State} (hup : s.ports.rstCold = false) (l : Fin 64) (w0 w1 w2 w3 : BitVec 32) (hl : l.val = w0.toNat % 64) :
    exec (.linkReport w0 w1 w2 w3) s = .next (onlyIf (!s.tamper.latch) (fun s => (onlyIf (bitAt w0 8) (unqualify l) s).modBrup (fun b => { b with
      links := b.links.set l { qualified := qualifies (reportBits w1 w2) w3.toNat, bits := reportBits w1 w2, errors := w3.toNat } })) s) := by
  refine congrArg done ((whenUp_up _ hup).trans ?_)
  rw [show reportLink w0 = l.val from hl.symm]
  simp only [vmod_at]

/-- R448: the directions that a LINK_KEY's mask names. -/
def linkDirs (mask : Nat) : List Nat := (if mask % 2 = 1 then [0] else []) ++ (if 2 ≤ mask then [1] else [])

theorem decideLinkKey_of_sess {s : State} {w : Waiter} {body : Bytes} {x : Session} (hx : s.sess w.sess = some x) : decideLinkKey w body s =
    if 3 < fieldLe body 2 1 ∨ fieldLe body 3 1 ≠ 0 ∨ fieldLe body 6 2 ≠ 0 then refuse w eReserved s
    else if 63 < fieldLe body 0 1 ∨ 3 < fieldLe body 1 1 ∨ fieldLe body 2 1 = 0 ∨ 4352 ≤ fieldLe body 4 2 then refuse w eRange s
    else if !isTenant s w (fieldLe body 4 2) ∨ !s.ks.links.contains (fieldLe body 0 1, fieldLe body 4 2) then refuse w eOwner s
    else if !(s.brup.links.toList.getD (fieldLe body 0 1) {}).qualified then refuse w eState s
    else match keyUnwrap (wrapKey x) (slice body 12 40) with
      | none => refuse w eAuth s
      | some seed => pumpLinks (s.modPorts (fun p => { p with lk := p.lk ++ [{
          waiter := w, link := fieldLe body 0 1, kslot := fieldLe body 1 1, dirs := linkDirs (fieldLe body 2 1),
          seed := seed, epoch := bytesVec 32 (slice body 8 4) }] })) := by
  rw [decideLinkKey, hx]
  rfl

section
variable {s : State} {v : BitVec 32} {vs : List (BitVec 32)} {m : LkMsg} {ms : List LkMsg} (hup : s.ports.rstCold = false) (hw : s.ports.lkWords = v :: vs)
  (hlk : s.ports.lk = m :: ms)
include hup hw hlk

theorem exec_lkAck_of_push_out : exec (.lkAck false) s = .next (
    if m.dirs.length ≤ 1 then reply m.waiter eOk (endLink s)
    else pumpLinks (s.modPorts (fun p => { p with lk := { m with dirs := m.dirs.drop 1 } :: ms, lkWords := [] }))) := by
  refine congrArg done ((whenUp_up _ hup).trans ((if_neg (by decide)).trans ?_))
  rw [hw, hlk]

end

theorem endLink_of_message {s : State} {m : LkMsg} {ms : List LkMsg} (h : s.ports.lk = m :: ms) :
    endLink s = pumpLinks { s with ports := { s.ports with lk := ms, lkWords := [] } } := by
  rw [endLink, State.modPorts, h]
  rfl

/-- Settles O38: a report by its bits and errors, a LINK_KEY by its body, an answer by the push that is out. -/
theorem linkKeysArePushedOneAtATime : Obligations.LinkKeysArePushedOneAtATime := by
  refine ⟨fun s u l bits w0 w1 w2 errors hup hl hbits hu => ⟨fun ht => ?latched, fun ht => ?report⟩,
    fun s sess tag body x w u link kslot mask d hu hw hx hlen ho hlink hkslot hmask hd => ?key,
    fun s v vs m ms gone late hup hw hlk hgone hlate => ⟨?error, ?late, fun hn => ?last, fun hn => ?next⟩⟩
  case latched =>
    rw [exec_linkReport hup l w0 w1 w2 errors hl, ht]
    rfl
  case report =>
    subst hu hbits
    rw [exec_linkReport hup l w0 w1 w2 errors hl, ht]
    cases bitAt w0 8 <;> rfl
  case key =>
    subst hu hlink hkslot hmask hd
    have hexec : exec (.linkKey sess tag body) s = .next (decideLinkKey w body (asked sess s)) := done_inOrder decideLinkKey hw hx hlen ho
    obtain ⟨-, hsess, -⟩ := id hx
    have hfind : (asked sess s).sess w.sess = some { x with heard := s.timer, busy := true } := by
      rw [hw]
      exact asked_find hsess
    have hten : isTenant (asked sess s) w (fieldLe body 4 2) = isTenant s w (fieldLe body 4 2) := isTenant_asked hsess w _ (by rw [hw]; rfl)
    have hbrup : (asked sess s).brup = s.brup := rfl
    have hkey : wrapKey { x with heard := s.timer, busy := true } = wrapKey x := rfl
    rw [hexec, decideLinkKey_of_sess hfind, hten, asked_ks, hbrup, hkey]
    refine ⟨fun h => congrArg _ (if_pos h), fun h1 h2 h3 => ⟨fun h => congrArg _ ((if_neg (by omega)).trans (if_pos h)), fun hl hk hm hd => ?_⟩⟩
    rw [if_neg (by omega), if_neg (by omega)]
    refine ⟨fun h => congrArg _ (if_pos (h.imp (by simp) (by simp))), fun ht hmem => ?_⟩
    rw [if_neg (by simp [ht, hmem])]
    refine ⟨fun hq => congrArg _ (if_pos (by simpa using hq)), fun hq => ?_⟩
    rw [if_neg (by simpa using hq)]
    refine ⟨fun hn => by rw [hn], fun seed dirs hs hdirs => ?_⟩
    have hd : linkDirs (fieldLe body 2 1) = dirs := by
      rcases hdirs with ⟨h, rfl⟩ | ⟨h, rfl⟩ | ⟨h, rfl⟩ <;> rw [h] <;> rfl
    rw [hs, hd]
    rfl
  case error => rw [exec_lkAck_error hup, failLink_of_push_out hw hlk, endLink_of_message hlk, hgone]
  case late =>
    rw [exec_lkAckTimeout_of_push_out hup (by simp [hw]), hlate]
    generalize s.ports.lkAt + 1000 = t
    have hw' : (reachTime t s).ports.lkWords = v :: vs := hw
    have hlk' : (reachTime t s).ports.lk = m :: ms := hlk
    rw [failLink_of_push_out hw' hlk', endLink_of_message hlk']
    rfl
  case last => rw [exec_lkAck_of_push_out hup hw hlk, if_pos hn, endLink_of_message hlk, hgone]
  case next => rw [exec_lkAck_of_push_out hup hw hlk, if_neg (by omega)]; rfl

end Sys2Proof.Machine
end

section
/-!
PROOFS. Bundle keys and reader grants (R148 to R152, R197 to R199, R207 to R211, R213, R224 to R230, R438, R451, R452), and requests for measurements
(R246 to R251, R253, R445).
-/

namespace Sys2Proof.Machine
open Sys2Proof

/-! ### Bundle keys -/

/-- R209, R210: a bundle key that has been unwrapped is taken, its model's record naming the owner. -/
def bundleTaken (body : Bytes) (x : Session) (w : Waiter) (key : Bytes) (s : State) : State :=
  modModel (fieldLe body 0 2) (fun r => { r with custody := .keyHeld, ownerKeyId := slice body 8 32, ownerCred := x.cred.getD [], ownerPub := x.credPub })
    (s.modVault (fun y => { y with bundles := y.bundles ++
      [{ model := fieldLe body 0 2, keyId := slice body 8 32, key := key, staging := fieldLe body 2 2, sess := w.sess, released := s.timer }] }))

theorem decideBundle_of_sess {s : State} {w : Waiter} {body : Bytes} {x : Session} (hx : s.sess w.sess = some x) : decideBundle w body s =
    if fieldLe body 4 4 ≠ 0 then refuse w eReserved s
    else if fieldLe body 0 2 < 4096 ∨ 4352 ≤ fieldLe body 0 2 ∨ 4352 ≤ fieldLe body 2 2 then refuse w eRange s
    else if custody s (fieldLe body 0 2) ≠ .awaitingKey ∨ !domAlive s (fieldLe body 0 2) then refuse w eState s
    else if !stagingOk s w (fieldLe body 2 2) then refuse w eOwner s
    else if 16 ≤ s.vault.bundles.length then refuse w eBusy s
    else match keyUnwrap (wrapKey x) (slice body 40 40) with
      | none => refuse w eAuth s
      | some key => commit [modelFrameOf (bundleTaken body x w key s) (fieldLe body 0 2)] [] [(w, eOk)] (bundleTaken body x w key s) := by
  rw [decideBundle, hx]
  rfl

theorem exec_bundleKeyLapse_of_not_held {s : State} {m : BitVec 13} (hup : s.ports.rstCold = false) (hc : custody s m.toNat ≠ .keyHeld) :
    exec (.bundleKeyLapse m) s = .next s :=
  congrArg done ((whenUp_up _ hup).trans (if_pos hc))

theorem bundleLapsed_eq (due m : Nat) (s : State) : bundleLapsed due m s =
    modModel m (fun r => { r with custody := .awaitingKey, jobUsed := false }) (wipeBundle m { reachTime due s with
      ingest := { s.ingest with queue := s.ingest.queue.filter (fun j => j.model != m) } }) := rfl

theorem stagingOk_asked {s : State} {sess : Nat} {x : Session} (hx : s.sess sess = some x) {w : Waiter} (hw : w.sess = sess) (d : Nat) :
    stagingOk (asked sess s) w d = stagingOk s w d := by
  rw [stagingOk, stagingOk, isTenant_asked hx w d hw]
  rfl

/-! ### Grants -/

section
variable {s : State} {sess : Nat} {tag : BitVec 32} {g : Bytes} {x : Session} {w : Waiter} (hw : w = asker (tenantMsg 0x0051) sess tag)
  (hx : Asks s (tenantMsg 0x0051) sess x) (hl : g.length = 56 + 4 * grantCount g + 4723) (ho : AtOnce s w g)
include hw hx hl ho

theorem done_grant (mine : Bool) (hm : mine = true) (k : Waiter → Bytes → State → State) :
    done (whenUp s (onlyIf mine (onMessage (tenantMsg 0x0051) grantLength sess tag g (fun _ w s => settle (inOrder w g (k w g) s))))) =
      .next (settle (k w g (asked sess s))) := by
  have hlen : grantLength g = true := beq_iff_eq.2 hl
  have hmsg := onMessage_ok (lengthOk := grantLength) (tag := tag) (k := fun _ w s => settle (inOrder w g (k w g) s)) hx hlen
  subst hm hw
  exact congrArg done ((whenUp_asks _ hx).trans (hmsg.trans (congrArg settle (inOrder_once ho))))

theorem exec_readerGrantAdd_of_asks (h : grantOper g = 0 ∨ 2 < grantOper g) :
    exec (.readerGrantAdd sess tag g) s = .next (settle (decideGrantAdd w g (asked sess s))) :=
  done_grant hw hx hl ho _ (by simpa using h) decideGrantAdd

theorem exec_readerGrantRemove_of_asks (h : grantOper g = 1) :
    exec (.readerGrantRemove sess tag g) s = .next (settle (decideGrantRemove w g (asked sess s))) :=
  done_grant hw hx hl ho _ (by simpa using h) decideGrantRemove

theorem exec_readerGrantRevoke_of_asks (h : grantOper g = 2) :
    exec (.readerGrantRevoke sess tag g) s = .next (settle (decideGrantRevoke w g (asked sess s))) :=
  done_grant hw hx hl ho _ (by simpa using h) decideGrantRevoke

end

section
variable {w : Waiter} {g : Bytes} {s : State} {c : BitVec 8} (h : grantRefused s g = some c)
include h

theorem decideGrantAdd_of_refused : decideGrantAdd w g s = refuse w c s := by rw [decideGrantAdd, h]
theorem decideGrantRemove_of_refused : decideGrantRemove w g s = refuse w c s := by rw [decideGrantRemove, h]
theorem decideGrantRevoke_of_refused : decideGrantRevoke w g s = refuse w c s := by rw [decideGrantRevoke, h]

end

/-- A list of checks that ends with none has passed the first. -/
theorem of_ite_some_eq_none {α : Type} {p : Prop} [Decidable p] {a : α} {b : Option α} (h : (if p then some a else b) = none) : ¬p ∧ b = none := by
  by_cases hp : p
  · rw [if_pos hp] at h
    cases h
  · rw [if_neg hp] at h
    exact ⟨hp, h⟩

/-- R225 to R228: what a grant that nothing refuses has passed. -/
theorem grantRefused_eq_none {s : State} {g : Bytes} (h : grantRefused s g = none) :
    slice g 0 8 = ascii "KFL-GRNT" ∧ fieldLe g 8 2 = 1 ∧ grantOper g ≤ 2 ∧ fieldLe g 49 1 = 0 ∧ fieldLe g 52 4 = 0 ∧ 4096 ≤ fieldLe g 10 2 ∧
    fieldLe g 10 2 < 4352 ∧ ∃ r, s.model (fieldLe g 10 2) = some r ∧ r.custody = .resident ∧ r.grantSeq.toNat < fieldLe g 12 4 ∧ r.root = slice g 16 32 ∧
      hybVerify r.ownerPub (g.take (56 + 4 * grantCount g)) (g.drop (56 + 4 * grantCount g)) = true := by
  unfold grantRefused at h
  dsimp only at h
  obtain ⟨r, hr⟩ : ∃ r, (s.model (fieldLe g 10 2)).getD { model := fieldLe g 10 2, custody := .none } = r := ⟨_, rfl⟩
  rw [hr] at h
  obtain ⟨hres, h⟩ := of_ite_some_eq_none h
  obtain ⟨hrange, h⟩ := of_ite_some_eq_none h
  obtain ⟨hstate, h⟩ := of_ite_some_eq_none h
  obtain ⟨hroot, h⟩ := of_ite_some_eq_none h
  obtain ⟨hsig, -⟩ := of_ite_some_eq_none h
  rw [not_or, not_or] at hrange
  simp only [not_or, not_not, not_lt] at hres hstate hroot
  obtain ⟨hmagic, hver, hoper, h49, h52⟩ := hres
  obtain ⟨hlo, hhi, -⟩ := hrange
  obtain ⟨hcust, hseq⟩ := hstate
  refine ⟨hmagic, hver, hoper, h49, h52, not_lt.1 hlo, by omega, r, ?model, hcust, by omega, hroot.symm, by simpa using hsig⟩
  cases hm : s.model (fieldLe g 10 2) with
  | none =>
    rw [hm] at hr
    subst hr
    cases hcust
  | some r' =>
    rw [hm] at hr
    exact congrArg some hr

/-- Settles O39: a bundle key by its body, a grant by `grantRefused`, which the model's record decides. -/
theorem bundleKeysAndGrantsNeedTheirOwner : Obligations.BundleKeysAndGrantsNeedTheirOwner := by
  refine ⟨fun s sess tag body x w u m st hu hw hx hl ho hm hst => ?bundle, fun s m v due hup hdue => ⟨fun hc => ?noLapse, fun hc hv => ?lapse⟩,
    fun s sess tag g x w u m hu hw hx hl ho hm => ?grant, fun s g h => grantRefused_eq_none h⟩
  case bundle =>
    subst hu hm hst
    have hexec : exec (.bundleKey sess tag body) s = .next (decideBundle w body (asked sess s)) := done_inOrder decideBundle hw hx hl ho
    obtain ⟨-, hsess, -⟩ := id hx
    have hws : w.sess = sess := by rw [hw]; rfl
    have hfind : (asked sess s).sess w.sess = some { x with heard := s.timer, busy := true } := by
      rw [hws]
      exact asked_find hsess
    have hvault : (asked sess s).vault = s.vault := rfl
    have hkey : wrapKey { x with heard := s.timer, busy := true } = wrapKey x := rfl
    rw [hexec, decideBundle_of_sess hfind, custody_asked, domAlive_asked, stagingOk_asked hsess hws, hvault, hkey]
    refine ⟨fun h => congrArg _ (if_pos h), fun h0 hr => congrArg _ ((if_neg (not_not.2 h0)).trans (if_pos hr)), fun h0 h1 h2 h3 => ?_⟩
    rw [if_neg (not_not.2 h0), if_neg (by omega)]
    refine ⟨fun h => congrArg _ (if_pos (h.imp_right (by simp))), fun hc ha => ?_⟩
    rw [if_neg (by simp [hc, ha])]
    refine ⟨fun hs => congrArg _ (if_pos (by simp [hs])), fun hs hn => congrArg _ ((if_neg (by simp [hs])).trans (if_pos hn)), fun hs hn => ?_⟩
    rw [if_neg (by simp [hs]), if_neg (by omega)]
    refine ⟨fun hu => by rw [hu], fun key v hu hv => ?_⟩
    rw [hu, hv, ← hws]
    rfl
  case noLapse => exact exec_bundleKeyLapse_of_not_held hup hc
  case lapse =>
    rw [exec_bundleKeyLapse_of_keyHeld hup hc, hv, hdue, bundleLapsed_eq, bundleDue]
  case grant =>
    subst hu hm
    refine ⟨fun c r hr hc => ?refused, fun hn => ⟨fun h => ?add, fun h => ?remove, fun h => ?revoke⟩⟩
    case refused =>
      rcases hc with ⟨rfl, h⟩ | ⟨rfl, h⟩ | ⟨rfl, h⟩
      · rw [exec_readerGrantAdd_of_asks hw hx hl ho h, decideGrantAdd_of_refused (s := asked sess s) hr]
      · rw [exec_readerGrantRemove_of_asks hw hx hl ho h, decideGrantRemove_of_refused (s := asked sess s) hr]
      · rw [exec_readerGrantRevoke_of_asks hw hx hl ho h, decideGrantRevoke_of_refused (s := asked sess s) hr]
    case add =>
      rw [exec_readerGrantAdd_of_asks hw hx hl ho (.inl h), decideGrantAdd, grantRefused_asked, hn]
      rfl
    case remove =>
      rw [exec_readerGrantRemove_of_asks hw hx hl ho h, decideGrantRemove, grantRefused_asked, hn]
    case revoke =>
      rw [exec_readerGrantRevoke_of_asks hw hx hl ho h, decideGrantRevoke, grantRefused_asked, hn]
      rfl

/-! ### Measurements -/

section
variable {s : State} {sess : Nat} {tag : BitVec 32} {body : Bytes} {x : Session} {w : Waiter} {c : Instr}

/-- R246: a request of any KIND is decided by the command that names it. -/
theorem exec_measure_of_asks (hw : w = asker (tenantMsg 0x0030) sess tag) (hx : Asks s (tenantMsg 0x0030) sess x) (hl : body.length = 40) (ho : AtOnce s w body)
    (hc : c = .measureFull sess tag body ∧ fieldLe body 2 1 ≠ 2 ∧ fieldLe body 2 1 ≠ 3 ∨ c = .measurePartial sess tag body ∧ fieldLe body 2 1 = 2 ∨
      c = .measureIncremental sess tag body ∧ fieldLe body 2 1 = 3) : exec c s = .next (decideMeasure w body (asked sess s)) := by
  have hdone := done_inOrder decideMeasure hw hx hl ho
  have honly (b : Bool) (hb : b = true) (k : State → State) : onlyIf b k = k := by
    subst hb
    rfl
  rcases hc with ⟨rfl, h2, h3⟩ | ⟨rfl, h⟩ | ⟨rfl, h⟩
  · rw [← honly (jobKind body != 2 && jobKind body != 3) (by simp [jobKind, h2, h3]) (onMessage _ _ _ _ _ _)] at hdone
    exact hdone
  · rw [← honly (jobKind body == 2) (by simp [jobKind, h]) (onMessage _ _ _ _ _ _)] at hdone
    exact hdone
  · rw [← honly (jobKind body == 3) (by simp [jobKind, h]) (onMessage _ _ _ _ _ _)] at hdone
    exact hdone

theorem decideMeasure_of_good (h : jobRefused s w body = none) : decideMeasure w body s =
    if 4096 ≤ fieldLe body 0 2 then acceptJob w body (placementOf s (fieldLe body 0 2)) s
    else match listRefused (fieldLe body 24 8) (fieldLe body 32 4) with
      | some c => refuse w c s
      | none => readRegions (.measure w body) (fieldLe body 0 2) (fieldLe body 24 8) (fieldLe body 32 4) s := by
  rw [decideMeasure, h] <;> rfl

/-- R248: what a request that nothing refuses has passed. -/
theorem jobRefused_eq_none (h : jobRefused s w body = none) : 1 ≤ fieldLe body 2 1 ∧ fieldLe body 2 1 ≤ 3 ∧ fieldLe body 0 2 < 4352 ∧
    jobOwner s w (fieldLe body 0 2) = true ∧ fieldLe body 8 8 ≠ 0 ∧ fieldLe body 8 8 % 64 = 0 ∧ fieldLe body 8 8 ≤ 2 ^ 48 := by
  unfold jobRefused at h
  dsimp only at h
  obtain ⟨hres, h⟩ := of_ite_some_eq_none h
  obtain ⟨hrange, h⟩ := of_ite_some_eq_none h
  obtain ⟨howner, h⟩ := of_ite_some_eq_none h
  obtain ⟨-, h⟩ := of_ite_some_eq_none h
  obtain ⟨-, h⟩ := of_ite_some_eq_none h
  obtain ⟨htotal, -⟩ := of_ite_some_eq_none h
  simp only [jobReserved, jobKind, Bool.or_eq_true, beq_iff_eq, not_or] at hres
  obtain ⟨⟨⟨⟨⟨⟨h0, h3⟩, -⟩, -⟩, -⟩, -⟩, -⟩ := hres
  simp only [jobRangeOk, jobTotal, Bool.not_eq_true', Bool.not_eq_false, Bool.and_eq_true, bne_iff_ne, beq_iff_eq] at htotal howner
  obtain ⟨⟨⟨⟨hne, h64⟩, hmax⟩, -⟩, -⟩ := htotal
  have h3' : ¬3 < fieldLe body 2 1 := fun h => h3 (decide_eq_true h)
  exact ⟨by omega, by omega, by omega, howner, hne, h64, of_decide_eq_true hmax⟩

theorem keptOf_isNone_iff {d : Nat} : (keptOf s d).isNone = true ↔ ∀ k ∈ s.mower.kept, k.domain ≠ d := by
  simp [keptOf]

end

/-- Settles O40: the refusals in their order, then the lines that the job reads. -/
theorem measurementRequestsAreCheckedInOrder : Obligations.MeasurementRequestsAreCheckedInOrder := by
  refine ⟨fun s sess tag body x w u d c hu hw hx hl ho hd hc => ?measure, fun s w body => ⟨fun h => ?kind, jobRefused_eq_none⟩,
    fun s sess tag body x w u d hu hw hx hl ho hd => ?release⟩
  case measure =>
    subst hu hd
    rw [exec_measure_of_asks hw hx hl ho hc]
    refine ⟨fun r hr => congrArg _ ?_, fun hn => ?_⟩
    · rw [decideMeasure, hr]
    · rw [decideMeasure_of_good hn, placement_asked]
      refine ⟨fun hd => congrArg _ (if_pos hd), fun hd => ?_⟩
      rw [if_neg (by omega)]
      exact ⟨fun r hr => by rw [hr], fun hr => by rw [hr]⟩
  case kind =>
    refine if_pos ?_
    simp only [jobReserved, jobKind, Bool.or_eq_true, beq_iff_eq]
    exact .inl (.inl (.inl (.inl (.inl (h.imp_right decide_eq_true)))))
  case release =>
    subst hu hd
    have hexec : exec (.keptRelease sess tag body) s = .next (decideKeptRelease w body (asked sess s)) := done_inOrder decideKeptRelease hw hx hl ho
    rw [hexec]
    refine ⟨fun h => congrArg _ (if_pos h), fun h hd => congrArg _ ((if_neg (not_not.2 h)).trans (if_pos hd)), fun h hd => ?_⟩
    rw [decideKeptRelease, if_neg (not_not.2 h), if_neg (by omega)]
    refine ⟨fun ho => congrArg _ (if_pos (by rw [ho]; rfl)), fun ho hk => congrArg _ ((if_neg (by rw [ho]; decide)).trans (if_pos (keptOf_isNone_iff.2 hk))),
      fun ho ⟨k, hk, hd⟩ => congrArg _ ((if_neg (by rw [ho]; decide)).trans (if_neg ?_))⟩
    rw [keptOf_isNone_iff]
    exact fun hno => hno k hk hd

end Sys2Proof.Machine
end

section
/-!
PROOFS. The mower's jobs (R235 to R256) and the ingest unit's (R197 to R233).
-/

namespace Sys2Proof.Machine
open Sys2Proof

/-! ### The mower -/

/-- R243, R245: what the next payload line of a running job becomes, once its place is known. -/
def issueLine (job : BitVec 32) (j : MJob) (g a : Nat) (s : State) : State :=
  if j.aborting || j.lineCount ≤ j.issued || 4096 ≤ j.issued - j.absorbed || (s.guardN g).inReset || (s.guardN g).clkStopped then s
  else if !(s.guardN g).fenced && (s.guardN g).page.allot 3 == 0 then s.modMower (fun m => { m with shareLimited := true })
  else
    let x := s.guardN g
    let r : Req := { uid := x.uid, src := .mower job j.issued, op := .read, domain := j.domain, addr := BitVec.ofNat 42 a, stage := .parked }
    let s := (s.modMower (fun m => { m with
      shareLimited := m.shareLimited || Config.freeBit s.freeCtr,
      run := mapIf (fun y => y.seq == job) (fun y => { y with issued := y.issued + 1 }) m.run })).used
    let s := s.modGuard g (fun y => { y with uid := y.uid + 1, reqs := y.reqs ++ [r] })
    settle (if x.fenced then fail g r stFenced s else decideKey (openOk s) g r s)

/-- R252: job `j` goes behind the other running ones. -/
def jobRotated (j : MJob) (t : State) : State :=
  t.modMower (fun m => { m with run := m.run.filter (fun y => y.seq != j.seq) ++ m.run.filter (fun y => y.seq == j.seq) })

/-- R249: a job that has taken its turn ends where its target node has been hashed. -/
def turnEnds (t : State) : Option MJob → State
  | none => t
  | some j =>
    match j.hash j.target.1 j.target.2 with
    | none => t
    | some h => if j.aborting then t else jobDone j h t

/-- R242: what a known-answer run of `lane` comes to, where `u` is the state that its failure leaves. -/
def laneTested (lane : Nat) (good : Bool) (u s : State) : State :=
  if good || !bitAt s.mower.lanes lane then s
  else if u.mower.lanes = 0 then forEach u.mower.run (fun j t => endJob j mwLane [] t) u else u

section
variable {s u : State}

theorem exec_measurementJobStart_of_queue {j : MJob} {q : List MJob} (hup : s.ports.rstCold = false) (hq : s.mower.queue = j :: q)
    (hu : u = { s with mower := { s.mower with queue := q, run := s.mower.run ++ [j] } }) :
    exec .measurementJobStart s = .next (if 4 ≤ s.mower.run.length then s else if s.mower.lanes = 0 then endJob j mwLane [] u else u) := by
  subst hu
  refine congrArg _ ((whenUp_up _ hup).trans ?_)
  dsimp only
  rw [hq] <;> rfl

theorem exec_mowerReadIssue_of_line {job : BitVec 32} {j : MJob} {g a : Nat} (hup : s.ports.rstCold = false)
    (hj : s.mower.run.find? (fun j => j.seq == job) = some j) (hl : lineOf j.lines j.issued = some (g, a)) :
    exec (.mowerReadIssue job) s = .next (issueLine job j g a s) := by
  refine congrArg _ ((whenUp_up _ hup).trans ?_)
  dsimp only
  rw [hj]
  dsimp only
  rw [hl] <;> rfl

theorem findSome_jobTurn_eq_none (h : ∀ j ∈ s.mower.run, jobTurn j s = none) :
    s.mower.run.findSome? (fun j => (jobTurn j s).map (fun t => (j, t))) = none := by
  rw [List.findSome?_eq_none_iff]
  intro j hj
  rw [h j hj]
  rfl

theorem exec_mowerNodeHashed_of_none (hup : s.ports.rstCold = false) (h : s.mower.run.findSome? (fun j => (jobTurn j s).map (fun t => (j, t))) = none) :
    exec .mowerNodeHashed s = .next s := by
  refine congrArg _ ((whenUp_up _ hup).trans ?_)
  dsimp only
  rw [h]
  exact ite_self _

theorem exec_mowerNodeHashed_of_turn {j : MJob} {t : State} (hup : s.ports.rstCold = false) (hl : s.mower.lanes ≠ 0)
    (h : s.mower.run.findSome? (fun j => (jobTurn j s).map (fun t => (j, t))) = some (j, t)) :
    exec .mowerNodeHashed s = .next (turnEnds (jobRotated j t) ((jobRotated j t).mower.run.find? (fun y => y.seq == j.seq))) := by
  refine congrArg _ ((whenUp_up _ hup).trans ?_)
  refine (if_neg hl).trans ?_
  rw [h] <;> rfl

theorem exec_mowerLaneKat_of_up (lane : Fin 32) (good : Bool) (hup : s.ports.rstCold = false)
    (hu : u = raise false kMower lane fMowerLane 4 0 (s.modMower (fun m => { m with lanes := setBit m.lanes lane false, laneKatFail := satInc m.laneKatFail }))) :
    exec (.mowerLaneKat lane good) s = .next (if good || !bitAt s.mower.lanes lane then s
      else if setBit s.mower.lanes lane false = 0 then forEach s.mower.run (fun j t => endJob j mwLane [] t) u else u) := by
  have hm : u.mower = { s.mower with lanes := setBit s.mower.lanes lane false, laneKatFail := satInc s.mower.laneKatFail } := by
    rw [hu]
    exact (raise_only _ _ _ _ _ _ _).mower_eq (by decide)
  have hexec : exec (.mowerLaneKat lane good) s = .next (laneTested lane good u s) := by
    subst hu
    exact congrArg _ (whenUp_up _ hup)
  rw [hexec, laneTested, hm]

end

/-- Settles O41: each command of the mower by the job or the lane that it meets. -/
theorem theMowerHashesItsJobsInTurn : Obligations.TheMowerHashesItsJobsInTurn := by
  refine ⟨fun s j q hup hq => ⟨fun h => ?full, fun h u hu => ⟨fun hl => ?noLane, fun hl => ?start⟩⟩,
    fun s job j g a r u hup hj hl hr hu => ⟨fun h => ?idle, fun ha hc hr4 hrst hclk => ⟨fun hf => ?fenced, fun hf h0 => ?share, fun hf h0 => ?issue⟩⟩,
    fun s hup => ⟨fun h => ?off, fun _ h => exec_mowerNodeHashed_of_none hup (findSome_jobTurn_eq_none h),
      fun j t u hl ht hu j' hj => ⟨fun h => ?more, fun hash hh ha => ?top⟩⟩,
    fun s lane u hup hu => ⟨fun good h => ?good, fun hb hl => ?fewer, fun hb hl => ?last⟩,
    fun s p v ⟨hreach, hpriv⟩ => ⟨fun h => ?absent, fun j hj => ?abort⟩⟩
  case full => rw [exec_measurementJobStart_of_queue hup hq rfl, if_pos h]
  case noLane => rw [exec_measurementJobStart_of_queue hup hq hu, if_neg (by omega), if_pos hl]
  case start => rw [exec_measurementJobStart_of_queue hup hq hu, if_neg (by omega), if_neg hl]
  case idle =>
    rw [exec_mowerReadIssue_of_line hup hj hl]
    refine congrArg _ (if_pos ?_)
    simpa [or_assoc] using h
  case fenced =>
    subst hr hu
    rw [exec_mowerReadIssue_of_line hup hj hl, issueLine, if_neg (by simp [*]), if_neg (by simp [hf])]
    exact congrArg _ (congrArg settle (if_pos hf))
  case share =>
    rw [exec_mowerReadIssue_of_line hup hj hl, issueLine, if_neg (by simp [*]), if_pos (by simp [hf, h0])]
    rfl
  case issue =>
    subst hr hu
    rw [exec_mowerReadIssue_of_line hup hj hl, issueLine, if_neg (by simp [*]), if_neg (by simp [h0])]
    exact congrArg _ (congrArg settle (if_neg (by simp [hf])))
  case off =>
    refine congrArg _ ((whenUp_up _ hup).trans ?_)
    exact if_pos h
  case more =>
    have hu : u = jobRotated j t := hu
    rw [exec_mowerNodeHashed_of_turn hup hl ht, ← hu, hj, turnEnds]
    rcases h with h | h
    · rw [h]
    · cases j'.hash j'.target.1 j'.target.2 with
      | none => rfl
      | some hash => exact congrArg _ (if_pos h)
  case top =>
    have hu : u = jobRotated j t := hu
    rw [exec_mowerNodeHashed_of_turn hup hl ht, ← hu, hj, turnEnds, hh]
    exact congrArg _ (if_neg (by simp [ha]))
  case good =>
    rw [exec_mowerLaneKat_of_up lane good hup hu, if_pos (by simpa using h)]
  case fewer => rw [exec_mowerLaneKat_of_up lane false hup hu, if_neg (by simp [hb]), if_neg hl]
  case last => rw [exec_mowerLaneKat_of_up lane false hup hu, if_neg (by simp [hb]), if_pos hl]
  case absent =>
    have hnone : (s.mower.queue ++ s.mower.run).find? (fun j => j.seq == v) = none := by
      rw [List.find?_eq_none]
      exact fun j hj => by simpa using h j hj
    refine congrArg _ ((writeAt_ok hreach (fun _ => hpriv)).trans (congrArg _ ?_))
    rw [hnone]
  case abort =>
    refine congrArg _ ((writeAt_ok hreach (fun _ => hpriv)).trans (congrArg _ ?_))
    rw [hj]

/-! ### Ingest jobs -/

/-- R200: the oldest queued job starts with the seed that was drawn. -/
def ingestStarts (j : IngestJob) (q : List IngestJob) (r : DomRec) : Option Bytes × State → State
  | (none, t) => t
  | (some seed, t) =>
    let e := deriveEntry seed j.model 1 .seal false
    let t := t.modIngest (fun u => { u with queue := q, run := some j })
    let t := setDom { r with state := .keyed, newest := 1, gens := [e] } t
    let t := modModel j.model (fun m => { m with custody := .ingesting, placement := j.place }) t
    commit [storeFrame t j.model, modelFrameOf t j.model] [] [] t

/-- R214: what a header that has been read comes to, where `check` is the first check of it that fails. -/
def headerChecked (j : IngestJob) (h : Bytes) (t : State) (check : Option (BitVec 8)) : State :=
  match check with
  | some o => settle (endIngest j o (onlyIf (o == igAuth) countAuth t))
  | none => settle (t.modIngest (fun u => { u with run := some { j with header := h, headerOk := true, seeks := none, noKey := false } }))

/-- R214: what the read of a header comes to. -/
def headerRead (j : IngestJob) : Option Bool × Bytes × State → State
  | (none, _, t) => ingestWaits t
  | (some false, _, t) => settle (endIngest j igStage t)
  | (some true, h, t) => headerChecked j h t (headerCheck j (bundleOf t j.model) h)

/-- R216: the bytes of a chunk that have been written are counted. -/
def chunkCounted (n : Nat) (u : State) : State :=
  ((u.modMower (fun m => { m with bytes := m.bytes + BitVec.ofNat 64 (64 * n) })).modIngest (fun i => { i with
    bytes := i.bytes + BitVec.ofNat 64 (64 * n), shareLimited := i.shareLimited || Config.freeBit u.freeCtr })).used

/-- R217, R219: what the writes of a chunk come to, whose trailer is `tr`, ciphertext `ct` and plaintext `pt`, under `key` and `iv`. -/
def chunkWritten (j : IngestJob) (key iv tr ct pt : Bytes) : Option Bool × Nat × State → State
  | (none, _, u) => ingestWaits u
  | (some ok, n, u) =>
    if !ok then settle (endIngest j igWrite (chunkCounted n u))
    else if gcmTag key iv (j.header.take 112 ++ slice tr 16 8) ct ≠ slice tr 0 16 then settle (endIngest j igAuth (countAuth (chunkCounted n u)))
    else settle ((chunkCounted n u).modIngest (fun i =>
      { i with run := some { j with chunk := j.chunk + 1, seeks := none, noKey := false, leaves := j.leaves ++ chunkLeaves j pt } }))

/-- R215 to R217: what the read of a chunk's record comes to. -/
def chunkRead (j : IngestJob) (writes : List Bool) : Option Bool × Bytes × State → State
  | (none, _, t) => ingestWaits t
  | (some false, _, t) => settle (endIngest j igStage t)
  | (some true, rec, t) =>
    let tr := slice rec (chunkLen j j.chunk) 64
    let ct := rec.take (chunkLen j j.chunk)
    if !trailerOk j tr then settle (endIngest j igChunk t)
    else
      let key := (bundleOf t j.model).key
      let iv := bundleIv j.header j.chunk
      let pt := gcmCrypt key iv ct
      chunkWritten j key iv tr ct pt (writeLines j (16384 * j.chunk) ((chunks 64 pt).zip writes) 0 t)

/-- R205, R221: what the read of a manifest comes to, where `root` is the root of what was placed. -/
def manifestRead (j : IngestJob) (root : Bytes) : Option Bool × Bytes × State → State
  | (none, _, t) => ingestWaits t
  | (some false, _, t) => settle (endIngest j igStage t)
  | (some true, m, t) =>
    if !manifestForm j m then settle (endIngest j igManifest t)
    else if gcmTag (bundleOf t j.model).key (bundleIv j.header 0xFFFFFFFF) (j.header.take 112 ++ m.take 112) [] ≠ slice m 112 16 then
      settle (endIngest j igManifest (countAuth t))
    else if slice m 24 32 ≠ zeros 32 ∧ slice m 24 32 ≠ root then settle (endIngest j igRoot t)
    else settle (ingestDone j root t)

section
variable {s t u : State} {j : IngestJob} {lines : List (Bool × BitVec 512 × BitVec 64)} {writes : List Bool}

theorem exec_ingestJobStart_of_queue {q : List IngestJob} {r : DomRec} (hup : s.ports.rstCold = false) (hrun : s.ingest.run = none)
    (hq : s.ingest.queue = j :: q) (hr : s.dom j.model = some r) :
    exec .ingestJobStart s = .next (if !drawNow s then s else ingestStarts j q r (drawBytes 32 s)) := by
  refine congrArg _ ((whenUp_up _ hup).trans ?_)
  rw [hrun, hq]
  dsimp only
  rw [hr] <;> rfl

theorem exec_ingestHeaderRead_of_run (hup : s.ports.rstCold = false) (hrun : s.ingest.run = some j) :
    exec (.ingestHeaderRead lines) s = .next (if j.headerOk || lines.length ≠ 2 then s
      else if linesIn j.stage < 2 then settle (endIngest j igShort s) else headerRead j (readLines j 0 lines [] s)) := by
  refine congrArg _ ((whenUp_up _ hup).trans ?_)
  rw [hrun] <;> rfl

theorem headerRead_of_fault {h : Bytes} {o : BitVec 8} (hc : headerCheck j (bundleOf t j.model) h = some o) :
    headerRead j (some true, h, t) = settle (endIngest j o (onlyIf (o == igAuth) countAuth t)) :=
  congrArg (headerChecked j h t) hc

theorem headerRead_of_good {h : Bytes} (hc : headerCheck j (bundleOf t j.model) h = none) : headerRead j (some true, h, t) =
    settle (t.modIngest (fun u => { u with run := some { j with header := h, headerOk := true, seeks := none, noKey := false } })) :=
  congrArg (headerChecked j h t) hc

theorem exec_ingestChunk_of_run (hup : s.ports.rstCold = false) (hrun : s.ingest.run = some j) (hh : j.headerOk = true)
    (hc : j.chunk < chunkCountOf j.payload) (hl : lines.length = chunkLen j j.chunk / 64 + 1) (hw : writes.length = chunkLen j j.chunk / 64)
    (hm : s.mower.lanes ≠ 0) (hg : s.ingest.gcmLanes ≠ 0) :
    exec (.ingestChunk lines writes) s = .next (chunkRead j writes (readLines j (2 + 16385 * j.chunk) lines [] s)) := by
  refine congrArg _ ((whenUp_up _ hup).trans ?_)
  rw [hrun]
  dsimp only
  rw [if_neg (by simpa [hh, hc, hl, hw] using ⟨hm, hg⟩)]
  obtain ⟨o, rec, t⟩ := readLines j (2 + 16385 * j.chunk) lines [] s
  rcases o with _ | _ | _
  · rfl
  · rfl
  · rw [chunkRead]
    dsimp only
    split
    · rfl
    · generalize writeLines _ _ _ _ _ = y
      obtain ⟨b, n, u⟩ := y
      cases b <;> rfl

theorem chunkRead_of_trailer {rec tr ct iv pt : Bytes} (htr : tr = slice rec (chunkLen j j.chunk) 64) (hct : ct = rec.take (chunkLen j j.chunk))
    (hiv : iv = bundleIv j.header j.chunk) (hpt : pt = gcmCrypt (bundleOf t j.model).key iv ct) (hok : trailerOk j tr = true) :
    chunkRead j writes (some true, rec, t) =
      chunkWritten j (bundleOf t j.model).key iv tr ct pt (writeLines j (16384 * j.chunk) ((chunks 64 pt).zip writes) 0 t) := by
  rw [chunkRead]
  dsimp only
  rw [← htr, ← hct, ← hiv, ← hpt, hok]
  rfl

theorem exec_ingestManifest_of_run (hup : s.ports.rstCold = false) (hrun : s.ingest.run = some j) (hh : j.headerOk = true)
    (hc : chunkCountOf j.payload ≤ j.chunk) (hl : lines.length = 2) :
    exec (.ingestManifest lines) s = .next (manifestRead j (rootOfLeaves .seal j.payload j.leaves)
      (readLines j ((128 + j.payload + 64 * chunkCountOf j.payload) / 64) lines [] s)) := by
  refine congrArg _ ((whenUp_up _ hup).trans ?_)
  rw [hrun]
  dsimp only
  rw [if_neg (by simp [hh, hl, hc])]
  obtain ⟨o, m, t⟩ := readLines j ((128 + j.payload + 64 * chunkCountOf j.payload) / 64) lines [] s
  rcases o with _ | _ | _ <;> rfl

end

/-- Settles O42: each part by what its read, its check or its writes come to. -/
theorem anIngestJobRunsThroughItsParts : Obligations.AnIngestJobRunsThroughItsParts := by
  refine ⟨fun s j q r hup hrun hq hr => ?start, fun s j lines hup hrun => ⟨fun h => ?headerDone, fun h0 hl => ⟨fun h2 => ?short, fun h2 h t => ?header⟩⟩,
    fun s j lines writes rec t len tr ct iv pt hup hrun hh hc hlen hl hw hm hg htr hct hiv hpt => ?chunk,
    fun s j lines m t root tag hup hrun hh hc hl hroot htag => ?manifest, fun s p v ⟨hreach, hpriv⟩ => ⟨fun h => ?idle, fun j hb hj => ?abort⟩⟩
  case start =>
    rw [exec_ingestJobStart_of_queue hup hrun hq hr]
    refine ⟨fun h => congrArg _ (if_pos (by rw [h]; rfl)), fun t h hd => ?_, fun draw t h hd v hv => ?_⟩
    · rw [if_neg (by simp [h]), hd]
      rfl
    · rw [if_neg (by simp [h]), hd, hv]
      rfl
  case headerDone => rw [exec_ingestHeaderRead_of_run hup hrun, if_pos (by simp [h])]
  case short => rw [exec_ingestHeaderRead_of_run hup hrun, if_neg (by simp [h0, hl]), if_pos h2]
  case header =>
    rw [exec_ingestHeaderRead_of_run hup hrun, if_neg (by simp [h0, hl]), if_neg (by omega)]
    refine ⟨fun hr => by rw [hr]; rfl, fun hr => by rw [hr]; rfl, fun hr => ?_⟩
    rw [hr]
    refine ⟨fun ho => by rw [headerRead_of_fault ho]; rfl, fun o ho hne => ?_, fun ho => ?_⟩
    · rw [headerRead_of_fault ho, beq_eq_false_iff_ne.2 hne]
      rfl
    · rw [headerRead_of_good ho]
      rfl
  case chunk =>
    rw [hlen] at hl hw htr hct
    rw [exec_ingestChunk_of_run hup hrun hh hc hl hw hm hg]
    refine ⟨fun hr => by rw [hr]; rfl, fun hr => by rw [hr]; rfl, fun hr => ?_⟩
    rw [hr]
    refine ⟨fun hbad => ?_, fun hok n u v hv => ?_⟩
    · rw [chunkRead, ← htr, hbad]
      rfl
    · have hv : v = chunkCounted n u := hv
      rw [chunkRead_of_trailer htr hct hiv hpt hok, hv]
      refine ⟨fun hw => by rw [hw]; rfl, fun hw => by rw [hw]; rfl, fun hw => ?_⟩
      rw [hw, chunkWritten, if_neg (by decide)]
      exact ⟨fun hne => by rw [if_pos hne], fun he => by rw [if_neg (not_not.2 he)]; rfl⟩
  case manifest =>
    rw [exec_ingestManifest_of_run hup hrun hh hc hl, ← hroot]
    refine ⟨fun hr => by rw [hr]; rfl, fun hr => by rw [hr]; rfl, fun hr => ?_⟩
    rw [hr, manifestRead, ← htag]
    refine ⟨fun hf => congrArg _ (if_pos (by simp [hf])), fun hf ht => ?_, fun hf ht hz hne => ?_, fun hf ht hz => ?_⟩
    · rw [if_neg (by simp [hf]), if_pos ht]
    · rw [if_neg (by simp [hf]), if_neg (not_not.2 ht), if_pos ⟨hz, hne⟩]
    · rw [if_neg (by simp [hf]), if_neg (not_not.2 ht), if_neg (by tauto)]
  case idle =>
    refine congrArg _ ((writeAt_ok hreach (fun _ => hpriv)).trans (congrArg _ ?_))
    rcases h with h | h
    · rw [h]
      rfl
    · unfold onlyIf
      split
      · dsimp only
        rw [h]
      · rfl
  case abort =>
    refine congrArg _ ((writeAt_ok hreach (fun _ => hpriv)).trans (congrArg _ ?_))
    rw [hb, onlyIf_true, hj]

end Sys2Proof.Machine
end

section
/-!
PROOFS. The key vault's commands (R278 to R293).
-/

namespace Sys2Proof.Machine
open Sys2Proof

/-- R281: the management core that writes over a path. -/
def pathCore : Path → Option Nat
  | .core c => some c.toNat
  | .port _ _ => none

/-- R288, R289: what a command `r` comes to that its checks answered with `e`, where `u` is the state with its word stored. -/
def vaultGoes (core : Option Nat) (r : VaultRun) (e : Option (BitVec 8)) (s u : State) : State :=
  match e with
  | some code => vaultEnd code (u.modVault (fun v => { v with foreign := if core.isNone && code == eOwner then satInc v.foreign else v.foreign }))
  | none => if vaultDown s r then vaultEnd 0x72 u else vaultRun r u

section
variable {s u t : State} {r : VaultRun}

theorem pathCore_eq {p : Path} {core : Option Nat} (h : (∃ k : Fin 4, p = .core k ∧ core = some k.val) ∨ (∃ a b, p = .port a b) ∧ core = none) :
    pathCore p = core := by
  rcases h with ⟨k, rfl, rfl⟩ | ⟨⟨a, b, rfl⟩, rfl⟩ <;> rfl

/-- R284: each row of VAULT_CMD is the write of its code. -/
theorem exec_vaultRow {p : Path} {v : BitVec 32} {code : Nat} {c : Instr} (hw : Write s p (vaultPage + 0x20)) (hg : bitAt v 31 = true) (hc : code = bitsOf v 7 0)
    (hmem : (code, c) ∈ [(1, Instr.vaultGenerate p v), (2, .vaultGeneratePair p v), (3, .vaultDerive p v), (4, .vaultImport p v), (5, .vaultExport p v),
      (6, .save p v), (7, .restore p v), (8, .clear p v), (9, .statement p v)]) : exec c s = .next (accessOk p 0 (vaultCmdWrite p v s)) := by
  rw [← vaultRow_ok hw hg hc]
  simp only [List.mem_cons, List.not_mem_nil, or_false, Prod.mk.injEq] at hmem
  rcases hmem with ⟨rfl, rfl⟩ | ⟨rfl, rfl⟩ | ⟨rfl, rfl⟩ | ⟨rfl, rfl⟩ | ⟨rfl, rfl⟩ | ⟨rfl, rfl⟩ | ⟨rfl, rfl⟩ | ⟨rfl, rfl⟩ | ⟨rfl, rfl⟩ <;> rfl

theorem vaultCmdWrite_of_busy {p : Path} {v : BitVec 32} (hg : bitAt v 31 = true) (h : s.vault.run.isSome = true) :
    vaultCmdWrite p v s = s.modVault (fun v => { v with dropped := satInc v.dropped }) := by
  unfold vaultCmdWrite
  rw [hg, if_neg (by simp), if_pos h]

theorem vaultCmdWrite_of_idle {p : Path} {v : BitVec 32} {core : Option Nat} (hg : bitAt v 31 = true) (h : s.vault.run = none) (hcore : pathCore p = core)
    (hu : u = { s with vault := { s.vault with cmd := v &&& 0x003F3FFF#32 } })
    (hr : r = { code := bitsOf v 7 0, slot := bitsOf v 13 8, slot2 := bitsOf v 21 16, core := core.getD 0, arg := s.vault.arg, input := vaultIn s 0 8192,
                ctxLen := s.vault.len.toNat }) : vaultCmdWrite p v s = vaultGoes core r (vaultRefused s core v) s u := by
  unfold vaultCmdWrite
  rw [hg, if_neg (by simp), if_neg (by rw [h]; simp), hr, hu, ← hcore]
  rfl

theorem vaultGoes_of_refused {core : Option Nat} {e : BitVec 8} : vaultGoes core r (some e) s u = { u with vault := { u.vault with
    run := none, valid := true, result := e, foreign := if core = none ∧ e = eOwner then satInc u.vault.foreign else u.vault.foreign } } := by
  have hiff : (core.isNone && e == eOwner) = true ↔ core = none ∧ e = eOwner := by simp
  have hif : (if (core.isNone && e == eOwner) = true then satInc u.vault.foreign else u.vault.foreign) =
      if core = none ∧ e = eOwner then satInc u.vault.foreign else u.vault.foreign := if_congr hiff rfl rfl
  rw [← hif]
  rfl

/-! ### A command that its checks pass, by its code -/

theorem vaultWait_of_datapath {j : PkJob} (h : pkMode s.pk ≠ 3) : vaultWait r j s = pkEnqueue j { s with vault := { s.vault with run := some r } } := if_neg h

theorem vaultDraw_of_wait {n : Nat} (h : drawNow s = false) :
    vaultDraw r n s = { s with vault := { s.vault with run := some r }, ent := { s.ent with queue := s.ent.queue ++ [(.vault, n)] } } := if_neg (by simp [h])

theorem vaultDraw_of_draw {n : Nat} {b : Option Bytes} (h : drawNow s = true) (hd : drawBytes n s = (b, t)) : vaultDraw r n s = vaultDrawn r b t := by
  rw [vaultDraw, if_pos h, hd]

theorem vaultRun_generate (hc : r.code = 1) (ht : typeParam (attrType r.arg) = none) : vaultRun r s = vaultDraw r (typeLen (attrType r.arg)) s := by
  simp only [vaultRun, hc, ht]

theorem vaultRun_generateKey {n : Nat} (hc : r.code = 1) (ht : typeParam (attrType r.arg) = some n) : vaultRun r s = vaultWait r (vaultJob 3 n none []) s := by
  simp only [vaultRun, hc, ht]

theorem vaultRun_generatePair (hc : r.code = 2) : vaultRun r s = vaultWait r (vaultJob 3 9 none []) s := by simp only [vaultRun, hc]

theorem vaultRun_derive (hc : r.code = 3) (ht : attrType (s.anchor r.slot2).attr ≠ 8) : vaultRun r s = deriveSlot r (s.anchor r.slot2).value s := by
  simp only [vaultRun, hc, if_neg ht]

theorem vaultRun_agree (hc : r.code = 3) (ht : attrType (s.anchor r.slot2).attr = 8) :
    vaultRun r s = vaultWait r (vaultJob 5 2 (some r.slot2) (windowOf [(offPub, slice r.input 256 97)])) s := by
  simp only [vaultRun, hc, if_pos ht]

theorem vaultRun_import (hc : r.code = 4) : vaultRun r s = vaultWait r (vaultJob 7 8 (some r.slot2) (windowOf [(offSig, r.input.take 1568)])) s := by
  simp only [vaultRun, hc]

theorem vaultRun_export (hc : r.code = 5) : vaultRun r s =
    vaultEnd eOk (vaultOut 8 (keyWrap (padTo 32 (s.anchor r.slot2).value) (padTo 96 (s.anchor r.slot).value)) (vaultOut 0 (vecBytes 4 (s.anchor r.slot).attr) s)) := by
  simp only [vaultRun, hc]

theorem vaultRun_save (hc : r.code = 6) : vaultRun r s = vaultDraw r 12 s := by simp only [vaultRun, hc]

theorem vaultRun_clear (hc : r.code = 8) : vaultRun r s = vaultEnd eOk (clearSlot r.slot s) := by simp only [vaultRun, hc]

theorem vaultRun_restore {head iv ct : Bytes} (hc : r.code = 7) (hh : head = r.input.take 48) (hiv : iv = slice head 32 12) (hct : ct = slice r.input 48 96) :
    vaultRun r s = if gcmTag (s.anchor 5).value iv head ct ≠ slice r.input 144 16 then vaultEnd eAuth s
      else if s.boot.runSvn.toNat < fieldLe head 16 4 then vaultEnd 0x22 s
      else vaultEnd eOk (fillSlot r.slot (bytesVec 32 (slice head 12 4))
        ((gcmCrypt (s.anchor 5).value iv ct).take (typeLen (attrType (bytesVec 32 (slice head 12 4))))) s) := by
  simp only [vaultRun, hc]
  rw [← hh, ← hiv, ← hct]

theorem vaultRun_statement (hc : r.code = 9) (ht : typeParam (attrType (s.anchor r.slot).attr) = none) :
    vaultRun r s = stmtSign r (symKeyId (s.anchor r.slot).value) s := by
  simp only [vaultRun, hc, ht]

theorem vaultRun_statementKey {n : Nat} (hc : r.code = 9) (ht : typeParam (attrType (s.anchor r.slot).attr) = some n) :
    vaultRun r s = match pairOf s r.slot with
      | some e => vaultWait r (vaultJob 4 9 (some e) []) s
      | none => vaultWait r (vaultJob 4 n (some r.slot) []) s := by
  simp only [vaultRun, hc, ht] <;> rfl

theorem vaultDrawn_generate {b : Bytes} (hc : r.code = 1) : vaultDrawn r (some b) s = vaultEnd eOk (fillSlot r.slot
    (mkAttr (attrType r.arg) (attrUsage r.arg) 1 (attrExport r.arg) (attrPersistent r.arg) (ownerOf s r.core)) b s) := if_pos hc

theorem vaultDrawn_save {iv head ct : Bytes} (hc : r.code = 6)
    (hh : head = blobMagic ++ [BitVec.ofNat 8 r.slot, 0] ++ vecBytes 4 (s.anchor r.slot).attr ++ vecBytes 4 s.boot.runSvn ++ zeros 12 ++ iv ++ zeros 4)
    (hct : ct = gcmCrypt (s.anchor 5).value iv (padTo 96 (s.anchor r.slot).value)) :
    vaultDrawn r (some iv) s = vaultEnd eOk (vaultOut 0 (head ++ ct ++ gcmTag (s.anchor 5).value iv head ct) s) := by
  rw [vaultDrawn]
  dsimp only
  rw [if_neg (by omega), ← hh, ← hct]

end

theorem fillSlot_self (s : State) {n : Nat} (attr : BitVec 32) (value : Bytes) (hn : n < 64) : (fillSlot n attr value s).anchor n =
    { attr := attr, value := value, epoch := (s.anchor n).epoch + 1, hmacInner := if attrType attr == 2 then hmacInnerOf 0xA value else [],
      hmacOuter := if attrType attr == 2 then hmacOuterOf 0xA value else [] } := by
  unfold State.anchor
  rw [dif_pos hn, dif_pos hn]
  exact (vmod_get _ _ _ _).trans (if_pos rfl)

/-- Settles O43: a command by its checks, then by its code. -/
theorem vaultCommandsAreCheckedThenCarriedOut : Obligations.VaultCommandsAreCheckedThenCarriedOut := by
  refine ⟨fun s p v c code slot slot2 core u r hw hg hc hs hs2 hmem hcore hu hr => ⟨fun h => ?busy, fun hidle => ?idle⟩,
    fun s n m attr value hn => ?fill⟩
  case busy =>
    rw [exec_vaultRow hw hg hc hmem, vaultCmdWrite_of_busy hg h]
    rfl
  case fill =>
    rw [fillSlot_self s attr value hn]
    exact ⟨rfl, rfl, rfl, anchor_fillSlot_ne n m attr value s⟩
  case idle =>
    have hexec : exec c s = .next (accessOk p 0 (vaultGoes core r (vaultRefused s core v) s u)) := by
      rw [exec_vaultRow hw hg hc hmem, vaultCmdWrite_of_idle hg hidle (pathCore_eq hcore) hu (r := r) (by rw [hr, hc, hs, hs2])]
    refine ⟨fun e he => by rw [hexec, he, vaultGoes_of_refused], fun he hd => ?_, fun he hd ok hok => ?_⟩
    · rw [hexec, he]
      exact congrArg _ (congrArg _ (if_pos hd))
    · have hrun : exec c s = .next (accessOk p 0 (vaultRun r u)) := by
        rw [hexec, he]
        exact congrArg _ (congrArg _ (if_neg (by simp [hd])))
      have hrc : r.code = code := by rw [hr]
      have hrs : r.slot = slot := by rw [hr]
      have hrs2 : r.slot2 = slot2 := by rw [hr]
      have hra : r.arg = s.vault.arg := by rw [hr]
      have hcr : r.core = core.getD 0 := by rw [hr]
      have hus (n : Nat) : u.anchor n = s.anchor n := by rw [hu]; rfl
      have hpk : u.pk = s.pk := by rw [hu]
      have hboot : u.boot = s.boot := by rw [hu]
      have hpair (n : Nat) : pairOf u n = pairOf s n := by rw [hu]; rfl
      have hdp (j : PkJob) (h : pkMode s.pk ≠ 3) : vaultWait r j u = pkEnqueue j { u with vault := { u.vault with run := some r } } :=
        vaultWait_of_datapath (by rwa [hpk])
      rw [hrun]
      refine ⟨fun n hn => ?_, fun h1 ht hd k t hk => ?_, fun n h1 ht hp => ?_, fun h2 hp => ?_, fun h3 ht => ?_, fun h3 ht hp => ?_, fun h4 hp => ?_,
        fun h5 => ?_, fun iv t head ct h6 hd hiv hh hct => ?_, fun head iv ct h7 hh hiv hct => ?_, fun h8 => ?_, fun h9 ht => ?_, fun n h9 ht hp => ?_⟩
      · have hdraw : vaultRun r u = vaultDraw r n u := by
          rcases hn with ⟨h1, ht, hn⟩ | ⟨h6, hn⟩
          · rw [vaultRun_generate (hrc.trans h1) (by rw [hra, ht]), hra, ← hn]
          · rw [vaultRun_save (hrc.trans h6), hn]
        rw [hdraw]
        refine ⟨fun h => by rw [vaultDraw_of_wait h], fun t h ht => ?_⟩
        rw [vaultDraw_of_draw h ht]
        rfl
      · rw [vaultRun_generate (hrc.trans h1) (by rw [hra, ht]), hra, vaultDraw_of_draw hd hk, vaultDrawn_generate (hrc.trans h1), hok, hrs, hra, hcr]
      · rw [vaultRun_generateKey (hrc.trans h1) (by rw [hra, ht]), hdp _ hp]
      · rw [vaultRun_generatePair (hrc.trans h2), hdp _ hp]
      · rw [vaultRun_derive (hrc.trans h3) (by rw [hrs2, hus]; exact ht), hok, hrs2, hus, ← hrs]
        rfl
      · rw [vaultRun_agree (hrc.trans h3) (by rw [hrs2, hus]; exact ht), hdp _ hp, hrs2]
      · rw [vaultRun_import (hrc.trans h4), hdp _ hp, hrs2]
      · rw [vaultRun_export (hrc.trans h5), hok, hrs, hrs2, hus, hus]
      · rw [vaultRun_save (hrc.trans h6), vaultDraw_of_draw hd hiv, vaultDrawn_save (head := head) (ct := ct) (hrc.trans h6) (by rw [hh, hrs]) (by rw [hct, hrs]), hok]
      · rw [vaultRun_restore (hrc.trans h7) hh hiv hct, hrs, hus, hboot, hok]
        refine ⟨fun hne => congrArg _ (congrArg _ (if_pos hne)), fun he => ?_⟩
        rw [if_neg (not_not.2 he)]
        exact ⟨fun h => congrArg _ (congrArg _ (if_pos h)), fun h => congrArg _ (congrArg _ (if_neg (by omega)))⟩
      · rw [vaultRun_clear (hrc.trans h8), hok, hrs]
      · rw [vaultRun_statement (hrc.trans h9) (by rw [hrs, hus]; exact ht), hrs, hus]
      · rw [vaultRun_statementKey (hrc.trans h9) (by rw [hrs, hus]; exact ht), hrs, hpair]
        cases pairOf s slot with
        | none => exact congrArg _ (congrArg _ (hdp _ hp))
        | some e => exact congrArg _ (congrArg _ (hdp _ hp))

end Sys2Proof.Machine
end

section
/-!
PROOFS. The public-key engine: its job slots (R316 to R367) and the phases of its jobs (R332 to R361).
-/

namespace Sys2Proof.Machine
open Sys2Proof

/-! ### Job slots -/

section
variable {s : State} {n : Fin 8} {p : Path} {v : BitVec 32}

/-- R324: each row of PK_JOB_CMD is the write of its OP. -/
theorem exec_pkRow {c : Instr} (hw : Write s p (pkSlotPage n + 0x20)) (hg : bitAt v 31 = true)
    (hmem : (bitsOf v 7 0, c) ∈ [(1, Instr.pkSign n p v), (2, .pkVerify n p v), (3, .pkKeygen n p v), (4, .pkPublic n p v), (5, .pkDerive n p v),
      (6, .pkEncaps n p v), (7, .pkDecaps n p v), (8, .pkCheckCurve n p v)]) :
    exec c s = .next (accessOk p 0 (if ownsSlot n p then pkCmdWrite n v s else pkForeign s)) := by
  rw [← pkRow_ok hw hg rfl]
  simp only [List.mem_cons, List.not_mem_nil, or_false, Prod.mk.injEq] at hmem
  rcases hmem with ⟨h, rfl⟩ | ⟨h, rfl⟩ | ⟨h, rfl⟩ | ⟨h, rfl⟩ | ⟨h, rfl⟩ | ⟨h, rfl⟩ | ⟨h, rfl⟩ | ⟨h, rfl⟩ <;> rw [h] <;> rfl

theorem slots_modSlot (n : Fin 8) (f : PkSlot → PkSlot) (s : State) : (modSlot n f s).pk.slots.toList.getD n {} = f (s.pk.slots.get n) := by
  rw [getD_toList]
  exact (vmod_get _ _ _ _).trans (if_pos rfl)

theorem pkCmdWrite_of_busy (h : s.pk.busy n = true) : pkCmdWrite n v s = { s with pk := { s.pk with dropped := satInc s.pk.dropped } } := if_pos h

/-- R324, R334: GO of a free slot submits the job that its registers name. -/
theorem pkCmdWrite_of_free {j : PkJob} (hg : bitAt v 31 = true) (h : s.pk.busy n = false)
    (hj : j = { slot := n, op := BitVec.ofNat 8 (bitsOf v 7 0), param := BitVec.ofNat 8 (bitsOf v 15 8), keySrc := bitAt v 16, anchor := bitsOf v 22 17,
                reservedBits := bitsOf v 30 23 != 0 || bitsOf (s.pk.slots.get n).len 31 10 != 0, len := bitsOf (s.pk.slots.get n).len 9 0,
                long := isLong s.pk (bitsOf v 7 0) (bitsOf v 15 8) }) :
    pkCmdWrite n v s = pkSubmit j (modSlot n (fun x => { x with cmd := BitVec.ofNat 31 (v &&& 0x007FFFFF#32).toNat }) s) := by
  unfold pkCmdWrite
  rw [if_neg (by simp [h]), hg]
  dsimp only
  rw [onlyIf_true, slots_modSlot, hj]
  rfl

/-- R353: a job joins the queue of its class with the next place. -/
theorem pkEnqueue_eq (j : PkJob) (s : State) : pkEnqueue j s = if j.long = true then
      { s with pk := { s.pk with longQ := s.pk.longQ ++ [{ j with goAt := s.pk.nextGo }], nextGo := s.pk.nextGo + 1 } }
    else { s with pk := { s.pk with shortQ := s.pk.shortQ ++ [{ j with goAt := s.pk.nextGo }], nextGo := s.pk.nextGo + 1 } } := by
  unfold pkEnqueue State.modPk
  dsimp only
  split <;> rfl

theorem exec_pkAbort_of_bit (h : Access s p (pkSlotPage n + 0x2C)) (hb : bitAt v 0 = true) :
    exec (.pkAbort n p v) s = .next (accessOk p 0 (if ownsSlot n p then pkCtlWrite n v s else pkForeign s)) := by
  have hrow : onlyIf (bitAt v 0) (writeGated p (pkSlotPage n + 0x2C) (ownsSlot n p) pkForeign (pkCtlWrite n v)) s =
      accessOk p 0 (if ownsSlot n p then pkCtlWrite n v s else pkForeign s) := by
    rw [hb, onlyIf_true]
    exact writeGated_any h
  exact congrArg done hrow

theorem exec_pkScrub_of_bit (h : Access s p (pkSlotPage n + 0x2C)) (h0 : bitAt v 0 = false) (h1 : bitAt v 1 = true) :
    exec (.pkScrub n p v) s = .next (accessOk p 0 (if ownsSlot n p then pkCtlWrite n v s else pkForeign s)) := by
  have hrow : onlyIf (bitAt v 1 && !bitAt v 0) (writeGated p (pkSlotPage n + 0x2C) (ownsSlot n p) pkForeign (pkCtlWrite n v)) s =
      accessOk p 0 (if ownsSlot n p then pkCtlWrite n v s else pkForeign s) := by
    rw [h0, h1]
    exact writeGated_any h
  exact congrArg done hrow

theorem pkCtlWrite_eq (b0 b1 : Bool) (h0 : bitAt v 0 = b0) (h1 : bitAt v 1 = b1) :
    pkCtlWrite n v s = onlyIf b1 (pkScrubSlot n) (onlyIf b0 (pkAbortSlot n) s) := by rw [pkCtlWrite, h0, h1]

/-- R357: the control register with its self-test bit as `st`. -/
theorem pkCtlRegWrite_eq {m : BitVec 2} {st : Bool} (hm : bitsOf v 1 0 = 3 ∧ m = s.pk.fcMode ∨ bitsOf v 1 0 ≠ 3 ∧ m.toNat = bitsOf v 1 0) (hst : bitAt v 2 = st) :
    pkCtlRegWrite v s = { s with pk := { s.pk with fcMode := m, selftest := s.pk.selftest || st, stDue := s.pk.stDue || st } } := by
  have hmode : (if bitsOf v 1 0 = 3 then s.pk.fcMode else BitVec.ofNat 2 (bitsOf v 1 0)) = m := by
    rcases hm with ⟨h3, hm⟩ | ⟨h3, hm⟩
    · rw [if_pos h3, hm]
    · rw [if_neg h3, ← hm, BitVec.ofNat_toNat, BitVec.setWidth_eq]
  rw [← hmode, ← hst]
  rfl

end

/-- Settles O44: a command by its slot's owner, then by the slot's state. -/
theorem publicKeyJobsAreSubmittedByTheSlotsOwner : Obligations.PublicKeyJobsAreSubmittedByTheSlotsOwner := by
  refine ⟨fun s n p v c j u hw hg hmem hj hu => ⟨fun ho => ?foreign, fun ho hb => ?busy, fun ho hb => ?submit⟩,
    fun s n p v h => ⟨fun ho => ⟨fun h0 => ?foreignAbort, fun h0 h1 => ?foreignScrub⟩, fun ho => ⟨fun h0 h1 => ?abort, fun h0 h1 => ?both, fun h0 h1 => ?scrub⟩⟩,
    fun s p v m ⟨hreach, hpriv⟩ hm => ⟨fun h2 => ?mode, fun h2 => ?selftest⟩⟩
  case foreign =>
    rw [exec_pkRow hw hg hmem, if_neg (by simp [ho])]
    rfl
  case busy => rw [exec_pkRow hw hg hmem, if_pos ho, pkCmdWrite_of_busy hb]
  case submit =>
    rw [exec_pkRow hw hg hmem, if_pos ho, pkCmdWrite_of_free hg hb hj]
    have hjs : j.slot = n := by rw [hj]
    have hmode : pkMode u.pk = pkMode s.pk := by rw [hu]; rfl
    have hsub : ∀ w, w = modSlot n (fun x => { x with cmd := BitVec.ofNat 31 (v &&& 0x007FFFFF#32).toNat }) s →
        pkSubmit j w = if pkMode s.pk = 3 then slotEnd j { code := 0x69 } false u else pkEnqueue j u := by
      intro w hw
      unfold pkSubmit
      rw [hjs, hw, ← hu]
      dsimp only
      rw [hmode]
    rw [hsub _ rfl]
    refine ⟨fun h3 => by rw [if_pos h3], fun h3 hl => ?_, fun h3 hl => ?_⟩
    · rw [if_neg h3, pkEnqueue_eq, if_pos hl]
    · rw [if_neg h3, pkEnqueue_eq, if_neg (by simp [hl])]
  case foreignAbort =>
    rw [exec_pkAbort_of_bit h h0, if_neg (by simp [ho])]
    rfl
  case foreignScrub =>
    rw [exec_pkScrub_of_bit h h0 h1, if_neg (by simp [ho])]
    rfl
  case abort =>
    rw [exec_pkAbort_of_bit h h0, if_pos ho, pkCtlWrite_eq _ _ h0 h1, onlyIf_false, onlyIf_true]
  case both =>
    rw [exec_pkAbort_of_bit h h0, if_pos ho, pkCtlWrite_eq _ _ h0 h1, onlyIf_true, onlyIf_true]
  case scrub =>
    rw [exec_pkScrub_of_bit h h0 h1, if_pos ho, pkCtlWrite_eq _ _ h0 h1, onlyIf_true, onlyIf_false]
  case mode =>
    have hrow : onlyIf (!bitAt v 2) (writeAt true p (pkPage + 0x20) (pkCtlRegWrite v)) s = accessOk p 0 (pkCtlRegWrite v s) := by
      rw [h2]
      exact writeAt_ok hreach (fun _ => hpriv)
    have hexec : exec (.fcMode p v) s = .next (accessOk p 0 (pkCtlRegWrite v s)) := congrArg done hrow
    rw [hexec, pkCtlRegWrite_eq hm h2, Bool.or_false, Bool.or_false]
  case selftest =>
    have hrow : onlyIf (bitAt v 2) (writeAt true p (pkPage + 0x20) (pkCtlRegWrite v)) s = accessOk p 0 (pkCtlRegWrite v s) := by
      rw [h2]
      exact writeAt_ok hreach (fun _ => hpriv)
    have hexec : exec (.pkSelftest p v) s = .next (accessOk p 0 (pkCtlRegWrite v s)) := congrArg done hrow
    rw [hexec, pkCtlRegWrite_eq hm h2, Bool.or_true, Bool.or_true]

/-! ### The phases of a job -/

/-- R336: the curve that a job has loaded is kept. -/
def curveKept (j : PkJob) (e : PkEnd) (s : State) : State :=
  match e.curve with
  | none => s
  | some c => s.modPk (fun k => { k with curves := vmod k.curves (j.param.toNat - 0x20) (fun _ => some c) })

/-- R357: a datapath fails its self-test, which a known finding says already where the datapath was out of service. -/
def datapathFails (s : State) (d : Bool) (t : State) : State := onlyIf (!s.pk.dp d) (pkFinding d) (pkOut d 4 t)

section
variable {s u : State} {long : Bool} {j : PkJob}

theorem exec_pkJobStart_of_not_next (hup : s.ports.rstCold = false) (h : pkNext s.pk ≠ some long) : exec (.pkJobStart long) s = .next s := by
  refine congrArg _ ((whenUp_up _ hup).trans ?_)
  exact if_pos h

theorem exec_pkJobStart_of_next {q : List PkJob} (hup : s.ports.rstCold = false) (h : pkNext s.pk = some long) (hq : (if long then s.pk.longQ else s.pk.shortQ) = j :: q)
    (hu : u = s.modPk (fun k => if long then { k with longQ := q } else { k with shortQ := q, batchLeft := k.batchLeft - 1 })) :
    exec (.pkJobStart long) s = .next (if !drawNow s && j.op != 2 && j.op != 7 then s
      else placeJob long { j with window := if j.slot < 8 then bufLoad 0 (u.pk.slots.toList.getD j.slot {}).window 0 8192 else j.window } u) := by
  refine congrArg _ ((whenUp_up _ hup).trans ?_)
  dsimp only
  rw [if_neg (not_not.2 h), hq, hu]

/-- R325 to R334: how a job is loaded, step by step. -/
theorem placeJob_eq {v : State} {mode : BitVec 2} {key : Bytes} {r : PkJob × State} (hm : mode = pkMode u.pk)
    (hv : v = emptyEntry j (forEach (modeDps mode) (fun b t => if (t.pk.cell b long).owner = some j.slot then t else wipeArea long b t) u))
    (hk : key = pkKey v j) (hr : r = loadJob key j v) : placeJob long j u =
      modSlot j.slot (fun x => { x with mode := mode, restarted := j.restarted, yielded := j.yieldedOnce })
        (setArea long (some r.1) (forEach (modeDps mode) (fun b => modCell b long (fun _ =>
          { owner := some j.slot, dirty := true, key := if r.1.verdict = 0 then key else [] })) r.2)) := by
  have hwipe : (fun b t => onlyIf ((t.pk.cell b long).owner != some j.slot) (wipeArea long b) t) =
      fun b t => if (t.pk.cell b long).owner = some j.slot then t else wipeArea long b t := by
    funext b t
    by_cases h : (t.pk.cell b long).owner = some j.slot <;> simp [h, onlyIf]
  unfold placeJob
  dsimp only
  rw [hwipe, ← hm, ← hv, ← hk, ← hr]

theorem exec_pkValidationBoundary_of_area (d : Bool) (hup : s.ports.rstCold = false) (hj : s.pk.area long = some j) :
    exec (.pkValidationBoundary long d) s = .next (if j.phase ≠ .running then s
      else if d then pkEnd long { code := 0x67 } true (pkMismatch j s)
      else if j.verdict ≠ 0 then pkEnd long { code := j.verdict } true s else setArea long (some { j with phase := .validated }) s) := by
  refine congrArg _ ((whenUp_up _ hup).trans ?_)
  rw [hj]

theorem exec_pkJobEnd_of_area (d : Bool) (hup : s.ports.rstCold = false) (hj : s.pk.area long = some j) :
    exec (.pkJobEnd long d) s = .next (if j.phase ≠ .validated then s
      else if d then pkEnd long { code := 0x67 } false (pkMismatch j s)
      else pkEnd long (pkCompute s.pk (s.pk.keyOf long j) j) false (curveKept j (pkCompute s.pk (s.pk.keyOf long j) j) s)) := by
  refine congrArg _ ((whenUp_up _ hup).trans ?_)
  dsimp only
  rw [hj] <;> rfl

theorem exec_pkAbortComplete_of_area (hup : s.ports.rstCold = false) (hj : s.pk.area long = some j) :
    exec (.pkAbortComplete long) s = .next (if j.phase ≠ .aborting then s
      else pkEnd long { code := 0x68 } false (wipeJob long j (if long then s.modPk (fun k => { k with batchLeft := 0 }) else s))) := by
  refine congrArg _ ((whenUp_up _ hup).trans ?_)
  dsimp only
  rw [hj]

theorem exec_pkCheckpoint_of_run (hup : s.ports.rstCold = false) (hj : s.pk.longRun = some j) :
    exec .pkCheckpoint s = .next (if j.phase = .validated ∧ s.pk.shortRun = none ∧ s.pk.shortQ ≠ [] then
        modSlot j.slot (fun x => { x with yielded := true })
          { s with pk := { s.pk with longRun := some { j with phase := .yielded, yieldedOnce := true }, batchLeft := s.pk.shortQ.length } }
      else s) := by
  refine congrArg _ ((whenUp_up _ hup).trans ?_)
  dsimp only
  rw [hj]
  have hiff : (j.phase == .validated && s.pk.shortRun.isNone && !s.pk.shortQ.isEmpty) = true ↔ j.phase = .validated ∧ s.pk.shortRun = none ∧ s.pk.shortQ ≠ [] := by
    simp [and_assoc]
  exact if_congr hiff rfl rfl

theorem exec_pkSelftestEnd_of_due (goodA goodB : Bool) (hup : s.ports.rstCold = false) (hd : s.pk.stDue = true) (hs : s.pk.shortRun = none)
    (hl : s.pk.longRun = none) (hp : s.ports.pairDone = true)
    (hu : u = { s with pk := { s.pk with stDue := false, selftest := false, dpA := !s.pk.dpAOut && goodA, dpB := !s.pk.dpBOut && goodB } }) :
    exec (.pkSelftestEnd goodA goodB) s =
      .next (onlyIf (!s.pk.dpBOut && !goodB) (datapathFails s true) (onlyIf (!s.pk.dpAOut && !goodA) (datapathFails s false) u)) := by
  refine congrArg _ ((whenUp_up _ hup).trans ?_)
  dsimp only
  rw [hd, hs, hl, hp, hu] <;> rfl

end

/-- Settles O45: each command by the job that its area holds, or the datapath that it names. -/
theorem publicKeyJobsRunThroughTheirPhases : Obligations.PublicKeyJobsRunThroughTheirPhases := by
  intro s hup
  refine ⟨fun long h => exec_pkJobStart_of_not_next hup h, fun long j q hn hq => ⟨fun hd h2 h7 => ?waits, fun u v i mode key r hd hu hi hm hv hk hr => ?starts⟩,
    fun long j hj => ⟨fun d h => ?notRunning, fun h => ⟨?differ, fun hv => ?refused, fun hv => ?validated⟩, fun d h => ?notValidated,
      fun h => ⟨?compare, fun hc => ?done, fun c hc => ?curve⟩, fun h => ?notAborting, fun h => ⟨fun hl => ?abortLong, fun hl => ?abortShort⟩⟩,
    fun j hj => ⟨fun h1 h2 h3 => ?yields, fun h => ?stays⟩,
    fun b residue => ⟨fun h => ?out, fun ho hl => ?error, fun h => ?noKat, fun h => ?kat, ?good⟩,
    fun u hd hs hl hp goodA goodB first hf hu => ?selftest⟩
  case waits => rw [exec_pkJobStart_of_next hup hn hq rfl, if_pos (by simpa [hd] using ⟨h2, h7⟩)]
  case starts =>
    have hdraws : ¬(!drawNow s && j.op != 2 && j.op != 7) = true := by
      rcases hd with h | h | h <;> simp [h]
    rw [exec_pkJobStart_of_next hup hn hq hu, if_neg hdraws, ← hi]
    have hslot : i.slot = j.slot := by rw [hi]
    have hre : i.restarted = j.restarted := by rw [hi]
    have hy : i.yieldedOnce = j.yieldedOnce := by rw [hi]
    rw [placeJob_eq hm (by rw [hslot]; exact hv) hk hr, hslot, hre, hy]
  case notRunning => rw [exec_pkValidationBoundary_of_area d hup hj, if_pos h]
  case differ => rw [exec_pkValidationBoundary_of_area true hup hj, if_neg (not_not.2 h), if_pos rfl]
  case refused => rw [exec_pkValidationBoundary_of_area false hup hj, if_neg (not_not.2 h), if_neg (by decide), if_pos hv]
  case validated => rw [exec_pkValidationBoundary_of_area false hup hj, if_neg (not_not.2 h), if_neg (by decide), if_neg (not_not.2 hv)]
  case notValidated => rw [exec_pkJobEnd_of_area d hup hj, if_pos h]
  case compare => rw [exec_pkJobEnd_of_area true hup hj, if_neg (not_not.2 h), if_pos rfl]
  case done => rw [exec_pkJobEnd_of_area false hup hj, if_neg (not_not.2 h), if_neg (by decide), curveKept, hc]
  case curve => rw [exec_pkJobEnd_of_area false hup hj, if_neg (not_not.2 h), if_neg (by decide), curveKept, hc]
  case notAborting => rw [exec_pkAbortComplete_of_area hup hj, if_pos h]
  case abortLong =>
    rw [exec_pkAbortComplete_of_area hup hj, if_neg (not_not.2 h), hl]
    rfl
  case abortShort =>
    rw [exec_pkAbortComplete_of_area hup hj, if_neg (not_not.2 h), hl]
    rfl
  case yields => rw [exec_pkCheckpoint_of_run hup hj, if_pos ⟨h1, h2, h3⟩]
  case stays =>
    rw [exec_pkCheckpoint_of_run hup hj, if_neg]
    rintro ⟨h1, h2, h3⟩
    rcases h with h | h | h
    · exact h h1
    · rw [h2] at h
      cases h
    · exact h3 h
  case out =>
    refine congrArg _ ((whenUp_up _ hup).trans (if_neg ?_))
    rcases h with h | h <;> simp [h]
  case error => exact congrArg _ ((whenUp_up _ hup).trans (if_pos (by simp [ho, hl])))
  case noKat => exact congrArg _ ((whenUp_up _ hup).trans (if_neg (by simp [h])))
  case kat => exact congrArg _ ((whenUp_up _ hup).trans (if_pos (by simp [h])))
  case good => exact congrArg _ ((whenUp_up _ hup).trans (if_neg (by simp)))
  case selftest =>
    have hfails (d : Bool) (t : State) : datapathFails s d t = first d (pkOut d 4 t) := by
      rw [hf, datapathFails]
      cases s.pk.dp d <;> rfl
    have hgood {out good : Bool} (h : good = true ∨ out = true) : (!out && !good) = false := by
      rcases h with rfl | rfl <;> simp
    rw [exec_pkSelftestEnd_of_due goodA goodB hup hd hs hl hp hu, ← hfails, ← hfails, ← hfails]
    refine ⟨fun ha hb => ?_, fun ha ha' hb => ?_, fun ha hb hb' => ?_, fun ha ha' hb hb' => ?_⟩
    · rw [hgood ha, hgood hb]
      rfl
    · rw [hgood hb, ha, ha']
      rfl
    · rw [hgood ha, hb, hb']
      rfl
    · rw [ha, ha', hb, hb']
      rfl

end Sys2Proof.Machine
end

section
/-!
PROOFS. The digest engine: the commands of its contexts (R371 to R393), their bytes (R380 to R386) and the compare unit (R394 to R397).
-/

namespace Sys2Proof.Machine
open Sys2Proof

/-! ### Commands of a context -/

/-- R387: what a command of core `k` comes to that its checks answered with `e`. -/
def ctxAnswered (c k op : Nat) (e : Option (BitVec 8)) (u : State) : State :=
  match e with
  | some e => modCtx c (fun x => { x with code := e }) u
  | none => ctxRun c k op u

section
variable {s w u : State} {c : Fin 8} {p : Path} {v : BitVec 32} {op : Nat}

/-- R371: each row of DIG_CTX_CMD is the write of its OP. -/
theorem exec_ctxRow {i : Instr} (hw : Write s p (ctxPage c + 0x20)) (hg : bitAt v 31 = true) (hop : bitsOf v 3 0 = op)
    (hmem : (op, i) ∈ [(1, Instr.claim c p v), (2, .ctxOpen c p v), (3, .ctxFinish c p v), (4, .ctxClose c p v), (5, .ctxAbort c p v), (6, .ctxExport c p v),
      (7, .ctxImport c p v)]) : exec i s = .next (accessOk p 0 (if ctxOwned s c p (op == 1) then ctxCmdWrite c p v s else digForeign s)) := by
  have hrow : ctxRow op c p v s = accessOk p 0 (if ctxOwned s c p (op == 1) then ctxCmdWrite c p v s else digForeign s) := by
    have hclaim : isClaim v = (op == 1) := by rw [isClaim, hg, hop, Bool.true_and]
    rw [ctxRow, hg, hop, Bool.true_and, beq_self_eq_true, onlyIf_true, hclaim]
    exact writeOwned_any hw
  rw [← hrow]
  simp only [List.mem_cons, List.not_mem_nil, or_false, Prod.mk.injEq] at hmem
  rcases hmem with ⟨rfl, rfl⟩ | ⟨rfl, rfl⟩ | ⟨rfl, rfl⟩ | ⟨rfl, rfl⟩ | ⟨rfl, rfl⟩ | ⟨rfl, rfl⟩ | ⟨rfl, rfl⟩ <;> rfl

/-- R370: before the tests have ended a command is stored and not accepted. -/
theorem ctxCmdWrite_of_starting {k : Fin 4} (hw : w = modCtx c (fun x => { x with cmd := v.extractLsb' 0 4 }) s) (hs : digStarting s = true) :
    ctxCmdWrite c (.core k) v s = w := by
  subst hw
  refine if_pos ?_
  rw [show digStarting (modCtx _ _ s) = true from hs, Bool.or_true]

theorem ctxCmdWrite_of_go {k : Fin 4} (hw : w = modCtx c (fun x => { x with cmd := v.extractLsb' 0 4 }) s)
    (hu : u = modCtx c (fun x => { x with lastAct := s.timer }) w) (hg : bitAt v 31 = true) (hs : digStarting s = false) (hop : bitsOf v 3 0 = op) :
    ctxCmdWrite c (.core k) v s = ctxAnswered c k op (ctxRefused u c k op v) u := by
  subst hw hu
  refine (if_neg ?_).trans ?_
  · rw [show digStarting (modCtx _ _ s) = false from hs, hg]
    decide
  · rw [hop]
    rfl

theorem ctxRun_finish (c k : Nat) (s : State) : ctxRun c k 3 s = modCtx c (fun x => { x with code := 0 })
    (if ((modCtx c (fun x => { x with finished := true }) s).ctx c).complete then ctxResult c (modCtx c (fun x => { x with finished := true }) s)
      else modCtx c (fun x => { x with state := .finishing }) (modCtx c (fun x => { x with finished := true }) s)) := rfl

theorem ctxRun_free {k : Nat} (h : op = 4 ∨ op = 5) : ctxRun c k op s = modCtx c (fun x => { x with code := 0 }) (ctxFree c s) := by
  rcases h with rfl | rfl <;> rfl

theorem ctxExport_of_draw {k : Nat} (h : drawNow s = true) : ctxExport c k s = ctxExported c k (drawBytes 12 s).1 (drawBytes 12 s).2 := if_pos h

/-- R389 to R392: what EXPORT writes once it has its IV, by the parts of its blob. -/
theorem ctxExported_some {k : Nat} {iv head ct : Bytes} (hh : head = ascii "KFL-DCTX" ++ leBytes 2 1 ++ leBytes 1 k ++ leBytes 1 (s.ctx c).alg ++
      vecBytes 4 (s.digRegion k).nextSeq ++ leBytes 8 (s.ctx c).len ++ vecBytes 8 (s.ctx c).fed ++ iv ++ zeros 4)
    (hct : ct = gcmCrypt (s.anchor 6).value iv (ctxRecord (s.ctx c))) :
    ctxExported c k (some iv) s = modCtx c (fun y => { y with code := 0 }) (ctxFree c (modRegion k (fun r => { r with
      xfer := bufStore 0 r.xfer 0 (head ++ ct ++ gcmTag (s.anchor 6).value iv head ct), nextSeq := r.nextSeq + 1,
      outstanding := r.outstanding ++ [(s.digRegion k).nextSeq] }) s)) := by
  rw [ctxExported, ← hh, ← hct]

theorem ctxImport_of_record {k : Nat} {blob r : Bytes} (hb : blob = blobIn s k) (hr : blobRecord s blob = some r) : ctxImport c k s = modCtx c (fun x => { x with
      state := .opened, code := 0, trunc := bitAt (bytesVec 8 (slice r 435 1)) 0, fed := bytesVec 64 (slice blob 24 8), key := [], custom := [],
      alg := fieldLe blob 11 1, keySrc := fieldLe r 433 1, slot := fieldLe r 434 1, olen := fieldLe r 436 2, len := fieldLe blob 16 8,
      st := r.take (algInit (fieldLe blob 11 1)).length, outer := (slice r 200 64).take (algInit (fieldLe blob 11 1)).length,
      buf := slice r 264 (fieldLe r 432 1), slotEpoch := bytesVec 32 (slice r 438 4), result := [] })
    (modRegion k (fun g => { g with outstanding := dropFirst (fun q => q == bytesVec 32 (slice blob 12 4)) g.outstanding }) s) := by
  unfold ctxImport
  rw [← hb]
  dsimp only
  rw [hr]

end

/-- Settles O46: a command by its owner, then by its checks, then by its OP. -/
theorem digestCommandsAreCheckedThenCarriedOut : Obligations.DigestCommandsAreCheckedThenCarriedOut := by
  intro s w u f c p v op i hwrite hg hmem hop hw hu hf
  rw [exec_ctxRow hwrite hg hop hmem]
  refine ⟨fun ho => ?foreign, fun k hp ho hs => ?starting, fun k hp ho hs => ?go⟩
  case foreign =>
    rw [if_neg (by simp [ho])]
    rfl
  case starting =>
    subst hp
    rw [if_pos ho, ctxCmdWrite_of_starting hw hs]
    rfl
  case go =>
    subst hp
    rw [if_pos ho, ctxCmdWrite_of_go hw hu hg hs hop]
    refine ⟨fun e he => by rw [he]; rfl, fun he => ?_⟩
    rw [he, show ∀ t, accessOk (.core k) 0 t = t from fun _ => rfl, ctxAnswered]
    refine ⟨fun h => ?_, fun h => ?_, fun h hc => ?_, fun h hc => ?_, fun h => ?_, fun h hd => ?_, fun h hd x hn hx => ?_, fun h hd iv x head ct hiv hx hh hct => ?_,
      fun h blob r hb hr => ?_⟩
    · subst h
      exact congrArg _ (modCtx_modCtx _ _ _ _)
    · subst h
      exact congrArg _ (modCtx_modCtx _ _ _ _)
    · rw [h, ctxRun_finish, ← hf, if_pos hc]
    · rw [h, ctxRun_finish, ← hf, if_neg (by simp [hc]), modCtx_modCtx]
    · rw [ctxRun_free h]
      exact congrArg _ (modCtx_modCtx _ _ _ _)
    · subst h
      exact congrArg _ (if_neg (by simp [hd]))
    · subst h
      refine congrArg _ ((ctxExport_of_draw hd).trans ?_)
      rw [hn, ← hx]
      rfl
    · subst h
      refine congrArg _ ((ctxExport_of_draw hd).trans ?_)
      rw [hiv, ← hx]
      exact ctxExported_some hh hct
    · subst h
      exact congrArg _ (ctxImport_of_record hb hr)

end Sys2Proof.Machine
end

section
/-!
PROOFS. The bytes of the digest contexts (R369 to R386) and the compare unit (R394 to R397).
-/

namespace Sys2Proof.Machine
open Sys2Proof

/-! ### Bytes of a context -/

/-- R380, R383: what bytes written to a context `x` come to: an open one that no feed has takes them by `k`. -/
def offered (x : Ctx) (k : State → State) (s : State) : State :=
  match x.state with
  | .opened => if x.feeding then feedDropped s else k s
  | .free => s
  | .claimed => s
  | _ => onlyIf x.finished feedDropped s

/-- R380, R386: a feed of `n` bytes is started on context `c`, which stood as `x`, in `u`; `take` of them are read. -/
def feedStarts (c n take : Nat) (x : Ctx) (u : State) : State :=
  if dmaBeyond x.feedAddr.toNat take then ctxEnd c 0x73 u
  else if take = 0 then feedEnd c n u
  else
    modCtx c (fun y => { y with feeding := true, dmaWork := some (dmaRead (.digest c) x.feedAddr.toNat take u).1, dmaNext := 0, feedAll := n })
      (dmaRead (.digest c) x.feedAddr.toNat take u).2

section
variable {s : State} {x : Ctx} {k : State → State} {c : Fin 8} {p : Path} {v : BitVec 32}

theorem offered_of_open (h : x.state = .opened) (hf : x.feeding = false) : offered x k s = k s := by
  rw [offered, h]
  exact if_neg (by simp [hf])

theorem offered_of_dropped (h : x.state = .opened ∧ x.feeding = true ∨ (x.state = .finishing ∨ x.state = .done ∨ x.state = .ended) ∧ x.finished = true) :
    offered x k s = { s with dig := { s.dig with dropped := satInc s.dig.dropped } } := by
  rcases h with ⟨h, hf⟩ | ⟨h, hf⟩
  · rw [offered, h]
    exact if_pos hf
  · rcases h with h | h | h <;> rw [offered, h, hf] <;> rfl

theorem offered_of_ignored (h : x.state = .free ∨ x.state = .claimed ∨ (x.state = .finishing ∨ x.state = .done ∨ x.state = .ended) ∧ x.finished = false) :
    offered x k s = s := by
  rcases h with h | h | ⟨h | h | h, hf⟩
  · rw [offered, h]
  · rw [offered, h]
  all_goals rw [offered, h, hf]; rfl

theorem exec_digCtxData_of_access (h : Access s p (ctxPage c + 0x34)) : exec (.digCtxData c p v) s = .next (accessOk p 0 (if ctxOwned s c p false then
      offered (s.ctx c) (modCtx c (fun x => { x.offer (vecBytes 4 v) with trunc := x.trunc || decide (x.len ≤ x.fed.toNat), lastAct := s.timer })) s
    else digForeign s)) := congrArg done (writeGated_any (k := dataWord c v) h)

theorem feedCtlWrite_of_go {n take : Nat} (hg : bitAt v 31 = true) (hn : n = bitsOf v 30 0) (ht : take = Nat.min n ((s.ctx c).len - (s.ctx c).fed.toNat)) :
    feedCtlWrite c v s = offered (s.ctx c) (fun s => feedStarts c n take (s.ctx c) (modCtx c (fun x => { x with feedLen := v.extractLsb' 0 31 }) s)) s := by
  subst hn ht
  exact if_neg (by simp [hg])

theorem exec_dmaFeed_of_go {n take : Nat} (h : Write s p (ctxPage c + 0x40)) (hg : bitAt v 31 = true) (hn : n = bitsOf v 30 0)
    (ht : take = Nat.min n ((s.ctx c).len - (s.ctx c).fed.toNat)) : exec (.dmaFeed c p v) s = .next (accessOk p 0 (if ctxOwned s c p false then
      offered (s.ctx c) (fun s => feedStarts c n take (s.ctx c) (modCtx c (fun x => { x with feedLen := v.extractLsb' 0 31 }) s)) s
    else digForeign s)) := by
  have hrow : onlyIf (bitAt v 31) (ctxWrite c 0x40 false p (feedCtlWrite c v)) s =
      accessOk p 0 (if ctxOwned s c p false then feedCtlWrite c v s else digForeign s) := by
    rw [hg]
    exact writeOwned_any h
  rw [← feedCtlWrite_of_go hg hn ht]
  exact congrArg done hrow

theorem exec_digestBlock_of_up {u : State} (hup : s.ports.rstCold = false) (hx : x = s.dig.ctxs.get c)
    (hu : u = modCtx c (fun y => { y with st := absorbBlock y.alg y.st (y.buf.take (algBlock x.alg)), buf := y.buf.drop (algBlock x.alg) }) s) :
    exec (.digestBlock c) s = .next (if (s.dig.served (algKeccak x.alg)).contains c.val = false then s
      else ctxSettle c { u with dig := { u.dig with turn := u.dig.turn.filter (· != c.val) ++ [c.val] } }) := by
  subst hx hu
  refine congrArg _ ((whenUp_up _ hup).trans ?_)
  exact if_congr (by simp) rfl rfl

theorem ctxSettle_of_complete (h1 : (s.ctx c).state = .finishing) (h2 : (s.ctx c).complete = true) (h3 : s.dig.kindUp (algKeccak (s.ctx c).alg) = true) :
    ctxSettle c s = ctxResult c s := by
  rw [ctxSettle, h1, h2, h3]
  rfl

theorem ctxSettle_of_not (h : (s.ctx c).state ≠ .finishing ∨ (s.ctx c).complete = false ∨ s.dig.kindUp (algKeccak (s.ctx c).alg) = false) :
    ctxSettle c s = s := by
  refine if_neg ?_
  rcases h with h | h | h <;> simp [h]

theorem exec_eShort_of_up (hup : s.ports.rstCold = false) (hx : x = s.dig.ctxs.get c) :
    exec (.eShort c) s = .next (onlyIf ((x.state == .opened || x.state == .finishing) && decide (x.fed.toNat < x.len) && !x.feeding) (fun s =>
      (ctxEnd c 0x70 (reachTime (x.lastAct + 100 * s.dig.idleLimit.toNat) s)).modDig (fun d => { d with shorts := satInc d.shorts })) s) := by
  subst hx
  exact congrArg _ (whenUp_up _ hup)

theorem exec_digSelftest_of_bit (h : Write s p (digPage + 0x20)) (hb : bitAt v 8 = true) : exec (.digSelftest p v) s =
    .next (accessOk p 0 { s with dig := { s.dig with
      idleLimit := if bitsOf v 7 0 = 0 then 1 else v.extractLsb' 0 8, testing := s.dig.testing ||| (s.dig.kecCores ++ s.dig.sha2Cores) } }) := by
  obtain ⟨hreach, hpriv⟩ := h
  have hrow : onlyIf (bitAt v 8) (writeAt true p (digPage + 0x20) (fun s =>
      (digCtlWrite v s).modDig (fun d => { d with testing := d.testing ||| (d.kecCores ++ d.sha2Cores) }))) s = accessOk p 0 { s with dig := { s.dig with
        idleLimit := if bitsOf v 7 0 = 0 then 1 else v.extractLsb' 0 8, testing := s.dig.testing ||| (s.dig.kecCores ++ s.dig.sha2Cores) } } := by
    rw [hb, onlyIf_true]
    exact (writeAt_ok hreach (fun _ => hpriv)).trans rfl
  exact congrArg done hrow

end

/-! ### Discards and compares -/

/-- R394: the code that refuses a compare of `n` bytes by core `k`, whose first operand is the result of `x` where `src`. -/
def cmpRefused (k n : Nat) (src : Bool) (x : Ctx) : Option (BitVec 8) :=
  if n = 0 ∨ 64 < n then some eRange
  else if src ∧ (x.state ≠ .done ∨ x.owner ≠ k) then some eState
  else if src ∧ x.result.length < n then some eRange
  else none

/-- R394, R395: what GO of a compare comes to in `u`, where its word has been stored. -/
def cmpStarts (k n : Nat) (src : Bool) (x : Ctx) (u : State) : State :=
  match cmpRefused k n src x with
  | some e => modRegion k (fun r => { r with verdict := 0, cmpResult := e }) u
  | none =>
    (modRegion k (fun r => { r with
      verdict := 0, cmpBusy := true, cmpOpA := if src then x.result.take n else bufLoad 0 r.cmpA 0 n, cmpOpB := bufLoad 0 r.cmpB 0 n }) u).modDig
        (fun d => { d with cmpQ := d.cmpQ ++ [k] })

section
variable {s u : State} {g : Fin 4} {p : Path} {v : BitVec 32} {r : DigCore} {x : Ctx} {n : Nat}

theorem exec_digDiscard_of_core {k : Fin 4} (h : Access s (.core k) (digPage + 0x3C)) : exec (.digDiscard g (.core k) v) s =
    .next (if k = g then modRegion g (fun r => { r with outstanding := dropFirst (fun q => q == v) r.outstanding }) s else s) := by
  by_cases hk : k = g
  · subst hk
    have hrow : onlyIf (coreOf (.core k) == some k.toNat) (writeAt false (.core k) (digPage + 0x3C) (discardWrite (.core k) v)) s =
        modRegion k (fun r => { r with outstanding := dropFirst (fun q => q == v) r.outstanding }) s := by
      rw [show (coreOf (.core k) == some k.toNat) = true from beq_self_eq_true _, onlyIf_true, writeAt_ok h (by simp)]
      rfl
    rw [if_pos rfl]
    exact congrArg done hrow
  · have hne : (coreOf (.core k) == some g.toNat) = false := by
      rw [beq_eq_false_iff_ne]
      exact fun he => hk (Fin.ext (Option.some.inj he))
    rw [if_neg hk]
    exact congrArg done (congrArg (onlyIf · _ s) hne)

theorem exec_digDiscard_of_port (h : isCore p = false) : exec (.digDiscard g p v) s = .next s := by
  cases p with
  | core k => cases h
  | port a b => rfl

theorem exec_compare_of_go (hw : Write s p (digPage + 0x200 + 0x380 * g + 0x280)) (hg : bitAt v 31 = true) (hr : r = s.digRegion g) (hx : x = s.ctx (bitsOf v 10 8))
    (hn : n = bitsOf v 6 0) (hu : u = modRegion g (fun r => { r with cmpCtl := BitVec.ofNat 31 (bitsOf v 10 0) }) s) :
    exec (.compare g p v) s = .next (accessOk p 0 (if coreOf p == some g.val then if r.cmpBusy then s else cmpStarts g n (bitAt v 7) x u else digForeign s)) := by
  subst hr hx hn hu
  have hrow : onlyIf (bitAt v 31) (regionWrite g 0x280 p (cmpCtlWrite g v)) s =
      accessOk p 0 (if coreOf p == some g.val then cmpCtlWrite g v s else digForeign s) := by
    rw [hg]
    exact writeOwned_any hw
  have hgo : cmpCtlWrite g v s = if (s.digRegion g).cmpBusy then s else cmpStarts g (bitsOf v 6 0) (bitAt v 7) (s.ctx (bitsOf v 10 8))
      (modRegion g (fun r => { r with cmpCtl := BitVec.ofNat 31 (bitsOf v 10 0) }) s) := if_neg (by simp [hg])
  rw [← hgo]
  exact congrArg done hrow

theorem cmpStarts_of_refused {k : Nat} {src : Bool} {e : BitVec 8} (h : cmpRefused k n src x = some e) :
    cmpStarts k n src x u = modRegion k (fun r => { r with verdict := 0, cmpResult := e }) u := by
  rw [cmpStarts, h]

theorem cmpStarts_of_good {k : Nat} {src : Bool} (h : cmpRefused k n src x = none) : cmpStarts k n src x u = (modRegion k (fun r => { r with
      verdict := 0, cmpBusy := true, cmpOpA := if src then x.result.take n else bufLoad 0 r.cmpA 0 n, cmpOpB := bufLoad 0 r.cmpB 0 n }) u).modDig
    (fun d => { d with cmpQ := d.cmpQ ++ [k] }) := by
  rw [cmpStarts, h]

theorem exec_compareResult_of_other {split : Bool} (hup : s.ports.rstCold = false) (h : s.dig.cmpQ.head? ≠ some g.val) : exec (.compareResult g split) s = .next s := by
  refine congrArg _ ((whenUp_up _ hup).trans (if_neg ?_))
  simpa using h

theorem exec_compareResult_of_front {split : Bool} (hup : s.ports.rstCold = false) (h : s.dig.cmpQ.head? = some g.val) (hr : r = s.digRegion g)
    (hu : u = modRegion g (fun q => { q with
        cmpBusy := false, cmpOpA := [], cmpOpB := [], isMatch := r.cmpOpA == r.cmpOpB,
        isMatchN := if split then r.cmpOpA == r.cmpOpB else !(r.cmpOpA == r.cmpOpB), cmpResult := 0,
        verdict := if split = false ∧ r.cmpOpA = r.cmpOpB then 0x6C3A95E3#32 else 0x93C56A1C#32 }) s) :
    exec (.compareResult g split) s = .next (onlyIf split (fun s => raise true kDigest 0 fCmpSplit 0 g (s.modDig (fun d => { d with splitRecent := true })))
      (u.modDig (fun d => { d with cmpQ := d.cmpQ.drop 1 }))) := by
  have hiff : (r.cmpOpA == r.cmpOpB && !split) = true ↔ split = false ∧ r.cmpOpA = r.cmpOpB := by
    rw [Bool.and_eq_true, beq_iff_eq, Bool.not_eq_true', and_comm]
  have hverdict : (if (r.cmpOpA == r.cmpOpB && !split) = true then 0x6C3A95E3#32 else 0x93C56A1C#32) =
      if split = false ∧ r.cmpOpA = r.cmpOpB then 0x6C3A95E3#32 else 0x93C56A1C#32 := if_congr hiff rfl rfl
  rw [← hverdict] at hu
  subst hr hu
  refine congrArg _ ((whenUp_up _ hup).trans (if_pos ?_))
  rw [h]
  exact beq_self_eq_true _

end

/-- Settles O47: words and feeds by the context's state, blocks by its turn, compares by their operands. -/
theorem contextsTakeTheirBytesAndComparesRunInTurn : Obligations.ContextsTakeTheirBytesAndComparesRunInTurn := by
  refine ⟨⟨fun s c p v x h hx => ?data, fun s u c p v x n take h hg hx hn ht hu => ?feed, fun s c x u hup hx hu => ?block,
      fun s p v h hb => exec_digSelftest_of_bit h hb⟩,
    fun s g p v h => ⟨fun k hp => ?discard, exec_digDiscard_of_port⟩, fun s u g p v r x n hw hg hr hx hn hu => ?compare,
    fun s g split r u hup hr => ⟨exec_compareResult_of_other hup, fun h hu => ?result⟩⟩
  case data =>
    subst hx
    rw [exec_digCtxData_of_access h]
    refine ⟨fun ho => by rw [if_neg (by simp [ho])]; rfl, fun ho => ?_⟩
    rw [if_pos ho]
    exact ⟨fun hs hf => by rw [offered_of_open hs hf], fun hd => by rw [offered_of_dropped hd], fun hi => by rw [offered_of_ignored hi]⟩
  case feed =>
    subst hx
    rw [exec_dmaFeed_of_go h hg hn ht]
    refine ⟨fun ho => by rw [if_neg (by simp [ho])]; rfl, fun ho => ?_⟩
    rw [if_pos ho]
    refine ⟨fun hs hf => ?_, fun hd => by rw [offered_of_dropped hd], fun hi => by rw [offered_of_ignored hi]⟩
    rw [offered_of_open hs hf, ← hu]
    refine ⟨fun hb => ?_, fun hb h0 => ?_, fun hb h0 => ?_⟩
    · rw [feedStarts, if_pos hb]
    · rw [feedStarts, if_neg (by simp [hb]), if_pos h0]
    · rw [feedStarts, if_neg (by simp [hb]), if_neg h0]
  case block =>
    rw [exec_digestBlock_of_up hup hx hu, exec_eShort_of_up hup hx]
    refine ⟨fun hs => by rw [if_pos hs], fun w hs hw => ?_, fun h1 h2 => congrArg _ (if_neg (by simp [h1, h2])), fun ho => ⟨fun e hl hf he => ?_, fun hs => ?_⟩⟩
    · rw [if_neg (by rw [hs]; decide), ← hw]
      exact ⟨fun h1 h2 h3 => by rw [ctxSettle_of_complete h1 h2 h3], fun h => by rw [ctxSettle_of_not h]⟩
    · subst he
      exact congrArg _ (if_pos (by simp [ho, hl, hf]))
    · refine congrArg _ (if_neg ?_)
      rcases hs with hs | hs
      · simp [Nat.not_lt.2 hs]
      · simp [hs]
  case discard =>
    subst hp
    rw [exec_digDiscard_of_core h]
    exact ⟨fun hk => by rw [if_pos hk], fun hk => by rw [if_neg hk]⟩
  case compare =>
    rw [exec_compare_of_go hw hg hr hx hn hu]
    refine ⟨fun ho => by rw [if_neg (by simp [ho])]; rfl, fun ho => ?_⟩
    rw [if_pos ho]
    refine ⟨fun hb => by rw [if_pos hb], fun hb => ?_⟩
    rw [if_neg (by simp [hb])]
    refine ⟨fun h => ?_, fun h0 h64 h7 hx => ?_, fun h0 h64 h7 hd ho hl => ?_, fun w h0 h64 h hw => ?_⟩
    · rw [cmpStarts_of_refused (if_pos h)]
    · rw [cmpStarts_of_refused ((if_neg (by omega)).trans (if_pos ⟨h7, hx⟩))]
    · rw [cmpStarts_of_refused ((if_neg (by omega)).trans ((if_neg (by simp [hd, ho])).trans (if_pos ⟨h7, hl⟩)))]
    · have hgood : cmpRefused g n (bitAt v 7) x = none := by
        refine (if_neg (by omega)).trans ((if_neg ?_).trans (if_neg ?_)) <;> rcases h with ⟨h7, hd, ho, hl⟩ | h7
        · simp [hd, ho]
        · simp [h7]
        · simp [hl]
        · simp [h7]
      rw [cmpStarts_of_good hgood, hw]
      rfl
  case result =>
    rw [exec_compareResult_of_front hup h hr hu]
    refine ⟨fun hs => ?_, fun hs => ?_⟩ <;> rw [hs] <;> rfl

end Sys2Proof.Machine
end

section
/-!
PROOFS. Noise samples, the generator and its requests (R399 to R411).
-/

namespace Sys2Proof.Machine
open Sys2Proof

/-- R400, R401: what a sample comes to whose run and count are these. -/
def sampled (bit : Bool) (run count : Nat) (s : State) : State :=
  if 26 ≤ run || 666 ≤ count then noiseFail (26 ≤ run) (666 ≤ count) s
  else drawContextKey { s with ent := Ent.settle { s.ent with
    rctLast := some bit, rctRun := run, aptFirst := if s.ent.aptSeen = 0 then bit else s.ent.aptFirst, aptSeen := (s.ent.aptSeen + 1) % 1024, aptCount := count,
    startLeft := s.ent.startLeft - 1, noise := if s.ent.startLeft ≤ 1 then .healthy else s.ent.noise,
    reservoir := if s.ent.startLeft = 0 ∧ s.ent.reservoir.length < 2048 then s.ent.reservoir ++ [bit] else s.ent.reservoir } }

/-- R403, R404: what an instantiation from the samples at hand comes to. -/
def instantiated (good : Bool) (s : State) : State :=
  if s.ent.seeded || s.ent.katFailed || s.ent.noise != .healthy || s.tamper.latch then s
  else if s.ent.drbgKey ≠ [] then onlyIf (2048 ≤ s.ent.reservoir.length) (State.modEnt Ent.reseed) s
  else if s.ent.reservoir.length < 1536 then s
  else if !good then raise false kEntropy 0 fDrbgKat 0 0 (s.modEnt (fun e => { e with katFailed := true, katPass := false }))
  else
    let d := drbgInit (Config.packSamples (s.ent.reservoir.take 1024) ++ Config.packSamples ((s.ent.reservoir.drop 1024).take 512) ++
      ascii "KFL-DRBG" ++ vecBytes 4 s.att.bootCount)
    drawContextKey (s.modEnt (fun e => { e with
      drbgKey := d.1, drbgV := d.2, reservoir := e.reservoir.drop 1536, seeded := true, katPass := true, reqs := 0, reseeds := e.reseeds + 1 }))

/-- R411: a change of the draw registers of a core whose request names `n` bytes. -/
def drawPut (g : Fin 4) (n : Nat) (f : Draw → Draw) (e : Ent) : Ent := { e with draws := vmod e.draws g (fun x => f { x with len := BitVec.ofNat 7 n }) }

/-- R405, R411: what GO of a request of `n` bytes comes to. -/
def drawAsked (g : Fin 4) (n : Nat) (s : State) : State :=
  if (s.ent.draws.get g).busy then s
  else if n = 0 ∨ 64 < n then s.modEnt (drawPut g n (fun x => { x with valid := true, result := eRange }))
  else if !s.ent.seeded then s.modEnt (fun e => drawPut g n (fun x => { x with valid := true, result := 0x6A }) { e with refused := satInc e.refused })
  else s.modEnt (fun e => drawPut g n (fun x => { x with busy := true, valid := false, out := List.replicate 16 0 }) { e with queue := e.queue ++ [(.core g, n)] })

/-- R405 to R407: what waited for a request goes on with its bytes, or refused. -/
def drbgServed (r : Option Bytes) (u : State) : DrawFor → State
  | .core c => u.modEnt (fun e => { e with draws := vmod e.draws c (fun x => match r with
      | none => { x with busy := false, valid := true, result := 0x6A }
      | some b => { x with busy := false, valid := true, result := 0x00, out := (List.range 16).map (fun i => bytesVec 32 (slice b (4 * i) 4)) }) })
  | .vault => match u.vault.run with
    | none => u
    | some v => vaultDrawn v r u
  | .blob c k => onlyIf ((u.ctx c).state == .opened && (u.ctx c).owner == k) (ctxExported c k r) u

section
variable {s : State} {g : Fin 4} {p : Path} {v : BitVec 32} {n : Nat}

theorem exec_noiseSample_of_off {bit : Bool} (hup : s.ports.rstCold = false) (h : s.ports.pairDone = false ∨ s.tamper.latch = true ∨ s.ent.noise = .outOfService) :
    exec (.noiseSample bit) s = .next s := by
  refine congrArg _ ((whenUp_up _ hup).trans (if_neg ?_))
  rcases h with h | h | h <;> simp [h]

theorem exec_noiseSample_of_on {bit : Bool} {run count : Nat} (hup : s.ports.rstCold = false) (h1 : s.ports.pairDone = true) (h2 : s.tamper.latch = false)
    (h3 : s.ent.noise ≠ .outOfService) (hr : run = (if s.ent.rctLast = some bit then s.ent.rctRun + 1 else 1))
    (hc : count = (if s.ent.aptSeen = 0 then 0 else if s.ent.aptFirst = bit then s.ent.aptCount + 1 else s.ent.aptCount)) :
    exec (.noiseSample bit) s = .next (sampled bit run count s) := by
  subst hr hc
  exact congrArg _ ((whenUp_up _ hup).trans (if_pos (by simp [h1, h2, h3])))

theorem exec_drbgInstantiate_of_up {good : Bool} (hup : s.ports.rstCold = false) : exec (.drbgInstantiate good) s = .next (instantiated good s) :=
  congrArg _ (whenUp_up _ hup)

theorem instantiated_of_ready {good : Bool} (h1 : s.ent.seeded = false) (h2 : s.ent.katFailed = false) (h3 : s.ent.noise = .healthy) (h4 : s.tamper.latch = false) :
    instantiated good s = if s.ent.drbgKey ≠ [] then onlyIf (2048 ≤ s.ent.reservoir.length) (State.modEnt Ent.reseed) s
      else if s.ent.reservoir.length < 1536 then s
      else if !good then raise false kEntropy 0 fDrbgKat 0 0 (s.modEnt (fun e => { e with katFailed := true, katPass := false }))
      else
        let d := drbgInit (Config.packSamples (s.ent.reservoir.take 1024) ++ Config.packSamples ((s.ent.reservoir.drop 1024).take 512) ++
          ascii "KFL-DRBG" ++ vecBytes 4 s.att.bootCount)
        drawContextKey (s.modEnt (fun e => { e with
          drbgKey := d.1, drbgV := d.2, reservoir := e.reservoir.drop 1536, seeded := true, katPass := true, reqs := 0, reseeds := e.reseeds + 1 })) :=
  if_neg (by simp [h1, h2, h3, h4])

theorem exec_reseed_of_write (h : Write s p (entPage + 0x20)) : exec (.reseed p v) s =
    .next (accessOk p 0 (onlyIf (bitAt v 0) (State.modEnt (fun e => Ent.settle { e with reseedDue := true, reseedCtl := true })) s)) := by
  obtain ⟨hreach, hpriv⟩ := h
  exact congrArg done (writeAt_ok hreach (fun _ => hpriv))

theorem exec_entDraw_of_write (h : Write s p (entPage + 0x100 + 0x80 * g)) : exec (.entDraw g p v) s = .next (accessOk p 0 (if p == .core g then
    (if !bitAt v 31 then s.modEnt (drawPut g (bitsOf v 6 0) id) else drawAsked g (bitsOf v 6 0) s) else digForeign s)) :=
  congrArg done (writeOwned_any h)

theorem exec_drbgRequest_of_queue {w : DrawFor} {q : List (DrawFor × Nat)} (hup : s.ports.rstCold = false) (hq : s.ent.queue = (w, n) :: q) :
    exec .drbgRequest s = .next (if s.ent.canServe then drbgServed (s.ent.draw n).1 { s with ent := { (s.ent.draw n).2 with queue := q } } w else s) := by
  refine congrArg _ ((whenUp_up _ hup).trans ?_)
  rw [hq]
  dsimp only [onlyIf]
  cases w <;> rfl

theorem drbgServed_blob {r : Option Bytes} {c k : Nat} (h : (s.ctx c).state = .opened) (hk : (s.ctx c).owner = k) :
    drbgServed r s (.blob c k) = ctxExported c k r s := if_pos (by simp [h, hk])

theorem drbgServed_blob_of_lost {r : Option Bytes} {c k : Nat} (h : (s.ctx c).state ≠ .opened ∨ (s.ctx c).owner ≠ k) : drbgServed r s (.blob c k) = s := by
  refine if_neg ?_
  rcases h with h | h <;> simp [h]

end

/-- Settles O48: samples by the health tests, requests by their length and their turn. -/
theorem noiseSamplesFeedTheGeneratorAndItsRequests : Obligations.NoiseSamplesFeedTheGeneratorAndItsRequests := by
  refine ⟨fun s bit run count hup => ⟨exec_noiseSample_of_off hup, fun h1 h2 h3 hr hc => ?sample⟩,
    fun s good d hup => ⟨fun h => ?notReady, fun h1 h2 h3 h4 => ?instantiate⟩,
    fun s p v h => ?reseed, fun s g p v n put h hn hput => ?draw, fun s hup => ⟨fun hq => ?idle, fun w n q hq hc => ?unserved,
      fun w n q u r hq hc hu hr => ?served, fun c n q hq hc => ?core⟩⟩
  case sample =>
    rw [exec_noiseSample_of_on hup h1 h2 h3 hr hc]
    exact ⟨fun h => congrArg _ (if_pos (by simpa using h)), fun h h' => congrArg _ (if_neg (by simp; omega))⟩
  case notReady =>
    rw [exec_drbgInstantiate_of_up hup]
    refine congrArg _ (if_pos ?_)
    rcases h with h | h | h | h <;> simp [h]
  case instantiate =>
    rw [exec_drbgInstantiate_of_up hup, instantiated_of_ready h1 h2 h3 h4]
    refine ⟨fun hk hl => ?_, fun hk hl => ?_, fun hk hl => ?_, fun hk hl hg => ?_, fun hk hl hg hd => ?_⟩
    · rw [if_pos hk]
      exact congrArg _ (if_neg (by simp [hl]))
    · rw [if_pos hk]
      exact congrArg _ (if_pos (by simp [hl]))
    · rw [if_neg (not_not.2 hk), if_pos hl]
    · rw [if_neg (not_not.2 hk), if_neg (by omega), hg]
      rfl
    · rw [if_neg (not_not.2 hk), if_neg (by omega), hg, ← hd]
      rfl
  case reseed =>
    rw [exec_reseed_of_write h]
    exact ⟨fun hb => congrArg _ (congrArg _ (if_pos hb)), fun hb => congrArg _ (congrArg _ (if_neg (by simp [hb])))⟩
  case draw =>
    have hput : put = drawPut g n := hput
    rw [exec_entDraw_of_write h, ← hn, hput]
    refine ⟨fun hp => by rw [if_neg (by simpa using hp)]; rfl, fun hp => ?_⟩
    subst hp
    rw [if_pos (beq_self_eq_true _), show ∀ t, accessOk (.core g) 0 t = t from fun _ => rfl]
    refine ⟨fun hb => by rw [hb]; rfl, fun hb => ?_⟩
    rw [hb, drawAsked]
    refine ⟨fun hbusy => congrArg _ (if_pos hbusy), fun hbusy => ⟨fun h => ?_, fun h0 h64 => ⟨fun hs => ?_, fun hs => ?_⟩⟩⟩
    · rw [if_neg (by simp), if_neg (by simp [hbusy]), if_pos h]
      rfl
    · rw [if_neg (by simp), if_neg (by simp [hbusy]), if_neg (by omega), hs]
      rfl
    · rw [if_neg (by simp), if_neg (by simp [hbusy]), if_neg (by omega), hs]
      rfl
  case idle =>
    refine congrArg _ ((whenUp_up _ hup).trans ?_)
    rw [hq]
  case unserved => rw [exec_drbgRequest_of_queue hup hq, if_neg (by simp [hc])]
  case served =>
    rw [exec_drbgRequest_of_queue hup hq, if_pos hc, ← hu, ← hr]
    have hv : u.vault = s.vault := by rw [hu]
    refine ⟨fun hw h => ?_, fun v hw h => ?_, fun c k hw h hk => by rw [hw, drbgServed_blob h hk], fun c k hw h => by rw [hw, drbgServed_blob_of_lost h]⟩
    · rw [hw, drbgServed, hv, h]
    · rw [hw, drbgServed, hv, h]
  case core =>
    rw [exec_drbgRequest_of_queue hup hq, if_pos hc, drbgServed]
    refine ⟨fun h => ?_, fun b h => ?_⟩ <;> rw [h] <;> rfl

end Sys2Proof.Machine
end

section
/-!
PROOFS. Tamper and power events (R44 to R49, R300 to R309), and the failures of management cores (R589 to R620).
-/

namespace Sys2Proof.Machine
open Sys2Proof

/-! ### Tamper and power -/

/-- R45, R664: the guards of a die whose power falls, where those that were not safe have been fenced. -/
def guardsFallen (d : Fin 4) (u : State) : State :=
  let s := (dropLatches (0x800000 + d * 0xA0000) (0x8A0000 + d * 0xA0000) (forEach (guardsOf d) dropWaits u)).modDie d
    (fun x => { x with guardGood := false, keyReqQ := [] })
  settle (s.modGuards (fun g x => if g / 10 = d then
    { freshGuard s g with service := x.service, fenced := true, safetyFence := x.safetyFence, inReset := true,
                          page := { (freshGuard s g).page with powerPct := x.page.powerPct, powerLines := x.page.powerLines } } else x))

section
variable {s : State} {d : Fin 4}

theorem exec_tamperAssertion_of_single {held : Bool} (hup : s.ports.rstCold = false) (h : d = 1 ∨ d = 3) : exec (.tamperAssertion d held) s = .next s := by
  have hpair : d ≠ 0 ∧ d ≠ 2 := by rcases h with rfl | rfl <;> decide
  refine congrArg _ ((whenUp_up _ hup).trans ?_)
  exact if_pos hpair

/-- R300, R301: what an assertion of a pair comes to, which leaves `u` where it was held. -/
theorem exec_tamperAssertion_of_pair {u : State} {held : Bool} (hup : s.ports.rstCold = false)
    (hu : d = 0 ∧ u = { s with tamper := { s.tamper with pairDie0 := true } } ∨ d = 2 ∧ u = { s with tamper := { s.tamper with pairDie2 := true } }) :
    exec (.tamperAssertion d held) s = .next (if !held then onlyIf (!s.tamper.cleared) (State.modTamper (fun t => { t with glitches := satInc t.glitches })) s
      else onlyIf (!s.tamper.latch) tamperSequence u) := by
  refine congrArg _ ((whenUp_up _ hup).trans ?_)
  rcases hu with ⟨rfl, rfl⟩ | ⟨rfl, rfl⟩ <;> rfl

theorem exec_tamperZeroizeDone_of_idle {failed : Bool} (hup : s.ports.rstCold = false) (h : s.tamper.latch = false ∨ s.tamper.cleared = true) :
    exec (.tamperZeroizeDone failed) s = .next s := by
  refine congrArg _ ((whenUp_up _ hup).trans ?_)
  exact if_pos (by simpa using h)

theorem exec_tamperZeroizeDone_of_latch {failed : Bool} (hup : s.ports.rstCold = false) (hl : s.tamper.latch = true) (hc : s.tamper.cleared = false) :
    exec (.tamperZeroizeDone failed) s = .next (if failed then s.modTamper (fun t => { t with retry := true })
      else (s.modTamper (fun t => { t with cleared := true, done := true })).modBrup (fun b =>
        { b with lines := b.lines.map (fun l => { up := l.up }), package := none })) := by
  refine congrArg _ ((whenUp_up _ hup).trans ?_)
  exact if_neg (by simp [hl, hc])

theorem exec_guardPowerFall_of_down (hup : s.ports.rstCold = false) (h : (s.dies.get d).guardGood = false) : exec (.guardPowerFall d) s = .next s := by
  rw [← die_get] at h
  exact congrArg _ ((whenUp_up _ hup).trans (if_neg (by simp [h])))

theorem exec_guardPowerFall_of_good (hup : s.ports.rstCold = false) (h : (s.dies.get d).guardGood = true) :
    exec (.guardPowerFall d) s = .next (guardsFallen d (onlyIf (!guardSafe s d) (fenceAll true (guardsOf d)) s)) := by
  rw [← die_get] at h
  exact congrArg _ ((whenUp_up _ hup).trans (if_pos h))

theorem exec_guardPowerGood_of_good (hup : s.ports.rstCold = false) (h : (s.dies.get d).guardGood = true) : exec (.guardPowerGood d) s = .next s := by
  rw [← die_get] at h
  exact congrArg _ ((whenUp_up _ hup).trans (if_neg (by simp [h])))

theorem exec_guardPowerGood_of_down (hup : s.ports.rstCold = false) (h : (s.dies.get d).guardGood = false) : exec (.guardPowerGood d) s = .next
    ((s.modDie d (fun x => { x with guardGood := true })).modGuards (fun g x => if g / 10 = d then { x with inReset := false } else x)) := by
  rw [← die_get] at h
  exact congrArg _ ((whenUp_up _ hup).trans (if_pos (by simp [h])))

end

/-- Settles O49: an event by the latch, or by the power input, that it meets. -/
theorem tamperAndPowerEventsFenceTheirGuards : Obligations.TamperAndPowerEventsFenceTheirGuards := by
  intro s hup
  refine ⟨fun d held => ⟨exec_tamperAssertion_of_single hup, fun u hu => ?pair⟩, fun failed => ⟨exec_tamperZeroizeDone_of_idle hup, fun hl hc => ?zeroized⟩,
    fun d => ⟨exec_guardPowerFall_of_down hup, fun h u hu => ?fall, exec_guardPowerGood_of_good hup, exec_guardPowerGood_of_down hup, fun v w hv hw => ?core⟩,
    fun stage => congrArg _ (whenUp_up _ hup)⟩
  case pair =>
    rw [exec_tamperAssertion_of_pair hup hu]
    refine ⟨fun hh hc => ?_, fun hh hc => ?_, fun hh hl => ?_, fun hh hl => ?_⟩
    · rw [hh, hc]
      rfl
    · rw [hh, hc]
      rfl
    · rw [hh, hl]
      rfl
    · rw [hh, hl]
      rfl
  case zeroized =>
    rw [exec_tamperZeroizeDone_of_latch hup hl hc]
    exact ⟨fun hf => by rw [hf]; rfl, fun hf => by rw [hf]; rfl⟩
  case fall =>
    have hfence : onlyIf (!guardSafe s d) (fenceAll true (guardsOf d)) s = u := by
      rw [hu]
      cases guardSafe s d <;> rfl
    rw [exec_guardPowerFall_of_good hup h, hfence]
    rfl
  case core =>
    rw [power_fall hup hv hw]
    refine ⟨fun ha h2 => ?_, fun ha h2 => ?_, fun x ha hx => ?_⟩
    · refine congrArg _ ((if_neg ha).trans (if_neg ?_))
      rw [beq_iff_eq]
      exact fun h => h2 (Fin.ext h)
    · refine congrArg _ ((if_neg ha).trans (if_pos ?_))
      rw [h2]
      rfl
    · rw [hx]
      exact congrArg _ (if_pos ha)

/-! ### Failing cores and takeover -/

section
variable {s u : State} {p : Path} {v : BitVec 32} {c : Fin 4} {code : Nat}

theorem fqCtlWrite_eq (b0 b1 : Bool) (h0 : bitAt v 0 = b0) (h1 : bitAt v 1 = b1) : fqCtlWrite v s = s.modFq (fun q =>
    if b1 then { (if b0 then q.pop else q) with overflow := false, ovf := [] } else if b0 then q.pop else q) := by
  rw [← h0, ← h1]
  rfl

theorem exec_fqPop_of_bit (h : Write s p (fqPage + 0x24)) (h0 : bitAt v 0 = true) : exec (.fqPop p v) s = .next (accessOk p 0 (fqCtlWrite v s)) := by
  obtain ⟨hreach, hpriv⟩ := h
  have hrow : onlyIf (bitAt v 0) (writeAt true p (fqPage + 0x24) (fqCtlWrite v)) s = accessOk p 0 (fqCtlWrite v s) := by
    rw [h0]
    exact writeAt_ok hreach (fun _ => hpriv)
  exact congrArg done hrow

theorem exec_clearOvf_of_bit (h : Write s p (fqPage + 0x24)) (h0 : bitAt v 0 = false) (h1 : bitAt v 1 = true) :
    exec (.clearOvf p v) s = .next (accessOk p 0 (fqCtlWrite v s)) := by
  obtain ⟨hreach, hpriv⟩ := h
  have hrow : onlyIf (bitAt v 1 && !bitAt v 0) (writeAt true p (fqPage + 0x24) (fqCtlWrite v)) s = accessOk p 0 (fqCtlWrite v s) := by
    rw [h0, h1]
    exact writeAt_ok hreach (fun _ => hpriv)
  exact congrArg done hrow

theorem exec_foWdog_of_write (h : Write s p (foPage + 0x24)) :
    exec (.foWdog p v) s = .next (accessOk p 0 (if isCore p then restartWatchdog p s else s)) := congrArg done (writeOwned_any h)

theorem exec_lockstep_of_active (hup : s.ports.rstCold = false) :
    exec (.lockstep false c) s = .next (onlyIf (s.boot.cores.get c).runs (coreFails fLockstep c) s) := congrArg _ (whenUp_up _ hup)

theorem exec_watchdog_of_active (hup : s.ports.rstCold = false) :
    exec (.watchdog false c) s = .next (onlyIf ((s.boot.cores.get c).runs && bitAt s.boot.wdogArmed c) (fun s =>
      let s := (reachTime (s.boot.wdogDue.get c) s).modMir (fun m => { m with wdogRecent := true })
      coreFails fWatchdog c (s.modBoot (fun b => { b with wdogExpired := setBit b.wdogExpired c true }))) s) := congrArg _ (whenUp_up _ hup)

theorem exec_lockstep_of_standby (hup : s.ports.rstCold = false) : exec (.lockstep true c) s = .next (standbyCoreFails fLockstep c s) := congrArg _ (whenUp_up _ hup)

theorem exec_watchdog_of_standby (hup : s.ports.rstCold = false) : exec (.watchdog true c) s = .next (standbyCoreFails fWatchdog c s) := congrArg _ (whenUp_up _ hup)

theorem standbyCoreFails_of_stopped (h : s.sby.alive = false ∨ s.mir.site = true) : standbyCoreFails code c s = s := by
  refine if_neg ?_
  rcases h with h | h <;> simp [h]

theorem standbyCoreFails_of_runs (h : s.sby.alive = true) (hs : s.mir.site = false) :
    standbyCoreFails code c s = standbyReset (standbyFault true kCore c code 8 (bitNat 0 (c.val == standbyBootCore s)) s) := if_pos (by simp [h, hs])

theorem exec_activeCoreLost_of_idle (hup : s.ports.rstCold = false)
    (h : s.sby.alive = false ∨ s.sby.session = false ∨ s.sby.holdUntil.isSome = true ∨ s.mir.site = true) : exec .activeCoreLost s = .next s := by
  refine congrArg _ ((whenUp_up _ hup).trans (if_neg ?_))
  rcases h with h | h | h | h
  · simp [h]
  · simp [h]
  · obtain ⟨t, ht⟩ := Option.isSome_iff_exists.1 h
    simp [ht]
  · simp [h]

theorem exec_activeCoreLost_of_session (hup : s.ports.rstCold = false) (h1 : s.sby.alive = true) (h2 : s.sby.session = true) (h3 : s.sby.holdUntil = none)
    (h4 : s.mir.site = false) : exec .activeCoreLost s = .next (declareLost (reachTime (s.sby.lastBeat + 2000) s)) :=
  congrArg _ ((whenUp_up _ hup).trans (if_pos (by simp [h1, h2, h3, h4])))

theorem exec_mirFail_of_up (hup : s.ports.rstCold = false) : exec .mirFail s = .next (onlyIf (s.mir.mirFail && s.sby.alive && !s.mir.site) declareLost s) :=
  congrArg _ (whenUp_up _ hup)

theorem onlyIf_of_fixed {b : Bool} {k : State → State} (h : k s = s) : onlyIf b k s = s := by
  cases b
  · rfl
  · exact h

theorem exec_mirTakeover_of_up (hup : s.ports.rstCold = false) :
    exec .mirTakeover s = .next (onlyIf (s.mir.mirTakeover && !s.mir.site && s.sby.alive) takeover s) := congrArg _ (whenUp_up _ hup)

end

/-- Settles O50: a failure by the core and its standby, the registers by their bits. -/
theorem coreFailuresResetOrHandOverTheCore : Obligations.CoreFailuresResetOrHandOverTheCore := by
  refine ⟨fun s p v h => ⟨fun h0 h1 => ?pop, fun h0 h1 => ?both, fun h0 h1 => ?clear⟩, fun s p v h => ⟨fun hp => ?noCore, fun c hp => ?wdog⟩,
    fun s hup => ⟨fun c => ?cores, fun code c t u ht => ?fails, fun u hu => ⟨exec_activeCoreLost_of_idle hup, fun h1 h2 h3 h4 => ?lost⟩, fun h => ?noAsk, fun h1 h2 h3 h4 h5 => ?ask,
      fun h => ?noTake, fun h1 h2 h3 => ?take⟩⟩
  case pop => rw [exec_fqPop_of_bit h h0, fqCtlWrite_eq _ _ h0 h1]; rfl
  case both => rw [exec_fqPop_of_bit h h0, fqCtlWrite_eq _ _ h0 h1]; rfl
  case clear => rw [exec_clearOvf_of_bit h h0 h1, fqCtlWrite_eq _ _ h0 h1]; rfl
  case noCore => rw [exec_foWdog_of_write h, if_neg (by simp [hp])]
  case wdog =>
    subst hp
    rw [exec_foWdog_of_write h]
    exact ⟨fun ha => congrArg _ (if_pos ha), fun ha => congrArg _ (if_neg (by simp [ha]))⟩
  case cores =>
    rw [exec_lockstep_of_active hup, exec_watchdog_of_active hup, exec_lockstep_of_standby hup, exec_watchdog_of_standby hup]
    refine ⟨fun h => by rw [h]; rfl, fun h => by rw [h]; rfl, fun h => ?_, fun hr ha u v hu hv => ?_, fun h => ?_, fun h hs => ?_⟩
    · refine congrArg _ (if_neg ?_)
      rcases h with h | h <;> simp [h]
    · subst hv hu
      exact congrArg _ (if_pos (by simp [hr, ha]))
    · rw [standbyCoreFails_of_stopped h, standbyCoreFails_of_stopped h]
      exact ⟨rfl, rfl⟩
    · rw [standbyCoreFails_of_runs h hs, standbyCoreFails_of_runs h hs]
      exact ⟨rfl, rfl⟩
  case fails =>
    rw [coreFails_eq ht]
    refine ⟨fun hb hk => ?_, fun hg b hb => ?_⟩
    · have hboot : (c.val == s.boot.bootCore) = false := beq_eq_false_iff_ne.2 hb
      rw [hboot, hk]
      rfl
    · have hgo : (!(c.val == s.boot.bootCore) && ksUp t) = false := by
        rcases hg with h | h <;> simp [h]
      have hbit : bitNat 0 (c.val == s.boot.bootCore) = b := by
        rw [hb]
        by_cases he : c.val = s.boot.bootCore <;> simp [he, bitNat]
      rw [hgo, hbit]
      refine ⟨fun hr hs hu => ?_, fun h => ?_⟩
      · rw [hr, hs, hu]
        rfl
      · have hask : (!false && t.mir.ready && !t.mir.site) = false := by
          rcases h with h | h <;> simp [h]
        rw [hask]
        rfl
  case lost =>
    rw [exec_activeCoreLost_of_session hup h1 h2 h3 h4, ← hu]
    exact ⟨fun hr hh => by rw [declareLost_ready hr hh], fun hr => by rw [declareLost_not (.inl hr)]⟩
  case noAsk =>
    rw [exec_mirFail_of_up hup]
    rcases h with h | h | h | h | h
    · exact congrArg _ (if_neg (by simp [h]))
    · exact congrArg _ (if_neg (by simp [h]))
    · exact congrArg _ (if_neg (by simp [h]))
    · exact congrArg _ (onlyIf_of_fixed (declareLost_not (.inl h)))
    · exact congrArg _ (onlyIf_of_fixed (declareLost_not (.inr h)))
  case ask =>
    rw [exec_mirFail_of_up hup, h1, h2, h3]
    exact congrArg _ (declareLost_ready h4 h5)
  case noTake =>
    rw [exec_mirTakeover_of_up hup]
    refine congrArg _ (if_neg ?_)
    rcases h with h | h | h <;> simp [h]
  case take =>
    rw [exec_mirTakeover_of_up hup]
    exact congrArg _ (if_pos (by simp [h1, h2, h3]))

end Sys2Proof.Machine
end

section
/-!
PROOFS. The mirror: the frames that reach the standby's copy and the active core's session (R601 to R614).
-/

namespace Sys2Proof.Machine
open Sys2Proof

/-! ### Frames to the standby -/

/-- R606: what a HELLO comes to that unwraps to `k`. -/
def helloOpened (k : Option Bytes) (t : State) : State :=
  match k with
  | none => t
  | some k =>
    if !t.sby.alive || k.drop 32 != t.sby.nonce then t
    else t.modSby (fun y => { y with
      session := true, key := k.take 32, txSeq := 1, doms := [], models := [], readers := [], bootCount := 0, quoteSeq := 0, image := [],
      imageDone := false, copyDone := false, holdUntil := none, lastBeat := t.timer })

theorem exec_mirrorHello_of_hello {s t : State} {n : Nat} {fs : List Frame} {w own : Bytes} (hup : s.ports.rstCold = false) (hs : s.mir.site = false)
    (hf : s.mir.toStandby = { seq := n, body := .hello w } :: fs) (ht : t = { s with mir := { s.mir with toStandby := fs } })
    (hown : own = kmac256 (deviceSecret s) [] 32 (ascii "KFL-MIRROR-KEY")) : exec .mirrorHello s = .next (helloOpened (keyUnwrap own w) t) := by
  refine congrArg _ ((whenUp_up _ hup).trans ?_)
  rw [hf]
  dsimp only
  rw [if_neg (by simp [hs]), hown, ht]
  rfl

theorem helloOpened_of_other {t : State} {k : Bytes} (h : t.sby.alive = false ∨ k.drop 32 ≠ t.sby.nonce) : helloOpened (some k) t = t := by
  refine if_pos ?_
  rcases h with h | h <;> simp [h]

theorem helloOpened_of_nonce {t : State} {k : Bytes} (h : t.sby.alive = true) (hk : k.drop 32 = t.sby.nonce) : helloOpened (some k) t =
    t.modSby (fun y => { y with
      session := true, key := k.take 32, txSeq := 1, doms := [], models := [], readers := [], bootCount := 0, quoteSeq := 0, image := [],
      imageDone := false, copyDone := false, holdUntil := none, lastBeat := t.timer }) := if_neg (by simp [h, hk])

/-- Settles O51: each frame by the law of `standbyFrame`, HELLO by what it unwraps to. -/
theorem framesReachTheStandbysCopy : Obligations.FramesReachTheStandbysCopy := by
  intro s t n b fs hup hs hf ht
  refine ⟨fun c acked f hframe wire => ?frame, fun w own hb hown => ⟨fun hk => ?bad, fun k hk => ⟨fun h => ?other, fun ha hn => ?opens⟩⟩⟩
  case frame =>
    rcases hframe with ⟨x, y, z, w, rfl, rfl, rfl, h⟩ | ⟨r, d, rfl, rfl, rfl, h⟩ | ⟨d, rfl, rfl, rfl, h⟩ | ⟨r, m, rfl, rfl, rfl, h⟩ | ⟨m, rfl, rfl, rfl, h⟩ |
      ⟨m, ws, rfl, rfl, rfl, h⟩ | ⟨x, q, rfl, rfl, rfl, h⟩ | ⟨o, part, rfl, rfl, rfl, h⟩ | ⟨d, rfl, rfl, rfl, h⟩
    all_goals exact frame_exec (congrArg done (whenUp_up (standbyFrame _ _ _ _) hup)) hs hf ht rfl (by rw [h, ht]; rfl) (f := f) (by rw [h])
  all_goals
    rw [hb] at hf
    rw [exec_mirrorHello_of_hello hup hs hf ht hown, hk]
  case bad => rfl
  case other => rw [helloOpened_of_other (by rw [ht]; exact h)]
  case opens =>
    rw [helloOpened_of_nonce (by rw [ht]; exact ha) (by rw [ht]; exact hn), ht]
    rfl

/-! ### The active core's session -/

/-- R611, R620: what a STATUS that the standby sends comes to at the active core. -/
def statusHeard (wire : Bytes) (s : State) : State :=
  if !s.mir.session || !s.sby.session then (if s.mir.lostAt.isSome then s else beginSession s)
  else
    let seq := s.sby.txSeq
    let s := s.modSby (fun y => { y with txSeq := y.txSeq + 1 })
    if wire != frameWire 1 s.mir.key 0x81 seq (statusBytes s.sby) then mirrorAuth seq s
    else
      let fs := s.sby.faults.take 8
      let s := onlyIf (!s.tamper.cleared) (forEach fs (fun f => State.modFq (FaultQ.push f))) (s.modSby (fun y => { y with faults := y.faults.drop 8 }))
      let s := s.modMir (fun m => { m with ready := s.sby.isReady, stale := s.sby.shadowStale, statusSeen := true, lastStatus := s.timer })
      onlyIf (s.sby.shadowStale && !s.ks.held.contains 2 && !(s.dieN 2).inReset) (startSync 2) s

/-- R613: the frames that ACK `n` acknowledges let their changes take effect. -/
def ackTaken (n : Nat) (u : State) : State :=
  forEach (u.mir.unacked.filter (fun x => x.frame.seq == n)) releaseFrame (mirPump (u.modMir (fun m => { m with unacked := m.unacked.filter (fun x => x.frame.seq != n) })))

/-- R614: what the end of 20 µs comes to for the frame `w` first due, in `u`. -/
def ackLate (w : Unacked) (u : State) : State :=
  if w.resent then loseStandby 2 u
  else u.modMir (fun m => { m with
    unacked := m.unacked.map (fun x => if x.frame.seq = w.frame.seq then { x with resent := true, sentAt := u.timer } else x),
    toStandby := m.toStandby ++ [w.frame] })

/-- R606: a second after a loss, in `u`, a new session begins where it can. -/
def resynced (u : State) : State :=
  let v := raise false kMirror 0 fStandbyLost 0 4 (u.modMir (fun m => { m with lostAt := none }))
  onlyIf (v.sby.alive && ksUp v) beginSession v

section
variable {s : State} {wire : Bytes}

theorem exec_heartbeatInterval_of_up (hup : s.ports.rstCold = false) : exec .heartbeatInterval s = .next (onlyIf (s.mir.session && !s.mir.site && ksUp s) (fun s =>
    let s := reachTime (s.mir.beatAt + 1000) s
    s.modMir (fun m => { m with
      txSeq := m.txSeq + 1, beatAt := s.timer, missed := if m.statusSeen then m.missed else satInc m.missed, statusSeen := false,
      toStandby := m.toStandby ++ [⟨m.txSeq, .heartbeat (BitVec.ofNat 64 s.timer) s.att.quoteSeq s.att.bootCount (s.head.seq - 1)⟩] })) s) :=
  congrArg _ (whenUp_up _ hup)

theorem exec_status_of_up (hup : s.ports.rstCold = false) : exec (.status wire) s = .next (onlyIf (s.sby.alive && !s.mir.site && ksUp s) (statusHeard wire) s) :=
  congrArg _ (whenUp_up _ hup)

theorem statusHeard_of_session (h : s.mir.session = true) (h' : s.sby.session = true) : statusHeard wire s =
    if wire != frameWire 1 s.mir.key 0x81 s.sby.txSeq (statusBytes s.sby) then
      mirrorAuth s.sby.txSeq { s with sby := { s.sby with txSeq := s.sby.txSeq + 1 } }
    else
      let u := { s with sby := { s.sby with txSeq := s.sby.txSeq + 1, faults := s.sby.faults.drop 8 } }
      let v := onlyIf (!s.tamper.cleared) (forEach (s.sby.faults.take 8) (fun f => State.modFq (FaultQ.push f))) u
      let w := v.modMir (fun m => { m with ready := v.sby.isReady, stale := v.sby.shadowStale, statusSeen := true, lastStatus := v.timer })
      onlyIf (w.sby.shadowStale && !w.ks.held.contains 2 && !(w.dieN 2).inReset) (startSync 2) w := by
  rw [show statusBytes s.sby = statusBytes (s.modSby (fun y => { y with txSeq := y.txSeq + 1 })).sby from rfl]
  exact if_neg (by simp [h, h'])

theorem exec_mirrorAck_of_ack {seq n : Nat} {fs : List Frame} {u : State} (hup : s.ports.rstCold = false) (hf : s.mir.toActive = { seq := seq, body := .ack n } :: fs)
    (hu : u = { s with mir := { s.mir with toActive := fs } }) :
    exec (.mirrorAck wire) s = .next (if s.mir.site || !s.mir.session then u
      else if wire != Frame.wire 1 s.mir.key { seq := seq, body := .ack n } then mirrorAuth seq u
      else settle (onlyIf ((ackTaken n u).mir.unacked.isEmpty && (ackTaken n u).mir.backlog.isEmpty && (ackTaken n u).sby.session)
        (State.modSby (fun y => { y with copyDone := true })) (ackTaken n u))) := by
  refine congrArg _ ((whenUp_up _ hup).trans ?_)
  rw [hf, hu]
  rfl

theorem exec_mirrorAckTimeout_of_unacked {x : Unacked} {xs : List Unacked} (hup : s.ports.rstCold = false) (hx : s.mir.unacked = x :: xs) (hs : s.mir.site = false) :
    exec .mirrorAckTimeout s = .next (ackLate (firstDue x xs) (reachTime ((firstDue x xs).sentAt + 20) s)) := by
  refine congrArg _ ((whenUp_up _ hup).trans ?_)
  rw [hx]
  exact if_neg (by simp [hs])

theorem exec_standbyLost_of_up (hup : s.ports.rstCold = false) :
    exec .standbyLost s = .next (onlyIf (s.mir.session && !s.mir.site) (fun s => loseStandby 1 (reachTime (s.mir.lastStatus + 2000) s)) s) :=
  congrArg _ (whenUp_up _ hup)

theorem exec_mirrorResync_of_lost {t : Nat} (hup : s.ports.rstCold = false) (hl : s.mir.lostAt = some t) (hs : s.mir.site = false) :
    exec .mirrorResync s = .next (resynced (reachTime (t + 1000000) s)) := by
  refine congrArg _ ((whenUp_up _ hup).trans ?_)
  rw [hl]
  exact if_neg (by simp [hs])

end

/-- Settles O52: each event by the session and the frame that it meets. -/
theorem theActiveCoreServesItsMirrorSession : Obligations.TheActiveCoreServesItsMirrorSession := by
  intro s hup
  refine ⟨fun h => ?noBeat, fun u h1 h2 h3 hu => ?beat, fun h => ?noHold, fun t u hh hu => ?hold, fun wire h => ?noStatus, fun wire ha hs hk => ?status,
    fun wire seq n fs u hf hu => ?ack, fun h => ?noLate, fun x xs w u hx hs hw hu => ?late, fun h => ?noLoss, fun h1 h2 => ?loss, fun h => ?noResync,
    fun t u v hl hs hu hv => ?resync⟩
  case noBeat =>
    rw [exec_heartbeatInterval_of_up hup]
    refine congrArg _ (if_neg ?_)
    rcases h with h | h | h <;> simp [h]
  case beat =>
    subst hu
    rw [exec_heartbeatInterval_of_up hup]
    exact congrArg _ (if_pos (by simp [h1, h2, h3]))
  case noHold =>
    refine congrArg _ ((whenUp_up _ hup).trans ?_)
    rw [h]
  case hold =>
    subst hu
    refine congrArg _ ((whenUp_up _ hup).trans ?_)
    rw [hh]
    rfl
  case noStatus =>
    rw [exec_status_of_up hup]
    refine congrArg _ (if_neg ?_)
    rcases h with h | h | h <;> simp [h]
  case status =>
    have hon : (s.sby.alive && !s.mir.site && ksUp s) = true := by simp [ha, hs, hk]
    rw [exec_status_of_up hup, hon, onlyIf_true]
    refine ⟨fun h => ?_, fun h h' => ?_⟩
    · rw [statusHeard, if_pos (by simpa using h)]
      exact ⟨fun hl => congrArg _ (if_pos hl), fun hl => congrArg _ (if_neg (by simp [hl]))⟩
    · rw [statusHeard_of_session h h']
      refine ⟨fun hw => congrArg _ (if_pos (bne_iff_ne.2 hw)), fun hw u v w hu hv hw' => ?_⟩
      rw [if_neg (by rw [hw, bne_self_eq_false]; exact Bool.false_ne_true)]
      have hv : onlyIf (!s.tamper.cleared) (forEach (s.sby.faults.take 8) (fun f => State.modFq (FaultQ.push f))) u = v := by
        rw [hv]
        cases s.tamper.cleared <;> rfl
      have hw : v.modMir (fun m => { m with ready := v.sby.isReady, stale := v.sby.shadowStale, statusSeen := true, lastStatus := v.timer }) = w := hw'.symm
      dsimp only
      rw [← hu, hv, hw]
      refine ⟨fun h1 h2 h3 => congrArg _ (if_pos (by rw [h1, h2, h3]; rfl)), fun h => congrArg _ (if_neg ?_)⟩
      rcases h with h | h | h
      · rw [h]
        exact Bool.false_ne_true
      · rw [h]
        cases w.sby.shadowStale <;> exact Bool.false_ne_true
      · rw [h, Bool.not_true, Bool.and_false]
        exact Bool.false_ne_true
  case ack =>
    rw [exec_mirrorAck_of_ack hup hf hu]
    refine ⟨fun h => congrArg _ (if_pos (by simpa using h)), fun h h' => ?_⟩
    rw [if_neg (by simp [h, h'])]
    refine ⟨fun hw => congrArg _ (if_pos (bne_iff_ne.2 hw)), fun hw v hv => ?_⟩
    rw [if_neg (by rw [hw, bne_self_eq_false]; exact Bool.false_ne_true)]
    have hv : v = ackTaken n u := by
      rw [hv, hu]
      rfl
    rw [← hv]
    refine ⟨fun h1 h2 h3 => congrArg _ (congrArg _ (if_pos (by rw [h1, h2, h3]; rfl))), fun h => congrArg _ (congrArg _ (if_neg ?_))⟩
    rcases h with h | h | h <;> simp [h]
  case noLate =>
    refine congrArg _ ((whenUp_up _ hup).trans ?_)
    rcases h with h | h
    · rw [h]
    · rw [h]
      split <;> rfl
  case late =>
    rw [exec_mirrorAckTimeout_of_unacked hup hx hs, ← hw, ← hu]
    exact ⟨fun h => congrArg _ (if_pos h), fun h => congrArg _ (if_neg (by simp [h]))⟩
  case noLoss =>
    rw [exec_standbyLost_of_up hup]
    refine congrArg _ (if_neg ?_)
    rcases h with h | h <;> simp [h]
  case loss =>
    rw [exec_standbyLost_of_up hup]
    exact congrArg _ (if_pos (by simp [h1, h2]))
  case noResync =>
    refine congrArg _ ((whenUp_up _ hup).trans ?_)
    rcases h with h | h
    · rw [h]
    · rw [h]
      split <;> rfl
  case resync =>
    have hexec : exec .mirrorResync s = .next (onlyIf (v.sby.alive && ksUp v) beginSession v) := by
      rw [exec_mirrorResync_of_lost hup hl hs, ← hu, hv]
      rfl
    rw [hexec]
    refine ⟨fun h1 h2 => congrArg _ (if_pos (by rw [h1, h2]; rfl)), fun h => congrArg _ (if_neg ?_)⟩
    rcases h with h | h <;> simp [h]

end Sys2Proof.Machine
end

section
/-!
PROOFS. Register reads over their paths (R626, R671 to R679) and telemetry (R461).
-/

namespace Sys2Proof.Machine
open Sys2Proof

/-- R461: what a TELEMETRY_READ comes to. -/
def decideTelemetry (w : Waiter) (body : Bytes) (s : State) : State :=
  if fieldLe body 6 2 ≠ 0 then refuse w eReserved s
  else if fieldLe body 4 2 = 0 ∨ 64 < fieldLe body 4 2 ∨ fieldLe body 0 4 % 4 ≠ 0 ∨
      !((List.range (fieldLe body 4 2)).all (fun i => telemetryMay (fieldLe body 0 4 + 4 * i))) then refuse w eRange s
  else
    reply { w with body := (telemetryWords (Fin.ofNat 4 s.boot.bootCore) (fieldLe body 0 4) (fieldLe body 4 2) s).1 } eOk
      (telemetryWords (Fin.ofNat 4 s.boot.bootCore) (fieldLe body 0 4) (fieldLe body 4 2) s).2

section
variable {s : State} {p : Path} {addr : BitVec 24} {a : Nat}

/-- R411: the drawn words stand on the entropy page. -/
theorem drawOutAt_eq_some {k i : Nat} (h : drawOutAt a = some (k, i)) : 0x59100 ≤ a := by
  unfold drawOutAt at h
  dsimp only at h
  split at h
  · next hc => exact hc.1
  · cases h

theorem exec_loWordRead_of_word (h : drawOutAt addr.toNat = none) : exec (.loWordRead p addr) s = .next (readAt p addr.toNat s) := by
  have hrow : onlyIf (drawOutAt addr.toNat).isNone (readAt p addr.toNat) s = readAt p addr.toNat s := by rw [h]; rfl
  exact congrArg done hrow

theorem exec_loWordRead_of_drawn (h : (drawOutAt addr.toNat).isSome = true) : exec (.loWordRead p addr) s = .next s := by
  have hrow : onlyIf (drawOutAt addr.toNat).isNone (readAt p addr.toNat) s = s := by
    rw [← Option.not_isSome, h]
    rfl
  exact congrArg done hrow

theorem exec_drawOutRead_of_drawn (h : (drawOutAt addr.toNat).isSome = true) : exec (.drawOutRead p addr) s = .next (readAt p addr.toNat s) := by
  have hrow : onlyIf (drawOutAt addr.toNat).isSome (readAt p addr.toNat) s = readAt p addr.toNat s := by rw [h]; rfl
  exact congrArg done hrow

theorem exec_drawOutRead_of_word (h : drawOutAt addr.toNat = none) : exec (.drawOutRead p addr) s = .next s := by
  have hrow : onlyIf (drawOutAt addr.toNat).isSome (readAt p addr.toNat) s = s := by rw [h]; rfl
  exact congrArg done hrow

theorem readWipe_of_word (h : drawOutAt a = none) : readWipe p a s = s := by
  unfold readWipe
  rw [h]

theorem readWipe_of_drawn {k i : Nat} (h : drawOutAt a = some (k, i)) (hp : coreOf p = some k) :
    readWipe p a s = { s with ent := { s.ent with draws := vmod s.ent.draws k (fun x => { x with out := x.out.set i 0 }) } } := by
  unfold readWipe
  rw [h]
  exact if_pos (by rw [hp]; exact beq_self_eq_true _)

theorem pkForeign_eq (s : State) : pkForeign s = { s with pk := { s.pk with foreign := satInc s.pk.foreign } } := rfl

theorem readForeign_eq (p : Path) (a : Nat) (s : State) : readForeign p a s =
    if 0x31000 ≤ a ∧ a < 0x49000 ∧ ownsSlot ((a - 0x31000) / 0x3000) p = false then { s with pk := { s.pk with foreign := satInc s.pk.foreign } } else s := by
  unfold readForeign
  rw [← pkForeign_eq]
  simp only [Bool.not_eq_true']

theorem readLatch_of_none (h : pageAt a = none) : readLatch p a s = s := by rw [readLatch, h]

theorem readLatch_of_narrow {pg : Page} (hp : pageAt a = some pg) (h : ownerReads s p pg (a % 0x1000) = false ∨ wide s pg (a % 0x1000) = none) :
    readLatch p a s = s := by
  rw [readLatch, hp]
  dsimp only
  rcases h with h | h
  · rw [if_pos (by simp [h])]
  · rw [h]
    exact ite_self _

theorem readLatch_of_wide {pg : Page} {v : BitVec 64} (hp : pageAt a = some pg) (ho : ownerReads s p pg (a % 0x1000) = true)
    (hv : wide s pg (a % 0x1000) = some v) : readLatch p a s = { s with ports := { s.ports with
      latches := s.ports.latches.filter (fun l => !(l.1 == pathKey p && l.2.1.toNat == a)) ++ [(pathKey p, BitVec.ofNat 24 a, v.extractLsb' 32 32)] } } := by
  rw [readLatch, hp]
  dsimp only
  rw [if_neg (by simp [ho]), hv]
  rfl

theorem readAt_of_unreached (hup : s.ports.rstCold = false) (h : reaches s p a = false) : readAt p a s = accessError p s := by
  rw [readAt, if_neg (by simp [hup]), if_pos (by simp [h])]

theorem exec_ctlTimeout_of_up {w : Bool} (hup : s.ports.rstCold = false) : exec (.ctlTimeout p addr w) s =
    .next (onlyIf (reaches s p addr.toNat && !clocked s addr.toNat) (fun s =>
      (accessError p (raise false kControl 0 fCtlTimeout 0 addr.toNat (reachTime (s.timer + 10) s))).modPorts (fun q => { q with ctlErrRecent := true })) s) :=
  congrArg _ (whenUp_up _ hup)

theorem not_all_telemetryMay_iff (a n : Nat) : (!((List.range n).all (fun i => telemetryMay (a + 4 * i)))) = true ↔ ∃ i, i < n ∧ telemetryMay (a + 4 * i) = false := by
  simp

end

/-- Settles O53: a read by its address, telemetry by its words. -/
theorem registerReadsAnswerTheirPath : Obligations.RegisterReadsAnswerTheirPath := by
  refine ⟨fun s p addr h hm => ⟨fun k i hd => ⟨exec_loWordRead_of_drawn (by rw [hd]; rfl), fun hp hk => ?drawn⟩,
      fun hd => ⟨exec_drawOutRead_of_word hd, fun t ht => ?word⟩⟩,
    fun s d cls addr p hp hup hr => ⟨fun hd => ?errorWord, fun hd => ?errorDrawn⟩,
    fun s p addr w hup => ⟨fun h => ?noTimeout, fun t hr hc ht => ?timeout⟩,
    fun s sess tag body x w u addr n hx hl hw hu haddr hn => ?telemetry⟩
  case drawn =>
    have hlow := drawOutAt_eq_some hd
    have hcore : coreOf p = some k := by
      rw [hp]
      exact congrArg some (Nat.mod_eq_of_lt hk)
    rw [exec_drawOutRead_of_drawn (by rw [hd]; rfl), readAt_ok h hm, readWipe_of_drawn hd hcore, readForeign_eq, if_neg (by omega)]
  case word =>
    have hread : exec (.loWordRead p addr) s = .next (accessOk p (ctlRead s p addr.toNat) (readLatch p addr.toNat t)) := by
      rw [exec_loWordRead_of_word hd, readAt_ok h hm, readWipe_of_word hd, readForeign_eq, ← ht]
    rw [hread]
    exact ⟨fun hp => by rw [readLatch_of_none hp], fun pg hp => ⟨fun hn => by rw [readLatch_of_narrow hp hn], fun v ho hv => by rw [readLatch_of_wide hp ho hv]⟩⟩
  case errorWord =>
    subst hp
    rw [exec_loWordRead_of_word hd, readAt_of_unreached hup hr]
    rfl
  case errorDrawn =>
    subst hp
    rw [exec_drawOutRead_of_drawn (Option.isSome_iff_ne_none.2 hd), readAt_of_unreached hup hr]
    rfl
  case noTimeout =>
    rw [exec_ctlTimeout_of_up hup]
    refine congrArg _ (if_neg ?_)
    rcases h with h | h <;> simp [h]
  case timeout =>
    rw [exec_ctlTimeout_of_up hup, ht]
    exact congrArg _ (if_pos (by simp [hr, hc]))
  case telemetry =>
    subst hu haddr hn
    have hexec : exec (.telemetryRead sess tag body) s = .next (decideTelemetry w body (asked sess s)) :=
      done_message hw hx hl (fun _ w s => decideTelemetry w body s)
    rw [hexec]
    refine ⟨fun h => congrArg _ (if_pos h), fun h => ⟨fun hbad => congrArg _ ((if_neg (not_not.2 h)).trans (if_pos ?_)),
      fun h0 h64 h4 hmay => congrArg _ ((if_neg (not_not.2 h)).trans (if_neg ?_))⟩⟩
    · rwa [not_all_telemetryMay_iff]
    · rw [not_all_telemetryMay_iff]
      rintro (h | h | h | ⟨i, hi, h⟩)
      · exact h0 h
      · omega
      · exact h h4
      · rw [hmay i hi] at h
        cases h

end Sys2Proof.Machine
end

section
/-!
PROOFS. Register writes by their address (R671 to R684).
-/

namespace Sys2Proof.Machine
open Sys2Proof

/-- R681: an address of the register window is that of a register of page `pg` that is no mask word. -/
structure RegisterOf (pg : Page) (a : Nat) : Prop where
  window : windowAt a = none
  operand : operandAt a = none
  buffer : bufferAt a = none
  page : pageAt a = some pg
  offset : ¬(a % 0x1000 = 0x08 ∨ a % 0x1000 = 0x14)
  aligned : a % 4 = 0

section
variable {s : State} {p : Path} {a : Nat} {v : BitVec 32} {pg : Page}

/-! ### What an address names -/

theorem ctlWrite_of_window {n o : Nat} (h : windowAt a = some (n, o)) (hw : Write s p a) : ctlWrite p a v s = accessOk p 0 (if ownsSlot n p then
      (if s.pk.busy n then { s with pk := { s.pk with dropped := satInc s.pk.dropped } } else modSlot n (fun x => { x with window := bufStore 0 x.window o (vecBytes 4 v) }) s)
    else { s with pk := { s.pk with foreign := satInc s.pk.foreign } }) := by
  unfold ctlWrite
  rw [h]
  exact writeOwned_any hw

theorem ctlWrite_of_operand {o : Nat} (h : windowAt a = none) (ho : operandAt a = some o) (hw : Write s p a) : ctlWrite p a v s = accessOk p 0 { s with vault := { s.vault with
    opnd := bufStore 0 s.vault.opnd o (vecBytes 4 v), shown := bufStore 0 s.vault.shown o (zeros 4) } } := by
  obtain ⟨hreach, hpriv⟩ := hw
  unfold ctlWrite
  rw [h]
  dsimp only
  rw [ho]
  exact writeAt_ok hreach (fun _ => hpriv)

theorem ctlWrite_of_buffer {op inb : Bool} {o : Nat} (h : windowAt a = none) (ho : operandAt a = none) (hb : bufferAt a = some (op, inb, o)) (ha : Access s p a) :
    ctlWrite p a v s = accessOk p 0 (if !op || nodeManagement p then
      (if inb && (s.mbx op).inPost then inDropped op s
      else modBox op (fun m => if inb then { m with inBuf := bufStore 0 m.inBuf o (vecBytes 4 v) } else { m with outBuf := bufStore 0 m.outBuf o (vecBytes 4 v) }) s)
    else s) := by
  unfold ctlWrite
  rw [h]
  dsimp only
  rw [ho]
  dsimp only
  rw [hb]
  dsimp only
  unfold bufferPut boxWrite
  exact writeGated_any ha

theorem ctlWrite_of_page (h : windowAt a = none) (ho : operandAt a = none) (hb : bufferAt a = none) (hp : pageAt a = some pg) : ctlWrite p a v s = pagePut p pg a v s := by
  unfold ctlWrite
  rw [h]
  dsimp only
  rw [ho]
  dsimp only
  rw [hb]
  dsimp only
  rw [hp]

theorem ctlWrite_of_nothing (h : windowAt a = none) (ho : operandAt a = none) (hb : bufferAt a = none) (hp : pageAt a = none) (ha : Access s p a) :
    ctlWrite p a v s = accessOk p 0 s := by
  unfold ctlWrite
  rw [h]
  dsimp only
  rw [ho]
  dsimp only
  rw [hb]
  dsimp only
  rw [hp]
  exact writeAt_ok ha (by simp)

/-- R669, R670: a mask word of a page without an owner rule. -/
theorem pagePut_of_header (hw : Write s p a) (ho : a % 0x1000 = 0x08 ∨ a % 0x1000 = 0x14)
    (hpg : pg ∈ [.identity, .fuse, .bringUp, .faultQ, .vault, .pkControl, .digControl, .entropy, .ingest, .mower, .attestation, .mailbox false] ∨
      (∃ d k, pg = .die d k) ∨ (∃ g k, pg = .guard g k)) : pagePut p pg a v s = accessOk p 0 (modHdr (headerPut (a % 0x1000) v) s pg) := by
  obtain ⟨hreach, hpriv⟩ := hw
  have hput (px : Bool) : writeAt px p a (fun t => modHdr (headerPut (a % 0x1000) v) t pg) s = accessOk p 0 (modHdr (headerPut (a % 0x1000) v) s pg) :=
    writeAt_ok hreach (fun _ => hpriv)
  refine (if_pos ho).trans ?_
  simp only [List.mem_cons, List.not_mem_nil, or_false] at hpg
  rcases hpg with (rfl | rfl | rfl | rfl | rfl | rfl | rfl | rfl | rfl | rfl | rfl | rfl) | ⟨d, k, rfl⟩ | ⟨g, k, rfl⟩
  · exact hput false
  all_goals exact hput true

/-! ### Registers by their page -/

theorem exec_registerWrite_of_register {a : BitVec 24} (h : RegisterOf pg a.toNat) : exec (.registerWrite p a v) s = .next (pagePut p pg a.toNat v s) := by
  rw [regWrite_exec h.aligned, ctlWrite_of_page h.window h.operand h.buffer h.page]

theorem registerOf_plain : RegisterOf .vault 0x20024 ∧ RegisterOf .vault 0x20028 ∧ RegisterOf .fuse 0x11024 ∧ RegisterOf .fuse 0x11028 ∧ RegisterOf .fuse 0x11030 ∧
    RegisterOf .faultQ 0x1302C := by
  refine ⟨?_, ?_, ?_, ?_, ?_, ?_⟩ <;> constructor <;> decide

theorem registerOf_row : RegisterOf .boot 0x10030 ∧ RegisterOf .boot 0x10038 ∧ RegisterOf .fuse 0x1105C ∧ RegisterOf .bringUp 0x1205C ∧ RegisterOf .failover 0x14024 ∧
    (∀ o ∈ [0x20, 0x100, 0x180, 0x200, 0x280], RegisterOf .entropy (0x59000 + o)) ∧ RegisterOf .ingest 0x6003C ∧ RegisterOf .mower 0x6103C := by
  refine ⟨?_, ?_, ?_, ?_, ?_, fun o ho => ?_, ?_, ?_⟩
  case refine_6 =>
    simp only [List.mem_cons, List.not_mem_nil, or_false] at ho
    rcases ho with rfl | rfl | rfl | rfl | rfl <;> constructor <;> decide
  all_goals constructor <;> decide

theorem pagePut_of_register {t : State} (h : RegisterOf pg a)
    (ht : pagePut p pg a v s = if a % 0x1000 = 0x08 ∨ a % 0x1000 = 0x14 then headerWrite p pg a v s else t) : pagePut p pg a v s = t := ht.trans (if_neg h.offset)

/-- A command that is a register's row answers the state that the write leaves. -/
theorem next_stateOr {o : Out} {x : State} (h : o = done x) : .next (o.stateOr s) = o := by
  rw [h]
  rfl

end

/-- R674: the rows of guard registers, by the page and the offset of their address. -/
theorem exec_registerWrite_guard {s : State} {p : Path} {v : BitVec 32} {g : Fin 40} {o : Nat} {c : Instr} (h : (o, c) ∈ [(0x20, Instr.fence g p v),
      (0x24, .guardThrottle g p v), (0x28, .guardLaneShare g p v), (0x70, .guardErrClear g p v), (0x102C, .guardTagfailClear g p v), (0x3028, .kcQuery g p v),
      (0x4034, .guardMissClear g p v)]) : exec (.registerWrite p (BitVec.ofNat 24 (guardAddr g o)) v) s = exec c s := by
  have hrow {o : Nat} {out : Out} {x : State} (ho : o ∈ [0x20, 0x24, 0x28, 0x70, 0x102C, 0x3028, 0x4034]) (hout : out = done x)
      (hput : guardPut p g (o / 0x1000) (o % 0x1000) (guardAddr g o) v s = out.stateOr s) :
      exec (.registerWrite p (BitVec.ofNat 24 (guardAddr g o)) v) s = out := by
    rw [regWrite_guard ho, hput, next_stateOr hout]
  simp only [List.mem_cons, List.not_mem_nil, or_false, Prod.mk.injEq] at h
  rcases h with ⟨rfl, rfl⟩ | ⟨rfl, rfl⟩ | ⟨rfl, rfl⟩ | ⟨rfl, rfl⟩ | ⟨rfl, rfl⟩ | ⟨rfl, rfl⟩ | ⟨rfl, rfl⟩
  all_goals exact hrow (by decide) rfl rfl

/-- R671, R674: the rows of other registers, by their page. -/
theorem exec_registerWrite_row {s : State} {p : Path} {v : BitVec 32} {a : BitVec 24} {c : Instr} (h : (a, c) ∈ [(0x10030#24, Instr.bootRelease p v),
      (0x10038, .bootHandover p v), (0x1105C, .tmxCtl p v), (0x1205C, .fpSample p v), (0x14024, .foWdog p v), (0x59020, .reseed p v), (0x59100, .entDraw 0 p v),
      (0x59180, .entDraw 1 p v), (0x59200, .entDraw 2 p v), (0x59280, .entDraw 3 p v), (0x6003C, .ingestAbort p v), (0x6103C, .mowerAbort p v)]) :
    exec (.registerWrite p a v) s = exec c s := by
  have hrow {a : BitVec 24} {pg : Page} {o : Out} {x : State} (hr : RegisterOf pg a.toNat) (ho : o = done x)
      (hput : (pagePut p pg a.toNat v s) = o.stateOr s) : exec (.registerWrite p a v) s = o := by
    rw [exec_registerWrite_of_register hr, hput, next_stateOr ho]
  obtain ⟨h1, h2, h3, h4, h5, h6, h7, h8⟩ := registerOf_row
  simp only [List.mem_cons, List.not_mem_nil, or_false, Prod.mk.injEq] at h
  rcases h with ⟨rfl, rfl⟩ | ⟨rfl, rfl⟩ | ⟨rfl, rfl⟩ | ⟨rfl, rfl⟩ | ⟨rfl, rfl⟩ | ⟨rfl, rfl⟩ | ⟨rfl, rfl⟩ | ⟨rfl, rfl⟩ | ⟨rfl, rfl⟩ | ⟨rfl, rfl⟩ | ⟨rfl, rfl⟩ | ⟨rfl, rfl⟩
  · exact hrow h1 rfl (pagePut_of_register h1 rfl)
  · exact hrow h2 rfl (pagePut_of_register h2 rfl)
  · exact hrow h3 rfl (pagePut_of_register h3 rfl)
  · exact hrow h4 rfl (pagePut_of_register h4 rfl)
  · exact hrow h5 rfl (pagePut_of_register h5 rfl)
  · exact hrow (h6 0x20 (by decide)) rfl (pagePut_of_register (h6 0x20 (by decide)) rfl)
  · exact hrow (h6 0x100 (by decide)) rfl (pagePut_of_register (h6 0x100 (by decide)) rfl)
  · exact hrow (h6 0x180 (by decide)) rfl (pagePut_of_register (h6 0x180 (by decide)) rfl)
  · exact hrow (h6 0x200 (by decide)) rfl (pagePut_of_register (h6 0x200 (by decide)) rfl)
  · exact hrow (h6 0x280 (by decide)) rfl (pagePut_of_register (h6 0x280 (by decide)) rfl)
  · exact hrow h7 rfl (pagePut_of_register h7 rfl)
  · exact hrow h8 rfl (pagePut_of_register h8 rfl)

/-- R310, R531, R602: the registers that only store what is written. -/
theorem exec_registerWrite_plain {s t : State} {p : Path} {v : BitVec 32} {a : BitVec 24} (hw : Write s p a.toNat)
    (h : (a, t) ∈ [(0x20024#24, { s with vault := { s.vault with arg := v } }), (0x20028, { s with vault := { s.vault with len := v.extractLsb' 0 9 } }),
      (0x11024, { s with fuse := { s.fuse with data := putLow s.fuse.data v } }), (0x11028, { s with fuse := { s.fuse with data := putHigh s.fuse.data v } }),
      (0x11030, { s with fuse := { s.fuse with readSel := v.extractLsb' 0 9 } }), (0x1302C, { s with fq := { s.fq with ovfSel := v.extractLsb' 0 21 } })]) :
    exec (.registerWrite p a v) s = .next (accessOk p 0 t) := by
  obtain ⟨hreach, hpriv⟩ := hw
  have hrow {pg : Page} {k : State → State} (hr : RegisterOf pg a.toNat) (hput : pagePut p pg a.toNat v s = writeAt true p a.toNat k s) :
      exec (.registerWrite p a v) s = .next (accessOk p 0 (k s)) := by
    rw [exec_registerWrite_of_register hr, hput, writeAt_ok hreach (fun _ => hpriv)]
  obtain ⟨h1, h2, h3, h4, h5, h6⟩ := registerOf_plain
  simp only [List.mem_cons, List.not_mem_nil, or_false, Prod.mk.injEq] at h
  rcases h with ⟨rfl, rfl⟩ | ⟨rfl, rfl⟩ | ⟨rfl, rfl⟩ | ⟨rfl, rfl⟩ | ⟨rfl, rfl⟩ | ⟨rfl, rfl⟩
  · exact hrow h1 (pagePut_of_register h1 rfl)
  · exact hrow h2 (pagePut_of_register h2 rfl)
  · exact hrow h3 (pagePut_of_register h3 rfl)
  · exact hrow h4 (pagePut_of_register h4 rfl)
  · exact hrow h5 (pagePut_of_register h5 rfl)
  · exact hrow h6 (pagePut_of_register h6 rfl)

/-- Settles O54: a write by what its address names, then by the row of its register. -/
theorem registerWritesGoToTheirAddress : Obligations.RegisterWritesGoToTheirAddress := by
  refine ⟨fun s p addr v h4 => ⟨fun n o hwin hw => ?window, fun hwin => ⟨fun o ho hw => ?operand, fun ho => ⟨fun op inb o hb ha => ?buffer, fun hb =>
      ⟨fun hp ha => ?nothing, fun pg hp hw hoff hpg => ?header⟩⟩⟩⟩,
    fun s k addr v h4 => ?unaligned, fun s p v a t hw h => exec_registerWrite_plain hw h,
    fun s p v => ⟨fun a c h => exec_registerWrite_row h, fun g o c h => exec_registerWrite_guard h⟩⟩
  case window =>
    rw [regWrite_exec h4, ctlWrite_of_window hwin hw]
    refine ⟨fun ho => by rw [if_neg (by simp [ho])], fun ho hb => by rw [if_pos ho, if_pos hb], fun ho hb => by rw [if_pos ho, if_neg (by simp [hb])]⟩
  case operand => rw [regWrite_exec h4, ctlWrite_of_operand hwin ho hw]
  case buffer =>
    rw [regWrite_exec h4, ctlWrite_of_buffer hwin ho hb ha]
    refine ⟨fun h1 h2 => ?_, fun h => ?_⟩
    · rw [h1, h2]
      rfl
    · rw [if_pos (by simpa using h)]
      refine ⟨fun hi hq => congrArg _ (congrArg _ (if_pos (by rw [hi, hq]; rfl))), fun hi hq => ?_, fun hi => ?_⟩
      · rw [if_neg (by simp [hq]), hi]
        rfl
      · rw [hi]
        rfl
  case nothing => rw [regWrite_exec h4, ctlWrite_of_nothing hwin ho hb hp ha]
  case header => rw [regWrite_exec h4, ctlWrite_of_page hwin ho hb hp, pagePut_of_header hw hoff hpg]
  case unaligned =>
    have hrow : onlyIf (addr.toNat % 4 == 0 || false) (ctlWrite (.core k) addr.toNat v) s = s := by
      rw [beq_eq_false_iff_ne.2 h4]
      rfl
    exact congrArg done hrow

end Sys2Proof.Machine
end

section
/-!
PROOFS. The mailboxes and the DMA port (R629 to R633, R682 to R685), and the indications that pass (R602).
-/

namespace Sys2Proof.Machine
open Sys2Proof

section
variable {s : State} {op : Bool} {p : Path} {v : BitVec 32}

/-! ### Mailboxes -/

theorem boxWrite_ok {a : Nat} {k : State → State} (h : Access s p a) : boxWrite op p a k s = accessOk p 0 (if !op || nodeManagement p then k s else s) := writeGated_any h

theorem exec_mailboxPost_of_post (hb : bitAt v 31 = true) (h : Access s p (boxPage op + 0x20)) :
    exec (.mailboxPost op p v) s = .next (accessOk p 0 (if !op || nodeManagement p then inCtlWrite op v s else s)) := by
  have hrow : onlyIf (bitAt v 31) (boxWrite op p (boxPage op + 0x20) (inCtlWrite op v)) s = accessOk p 0 (if !op || nodeManagement p then inCtlWrite op v s else s) := by
    rw [hb]
    exact boxWrite_ok h
  exact congrArg done hrow

theorem exec_taken_of_bit (hb : bitAt v 0 = true) (h : Access s p (boxPage op + 0x28)) :
    exec (.taken op p v) s = .next (accessOk p 0 (if !op || nodeManagement p then outCtlWrite op v s else s)) := by
  have hrow : onlyIf (bitAt v 0) (boxWrite op p (boxPage op + 0x28) (outCtlWrite op v)) s = accessOk p 0 (if !op || nodeManagement p then outCtlWrite op v s else s) := by
    rw [hb]
    exact boxWrite_ok h
  exact congrArg done hrow

theorem inCtlWrite_of_post {u : State} {n : Nat} (hb : bitAt v 31 = true) (hn : n = bitsOf v 10 0) (hu : u = modBox op (fun m => { m with inLen := BitVec.ofNat 11 n }) s)
    (h : (s.mbx op).inPost = false) : inCtlWrite op v s = if n < 5 ∨ 1028 < n then inDropped op u else takePosted op (modBox op (fun m => { m with inPost := true }) u) := by
  subst hn hu
  refine (if_neg (by simp [h])).trans ?_
  exact if_neg (by simp [hb])

theorem mbx_modBox_inPost (op : Bool) (s : State) : ((modBox op (fun m => { m with inPost := true }) s).mbx op).inPost = true := by
  cases op <;> rfl

theorem takePosted_of_waits (h : attUp s = false) : takePosted op s = s := if_neg (by simp [h])

theorem takePosted_of_taken (h : attUp s = true) (hp : (s.mbx op).inPost = true) : takePosted op s = modBox op (fun m =>
    arrivePacket (bufLoad 0 m.inBuf 0 m.inLen.toNat) { m with inPost := false, taken := bufLoad 0 m.inBuf 0 m.inLen.toNat :: m.taken }) s :=
  if_pos (by rw [h, hp]; rfl)

/-! ### DMA responses -/

theorem exec_dmaResponse_of_none {id : BitVec 6} {err : Bool} {data : BitVec 512} (hup : s.ports.rstCold = false) (h : s.dma.flight.find? (fun f => f.1 == id) = none) :
    exec (.dmaResponse id err data) s = .next s := by
  refine congrArg _ ((whenUp_up _ hup).trans ?_)
  rw [h]

/-- R631, R633: what a response comes to for the work that its request serves, once it has left the flight in `u`. -/
def dmaAnswered (n k : Nat) (write err : Bool) (data : BitVec 512) (u : State) : Option (DmaWork × Nat × Nat) → State
  | none => dmaPump u
  | some (w, _, _) =>
    if err then settle (dmaPump (dmaFailed n w u))
    else settle (dmaPump (dmaArrived n w (if write then u else u.modDma (fun d => { d with lines := d.lines ++ [(n, k, data)] }))))

theorem exec_dmaResponse_of_flight {id j : BitVec 6} {n k : Nat} {write err : Bool} {data : BitVec 512} {u : State} (hup : s.ports.rstCold = false)
    (h : s.dma.flight.find? (fun f => f.1 == id) = some (j, n, k, write))
    (hu : u = { s with dma := { s.dma with flight := s.dma.flight.filter (fun f => f.1 != id) } }) :
    exec (.dmaResponse id err data) s = .next (dmaAnswered n k write err data u (s.dma.work n)) := by
  have hwork : s.dma.work n = u.dma.work n := by
    rw [hu]
    rfl
  refine congrArg _ ((whenUp_up _ hup).trans ?_)
  rw [h, hwork, hu]
  rfl

end

/-- Settles O55: a packet by its length, a response by its work, an indication by its page and bit. -/
theorem mailboxesAndTheDmaPortExchangeTheirData : Obligations.MailboxesAndTheDmaPortExchangeTheirData := by
  refine ⟨fun s u op p v n hb hn h hu => ⟨fun ho hm => ?otherPost, fun ho => ?post⟩, fun s op p v hb h => ⟨fun ho hm => ?otherTaken, fun ho => ?taken⟩,
    fun s id err data hup => ⟨exec_dmaResponse_of_none hup, fun j n k write u hf hu => ?response⟩,
    fun s hup => ⟨fun pg b hp => ?noPage, fun pg b t h => ?recent, fun d => ⟨recent_at hup rfl (diePages d), recent_at hup rfl (diePages d)⟩,
      fun g => ⟨recent_at hup rfl (guardPage0 g), recent_at hup rfl (guardPage3 g), recent_at hup rfl (guardPage3 g)⟩⟩⟩
  case otherPost => rw [exec_mailboxPost_of_post hb h, if_neg (by simp [ho, hm])]
  case post =>
    rw [exec_mailboxPost_of_post hb h, if_pos (by simpa using ho)]
    refine ⟨fun hq => congrArg _ (congrArg _ (if_pos hq)), fun hq => ?_⟩
    rw [inCtlWrite_of_post hb hn hu hq]
    refine ⟨fun hlen => congrArg _ (congrArg _ (if_pos hlen)), fun h5 h1028 t ht => ?_⟩
    have hpost : (t.mbx op).inPost = true := by
      rw [ht]
      exact mbx_modBox_inPost op u
    rw [if_neg (by omega), ← ht]
    exact ⟨fun hat => by rw [takePosted_of_waits hat], fun hat => by rw [takePosted_of_taken hat hpost]⟩
  case otherTaken => rw [exec_taken_of_bit hb h, if_neg (by simp [ho, hm])]
  case taken =>
    rw [exec_taken_of_bit hb h, if_pos (by simpa using ho)]
    exact ⟨fun hr => congrArg _ (congrArg _ (if_neg (by simp [hr]))), fun hr => congrArg _ (congrArg _ (if_pos (by simp [hb, hr])))⟩
  case response =>
    rw [exec_dmaResponse_of_flight hup hf hu]
    refine ⟨fun hn => by rw [hn]; rfl, fun w a l hw => ?_⟩
    have hlines : u.modDma (fun d => { d with lines := d.lines ++ [(n, k, data)] }) = { u with dma := { u.dma with lines := u.dma.lines ++ [(n, k, data)] } } := rfl
    rw [hw, dmaAnswered]
    refine ⟨fun he => by rw [if_pos he], fun he hwr => by rw [if_neg (by simp [he]), if_pos hwr], fun he hwr => ?_⟩
    rw [if_neg (by simp [he]), if_neg (by simp [hwr]), hlines]
  case noPage =>
    refine congrArg _ ((whenUp_up _ hup).trans ?_)
    rw [hp]
  case recent =>
    simp only [List.mem_cons, List.not_mem_nil, or_false, Prod.mk.injEq] at h
    rcases h with ⟨rfl, rfl, rfl⟩ | ⟨rfl, rfl, rfl⟩ | ⟨rfl, rfl, rfl⟩ | ⟨rfl, rfl, rfl⟩ | ⟨rfl, rfl, rfl⟩ | ⟨rfl, rfl, rfl⟩ | ⟨rfl, rfl, rfl⟩ | ⟨rfl, rfl, rfl⟩ |
      ⟨rfl, rfl, rfl⟩ | ⟨rfl, rfl, rfl⟩ | ⟨rfl, rfl, rfl⟩ | ⟨rfl, rfl, rfl⟩ | ⟨rfl, rfl, rfl⟩
    · exact recent_at (x := .identity) hup rfl (by decide)
    · exact recent_at (x := .fuse) hup rfl (by decide)
    · exact recent_at (x := .bringUp) hup rfl (by decide)
    · exact recent_at (x := .failover) hup rfl (by decide)
    · exact recent_at (x := .failover) hup rfl (by decide)
    · exact recent_at (x := .vault) hup rfl (by decide)
    · exact recent_at (x := .pkControl) hup rfl (by decide)
    · exact recent_at (x := .digControl) hup rfl (by decide)
    · exact recent_at (x := .entropy) hup rfl (by decide)
    · exact recent_at (x := .ingest) hup rfl (by decide)
    · exact recent_at (x := .ingest) hup rfl (by decide)
    · exact recent_at (x := .mower) hup rfl (by decide)
    · exact recent_at (x := .mower) hup rfl (by decide)

end Sys2Proof.Machine
end
